-- ==== Sys2Proof/Word.lean ====
section
/-! DEFINITION. The word types of the part and their plainest arithmetic: bytes, 32- and 64-bit words,
the BCLK/ACLK constants of 01 R9, and little-endian assembly of fields (the byte order of every
multi-byte field the spec lays out, e.g. 06 R126, 08 R181). -/

namespace Sys2Proof

abbrev Byte := BitVec 8
abbrev W16 := BitVec 16
abbrev W32 := BitVec 32
abbrev W64 := BitVec 64

/-- `ceil (a / b)`. -/
def ceilDiv (a b : Nat) : Nat := (a + b - 1) / b

/-- `a` rounded up to a multiple of `b`. -/
def roundUp (a b : Nat) : Nat := ceilDiv a b * b

/-- Bits [hi:lo] of `w`, the spec's own way of naming a field (00 "Numbers, units and names"). -/
def bitsOf (w hi lo : Nat) : Nat := w / 2 ^ lo % 2 ^ (hi + 1 - lo)

/-- Bit `i` of `w`. -/
def bitOf (w i : Nat) : Bool := w.testBit i

/-- A Boolean as a bit. -/
def b2n (b : Bool) : Nat := if b then 1 else 0

/-- ACLK cycles per microsecond: 940 MHz (01 R9). -/
def aclkPerUs : Nat := 940

/-- The number of a die that is a compute die's tile (01 R8): tile `t` lies on die `t / 8`. -/
def dieOfTile (t : Nat) : Nat := t / 8

/-- Stack `s` is bonded on die `s / 2` (01 R8). -/
def dieOfStack (s : Nat) : Nat := s / 2

/-- The value of little-endian bytes. -/
def leNat : List Byte → Nat
  | [] => 0
  | b :: bs => b.toNat + 256 * leNat bs

/-- `n` little-endian bytes of `v`. -/
def toLE : Nat → Nat → List Byte
  | 0, _ => []
  | n + 1, v => BitVec.ofNat 8 v :: toLE n (v / 256)

/-- `n` copies of a byte. -/
def rep (n : Nat) (b : Byte) : List Byte := List.replicate n b

/-- `len` bytes of `bs` from `at_`, short reads padded with zero. -/
def sliceB (bs : List Byte) (at_ len : Nat) : List Byte :=
  let x := (bs.drop at_).take len
  x ++ rep (len - x.length) 0

/-- The little-endian field of `len` bytes at `at_`. -/
def fieldB (bs : List Byte) (at_ len : Nat) : Nat := leNat (sliceB bs at_ len)

/-- All bytes are zero: how reserved bytes are checked. -/
def allZero (bs : List Byte) : Bool := bs.all (· == 0)

end Sys2Proof
end

