-- ==== Sys2Proof/Syntax.lean ====
section
/-! DEFINITION. The commands of the block: `Instr` has one constructor per row of
spec/opcode_table.json (no row has bits). The operand types before it are the things a row carries:
descriptors (06 R126), furrow parameters (04 R76), long words (07 R150, given decoded, because the
binary code is private), peer-transport packets (13 R307), management requests (18 R436), and the
physical outcomes (a measured temperature, a failed check) that only the world decides. -/

namespace Sys2Proof

/-- A tensor descriptor's fields (06 R126). `size` and `stride` hold six entries. -/
structure Desc where
  space : Nat
  inst : Nat
  rank : Nat
  fmt : Nat
  base : Nat
  size : List Nat
  stride : List Int
  write : Bool
  layout : Nat
  deriving DecidableEq, Repr, Inhabited

/-- The parameters of a furrow operation (04 R76), descriptors resolved. -/
structure FopParams where
  op : Nat
  sub : Nat
  fmtIn : Nat
  fmtOut : Nat
  vecLen : Nat
  vecCount : Nat
  dst : Option Desc
  srcA : Option Desc
  srcB : Option Desc
  index : Option Desc
  segment : Option Desc
  result : Option Desc
  sc0 : W64
  sc1 : W64
  counter : Option Nat
  signalN : Nat
  deriving DecidableEq, Repr, Inhabited

/-! ### The tile's long word (07 R150) -/

/-- Integer functions of the scalar slot; 07 R149 says "32-bit integer operations" and names none
(PRESUMED set, log entry 12). -/
inductive IntFn | add | sub | mul | and | or | xor | shl | shr | sar | slt | sltu | eq
  deriving DecidableEq, Repr

/-- FP32 compares of 07 R149. -/
inductive Cmp | lt | le | eq | ne
  deriving DecidableEq, Repr

/-- One scalar-slot instruction (07 R149, R150, R153). Register numbers 0 to 31. A branch on a V register compares
FP32, or INT32 where `int` is set (argmax and any-nonzero give INT32). -/
inductive ScalarOp
  | int (f : IntFn) (rd ra rb : Nat)
  | imm (rd : Nat) (v : W32)
  | fadd (rd ra rb : Nat)
  | fmul (rd ra rb : Nat)
  | fcmp (c : Cmp) (rd ra rb : Nat)
  | load (rd ra : Nat) (off : Nat)
  | store (rs ra : Nat) (off : Nat)
  | branch (c : Cmp) (ra rb : Nat) (target : Nat)
  | jump (target : Nat)
  | readV (rd v : Nat)
  | branchV (c : Cmp) (int : Bool) (v rb : Nat) (target : Nat)
  | undefinedOp
  deriving DecidableEq, Repr

/-- Modes of the main array (02 R23). -/
inductive Mode | i8 | f8 | i4 | b16
  deriving DecidableEq, Repr

/-- Range bounds of an output tensor (15 R359). -/
structure Bounds where
  nanOk : Bool
  infOk : Bool
  maxMag : Option W32
  deriving DecidableEq, Repr

/-- A run of rows sharing one adapter (02 R35): rows, rank, outlier channels and where the
outlier values of its rows lie in the scratchpad. -/
structure RowGroup where
  rows : Nat
  rank : Nat
  outliers : List Nat
  outAddr : Nat
  deriving DecidableEq, Repr

/-- One pass (02 R24) with its shadow load (02 R25). `weights` is the K-tiled descriptor of a weight tensor in the
tile's own scratchpad (06 R138, R142) and `block` its block: output block, K block, then the indices of the
dimensions from 2 up. The other addresses are scratchpad offsets. -/
structure PassOp where
  mode : Mode
  actFmt : Nat
  weights : Desc
  block : List Nat
  acts : Nat
  actStride : Nat
  rows : Nat
  bankB : Bool
  fresh : Bool
  groups : List RowGroup
  event : Option Nat
  deriving DecidableEq, Repr

/-- One drain of an accumulator bank (02 R45). Absent options are the stages left out; without `outFmt` an entry
keeps the format of stages 1 to 3. Stage 5 reads the drained rows as a tensor of sizes `dims`, dimension 0 fastest:
dimension k of the destination takes its dimension `perm` k. -/
structure DrainOp where
  bankB : Bool
  rows : Nat
  cols : Nat
  dims : List Nat
  perm : List Nat
  widen : Bool
  rowScale : Option Nat
  colScale : Option Nat
  bias : Option Nat
  outFmt : Option Nat
  sOut : Option W32
  sOutVec : Option Nat
  dst : Desc
  bounds : Bounds
  event : Option Nat
  deriving DecidableEq, Repr

/-- Main-slot operations: the store path also does the in-place transpose of a tensor of the tile's own scratchpad
(06 R146). -/
inductive MainOp
  | pass (p : PassOp)
  | drain (d : DrainOp)
  | transpose (d : Desc) (event : Option Nat)
  deriving DecidableEq, Repr

/-- Lateral-slot operations (07 R150; 02 R34, R35). `slot` counts from 1 for extra slots. -/
inductive LateralOp
  | load (addr rank : Nat) (outliers : List Nat) (event : Option Nat)
  | extra (slot : Nat) (event : Option Nat)
  deriving DecidableEq, Repr

/-- Elementwise and composite functions of the channel unit (02 R40, R41). -/
inductive VFn
  | add | mul | fma | cmpLt | cmpLe | cmpEq | min | max | select
  | exp | recip | rsqrt | sigmoid | silu | tanh | gelu | relu | div
  deriving DecidableEq, Repr

/-- Reductions (02 R42, 07 R153). -/
inductive RFn | sum | max | min | absMax | argMax | anyNonzero
  deriving DecidableEq, Repr

/-- An observation attached to a quantiser operator (03 R69, R70). -/
structure Observe where
  addr : Nat
  tag : Nat
  accumulate : Bool
  deriving DecidableEq, Repr

/-- A quantiser operator over `rows` rows of `k` elements (03 R56), with the bounds of its code tensor (15 R359). -/
structure QuantOp where
  src : Nat
  srcBf16 : Bool
  rows : Nat
  k : Nat
  fmt : Nat
  outliers : List Nat
  static : Option W32
  codes : Nat
  scales : Nat
  outVals : Nat
  observe : Option Observe
  bounds : Bounds
  event : Option Nat
  deriving DecidableEq, Repr

/-- The weight form of the quantiser (03 R59, R60): a matrix of `k` input rows of `n` columns at `src`; one scale a
column; `outliers` names the input rows that the lateral array takes. Codes are written row by row. -/
structure WQuantOp where
  src : Nat
  srcBf16 : Bool
  k : Nat
  n : Nat
  fmt : Nat
  outliers : List Nat
  codes : Nat
  scales : Nat
  bounds : Bounds
  event : Option Nat
  deriving DecidableEq, Repr

/-- Channel-slot operations (07 R150). `bf16` flags give the vectors' format, FP32 otherwise. -/
inductive ChanOp
  | vec (f : VFn) (a b c dst n : Nat) (bf16In bf16Out : Bool) (bounds : Bounds) (event : Option Nat)
  | reduce (f : RFn) (src n v : Nat) (bf16In : Bool) (event : Option Nat)
  | softmax (src dst n : Nat) (bf16In bf16Out : Bool) (bounds : Bounds) (event : Option Nat)
  | rms (src dst n : Nat) (eps : W32) (g : Nat) (bf16In bf16Out : Bool) (bounds : Bounds) (event : Option Nat)
  | layer (src dst n : Nat) (eps : W32) (g b : Nat) (bf16In bf16Out : Bool) (bounds : Bounds) (event : Option Nat)
  | quant (q : QuantOp)
  | wquant (q : WQuantOp)
  deriving DecidableEq, Repr

/-- Load-slot operations (07 R150, R159). `toSdata`: the local side is scalar data memory. -/
inductive LoadOp
  | xfer (src : Desc) (toSdata : Bool) (addr : Nat) (event : Option Nat)
  | overlay (number : Nat)
  deriving DecidableEq, Repr

/-- Store-slot operations (07 R150, R155). `adapter` is a furrow operation on the adapter that the run's slot table
holds at `entry` (11 R276): its first source is that adapter. -/
inductive StoreOp
  | xfer (dst : Desc) (addr : Nat) (event : Option Nat)
  | furrow (p : FopParams)
  | adapter (entry : Nat) (p : FopParams)
  | peer (peer remote : Nat) (addr len : Nat) (counter signalN : Nat)
  deriving DecidableEq, Repr

/-- Sync-slot operations (07 R150, R152, R154). -/
inductive SyncOp
  | evWait (ev n : Nat)
  | evPost (ev : Nat)
  | ctrWait (take : Bool) (slot amount : Nat)
  | ctrSignal (slot amount : Nat)
  | commit (last : Bool)
  deriving DecidableEq, Repr

/-- A long word, decoded: an empty slot is `none`. -/
structure LongWord where
  scalar : Option ScalarOp
  main : Option MainOp
  lateral : Option LateralOp
  channel : Option ChanOp
  load : Option LoadOp
  store : Option StoreOp
  sync : Option SyncOp
  deriving DecidableEq, Repr

/-- The units of a tile whose operations complete (07 R150). -/
inductive TileUnit | main | lateral | channel | load | store
  deriving DecidableEq, Repr

/-! ### Outcomes that the world decides -/

/-- What the checks of a sluice engine found (15 R354, R355, R358): no failure, one CRC failure of a block
cured by the second read, a second CRC failure at block `at_` of the transfer, or a parity error in the
source word of block `at_`. -/
inductive CrcOutcome
  | clean
  | retried
  | failed (at_ : Nat)
  | parity (at_ : Nat)
  deriving DecidableEq, Repr

/-- What a check of the tile found in the work of one of its units (15 R346): the parity of the scratchpad word at
`at_`, the residue of an adder or of the store path, or the compare of the duplicated sequencers. -/
inductive Detection
  | parity (at_ : Nat)
  | residue
  | sequencer
  deriving DecidableEq, Repr

/-- A unit the fault history can name (15 R372). -/
inductive UnitRef
  | tile (t : Nat)
  | furrow (bit : Nat)
  | stack (s : Nat)
  | edge (a b : Nat)
  | sluice (e : Nat)
  | sequencer
  | counterStore
  | port (p : Nat)
  | cxl
  | basin (c : Nat)
  deriving DecidableEq, Repr

/-- A failure of a step attempt (15 R362): the check that failed as R372 codes it (0: a trap, 07 R161), the
DETAIL of its record, the element or word, and its value. -/
structure Failure where
  check : Nat
  detail : Nat
  place : Nat
  value : W32
  deriving DecidableEq, Repr

/-- A checked step that the headgate runs on a tile for one row of a serving command (11 R263, R272), and the failures
of its attempts in order: two on the tile, then two on a substitute (15 R362, R363). -/
structure StepFails where
  row : Nat
  tile : Nat
  fails : List Failure
  deriving DecidableEq, Repr

/-- Results of the first boot test and of the repeat (16 R379, R380): the failing units. -/
structure BootFails where
  tiles : List Nat
  sluices : List Nat
  furrow : List Nat
  deriving DecidableEq, Repr

/-- One measured lane of a margin sweep (16 R390). -/
structure LaneMargin where
  left : Nat
  right : Nat
  low : Nat
  high : Nat
  deriving DecidableEq, Repr

/-! ### Registers and requests -/

/-- How a 64-bit register is read (01 R11, 00 R454). -/
inductive Access | low32 | high32 | full64
  deriving DecidableEq, Repr

/-- Configuration-space registers of a function that the spec names (14 R331, R334, R339, R342; 18 R423); `dvsecHeader`: the
words of the push DVSEC at 0x00, 0x04 and 0x08; `powerState`: PowerState of the power management capability. -/
inductive CfgReg
  | dvsecHeader (word : Fin 3)
  | bootAddrLow
  | bootAddrHigh
  | bootLen
  | bootCtrl
  | bootStatus
  | msixControl
  | bar4Size
  | busMaster
  | vfEnable
  | deviceId
  | classCode
  | totalVfs
  | initialVfs
  | firstVfOffset
  | vfStride
  | powerState
  deriving DecidableEq, Repr

/-- Where a register access of a function goes: BAR0, BAR2 or the function's configuration space. -/
inductive RegPlace
  | bar0 (off : Nat)
  | bar2 (off : Nat)
  | config (r : CfgReg)
  deriving DecidableEq, Repr

/-- A function, and the place in it that an access goes to. -/
structure RegTarget where
  fn : Nat
  place : RegPlace
  deriving DecidableEq, Repr

abbrev RegTarget.bar0 (fn off : Nat) : RegTarget := ⟨fn, .bar0 off⟩

abbrev RegTarget.bar2 (fn off : Nat) : RegTarget := ⟨fn, .bar2 off⟩

abbrev RegTarget.config (fn : Nat) (r : CfgReg) : RegTarget := ⟨fn, .config r⟩

/-- Management paths (18 R432). -/
inductive MgmtPath | i3c | ethernet
  deriving DecidableEq, Repr

/-- What a signed management command carries (18 R437). -/
structure MgmtAuth where
  seq : Nat
  pubKey : List Byte
  sig : List Byte
  deriving DecidableEq, Repr

/-! ### Peer transport -/

/-- The header of a DPT packet (13 R307). -/
structure DptHdr where
  last : Bool
  retx : Bool
  poisonValid : Bool
  major : Nat
  src : Nat
  dst : Nat
  incarnation : Nat
  path : Nat
  queue : Nat
  psn : Nat
  qsn : Nat
  desc : Nat
  tenant : Nat
  offset : Nat
  counter : Nat
  signalN : Nat
  length : Nat
  poison : Nat
  deriving DecidableEq, Repr, Inhabited

/-- The header of an acknowledgement or control packet beside SRC and INCARNATION: the fields that R307 gives to data
packets alone are zero in it. -/
structure DptShort where
  major : Nat
  dst : Nat
  path : Nat
  psn : Nat
  deriving DecidableEq, Repr

/-- The whole header of such a packet. -/
def DptShort.full (src incarnation : Nat) (x : DptShort) : DptHdr :=
  { (default : DptHdr) with src, incarnation, major := x.major, dst := x.dst, path := x.path, psn := x.psn }

/-- What of a header `DptShort` holds. -/
def DptHdr.short (hd : DptHdr) : DptShort := ⟨hd.major, hd.dst, hd.path, hd.psn⟩

/-- A joining module's advertisement (13 R315). -/
structure Advert where
  group : Nat
  incarnation : Nat
  major : Nat
  minor : Nat
  abi : Nat
  features : Nat
  digest : Nat
  addrs : List (List Byte)
  deriving DecidableEq, Repr

/-- Control messages (13 R307 TYPE 0x05; R315, R318, R320, R322). -/
inductive DptCtl
  | advert (a : Advert)
  | leave (group : Nat)
  | openReq (queue tenant desc fmt elements : Nat)
  | openReply (queue : Nat) (ok : Bool)
  | windowRefused (queue : Nat)
  | collHello (group tenant k kind red fmt count : Nat)
  | keepalive
  deriving DecidableEq, Repr

/-- An acknowledgement and credit packet (13 R310, R311). `landed` names queues whose writes have all
landed and whose signal has been applied up to a QSN. -/
structure DptAck where
  path : Nat
  cumulative : Nat
  bitmap : Nat
  credits : Nat
  landed : List (Nat × Nat)
  deriving DecidableEq, Repr

/-- What follows the header of a DPT packet (13 R307): the payload of types 1, 2 and 4, or what a packet of type 3 or 5
says, whose form in bytes the spec does not give. -/
inductive DptBody
  | data (payload : List Byte)
  | ack (a : DptAck)
  | ctl (m : DptCtl)
  deriving DecidableEq, Repr

/-- A frame at a logical port, as far as 13 R303 and R306 tell frames apart. -/
inductive FrameKind
  | arp (forUs : Bool)
  | nd (forUs : Bool)
  | icmpEcho
  | ptp (bytes : List Byte)
  | udp (port : Nat)
  | pfc (priority : Nat)
  | other
  deriving DecidableEq, Repr

/-- One constructor per row of spec/opcode_table.json. A Brodat opcode's row names the live command it
executes by its handle `h` (08 R185): its parameters are those of the admitted packet. An operand with a default tells
what a row met on its way (conflicts, a check's finding, errors); where nothing is said it met nothing. -/
inductive Instr
  -- class 0x01xx (08 R192)
  | tenantCreate (h : Nat)
  | tenantDestroy (h : Nat)
  | sqCreate (h : Nat)
  | sqDestroy (h : Nat)
  | groupDeadline (h : Nat)
  | cmdCancel (h : Nat)
  | tenantPause (h : Nat)
  | tenantResume (h : Nat)
  -- class 0x02xx (08 R194)
  | alloc (h : Nat)
  | free (h : Nat)
  | descCreate (h : Nat)
  | descDestroy (h : Nat)
  | fill (h : Nat)
  | copy (h : Nat) (crc : CrcOutcome)
  | copyIndexed (h : Nat) (crc : CrcOutcome)
  | furrow (h : Nat)
  -- furrow operations (04 R76), named by their number in the stack controllers
  | fopCopy (id : Nat)
  | fopFill (id : Nat)
  | fopLogic (id : Nat)
  | fopDot (id : Nat)
  | fopAxpy (id : Nat)
  | fopAxpyReduce (id : Nat)
  | fopGather (id : Nat)
  | fopSegment (id : Nat)
  | fopAtomic (id : Nat)
  | fopAtomicFetch (id : Nat)
  | fopPageScore (id : Nat)
  -- class 0x03xx (08 R195)
  | bundleLoad (h : Nat)
  | bundleUnload (h : Nat)
  | bundleRun (h : Nat)
  -- class 0x04xx (08 R196)
  | pageShare (h : Nat)
  | pageRelease (h : Nat)
  | pageCow (h : Nat)
  | attend (h : Nat) (steps : List StepFails := [])
  | verify (h : Nat) (steps : List StepFails := [])
  | evict (h : Nat)
  | adapterLoad (h : Nat)
  | adapterEvict (h : Nat)
  -- class 0x05xx (08 R197)
  | ctrSignal (h : Nat)
  | ctrWaitGe (h : Nat)
  | ctrWaitTake (h : Nat)
  | ctrRead (h : Nat)
  -- class 0x06xx
  | portConfig (h : Nat)
  | groupJoin (h : Nat)
  | groupLeave (h : Nat)
  | remoteCopy (h : Nat)
  | collective (h : Nat)
  -- class 0x07xx
  | selftest (h : Nat)
  | margin (h : Nat) (lanes : List LaneMargin)
  | powerState (h : Nat)
  | faultHistory (h : Nat)
  | counterPeek (h : Nat)
  | counterPoke (h : Nat)
  | flipMask (h : Nat)
  | attest (h : Nat)
  | nop (h : Nat)
  -- management commands (18 R436)
  | getStatus (p : MgmtPath)
  | readReg (p : MgmtPath) (off count : Nat)
  | writeReg (p : MgmtPath) (a : Option MgmtAuth) (off : Nat) (value : W32)
  | eventRead (p : MgmtPath) (first max : Nat)
  | faultHistoryRead (p : MgmtPath) (off len : Nat)
  | faultClear (p : MgmtPath) (a : Option MgmtAuth) (cls unit : Nat)
  | identityGet (p : MgmtPath)
  | henuaAttest (p : MgmtPath) (nonce : List Byte) (tenant : Nat)
  | henuaPowerState (p : MgmtPath) (a : Option MgmtAuth) (st : Nat)
  | henuaCounterPeek (p : MgmtPath) (tenant ctr : Nat)
  | henuaCounterPoke (p : MgmtPath) (a : Option MgmtAuth) (tenant ctr value : Nat)
  | ownerKeyProgram (p : MgmtPath) (slot : Nat) (hash : List Byte)
  | keyRevoke (p : MgmtPath) (a : Option MgmtAuth) (slot : Nat)
  | rollbackCommit (p : MgmtPath) (a : Option MgmtAuth)
  | mgmtNetConfig (p : MgmtPath) (a : Option MgmtAuth) (record : List Byte)
  | pldmFirmwareUpdate (p : MgmtPath) (image : List Byte)
  -- host registers and queues
  | hgSqTailWrite (fn q tail : Nat) (stores : List (Nat × List Byte))
  | hgCqHeadWrite (fn q head : Nat)
  | hgCqCtrlWrite (fn : Nat) (value : W32)
  | hgSq0CtrlWrite (fn : Nat) (value : W32)
  | packetAdmission (mismatches : Nat)
  | commandStart
  | commandCompletion (h : Nat)
  | irqHoldoffExpiry (fn vec : Nat)
  | cqStallTimeout (tenant : Nat)
  | hgDevTimeRead (fn : Nat) (a : Access)
  | rcRegisterRead (fn : Nat) (place : RegPlace) (size : Nat)
  | w1cRegisterWrite (fn off : Nat) (value : W32)
  | registerWrite (t : RegTarget) (size : Nat) (value : W64)
  | scFurrowBudgetWrite (fn stack : Nat) (value : W32)
  | pmPowerLimitWrite (value : W32)
  | scPatrolCtrlWrite (fn stack : Nat) (value : W32)
  | hgPtpTxTailWrite (fn tail fraction : Nat)
  | hgPtpRxHeadWrite (fn head : Nat)
  | msixUnmask (fn vec : Nat)
  | firmwarePushGo
  | firmwareVerification (headerError payloadError : Bool)
  | bar4Read (fn off len : Nat)
  | bar4Write (fn off : Nat) (bytes : List (Option Byte))
  -- supply, reset and start-up (19)
  | inputPowerApplied (slotId : Nat) (isoCompat : Bool)
  | inputWarningBand
  | inputCut
  | inputPowerLoss
  | inputRecovery
  | pwrEnHigh
  | pwrEnLow
  | perstNAssert
  | perstNRelease
  | hotReset
  | pcieLinkDown
  | pcieLinkTrained (flit : Bool) (width rate : Nat)
  | functionLevelReset (fn : Nat)
  | wakeNAssert
  | wakeComplete (failedStacks : List Nat) (retrained : List (Nat × List Nat) := [])
  | henuaBootComplete
  | railSequencing
  | rootPllLock
  | bootSelftestEnd (first repeats : BootFails)
  | stackLinkTrainingEnd (failing : List (Nat × List Nat))
  | inventoryComplete (expanders : List Nat)
  -- tile datapath and program (02, 03, 07)
  | longWordIssue (t : Nat) (w : LongWord) (parityAt : Option Nat)
  | mainPass (t : Nat)
  | checksumVerdict (t row : Nat) (errors : List (Nat × Int))
  | accDrain (t : Nat) (residueError : Bool)
  | lateralLoad (t : Nat)
  | extraLateralSlot (t : Nat)
  | channelOp (t : Nat)
  | channelReduction (t : Nat)
  | softmax (t : Nat)
  | normalisation (t : Nat)
  | quantise (t : Nat)
  | loadTransfer (t : Nat) (parityAt : Option Nat)
  | codeOverlayTransfer (t : Nat)
  | storeTransfer (t : Nat)
  | eventWait (t ev n : Nat)
  | unitOpComplete (t : Nat) (u : TileUnit) (conflicts : Nat := 0) (found : Option Detection := none)
  | stepHeadWait (t : Nat) (take : Bool) (slot amount : Nat)
  | commit (t : Nat) (conflicts : Nat := 0)
  | stepTimeLimit (t : Nat)
  | tileTrap (t : Nat)
  | tileFrameSaveComplete (t : Nat)
  | runResume (run : Nat) (badHeader : Bool) (badBlocks : List Nat)
  -- counter store, furrow units, stacks, links
  | counterSignal (tenant ctr amount : Nat) (uncorrectable : Bool)
  | furrowSliceStart (s d p id : Nat) (checkFails : Nat)
  | sliceEnd (s d p : Nat)
  | refreshDue (s d b : Nat)
  | stackRead (s off : Nat) (flips : BitVec 576)
  | stackWrite (s off : Nat) (data : List Byte) (mask : W64) (source : Nat)
  | mergeWindowExpiry (s blk : Nat)
  | correctionWriteBack (s blk : Nat)
  | uePoisonRewrite (s blk : Nat)
  | ceBucketLeak (s : Nat)
  | patrolRowVisit (s : Nat)
  | linkFrameRetry (s : Nat) (ok : Bool)
  | farLinkDown (link : Nat := 0) (errors : Nat := 0)
  | flitCrcRetry (a b : Nat) (ok : Bool)
  -- peer transport (13)
  | dptWriteReceived (hd : DptHdr) (payload : List Byte)
  | reorderRelease (src queue : Nat)
  | dptSignalReceived (hd : DptHdr)
  | dptAckReceived (src incarnation : Nat) (p : DptShort × DptAck)
  | dptControlReceived (src incarnation : Nat) (p : DptShort × DptCtl)
  | frameReceived (port logical : Nat) (length fraction fecCorr fecUncorr : Nat) (k : FrameKind)
  | ackTimer (peer path : Nat)
  | retransmitTimeout (peer path psn : Nat)
  | pathProbe (peer path : Nat)
  | keepaliveTimer (peer : Nat)
  | peerTimeout (peer : Nat)
  | joinTimeout (h : Nat)
  | ethLinkUp (port logical : Nat)
  | ethLinkDown (port logical : Nat)
  -- sensors, limiter, self-test, fault history
  | sensorUpdate (readings : List (Nat × Int))
  | powerLimiterTick (mean : Nat)
  | tileTestSlot
  | stackTestSlot
  | suspectTestDue (u : UnitRef)
  | selftestComplete (u : UnitRef) (first repeats : List Nat)
  | faultRecordFlush
  | operatingTimeTick
  | dptCollectiveDataReceived (hd : DptHdr) (payload : List Byte)
  | retrainingComplete (u : UnitRef) (ok : Bool) (inFlight : List Nat := [])
  | configRetryEnd
  deriving DecidableEq, Repr

end Sys2Proof
end

