-- ==== Sys2Proof/Decode.lean ====
section
/-! DEFINITION. The block decodes nothing: no row of spec/opcode_table.json has bits, so no word spells a
command (a Brodat packet's fields are read by its admission, Machine/Admission.lean). -/

namespace Sys2Proof

/-- The command a word spells by the table's bits: none, for the table gives no row any. -/
def decodeTableWord (_nbits _w : Nat) : Option Instr := none

end Sys2Proof
end

