-- ==== Sys2Proof/Config.lean ====
section
/-! DEFINITION. What an implementation fixes and what the manual leaves free. Every opaque constant
is a FREE VALUE: it has no body, so no statement can rest on a value of it (log entries 4 to 10). -/

namespace Sys2Proof.Config

/-- Contents of a byte that nothing has written: space, boot era, memory key (10 R230, R245; host memory
before the module wrote it). FREE VALUE, log entry 4. -/
opaque unwrittenByte : Nat → Nat → Nat → Byte

/-- A byte of the register set saved for Hold: boot era, wakes before it, offset (17 R403 gives what is saved and how
many bytes, not their order). FREE VALUE, log entry 4. -/
opaque savedByte : Nat → Nat → Nat → Byte

/-- The first word of the push DVSEC (0), whose capability header PCIe defines, and Tvedrok's vendor ID (1), which no
rule gives (18 R423). FREE VALUE, log entry 33. -/
opaque dvsecWord : Nat → Nat

/-- How the decoder finds a code word that nothing has written: boot era and physical block key; read
modulo 4 as clean, corrected, uncorrectable or poison (10 R230). FREE VALUE, log entry 4. -/
opaque unwrittenOutcome : Nat → Nat → Nat

/-- How a code word with three or more symbols in error decodes (10 R225, R239): modulo 3, clean as
stored (a miscorrection), corrected, uncorrectable. FREE VALUE, log entry 5. -/
opaque beyondTwoSymbols : Nat → Nat

/-- Which outcome a poisoned word with two or more symbols in error takes (10 R226). FREE VALUE, log entry 5. -/
opaque poisonTwoSymbols : Nat → Bool

/-- A fresh unpredictable byte; its argument is the state's own counter of free values (00 R4).
FREE VALUE, log entry 6. -/
opaque freeByte : Nat → Byte

/-- A fresh unpredictable 32-bit value (00 R4). FREE VALUE, log entry 6. -/
opaque freeWord : Nat → W32

/-- Which neighbour within the allowed error recip returns (02 R40, at most 1 ulp). FREE VALUE, log entry 7. -/
opaque recipPick : W32 → Bool

/-- Which neighbour within the allowed error rsqrt returns (02 R40, at most 2 ulp). FREE VALUE, log entry 7. -/
opaque rsqrtPick : W32 → Nat

/-- Which neighbour within the allowed error exp returns (02 R40, at most 2 ulp). FREE VALUE, log entry 7. -/
opaque expPick : W32 → Nat

/-- Word `i` of the private code that the bundle with this digest holds for a logical tile, after the overlays
brought in (07 R149, R159): the code format is private. FREE VALUE, log entry 12. -/
opaque codeWord : List Byte → Nat → List Nat → Nat → W32

/-- Which of the statuses of its opcode a command ends with whose operands overlap or are otherwise ones that the
device does not check (00 R4; 04 R104; 06 R148): its argument is the state's counter of free values. FREE VALUE,
log entry 6. -/
opaque freeStatus : Nat → Nat

/-- Whether an expander returns a read of far memory with the poison indication (10 R245, R247): counter of free
values, expander, its own block. FREE VALUE, log entry 4. -/
opaque expanderPoison : Nat → Nat → Nat → Bool

/-- The incarnation drawn from on-die entropy at the n-th reset (13 R315). FREE VALUE, log entry 8. -/
opaque incarnation : Nat → W64

/-- ML-DSA-65 verification: public key, message, signature (18 R419, R437). The algorithm is named and
not given. FREE VALUE, log entry 9. -/
opaque mldsaVerify : List Byte → List Byte → List Byte → Bool

/-- The identity key's signature over a message, one byte per index (18 R429, R430). FREE VALUE, log entry 9. -/
opaque identitySign : List Byte → Nat → Byte

/-- Module serial number (18 R430). FREE VALUE, log entry 9. -/
opaque serial : W64

/-- Henua ROM version (18 R430). FREE VALUE, log entry 9. -/
opaque romVersion : W32

/-- Bytes of the identity certificate and its chain (18 R429). FREE VALUE, log entry 9. -/
opaque certificate : List Byte

/-- Digest of a member list, as exchanged in advertisements; the digest's form is not given (13 R315).
FREE VALUE, log entry 10. -/
opaque memberDigest : List Nat → Nat

/-- 64-byte blocks of payload of an acknowledgement packet (TYPE 3) or a control packet (TYPE 5), whose payload's form
is not given (13 R307). FREE VALUE, log entry 24. -/
opaque ctlBlocks : Nat → Nat

/-- How much of the shared credit pool a grant gives, "in proportion to demand", which no rule measures (13 R311); its
argument is the state's counter of free values. FREE VALUE, log entry 24. -/
opaque creditGrant : Nat → Nat

/-- The feature mask a firmware version advertises (13 R315). FREE VALUE, log entry 10. -/
opaque features : Nat → Nat

end Sys2Proof.Config
end

