-- ==== Sys2Proof/Machine/State.lean ====
section
/-! DEFINITION. The state of one IG-DX2 module: every register, memory, queue, table and pin the spec
gives it, as plain data; the queue of waiting commands; and `State.reset`, the module without input
power. Finite tables are lists of (key, value) pairs with rising keys; a unit that is not listed is in
its reset state (`getD` with the unit's reset record). -/

namespace Sys2Proof.Machine

/-- A finite table: keys strictly rising (see Machine/Tab.lean). -/
abbrev Tab (α : Type) := List (Nat × α)

/-- A byte memory in canonical form (05 R105). -/
abbrev Mem := List Host.Cell

/-! ### Commands and queues (08) -/

/-- A Brodat packet's fields (08 R181). `p` holds P0 to P5. -/
structure Packet where
  opcode : Nat
  tenant : Nat
  flags : Nat
  tag : Nat
  counter : Nat
  signalN : Nat
  group : Nat
  p : List Nat
  tenantByte : Nat
  deriving DecidableEq, Repr, Inhabited

inductive Stage | admitted | running | done
  deriving DecidableEq, Repr

/-- A live command: from its admission record until its completion record (08 R186). `outcomes` are the
statuses that apply so far (08 R199); `binds` are a run's bindings as they stood at admission; `targets`
are commands it waits for (08 R191; 06 R130); `rivals` are the destinations of writers that moved their bytes while
this command was in progress with nothing to order the two (05 R125; 04 R104). -/
structure Cmd where
  handle : Nat
  order : Nat
  tenant : Nat
  sq : Nat
  pkt : Packet
  admitTime : Nat
  stage : Stage
  outcomes : List Nat
  value : Nat
  desc : Option Desc
  binds : List (Nat × Desc)
  targets : List Nat
  rivals : List Desc
  silent : Bool
  deriving DecidableEq, Repr

/-- One submission queue (08 R174, R178). `closing`: an SQ_DESTROY of it is live (08 R193). -/
structure SubQ where
  base : Nat
  log2 : Nat
  head : Nat
  tail : Nat
  badTail : Bool
  closing : Bool
  deriving DecidableEq, Repr, Inhabited

/-- One entry of the MSI-X table (14 R342; PCIe). -/
structure MsixEntry where
  addr : W64
  data : W32
  masked : Bool
  deriving DecidableEq, Repr

/-- The registers of one PCIe function (08 R176, R178; 09 R204; 12 R301; 14 R338, R342). -/
structure Fn where
  cqBase : W64
  cqCtrl : W32
  sq0Base : W64
  sq0Ctrl : W32
  cqBad : Bool
  sq0Bad : Bool
  cqTail : Nat
  cqPhase : Bool
  cqHead : Nat
  cqStalled : Bool
  sq0 : SubQ
  queues : Tab SubQ
  devLatch : Option W32
  rcLatch : Tab W32
  saturated : Bool
  switchMax : W32
  bar4Viol : Bool
  badAccess : Bool
  bar4Base : Nat
  bar4Log2 : Nat
  viol : Option (Nat × Bool)
  irqCause : BitVec 6
  irqEnable : BitVec 6
  irqVector : Nat
  irqMod : Tab W32
  modCount : Tab Nat
  modTimer : Tab Bool
  msixEnable : Bool
  msixMask : Bool
  msix : Tab MsixEntry
  pba : W32
  busMaster : Bool
  switches : W64
  late : W64
  d3hot : Bool
  deriving DecidableEq, Repr

/-- Reset values of 08 R176/R178, 09 R204, 12 R301, 14 R338; the queue structures are empty. -/
def Fn.reset : Fn :=
  ⟨0, 0x06, 0, 0x4, false, false, 0, true, 0, false, ⟨0, 4, 0, 0, false, false⟩, [], none, [], false, 0, false,
   false, 0, 6, none, 0, 0, 0, [], [], [], false, false, [], 0, false, 0, 0, false⟩

/-! ### Tenants, allocations, descriptors (06, 08, 12) -/

/-- A tenant profile (12 R283). -/
structure Profile where
  descLimit : Nat
  ctrBase : Nat
  ctrCount : Nat
  adBase : Nat
  adCount : Nat
  slack : Nat
  stackQuota : Nat
  farQuota : Nat
  runScratch : Nat
  runBasin : Nat
  resScratch : Nat
  resBasin : Nat
  resSdata : Nat
  hosts : List (Nat × Nat)
  deriving DecidableEq, Repr, Inhabited

/-- A live descriptor (06 R129, R130). `alloc` is the allocation handle it was created against;
`dying`: a DESC_DESTROY or FREE of it is live. -/
structure LiveDesc where
  desc : Desc
  alloc : Nat
  dying : Bool
  deriving DecidableEq, Repr, Inhabited

/-- A live tenant (12 R281). `held`: TENANT_PAUSE in force; `ctxBase`: its context area (12 R287). -/
structure Tenant where
  profile : Profile
  held : Bool
  destroying : Bool
  descs : Tab LiveDesc
  deadlines : Tab Nat
  poked : W32
  ctxBase : Nat
  deriving DecidableEq, Repr, Inhabited

/-- A live allocation (08 R194; 10 R222, R223; 11 R277). -/
structure Alloc where
  tenant : Nat
  space : Nat
  inst : Nat
  base : Nat
  len : Nat
  pinned : Option Nat
  sharedRo : Bool
  replicaOf : Option Nat
  dying : Bool
  lost : Bool
  deriving DecidableEq, Repr, Inhabited

/-- A mapped granule of the stack map (10 R221). Mode 0 interleaved, 1 rotated, 2 pinned to `stack`.
`subst`: stack to second unit for chunks placed away from a lost stack (10 R224). `context`: holds
context areas alone (12 R287). -/
structure Granule where
  mode : Nat
  stack : Nat
  unit : Nat
  subst : Tab Nat
  context : Bool
  deriving DecidableEq, Repr, Inhabited

/-! ### Sync counters (09) -/

inductive WaitOwner
  | cmd (h : Nat)
  | tile (t : Nat)
  deriving DecidableEq, Repr

/-- A registered wait, in arrival order (09 R207, R208). -/
structure Wait where
  ctr : Nat
  take : Bool
  amount : Nat
  owner : WaitOwner
  deriving DecidableEq, Repr

structure Counters where
  vals : Tab W64
  broken : List Nat
  waits : List Wait
  updates : W64
  deriving DecidableEq, Repr

/-! ### Memories (05 R105; 10) -/

/-- The byte memories. Keys: offset for host and far; physical stack·2^37 + stack-local offset for
stack; instance·2^48 + offset for basin, scratch and sdata. `aon` is the always-on SRAM but for the
records that await flash, which the fault history holds (17 "The saved register set"). `poison*` list poisoned
64-byte blocks (block keys), `flips` the bits of a stack code word that differ from a valid word. -/
structure Memories where
  host : Mem
  far : Mem
  stack : Mem
  basin : Mem
  scratch : Mem
  sdata : Mem
  aon : Mem
  poisonFar : List Nat
  poisonStack : List Nat
  poisonBasin : List Nat
  poisonScratch : List Nat
  poisonSdata : List Nat
  flips : Tab (BitVec 576)
  deriving DecidableEq, Repr

/-! ### Stack controllers (04, 10) -/

/-- A merge-buffer entry, oldest first (10 R227), with the source class of its last write (10 R240). -/
structure MergeEntry where
  blk : Nat
  data : List Byte
  mask : W64
  source : Nat
  deriving DecidableEq, Repr

/-- A unit inside a slice (04 R91): its die and pair, its operation, who computes, and the banks whose refresh fell
due in it (04 R97). -/
structure Slice where
  d : Nat
  p : Nat
  id : Nat
  worker : Nat
  due : List Nat
  deriving DecidableEq, Repr

/-- What a furrow unit holds of its own (04 R74): the 4 KiB vector register, the 4 KiB staging buffer and the 64 FP32
accumulators. -/
structure UnitRegs where
  vector : List Byte
  staging : List Byte
  acc : List W32
  deriving DecidableEq, Repr

/-- One stack controller: the register blocks of 04 R103 and 10 R240 and what is behind them. `openRows`: the open row
of a bank, by die · 64 + bank, and `units`: what the furrow units hold, by d · 32 + p (04 R74). -/
structure Stack where
  stackLimit : Nat
  dieLimit : Nat
  slices : List Slice
  slicesDone : W64
  hostWait : W64
  hostWaitMax : W16
  debtMax : Nat
  debt : Tab Nat
  recompute : W64
  subst : W64
  lastServed : Tab Nat
  merge : List MergeEntry
  ceLevel : W16
  ceFired : Bool
  ceLeakMs : W16
  ceThreshold : W16
  ceTotal : W64
  ceLast : Option (Nat × Nat)
  ueTotal : W64
  ueFirst : Option Nat
  ueMore : Bool
  ueLastEvent : Option Nat
  poisonReads : W64
  ueSuppressed : W32
  patrolPause : Bool
  patrolHours : Nat
  patrolPasses : W32
  patrolRow : Nat
  mergeRmw : W64
  mergeFull : W64
  flipMask : BitVec 576
  flipArmed : Bool
  flipFired : Bool
  flipAddr : Nat
  flipSource : Nat
  writeBacks : List Nat
  uePending : List Nat
  spares : List (Nat × Nat)
  linkRetry : W64
  linkTries : Nat
  linkRetrain : W32
  retraining : Bool
  doubledRefresh : Bool
  thermalLimited : Bool
  noFurrow : Bool
  openRows : Tab Nat
  units : Tab UnitRegs
  deriving DecidableEq, Repr

/-- Reset values of 04 R103 and 10 R240. -/
def Stack.reset : Stack :=
  ⟨256, 16, [], 0, 0, 0, 0, [], 0, 0, [], [], 0, false, 0x3E8, 0x40, 0, none, 0, none, false, none, 0, 0, false, 24, 0, 0,
   0, 0, 0, false, false, 0, 0, [], [], [], 0, 0, 0, false, false, false, false, [], []⟩

/-- An access to stack memory as it arrives (04 R95; 14 R339, R341): a read or a write of a code word by an agent
inside; a read or a write of BAR4, its base being the one in force at arrival; a doorbell, which the port holds
behind the window writes of its function (05 R121); or a mover, by a number of its own, whose next blocks it reaches
only when none of them is held (04 R95; 10 R242). -/
inductive StackAccess
  | read (k off : Nat) (flips : BitVec 576)
  | write (k off : Nat) (data : List Byte) (mask : W64) (source : Nat)
  | winRead (fn off start len : Nat)
  | winWrite (fn start : Nat) (bytes : List (Option Byte))
  | doorbell (fn q tail : Nat)
  | cqHead (fn q head : Nat)
  | mover (id : Nat) (blks : List Nat)
  deriving DecidableEq, Repr

/-- An access that waits, since when (DEV_TIME), and the stack controllers in which a slice holds it. -/
structure Held where
  acc : StackAccess
  since : Nat
  slices : List Nat
  deriving DecidableEq, Repr

/-- A furrow operation in the stack controllers (04 R76, R78). `source`: the Brodat command's handle, or
none for a tile-issued operation of run `run`. `marked`: the step that issued it loaded poison (10 R235). `writes`:
module offsets of the stack blocks it may write; `rivals` as a command's; `refused`: the VALUE of its command, the elements it refused (08
R194), or for a FILL the bytes written. -/
structure FurrowOp where
  params : FopParams
  tenant : Nat
  source : Option Nat
  run : Option Nat
  arrived : Nat
  computed : Bool
  touched : List (Nat × Nat × Nat)
  outcomes : List Nat
  refused : Nat
  stopped : Bool
  marked : Bool
  writes : List Nat
  rivals : List Desc
  deriving DecidableEq, Repr

/-! ### Bundles and runs (07, 12) -/

/-- One binding of a bundle (07 R165). -/
structure Binding where
  space : Nat
  fmt : Nat
  write : Bool
  layout : Nat
  rank : Nat
  elements : Nat
  deriving DecidableEq, Repr

/-- A resident bundle (07 R164 to R166). -/
structure Bundle where
  tenant : Nat
  abi : Nat
  digest : List Byte
  length : Nat
  tiles : Nat
  flags : Nat
  counters : Nat
  external : Nat
  maxStep : Nat
  basinBytes : Nat
  scratchBytes : Nat
  tileMap : List Nat
  bindings : List Binding
  image : Desc
  dying : Bool
  deriving DecidableEq, Repr

/-- An outbound effect, queued in the body and released at commit (07 R155). -/
inductive Effect
  | store (dst : Desc) (addr : Nat) (event : Option Nat)
  | furrow (p : FopParams)
  | peer (peer remote addr len counter signalN : Nat)
  | signal (slot amount : Nat)
  deriving DecidableEq, Repr

inductive TilePhase | idle | head | body | saving | stopped
  deriving DecidableEq, Repr

/-- Lateral weights that have landed (02 R35): A (intake), B (outfall), outlier rows, as BF16 words. -/
structure LatBlock where
  rank : Nat
  outliers : List Nat
  a : List W16
  b : List W16
  o : List W16
  deriving DecidableEq, Repr

/-- The last pass of the step as its checker and its extra lateral slots see it (15 R347, R350, R352; 02
R34): the pass, its block, the lateral weights it took, the check groups, and the verdicts formed so far. -/
structure PassTrace where
  op : PassOp
  weights : List Byte
  lats : List LatBlock
  group : Nat
  groupIn : Nat
  groupOut : Nat
  verdicts : Nat
  deriving DecidableEq, Repr

/-- An accumulator bank (02 R32, R33): mode, drained flag, entries by index. -/
structure Bank where
  fp32 : Bool
  drained : Bool
  cells : Tab W32
  deriving DecidableEq, Repr

/-- What a tile's 128 KiB of instruction memory hold (07 R149, R159): the code of a logical tile of the bundle with
this digest, with the overlays brought in since, in order. The words themselves are private code of the image. -/
structure Code where
  digest : List Byte
  logical : Nat
  overlays : List Nat
  deriving DecidableEq, Repr

/-- The part of a tile that belongs to the logical tile running on it and moves with it in a frame
(07 R156; 12 R293). `overlays` are the code overlays brought in since the run started; `headDone` and `headIssued`
count the head's waits that were released and those of them whose long words have issued (07 R150, R154). `headWait`: the step head's wait that is registered or saved (17 R402), as physical
counter, take, amount. `reissue`: the frame stands at the start of a body to be run again (15 R363);
`attempt`: failures of the step so far on this tile; `moved`: 0, or why the step moved (1 identical range
failure, 2 other failure, 3 trap, 4 the tile was lost); `origin`: the tile it moved from; `home`: the tile
it left for a self-test and returns to (15 R366). -/
structure Ctx where
  run : Nat
  logical : Nat
  g : Tab W32
  pc : Nat
  overlays : List Nat
  bankA : Bank
  bankB : Bank
  headDone : Nat
  headIssued : Nat
  headWait : Option (Nat × Bool × Nat)
  turnout : Tab Nat
  reissue : Bool
  attempt : Nat
  moved : Nat
  origin : Nat
  lastFail : Option Failure
  home : Option Nat
  deriving DecidableEq, Repr

/-- One tile (02, 03, 07, 15). Queue entries pair an operation with "executed, not yet completed". `imem` is what
the instruction memory holds, none: zeroed (05 R451); `waiting` a long word that waits to issue (07 R151, R169). -/
structure Tile where
  ctx : Option Ctx
  phase : TilePhase
  imem : Option Code
  waiting : Option LongWord
  v : Tab W32
  ev : Tab Nat
  qMain : List (MainOp × Bool)
  qLateral : List (LateralOp × Bool)
  qChannel : List (ChanOp × Bool)
  qLoad : List (LoadOp × Bool)
  qStore : List (StoreOp × Bool)
  outbound : List Effect
  committing : Bool
  lastStep : Bool
  active : List Byte
  shadow : List Byte
  lats : List LatBlock
  trace : Option PassTrace
  snapG : Tab W32
  snapPc : Nat
  snapGroups : Nat × Nat × Nat
  snapBanks : (Bool × Bool) × (Bool × Bool)
  groupMain : Nat
  groupIn : Nat
  groupOut : Nat
  poisoned : Bool
  statsPend : List (Nat × List Byte)
  qPend : List Nat
  underTest : Bool
  passCount : W64
  issueAclk : W64
  waitWeight : W64
  waitLateral : W64
  waitAcc : W64
  waitPause : W64
  conflict : W64
  qConverted : W64
  qClipped : W64
  qFlushed : W64
  qNonfinite : W64
  qZeroRow : W64
  qFallback : W64
  qZeroCol : W64
  stepCount : W64
  stepRecomputed : W64
  wordIssued : W64
  stallQueue : W64
  stallReduce : W64
  stallEvent : W64
  stepWait : W64
  stepMax : W32
  stepAclk : Nat
  lastDetect : Option Nat
  deriving DecidableEq, Repr

/-- Reset: counters zero (02 R48, 03 R68, 07 R169), no context, group counters 0 (15 R350). -/
def Tile.reset : Tile :=
  ⟨none, .idle, none, none, [], [], [], [], [], [], [], [], false, false, [], [], [], none, [], 0, (0, 0, 0), ((false, true), (false, true)), 0, 0, 0,
   false, [], [], false, 0, 0, 0, 0, 0, 0, 0, 0, 0, 0, 0, 0, 0, 0, 0, 0, 0, 0, 0, 0, 0, 0, 0, none⟩

/-- An adapter that a run resolved from its slot table (11 R276): the entry, the slot, and the address and shape of
the adapter: its source descriptor, rank, K and N. -/
structure RunAdapter where
  entry : Nat
  slot : Nat
  src : Desc
  rank : Nat
  k : Nat
  n : Nat
  deriving DecidableEq, Repr

inductive RunState | waiting | running | pausing | paused | ended
  deriving DecidableEq, Repr

/-- A bundle run (07 R167; 09 R214; 12 R292 to R299). `place` maps logical to physical tiles; `frames`
holds the contexts that are on no tile; `frameBytes` and `framePoison` what their frames hold of the
scratchpad and scalar data (key: logical tile) and of the basin (key: 32 + die), as space · 2^60 + offset
from the run's area; `basinAt` is where the run's basin area lies on a die; `decidedAt` the DEV_TIME of the
last pause or resume decision, `resuming` that it was a resume; `bindings` are the descriptors resolved. -/
structure Run where
  tenant : Nat
  bundle : Nat
  ctrBase : Nat
  bindings : List Desc
  bases : Tab W64
  state : RunState
  place : Tab Nat
  frames : Tab Ctx
  frameBytes : Tab (List (Nat × Byte))
  framePoison : Tab (List Nat)
  basinAt : Tab Nat
  decidedAt : Nat
  resuming : Bool
  adapters : List RunAdapter
  finished : List Nat
  recomputes : Nat
  outcomes : List Nat
  cancelled : Bool
  deriving DecidableEq, Repr

/-- A resident adapter (11 R273, R274). `ready`: its ADAPTER_LOAD has completed. -/
structure Adapter where
  tenant : Nat
  rank : Nat
  k : Nat
  n : Nat
  source : Nat
  ready : Bool
  deriving DecidableEq, Repr

/-! ### Peer transport (13) -/

/-- A packet sent on a path and not yet acknowledged (13 R310); `ty` is its TYPE (R307). -/
structure OutPkt where
  psn : Nat
  ty : Nat
  hd : DptHdr
  body : DptBody
  higherAcked : Nat
  deriving DecidableEq, Repr

/-- One of the 16 paths to a peer (13 R309, R310). `rxCumulative` is 2^32 − 1 before the first packet. -/
structure PathSt where
  up : Bool
  txPsn : Nat
  timeouts : Nat
  out : List OutPkt
  rxCumulative : Nat
  rxAbove : List Nat
  sinceAck : Nat
  deriving DecidableEq, Repr, Inhabited

/-- A data packet that waits for credit or a path (13 R311). `final`: the last of its copy. -/
structure TxItem where
  handle : Nat
  final : Bool
  ty : Nat
  hd : DptHdr
  payload : List Byte
  deriving DecidableEq, Repr

/-- A joined peer (13 R315, R322). `incarnation` holds bits [31:0]; `owed`: credit units to return to it; `pool`: units of
the shared pool it has been granted (R311); `kaNext`: the path of the next keepalive. -/
structure Peer where
  incarnation : Nat
  major : Nat
  abi : Nat
  features : Nat
  addrs : List (List Byte)
  paths : Tab PathSt
  qsn : Tab Nat
  credits : Nat
  owed : Nat
  pool : Nat
  kaNext : Nat
  txq : List TxItem
  deriving DecidableEq, Repr

/-- A write or signal packet waiting in the reorder buffer (13 R311). -/
structure Buffered where
  hd : DptHdr
  payload : List Byte
  deriving DecidableEq, Repr

/-- A transfer that a peer has opened to this module (13 R318): its queue, destination tenant and descriptor, and how
many bytes of it have landed. -/
structure Inbound where
  peer : Nat
  queue : Nat
  tenant : Nat
  desc : Nat
  landed : Nat
  deriving DecidableEq, Repr

/-- A peer group (13 R313 to R316, R324). -/
structure Group where
  members : List (Nat × List Byte)
  joined : List Nat
  formed : Bool
  epoch : W32
  calls : Tab Nat
  join : Option Nat
  deriving DecidableEq, Repr

/-- A COLLECTIVE in progress (13 R320, R321): which call of its group, the members whose parameters agree
with its own, and the contributions received, by rank and element. -/
structure Coll where
  handle : Nat
  group : Nat
  tenant : Nat
  call : Nat
  hellos : List Nat
  parts : Tab (Tab (Nat × Bool))
  deriving DecidableEq, Repr

/-- A REMOTE_COPY, or a peer write of a tile (`tile`, `handle` its run, `data` the bytes as they stood at the
commit), in progress (13 R317 to R319; 07 R155). -/
structure Remote where
  handle : Nat
  tile : Bool
  peer : Nat
  queue : Nat
  tenant : Nat
  src : Desc
  data : List (Nat × Bool)
  dst : Nat
  counter : Nat
  signalN : Nat
  asked : Bool
  opened : Bool
  lastQsn : Option Nat
  poisoned : Bool
  deriving DecidableEq, Repr

/-- An Ethernet port (13 R302 to R305, R328). -/
structure Port where
  configured : Bool
  mode : Nat
  linkUp : BitVec 4
  record : List Byte
  txBytes : W64
  rxBytes : W64
  fecCorr : W64
  fecUncorr : W64
  dropped : W64
  pfcRx : W64
  takenDown : BitVec 4
  deriving DecidableEq, Repr

def Port.reset : Port := ⟨false, 0, 0, [], 0, 0, 0, 0, 0, 0, 0⟩

structure Dpt where
  moduleSet : Bool
  moduleNumber : Nat
  incarnation : W64
  timeoutMs : Nat
  groups : Tab Group
  peers : Tab Peer
  lostIncarnations : List (Nat × Nat)
  reorder : List Buffered
  rxNext : List ((Nat × Nat) × Nat)
  colls : List Coll
  earlyHellos : List (Nat × DptCtl)
  remotes : List Remote
  inbound : List Inbound
  peersLost : W64
  retx : W64
  creditStall : W64
  reorderMax : Nat
  ports : Tab Port
  ptpRxBase : W64
  ptpRxCtrl : W32
  ptpRxTail : Nat
  ptpRxHead : Nat
  ptpTxBase : W64
  ptpTxCtrl : W32
  ptpTxTail : Nat
  ptpTxHead : Nat
  deriving DecidableEq, Repr

/-! ### Fault history, self-test, power, Henua (15 to 18) -/

/-- A fault record (15 R372). -/
structure FaultRec where
  kind : Nat
  check : Nat
  cls : Nat
  unit : Nat
  tenant : Nat
  time : Nat
  operating : Nat
  resets : Nat
  detail : Nat
  bundle : List Byte
  deriving DecidableEq, Repr

/-- The summary of a unit (15 R373): state 0 normal, 1 suspect, 2 suspended, 3 permanent; operating times
of its fault events; passes since the last fault event (15 R367). -/
structure UnitSum where
  cls : Nat
  unit : Nat
  state : Nat
  events : List Nat
  passes : Nat
  deriving DecidableEq, Repr

structure FaultHist where
  flash : List FaultRec
  pendingFlash : List FaultRec
  sums : List UnitSum
  resets : Nat
  deriving DecidableEq, Repr

/-- A logic self-test in progress (16 R382, R383, R386), since which DEV_TIME. -/
structure Test where
  unit : UnitRef
  cmds : List Nat
  slot : Bool
  since : Nat
  deriving DecidableEq, Repr

/-- Self-test registers and schedule (16 R381, R391). -/
structure SelfTest where
  bootDone : Bool
  bootTiles : W32
  bootSluices : BitVec 20
  bootStacks : Byte
  bootUs : W32
  tileTests : W64
  tileFails : W64
  stackTests : W64
  stackFails : W64
  slotSkipped : W32
  tileSlot : Nat
  stackSlot : Nat
  running : List Test
  deriving DecidableEq, Repr

inductive Power | run | trim | idle | hold
  deriving DecidableEq, Repr

/-- Power, sensors and limiter (17). Temperatures are in eighths of a degree Celsius. `target`: the state
being entered while `transition` holds and no wake is in progress; `heldWake`: a wake source that waits
(R401, R416), as a LAST_WAKE code or 8 for a counter update (R402). `kT` with `kTime`: the applied pause level
of a die and the DEV_TIME of its last lowering (R413). `stop`, `stopHold`: blocks in orderly stop, and that one
is in force; `stopLoss`: the wake finds live allocations of spaces 3 to 5 lost (R416). -/
structure PowerSt where
  state : Power
  target : Power
  transition : Bool
  lastWake : Nat
  waking : Bool
  heldWake : Option Nat
  iso : Bool
  limit : Nat
  now : Nat
  peak : Nat
  limStack : Nat
  limDie : Nat
  kP : Nat
  resRun : W64
  resTrim : W64
  resIdle : W64
  resHold : W64
  wakes : W32
  readings : Tab Int
  strikes : Tab Nat
  broken : List Nat
  halfBroken : List Nat
  kT : Tab Nat
  level : Tab Nat
  temp : Tab Int
  stop : BitVec 14
  saved : Bool
  stopHold : Bool
  kTime : Tab Nat
  stopLoss : Bool
  deriving DecidableEq, Repr

/-- A Henua event (18 R433). -/
structure HEvent where
  cls : Nat
  severity : Nat
  seq : Nat
  time : Nat
  operating : Nat
  payload : List Nat
  delivered : Bool
  deriving DecidableEq, Repr

/-- A fuse key slot (18 R421). -/
structure KeySlot where
  hash : List Byte
  programmed : Bool
  revoked : Bool
  deriving DecidableEq, Repr

/-- What is fixed in fuses or at manufacture: grade and present tiles (01 R14), key slots, anti-rollback
steps, neighbour lists of the sensors (17 R410) as (neighbour, weight) pairs. -/
structure Fuses where
  present : W32
  keys : Tab KeySlot
  rollback : Nat
  neighbours : Tab (List (Nat × Nat))
  certValid : Bool
  deriving DecidableEq, Repr

/-- The running image's header fields (18 R419). -/
structure Image where
  major : Nat
  minor : Nat
  abi : Nat
  svn : Nat
  keySlot : Nat
  digest : List Byte
  header : List Byte
  deriving DecidableEq, Repr

/-- Firmware push and Henua registers (18 R423, R438). -/
structure Henua where
  up : Bool
  bootAddr : W64
  bootLen : W32
  goHeld : Bool
  attempts : Nat
  source : Nat
  reason : Nat
  bstate : Nat
  code : List Byte
  image : Option Image
  evtI3c : Bool
  evtEth : Bool
  evtFormat : Bool
  evtSeq : W32
  evtLost : W32
  events : List HEvent
  mgmtSeq : W64
  operating : W64
  netConfig : List Byte
  refusedAt : Option Nat
  unitEvents : List (Nat × Nat × Nat)
  deriving DecidableEq, Repr

/-- Supply, sideband pins and start-up step (19 R443, R447). `step`: the step last ended, 0 to 8. -/
structure Board where
  power48 : Bool
  cut : Bool
  band : Bool
  perstN : Bool
  pwrEn : Bool
  pgood : Bool
  faultN : Bool
  thermN : Bool
  slotId : Nat
  step : Nat
  crsDone : Bool
  linkFlit : Bool
  linkWidth : Nat
  linkRate : Nat
  linkErrors : W64
  linkReplays : W64
  vfEnable : Bool
  deriving DecidableEq, Repr

/-- The capability table (01 R16). -/
structure Cap where
  valid : Bool
  gen : W16
  degraded : Bool
  replace : Bool
  tileUsable : W32
  tileSuspect : W32
  stackUsable : Byte
  sluiceUsable : BitVec 20
  sluiceSusp : BitVec 20
  ethUsable : BitVec 20
  cxl : Bool
  pcie : Bool
  fwMajor : W16
  fwMinor : W16
  abi : W16
  furrow : BitVec 4096
  furrowSusp : BitVec 4096
  deriving DecidableEq, Repr

def Cap.reset : Cap := ⟨false, 0, false, false, 0, 0, 0, 0, 0, 0, false, false, 0, 0, 0, 0, 0⟩

/-- The far tier (10 R244 to R246): the expanders' capacities in link order, and the links that are up, by number. -/
structure Far where
  capacity : Nat
  layout : Nat
  expanders : List Nat
  links : List Nat
  poisonReads : W64
  linkErrors : W64
  deriving DecidableEq, Repr

/-! ### Outputs -/

/-- A DPT packet as it leaves (13 R307, R309): its peer and path, UDP source port and destination address, whether the
IP header marks it ECN-capable, the 64 bytes of its header, and what follows. -/
structure DptWire where
  peer : Nat
  path : Nat
  srcPort : Nat
  addr : List Byte
  ecn : Bool
  header : List Byte
  body : DptBody
  deriving DecidableEq, Repr

/-- What leaves the block, in order: the model's own record, not the spec's state. A request to the host carries the
requester ID of its function (05 R107). -/
inductive Output
  | regRead (fn off : Nat) (value : Nat)
  | bar2Read (fn off : Nat) (value : Nat)
  | cfgRead (fn : Nat) (r : CfgReg) (value : Nat)
  | cfgRetry (fn : Nat) (r : CfgReg)
  | msix (fn vec : Nat)
  | bar4Data (fn off : Nat) (bytes : List Byte) (ep : Bool)
  | hostRead (fn addr len : Nat)
  | hostWrite (fn addr : Nat) (bytes : List Byte)
  | epWrite (fn addr len : Nat)
  | henua (e : HEvent) (record32 : List Byte)
  | mgmt (code status : Nat) (data : List Byte)
  | dpt (w : DptWire)
  | frame (port logical : Nat) (bytes : List Byte)
  | answered (port logical : Nat) (what : Nat)
  deriving DecidableEq, Repr

/-- The state of the module. `sluiceQ`: the handles of the copies in each descriptor queue of the sluice engines, oldest
first, by engine · 8 + queue (01 R8; 05 R110). -/
structure State where
  pending : List Instr
  out : List Output
  devTime : W64
  clockOn : Bool
  cap : Cap
  fns : Tab Fn
  tenants : Tab Tenant
  seqs : Tab Nat
  cmds : List Cmd
  nextOrder : Nat
  halted : Bool
  rrTenant : Nat
  rrQueue : Tab Nat
  allocs : Tab Alloc
  granules : Tab Granule
  sharedPoison : Tab (List Nat)
  ctrs : Counters
  mem : Memories
  stks : Tab Stack
  held : List Held
  fops : Tab FurrowOp
  nextFop : Nat
  sluiceQ : Tab (List Nat)
  bundles : Tab Bundle
  runs : Tab Run
  tiles : Tab Tile
  adapters : Tab Adapter
  margin : W64
  far : Far
  edgesDown : List (Nat × Nat)
  edgeTries : List ((Nat × Nat) × Nat)
  dpt : Dpt
  hist : FaultHist
  test : SelfTest
  pm : PowerSt
  fuses : Fuses
  henua : Henua
  board : Board
  era : Nat
  freeCtr : Nat
  deriving DecidableEq, Repr

/-- Why a command stops without a next state. -/
inductive Fault
  /-- A command names a unit, function or lane that the part does not have (01 R8, 12 R281): raised by the
  meanings that take such a number. Safe: the hardware has no such event. -/
  | noSuchUnit
  deriving DecidableEq, Repr

/-- Why a command has no meaning. -/
inductive Refusal
  /-- Raised by exec's refused arms only: the instruction has no meaning yet. Safe. -/
  | notModelled (mnemonic : String)
  deriving DecidableEq, Repr

def Memories.reset : Memories := ⟨[], [], [], [], [], [], [], [], [], [], [], [], []⟩

def Dpt.reset : Dpt :=
  ⟨false, 0, 0, 0x32, [], [], [], [], [], [], [], [], [], 0, 0, 0, 0, [], 0, 0x4, 0, 0, 0, 0x4, 0, 0⟩

def SelfTest.reset : SelfTest := ⟨false, 0, 0, 0, 0, 0, 0, 0, 0, 0, 0, 0, []⟩

def PowerSt.reset : PowerSt :=
  ⟨.trim, .trim, false, 0, false, none, false, 0x960, 0, 0, 256, 16, 0, 0, 0, 0, 0, 0, [], [], [], [], [], [], [], 0, false, false, [], false⟩

/-- The module right after reset, before 48 V is applied: every field at the reset value the spec gives,
and the values of log entries 1 to 3 where it gives none. -/
def State.reset : State where
  pending := []
  out := []
  devTime := 0
  clockOn := false
  cap := Cap.reset
  fns := []
  tenants := []
  seqs := []
  cmds := []
  nextOrder := 0
  halted := false
  rrTenant := 0
  rrQueue := []
  allocs := []
  granules := []
  sharedPoison := []
  ctrs := ⟨[], [], [], 0⟩
  mem := Memories.reset
  stks := []
  held := []
  fops := []
  nextFop := 0
  sluiceQ := []
  bundles := []
  runs := []
  tiles := []
  adapters := []
  margin := 0x5BCC0
  far := ⟨0, 0, [], [], 0, 0⟩
  edgesDown := []
  edgeTries := []
  dpt := Dpt.reset
  hist := ⟨[], [], [], 0⟩
  test := SelfTest.reset
  pm := PowerSt.reset
  fuses := ⟨0xFFFFFFFF, [], 0, [], true⟩
  henua := ⟨false, 0, 0, false, 0, 0, 0, 0, [], none, true, true, false, 1, 0, [], 0, 0, [], none, []⟩
  board := ⟨false, false, false, false, false, false, true, true, 0, 0, false, false, 0, 0, 0, 0, false⟩
  era := 0
  freeCtr := 0

end Sys2Proof.Machine
end

