-- ==== Sys2Proof/Machine/Tab.lean ====
section
/-! DEFINITION. Finite tables with strictly rising keys: lookup, update, removal. Byte memories are such
tables too. -/

namespace Sys2Proof.Machine

/-- The entry at key `k`. -/
def tabGet? {α : Type} (k : Nat) : Tab α → Option α
  | [] => none
  | (j, a) :: t => if j = k then some a else tabGet? k t

/-- The entry at key `k`, or `d` where none is listed. -/
def tabGetD {α : Type} (d : α) (k : Nat) (t : Tab α) : α := (tabGet? k t).getD d

/-- Key `k` set to `a`. -/
def tabPut {α : Type} (k : Nat) (a : α) : Tab α → Tab α
  | [] => [(k, a)]
  | (j, b) :: t => if k < j then (k, a) :: (j, b) :: t else if j = k then (k, a) :: t else (j, b) :: tabPut k a t

/-- Key `k` removed. -/
def tabDel {α : Type} (k : Nat) : Tab α → Tab α
  | [] => []
  | (j, b) :: t => if j = k then tabDel k t else (j, b) :: tabDel k t

/-- The entry at `k` (or `d`) changed by `f`. -/
def tabMod {α : Type} (d : α) (k : Nat) (f : α → α) (t : Tab α) : Tab α := tabPut k (f (tabGetD d k t)) t

/-- Every entry changed by `f`. -/
def tabMap {α : Type} (f : Nat → α → α) (t : Tab α) : Tab α := t.map fun e => (e.1, f e.1 e.2)

/-- Keys of the entries that satisfy `p`. -/
def tabKeys {α : Type} (p : α → Bool) (t : Tab α) : List Nat := (t.filter fun e => p e.2).map (·.1)

/-- The smallest number from `i` up that is not a key, looking at `n` numbers. -/
def freeKey {α : Type} (t : Tab α) : Nat → Nat → Option Nat
  | 0, _ => none
  | n + 1, i => if (tabGet? i t).isNone then some i else freeKey t n (i + 1)

/-- Keys strictly rising, all above `lo` (`none`: no bound). -/
def tabRising {α : Type} : Option Nat → Tab α → Bool
  | _, [] => true
  | lo, (k, _) :: t => (match lo with | none => true | some l => decide (l < k)) && tabRising (some k) t

/-- The canonical form of a table. -/
def tabWf {α : Type} (t : Tab α) : Bool := tabRising none t

/-- A memory whose unlisted bytes read as zero: writing zero removes the entry. -/
def putZ (k : Nat) (b : Byte) (m : Mem) : Mem := if b = 0 then tabDel k m else tabPut k b m

/-- Strictly rising keys and no listed zero: the canonical form of a zero-filled memory. -/
def zWf (m : Mem) : Bool := tabWf m && m.all fun c => c.2 != 0

/-- Sorted insertion of a number, without repeats. -/
def setIns (n : Nat) : List Nat → List Nat
  | [] => [n]
  | m :: t => if n < m then n :: m :: t else if m = n then m :: t else m :: setIns n t

def setDel (n : Nat) (l : List Nat) : List Nat := l.filter (· != n)

end Sys2Proof.Machine
end

