-- ==== Sys2Proof/Machine/Flags.lean ====
section
/-! DEFINITION. Status codes and how one completion's status follows from the outcomes that apply
(08 R198, R199), and the RFLAGS bits of a record (08 R182). -/

namespace Sys2Proof.Machine

def stOk : Nat := 0x0000
def stAccepted : Nat := 0x0001
def stRecomputed : Nat := 0x0002
def stEngineAbsent : Nat := 0x0101
def stBadOpcode : Nat := 0x0102
def stBadDescriptor : Nat := 0x0103
def stDescAlias : Nat := 0x0104
def stDescRange : Nat := 0x0105
def stWindow : Nat := 0x0106
def stAbiTooNew : Nat := 0x0107
def stPageRefLimit : Nat := 0x0108
def stDataPoisoned : Nat := 0x0201
def stSharedPoisoned : Nat := 0x0202
def stCancelled : Nat := 0x0301
def stDeadlineMissed : Nat := 0x0302
def stDeviceFault : Nat := 0x0401
def stTileLost : Nat := 0x0402
def stPeerUnreachable : Nat := 0x0501
def stVersionMismatch : Nat := 0x0502

/-- The completion statuses, first that applies wins (08 R199). -/
def precedence : List Nat :=
  [stDeviceFault, stTileLost, stPeerUnreachable, stWindow, stSharedPoisoned, stDataPoisoned, stPageRefLimit,
   stVersionMismatch, stBadDescriptor, stCancelled, stRecomputed, stDeadlineMissed]

/-- The status of a completion (08 R199): the first of the list that applies, ST_OK when none does. -/
def statusOf (outcomes : List Nat) : Nat := (precedence.find? (outcomes.contains ·)).getD stOk

/-- Statuses after which FLAGS.SIGNAL is applied (08 R190). -/
def signalsOn (status : Nat) : Bool := status == stOk || status == stRecomputed || status == stDeadlineMissed

/-- RFLAGS of a record (08 R182). -/
def rflags (phase late recomputed : Bool) : Nat := b2n phase + 2 * b2n late + 4 * b2n recomputed

end Sys2Proof.Machine
end

