-- ==== Sys2Proof/Machine/Ops.lean ====
section
/-! DEFINITION. The named operations that every family shares: access to functions, tiles, stacks and
tenants; outputs; Henua events (18 R433 to R435); interrupts and their moderation (14 R342 to R344);
capability changes (01 R16, R17); fault records, suspicion and retirement (15 R365 to R374). -/

namespace Sys2Proof.Machine

abbrev Res := Host.Outcome State Fault Refusal

/-- Answer `next` when the named unit exists, otherwise `noSuchUnit`. -/
def onUnit (isThere : Bool) (t : State) : Res := if isThere then .next t else .fault .noSuchUnit

/-- Apply `f` in order to every element. -/
def forEach {α : Type} (f : α → State → State) : List α → State → State
  | [], s => s
  | a :: t, s => forEach f t (f a s)

/-- `g s` when `c` holds, otherwise `s`. -/
def whenS (c : Bool) (g : State → State) (s : State) : State := if c then g s else s

/-! ### Units -/

def getFn (s : State) (f : Nat) : Fn := tabGetD Fn.reset f s.fns
def modFn (f : Nat) (g : Fn → Fn) (s : State) : State := { s with fns := tabMod Fn.reset f g s.fns }
def getTile (s : State) (t : Nat) : Tile := tabGetD Tile.reset t s.tiles
def modTile (t : Nat) (g : Tile → Tile) (s : State) : State := { s with tiles := tabMod Tile.reset t g s.tiles }
def getStk (s : State) (k : Nat) : Stack := tabGetD Stack.reset k s.stks
def modStk (k : Nat) (g : Stack → Stack) (s : State) : State := { s with stks := tabMod Stack.reset k g s.stks }
def getPort (s : State) (p : Nat) : Port := tabGetD Port.reset p s.dpt.ports
def modPort (p : Nat) (g : Port → Port) (s : State) : State :=
  { s with dpt := { s.dpt with ports := tabMod Port.reset p g s.dpt.ports } }
def getTen? (s : State) (t : Nat) : Option Tenant := tabGet? t s.tenants
def getTen (s : State) (t : Nat) : Tenant := (tabGet? t s.tenants).getD default
/-- Change tenant `t` where it is live. -/
def modTen (t : Nat) (g : Tenant → Tenant) (s : State) : State :=
  match tabGet? t s.tenants with
  | some x => { s with tenants := tabPut t (g x) s.tenants }
  | none => s
def getRun? (s : State) (r : Nat) : Option Run := tabGet? r s.runs
def modRun (r : Nat) (g : Run → Run) (s : State) : State :=
  match tabGet? r s.runs with
  | some x => { s with runs := tabPut r (g x) s.runs }
  | none => s
def getFop? (s : State) (i : Nat) : Option FurrowOp := tabGet? i s.fops
def modFop (i : Nat) (g : FurrowOp → FurrowOp) (s : State) : State :=
  match tabGet? i s.fops with
  | some x => { s with fops := tabPut i (g x) s.fops }
  | none => s
def modHenua (g : Henua → Henua) (s : State) : State := { s with henua := g s.henua }
def modDpt (g : Dpt → Dpt) (s : State) : State := { s with dpt := g s.dpt }
def modPm (g : PowerSt → PowerSt) (s : State) : State := { s with pm := g s.pm }
def modBoard (g : Board → Board) (s : State) : State := { s with board := g s.board }
def modTest (g : SelfTest → SelfTest) (s : State) : State := { s with test := g s.test }

/-- A record was added to the module's output. -/
def emit (o : Output) (s : State) : State := { s with out := s.out ++ [o] }

/-- DEV_TIME as a number (01 R10). -/
def now (s : State) : Nat := s.devTime.toNat

/-- Bit `t` set or cleared in a bit field of width `w`. -/
def putBit {w : Nat} (v : BitVec w) (i : Nat) (b : Bool) : BitVec w :=
  BitVec.ofNat w (if v.toNat.testBit i then (if b then v.toNat else v.toNat - 2 ^ i) else (if b then v.toNat + 2 ^ i else v.toNat))

def hasBit {w : Nat} (v : BitVec w) (i : Nat) : Bool := v.toNat.testBit i

/-- Number of set bits among the lowest `n`. -/
def popcount (v : Nat) : Nat → Nat
  | 0 => 0
  | n + 1 => popcount v n + b2n (v.testBit n)

/-! ### Usability (01 R19, R20; 10 R224; 15 R358) -/

def tilePresent (s : State) (t : Nat) : Bool := hasBit s.fuses.present t
def tileUsable (s : State) (t : Nat) : Bool := hasBit s.cap.tileUsable t
def stackUsable (s : State) (k : Nat) : Bool := hasBit s.cap.stackUsable k
/-- A sluice engine that is present, usable and not suspended (01 R20). -/
def sluiceUsable (s : State) (e : Nat) : Bool := hasBit s.cap.sluiceUsable e && !hasBit s.cap.sluiceSusp e
def ethUsable (s : State) (p : Nat) : Bool := hasBit s.cap.ethUsable p
/-- Furrow unit by its MG_CAP_FURROW bit: usable, its stack usable (01 R16). -/
def furrowUsable (s : State) (b : Nat) : Bool := hasBit s.cap.furrow b && stackUsable s (b / 512)

/-- An instance of a space that is present and usable (01 R19): a basin needs a usable tile on its die,
a tile memory its tile, the far space the CXL port. -/
def instUsable (s : State) (space inst : Nat) : Bool :=
  match space with
  | 1 => s.cap.cxl
  | 3 => (List.range 8).any fun i => tileUsable s (8 * inst + i)
  | 4 => tileUsable s inst
  | 5 => tileUsable s inst
  | _ => true

/-! ### Free values (00 R4) -/

/-- The next free byte. -/
def freshByte (s : State) : Byte × State := (Config.freeByte s.freeCtr, { s with freeCtr := s.freeCtr + 1 })

/-! ### Henua events (18 R433 to R435) -/

/-- The 32-byte record of IG-DX1 carriers (18 R434). -/
def record32 (e : HEvent) : List Byte :=
  let fr := e.cls == 0x01
  let std := 1 ≤ e.cls && e.cls ≤ 7
  let pl := e.payload.map (BitVec.ofNat 8)
  let detail := if fr then fieldB pl 0x1C 4 else if std then 0 else e.cls
  toLE 1 (if std then e.cls else 0x7F) ++ toLE 1 (if fr then fieldB pl 2 1 else 0) ++
  toLE 2 (if fr then fieldB pl 4 2 else 0) ++ toLE 4 e.seq ++ toLE 8 e.time ++ toLE 4 detail ++ rep 12 0

/-- The last 512 events are kept; an undelivered one that is overwritten counts in MG_EVT_LOST (18 R435). -/
def storeEvent (e : HEvent) (h : Henua) : Henua :=
  let l := h.events ++ [e]
  if l.length ≤ 512 then { h with events := l }
  else
    match l with
    | [] => h
    | x :: t => { h with events := t, evtLost := if x.delivered then h.evtLost else h.evtLost + 1 }

/-- One Henua event (18 R433): stored, and delivered on every enabled path while the controller runs. -/
def henuaEvent (cls severity : Nat) (payload : List Nat) (s : State) : State :=
  if s.henua.up then
    let dlv := s.henua.evtI3c || s.henua.evtEth
    let e : HEvent := ⟨cls, severity, s.henua.evtSeq.toNat, if s.clockOn then now s else 0, s.henua.operating.toNat, payload, dlv⟩
    let s1 := modHenua (fun h => { storeEvent e h with evtSeq := h.evtSeq + 1 }) s
    whenS dlv (emit (.henua e (if s.henua.evtFormat then record32 e else []))) s1
  else s

/-! ### Interrupts (14 R342 to R344) -/

def msixDefault : MsixEntry := ⟨0, 0, true⟩

/-- Send the message of vector `v`, or set its pending bit where the function or entry is masked (14 R342). -/
def sendMsix (f v : Nat) (s : State) : State :=
  let x := getFn s f
  if !x.msixEnable then s
  else if x.msixMask || (tabGetD msixDefault v x.msix).masked then modFn f (fun y => { y with pba := putBit y.pba v true }) s
  else emit (.msix f v) s

/-- HOLDOFF and COUNT of a vector's moderation register (14 R338): reset HOLDOFF 0, COUNT 1. -/
def irqHoldoff (x : Fn) (v : Nat) : Nat := bitsOf (tabGetD 1 v x.irqMod).toNat 25 16
def irqCount (x : Fn) (v : Nat) : Nat := max 1 (bitsOf (tabGetD 1 v x.irqMod).toNat 7 0)

/-- One event on a vector (14 R344). Nothing counts while MSI-X Enable is 0 (14 R342). -/
def vecEvent (f v : Nat) (s : State) : State :=
  let x := getFn s f
  if !x.msixEnable then s
  else
    let n := tabGetD 0 v x.modCount + 1
    if irqHoldoff x v = 0 ∨ irqCount x v ≤ n then
      sendMsix f v (modFn f (fun y => { y with modCount := tabDel v y.modCount, modTimer := tabDel v y.modTimer }) s)
    else modFn f (fun y => { y with modCount := tabPut v n y.modCount, modTimer := tabPut v true y.modTimer }) s

/-- A cause bit rises (14 R343): a rising enabled bit is one event on PX_IRQ_VECTOR. -/
def setCause (f bit : Nat) (s : State) : State :=
  let x := getFn s f
  if hasBit x.irqCause bit then s
  else
    whenS (hasBit x.irqEnable bit) (vecEvent f x.irqVector)
      (modFn f (fun y => { y with irqCause := putBit y.irqCause bit true }) s)

/-- A cause bit rises in every function. -/
def setCauseAll (bit : Nat) (s : State) : State := forEach (fun f => setCause f bit) (List.range 64) s

/-- The completion queue's event (14 R342: the vector of HG_CQ_CTRL). -/
def cqEvent (f : Nat) (s : State) : State := vecEvent f (bitsOf (getFn s f).cqCtrl.toNat 20 16) s

/-! ### The capability table (01 R16, R17) -/

def gradeCode (s : State) : Nat := popcount s.fuses.present.toNat 32

/-- DEGRADED: some usable bit is 0 for a unit that is present (01 R16). -/
def degradedNow (s : State) : Bool :=
  s.cap.tileUsable != s.fuses.present || s.cap.stackUsable != 0xFF#8 || s.cap.sluiceUsable != 0xFFFFF#20 ||
  s.cap.ethUsable != 0xFFFFF#20 || !s.cap.cxl || !s.cap.pcie || s.cap.furrow != BitVec.allOnes 4096

def capStateWord (c : Cap) : Nat := c.gen.toNat * 65536 + 4 * b2n c.degraded + 2 * b2n c.replace + b2n c.valid

/-- MG_CAP_FURROW as read: a lost stack's bits read 0 (01 R16). -/
def furrowWord (s : State) (w : Nat) : Nat :=
  if stackUsable s (w / 16) then s.cap.furrow.toNat / 2 ^ (32 * w) % 2 ^ 32 else 0

/-- A 4-byte read of the capability table (01 R15, R16): all zero until VALID. -/
def capRead (s : State) (off : Nat) : Nat :=
  if !s.cap.valid then 0
  else
    match off with
    | 0x1000 => 0x0002_1000
    | 0x1004 => 0x0D32 * 65536 + gradeCode s
    | 0x1008 => capStateWord s.cap
    | 0x1010 => s.fuses.present.toNat
    | 0x1014 => s.cap.tileUsable.toNat
    | 0x1018 => s.cap.tileSuspect.toNat
    | 0x101C => s.cap.stackUsable.toNat * 256 + 0xFF
    | 0x1020 => s.cap.sluiceUsable.toNat
    | 0x1024 => s.cap.ethUsable.toNat
    | 0x1028 => 2 * b2n s.cap.cxl + b2n s.cap.pcie
    | 0x102C => s.cap.sluiceSusp.toNat
    | 0x1030 => s.cap.fwMajor.toNat * 65536 + s.cap.fwMinor.toNat
    | 0x1034 => s.cap.abi.toNat
    | _ => if 0x1080 ≤ off ∧ off < 0x1280 ∧ off % 4 = 0 then furrowWord s ((off - 0x1080) / 4) else 0

/-- The capability registers as (offset, value) pairs, for the list of those a change touched. -/
def capRegs (s : State) : List (Nat × Nat) :=
  ([0x1014, 0x1018, 0x101C, 0x1020, 0x1024, 0x1028, 0x102C] ++ (List.range 128).map fun w => 0x1080 + 4 * w).map
    fun o => (o, capRead s o)

def changedRegs : List (Nat × Nat) → List (Nat × Nat) → List Nat
  | a :: t, b :: u => (if a.2 = b.2 then [] else [b.1, b.2]) ++ changedRegs t u
  | _, _ => []

/-- One completed change of the capability table (01 R17): GEN goes odd and even again, so rises by 2;
one capability-change interrupt in every function and one event of class 0x02. `DEGRADED` follows the
usable bits and, like REPLACE_REQUESTED, stays set (15 R369; 10 R245). -/
def capChange (severity : Nat) (g : Cap → Cap) (s : State) : State :=
  let s1 := { s with cap := g s.cap }
  if s.cap.valid then
    let s2 := { s1 with cap := { s1.cap with gen := s1.cap.gen + 2, degraded := s1.cap.degraded || degradedNow s1 } }
    setCauseAll 0 (henuaEvent 0x02 severity (capStateWord s2.cap :: changedRegs (capRegs s) (capRegs s2)) s2)
  else s1

/-! ### The fault history (15 R365 to R374) -/

/-- UNIT_CLASS and UNIT of a unit (15 R372). -/
def unitCode : UnitRef → Nat × Nat
  | .tile t => (1, t)
  | .furrow b => (2, b)
  | .stack k => (3, k)
  | .edge a b => (4, 8 * min a b + max a b)
  | .sluice e => (5, e)
  | .sequencer => (6, 0)
  | .counterStore => (7, 0)
  | .port p => (8, p)
  | .cxl => (9, 0)
  | .basin c => (10, c)

/-- The 64 bytes of a fault record (15 R372). -/
def recBytes (r : FaultRec) : List Byte :=
  toLE 1 r.kind ++ toLE 1 r.check ++ toLE 1 r.cls ++ toLE 1 0 ++ toLE 2 r.unit ++ toLE 1 r.tenant ++ toLE 1 0 ++
  toLE 8 r.time ++ toLE 8 r.operating ++ toLE 4 r.resets ++ toLE 4 r.detail ++ sliceB r.bundle 0 16 ++ rep 16 0

/-- Whether a unit raised an event within the last 10 ms (15 R374). -/
def unitQuiet (s : State) (cls unit : Nat) : Bool :=
  !s.henua.unitEvents.any fun e => e.1 == cls && e.2.1 == unit && decide (now s < e.2.2 + 10000 * aclkPerUs)

/-- The flash keeps 131,072 records: of those, the oldest computation detection goes first, then the oldest of
any other kind. -/
def trimFlash (l : List FaultRec) : List FaultRec :=
  if l.length ≤ 131072 then l
  else
    let n := l.length - 131072
    let ones := (l.filter fun r => r.kind == 1).length
    let kept := (l.foldl (fun (a : List FaultRec × Nat) r => if r.kind == 1 ∧ 0 < a.2 then (a.1, a.2 - 1) else (r :: a.1, a.2)) ([], min n ones)).1.reverse
    kept.drop (n - min n ones)

/-- A fault record is written: to always-on SRAM, or at once to flash when it is a permanent classification,
and the records that wait go there before it (15 R371); kinds 0x02 and 0x04 to 0x0A are reported, at most one event per unit in 10 ms
(15 R374). -/
def recordFault (kind check : Nat) (u : UnitRef) (tenant detail : Nat) (bundle : List Byte) (s : State) : State :=
  let c := unitCode u
  let r : FaultRec := ⟨kind, check, c.1, c.2, tenant, now s, s.henua.operating.toNat, s.hist.resets, detail, bundle⟩
  let s1 := if kind = 5 then { s with hist := { s.hist with flash := trimFlash (s.hist.flash ++ s.hist.pendingFlash ++ [r]), pendingFlash := [] } }
            else { s with hist := { s.hist with pendingFlash := s.hist.pendingFlash ++ [r] } }
  if kind ≠ 1 ∧ kind ≠ 3 ∧ unitQuiet s c.1 c.2 then
    henuaEvent 0x01 (if kind = 5 then 2 else 1) ((recBytes r).map (·.toNat))
      (modHenua (fun h => { h with unitEvents := (
        h.unitEvents.filter (fun e => !(e.1 == c.1 && e.2.1 == c.2)) ++ [(c.1, c.2, now s)]) }) s1)
  else s1

def getSum (s : State) (u : UnitRef) : UnitSum :=
  (s.hist.sums.find? fun x => x.cls == (unitCode u).1 && x.unit == (unitCode u).2).getD ⟨(unitCode u).1, (unitCode u).2, 0, [], 0⟩

/-- Change a unit's summary; a unit in the normal state without events keeps none (15 R371). -/
def modSum (u : UnitRef) (g : UnitSum → UnitSum) (s : State) : State :=
  let x := g (getSum s u)
  let rest := s.hist.sums.filter fun y => !(y.cls == x.cls && y.unit == x.unit)
  { s with hist := { s.hist with sums := if x.state = 0 ∧ x.events = [] then rest else rest ++ [x] } }

/-- Fault events within the last 604,800 s of operating time (15 R368). -/
def recentEvents (s : State) (x : UnitSum) : Nat :=
  (x.events.filter fun t => decide (s.henua.operating.toNat < t + 604800)).length

/-- The capability bits of a unit cleared (15 R369 step 2; 10 R224 for a stack's furrow units). -/
def clearUsable (u : UnitRef) (c : Cap) : Cap :=
  match u with
  | .tile t => { c with tileUsable := putBit c.tileUsable t false, tileSuspect := putBit c.tileSuspect t false }
  | .furrow b => { c with furrow := putBit c.furrow b false, furrowSusp := putBit c.furrowSusp b false }
  | .stack k => { c with stackUsable := putBit c.stackUsable k false }
  | .sluice e => { c with sluiceUsable := putBit c.sluiceUsable e false, sluiceSusp := putBit c.sluiceSusp e false }
  | .port p => { c with ethUsable := putBit c.ethUsable p false }
  | .cxl => { c with cxl := false }
  | _ => c

/-- A unit becomes suspect (15 R366): a tile shows it in MG_CAP_TILE_SUSPECT, a furrow unit or sluice
engine is suspended. `fresh`: the state changes. -/
def suspectCap (u : UnitRef) (c : Cap) : Cap :=
  match u with
  | .tile t => { c with tileSuspect := putBit c.tileSuspect t true }
  | .furrow b => { c with furrowSusp := putBit c.furrowSusp b true }
  | .sluice e => { c with sluiceSusp := putBit c.sluiceSusp e true }
  | _ => c

/-- Whether a suspect unit of this class is suspended (15 R366). -/
def suspends : UnitRef → Bool
  | .furrow _ => true
  | .sluice _ => true
  | _ => false

/-- REPLACE_REQUESTED is set (15 R369 step 3). -/
def replaceCap (c : Cap) : Cap := { c with replace := true, degraded := true }

/-- A unit is classed as permanent (15 R369): the classification reaches flash, the capability table
changes once, REPLACE_REQUESTED and DEGRADED are set. -/
def retireCap (check : Nat) (u : UnitRef) (tenant : Nat) (s : State) : State :=
  if (getSum s u).state = 3 then s
  else
    capChange 2 (fun c => replaceCap (clearUsable u c))
      (modSum u (fun x => { x with state := 3 }) (recordFault 5 check u tenant 0 [] s))

end Sys2Proof.Machine
end

