-- ==== Sys2Proof/Machine/Wake.lean ====
section
/-! DEFINITION. Wake sources of Idle and Hold (17 R400 to R402), shared by every family that can wake the
module. -/

namespace Sys2Proof.Machine

/-- The state in force for dispatch: the one being entered, else the present one. -/
def powerEff (s : State) : Power := if s.pm.transition && !s.pm.waking then s.pm.target else s.pm.state

/-- The wake begins (17 R400): TRANSITION, LAST_WAKE and PM_WAKES. R417 gives a counter update (8) no
LAST_WAKE code: the field takes a FREE VALUE (log entry 13). -/
def startWake (code : Nat) (s : State) : State :=
  if code ≤ 7 then
    modPm (fun p => { p with waking := true, transition := true, lastWake := code, wakes := p.wakes + 1, heldWake := none }) s
  else
    let r := freshByte s
    modPm (fun p => { p with waking := true, transition := true, lastWake := r.1.toNat % 16, wakes := p.wakes + 1, heldWake := none }) r.2

/-- A wake source arrives (17 R400); it is held while a state is being entered (R401) and during an
orderly stop (R416). `idleToo`: it wakes Idle as well as Hold. -/
def wakeSource (code : Nat) (idleToo : Bool) (s : State) : State :=
  let e := powerEff s
  if e = .hold ∨ (e = .idle ∧ idleToo = true) then
    if s.pm.waking then s
    else if s.pm.stopHold ∨ s.pm.transition = true then modPm (fun p => { p with heldWake := some (p.heldWake.getD code) }) s
    else startWake code s
  else s

/-- A held wake begins (17 R401, R416). -/
def releaseHeldWake (s : State) : State :=
  match s.pm.heldWake with
  | none => s
  | some c => if s.pm.stopHold ∨ s.pm.transition = true then s else startWake c s

end Sys2Proof.Machine
end

