-- ==== Sys2Proof/Machine/Ctr.lean ====
section
/-! DEFINITION. Live commands as shared operations use them, and the sync-counter store (09 R202 to R218):
one atomic update with every release it causes. -/

namespace Sys2Proof.Machine

/-! ### Live commands -/

def getCmd? (s : State) (h : Nat) : Option Cmd := s.cmds.find? fun c => c.handle == h

def modCmd (h : Nat) (g : Cmd → Cmd) (s : State) : State :=
  { s with cmds := s.cmds.map fun c => if c.handle == h then g c else c }

def addOutcomes (new old : List Nat) : List Nat := new.foldl (fun l x => if l.contains x then l else l ++ [x]) old

/-- A command done with these outcomes beside its own and this VALUE; one that is done already stays. -/
def Cmd.ended (outs : List Nat) (value : Nat) (c : Cmd) : Cmd :=
  if c.stage = .done then c else { c with stage := .done, outcomes := addOutcomes outs c.outcomes, value := value }

/-- The command's work has ended with these outcomes and this VALUE; its completion record follows
(COMMAND_COMPLETION). -/
def finishCmd (h : Nat) (outs : List Nat) (value : Nat) (s : State) : State := modCmd h (Cmd.ended outs value) s

/-- An outcome applies to a command, which goes on. -/
def noteOutcome (h st : Nat) (s : State) : State := modCmd h (fun c => { c with outcomes := addOutcomes [st] c.outcomes }) s

def cmdParam (c : Cmd) (k : Nat) : Nat := c.pkt.p.getD k 0

/-! ### Tenants' counters (09 R203) -/

/-- Physical number of a tenant's counter, when the tenant exists and holds it. -/
def physCtr (s : State) (tenant k : Nat) : Option Nat :=
  match tabGet? tenant s.tenants with
  | some t => if k < t.profile.ctrCount then some (t.profile.ctrBase + k) else none
  | none => none

/-- The live tenant that holds a physical counter. -/
def ctrOwner (s : State) (c : Nat) : Option Nat :=
  (s.tenants.find? fun e => decide (e.2.profile.ctrBase ≤ c ∧ c < e.2.profile.ctrBase + e.2.profile.ctrCount)).map (·.1)

def ctrVal (s : State) (c : Nat) : W64 := tabGetD 0 c s.ctrs.vals

/-! ### One update (09 R205 to R209) -/

/-- A release: the wait and the counter value it is told. -/
abbrev Release := Wait × Nat

/-- Step 2 and step 4 of R209: every WAIT_GE on `c` whose threshold `v` meets. -/
def releaseGe (c v : Nat) : List Wait → List Release × List Wait
  | [] => ([], [])
  | w :: t =>
    let r := releaseGe c v t
    if w.ctr = c ∧ w.take = false ∧ w.amount ≤ v then ((w, v) :: r.1, r.2) else (r.1, w :: r.2)

/-- Step 3 of R209: takers of `c` from the head of their queue, each subtracting its amount, until the
head taker's amount exceeds the counter (`blocked`). -/
def releaseTake (c : Nat) : Bool → Nat → List Wait → List Release × List Wait × Nat
  | _, v, [] => ([], [], v)
  | blocked, v, w :: t =>
    if w.ctr = c ∧ w.take = true then
      if blocked = false ∧ w.amount ≤ v then
        let r := releaseTake c false (v - w.amount) t
        ((w, v - w.amount) :: r.1, r.2.1, r.2.2)
      else
        let r := releaseTake c true v t
        (r.1, w :: r.2.1, r.2.2)
    else
      let r := releaseTake c blocked v t
      (r.1, w :: r.2.1, r.2.2)

/-- Steps 2 to 4 of R209 on the waits, from the value that step 1 left: the releases, the waits that stay,
and the value left. -/
def settle (c v : Nat) (ws : List Wait) : List Release × List Wait × Nat :=
  let a := releaseGe c v ws
  let b := releaseTake c false v a.2
  let d := releaseGe c b.2.2 b.2.1
  (a.1 ++ b.1 ++ d.1, d.2, b.2.2)

/-- A released wait tells its owner: a Brodat wait ends with the value, a tile's step head goes on (09 R212)
and wakes the module from Idle (17 R402). -/
def tellOwner (r : Release) (s : State) : State :=
  match r.1.owner with
  | .cmd h => finishCmd h [] r.2 s
  | .tile t =>
    wakeSource 8 true
      (modTile t (fun x => { x with ctx := x.ctx.map fun c => { c with headDone := c.headDone + 1, headWait := none } }) s)

/-- A saved head wait would be released at once if it arrived now (17 R402). -/
def waitMet (s : State) (w : Nat × Bool × Nat) : Bool :=
  !s.ctrs.broken.contains w.1 && decide (w.2.2 ≤ (ctrVal s w.1).toNat) &&
  (!w.2.1 || !s.ctrs.waits.any fun x => x.ctr == w.1 && x.take)

/-- Some paused run, of a tenant that TENANT_PAUSE does not hold, has its watched head wait on `c` met (17 R402). -/
def watchMet (c : Nat) (s : State) : Bool :=
  s.runs.any fun e => e.2.state == .paused && !(getTen s e.2.tenant).held &&
    e.2.frames.any fun f =>
      match f.2.headWait with
      | some w => w.1 == c && waitMet s w
      | none => false

/-- One update of counter `c`: step 1 sets the value to `v` (a signal, a hand-set value or, for an arrival
or withdrawal, the value as it was) over the waits `ws`; releases follow, all atomic (09 R205, R209). The
update may meet a watch of Hold (17 R402). -/
def ctrUpdate (c v : Nat) (ws : List Wait) (s : State) : State :=
  let r := settle c v ws
  let s1 := forEach tellOwner r.1
    { s with ctrs := { s.ctrs with vals := tabPut c (BitVec.ofNat 64 r.2.2) s.ctrs.vals, waits := r.2.1,
                                   updates := s.ctrs.updates + 1 } }
  whenS (watchMet c s1) (wakeSource 8 false) s1

/-- A signal of `n` to physical counter `c` (09 R206): discarded on a broken counter, saturating. -/
def signalPhys (c n : Nat) (s : State) : State :=
  if s.ctrs.broken.contains c then s
  else
    let sum := (ctrVal s c).toNat + n
    let s1 := ctrUpdate c (min sum (2 ^ 64 - 1)) s.ctrs.waits s
    match ctrOwner s c with
    | some t => whenS (decide (2 ^ 64 ≤ sum)) (modFn t (fun f => { f with saturated := true })) s1
    | none => s1

/-- A signal to counter `k` of a tenant; discarded when the tenant or its range is gone (09 R216). -/
def signalCtr (tenant k n : Nat) (s : State) : State :=
  match physCtr s tenant k with
  | some c => signalPhys c n s
  | none => s

/-- A wait arrives at physical counter `c` (09 R207, R208). -/
def arriveWait (w : Wait) (s : State) : State := ctrUpdate w.ctr (ctrVal s w.ctr).toNat (s.ctrs.waits ++ [w]) s

/-- The waits that satisfy `p` are withdrawn without taking anything, all before any release follows; each is one
update (09 R205, R215, R216). -/
def withdrawAll (p : Wait → Bool) (s : State) : State :=
  forEach (fun c t => ctrUpdate c (ctrVal t c).toNat t.ctrs.waits t) ((s.ctrs.waits.filter p).map (·.ctr))
    { s with ctrs := { s.ctrs with waits := s.ctrs.waits.filter fun w => !p w } }

/-- Every wait of an owner is withdrawn. -/
def withdraw (o : WaitOwner) (s : State) : State := withdrawAll (fun w => w.owner == o) s

/-- A value set by hand (09 R217): one update, which also repairs a broken counter (R218). -/
def pokePhys (c v : Nat) (s : State) : State :=
  ctrUpdate c (v % 2 ^ 64) s.ctrs.waits { s with ctrs := { s.ctrs with broken := setDel c s.ctrs.broken } }

end Sys2Proof.Machine
end

