-- ==== Sys2Proof/Machine/Mem.lean ====
section
/-! DEFINITION. The memories: the stack map (10 R221, R224), the code word and its outcomes (10 R225,
R226), the merge buffer (10 R227 to R229), poison (10 R234 to R236), shared-weight repair (11 R278,
R279), and reads and writes of aligned 64-byte blocks in every space (05 R105, R111). -/

namespace Sys2Proof.Machine

/-! ### Raw bytes -/

def putBytes (k : Nat) : List Byte → Mem → Mem
  | [], m => m
  | b :: t, m => putBytes (k + 1) t (tabPut k b m)

def putBytesZ (k : Nat) : List Byte → Mem → Mem
  | [], m => m
  | b :: t, m => putBytesZ (k + 1) t (putZ k b m)

def getBytes (dflt : Nat → Byte) (k len : Nat) (m : Mem) : List Byte :=
  (List.range len).map fun i => tabGetD (dflt (k + i)) (k + i) m

/-- Bytes of host memory (space 0). -/
def hostRead (s : State) (addr len : Nat) : List Byte := getBytes (Config.unwrittenByte 0 0) addr len s.mem.host
/-- Host memory takes bytes. -/
def hostStore (addr : Nat) (bs : List Byte) (s : State) : State :=
  { s with mem := { s.mem with host := putBytes addr bs s.mem.host } }
/-- A posted write to the host under function `fn`'s requester ID, its address unchanged (05 R107, R118). -/
def hostWrite (fn addr : Nat) (bs : List Byte) (s : State) : State := emit (.hostWrite fn addr bs) (hostStore addr bs s)
/-- A read request to the host under function `fn`'s requester ID (05 R107). -/
def hostFetch (fn addr len : Nat) (s : State) : State := emit (.hostRead fn addr len) s

/-- Key of an offset in a zero-filled space (3 to 5): instance and offset. -/
def zKey (inst off : Nat) : Nat := inst * 2 ^ 48 + off

/-- A 64-bit byte mask that covers a whole block. -/
def fullMask : Nat := 2 ^ 64 - 1

/-- Bytes of `new` where the mask has a 1, bytes of `old` elsewhere. -/
def mergeBytes (mask : Nat) (new old : List Byte) : List Byte :=
  (List.range 64).map fun i => if mask.testBit i then new.getD i 0 else old.getD i 0

/-! ### The stack map (10 R221, R224) -/

/-- Stack and stack-local offset of a granule offset (10 R221); chunks of a lost stack may have been
placed in the other stack of the same die at a second unit (10 R224). -/
def granulePhys (g : Granule) (o : Nat) : Nat × Nat :=
  if g.mode = 2 then (g.stack, g.unit * 2 ^ 27 + o)
  else
    let c := bitsOf o 14 12
    let st := if g.mode = 1 then (c + 4) % 8 else c
    let within := o / 2 ^ 15 * 4096 + o % 4096
    match tabGet? st g.subst with
    | some u => (if st % 2 = 0 then st + 1 else st - 1, u * 2 ^ 27 + within)
    | none => (st, g.unit * 2 ^ 27 + within)

/-- The physical block (stack · 2^31 + local block) of a module offset, when its granule is mapped. -/
def physBlk (s : State) (off : Nat) : Option Nat :=
  (tabGet? (off / 2 ^ 30) s.granules).map fun g =>
    let p := granulePhys g (off % 2 ^ 30)
    p.1 * 2 ^ 31 + p.2 / 64

def stackOfBlk (blk : Nat) : Nat := blk / 2 ^ 31

/-- Memory die, bank pair, bank (as die · 64 + bank) and row of a physical block (04 R72). -/
def blkDie (blk : Nat) : Nat := bitsOf (blk % 2 ^ 31 * 64) 15 12
def blkPair (blk : Nat) : Nat := bitsOf (blk % 2 ^ 31 * 64) 20 16
def blkBank (blk : Nat) : Nat := 64 * blkDie blk + 2 * blkPair blk + bitsOf (blk % 2 ^ 31 * 64) 11 11
def blkRow (blk : Nat) : Nat := blk % 2 ^ 31 * 64 / 2 ^ 21

/-- The granule offset that a granule keeps at a physical stack and local offset, if any. -/
def granuleInv (g : Granule) (st loc : Nat) : Option Nat :=
  if g.mode = 2 then
    if st = g.stack ∧ g.unit * 2 ^ 27 ≤ loc ∧ loc < g.unit * 2 ^ 27 + 2 ^ 30 then some (loc - g.unit * 2 ^ 27) else none
  else
    let u := loc / 2 ^ 27
    let w := loc % 2 ^ 27
    let peer := if st % 2 = 0 then st + 1 else st - 1
    let logical : Option Nat :=
      if tabGet? peer g.subst = some u then some peer
      else if (tabGet? st g.subst).isNone ∧ u = g.unit then some st else none
    logical.map fun l => w / 4096 * 2 ^ 15 + (if g.mode = 1 then (l + 4) % 8 else l) * 4096 + w % 4096

/-- The module offset of a physical block, if a granule maps it. -/
def modOfBlk (s : State) (blk : Nat) : Option Nat :=
  s.granules.findSome? fun e =>
    (granuleInv e.2 (stackOfBlk blk) (blk % 2 ^ 31 * 64)).map fun o => e.1 * 2 ^ 30 + o

/-- The live allocation that holds an offset of a space and instance. -/
def allocAt (s : State) (space inst off : Nat) : Option (Nat × Alloc) :=
  s.allocs.find? fun e => e.2.space == space && e.2.inst == inst && decide (e.2.base ≤ off) && decide (off < e.2.base + e.2.len)

/-! ### The code word (10 R225, R226) -/

/-- What a decoder finds in a stored word: kind 0 clean, 1 corrected, 2 uncorrectable, 3 poison; the
data as the reader sees it; the symbol corrected. -/
structure Found where
  data : List Byte
  kind : Nat
  sym : Option Nat
  deriving DecidableEq, Repr

/-- Symbols (stored bytes) that differ from the encoded word. -/
def badSymbols (f : BitVec 576) : List Nat := (List.range 72).filter fun i => f.toNat / 2 ^ (8 * i) % 256 != 0

def flipData (f : BitVec 576) (d : List Byte) : List Byte :=
  (List.range 64).map fun i => d.getD i 0 ^^^ BitVec.ofNat 8 (f.toNat / 2 ^ (8 * i))

/-- Decode of a word that carries the symbol errors `f` (10 R225, R226). -/
def decodeWord (data : List Byte) (poison : Bool) (f : BitVec 576) : Found :=
  match badSymbols f with
  | [] => ⟨data, if poison then 3 else 0, none⟩
  | [i] => ⟨data, if poison then 3 else 1, some i⟩
  | _ :: _ :: more =>
    if poison then ⟨data, if Config.poisonTwoSymbols f.toNat then 3 else 2, none⟩
    else if more = [] then ⟨flipData f data, 2, none⟩
    else
      let o := Config.beyondTwoSymbols f.toNat
      ⟨flipData f data, o % 3, if o % 3 = 1 then some (o / 3 % 72) else none⟩

/-- The word at a physical block. A block never written since the last reset decodes as it pleases (10 R230). -/
def findWord (s : State) (blk : Nat) : Found :=
  if (tabGet? (64 * blk) s.mem.stack).isSome then
    decodeWord (getBytes (Config.unwrittenByte 2 s.era) (64 * blk) 64 s.mem.stack) (s.mem.poisonStack.contains blk)
      (tabGetD 0 blk s.mem.flips)
  else
    let o := Config.unwrittenOutcome s.era blk
    ⟨getBytes (Config.unwrittenByte 2 s.era) (64 * blk) 64 s.mem.stack, o % 4, if o % 4 = 1 then some (o / 4 % 72) else none⟩

/-- The row of a block is opened in its bank, which holds one open row at most (04 R74). -/
def openRow (blk : Nat) (s : State) : State :=
  modStk (stackOfBlk blk) (fun y => { y with openRows := tabPut (blkBank blk) (blkRow blk) y.openRows }) s

/-- A correction is counted: SC_CE_TOTAL, SC_CE_LAST and the bucket of 10 R233. -/
def countCe (blk sym : Nat) (s : State) : State :=
  let k := stackOfBlk blk
  let x := getStk s k
  let lvl := if x.ceLevel = 0xFFFF then x.ceLevel else x.ceLevel + 1
  let fires := x.ceLevel = x.ceThreshold ∧ lvl ≠ x.ceLevel ∧ x.ceFired = false ∧ x.ceThreshold ≠ 0xFFFF
  let s1 := modStk k (fun y => { y with ceTotal := y.ceTotal + 1, ceLast := some (blk % 2 ^ 31, sym), ceLevel := lvl,
                                        ceFired := y.ceFired || decide fires,
                                        writeBacks := setIns blk y.writeBacks }) s
  whenS (decide fires) (fun t => setCause 0 1 (henuaEvent 0x03 1 [k, blk % 2 ^ 31 * 64, sym, lvl.toNat] t)) s1

/-- An uncorrectable word is counted and reported (10 R234). `repaired`: the mark of 11 R278. -/
def countUe (blk : Nat) (repaired : Bool) (s : State) : State :=
  let k := stackOfBlk blk
  let x := getStk s k
  let quiet := match x.ueLastEvent with
    | none => true
    | some t => decide (t + 10000 * aclkPerUs ≤ now s)
  let s1 := modStk k (fun y => { y with ueTotal := y.ueTotal + 1,
                                        ueFirst := some (y.ueFirst.getD (blk % 2 ^ 31)),
                                        ueMore := y.ueMore || y.ueFirst.isSome,
                                        uePending := if repaired then y.uePending else setIns blk y.uePending,
                                        ueLastEvent := if quiet then some (now s) else y.ueLastEvent,
                                        ueSuppressed := if quiet then y.ueSuppressed else y.ueSuppressed + 1 }) s
  whenS quiet (henuaEvent 0x03 1 [k, blk % 2 ^ 31 * 64, b2n repaired]) s1

def countPoison (blk : Nat) (s : State) : State :=
  modStk (stackOfBlk blk) (fun y => { y with poisonReads := y.poisonReads + 1 }) s

/-- A whole word is written: encoded afresh, so no symbol errors, poisoned or not; pending write-backs of
older contents are cancelled (10 R232, R234); an armed flip mask applies to a word of tenant 0 (10 R239). -/
def storeBlk (blk : Nat) (data : List Byte) (poison : Bool) (source : Nat) (s : State) : State :=
  let k := stackOfBlk blk
  let x := getStk s k
  let mine := match modOfBlk s blk with
    | some off => ((allocAt s 2 0 off).map fun e => e.2.tenant == 0).getD false
    | none => false
  let hit := x.flipArmed && mine
  let m := s.mem
  let flips := if hit then tabPut blk x.flipMask m.flips else tabDel blk m.flips
  let s1 := { s with mem := { m with stack := putBytes (64 * blk) (sliceB data 0 64) m.stack,
                                     poisonStack := if poison then setIns blk m.poisonStack else setDel blk m.poisonStack,
                                     flips := flips } }
  modStk k (fun y => { y with writeBacks := setDel blk y.writeBacks, uePending := setDel blk y.uePending,
                              flipArmed := y.flipArmed && !hit, flipFired := y.flipFired || hit,
                              flipAddr := if hit then blk % 2 ^ 31 else y.flipAddr,
                              flipSource := if hit then source else y.flipSource }) (openRow blk s1)

/-! ### The merge buffer's entries (10 R227) -/

def mergeFind (s : State) (blk : Nat) : Option MergeEntry := (getStk s (stackOfBlk blk)).merge.find? fun e => e.blk == blk

def mergeDrop (blk : Nat) (s : State) : State :=
  modStk (stackOfBlk blk) (fun y => { y with merge := y.merge.filter fun e => e.blk != blk }) s

/-- The bytes of a block as every reader gets them: those of its entry over the stored ones. -/
def mergeOver (s : State) (blk : Nat) (data : List Byte) : List Byte :=
  match mergeFind s blk with
  | some e => mergeBytes e.mask.toNat e.data data
  | none => data

/-! ### Shared weights (11 R278, R279) -/

/-- The 64 KiB page of a module offset becomes poisoned: admission step 9 refuses it from then on, one
Henua event and one stack-error interrupt (11 R279). -/
def poisonSharedPage (off : Nat) (s : State) : State :=
  if (tabGet? (off / 65536) s.sharedPoison).isSome then s
  else
    setCause 0 1 (henuaEvent 0x03 2 [off / 65536 * 65536, 1]
      { s with sharedPoison := tabPut (off / 65536) [] s.sharedPoison })

/-- The block that mirrors a SHARED_RO primary's or a replica's block, and the primary's module offset. -/
def mirrorOf (s : State) (off : Nat) : Option (Option Nat × Nat) :=
  match allocAt s 2 0 off with
  | none => none
  | some (h, a) =>
    match a.replicaOf with
    | some p =>
      match tabGet? p s.allocs with
      | some pa => if pa.sharedRo then some (physBlk s (pa.base + (off - a.base)), pa.base + (off - a.base)) else none
      | none => none
    | none =>
      if a.sharedRo then
        some ((s.allocs.find? fun e => e.2.replicaOf == some h).bind (fun e => physBlk s (e.2.base + (off - a.base))), off)
      else none

/-- What a reader of one block receives. -/
structure Rd where
  data : List Byte
  poison : Bool
  recomputed : Bool
  shared : Bool
  fault : Bool
  deriving DecidableEq, Repr

def Rd.poisoned : Rd := ⟨rep 64 0xFF, true, false, false, false⟩

/-- A word is found uncorrectable by a reader (10 R234; 11 R278, R279). The mirror is read with what its merge entry
holds. -/
def foundUe (blk : Nat) (data : List Byte) (s : State) : Rd × State :=
  match (modOfBlk s blk).bind (mirrorOf s) with
  | none => (Rd.poisoned, countUe blk false s)
  | some (none, prim) => (⟨rep 64 0xFF, true, false, true, false⟩, poisonSharedPage prim (countUe blk false s))
  | some (some mb, prim) =>
    let w := findWord s mb
    if w.kind ≤ 1 ∧ stackUsable s (stackOfBlk mb) then
      let s1 := match w.sym with
        | some y => countCe mb y s
        | none => s
      let good := mergeOver s mb w.data
      (⟨good, false, true, false, false⟩, storeBlk blk good false 4 (countUe blk true (openRow mb s1)))
    else
      let isPrimary := (modOfBlk s blk) == some prim
      let s1 := if w.kind = 2 then countUe mb false s else s
      (⟨data, true, false, isPrimary, false⟩, poisonSharedPage prim (countUe blk false s1))

/-- Decode one word for a reader, with the effects of 10 R226. -/
def decodeBlk (blk : Nat) (s0 : State) : Rd × State :=
  let w := findWord s0 blk
  let s := openRow blk s0
  match w.kind with
  | 0 => (⟨w.data, false, false, false, false⟩, s)
  | 1 => (⟨w.data, false, false, false, false⟩, countCe blk (w.sym.getD 0) s)
  | 3 => (Rd.poisoned, match w.sym with
            | some y => countCe blk y (countPoison blk s)
            | none => countPoison blk s)
  | _ => foundUe blk w.data s

/-! ### The merge buffer (10 R227 to R229) -/

/-- Read, modify and write one block (04 R99; 10 R228): the new bytes over the data decoded, repaired where they were
repaired; over an uncorrectable or poisoned word the block is poisoned, the old bytes as read (10 R229). -/
def modifyBlk (blk : Nat) (data : List Byte) (mask : Nat) (poison : Bool) (source : Nat) (s : State) : State :=
  let r := decodeBlk blk s
  storeBlk blk (mergeBytes mask data (if r.1.poison then (findWord s blk).data else r.1.data)) (poison || r.1.poison) source r.2

/-- Flush one entry (10 R228): a full one is written without a read, as its last writer's; otherwise a hidden
read-modify-write, which keeps a bad block poisoned (10 R229). -/
def flushEntry (e : MergeEntry) (s : State) : State :=
  let s1 := mergeDrop e.blk s
  if e.mask.toNat = fullMask then storeBlk e.blk e.data false e.source s1
  else modifyBlk e.blk e.data e.mask.toNat false 2 (modStk (stackOfBlk e.blk) (fun y => { y with mergeRmw := y.mergeRmw + 1 }) s1)

def flushBlk (blk : Nat) (s : State) : State :=
  match mergeFind s blk with
  | some e => flushEntry e s
  | none => s

/-- A newer write to a block has arrived: what waits to be written back of it is not (10 R232, R234). -/
def cancelBacks (blk : Nat) (s : State) : State :=
  modStk (stackOfBlk blk) (fun y => { y with writeBacks := setDel blk y.writeBacks, uePending := setDel blk y.uePending }) s

/-- A partial write merges into the block's entry, creating one; a full buffer flushes its oldest first. -/
def mergeWrite (blk : Nat) (data : List Byte) (mask source : Nat) (s0 : State) : State :=
  let k := stackOfBlk blk
  let s := cancelBacks blk s0
  match mergeFind s blk with
  | some e =>
    let m := e.mask.toNat ||| mask
    let e' : MergeEntry := ⟨blk, mergeBytes mask data e.data, BitVec.ofNat 64 m, source⟩
    if m = fullMask then flushEntry e' s
    else modStk k (fun y => { y with merge := y.merge.map fun z => if z.blk == blk then e' else z }) s
  | none =>
    let s1 := match (getStk s k).merge with
      | e :: t => if t.length + 1 ≥ 64 then
          flushEntry e (modStk k (fun y => { y with mergeFull := y.mergeFull + 1 }) s) else s
      | [] => s
    modStk k (fun y => { y with merge := y.merge ++ [⟨blk, mergeBytes mask data (rep 64 0), BitVec.ofNat 64 mask, source⟩] }) s1

/-! ### Blocks of any space -/

/-- Read one aligned block of stack memory by physical number; a lost stack gives poison (10 R224). -/
def readStack (blk : Nat) (s : State) : Rd × State :=
  if stackUsable s (stackOfBlk blk) then decodeBlk blk (flushBlk blk s) else (Rd.poisoned, s)

/-- Write one block of stack memory: whole blocks bypass the merge buffer and discard its entry (10
R227); a furrow unit reads, modifies and re-encodes within its slice (04 R99); others merge. A poisoned
part poisons the block (10 R235). Sources: 0 host, 1 sluice, tile or peer, 3 furrow unit. -/
def writeStack (blk : Nat) (data : List Byte) (mask : Nat) (poison : Bool) (source : Nat) (s : State) : State :=
  if !stackUsable s (stackOfBlk blk) then s
  else if mask = fullMask then storeBlk blk data poison source (mergeDrop blk s)
  else if mask = 0 then s
  else if source = 3 ∨ poison then modifyBlk blk data mask poison source (flushBlk blk s)
  else mergeWrite blk data mask source s

/-- Read one block for a furrow unit, which writes a corrected word back within its slice (10 R232). -/
def furrowRead (blk : Nat) (s : State) : Rd × State :=
  let w := findWord (flushBlk blk s) blk
  let r := readStack blk s
  (r.1, if (getStk r.2 (stackOfBlk blk)).writeBacks.contains blk then storeBlk blk w.data (w.kind == 3) 4 r.2 else r.2)

/-- The zero-filled memory and poison list of spaces 3 to 5. -/
def zMem (s : State) (space : Nat) : Mem × List Nat :=
  match space with
  | 3 => (s.mem.basin, s.mem.poisonBasin)
  | 4 => (s.mem.scratch, s.mem.poisonScratch)
  | _ => (s.mem.sdata, s.mem.poisonSdata)

def setZ (space : Nat) (m : Mem) (p : List Nat) (s : State) : State :=
  match space with
  | 3 => { s with mem := { s.mem with basin := m, poisonBasin := p } }
  | 4 => { s with mem := { s.mem with scratch := m, poisonScratch := p } }
  | _ => { s with mem := { s.mem with sdata := m, poisonSdata := p } }

/-- One byte as it stands in its home, for spaces 3 to 5. -/
def zByte (s : State) (space inst off : Nat) : Byte := tabGetD 0 (zKey inst off) (zMem s space).1

/-- The expander that holds a far offset, and the place in it (10 R244): bit [12] or bits [13:12] choose among two or
four that are interleaved; otherwise they follow one another in link order. -/
def farHome (f : Far) (off : Nat) : Nat × Nat :=
  if f.layout = 2 then
    let n := f.expanders.length
    (off / 4096 % n, off / (4096 * n) * 4096 + off % 4096)
  else
    f.expanders.zipIdx.foldl (fun (r : Nat × Nat) e => if r.1 = e.2 ∧ e.1 ≤ r.2 then (e.2 + 1, r.2 - e.1) else r) (0, off)

/-- Read one aligned 64-byte block at `off` of a space and instance, for a source of 10 R240. An expander may return
far memory with the poison indication (10 R245, R247). -/
def readBlk (source space inst off : Nat) (s : State) : Rd × State :=
  match space with
  | 0 => (⟨hostRead s off 64, false, false, false, false⟩, s)
  | 1 =>
    if !s.cap.cxl then (⟨rep 64 0xFF, true, false, false, true⟩, s)
    else if s.mem.poisonFar.contains (off / 64) || Config.expanderPoison s.freeCtr (farHome s.far off).1 ((farHome s.far off).2 / 64) then
      (Rd.poisoned, { s with far := { s.far with poisonReads := s.far.poisonReads + 1 }, freeCtr := s.freeCtr + 1 })
    else (⟨getBytes (Config.unwrittenByte 1 s.era) off 64 s.mem.far, false, false, false, false⟩, { s with freeCtr := s.freeCtr + 1 })
  | 2 =>
    match physBlk s off with
    | none => (Rd.poisoned, s)
    | some b =>
      let r := if source = 3 then furrowRead b s else readStack b s
      ({ r.1 with shared := r.1.shared || (tabGet? (off / 65536) s.sharedPoison).isSome }, r.2)
  | _ =>
    let z := zMem s space
    (⟨getBytes (fun _ => 0) (zKey inst off) 64 z.1, z.2.contains (zKey inst off / 64), false, false, false⟩, s)

/-- Whether a write to this block cannot land (10 R224, R245). -/
def unreachable (s : State) (space off : Nat) : Bool :=
  match space with
  | 1 => !s.cap.cxl
  | 2 => match physBlk s off with
    | some b => !stackUsable s (stackOfBlk b)
    | none => true
  | _ => false

/-- Poison after a write of 3 to 5 or far: a whole write replaces it, a partial one keeps it (10 R236). -/
def poisonAfter (blk mask : Nat) (poison : Bool) (l : List Nat) : List Nat :=
  if poison then setIns blk l else if mask = fullMask then setDel blk l else l

/-- Bytes of the far tier, and its poison list. -/
def farWrite (off : Nat) (bs : List Byte) (p : List Nat) (s : State) : State :=
  { s with mem := { s.mem with far := putBytes off bs s.mem.far, poisonFar := p } }

/-- Every byte of the far tier is as never written. -/
def clearFar (s : State) : State := { s with mem := { s.mem with far := [], poisonFar := [] } }

/-- Spaces 3 to 5 and the instruction memories are zero (05 R451), with these blocks poisoned. -/
def clearTileMem (pb ps pd : List Nat) (s : State) : State :=
  { s with tiles := tabMap (fun _ x => { x with imem := none }) s.tiles,
           mem := { s.mem with basin := [], scratch := [], sdata := [], poisonBasin := pb, poisonScratch := ps, poisonSdata := pd } }

/-- First byte of a mask, and the bytes from it to the last. -/
def maskLo (mask : Nat) : Nat := ((List.range 64).find? mask.testBit).getD 0
def maskLen (mask : Nat) : Nat := ((List.range 64).filter mask.testBit).foldl (fun _ i => i + 1 - maskLo mask) 0

/-- One request to the host for the bytes of a block: it is never split (05 R111); poisoned data goes as 0xFF with the
EP bit (10 R235). -/
def hostBlk (fn off : Nat) (data : List Byte) (mask : Nat) (poison : Bool) (s : State) : State :=
  let new := mergeBytes mask (if poison then rep 64 0xFF else data) (hostRead s off 64)
  let s1 := hostWrite fn (off + maskLo mask) (sliceB new (maskLo mask) (maskLen mask)) s
  if poison then emit (.epWrite fn (off + maskLo mask) (maskLen mask)) s1 else s1

/-- Write one aligned 64-byte block (masked), for function `fn`. -/
def writeBlk (fn space inst off : Nat) (data : List Byte) (mask : Nat) (poison : Bool) (source : Nat) (s : State) : State :=
  match space with
  | 0 => hostBlk fn off data mask poison s
  | 1 =>
    if !s.cap.cxl then s
    else
      let old := getBytes (Config.unwrittenByte 1 s.era) off 64 s.mem.far
      farWrite off (mergeBytes mask data old) (poisonAfter (off / 64) mask poison s.mem.poisonFar) s
  | 2 =>
    match physBlk s off with
    | none => s
    | some b => writeStack b data mask poison source s
  | _ =>
    let z := zMem s space
    let k := zKey inst off
    setZ space (putBytesZ k (mergeBytes mask data (getBytes (fun _ => 0) k 64 z.1)) z.1)
      (poisonAfter (k / 64) mask poison z.2) s

/-! ### A data operation in progress -/

/-- A 64-byte block of stack memory that a tenant may read, or write (12 R288; 11 R277). -/
def windowBlk (s : State) (t : Nat) (write : Bool) (off : Nat) : Bool :=
  decide (off < 2 ^ 40) && s.allocs.any fun e => e.2.space == 2 && decide (e.2.base ≤ off) && decide (off + 64 ≤ e.2.base + e.2.len) &&
    (e.2.tenant == t || (!write && e.2.tenant == 0 && e.2.sharedRo))

/-- A mover at work: the state, the outcomes met so far (08 R199), the blocks it has already decoded, its source
number (10 R240), the function it works for (05 R107), whether all it writes is marked poisoned (10 R235), the tenant
whose window its writes are held to as they are made, and whether it has ended (12 R289): then it writes nothing more. -/
structure Acc where
  s : State
  outs : List Nat
  cache : Tab (List Byte × Bool)
  source : Nat
  fn : Nat
  mark : Bool
  owner : Option Nat
  ended : Bool

def Acc.start (source : Nat) (s : State) : Acc := ⟨s, [], [], source, 0, false, none, false⟩
/-- A mover that works for function `fn`. -/
def Acc.on (fn source : Nat) (s : State) : Acc := ⟨s, [], [], source, fn, false, none, false⟩
/-- A mover whose writes are held to tenant `t`'s window (12 R289). -/
def Acc.held (t source : Nat) (s : State) : Acc := ⟨s, [], [], source, t, false, some t, false⟩

/-- 64 FREE bytes. -/
def freeBlock (s : State) : List Byte × State :=
  ((List.range 64).map fun i => Config.freeByte (s.freeCtr + i), { s with freeCtr := s.freeCtr + 64 })

/-- A furrow operation that has started and not signalled may write the block (04 R96). -/
def racing (s : State) (space off : Nat) : Bool :=
  space == 2 && s.fops.any fun e => !e.2.touched.isEmpty && e.2.writes.contains off

/-- Read one block for a source: bytes that such an operation writes are unpredictable to every other reader (04 R96;
log entry 6). -/
def readRaced (source space inst off : Nat) (s : State) : Rd × State :=
  let r := readBlk source space inst off s
  if source ≠ 3 ∧ racing s space off = true then let b := freeBlock r.2; ({ r.1 with data := b.1 }, b.2) else r

def addOut (st : Nat) (c : Bool) (a : Acc) : Acc :=
  if c && !a.outs.contains st then { a with outs := a.outs ++ [st] } else a

def cacheKey (space inst off : Nat) : Nat := space * 2 ^ 60 + inst * 2 ^ 50 + off / 64

/-- Read a block through the operation: each word is decoded once (10 R232). -/
def rdBlk (space inst off : Nat) (a : Acc) : (List Byte × Bool) × Acc :=
  match tabGet? (cacheKey space inst off) a.cache with
  | some x => (x, a)
  | none =>
    let r := readRaced a.source space inst off (if space = 0 then hostFetch a.fn off 64 a.s else a.s)
    let a1 : Acc := { a with s := r.2, cache := tabPut (cacheKey space inst off) (r.1.data, r.1.poison) a.cache }
    ((r.1.data, r.1.poison),
      addOut stDeviceFault r.1.fault (addOut stSharedPoisoned r.1.shared
        (addOut stDataPoisoned (r.1.poison && !r.1.shared) (addOut stRecomputed r.1.recomputed a1))))

/-- The block lies in a poisoned shared page (11 R279). -/
def markedBlk (s : State) (space off : Nat) : Bool := space == 2 && (tabGet? (off / 65536) s.sharedPoison).isSome

/-- A block is written, and its cached copy dropped. -/
def putBlk (space inst off : Nat) (data : List Byte) (mask : Nat) (poison : Bool) (a : Acc) : Acc :=
  addOut stDeviceFault (unreachable a.s space off)
    { a with s := writeBlk a.fn space inst off data mask (poison || a.mark) a.source a.s,
             cache := tabDel (cacheKey space inst off) a.cache }

/-- The operation ends here with a status; it writes nothing more. -/
def Acc.stop (st : Nat) (a : Acc) : Acc := { addOut st true a with ended := true }

/-- The block lies outside the window that the mover's writes are held to (12 R288). -/
def outside (a : Acc) (space off : Nat) : Bool := space == 2 && !((a.owner.map fun t => windowBlk a.s t true off).getD true)

/-- Write a block through the operation; a poisoned shared page is touched, and no command writes it (11 R279); a write
outside the window ends it (12 R289). A furrow unit modifies the word that its operation has decoded and encodes it afresh (04 R99). -/
def wrBlk (space inst off : Nat) (data : List Byte) (mask : Nat) (poison : Bool) (a : Acc) : Acc :=
  if a.ended then a
  else if outside a space off then a.stop stWindow
  else if markedBlk a.s space off then addOut stSharedPoisoned true a
  else if a.source = 3 ∧ space = 2 ∧ mask ≠ fullMask ∧ mask ≠ 0 then
    let r := rdBlk space inst off a
    putBlk space inst off (mergeBytes mask data r.1.1) fullMask (poison || r.1.2) { r.2 with outs := a.outs }
  else putBlk space inst off data mask poison a

/-- `len` bytes at `off`, with whether any block they lie in is poisoned; `fuel` bounds the blocks. -/
def rdBytesGo (space inst : Nat) : Nat → Nat → Nat → Acc → (List Byte × Bool) × Acc
  | 0, _, _, a => (([], false), a)
  | fuel + 1, off, len, a =>
    if len = 0 then (([], false), a)
    else
      let n := min len (64 - off % 64)
      let r := rdBlk space inst (off / 64 * 64) a
      let t := rdBytesGo space inst fuel (off + n) (len - n) r.2
      ((sliceB r.1.1 (off % 64) n ++ t.1.1, r.1.2 || t.1.2), t.2)

def rdBytes (space inst off len : Nat) (a : Acc) : (List Byte × Bool) × Acc :=
  rdBytesGo space inst (len / 64 + 2) off len a

/-- Write bytes at `off`, block by block. -/
def wrBytesGo (space inst : Nat) : Nat → Nat → List Byte → Bool → Acc → Acc
  | 0, _, _, _, a => a
  | fuel + 1, off, bs, p, a =>
    if bs.isEmpty then a
    else
      let n := min bs.length (64 - off % 64)
      let mask := (2 ^ n - 1) * 2 ^ (off % 64)
      let a1 := wrBlk space inst (off / 64 * 64) (rep (off % 64) 0 ++ bs.take n) mask p a
      wrBytesGo space inst fuel (off + n) (bs.drop n) p a1

def wrBytes (space inst off : Nat) (bs : List Byte) (poison : Bool) (a : Acc) : Acc :=
  wrBytesGo space inst (bs.length / 64 + 2) off bs poison a

/-- Copy `len` bytes between two places, block by block of the destination, poison travelling (10 R235). -/
def copyRunGo (sp si dp di : Nat) : Nat → Nat → Nat → Nat → Acc → Acc
  | 0, _, _, _, a => a
  | fuel + 1, src, dst, len, a =>
    if len = 0 then a
    else
      let n := min len (64 - dst % 64)
      let r := rdBytes sp si src n a
      copyRunGo sp si dp di fuel (src + n) (dst + n) (len - n) (wrBytes dp di dst r.1.1 r.1.2 r.2)

def copyRun (sp si src dp di dst len : Nat) (a : Acc) : Acc := copyRunGo sp si dp di (len / 64 + 2) src dst len a

/-- The canonical form of every memory (05 R105 laid out as in State.lean): rising keys, no listed zero in
the zero-filled spaces. -/
def Memories.wf (m : Memories) : Bool :=
  tabWf m.host && tabWf m.far && tabWf m.stack && tabWf m.aon && zWf m.basin && zWf m.scratch && zWf m.sdata

end Sys2Proof.Machine
end

