-- ==== Sys2Proof/Machine/Numerics.lean ====
section
/-! DEFINITION. The arithmetic of 02 and 03, on bit patterns: formats (03 R49), conversions (03 R50 to
R53), FP32 operations rounded to nearest-even, the fixed-order dot sum (02 R29, R30), the channel unit's
primitives (02 R40, R41) and reductions (02 R42). Finite values are exact dyadic numbers until the one
rounding the spec names. -/

namespace Sys2Proof.Machine

/-- A float value: NaN, infinity or `(-1)^neg * m * 2^e`. -/
inductive Fl
  | nan
  | inf (neg : Bool)
  | fin (neg : Bool) (m : Nat) (e : Int)
  deriving DecidableEq, Repr

/-- `m / 2^sh` rounded to nearest, ties to even (03 R50). -/
def rneShift (m sh : Nat) : Nat :=
  let q := m / 2 ^ sh
  let r := m % 2 ^ sh
  if 2 * r > 2 ^ sh ∨ (2 * r = 2 ^ sh ∧ q % 2 = 1) then q + 1 else q

/-- `m * 2^e` rounded to nearest-even with `mb` fraction bits and least exponent `emin`, as exponent and
fraction bits; the exponent is not yet bounded. -/
def roundMag (mb : Nat) (emin : Int) (m : Nat) (e : Int) : Nat :=
  if m = 0 then 0
  else
    let q := max ((Nat.log2 m : Int) + e - mb) emin
    let mant := if q ≤ e then m * 2 ^ (e - q).toNat else rneShift m (q - e).toNat
    (q - emin).toNat * 2 ^ mb + mant

/-- Decode an IEEE-shaped pattern with `eb` exponent and `mb` fraction bits. -/
def decIeee (eb mb : Nat) (w : Nat) : Fl :=
  let neg := w.testBit (eb + mb)
  let ex := w / 2 ^ mb % 2 ^ eb
  let fr := w % 2 ^ mb
  let emin : Int := 2 - 2 ^ (eb - 1) - mb
  if ex = 2 ^ eb - 1 then (if fr = 0 then .inf neg else .nan)
  else if ex = 0 then .fin neg fr emin
  else .fin neg (2 ^ mb + fr) (emin + ex - 1)

def dec32 (w : Nat) : Fl := decIeee 8 23 w
def decB16 (w : Nat) : Fl := decIeee 8 7 w
def decE5M2 (w : Nat) : Fl := decIeee 5 2 w
/-- E4M3 has no infinity; only S.1111.111 is NaN (03 R49). -/
def decE4M3 (w : Nat) : Fl :=
  let ex := w / 8 % 16
  let fr := w % 8
  if ex = 15 ∧ fr = 7 then .nan
  else if ex = 0 then .fin (w.testBit 7) fr (-9)
  else .fin (w.testBit 7) (8 + fr) ((ex : Int) - 10)

/-- Two's complement of a `bits`-wide pattern. -/
def signedOf (bits w : Nat) : Int := if w.testBit (bits - 1) then (w % 2 ^ bits : Nat) - (2 ^ bits : Nat) else (w % 2 ^ bits : Nat)
/-- The `bits`-wide pattern of an integer, modulo `2^bits`. -/
def patOf (bits : Nat) (i : Int) : Nat := (i % (2 ^ bits : Nat)).toNat

def flOfInt (i : Int) : Fl := .fin (decide (i < 0)) i.natAbs 0

/-- The canonical NaN (02 R30). -/
def nan32 : Nat := 0x7FC00000

/-- Round to FP32; overflow gives the infinity of that sign (02 R30). -/
def enc32 : Fl → Nat
  | .nan => nan32
  | .inf neg => b2n neg * 2 ^ 31 + 0x7F800000
  | .fin neg m e => b2n neg * 2 ^ 31 + min (roundMag 23 (-149) m e) 0x7F800000

/-- Round to BF16 (03 R51: overflow gives infinity; R52: NaN gives 0x7FC0). -/
def encB16 : Fl → Nat
  | .nan => 0x7FC0
  | .inf neg => b2n neg * 2 ^ 15 + 0x7F80
  | .fin neg m e => b2n neg * 2 ^ 15 + min (roundMag 7 (-133) m e) 0x7F80

/-- Result of a narrow conversion: the code and whether it clipped, flushed or was NaN (03 R51 to R53). -/
structure Conv where
  code : Nat
  clipped : Bool
  flushed : Bool
  nonfinite : Bool
  deriving DecidableEq, Repr

/-- Convert to an 8-bit float of `mb` fraction bits with greatest code `top` and NaN code `nanc`. -/
def convF8 (mb : Nat) (emin : Int) (top nanc : Nat) : Fl → Conv
  | .nan => ⟨nanc, false, false, true⟩
  | .inf neg => ⟨b2n neg * 128 + top, true, false, true⟩
  | .fin neg m e =>
    let r := roundMag mb emin m e
    if r > top then ⟨b2n neg * 128 + top, true, false, false⟩
    else ⟨b2n neg * 128 + r, false, decide (r = 0 ∧ m ≠ 0), false⟩

/-- Convert to a symmetric integer of `bits` bits with magnitude bound `top` (03 R51, R52). -/
def convInt (bits top : Nat) : Fl → Conv
  | .nan => ⟨2 ^ (bits - 1), false, false, true⟩
  | .inf neg => ⟨patOf bits (if neg then -(top : Int) else top), true, false, true⟩
  | .fin neg m e =>
    let r := if 0 ≤ e then m * 2 ^ e.toNat else rneShift m (-e).toNat
    if r > top then ⟨patOf bits (if neg then -(top : Int) else top), true, false, false⟩
    else ⟨patOf bits (if neg then -(r : Int) else r), false, decide (r = 0 ∧ m ≠ 0), false⟩

def isFin : Fl → Bool
  | .fin _ _ _ => true
  | _ => false

def isZeroX : Fl → Bool
  | .fin _ m _ => m == 0
  | _ => false

/-- Conversion from a value to format code `fmt` (06 R127), without scaling. -/
def convTo (fmt : Nat) (x : Fl) : Conv :=
  match fmt with
  | 0x1 => convInt 8 127 x
  | 0x2 => convF8 3 (-9) 0x7E 0x7F x
  | 0x3 => convF8 2 (-16) 0x7B 0x7E x
  | 0x4 => ⟨encB16 x, false, isFin x && !isZeroX x && encB16 x % 2 ^ 15 == 0, !isFin x⟩
  | 0x6 => convInt 32 (2 ^ 31 - 1) x
  | 0x8 => convInt 4 7 x
  | _ => ⟨enc32 x, false, false, false⟩

/-- The value of a pattern of format `fmt` (06 R127), widened exactly. -/
def decFmt (fmt : Nat) (w : Nat) : Fl :=
  match fmt with
  | 0x1 => flOfInt (signedOf 8 w)
  | 0x2 => decE4M3 w
  | 0x3 => decE5M2 w
  | 0x4 => decB16 w
  | 0x5 => dec32 w
  | 0x6 => flOfInt (signedOf 32 w)
  | 0x7 => flOfInt (signedOf 64 w)
  | 0x8 => flOfInt (signedOf 4 w)
  | _ => .fin false w 0

/-! ### FP32 arithmetic -/

/-- Exact sum. An exact zero from unlike signs is +0. -/
def addX : Fl → Fl → Fl
  | .nan, _ => .nan
  | _, .nan => .nan
  | .inf a, .inf b => if a = b then .inf a else .nan
  | .inf a, _ => .inf a
  | _, .inf b => .inf b
  | .fin n1 m1 e1, .fin n2 m2 e2 =>
    let e := min e1 e2
    let a : Int := (m1 * 2 ^ (e1 - e).toNat : Nat)
    let b : Int := (m2 * 2 ^ (e2 - e).toNat : Nat)
    let t := (if n1 then -a else a) + (if n2 then -b else b)
    if t = 0 then .fin (n1 && n2) 0 e else .fin (decide (t < 0)) t.natAbs e

def negX : Fl → Fl
  | .nan => .nan
  | .inf a => .inf (!a)
  | .fin n m e => .fin (!n) m e

def absX : Fl → Fl
  | .nan => .nan
  | .inf _ => .inf false
  | .fin _ m e => .fin false m e

/-- Exact product; 0 times infinity is NaN (02 R30). -/
def mulX : Fl → Fl → Fl
  | .nan, _ => .nan
  | _, .nan => .nan
  | .inf a, .inf b => .inf (a != b)
  | .inf a, .fin b m _ => if m = 0 then .nan else .inf (a != b)
  | .fin a m _, .inf b => if m = 0 then .nan else .inf (a != b)
  | .fin n1 m1 e1, .fin n2 m2 e2 => .fin (n1 != n2) (m1 * m2) (e1 + e2)

def isNan : Fl → Bool
  | .nan => true
  | _ => false

/-- `a < b` on numbers, zeros equal; false when either is NaN. -/
def ltX : Fl → Fl → Bool
  | .nan, _ => false
  | _, .nan => false
  | .inf a, .inf b => a && !b
  | .inf a, _ => a
  | _, .inf b => !b
  | .fin n1 m1 e1, .fin n2 m2 e2 =>
    let e := min e1 e2
    let a : Int := (m1 * 2 ^ (e1 - e).toNat : Nat)
    let b : Int := (m2 * 2 ^ (e2 - e).toNat : Nat)
    decide ((if n1 then -a else a) < (if n2 then -b else b))

def eqX (a b : Fl) : Bool := !isNan a && !isNan b && !ltX a b && !ltX b a
def leX (a b : Fl) : Bool := ltX a b || eqX a b

def signX : Fl → Bool
  | .nan => false
  | .inf n => n
  | .fin n _ _ => n

/-- Minimum: a number wins over a NaN, −0 counts below +0 (04 R87; 02 R42). The elementwise minimum and maximum of
02 R41, and so ReLU, use the same rule; there the spec states none for a NaN (DESIGN CHOICE, log entry 7). -/
def minX (a b : Fl) : Fl :=
  if isNan a then b else if isNan b then a
  else if ltX a b then a else if ltX b a then b else if signX a then a else b

def maxX (a b : Fl) : Fl :=
  if isNan a then b else if isNan b then a
  else if ltX b a then a else if ltX a b then b else if signX a then b else a

/-- Round to FP32 and read back: one rounding step. -/
def rne32 (x : Fl) : Fl := dec32 (enc32 x)

def fadd (a b : Nat) : Nat := enc32 (addX (dec32 a) (dec32 b))
def fmul (a b : Nat) : Nat := enc32 (mulX (dec32 a) (dec32 b))
def fneg (a : Nat) : Nat := enc32 (negX (dec32 a))
def fsub (a b : Nat) : Nat := enc32 (addX (dec32 a) (negX (dec32 b)))
/-- `RNE(a * b + c)`: one rounding. -/
def ffma (a b c : Nat) : Nat := enc32 (addX (mulX (dec32 a) (dec32 b)) (dec32 c))
def fmin (a b : Nat) : Nat := enc32 (minX (dec32 a) (dec32 b))
def fmax (a b : Nat) : Nat := enc32 (maxX (dec32 a) (dec32 b))

/-- Exact sum of a list, in order. -/
def sumX : List Fl → Fl
  | [] => .fin false 0 0
  | x :: t => t.foldl addX x

/-- Consecutive groups of 16; `fuel` bounds their number. -/
def groups16 {α : Type} : Nat → List α → List (List α)
  | 0, _ => []
  | n + 1, l => if l.isEmpty then [] else l.take 16 :: groups16 n (l.drop 16)

/-- The fixed-order sum of 02 R29: groups of 16 added exactly and rounded once, groups then added in
ascending order, each addition rounded. The value is an FP32 pattern. -/
def groupSum (l : List Fl) : Nat :=
  match (groups16 l.length l).map (fun g => enc32 (sumX g)) with
  | [] => 0
  | x :: t => t.foldl fadd x

/-- Dot product in the order of 02 R29 (04 R81). -/
def dotF (a b : List Fl) : Nat := groupSum (List.zipWith mulX a b)

/-- Exact integer dot product (02 R28). -/
def dotI (a b : List Int) : Int := (List.zipWith (· * ·) a b).sum

/-! ### Primitives of the channel unit (02 R40) -/

/-- `floor (sqrt n)`, bit by bit from bit `k - 1` down. -/
def isqrtGo (n : Nat) : Nat → Nat → Nat
  | 0, r => r
  | k + 1, r => isqrtGo n k (if (r + 2 ^ k) * (r + 2 ^ k) ≤ n then r + 2 ^ k else r)

def isqrt (n : Nat) : Nat := isqrtGo n (Nat.log2 n / 2 + 1) 0

/-- Round `m * 2^e` to FP32 towards zero, and the next pattern up where it is inexact. -/
def floor32 (m : Nat) (e : Int) : Nat :=
  let q := max ((Nat.log2 m : Int) + e - 23) (-149)
  let mant := if q ≤ e then m * 2 ^ (e - q).toNat else m / 2 ^ (q - e).toNat
  (q + 149).toNat * 2 ^ 23 + mant

/-- recip (02 R40; 03 R57): exact on powers of two, otherwise one of the two FP32 neighbours of the true
quotient, both within 1 ulp; which one is a free value (log entry 7). -/
def frecip (x : Nat) : Nat :=
  match dec32 x with
  | .nan => nan32
  | .inf n => b2n n * 2 ^ 31
  | .fin n m e =>
    let sgn := b2n n * 2 ^ 31
    let E : Int := (Nat.log2 m : Int) + e
    if m = 0 ∨ E < -126 then sgn + 0x7F800000
    else if E > 126 ∨ (E = 126 ∧ m ≠ 2 ^ Nat.log2 m) then sgn
    else if m = 2 ^ Nat.log2 m then sgn + roundMag 23 (-149) 1 (-E)
    else sgn + floor32 (2 ^ 80 / m) (-80 - e) + b2n (Config.recipPick (BitVec.ofNat 32 x))

/-- rsqrt (02 R40): within 2 ulp of the true value, an ulp being that of the binade of the value rounded down; which
pattern is a free value. A NaN gives the canonical NaN, an input the table does not list (both DESIGN CHOICE, log
entry 7). -/
def frsqrt (x : Nat) : Nat :=
  match dec32 x with
  | .nan => nan32
  | .inf n => if n then nan32 else 0
  | .fin n m e =>
    if m = 0 then b2n n * 2 ^ 31 + 0x7F800000
    else if n then nan32
    else
      let m2 := if e % 2 = 0 then m else 2 * m
      let e2 := if e % 2 = 0 then e else e - 1
      floor32 (isqrt (2 ^ 160 / m2)) (-80 - e2 / 2) + Config.rsqrtPick (BitVec.ofNat 32 x) % 4 - 1

/-- `2^f * ln 2` for `f` = 140, from the decimal expansion of ln 2. -/
def ln2Fix : Nat := 2 ^ 140 * 693147180559945309417232121458176568075500134360255254120680009493393621969694 / 10 ^ 78

/-- Taylor sum of exp at the fixed-point number `r / 2^140`, `n` terms from term index `i`. -/
def expSeries (r : Nat) : Nat → Nat → Nat → Nat
  | 0, _, _ => 0
  | n + 1, i, t => t + expSeries r n (i + 1) (t * r / 2 ^ 140 / (i + 1))

/-- exp (02 R40): within 2 ulp of the true value as for rsqrt, +0 below −87.33 and infinity above 88.72; which pattern
is a free value (log entry 7). -/
def fexp (x : Nat) : Nat :=
  match dec32 x with
  | .nan => nan32
  | .inf n => if n then 0 else 0x7F800000
  | .fin n m e =>
    let fx := if 0 ≤ e + 140 then m * 2 ^ (e + 140).toNat else m / 2 ^ (-(e + 140)).toNat
    if n ∧ fx * 100 > 8733 * 2 ^ 140 then 0
    else if !n ∧ fx * 100 > 8872 * 2 ^ 140 then 0x7F800000
    else if m = 0 then 0x3F800000
    else
      let v : Int := if n then -(fx : Int) else fx
      let k := v / (ln2Fix : Int)
      let r := (v - k * ln2Fix).toNat
      let f := floor32 (expSeries r 48 0 (2 ^ 140)) (k - 140)
      let y := f + Config.expPick (BitVec.ofNat 32 x) % 4 - 1
      if y < 2 ^ 23 then 0 else y

def one32 : Nat := 0x3F800000

/-- The compositions of 02 R41, each step rounded to FP32. -/
def fsigmoid (x : Nat) : Nat := frecip (fadd one32 (fexp (fneg x)))
def fsilu (x : Nat) : Nat := fmul x (fsigmoid x)
def ftanh (x : Nat) : Nat := fsub (fmul 0x40000000 (fsigmoid (fmul 0x40000000 x))) one32
/-- The decimal constants rounded to FP32: 0.797 884 6 and 0.044 715. -/
def fgelu (x : Nat) : Nat :=
  let x3 := fmul (fmul x x) x
  fmul (fmul 0x3F000000 x) (fadd one32 (ftanh (fmul 0x3F4C422A (fadd x (fmul 0x3D372713 x3)))))
def frelu (x : Nat) : Nat := fmax x 0
def fdiv (a b : Nat) : Nat := fmul a (frecip b)

/-- FP32 of `1 / n`, rounded once. -/
def oneOver (n : Nat) : Nat := if n = 0 then 0x7F800000 else
  let s := 64 + Nat.log2 n
  let q := 2 ^ s / n
  enc32 (.fin false (2 * q + b2n (decide (2 ^ s % n ≠ 0))) (-(s : Int) - 1))

/-! ### Reductions (02 R42) -/

/-- Fold a vector lane by lane in chunks of 512: lane `i` takes elements `i`, `i + 512`, … -/
def foldLanes {α : Type} (f : α → α → α) : Nat → List α → List α
  | 0, l => l
  | n + 1, l => if l.length ≤ 512 then l else
    let a := l.take 512
    let b := (l.drop 512).take 512
    foldLanes f n ((List.zipWith f a b ++ a.drop b.length) ++ l.drop 1024)

/-- The pairwise tree: lane `i` with lane `i + h`, for `h` = `2^k / 2` down to 1. -/
def tree {α : Type} (f : α → α → α) : Nat → List α → List α
  | 0, l => l
  | k + 1, l =>
    let h := 2 ^ k
    let a := l.take h
    let b := l.drop h
    tree f k (List.zipWith f a b ++ a.drop b.length)

/-- A reduction in the fixed order of 02 R42; lanes the vector does not fill take no part. -/
def reduceBy {α : Type} (f : α → α → α) (l : List α) : Option α := (tree f 9 (foldLanes f l.length l)).head?

/-- The sum; a NaN gives the canonical NaN, in a vector of one element too. -/
def sumF (l : List Nat) : Nat :=
  let r := (reduceBy fadd l).getD 0
  if isNan (dec32 r) then nan32 else r

def maxF (l : List Nat) : Nat := enc32 (((reduceBy maxX (l.map dec32)).getD .nan))
def minF (l : List Nat) : Nat := enc32 (((reduceBy minX (l.map dec32)).getD .nan))
def absMaxF (l : List Nat) : Nat := enc32 (((reduceBy maxX ((l.map dec32).map absX)).getD .nan))

/-- Index of the first element equal to `x` in the order of +0 above −0. -/
def indexOfX (x : Fl) : List Fl → Nat → Nat
  | [], _ => 0
  | y :: t, i => if eqX x y && signX x == signX y then i else indexOfX x t (i + 1)

def argMaxF (l : List Nat) : Nat :=
  match (reduceBy maxX (l.map dec32)).getD .nan with
  | .nan => 0
  | x => indexOfX x (l.map dec32) 0

def anyNonzeroF (l : List Nat) : Nat := b2n (l.any fun w => !isZeroX (dec32 w))

/-! ### Softmax and normalisations (02 R43, R44) -/

/-- Softmax of a row of FP32 patterns (02 R43). -/
def softmaxF (x : List Nat) : List Nat :=
  let m := maxF x
  if dec32 m = .inf true then x.map fun _ => 0
  else if x.any fun w => isNan (dec32 w) || dec32 w == .inf false then x.map fun _ => nan32
  else
    let e := x.map fun w => fexp (fsub w m)
    let r := frecip (sumF e)
    e.map fun w => fmul w r

/-- RMS norm (02 R44). -/
def rmsF (eps : Nat) (x g : List Nat) : List Nat :=
  let r := frsqrt (fadd (fmul (sumF (x.map fun w => fmul w w)) (oneOver x.length)) eps)
  List.zipWith (fun w k => fmul (fmul w r) k) x g

/-- Layer norm (02 R44). -/
def layerF (eps : Nat) (x g b : List Nat) : List Nat :=
  let mu := fmul (sumF x) (oneOver x.length)
  let c := x.map fun w => fsub w mu
  let v := fmul (sumF (c.map fun w => fmul w w)) (oneOver x.length)
  let r := frsqrt (fadd v eps)
  List.zipWith fadd (List.zipWith (fun w k => fmul (fmul w r) k) c g) b

end Sys2Proof.Machine
end

