-- ==== Sys2Proof/Machine/Operands.lean ====
section
/-! DEFINITION. Tensor descriptors as operands (06): the 64-byte record, its validation, the three
layouts, index clamping, and reading and writing elements and whole layout lines through a descriptor. -/

namespace Sys2Proof.Machine

/-! ### The record (06 R126) -/

/-- Signed value of a 40-bit field. -/
def s40 (w : Nat) : Int := signedOf 40 w

/-- The fields of a 64-byte record (06 R126); the reserved bits are checked apart. -/
def parseDesc (b : List Byte) : Desc :=
  let w0 := fieldB b 0 8
  { space := bitsOf w0 3 0, inst := bitsOf w0 8 4, rank := bitsOf w0 11 9, fmt := bitsOf w0 15 12, base := bitsOf w0 63 16,
    size := (List.range 6).map fun k => fieldB b (8 + 4 * k) 4,
    stride := (List.range 6).map fun k => s40 (fieldB b (0x20 + 5 * k) 5),
    write := bitOf (fieldB b 0x3E 2) 0, layout := bitsOf (fieldB b 0x3E 2) 3 1 }

/-- Bits [15:4] of the last halfword are reserved (06 R126). -/
def descReservedZero (b : List Byte) : Bool := bitsOf (fieldB b 0x3E 2) 15 4 == 0

def dSize (d : Desc) (k : Nat) : Nat := d.size.getD k 0
def dStride (d : Desc) (k : Nat) : Int := d.stride.getD k 0

/-- Bits of one element (06 R127). -/
def fmtBits (fmt : Nat) : Nat :=
  match fmt with
  | 0x4 => 16
  | 0x5 => 32
  | 0x6 => 32
  | 0x7 => 64
  | 0x8 => 4
  | _ => 8

/-- Bytes that `n` contiguous elements take. -/
def elBytes (fmt n : Nat) : Nat := ceilDiv (n * fmtBits fmt) 8

/-- A descriptor with a used dimension of SIZE 0 addresses no byte (06 R128). -/
def dEmpty (d : Desc) : Bool := (List.range d.rank).any fun k => dSize d k == 0

/-- Element count: the product of the sizes (06 R137). -/
def dCount (d : Desc) : Nat := ((List.range d.rank).map (dSize d)).prod

/-- E0 of 06 R133. -/
def dE0 (d : Desc) : Nat := roundUp (elBytes d.fmt (dSize d 0)) 64

/-! ### Layout rules and the footprint (06 R133 to R136, R141, R142) -/

/-- K-tiled block edges and bytes (06 R142): T_k, T_n, B. -/
def kTile (fmt : Nat) : Nat × Nat × Nat :=
  match fmt with
  | 0x8 => (512, 1024, 262144)
  | 0x4 => (256, 256, 131072)
  | _ => (512, 512, 262144)

def kTileFmt (fmt : Nat) : Bool := fmt == 1 || fmt == 2 || fmt == 3 || fmt == 4 || fmt == 8

/-- Dimensions above the inner unit: 1 up for natural, 2 up for the block layouts. -/
def outerDims (d : Desc) : List Nat :=
  (List.range d.rank).drop (if d.layout = 0 then 1 else 2)

/-- The inner span (06 R136, R141, R142). -/
def innerSpan (d : Desc) : Int :=
  match d.layout with
  | 0 => dE0 d
  | 1 => ceilDiv (elBytes d.fmt (dSize d 0)) 64 * 4096 + ((ceilDiv (dSize d 1) 64 : Int) - 1) * (dStride d 1).natAbs
  | _ => ((ceilDiv (dSize d 0) (kTile d.fmt).2.1 : Int) - 1) * dStride d 1
         + ceilDiv (dSize d 1) (kTile d.fmt).1 * (kTile d.fmt).2.2

/-- Where the inner unit starts below BASE: only a B64 layout with a negative STRIDE[1] (06 R141). -/
def innerLow (d : Desc) : Int :=
  if d.layout = 1 ∧ dStride d 1 < 0 then ((ceilDiv (dSize d 1) 64 : Int) - 1) * dStride d 1 else 0

/-- The layout rules: R133, R134, R141, R142. -/
def layoutOk (d : Desc) : Bool :=
  let e := fmtBits d.fmt / 8
  let common := (dStride d 0 == (if d.fmt = 8 then 1 else (e : Int))) && d.base % 64 == 0 && !(d.fmt == 8 && dSize d 0 % 2 == 1)
  match d.layout with
  | 0 => common && (outerDims d).all fun k => (dStride d k) % 64 == 0
  | 1 => common && decide (2 ≤ d.rank) && dStride d 1 % 4096 == 0 && d.base % 4096 == 0 &&
         decide (ceilDiv (elBytes d.fmt (dSize d 0)) 64 * 4096 ≤ (dStride d 1).natAbs) &&
         (outerDims d).all fun k => (dStride d k) % 4096 == 0
  | 2 => common && decide (2 ≤ d.rank) && kTileFmt d.fmt && d.base % 4096 == 0 && decide (0 < dStride d 1) &&
         dStride d 1 % (kTile d.fmt).2.2 == 0 &&
         decide ((ceilDiv (dSize d 1) (kTile d.fmt).1 * (kTile d.fmt).2.2 : Nat) ≤ dStride d 1) &&
         (outerDims d).all fun k => (dStride d k) % 4096 == 0
  | _ => false

def dLo (d : Desc) : Int :=
  d.base + innerLow d + ((outerDims d).map fun k => if dStride d k < 0 then ((dSize d k : Int) - 1) * dStride d k else 0).sum
def dHi (d : Desc) : Int :=
  d.base + innerLow d + innerSpan d - 1 +
    ((outerDims d).map fun k => if 0 < dStride d k then ((dSize d k : Int) - 1) * dStride d k else 0).sum

/-- The footprint lies within an allocation (06 R135). -/
def footprintIn (d : Desc) (base len : Nat) : Bool :=
  if dEmpty d then decide (base ≤ d.base ∧ d.base ≤ base + len)
  else decide ((base : Int) ≤ dLo d) && decide (dHi d < base + len)

/-- Insertion by |STRIDE|, ties keeping dimension order (06 R136). -/
def insDim (d : Desc) (k : Nat) : List Nat → List Nat
  | [] => [k]
  | j :: t => if (dStride d k).natAbs < (dStride d j).natAbs then k :: j :: t else j :: insDim d k t

/-- The sufficient alias check of 06 R136. -/
def noAlias (d : Desc) : Bool :=
  let dims := ((outerDims d).filter fun k => decide (1 < dSize d k)).foldl (fun l k => insDim d k l) []
  (dims.foldl (fun (st : Bool × Int) k =>
    (st.1 && decide (st.2 ≤ (dStride d k).natAbs), st.2 + ((dSize d k : Int) - 1) * (dStride d k).natAbs))
    (true, innerSpan d)).1

/-! ### Element addresses -/

/-- Indices of element number `n`, dimension 0 fastest (04 R87). -/
def unflat : List Nat → Nat → List Nat
  | [], _ => []
  | z :: t, n => (if z = 0 then 0 else n % z) :: unflat t (if z = 0 then 0 else n / z)

/-- Element number of an index tuple. -/
def flatIdx : List Nat → List Nat → Nat
  | z :: t, i :: u => i + z * flatIdx t u
  | _, _ => 0

def usedSizes (d : Desc) : List Nat := (List.range d.rank).map (dSize d)

def outerOff (d : Desc) (idx : List Nat) : Int :=
  ((outerDims d).map fun k => (idx.getD k 0 : Int) * dStride d k).sum

/-- Byte offset of an element, and whether it is a high nibble (06 R128, R141, R142). -/
def elAddr (d : Desc) (n : Nat) : Nat × Bool :=
  let idx := unflat (usedSizes d) n
  let i0 := idx.getD 0 0
  let i1 := idx.getD 1 0
  let e := fmtBits d.fmt
  let inner : Int :=
    match d.layout with
    | 0 => (i0 * e / 8 : Nat)
    | 1 => let b := 512 / e
           ((i0 / b * 4096 : Nat) : Int) + (i1 / 64 : Nat) * dStride d 1 + (i1 % 64 * 64 + i0 % b * e / 8 : Nat)
    | _ => let t := kTile d.fmt
           ((i1 / t.1 * t.2.2 : Nat) : Int) + (i0 / t.2.1 : Nat) * dStride d 1 + (i1 % t.1 * 512 + i0 % t.2.1 * e / 8 : Nat)
  ((d.base + outerOff d idx + inner).toNat, e == 4 && i0 % 2 == 1)

/-- A line of a descriptor: a run of whole 64-byte blocks that a writer writes whole, with the element
number of each slot (`none`: padding, written as zero under 06 R143). -/
structure Line where
  addr : Nat
  slots : List (Option Nat)

/-- Index tuples of the outer dimensions, in ascending element order. -/
def outerTuples (d : Desc) : List (List Nat) :=
  let sz := (usedSizes d).drop (if d.layout = 0 then 1 else 2)
  (List.range sz.prod).map (unflat sz)

/-- Every line of the descriptor (06 R143): rows padded to 64 bytes, B64 blocks and K-tiled blocks whole. -/
def dLines (d : Desc) : List Line :=
  if dEmpty d then []
  else
    let sz := usedSizes d
    (outerTuples d).flatMap fun o =>
      match d.layout with
      | 0 =>
        [⟨(d.base + outerOff d (0 :: o)).toNat,
          (List.range (dE0 d * 8 / fmtBits d.fmt)).map fun i => if i < dSize d 0 then some (flatIdx sz (i :: o)) else none⟩]
      | 1 =>
        let b := 512 / fmtBits d.fmt
        (List.range (ceilDiv (dSize d 1) 64)).flatMap fun (r : Nat) =>
          (List.range (ceilDiv (dSize d 0) b)).flatMap fun c =>
            (List.range 64).map fun y =>
              ⟨(d.base + outerOff d (0 :: 0 :: o) + (r : Int) * dStride d 1 + (c * 4096 + y * 64 : Nat)).toNat,
               (List.range b).map fun x =>
                 if c * b + x < dSize d 0 ∧ r * 64 + y < dSize d 1 then some (flatIdx sz ((c * b + x) :: (r * 64 + y) :: o))
                 else none⟩
      | _ =>
        let t := kTile d.fmt
        (List.range (ceilDiv (dSize d 0) t.2.1)).flatMap fun (nb : Nat) =>
          (List.range (ceilDiv (dSize d 1) t.1)).flatMap fun kb =>
            (List.range t.1).map fun y =>
              ⟨(d.base + outerOff d (0 :: 0 :: o) + (nb : Int) * dStride d 1 + (kb * t.2.2 + y * 512 : Nat)).toNat,
               (List.range t.2.1).map fun x =>
                 if nb * t.2.1 + x < dSize d 0 ∧ kb * t.1 + y < dSize d 1 then
                   some (flatIdx sz ((nb * t.2.1 + x) :: (kb * t.1 + y) :: o)) else none⟩

/-- The 64-byte blocks a descriptor's lines cover. -/
def dBlocks (d : Desc) : List Nat :=
  (dLines d).flatMap fun l => (List.range (l.slots.length * fmtBits d.fmt / 512)).map fun i => l.addr + 64 * i

/-- Whether the footprint covers a block of a marked shared page (08 R200 step 9; 11 R279). -/
def coversShared (s : State) (d : Desc) : Bool :=
  d.space == 2 && !dEmpty d && s.sharedPoison.any fun e => decide (dLo d < (e.1 + 1) * 65536) && decide ((e.1 : Int) * 65536 ≤ dHi d)

/-! ### Index clamping (06 R139) -/

/-- An INT32 index clamped to 0 .. `n` − 1. -/
def clampIdx (n : Nat) (w : Nat) : Nat := let i := signedOf 32 w; if i < 0 then 0 else min i.toNat (n - 1)

/-! ### Elements through an operation -/

/-- Element `n` as a bit pattern, with whether its block is poisoned. -/
def rdEl (d : Desc) (n : Nat) (a : Acc) : (Nat × Bool) × Acc :=
  let p := elAddr d n
  let r := rdBytes d.space d.inst p.1 (elBytes d.fmt 1) a
  let v := leNat r.1.1
  ((if d.fmt = 8 then (if p.2 then v / 16 % 16 else v % 16) else v, r.1.2), r.2)

/-- Read elements `n`, `n + 1`, …, in order. -/
def rdEls (d : Desc) : Nat → Nat → Acc → List (Nat × Bool) × Acc
  | 0, _, a => ([], a)
  | k + 1, n, a =>
    let r := rdEl d n a
    let t := rdEls d k (n + 1) r.2
    (r.1 :: t.1, t.2)

/-- Values of the slots of one line; padding is zero. -/
def lineVals (f : Nat → Acc → (Nat × Bool) × Acc) : List (Option Nat) → Acc → List (Nat × Bool) × Acc
  | [], a => ([], a)
  | none :: t, a => let r := lineVals f t a; ((0, false) :: r.1, r.2)
  | some n :: t, a =>
    let v := f n a
    let r := lineVals f t v.2
    (v.1 :: r.1, r.2)

/-- Pack values of `bits` width into bytes. -/
def packVals (bits : Nat) : List Nat → List Byte
  | [] => []
  | v :: t => if bits = 4 then
      match t with
      | [] => [BitVec.ofNat 8 (v % 16)]
      | w :: u => BitVec.ofNat 8 (v % 16 + 16 * (w % 16)) :: packVals bits u
    else toLE (bits / 8) v ++ packVals bits t

/-! ### Pieces: the 64-byte blocks a writer writes (06 R143) -/

/-- A block of a descriptor: its address and the element of each slot. -/
def cutLine (per : Nat) : Nat → Nat → List (Option Nat) → List Line
  | 0, _, _ => []
  | n + 1, addr, sl => if sl.isEmpty then [] else ⟨addr, sl.take per⟩ :: cutLine per n (addr + 64) (sl.drop per)

def dPieces (d : Desc) : List Line := (dLines d).flatMap fun l => cutLine (512 / fmtBits d.fmt) l.slots.length l.addr l.slots

/-- What a writer puts in a slot: a value, or none for an element that stays. -/
abbrev SlotFn := Nat → Acc → Option (Nat × Bool) × Acc

/-- Values of a block's slots: padding zero, elements from `f`; an element that stays is read back only where
it shares a byte (INT4). The Bool of a triple says whether the slot is written. -/
def slotVals (d : Desc) (f : SlotFn) : List (Option Nat) → Acc → List (Nat × Bool × Bool) × Acc
  | [], a => ([], a)
  | none :: t, a => let r := slotVals d f t a; ((0, false, true) :: r.1, r.2)
  | some n :: t, a =>
    let v := f n a
    match v.1 with
    | some x => let r := slotVals d f t v.2; ((x.1, x.2, true) :: r.1, r.2)
    | none =>
      let o := if d.fmt = 8 then rdEl d n v.2 else ((0, false), v.2)
      let r := slotVals d f t o.2
      ((o.1.1, false, false) :: r.1, r.2)

/-- The byte mask of the slots that are written. -/
def slotMask (bits : Nat) : Nat → List (Nat × Bool × Bool) → Nat
  | _, [] => 0
  | i, v :: t =>
    let m := slotMask bits (i + 1) t
    if v.2.2 then m ||| ((2 ^ max 1 (bits / 8) - 1) * 2 ^ (i * bits / 8)) else m

/-- One block is written; a block in which every slot stays is left alone. -/
def wrPiece (d : Desc) (f : SlotFn) (l : Line) (a : Acc) : Acc :=
  let r := slotVals d f l.slots a
  let m := slotMask (fmtBits d.fmt) 0 r.1
  if m = 0 then r.2 else wrBlk d.space d.inst l.addr (packVals (fmtBits d.fmt) (r.1.map (·.1))) m (r.1.any fun v => v.2.1) r.2

def wrPieces (d : Desc) (f : SlotFn) : List Line → Acc → Acc
  | [], a => a
  | l :: t, a => wrPieces d f t (wrPiece d f l a)

/-- The block that holds element `n`, as a piece. -/
def pieceOf (d : Desc) (n : Nat) : Line :=
  let per := 512 / fmtBits d.fmt
  let sz := usedSizes d
  let idx := unflat sz n
  let i0 := idx.getD 0 0
  ⟨(elAddr d n).1 / 64 * 64, (List.range per).map fun x =>
    let i := i0 / per * per + x
    if i < dSize d 0 then some (flatIdx sz (i :: idx.drop 1)) else none⟩

/-- Element `n` written alone: of its block the other elements stay, and padding is zero (06 R143). -/
def wrEl (d : Desc) (n v : Nat) (poison : Bool) (a : Acc) : Acc :=
  wrPiece d (fun m b => (if m = n then some (v, poison) else none, b)) (pieceOf d n) a

/-- Write packed values block by block; a block is poisoned when any value in it is. -/
def wrLineGo (d : Desc) (per : Nat) : Nat → Nat → List (Nat × Bool) → Acc → Acc
  | 0, _, _, a => a
  | fuel + 1, off, vs, a =>
    if vs.isEmpty then a
    else
      let h := vs.take per
      wrLineGo d per fuel (off + 64) (vs.drop per)
        (wrBlk d.space d.inst off (packVals (fmtBits d.fmt) (h.map (·.1))) fullMask (h.any (·.2)) a)

/-- Write every line of a descriptor, padding included (06 R143), each element from `f`. -/
def wrLines (d : Desc) (f : Nat → Acc → (Nat × Bool) × Acc) : List Line → Acc → Acc
  | [], a => a
  | l :: t, a =>
    let v := lineVals f l.slots a
    wrLines d f t (wrLineGo d (512 / fmtBits d.fmt) l.slots.length l.addr v.1 v.2)

/-- Write the whole tensor from `f`. -/
def wrTensor (d : Desc) (f : Nat → Acc → (Nat × Bool) × Acc) (a : Acc) : Acc := wrLines d f (dLines d) a

/-! ### Unpredictable contents (00 R4) -/

/-- A FREE VALUE of `n` bytes. -/
def freshVal : Nat → State → Nat × State
  | 0, s => (0, s)
  | n + 1, s =>
    let b := freshByte s
    let t := freshVal n b.2
    (b.1.toNat + 256 * t.1, t.2)

/-- A destination that the spec calls unpredictable: every element a FREE VALUE (log entry 6). -/
def scramble (d : Desc) (s : State) : State :=
  (wrTensor d (fun _ a =>
    let v := freshVal (elBytes d.fmt 1) a.s
    ((v.1 % 2 ^ fmtBits d.fmt, false), { a with s := v.2 })) (Acc.start 1 s)).s

/-! ### Items (06 "Indices, clamping and collisions") -/

/-- Elements of one item: the sub-tensor of dimensions 0 to RANK − 2. -/
def itemSize (d : Desc) : Nat := ((usedSizes d).dropLast).prod
/-- SIZE of the indexed dimension. -/
def itemCount (d : Desc) : Nat := dSize d (d.rank - 1)

end Sys2Proof.Machine
end

