-- ==== Sys2Proof/Machine/Sha3.lean ====
section
/-! DEFINITION. SHA3-256, which 07 R164, 18 R419 and R421 name and do not define: the function of FIPS 202
(PRESUMED, log entry 11). The 25 lanes stand in a list, lane (x, y) at 5 y + x; the rotations and the round
constants come from the walk and the shift register that FIPS 202 defines them by. -/

namespace Sys2Proof.Machine

def sha3Lane (a : List W64) (x y : Nat) : W64 := a.getD (5 * (y % 5) + x % 5) 0

/-- The 25 lanes given by what stands at (x, y). -/
def sha3Lanes (f : Nat → Nat → W64) : List W64 :=
  (List.range 5).flatMap fun y => (List.range 5).map fun x => f x y

/-- The parity of column `x`. -/
def sha3Column (a : List W64) (x : Nat) : W64 := (List.range 5).foldl (fun w y => w ^^^ sha3Lane a x y) 0

/-- Step 1 of a round: every lane takes in the parities of its two neighbour columns. -/
def sha3Mix (a : List W64) : List W64 :=
  sha3Lanes fun x y => sha3Lane a x y ^^^ sha3Column a (x + 4) ^^^ (sha3Column a (x + 1)).rotateLeft 1

/-- Steps 2 and 3 as one walk: from (x, y), the `t`-th stop after (1, 0), the lane goes to (y, 2x + 3y), which is
the next stop, turned by the triangular number of `t` + 1. Lists (place, lane). -/
def sha3Walk (a : List W64) : (n t x y : Nat) → Tab W64
  | 0, _, _, _ => []
  | n + 1, t, x, y =>
    let y' := (2 * x + 3 * y) % 5
    tabPut (5 * y' + y) ((sha3Lane a x y).rotateLeft ((t + 1) * (t + 2) / 2 % 64)) (sha3Walk a n (t + 1) y y')

/-- The lanes after the walk; lane (0, 0) stays. -/
def sha3Move (a : List W64) : List W64 :=
  sha3Lane a 0 0 :: (sha3Walk a 24 0 1 0).map (·.2)

/-- The shift register of the round constants after `t` shifts. -/
def sha3Register : Nat → Nat
  | 0 => 1
  | t + 1 => let r := 2 * sha3Register t; if r < 256 then r else (r - 256) ^^^ 0x71

/-- The constant of round `r`: bit 2^j − 1 is the register's output 7 r + j. -/
def sha3Constant (r : Nat) : W64 :=
  BitVec.ofNat 64 (((List.range 7).map fun j => sha3Register (7 * r + j) % 2 * 2 ^ (2 ^ j - 1)).sum)

/-- Step 4, with the round's constant (step 5) on lane (0, 0). -/
def sha3Chi (r : Nat) (a : List W64) : List W64 :=
  sha3Lanes fun x y =>
    let w := sha3Lane a x y ^^^ (sha3Lane a (x + 2) y &&& ~~~ sha3Lane a (x + 1) y)
    if x + y = 0 then w ^^^ sha3Constant r else w

/-- The 24 rounds. -/
def sha3Permute (a : List W64) : List W64 := (List.range 24).foldl (fun s r => sha3Chi r (sha3Move (sha3Mix s))) a

/-- One block of 136 bytes taken into the state. -/
def sha3Block (a : List W64) (blk : List Byte) : List W64 :=
  sha3Permute (sha3Lanes fun x y => sha3Lane a x y ^^^ BitVec.ofNat 64 (fieldB blk (8 * (5 * y + x)) 8))

/-- The message with its domain bits, filled up to whole blocks; the last byte ends the padding. -/
def sha3Fill (m : List Byte) : List Byte :=
  let n := roundUp (m.length + 1) 136
  (List.range n).map fun i =>
    (if i < m.length then m.getD i 0 else if i = m.length then 0x06 else 0) ||| (if i + 1 = n then 0x80 else 0)

def sha3 (m : List Byte) : List Byte :=
  let p := sha3Fill m
  let a := (List.range (p.length / 136)).foldl (fun s i => sha3Block s ((p.drop (136 * i)).take 136)) (sha3Lanes fun _ _ => 0)
  (a.take 4).flatMap fun w => toLE 8 w.toNat

end Sys2Proof.Machine
end

