-- ==== Sys2Proof/Machine/Admission.lean ====
section
/-! DEFINITION. What admission checks (08 R200): the nine steps in order, with the opcode-specific checks
of step 7 (06 R132, R137, R144, R146; 04 R77; 07 R166, R167; 08 R193, R452, R453; 11 R250, R254, R274;
13 R313, R320). Every check answers a status, or none where it passes. -/

namespace Sys2Proof.Machine

/-- The first status of a list of checks, in order. -/
def firstFail : List (Option Nat) → Option Nat
  | [] => none
  | some x :: _ => some x
  | none :: t => firstFail t

def need (ok : Bool) (status : Nat) : Option Nat := if ok then none else some status

/-! ### The packet (08 R181) and the opcode tables (08 R192 to R197) -/

def parsePacket (b : List Byte) : Packet :=
  { opcode := fieldB b 0 2, tenant := fieldB b 2 1 % 64, flags := fieldB b 3 1, tag := fieldB b 4 4, counter := fieldB b 8 2,
    signalN := fieldB b 10 2, group := fieldB b 12 4, p := (List.range 6).map fun k => fieldB b (16 + 8 * k) 8,
    tenantByte := fieldB b 2 1 }

def pk (q : Packet) (k : Nat) : Nat := q.p.getD k 0
def lo32 (w : Nat) : Nat := w % 2 ^ 32
def hi32 (w : Nat) : Nat := w / 2 ^ 32 % 2 ^ 32

/-- Bits [hi:lo] set. -/
def ones (hi lo : Nat) : Nat := 2 ^ (hi + 1) - 2 ^ lo

def allOnes : Nat := 2 ^ 64 - 1

/-- Assigned bits of P0 to P5; `none`: the opcode is not defined (08 R192 to R197). -/
def assigned (op : Nat) : Option (List Nat) :=
  match op with
  | 0x0101 => some [allOnes, ones 5 0]
  | 0x0102 => some [0, ones 5 0]
  | 0x0103 => some [allOnes, ones 3 0 + ones 11 8]
  | 0x0104 => some [0, ones 3 0]
  | 0x0105 => some [allOnes, ones 31 0]
  | 0x0106 => some [ones 31 0]
  | 0x0107 => some [0, ones 5 0]
  | 0x0108 => some [0, ones 5 0]
  | 0x0201 => some [allOnes, ones 8 0 + ones 17 12, allOnes, allOnes]
  | 0x0202 => some [allOnes]
  | 0x0203 => some [allOnes, allOnes, ones 31 0]
  | 0x0204 => some [0, 0, ones 31 0]
  | 0x0205 => some [ones 31 0, 0, 0, 0, allOnes, allOnes]
  | 0x0206 => some [allOnes, ones 17 0 + ones 24 24 + ones 42 32]
  | 0x0207 => some [allOnes, ones 32 0]
  | 0x0210 => some [ones 40 0, allOnes, allOnes, allOnes, allOnes, allOnes]
  | 0x0301 => some [ones 31 0]
  | 0x0302 => some [allOnes]
  | 0x0303 => some [allOnes, ones 24 0, allOnes]
  | 0x0401 => some [allOnes, ones 31 0]
  | 0x0402 => some [allOnes, ones 31 0]
  | 0x0403 => some [allOnes, ones 31 0, ones 31 0]
  | 0x0404 => some [allOnes, allOnes]
  | 0x0405 => some [allOnes, ones 31 0, ones 1 0 + ones 31 8]
  | 0x0406 => some [ones 31 0, ones 32 0, allOnes]
  | 0x0407 => some [allOnes, ones 13 0 + ones 23 16]
  | 0x0408 => some [0, ones 13 0]
  | 0x0501 => some [ones 15 0, allOnes]
  | 0x0502 => some [ones 15 0, allOnes]
  | 0x0503 => some [ones 15 0, allOnes]
  | 0x0504 => some [ones 15 0]
  | 0x0601 => some [ones 4 0 + ones 9 8, allOnes]
  | 0x0602 => some [ones 11 0 + ones 31 16, allOnes, ones 12 0]
  | 0x0603 => some [ones 31 16]
  | 0x0604 => some [allOnes, ones 11 0 + ones 47 16]
  | 0x0605 => some [allOnes, ones 7 0 + ones 31 16]
  | 0x0701 => some [ones 3 0 + ones 12 8]
  | 0x0702 => some [ones 3 0 + ones 23 8, allOnes]
  | 0x0703 => some [ones 2 0]
  | 0x0704 => some [allOnes, allOnes]
  | 0x0705 => some [ones 5 0 + ones 31 16]
  | 0x0706 => some [ones 5 0 + ones 31 16, allOnes]
  | 0x0707 => some [ones 2 0, allOnes]
  | 0x0708 => some [allOnes, allOnes, allOnes]
  | 0x0709 => some []
  | _ => none

/-- Opcodes that tenant 0 alone may issue (08 R192, R197; 12 R282). -/
def tenant0Only (op : Nat) : Bool :=
  [0x0101, 0x0102, 0x0107, 0x0108, 0x0601, 0x0602, 0x0603, 0x0701, 0x0702, 0x0703, 0x0704, 0x0705, 0x0706, 0x0707].contains op

/-- Commands that never name an engine (01 R455). -/
def namesNoEngine (op : Nat) : Bool := [0x0204, 0x0202, 0x0302, 0x0408, 0x0106, 0x0102].contains op

/-- A descriptor parameter: its identifier, whether the command requires one, and whether it is used as a
destination (06 R137). -/
structure DescUse where
  id : Nat
  required : Bool
  dest : Bool

/-- A furrow operation's operands that it cannot do without (04 R76 to R90); an OP that R76 does not list uses none. -/
def fopNeeds (op sub : Nat) : Bool × Bool × Bool × Bool × Bool × Bool :=   -- DST, SRC_A, SRC_B, INDEX, SEGMENT, RESULT
  match op with
  | 0x01 => (true, true, false, false, false, false)
  | 0x02 => (true, false, false, false, false, false)
  | 0x03 => (true, true, sub != 5, false, false, false)
  | 0x10 => (true, true, true, false, false, false)
  | 0x11 => (true, true, false, false, false, false)
  | 0x12 => (true, true, false, false, false, false)
  | 0x20 => (true, true, false, true, false, false)
  | 0x21 => (true, true, false, true, true, false)
  | 0x30 => (true, false, true, true, false, false)
  | 0x31 => (true, false, true, true, false, true)
  | 0x40 => (true, false, true, true, false, false)
  | _ => (false, false, false, false, false, false)

/-- The operation takes its row scale from SRC_B where one is given (04 R82, R83). -/
def scaleOptional (op : Nat) : Bool := op == 0x11 || op == 0x12

/-- The operands that the operation does not use are left out of its checks (04 R77) and of its work. -/
def usedOperands (p : FopParams) : FopParams :=
  let n := fopNeeds p.op p.sub
  let on (c : Bool) (x : Option Desc) : Option Desc := if c then x else none
  { p with dst := on n.1 p.dst, srcA := on n.2.1 p.srcA, srcB := on (n.2.2.1 || scaleOptional p.op) p.srcB, index := on n.2.2.2.1 p.index,
           segment := on n.2.2.2.2.1 p.segment, result := on n.2.2.2.2.2 p.result }

/-- Descriptor parameters of a packet. -/
def descUses (q : Packet) : List DescUse :=
  let a := lo32 (pk q 0)
  let b := hi32 (pk q 0)
  let c := lo32 (pk q 1)
  match q.opcode with
  | 0x0204 => [⟨lo32 (pk q 2), true, false⟩]
  | 0x0205 => [⟨a, true, true⟩]
  | 0x0206 => [⟨a, true, false⟩, ⟨b, true, true⟩]
  | 0x0207 => [⟨a, true, false⟩, ⟨b, true, true⟩, ⟨c, true, false⟩]
  | 0x0210 =>
    let n := fopNeeds (bitsOf (pk q 0) 7 0) (bitsOf (pk q 0) 15 8)
    [⟨c, n.1, n.1⟩, ⟨hi32 (pk q 1), n.2.1, false⟩, ⟨lo32 (pk q 2), n.2.2.1, false⟩, ⟨hi32 (pk q 2), n.2.2.2.1, false⟩,
     ⟨lo32 (pk q 3), n.2.2.2.2.1, false⟩, ⟨hi32 (pk q 3), n.2.2.2.2.2, n.2.2.2.2.2⟩]
  | 0x0301 => [⟨a, true, false⟩]
  | 0x0401 => [⟨a, true, false⟩, ⟨b, true, false⟩]
  | 0x0402 => [⟨a, true, false⟩, ⟨b, true, false⟩]
  | 0x0403 => [⟨a, true, false⟩, ⟨b, true, true⟩, ⟨lo32 (pk q 2), true, true⟩]
  | 0x0404 => [⟨a, true, false⟩, ⟨b, true, false⟩, ⟨c, true, true⟩]
  | 0x0405 => [⟨a, true, true⟩, ⟨b, true, false⟩, ⟨c, true, true⟩]
  | 0x0406 => [⟨a, true, true⟩]
  | 0x0407 => [⟨a, true, true⟩, ⟨b, true, false⟩]
  | 0x0604 => [⟨a, true, false⟩]
  | 0x0605 => [⟨a, true, false⟩, ⟨b, true, true⟩]
  | _ => []

/-! ### Objects and windows -/

/-- A live descriptor of a tenant (06 R130: one that awaits its destroy is not live). -/
def liveDesc (s : State) (t id : Nat) : Option Desc :=
  match tabGet? id (getTen s t).descs with
  | some d => if d.dying then none else some d.desc
  | none => none

/-- The key of a live allocation that a handle names for a tenant: its own, or a view of tenant 0's
SHARED_RO allocation (11 R277). The Bool marks a view. It is named until its FREE completes (08 R186), and from the
completion of its ALLOC (log entry 20). -/
def allocOf (s : State) (t h : Nat) : Option (Nat × Alloc × Bool) :=
  let view := bitOf h 55 ∧ 0 < t
  let k := if view then h % 2 ^ 55 else h
  match tabGet? k s.allocs with
  | some a =>
    if (getCmd? s k).isSome then none
    else if view then (if a.tenant = 0 ∧ a.sharedRo ∧ h / 2 ^ 56 = t then some (k, a, true) else none)
    else if a.tenant = t then some (k, a, false) else none
  | none => none

/-- The loaded bundle that a handle names, until its BUNDLE_UNLOAD completes (08 R186). -/
def bundleOf (s : State) (t h : Nat) : Option Bundle :=
  match tabGet? h s.bundles with
  | some b => if b.tenant = t ∧ (getCmd? s h).isNone = true then some b else none
  | none => none

/-- `len` bytes at a host address lie within one HOST range of the tenant (12 R288, R289). -/
def hostOk (s : State) (t addr len : Nat) : Bool :=
  (getTen s t).profile.hosts.any fun r => decide (0 < r.2 ∧ r.1 ≤ addr ∧ addr + len ≤ r.1 + r.2)

/-- The tenant exists: from the completion of its TENANT_CREATE until the completion of its TENANT_DESTROY (12 R281). -/
def tenantIs (s : State) (t : Nat) : Bool :=
  (tabGet? t s.tenants).isSome && !s.cmds.any fun c => c.pkt.opcode == 0x0101 && pk c.pkt 1 == t

/-- The tenant exists and no TENANT_DESTROY of it is live (08 R453). -/
def tenantThere (s : State) (t : Nat) : Bool := tenantIs s t && ((tabGet? t s.tenants).map (!·.destroying)).getD false

def subqOf (s : State) (t q : Nat) : Option SubQ :=
  if q = 0 then some (getFn s t).sq0 else tabGet? q (getFn s t).queues

/-! ### Step 5: parameter ranges -/

/-- R452's step-5 row for ALLOC. -/
def allocRangeOk (q : Packet) : Bool :=
  let w := pk q 1
  let len := pk q 0
  let sp := bitsOf w 3 0
  let inst := bitsOf w 8 4
  let pinned := bitOf w 12
  let shared := bitOf w 16
  let repl := bitOf w 17
  len != 0 && decide (sp ≤ 5) && (decide (3 ≤ sp) || inst == 0) && (sp != 3 || decide (inst ≤ 3)) && decide (inst ≤ 31) &&
  (sp == 0 || pk q 2 == 0) &&
  (sp != 0 || (pk q 2 % 64 == 0 && len % 64 == 0 && decide (pk q 2 + len ≤ 2 ^ 48))) &&
  (!pinned || sp == 2) && (pinned || bitsOf w 15 13 == 0) && ((!shared && !repl) || sp == 2) && !(shared && repl) &&
  (repl == (pk q 3 != 0))

/-- Every parameter within the range its table gives (08 R200 step 5). -/
def rangesOk (s : State) (q : Packet) : Bool :=
  let w := pk q 0
  match q.opcode with
  | 0x0101 => pk q 1 != 0
  | 0x0102 => pk q 1 != 0
  | 0x0103 => decide (1 ≤ bitsOf (pk q 1) 3 0) && decide (4 ≤ bitsOf (pk q 1) 11 8 ∧ bitsOf (pk q 1) 11 8 ≤ 12) &&
              w % 4096 == 0 && decide (w < 2 ^ 48)
  | 0x0104 => decide (1 ≤ pk q 1)
  | 0x0105 => pk q 1 != 0
  | 0x0201 => allocRangeOk q
  | 0x0203 => w % 64 == 0
  | 0x0206 => let e := bitsOf (pk q 1) 39 32; decide (e ≤ 19) || e == 0xFF
  | 0x0303 => decide (bitsOf (pk q 1) 24 16 ≤ 256) && pk q 2 % 64 == 0
  | 0x0405 => let n := bitsOf (pk q 2) 15 8
              decide (1 ≤ n) && decide (n ≤ if bitOf (pk q 2) 1 then 64 else 16)
  | 0x0406 => !(bitOf (pk q 1) 32) || pk q 2 == 0
  | 0x0407 => let r := bitsOf (pk q 1) 23 16; decide (1 ≤ r ∧ r ≤ 128)
  | 0x0503 => pk q 1 != 0
  | 0x0601 => decide (bitsOf w 4 0 ≤ 19 ∧ bitsOf w 9 8 ≤ 2)
  | 0x0602 => decide (2 ≤ pk q 2 ∧ pk q 2 ≤ 4096) && bitsOf w 31 16 != 0 &&
              (!s.dpt.moduleSet || s.dpt.moduleNumber == bitsOf w 11 0) &&
              (let gs := (s.dpt.groups.map (·.1) ++ (s.cmds.filter fun c => c.pkt.opcode == 0x0602 && c.stage != .done).map fun c => bitsOf (pk c.pkt 0) 31 16).eraseDups
               gs.contains (bitsOf w 31 16) || decide (gs.length < 16))
  | 0x0603 => bitsOf w 31 16 != 0
  | 0x0605 => decide (1 ≤ bitsOf (pk q 1) 3 0 ∧ bitsOf (pk q 1) 3 0 ≤ 4) && bitsOf (pk q 1) 31 16 != 0 &&
              (if bitsOf (pk q 1) 3 0 ≤ 2 then decide (1 ≤ bitsOf (pk q 1) 7 4 ∧ bitsOf (pk q 1) 7 4 ≤ 3)
               else decide (bitsOf (pk q 1) 7 4 ≤ 3))
  | 0x0701 => let k := bitsOf w 3 0; k == 1 || (k == 2 && decide (bitsOf w 12 8 ≤ 7))
  | 0x0702 => let l := bitsOf w 15 8
              let n := bitsOf w 23 16
              (match bitsOf w 3 0 with
               | 1 => decide (l ≤ 7)
               | 2 => l == 0 && decide (n ≤ 15)
               | 3 => decide (l ≤ 19 ∧ n ≤ 7)
               | _ => false) && pk q 1 % 64 == 0
  | 0x0703 => decide (w ≤ 3)
  | 0x0704 => decide (64 ≤ pk q 1) && pk q 1 % 64 == 0
  | 0x0708 => decide (16384 ≤ pk q 2) && pk q 1 % 64 == 0
  | _ => true

/-! ### Step 6: handles (08 R186) -/

/-- A handle parameter: its value and whether it names a bundle. -/
def handleUses (q : Packet) : List (Nat × Bool) :=
  match q.opcode with
  | 0x0201 => if bitOf (pk q 1) 17 then [(pk q 3, false)] else []
  | 0x0202 => [(pk q 0, false)]
  | 0x0203 => [(pk q 1, false)]
  | 0x0302 => [(pk q 0, true)]
  | 0x0303 => [(pk q 0, true)]
  | 0x0406 => if bitOf (pk q 1) 32 then [] else [(pk q 2, false)]
  | _ => []

def handleCheck (s : State) (t : Nat) (op : Nat) (u : Nat × Bool) : Option Nat :=
  if u.1 / 2 ^ 56 ≠ t then some stWindow
  else if u.2 then need (bundleOf s t u.1).isSome stBadDescriptor
  else
    match allocOf s t u.1 with
    | none => some stBadDescriptor
    | some (_, _, view) => need (!view || op == 0x0202 || op == 0x0203) stBadDescriptor

/-! ### Step 7: descriptors -/

/-- 06 R137 over one use: live, instance usable, intent. -/
def descLive (s : State) (t : Nat) (u : DescUse) : Option Nat :=
  if u.id = 0 then need (!u.required) stBadDescriptor else need (liveDesc s t u.id).isSome stBadDescriptor

def descEngine (s : State) (t : Nat) (u : DescUse) : Option Nat :=
  match liveDesc s t u.id with
  | some d => need (instUsable s d.space d.inst) stEngineAbsent
  | none => none

def descIntent (s : State) (t : Nat) (u : DescUse) : Option Nat :=
  match liveDesc s t u.id with
  | some d => need (!u.dest || d.write) stBadDescriptor
  | none => none

def descGeneric (s : State) (t : Nat) (q : Packet) : Option Nat :=
  let us := descUses q
  firstFail (us.map (descLive s t) ++ (if namesNoEngine q.opcode then [] else us.map (descEngine s t)) ++ us.map (descIntent s t))

/-- The validation of a new descriptor, in the order of 06 R132. `raw` is the record; a view serves read
intent alone (11 R277). -/
def descCreateCheck (s : State) (t : Nat) (raw : List Byte) (ident h : Nat) : Option Nat :=
  let d := parseDesc raw
  let ten := getTen s t
  let used := List.range d.rank
  firstFail
    [need (descReservedZero raw && decide (d.space ≤ 6) && decide (1 ≤ d.fmt ∧ d.fmt ≤ 9) && decide (d.layout ≤ 2) &&
        decide (1 ≤ d.rank ∧ d.rank ≤ 6) &&
        ((List.range 6).all fun k => used.contains k || (dSize d k == 0 && dStride d k == 0)) &&
        ((List.range 6).all fun k => dSize d k != 0xFFFFFFFF)) stBadDescriptor,
     need (d.space != 6) stWindow,
     need (if d.space ≤ 2 then d.inst == 0 else if d.space = 3 then decide (d.inst ≤ 3) else decide (d.inst ≤ 31)) stBadDescriptor,
     need (instUsable s d.space d.inst) stEngineAbsent,
     need (decide (1 ≤ ident ∧ ident ≤ ten.profile.descLimit)) stWindow,
     need ((tabGet? ident ten.descs).isNone &&
        !s.cmds.any fun c => c.tenant == t && c.pkt.opcode == 0x0203 && lo32 (pk c.pkt 2) == ident) stBadDescriptor,
     match allocOf s t h with
     | none => some stWindow
     | some (_, a, view) =>
       firstFail
         [need (!view || !d.write) stWindow,
          need (a.space == d.space && a.inst == d.inst) stBadDescriptor,
          need (layoutOk d) stBadDescriptor,
          need (footprintIn d a.base a.len) stDescRange,
          need (!d.write || noAlias d) stDescAlias]]

/-- Permutation entry `k` of a COPY; 0 means identity (08 R194). -/
def permAt (w k : Nat) : Nat := if w = 0 then k else bitsOf w (3 * k + 2) (3 * k)

/-- 06 R144. -/
def copyCheck (a b : Desc) (perm : Nat) : Option Nat :=
  need (a.fmt == b.fmt && a.rank == b.rank &&
    (((List.range a.rank).all fun k => decide (permAt perm k < a.rank)) &&
     ((List.range a.rank).all fun j => (List.range a.rank).any fun k => permAt perm k == j) &&
     ((List.range 6).all fun k => decide (k < a.rank) || permAt perm k == k)) &&
    (List.range a.rank).all fun k => dSize b k == dSize a (permAt perm k)) stBadDescriptor

/-- 06 R146. -/
def transposeCheck (d : Desc) : Option Nat :=
  need (d.write && d.space == 4 && d.layout == 0 && d.rank == 2 && dSize d 0 == dSize d 1 &&
    decide (1 ≤ dSize d 0 ∧ dSize d 0 ≤ 512) && [8, 16, 32].contains (fmtBits d.fmt) && decide (0 < dStride d 1)) stBadDescriptor

/-! ### Furrow operations (04 R77) -/

def subOk (op sub : Nat) : Bool :=
  match op with
  | 0x01 => sub == 0
  | 0x02 => sub == 0
  | 0x03 => decide (1 ≤ sub ∧ sub ≤ 5)
  | 0x10 => sub == 0
  | 0x11 => sub == 0
  | 0x12 => sub == 0
  | 0x20 => decide (1 ≤ sub ∧ sub ≤ 4)
  | 0x21 => decide (1 ≤ sub ∧ sub ≤ 4)
  | 0x30 => decide (1 ≤ sub ∧ sub ≤ 4)
  | 0x31 => decide (1 ≤ sub ∧ sub ≤ 4)
  | 0x40 => sub == 0
  | _ => false

/-- Die and bank pair of a physical block (04 R72): chunk number modulo 512 is pair · 16 + die. -/
def unitOfBlk (blk : Nat) : Nat × Nat × Nat :=
  let c := blk % 2 ^ 31 / 64
  (stackOfBlk blk, c % 16, c / 16 % 32)

/-- Row operands of one element in one stack, and in one pair where `onePair` (04 R77). -/
def sameUnit (s : State) (onePair : Bool) (a b : Desc) : Bool :=
  (List.range (min (dCount a) (dCount b))).all fun n =>
    match physBlk s (elAddr a n).1, physBlk s (elAddr b n).1 with
    | some x, some y => if onePair then unitOfBlk x == unitOfBlk y else (unitOfBlk x).1 == (unitOfBlk y).1
    | _, _ => false

def inSpace (sps : List Nat) : Option Desc → Bool
  | none => true
  | some d => sps.contains d.space && d.layout == 0

/-- Rows of a descriptor: every dimension above 0. -/
def dRows (d : Desc) : Nat := ((usedSizes d).drop 1).prod

/-- The checks of 04 R77 and the count rows of 06 R137 for one furrow operation, operands resolved. -/
def fopCheck (s : State) (p : FopParams) : Option Nat :=
  let n := fopNeeds p.op p.sub
  let bad := stBadDescriptor
  let rows : List Nat := [2]
  let routed : List Nat := [2, 3, 4]
  let dstRow := [0x01, 0x02, 0x03, 0x11, 0x30, 0x31, 0x40].contains p.op
  let a := p.srcA.getD default
  let b := p.srcB.getD default
  let d := p.dst.getD default
  let ix := p.index.getD default
  let sg := p.segment.getD default
  firstFail
    [need (subOk p.op p.sub) stBadOpcode,
     need ((!n.1 || p.dst.isSome) && (!n.2.1 || p.srcA.isSome) && (!n.2.2.1 || p.srcB.isSome) && (!n.2.2.2.1 || p.index.isSome) &&
       (!n.2.2.2.2.1 || p.segment.isSome) && (!n.2.2.2.2.2 || p.result.isSome)) bad,
     need (inSpace rows p.srcA && inSpace (if p.op = 0x03 then rows else routed) p.srcB && inSpace (if dstRow then rows else routed) p.dst &&
       inSpace routed p.index && inSpace routed p.segment && inSpace routed p.result) bad,
     need (((p.index.map (·.fmt)).getD 6 == 6) && ((p.segment.map (·.fmt)).getD 6 == 6)) bad,
     match p.op with
     | 0x01 => firstFail [need (dCount a == dCount d && fmtBits a.fmt == fmtBits d.fmt) bad, need (sameUnit s false a d) bad]
     | 0x03 => firstFail
         [need (dCount a == dCount d && fmtBits a.fmt == fmtBits d.fmt &&
            (p.sub == 5 || (dCount b == dCount d && fmtBits b.fmt == fmtBits d.fmt))) bad,
          need (sameUnit s true a d && (p.sub == 5 || sameUnit s true b d)) bad]
     | 0x10 =>
       let seg := p.vecLen * fmtBits a.fmt / 8
       firstFail
         [need (decide (1 ≤ p.vecCount ∧ p.vecCount ≤ 16)) bad,
          need ([1, 2, 3].contains a.fmt && [1, 2, 3].contains b.fmt && ((a.fmt == 1) == (b.fmt == 1)) && p.fmtIn == a.fmt &&
            p.fmtOut == d.fmt && (d.fmt == 5 || (a.fmt == 1 && d.fmt == 6))) bad,
          need ([64, 128, 256, 512, 1024, 2048].contains seg && decide (p.vecCount * seg ≤ 4096)) bad,
          need (p.vecLen != 0 && dSize a 0 % p.vecLen == 0) bad,
          need (decide (p.vecCount * p.vecLen ≤ dCount b) && decide (dCount a / p.vecLen * p.vecCount ≤ dCount d)) stDescRange]
     | 0x11 => firstFail
         [need (decide (1 ≤ a.fmt ∧ a.fmt ≤ 5) && p.fmtIn == a.fmt && p.fmtOut == d.fmt && (d.fmt == 4 || d.fmt == 5) &&
            ((p.srcB.map (·.fmt)).getD 5 == 5)) bad,
          need (dCount a == dCount d) bad, need (sameUnit s true a d) bad,
          need (p.srcB.isNone || decide (dRows a ≤ dCount b)) stDescRange]
     | 0x12 => firstFail
         [need (decide (1 ≤ a.fmt ∧ a.fmt ≤ 5) && p.fmtIn == a.fmt && p.fmtOut == d.fmt && (d.fmt == 4 || d.fmt == 5) &&
            ((p.srcB.map (·.fmt)).getD 5 == 5)) bad,
          need (dCount d == dSize a 0) bad,
          need (p.srcB.isNone || decide (dRows a ≤ dCount b)) stDescRange]
     | 0x30 => atomicCheck p d b ix
     | 0x31 => atomicCheck p d b ix
     | 0x40 => firstFail
         [need (decide (1 ≤ p.vecCount ∧ p.vecCount ≤ 16)) bad, need (d.fmt == 5 && b.fmt == 5) bad,
          need (decide (dCount ix * p.vecCount * 256 ≤ dCount b)) stDescRange,
          need (decide (0 < dCount d) || dCount ix == 0) stDescRange]
     | 0x20 => gatherCheck p a d ix (dCount ix / p.vecLen) (p.vecLen != 0)
     | 0x21 => gatherCheck p a d ix (dCount sg - 1) true
     | _ => none]
where
  atomicCheck (p : FopParams) (d b ix : Desc) : Option Nat :=
    firstFail
      [need ((if p.sub = 4 then d.fmt == 6 else [4, 5, 6, 7].contains d.fmt) && b.fmt == d.fmt && p.fmtIn == d.fmt && p.fmtOut == d.fmt &&
         (p.op != 0x31 || (p.result.map (·.fmt)) == some 7)) stBadDescriptor,
       need (decide (dCount ix ≤ dCount b) && (p.op != 0x31 || decide (dCount ix ≤ dCount (p.result.getD default)))) stDescRange,
       need (decide (0 < dCount d) || dCount ix == 0) stDescRange]
  gatherCheck (p : FopParams) (a d ix : Desc) (outs : Nat) (lenOk : Bool) : Option Nat :=
    let item := itemSize a * fmtBits a.fmt / 8
    firstFail
      [need lenOk stBadDescriptor,
       need (p.fmtIn == a.fmt && p.fmtOut == d.fmt && decide (1 ≤ a.fmt ∧ a.fmt ≤ 6) &&
         (if a.fmt = 6 then d.fmt == 6 else d.fmt == 4 || d.fmt == 5)) stBadDescriptor,
       need ([64, 128, 256, 512, 1024, 2048, 4096].contains item) stBadDescriptor,
       need (itemCount a != 0 || dCount ix == 0) stDescRange,
       need (decide (outs * itemSize a ≤ dCount d)) stDescRange]

/-- The parameters of a FURROW packet (08 R194; 04 R76), descriptors resolved for the tenant. -/
def fopOfPacket (s : State) (t : Nat) (q : Packet) : FopParams :=
  usedOperands
    { op := bitsOf (pk q 0) 7 0, sub := bitsOf (pk q 0) 15 8, fmtIn := bitsOf (pk q 0) 19 16, fmtOut := bitsOf (pk q 0) 23 20,
      vecLen := bitsOf (pk q 0) 35 24, vecCount := bitsOf (pk q 0) 40 36,
      dst := liveDesc s t (lo32 (pk q 1)), srcA := liveDesc s t (hi32 (pk q 1)), srcB := liveDesc s t (lo32 (pk q 2)),
      index := liveDesc s t (hi32 (pk q 2)), segment := liveDesc s t (lo32 (pk q 3)), result := liveDesc s t (hi32 (pk q 3)),
      sc0 := BitVec.ofNat 64 (pk q 4), sc1 := BitVec.ofNat 64 (pk q 5),
      counter := if bitOf q.flags 0 then some q.counter else none, signalN := q.signalN }

/-! ### Bundles (07 R164 to R167) -/

/-- Bytes of an image as the headgate reads them: descriptor of space 2, RAW8, rank 1 (08 R195). Poisoned
blocks read as 0xFF and so fail the digest. -/
def imageBytes (s : State) (d : Desc) (len : Nat) : List Byte := (rdBytes d.space d.inst d.base len (Acc.start 1 s)).1.1

def manifestBinding (b : List Byte) (k : Nat) : Binding :=
  let o := 0x100 + 16 * k
  { space := fieldB b o 1, fmt := fieldB b (o + 1) 1, write := bitOf (fieldB b (o + 2) 1) 0, layout := bitsOf (fieldB b (o + 2) 1) 3 1,
    rank := fieldB b (o + 3) 1, elements := fieldB b (o + 8) 8 }

def bindingOk (b : List Byte) (k : Nat) : Bool :=
  let x := manifestBinding b k
  let o := 0x100 + 16 * k
  (x.space == 2 || x.space == 3) && decide (1 ≤ x.fmt ∧ x.fmt ≤ 9) && decide (x.layout ≤ 2) &&
  bitsOf (fieldB b (o + 2) 1) 7 4 == 0 && decide (1 ≤ x.rank ∧ x.rank ≤ 6) && fieldB b (o + 4) 4 == 0

def tileMapOk (b : List Byte) (tiles i : Nat) : Bool :=
  let w := fieldB b (0x40 + 2 * i) 2
  if i < tiles then
    bitOf w 15 && bitsOf w 7 5 == 0 && bitsOf w 14 12 == 0 && (decide (bitsOf w 11 8 ≤ 7) || bitsOf w 11 8 == 0xF)
  else w == 0

/-- Reserved fields and ranges of the manifest (07 R164, R165; check 4 of R166). -/
def manifestOk (b : List Byte) (supplied : Nat) : Bool :=
  let tiles := fieldB b 0x2E 1
  let len := fieldB b 0x28 4
  let nb := fieldB b 0x34 2
  len % 4096 == 0 && decide (0 < len ∧ len ≤ 2 ^ 28) && len == supplied && decide (1 ≤ tiles ∧ tiles ≤ 32) &&
  bitsOf (fieldB b 0x2F 1) 7 3 == 0 && decide (fieldB b 0x30 2 ≤ 4096) && decide (fieldB b 0x32 2 ≤ fieldB b 0x30 2) &&
  decide (nb ≤ 256) && fieldB b 0x36 2 == 0 && decide (fieldB b 0x38 4 ≤ 141000) && fieldB b 0x3C 4 % 65536 == 0 &&
  decide (fieldB b 0x3C 4 ≤ 2 ^ 27) && ((List.range 32).all fun i => tileMapOk b tiles i) && decide (fieldB b 0x80 4 ≤ 2 ^ 25) &&
  allZero (sliceB b 0x84 124) && ((List.range nb).all fun k => bindingOk b k)

/-- The digest of an image, its DIGEST field taken as zero (07 R164). -/
def imageDigest (b : List Byte) : List Byte := sha3 (b.take 8 ++ rep 32 0 ++ b.drop 0x28)

/-- The group ABI floor (13 R316): lowest ABI level of any joined peer and of this module, when in a group. -/
def groupAbi (s : State) : Option Nat :=
  if s.dpt.groups.isEmpty then none
  else some ((s.dpt.peers.map fun p => p.2.abi).foldl min s.cap.abi.toNat)

/-- The checks of 07 R166 in order, after the descriptor's shape (08 R195), then 13 R316. -/
def bundleLoadCheck (s : State) (d : Desc) : Option Nat :=
  let n := dCount d
  let b := imageBytes s d n
  let abi := fieldB b 6 2
  firstFail
    [need (d.space == 2 && d.fmt == 9 && d.rank == 1 && !d.write) stBadDescriptor,
     need (fieldB b 0 4 == 0x45504631 && fieldB b 4 2 == 1 && fieldB b 0x2C 2 == 0x0D32) stVersionMismatch,
     need (decide (1 ≤ abi)) stBadDescriptor, need (decide (abi ≤ s.cap.abi.toNat)) stAbiTooNew,
     need (manifestOk b n) stBadDescriptor,
     need (imageDigest b == sliceB b 8 32) stBadDescriptor,
     match groupAbi s with
     | some g => need (!(bitOf (fieldB b 0x2F 1) 1) || decide (abi ≤ g)) stAbiTooNew
     | none => none]

/-- The descriptor identifiers in a run's binding list (07 R165). -/
def bindingIds (s : State) (addr n : Nat) : List Nat := (List.range n).map fun k => leNat (hostRead s (addr + 4 * k) 4)

/-- The descriptors a run's binding list names. -/
def runBindings (s : State) (t addr n : Nat) : List (Option Desc) := (bindingIds s addr n).map (liveDesc s t)

def bindingMatches (x : Binding) (d : Option Desc) : Bool :=
  match d with
  | none => false
  | some d => d.space == x.space && d.fmt == x.fmt && d.layout == x.layout && d.rank == x.rank && d.write == x.write && dCount d == x.elements

/-- The checks of 07 R167, then 13 R316. -/
def bundleRunCheck (s : State) (t : Nat) (q : Packet) : Option Nat :=
  match bundleOf s t (pk q 0) with
  | none => some stBadDescriptor
  | some b =>
    let n := bitsOf (pk q 1) 24 16
    let ds := runBindings s t (pk q 2) n
    let pr := (getTen s t).profile
    firstFail
      [need (hostOk s t (pk q 2) (4 * n) || n == 0) stWindow,
       need (n == b.bindings.length) stBadDescriptor,
       need ((List.zipWith bindingMatches b.bindings ds).all id) stBadDescriptor,
       need (ds.all fun d => (d.map fun x => instUsable s x.space x.inst).getD true) stEngineAbsent,
       need (decide (bitsOf (pk q 1) 15 0 + b.counters ≤ pr.ctrCount)) stWindow,
       need (decide (b.basinBytes ≤ pr.runBasin ∧ b.scratchBytes ≤ pr.runScratch)) stWindow,
       match groupAbi s with
       | some g => need (!(bitOf b.flags 1) || decide (b.abi ≤ g)) stAbiTooNew
       | none => none]

/-! ### Serving, adapters, collectives -/

def rawRank1 (d : Desc) : Bool := d.fmt == 9 && d.rank == 1

/-- 11 R250, R257: directory shape, list format and count. -/
def pagesCheck (s : State) (t : Nat) (q : Packet) : Option Nat :=
  let dir := (liveDesc s t (lo32 (pk q 0))).getD default
  let lst := (liveDesc s t (hi32 (pk q 0))).getD default
  firstFail
    [need (dir.space == 2 && rawRank1 dir && lst.fmt == 6) stBadDescriptor,
     need (decide (pk q 1 ≤ dCount lst)) stDescRange,
     if q.opcode = 0x0403 then
       let fr := (liveDesc s t (lo32 (pk q 2))).getD default
       need (fr.fmt == 6 && fr.rank == 1) stBadDescriptor
     else none]

/-- 11 R262, R254, R268, R272. -/
def servingCheck (s : State) (t : Nat) (q : Packet) : Option Nat :=
  let seq := (liveDesc s t (lo32 (pk q 0))).getD default
  let b := (liveDesc s t (hi32 (pk q 0))).getD default
  let c := (liveDesc s t (lo32 (pk q 1))).getD default
  let shape := need (rawRank1 seq) stBadDescriptor
  match q.opcode with
  | 0x0404 =>
    let rows := bitsOf (pk q 1) 63 48
    firstFail [shape, need (b.fmt == 9 && b.rank == 2 && (c.fmt == 4 || c.fmt == 5) && c.rank == 2) stBadDescriptor,
      need (decide (rows ≤ dSize b 1 ∧ rows ≤ dSize c 1)) stDescRange]
  | 0x0405 =>
    let n := bitsOf (pk q 2) 15 8
    let rows := bitsOf (pk q 2) 31 16
    firstFail [shape, need (b.fmt == 9 && b.rank == 2 && rawRank1 c) stBadDescriptor,
      need (decide (32 * (n + 1) ≤ dSize b 0)) stBadDescriptor,
      need (decide (rows ≤ dSize b 1 ∧ 128 * rows ≤ dCount c)) stDescRange]
  | _ => shape

/-- The adapter slot lies in the tenant's range (11 R273, R274). -/
def slotOk (s : State) (t slot : Nat) : Bool :=
  let p := (getTen s t).profile
  decide (p.adBase ≤ slot ∧ slot < p.adBase + p.adCount)

/-- 11 R274. -/
def adapterLoadCheck (s : State) (t : Nat) (q : Packet) : Option Nat :=
  let src := (liveDesc s t (lo32 (pk q 0))).getD default
  let col := (liveDesc s t (hi32 (pk q 0))).getD default
  let slot := bitsOf (pk q 1) 13 0
  let r := bitsOf (pk q 1) 23 16
  let n := dCount col
  let k := dCount src / r - n
  firstFail
    [need (slotOk s t slot) stWindow,
     need ((tabGet? slot s.adapters).isNone &&
       !s.cmds.any fun c => c.pkt.opcode == 0x0407 && c.stage != .done && bitsOf (pk c.pkt 1) 13 0 == slot) stBadDescriptor,
     need (col.fmt == 5 && col.rank == 1 && decide (0 < n) && n % 512 == 0 && src.fmt == 4 && src.rank == 1 && src.space == 2 && src.write &&
       dCount src == r * (k + n) && decide (0 < k) && k % 512 == 0) stBadDescriptor]

/-- 13 R320. -/
def collectiveCheck (s : State) (t : Nat) (q : Packet) : Option Nat :=
  let a := (liveDesc s t (lo32 (pk q 0))).getD default
  let b := (liveDesc s t (hi32 (pk q 0))).getD default
  let kind := bitsOf (pk q 1) 3 0
  match tabGet? (bitsOf (pk q 1) 31 16) s.dpt.groups with
  | none => some stBadDescriptor
  | some g =>
    let p := g.members.length
    need (g.formed && [2, 3, 4].contains a.space && [2, 3, 4].contains b.space && a.layout == 0 && b.layout == 0 && a.fmt == b.fmt &&
      (decide (3 ≤ kind) || [4, 5, 6].contains a.fmt) &&
      (match kind with
       | 1 => dCount a == dCount b
       | 2 => dCount a == p * dCount b
       | 3 => dCount b == p * dCount a
       | _ => dCount a == dCount b && dCount a % p == 0)) stBadDescriptor

/-! ### Step 7 as a whole -/

def step7 (s : State) (t : Nat) (q : Packet) : Option Nat :=
  let d (id : Nat) : Desc := (liveDesc s t id).getD default
  firstFail
    [descGeneric s t q,
     match q.opcode with
     | 0x0101 => need (hostOk s t (pk q 0) 128) stWindow
     | 0x0102 => need (tenantThere s (pk q 1)) stBadDescriptor
     | 0x0107 => need (tenantThere s (pk q 1)) stBadDescriptor
     | 0x0108 => need (tenantThere s (pk q 1)) stBadDescriptor
     | 0x0103 => firstFail
         [need (hostOk s t (pk q 0) (64 * 2 ^ bitsOf (pk q 1) 11 8)) stWindow,
          need ((tabGet? (bitsOf (pk q 1) 3 0) (getFn s t).queues).isNone &&
            !s.cmds.any fun c => c.tenant == t && c.pkt.opcode == 0x0103 && bitsOf (pk c.pkt 1) 3 0 == bitsOf (pk q 1) 3 0) stBadDescriptor]
     | 0x0104 =>
       match tabGet? (pk q 1) (getFn s t).queues with
       | some x => need (!x.closing) stBadDescriptor
       | none => some stBadDescriptor
     | 0x0201 =>
       let w := pk q 1
       if bitOf w 17 then
         match allocOf s t (pk q 3) with
         | none => some stBadDescriptor
         | some (_, a, _) =>
           need (a.space == 2 && a.replicaOf.isNone && roundUp (pk q 0) 65536 == a.len &&
             (match a.pinned with
              | some k => bitOf w 12 && bitsOf w 15 13 != k
              | none => !(bitOf w 12))) stBadDescriptor
       else if bitsOf w 3 0 = 0 then need (hostOk s t (pk q 2) (pk q 0)) stWindow
       else none
     | 0x0202 =>
       match allocOf s t (pk q 0) with
       | some (_, _, true) => some stWindow
       | _ => none
     | 0x0203 => firstFail
         [need (hostOk s t (pk q 0) 64) stWindow, descCreateCheck s t (hostRead s (pk q 0) 64) (lo32 (pk q 2)) (pk q 1)]
     | 0x0205 => need ([2, 3, 4, 5].contains (d (lo32 (pk q 0))).space) stBadDescriptor
     | 0x0206 =>
       if bitOf (pk q 1) 24 then
         firstFail [need (bitsOf (pk q 1) 17 0 == 0 && lo32 (pk q 0) == hi32 (pk q 0)) stBadDescriptor, transposeCheck (d (lo32 (pk q 0)))]
       else copyCheck (d (lo32 (pk q 0))) (d (hi32 (pk q 0))) (bitsOf (pk q 1) 17 0)
     | 0x0207 =>
       let a := d (lo32 (pk q 0))
       let b := d (hi32 (pk q 0))
       let ix := d (lo32 (pk q 1))
       let scatter := bitOf (pk q 1) 32
       firstFail
         [need (ix.fmt == 6 && a.fmt == b.fmt && itemSize a == itemSize b) stBadDescriptor,
          need (decide (dCount ix ≤ itemCount (if scatter then a else b))) stDescRange,
          need (itemCount (if scatter then b else a) != 0 || dCount ix == 0) stDescRange]
     | 0x0210 => fopCheck s (fopOfPacket s t q)
     | 0x0301 => bundleLoadCheck s (d (lo32 (pk q 0)))
     | 0x0303 => bundleRunCheck s t q
     | 0x0401 => pagesCheck s t q
     | 0x0402 => pagesCheck s t q
     | 0x0403 => pagesCheck s t q
     | 0x0404 => servingCheck s t q
     | 0x0405 => servingCheck s t q
     | 0x0406 => servingCheck s t q
     | 0x0407 => adapterLoadCheck s t q
     | 0x0408 => need (slotOk s t (bitsOf (pk q 1) 13 0)) stWindow
     | 0x0601 => need (hostOk s t (pk q 1) 256) stWindow
     | 0x0602 => need (hostOk s t (pk q 1) (32 * pk q 2)) stWindow
     | 0x0605 => collectiveCheck s t q
     | 0x0702 => need (hostOk s t (pk q 1) (if bitsOf (pk q 0) 3 0 = 1 then 608 else 80)) stWindow
     | 0x0704 => need (hostOk s t (pk q 0) (pk q 1)) stWindow
     | 0x0707 => need (hostOk s t (pk q 1) 72) stWindow
     | 0x0708 => need (hostOk s t (pk q 0) 32 && hostOk s t (pk q 1) (pk q 2)) stWindow
     | _ => none]

/-! ### Steps 8 and 9 -/

/-- The stack that a descriptor's allocation is pinned to (01 R19). -/
def pinOf (s : State) (t id : Nat) : Option Nat :=
  match tabGet? id (getTen s t).descs with
  | some d => (tabGet? d.alloc s.allocs).bind (·.pinned)
  | none => none

/-- An allocation is not pinned to a stack that is unusable. -/
def pinUsable (s : State) (a : Option Alloc) : Bool := ((a.bind (·.pinned)).map (stackUsable s)).getD true

/-- The module admits class 0x07xx alone (15 R369). -/
def crippled (s : State) : Bool := s.cap.tileUsable == 0#32 || s.cap.stackUsable == 0#8 || !s.cap.pcie

/-- Every named engine present, usable and not suspended (01 R19, R20; 08 R200 step 8). -/
def step8 (s : State) (t : Nat) (q : Packet) : Option Nat :=
  let w := pk q 0
  let named : Bool :=
    match q.opcode with
    | 0x0201 => instUsable s (bitsOf (pk q 1) 3 0) (bitsOf (pk q 1) 8 4) &&
                (!(bitOf (pk q 1) 12) || stackUsable s (bitsOf (pk q 1) 15 13)) &&
                (!(bitOf (pk q 1) 17) || pinUsable s (tabGet? (pk q 3) s.allocs))
    | 0x0303 => (bindingIds s (pk q 2) (bitsOf (pk q 1) 24 16)).all fun i => ((pinOf s t i).map (stackUsable s)).getD true
    | 0x0406 => bitOf (pk q 1) 32 || s.cap.cxl
    | 0x0203 => pinUsable s ((allocOf s t (pk q 1)).map (·.2.1))
    | 0x0206 => let e := bitsOf (pk q 1) 39 32; e == 0xFF || sluiceUsable s e
    | 0x0601 => ethUsable s (bitsOf w 4 0)
    | 0x0701 => if bitsOf w 3 0 = 1 then tileUsable s (bitsOf w 12 8) else stackUsable s (bitsOf w 12 8)
    | 0x0702 => match bitsOf w 3 0 with
      | 1 => stackUsable s (bitsOf w 15 8)
      | 2 => s.cap.pcie
      | _ => ethUsable s (bitsOf w 15 8)
    | 0x0707 => stackUsable s (bitsOf w 2 0)
    | _ => true
  firstFail
    [need (q.opcode / 256 == 7 || !crippled s) stEngineAbsent,
     need (namesNoEngine q.opcode || (named && (descUses q).all fun u => ((pinOf s t u.id).map (stackUsable s)).getD true)) stEngineAbsent]

/-- Descriptors a command names, the bindings of a run included. -/
def namedDescs (s : State) (t : Nat) (q : Packet) : List Desc :=
  ((descUses q).filterMap fun u => liveDesc s t u.id) ++
  (if q.opcode = 0x0303 then (runBindings s t (pk q 2) (bitsOf (pk q 1) 24 16)).filterMap id else []) ++
  (if q.opcode = 0x0203 then [parseDesc (hostRead s (pk q 0) 64)] else [])

def step9 (s : State) (t : Nat) (q : Packet) : Option Nat :=
  need (!(namedDescs s t q).any fun d => coversShared s d) stSharedPoisoned

/-! ### The nine steps -/

def step4 (s : State) (t : Nat) (q : Packet) : Option Nat :=
  let n := (getTen s t).profile.ctrCount
  need (q.tenant == t && (!tenant0Only q.opcode || t == 0) && (!(q.opcode == 0x0201 && bitOf (pk q 1) 16) || t == 0) &&
    (!(bitOf q.flags 0) || decide (q.counter < n)) &&
    (!([0x0501, 0x0502, 0x0503, 0x0504].contains q.opcode) || decide (pk q 0 < n)) &&
    (!([0x0705, 0x0706].contains q.opcode) || (physCtr s (bitsOf (pk q 0) 5 0) (bitsOf (pk q 0) 31 16)).isSome)) stWindow

def masksOk (q : Packet) (m : List Nat) : Bool := (List.range 6).all fun k => pk q k &&& (allOnes - m.getD k 0) == 0

/-- The verdict on a packet of tenant `t`: the status and step of the first check that fails (08 R200). -/
def verdict (s : State) (t : Nat) (q : Packet) : Option (Nat × Nat) :=
  let at_ (n : Nat) (x : Option Nat) : Option (Nat × Nat) := x.map fun st => (st, n)
  match at_ 1 (need (q.tenantByte / 64 == 0 && q.flags / 8 == 0 && (bitOf q.flags 0 || (q.counter == 0 && q.signalN == 0))) stBadOpcode) with
  | some r => some r
  | none =>
    match assigned q.opcode with
    | none => some (stBadOpcode, 2)
    | some m =>
      if !masksOk q m then some (stBadOpcode, 3)
      else
        match at_ 4 (step4 s t q) with
        | some r => some r
        | none =>
          if !rangesOk s q then some (stBadDescriptor, 5)
          else
            match at_ 6 (firstFail ((handleUses q).map (handleCheck s t q.opcode))) with
            | some r => some r
            | none =>
              match at_ 7 (step7 s t q) with
              | some r => some r
              | none =>
                match at_ 8 (step8 s t q) with
                | some r => some r
                | none => at_ 9 (step9 s t q)

end Sys2Proof.Machine
end

