-- ==== Sys2Proof/Machine/Sched.lean ====
section
/-! DEFINITION. Deadlines (12 R290, R291), placement (R298, R299), the run areas (R284, R288), and the life
of a bundle run as shared operations: start, pause, frame, load, end, cancel (12 R292 to R297; 08 R191). -/

namespace Sys2Proof.Machine

/-! ### Deadlines -/

def noDeadline : Nat := 2 ^ 64 - 1

/-- A command's deadline (12 R290; 08 R189). -/
def deadlineOf (s : State) (c : Cmd) : Nat :=
  let t := getTen s c.tenant
  match (if c.pkt.group = 0 then none else tabGet? c.pkt.group t.deadlines) with
  | some d => d
  | none => if t.profile.slack = 0 then noDeadline else min (c.admitTime + t.profile.slack) noDeadline

/-- The rank of 12 R291 as one number: deadline, admission time, tenant, then admission order. -/
def rankOf (s : State) (c : Cmd) : Nat :=
  ((deadlineOf s c * 2 ^ 64 + c.admitTime) * 64 + c.tenant) * 2 ^ 64 + c.order

def runDeadline (s : State) (r : Nat) : Nat := ((getCmd? s r).map (deadlineOf s)).getD noDeadline
def runRank (s : State) (r : Nat) : Nat := ((getCmd? s r).map (rankOf s)).getD (2 ^ 256)

/-- Insertion by a key. -/
def insKey (key : Nat → Nat) (x : Nat) : List Nat → List Nat
  | [] => [x]
  | y :: t => if key x < key y then x :: y :: t else y :: insKey key x t

def sortKey (key : Nat → Nat) (l : List Nat) : List Nat := l.foldl (fun a x => insKey key x a) []

/-! ### Placement (12 R298, R299) -/

/-- The compute dies that adjoin a compute die (01 R8). -/
def adjDies (d : Nat) : List Nat := if d = 0 ∨ d = 3 then [1, 2] else [0, 3]

def tilesOfDie (d : Nat) : List Nat := (List.range 8).map fun i => 8 * d + i

def mapEntry (b : Bundle) (i : Nat) : Nat := b.tileMap.getD i 0
def mappedTile (b : Bundle) (i : Nat) : Nat := bitsOf (mapEntry b i) 4 0

/-- Tiles in the order in which R298 searches them for a logical tile. -/
def classOrder (b : Bundle) (i : Nat) : List Nat :=
  let d := dieOfTile (mappedTile b i)
  let aff := bitsOf (mapEntry b i) 11 8
  let dies := [d] ++ (if aff ≤ 7 then [dieOfStack aff] else []) ++ adjDies d ++ [0, 1, 2, 3]
  dies.eraseDups.flatMap tilesOfDie

def placed (p : Tab Nat) (t : Nat) : Nat := (p.filter fun e => e.2 == t).length

/-- The first tile of a list with the fewest logical tiles of the placement (12 R299). -/
def leastShared (p : Tab Nat) : List Nat → Option Nat
  | [] => none
  | t :: l =>
    match leastShared p l with
    | none => some t
    | some u => if placed p t ≤ placed p u then some t else some u

/-- One logical tile of the second pass. -/
def placeOne (ok : Nat → Bool) (b : Bundle) (p : Tab Nat) (i : Nat) : Tab Nat :=
  if (tabGet? i p).isSome then p
  else
    let l := (classOrder b i).filter ok
    match (l.find? fun t => placed p t == 0).or (leastShared p l) with
    | some t => tabPut i t p
    | none => p

/-- The two passes of R298; `kept` lists kept tiles, `ok` the tiles that may serve. None when no tile can. -/
def placeRun (ok : Nat → Bool) (b : Bundle) (kept : Tab Nat) : Option (Tab Nat) :=
  let p := (List.range b.tiles).foldl (placeOne ok b) (kept.filter fun e => decide (e.1 < b.tiles) && ok e.2)
  if p.length = b.tiles then some p else none

/-! ### Who holds a tile; the run areas -/

def bundleOfRun (s : State) (x : Run) : Bundle := (tabGet? x.bundle s.bundles).getD
  ⟨0, 0, [], 0, 0, 0, 0, 0, 0, 0, 0, [], [], default, false⟩

/-- A running run that has placed a logical tile on physical tile `t`. -/
def placedRun (s : State) (t : Nat) : Option Nat :=
  (s.runs.find? fun e => e.2.state == .running && e.2.place.any fun p => p.2 == t).map (·.1)

/-- The run that holds physical tile `t` (12 R292): the one on it, saved or not, else the one that has taken
it. -/
def holderOf (s : State) (t : Nat) : Option Nat := ((getTile s t).ctx.map (·.run)).or (placedRun s t)

/-- A tile that a run could take now. -/
def tileFree (s : State) (t : Nat) : Bool :=
  tileUsable s t && (holderOf s t).isNone && !(getTile s t).underTest

/-- A tile on which run `r` can start, now or once the run that is being paused there has saved it. -/
def tileComing (s : State) (t : Nat) : Bool :=
  tileUsable s t && !(getTile s t).underTest &&
  (match (getTile s t).ctx with
   | some c => ((getRun? s c.run).map (·.state)) == some .pausing && (placedRun s t).isNone
   | none => (placedRun s t).isNone)

/-- Cells of a zero-filled instance between two offsets, outside every live allocation (12 R284), by offset. -/
def areaCells (s : State) (space inst lo hi : Nat) : List (Nat × Byte) :=
  ((zMem s space).1.filter fun c => decide (zKey inst lo ≤ c.1 ∧ c.1 < zKey inst hi) && (allocAt s space inst (c.1 - zKey inst 0)).isNone).map
    fun c => (c.1 - zKey inst 0, c.2)

/-- Poisoned blocks of the same area, by byte offset. -/
def areaPoison (s : State) (space inst lo hi : Nat) : List Nat :=
  ((zMem s space).2.filter fun b => decide (zKey inst lo ≤ 64 * b ∧ 64 * b < zKey inst hi) && (allocAt s space inst (64 * b - zKey inst 0)).isNone).map
    fun b => 64 * b - zKey inst 0

/-- The area's contents replaced. -/
def setArea (space inst lo hi : Nat) (cells : List (Nat × Byte)) (poison : List Nat) (s : State) : State :=
  let z := zMem s space
  let inside (k : Nat) : Bool := decide (zKey inst lo ≤ k ∧ k < zKey inst hi) && (allocAt s space inst (k - zKey inst 0)).isNone
  let m := cells.foldl (fun m c => if inside (zKey inst c.1) then putZ (zKey inst c.1) c.2 m else m) (z.1.filter fun c => !inside c.1)
  let p := poison.foldl (fun l o => if inside (zKey inst o) then setIns (zKey inst o / 64) l else l) (z.2.filter fun b => !inside (64 * b))
  setZ space m p s

def scratchEnd : Nat := 2 ^ 25
def sdataRun : Nat := 0x30000
def basinEnd : Nat := 2 ^ 27

/-- A space and an offset as one frame key. -/
def frameKey (space off : Nat) : Nat := space * 2 ^ 60 + off

/-- What a tile frame holds of memory (12 R293): the scratchpad run area up to `n`, the run's SCRATCH_BYTES, and the
scalar data run area. -/
def tileAreaSave (s : State) (t n : Nat) : List (Nat × Byte) × List Nat :=
  ((areaCells s 4 t 0 n).map (fun c => (frameKey 4 c.1, c.2)) ++ (areaCells s 5 t 0 sdataRun).map (fun c => (frameKey 5 c.1, c.2)),
   (areaPoison s 4 t 0 n).map (frameKey 4) ++ (areaPoison s 5 t 0 sdataRun).map (frameKey 5))

def unKey (space : Nat) (k : Nat) : Option Nat := if k / 2 ^ 60 = space then some (k % 2 ^ 60) else none

def tileAreaLoad (t n : Nat) (cells : List (Nat × Byte)) (poison : List Nat) (s : State) : State :=
  let pick (sp : Nat) := cells.filterMap fun c => (unKey sp c.1).map fun o => (o, c.2)
  setArea 5 t 0 sdataRun (pick 5) (poison.filterMap (unKey 5)) (setArea 4 t 0 n (pick 4) (poison.filterMap (unKey 4)) s)

/-! ### The basin run area -/

/-- Busy intervals (base, length) of a die's basin: live allocations and the areas of runs that hold it,
leaving out the runs that `skip` names. -/
def basinBusy (s : State) (d : Nat) (skip : List Nat) : List (Nat × Nat) :=
  (s.allocs.filterMap fun e => if e.2.space = 3 ∧ e.2.inst = d then some (e.2.base, e.2.len) else none) ++
  (s.runs.filterMap fun e => if skip.contains e.1 then none else (tabGet? d e.2.basinAt).map fun a => (a, (bundleOfRun s e.2).basinBytes))

/-- The lowest base at which `len` bytes fit (any base that fits is the headgate's choice; log entry 16). -/
def firstFit (busy : List (Nat × Nat)) (limit len : Nat) : Option Nat :=
  let ends := sortKey id (0 :: busy.map fun b => b.1 + b.2)
  ends.find? fun a => decide (a + len ≤ limit) && busy.all fun b => decide (a + len ≤ b.1 ∨ b.1 + b.2 ≤ a ∨ b.2 = 0)

def diesOf (p : Tab Nat) : List Nat := (List.range 4).filter fun d => p.any fun e => dieOfTile e.2 == d

/-- Basin bytes that a tenant's runs other than `r` hold on a die (12 R283 RUN_BASIN), leaving out the runs that
`skip` names. -/
def tenantBasin (s : State) (t d r : Nat) (skip : List Nat) : Nat :=
  ((s.runs.filter fun e => e.2.tenant == t && e.1 != r && !skip.contains e.1 && (tabGet? d e.2.basinAt).isSome).map fun e => (bundleOfRun s e.2).basinBytes).sum

/-- Where run `r` would lie in a die's basin, were the runs in `skip` gone. -/
def basinPlace (s : State) (r : Nat) (x : Run) (skip : List Nat) (d : Nat) : Option Nat :=
  let n := (bundleOfRun s x).basinBytes
  if n = 0 then some 0
  else if tenantBasin s x.tenant d r skip + n ≤ (getTen s x.tenant).profile.runBasin then firstFit (basinBusy s d skip) basinEnd n else none

/-- Every die's place, when all fit. -/
def basinPlaces (s : State) (r : Nat) (x : Run) (skip : List Nat) : List Nat → Option (Tab Nat)
  | [] => some []
  | d :: t =>
    match basinPlace s r x skip d, basinPlaces s r x skip t with
    | some a, some l => some ((d, a) :: l)
    | _, _ => none

/-! ### Tiles at a boundary -/

/-- A tile left by its logical tile. -/
def clearTile (t : Nat) (s : State) : State :=
  modTile t (fun x => { x with ctx := none, phase := .idle, v := [], ev := [], qMain := [], qLateral := [], qChannel := [], qLoad := [],
                               qStore := [], outbound := [], committing := false, lastStep := false, lats := [], trace := none, statsPend := [], qPend := [],
                               poisoned := false, stepAclk := 0, waiting := none }) s

def freeFrames (s : State) (t r : Nat) : Nat :=
  32 - ((s.runs.filter fun e => e.2.tenant == t && e.1 != r).map fun e =>
    if e.2.state = .pausing ∨ e.2.state = .paused then (bundleOfRun s e.2).tiles else e.2.frames.length).sum

/-- A switch between logical tiles that share a tile is counted (12 R299, R301). -/
def countShared (tenant : Nat) (s : State) : State := modFn tenant (fun f => { f with switches := f.switches + 1 }) s

/-- A pause or a resume is counted in the tenant's function (12 R301). -/
def countSwitch (tenant since : Nat) (s : State) : State :=
  modFn tenant (fun f => { f with switches := f.switches + 1,
                                  switchMax := if f.switchMax.toNat < now s - since then BitVec.ofNat 32 (min (now s - since) (2 ^ 32 - 1)) else f.switchMax }) s

/-- Run `r` holds tiles, or still saves them. -/
def holdsTiles (s : State) (r : Nat) : Bool :=
  match getRun? s r with
  | some x => x.state == .running || x.state == .pausing
  | none => false

/-- A TENANT_PAUSE waits for the runs that held tiles at its execution, its targets; it completes when the last of them
has left its last tile (12 R296). -/
def pauseDone (t : Nat) (s : State) : State :=
  forEach (fun h u =>
    match getCmd? u h with
    | some c =>
      let left := c.targets.filter (holdsTiles u)
      let u1 := modCmd h (fun x => { x with targets := left }) u
      if left.isEmpty then finishCmd h [] (now u) u1 else u1
    | none => u)
    ((s.cmds.filter fun c => c.pkt.opcode == 0x0107 && c.stage == .running && pk c.pkt 1 == t).map (·.handle)) s

/-- The basin frames of a run are written (12 R293). -/
def saveBasins (r : Nat) (s : State) : State :=
  match getRun? s r with
  | none => s
  | some x =>
    let n := (bundleOfRun s x).basinBytes
    forEach (fun (e : Nat × Nat) => modRun r fun y =>
      { y with frameBytes := tabPut (32 + e.1) ((areaCells s 3 e.1 e.2 (e.2 + n)).map fun c => (c.1 - e.2, c.2)) y.frameBytes,
               framePoison := tabPut (32 + e.1) ((areaPoison s 3 e.1 e.2 (e.2 + n)).map fun o => o - e.2) y.framePoison }) x.basinAt
      s |> modRun r fun y => { y with basinAt := [] }

/-- A run that is being paused has no tile left: it is paused (12 R293). -/
def checkPaused (r : Nat) (s : State) : State :=
  match getRun? s r with
  | none => s
  | some x =>
    if x.state = .pausing ∧ !(List.range 32).any (fun t => ((getTile s t).ctx.map (·.run)) == some r) ∧ !x.frames.any (fun f => f.2.reissue) then
      pauseDone x.tenant (countSwitch x.tenant x.decidedAt (modRun r (fun y => { y with state := .paused }) (saveBasins r s)))
    else s

/-- A code overlay that the last commit left in flight is part of the boundary state (07 R159). -/
def withOverlay (x : Tile) (c : Ctx) : Ctx :=
  match x.qLoad with
  | (.overlay n, _) :: _ => if x.phase = .body then c else { c with overlays := c.overlays ++ [n] }
  | _ => c

/-- The frame of the logical tile on `t` is written and the tile is free (12 R293). -/
def saveFrame (t : Nat) (s : State) : State :=
  match (getTile s t).ctx.map (withOverlay (getTile s t)) with
  | none => s
  | some c =>
    let m := tileAreaSave s t (((getRun? s c.run).map fun x => (bundleOfRun s x).scratchBytes).getD 0)
    clearTile t (modRun c.run (fun y => { y with frames := tabPut c.logical c y.frames,
                                                 frameBytes := tabPut c.logical m.1 y.frameBytes, framePoison := tabPut c.logical m.2 y.framePoison }) s)

/-- A wait that a tile of run `r` has registered. -/
def waitOfRun (s : State) (r : Nat) (w : Wait) : Bool :=
  match w.owner with
  | .tile t => ((getTile s t).ctx.map (·.run)) == some r
  | .cmd _ => false

/-- A run is paused as a whole (12 R293; 09 R215): tiles in a step head stop at once and begin to save, tiles inside
a step finish it first; a tile whose logical tile has ended is free. -/
def pauseRun (r : Nat) (s : State) : State :=
  match getRun? s r with
  | none => s
  | some x =>
    if x.state ≠ .running then s
    else
      let s1 := modRun r (fun y => { y with state := .pausing, decidedAt := now s, resuming := false }) s
      let s2 := forEach (fun t u =>
        if ((getTile u t).ctx.map (·.run)) = some r then
          match (getTile u t).phase with
          | .head => modTile t (fun y => { y with phase := .saving }) u
          | .stopped => clearTile t u
          | _ => u
        else u) (List.range 32) s1
      checkPaused r (withdrawAll (waitOfRun s2 r) s2)

/-! ### The end of a run -/

/-- The run is over (12 R297; 15 R363): waits withdrawn, tiles and frames freed. Its BUNDLE_RUN completes
once every released effect has landed (07 R167). -/
def endRun (r : Nat) (outs : List Nat) (s : State) : State :=
  match getRun? s r with
  | none => s
  | some x =>
    if x.state = .ended then s
    else
      pauseDone x.tenant (forEach (fun t u => if ((getTile u t).ctx.map (·.run)) = some r then clearTile t u else u)
        (List.range 32)
        (withdrawAll (waitOfRun s r)
          (modRun r (fun y => { y with state := .ended, outcomes := addOutcomes outs y.outcomes, frames := [], frameBytes := [],
                                       framePoison := [], basinAt := [] }) s)))

/-- Some slice works on furrow operation `id`. -/
def fopSliced (s : State) (id : Nat) : Bool := s.stks.any fun e => e.2.slices.any fun x => x.id == id

/-- A furrow operation that is computed or stopped, with no slice left, is over (04 R78, R94, R101, R102): a
Brodat command gets its outcomes, a tile's operation signals its counter, or ends its run where it failed. -/
def settleFop (id : Nat) (s : State) : State :=
  match getFop? s id with
  | none => s
  | some o =>
    if (o.computed || o.stopped) && !fopSliced s id then
      let s1 := { s with fops := tabDel id s.fops }
      match o.source with
      | some h => finishCmd h o.outcomes o.refused s1
      | none =>
        if o.outcomes.contains stDeviceFault ∨ o.outcomes.contains stSharedPoisoned then
          match o.run with
          | some r => endRun r (o.outcomes.filter fun x => x == stDeviceFault || x == stSharedPoisoned) s1
          | none => s1
        else
          match o.params.counter with
          | some k => signalCtr o.tenant k o.params.signalN s1
          | none => s1
    else s

/-- The destinations of a furrow operation that stops part of the way are unpredictable (04 R94; 08 R198). -/
def scrambleFop (i : Nat) (s : State) : State :=
  match getFop? s i with
  | some o => if o.computed || o.stopped then s else forEach scramble (o.params.dst.toList ++ o.params.result.toList) s
  | none => s

/-- Furrow operations that satisfy `p` start no further slice and end with an outcome (04 R94, R102). -/
def stopFops (p : FurrowOp → Bool) (outcome : Nat) (s : State) : State :=
  let ids := tabKeys p s.fops
  forEach settleFop ids
    (forEach (fun i => modFop i fun o => { o with stopped := true, outcomes := addOutcomes [outcome] o.outcomes }) ids (forEach scrambleFop ids s))

/-- Some tile of the run is inside a step. -/
def runInBody (s : State) (r : Nat) : Bool :=
  (List.range 32).any fun t => ((getTile s t).ctx.map (·.run)) == some r && (getTile s t).phase == .body

/-- CMD_CANCEL of a run (08 R191; 12 R297; 15 R375): every tile stops at its next step boundary, a
recomputation at once; nothing queued is released. -/
def cancelRun (r : Nat) (s : State) : State :=
  match getRun? s r with
  | none => s
  | some x =>
    if x.state = .ended then s
    else
      let s1 := forEach (fun t u =>
        match (getTile u t).ctx with
        | some c => if c.run = r ∧ ((getTile u t).phase ≠ .body ∨ 0 < c.attempt ∨ 0 < c.moved) then clearTile t u else u
        | none => u) (List.range 32) (withdrawAll (waitOfRun s r) (modRun r (fun y => { y with cancelled := true }) s))
      if runInBody s1 r then s1 else endRun r [stCancelled] s1

/-! ### Loading a logical tile onto a tile -/

/-- A head wait arrives at the counter store for a tile; on a broken counter the run ends (09 R218). -/
def registerHead (t : Nat) (c : Ctx) (w : Nat × Bool × Nat) (s : State) : State :=
  if s.ctrs.broken.contains w.1 then endRun c.run [stDeviceFault] s
  else
    arriveWait ⟨w.1, w.2.1, w.2.2, .tile t⟩
      (modTile t (fun x => { x with ctx := x.ctx.map fun y => { y with headWait := some w } }) s)

/-- What the headgate puts into instruction memory for a context: the code of its logical tile from the bundle image,
with the overlays brought in so far (07 R149, R159; 12 R293). -/
def codeOf (s : State) (c : Ctx) : Code :=
  ⟨((getRun? s c.run).map fun x => (bundleOfRun s x).digest).getD [], c.logical, c.overlays⟩

/-- Word `i` of a tile's instruction memory; zero where nothing has filled it (05 R451). -/
def imemWord (s : State) (t i : Nat) : W32 :=
  match (getTile s t).imem with
  | some k => Config.codeWord k.digest k.logical k.overlays i
  | none => 0

/-- Logical tile `i` of run `r` goes onto tile `t` from its frame: memory, code, registers, turnout table; its
saved head wait arrives anew (12 R295; 09 R215); a moved step starts its body again (15 R363). -/
def loadCtx (r i t : Nat) (s : State) : State :=
  match getRun? s r with
  | none => s
  | some x =>
    match tabGet? i x.frames with
    | none => s
    | some c =>
      let c' : Ctx := { c with turnout := x.place, reissue := false, home := if c.home = some t then none else c.home }
      let again := c.reissue && decide (1 ≤ c.moved ∧ c.moved ≤ 3)
      let s1 := modRun r (fun y => { y with frames := tabDel i y.frames, frameBytes := tabDel i y.frameBytes,
                                            framePoison := tabDel i y.framePoison }) (clearTile t s)
      let s2 := match tabGet? i x.frameBytes with
        | some b => tileAreaLoad t (bundleOfRun s x).scratchBytes b (tabGetD [] i x.framePoison) s1
        | none => s1
      let s3 := modTile t (fun y => { y with ctx := some c', imem := some (codeOf s c), phase := if c.reissue then .body else .head,
                                             snapG := c.g, snapPc := c.pc, snapGroups := (y.groupMain, y.groupIn, y.groupOut),
                                             snapBanks := ((c.bankA.fp32, c.bankA.drained), (c.bankB.fp32, c.bankB.drained)),
                                             stepRecomputed := y.stepRecomputed + (if again then 1 else 0) }) s2
      match c.headWait with
      | some w => if c.reissue then s3 else registerHead t c' w s3
      | none => s3

/-- The logical tiles of a running run that wait for tile `t` go on when it is free (12 R299). -/
def nextOnTile (x : Run) (t after : Nat) : Option Nat :=
  let l := x.frames.filterMap fun e =>
    if tabGetD 32 e.1 x.place = t ∧ (x.state = .running ∨ (x.state = .pausing ∧ e.2.reissue = true)) then some e.1 else none
  (l.find? fun i => decide (after < i)).or l.head?

/-- Every running run with a frame whose tile is free gets it loaded, in the order of R291; of a run that is
being paused, a step that moved goes on first (15 R375). -/
def fillTiles (s : State) : State :=
  forEach (fun r u =>
    forEach (fun t v =>
      match getRun? v r with
      | some x =>
        if (getTile v t).ctx.isNone ∧ !(getTile v t).underTest ∧ tileUsable v t then
          match nextOnTile x t 32 with
          | some i => loadCtx r i t v
          | none => v
        else v
      | none => v) (List.range 32) u)
    (sortKey (runRank s) ((s.runs.filter fun e => e.2.state == .running || e.2.state == .pausing).map (·.1))) s

/-! ### Starting and resuming -/

/-- A logical tile before its first step; its general registers read zero (log entry 1). -/
def freshCtx (r i : Nat) (place : Tab Nat) : Ctx :=
  ⟨r, i, [], 0, [], ⟨false, true, []⟩, ⟨false, true, []⟩, 0, 0, none, place, false, 0, 0, 32, none, none⟩

/-- The adapter slots that a run's slot table names, entry by entry (11 R276): the first INT32 binding of
256 elements (log entry 17). None when a used entry is outside the tenant's range or not resident. -/
def resolveAdapters (s : State) (x : Run) : Option (List RunAdapter) :=
  let b := bundleOfRun s x
  if bitOf b.flags 2 then
    match x.bindings.find? fun d => d.fmt == 6 && dCount d == 256 with
    | none => some []
    | some d =>
      let es := (rdEls d 256 0 (Acc.start 1 s)).1.zipIdx.filter fun e => e.1.1 != 2 ^ 32 - 1
      if es.all fun e => slotOk s x.tenant e.1.1 && (((tabGet? e.1.1 s.adapters).map fun a => a.ready && a.tenant == x.tenant).getD false) then
        some (es.filterMap fun e => (tabGet? e.1.1 s.adapters).map fun a =>
          ⟨e.2, e.1.1, ((tabGet? a.source (getTen s a.tenant).descs).map (·.desc)).getD default, a.rank, a.k, a.n⟩)
      else none
  else some []

/-- A waiting run takes its tiles and starts (12 R292; 09 R214; 11 R276). -/
def startRun (r : Nat) (place basin : Tab Nat) (s : State) : State :=
  match getRun? s r with
  | none => s
  | some x =>
    match resolveAdapters s x with
    | none => endRun r [stWindow] s
    | some ads =>
      let b := bundleOfRun s x
      let slots := (List.range b.counters).filter fun k => decide (b.external ≤ k)
      let bases := slots.filterMap fun k => (physCtr s x.tenant (x.ctrBase + k)).map fun c => (k, ctrVal s c)
      fillTiles (modRun r (fun y => { y with state := .running, place := place, basinAt := basin, bases := bases, adapters := ads,
                                             frames := (List.range b.tiles).map fun i => (i, freshCtx r i place) }) s)

/-- The tiles that run `r` would take now: a kept tile is its mapped tile at a start, at a resume the
tile it last ran on, when usable and free (12 R295, R298). -/
def wantPlace (s : State) (r : Nat) (x : Run) : Option (Tab Nat) :=
  let b := bundleOfRun s x
  let kept : Tab Nat :=
    if x.state = .waiting then (List.range b.tiles).map fun i => (i, mappedTile b i)
    else x.place.filter fun e => (match holderOf s e.2 with | none => true | some y => y == r)
  placeRun (tileUsable s) b kept

/-- Whether `x` may pause `y` (12 R292). -/
def mayPause (s : State) (x y : Nat) : Bool :=
  runDeadline s x != noDeadline && decide (runDeadline s x + s.margin.toNat < runDeadline s y)

/-- Runs that hold basin area on a die and that `r` may pause, latest deadline first. -/
def basinVictims (s : State) (r d : Nat) : List Nat :=
  (sortKey (runRank s) ((s.runs.filter fun e => e.1 != r && (tabGet? d e.2.basinAt).isSome && e.2.state == .running && mayPause s r e.1).map (·.1))).reverse

/-- The fewest of them, in that order, whose going makes room. -/
def basinSkip (s : State) (r : Nat) (x : Run) (d : Nat) (done : List Nat) : List Nat → List Nat
  | [] => if (basinPlace s r x done d).isSome then done else []
  | v :: t => if (basinPlace s r x done d).isSome then done else basinSkip s r x d (done ++ [v]) t

/-- One run's turn in the order of R291: it pauses later runs when the margin allows, starts (or is decided to resume,
which RUN_RESUME does) when everything it needs is free or is being freed for it, and otherwise waits; its tiles are
promised to it. -/
def tryRun (r : Nat) (a : State × List Nat) : State × List Nat :=
  match getRun? a.1 r with
  | none => a
  | some x =>
    let s := a.1
    if x.state = .waiting ∧ freeFrames s x.tenant r < (bundleOfRun s x).tiles then a
    else
      match wantPlace s r x with
      | none => (endRun r [stDeviceFault] s, a.2)
      | some p =>
        let need := (p.map (·.2)).eraseDups
        let owners := (need.filterMap (holderOf s)).eraseDups.filter (· != r)
        let claims := a.2 ++ need
        if need.any a.2.contains then (s, claims)
        else
          match basinPlaces s r x [] (diesOf p) with
          | some bs =>
            let s1 := forEach (fun y => whenS (mayPause s r y) (pauseRun y)) owners s
            ((if x.state = .waiting ∧ need.all (tileComing s1) then startRun r p bs s1
              else if x.state = .paused ∧ x.resuming = false ∧ need.all (tileComing s1) then
                modRun r (fun y => { y with resuming := true, decidedAt := now s }) s1
              else s1), claims)
          | none =>
            let vs := ((diesOf p).flatMap fun d => basinSkip s r x d [] (basinVictims s r d)).eraseDups
            (forEach (fun y => whenS (mayPause s r y) (pauseRun y)) (owners ++ vs).eraseDups s, claims)

/-- Runs that may be given tiles now. -/
def candidates (s : State) : List Nat :=
  sortKey (runRank s) ((s.runs.filter fun e =>
    (e.2.state == .waiting || e.2.state == .paused) && !e.2.cancelled && !(getTen s e.2.tenant).held).map (·.1))

/-- A scheduling decision (12 R291, R292); none is made outside Run and Trim (17 R397, R398). -/
def schedule (s : State) : State :=
  if powerEff s = .run ∨ powerEff s = .trim then ((candidates s).foldl (fun a r => tryRun r a) (s, [])).1 else s

/-- The tiles promised to earlier-ranked candidates than `r`. -/
def claimedBefore (s : State) (r : Nat) : List Nat :=
  ((candidates s).takeWhile (· != r)).flatMap fun q =>
    match getRun? s q with
    | some x => if x.state = .waiting ∧ freeFrames s x.tenant q < (bundleOfRun s x).tiles then []
                else ((wantPlace s q x).getD []).map (·.2)
    | none => []

/-! ### Cancelling a command (08 R191) -/

/-- R191 cancels every live command, but never a TENANT_DESTROY that has started. -/
def cancellable (c : Cmd) : Bool := c.pkt.opcode != 0x0102 || c.stage == .admitted

/-- The destinations of a copy or fill that stops while it runs are unpredictable (08 R191, R198). -/
def scrambleDests (c : Cmd) (s : State) : State :=
  if c.stage = .running ∧ (c.pkt.opcode = 0x0205 ∨ c.pkt.opcode = 0x0206 ∨ c.pkt.opcode = 0x0207) then
    forEach scramble (((descUses c.pkt).filter (·.dest)).filterMap fun u => (tabGet? u.id (getTen s c.tenant).descs).map (·.desc)) s
  else s

/-- A peer copy or collective of the command goes no further (08 R191). -/
def dropPeerWork (h : Nat) (s : State) : State :=
  modDpt (fun d => { d with remotes := d.remotes.filter (fun r => r.handle != h), colls := d.colls.filter (fun k => k.handle != h),
                            peers := tabMap (fun _ p => { p with txq := p.txq.filter fun x => x.handle != h }) d.peers }) s

/-- One command is cancelled (08 R191; 04 R94; 09 R216). One that has executed and has no record yet is live and ends
with ST_CANCELLED too (08 R189), a tenant just made is gone again; a CMD_CANCEL waits no longer for the commands that it cancelled. What an object's
creation or destruction leaves behind is the completion's (Machine/Complete.lean). -/
def cancelCmd (h : Nat) (s : State) : State :=
  match getCmd? s h with
  | none => s
  | some c =>
    if !cancellable c then s
    else if c.pkt.opcode = 0x0101 ∧ c.stage = .done ∧ c.outcomes = [] then
      modCmd h (fun x => { x with outcomes := addOutcomes [stCancelled] x.outcomes }) { s with tenants := tabDel (pk c.pkt 1) s.tenants }
    else if c.stage = .done then modCmd h (fun x => { x with targets := [], outcomes := addOutcomes [stCancelled] x.outcomes }) s
    else if c.stage = .admitted then finishCmd h [stCancelled] 0 (modCmd h (fun x => { x with targets := [] }) s)
    else if s.fops.any fun e => e.2.source == some h then stopFops (fun o => o.source == some h) stCancelled s
    else
      match c.pkt.opcode with
      | 0x0303 => if (getRun? s h).isSome then noteOutcome h stCancelled (cancelRun h s) else finishCmd h [stCancelled] 0 s
      | 0x0502 => finishCmd h [stCancelled] 0 (withdraw (.cmd h) s)
      | 0x0503 => finishCmd h [stCancelled] 0 (withdraw (.cmd h) s)
      | 0x0701 => noteOutcome h stCancelled s
      | 0x0210 => finishCmd h [stCancelled] 0 s
      | _ => finishCmd h [stCancelled] 0 (modCmd h (fun x => { x with targets := [] }) (dropPeerWork h (scrambleDests c s)))

end Sys2Proof.Machine
end

