-- ==== Sys2Proof/Machine/Retire.lean ====
section
/-! DEFINITION. Faults of units and what follows: fault events and suspicion (15 R365, R366), retirement
(15 R369; 01 R22), the loss of a tile and of a stack (12 R298; 10 R224; 04 R102), and a failed step on a
tile: reissue, move, end (15 R361 to R363; 07 R157, R161). -/

namespace Sys2Proof.Machine

/-- The bundle digest of a run (15 R372). -/
def runDigest (s : State) (r : Nat) : List Byte :=
  match getRun? s r with
  | some x => (bundleOfRun s x).digest
  | none => []

def runTenant (s : State) (r : Nat) : Nat := ((getRun? s r).map (·.tenant)).getD 0xFF

/-! ### Furrow units that can serve (04 R102) -/

/-- A furrow unit that is usable and not suspended. -/
def furrowServes (s : State) (b : Nat) : Bool := furrowUsable s b && !hasBit s.cap.furrowSusp b

/-- The unit is under the present round of its stack's self-test: eight rounds of 4.985 ms, each over the pairs of one
residue modulo 8 (16 R383); they follow DEV_TIME and go on until SELFTEST_COMPLETE (log entry 43). -/
def underRound (s : State) (b : Nat) : Bool :=
  s.test.running.any fun x => x.unit == .stack (b / 512) && (now s - x.since) / 4685900 % 8 == b % 8

/-- A furrow unit that may compute for a pair now (04 R102). -/
def furrowFree (s : State) (b : Nat) : Bool := furrowServes s b && !underRound s b

/-- Stacks that hold a block of a descriptor. -/
def descStacks (s : State) (d : Desc) : List Nat :=
  if d.space = 2 then (((dBlocks d).filterMap (physBlk s)).map stackOfBlk).eraseDups else []

/-- Stacks that hold an operand row or an item of a furrow operation (04 R78). -/
def fopStacks (s : State) (p : FopParams) : List Nat :=
  let rowDst := [0x01, 0x02, 0x03, 0x11, 0x30, 0x31, 0x40].contains p.op
  ((p.srcA.map (descStacks s)).getD [] ++ (if rowDst then (p.dst.map (descStacks s)).getD [] else [])).eraseDups

/-- The operation carries out a FILL (10 R231). -/
def isFill (s : State) (o : FurrowOp) : Bool :=
  match o.source.bind (getCmd? s) with
  | some c => c.pkt.opcode == 0x0205
  | none => false

/-- Furrow operations with work in a stack end with ST_DEVICE_FAULT (04 R102; 10 R224). -/
def failFops (k : Nat) (s : State) : State := stopFops (fun o => (fopStacks s o.params).contains k) stDeviceFault s

/-- Those of them that no sluice engine can carry out instead (04 R102). -/
def failUnserved (k : Nat) (s : State) : State :=
  stopFops (fun o => (fopStacks s o.params).contains k && !isFill s o) stDeviceFault s

/-- The stack enters or leaves the condition that no furrow unit of it can serve (04 R102). -/
def checkNoFurrow (k : Nat) (s : State) : State :=
  if (List.range 512).any fun i => furrowServes s (512 * k + i) then modStk k (fun x => { x with noFurrow := false }) s
  else if (getStk s k).noFurrow then s
  else failUnserved k (henuaEvent 0x03 2 [k] (modStk k (fun x => { x with noFurrow := true }) s))

/-! ### Commands that name a lost engine (01 R22) -/

/-- The status of a live command that names an engine which is not usable any more, if it does. Of a basin that no
tile's loss leaves usable the rule names no status: the model gives ST_DEVICE_FAULT (DESIGN CHOICE, log entry 25). -/
def lostStatus (s : State) (c : Cmd) : Option Nat :=
  if namesNoEngine c.pkt.opcode ∨ c.pkt.opcode / 256 = 7 then none
  else
    let q := c.pkt
    let w := pk q 0
    let ds := (descUses q).filterMap (fun u => (tabGet? u.id (getTen s c.tenant).descs).map fun d => (d.desc, (tabGet? d.alloc s.allocs).bind (·.pinned))) ++
      (c.desc.map fun d => (d, (tabGet? (pk q 1) s.allocs).bind (·.pinned))).toList ++
      c.binds.map fun b => (b.2, (tabGet? b.1 (getTen s c.tenant).descs).bind fun d => (tabGet? d.alloc s.allocs).bind (·.pinned))
    let tileGone := ds.any fun d => decide (4 ≤ d.1.space) && !instUsable s d.1.space d.1.inst
    let other := ds.any fun d => (decide (d.1.space < 4) && !instUsable s d.1.space d.1.inst) || !((d.2.map (stackUsable s)).getD true)
    let param : Option Nat :=
      match q.opcode with
      | 0x0201 =>
        if !instUsable s (bitsOf (pk q 1) 3 0) (bitsOf (pk q 1) 8 4) then (if 4 ≤ bitsOf (pk q 1) 3 0 then some stTileLost else some stDeviceFault)
        else if bitOf (pk q 1) 12 ∧ !stackUsable s (bitsOf (pk q 1) 15 13) then some stDeviceFault
        else if bitOf (pk q 1) 17 ∧ !pinUsable s (tabGet? (pk q 3) s.allocs) then some stDeviceFault else none
      | 0x0406 => if bitOf (pk q 1) 32 ∨ s.cap.cxl = true then none else some stDeviceFault
      | 0x0206 => let e := bitsOf (pk q 1) 39 32; if e = 0xFF ∨ sluiceUsable s e then none else some stDeviceFault
      | 0x0601 => if ethUsable s (bitsOf w 4 0) then none else some stDeviceFault
      | _ => none
    if other then some stDeviceFault else if tileGone then some stTileLost else param

/-- Every live command that names an engine lost just now ends (01 R22): discarded, or with what it has
written left in place. -/
def dropLost (s : State) : State :=
  forEach (fun h u =>
    match getCmd? u h with
    | some c =>
      match lostStatus s c with
      | some st =>
        if c.pkt.opcode = 0x0303 ∧ (getRun? u h).isSome then endRun h [st] u
        else if u.fops.any fun e => e.2.source == some h then stopFops (fun o => o.source == some h) st u
        else finishCmd h [st] 0 (modCmd h (fun x => { x with targets := [] }) (dropPeerWork h (scrambleDests c u)))
      | none => u
    | none => u) ((s.cmds.filter fun c => c.stage != .done).map (·.handle)) s

/-! ### Moving logical tiles (12 R298; 15 R363, R366) -/

/-- The tile that R298 would choose for logical tile `i`, tile `t` taken as unusable. -/
def substituteTile (s : State) (x : Run) (i t : Nat) : Option Nat :=
  tabGet? i (placeOne (fun u => tileUsable s u && u != t && !(getTile s u).underTest) (bundleOfRun s x) (tabDel i x.place) i)

/-- Run `r` claims tile `u`: a later run that holds it is paused under R292, or `r` waits. -/
def claimTile (r u : Nat) (s : State) : State :=
  match (getTile s u).ctx with
  | some c => if c.run ≠ r ∧ mayPause s r c.run then pauseRun c.run s else s
  | none => s

/-- The context at the boundary of the step that tile `t` is inside, to be run again elsewhere. -/
def boundaryCtx (x : Tile) (c : Ctx) : Ctx :=
  { c with g := x.snapG, pc := x.snapPc,
           bankA := { c.bankA with fp32 := x.snapBanks.1.1, drained := x.snapBanks.1.2 },
           bankB := { c.bankB with fp32 := x.snapBanks.2.1, drained := x.snapBanks.2.2 } }

/-- The logical tile on `t` leaves it as a frame, changed by `mk`, for tile `u`. -/
def moveLogical (t u : Nat) (mk : Ctx → Ctx) (s : State) : State :=
  match (getTile s t).ctx with
  | none => s
  | some c =>
    fillTiles (claimTile c.run u (modRun c.run (fun y => { y with place := tabPut c.logical u y.place })
      (saveFrame t (withdraw (.tile t) (modTile t (fun y => { y with ctx := some (mk c) }) s)))))

/-! ### Suspects -/

/-- A unit becomes or stays suspect (15 R366): the capability table changes where it shows the state. -/
def markSuspect (u : UnitRef) (s : State) : State :=
  match u with
  | .tile t => if hasBit s.cap.tileSuspect t then s else capChange 1 (suspectCap u) s
  | .sluice e => if hasBit s.cap.sluiceSusp e then s else capChange 1 (suspectCap u) s
  | .furrow b => checkNoFurrow (b / 512) { s with cap := suspectCap u s.cap }
  | _ => s

/-- A logic self-test is abandoned (16 R392): its SELFTEST ends with ST_DEVICE_FAULT. -/
def abandonTest (u : UnitRef) (s : State) : State :=
  let hs := (s.test.running.filter fun x => x.unit == u).flatMap (·.cmds)
  let s1 := forEach (fun h => finishCmd h [stDeviceFault] 0) hs
    (modTest (fun y => { y with running := y.running.filter fun x => x.unit != u }) s)
  match u with
  | .tile t => modTile t (fun y => { y with underTest := false }) s1
  | _ => s1

/-! ### Losing a tile (12 R298; 01 R22) -/

/-- A run places its logical tiles again after the loss of a tile: kept tiles stay; none left ends it. -/
def replaceRun (r : Nat) (s : State) : State :=
  match getRun? s r with
  | none => s
  | some x =>
    if x.state = .running ∨ x.state = .pausing then
      match placeRun (tileUsable s) (bundleOfRun s x) x.place with
      | none => endRun r [stDeviceFault] s
      | some p =>
        forEach (fun (e : Nat × Nat) => if tabGet? e.1 x.place = some e.2 then id else claimTile r e.2) p
          (modRun r (fun y => { y with place := p }) s)
    else s

/-- A step of run `r` is to be recomputed for the first time (08 R195, R199; 15 R362; 01 R22). -/
def noteRecompute (c : Ctx) (s : State) : State :=
  whenS (c.attempt == 0 && c.moved == 0)
    (modRun c.run fun x => { x with recomputes := x.recomputes + 1, outcomes := addOutcomes [stRecomputed] x.outcomes }) s

/-- The logical tile on a lost tile leaves: at a boundary as it stands, inside a step at the boundary it
began from. -/
def leaveLost (t : Nat) (s : State) : State :=
  let x := getTile s t
  match x.ctx with
  | none => s
  | some c =>
    match x.phase with
    | .body =>
      let c' := { boundaryCtx x c with reissue := true, attempt := 0, moved := if c.moved = 0 then 4 else c.moved }
      saveFrame t (modTile t (fun y => { y with ctx := some c' }) (noteRecompute c s))
    | .stopped => clearTile t s
    | _ => saveFrame t (withdraw (.tile t) s)

/-- Tile `t` is unusable from now on. -/
def loseTile (t : Nat) (s : State) : State :=
  let runs := (s.runs.filter fun e => (e.2.state == .running || e.2.state == .pausing) && e.2.place.any fun p => p.2 == t).map (·.1)
  fillTiles (forEach checkPaused runs (forEach replaceRun runs (dropLost (leaveLost t (abandonTest (.tile t) s)))))

/-! ### Losing a stack (10 R224) -/

/-- What a stack's loss takes with it; its USABLE bit is cleared already. -/
def loseStack (k : Nat) (s : State) : State :=
  checkNoFurrow k (failFops k (dropLost (abandonTest (.stack k)
    (modStk k (fun x => { x with merge := [], slices := [], retraining := false }) s))))

/-- Copies in flight that touch far memory end, and every far byte is lost (10 R245). -/
def loseFar (s : State) : State :=
  dropLost (clearFar { s with allocs := tabMap (fun _ a => if a.space = 1 then { a with lost := true } else a) s.allocs,
                              era := s.era + 1 })

/-- Work on a retired unit follows 01 R22 (15 R369). -/
def loseUnit (u : UnitRef) (s : State) : State :=
  match u with
  | .tile t => loseTile t s
  | .stack k => loseStack k s
  | .furrow b => checkNoFurrow (b / 512) s
  | _ => dropLost s

/-- A unit is retired: classified, withdrawn, its work moved or ended (15 R369). -/
def retireUnit (check : Nat) (u : UnitRef) (tenant : Nat) (s : State) : State :=
  if (getSum s u).state = 3 then s else schedule (loseUnit u (retireCap check u tenant s))

/-- A fault event of a unit (15 R365, R367): recorded with its kind, counted towards R368, and the unit becomes
or stays suspect, or permanent with more than 2 events in 604,800 s. -/
def faultEvent (kind check : Nat) (u : UnitRef) (tenant detail : Nat) (bundle : List Byte) (s : State) : State :=
  if (getSum s u).state = 3 then s
  else
    let s1 := modSum u (fun x => { x with events := x.events ++ [s.henua.operating.toNat], passes := 0, state := if suspends u then 2 else 1 })
      (recordFault kind check u tenant detail bundle s)
    if 2 < recentEvents s1 (getSum s1 u) then retireUnit check u tenant s1 else markSuspect u s1

/-! ### A step fails on a tile -/

/-- The tile goes back to the step's boundary and reissues the body, its instruction memory as the image fills it
(15 R356, R361; 07 R157); statistics and counts
of the attempt are dropped (03 R70). -/
def restartStep (t : Nat) (f : Failure) (s : State) : State :=
  modTile t (fun x =>
    { x with qMain := [], qLateral := [], qChannel := [], qLoad := [], qStore := [], outbound := [], committing := false,
             lastStep := false, ev := [], v := [], lats := [], trace := none, statsPend := [], qPend := [], poisoned := false,
             stepAclk := 0, waiting := none, imem := x.ctx.map (codeOf s), groupMain := x.snapGroups.1, groupIn := x.snapGroups.2.1, groupOut := x.snapGroups.2.2,
             stepRecomputed := x.stepRecomputed + 1,
             ctx := x.ctx.map fun c => { boundaryCtx x c with attempt := c.attempt + 1, lastFail := some f } }) s

/-- The step moves to a substitute tile for reason `why`, or the run stops where there is none (15 R363). -/
def moveStep (t why : Nat) (f : Failure) (s : State) : State :=
  match (getTile s t).ctx with
  | none => s
  | some c =>
    match getRun? s c.run with
    | none => s
    | some x =>
      match substituteTile s x c.logical t with
      | none => endRun c.run [stDeviceFault] s
      | some u =>
        moveLogical t u (fun c => { boundaryCtx (getTile s t) c with reissue := true, attempt := 0, moved := why, origin := t, lastFail := some f })
          (modTile t (fun y => { y with groupMain := y.snapGroups.1, groupIn := y.snapGroups.2.1, groupOut := y.snapGroups.2.2 }) s)

/-- A range or invariant failure at the same element with the same bits (15 R362, R363). -/
def sameRange (f : Failure) (g : Option Failure) : Bool :=
  match g with
  | some h => (f.check == 6 || f.check == 7) && f == h
  | none => false

/-- A detection comes less than 60 s after one in another step (15 R365). -/
def recentDetect (s : State) (t : Nat) : Bool :=
  match (getTile s t).lastDetect with
  | some d => decide (now s < d + 60 * 940000000)
  | none => false

/-- An attempt of a step fails: a check, a trap (`check` 0) or the step-time limit (15 R361 to R363; 07 R161). -/
def failStep (t : Nat) (f : Failure) (s : State) : State :=
  match (getTile s t).ctx with
  | none => s
  | some c =>
    if (getTile s t).phase ≠ .body then s
    else
      let ten := runTenant s c.run
      let dig := runDigest s c.run
      let trap := f.check == 0
      let onSub := decide (1 ≤ c.moved ∧ c.moved ≤ 3)
      if c.attempt = 0 then
        let s1 := if trap then s else
          modTile t (fun x => { x with lastDetect := some (now s) })
            (whenS (recentDetect s t) (faultEvent 2 f.check (.tile t) ten f.detail dig) s)
        if c.moved = 1 ∧ sameRange f c.lastFail then
          endRun c.run [stDeviceFault] (recordFault 6 f.check (.tile t) ten f.detail dig s1)
        else if c.moved = 3 ∧ trap then
          endRun c.run [stDeviceFault] (henuaEvent 0x01 1 (dig.map (·.toNat)) s1)
        else if ((getTile s1 t).ctx).isSome then restartStep t f (noteRecompute c s1) else s1
      else
        let twoTraps := trap && ((c.lastFail.map (·.check)) == some 0)
        if onSub then
          if twoTraps then endRun c.run [stDeviceFault] (henuaEvent 0x01 1 (dig.map (·.toNat)) s)
          else endRun c.run [stDeviceFault] (faultEvent 2 f.check (.tile t) ten f.detail dig s)
        else if twoTraps then moveStep t 3 f s
        else if sameRange f c.lastFail then moveStep t 1 f s
        else
          let s1 := faultEvent 2 f.check (.tile t) ten f.detail dig s
          if ((getTile s1 t).ctx.map fun y => (y.run, y.logical)) = some (c.run, c.logical) then moveStep t 2 f s1 else s1

end Sys2Proof.Machine
end

