-- ==== Sys2Proof/WellFormed.lean ====
section
/-! DEFINITION. Well-formed commands: the numbers of units, functions, queues and lanes that a command
names exist on the part (01 R8; 08 R174; 12 R281; 14 R334), and the lists it carries have the lengths of
their records. A command that is not well formed is no event of the hardware. -/

namespace Sys2Proof

def fnOk (f : Nat) : Bool := decide (f < 64)
def tileOk (t : Nat) : Bool := decide (t < 32)
def stackOk (k : Nat) : Bool := decide (k < 8)
def dieOk (d : Nat) : Bool := decide (d < 16)
def pairOk (p : Nat) : Bool := decide (p < 32)
def bankOk (b : Nat) : Bool := decide (b < 64)
def portOk (p : Nat) : Bool := decide (p < 20)
def logicalOk (l : Nat) : Bool := decide (l < 4)
def pathOk (p : Nat) : Bool := decide (p < 16)
def vecOk (v : Nat) : Bool := decide (v < 32)
/-- A physical 64-byte block: stack · 2^31 + local block (10 R221), on stack `k`. -/
def blkOk (k blk : Nat) : Bool := decide (blk / 2 ^ 31 = k)
/-- A lane of a stack link: 256 groups of 34 lanes, the last two spares (10 R241; 16 R389). -/
def laneOk (l : Nat) : Bool := decide (l < 8704)
/-- A compute-die edge: two of the four dies. -/
def edgeOk (a b : Nat) : Bool := decide (a < 4 ∧ b < 4 ∧ a ≠ b)

/-- The unit that a fault history can name exists. -/
def UnitRef.ok : UnitRef → Bool
  | .tile t => tileOk t
  | .furrow b => decide (b < 4096)
  | .stack k => stackOk k
  | .edge a b => edgeOk a b
  | .sluice e => decide (e < 20)
  | .sequencer => true
  | .counterStore => true
  | .port p => portOk p
  | .cxl => true
  | .basin c => decide (c < 4)

def RegTarget.ok (t : RegTarget) : Bool := fnOk t.fn

/-- Every number a command names exists. -/
def Instr.wf : Instr → Bool
  | .hgSqTailWrite f q _ _ => fnOk f && decide (q < 16)
  | .hgCqHeadWrite f q _ => fnOk f && decide (q < 16)
  | .hgCqCtrlWrite f _ => fnOk f
  | .hgSq0CtrlWrite f _ => fnOk f
  | .irqHoldoffExpiry f v => fnOk f && vecOk v
  | .cqStallTimeout t => fnOk t
  | .hgDevTimeRead f _ => fnOk f
  | .rcRegisterRead f _ _ => fnOk f
  | .w1cRegisterWrite f _ _ => fnOk f
  | .registerWrite t _ _ => t.ok
  | .scFurrowBudgetWrite f k _ => fnOk f && stackOk k
  | .scPatrolCtrlWrite f k _ => fnOk f && stackOk k
  | .hgPtpTxTailWrite f _ _ => fnOk f
  | .hgPtpRxHeadWrite f _ => fnOk f
  | .msixUnmask f v => fnOk f && vecOk v
  | .bar4Read f _ _ => fnOk f
  | .bar4Write f _ _ => fnOk f
  | .functionLevelReset f => fnOk f
  | .wakeComplete l r => l.all stackOk && r.all fun e => stackOk e.1 && e.2.all laneOk
  | .stackLinkTrainingEnd l => l.all fun e => stackOk e.1 && e.2.all laneOk
  | .longWordIssue t _ _ => tileOk t
  | .mainPass t => tileOk t
  | .checksumVerdict t _ _ => tileOk t
  | .accDrain t _ => tileOk t
  | .lateralLoad t => tileOk t
  | .extraLateralSlot t => tileOk t
  | .channelOp t => tileOk t
  | .channelReduction t => tileOk t
  | .softmax t => tileOk t
  | .normalisation t => tileOk t
  | .quantise t => tileOk t
  | .loadTransfer t _ => tileOk t
  | .codeOverlayTransfer t => tileOk t
  | .storeTransfer t => tileOk t
  | .eventWait t e _ => tileOk t && decide (e < 16)
  | .unitOpComplete t _ _ _ => tileOk t
  | .stepHeadWait t _ _ _ => tileOk t
  | .commit t _ => tileOk t
  | .stepTimeLimit t => tileOk t
  | .tileTrap t => tileOk t
  | .tileFrameSaveComplete t => tileOk t
  | .furrowSliceStart k d p _ _ => stackOk k && dieOk d && pairOk p
  | .sliceEnd k d p => stackOk k && dieOk d && pairOk p
  | .refreshDue k d b => stackOk k && dieOk d && bankOk b
  | .stackRead k _ _ => stackOk k
  | .stackWrite k _ _ _ _ => stackOk k
  | .mergeWindowExpiry k b => stackOk k && blkOk k b
  | .correctionWriteBack k b => stackOk k && blkOk k b
  | .uePoisonRewrite k b => stackOk k && blkOk k b
  | .ceBucketLeak k => stackOk k
  | .patrolRowVisit k => stackOk k
  | .linkFrameRetry k _ => stackOk k
  | .flitCrcRetry a b _ => edgeOk a b
  | .frameReceived p l _ _ _ _ _ => portOk p && logicalOk l
  | .ackTimer _ p => pathOk p
  | .retransmitTimeout _ p _ => pathOk p
  | .pathProbe _ p => pathOk p
  | .ethLinkUp p l => portOk p && logicalOk l
  | .ethLinkDown p l => portOk p && logicalOk l
  | .sensorUpdate l => l.all fun e => decide (e.1 < 560)
  | .suspectTestDue u => u.ok
  | .selftestComplete u _ _ => u.ok
  | .retrainingComplete u _ _ => u.ok
  | _ => true

end Sys2Proof
end

