-- ==== Sys2Proof/Machine/Queues.lean ====
section
/-! DEFINITION. The queues and the headgate (08): doorbells, the completion queue, admission in rotation,
dispatch in deadline order, completion records, and the interrupt events that go with them (14 R342 to
R344). -/

namespace Sys2Proof.Machine

/-! ### The completion queue (08 R175 to R180) -/

def cqEnabled (x : Fn) : Bool := hasBit x.cqCtrl 31
/-- The completion queue is in use: enabled with its fields in range (08 R177). -/
def cqInUse (x : Fn) : Bool := cqEnabled x && !x.cqBad
def cqSize (x : Fn) : Nat := 2 ^ bitsOf x.cqCtrl.toNat 4 0
def cqBaseOf (x : Fn) : Nat := x.cqBase.toNat / 4096 * 4096
def sq0Enabled (x : Fn) : Bool := hasBit x.sq0Ctrl 31
def sq0InUse (x : Fn) : Bool := sq0Enabled x && !x.sq0Bad
def sq0BaseOf (x : Fn) : Nat := x.sq0Base.toNat / 4096 * 4096

/-- Live commands of a tenant that will have a record (08 R176 LIVE). -/
def liveCount (s : State) (t : Nat) : Nat := (s.cmds.filter fun c => c.tenant == t && !c.silent).length

/-- F, the free entries of a completion queue (08 R179). -/
def cqFree (s : State) (t : Nat) : Nat :=
  let x := getFn s t
  cqSize x - 1 - (x.cqTail + cqSize x - x.cqHead) % cqSize x - liveCount s t

/-- CQ_STALLED clears when F reaches 2 (08 R180). -/
def unstall (t : Nat) (s : State) : State :=
  whenS (decide (2 ≤ cqFree s t)) (modFn t (fun x => { x with cqStalled := false })) s

/-- A ring lies below 2^48 and, where the tenant exists, in one of its HOST ranges (08 R177; 12 R289). -/
def ringOk (s : State) (f base len : Nat) : Bool :=
  decide (base + len ≤ 2 ^ 48) && ((getTen? s f).isNone || hostOk s f base len)

def cqConfigOk (s : State) (f : Nat) (x : Fn) : Bool :=
  let l := bitsOf x.cqCtrl.toNat 4 0
  decide (6 ≤ l ∧ l ≤ 16) && ringOk s f (cqBaseOf x) (32 * 2 ^ l)

def sq0ConfigOk (s : State) (f : Nat) (x : Fn) : Bool :=
  let l := bitsOf x.sq0Ctrl.toNat 3 0
  decide (4 ≤ l ∧ l ≤ 12) && ringOk s f (sq0BaseOf x) (64 * 2 ^ l)

/-- The 32 bytes of a record (08 R182). -/
def recordBytes (kind flags status tag handle opcode sq check sqHead value : Nat) : List Byte :=
  toLE 1 kind ++ toLE 1 flags ++ toLE 2 status ++ toLE 4 tag ++ toLE 8 handle ++ toLE 2 opcode ++ toLE 1 sq ++ toLE 1 check ++
  toLE 2 sqHead ++ toLE 2 0 ++ toLE 8 value

/-- A record is written at the tail; PHASE is inverted on every later lap (08 R178, R182). A queue whose
setting was out of range receives none (08 R177). -/
def writeRecord (t kind : Nat) (late recomputed : Bool) (status tag handle opcode sq check sqHead value : Nat) (s : State) : State :=
  let x := getFn s t
  if x.cqBad then s
  else
    let n := (x.cqTail + 1) % cqSize x
    modFn t (fun y => { y with cqTail := n, cqPhase := if n = 0 then !y.cqPhase else y.cqPhase })
      (hostWrite t (cqBaseOf x + 32 * x.cqTail)
        (recordBytes kind (rflags x.cqPhase late recomputed) status tag handle opcode sq check sqHead value) s)

/-! ### Doorbells and queue registers -/

/-- An access waits from now on. -/
def pushHeld (h : Held) (s : State) : State := { s with held := s.held ++ [h] }

/-- A window write of the function waits: what follows it at the port waits behind it (05 R121). -/
def behindWrite (l : List Held) (fn : Nat) : Bool :=
  l.any fun h => match h.acc with
    | .winWrite f _ _ => f == fn
    | _ => false

/-- A doorbell takes effect: the tail of a queue in use is set where it is in range (08 R178, R177). -/
def setTail (fn q tail : Nat) (s : State) : State :=
  let n := tail % 4096
  let ring (x : SubQ) : SubQ := if n < 2 ^ x.log2 then { x with tail := n, badTail := false } else { x with badTail := true }
  modFn fn (fun x =>
    if q = 0 then (if sq0Enabled x then { x with sq0 := ring x.sq0 } else x)
    else { x with queues := tabMap (fun k y => if k = q then ring y else y) x.queues }) s

/-- HG_SQ_TAIL_WRITE (08 R178, R193, R177): the host's stores before the doorbell reach memory first (05 R120); the
port holds the doorbell behind the function's window writes (05 R121). -/
def execHgSqTailWrite (fn q tail : Nat) (stores : List (Nat × List Byte)) (s : State) : Res :=
  let s1 := forEach (fun (e : Nat × List Byte) => hostStore e.1 e.2) stores s
  onUnit (fnOk fn && decide (q < 16))
    (if behindWrite s.held fn then pushHeld ⟨.doorbell fn q tail, now s, []⟩ s1 else setTail fn q tail s1)

/-- The head of the completion queue is set; the page of a queue that does not exist acts on nothing (08 R178, R180,
R193). -/
def setCqHead (fn q head : Nat) (s : State) : State :=
  let x := getFn s fn
  let there := if q = 0 then sq0Enabled x else (tabGet? q x.queues).isSome
  let n := head % 65536
  if there ∧ n < cqSize x then unstall fn (modFn fn (fun y => { y with cqHead := n }) s) else s

/-- HG_CQ_HEAD_WRITE (08 R178); held like every doorbell (05 R121; 14 R337). -/
def execHgCqHeadWrite (fn q head : Nat) (s : State) : Res :=
  onUnit (fnOk fn && decide (q < 16))
    (if behindWrite s.held fn then pushHeld ⟨.cqHead fn q head, now s, []⟩ s else setCqHead fn q head s)

/-- HG_CQ_CTRL_WRITE (08 R176, R177): LOG2_ENTRIES is written only while ENABLE is 0; setting ENABLE starts
the ring anew (log entry 18). -/
def execHgCqCtrlWrite (fn : Nat) (value : W32) (s : State) : Res :=
  let x := getFn s fn
  let v := value.toNat
  let log2 := if cqEnabled x then bitsOf x.cqCtrl.toNat 4 0 else bitsOf v 4 0
  let x1 : Fn := { x with cqCtrl := BitVec.ofNat 32 (2 ^ 31 * bitsOf v 31 31 + 2 ^ 16 * bitsOf v 20 16 + log2) }
  let x2 : Fn :=
    if cqEnabled x then { x1 with cqBad := x.cqBad && bitOf v 31 }
    else if bitOf v 31 then { x1 with cqBad := !cqConfigOk s fn x1, cqTail := 0, cqHead := 0, cqPhase := true, cqStalled := false }
    else x1
  onUnit (fnOk fn) (modFn fn (fun _ => x2) s)

/-- HG_SQ0_CTRL_WRITE (08 R176, R177). -/
def execHgSq0CtrlWrite (fn : Nat) (value : W32) (s : State) : Res :=
  let x := getFn s fn
  let v := value.toNat
  let log2 := if sq0Enabled x then bitsOf x.sq0Ctrl.toNat 3 0 else bitsOf v 3 0
  let x1 : Fn := { x with sq0Ctrl := BitVec.ofNat 32 (2 ^ 31 * bitsOf v 31 31 + log2) }
  let x2 : Fn :=
    if sq0Enabled x then { x1 with sq0Bad := x.sq0Bad && bitOf v 31 }
    else if bitOf v 31 then { x1 with sq0Bad := !sq0ConfigOk s fn x1, sq0 := ⟨sq0BaseOf x, log2, 0, 0, false, false⟩ }
    else x1
  onUnit (fnOk fn) (modFn fn (fun _ => x2) s)

/-! ### Which entry is fetched (08 R172, R173, R177, R179) -/

/-- The queue has an entry that the headgate may fetch. -/
def queueReady (s : State) (t q : Nat) : Bool :=
  let x := getFn s t
  if q = 0 then sq0InUse x && x.sq0.head != x.sq0.tail
  else
    match tabGet? q x.queues with
    | some y => !y.closing && y.head != y.tail
    | none => false

def fetchQueue (s : State) (t : Nat) : Option Nat :=
  let start := tabGetD 0 t s.rrQueue
  ((List.range 16).map fun i => (start + i) % 16).find? (queueReady s t)

/-- The next tenant and queue in rotation. -/
def fetchNext (s : State) : Option (Nat × Nat) :=
  if !s.cap.valid || s.halted then none
  else
    ((List.range 64).map fun i => (s.rrTenant + i) % 64).findSome? fun t =>
      if tenantThere s t && cqInUse (getFn s t) && decide (2 ≤ cqFree s t) then (fetchQueue s t).map fun q => (t, q) else none

def modQueue (t q : Nat) (g : SubQ → SubQ) (s : State) : State :=
  modFn t (fun x => if q = 0 then { x with sq0 := g x.sq0 } else { x with queues := tabMap (fun k y => if k = q then g y else y) x.queues }) s

/-! ### What an admission does at once -/

/-- A command names a descriptor identifier of its tenant (06 R130). -/
def namesDesc (c : Cmd) (t id : Nat) : Bool :=
  c.tenant == t && ((descUses c.pkt).any (fun u => u.id == id) || c.binds.any (fun b => b.1 == id))

/-- Descriptors, by tenant and identifier, created against an allocation or its views (06 R131; 11 R277). -/
def descsOf (s : State) (h : Nat) : List (Nat × Nat) :=
  s.tenants.flatMap fun t => (t.2.descs.filter fun d => d.2.alloc == h).map fun d => (t.1, d.1)

def handlesOf (l : List Cmd) : List Nat := l.map (·.handle)

/-- Adapter slots whose source descriptor is one of these (11 R275). -/
def slotsOf (s : State) (ds : List (Nat × Nat)) : List Nat :=
  (s.adapters.filter fun a => ds.contains (a.2.tenant, a.2.source)).map (·.1)

/-- Earlier commands that must complete before `c` executes (06 R130, R131; 11 R275). -/
def targetsOf (s : State) (c : Cmd) : List Nat :=
  let q := c.pkt
  let naming (ds : List (Nat × Nat)) := s.cmds.filter fun x => ds.any fun d => namesDesc x d.1 d.2
  match q.opcode with
  | 0x0204 => handlesOf (naming [(c.tenant, pk q 2)])
  | 0x0202 =>
    (handlesOf (naming (descsOf s (pk q 0)) ++ s.cmds.filter fun x => x.desc.isSome && pk x.pkt 1 % 2 ^ 55 == pk q 0 % 2 ^ 55 &&
      ((allocOf s x.tenant (pk x.pkt 1)).map (·.1)) == some (pk q 0))).eraseDups
  | 0x0408 => handlesOf (s.cmds.filter fun x => x.tenant == c.tenant && x.pkt.opcode == 0x0303)
  | _ => []

/-- A slot that goes with these descriptors waits, like ADAPTER_EVICT, for the bundle runs of the tenant admitted before
(11 R275). -/
def slotWaits (s : State) (c : Cmd) (ds : List (Nat × Nat)) : Bool :=
  !(slotsOf s ds).isEmpty && s.cmds.any fun x => x.tenant == c.tenant && x.pkt.opcode == 0x0303 && decide (x.order < c.order)

/-- Commands that use a tile wake Idle and Hold (2), those that reach compute-die memory, a stack
controller or a compute-die sluice engine wake Hold (1), others none (0) (17 R400). -/
def wakeClass (s : State) (t : Nat) (q : Packet) : Nat :=
  let deep (id : Nat) : Bool :=
    match tabGet? id (getTen s t).descs with
    | some d => decide (2 ≤ d.desc.space)
    | none => false
  match q.opcode with
  | 0x0303 => 2
  | 0x0404 => 2
  | 0x0405 => 2
  | 0x0701 => if bitsOf (pk q 0) 3 0 = 1 then 2 else 1
  | 0x0205 => 1
  | 0x0206 => if deep (lo32 (pk q 0)) || deep (hi32 (pk q 0)) || decide (bitsOf (pk q 1) 39 32 ≤ 15) then 1 else 0
  | 0x0207 => if deep (lo32 (pk q 0)) || deep (hi32 (pk q 0)) || deep (lo32 (pk q 1)) then 1 else 0
  | 0x0210 => 1
  | 0x0301 => 1
  | 0x0401 => 1
  | 0x0402 => 1
  | 0x0403 => 1
  | 0x0406 => 1
  | 0x0407 => 1
  | 0x0604 => if deep (lo32 (pk q 0)) then 1 else 0
  | 0x0605 => 1
  | 0x0702 => if bitsOf (pk q 0) 3 0 = 1 then 1 else 0
  | 0x0707 => 1
  | _ => 0

/-- Effects that a command has from its admission on (08 R189, R193, R177; 06 R130, R131; 13 R313). -/
def admitEffects (c : Cmd) (s : State) : State :=
  let q := c.pkt
  match q.opcode with
  | 0x0102 => modTen (pk q 1) (fun t => { t with destroying := true }) s
  | 0x0104 => modFn c.tenant (fun f => { f with queues := tabMap (fun k x => if k = pk q 1 then { x with closing := true } else x) f.queues }) s
  | 0x0105 => schedule (modTen c.tenant (fun t => { t with deadlines := tabPut (pk q 1) (pk q 0) t.deadlines }) s)
  | 0x0202 =>
    let ds := descsOf s (pk q 0)
    forEach (fun (d : Nat × Nat) => modTen d.1 fun t => { t with descs := tabMap (fun i x => if i = d.2 then { x with dying := true } else x) t.descs }) ds
      { s with allocs := tabMap (fun h a => if h = pk q 0 then { a with dying := true } else a) s.allocs }
  | 0x0204 => modTen c.tenant (fun t => { t with descs := tabMap (fun i x => if i = pk q 2 then { x with dying := true } else x) t.descs }) s
  | 0x0302 => { s with bundles := tabMap (fun h b => if h = pk q 0 then { b with dying := true } else b) s.bundles }
  | 0x0602 => modDpt (fun d => { d with moduleSet := true, moduleNumber := bitsOf (pk q 0) 11 0 }) s
  | _ => s

/-- What a command keeps of what its checks read (06 R129; 07 R167). -/
def admitCmd (s : State) (t q : Nat) (p : Packet) (handle : Nat) : Cmd :=
  let c : Cmd := ⟨handle, s.nextOrder, t, q, p, now s, .admitted, [], 0,
    if p.opcode = 0x0203 then some (parseDesc (hostRead s (pk p 0) 64)) else none,
    if p.opcode = 0x0303 then
      (bindingIds s (pk p 2) (bitsOf (pk p 1) 24 16)).filterMap fun i => (liveDesc s t i).map fun d => (i, d)
    else [], [], [], false⟩
  { c with targets := targetsOf s c }

/-- What admission reads of host memory for a packet (06 R129; 07 R167), under the tenant's requester ID (05 R107). -/
def hostFetches (t : Nat) (p : Packet) (s : State) : State :=
  if p.opcode = 0x0203 then hostFetch t (pk p 0) 64 s
  else if p.opcode = 0x0303 then hostFetch t (pk p 2) (4 * bitsOf (pk p 1) 24 16) s
  else s

/-- An accepted packet: the handle, the admission record, the effects at admission, the wake (08 R179,
R183, R185; 17 R400). -/
def acceptPacket (t q head : Nat) (p : Packet) (s : State) : State :=
  let seq := tabGetD 1 t s.seqs
  let handle := t * 2 ^ 56 + seq
  let c := admitCmd s t q p handle
  let w := wakeClass s t p
  let s1 := { hostFetches t p s with cmds := s.cmds ++ [c], nextOrder := s.nextOrder + 1, seqs := tabPut t (seq + 1) s.seqs }
  let s2 := writeRecord t 1 false false stAccepted p.tag handle p.opcode q 0 head (now s) s1
  whenS (decide (0 < w)) (wakeSource 2 (w == 2)) (admitEffects c s2)

/-- A refused packet: one record, always announced (08 R183, R184, R200). -/
def refusePacket (t q head : Nat) (p : Packet) (v : Nat × Nat) (s : State) : State :=
  cqEvent t (writeRecord t 1 false false v.1 p.tag 0 p.opcode q v.2 head (now s) s)

/-- Admission halts for the whole module (08 R170; 15 R372; 14 R343). -/
def haltAdmission (t : Nat) (s : State) : State :=
  setCauseAll 5 (henuaEvent 0x07 2 [t] (recordFault 8 8 .sequencer t 0 [] (modBoard (fun b => { b with faultN := false }) { s with halted := true })))

/-- PACKET_ADMISSION (08 R170, R172, R178, R200). `mismatches`: how often the two sequencers disagreed. -/
def execPacketAdmission (mismatches : Nat) (s : State) : Res :=
  match fetchNext s with
  | none => .next s
  | some (t, q) =>
    match subqOf s t q with
    | none => .next s
    | some x =>
      let p := parsePacket (hostRead s (x.base + 64 * x.head) 64)
      let head := (x.head + 1) % 2 ^ x.log2
      let s1 := { modQueue t q (fun y => { y with head := head }) (hostFetch t (x.base + 64 * x.head) 64 s) with rrTenant := (t + 1) % 64, rrQueue := tabPut t ((q + 1) % 16) s.rrQueue }
      if 2 ≤ mismatches then .next (haltAdmission t s1)
      else
        let s2 := whenS (mismatches == 1) (recordFault 1 8 .sequencer t 0 []) s1
        .next (match verdict s2 t p with
          | some v => refusePacket t q head p v s2
          | none => acceptPacket t q head p s2)

/-! ### Dispatch (08 R188; 12 R291; 17 R398, R400) -/

/-- An earlier live command of the same queue satisfies `p`. -/
def earlierInQueue (s : State) (c : Cmd) (p : Cmd → Bool) : Bool :=
  s.cmds.any fun x => x.tenant == c.tenant && x.sq == c.sq && decide (x.order < c.order) && p x

def isWait (c : Cmd) : Bool := c.pkt.opcode == 0x0502 || c.pkt.opcode == 0x0503

/-- A barrier or an earlier wait of its queue holds the command (08 R188). -/
def queueHolds (s : State) (c : Cmd) : Bool :=
  c.pkt.opcode != 0x0106 &&
  ((bitOf c.pkt.flags 1 && earlierInQueue s c (fun _ => true)) || earlierInQueue s c (fun x => isWait x && x.stage != .done))

/-- The present power state serves a wake class (17 R397, R398, R416). -/
def powerServes (s : State) (w : Nat) : Bool :=
  let e := powerEff s
  if w = 2 then e == .run || e == .trim else if w = 1 then e != .hold else true

/-- Nothing but the power state can hold the command. -/
def unheld (s : State) (c : Cmd) : Bool :=
  c.stage == .admitted && !queueHolds s c &&
  (c.pkt.opcode != 0x0703 ||
    (!s.pm.stopHold && !s.cmds.any fun x => x.pkt.opcode == 0x0703 && decide (x.order < c.order)))

def startable (s : State) (c : Cmd) : Bool := unheld s c && powerServes s (wakeClass s c.tenant c.pkt)

/-- A command that only the power state holds wakes the module, also when what held it before ended during Idle
or Hold (17 R400). -/
def wakeForHeld (s : State) : State :=
  match s.cmds.find? (fun c => unheld s c && decide (0 < wakeClass s c.tenant c.pkt)) with
  | some c => wakeSource 2 (wakeClass s c.tenant c.pkt == 2) s
  | none => s

/-- The descriptor that a command named at its admission; it outlives a destroy admitted later (06 R130). -/
def cmdDesc (s : State) (c : Cmd) (id : Nat) : Desc := ((tabGet? id (getTen s c.tenant).descs).map (·.desc)).getD default

/-! ### The sluice engines' descriptor queues (01 R8; 05 R110) -/

/-- The engine that carries a copy: the one named, else the lowest usable, of the I/O dies where host or far
memory takes part (17 R400; log entry 20). A copy whose engine is suspended after its admission is taken by none: the
spec says only that the engine takes no further commands (01 R20; DESIGN CHOICE, log entry 20). -/
def pickSluice (s : State) (named : Nat) (sa sb : Nat) : Option Nat :=
  if named ≤ 19 then (if sluiceUsable s named then some named else none)
  else
    let io := (List.range 4).map fun i => 16 + i
    let all := List.range 16
    ((if sa ≤ 1 ∨ sb ≤ 1 then io ++ (if sa ≤ 1 ∧ sb ≤ 1 then [] else all) else all ++ io)).find? (sluiceUsable s)

/-- COPY but for the in-place transpose, which the store path executes (06 R146), and COPY_INDEXED go to a sluice
engine. -/
def sluiceBound (q : Packet) : Bool := q.opcode == 0x0207 || (q.opcode == 0x0206 && !bitOf (pk q 1) 24)

/-- The engine that a copy names (08 R194): COPY_INDEXED leaves it open. -/
def sluiceNamed (q : Packet) : Nat := if q.opcode = 0x0206 then bitsOf (pk q 1) 39 32 else 0xFF

/-- The engine for a copy now. -/
def sluiceFor (s : State) (c : Cmd) : Option Nat :=
  pickSluice s (sluiceNamed c.pkt) (cmdDesc s c (lo32 (pk c.pkt 0))).space (cmdDesc s c (hi32 (pk c.pkt 0))).space

/-- A dispatched copy joins queue QUEUE of its engine, COPY_INDEXED queue 0 (log entry 20); what has completed has
left. -/
def joinSluice (c : Cmd) (s : State) : State :=
  match (if sluiceBound c.pkt then sluiceFor s c else none) with
  | some e =>
    let k := 8 * e + (if c.pkt.opcode = 0x0206 then bitsOf (pk c.pkt 1) 42 40 else 0)
    { s with sluiceQ := tabPut k ((tabGetD [] k s.sluiceQ).filter (fun h => (getCmd? s h).isSome) ++ [c.handle]) s.sluiceQ }
  | none => s

/-- The queue that a copy is in. -/
def sluiceQueueOf (s : State) (h : Nat) : Option Nat := (s.sluiceQ.find? fun e => e.2.contains h).map (·.1)

/-- Every earlier copy of its queue has been executed: a queue executes in order (05 R110, R112). -/
def sluiceTurn (s : State) (h : Nat) : Bool :=
  match s.sluiceQ.find? fun e => e.2.contains h with
  | some e => (e.2.takeWhile (· != h)).all fun g => (getCmd? s g).all fun x => x.stage != .running
  | none => true

/-- The run that a started BUNDLE_RUN asks for (07 R167). -/
def newRun (c : Cmd) : Run :=
  ⟨c.tenant, pk c.pkt 0, bitsOf (pk c.pkt 1) 15 0, c.binds.map (·.2), [], .waiting, [], [], [], [], [], c.admitTime, false, [], [], 0, [], false⟩

/-- The command of lowest rank among those that may start (12 R291). -/
def nextStart (s : State) : Option Cmd :=
  ((s.cmds.filter (startable s)).foldl (fun (a : Option Cmd) c =>
    match a with
    | none => some c
    | some b => if rankOf s c < rankOf s b then some c else some b) none)

/-- COMMAND_START: the first command by deadline that nothing holds is dispatched; a bundle run is placed
(12 R298) or waits for tiles (R292), a copy joins its engine's queue (05 R110). -/
def execCommandStart (s : State) : Res :=
  match nextStart s with
  | none => .next (wakeForHeld s)
  | some c =>
    let s1 := modCmd c.handle (fun x => { x with stage := .running }) s
    .next (if c.pkt.opcode = 0x0303 then schedule { s1 with runs := tabPut c.handle (newRun c) s1.runs } else joinSluice c s1)

/-! ### Execution -/

/-- Every command that `c` waits for has completed. -/
def targetsGone (s : State) (c : Cmd) : Bool := !c.targets.any fun h => (getCmd? s h).isSome

/-- The command `h` executes: it has been dispatched, is of opcode `op`, and what it waits for is over. -/
def runCmd (h op : Nat) (f : Cmd → State → State) (s : State) : Res :=
  match getCmd? s h with
  | some c => if c.stage = .running ∧ c.pkt.opcode = op ∧ targetsGone s c = true then .next (f c s) else .next s
  | none => .next s

/-! ### Timers and the MSI-X table -/

/-- CQ_STALL_TIMEOUT: F has stayed below 2 for 10 ms (08 R180). -/
def execCqStallTimeout (tenant : Nat) (s : State) : Res :=
  onUnit (fnOk tenant)
    (if tenantThere s tenant ∧ cqInUse (getFn s tenant) ∧ cqFree s tenant < 2 ∧ (getFn s tenant).cqStalled = false then
      henuaEvent 0x07 1 [tenant] (cqEvent tenant (modFn tenant (fun x => { x with cqStalled := true }) s))
    else s)

/-- IRQ_HOLDOFF_EXPIRY: one message when the counter is non-zero (14 R344). -/
def execIrqHoldoffExpiry (fn vec : Nat) (s : State) : Res :=
  let x := getFn s fn
  onUnit (fnOk fn && vecOk vec)
    (if tabGetD false vec x.modTimer then
      whenS (decide (0 < tabGetD 0 vec x.modCount)) (sendMsix fn vec)
        (modFn fn (fun y => { y with modCount := tabDel vec y.modCount, modTimer := tabDel vec y.modTimer }) s)
    else s)

/-- The pending message of an entry that nothing masks any more is sent (14 R342; PCIe). -/
def sendPending (fn vec : Nat) (s : State) : State :=
  let x := getFn s fn
  if x.msixEnable && !x.msixMask && !(tabGetD msixDefault vec x.msix).masked && hasBit x.pba vec then
    emit (.msix fn vec) (modFn fn (fun y => { y with pba := putBit y.pba vec false }) s)
  else s

/-- MSIX_UNMASK (14 R342). -/
def execMsixUnmask (fn vec : Nat) (s : State) : Res :=
  onUnit (fnOk fn && vecOk vec)
    (sendPending fn vec (modFn fn (fun x => { x with msix := tabMod msixDefault vec (fun e => { e with masked := false }) x.msix }) s))

end Sys2Proof.Machine
end

