-- ==== Sys2Proof/Machine/Space.lean ====
section
/-! DEFINITION. Placement of allocations and context areas: units and granules (10 R221 to R224), stack,
far and resident memory (08 R194; 12 R284, R287). Where the headgate may choose a unit or a base, the
model takes the lowest free unit, the lowest base of stack and far memory, and the highest of a context
area and of resident memory (log entry 19). -/

namespace Sys2Proof.Machine

/-! ### Units (10 R221, R224) -/

def otherStack (k : Nat) : Nat := if k % 2 = 0 then k + 1 else k - 1

/-- Units of stack `k` that a granule takes. -/
def granuleUnits (k : Nat) (g : Granule) : List Nat :=
  if g.mode = 2 then (if g.stack = k then (List.range 8).map fun i => g.unit + i else [])
  else g.unit :: (match tabGet? (otherStack k) g.subst with
    | some u => [u]
    | none => [])

def unitsUsed (s : State) (k : Nat) : List Nat := s.granules.flatMap fun e => granuleUnits k e.2

/-- Second units for the chunks of lost stacks; none when a stack of the pair cannot take them. -/
def substUnits (s : State) (u : Nat) : List Nat → Option (Tab Nat)
  | [] => some []
  | k :: t =>
    let used := u :: unitsUsed s (otherStack k)
    if stackUsable s (otherStack k) then
      match (List.range 1024).find? fun v => !used.contains v, substUnits s u t with
      | some v, some l => some ((k, v) :: l)
      | _, _ => none
    else none

/-- A new granule in a mode (0 interleaved, 1 rotated, 2 pinned), when units for it are free. -/
def newGranule (s : State) (mode stack : Nat) (context : Bool) : Option Granule :=
  if mode = 2 then
    let used := unitsUsed s stack
    (((List.range 128).map fun i => 8 * i).find? fun u => stackUsable s stack && (List.range 8).all fun j => !used.contains (u + j)).map
      fun u => ⟨2, stack, u, [], context⟩
  else
    let live := (List.range 8).filter (stackUsable s)
    let used := live.flatMap (unitsUsed s)
    match (List.range 1024).find? fun u => !used.contains u with
    | none => none
    | some u => (substUnits s u ((List.range 8).filter fun k => !stackUsable s k)).map fun sub => ⟨mode, 0, u, sub, context⟩

/-- Granules `g`, `g + 1`, … mapped in a mode where they are not mapped yet. -/
def mapRange (mode stack : Nat) (context : Bool) : Nat → Nat → State → Option State
  | 0, _, s => some s
  | n + 1, g, s =>
    match tabGet? g s.granules with
    | some x => if x.mode = mode ∧ x.context = context ∧ (mode ≠ 2 ∨ x.stack = stack) then mapRange mode stack context n (g + 1) s else none
    | none =>
      match newGranule s mode stack context with
      | some x => mapRange mode stack context n (g + 1) { s with granules := tabPut g x s.granules }
      | none => none

def granulesOf (base len : Nat) : Nat := (base + len - 1) / 2 ^ 30 - base / 2 ^ 30 + 1

/-! ### Fits -/

/-- Intervals of live allocations of a space and instance. -/
def allocBusy (s : State) (space inst : Nat) : List (Nat × Nat) :=
  s.allocs.filterMap fun e => if e.2.space = space ∧ e.2.inst = inst then some (e.2.base, e.2.len) else none

def clear (busy : List (Nat × Nat)) (a len : Nat) : Bool := busy.all fun b => decide (a + len ≤ b.1 ∨ b.1 + b.2 ≤ a)

/-- The highest aligned base at which `len` bytes fit between `low` and `limit`. -/
def highFit (busy : List (Nat × Nat)) (low limit align len : Nat) : Option Nat :=
  ((limit :: busy.map (·.1)).filterMap fun e =>
    let a := (e - len) / align * align
    if len ≤ e ∧ e ≤ limit ∧ low ≤ a ∧ clear busy a len then some a else none).max?

/-- Interval of a granule. -/
def granuleSpan (g : Nat) : Nat × Nat := (g * 2 ^ 30, 2 ^ 30)

/-- Every chunk of a granule can be reached (10 R224). -/
def reachable (s : State) (g : Granule) : Bool :=
  if g.mode = 2 then stackUsable s g.stack
  else (List.range 8).all fun k => stackUsable s (if (tabGet? k g.subst).isSome then otherStack k else k)

/-- Granules that an allocation of this mode cannot use; one that a lost stack has left with unreachable chunks serves no
new allocation, which so has full service (10 R224). -/
def foreignSpans (s : State) (mode stack : Nat) (context : Bool) : List (Nat × Nat) :=
  s.granules.filterMap fun e =>
    if e.2.mode = mode ∧ e.2.context = context ∧ (mode ≠ 2 ∨ e.2.stack = stack) ∧ reachable s e.2 = true then none else some (granuleSpan e.1)

/-- Where the lowest base that fits can lie: at 0, where something ends, and whole granules before a mapped one. -/
def stackStarts (s : State) (busy : List (Nat × Nat)) (len : Nat) : List Nat :=
  sortKey id (0 :: busy.map (fun b => b.1 + b.2) ++ s.granules.flatMap fun e => (List.range (len / 2 ^ 30 + 2)).map fun j => (e.1 - j) * 2 ^ 30)

/-- Room in stack memory: the lowest base that fits and whose granules are mapped or can be (10 R222). -/
def placeStack (s : State) (mode stack len : Nat) : Option (Nat × State) :=
  let busy := allocBusy s 2 0 ++ foreignSpans s mode stack false
  (stackStarts s busy len).findSome? fun a =>
    if a + len ≤ 2 ^ 40 ∧ clear busy a len = true then (mapRange mode stack false (granulesOf a len) (a / 2 ^ 30) s).map fun t => (a, t) else none

/-! ### The context area (12 R287) -/

def contextLen (p : Profile) : Nat := 32 * (p.runScratch + 4587520) + 4 * p.runBasin

def contextSpans (s : State) : List (Nat × Nat) := s.tenants.map fun e => (e.2.ctxBase, contextLen e.2.profile)

/-- Room for a context area: the highest base that fits in granules of context areas and unmapped ones. -/
def placeContext (s : State) (len : Nat) : Option (Nat × State) :=
  match highFit (contextSpans s ++ foreignSpans s 0 0 true) 0 (2 ^ 40) 65536 len with
  | none => none
  | some a => (mapRange 0 0 true (granulesOf a len) (a / 2 ^ 30) s).map fun t => (a, t)

/-- Granules that hold nothing any more are unmapped (10 R221; 12 R287). -/
def unmapEmpty (s : State) : State :=
  let used (g : Nat) (x : Granule) : Bool :=
    (if x.context then contextSpans s else allocBusy s 2 0).any fun b => decide (b.1 < (g + 1) * 2 ^ 30 ∧ g * 2 ^ 30 < b.1 + b.2)
  { s with granules := s.granules.filter fun e => used e.1 e.2 }

/-! ### ALLOC (08 R194; 12 R283, R284) -/

/-- Bytes that a tenant's allocations take in a space, on one instance for spaces 3 to 5. -/
def tenantBytes (s : State) (t space inst : Nat) : Nat :=
  ((s.allocs.filter fun e => e.2.tenant == t && e.2.space == space && e.2.inst == inst).map fun e => e.2.len).sum

/-- The rounded length of an allocation. -/
def allocLen (space len : Nat) : Nat :=
  if space = 0 then len else if space = 5 then roundUp len 4096 else roundUp len 65536

/-- What an allocation may take of its tenant's window (12 R283). -/
def quotaOk (s : State) (t space inst len : Nat) : Bool :=
  let p := (getTen s t).profile
  let have_ := tenantBytes s t space inst
  match space with
  | 0 => true
  | 1 => decide (have_ + len ≤ p.farQuota)
  | 2 => decide (have_ + len + contextLen p ≤ p.stackQuota)
  | 3 => decide (have_ + len ≤ p.resBasin)
  | 4 => decide (have_ + len ≤ p.resScratch)
  | _ => decide (have_ + len ≤ p.resSdata)

/-- Base of a new allocation and the state with its granules mapped; none when there is no room. -/
def placeAlloc (s : State) (c : Cmd) (space inst len : Nat) : Option (Nat × State) :=
  let w := pk c.pkt 1
  match space with
  | 0 => some (pk c.pkt 2, s)
  | 1 => (firstFit (allocBusy s 1 0) s.far.capacity len).map fun a => (a, s)
  | 2 => placeStack s (if bitOf w 12 then 2 else if bitOf w 17 then 1 else 0) (bitsOf w 15 13) len
  | 3 => (highFit (basinBusy s inst []) 0 basinEnd 65536 len).map fun a => (a, s)
  | 4 => (highFit (allocBusy s 4 inst) 0 scratchEnd 65536 len).map fun a => (a, s)
  | _ => (highFit (allocBusy s 5 inst) sdataRun 0x40000 4096 len).map fun a => (a, s)

/-- Allocations that satisfy `p` cease to exist, with the granules that only they held. -/
def freeAllocs (p : Nat → Alloc → Bool) (s : State) : State :=
  unmapEmpty { s with allocs := s.allocs.filter fun e => !p e.1 e.2 }

end Sys2Proof.Machine
end

