-- ==== Sys2Proof/Machine/Gap.lean ====
section
/-! DEFINITION. Accesses to stack memory that wait: pairs inside a slice and the gap (04 R95 to R97), retraining links
(10 R242), the host's window BAR4 (14 R339 to R341) and what waits behind it (05 R121), movers. -/

namespace Sys2Proof.Machine

/-! ### Held blocks -/

/-- An access to the block waits: its pair is inside a slice (04 R95), or its link retrains (10 R242). -/
def blkHeld (s : State) (blk : Nat) : Bool :=
  let x := getStk s (stackOfBlk blk)
  x.retraining || x.slices.any fun y => y.d == blkDie blk && y.p == blkPair blk

/-- The stack controller can serve the block now. -/
def blkReady (s : State) (blk : Nat) : Bool := stackUsable s (stackOfBlk blk) && !blkHeld s blk && s.pm.state != .hold

def localBlk (k off : Nat) : Nat := k * 2 ^ 31 + off % 2 ^ 37 / 64

/-- Symbol errors arise in a stored word (10 R225). -/
def upset (blk : Nat) (f : BitVec 576) (s : State) : State :=
  if f = 0 then s else { s with mem := { s.mem with flips := tabPut blk (tabGetD 0 blk s.mem.flips ^^^ f) s.mem.flips } }

/-! ### BAR4 (14 R339 to R341) -/

/-- BASE of a window, its bits below the BAR4 size zero, in bytes. -/
def bar4Start (x : Fn) : Nat := x.bar4Base % 1024 / 2 ^ x.bar4Log2 * 2 ^ x.bar4Log2 * 2 ^ 30

/-- Blocks, by stack offset, of an access to `len` bytes. -/
def accessBlks (off len : Nat) : List Nat := (List.range ((off + len + 63) / 64 - off / 64)).map fun i => (off / 64 + i) * 64

/-- A violating block is latched (14 R340). -/
def violate (fn off : Nat) (write : Bool) (s : State) : State :=
  modFn fn (fun x => { x with bar4Viol := true, viol := some (x.viol.getD (off, write)) }) s

/-- Blocks read in order: their bytes, and whether the completion carries EP. -/
def bar4Blks (fn : Nat) : List Nat → State → (List Byte × Bool) × State
  | [], s => (([], false), s)
  | o :: t, s =>
    if windowBlk s fn false o then
      let r := readRaced 0 2 0 o s
      let u := bar4Blks fn t r.2
      (((if r.1.poison then rep 64 0xFF else r.1.data) ++ u.1.1, r.1.poison || u.1.2), u.2)
    else
      let u := bar4Blks fn t (violate fn o false s)
      ((rep 64 0xFF ++ u.1.1, u.1.2), u.2)

/-- A whole-block write of the physical function to a marked page (11 R279). -/
def repairShared (fn off mask : Nat) (s : State) : State :=
  let p := off / 65536
  match tabGet? p s.sharedPoison with
  | some l =>
    if fn = 0 ∧ mask = fullMask then
      let m := setIns (off / 64 % 1024) l
      if m.length = 1024 then henuaEvent 0x03 0 [p * 65536] { s with sharedPoison := tabDel p s.sharedPoison }
      else { s with sharedPoison := tabPut p m s.sharedPoison }
    else s
  | none => s

/-- One block of a BAR4 write: `bytes` are those from the access's first byte at `start`. -/
def bar4Blk (fn start : Nat) (bytes : List (Option Byte)) (o : Nat) (s : State) : State :=
  let slot (i : Nat) : Option Byte := if start ≤ o + i then ((bytes[o + i - start]?).getD none) else none
  let mask := ((List.range 64).map fun i => if (slot i).isSome then 2 ^ i else 0).sum
  if mask = 0 then s
  else if windowBlk s fn true o ∧ unreachable s 2 o = false then
    repairShared fn o mask (writeBlk fn 2 0 o ((List.range 64).map fun i => (slot i).getD 0) mask false 0 s)
  else violate fn o true s

/-! ### Accesses that wait (04 R95, R96; 05 R112, R121; 10 R242; 14 R341) -/

/-- Physical blocks that an access to usable stacks meets. -/
def accessPhys (s : State) : StackAccess → List Nat
  | .read k off _ => [localBlk k off]
  | .write k off _ _ _ => [localBlk k off]
  | .winRead _ _ start len => (accessBlks start len).filterMap (physBlk s)
  | .winWrite _ start bytes => (accessBlks start bytes.length).filterMap (physBlk s)
  | .doorbell _ _ _ => []
  | .cqHead _ _ _ => []
  | .mover _ blks => blks

/-- Two blocks of one bank pair. -/
def samePair (a b : Nat) : Bool := stackOfBlk a == stackOfBlk b && blkDie a == blkDie b && blkPair a == blkPair b

/-- An access that came before waits for one of the pairs: they are served in arrival order (04 R95). -/
def behindPair (s : State) (l : List Nat) : Bool :=
  s.held.any fun h => (accessPhys s h.acc).any fun a => l.any (samePair a)

/-- A write of the same source waits: its later writes land after it (05 R112). The source is known by its class
alone (log entry 39). -/
def behindSource (s : State) (source : Nat) : Bool :=
  s.held.any fun h => match h.acc with
    | .write _ _ _ _ x => x == source
    | _ => false

/-- One of the blocks is held, or something waits for its pair, in a stack that can be reached. -/
def blksWait (s : State) (l : List Nat) : Bool :=
  l.any fun b => stackUsable s (stackOfBlk b) && (blkHeld s b || behindPair s [b])

/-- The access cannot be served now: its pair is inside a slice or has an earlier access waiting, its link retrains, an
earlier write of its source waits, it is one of BAR4's in Hold, or it follows a window write of its function that waits
(05 R121, R122). An orderly stop answers BAR4 at once (17 R416). -/
def accessWaits (s : State) (a : StackAccess) : Bool :=
  match a with
  | .winRead fn _ _ _ => !s.pm.stopHold && (behindWrite s.held fn || powerEff s == .hold || blksWait s (accessPhys s a))
  | .winWrite fn _ _ => !s.pm.stopHold && (behindWrite s.held fn || powerEff s == .hold || blksWait s (accessPhys s a))
  | .doorbell fn _ _ => behindWrite s.held fn
  | .cqHead fn _ _ => behindWrite s.held fn
  | .read _ _ _ => blksWait s (accessPhys s a)
  | .write _ _ _ _ source => behindSource s source || blksWait s (accessPhys s a)
  | .mover _ _ => blksWait s (accessPhys s a)

/-- The access is served. During an orderly stop a window read returns 0xFF with EP and a window write is dropped
(17 R416). An agent inside reaches no word of a stack that is not usable or in Hold. A mover goes on by its own row. -/
def serveAccess (a : StackAccess) (s : State) : State :=
  match a with
  | .read k off flips => if blkReady s (localBlk k off) then (readStack (localBlk k off) (upset (localBlk k off) flips s)).2 else s
  | .write k off data mask source =>
    if blkReady s (localBlk k off) then writeStack (localBlk k off) (sliceB data 0 64) mask.toNat false source s else s
  | .winRead fn off start len =>
    if s.pm.stopHold then emit (.bar4Data fn off (rep len 0xFF) true) s
    else
      let r := bar4Blks fn (accessBlks start len) s
      emit (.bar4Data fn off (sliceB r.1.1 (start % 64) len) r.1.2) r.2
  | .winWrite fn start bytes => if s.pm.stopHold then s else forEach (bar4Blk fn start bytes) (accessBlks start bytes.length) s
  | .doorbell fn q n => setTail fn q n s
  | .cqHead fn q n => setCqHead fn q n s
  | .mover _ _ => s

/-- The stack controllers in which a slice holds the access. -/
def heldBySlice (s : State) (a : StackAccess) : List Nat :=
  ((accessPhys s a).filterMap fun b =>
    if (getStk s (stackOfBlk b)).slices.any (fun y => y.d == blkDie b && y.p == blkPair b) then some (stackOfBlk b) else none).eraseDups

/-- An access is held: a controller whose slice holds it counts it (SC_FURROW_HOST_WAIT); one of BAR4's in Hold is a
wake source (14 R341). -/
def holdAccess (a : StackAccess) (s : State) : State :=
  let ks := heldBySlice s a
  let s2 := pushHeld ⟨a, now s, ks⟩ (forEach (fun k => modStk k fun x => { x with hostWait := x.hostWait + 1 }) ks s)
  match a with
  | .winRead _ _ _ _ => wakeSource 3 false s2
  | .winWrite _ _ _ => wakeSource 3 false s2
  | _ => s2

/-- An access arrives: it is served, or it waits. -/
def arrive (a : StackAccess) (s : State) : State := if accessWaits s a then holdAccess a s else serveAccess a s

/-- A held access is served once nothing holds it; the longest hold by a slice is kept in BCLK, two ACLK each
(SC_FURROW_HOST_WAIT_MAX). -/
def offerHeld (h : Held) (s : State) : State :=
  if accessWaits s h.acc then pushHeld h s
  else
    serveAccess h.acc (forEach (fun k => modStk k fun x =>
      { x with hostWaitMax := BitVec.ofNat 16 (max x.hostWaitMax.toNat (min 65535 ((now s - h.since) / 2))) }) h.slices s)

/-- What nothing holds any longer is served, in arrival order. -/
def serveHeld (s : State) : State := forEach offerHeld s.held { s with held := [] }

/-! ### Movers (04 R95; 10 R242) -/

/-- Physical blocks of a descriptor in stack memory. -/
def descPhys (s : State) (d : Desc) : List Nat := if d.space = 2 then (dBlocks d).filterMap (physBlk s) else []

/-- The numbers of movers that are no commands: a tile's load stream and its commit, a remote queue. -/
def loadMover (t : Nat) : Nat := 2 ^ 80 + 2 * t
def commitMover (t : Nat) : Nat := 2 ^ 80 + 2 * t + 1
def peerMover (m queue : Nat) : Nat := 2 ^ 81 + m * 1024 + queue

/-- The mover `id` is recorded as waiting. -/
def moverHeld (s : State) (id : Nat) : Bool :=
  s.held.any fun h => match h.acc with
    | .mover i _ => i == id
    | _ => false

/-- The mover does not wait any more. -/
def dropMover (id : Nat) (s : State) : State :=
  { s with held := s.held.filter fun h => match h.acc with
      | .mover i _ => i != id
      | _ => true }

/-- A mover whose next blocks are held waits, once counted, and does nothing; otherwise it goes on. -/
def viaGap (id : Nat) (blks : List Nat) (f : State → State) (s : State) : State :=
  let s1 := dropMover id s
  if blksWait s1 blks then (if moverHeld s id then s else holdAccess (.mover id blks) s) else f s1

/-- Some tensor lies in the memories of a tile whose self-test runs: accesses of other sources wait (16 R382). -/
def onTest (s : State) (ds : List Desc) : Bool := ds.any fun d => (d.space == 4 || d.space == 5) && (getTile s d.inst).underTest

/-! ### The gap (04 R95, R97) -/

/-- The refresh of bank `b` of die `d` is made: one owed is paid, and its row closes. -/
def payBank (k d b : Nat) (s : State) : State :=
  modStk k (fun x =>
    { x with debt := (if tabGetD 0 (64 * d + b) x.debt ≤ 1 then tabDel (64 * d + b) x.debt else tabPut (64 * d + b) (tabGetD 0 (64 * d + b) x.debt - 1) x.debt),
             openRows := tabDel (64 * d + b) x.openRows }) s

/-- A bank that owes four refreshes is refreshed before any access is served and before the next slice. -/
def payForced (k d p : Nat) (s : State) : State :=
  forEach (fun b => whenS (decide (4 ≤ tabGetD 0 (64 * d + b) (getStk s k).debt)) (payBank k d b)) [2 * p, 2 * p + 1] s

/-- After the waiting accesses, both banks of the pair are refreshed together, where one is owed. -/
def refreshPair (k d p : Nat) (s : State) : State :=
  whenS ([2 * p, 2 * p + 1].any fun b => decide (0 < tabGetD 0 (64 * d + b) (getStk s k).debt))
    (fun t => forEach (payBank k d) [2 * p, 2 * p + 1] t) s

/-- The rows that an access opens in the pair of the gap, by bank; a mover's are its own affair. -/
def gapRows (s : State) (k d p : Nat) (a : StackAccess) : List (Nat × Nat) :=
  match a with
  | .mover _ _ => []
  | _ => ((accessPhys s a).filter fun b => stackOfBlk b == k && blkDie b == d && blkPair b == p).map fun b => (blkBank b, blkRow b)

/-- The accesses that wait for the pair are served in arrival order: the first one, and those that need no second row
of a bank; the others wait for the next gap. -/
def serveGapGo (k d p : Nat) : List Held → Tab Nat → State → State
  | [], _, s => s
  | h :: t, rows, s =>
    let mine := gapRows s k d p h.acc
    if rows.isEmpty || mine.all (fun r => (tabGetD r.2 r.1 rows) == r.2) then
      serveGapGo k d p t (if accessWaits s h.acc then rows else mine.foldl (fun m r => tabPut r.1 r.2 m) rows) (offerHeld h s)
    else serveGapGo k d p t rows (pushHeld h s)

/-- A slice ends and its gap opens (04 R91, R95, R97). -/
def closeSlice (k d p : Nat) (s : State) : State :=
  let s1 := payForced k d p (modStk k (fun x =>
    { x with slices := x.slices.filter (fun y => !(y.d == d && y.p == p)), slicesDone := x.slicesDone + 1 }) s)
  refreshPair k d p (serveGapGo k d p s1.held [] { s1 with held := [] })

end Sys2Proof.Machine
end

