-- ==== Sys2Proof/Machine/MemCmds.lean ====
section
/-! DEFINITION. Commands of class 0x02xx but FURROW (08 R194): allocation, descriptors (06 R129 to R131),
fill (10 R231), copies, permutations and transposes (06 R143 to R147), indexed copies (06 R139, R140), and
the sluice engines' checks (15 R354, R355, R358). -/

namespace Sys2Proof.Machine

/-! ### ALLOC, FREE, DESC_CREATE, DESC_DESTROY -/

/-- ALLOC (08 R194, R452): VALUE is the base; no room in the window or quota ends it. -/
def execAlloc (h : Nat) (s : State) : Res :=
  runCmd h 0x0201 (fun c s =>
    let w := pk c.pkt 1
    let space := bitsOf w 3 0
    let inst := bitsOf w 8 4
    let len := allocLen space (pk c.pkt 0)
    if !quotaOk s c.tenant space inst len then finishCmd h [stWindow] 0 s
    else
      match placeAlloc s c space inst len with
      | none => finishCmd h [stWindow] 0 s
      | some (base, s1) =>
        let a : Alloc := ⟨c.tenant, space, inst, base, len, if bitOf w 12 then some (bitsOf w 15 13) else none, bitOf w 16,
          if bitOf w 17 then some (pk c.pkt 3) else none, false, false⟩
        finishCmd h [] base { s1 with allocs := tabPut h a s1.allocs }) s

/-- Adapter slots whose source descriptor is destroyed are emptied (11 R275). -/
def emptySlots (ds : List (Nat × Nat)) (s : State) : State :=
  { s with adapters := s.adapters.filter fun a => !ds.contains (a.2.tenant, a.2.source) }

/-- Descriptors cease to exist (06 R130). -/
def dropDescs (ds : List (Nat × Nat)) (s : State) : State :=
  emptySlots ds (forEach (fun (d : Nat × Nat) => modTen d.1 fun t => { t with descs := tabDel d.2 t.descs }) ds s)

/-- FREE: the adapter slots of the descriptors made against the allocation, by any tenant, are emptied first (11 R275,
R277); descriptors and allocation go with the completion (06 R131; 08 R186). -/
def execFree (h : Nat) (s : State) : Res :=
  runCmd h 0x0202 (fun c s =>
    let ds := descsOf s (pk c.pkt 0)
    if slotWaits s c ds then s else finishCmd h [] 0 (emptySlots ds s)) s

/-- The allocation that a DESC_CREATE names. -/
def namedAlloc (c : Cmd) : Nat := let p := pk c.pkt 1; if bitOf p 55 ∧ 0 < c.tenant then p % 2 ^ 55 else p

/-- The descriptor validated at admission becomes live (06 R129), unless its allocation has gone; against one whose FREE
is live it is destroyed with it (06 R131). -/
def bornDesc (c : Cmd) (s : State) : State :=
  match c.desc, tabGet? (namedAlloc c) s.allocs with
  | some d, some a => modTen c.tenant (fun t => { t with descs := tabPut (lo32 (pk c.pkt 2)) ⟨d, namedAlloc c, a.dying⟩ t.descs }) s
  | _, _ => s

/-- DESC_CREATE: the descriptor is live from the completion on (06 R129). -/
def execDescCreate (h : Nat) (s : State) : Res := runCmd h 0x0203 (fun _ s => finishCmd h [] 0 s) s

/-- DESC_DESTROY: an adapter slot goes first (11 R275); the identifier becomes free with the completion (06 R130). -/
def execDescDestroy (h : Nat) (s : State) : Res :=
  runCmd h 0x0204 (fun c s =>
    let ds := [(c.tenant, pk c.pkt 2)]
    if slotWaits s c ds then s else finishCmd h [] 0 (emptySlots ds s)) s

/-! ### Sluice engines -/

/-- The first element of a block. -/
def firstSlot : List (Option Nat) → Option Nat
  | [] => none
  | some n :: _ => some n
  | none :: t => firstSlot t

/-- The unit that a stored-data error is recorded against (15 R355). -/
def storedUnit (space inst : Nat) : UnitRef := if space = 3 then .basin inst else .tile inst

/-- A stored-data error: the block takes its poison bit (15 R355; 10 R235). -/
def poisonBlock (space inst off tenant : Nat) (s : State) : State :=
  if 3 ≤ space ∧ space ≤ 5 then
    let z := zMem s space
    recordFault 7 2 (storedUnit space inst) tenant (off % 2 ^ 32) [] (setZ space z.1 (setIns (zKey inst off / 64) z.2) s)
  else s

/-- Blocks moved by engine `e` from descriptor `src` under what its checks find: bytes written and the
operation (15 R354, R355, R358). `f` gives the destination's slots, `from_` the source element of an element. -/
def sluiceMove (e tenant : Nat) (src dst : Desc) (from_ : Nat → Nat) (f : SlotFn) (ps : List Line) (crc : CrcOutcome) (a : Acc) : Nat × Acc :=
  match crc with
  | .clean => (64 * ps.length, wrPieces dst f ps a)
  | .retried =>
    let b := wrPieces dst f ps a
    (64 * ps.length, addOut stRecomputed true { b with s := recordFault 1 12 (.sluice e) tenant 0 [] b.s })
  | .failed i =>
    if ps.length ≤ i then (64 * ps.length, wrPieces dst f ps a)
    else
      let b := wrPieces dst f (ps.take i) a
      (64 * i, addOut stDeviceFault true { b with s := faultEvent 2 12 (.sluice e) tenant 0 [] (scramble dst b.s) })
  | .parity i =>
    let a1 := match (ps[i]?).bind fun l => firstSlot l.slots with
      | some n => { a with s := poisonBlock src.space src.inst ((elAddr src (from_ n)).1 / 64 * 64) tenant a.s }
      | none => a
    (64 * ps.length, wrPieces dst f ps a1)

/-- The outputs of a command that touched a poisoned shared page are unpredictable (11 R279). -/
def scrambleTouched (h : Nat) (a : Acc) : State :=
  match (if a.outs.contains stSharedPoisoned then getCmd? a.s h else none) with
  | some c => forEach scramble (((descUses c.pkt).filter fun u => u.dest && u.id != 0).map fun u => cmdDesc a.s c u.id) a.s
  | none => a.s

/-- The command ends with what its data operation met. -/
def finishAcc (h value : Nat) (a : Acc) : State := finishCmd h a.outs value (scrambleTouched h a)

/-! ### Overlap (06 R145): the result is unpredictable -/

def footprintsMeet (a b : Desc) : Bool :=
  a.space == b.space && a.inst == b.inst && !dEmpty a && !dEmpty b && decide (dLo a ≤ dHi b ∧ dLo b ≤ dHi a)

/-- Slots with unpredictable contents (00 R4). -/
def freeSlots (d : Desc) : SlotFn := fun _ a =>
  let v := freshVal (elBytes d.fmt 1) a.s
  (some (v.1 % 2 ^ fmtBits d.fmt, false), { a with s := v.2 })

/-- The statuses, beside ST_OK, that a data command completes with. -/
def copyEnds : List Nat := [stRecomputed, stDataPoisoned, stSharedPoisoned, stDeviceFault]

/-- Operands that the device does not check end the command with any status of its opcode: a FREE choice (00 R4; 04
R104; 06 R148; log entry 6). -/
def freeEnd (ends : List Nat) (a : Acc) : Acc :=
  { a with outs := (ends[Config.freeStatus a.s.freeCtr % (ends.length + 1)]?).toList, s := { a.s with freeCtr := a.s.freeCtr + 1 } }

/-! ### Writers of the same bytes with no order (05 R125; 04 R104) -/

/-- Destinations of a command. -/
def cmdDests (s : State) (c : Cmd) : List Desc := ((descUses c.pkt).filter fun u => u.dest && u.id != 0).map fun u => cmdDesc s c u.id

/-- Data commands in progress that nothing orders with `c`: not admitted only, not of its sluice queue. -/
def unordered (s : State) (c : Cmd) : List Cmd :=
  s.cmds.filter fun x => x.handle != c.handle && x.stage != .admitted && (x.pkt.opcode == 0x0205 || sluiceBound x.pkt) &&
    !((sluiceQueueOf s x.handle).isSome && sluiceQueueOf s x.handle == sluiceQueueOf s c.handle)

/-- Blocks that both descriptors write hold FREE bytes. -/
def freeMeet (d e : Desc) (s : State) : State :=
  if footprintsMeet d e then
    forEach (fun o u => let b := freeBlock u; writeBlk 0 d.space d.inst o b.1 fullMask false 1 b.2)
      (let l := dBlocks e; (dBlocks d).filter l.contains) s
  else s

/-- After its writes to `ds`: what a writer in progress also writes is unpredictable, and those that write later hear
of it. The writer is a command, or furrow operation `fop`, whose own command is no rival; atomics meet other atomics in order. -/
def meetRivals (c : Option Cmd) (fop : Option Nat) (atomic : Bool) (rivals ds : List Desc) (s : State) : State :=
  let own := (fop.bind (getFop? s)).bind (·.source)
  let cs := match c with
    | some c => unordered s c
    | none => s.cmds.filter fun x => some x.handle != own && x.stage != Stage.admitted && (x.pkt.opcode == 0x0205 || sluiceBound x.pkt)
  let fs := s.fops.filter fun e => some e.1 != fop && (e.2.source.isNone || e.2.source != c.map (·.handle)) && !(atomic && e.2.params.op / 16 == 3)
  let others := rivals ++ cs.flatMap (cmdDests s) ++ fs.flatMap fun e => e.2.params.dst.toList ++ e.2.params.result.toList
  let s1 := forEach (fun d => forEach (freeMeet d) others) ds s
  let hot (l : List Desc) : Bool := l.any fun e => ds.any (footprintsMeet e)
  { s1 with cmds := s1.cmds.map fun x => if (cs.any fun y => y.handle == x.handle) && x.stage == .running && hot (cmdDests s x) then
              { x with rivals := x.rivals ++ ds } else x,
            fops := tabMap (fun i o => if (fs.any fun e => e.1 == i) && !o.computed && hot (o.params.dst.toList ++ o.params.result.toList) then
              { o with rivals := o.rivals ++ ds } else o) s1.fops }

/-- A data command ends that has written `ds`. -/
def finishMove (c : Cmd) (ds : List Desc) (value : Nat) (a : Acc) : State :=
  finishAcc c.handle value { a with s := meetRivals (some c) none false c.rivals ds a.s }

/-! ### Patterns (04 R80) -/

/-- The pattern's bits at an element, by its position in its 64-byte block. -/
def patternAt (p4 p5 : Nat) (d : Desc) (n : Nat) : Nat :=
  let a := elAddr d n
  let bit := 8 * (a.1 % 16) + (if a.2 then 4 else 0)
  (p4 + p5 * 2 ^ 64) / 2 ^ bit % 2 ^ fmtBits d.fmt

/-! ### COPY (06 R144 to R147) -/

/-- The source element of destination element `n` (06 R144). -/
def permuted (a b : Desc) (perm n : Nat) : Nat :=
  let idx := unflat (usedSizes b) n
  flatIdx (usedSizes a) ((List.range a.rank).map fun j => idx.getD (((List.range b.rank).find? fun k => permAt perm k == j).getD 0) 0)

/-- The in-place transpose by the store path: the whole tensor is read before any of it is written (06 R146). -/
def transposeInPlace (d : Desc) (a : Acc) : Nat × Acc :=
  let n := dSize d 0
  let r := rdEls d (n * n) 0 a
  let ps := dPieces d
  (64 * ps.length, wrPieces d (fun i b => (some (r.1.getD (i % n * n + i / n) (0, false)), b)) ps r.2)

/-- A copy or an indexed copy in its queue of a sluice engine: it waits for the copies before it and for blocks that
are held or a tile under test (16 R382); without an engine that takes it, it ends (01 R20). `move` does the work on an engine. -/
def onSluice (c : Cmd) (a b ix : Desc) (move : Nat → Acc → Nat × Acc) (s : State) : State :=
  if !sluiceTurn s c.handle || onTest s [a, b, ix] then s
  else if dEmpty a || dEmpty b then finishCmd c.handle [] 0 s
  else
    let joined := (sluiceQueueOf s c.handle).map (· / 8)
    match (if (joined.map (sluiceUsable s)).getD false then joined else sluiceFor s c) with
    | none => finishCmd c.handle [stDeviceFault] 0 (scramble b s)
    | some e =>
      viaGap c.handle (descPhys s a ++ descPhys s b ++ descPhys s ix)
        (fun s => let r := move e (Acc.on c.tenant 1 s); finishMove c [b] r.1 r.2) s

/-- COPY; VALUE counts the bytes written. -/
def execCopy (h : Nat) (crc : CrcOutcome) (s : State) : Res :=
  runCmd h 0x0206 (fun c s =>
    let a := cmdDesc s c (lo32 (pk c.pkt 0))
    let b := cmdDesc s c (hi32 (pk c.pkt 0))
    let perm := bitsOf (pk c.pkt 1) 17 0
    if bitOf (pk c.pkt 1) 24 ∧ onTest s [b] = true then s
    else if bitOf (pk c.pkt 1) 24 then let r := transposeInPlace b (Acc.on c.tenant 1 s); finishMove c [b] r.1 r.2
    else if a = b ∧ (List.range 6).all (fun k => permAt perm k == k) then (if sluiceTurn s h then finishCmd h [] 0 s else s)
    else
      onSluice c a b default (fun e x =>
        if footprintsMeet a b then
          let r := sluiceMove e c.tenant a b (permuted a b perm) (freeSlots b) (dPieces b) crc x
          (r.1, freeEnd copyEnds r.2)
        else sluiceMove e c.tenant a b (permuted a b perm) (fun n y => let r := rdEl a (permuted a b perm n) y; (some r.1, r.2)) (dPieces b) crc x) s) s

/-! ### COPY_INDEXED (06 R139, R140) -/

/-- The item that entry `i` of an index list selects. -/
def indexAt (ix : Desc) (count i : Nat) (a : Acc) : Nat × Acc :=
  let r := rdEl ix i a
  (clampIdx count r.1.1, r.2)

/-- All entries of an index list, clamped. -/
def indexList (ix : Desc) (count : Nat) (a : Acc) : List Nat × Acc :=
  let r := rdEls ix (dCount ix) 0 a
  (r.1.map fun v => clampIdx count v.1, r.2)

/-- The source element that an indexed copy puts into destination element `n`: the last entry in list order
wins in a scatter. -/
def indexedFrom (scatter : Bool) (l : List Nat) (size n : Nat) : Option Nat :=
  let item := n / size
  if scatter then
    let hits := l.zipIdx.filter fun e => e.1 == item
    (hits.getLast?).map fun e => e.2 * size + n % size
  else (l[item]?).map fun i => i * size + n % size

/-- The blocks that an indexed copy writes: those with an element it moves, and in the block layouts every one (06
R143). -/
def indexedPieces (b : Desc) (from_ : Nat → Option Nat) : List Line :=
  (dPieces b).filter fun p => b.layout != 0 || p.slots.any fun sl => match sl with
    | some n => (from_ n).isSome
    | none => false

/-- COPY_INDEXED; VALUE counts the items moved. -/
def execCopyIndexed (h : Nat) (crc : CrcOutcome) (s : State) : Res :=
  runCmd h 0x0207 (fun c s =>
    let a := cmdDesc s c (lo32 (pk c.pkt 0))
    let b := cmdDesc s c (hi32 (pk c.pkt 0))
    let ix := cmdDesc s c (lo32 (pk c.pkt 1))
    let scatter := bitOf (pk c.pkt 1) 32
    if dEmpty ix then (if sluiceTurn s h then finishCmd h [] 0 s else s)
    else
      onSluice c a b ix (fun e x =>
        let l := indexList ix (itemCount (if scatter then b else a)) x
        let from_ := indexedFrom scatter l.1 (itemSize b)
        let f : SlotFn := fun n y =>
          match from_ n with
          | none => (none, y)
          | some m => if footprintsMeet a b then freeSlots b n y else let r := rdEl a m y; (some r.1, r.2)
        let r := sluiceMove e c.tenant a b (fun n => (from_ n).getD 0) f (indexedPieces b from_) crc l.2
        (dCount ix, if footprintsMeet a b then freeEnd copyEnds r.2 else r.2)) s) s

end Sys2Proof.Machine
end

