-- ==== Sys2Proof/Machine/FurrowOps.lean ====
section
/-! DEFINITION. What each furrow operation computes (04 R78 to R90): values, order of combination (04 R85),
poison (04 R101). A whole operation is computed at once, in its element order. -/

namespace Sys2Proof.Machine

/-- A value with whether it derives from poisoned data (04 R101). -/
abbrev PV := Nat × Bool

/-- Read the elements with these numbers, in order. -/
def rdList (d : Desc) : List Nat → Acc → List PV × Acc
  | [], a => ([], a)
  | n :: t, a =>
    let v := rdEl d n a
    let r := rdList d t v.2
    (v.1 :: r.1, r.2)

def anyPoison (l : List PV) : Bool := l.any (·.2)
def flsOf (fmt : Nat) (l : List PV) : List Fl := l.map fun v => decFmt fmt v.1
def intsOf (fmt : Nat) (l : List PV) : List Int := l.map fun v => signedOf (fmtBits fmt) v.1

/-- Blocks of a destination that hold one of its first `n` elements, and every one in the block layouts (06 R143). -/
def firstPieces (d : Desc) (n : Nat) : List Line :=
  (dPieces d).filter fun l => d.layout != 0 || l.slots.any fun x => match x with
    | some k => decide (k < n)
    | none => false

/-- Write elements 0 to `n` − 1 from `f`, padding zero; later elements stay. -/
def wrFirst (d : Desc) (n : Nat) (f : Nat → Acc → PV × Acc) (a : Acc) : Acc :=
  wrPieces d (fun k x => if k < n then let r := f k x; (some r.1, r.2) else (none, x)) (firstPieces d n) a

/-! ### Row operations (04 R80) -/

def logicFn (sub a b w : Nat) : Nat :=
  match sub with
  | 1 => a &&& b
  | 2 => a ||| b
  | 3 => a ^^^ b
  | 4 => a &&& (b ^^^ (2 ^ w - 1))
  | _ => a ^^^ (2 ^ w - 1)

/-- Destination and source overlap other than exactly (04 R104): the contents are unpredictable. -/
def badOverlap (exactOk : Bool) (a d : Desc) : Bool :=
  footprintsMeet a d && !(exactOk && a.base == d.base && a.size == d.size && a.stride == d.stride && a.rank == d.rank)

/-- Every destination element from `f`, or unpredictable where the operands overlap badly, with any status. -/
def wrRows (bad : Bool) (d : Desc) (f : Nat → Acc → PV × Acc) (a : Acc) : Acc :=
  if bad then freeEnd copyEnds (wrPieces d (freeSlots d) (dPieces d) a)
  else wrPieces d (fun k x => let r := f k x; (some r.1, r.2)) (dPieces d) a

def fopCopyGo (p : FopParams) (a : Acc) : Acc :=
  let x := p.srcA.getD default
  let d := p.dst.getD default
  wrRows (badOverlap true x d) d (fun n b => rdEl x n b) a

/-- The pattern as what a writer puts in a slot. -/
def patternSlots (p4 p5 : Nat) (d : Desc) : SlotFn := fun n b => (some (patternAt p4 p5 d n, false), b)

def fopFillGo (p : FopParams) (a : Acc) : Acc :=
  let d := p.dst.getD default
  wrPieces d (patternSlots p.sc0.toNat p.sc1.toNat d) (dPieces d) a

/-- A block of a FILL that holds element bytes alone. -/
def wholePiece (l : Line) : Bool := l.slots.all Option.isSome

/-- A stack whose furrow units carry out FOP_FILL (04 R102). -/
def fillServed (s : State) (l : Line) : Bool :=
  match physBlk s l.addr with
  | some b => stackUsable s (stackOfBlk b) && !(getStk s (stackOfBlk b)).noFurrow
  | none => false

/-- The part of a FILL of whole element blocks (10 R231): by furrow units, or by the sluice engines of the compute die
in a stack that none of them serves (04 R102). -/
def fillPartGo (p : FopParams) (a : Acc) : Acc :=
  let d := p.dst.getD default
  let f := patternSlots p.sc0.toNat p.sc1.toNat d
  let ps := (dPieces d).partition fun l => fillServed a.s l
  let b := wrPieces d f (ps.1.filter wholePiece) { a with source := 3 }
  wrPieces d f (ps.2.filter wholePiece) { b with source := 1 }

def fopLogicGo (p : FopParams) (a : Acc) : Acc :=
  let x := p.srcA.getD default
  let d := p.dst.getD default
  let y := p.srcB.getD default
  let w := fmtBits d.fmt
  wrRows (badOverlap true x d || (p.sub != 5 && badOverlap true y d)) d (fun n b =>
    let u := rdEl x n b
    if p.sub = 5 then ((logicFn 5 u.1.1 0 w, u.1.2), u.2)
    else
      let v := rdEl y n u.2
      ((logicFn p.sub u.1.1 v.1.1 w, u.1.2 || v.1.2), v.2)) a

/-! ### Dot products and scaled accumulation (04 R81 to R83) -/

/-- A non-zero FP32 in SCALAR0 multiplies a result with one further rounding; an INT32 result is converted
back under 03 R50 to R52 (log entry 22). -/
def dotScale (sc fmtOut : Nat) (v : Nat) : Nat :=
  if isZeroX (dec32 sc) then v
  else (convTo fmtOut (mulX (decFmt fmtOut v) (dec32 sc))).code

/-- One dot product, in its output format (04 R81). -/
def dotOne (fa fb fmtOut : Nat) (x y : List PV) : Nat :=
  if fa = 1 then
    let z := dotI (intsOf 1 x) (intsOf 1 y)
    if fmtOut = 6 then patOf 32 z else enc32 (flOfInt z)
  else dotF (flsOf fa x) (flsOf fb y)

def fopDotGo (p : FopParams) (a : Acc) : Acc :=
  let x := p.srcA.getD default
  let y := p.srcB.getD default
  let d := p.dst.getD default
  let segs := dCount x / p.vecLen
  wrFirst d (segs * p.vecCount) (fun n b =>
    let u := rdEls x p.vecLen (n % segs * p.vecLen) b
    let v := rdEls y p.vecLen (n / segs * p.vecLen) u.2
    ((dotScale (lo32 p.sc0.toNat) d.fmt (dotOne x.fmt y.fmt d.fmt u.1 v.1), anyPoison u.1 || anyPoison v.1), v.2)) a

/-- The scale of a row (04 R82, R83). -/
def rowScaleOf (p : FopParams) (row : Nat) (a : Acc) : PV × Acc :=
  match p.srcB with
  | some y => rdEl y row a
  | none => ((lo32 p.sc0.toNat, false), a)

def widen (fmt v : Nat) : Nat := enc32 (decFmt fmt v)
def toFmt (fmt v : Nat) : Nat := if fmt = 4 then encB16 (dec32 v) else v

def fopAxpyGo (p : FopParams) (a : Acc) : Acc :=
  let x := p.srcA.getD default
  let d := p.dst.getD default
  wrRows (badOverlap true x d || (p.srcB.map fun y => badOverlap true y d).getD false) d (fun n b =>
    let al := rowScaleOf p (n / dSize x 0) b
    let u := rdEl x n al.2
    let v := rdEl d n u.2
    ((toFmt d.fmt (ffma al.1.1 (widen x.fmt u.1.1) (widen d.fmt v.1.1)), al.1.2 || u.1.2 || v.1.2), v.2)) a

/-! ### Order of combination (04 R85) -/

/-- stack · 512 + d · 32 + p of the pair that holds an element. -/
def unitKey (s : State) (d : Desc) (n : Nat) : Nat :=
  match physBlk s (elAddr d n).1 with
  | some b => let u := unitOfBlk b; u.1 * 512 + u.2.1 * 32 + u.2.2
  | none => 0

/-- Ascending keys without repeats. -/
def keysOf (l : List (Nat × PV)) : List Nat := l.foldl (fun a e => setIns e.1 a) []

def foldSome (f : Nat → Nat → Nat) : List Nat → Option Nat
  | [] => none
  | v :: t => some (t.foldl f v)

/-- Partials of pairs, then of stacks, each in ascending order (04 R85). `one` reduces the items of one pair. -/
def combine (f : Nat → Nat → Nat) (one : List Nat → Option Nat) (l : List (Nat × PV)) : Option Nat :=
  let parts := (keysOf l).filterMap fun k => (one ((l.filter fun e => e.1 == k).map fun e => e.2.1)).map fun v => (k, v)
  foldSome f (((List.range 8).filterMap fun st => foldSome f ((parts.filter fun e => e.1 / 512 == st).map (·.2))))

def fopAxpyReduceGo (p : FopParams) (a : Acc) : Acc :=
  let x := p.srcA.getD default
  let d := p.dst.getD default
  let w := dSize x 0
  let rows := dRows x
  if rows * w = 0 then a else
  let al := (List.range rows).foldl (fun (r : List PV × Acc) i => let v := rowScaleOf p i r.2; (r.1 ++ [v.1], v.2)) (([], a) : List PV × Acc)
  wrFirst d w (fun j b =>
    let u := rdList x ((List.range rows).map fun i => i * w + j) b
    let items := u.1.zipIdx.map fun e => (unitKey u.2.s x (e.2 * w + j), (e.2, e.1.2))
    let one (is : List Nat) : Option Nat :=
      some (is.foldl (fun acc i => ffma ((al.1.getD i (0, false)).1) (widen x.fmt ((u.1.getD i (0, false)).1)) acc) 0)
    ((toFmt d.fmt ((combine fadd one items).getD 0), anyPoison u.1 || anyPoison al.1), u.2)) al.2

/-! ### Gathers and segments (04 R84 to R86) -/

def iMin (a b : Nat) : Nat := if signedOf 32 b < signedOf 32 a then b else a
def iMax (a b : Nat) : Nat := if signedOf 32 a < signedOf 32 b then b else a

/-- The reduction of one output element over its items. -/
def reduceItems (sub fmtIn fmtOut : Nat) (sc : Nat) (l : List (Nat × PV)) : Nat :=
  if l.isEmpty then (convTo fmtOut (dec32 sc)).code
  else if fmtIn = 6 then
    let f : Nat → Nat → Nat := if sub = 2 then iMin else if sub = 3 then iMax else fun a b => (a + b) % 2 ^ 32
    let v := (combine f (foldSome f) l).getD 0
    if sub = 4 then (convTo 6 (dec32 (fmul (enc32 (flOfInt (signedOf 32 v))) (oneOver l.length)))).code else v
  else
    let f : Nat → Nat → Nat := if sub = 2 then fmin else if sub = 3 then fmax else fadd
    let one (is : List Nat) : Option Nat :=
      if sub = 2 ∨ sub = 3 then (foldSome f is).map fun v => f v v else foldSome f is
    let v := (combine f one (l.map fun e => (e.1, (widen fmtIn e.2.1, e.2.2)))).getD 0
    toFmt fmtOut (if sub = 4 then fmul v (oneOver l.length) else v)

/-- Outputs of a gather or segment: `span o` gives the index positions of output `o` and their poison; outputs in `bad`
are unpredictable. -/
def gatherGo (p : FopParams) (outs : Nat) (bad : List Nat) (span : Nat → Acc → (List Nat × Bool) × Acc) (a : Acc) : Acc :=
  let x := p.srcA.getD default
  let d := p.dst.getD default
  let ix := p.index.getD default
  let size := itemSize x
  wrFirst d (outs * size) (fun n b =>
    if bad.contains (n / size) then let v := freshVal (elBytes d.fmt 1) b.s; ((v.1 % 2 ^ fmtBits d.fmt, false), { b with s := v.2 })
    else
    let sp := span (n / size) b
    let is := rdList ix sp.1.1 sp.2
    let els := is.1.map fun v => clampIdx (itemCount x) v.1 * size + n % size
    let u := rdList x els is.2
    let items := List.zipWith (fun e v => (unitKey u.2.s x e, v)) els u.1
    ((reduceItems p.sub x.fmt d.fmt (lo32 p.sc0.toNat) items, sp.1.2 || anyPoison is.1 || anyPoison u.1), u.2)) a

def fopGatherGo (p : FopParams) (a : Acc) : Acc :=
  gatherGo p (dCount (p.index.getD default) / p.vecLen) [] (fun o b => (((List.range p.vecLen).map fun i => o * p.vecLen + i, false), b)) a

/-- A segment offset clamped to 0 .. count of INDEX (04 R84). -/
def clampOff (n w : Nat) : Nat := let i := signedOf 32 w; if i < 0 then 0 else min i.toNat n

/-- Segments whose offsets do not ascend: their outputs are unpredictable (04 R104), and the operation ends with any
status. -/
def badSegments (offs : List Int) : List Nat :=
  ((offs.zip (offs.drop 1)).zipIdx.filter fun e => decide (e.1.2 < e.1.1)).map (·.2)

def fopSegmentGo (p : FopParams) (a : Acc) : Acc :=
  let sg := p.segment.getD default
  let n := dCount (p.index.getD default)
  let offs := rdEls sg (dCount sg) 0 a
  let bad := badSegments (intsOf 6 offs.1)
  (fun r => if bad.isEmpty then r else freeEnd copyEnds r) <|
  gatherGo p (dCount sg - 1) bad (fun o b =>
    let u := rdEls sg 2 o b
    let lo := clampOff n ((u.1.getD 0 (0, false)).1)
    let hi := clampOff n ((u.1.getD 1 (0, false)).1)
    (((List.range (hi - lo)).map fun i => lo + i, anyPoison u.1), u.2)) offs.2

/-! ### Atomics (04 R87, R88) and page scores (R90) -/

/-- New value of a target and whether a bounded add is refused (04 R87). -/
def atomicFn (p : FopParams) (fmt old v : Nat) : Nat × Bool :=
  let w := fmtBits fmt
  let flt := fmt == 4 || fmt == 5
  match p.sub with
  | 1 =>
    if fmt = 5 then (fadd old v, false) else if fmt = 4 then (encB16 (dec32 (fadd (widen 4 old) (widen 4 v))), false)
    else ((old + v) % 2 ^ w, false)
  | 2 => (if flt then toFmt fmt (fmin (widen fmt old) (widen fmt v)) else if signedOf w v < signedOf w old then v else old, false)
  | 3 => (if flt then toFmt fmt (fmax (widen fmt old) (widen fmt v)) else if signedOf w old < signedOf w v then v else old, false)
  | _ =>
    let r := signedOf 32 old + signedOf 32 v
    if signedOf 32 (lo32 p.sc0.toNat) ≤ r ∧ r ≤ signedOf 32 (lo32 p.sc1.toNat) then (patOf 32 r, false) else (old, true)

/-- Targets in list order; `n` entries from `i`. The count of refused elements comes with the operation. A target
decided from poisoned data is written poisoned, and not refused (04 R101; log entry 38). -/
def atomicGo (p : FopParams) : Nat → Nat → Nat × Acc → Nat × Acc
  | 0, _, r => r
  | n + 1, i, r =>
    let d := p.dst.getD default
    let ix := rdEl (p.index.getD default) i r.2
    let v := rdEl (p.srcB.getD default) i ix.2
    let e := clampIdx (dCount d) ix.1.1
    let o := rdEl d e v.2
    let bad := ix.1.2 || v.1.2 || o.1.2
    let z := atomicFn p d.fmt o.1.1 v.1.1
    let a1 := if z.2 && !bad then o.2 else wrEl d e z.1 bad o.2
    let a2 := if p.op = 0x31 then
        wrEl (p.result.getD default) i (o.1.1 + (if z.2 then 2 ^ 32 else 0)) bad a1
      else a1
    atomicGo p n (i + 1) (r.1 + b2n (z.2 && !bad), a2)

/-- One page's mass: groups of 16 over heads and positions in ascending order (04 R90). -/
def pageMass (l : List PV) : Nat := groupSum (flsOf 5 l)

def pageScoreGo (p : FopParams) : Nat → Nat → Acc → Acc
  | 0, _, a => a
  | n + 1, i, a =>
    let d := p.dst.getD default
    let ix := rdEl (p.index.getD default) i a
    let m := rdEls (p.srcB.getD default) (p.vecCount * 256) (i * p.vecCount * 256) ix.2
    let e := clampIdx (dCount d) ix.1.1
    let o := rdEl d e m.2
    pageScoreGo p n (i + 1)
      (wrEl d e (fadd (fmul o.1.1 (lo32 p.sc0.toNat)) (pageMass m.1)) (ix.1.2 || anyPoison m.1 || o.1.2) o.2)

/-- Element numbers that an index list selects, as it stands; nothing is decoded for a reader. -/
def peekIndex (s : State) (ix : Desc) (count : Nat) : List Nat :=
  (rdEls ix (dCount ix) 0 (Acc.start 3 s)).1.map fun v => clampIdx count v.1

/-- Module offsets of the blocks that an operation works on in its pairs: its rows, and of items and targets those that
its index list selects. -/
def workBlocks (s : State) (p : FopParams) : List (Desc × Nat) :=
  let d := p.dst.getD default
  let x := p.srcA.getD default
  let rows (l : List Desc) : List (Desc × Nat) := (l.filter fun e => e.space == 2).flatMap fun e => (dBlocks e).map fun o => (e, o)
  let els (e : Desc) (l : List Nat) : List (Desc × Nat) := l.map fun n => (e, (elAddr e n).1)
  if p.op = 0x20 ∨ p.op = 0x21 then
    els x ((peekIndex s (p.index.getD default) (itemCount x)).flatMap fun i => (List.range (itemSize x)).map fun j => i * itemSize x + j)
  else if p.op / 16 = 3 ∨ p.op = 0x40 then els d (peekIndex s (p.index.getD default) (dCount d))
  else rows (p.srcA.toList ++ (if p.op = 0x03 then p.srcB.toList else []) ++ (if p.op ≤ 3 ∨ p.op = 0x11 then p.dst.toList else []))

/-- Pairs that have work of the operation, as stack · 512 + d · 32 + p, ascending. -/
def workUnits (s : State) (p : FopParams) : List Nat :=
  (workBlocks s p).foldl (fun l e => match physBlk s e.2 with
    | some b => setIns (512 * stackOfBlk b + 32 * blkDie b + blkPair b) l
    | none => l) []

/-- The operation as a whole: elements refused, and the state after its writes. -/
def fopGo (p : FopParams) (a : Acc) : Nat × Acc :=
  let n := dCount (p.index.getD default)
  match p.op with
  | 0x01 => (0, fopCopyGo p a)
  | 0x02 => (0, fopFillGo p a)
  | 0x03 => (0, fopLogicGo p a)
  | 0x10 => (0, fopDotGo p a)
  | 0x11 => (0, fopAxpyGo p a)
  | 0x12 => (0, fopAxpyReduceGo p a)
  | 0x20 => (0, fopGatherGo p a)
  | 0x21 => (0, fopSegmentGo p a)
  | 0x30 => atomicGo p n 0 (0, a)
  | 0x31 => atomicGo p n 0 (0, a)
  | 0x40 => (0, pageScoreGo p n 0 a)
  | _ => (0, a)

end Sys2Proof.Machine
end

