-- ==== Sys2Proof/Machine/Furrow.lean ====
section
/-! DEFINITION. Furrow operations in the stack controllers: issue (08 R194; 04 R76 to R78), the eleven
operations, slices under the activation budget (04 R91 to R93), substitutes (R102), checks (R100), slice
ends and refresh (R95, R97). -/

namespace Sys2Proof.Machine

/-! ### Issue -/

/-- A furrow operation of a tenant, just issued. -/
def newFop (p : FopParams) (tenant : Nat) (source run : Option Nat) (marked : Bool) (s : State) : FurrowOp :=
  ⟨p, tenant, source, run, s.nextFop, false, [], [], 0, false, marked,
   ((p.dst.toList ++ p.result.toList).filter fun d => d.space == 2).flatMap dBlocks, []⟩

/-- A furrow operation reaches its stack controllers (04 R78); where no furrow unit of a stack that holds
its rows can serve, it fails at once (R102), a FILL apart. -/
def startFop (o : FurrowOp) (s : State) : State :=
  let id := s.nextFop
  let s1 := { s with fops := tabPut id o s.fops, nextFop := id + 1 }
  if !isFill s o && (fopStacks s o.params).any (fun k => (getStk s k).noFurrow) then stopFops (fun x => x.arrived == o.arrived) stDeviceFault s1
  else s1

/-- The tenant's descriptors as they were named, those that await a destroy included (06 R130). -/
def undying (t : Nat) (s : State) : State :=
  modTen t (fun x => { x with descs := tabMap (fun _ d => { d with dying := false }) x.descs }) s

/-- FURROW: the operation goes to the stack controllers, once (08 R194). -/
def execFurrow (h : Nat) (s : State) : Res :=
  runCmd h 0x0210 (fun c s =>
    if s.fops.any fun e => e.2.source == some h then s
    else startFop (newFop (fopOfPacket (undying c.tenant s) c.tenant c.pkt) c.tenant (some h) none false s) s) s

/-! ### FILL (08 R194; 10 R231) -/

/-- The FOP_FILL of a FILL. -/
def fillParams (c : Cmd) (d : Desc) : FopParams :=
  { op := 0x02, sub := 0, fmtIn := 0, fmtOut := 0, vecLen := 0, vecCount := 0, dst := some d, srcA := none, srcB := none, index := none,
    segment := none, result := none, sc0 := BitVec.ofNat 64 (pk c.pkt 4), sc1 := BitVec.ofNat 64 (pk c.pkt 5), counter := none, signalN := 0 }

/-- The part of a FILL in stack memory that does not go by FOP_FILL: blocks with padding, through the merge buffer. The
rest is one furrow operation, whose end completes the command. -/
def fillStack (c : Cmd) (d : Desc) (s : State) : State :=
  let ps := dPieces d
  let rest := ps.filter fun l => !wholePiece l
  viaGap c.handle (rest.filterMap fun l => physBlk s l.addr)
    (fun s =>
      let a := wrPieces d (patternSlots (pk c.pkt 4) (pk c.pkt 5) d) rest (Acc.on c.tenant 1 s)
      if rest.length = ps.length then finishMove c [d] (64 * ps.length) a
      else startFop { newFop (fillParams c d) c.tenant (some c.handle) none false a.s with outcomes := a.outs, refused := 64 * ps.length, rivals := c.rivals } a.s) s

/-- FILL; VALUE counts every byte written, padding included (log entry 21). In spaces 3 to 5 a sluice engine of the
die carries it out; with none usable it ends like a copy without an engine (log entry 20). -/
def execFill (h : Nat) (s : State) : Res :=
  runCmd h 0x0205 (fun c s =>
    let d := cmdDesc s c (lo32 (pk c.pkt 0))
    let ps := dPieces d
    if s.fops.any fun e => e.2.source == some h then s
    else if d.space = 2 then fillStack c d s
    else if onTest s [d] then s
    else
      let die := if d.space = 3 then d.inst else dieOfTile d.inst
      if ps.isEmpty ∨ (List.range 4).any (fun i => sluiceUsable s (4 * die + i)) then
        finishMove c [d] (64 * ps.length) (wrPieces d (patternSlots (pk c.pkt 4) (pk c.pkt 5) d) ps (Acc.on c.tenant 1 s))
      else finishCmd h [stDeviceFault] 0 (scramble d s)) s

/-! ### The operations -/

/-- Every pair that has work of the operation has begun a slice of it (04 R91, R92); a pair that no furrow unit serves
begins none. -/
def fopBegun (s : State) (o : FurrowOp) : Bool :=
  (workUnits s o.params).all fun u =>
    o.touched.contains (u / 512, u / 32 % 16, u % 32) || (getStk s (u / 512)).noFurrow || !stackUsable s (u / 512)

/-- The operation `id`, of code `op`, whose slices have begun, makes all its writes; it ends when no slice of it is left
(04 R78). What a step that loaded poison issued is marked (10 R235). -/
def runFop (id op : Nat) (s : State) : Res :=
  match getFop? s id with
  | none => .next s
  | some o =>
    if o.params.op = op ∧ o.computed = false ∧ o.stopped = false ∧ fopBegun s o = true then
      let a : Acc := { Acc.on o.tenant 3 s with mark := o.marked }
      let r := if isFill s o then (0, fillPartGo o.params a) else fopGo o.params a
      let s1 := whenS (r.2.outs.contains stSharedPoisoned) (scrambleFop id)
        (meetRivals none (some id) (op / 16 == 3) o.rivals (o.params.dst.toList ++ o.params.result.toList) r.2.s)
      .next (settleFop id (modFop id (fun x => { x with computed := true, refused := x.refused + r.1, outcomes := addOutcomes r.2.outs x.outcomes }) s1))
    else .next s

def execFopCopy (id : Nat) (s : State) : Res := runFop id 0x01 s
def execFopFill (id : Nat) (s : State) : Res := runFop id 0x02 s
def execFopLogic (id : Nat) (s : State) : Res := runFop id 0x03 s
def execFopDot (id : Nat) (s : State) : Res := runFop id 0x10 s
def execFopAxpy (id : Nat) (s : State) : Res := runFop id 0x11 s
def execFopAxpyReduce (id : Nat) (s : State) : Res := runFop id 0x12 s
def execFopGather (id : Nat) (s : State) : Res := runFop id 0x20 s
def execFopSegment (id : Nat) (s : State) : Res := runFop id 0x21 s
def execFopAtomic (id : Nat) (s : State) : Res := runFop id 0x30 s
def execFopAtomicFetch (id : Nat) (s : State) : Res := runFop id 0x31 s
def execFopPageScore (id : Nat) (s : State) : Res := runFop id 0x40 s

/-! ### The activation budget (04 R92; 17 R414, R415) -/

def thermalStack (x : Stack) : Nat := if x.thermalLimited then 128 else 256
def thermalDie (x : Stack) : Nat := if x.thermalLimited then 8 else 16
def effStack (s : State) (k : Nat) : Nat := min (min (getStk s k).stackLimit (thermalStack (getStk s k))) s.pm.limStack
def effDie (s : State) (k : Nat) : Nat := min (min (getStk s k).dieLimit (thermalDie (getStk s k))) s.pm.limDie

/-! ### Who computes (04 R102) -/

/-- Distance in pair number, the lower pair first on a tie. -/
def pairDist (p q : Nat) : Nat := 2 * (if p ≤ q then q - p else p - q) + b2n (decide (p < q))

def serves (s : State) (k u : Nat) : Bool := furrowFree s (512 * k + u)

/-- The unit (d · 32 + p) that computes for a pair: its own, or the substitute of 04 R102. -/
def workerOf (s : State) (k d p : Nat) : Option Nat :=
  if serves s k (32 * d + p) then some (32 * d + p)
  else
    let die := sortKey (pairDist p) (List.range 32)
    let grp := die.filter fun q => q / 8 == p / 8
    ((grp ++ die).map (fun q => 32 * d + q) ++ List.range 512).find? (serves s k)

/-! ### Which unit starts next (04 R93) -/

def fopDeadline (s : State) (o : FurrowOp) : Nat :=
  match o.source with
  | some h => ((getCmd? s h).map (deadlineOf s)).getD noDeadline
  | none => ((o.run).map (runDeadline s)).getD noDeadline

/-- Pending units of a stack: operation and pair, where the operation has not been computed and the pair is
in no slice. -/
def pendingUnits (s : State) (k : Nat) : List (Nat × Nat) :=
  s.fops.flatMap fun e =>
    if e.2.computed || e.2.stopped then []
    else (((workUnits s e.2.params).filter fun u => u / 512 == k).map (· % 512)).filter
      (fun u => !(getStk s k).slices.any fun x => x.d * 32 + x.p == u) |>.map fun u => (e.1, u)

/-- Rank of a pending unit: deadline, arrival, then round-robin from the last unit served (04 R93). -/
def unitRank (s : State) (k : Nat) (e : Nat × Nat) : Nat :=
  match getFop? s e.1 with
  | none => 2 ^ 256
  | some o => (fopDeadline s o * 2 ^ 64 + o.arrived) * 512 + (e.2 + 511 - tabGetD 511 e.1 (getStk s k).lastServed) % 512

/-- The budget has room for a slice by worker `w` (04 R92). -/
def budgetOk (s : State) (k w : Nat) : Bool :=
  let sl := (getStk s k).slices
  decide (sl.length < effStack s k) && decide ((sl.filter fun x => x.worker / 32 == w / 32).length < effDie s k) &&
  !sl.any fun x => x.worker == w

/-- Pending units that the budget admits now, with who computes for them. -/
def admissible (s : State) (k : Nat) : List ((Nat × Nat) × Nat) :=
  (pendingUnits s k).filterMap fun e =>
    match workerOf s k (e.2 / 32) (e.2 % 32) with
    | some w => if budgetOk s k w then some (e, w) else none
    | none => none

/-- Slices that could start on the dies of these workers at once: what the die limit leaves of each die. -/
def stackDemand (s : State) (k : Nat) (ws : List Nat) : Nat :=
  ((List.range 16).map fun d =>
    min (ws.filter fun w => w / 32 == d).length (effDie s k - ((getStk s k).slices.filter fun x => x.worker / 32 == d).length)).sum

/-- A pending unit starts unless one before it in order wants what is short: the stack limit, the die limit of its
worker, or the worker itself (04 R92, R93). -/
def turnOk (s : State) (k id u w : Nat) : Bool :=
  let l := admissible s k
  let ws := l.map (·.2)
  let sl := (getStk s k).slices
  let stackShort := decide (effStack s k < stackDemand s k ws + sl.length)
  let dieShort := decide (effDie s k < (ws.filter fun v => v / 32 == w / 32).length + (sl.filter fun x => x.worker / 32 == w / 32).length)
  l.contains ((id, u), w) &&
  l.all fun e => !(stackShort || (dieShort && e.2 / 32 == w / 32) || e.2 == w) || decide (unitRank s k (id, u) ≤ unitRank s k e.1)

/-- Merge entries of a pair are flushed before its slice begins (10 R228). -/
def flushPair (k d p : Nat) (s : State) : State :=
  forEach flushEntry ((getStk s k).merge.filter fun e => unitOfBlk e.blk == (k, d, p)) s

/-- What a furrow unit holds once its slice has begun (04 R74): FOP_DOT's broadcast vectors in the vector register; what
else the slice keeps there the spec leaves open (FREE, log entry 38). -/
def loadUnit (k w : Nat) (p : FopParams) (s : State) : State :=
  let free (n : Nat) : List Byte := (List.range 4096).map fun i => Config.freeByte (s.freeCtr + n + i)
  let vec := match (if p.op = 0x10 then p.srcB else none) with
    | some y => sliceB (packVals (fmtBits y.fmt) ((rdEls y (dCount y) 0 (Acc.start 3 s)).1.map (·.1))) 0 4096
    | none => free 0
  modStk k (fun x => { x with units := tabPut w ⟨vec, free 4096, (List.range 64).map fun i => Config.freeWord (s.freeCtr + i)⟩ x.units })
    { s with freeCtr := s.freeCtr + 8192 }

/-- A slice of operation `id` starts on the pair, computed by unit `w` (04 R91; 10 R228): a bank that owes four refreshes
is refreshed and the pair's merge entries are flushed before it (04 R97). -/
def openSlice (k d p id w : Nat) (o : FurrowOp) (s : State) : State :=
  loadUnit k w o.params (modFop id (fun x => { x with touched := if x.touched.contains (k, d, p) then x.touched else x.touched ++ [(k, d, p)] })
    (modStk k (fun x => { x with slices := x.slices ++ [⟨d, p, id, w, []⟩], lastServed := tabPut id (32 * d + p) x.lastServed,
                                 subst := if w = 32 * d + p then x.subst else x.subst + 1 }) (flushPair k d p (payForced k d p s))))

/-- FURROW_SLICE_START: a pending unit starts a slice when the budget admits it (04 R92, R93). `checkFails`:
how often a check failed in it (R100): once is recomputed; a second time ends the slice, and a substitute
carries on. -/
def execFurrowSliceStart (k d p id : Nat) (checkFails : Nat) (s : State) : Res :=
  let u := 32 * d + p
  onUnit (stackOk k && dieOk d && pairOk p)
    (match getFop? s id, workerOf s k d p with
     | some o, some w =>
       if stackUsable s k && turnOk s k id u w then
         let s2 := openSlice k d p id w o s
         if checkFails = 0 then s2
         else
           let s3 := modFop id (fun x => { x with outcomes := addOutcomes [stRecomputed] x.outcomes })
             (modStk k (fun x => { x with recompute := x.recompute + 1 }) s2)
           if checkFails = 1 then recordFault 1 11 (.furrow (512 * k + w)) o.tenant 0 [] s3
           else faultEvent 2 11 (.furrow (512 * k + w)) o.tenant 0 [] (closeSlice k d p s3)
       else s
     | _, _ => s)

/-- A refresh that falls due is owed, at most four deep (04 R97). -/
def oweRefresh (k d b : Nat) (s : State) : State :=
  let n := min 4 (tabGetD 0 (64 * d + b) (getStk s k).debt + 1)
  modStk k (fun y => { y with debt := tabPut (64 * d + b) n y.debt, debtMax := max y.debtMax n }) s

/-- REFRESH_DUE (04 R97): inside a slice the refresh is owed, once in a slice, which is shorter than the interval; so it
is while accesses wait for the bank (dense traffic); otherwise it is made, and the open row closes. -/
def execRefreshDue (k d b : Nat) (s : State) : Res :=
  let waits := s.held.any fun h => (accessPhys s h.acc).any fun x => stackOfBlk x == k && blkBank x == 64 * d + b
  onUnit (stackOk k && dieOk d && bankOk b)
    (match (getStk s k).slices.find? fun y => y.d == d && y.p == b / 2 with
     | some y =>
       if y.due.contains b then s
       else
         oweRefresh k d b (modStk k (fun x => { x with slices := x.slices.map fun z => if z.d == d && z.p == b / 2 then { z with due := b :: z.due } else z }) s)
     | none =>
       if waits then oweRefresh k d b s
       else modStk k (fun x => { x with openRows := tabDel (64 * d + b) x.openRows }) s)

end Sys2Proof.Machine
end

