-- ==== Sys2Proof/Machine/UnitTests.lean ====
section
/-! DEFINITION. Logic self-tests in service (16 R381 to R386, R392) and how their outcome settles a unit's
state (15 R366, R367, R385): rotation slots, suspects, SELFTEST. -/

namespace Sys2Proof.Machine

def testOf? (s : State) (u : UnitRef) : Option Test := s.test.running.find? fun x => x.unit == u

/-- A test waiting for tile `t` begins when the tile holds nothing, or at a step head, which moves its
logical tile off (15 R366; 16 R382); inside a step or while a frame is saved it waits (15 R375). -/
def beginTest (t : Nat) (s : State) : State :=
  if (testOf? s (.tile t)).isNone ∨ (getTile s t).underTest then s
  else
    let go := modTile t (fun y => { y with underTest := true })
    match (getTile s t).ctx with
    | none => go s
    | some c =>
      match (getTile s t).phase with
      | .head =>
        match (getRun? s c.run).bind fun x => substituteTile s x c.logical t with
        | some u => moveLogical t u (fun y => { y with home := some (y.home.getD t) }) (go s)
        | none => s
      | .stopped => go s
      | _ => s

/-- A test of a unit starts; one already running serves a rotation slot as well (16 R392). -/
def startTest (u : UnitRef) (cmds : List Nat) (slot : Bool) (s : State) : State :=
  let s1 := modTest (fun x => { x with running := x.running ++ [⟨u, cmds, slot, now s⟩] }) s
  match u with
  | .tile t => beginTest t s1
  | _ => s1

def skipSlot (s : State) : State := modTest (fun x => { x with slotSkipped := x.slotSkipped + 1 }) s

/-- The rotations run in Run and Trim alone (16 R381). -/
def rotating (s : State) : Bool := s.cap.valid && (powerEff s == .run || powerEff s == .trim) && !s.pm.stopHold

/-- A slot tests its unit, or stays idle, or is deferred. -/
def slotFor (u : UnitRef) (usable : Bool) (s : State) : State :=
  if !usable || (testOf? s u).isSome then skipSlot s else startTest u [] true s

/-- TILE_TEST_SLOT (16 R381). -/
def execTileTestSlot (s : State) : Res :=
  let k := s.test.tileSlot
  .next (if rotating s then slotFor (.tile (k % 32)) (tilePresent s (k % 32) && tileUsable s (k % 32)) (modTest (fun x => { x with tileSlot := k + 1 }) s) else s)

/-- STACK_TEST_SLOT (16 R381). -/
def execStackTestSlot (s : State) : Res :=
  let j := s.test.stackSlot
  .next (if rotating s then slotFor (.stack (j % 8)) (stackUsable s (j % 8)) (modTest (fun x => { x with stackSlot := j + 1 }) s) else s)

/-- The block whose test covers a unit: a furrow unit is tested with its stack's furrow logic (15 R366). -/
def testBlock : UnitRef → Option UnitRef
  | .tile t => some (.tile t)
  | .furrow b => some (.stack (b / 512))
  | .sluice e => some (.sluice e)
  | _ => none

/-- SUSPECT_TEST_DUE: a suspect or suspended unit's test falls due (15 R366; 16 R384). -/
def execSuspectTestDue (u : UnitRef) (s : State) : Res :=
  onUnit u.ok
    (match testBlock u with
     | some b =>
       if rotating s && ((getSum s u).state == 1 || (getSum s u).state == 2) && (testOf? s b).isNone then startTest b [] false s else s
     | none => s)

/-- SELFTEST (16 R386, R392): a unit already under test is waited for. -/
def execSelftest (h : Nat) (s : State) : Res :=
  runCmd h 0x0701 (fun c s =>
    let n := bitsOf (pk c.pkt 0) 12 8
    let u : UnitRef := if bitsOf (pk c.pkt 0) 3 0 = 1 then .tile n else .stack n
    let usable := match u with
      | .tile t => tileUsable s t
      | _ => stackUsable s n
    if s.test.running.any (fun x => x.cmds.contains h) then s
    else if !usable then finishCmd h [if bitsOf (pk c.pkt 0) 3 0 = 1 then stTileLost else stDeviceFault] 0 s
    else if (testOf? s u).isSome then s
    else startTest u [h] false s) s

/-! ### The outcome (15 R367; 16 R385) -/

/-- A suspended unit resumes service (15 R367). -/
def resumeUnit (u : UnitRef) (s : State) : State :=
  match u with
  | .sluice e => capChange 0 (fun c => { c with sluiceSusp := putBit c.sluiceSusp e false }) s
  | .furrow b => checkNoFurrow (b / 512) { s with cap := { s.cap with furrowSusp := putBit s.cap.furrowSusp b false } }
  | _ => s

/-- A suspect unit returns to normal (15 R367). -/
def normalUnit (u : UnitRef) (s : State) : State :=
  let s1 := recordFault 3 10 u 0xFF 0 [] (modSum u (fun x => { x with state := 0, passes := 0 }) s)
  match u with
  | .tile t => capChange 0 (fun c => { c with tileSuspect := putBit c.tileSuspect t false }) s1
  | _ => s1

/-- A unit passes a test: a suspended one resumes, and 20 passes with no fault event between end suspicion. -/
def passUnit (u : UnitRef) (s : State) : State :=
  let x := getSum s u
  if x.state ≠ 1 ∧ x.state ≠ 2 then s
  else
    let s1 := whenS (x.state == 2) (resumeUnit u) (modSum u (fun y => { y with state := 1, passes := y.passes + 1 }) s)
    if 20 ≤ x.passes + 1 then normalUnit u s1 else s1

/-- One unit's outcome: passed, failed once, or failed and reproduced. -/
def settleUnit (u : UnitRef) (first again : Bool) (s : State) : State :=
  if again then retireUnit 10 u 0xFF s
  else if first then faultEvent 4 10 u 0xFF 0 [] s
  else passUnit u s

def countTest (u : UnitRef) (first again : Bool) (s : State) : State :=
  let n : W64 := BitVec.ofNat 64 (b2n first + b2n again)
  modTest (fun x =>
    match u with
    | .tile _ => { x with tileTests := x.tileTests + 1, tileFails := x.tileFails + n }
    | .stack _ => { x with stackTests := x.stackTests + 1, stackFails := x.stackFails + n }
    | _ => x) s

/-- Furrow units of a stack that are in service or suspended. -/
def unitsOfStack (s : State) (k : Nat) : List Nat := ((List.range 512).map fun i => 512 * k + i).filter (furrowUsable s)

/-- Outcomes of the units that a test covers: `first` and `repeats` list the failing units. -/
def settleTest (u : UnitRef) (first repeats : List Nat) (s : State) : State :=
  match u with
  | .stack k => forEach (fun b => settleUnit (.furrow b) (first.contains b) (first.contains b && repeats.contains b)) (unitsOfStack s k) s
  | _ => settleUnit u (!first.isEmpty) (!first.isEmpty && !repeats.isEmpty) s

/-- SELFTEST_COMPLETE: the test, and its repeat when it failed, has ended. -/
def execSelftestComplete (u : UnitRef) (first repeats : List Nat) (s : State) : Res :=
  let begun := match u with
    | .tile t => (getTile s t).underTest
    | _ => true
  onUnit u.ok
    (match testOf? s u with
     | some x =>
       if begun then
         let failed := !first.isEmpty && !repeats.isEmpty
         let s1 := modTest (fun y => { y with running := y.running.filter fun z => z.unit != u }) s
         let s2 := match u with
           | .tile t => modTile t (fun y => { y with underTest := false }) s1
           | _ => s1
         let s3 := forEach (fun h => finishCmd h [] (b2n failed)) x.cmds (countTest u (!first.isEmpty) failed s2)
         schedule (fillTiles (settleTest u first repeats s3))
       else s
     | none => s)

end Sys2Proof.Machine
end

