-- ==== Sys2Proof/Machine/Bundles.lean ====
section
/-! DEFINITION. Bundles and their runs: class 0x03xx (08 R195; 07 R164 to R167), frames saved and runs
resumed (12 R293, R295). -/

namespace Sys2Proof.Machine

/-- A run of the bundle is live. -/
def runsLive (s : State) (b : Nat) : Bool := s.cmds.any fun x => x.pkt.opcode == 0x0303 && pk x.pkt 0 == b

/-- The bundle that an image describes (07 R164, R165). -/
def parseBundle (tenant : Nat) (d : Desc) (b : List Byte) : Bundle :=
  { tenant := tenant, abi := fieldB b 6 2, digest := sliceB b 8 32, length := fieldB b 0x28 4, tiles := fieldB b 0x2E 1,
    flags := fieldB b 0x2F 1, counters := fieldB b 0x30 2, external := fieldB b 0x32 2, maxStep := fieldB b 0x38 4,
    basinBytes := fieldB b 0x3C 4, scratchBytes := fieldB b 0x80 4, tileMap := (List.range 32).map fun i => fieldB b (0x40 + 2 * i) 2,
    bindings := (List.range (fieldB b 0x34 2)).map (manifestBinding b), image := d, dying := false }

/-- BUNDLE_LOAD: the checked image becomes resident; VALUE is its ABI level. -/
def execBundleLoad (h : Nat) (s : State) : Res :=
  runCmd h 0x0301 (fun c s =>
    let d := cmdDesc s c (lo32 (pk c.pkt 0))
    let b := parseBundle c.tenant d (imageBytes s d (min (dCount d) (256 + 16 * 256)))
    finishCmd h [] b.abi { s with bundles := tabPut h b s.bundles }) s

/-- BUNDLE_UNLOAD: it completes once every run of the bundle has (08 R195), and the bundle goes with it (08 R186). -/
def execBundleUnload (h : Nat) (s : State) : Res :=
  runCmd h 0x0302 (fun c s => if runsLive s (pk c.pkt 0) then s else finishCmd h [] 0 s) s

/-- Released effects of a run that have not landed (07 R167): furrow operations and peer writes. -/
def effectsOut (s : State) (r : Nat) : Bool := s.fops.any (fun e => e.2.run == some r) || s.dpt.remotes.any fun x => x.handle == r

/-- BUNDLE_RUN: a waiting run is tried again; one that is over, with every released effect landed,
completes. VALUE is the steps recomputed (08 R195). -/
def execBundleRun (h : Nat) (s : State) : Res :=
  runCmd h 0x0303 (fun _ s =>
    match getRun? s h with
    | none => finishCmd h [stDeviceFault] 0 s
    | some x =>
      if x.state = .ended then
        if effectsOut s h then s
        else schedule (finishCmd h x.outcomes x.recomputes { s with runs := tabDel h s.runs })
      else schedule s) s

/-! ### Frames (12 R293, R295) -/

/-- TILE_FRAME_SAVE_COMPLETE: the frame is written and the tile is free for another run. -/
def execTileFrameSaveComplete (t : Nat) (s : State) : Res :=
  onUnit (tileOk t)
    (match (getTile s t).ctx with
     | some c =>
       if (getTile s t).phase = .saving then fillTiles (schedule (beginTest t (checkPaused c.run (saveFrame t s)))) else s
     | none => s)

/-- Dies whose basin a resumed run needs: those of its tiles and those with a saved basin frame. -/
def resumeDies (x : Run) (p : Tab Nat) : List Nat :=
  (diesOf p ++ (List.range 4).filter fun d => (tabGet? (32 + d) x.frameBytes).isSome).eraseDups

/-- Basin frames are written back at their new places (12 R293, R295). -/
def loadBasins (r : Nat) (bs : Tab Nat) (s : State) : State :=
  match getRun? s r with
  | none => s
  | some x =>
    let n := (bundleOfRun s x).basinBytes
    let s1 := forEach (fun (e : Nat × Nat) u =>
      match tabGet? (32 + e.1) x.frameBytes with
      | some c => setArea 3 e.1 e.2 (e.2 + n) (c.map fun b => (b.1 + e.2, b.2)) ((tabGetD [] (32 + e.1) x.framePoison).map (· + e.2)) u
      | none => u) bs s
    modRun r (fun y => { y with basinAt := bs, frameBytes := y.frameBytes.filter (fun e => decide (e.1 < 32)),
                                framePoison := y.framePoison.filter (fun e => decide (e.1 < 32)) }) s1

/-- An uncorrectable block of a frame is restored with its poison bit set (12 R295): `b` is the frame's
number · 2^64 + the block's place in it. -/
def poisonFrame (b : Nat) (x : Run) : Run :=
  { x with framePoison := tabMod [] (b / 2 ^ 64) (setIns (b % 2 ^ 64 / 64 * 64)) x.framePoison, outcomes := addOutcomes [stDataPoisoned] x.outcomes }

/-- Whether run `r` may resume now, where, and with which basin areas (12 R292, R296). -/
def resumePlan (s : State) (r : Nat) : Option (Tab Nat × Tab Nat) :=
  match getRun? s r with
  | none => none
  | some x =>
    if x.state = .paused ∧ (candidates s).contains r ∧ (powerEff s = .run ∨ powerEff s = .trim) then
      match wantPlace s r x with
      | none => none
      | some p =>
        if (p.map (·.2)).all (fun t => tileFree s t && !(claimedBefore s r).contains t) then
          (basinPlaces s r x [] (resumeDies x p)).map fun bs => (p, bs)
        else none
    else none

/-- RUN_RESUME (12 R295): a bad frame header ends the run; bad blocks come back poisoned; otherwise the run
goes on from its boundary state, its head waits arriving anew. -/
def execRunResume (run : Nat) (badHeader : Bool) (badBlocks : List Nat) (s : State) : Res :=
  match resumePlan s run with
  | none => .next s
  | some (p, bs) =>
    if badHeader then .next (schedule (endRun run [stDeviceFault] s))
    else
      let s1 := modRun run (fun x => { badBlocks.foldl (fun y b => poisonFrame b y) x with state := .running, place := p, resuming := false }) s
      let tenant := runTenant s run
      let since := match getRun? s run with
        | some x => if x.resuming then x.decidedAt else now s
        | none => now s
      .next (schedule (fillTiles (countSwitch tenant since (loadBasins run bs s1))))

end Sys2Proof.Machine
end

