-- ==== Sys2Proof/Machine/Serving.lean ====
section
/-! DEFINITION. Commands of class 0x04xx (08 R196; 11): pages and their counts (R248 to R261), decode
attention (R262 to R265), eviction (R266, R267), speculative verification (R268 to R272), adapters (R273 to
R275). -/

namespace Sys2Proof.Machine

/-! ### Entries, directories, stacks (11 R249 to R253) -/

/-- A page-table entry's form (11 R249). 0x7FFF_FFFF, which has none, is taken as absent (log entry 23). -/
inductive PageRef
  | resident (p : Nat)
  | parked (f : Nat)
  | absent
  deriving DecidableEq, Repr

def pageRef (e : Nat) : PageRef :=
  if e < 0x7FFFFFFF then .resident e else if 0x80000000 ≤ e ∧ e < 0xFFFFFFFF then .parked (e - 0x80000000) else .absent

/-- A directory's header with its descriptors resolved (11 R250). -/
structure PageDir where
  dir : Desc
  pages : Nat
  pageBytes : Nat
  pool : Desc
  free : Desc
  far : Option Desc
  farFree : Option Desc
  farAlloc : Nat
  fmt : Nat
  heads : Nat
  group : Nat
  dim : Nat

/-- A free stack's descriptor (11 R251, R253). -/
def stackOkDesc (d : Desc) : Bool := d.fmt == 6 && d.rank == 1 && d.write

/-- The directory that a descriptor names, when its header passes 11 R253 and its tables lie inside it. -/
def readDir (t : Nat) (dd : Desc) (a : Acc) : Option PageDir × Acc :=
  if dCount dd < 64 then (none, a)
  else
    let r := rdBytes dd.space dd.inst dd.base 64 a
    let b := r.1.1
    let live (o : Nat) : Option Desc := liveDesc r.2.s t (fieldB b o 4)
    let farId := fieldB b 0x14 4
    let pages := fieldB b 4 4
    let pb := fieldB b 8 4
    match live 0x0C, live 0x10 with
    | some pool, some free =>
      let farOk := match live 0x14, live 0x18 with
        | some f, some ff => f.space == 1 && rawRank1 f && stackOkDesc ff
        | _, _ => farId == 0 && fieldB b 0x18 4 == 0
      if pool.space == 2 && rawRank1 pool && decide (pages * pb ≤ dCount pool) && stackOkDesc free && farOk && decide (1 ≤ pages) &&
          decide (0x40 + roundUp (4 * pages) 64 + 4 * pages ≤ dCount dd) then
        (some ⟨dd, pages, pb, pool, free, live 0x14, live 0x18, ((tabGet? farId (getTen r.2.s t).descs).map (·.alloc)).getD 0,
               fieldB b 0x1C 1, fieldB b 0x1D 1, fieldB b 0x1E 1, fieldB b 0x20 2⟩, r.2)
      else (none, r.2)
    | _, _ => (none, r.2)

/-- Some furrow unit of a stack can serve (04 R102). -/
def stackServes (s : State) (k : Nat) : Bool := (List.range 512).any fun i => furrowServes s (512 * k + i)

/-- Some of the bytes lie in a stack where no furrow unit can serve. -/
def unserved (s : State) (off len : Nat) : Bool :=
  (accessBlks off len).any fun o => ((physBlk s o).map fun b => stackUsable s (stackOfBlk b) && !stackServes s (stackOfBlk b)).getD false

/-- Part of an operation as a furrow unit's work on the `len` bytes at `off` (10 R240's source 3); where no unit can
serve, it ends (04 R102). -/
def asFurrow (off len : Nat) (f : Acc → Acc) (a : Acc) : Acc :=
  if unserved a.s off len then a.stop stDeviceFault else { f { a with source := 3 } with source := a.source }

/-- A page index clamped to the pool (06 R139). -/
def inPool (d : PageDir) (p : Nat) : Nat := min p (d.pages - 1)

def countOff (d : PageDir) (p : Nat) : Nat := d.dir.base + 0x40 + 4 * inPool d p
def scoreOff (d : PageDir) (p : Nat) : Nat := d.dir.base + 0x40 + roundUp (4 * d.pages) 64 + 4 * inPool d p

def rdWord (d : Desc) (off : Nat) (a : Acc) : PV × Acc :=
  let r := rdBytes d.space d.inst off 4 a
  ((leNat r.1.1, r.1.2), r.2)

def wrWord (d : Desc) (off v : Nat) (poison : Bool) (a : Acc) : Acc :=
  asFurrow off 4 (wrBytes d.space d.inst off (toLE 4 v) poison) a

def getCount (d : PageDir) (p : Nat) (a : Acc) : PV × Acc := rdWord d.dir (countOff d p) a
def putCount (d : PageDir) (p n : Nat) (poison : Bool) (a : Acc) : Acc := wrWord d.dir (countOff d p) n poison a
def getScore (d : PageDir) (p : Nat) (a : Acc) : PV × Acc := rdWord d.dir (scoreOff d p) a
def putScore (d : PageDir) (p v : Nat) (poison : Bool) (a : Acc) : Acc := wrWord d.dir (scoreOff d p) v poison a

/-- A pop (11 R251); none when the stack is empty. -/
def popStack (d : Desc) (a : Acc) : Option Nat × Acc :=
  let t := rdEl d 0 a
  let n := t.1.1
  if t.1.2 || n == 0 || decide (dCount d ≤ n) then (none, t.2)
  else
    let e := rdEl d n t.2
    (some e.1.1, wrEl d 0 (n - 1) false e.2)

/-- A push (11 R251); beyond the stack's capacity it does not happen (log entry 23). -/
def pushStack (d : Desc) (v : Nat) (a : Acc) : Acc :=
  let t := rdEl d 0 a
  if decide (dCount d ≤ t.1.1 + 1) then addOut stWindow true t.2
  else wrEl d 0 (t.1.1 + 1) t.1.2 (wrEl d (t.1.1 + 1) v false t.2)

/-- A reference is released (11 R258); true when the page is freed. -/
def releaseRef (d : PageDir) (p : Nat) (a : Acc) : Bool × Acc :=
  let c := getCount d p a
  if c.2.ended then (false, c.2)
  else if c.1.1 = 1 then (true, pushStack d.free (inPool d p) (putCount d p 0 c.1.2 c.2))
  else if 2 ≤ c.1.1 ∧ c.1.1 ≤ 65535 then (false, putCount d p (c.1.1 - 1) c.1.2 c.2)
  else (false, c.2)

/-- Bytes moved by a sluice engine for the headgate; none usable ends the command (17 R400; 01 R22). -/
def headgateCopy (src : Desc) (so : Nat) (dst : Desc) (do_ len : Nat) (a : Acc) : Acc :=
  match pickSluice a.s 0xFF src.space dst.space with
  | none => addOut stDeviceFault true a
  | some _ => copyRun src.space src.inst so dst.space dst.inst do_ len a

def pageOff (d : PageDir) (p : Nat) : Nat := d.pool.base + inPool d p * d.pageBytes

/-- Byte offset of far slot `f`, when the descriptor holds it. -/
def farOff (d : PageDir) (f : Nat) : Option (Desc × Nat) :=
  match d.far with
  | some x => if (f + 1) * d.pageBytes ≤ dCount x then some (x, x.base + f * d.pageBytes) else none
  | none => none

/-! ### PAGE_SHARE, PAGE_RELEASE, PAGE_COW -/

/-- Entries `i`, `i + 1`, … of a page list while the step function goes on; the Nat counts VALUE. -/
def pagesGo (f : Nat → Nat → Nat × Acc → Bool × (Nat × Acc)) (l : Desc) : Nat → Nat → Nat × Acc → Nat × Acc
  | 0, _, r => r
  | n + 1, i, r =>
    let e := rdEl l i r.2
    let x := f i e.1.1 (r.1, e.2)
    if x.1 && !x.2.2.ended then pagesGo f l n (i + 1) x.2 else x.2

def shareOne (d : PageDir) (_i e : Nat) (r : Nat × Acc) : Bool × (Nat × Acc) :=
  match pageRef e with
  | .resident p =>
    let c := getCount d p r.2
    if 1 ≤ c.1.1 ∧ c.1.1 ≤ 65534 then (true, (r.1 + 1, putCount d p (c.1.1 + 1) c.1.2 c.2))
    else (true, (r.1, addOut stPageRefLimit (c.1.1 == 65535) c.2))
  | _ => (true, r)

def releaseOne (d : PageDir) (l : Desc) (i e : Nat) (r : Nat × Acc) : Bool × (Nat × Acc) :=
  let mark (a : Acc) : Acc := if l.write then wrEl l i 0xFFFFFFFF false a else a
  match pageRef e with
  | .resident p => let x := releaseRef d p r.2; (true, (r.1 + b2n x.1, mark x.2))
  | .parked f =>
    match d.farFree with
    | some ff => (true, (r.1, mark (pushStack ff f r.2)))
    | none => (false, (r.1, addOut stWindow true r.2))
  | .absent => (true, (r.1, mark r.2))

/-- A new page for an entry: popped, count 1, a score (11 R259). -/
def takePage (d : PageDir) (from_ : Desc) (score : PV) (r : Nat × Acc) (go : Nat → Acc → Acc) : Bool × (Nat × Acc) :=
  let c := popStack from_ r.2
  match c.1 with
  | none => (false, (r.1, addOut stWindow true c.2))
  | some p => (true, (r.1 + 1, go p (putScore d p score.1 score.2 (putCount d p 1 false c.2))))

def cowOne (d : PageDir) (l from_ : Desc) (i e : Nat) (r : Nat × Acc) : Bool × (Nat × Acc) :=
  match pageRef e with
  | .resident p =>
    let c := getCount d p r.2
    if 2 ≤ c.1.1 ∧ c.1.1 ≤ 65535 then
      let sc := getScore d p c.2
      takePage d from_ sc.1 (r.1, sc.2) fun n a =>
        wrEl l i n false (releaseRef d p (headgateCopy d.pool (pageOff d p) d.pool (pageOff d n) d.pageBytes a)).2
    else (true, (r.1, c.2))
  | .absent => takePage d from_ (0, false) r fun n a => wrEl l i n false a
  | .parked f =>
    match d.farFree, farOff d f with
    | some ff, some (x, o) =>
      takePage d from_ (0, false) r fun n a => wrEl l i n false (pushStack ff f (headgateCopy x o d.pool (pageOff d n) d.pageBytes a))
    | _, _ => (false, (r.1, addOut stWindow true r.2))

/-! ### Serving commands wait like other movers (04 R92, R95; 10 R242) -/

/-- Blocks of the tensors that a command names. -/
def namedPhys (s : State) (c : Cmd) : List Nat := (descUses c.pkt).flatMap fun u => descPhys s (cmdDesc s c u.id)

/-- A furrow operation cannot start in one of the stacks, whose budget is zero (04 R92). -/
def noBudget (s : State) (l : List Nat) : Bool :=
  l.any fun b => let k := stackOfBlk b; stackUsable s k && (effStack s k == 0 || effDie s k == 0)

/-- A serving command goes on once no block of the tensors it names is held, no tile that holds one is under test, and
the furrow budget of their stacks lets its operations start. -/
def serve (c : Cmd) (f : State → State) (s : State) : State :=
  let l := namedPhys s c
  if noBudget s l || onTest s ((descUses c.pkt).map fun u => cmdDesc s c u.id) then s else viaGap c.handle l f s

/-- A page command over its list, or ST_WINDOW_VIOLATION where the directory fails 11 R253. -/
def pageCmd (c : Cmd) (f : PageDir → Desc → Nat → Nat → Nat × Acc → Bool × (Nat × Acc)) (s : State) : State :=
  serve c (fun s =>
    let l := cmdDesc s c (hi32 (pk c.pkt 0))
    let r := readDir c.tenant (cmdDesc s c (lo32 (pk c.pkt 0))) (Acc.held c.tenant 1 s)
    match r.1 with
    | none => finishAcc c.handle 0 (addOut stWindow true r.2)
    | some d =>
      let x := pagesGo (f d l) l (lo32 (pk c.pkt 1)) 0 (0, r.2)
      finishAcc c.handle x.1 x.2) s

/-- PAGE_SHARE (11 R257). -/
def execPageShare (h : Nat) (s : State) : Res := runCmd h 0x0401 (fun c s => pageCmd c (fun d _ => shareOne d) s) s

/-- PAGE_RELEASE (11 R258). -/
def execPageRelease (h : Nat) (s : State) : Res := runCmd h 0x0402 (fun c s => pageCmd c releaseOne s) s

/-- PAGE_COW (11 R259). -/
def execPageCow (h : Nat) (s : State) : Res :=
  runCmd h 0x0403 (fun c s => pageCmd c (fun d l => cowOne d l (cmdDesc s c (lo32 (pk c.pkt 2)))) s) s

/-! ### Rows of a sequence table (11 R254, R265) -/

/-- A row that a command serves: its record, page table and directory. -/
structure SeqRow where
  off : Nat
  rcd : List Byte
  table : Desc
  dir : PageDir

def rowLen (r : SeqRow) : Nat := fieldB r.rcd 0 4
def slotsIn (r : SeqRow) : Nat := dSize r.table 0
def layersIn (r : SeqRow) : Nat := dSize r.table 1

/-- The entry of slot `k` in layer `l`. -/
def entryAt (r : SeqRow) (k l : Nat) (a : Acc) : PageRef × Acc :=
  let e := rdEl r.table (l * slotsIn r + k) a
  (pageRef e.1.1, e.2)

def setEntry (r : SeqRow) (k l v : Nat) (a : Acc) : Acc := wrEl r.table (l * slotsIn r + k) v false a

/-- Row `i`: none where it is inactive; a row that fails 11 R265 adds ST_WINDOW_VIOLATION. -/
def readRow (t : Nat) (seq : Desc) (i : Nat) (a : Acc) : Option SeqRow × Acc :=
  let r := rdBytes seq.space seq.inst (seq.base + 64 * i) 64 a
  if !bitOf (fieldB r.1.1 4 4) 0 then (none, r.2)
  else
    match liveDesc r.2.s t (fieldB r.1.1 8 4), liveDesc r.2.s t (fieldB r.1.1 0x0C 4) with
    | some pt, some dd =>
      if pt.fmt == 6 && pt.layout == 0 && pt.rank == 2 && dd.space == 2 && rawRank1 dd then
        let d := readDir t dd r.2
        match d.1 with
        | some x => (some ⟨seq.base + 64 * i, r.1.1, pt, x⟩, d.2)
        | none => (none, addOut stWindow true d.2)
      else (none, addOut stWindow true r.2)
    | _, _ => (none, addOut stWindow true r.2)

/-- Rows `i`, `i + 1`, … in order, each by `f`, until the command ends; the Nat counts VALUE. -/
def rowsGo (t : Nat) (seq : Desc) (f : Nat → SeqRow → Nat × Acc → Nat × Acc) : Nat → Nat → Nat × Acc → Nat × Acc
  | 0, _, r => r
  | n + 1, i, r =>
    if r.2.ended then r
    else
      let x := readRow t seq i r.2
      rowsGo t seq f n (i + 1) (match x.1 with
        | some y => f i y (r.1, x.2)
        | none => (r.1, x.2))

/-! ### Checked steps of the headgate (11 R263, R272; 15 R361 to R365) -/

/-- The first usable tile but `t`. The headgate's steps have no logical tile, so R298's order is that of the tile
numbers (DESIGN CHOICE, log entry 23). -/
def otherTile (s : State) (t : Nat) : Option Nat := (List.range 32).find? fun u => tileUsable s u && u != t

/-- A failed attempt of a headgate's step is made once more on the same tile. -/
def reissueOn (tenant t : Nat) (f : Failure) (s : State) : State :=
  modTile t (fun x => { x with lastDetect := some (now s), stepRecomputed := x.stepRecomputed + 1 })
    (whenS (recentDetect s t) (faultEvent 2 f.check (.tile t) tenant f.detail []) s)

/-- The step on substitute tile `u`; `why` is the identical range failure of the first tile, where that moved it. -/
def substituteStep (tenant t u : Nat) (why : Option Failure) (fails : List Failure) (s : State) : Bool × State :=
  let passed (x : State) : State := match why with
    | some g => faultEvent 2 g.check (.tile t) tenant g.detail [] x
    | none => x
  match fails with
  | [] => (true, passed s)
  | k :: rest =>
    if sameRange k why then (false, recordFault 6 k.check (.tile u) tenant k.detail [] s)
    else
      match rest with
      | [] => (true, passed (reissueOn tenant u k s))
      | l :: _ => (false, faultEvent 2 l.check (.tile u) tenant l.detail [] (reissueOn tenant u k s))

/-- A step of the headgate on tile `t` whose attempts fail as `fails` says (15 R362, R363): whether it commits. -/
def headgateStep (tenant t : Nat) (fails : List Failure) (s : State) : Bool × State :=
  match fails with
  | [] => (true, s)
  | f :: rest =>
    let s1 := reissueOn tenant t f s
    match rest with
    | [] => (true, recordFault 1 f.check (.tile t) tenant f.detail [] s1)
    | g :: rest =>
      let same := sameRange g (some f)
      let s2 := if same then s1 else faultEvent 2 g.check (.tile t) tenant g.detail [] s1
      match otherTile s2 t with
      | none => (false, s2)
      | some u => substituteStep tenant t u (if same then some g else none) rest s2

/-- One step of a row: recomputed, it adds ST_OK_RECOMPUTED; where it does not commit, the command ends. -/
def rowStep (tenant : Nat) (e : StepFails) (a : Acc) : Acc :=
  if a.ended || !tileUsable a.s e.tile || e.fails.isEmpty then a
  else
    let r := headgateStep tenant e.tile e.fails a.s
    if r.1 then addOut stRecomputed true { a with s := r.2 } else Acc.stop stDeviceFault { a with s := r.2 }

/-- The steps of row `i`. -/
def rowSteps (tenant : Nat) (steps : List StepFails) (i : Nat) (a : Acc) : Acc :=
  (steps.filter fun e => e.row == i).foldl (fun a e => rowStep tenant e a) a

/-! ### ATTEND (11 R262 to R264) -/

/-- A visible position of a row: its slot, page and place in the page. -/
structure Vis where
  slot : Nat
  page : Nat
  pos : Nat

/-- Visible positions of slots `k`, `k + 1`, …, ascending. -/
def visGo (r : SeqRow) (l : Nat) : Nat → Nat → Acc → List Vis × Acc
  | 0, _, a => ([], a)
  | n + 1, k, a =>
    let e := entryAt r k l a
    let t := visGo r l n (k + 1) e.2
    match e.1 with
    | .resident p => (((List.range (min 256 (rowLen r - 256 * k))).map fun x => ⟨k, p, x⟩) ++ t.1, t.2)
    | _ => t

def visible (r : SeqRow) (l : Nat) (a : Acc) : List Vis × Acc := visGo r l (min (slotsIn r) (ceilDiv (rowLen r) 256)) 0 a

/-- Element of the pool where row `pos` of a head's K (or V) block starts (11 R248). -/
def kvAt (d : PageDir) (h : Nat) (v : Bool) (x : Vis) : Nat :=
  inPool d x.page * d.pageBytes + h * 512 * d.dim + (if v then 256 * d.dim else 0) + x.pos * d.dim

/-- Rows of one head's K or V at the visible positions. -/
def kvRows (d : PageDir) (h : Nat) (v : Bool) : List Vis → Acc → List (List PV) × Acc
  | [], a => ([], a)
  | x :: t, a =>
    let r := rdEls d.pool d.dim (kvAt d h v x) a
    let u := kvRows d h v t r.2
    (r.1 :: u.1, u.2)

/-- Probability-weighted sum of column `j` of the V rows, in the order of 04 R83 and R85. -/
def weighted (s : State) (d : PageDir) (h : Nat) (vis : List Vis) (p : List Nat) (rows : List (List PV)) (j : Nat) : Nat :=
  let items := vis.zipIdx.map fun e => (unitKey s d.pool (kvAt d h true e.1 + j), (e.2, false))
  let one (is : List Nat) : Option Nat :=
    some (is.foldl (fun acc i => ffma (p.getD i 0) (widen d.fmt (((rows.getD i []).getD j (0, false)).1)) acc) 0)
  (combine fadd one items).getD 0

/-- Probabilities and output of one query head. -/
def attendHead (s : State) (d : PageDir) (h scale : Nat) (vis : List Vis) (ks vs : List (List PV)) (q kn vn : List PV) : List Nat × List Nat :=
  let sc := (ks ++ [kn]).map fun k => fmul (dotOne d.fmt d.fmt 5 q k) scale
  let p := softmaxF sc
  let pSelf := p.getD vis.length 0
  let out := (List.range d.dim).map fun j =>
    let self := fmul pSelf (widen d.fmt ((vn.getD j (0, false)).1))
    if vis.isEmpty then self else fadd (weighted s d h vis p vs j) self
  (p.take vis.length, out)

/-- Scores of the visible pages after one KV head (04 R90). -/
def scorePages (d : PageDir) (decay : Nat) (vis : List Vis) (ps : List (List Nat)) (poison : Bool) : List Nat → Acc → Acc
  | [], a => a
  | k :: t, a =>
    let mine := vis.zipIdx.filter fun e => e.1.slot == k
    match mine with
    | [] => scorePages d decay vis ps poison t a
    | e :: _ =>
      let mass := pageMass (ps.flatMap fun p => (List.range 256).map fun x => (((mine.find? fun e => e.1.pos == x).map fun e => p.getD e.2 0).getD 0, false))
      let o := getScore d e.1.page a
      scorePages d decay vis ps poison t (putScore d e.1.page (fadd (fmul o.1.1 decay) mass) (poison || o.1.2) o.2)

/-- Row `i` of a rank-2 destination: its first `n` elements from `f`, padding zero. -/
def wrRow (d : Desc) (i n : Nat) (f : Nat → PV) (a : Acc) : Acc :=
  let z := dSize d 0
  let mine (k : Nat) : Bool := decide (k / z = i ∧ k % z < n)
  wrPieces d (fun k x => (if mine k then some (f (k % z)) else none, x))
    ((dPieces d).filter fun l => l.slots.any fun o => match o with
      | some k => mine k
      | none => false) a

/-- The KV heads `h`, `h + 1`, … of one row: outputs in order. A score derives from the queries and the keys, an output
from the values as well (04 R101; 11 R264). -/
def attendHeads (r : SeqRow) (vis : List Vis) (q : List PV) : Nat → Nat → Acc → List PV × Acc
  | 0, _, a => ([], a)
  | n + 1, h, a =>
    let d := r.dir
    let ks := kvRows d h false vis a
    let vs := kvRows d h true vis ks.2
    let part (k : Nat) : List PV := (q.drop (k * d.dim)).take d.dim
    let kn := part (d.heads * d.group + h)
    let vn := part (d.heads * d.group + d.heads + h)
    let os := (List.range d.group).map fun g => attendHead vs.2.s d h (fieldB r.rcd 0x24 4) vis ks.1 vs.1 (part (h * d.group + g)) kn vn
    let keys := ks.1.any anyPoison || anyPoison kn
    let qBad (g : Nat) : Bool := anyPoison (part (h * d.group + g))
    let vals := vs.1.any anyPoison || anyPoison vn
    let a1 := scorePages d (if h = 0 then fieldB r.rcd 0x20 4 else one32) vis (os.map (·.1)) (keys || (List.range d.group).any qBad)
      ((vis.map (·.slot)).eraseDups) vs.2
    let t := attendHeads r vis q n (h + 1) a1
    ((os.zipIdx.flatMap fun o => o.1.2.map fun v => (v, keys || vals || qBad o.2)) ++ t.1, t.2)

/-- A visible page lies in a stack where no furrow unit can serve (04 R102). -/
def pagesUnserved (s : State) (d : PageDir) (vis : List Vis) : Bool :=
  ((vis.map (·.page)).eraseDups).any fun p => unserved s (pageOff d p) d.pageBytes

/-- Outputs that are unpredictable (00 R4). -/
def wrFreeRow (od : Desc) (i n : Nat) (a : Acc) : Acc :=
  let v := freshVal (4 * n) a.s
  wrRow od i n (fun k => (v.1 / 2 ^ (32 * k) % 2 ^ fmtBits od.fmt, false)) { a with s := v.2 }

/-- One row of ATTEND: its checked steps first, then what it writes. -/
def attendRow (tenant : Nat) (steps : List StepFails) (qd od : Desc) (layer i : Nat) (r : SeqRow) (x : Nat × Acc) : Nat × Acc :=
  let d := r.dir
  let qn := (d.heads * d.group + 2 * d.heads) * d.dim
  let n := d.heads * d.group * d.dim
  if layersIn r ≤ layer ∨ dSize qd 0 < qn ∨ dSize od 0 < n then (x.1, addOut stWindow true x.2)
  else
    let q := rdEls qd qn (i * dSize qd 0) x.2
    let vis := visible r layer q.2
    if pagesUnserved vis.2.s d vis.1 then (x.1, (wrFreeRow od i n vis.2).stop stDeviceFault)
    else
      let o := attendHeads r vis.1 q.1 d.heads 0 (rowSteps tenant steps i vis.2)
      (x.1, wrRow od i n (fun k => let v := o.1.getD k (0, false); (toFmt od.fmt v.1, v.2)) o.2)

/-- The headgate runs checked steps on a usable tile (11 R263, R272). -/
def anyTile (s : State) : Bool := s.cap.tileUsable != 0#32

/-- ATTEND. -/
def execAttend (h : Nat) (s : State) (steps : List StepFails := []) : Res :=
  runCmd h 0x0404 (fun c => serve c fun s =>
    let seq := cmdDesc s c (lo32 (pk c.pkt 0))
    let rows := bitsOf (pk c.pkt 1) 63 48
    let a := Acc.held c.tenant 1 s
    if !anyTile s then finishCmd h [stDeviceFault] 0 s
    else if dCount seq < 64 * rows then finishAcc h 0 (addOut stWindow true a)
    else
      let r := rowsGo c.tenant seq (attendRow c.tenant steps (cmdDesc s c (hi32 (pk c.pkt 0))) (cmdDesc s c (lo32 (pk c.pkt 1))) (bitsOf (pk c.pkt 1) 47 32)) rows 0 (0, a)
      finishAcc h 0 r.2) s

/-! ### EVICT (11 R266, R267) -/

/-- Pages of the resident slots below `n` of one layer, ascending by slot. -/
def residents (r : SeqRow) (l : Nat) : Nat → Nat → Acc → List (Nat × Nat) × Acc
  | 0, _, a => ([], a)
  | n + 1, k, a =>
    let e := entryAt r k l a
    let t := residents r l n (k + 1) e.2
    match e.1 with
    | .resident p => ((k, p) :: t.1, t.2)
    | _ => t

/-- NaN counts lowest; a strictly lower score wins, so ties go to the lowest slot. -/
def lowerScore (a b : Nat) : Bool :=
  let x := dec32 a
  let y := dec32 b
  (isNan x && !isNan y) || (!isNan y && ltX x y)

/-- The slot of lowest score, with its page. -/
def lowest (d : PageDir) : List (Nat × Nat) → Acc → Option (Nat × Nat × Nat) × Acc
  | [], a => (none, a)
  | e :: t, a =>
    let v := getScore d e.2 a
    let r := lowest d t v.2
    match r.1 with
    | some y => (if lowerScore y.2.2 v.1.1 then some y else some (e.1, e.2, v.1.1), r.2)
    | none => (some (e.1, e.2, v.1.1), r.2)

/-- A far slot for a parked page. -/
def popFar (d : PageDir) (a : Acc) : Option (Nat × Desc × Nat) × Acc :=
  match d.farFree with
  | none => (none, a)
  | some ff =>
    let f := popStack ff a
    match f.1 with
    | none => (none, f.2)
    | some k => ((farOff d k).map fun x => (k, x.1, x.2), f.2)

/-- Slot `k` of layer `l`, holding page `p`, is evicted (11 R267). -/
def evictSlot (r : SeqRow) (drop : Bool) (k l p : Nat) (a : Acc) : Acc :=
  let d := r.dir
  let gone (x : Acc) : Acc := setEntry r k l 0xFFFFFFFF (releaseRef d p x).2
  if drop then gone a
  else
    let f := popFar d a
    match f.1 with
    | some (n, x, o) => setEntry r k l (0x80000000 + n) (releaseRef d p (headgateCopy d.pool (pageOff d p) x o d.pageBytes f.2)).2
    | none =>
      let w := rdWord d.dir (d.dir.base + 0x24) f.2
      gone (wrWord d.dir (d.dir.base + 0x24) ((w.1.1 + 1) % 2 ^ 32) w.1.2 w.2)

/-- One layer down to its budget; the Nat counts pages evicted. -/
def evictLayer (r : SeqRow) (budget : Nat) (drop : Bool) (l : Nat) : Nat → Nat × Acc → Nat × Acc
  | 0, x => x
  | fuel + 1, x =>
    let S := ceilDiv (rowLen r) 256
    let res := residents r l (min S (slotsIn r)) 0 x.2
    if res.1.length ≤ budget ∨ res.2.ended = true then (x.1, res.2)
    else
      let v := lowest r.dir (res.1.filter fun e => decide (4 ≤ e.1) && decide (e.1 + 16 < S)) res.2
      match v.1 with
      | none => (x.1, v.2)
      | some (k, p, _) => evictLayer r budget drop l fuel (x.1 + 1, evictSlot r drop k l p v.2)

/-- One row: every layer, then EVICTED. -/
def evictRow (seq : Desc) (budget : Nat) (drop : Bool) (_i : Nat) (r : SeqRow) (x : Nat × Acc) : Nat × Acc :=
  let y := (List.range (layersIn r)).foldl (fun z l => evictLayer r budget drop l (slotsIn r) z) ((0, x.2) : Nat × Acc)
  (x.1 + y.1, if y.1 = 0 then y.2 else
    wrBytes seq.space seq.inst (r.off + 0x28) (toLE 4 (fieldB r.rcd 0x28 4 + y.1)) false y.2)

/-- Some served row's FAR descriptor is not of the allocation that P2 names (11 R267). -/
def farMismatch (c : Cmd) (seq : Desc) (rows : Nat) (a : Acc) : Bool :=
  (rowsGo c.tenant seq (fun _ r x => (x.1 + b2n (r.dir.far.isNone || r.dir.farAlloc != pk c.pkt 2), x.2)) rows 0 (0, a)).1 != 0

/-- EVICT. -/
def execEvict (h : Nat) (s : State) : Res :=
  runCmd h 0x0406 (fun c => serve c fun s =>
    let seq := cmdDesc s c (lo32 (pk c.pkt 0))
    let rows := dCount seq / 64
    let drop := bitOf (pk c.pkt 1) 32
    let a := Acc.held c.tenant 1 s
    if !drop && farMismatch c seq rows a then finishAcc h 0 (addOut stWindow true a)
    else
      let r := rowsGo c.tenant seq (evictRow seq (lo32 (pk c.pkt 1)) drop) rows 0 (0, a)
      finishAcc h r.1 r.2) s

/-! ### VERIFY (11 R268 to R272) -/

/-- The generator of 11 R269, as an exact value. -/
def uniform (seed step k : Nat) : Fl :=
  let m := 2 ^ 64
  let z0 := seed ^^^ (step * 0x9E3779B97F4A7C15 % m) ^^^ ((k + 1) * 0xD1B54A32D192ED03 % m)
  let z1 := (z0 ^^^ (z0 / 2 ^ 30)) * 0xBF58476D1CE4E5B9 % m
  let z2 := (z1 ^^^ (z1 / 2 ^ 27)) * 0x94D049BB133111EB % m
  .fin false ((z2 ^^^ (z2 / 2 ^ 31)) / 2 ^ 40) (-24)

/-- What one VERIFY step knows: its records, parameters and the room left. -/
structure Walk where
  recs : List Byte
  n : Nat
  sampling : Bool
  tree : Bool
  seed : Nat
  step : Nat
  room : Nat

def candTok (w : Walk) (k : Nat) : Nat := fieldB w.recs (32 * k) 4
def candNext (w : Walk) (k : Nat) : Nat := fieldB w.recs (32 * k + 4) 4

/-- The parent of candidate `k`; none where PARENT is not below it (11 R268). -/
def parentOf (w : Walk) (k : Nat) : Option Nat :=
  if w.tree then (let p := fieldB w.recs (32 * k + 8) 2; if p < k then some p else none) else some (k - 1)

/-- Candidate `c` is accepted at `k` (11 R270). -/
def accepts (w : Walk) (k c : Nat) : Bool :=
  if w.sampling then
    ltX (dec32 (enc32 (mulX (uniform w.seed w.step c) (dec32 (fieldB w.recs (32 * c + 16) 4))))) (dec32 (fieldB w.recs (32 * c + 12) 4))
  else candTok w c == candNext w k

/-- The walk from `k` with `a` accepted; `fuel` bounds it by the number of candidates. -/
def walkGo (w : Walk) : Nat → Nat → Nat → List Nat
  | 0, _, _ => []
  | fuel + 1, k, a =>
    if a = w.room then []
    else
      match ((List.range (w.n + 1)).drop 1).find? fun c => parentOf w c == some k && accepts w k c with
      | some c => c :: walkGo w fuel c (a + 1)
      | none => []

/-- The K and V rows of a position of every head in every layer are copied to another (11 R271). A position in a slot at
or beyond SIZE[0] exists for no command, so it is neither read nor written (11 R265). -/
def copyPos (r : SeqRow) (src dst : Nat) (a : Acc) : Acc :=
  let d := r.dir
  if slotsIn r ≤ src / 256 ∨ slotsIn r ≤ dst / 256 then a
  else
  (List.range (layersIn r)).foldl (fun a l =>
    let x := entryAt r (src / 256) l a
    let y := entryAt r (dst / 256) l x.2
    match x.1, y.1 with
    | .resident p, .resident q =>
      (List.range d.heads).foldl (fun a h =>
        [false, true].foldl (fun a v =>
          headgateCopy d.pool (d.pool.base + kvAt d h v ⟨0, p, src % 256⟩) d.pool (d.pool.base + kvAt d h v ⟨0, q, dst % 256⟩) d.dim a) a) y.2
    | _, _ => y.2) a

/-- Copies of the accepted path, `j` from 1 (11 R271 step 1). -/
def copyPath (r : SeqRow) (L : Nat) : List Nat → Nat → Acc → Acc
  | [], _, a => a
  | p :: t, j, a => copyPath r L t (j + 1) (if p = j then a else copyPos r (L + p) (L + j) a)

/-- Resident entries of the slots beyond the kept one are released (11 R271 step 2); the Nat counts them. -/
def releaseTail (r : SeqRow) (lo hi : Nat) (x : Nat × Acc) : Nat × Acc :=
  (List.range (layersIn r)).foldl (fun x l =>
    ((List.range (hi + 1)).drop (lo + 1)).foldl (fun x k =>
      if slotsIn r ≤ k then x
      else
        let e := entryAt r k l x.2
        match e.1 with
        | .resident p => (x.1 + 1, setEntry r k l 0xFFFFFFFF (releaseRef r.dir p e.2).2)
        | _ => (x.1, e.2)) x) x

/-- The 128 bytes of a decision record (11 R272). -/
def decisionBytes (a freed tok committed step : Nat) (path : List Nat) : List Byte :=
  toLE 1 a ++ toLE 1 0 ++ toLE 2 freed ++ toLE 4 tok ++ toLE 4 committed ++ toLE 4 0 ++ toLE 8 step ++ toLE 8 0 ++
  sliceB (path.map (BitVec.ofNat 8)) 0 64 ++ rep 32 0

/-- One row of VERIFY. Its walk is a checked step, and a recomputed walk decides alike (11 R272). -/
def verifyRow (tenant : Nat) (steps : List StepFails) (seq cand dec : Desc) (n : Nat) (sampling tree : Bool) (i : Nat) (r : SeqRow)
    (x : Nat × Acc) : Nat × Acc :=
  let L := rowLen r
  let step := fieldB r.rcd 0x18 8
  let cap := 256 * slotsIn r
  let out (bs : List Byte) (p : Bool) (a : Acc) : Acc := wrBytes dec.space dec.inst (dec.base + 128 * i) bs p a
  if cap ≤ L then (x.1, out (decisionBytes 0 0 0xFFFFFFFF L step []) false x.2)
  else
    let e := rdEls cand (32 * (n + 1)) (i * dSize cand 0) x.2
    let c := (e.1, rowSteps tenant steps i e.2)
    let bad := anyPoison c.1
    let w : Walk := ⟨c.1.map fun v => BitVec.ofNat 8 v.1, n, sampling, tree, fieldB r.rcd 0x10 8, step, cap - L - 1⟩
    let path := walkGo w (n + 1) 0 0
    let a := path.length
    let L' := L + 1 + a
    let a1 := if tree then copyPath r L path 1 c.2 else c.2
    let f := releaseTail r (L' / 256) ((L + n) / 256) (0, a1)
    let rcd' := toLE 4 L' ++ sliceB r.rcd 4 20 ++ toLE 8 (step + 1) ++ sliceB r.rcd 0x20 32
    (if f.2.ended then x.1 else x.1 + a, out (decisionBytes a f.1 (candNext w (path.getLast?.getD 0)) L' step path) bad
      (wrBytes seq.space seq.inst r.off rcd' bad f.2))

/-- VERIFY. -/
def execVerify (h : Nat) (s : State) (steps : List StepFails := []) : Res :=
  runCmd h 0x0405 (fun c => serve c fun s =>
    let seq := cmdDesc s c (lo32 (pk c.pkt 0))
    let w := pk c.pkt 2
    let rows := bitsOf w 31 16
    let a := Acc.held c.tenant 1 s
    if !anyTile s then finishCmd h [stDeviceFault] 0 s
    else if dCount seq < 64 * rows then finishAcc h 0 (addOut stWindow true a)
    else
      let r := rowsGo c.tenant seq (verifyRow c.tenant steps seq (cmdDesc s c (hi32 (pk c.pkt 0))) (cmdDesc s c (lo32 (pk c.pkt 1))) (bitsOf w 15 8) (bitOf w 0) (bitOf w 1)) rows 0 (0, a)
      finishAcc h r.1 r.2) s

/-! ### Adapters (11 R274, R275) -/

/-- ADAPTER_LOAD: B is normalised in place by the column scales (03 R65); the slot becomes resident. -/
def execAdapterLoad (h : Nat) (s : State) : Res :=
  runCmd h 0x0407 (fun c => serve c fun s =>
    let src := cmdDesc s c (lo32 (pk c.pkt 0))
    let col := cmdDesc s c (hi32 (pk c.pkt 0))
    let slot := bitsOf (pk c.pkt 1) 13 0
    let r := bitsOf (pk c.pkt 1) 23 16
    let n := dCount col
    let k := dCount src / r - n
    let norm : SlotFn := fun e a =>
      if e < r * k then (none, a)
      else
        let j := e - r * k
        let sc := rdEl col (j / (512 * r) * 512 + j % 512) a
        let b := rdEl src e sc.2
        (some (encB16 (dec32 (fmul (widen 4 b.1.1) (frecip sc.1.1))), b.1.2 || sc.1.2), b.2)
    let a := wrPieces src norm (dPieces src) (Acc.start 1 s)
    finishAcc h 0 { a with s := { a.s with adapters := tabPut slot ⟨c.tenant, r, k, n, lo32 (pk c.pkt 0), true⟩ a.s.adapters } }) s

/-- ADAPTER_EVICT, once the earlier runs of its tenant have completed. -/
def execAdapterEvict (h : Nat) (s : State) : Res :=
  runCmd h 0x0408 (fun c s =>
    let slot := bitsOf (pk c.pkt 1) 13 0
    finishCmd h [] 0 { s with adapters := s.adapters.filter fun e => !(e.1 == slot && e.2.tenant == c.tenant) }) s

end Sys2Proof.Machine
end

