-- ==== Sys2Proof/Machine/CtrCmds.lean ====
section
/-! DEFINITION. Class 0x05xx, COUNTER_PEEK and COUNTER_POKE, and the counter store's own update (09 R205 to
R218). -/

namespace Sys2Proof.Machine

/-- A counter's value as it is read out; of a broken counter the spec gives none (FREE VALUE, log entry 6). -/
def readCtr (c : Nat) (s : State) : Nat × State :=
  if s.ctrs.broken.contains c then freshVal 8 s else ((ctrVal s c).toNat, s)

/-- Counter `k` of a tenant for a command: none where the tenant or its range is gone. -/
def cmdCtr (s : State) (c : Cmd) : Option Nat := physCtr s c.tenant (bitsOf (pk c.pkt 0) 15 0)

/-- CTR_SIGNAL (09 R206). -/
def execCtrSignal (h : Nat) (s : State) : Res :=
  runCmd h 0x0501 (fun c s => schedule (finishCmd h [] 0 (signalCtr c.tenant (bitsOf (pk c.pkt 0) 15 0) (pk c.pkt 1) s))) s

/-- A Brodat wait is registered, once (09 R207, R208); on a broken counter it ends (R218). -/
def brodatWait (take : Bool) (c : Cmd) (s : State) : State :=
  match cmdCtr s c with
  | none => finishCmd c.handle [stWindow] 0 s
  | some k =>
    if s.ctrs.broken.contains k then finishCmd c.handle [stDeviceFault] 0 s
    else if s.ctrs.waits.any fun w => w.owner == .cmd c.handle then s
    else arriveWait ⟨k, take, pk c.pkt 1, .cmd c.handle⟩ s

/-- CTR_WAIT_GE (09 R207): it completes at the update that releases it. -/
def execCtrWaitGe (h : Nat) (s : State) : Res := runCmd h 0x0502 (brodatWait false) s

/-- CTR_WAIT_TAKE (09 R208). -/
def execCtrWaitTake (h : Nat) (s : State) : Res := runCmd h 0x0503 (brodatWait true) s

/-- CTR_READ (09 R210). -/
def execCtrRead (h : Nat) (s : State) : Res :=
  runCmd h 0x0504 (fun c s =>
    match cmdCtr s c with
    | none => finishCmd h [stWindow] 0 s
    | some k => let r := readCtr k s; finishCmd h [] r.1 r.2) s

/-- The counter that COUNTER_PEEK and COUNTER_POKE name, while its tenant is there (09 R217). -/
def namedCtr (s : State) (t k : Nat) : Option Nat := if tenantThere s t then physCtr s t k else none

/-- COUNTER_PEEK (09 R217). -/
def execCounterPeek (h : Nat) (s : State) : Res :=
  runCmd h 0x0705 (fun c s =>
    match namedCtr s (bitsOf (pk c.pkt 0) 5 0) (bitsOf (pk c.pkt 0) 31 16) with
    | none => finishCmd h [stWindow] 0 s
    | some k => let r := readCtr k s; finishCmd h [] r.1 r.2) s

/-- A value set by hand: one update, HG_CTR_POKED, one Henua event (09 R217). `issuer`: 0 tenant 0, 1 the
Henua controller. Answers the old value. -/
def handSet (issuer t k c v : Nat) (s : State) : Nat × State :=
  let r := readCtr c s
  (r.1, henuaEvent 0x04 1 [issuer, t, k, r.1, v, now s]
    (modTen t (fun x => { x with poked := x.poked + 1 }) (pokePhys c v r.2)))

/-- COUNTER_POKE (09 R217). -/
def execCounterPoke (h : Nat) (s : State) : Res :=
  runCmd h 0x0706 (fun c s =>
    let t := bitsOf (pk c.pkt 0) 5 0
    let k := bitsOf (pk c.pkt 0) 31 16
    match namedCtr s t k with
    | none => finishCmd h [stWindow] 0 s
    | some n => let r := handSet 0 t k n (pk c.pkt 1) s; schedule (finishCmd h [] r.1 r.2)) s

/-- A counter becomes broken (09 R218): its waits end, each run with a tile on it ends, the fault is recorded
and reported. -/
def breakCtr (t k c : Nat) (s : State) : State :=
  let ws := s.ctrs.waits.filter fun w => w.ctr == c
  let s1 := { s with ctrs := { s.ctrs with broken := setIns c s.ctrs.broken, waits := s.ctrs.waits.filter fun w => w.ctr != c } }
  let s2 := forEach (fun (w : Wait) u =>
    match w.owner with
    | .cmd h => finishCmd h [stDeviceFault] 0 u
    | .tile x =>
      match (getTile u x).ctx with
      | some y => endRun y.run [stDeviceFault] u
      | none => u) ws s1
  henuaEvent 0x04 1 [t, k, c] (recordFault 9 13 .counterStore t 0 [] s2)

/-- COUNTER_SIGNAL: the store applies one signal to a counter of a tenant (09 R209), or finds the counter's
word uncorrectable (R218). -/
def execCounterSignal (tenant ctr amount : Nat) (uncorrectable : Bool) (s : State) : Res :=
  .next (match physCtr s tenant ctr with
    | none => s
    | some c =>
      if uncorrectable then (if s.ctrs.broken.contains c then s else schedule (breakCtr tenant ctr c s))
      else schedule (signalPhys c amount s))

end Sys2Proof.Machine
end

