-- ==== Sys2Proof/Machine/Peer.lean ====
section
/-! DEFINITION. The peer transport (13): paths, packets, acknowledgement and loss (R307 to R311), groups
(R313 to R316), remote copies (R317 to R319), collectives (R320, R321), peer loss (R322 to R324). The
lengths of timers are not modelled: their expiries are rows. -/

namespace Sys2Proof.Machine

/-! ### Paths (13 R309) -/

def m32 : Nat := 2 ^ 32

/-- The logical ports that are up, in port order. -/
def upPorts (s : State) : List (Nat × Nat) :=
  (List.range 20).flatMap fun p => ((List.range 4).filter fun l => hasBit (getPort s p).linkUp l).map fun l => (p, l)

/-- The logical port that path `k` to a peer leaves from. -/
def portOfPath (s : State) (peer k : Nat) : Option (Nat × Nat) :=
  let l := upPorts s
  if l.isEmpty then none else l[(peer + k) % l.length]?

def getPeer? (s : State) (m : Nat) : Option Peer := tabGet? m s.dpt.peers
def modPeer (m : Nat) (g : Peer → Peer) (s : State) : State :=
  match getPeer? s m with
  | some p => modDpt (fun d => { d with peers := tabPut m (g p) d.peers }) s
  | none => s

def newPath : PathSt := ⟨true, 0, 0, [], m32 - 1, [], 0⟩
def pathOf (p : Peer) (k : Nat) : PathSt := tabGetD newPath k p.paths
def modPath (m k : Nat) (g : PathSt → PathSt) (s : State) : State := modPeer m (fun p => { p with paths := tabPut k (g (pathOf p k)) p.paths }) s

/-- The least loaded up path, the lowest number on a tie. -/
def choosePath (s : State) (m : Nat) : Option Nat :=
  match getPeer? s m with
  | none => none
  | some p => (sortKey (fun k => (pathOf p k).out.length) ((List.range 16).filter fun k => (pathOf p k).up && (portOfPath s m k).isSome)).head?

/-- The 64-byte entry of a logical port's addressing record (13 R305). -/
def portEntry (s : State) (e : Nat × Nat) : List Byte := sliceB (getPort s e.1).record (64 * e.2) 64

def entryV6 (b : List Byte) : Bool := fieldB b 8 1 == 6

/-- Bytes of a frame that carries `n` payload bytes of DPT, FCS included (13 R308; log entry 24). -/
def dptFrame (b : List Byte) (n : Nat) : Nat := 14 + (if bitOf (fieldB b 6 2) 15 then 4 else 0) + (if entryV6 b then 40 else 20) + 8 + 64 + n + 4

def countTx (m k n : Nat) (s : State) : State :=
  match portOfPath s m k with
  | some e => modPort e.1 (fun p => { p with txBytes := p.txBytes + BitVec.ofNat 64 (dptFrame (portEntry s e) n) }) s
  | none => s

/-- Payload of a write on a path (13 R308). -/
def payloadOf (s : State) (m k : Nat) : Nat :=
  match portOfPath s m k with
  | some e => let b := portEntry s e; if (if entryV6 b then 4208 else 4188) ≤ fieldB b 0x0A 2 then 4096 else 1024
  | none => 1024

/-! ### Sending -/

/-- The 64 bytes of a header (13 R307). -/
def hdrBytes (ty : Nat) (h : DptHdr) : List Byte :=
  toLE 1 ty ++ toLE 1 (b2n h.last + 2 * b2n h.retx + 4 * b2n h.poisonValid) ++ toLE 2 h.major ++ toLE 2 (h.src % 4096) ++ toLE 2 (h.dst % 4096) ++
  toLE 4 h.incarnation ++ toLE 2 (h.path % 16) ++ toLE 2 h.queue ++ toLE 4 h.psn ++ toLE 4 h.qsn ++ toLE 4 h.desc ++ toLE 1 (h.tenant % 64) ++ rep 3 0 ++
  toLE 8 h.offset ++ toLE 2 h.counter ++ toLE 2 h.signalN ++ toLE 4 h.length ++ toLE 8 h.poison ++ rep 8 0

/-- Payload bytes of a packet. -/
def bodyLen : DptBody → Nat
  | .data p => p.length
  | .ack _ => 64 * Config.ctlBlocks 3
  | .ctl _ => 64 * Config.ctlBlocks 5

/-- The source port of path `k` to a module (13 R309). -/
def srcPortOf (m k : Nat) : Nat := 49152 + 16 * (m % 64) + k

/-- The address that path `k` goes to: one of those the peer advertised (13 R309). -/
def pathAddr (p : Peer) (k : Nat) : List Byte := if p.addrs.isEmpty then [] else p.addrs.getD (k % p.addrs.length) []

/-- A packet leaves on path `k`, counted at its port; with no logical port up nothing leaves. -/
def wireOut (m k ty : Nat) (addr : List Byte) (hd : DptHdr) (b : DptBody) (s : State) : State :=
  if (portOfPath s m k).isNone then s
  else countTx m k (bodyLen b) (emit (.dpt ⟨m, k, srcPortOf m k, addr, true, hdrBytes ty { hd with path := k, length := bodyLen b }, b⟩) s)

/-- A packet goes out on path `k` under a new PSN and awaits its acknowledgement (13 R310). -/
def sendOn (m k ty : Nat) (hd : DptHdr) (b : DptBody) (s : State) : State :=
  match getPeer? s m with
  | none => s
  | some p =>
    let n := (pathOf p k).txPsn
    let hd' := { hd with psn := n, path := k, length := bodyLen b }
    wireOut m k ty (pathAddr p k) hd' b (modPath m k (fun x => { x with txPsn := (n + 1) % m32, out := x.out ++ [⟨n, ty, hd', b, 0⟩] }) s)

/-- Header fields that every packet of this module carries (13 R307). -/
def baseHdr (s : State) (m : Nat) : DptHdr :=
  { (default : DptHdr) with major := s.cap.fwMajor.toNat, src := s.dpt.moduleNumber, dst := m, incarnation := s.dpt.incarnation.toNat % m32 }

/-- A control message to a peer, on the least loaded path. -/
def sendCtl (m : Nat) (c : DptCtl) (s : State) : State := sendOn m ((choosePath s m).getD 0) 5 (baseHdr s m) (.ctl c) s

/-- An advertisement to an address: no path is open yet, so it takes no path's number (13 R315). -/
def sendAdvert (m : Nat) (addr : List Byte) (a : Advert) (s : State) : State := wireOut m 0 5 addr (baseHdr s m) (.ctl (.advert a)) s

/-- A copy's packet takes its QSN; its last one closes the copy. -/
def noteSent (m : Nat) (x : TxItem) (q : Nat) (s : State) : State :=
  if x.final then
    modDpt (fun d => { d with remotes := d.remotes.map fun r => if r.handle == x.handle && r.peer == m && r.queue == x.hd.queue && r.opened && r.lastQsn.isNone then { r with lastQsn := some q } else r }) s
  else s

/-- The first packet of each queue, and of each collective: the order within one never changes. -/
def queueHeads : List (Nat × Nat) → List TxItem → List TxItem
  | _, [] => []
  | seen, x :: t =>
    let k := (x.ty, if x.ty = 4 then x.handle else x.hd.queue)
    if seen.contains k then queueHeads seen t else x :: queueHeads (k :: seen) t

/-- The packet that takes the next send slot: of those a credit unit is there for, the one whose command or run comes
first by deadline, admission time and tenant (12 R291); a signal without data takes no credit (13 R311). -/
def nextItem (s : State) (p : Peer) : Option TxItem :=
  ((queueHeads [] p.txq).filter fun x => x.payload.isEmpty || p.credits != 0).foldl (fun (b : Option TxItem) x =>
    match b with
    | none => some x
    | some y => if runRank s x.handle < runRank s y.handle then some x else some y) none

/-- The part of a waiting packet that a path of `n` payload bytes carries, and what is left of it (13 R308). -/
def splitItem (n : Nat) (x : TxItem) : TxItem × List TxItem :=
  if x.payload.length ≤ n then (x, [])
  else
    ({ x with final := false, payload := x.payload.take n,
              hd := { x.hd with last := false, poison := x.hd.poison % 2 ^ (n / 64), poisonValid := decide (x.hd.poison % 2 ^ (n / 64) ≠ 0) } },
     [{ x with payload := x.payload.drop n,
               hd := { x.hd with offset := x.hd.offset + n, poison := x.hd.poison / 2 ^ (n / 64), poisonValid := decide (x.hd.poison / 2 ^ (n / 64) ≠ 0) } }])

/-- The first copy of an entry gives way to others in its place. -/
def replaceItem (x : TxItem) (r : List TxItem) : List TxItem → List TxItem
  | [] => []
  | y :: t => if y = x then r ++ t else y :: replaceItem x r t

/-- Waiting packets of a peer go out while a credit unit and a path are free (13 R311). -/
def pumpGo (m : Nat) : Nat → State → State
  | 0, s => s
  | n + 1, s =>
    match getPeer? s m, choosePath s m with
    | some p, some k =>
      match nextItem s p with
      | none => s
      | some w =>
        let c := splitItem (payloadOf s m k) w
        let x := c.1
        let q := tabGetD 0 x.hd.queue p.qsn
        let coll := x.ty == 4
        let hd := if coll then x.hd else { x.hd with qsn := q }
        let s1 := modPeer m (fun y => { y with txq := replaceItem w c.2 y.txq, credits := if x.payload.isEmpty then y.credits else y.credits - 1,
                                               qsn := if coll then y.qsn else tabPut x.hd.queue ((q + 1) % m32) y.qsn }) s
        pumpGo m n (noteSent m x q (sendOn m k x.ty hd (.data x.payload) s1))
    | _, _ => s

/-- An entry of 4,096 bytes goes out in four parts at most. -/
def pump (m : Nat) (s : State) : State := pumpGo m (((getPeer? s m).map (4 * ·.txq.length)).getD 0) s

/-- Values with poison cut into payloads of `per` bytes in whole 64-byte blocks: offset, bytes, POISON (13 R307). The
path that a payload leaves on may cut it further (13 R308). -/
def cutPackets (bits per : Nat) : Nat → Nat → List (Nat × Bool) → List (Nat × List Byte × Nat)
  | 0, _, _ => []
  | n + 1, off, vs =>
    if vs.isEmpty then []
    else
      let h := vs.take (per * 8 / bits)
      let bs := packVals bits (h.map (·.1))
      let blocks := ceilDiv bs.length 64
      let mask := ((List.range blocks).map fun b => if ((h.drop (b * 512 / bits)).take (512 / bits)).any (·.2) then 2 ^ b else 0).sum
      (off, sliceB bs 0 (64 * blocks), mask) :: cutPackets bits per n (off + per) (vs.drop (per * 8 / bits))

/-- Packets of one transfer queued to a peer. -/
def queueItems (m : Nat) (l : List TxItem) (s : State) : State := pump m (modPeer m (fun p => { p with txq := p.txq ++ l }) s)

/-! ### Acknowledgements (13 R310) -/

/-- The receiver's cumulative number moves over packets that have arrived. -/
def advance : Nat → Nat → List Nat → Nat × List Nat
  | 0, c, l => (c, l)
  | n + 1, c, l => if l.contains ((c + 1) % m32) then advance n ((c + 1) % m32) (l.filter (· != (c + 1) % m32)) else (c, l)

/-- Released up to a QSN, by queue. -/
def landedOf (s : State) (m : Nat) : List (Nat × Nat) :=
  s.dpt.rxNext.filterMap fun e => if e.1.1 = m then some (e.1.2, (e.2 + m32 - 1) % m32) else none

/-- Units of the shared pool that no peer holds: 48 MiB in units of 4 KiB (13 R311). -/
def poolLeft (s : State) : Nat := 12288 - (s.dpt.peers.map fun p => p.2.pool).sum

/-- A grant from the shared pool: a FREE number of units within what is left (13 R311; log entry 24). -/
def grantPool (m : Nat) (s : State) : Nat × State :=
  let n := Config.creditGrant s.freeCtr % (poolLeft s + 1)
  (n, modPeer m (fun p => { p with pool := p.pool + n, owed := p.owed + n }) { s with freeCtr := s.freeCtr + 1 })

/-- An acknowledgement with the credits that go back; it takes no number of its path (log entry 24). -/
def sendAck (m k : Nat) (s0 : State) : State :=
  let s := (grantPool m s0).2
  match getPeer? s m with
  | none => s
  | some p =>
    let x := pathOf p k
    let bm := ((List.range 64).map fun i => if x.rxAbove.contains ((x.rxCumulative + 1 + i) % m32) then 2 ^ i else 0).sum
    wireOut m k 3 (pathAddr p k) (baseHdr s m) (.ack ⟨k, x.rxCumulative, bm, p.owed, landedOf s m⟩)
      (modPath m k (fun y => { y with sinceAck := 0 }) (modPeer m (fun y => { y with owed := 0 }) s))

/-- A packet of a path has arrived: an acknowledgement at least every 8 packets. -/
def recvPsn (m k psn : Nat) (s : State) : State :=
  let s1 := modPath m k (fun x =>
    let ahead := (psn + m32 - x.rxCumulative) % m32
    let l := if 0 < ahead ∧ ahead < 2 ^ 31 ∧ !x.rxAbove.contains psn then psn :: x.rxAbove else x.rxAbove
    let r := advance (l.length + 1) x.rxCumulative l
    { x with rxCumulative := r.1, rxAbove := r.2, sinceAck := x.sinceAck + 1 }) s
  match getPeer? s1 m with
  | some p => if 8 ≤ (pathOf p k).sinceAck then sendAck m k s1 else s1
  | none => s1

/-! ### The end of transfers -/

/-- A transfer ends: a command with its outcomes, a tile's write within its run (13 R319, R323). -/
def finishRemote (r : Remote) (outs : List Nat) (s : State) : State :=
  let s1 := modDpt (fun d => { d with remotes := d.remotes.filter (fun x => x != r), peers := tabMap (fun _ p => { p with txq := p.txq.filter fun x => !(x.handle == r.handle && x.hd.queue == r.queue && x.ty != 4) }) d.peers }) s
  let all := outs ++ (if r.poisoned then [stDataPoisoned] else [])
  if r.tile then
    if outs.contains stWindow then endRun r.handle all s1 else modRun r.handle (fun x => { x with outcomes := addOutcomes all x.outcomes }) s1
  else finishCmd r.handle all (if outs.isEmpty then elBytes r.src.fmt (dCount r.src) else 0) s1

/-- The next transfer of each queue opens (13 R317, R318): one of a queue to a peer at a time. -/
def kickGo : List (Nat × Nat) → List Remote → State → State
  | _, [], s => s
  | seen, r :: t, s =>
    if seen.contains (r.peer, r.queue) then kickGo seen t s
    else if r.asked then kickGo ((r.peer, r.queue) :: seen) t s
    else if (getPeer? s r.peer).isNone then kickGo seen t (finishRemote r [stPeerUnreachable] s)
    else
      kickGo ((r.peer, r.queue) :: seen) t
        (sendCtl r.peer (.openReq r.queue r.tenant r.dst r.src.fmt (dCount r.src))
          (modDpt (fun d => { d with remotes := d.remotes.map fun x => if x = r then { x with asked := true } else x }) s))

def kick (s : State) : State := kickGo [] s.dpt.remotes s

/-- A collective ends; where a peer is lost its destination is unpredictable (13 R323). -/
def finishColl (k : Coll) (outs : List Nat) (s : State) : State :=
  let s1 := modDpt (fun d => { d with colls := d.colls.filter (fun x => x.handle != k.handle), peers := tabMap (fun _ p => { p with txq := p.txq.filter fun x => x.handle != k.handle }) d.peers }) s
  finishCmd k.handle outs 0 s1

/-- The destination of a COLLECTIVE that fails takes unpredictable contents (13 R323; 00 R4). -/
def scrambleColl (k : Coll) (s : State) : State :=
  match getCmd? s k.handle with
  | some c =>
    scramble (cmdDesc s c (hi32 (pk c.pkt 0))) s
  | none => s

/-- A group's epoch advances (13 R324): its collectives end, counting restarts. -/
def advanceEpoch (g : Nat) (s : State) : State :=
  forEach (fun k u => finishColl k [stPeerUnreachable] (scrambleColl k u)) (s.dpt.colls.filter fun k => k.group == g)
    (modDpt (fun d => { d with groups := tabMap (fun n x => if n = g then { x with epoch := x.epoch + 1, calls := [] } else x) d.groups,
                               earlyHellos := d.earlyHellos.filter fun e => match e.2 with
                                 | .collHello n _ _ _ _ _ _ => n != g
                                 | _ => true }) s)

/-- A member leaves a group by loss: one Henua event, one interrupt (13 R323). -/
def dropMember (g m : Nat) (s : State) : State :=
  let s1 := advanceEpoch g (modDpt (fun d => { d with groups := tabMap (fun n x => if n = g then { x with joined := x.joined.filter (· != m) } else x) d.groups }) s)
  setCause 0 2 (henuaEvent 0x06 1 [g, m, ((tabGet? g s1.dpt.groups).map (·.epoch.toNat)).getD 0] s1)

/-- The destination of a packet or an open transfer, when it may be written (13 R318, R325). -/
def rxDesc (s : State) (t id : Nat) : Option Desc :=
  match liveDesc s t id with
  | some d => if d.write && [2, 3, 4].contains d.space && d.layout == 0 then some d else none
  | none => none

/-- What an open transfer of a lost peer has not landed is unpredictable (05 R124; log entry 6). -/
def scrambleInbound (x : Inbound) (s : State) : State :=
  match rxDesc s x.tenant x.desc with
  | none => s
  | some d =>
    let start := x.landed * 8 / fmtBits d.fmt
    (wrPieces d (fun n a => if start ≤ n then freeSlots d n a else (none, a))
      ((dPieces d).filter fun l => l.slots.any fun v => match v with
        | some n => decide (start ≤ n)
        | none => false) (Acc.start 1 s)).s

/-- Nothing of a peer is left: its transfers end, its buffered packets are discarded (13 R323), what they would have
written is unpredictable (05 R124). -/
def removePeer (m : Nat) (s : State) : State :=
  let s0 := forEach scrambleInbound (s.dpt.inbound.filter fun x => x.peer == m) s
  let s1 := forEach (fun r u => finishRemote r [stPeerUnreachable] u) (s.dpt.remotes.filter fun r => r.peer == m)
    (modDpt (fun d => { d with inbound := d.inbound.filter fun x => x.peer != m }) s0)
  modDpt (fun d => { d with peers := tabDel m d.peers, reorder := d.reorder.filter (fun b => b.hd.src != m),
                            rxNext := d.rxNext.filter fun e => e.1.1 != m }) s1

/-- A peer is declared lost (13 R322, R323). -/
def losePeer (m : Nat) (s : State) : State :=
  match getPeer? s m with
  | none => s
  | some p =>
    let gs := (s.dpt.groups.filter fun e => e.2.joined.contains m).map (·.1)
    let s1 := modDpt (fun d => { d with peersLost := d.peersLost + 1, lostIncarnations := (d.lostIncarnations.filter (· != (m, p.incarnation))) ++ [(m, p.incarnation)] }) s
    schedule (forEach (fun g u => dropMember g m u) gs (removePeer m s1))

/-- Whether a packet counts: from a joined peer under its incarnation. A new incarnation loses the peer
(13 R322); packets of an old one are discarded (R323). -/
def heardFrom (m inc : Nat) (s : State) : Bool × State :=
  match getPeer? s m with
  | none => (false, s)
  | some p =>
    if p.incarnation = inc % m32 then (true, s)
    else if s.dpt.lostIncarnations.contains (m, inc % m32) then (false, s)
    else (false, losePeer m s)

/-! ### Receiving data (13 R311, R319; 12 R289) -/

/-- A packet arrives before its turn, or in turn, once (13 R310: duplicates by QSN are discarded). -/
def nextQsn (s : State) (m q : Nat) : Nat := ((s.dpt.rxNext.find? fun e => e.1 == (m, q)).map (·.2)).getD 0

def setNextQsn (m q n : Nat) (s : State) : State :=
  modDpt (fun d => { d with rxNext := (d.rxNext.filter fun e => e.1 != (m, q)) ++ [((m, q), n)] }) s

/-- The packet has been released, or waits already. -/
def duplicate (s : State) (hd : DptHdr) : Bool :=
  decide (2 ^ 31 ≤ (hd.qsn + m32 - nextQsn s hd.src hd.queue) % m32) ||
  s.dpt.reorder.any fun b => b.hd.src == hd.src && b.hd.queue == hd.queue && b.hd.qsn == hd.qsn

def occupancy (s : State) : Nat := (s.dpt.reorder.map fun b => b.payload.length).sum

/-- A packet enters the reorder buffer. -/
def bufferPkt (hd : DptHdr) (payload : List Byte) (s : State) : State :=
  let s1 := modDpt (fun d => { d with reorder := d.reorder ++ [⟨hd, payload⟩] }) s
  modDpt (fun d => { d with reorderMax := max d.reorderMax (occupancy s1) }) s1

/-- Values of a payload in a format. -/
def unpackVals (bits : Nat) : Nat → List Byte → List Nat
  | 0, _ => []
  | n + 1, bs =>
    match bs with
    | [] => []
    | b :: t =>
      if bits = 4 then b.toNat % 16 :: b.toNat / 16 :: unpackVals bits n t
      else leNat (bs.take (bits / 8)) :: unpackVals bits n (bs.drop (bits / 8))

/-- A released packet's bytes land at its home (13 R311, R319); false when they are outside the window. -/
def landWrite (b : Buffered) (s : State) : Bool × State :=
  if b.payload.isEmpty then (true, s)
  else
    match rxDesc s b.hd.tenant b.hd.desc with
    | none => (false, s)
    | some d =>
      let bits := fmtBits d.fmt
      let vs := unpackVals bits b.payload.length b.payload
      let start := b.hd.offset * 8 / bits
      if dCount d ≤ start then (false, s)
      else
        let hit (n : Nat) : Bool := decide (start ≤ n ∧ n < start + vs.length)
        let f : SlotFn := fun n a =>
          if hit n then (some (vs.getD (n - start) 0, b.hd.poisonValid && b.hd.poison.testBit ((n - start) * bits / 512)), a) else (none, a)
        let ps := (dPieces d).filter fun l => l.slots.any fun x => match x with
          | some n => hit n
          | none => false
        (true, (wrPieces d f ps (Acc.start 1 s)).s)

/-- The signal of a released packet (09 R213); false when its counter is outside the tenant's range. -/
def landSignal (hd : DptHdr) (s : State) : Bool × State :=
  if hd.last then
    match physCtr s hd.tenant hd.counter with
    | some c => (true, signalPhys c hd.signalN s)
    | none => (false, s)
  else (true, s)

/-- How far an open transfer has landed; it is over with its last byte. -/
def noteLanded (b : Buffered) (s : State) : State :=
  let upTo := b.hd.offset + b.payload.length
  let total := ((rxDesc s b.hd.tenant b.hd.desc).map fun d => elBytes d.fmt (dCount d)).getD 0
  let mine (x : Inbound) : Bool := x.peer == b.hd.src && x.queue == b.hd.queue
  let gone (x : Inbound) : Bool := mine x && (b.hd.last || decide (total ≤ upTo))
  let moved (x : Inbound) : Inbound := if mine x then { x with landed := max x.landed upTo } else x
  modDpt (fun d => { d with inbound := List.filter (fun x => !gone x) (d.inbound.map moved) }) s

/-- A packet leaves the buffer for its home: data, signal, a credit unit back, an acknowledgement. -/
def releasePkt (b : Buffered) (s : State) : State :=
  let w := (fun r => (r.1, noteLanded b r.2)) (landWrite b s)
  let g := if w.1 then landSignal b.hd w.2 else (true, w.2)
  let m := b.hd.src
  let s1 := modPeer m (fun p => { p with owed := p.owed + (if b.payload.isEmpty then 0 else 1) })
    (setNextQsn m b.hd.queue ((b.hd.qsn + 1) % m32) (modDpt (fun d => { d with reorder := d.reorder.filter (fun x => x != b) }) g.2))
  sendAck m b.hd.path (whenS (!(w.1 && g.1)) (sendCtl m (.windowRefused b.hd.queue)) s1)

/-- The packet is for this module, and its payload is as long as its header says, in whole blocks of 64 bytes (13 R307);
others are discarded (R330). -/
def forUs (s : State) (hd : DptHdr) (payload : List Byte) : Bool :=
  hd.dst == s.dpt.moduleNumber && payload.length == hd.length && hd.length % 64 == 0

/-- DPT_WRITE_RECEIVED (13 R310, R311); it wakes Hold (17 R400). -/
def execDptWriteReceived (hd : DptHdr) (payload : List Byte) (s : State) : Res :=
  let r := heardFrom hd.src hd.incarnation s
  .next (if r.1 && forUs s hd payload then
    let s1 := recvPsn hd.src hd.path hd.psn r.2
    if duplicate s1 hd then s1 else whenS (!payload.isEmpty) (wakeSource 4 false) (bufferPkt hd payload s1)
  else r.2)

/-- Blocks of stack memory that a packet writes. -/
def landPhys (s : State) (b : Buffered) : List Nat :=
  match rxDesc s b.hd.tenant b.hd.desc with
  | some d => if d.space = 2 then
      (((dPieces d).filter fun l => l.slots.any fun v => match v with
        | some n => decide (b.hd.offset * 8 / fmtBits d.fmt ≤ n ∧ n < (b.hd.offset + b.payload.length) * 8 / fmtBits d.fmt)
        | none => false).map (·.addr)).filterMap (physBlk s) else []
  | none => []

/-- REORDER_RELEASE: the next packet of a queue in QSN order leaves the buffer (13 R311); one with data waits for
the end of Hold (17 R400), for blocks that are held (04 R95; 10 R242) and for a tile under test (16 R382). -/
def execReorderRelease (src queue : Nat) (s : State) : Res :=
  .next (match s.dpt.reorder.find? fun b => b.hd.src == src && b.hd.queue == queue && b.hd.qsn == nextQsn s src queue with
    | some b => if powerEff s = .hold ∧ b.payload.isEmpty = false then wakeSource 4 false s
      else if !b.payload.isEmpty && onTest s (rxDesc s b.hd.tenant b.hd.desc).toList then s
      else viaGap (peerMover src queue) (if b.payload.isEmpty then [] else landPhys s b) (fun s => schedule (releasePkt b s)) s
    | none => s)

/-- DPT_SIGNAL_RECEIVED: applied at once when every earlier packet of the queue has landed, else it waits for
them (09 R213; 05 R116). -/
def execDptSignalReceived (hd : DptHdr) (s : State) : Res :=
  let r := heardFrom hd.src hd.incarnation s
  .next (if r.1 && forUs s hd [] then
    let s1 := recvPsn hd.src hd.path hd.psn r.2
    if duplicate s1 hd then s1
    else if hd.qsn = nextQsn s1 hd.src hd.queue then schedule (releasePkt ⟨hd, []⟩ s1)
    else bufferPkt hd [] s1
  else r.2)

/-! ### Acknowledgement, loss, timers (13 R310, R322) -/

def acked (a : DptAck) (psn : Nat) : Bool :=
  decide ((a.cumulative + m32 - psn) % m32 < 2 ^ 31) || (decide (0 < (psn + m32 - a.cumulative) % m32 ∧ (psn + m32 - a.cumulative) % m32 ≤ 64) && a.bitmap.testBit ((psn + m32 - a.cumulative) % m32 - 1))

/-- A lost packet is resent on the least loaded up path under a new PSN, its QSN unchanged (13 R310). -/
def resend (m k : Nat) (o : OutPkt) (s : State) : State :=
  match choosePath s m with
  | none => s
  | some j =>
    sendOn m j o.ty { o.hd with retx := true } o.body
      (modDpt (fun d => { d with retx := d.retx + 1 }) (modPath m k (fun x => { x with out := x.out.filter fun y => y.psn != o.psn }) s))

/-- An acknowledgement and credit packet arrives (13 R310, R311, R319). -/
def ackReceived (hd : DptHdr) (a : DptAck) (s : State) : Res :=
  let src := hd.src
  let r := heardFrom src hd.incarnation s
  .next (match (if r.1 && hd.dst == s.dpt.moduleNumber && decide (a.path < 16) then getPeer? r.2 src else none) with
    | none => r.2
    | some p =>
      let x := pathOf p a.path
      let got := x.out.filter fun o => acked a o.psn
      let left := (x.out.filter fun o => !acked a o.psn).map fun o =>
        { o with higherAcked := o.higherAcked + (got.filter fun g => decide (0 < (g.psn + m32 - o.psn) % m32 ∧ (g.psn + m32 - o.psn) % m32 < 2 ^ 31)).length }
      let s1 := modPeer src (fun y => { y with credits := y.credits + a.credits })
        (modPath src a.path (fun y => { y with out := left, timeouts := if got.isEmpty then y.timeouts else 0,
                                               up := y.up || got.any fun o => o.body == .ctl .keepalive }) r.2)
      let s2 := forEach (fun o u => resend src a.path o u) (left.filter fun o => decide (3 ≤ o.higherAcked)) s1
      let done := s2.dpt.remotes.filter fun q => q.peer == src && match q.lastQsn with
        | some n => a.landed.any fun e => e.1 == q.queue && decide ((e.2 + m32 - n) % m32 < 2 ^ 31)
        | none => false
      pump src (kick (forEach (fun q u => finishRemote q [] u) done s2)))

/-- DPT_ACK_RECEIVED. -/
def execDptAckReceived (src incarnation : Nat) (p : DptShort × DptAck) (s : State) : Res :=
  ackReceived (p.1.full src incarnation) p.2 s

/-- ACK_TIMER: the oldest packet has waited 2 µs for its acknowledgement. -/
def execAckTimer (peer path : Nat) (s : State) : Res :=
  onUnit (pathOk path)
    (match getPeer? s peer with
     | some p => if 0 < (pathOf p path).sinceAck then sendAck peer path s else s
     | none => s)

/-- RETRANSMIT_TIMEOUT: eight in a row mark the path down. -/
def execRetransmitTimeout (peer path psn : Nat) (s : State) : Res :=
  onUnit (pathOk path)
    (match (getPeer? s peer).bind fun p => (pathOf p path).out.find? fun o => o.psn == psn with
     | some o =>
       resend peer path o (modPath peer path (fun x => { x with timeouts := x.timeouts + 1, up := x.up && decide (x.timeouts + 1 < 8) }) s)
     | none => s)

/-- PATH_PROBE: a down path is probed; an acknowledgement on it brings it back. -/
def execPathProbe (peer path : Nat) (s : State) : Res :=
  onUnit (pathOk path)
    (match getPeer? s peer with
     | some p => if !(pathOf p path).up && (portOfPath s peer path).isSome then sendOn peer path 5 (baseHdr s peer) (.ctl .keepalive) s else s
     | none => s)

/-- KEEPALIVE_TIMER: a keepalive on a rotating path (13 R322). -/
def execKeepaliveTimer (peer : Nat) (s : State) : Res :=
  .next (match getPeer? s peer with
    | some p => sendOn peer p.kaNext 5 (baseHdr s peer) (.ctl .keepalive) (modPeer peer (fun x => { x with kaNext := (x.kaNext + 1) % 16 }) s)
    | none => s)

/-- PEER_TIMEOUT (13 R322, R323). -/
def execPeerTimeout (peer : Nat) (s : State) : Res := .next (losePeer peer s)

/-! ### Groups (13 R313 to R316) -/

/-- The member list: module number and the 20 bytes of FAMILY and CONTACT. -/
def parseMembers (b : List Byte) (n : Nat) : List (Nat × List Byte) :=
  (List.range n).map fun i => (fieldB b (32 * i) 2 % 4096, sliceB b (32 * i + 2) 18)

/-- The CONTACT address of a list entry (13 R314). -/
def contactOf (b : List Byte) : List Byte := b.drop 2

/-- The list keeps 13 R314: unique members, this module among them, families, reserved bytes zero. -/
def membersOk (s : State) (b : List Byte) (n : Nat) : Bool :=
  let l := (parseMembers b n).map (·.1)
  l.eraseDups.length == n && l.contains s.dpt.moduleNumber &&
  (List.range n).all fun i => decide (fieldB b (32 * i) 2 < 4096) && [4, 6].contains (fieldB b (32 * i + 2) 1) && fieldB b (32 * i + 3) 1 == 0 &&
    allZero (sliceB b (32 * i + 20) 12)

def listDigest (g : Group) : Nat := Config.memberDigest (sortKey id (g.members.map (·.1)))

/-- Addresses of the logical ports that are up. -/
def portAddrs (s : State) : List (List Byte) := (upPorts s).map fun e => sliceB (portEntry s e) 0x10 16

/-- This module's advertisement for a group (13 R315). -/
def advertOf (s : State) (n : Nat) (g : Group) : Advert :=
  ⟨n, s.dpt.incarnation.toNat, s.cap.fwMajor.toNat, s.cap.fwMinor.toNat, s.cap.abi.toNat, Config.features s.cap.fwMajor.toNat, listDigest g, portAddrs s⟩

/-- Firmware majors of the joined members, this module's among them. -/
def majorsOf (s : State) (g : Group) : List Nat :=
  g.joined.filterMap fun m => if m = s.dpt.moduleNumber then some s.cap.fwMajor.toNat else (getPeer? s m).map (·.major)

def spreadOk (l : List Nat) : Bool := l.all fun a => l.all fun b => decide (a ≤ b + 1)

/-- Peers that no group joins any more are gone. -/
def prunePeers (s : State) : State :=
  forEach removePeer ((s.dpt.peers.filter fun e => !s.dpt.groups.any fun g => g.2.joined.contains e.1).map (·.1)) s

/-- A group ceases to exist here: its collectives and its join end. -/
def removeGroup (g : Nat) (s : State) : State :=
  let s1 := advanceEpoch g s
  prunePeers (modDpt (fun d => { d with groups := tabDel g d.groups }) s1)

/-- GROUP_JOIN ends with the members joined so far (13 R315, R316). -/
def completeJoin (g : Nat) (s : State) : State :=
  match tabGet? g s.dpt.groups with
  | none => s
  | some x =>
    match x.join with
    | none => s
    | some h =>
      if !spreadOk (majorsOf s x) then finishCmd h [stVersionMismatch] x.joined.length (removeGroup g s)
      else
        finishCmd h (if x.joined.length < x.members.length then [stPeerUnreachable] else []) x.joined.length
          (modDpt (fun d => { d with groups := tabPut g { x with formed := true, join := none } d.groups }) s)

/-- GROUP_JOIN (13 R313 to R315): the list is read, advertisements go to every member's CONTACT. -/
def execGroupJoin (h : Nat) (s : State) : Res :=
  runCmd h 0x0602 (fun c s =>
    let n := pk c.pkt 2
    let g := bitsOf (pk c.pkt 0) 31 16
    let b := hostRead s (pk c.pkt 1) (32 * n)
    if s.dpt.groups.any fun e => e.2.join == some h then s
    else
      let s := hostFetch c.tenant (pk c.pkt 1) (32 * n) s
      if !membersOk s b n || s.dpt.moduleNumber != bitsOf (pk c.pkt 0) 11 0 then finishCmd h [stWindow] 0 s
      else
        let old := tabGet? g s.dpt.groups
        let s1 := forEach (fun (h' : Nat) u => finishCmd h' [stPeerUnreachable] 0 u) ((old.bind (·.join)).toList) (whenS old.isSome (advanceEpoch g) s)
        let x : Group := ⟨parseMembers b n, [s.dpt.moduleNumber], false, ((tabGet? g s1.dpt.groups).map (·.epoch)).getD 0, [], some h⟩
        let s2 := modDpt (fun d => { d with groups := tabPut g x d.groups }) s1
        forEach (fun (m : Nat × List Byte) u => whenS (m.1 != s.dpt.moduleNumber) (sendAdvert m.1 (contactOf m.2) (advertOf u g x)) u) x.members s2) s

/-- JOIN_TIMEOUT: one peer timeout after the join began. -/
def execJoinTimeout (h : Nat) (s : State) : Res :=
  .next (match s.dpt.groups.find? fun e => e.2.join == some h with
    | some e => completeJoin e.1 s
    | none => s)

/-- GROUP_LEAVE (13 R315). -/
def execGroupLeave (h : Nat) (s : State) : Res :=
  runCmd h 0x0603 (fun c s =>
    let g := bitsOf (pk c.pkt 0) 31 16
    match tabGet? g s.dpt.groups with
    | none => finishCmd h [] 0 s
    | some x =>
      let s1 := forEach (fun m u => whenS (m != s.dpt.moduleNumber) (sendCtl m (.leave g)) u) x.joined s
      let s2 := forEach (fun (h' : Nat) u => finishCmd h' [stPeerUnreachable] x.joined.length u) x.join.toList s1
      schedule (finishCmd h [] 0 (removeGroup g s2))) s

def newPeer (a : Advert) : Peer :=
  ⟨a.incarnation % m32, a.major, a.abi, a.features, a.addrs, (List.range 16).map fun k => (k, newPath), [], 1, 0, 0, 0, []⟩

/-- A member's advertisement (13 R315, R322): a new incarnation loses the old peer first; a member joins when
the digests agree and a formed group's majors stay within R316. This module answers with its own. -/
def recvAdvert (m : Nat) (a : Advert) (s : State) : State :=
  match tabGet? a.group s.dpt.groups with
  | none => s
  | some g =>
    let stale := (getPeer? s m).isSome && s.dpt.lostIncarnations.contains (m, a.incarnation % m32)
    if stale || !g.members.any (fun x => x.1 == m) || m == s.dpt.moduleNumber then s
    else
      let s1 := match getPeer? s m with
        | some p => if p.incarnation = a.incarnation % m32 then s else losePeer m s
        | none => s
      match tabGet? a.group s1.dpt.groups with
      | none => s1
      | some g1 =>
        if g1.joined.contains m ∨ listDigest g1 ≠ a.digest ∨ (g1.formed = true ∧ spreadOk (a.major :: majorsOf s1 g1) = false) then s1
        else
          let s2 := sendAdvert m (((g1.members.find? fun e => e.1 == m).map fun e => contactOf e.2).getD []) (advertOf s1 a.group g1) s1
          let s3 := modDpt (fun d => { d with peers := if (tabGet? m d.peers).isSome then d.peers else tabPut m (newPeer a) d.peers,
                                              lostIncarnations := d.lostIncarnations.filter (· != (m, a.incarnation % m32)),
                                              groups := tabPut a.group { g1 with joined := setIns m g1.joined } d.groups }) s2
          let s4 := advanceEpoch a.group s3
          match tabGet? a.group s4.dpt.groups with
          | some x => if x.join.isSome ∧ x.joined.length = x.members.length then completeJoin a.group s4 else s4
          | none => s4

/-! ### REMOTE_COPY (13 R317 to R319) -/

/-- REMOTE_COPY: waits for the earlier ones of its queue to the peer, then opens; a module that is no joined
member ends it at once. -/
def execRemoteCopy (h : Nat) (s : State) : Res :=
  runCmd h 0x0604 (fun c s =>
    let m := bitsOf (pk c.pkt 1) 11 0
    if s.dpt.remotes.any fun r => r.handle == h && !r.tile then s
    else if (getPeer? s m).isNone then finishCmd h [stPeerUnreachable] 0 s
    else if s.cmds.any fun x => x.pkt.opcode == 0x0604 && x.tenant == c.tenant && x.sq == c.sq && decide (x.order < c.order) && x.stage != .done &&
        bitsOf (pk x.pkt 1) 11 0 == m && !s.dpt.remotes.any fun r => r.handle == x.handle && !r.tile then s
    else
      kick (modDpt (fun d => { d with remotes := d.remotes ++ [⟨h, false, m, 16 * c.tenant + c.sq, c.tenant, cmdDesc s c (lo32 (pk c.pkt 0)), [],
        hi32 (pk c.pkt 0), bitsOf (pk c.pkt 1) 31 16, bitsOf (pk c.pkt 1) 47 32, false, false, none, false⟩] }) s)) s

/-- The opened transfer's packets are queued: the whole source is read; poison travels and takes the signal
with it (13 R319). -/
def sendCopy (r : Remote) (s : State) : State :=
  let rd := if r.tile then (r.data, Acc.start 1 s) else rdEls r.src (dCount r.src) 0 (Acc.start 1 s)
  let bad := anyPoison rd.1
  let ps := cutPackets (fmtBits r.src.fmt) 4096 (rd.1.length + 1) 0 rd.1
  let hd : DptHdr := { baseHdr s r.peer with queue := r.queue, desc := r.dst, tenant := r.tenant }
  let sig (h : DptHdr) : DptHdr := if bad then h else { h with last := true, counter := r.counter, signalN := r.signalN }
  let items : List TxItem :=
    if ps.isEmpty then [⟨r.handle, true, 2, sig hd, []⟩]
    else ps.zipIdx.map fun e =>
      let h := { hd with offset := e.1.1, poison := e.1.2.2, poisonValid := decide (0 < e.1.2.2) }
      let fin := e.2 + 1 == ps.length
      ⟨r.handle, fin, 1, if fin then sig h else h, e.1.2.1⟩
  let s1 := modDpt (fun d => { d with remotes := d.remotes.map fun x => if x = r then { x with opened := true, poisoned := bad } else x }) rd.2.s
  queueItems r.peer items s1

/-- What this module answers to an open message (13 R318). -/
def openOk (s : State) (t id fmt n : Nat) : Bool :=
  (getTen? s t).isSome && (match rxDesc s t id with
    | some d => d.fmt == fmt && dCount d == n
    | none => false)

/-- A peer's transfer is open: one of a queue at a time. -/
def noteInbound (m q t d : Nat) (s : State) : State :=
  modDpt (fun x => { x with inbound := (x.inbound.filter fun e => !(e.peer == m && e.queue == q)) ++ [⟨m, q, t, d, 0⟩] }) s

/-! ### COLLECTIVE (13 R320, R321) -/

def collKind (c : Cmd) : Nat := bitsOf (pk c.pkt 1) 3 0
def collRed (c : Cmd) : Nat := bitsOf (pk c.pkt 1) 7 4
def ranks (g : Group) : List Nat := sortKey id (g.members.map (·.1))
def rankIn (g : Group) (m : Nat) : Nat := (ranks g).idxOf m

/-- Elements of one contribution: all of the source, or one chunk of it. -/
def partLen (c : Cmd) (p n : Nat) : Nat := if collKind c = 1 ∨ collKind c = 3 then n else n / p

/-- The contribution of this module for rank `j`. -/
def partFor (c : Cmd) (p j : Nat) (l : List PV) : List PV :=
  let k := partLen c p l.length
  if collKind c = 1 ∨ collKind c = 3 then l else (l.drop (j * k)).take k

def combineVal (fmt red a b : Nat) : Nat :=
  if fmt = 6 then (match red with
    | 2 => iMin a b
    | 3 => iMax a b
    | _ => (a + b) % m32)
  else match red with
    | 2 => fmin a b
    | 3 => fmax a b
    | _ => fadd a b

/-- One round of 13 R321. -/
def redRound (f : Nat → Nat → Nat) : List Nat → List Nat
  | a :: b :: t => f a b :: redRound f t
  | l => l

def redGo (f : Nat → Nat → Nat) : Nat → List Nat → Nat
  | 0, l => l.headD 0
  | n + 1, l => if l.length ≤ 1 then l.headD 0 else redGo f n (redRound f l)

/-- The reduction of one element over the ranks: BF16 is combined in FP32 and rounded once. -/
def reduceRanks (fmt red : Nat) (l : List Nat) : Nat :=
  if fmt = 4 then encB16 (dec32 (redGo (combineVal 5 red) l.length (l.map (widen 4))))
  else redGo (combineVal fmt red) l.length l

/-- Every contribution is complete: the destination is written, once no block of it is held (04 R95), Hold is over (17
R400) and its tile is not under test (16 R382), and the collective ends. -/
def settleColl (h : Nat) (s : State) : State :=
  match s.dpt.colls.find? (fun k => k.handle == h), getCmd? s h with
  | some k, some c =>
    match tabGet? k.group s.dpt.groups with
    | none => s
    | some g =>
      let p := g.members.length
      let src := cmdDesc s c (lo32 (pk c.pkt 0))
      let dst := cmdDesc s c (hi32 (pk c.pkt 0))
      let n := partLen c p (dCount src)
      if (List.range p).all fun i => (tabGetD [] i k.parts).length == n then
        let at_ (i e : Nat) : PV := tabGetD (0, false) e (tabGetD [] i k.parts)
        let val (e : Nat) : PV :=
          if collKind c ≤ 2 then
            let l := (List.range p).map fun i => at_ i e
            (reduceRanks dst.fmt (collRed c) (l.map (·.1)), anyPoison l)
          else at_ (e / n) (e % n)
        if powerEff s = .hold ∧ 2 ≤ dst.space then wakeSource 4 false s
        else if onTest s [dst] then s
        else viaGap h (descPhys s dst) (fun s =>
          let a := wrPieces dst (fun e x => (some (val e), x)) (dPieces dst) (Acc.start 1 s)
          let bad := k.parts.any fun q => q.2.any fun e => e.2.2
          finishColl k (a.outs ++ if bad then [stDataPoisoned] else []) a.s) s
      else s
  | _, _ => s

def modColl (h : Nat) (f : Coll → Coll) (s : State) : State :=
  modDpt (fun d => { d with colls := d.colls.map fun k => if k.handle == h then f k else k }) s

/-- Elements of a contribution from `start`. -/
def addPart (rank start : Nat) (l : List PV) (k : Coll) : Coll :=
  { k with parts := tabPut rank (l.zipIdx.foldl (fun t e => tabPut (start + e.2) e.1 t) (tabGetD [] rank k.parts)) k.parts }

/-- Every member agrees: contributions go out, this module's own is kept. In a packet of TYPE 0x04 the model
puts the group in DESC, the call in QUEUE (log entry 25). -/
def startColl (h : Nat) (s : State) : State :=
  match s.dpt.colls.find? (fun k => k.handle == h), getCmd? s h with
  | some k, some c =>
    match tabGet? k.group s.dpt.groups with
    | none => s
    | some g =>
      let p := g.members.length
      let src := cmdDesc s c (lo32 (pk c.pkt 0))
      let rd := rdEls src (dCount src) 0 (Acc.start 1 s)
      let me := rankIn g s.dpt.moduleNumber
      let s1 := modColl h (addPart me 0 (partFor c p me rd.1)) rd.2.s
      let s2 := forEach (fun m u =>
        if m = s.dpt.moduleNumber then u
        else
          let l := partFor c p (rankIn g m) rd.1
          let hd : DptHdr := { baseHdr s m with queue := k.call, desc := k.group, tenant := k.tenant }
          queueItems m ((cutPackets (fmtBits src.fmt) 4096 (l.length + 1) 0 l).map fun e =>
            ⟨h, false, 4, { hd with offset := e.1, poison := e.2.2, poisonValid := decide (0 < e.2.2) }, e.2.1⟩) u) (ranks g) s1
      settleColl h s2
  | _, _ => s

/-- A member's parameters of a collective (13 R320): equal, it is matched; different, the collective ends with
nothing written. -/
def matchHello (h m kind red fmt count : Nat) (s : State) : State :=
  match s.dpt.colls.find? (fun k => k.handle == h), getCmd? s h with
  | some k, some c =>
    match tabGet? k.group s.dpt.groups with
    | none => s
    | some g =>
      let src := cmdDesc s c (lo32 (pk c.pkt 0))
      if kind = collKind c ∧ red = collRed c ∧ fmt = src.fmt ∧ count = dCount src then
        let s1 := modColl h (fun x => { x with hellos := setIns m x.hellos }) s
        if (setIns m k.hellos).length = g.members.length ∧ k.hellos.contains m = false then startColl h s1 else s1
      else finishColl k [stWindow] s
  | _, _ => s

/-- COLLECTIVE: an incomplete group ends it at once; otherwise it matches the members' calls in order
(13 R320, R324). -/
def execCollective (h : Nat) (s : State) : Res :=
  runCmd h 0x0605 (fun c s =>
    let gn := bitsOf (pk c.pkt 1) 31 16
    if s.dpt.colls.any fun k => k.handle == h then schedule (settleColl h s)
    else
      match tabGet? gn s.dpt.groups with
      | none => finishCmd h [stPeerUnreachable] 0 s
      | some g =>
        if g.joined.length < g.members.length ∨ g.formed = false then finishCmd h [stPeerUnreachable] 0 s
        else if s.cmds.any fun x => x.pkt.opcode == 0x0605 && x.tenant == c.tenant && decide (x.order < c.order) && x.stage != .done &&
            bitsOf (pk x.pkt 1) 31 16 == gn && !s.dpt.colls.any fun k => k.handle == x.handle then s
        else
          let n := tabGetD 0 c.tenant g.calls
          let src := cmdDesc s c (lo32 (pk c.pkt 0))
          let s1 := modDpt (fun d => { d with groups := tabPut gn { g with calls := tabPut c.tenant (n + 1) g.calls } d.groups,
                                              colls := d.colls ++ [⟨h, gn, c.tenant, n, [s.dpt.moduleNumber], []⟩] }) s
          let s2 := forEach (fun m u => whenS (m != s.dpt.moduleNumber) (sendCtl m (.collHello gn c.tenant n (collKind c) (collRed c) src.fmt (dCount src))) u) (ranks g) s1
          let mine (e : Nat × DptCtl) : Bool := match e.2 with
            | .collHello a b k _ _ _ _ => a == gn && b == c.tenant && k == n
            | _ => false
          let early := s2.dpt.earlyHellos.filter mine
          forEach (fun (e : Nat × DptCtl) u => match e.2 with
            | .collHello _ _ _ kind red fmt count => matchHello h e.1 kind red fmt count u
            | _ => u) early (modDpt (fun d => { d with earlyHellos := d.earlyHellos.filter fun e => !mine e }) s2)) s

/-- A hello for a collective of this module, now or later. -/
def recvHello (m : Nat) (c : DptCtl) (s : State) : State :=
  match c with
  | .collHello g t k kind red fmt count =>
    match s.dpt.colls.find? fun x => x.group == g && x.tenant == t && x.call == k with
    | some x => matchHello x.handle m kind red fmt count s
    | none => if (tabGet? g s.dpt.groups).isSome then modDpt (fun d => { d with earlyHellos := d.earlyHellos ++ [(m, c)] }) s else s
  | _ => s

/-- The part of a contribution that the packet carries has arrived before: it is a duplicate. -/
def collHas (s : State) (k : Coll) (hd : DptHdr) : Bool :=
  match getCmd? s k.handle, tabGet? k.group s.dpt.groups with
  | some c, some g =>
    (tabGet? (hd.offset * 8 / fmtBits (cmdDesc s c (lo32 (pk c.pkt 0))).fmt) (tabGetD [] (rankIn g hd.src) k.parts)).isSome
  | _, _ => false

/-- DPT_COLLECTIVE_DATA_RECEIVED (13 R310, R321): a credit unit goes back for each packet that is no duplicate. -/
def execDptCollectiveDataReceived (hd : DptHdr) (payload : List Byte) (s : State) : Res :=
  let r := heardFrom hd.src hd.incarnation s
  .next (if r.1 && hd.dst == s.dpt.moduleNumber then
    let s0 := recvPsn hd.src hd.path hd.psn r.2
    if !forUs s0 hd payload then s0 else
    let owe (u : State) : State := modPeer hd.src (fun p => { p with owed := p.owed + 1 }) u
    match s0.dpt.colls.find? fun k => k.group == hd.desc && k.tenant == hd.tenant && k.call == hd.queue with
    | none => if hd.retx then s0 else owe s0
    | some k =>
      let s1 := if collHas s0 k hd then s0 else owe s0
      match getCmd? s1 k.handle, tabGet? k.group s1.dpt.groups with
      | some c, some g =>
        let src := cmdDesc s1 c (lo32 (pk c.pkt 0))
        let bits := fmtBits src.fmt
        let start := hd.offset * 8 / bits
        let vs := (unpackVals bits payload.length payload).take (partLen c g.members.length (dCount src) - start)
        schedule (settleColl k.handle (modColl k.handle (addPart (rankIn g hd.src) start
          (vs.zipIdx.map fun e => (e.1, hd.poisonValid && hd.poison.testBit (e.2 * bits / 512)))) s1))
      | _, _ => s1
  else r.2)

/-! ### Control messages -/

/-- The transfer that a control message of a queue speaks of. -/
def remoteOn (s : State) (m q : Nat) : Option Remote := s.dpt.remotes.find? fun r => r.peer == m && r.queue == q

/-- A control packet arrives (13 R315, R318, R320, R322). -/
def controlReceived (hd : DptHdr) (m : DptCtl) (s : State) : Res :=
  let src := hd.src
  match m with
  | .advert a => .next (if hd.dst = s.dpt.moduleNumber then schedule (recvAdvert src { a with incarnation := hd.incarnation } s) else s)
  | m =>
    let r := heardFrom src hd.incarnation s
    .next (if r.1 && hd.dst == s.dpt.moduleNumber then
      let u := recvPsn src hd.path hd.psn r.2
      schedule (match m with
      | .leave g => prunePeers (whenS (((tabGet? g u.dpt.groups).map fun x => x.joined.contains src).getD false)
          (fun v => dropMember g src (modDpt (fun d => { d with peersLost := d.peersLost + 1 }) v)) u)
      | .openReq q t d f n => sendCtl src (.openReply q (openOk u t d f n)) (if openOk u t d f n then noteInbound src q t d u else u)
      | .openReply q ok =>
        match remoteOn u src q with
        | some x => if x.asked ∧ x.opened = false then (if ok then sendCopy x u else kick (finishRemote x [stWindow] u)) else u
        | none => u
      | .windowRefused q =>
        match remoteOn u src q with
        | some x => if x.opened then kick (finishRemote x [stWindow] u) else u
        | none => u
      | .collHello _ _ _ _ _ _ _ => recvHello src m u
      | _ => u)
    else r.2)

/-- DPT_CONTROL_RECEIVED. -/
def execDptControlReceived (src incarnation : Nat) (p : DptShort × DptCtl) (s : State) : Res :=
  controlReceived (p.1.full src incarnation) p.2 s

end Sys2Proof.Machine
end

