-- ==== Sys2Proof/Machine/Frames.lean ====
section
/-! DEFINITION. Ethernet ports: PORT_CONFIG (13 R302 to R305), logical ports up and down (R309), frames (R303,
R306), the 1588 rings (R326, R327). -/

namespace Sys2Proof.Machine

/-- Logical ports of a mode (13 R302). -/
def modePorts (mode : Nat) : Nat := 2 ^ min mode 2

/-- One entry keeps the ranges of 13 R305. -/
def entryOk (b : List Byte) : Bool :=
  !bitOf (fieldB b 0 1) 0 && [4, 6].contains (fieldB b 8 1) && decide (fieldB b 9 1 < 64) &&
  decide (1500 ≤ fieldB b 0x0A 2 ∧ fieldB b 0x0A 2 ≤ 9000) && decide (fieldB b 0x0F 1 < 4) &&
  (entryV6 b || allZero (sliceB b 0x14 12)) && allZero (sliceB b 0x21 7) && allZero (sliceB b 0x38 8)

/-- The address of an entry: MAC, VLAN, family, IP address, prefix length and gateway (13 R305; log entry 24). -/
def entryAddr (b : List Byte) : List Byte := sliceB b 0 9 ++ sliceB b 0x10 0x10 ++ sliceB b 0x20 1 ++ sliceB b 0x28 0x10

/-- A MARGIN of a lane whose logical port goes down stops, and nothing is written (16 R392). `down`: the logical ports. -/
def stopMargins (port : Nat) (down : Nat → Bool) (s : State) : State :=
  let lanes := modePorts (getPort s port).mode
  let hit (c : Cmd) : Bool :=
    let w := pk c.pkt 0
    c.pkt.opcode == 0x0702 && c.stage == .running && bitsOf w 3 0 == 3 && bitsOf w 15 8 == port && down (bitsOf w 23 16 * lanes / 8)
  forEach (fun h => finishCmd h [stDeviceFault] 0) ((s.cmds.filter hit).map (·.handle)) s

/-- PORT_CONFIG (13 R304, R305): a changed mode or address takes the logical ports down; ETH_LINK_UP follows. -/
def execPortConfig (h : Nat) (s : State) : Res :=
  runCmd h 0x0601 (fun c s =>
    let p := bitsOf (pk c.pkt 0) 4 0
    let mode := bitsOf (pk c.pkt 0) 9 8
    let b := hostRead s (pk c.pkt 1) 256
    let s := hostFetch c.tenant (pk c.pkt 1) 256 s
    let n := modePorts mode
    if !ethUsable s p then finishCmd h [stDeviceFault] 0 s
    else if !(List.range n).all fun i => entryOk (sliceB b (64 * i) 64) then finishCmd h [stWindow] 0 s
    else
      let x := getPort s p
      let same := x.configured && x.mode == mode && (List.range n).all fun i => entryAddr (sliceB x.record (64 * i) 64) == entryAddr (sliceB b (64 * i) 64)
      finishCmd h [] 0 (modPort p (fun y =>
        { y with configured := true, mode := mode, record := b.take (64 * n) ++ rep (256 - 64 * n) 0, linkUp := if same then y.linkUp else 0,
                 takenDown := if same then y.takenDown else y.takenDown ||| y.linkUp })
        (if same then s else stopMargins p (fun l => hasBit x.linkUp l) s))) s

/-- Packets wait for no port any more: every peer's queue goes on. -/
def pumpAll (s : State) : State := forEach pump (s.dpt.peers.map (·.1)) s

/-- ETH_LINK_UP: the port's paths are reopened (13 R309). -/
def execEthLinkUp (port logical : Nat) (s : State) : Res :=
  onUnit (portOk port && logicalOk logical)
    (let x := getPort s port
     if x.configured && ethUsable s port && decide (logical < modePorts x.mode) && !hasBit x.linkUp logical then
       let s1 := modPort port (fun y => { y with linkUp := putBit y.linkUp logical true, takenDown := putBit y.takenDown logical false }) s
       pumpAll (modDpt (fun d => { d with peers := tabMap (fun m p =>
         { p with paths := tabMap (fun k y => if portOfPath s1 m k = some (port, logical) then { y with up := true, timeouts := 0 } else y) p.paths }) d.peers }) s1)
     else s)

/-- ETH_LINK_DOWN: its paths move to the other ports (13 R309). -/
def execEthLinkDown (port logical : Nat) (s : State) : Res :=
  onUnit (portOk port && logicalOk logical)
    (pumpAll (modPort port (fun y => { y with linkUp := putBit y.linkUp logical false })
      (stopMargins port (fun l => l == logical && hasBit (getPort s port).linkUp l) s)))

/-! ### The 1588 rings (13 R327, R329; 12 R289) -/

def ringLog2 (ctrl : W32) : Nat := bitsOf ctrl.toNat 3 0
/-- A ring is in use: enabled, 16 to 1,024 entries, within tenant 0's HOST ranges. -/
def ringOn (s : State) (base : W64) (ctrl : W32) : Bool :=
  hasBit ctrl 31 && decide (4 ≤ ringLog2 ctrl ∧ ringLog2 ctrl ≤ 10) && hostOk s 0 (base.toNat / 4096 * 4096) (2048 * 2 ^ ringLog2 ctrl)

def ringEntry (base : W64) (i : Nat) : Nat := base.toNat / 4096 * 4096 + 2048 * i

/-- Bytes 0x00 to 0x0F of a ring entry. -/
def stampBytes (s : State) (fraction port logical len status : Nat) : List Byte :=
  toLE 8 (now s) ++ toLE 2 fraction ++ toLE 1 port ++ toLE 1 logical ++ toLE 2 len ++ toLE 2 status

/-- A received 1588 frame goes into the receive ring; a full ring drops it. -/
def ringReceive (port logical fraction : Nat) (bytes : List Byte) (s : State) : State :=
  let d := s.dpt
  let n := 2 ^ ringLog2 d.ptpRxCtrl
  if ringOn s d.ptpRxBase d.ptpRxCtrl && (d.ptpRxTail + 1) % n != d.ptpRxHead % n then
    setCause 0 3 (modDpt (fun x => { x with ptpRxTail := (d.ptpRxTail + 1) % n })
      (hostWrite 0 (ringEntry d.ptpRxBase d.ptpRxTail) (stampBytes s fraction port logical (min bytes.length 2032) 2 ++ bytes.take 2032) s))
  else s

/-- The longest frame of a MAC, VLAN tag included (13 R303). -/
def macMax : Nat := 9216

/-- FRAME_RECEIVED (13 R303, R306, R326): counted, then answered, delivered, stamped or dropped. `what`: 0 ARP,
1 neighbour discovery, 2 ICMP echo. -/
def execFrameReceived (port logical length fraction fecCorr fecUncorr : Nat) (k : FrameKind) (s : State) : Res :=
  onUnit (portOk port && logicalOk logical)
    (if hasBit (getPort s port).linkUp logical ∧ macMax < length then modPort port (fun y => { y with dropped := y.dropped + 1 }) s
    else if hasBit (getPort s port).linkUp logical then
      let s1 := modPort port (fun y => { y with rxBytes := y.rxBytes + BitVec.ofNat 64 length, fecCorr := y.fecCorr + BitVec.ofNat 64 fecCorr,
                                                fecUncorr := y.fecUncorr + BitVec.ofNat 64 fecUncorr }) s
      let b := portEntry s (port, logical)
      let flags := fieldB b 0x0F 1
      let udp := if fieldB b 0x0C 2 = 0 then 46532 else fieldB b 0x0C 2
      let dropped := modPort port (fun y => { y with dropped := y.dropped + 1 }) s1
      match k with
      | .arp forUs => if forUs then emit (.answered port logical 0) s1 else dropped
      | .nd forUs => if forUs then emit (.answered port logical 1) s1 else dropped
      | .icmpEcho => if bitOf flags 1 then emit (.answered port logical 2) s1 else dropped
      | .ptp bytes => if bitOf flags 0 then ringReceive port logical fraction bytes s1 else dropped
      | .udp p => if p = udp then s1 else dropped
      | .pfc pr => if bitOf (fieldB b 0x0E 1) pr then modPort port (fun y => { y with pfcRx := y.pfcRx + 1 }) s1 else s1
      | .other => dropped
    else s)

/-- One transmit entry: sent as it stands, its timestamp and DONE written back (13 R327, R330). A frame for a
port that is down is not sent and takes no timestamp (log entry 24). -/
def ringSend (fraction i : Nat) (s : State) : State :=
  let a := ringEntry s.dpt.ptpTxBase i
  let b := hostRead s a 2048
  let s0 := hostFetch 0 a 2048 s
  let port := fieldB b 0x0A 1 % 32
  let logical := fieldB b 0x0B 1 % 4
  let len := min (fieldB b 0x0C 2) 2032
  let up := portOk port && hasBit (getPort s port).linkUp logical
  let stamped := up && bitOf (fieldB (portEntry s (port, logical)) 0x0F 1) 0
  let s1 := if up then emit (.frame port logical (sliceB b 0x10 len)) (modPort port (fun y => { y with txBytes := y.txBytes + BitVec.ofNat 64 (len + 4) }) s0) else s0
  hostWrite 0 a (if stamped then toLE 8 (now s) ++ toLE 2 fraction else b.take 10) (hostWrite 0 (a + 0x0E) (toLE 2 (1 + 2 * b2n stamped)) s1)

def sendRing (fraction tail : Nat) : Nat → State → State
  | 0, s => s
  | n + 1, s =>
    let h := s.dpt.ptpTxHead
    if h = tail then s
    else
      sendRing fraction tail n
        (modDpt (fun d => { d with ptpTxHead := (h + 1) % 2 ^ ringLog2 d.ptpTxCtrl }) (ringSend fraction h s))

/-- HG_PTP_TX_TAIL_WRITE: the physical function alone (13 R329); a ring that is not in use sends nothing. -/
def execHgPtpTxTailWrite (fn tail fraction : Nat) (s : State) : Res :=
  onUnit (fnOk fn)
    (if fn = 0 then
      let t := tail % 1024
      let s1 := modDpt (fun d => { d with ptpTxTail := t }) s
      let n := 2 ^ ringLog2 s.dpt.ptpTxCtrl
      if ringOn s s.dpt.ptpTxBase s.dpt.ptpTxCtrl && decide (t < n) && decide (s.dpt.ptpTxHead < n) then sendRing fraction t n s1 else s1
    else s)

/-- HG_PTP_RX_HEAD_WRITE (13 R329). -/
def execHgPtpRxHeadWrite (fn head : Nat) (s : State) : Res :=
  onUnit (fnOk fn) (if fn = 0 then modDpt (fun d => { d with ptpRxHead := head % 1024 }) s else s)

end Sys2Proof.Machine
end

