-- ==== Sys2Proof/Machine/Tenants.lean ====
section
/-! DEFINITION. Commands of class 0x01xx (08 R192): tenants (12 R281 to R287), submission queues (08 R193),
group deadlines (08 R189), cancellation (08 R191), pause and resume (12 R296). -/

namespace Sys2Proof.Machine

/-! ### The profile (12 R283) -/

def parseProfile (b : List Byte) : Profile :=
  { descLimit := fieldB b 4 4, ctrBase := fieldB b 8 2, ctrCount := fieldB b 0x0A 2, adBase := fieldB b 0x0C 2, adCount := fieldB b 0x0E 2,
    slack := fieldB b 0x10 8, stackQuota := fieldB b 0x18 8, farQuota := fieldB b 0x20 8, runScratch := fieldB b 0x28 4,
    runBasin := fieldB b 0x2C 4, resScratch := fieldB b 0x30 4, resBasin := fieldB b 0x34 4, resSdata := fieldB b 0x38 4,
    hosts := (List.range 4).map fun i => (fieldB b (0x40 + 16 * i) 8, fieldB b (0x48 + 16 * i) 8) }

/-- Every field within the range of 12 R283, reserved bytes zero. -/
def profileOk (b : List Byte) : Bool :=
  let p := parseProfile b
  fieldB b 0 4 == 1 && decide (1 ≤ p.descLimit ∧ p.descLimit ≤ 65535) && p.ctrBase % 64 == 0 &&
  decide (64 ≤ p.ctrCount ∧ p.ctrCount ≤ 16384) && p.ctrCount % 64 == 0 && decide (p.ctrBase + p.ctrCount ≤ 65536) &&
  decide (p.adBase ≤ 16383 ∧ p.adCount ≤ 16384 ∧ p.adBase + p.adCount ≤ 16384) &&
  p.stackQuota % 65536 == 0 && p.farQuota % 65536 == 0 &&
  p.runScratch % 65536 == 0 && decide (p.runScratch ≤ 2 ^ 25) && p.runBasin % 65536 == 0 && decide (p.runBasin ≤ 2 ^ 27) &&
  p.resScratch % 65536 == 0 && p.resBasin % 65536 == 0 && p.resSdata % 4096 == 0 && decide (p.resSdata ≤ 65536) &&
  fieldB b 0x3C 4 == 0 && p.hosts.all fun r => r.1 % 4096 == 0 && r.2 % 4096 == 0 && decide (r.1 + r.2 ≤ 2 ^ 48)

def overlaps (a n b m : Nat) : Bool := decide (0 < n ∧ 0 < m ∧ a < b + m ∧ b < a + n)

def maxOf (l : List Nat) : Nat := l.foldl max 0

/-- Counter and adapter ranges clear of every live tenant's (12 R285). -/
def rangesClear (s : State) (p : Profile) : Bool :=
  s.tenants.all fun e => !overlaps p.ctrBase p.ctrCount e.2.profile.ctrBase e.2.profile.ctrCount &&
    !overlaps p.adBase p.adCount e.2.profile.adBase e.2.profile.adCount

/-- The sums of 12 R284 over the live tenants and the new one. -/
def sumsOk (s : State) (p : Profile) : Bool :=
  let ps := p :: s.tenants.map fun e => e.2.profile
  decide ((ps.map (·.resScratch)).sum + maxOf (ps.map (·.runScratch)) ≤ 2 ^ 25) &&
  decide ((ps.map (·.resBasin)).sum + maxOf (ps.map (·.runBasin)) ≤ 2 ^ 27) &&
  decide ((ps.map (·.resSdata)).sum ≤ 65536)

/-- Counters of a new range read zero (09 R203). -/
def zeroCounters (base n : Nat) (s : State) : State :=
  let inside (k : Nat) : Bool := decide (base ≤ k ∧ k < base + n)
  { s with ctrs := { s.ctrs with vals := s.ctrs.vals.filter fun e => !inside e.1, broken := s.ctrs.broken.filter fun k => !inside k } }

/-- A function's rings are held against its tenant's HOST ranges once the tenant exists (08 R177). -/
def checkRings (f : Nat) (s : State) : State :=
  modFn f (fun x => { x with cqBad := x.cqBad || (cqEnabled x && !cqConfigOk s f x), sq0Bad := x.sq0Bad || (sq0Enabled x && !sq0ConfigOk s f x) }) s

/-- A tenant with its context area comes into being (12 R281, R287; 09 R203). -/
def addTenant (t : Nat) (p : Profile) (base : Nat) (s : State) : State :=
  checkRings t (zeroCounters p.ctrBase p.ctrCount { s with tenants := tabPut t ⟨p, false, false, [], [], 0, base⟩ s.tenants })

/-- TENANT_CREATE (12 R285); the tenant exists from its completion (12 R281). -/
def execTenantCreate (h : Nat) (s : State) : Res :=
  runCmd h 0x0101 (fun c s =>
    let t := pk c.pkt 1
    let b := hostRead s (pk c.pkt 0) 128
    let s := hostFetch c.tenant (pk c.pkt 0) 128 s
    let p := parseProfile b
    if (getTen? s t).isSome ∨ s.cmds.any (fun x => x.pkt.opcode == 0x0102 && pk x.pkt 1 == t) then finishCmd h [stBadDescriptor] 0 s
    else if !profileOk b then finishCmd h [stBadDescriptor] 0 s
    else if !rangesClear s p || !sumsOk s p || decide (p.stackQuota < contextLen p) then finishCmd h [stWindow] 0 s
    else
      match placeContext s (contextLen p) with
      | none => finishCmd h [stWindow] 0 s
      | some (base, s1) => finishCmd h [] 0 (addTenant t p base s1)) s

/-! ### Destruction (08 R192, R177; 09 R216; 12 R287) -/

/-- A tenant's live commands, in admission order. -/
def liveOf (s : State) (t : Nat) : List Nat := handlesOf (s.cmds.filter fun c => c.tenant == t)

/-- Everything a tenant holds is freed. -/
def freeTenant (t : Nat) (s : State) : State :=
  let s1 := { s with tenants := tabDel t s.tenants, bundles := s.bundles.filter fun e => e.2.tenant != t,
                     runs := s.runs.filter fun e => e.2.tenant != t, adapters := s.adapters.filter fun e => e.2.tenant != t }
  modFn t (fun f => { f with queues := [], sq0 := { f.sq0 with head := f.sq0.tail } }) (freeAllocs (fun _ a => a.tenant == t) s1)

/-- TENANT_DESTROY: cancels every live command of the tenant, once, and waits for them; VALUE counts them. The row may
occur again. What the tenant holds is freed with the completion (08 R177; 12 R281). -/
def execTenantDestroy (h : Nat) (s : State) : Res :=
  runCmd h 0x0102 (fun c s =>
    let t := pk c.pkt 1
    let l := liveOf s t
    if !l.isEmpty then schedule (modCmd h (fun x => { x with value := l.length, targets := l }) (forEach cancelCmd l s))
    else if s.fops.any (fun o => o.2.tenant == t) then s
    else finishCmd h [] c.value s) s

/-! ### Queues -/

/-- SQ_CREATE (08 R192): the queue exists from the completion on (08 R193). -/
def execSqCreate (h : Nat) (s : State) : Res := runCmd h 0x0103 (fun _ s => finishCmd h [] 0 s) s

/-- SQ_DESTROY: the entries left are discarded, VALUE counts them; the queue exists until the completion (08 R193). -/
def execSqDestroy (h : Nat) (s : State) : Res :=
  runCmd h 0x0104 (fun c s =>
    let q := pk c.pkt 1
    let n := match tabGet? q (getFn s c.tenant).queues with
      | some x => (x.tail + 2 ^ x.log2 - x.head) % 2 ^ x.log2
      | none => 0
    finishCmd h [] n (modQueue c.tenant q (fun x => { x with head := x.tail }) s)) s

/-! ### Deadlines and cancellation -/

/-- GROUP_DEADLINE took effect at its admission (08 R189). -/
def execGroupDeadline (h : Nat) (s : State) : Res := runCmd h 0x0105 (fun _ s => finishCmd h [] 0 s) s

/-- CMD_CANCEL (08 R187, R191): every live command of the tag admitted before it, whether or not it has executed or an
earlier cancel has reached it. -/
def execCmdCancel (h : Nat) (s : State) : Res :=
  runCmd h 0x0106 (fun c s =>
    let l := handlesOf (s.cmds.filter fun x => x.tenant == c.tenant && x.pkt.tag == pk c.pkt 0 && decide (x.order < c.order) && cancellable x)
    schedule (finishCmd h [] l.length (modCmd h (fun x => { x with targets := l }) (forEach cancelCmd l s)))) s

/-! ### Pause and resume (12 R296) -/

/-- A tenant's runs that hold tiles. -/
def activeRuns (s : State) (t : Nat) : List Nat :=
  (s.runs.filter fun e => e.2.tenant == t && (e.2.state == .running || e.2.state == .pausing)).map (·.1)

/-- TENANT_PAUSE completes when the tenant's last tile is free, at once when nothing runs. -/
def execTenantPause (h : Nat) (s : State) : Res :=
  runCmd h 0x0107 (fun c s =>
    let t := pk c.pkt 1
    let l := activeRuns s t
    let s1 := modTen t (fun x => { x with held := true }) s
    if l.isEmpty then finishCmd h [] c.admitTime s1
    else schedule (pauseDone t (forEach pauseRun l (modCmd h (fun x => { x with targets := l }) s1)))) s

/-- A paused run that could go on at once: some logical tile waits on nothing, or its wait would be released
(17 R402). -/
def runReady (s : State) (x : Run) : Bool :=
  !x.cancelled && !(getTen s x.tenant).held &&
  (x.state == .waiting || (x.state == .paused && x.frames.any fun f => match f.2.headWait with
    | none => true
    | some w => waitMet s w))

/-- TENANT_RESUME (12 R296; 17 R400). -/
def execTenantResume (h : Nat) (s : State) : Res :=
  runCmd h 0x0108 (fun c s =>
    let t := pk c.pkt 1
    let was := (getTen s t).held
    let s1 := finishCmd h [] 0 (modTen t (fun x => { x with held := false }) s)
    let s2 := whenS (was && s1.runs.any fun e => e.2.tenant == t && e.2.state == .paused && runReady s1 e.2) (wakeSource 7 true) s1
    schedule s2) s

end Sys2Proof.Machine
end

