-- ==== Sys2Proof/Machine/Diag.lean ====
section
/-! DEFINITION. The rest of class 0x07xx: MARGIN (16 R387 to R390), POWER_STATE and the entries into Idle and
Hold (17 R394 to R402), FAULT_HISTORY (15 R373), FLIP_MASK (10 R239), ATTEST (18 R430, R431), NOP. -/

namespace Sys2Proof.Machine

/-- NOP (08 R197): VALUE is DEV_TIME at execution. -/
def execNop (h : Nat) (s : State) : Res := runCmd h 0x0709 (fun _ s => finishCmd h [] (now s) s) s

/-- FLIP_MASK (10 R239): the mask is loaded and armed; a mask of zeros disarms. -/
def execFlipMask (h : Nat) (s : State) : Res :=
  runCmd h 0x0707 (fun c s =>
    let k := bitsOf (pk c.pkt 0) 2 0
    let m := leNat (hostRead s (pk c.pkt 1) 72)
    let s := hostFetch c.tenant (pk c.pkt 1) 72 s
    if stackUsable s k then
      finishCmd h [] 0 (modStk k (fun x => { x with flipMask := BitVec.ofNat 576 m, flipArmed := m != 0, flipFired := false }) s)
    else finishCmd h [stDeviceFault] 0 s) s

/-! ### FAULT_HISTORY (15 R373) -/

/-- All records, oldest first: those in flash, then those that wait in SRAM (15 R371). -/
def allRecords (s : State) : List FaultRec := s.hist.flash ++ s.hist.pendingFlash

/-- One 16-byte summary. -/
def sumBytes (s : State) (x : UnitSum) : List Byte :=
  toLE 1 x.cls ++ toLE 1 x.state ++ toLE 2 x.unit ++ toLE 2 (recentEvents s x) ++ toLE 2 0 ++ toLE 8 (x.events.getLast?.getD 0)

/-- Header, summaries and records, newest first (15 R373). -/
def historyBytes (s : State) : List Byte :=
  let sums := s.hist.sums.flatMap (sumBytes s)
  toLE 2 1 ++ toLE 2 s.hist.sums.length ++ toLE 4 (allRecords s).length ++ toLE 8 s.henua.operating.toNat ++ toLE 4 s.hist.resets ++ rep 44 0 ++
  sums ++ rep (roundUp sums.length 64 - sums.length) 0 ++ (allRecords s).reverse.flatMap recBytes

/-- FAULT_HISTORY: VALUE is the number of bytes written. -/
def execFaultHistory (h : Nat) (s : State) : Res :=
  runCmd h 0x0704 (fun c s =>
    let b := (historyBytes s).take (pk c.pkt 1)
    finishCmd h [] b.length (hostWrite c.tenant (pk c.pkt 0) b s)) s

/-! ### ATTEST (18 R430, R431) -/

/-- The bundles a report lists: their BUNDLE_LOAD has completed; ascending handles. -/
def attestBundles (s : State) (tenant : Nat) : List (Nat × Bundle) :=
  s.bundles.filter fun e => e.2.tenant == tenant && (getCmd? s e.1).isNone

def slotBits (s : State) (f : KeySlot → Bool) : Nat := ((s.fuses.keys.filter fun e => decide (e.1 < 6) && f e.2).map fun e => 2 ^ e.1).sum

/-- The signed part of a report (18 R430). `flag`: 1 when issued through the Henua controller. -/
def reportBody (s : State) (flag tenant : Nat) (nonce : List Byte) : List Byte :=
  let all := attestBundles s tenant
  let bs := all.drop (all.length - 256)
  let im := s.henua.image.getD ⟨0, 0, 0, 0, 0, [], []⟩
  toLE 2 1 ++ toLE 2 (b2n (decide (256 < all.length)) + 2 * flag) ++ toLE 1 tenant ++ toLE 1 0 ++ toLE 2 bs.length ++ toLE 8 (now s) ++
  sliceB nonce 0 32 ++ toLE 8 s.dpt.incarnation.toNat ++ toLE 8 Config.serial.toNat ++ sliceB im.digest 0 32 ++ sha3 (sliceB im.header 0 2048) ++
  toLE 2 im.major ++ toLE 2 im.minor ++ toLE 2 im.abi ++ toLE 1 im.svn ++ toLE 1 im.keySlot ++ toLE 1 s.fuses.rollback ++
  toLE 1 (slotBits s (·.programmed)) ++ toLE 1 (slotBits s (·.revoked)) ++ toLE 1 (gradeCode s) ++ toLE 4 Config.romVersion.toNat ++ rep 368 0 ++
  bs.flatMap fun e => sliceB e.2.digest 0 32 ++ toLE 8 e.1 ++ toLE 2 e.2.abi ++ rep 6 0

/-- The whole report: the body, the identity key's signature over it, 19 zero bytes. -/
def report (s : State) (flag tenant : Nat) (nonce : List Byte) : List Byte :=
  let b := reportBody s flag tenant nonce
  b ++ (List.range 3309).map (Config.identitySign b) ++ rep 19 0

/-- ATTEST: VALUE is the report's length. -/
def execAttest (h : Nat) (s : State) : Res :=
  runCmd h 0x0708 (fun c s =>
    let r := report s 0 c.tenant (hostRead s (pk c.pkt 0) 32)
    finishCmd h [] r.length (hostWrite c.tenant (pk c.pkt 1) r (hostFetch c.tenant (pk c.pkt 0) 32 s))) s

/-! ### MARGIN (16 R387 to R390) -/

/-- The pass criterion of 10 R241. -/
def marginOk (m : LaneMargin) : Bool := decide (12 ≤ m.left ∧ 12 ≤ m.right ∧ 30 ≤ m.low ∧ 30 ≤ m.high)

/-- One entry of the result buffer (16 R390). -/
def entryBytes (lane st use : Nat) (m : LaneMargin) (replaces : Nat) : List Byte :=
  toLE 2 lane ++ toLE 1 st ++ toLE 1 use ++ toLE 1 m.left ++ toLE 1 m.right ++ toLE 2 m.low ++ toLE 2 m.high ++ toLE 2 replaces ++ toLE 4 0

/-- A lane that is not measured (STATE 4): its margins are not stated (FREE VALUES, log entry 6). -/
def unmeasured (lane use replaces : Nat) (s : State) : List Byte × State :=
  let r := freshVal 6 s
  (entryBytes lane 4 use ⟨bitsOf r.1 7 0, bitsOf r.1 15 8, bitsOf r.1 31 16, bitsOf r.1 47 32⟩ replaces, r.2)

/-- The idle spares of a stack group. -/
def idleSpares (x : Stack) (group : Nat) : List Nat :=
  [34 * group + 32, 34 * group + 33].filter fun l => !x.spares.any fun e => e.2 == l

/-- Data lanes of a group that the sweep measures: not replaced already. -/
def sweptLanes (x : Stack) (group : Nat) : List Nat :=
  ((List.range 32).map fun i => 34 * group + i).filter fun l => !x.spares.any fun e => e.1 == l

/-- The entries of a stack group, in lane order: `ms` by index, `swept` whether an idle spare made the sweep
possible, `x` the assignment after it. -/
def groupEntries (x : Stack) (group : Nat) (ms : List LaneMargin) (swept : List Nat) : List Nat → State → List Byte × State
  | [], s => ([], s)
  | i :: t, s =>
    let l := 34 * group + i
    let m := ms.getD i ⟨0, 0, 0, 0⟩
    let carries := (x.spares.find? fun e => e.2 == l).map (·.1)
    let use := if i < 32 then (if x.spares.any fun e => e.1 == l then 3 else 0) else if carries.isSome then 2 else 1
    let rp := carries.getD 0xFFFF
    let e := if swept.contains l then (entryBytes l (b2n !marginOk m) use m rp, s) else unmeasured l use rp s
    let r := groupEntries x group ms swept t e.2
    (e.1 ++ r.1, r.2)

/-- A stack group (16 R388, R389): swept only with an idle spare; each failing data lane takes one. -/
def marginGroup (k group : Nat) (ms : List LaneMargin) (s : State) : List Byte × State :=
  let x := getStk s k
  let idle := idleSpares x group
  let data := if idle.isEmpty then [] else sweptLanes x group
  let bad := data.filter fun l => !marginOk (ms.getD (l - 34 * group) ⟨0, 0, 0, 0⟩)
  let s1 := modStk k (fun y => { y with spares := y.spares ++ bad.zip idle }) s
  groupEntries (getStk s1 k) group ms (if idle.isEmpty then [] else data ++ [34 * group + 32, 34 * group + 33]) (List.range 34) s1

/-- The lane of a PCIe or Ethernet link is there to be measured (16 R387). -/
def laneUp (s : State) (kind link lane : Nat) : Bool :=
  if kind = 2 then decide (lane < s.board.linkWidth)
  else
    let x := getPort s link
    x.configured && hasBit x.linkUp (lane * modePorts x.mode / 8)

/-- One PCIe or Ethernet lane: no criterion is applied. -/
def marginLane (kind link lane : Nat) (ms : List LaneMargin) (s : State) : List Byte × State :=
  if laneUp s kind link lane then (entryBytes lane 5 0 (ms.getD 0 ⟨0, 0, 0, 0⟩) 0xFFFF, s) else unmeasured lane 0 0xFFFF s

/-- The 64-byte header (16 R390). -/
def marginHeader (kind link lanes time : Nat) : List Byte :=
  toLE 2 1 ++ toLE 1 kind ++ toLE 1 link ++ toLE 2 lanes ++ toLE 2 (if kind = 1 then 4 else 2) ++
  toLE 2 (if kind = 1 then 5 else if kind = 2 then 4 else 2) ++ rep 6 0 ++ toLE 8 time ++ toLE 8 time ++ rep 32 0

/-- The link that a MARGIN names can be measured at all. -/
def marginLink (s : State) (kind link : Nat) : Bool :=
  if kind = 1 then stackUsable s link else if kind = 2 then s.cap.pcie else ethUsable s link

/-- A MARGIN waits for a retraining of its stack link and for an earlier MARGIN of the group (16 R392). -/
def marginWaits (s : State) (c : Cmd) : Bool :=
  let w := pk c.pkt 0
  bitsOf w 3 0 == 1 && ((getStk s (bitsOf w 15 8)).retraining ||
    s.cmds.any fun x => x.pkt.opcode == 0x0702 && pk x.pkt 0 == w && x.stage != .done && decide (x.order < c.order))

/-- MARGIN: `lanes` is what the sweep measured, by index within the group, or the one lane. -/
def execMargin (h : Nat) (lanes : List LaneMargin) (s : State) : Res :=
  runCmd h 0x0702 (fun c s =>
    let w := pk c.pkt 0
    let kind := bitsOf w 3 0
    let link := bitsOf w 15 8
    let lane := bitsOf w 23 16
    if !marginLink s kind link then finishCmd h [stDeviceFault] 0 s
    else if marginWaits s c then s
    else
      let r := if kind = 1 then marginGroup link lane lanes s else marginLane kind link lane lanes s
      let b := marginHeader kind link (if kind = 1 then 34 else 1) (now s) ++ r.1
      finishCmd h [] b.length (hostWrite c.tenant (pk c.pkt 1) b r.2)) s

/-! ### POWER_STATE (17 R394 to R402, R418) -/

def powerOf (n : Nat) : Power := if n = 0 then .run else if n = 1 then .trim else if n = 2 then .idle else .hold

/-- Some tenant holds a live allocation in spaces 3 to 5 (17 R399). -/
def holdBlocked (s : State) : Bool := s.allocs.any fun e => decide (3 ≤ e.2.space) && decide (e.2.space ≤ 5)

/-- What the entry into Idle waits for: no tile inside a step (17 R397), no test running (16 R392). -/
def idleReady (s : State) : Bool :=
  !((List.range 32).any fun t => (getTile s t).phase == .body) && s.test.running.isEmpty

/-- What step 4 of the entry into Hold waits for (17 R398): runs paused with their frames written, copies and
furrow operations over, no test running. -/
def holdReady (s : State) : Bool :=
  !(s.runs.any fun e => e.2.state == .running || e.2.state == .pausing) &&
  !((List.range 32).any fun t => (getTile s t).ctx.isSome) && s.fops.isEmpty && s.test.running.isEmpty &&
  !(s.cmds.any fun c => c.stage == .running && c.pkt.opcode != 0x0303 && decide (0 < wakeClass s c.tenant c.pkt))

/-- A run that could go on at once when Idle is entered (17 R402): a tile stands at a head that waits on
nothing. -/
def headReady (s : State) : Bool :=
  (List.range 32).any fun t =>
    match (getTile s t).ctx with
    | some c => (getTile s t).phase == .head && c.headWait.isNone && !((getRun? s c.run).map (·.cancelled)).getD true
    | none => false

/-- A wake source at the moment of entry (17 R402). -/
def holdWake (c : Bool) (s : State) : State := whenS c (modPm fun p => { p with heldWake := some (p.heldWake.getD 8) }) s

/-- Idle is entered. -/
def enterIdle (s : State) : State :=
  holdWake (headReady s) (modPm (fun p => { p with state := .idle, target := .idle, transition := false }) s)

/-- Every merge buffer is flushed, oldest entry first (10 R228; 17 R398 step 4). -/
def flushAll (s : State) : State :=
  forEach (fun k u => forEach (fun (e : MergeEntry) => flushBlk e.blk) (getStk u k).merge u) (List.range 8) s

/-- Hold is entered, from step 4 of R398 on. -/
def enterHold (s : State) : State :=
  let s1 := modPm (fun p => { p with state := .hold, target := .hold, transition := false, saved := true }) (flushAll s)
  holdWake (s1.runs.any fun e => runReady s1 e.2 &&
    (e.2.state == .paused || decide ((bundleOfRun s1 e.2).tiles ≤ freeFrames s1 e.2.tenant e.1))) s1

/-- The entry that `target` asks for begins (17 R397, R398). -/
def beginEntry (target : Power) (s : State) : State :=
  let s1 := modPm (fun p => { p with transition := true, target := target }) s
  if target = .hold then forEach pauseRun ((s.runs.filter fun e => e.2.state == .running).map (·.1)) s1 else s1

/-- POWER_STATE. A request for Run or Trim from Idle or Hold is a wake source (R400) and completes with the
wake; an entry completes once nothing stands in its way. From Hold, Idle is reached through Run. A
silent command is the Henua controller's own request (R394). -/
def execPowerState (h : Nat) (s : State) : Res :=
  runCmd h 0x0703 (fun c s =>
    let target := powerOf (bitsOf (pk c.pkt 0) 2 0)
    let p := s.pm
    let low := p.state == .idle || p.state == .hold
    if p.stopHold ∧ !(p.transition && p.target == .hold && target == .hold) then s
    else if p.waking then s
    else if p.state = target ∧ p.transition = false then finishCmd h [] c.admitTime s
    else
      match target with
      | .run => if low then wakeSource (if c.silent then 6 else 1) true s else schedule (finishCmd h [] (now s) (modPm (fun q => { q with state := .run }) s))
      | .trim => if low then wakeSource (if c.silent then 6 else 1) true s else schedule (finishCmd h [] (now s) (modPm (fun q => { q with state := .trim }) s))
      | .idle =>
        if p.state = .hold then s
        else
          let s1 := if p.transition then s else beginEntry .idle s
          if idleReady s1 then finishCmd h [] (now s) (enterIdle s1) else s1
      | .hold =>
        if holdBlocked s && !p.stopHold then schedule (finishCmd h [stWindow] 0 (modPm (fun q => { q with transition := false, target := q.state }) s))
        else
          let s1 := if p.transition then s else beginEntry .hold s
          if holdReady s1 then finishCmd h [] (now s) (enterHold s1) else s1) s

end Sys2Proof.Machine
end

