-- ==== Sys2Proof/Machine/TileData.lean ====
section
/-! DEFINITION. The tile's units (02, 03, 15): passes of the main and lateral arrays with their checksum
verdicts, drains, the channel unit, the quantiser, load and store transfers. Each row executes the operation
at the front of its unit's queue; UNIT_OP_COMPLETE takes it off. Log entry 26 gives the conventions. -/

namespace Sys2Proof.Machine

/-! ### A unit operation at work -/

/-- The state of an operation: what it may reach, whether an access left the tenant's windows (12 R289),
whether it met poison (10 R235), and the first check that failed (15 R359, R360). -/
structure TAcc where
  a : Acc
  t : Nat
  run : Nat
  tenant : Nat
  bad : Bool
  poison : Bool
  fail : Option Failure

def TAcc.start (s : State) (t : Nat) (c : Ctx) : TAcc := ⟨Acc.start 1 s, t, c.run, runTenant s c.run, false, false, none⟩

/-- Bytes of the tile's own scratchpad or scalar data memory that the tenant may reach (12 R284, R288). -/
def memMine (s : State) (tenant space t off len : Nat) : Bool :=
  let inside := fun (b : Alloc) => decide (b.base ≤ off) && decide (off + len ≤ b.base + b.len)
  decide (off + len ≤ if space = 4 then scratchEnd else 0x40000) &&
  (s.allocs.all fun e => !(e.2.space == space && e.2.inst == t && decide (e.2.base < off + len) && decide (off < e.2.base + e.2.len)) || e.2.tenant == tenant) &&
  (space == 4 || decide (off + len ≤ sdataRun) || s.allocs.any fun e => e.2.tenant == tenant && e.2.space == 5 && e.2.inst == t && inside e.2)

/-- Read the tile's scratchpad (`space` 4) or scalar data memory (5). -/
def tRead (space off len : Nat) (x : TAcc) : List Byte × TAcc :=
  if memMine x.a.s x.tenant space x.t off len then
    let r := rdBytes space x.t off len x.a
    (r.1.1, { x with a := r.2, poison := x.poison || r.1.2 })
  else (rep len 0, { x with bad := true })

def tWrite (space off : Nat) (bs : List Byte) (poison : Bool) (x : TAcc) : TAcc :=
  if memMine x.a.s x.tenant space x.t off bs.length then { x with a := wrBytes space x.t off bs poison x.a } else { x with bad := true }

def noteFail (f : Option Failure) (x : TAcc) : TAcc := { x with fail := x.fail.or f }

/-- Outcomes of a run met while it goes on. -/
def noteRun (r : Nat) (outs : List Nat) (s : State) : State := modRun r (fun x => { x with outcomes := addOutcomes outs x.outcomes }) s

/-- What an operation leaves: the run ends on an access outside its windows (07 R161), the step fails on a
failed check (15 R361), or the operation is done. A step that met poison is marked (10 R235); one that
touches a poisoned shared page stops the run (11 R279). -/
def finishT (x : TAcc) (k : State → State) : State :=
  let s := noteRun x.run (x.a.outs.filter (· != stDataPoisoned)) (modTile x.t (fun y => { y with poisoned := y.poisoned || x.poison }) x.a.s)
  if x.bad then schedule (endRun x.run [stWindow] s)
  else if x.a.outs.contains stSharedPoisoned then schedule (endRun x.run [stSharedPoisoned] s)
  else
    match x.fail with
    | some f => schedule (failStep x.t f s)
    | none => k s

/-- Values of packed bytes. -/
def unpackBytes (bits : Nat) (bs : List Byte) : List Nat := unpackVals bits bs.length bs

/-- `n` elements at a scratchpad offset, as FP32 patterns; BF16 is widened exactly (02). -/
def rdVec (bf16 : Bool) (off n : Nat) (x : TAcc) : List Nat × TAcc :=
  let r := tRead 4 off (n * if bf16 then 2 else 4) x
  ((unpackBytes (if bf16 then 16 else 32) r.1).map fun v => if bf16 then v * 65536 else v, r.2)

/-- FP32 patterns as stored: BF16 rounded to nearest-even. -/
def packVec (bf16 : Bool) (vs : List Nat) : List Nat := if bf16 then vs.map fun v => encB16 (dec32 v) else vs

/-! ### Range bounds (15 R359) -/

def inBounds (b : Bounds) (v : Fl) : Bool :=
  match v with
  | .nan => b.nanOk
  | .inf _ => b.infOk
  | .fin _ _ _ => match b.maxMag with
    | none => true
    | some m => leX (absX v) (dec32 m.toNat)

/-- The first element of a list outside the bounds, as a failure of check 6. -/
def boundsFail (b : Bounds) : Nat → List (Nat × Fl) → Option Failure
  | _, [] => none
  | i, v :: t => if inBounds b v.2 then boundsFail b (i + 1) t else some ⟨6, i % 2 ^ 32, i, BitVec.ofNat 32 v.1⟩

/-- A vector result is checked and written. -/
def wrVec (bf16 : Bool) (b : Bounds) (off : Nat) (vs : List Nat) (x : TAcc) : TAcc :=
  let ps := packVec bf16 vs
  noteFail (boundsFail b 0 (ps.map fun v => (v, if bf16 then decB16 v else dec32 v)))
    (tWrite 4 off (packVals (if bf16 then 16 else 32) ps) false x)

/-- A broken invariant of the channel unit (15 R360). -/
def invariantFail (ok : Bool) (place value : Nat) : Option Failure :=
  if ok then none else some ⟨7, place % 2 ^ 32, place, BitVec.ofNat 32 value⟩

/-! ### Queues -/

/-- The operation that a unit runs next: the front one, while it has not been executed. -/
def frontOp {α : Type} (q : List (α × Bool)) : Option α :=
  match q with
  | (o, false) :: _ => some o
  | _ => none

def markFront {α : Type} : List (α × Bool) → List (α × Bool)
  | (o, _) :: t => (o, true) :: t
  | [] => []

/-- A tile inside a step's body, with its context. -/
def bodyCtx (s : State) (t : Nat) : Option Ctx := if (getTile s t).phase = .body then (getTile s t).ctx else none

def doneChannel (t : Nat) (s : State) : State := modTile t (fun x => { x with qChannel := markFront x.qChannel }) s
def doneLateral (t : Nat) (s : State) : State := modTile t (fun x => { x with qLateral := markFront x.qLateral }) s

/-! ### The main array (02 R23 to R31) -/

def modeK : Mode → Nat
  | .b16 => 256
  | _ => 512
def modeN : Mode → Nat
  | .i4 => 1024
  | .b16 => 256
  | _ => 512
def modeInt : Mode → Bool
  | .i8 => true
  | .i4 => true
  | _ => false
/-- Shadow-load time (02 R23). -/
def shadowAclk : Mode → Nat
  | .b16 => 128
  | _ => 256
/-- Columns of a check group (15 R347). -/
def groupWidth : Mode → Nat
  | .i4 => 16
  | .b16 => 4
  | _ => 8
/-- Row capacity of a bank (02 R24). -/
def modeRows : Mode → Nat
  | .i4 => 512
  | .b16 => 2048
  | _ => 1024

def actBits (p : PassOp) : Nat := fmtBits p.actFmt
/-- Format of a pass's weights. -/
def wFmt (p : PassOp) : Nat := p.weights.fmt
def wBits (m : Mode) : Nat := match m with
  | .i4 => 4
  | .b16 => 16
  | _ => 8

/-- Fixed-size pieces of a list. -/
def pieces {α : Type} (n : Nat) : Nat → List α → List (List α)
  | 0, _ => []
  | k + 1, l => l.take n :: pieces n k (l.drop n)

/-- Where the weight block of a pass starts (06 R142), in the tile's own scratchpad. -/
def passBlock (p : PassOp) : Nat :=
  let d := p.weights
  let outer := ((outerDims d).map fun k => (p.block.getD k 0 : Int) * dStride d k).sum
  (d.base + outer + (p.block.getD 1 0 * (kTile d.fmt).2.2 : Nat) + (p.block.getD 0 0 : Nat) * dStride d 1).toNat

/-- The block's rows of column patterns (06 R142: 512 bytes a row). -/
def blockRows (m : Mode) (bs : List Byte) : List (List Nat) := (pieces 512 (modeK m) bs).map (unpackBytes (wBits m))

/-- One activation row of the pass. -/
def actRow (p : PassOp) (i : Nat) (x : TAcc) : List Nat × TAcc :=
  let r := tRead 4 (p.acts + i * p.actStride) (elBytes p.actFmt (modeK p.mode)) x
  (unpackBytes (actBits p) r.1, r.2)

def actRows (p : PassOp) : List Nat → TAcc → List (List Nat) × TAcc
  | [], x => ([], x)
  | i :: t, x =>
    let r := actRow p i x
    let u := actRows p t r.2
    (r.1 :: u.1, u.2)

def column (rows : List (List Nat)) (n : Nat) : List Nat := rows.map fun r => r.getD n 0

/-- A column's pass sum: an exact integer (02 R28), or an FP32 pattern in the order of R29. -/
def intSum (p : PassOp) (x col : List Nat) : Int :=
  dotI (x.map fun v => signedOf (actBits p) v) (col.map fun v => signedOf (wBits p.mode) v)
def floatSum (p : PassOp) (x col : List Nat) : Nat := dotF (x.map (decFmt p.actFmt)) (col.map (decFmt (wFmt p)))

/-! ### The lateral array (02 R34 to R37; 03 R64, R66) -/

/-- Lanes that a row group uses. -/
def lanes (g : RowGroup) : Nat := g.rank + g.outliers.length

/-- Row groups with the lateral block each took, in order. -/
def assignLats : List RowGroup → List LatBlock → List (RowGroup × Option LatBlock)
  | [], _ => []
  | g :: t, l =>
    if lanes g = 0 then (g, none) :: assignLats t l
    else
      match l with
      | [] => (g, none) :: assignLats t []
      | b :: u => (g, some b) :: assignLats t u

/-- Group, block and row within the group of every row of a pass. -/
def rowPlan (p : PassOp) (lats : List LatBlock) : List (RowGroup × Option LatBlock × Nat) :=
  let l : List (RowGroup × Option LatBlock × Nat) :=
    (assignLats p.groups lats).flatMap fun (e : RowGroup × Option LatBlock) => (List.range e.1.rows).map fun j => (e.1, e.2, j)
  (l ++ List.replicate p.rows ((⟨0, 0, [], 0⟩ : RowGroup), (none : Option LatBlock), 0)).take p.rows

/-- An outlier map of a K block that the device can lay out (03 R63): at most 32 indices, within the block, strictly
ascending. With another one lanes and outputs are unpredictable (R71). -/
def mapOk : List Nat → Bool
  | [] => true
  | [i] => decide (i < 512)
  | i :: j :: t => decide (i < j) && mapOk (j :: t)

def groupOk (g : RowGroup) : Bool := decide (g.outliers.length ≤ 32) && mapOk g.outliers

/-- Lateral blocks that the pass takes. -/
def latsNeeded (p : PassOp) : Nat := (p.groups.filter fun g => decide (0 < lanes g)).length

/-- BF16 outlier values of a row. -/
def outlierVals (g : RowGroup) (j : Nat) (x : TAcc) : List Nat × TAcc :=
  let c := g.outliers.length
  let r := tRead 4 (g.outAddr + 2 * c * j) (2 * c) x
  (unpackBytes 16 r.1, r.2)

/-- The merged row of the intake half (03 R66). -/
def mergedRow (p : PassOp) (g : RowGroup) (acts outs : List Nat) : List Fl :=
  acts.zipIdx.map fun e =>
    let k := g.outliers.idxOf e.2
    if k < g.outliers.length then decB16 (outs.getD k 0) else decFmt p.actFmt e.1

/-- The 64 lane values of slot `slot`: adapter lanes, then outliers, then nothing (02 R34; 03 R64). -/
def laneVals (g : RowGroup) (b : LatBlock) (merged : List Fl) (outs : List Nat) (slot : Nat) : List Fl :=
  (List.range 64).map fun i =>
    let l := 64 * slot + i
    if l < g.rank then
      decB16 (encB16 (dec32 (dotF merged ((List.range merged.length).map fun k => decB16 (b.a.getD (k * g.rank + l) 0).toNat))))
    else if l < lanes g then decB16 (outs.getD (l - g.rank) 0)
    else .fin false 0 0

/-- The outfall weight of a lane and column. -/
def outW (g : RowGroup) (b : LatBlock) (l n : Nat) : Fl :=
  if l < g.rank then decB16 (b.b.getD (512 * l + n) 0).toNat
  else if l < lanes g then decB16 (b.o.getD (512 * (l - g.rank) + n) 0).toNat
  else .fin false 0 0

/-- The lateral pass sum of a column in a slot (02 R37). -/
def latSum (g : RowGroup) (b : LatBlock) (lv : List Fl) (slot n : Nat) : Nat :=
  dotF lv ((List.range 64).map fun i => outW g b (64 * slot + i) n)

/-! ### Accumulator banks (02 R32, R33) -/

def bankOf (c : Ctx) (b : Bool) : Bank := if b then c.bankB else c.bankA
def setBank (t : Nat) (b : Bool) (k : Bank) (s : State) : State :=
  modTile t (fun x => { x with ctx := x.ctx.map fun c => if b then { c with bankB := k } else { c with bankA := k } }) s

/-- Key of an entry. -/
def cellKey (row col : Nat) : Nat := row * 1024 + col

/-- An entry after a pass: `none` where it holds no defined value (02 R33), or where a pass of one
accumulator mode meets a bank of the other (FREE VALUE when read, log entry 6). -/
def passCell (p : PassOp) (fresh fp32 lat : Bool) (old : Option W32) (x col : List Nat) (l : Option Nat) : Option Nat :=
  if !fp32 then
    if modeInt p.mode ∧ lat = false then
      if fresh then some (patOf 32 (intSum p x col)) else old.map fun o => patOf 32 ((o.toNat : Int) + intSum p x col)
    else none
  else
    let m := if modeInt p.mode then enc32 (flOfInt (intSum p x col)) else floatSum p x col
    let base := if fresh then some m else old.map fun o => fadd o.toNat m
    match l with
    | some v => base.map fun w => fadd w v
    | none => base

def putCell (k : Nat) (v : Option Nat) (t : Tab W32) : Tab W32 :=
  match v with
  | some w => tabPut k (BitVec.ofNat 32 w) t
  | none => tabDel k t

/-- The cells that one row of a pass updates. The outfall's 512 outputs reach columns 0 to 511, in mode I4 too
(DESIGN CHOICE, log entry 26); under a bad outlier map those cells hold no defined value (03 R71). -/
def rowCells (p : PassOp) (fp32 : Bool) (w : List (List Nat)) (i : Nat) (x : List Nat) (lat : Option (RowGroup × LatBlock × List Fl)) (cells : Tab W32) : Tab W32 :=
  (List.range (modeN p.mode)).foldl (fun t n =>
    let l := match lat with
      | some (g, b, lv) => if n < 512 then some (latSum g b lv 0 n) else none
      | none => none
    let bad := match lat with
      | some (g, _, _) => decide (n < 512) && !groupOk g
      | none => false
    putCell (cellKey i n) (if bad then none else passCell p p.fresh fp32 lat.isSome (tabGet? (cellKey i n) t) x (column w n) l) t) cells

/-- Every row of a pass in order. -/
def passRows (p : PassOp) (fp32 : Bool) (w : List (List Nat)) :
    List (List Nat × Nat × RowGroup × Option LatBlock × Nat) → Tab W32 × TAcc → Tab W32 × TAcc
  | [], r => r
  | (x, i, g, b, j) :: t, r =>
    match b with
    | none => passRows p fp32 w t (rowCells p fp32 w i x none r.1, r.2)
    | some lb =>
      let o := outlierVals g j r.2
      let lv := laneVals g lb (mergedRow p g x o.1) o.1 0
      passRows p fp32 w t (rowCells p fp32 w i x (some (g, lb, lv)) r.1, o.2)

/-- The thermal pause of the tile's die before a pass, in ACLK (02 R47; 17 R413). -/
def pauseAclk (s : State) (t : Nat) : Nat := 64 * max (tabGetD 0 (dieOfTile t) s.pm.kT) s.pm.kP

/-- Waits of a pass on its shadow load (02 R26). -/
def weightWait (x : Tile) (p : PassOp) : Nat :=
  match x.trace with
  | none => shadowAclk p.mode
  | some tr => shadowAclk p.mode - tr.op.rows

/-- Waits of a pass on lateral loads (02 R35): `g` is the row count of the group before. -/
def lateralWaits : Nat → List RowGroup → Nat
  | _, [] => 0
  | g, h :: t => (2 * h.rank + h.outliers.length - g) + lateralWaits h.rows t

/-- Rows of the group before a pass's first group: none before the first pass of a step, all rows of a pass without
groups (DESIGN CHOICE, log entry 26). -/
def lastRows (x : Tile) : Nat := ((x.trace.bind fun tr => tr.op.groups.getLast?).map (·.rows)).getD ((x.trace.map (·.op.rows)).getD 0)

/-! The main slot's queue serves the main array and the store path, each in its own order (02 R33). -/

/-- The pass that the main array runs next, with its place in the queue: the first one not executed, when every
pass before it has completed. -/
def passAt : List (MainOp × Bool) → Nat → Option (Nat × PassOp)
  | [], _ => none
  | (.pass p, false) :: _, i => some (i, p)
  | (.pass _, true) :: _, _ => none
  | (.drain _, _) :: t, i => passAt t (i + 1)
  | (.transpose _ _, _) :: t, i => passAt t (i + 1)

/-- The operation that the store path runs next: the first drain or transpose not executed, a drain when no pass
before it still adds to its bank (`busy`: the banks of passes seen). -/
def storeAt : List (MainOp × Bool) → Nat → List Bool → Option (Nat × MainOp)
  | [], _, _ => none
  | (.pass p, _) :: t, i, busy => storeAt t (i + 1) (p.bankB :: busy)
  | (.drain d, false) :: _, i, busy => if busy.contains d.bankB then none else some (i, .drain d)
  | (.drain _, true) :: t, i, busy => storeAt t (i + 1) busy
  | (.transpose d e, false) :: _, i, _ => some (i, .transpose d e)
  | (.transpose _ _, true) :: t, i, busy => storeAt t (i + 1) busy

/-- A drain of bank `b` stands before place `i` and has not been executed. -/
def drainAhead (b : Bool) (q : List (MainOp × Bool)) (i : Nat) : Bool :=
  (q.take i).any fun e => match e with
    | (.drain d, done) => !done && d.bankB == b
    | _ => false

/-- The next pass waits for its bank to be drained (02 R33). -/
def bankWaits (x : Tile) : Bool :=
  match x.ctx, passAt x.qMain 0 with
  | some c, some (i, p) => drainAhead p.bankB x.qMain i || (p.fresh && !(bankOf c p.bankB).drained)
  | _, _ => false

/-- The operation at place `i` of the main slot's queue has been executed. -/
def markMain (i : Nat) (t : Nat) (s : State) : State :=
  modTile t (fun x => { x with qMain := x.qMain.mapIdx fun j e => if j = i then (e.1, true) else e }) s

/-- MAIN_PASS: the shadow is swapped in and M rows go through the arrays (02 R24 to R33; 15 R350). A pass waits for
its bank to be drained, and for the lateral weights of all its groups to have landed. -/
def execMainPass (t : Nat) (s : State) : Res :=
  onUnit (tileOk t)
    (match bodyCtx s t, passAt (getTile s t).qMain 0 with
     | some c, some (i, p) =>
       let x := getTile s t
       let bank := bankOf c p.bankB
       let need := latsNeeded p
       if bankWaits x || decide (x.lats.length < need) then s
       else
         let took := x.lats.take need
         let fp32 := if p.fresh then !modeInt p.mode || decide (0 < need) else bank.fp32
         let w := tRead 4 (passBlock p) (512 * modeK p.mode) (TAcc.start s t c)
         let rows := actRows p (List.range p.rows) w.2
         let plan := rows.1.zipIdx.zip (rowPlan p took)
         let r := passRows p fp32 (blockRows p.mode w.1) (plan.map fun e => (e.1.1, e.1.2, e.2.1, e.2.2.1, e.2.2.2))
           ((if p.fresh then [] else bank.cells), rows.2)
         finishT r.2 (fun u =>
           markMain i t (setBank t p.bankB ⟨fp32, false, r.1⟩ (modTile t (fun y =>
             { y with active := w.1, shadow := y.active, lats := y.lats.drop need,
                      trace := some ⟨p, w.1, took, y.groupMain % 64, y.groupIn % 8, y.groupOut % 64, 0⟩,
                      groupMain := y.groupMain + 1, groupIn := y.groupIn + b2n (decide (0 < need)), groupOut := y.groupOut + b2n (decide (0 < need)),
                      issueAclk := y.issueAclk + BitVec.ofNat 64 p.rows, waitPause := y.waitPause + BitVec.ofNat 64 (pauseAclk u t),
                      waitWeight := y.waitWeight + BitVec.ofNat 64 (weightWait x p),
                      waitLateral := y.waitLateral + BitVec.ofNat 64 (lateralWaits (lastRows x) p.groups) }) u)))
     | _, _ => s)

/-! ### LATERAL_LOAD and EXTRA_LATERAL_SLOT -/

def words16 (bs : List Byte) : List W16 := (unpackBytes 16 bs).map (BitVec.ofNat 16)

/-- LATERAL_LOAD: A (input-major, 11 R274), B and the outlier rows of a row group land in the lateral shadow
(02 R35), which keeps any number of blocks ahead of the passes (DESIGN CHOICE, log entry 26). -/
def execLateralLoad (t : Nat) (s : State) : Res :=
  onUnit (tileOk t)
    (match bodyCtx s t, frontOp (getTile s t).qLateral with
     | some c, some (.load addr rank outs _) =>
       let a := tRead 4 addr (1024 * rank) (TAcc.start s t c)
       let b := tRead 4 (addr + 1024 * rank) (1024 * rank) a.2
       let o := tRead 4 (addr + 2048 * rank) (1024 * outs.length) b.2
       finishT o.2 (fun u => doneLateral t (modTile t (fun y => { y with lats := y.lats ++ [⟨rank, outs, words16 a.1, words16 b.1, words16 o.1⟩] }) u))
     | _, _ => s)

/-- The rows of an extra slot: only the lateral sum is added (02 R36, R37); a bad outlier map leaves no defined value
(03 R71). -/
def slotRows (p : PassOp) (slot : Nat) :
    List (List Nat × Nat × RowGroup × Option LatBlock × Nat) → Tab W32 × TAcc → Tab W32 × TAcc
  | [], r => r
  | (x, i, g, b, j) :: t, r =>
    match b with
    | none => slotRows p slot t r
    | some lb =>
      let o := outlierVals g j r.2
      let lv := laneVals g lb (mergedRow p g x o.1) o.1 slot
      let cells := (List.range (min 512 (modeN p.mode))).foldl (fun tb n =>
        putCell (cellKey i n) (if groupOk g then (tabGet? (cellKey i n) tb).map fun w => fadd w.toNat (latSum g lb lv slot n) else none) tb) r.1
      slotRows p slot t (cells, o.2)

/-- EXTRA_LATERAL_SLOT: the rows of the pass executed last again, the main array idle (02 R34); a later pass does not
wait for it (DESIGN CHOICE, log entry 26). -/
def execExtraLateralSlot (t : Nat) (s : State) : Res :=
  onUnit (tileOk t)
    (match bodyCtx s t, frontOp (getTile s t).qLateral, (getTile s t).trace with
     | some c, some (.extra slot _), some tr =>
       let p := tr.op
       let bank := bankOf c p.bankB
       let rows := actRows p (List.range p.rows) (TAcc.start s t c)
       let plan := rows.1.zipIdx.zip (rowPlan p tr.lats)
       let r := slotRows p slot (plan.map fun e => (e.1.1, e.1.2, e.2.1, e.2.2.1, e.2.2.2)) (bank.cells, rows.2)
       finishT r.2 (fun u =>
         doneLateral t (setBank t p.bankB { bank with cells := r.1 } (modTile t (fun y => { y with waitLateral := y.waitLateral + BitVec.ofNat 64 p.rows }) u)))
     | _, _, _ => s)

/-! ### The checksum (15 R347 to R352) -/

/-- `m · 2^e` rounded towards +∞ to FP32, as a value. -/
def ruVal (v : Fl) : Fl :=
  match v with
  | .fin false m e => if m = 0 then v else
      let f := floor32 m e
      if eqX (dec32 f) v then v else dec32 (f + 1)
  | _ => v

/-- One error that a fault adds to a column sum, in units of 2⁻¹⁴⁹ in the float modes. -/
def errFl (e : Int) : Fl := .fin (decide (e < 0)) e.natAbs (-149)

/-- The integer check over the columns `cols` (15 R348). -/
def intCheck (x : List Int) (rows : List (List Int)) (sums : List Int) (errs : List (Nat × Int)) (cols : List Nat) : Bool :=
  let lane := dotI x (rows.map fun r => (cols.map fun n => r.getD n 0).sum)
  let total := (cols.map fun n => sums.getD n 0).sum + ((errs.filter fun e => cols.contains e.1).map (·.2)).sum
  lane == total

/-- The float check over `cols`, with `q` groups of 16 rows (15 R349); NaN and infinities are left to the
range checks (R351). -/
def floatCheck (q : Nat) (x : List Fl) (rows : List (List Fl)) (sums : List Fl) (errs : List (Nat × Int)) (cols : List Nat) : Bool :=
  let pick (r : List Fl) := cols.map fun n => r.getD n (.fin false 0 0)
  let lane := sumX (List.zipWith mulX x (rows.map fun r => rne32 (sumX (pick r))))
  let mag := sumX (List.zipWith mulX (x.map absX) (rows.map fun r => ruVal (sumX ((pick r).map absX))))
  let total := sumX (pick sums ++ (errs.filter fun e => cols.contains e.1).map fun e => errFl e.2)
  let tol := addX (ruVal (mulX (.fin false (q + 4) (-24)) mag)) (.fin false 1 (-130))
  !isFin lane || !isFin mag || !isFin total || leX (absX (addX total (negX lane))) tol

/-- Columns of check group `g` of width `w`. -/
def groupCols (g w : Nat) : List Nat := (List.range w).map fun i => g * w + i

/-- The code of the first lane that fails: 3 full, 4 group. -/
def laneCode (full group : Bool) : Option Nat := if !full then some 3 else if !group then some 4 else none

/-- The main array's verdict on a row. -/
def mainVerdict (tr : PassTrace) (x : List Nat) (errs : List (Nat × Int)) : Option Nat :=
  let p := tr.op
  let rows := blockRows p.mode tr.weights
  let n := modeN p.mode
  let cols := groupCols tr.group (groupWidth p.mode)
  if modeInt p.mode then
    let xi := x.map fun v => signedOf (actBits p) v
    let ri := rows.map fun r => r.map fun v => signedOf (wBits p.mode) v
    let sums := (List.range n).map fun j => intSum p x (column rows j)
    laneCode (intCheck xi ri sums errs (List.range n)) (intCheck xi ri sums errs cols)
  else
    let xf := x.map (decFmt p.actFmt)
    let rf := rows.map fun r => r.map (decFmt (wFmt p))
    let sums := (List.range n).map fun j => dec32 (floatSum p x (column rows j))
    let q := modeK p.mode / 16
    laneCode (floatCheck q xf rf sums errs (List.range n)) (floatCheck q xf rf sums errs cols)

/-- Errors at the outfall's columns (1024 on) and at the intake's outputs (2048 on). -/
def shiftErrs (lo hi : Nat) (errs : List (Nat × Int)) : List (Nat × Int) :=
  (errs.filter fun e => decide (lo ≤ e.1 ∧ e.1 < hi)).map fun e => (e.1 - lo, e.2)

/-- The lateral halves' verdict on a row of the first slot (15 R352). -/
def lateralVerdict (tr : PassTrace) (g : RowGroup) (b : LatBlock) (acts outs : List Nat) (errs : List (Nat × Int)) : Option Nat :=
  let x := mergedRow tr.op g acts outs
  let k := min g.rank 64
  let wa (i : Nat) : List Fl := (List.range k).map fun l => decB16 (b.a.getD (i * g.rank + l) 0).toNat
  let rowsA := (List.range x.length).map wa
  let sumsA := (List.range k).map fun l => dec32 (dotF x (rowsA.map fun r => r.getD l (.fin false 0 0)))
  let eIn := shiftErrs 2048 2112 errs
  let lv := laneVals g b x outs 0
  let rowsB := (List.range 64).map fun l => (List.range 512).map (outW g b l)
  let sumsB := (List.range 512).map fun n => dec32 (latSum g b lv 0 n)
  let eOut := shiftErrs 1024 1536 errs
  (laneCode (floatCheck 32 x rowsA sumsA eIn (List.range 64)) (floatCheck 32 x rowsA sumsA eIn (groupCols tr.groupIn 8))).or
    (laneCode (floatCheck 4 lv rowsB sumsB eOut (List.range 512)) (floatCheck 4 lv rowsB sumsB eOut (groupCols tr.groupOut 8)))

/-- Errors that no check finds stay in the accumulator (15 R353). -/
def keepErrs (row : Nat) (errs : List (Nat × Int)) (b : Bank) : Bank :=
  { b with cells := errs.foldl (fun t e =>
      if e.1 < 1024 then
        match tabGet? (cellKey row e.1) t with
        | some w => tabPut (cellKey row e.1) (BitVec.ofNat 32 (if b.fp32 then enc32 (addX (dec32 w.toNat) (errFl e.2)) else patOf 32 ((w.toNat : Int) + e.2))) t
        | none => t
      else t) b.cells }

/-- CHECKSUM_VERDICT of row `row`, in row order. `errors`: what a fault added to the column sums, by column
(outfall columns from 1024, intake outputs from 2048). -/
def execChecksumVerdict (t row : Nat) (errors : List (Nat × Int)) (s : State) : Res :=
  onUnit (tileOk t)
    (match bodyCtx s t, (getTile s t).trace with
     | some c, some tr =>
       if row = tr.verdicts ∧ row < tr.op.rows then
         let x := actRow tr.op row (TAcc.start s t c)
         let m := mainVerdict tr x.1 (errors.filter fun e => decide (e.1 < 1024))
         let r := match (rowPlan tr.op tr.lats)[row]? with
           | some (g, some b, j) => let o := outlierVals g j x.2; (m.or (if groupOk g then lateralVerdict tr g b x.1 o.1 errors else none), o.2)
           | _ => (m, x.2)
         finishT (noteFail (r.1.map fun k => ⟨k, (tr.group * 65536 + row) % 2 ^ 32, row, 0⟩) r.2) (fun u =>
           setBank t tr.op.bankB (keepErrs row errors (bankOf c tr.op.bankB))
             (modTile t (fun y => { y with trace := some { tr with verdicts := row + 1 } }) u))
       else s
     | _, _ => s)

/-! ### The store path (02 R45; 03 R61, R62, R68) -/

/-- Conversion counts: converted, clipped, flushed, nonfinite, zero rows, fallback rows, zero columns. -/
def addCounts (a b : List Nat) : List Nat := (List.range 7).map fun i => a.getD i 0 + b.getD i 0

/-- Counts wait for the commit (03 R70). -/
def pendCounts (t : Nat) (l : List Nat) (s : State) : State := modTile t (fun y => { y with qPend := addCounts y.qPend l }) s

def narrow (fmt : Nat) : Bool := fmt == 1 || fmt == 2 || fmt == 3 || fmt == 8

/-- Stages 1 to 3 on an entry: its pattern as stored, or its FP32 value. -/
def drainVal (d : DrainOp) (fp32 : Bool) (w : Nat) (sx sw bias : Option Nat) : Fl :=
  let v0 : Fl := if fp32 then dec32 w else if d.widen then rne32 (flOfInt (signedOf 32 w)) else flOfInt (signedOf 32 w)
  let v1 := match sx with
    | none => v0
    | some r => if r = 0 then .fin false 0 0 else if isNan (dec32 r) then .nan else rne32 (mulX v0 (dec32 r))
  let v2 := match sw with
    | none => v1
    | some c => if sx = some 0 then v1 else rne32 (mulX v1 (dec32 c))
  match bias with
  | none => v2
  | some b => rne32 (addX v2 (dec32 b))

/-- No stage before the fourth changes an entry: an INT32 entry stays as it is (02 R45). -/
def drainRaw (d : DrainOp) (fp32 : Bool) : Bool := !fp32 && !d.widen && d.rowScale.isNone && d.colScale.isNone && d.bias.isNone

/-- Stage 4 (03 R50 to R53, R62); left out, the entry or its FP32 value is written. -/
def drainConv (d : DrainOp) (fp32 : Bool) (w : Nat) (v : Fl) : Conv :=
  match d.outFmt with
  | none => ⟨if drainRaw d fp32 then w else enc32 v, false, false, false⟩
  | some f => if narrow f then convTo f (dec32 (fmul (enc32 v) (frecip ((d.sOut.map (·.toNat)).getD one32)))) else convTo f v

/-- Format of what a drain writes. -/
def drainFmt (d : DrainOp) (fp32 : Bool) : Nat := d.outFmt.getD (if drainRaw d fp32 then 6 else 5)

/-- The value of a written element, for the range check: the NaN code of an integer format is a NaN. -/
def writtenVal (fmt : Nat) (v : Fl) (c : Conv) : Fl := if isNan v then .nan else decFmt fmt c.code

/-- A positive, finite, normal FP32 (03 R71). -/
def goodScale (w : Nat) : Bool := decide (0x00800000 ≤ w ∧ w < 0x7F800000)

/-- The entries of a drain, row by row: a value for each; an entry without a defined value, and an output
whose scales 03 R71 calls unpredictable, is a FREE VALUE. -/
def drainEls (d : DrainOp) (b : Bank) (rs cs bs : Option (List Nat)) : List Nat → State → List (Conv × Fl) × State
  | [], s => ([], s)
  | k :: t, s =>
    let i := k / d.cols
    let n := k % d.cols
    let w := match tabGet? (cellKey i n) b.cells with
      | some v => (v.toNat, s)
      | none => freshVal 4 s
    let v := drainVal d b.fp32 w.1 (rs.map fun l => l.getD i 0) (cs.map fun l => l.getD n 0) (bs.map fun l => l.getD n 0)
    let c := drainConv d b.fp32 w.1 v
    let wild := ((d.outFmt.map narrow).getD false && !((d.sOut.map fun x => goodScale x.toNat).getD true)) || (match cs with
      | some l => !goodScale (l.getD n 0)
      | none => false)
    let z := if wild then freshVal 4 w.2 else (c.code, w.2)
    let c' : Conv := { c with code := z.1 % 2 ^ fmtBits (drainFmt d b.fp32) }
    let r := drainEls d b rs cs bs t z.2
    ((c', writtenVal (drainFmt d b.fp32) (if wild then .fin false 0 0 else v) c') :: r.1, r.2)

def optVec (addr : Option Nat) (n : Nat) (x : TAcc) : Option (List Nat) × TAcc :=
  match addr with
  | none => (none, x)
  | some a => let r := rdVec false a n x; (some r.1, r.2)

def countIf (l : List (Conv × Fl)) (p : Conv → Bool) : Nat := (l.filter fun e => p e.1).length

/-- What stage 4 counts (03 R68): conversions to the narrow formats; saturations, flushes and non-finite elements of
every conversion (R51 to R53). -/
def drainCounts (d : DrainOp) (l : List (Conv × Fl)) : List Nat :=
  [if (d.outFmt.map narrow).getD false then l.length else 0, countIf l (·.clipped), countIf l (·.flushed), countIf l (·.nonfinite)]

/-- Stage 5: the drained element that destination element `n` takes. -/
def drainFrom (d : DrainOp) (n : Nat) : Nat :=
  let idx := unflat (usedSizes d.dst) n
  flatIdx d.dims ((List.range d.dims.length).map fun j => idx.getD (d.perm.idxOf j) 0)

/-- A descriptor of the tile's own scratchpad: the store path reaches no other memory (06 R138). -/
def ownScratch (t : Nat) (d : Desc) : Desc := { d with space := 4, inst := t }

/-- Every byte of a scratchpad descriptor's footprint is the tenant's (12 R288). -/
def scratchMine (x : TAcc) (d : Desc) : Bool :=
  dEmpty d || (decide (0 ≤ dLo d) && memMine x.a.s x.tenant 4 x.t (dLo d).toNat ((dHi d + 1 - dLo d).toNat))

/-- The drained elements are written into the destination descriptor, every layout block whole (06 R143). -/
def drainWrite (t : Nat) (d : DrainOp) (els : List (Conv × Fl)) (x : TAcc) : TAcc :=
  let dst := ownScratch t d.dst
  if scratchMine x dst then
    let vals := els.map (·.1.code)
    { x with a := wrTensor dst (fun n b => ((vals.getD (drainFrom d n) 0, false), b)) x.a }
  else { x with bad := true }

/-- The stages of a drain, the range check and the residue check (15 R346, R359). -/
def drainGo (t : Nat) (d : DrainOp) (b : Bank) (residueError : Bool) (x : TAcc) : TAcc × List Nat :=
  let rs := optVec d.rowScale d.rows x
  let cs := optVec d.colScale d.cols rs.2
  let bs := optVec d.bias d.cols cs.2
  let els := drainEls d b rs.1 cs.1 bs.1 (List.range (d.rows * d.cols)) bs.2.a.s
  let x1 := drainWrite t d els.1 { bs.2 with a := { bs.2.a with s := els.2 } }
  let x2 := match d.sOutVec with
    | some a => tWrite 4 a (packVals 32 (List.replicate d.rows ((d.sOut.map (·.toNat)).getD one32))) false x1
    | none => x1
  (noteFail (if residueError then some ⟨5, 0, 0, 0⟩ else boundsFail d.bounds 0 (els.1.map fun e => (e.1.code, e.2))) x2, drainCounts d els.1)

/-- ACC_DRAIN: the store path's next operation. `residueError` is the outcome of a drain's residue check. -/
def execAccDrain (t : Nat) (residueError : Bool) (s : State) : Res :=
  onUnit (tileOk t)
    (match bodyCtx s t, storeAt (getTile s t).qMain 0 [] with
     | some c, some (i, .drain d) =>
       let b := bankOf c d.bankB
       let r := drainGo t d b residueError (TAcc.start s t c)
       finishT r.1 (fun u => markMain i t (pendCounts t r.2 (setBank t d.bankB ⟨b.fp32, true, []⟩ u)))
     | some c, some (i, .transpose d _) =>
       let x := TAcc.start s t c
       finishT (if scratchMine x (ownScratch t d) then { x with a := (transposeInPlace (ownScratch t d) x.a).2 } else { x with bad := true }) (markMain i t)
     | _, _ => s)

/-! ### The channel unit (02 R40 to R44) -/

/-- Compares give 1.0 or +0, select takes its second operand where the first is not zero (log entry 27). -/
def truth32 (b : Bool) : Nat := if b then one32 else 0

/-- One element of a vector operation (02 R40, R41). -/
def vfn (f : VFn) (a b c : Nat) : Nat :=
  match f with
  | .add => fadd a b
  | .mul => fmul a b
  | .fma => ffma a b c
  | .cmpLt => truth32 (ltX (dec32 a) (dec32 b))
  | .cmpLe => truth32 (leX (dec32 a) (dec32 b))
  | .cmpEq => truth32 (eqX (dec32 a) (dec32 b))
  | .min => fmin a b
  | .max => fmax a b
  | .select => if isZeroX (dec32 a) then c else b
  | .exp => fexp a
  | .recip => frecip a
  | .rsqrt => frsqrt a
  | .sigmoid => fsigmoid a
  | .silu => fsilu a
  | .tanh => ftanh a
  | .gelu => fgelu a
  | .relu => frelu a
  | .div => fdiv a b

/-- Operands that a function reads. -/
def arity : VFn → Nat
  | .fma => 3
  | .select => 3
  | .add => 2
  | .mul => 2
  | .cmpLt => 2
  | .cmpLe => 2
  | .cmpEq => 2
  | .min => 2
  | .max => 2
  | .div => 2
  | _ => 1

/-- The invariants of exp and rsqrt on one element (15 R360). -/
def primOk (f : VFn) (a r : Nat) : Bool :=
  match f with
  | .exp => isNan (dec32 a) || (!isNan (dec32 r) && !signX (dec32 r))
  | .rsqrt => !(isFin (dec32 a) && ltX (.fin false 0 0) (dec32 a)) || (isFin (dec32 r) && ltX (.fin false 0 0) (dec32 r))
  | _ => true

def firstBad (f : VFn) : Nat → List (Nat × Nat) → Option Failure
  | _, [] => none
  | i, e :: t => if primOk f e.1 e.2 then firstBad f (i + 1) t else some ⟨7, i % 2 ^ 32, i, BitVec.ofNat 32 e.2⟩

/-- CHANNEL_OP: an elementwise or composite vector operation. -/
def execChannelOp (t : Nat) (s : State) : Res :=
  onUnit (tileOk t)
    (match bodyCtx s t, frontOp (getTile s t).qChannel with
     | some c, some (.vec f a b d dst n bi bo bounds _) =>
       let va := rdVec bi a n (TAcc.start s t c)
       let vb := if 2 ≤ arity f then rdVec bi b n va.2 else ([], va.2)
       let vc := if 3 ≤ arity f then rdVec bi d n vb.2 else ([], vb.2)
       let r := (List.range n).map fun i => vfn f (va.1.getD i 0) (vb.1.getD i 0) (vc.1.getD i 0)
       finishT (wrVec bo bounds dst r (noteFail (firstBad f 0 (va.1.zip r)) vc.2)) (doneChannel t)
     | _, _ => s)

def rfn (f : RFn) (l : List Nat) : Nat :=
  match f with
  | .sum => sumF l
  | .max => maxF l
  | .min => minF l
  | .absMax => absMaxF l
  | .argMax => argMaxF l
  | .anyNonzero => anyNonzeroF l

/-- CHANNEL_REDUCTION into a V register (02 R42; 07 R153). -/
def execChannelReduction (t : Nat) (s : State) : Res :=
  onUnit (tileOk t)
    (match bodyCtx s t, frontOp (getTile s t).qChannel with
     | some c, some (.reduce f src n v bi _) =>
       let r := rdVec bi src n (TAcc.start s t c)
       finishT r.2 (fun u => doneChannel t (modTile t (fun y => { y with v := tabPut (v % 8) (BitVec.ofNat 32 (rfn f r.1)) y.v }) u))
     | _, _ => s)

/-- The invariants of a softmax row (15 R360); a row with NaN inputs breaks none. -/
def softmaxFail (x y : List Nat) : Option Failure :=
  if (x.any fun w => isNan (dec32 w) || dec32 w == .inf false) || dec32 (maxF x) == .inf true then none
  else
    match y.zipIdx.find? fun e => !(leX (dec32 e.1) (dec32 one32) && !signX (dec32 e.1)) with
    | some e => invariantFail false e.2 e.1
    | none =>
      let sum := sumF y
      invariantFail (leX (.fin false (2 ^ 10 - 1) (-10)) (dec32 sum) && leX (dec32 sum) (.fin false (2 ^ 10 + 1) (-10))) 0 sum

/-- SOFTMAX over a row (02 R43). -/
def execSoftmax (t : Nat) (s : State) : Res :=
  onUnit (tileOk t)
    (match bodyCtx s t, frontOp (getTile s t).qChannel with
     | some c, some (.softmax src dst n bi bo bounds _) =>
       let x := rdVec bi src n (TAcc.start s t c)
       let y := softmaxF x.1
       finishT (wrVec bo bounds dst y (noteFail (softmaxFail x.1 y) x.2)) (doneChannel t)
     | _, _ => s)

/-- NORMALISATION: RMS or layer norm (02 R44), on FP32 or BF16 vectors. -/
def execNormalisation (t : Nat) (s : State) : Res :=
  onUnit (tileOk t)
    (match bodyCtx s t, frontOp (getTile s t).qChannel with
     | some c, some (.rms src dst n eps g bi bo bounds _) =>
       let x := rdVec bi src n (TAcc.start s t c)
       let w := rdVec bi g n x.2
       finishT (wrVec bo bounds dst (rmsF eps.toNat x.1 w.1) w.2) (doneChannel t)
     | some c, some (.layer src dst n eps g b bi bo bounds _) =>
       let x := rdVec bi src n (TAcc.start s t c)
       let w := rdVec bi g n x.2
       let z := rdVec bi b n w.2
       finishT (wrVec bo bounds dst (layerF eps.toNat x.1 w.1 z.1) z.2) (doneChannel t)
     | _, _ => s)

/-! ### The quantiser (03 R55 to R58, R67 to R70) -/

/-- FP32 of 2⁻¹⁰⁰ (03 R56) and 1 ÷ Qmax (R49). -/
def tiny32 : Nat := 0x0D800000
def invQmax (fmt : Nat) : Nat :=
  match fmt with
  | 8 => 0x3E124925
  | 1 => 0x3C010204
  | 2 => 0x3B124925
  | _ => 0x37924925
def qmax32 (fmt : Nat) : Nat :=
  match fmt with
  | 8 => 0x40E00000
  | 1 => 0x42FE0000
  | 2 => 0x43E00000
  | _ => 0x47600000
def nanCode (fmt : Nat) : Nat := (convTo fmt .nan).code

/-- One quantised row: scale, codes, outlier values, the counts of R68, and the row reference. -/
structure QRow where
  scale : Nat
  codes : List Nat
  outs : List Nat
  counts : List Nat
  ref : Option Nat

/-- Absolute maximum of FP32 patterns: exact. -/
def absMaxOf (l : List Nat) : Nat := l.foldl (fun a w => max a (w % 2 ^ 31)) 0

/-- encode of 03 R56 on one element; a non-zero element whose product or code is zero is flushed (R53). -/
def encodeEl (fmt w u : Nat) : Conv :=
  let c := convTo fmt (dec32 (fmul w u))
  { c with flushed := c.flushed || (isFin (dec32 w) && !isZeroX (dec32 w) && isZeroX (dec32 (fmul w u))) }

def encodeRow (fmt : Nat) (O : List Nat) (x : List Nat) (u : Nat) : List Conv :=
  x.zipIdx.map fun e => if O.contains e.2 then ⟨0, false, false, false⟩ else encodeEl fmt e.1 u

def outEnc (O : List Nat) (x : List Nat) (u : Nat) : List Nat := O.map fun j => encB16 (dec32 (fmul (x.getD j 0) u))

/-- The quantiser on one row (03 R56). -/
def quantRow (fmt : Nat) (O : List Nat) (st : Option Nat) (x : List Nat) : QRow :=
  let k := x.length
  let conv := k - O.length
  let enc (s u : Nat) (fb : Nat) (ref : Nat) : QRow :=
    let e := encodeRow fmt O x u
    ⟨s, e.map (·.code), outEnc O x u, [conv, (e.filter (·.clipped)).length, (e.filter (·.flushed)).length, (e.filter (·.nonfinite)).length, 0, fb], some ref⟩
  if x.any fun w => !isFin (dec32 w) then
    ⟨nan32, x.map fun _ => nanCode fmt, O.map fun _ => 0x7FC0, [conv, 0, 0, k], none⟩
  else
    match st with
    | some s => enc s (frecip s) 0 (fmul s (qmax32 fmt))
    | none =>
      let a := absMaxOf (x.zipIdx.filterMap fun e => if O.contains e.2 then none else some e.1)
      let b := absMaxOf x
      if a < tiny32 ∧ b < tiny32 then
        ⟨0, x.map fun _ => 0, O.map fun _ => 0, [conv, 0, (x.filter fun w => w % 2 ^ 31 != 0).length, 0, 1], some b⟩
      else
        let r := if a < tiny32 then b else a
        let s := fmul r (invQmax fmt)
        enc s (frecip s) (b2n (decide (a < tiny32))) r

/-- The map names outliers within the row, in ascending order (03 R63, R71). -/
def outliersIn (k : Nat) : List Nat → Bool
  | [] => true
  | [i] => decide (i < k)
  | i :: j :: t => decide (i < j) && outliersIn k (j :: t)

/-- The map is one that the device can lay out: at most 32 outliers of each K block (03 R63, R71). -/
def outliersOk (k : Nat) (O : List Nat) : Bool :=
  outliersIn k O && (List.range (ceilDiv k 512)).all fun b => decide ((O.filter fun i => i / 512 == b).length ≤ 32)

/-! #### The statistics record (03 R69, R70) -/

def expOf (w : Nat) : Nat := w / 2 ^ 23 % 256

/-- Binade of an element below its row reference. -/
def binade (ref w : Nat) : Nat := min 31 (expOf ref - expOf w)

def sat32 (n : Nat) : Nat := min n (2 ^ 32 - 1)

/-- Fields of a record as numbers: tag, ELEMENTS, CLIPPED, FLUSHED, NONFINITE, ROWS, ZERO_ROWS, FALLBACK_ROWS,
ROW_AMAX_MAX, ROW_AMAX_MIN, STEPS, the histogram and the channel maxima. -/
structure Stats where
  tag : Nat
  sums : List Nat
  rows : List Nat
  amaxMax : Nat
  amaxMin : Nat
  steps : Nat
  hist : List Nat
  chan : List Nat

def inf32 : Nat := 0x7F800000

/-- The statistics of a step's rows. ELEMENTS, CLIPPED and FLUSHED are those of the finite rows, so that ELEMENTS less
the histogram leaves the zeros; NONFINITE counts the elements of the other rows. -/
def statsOf (tag k : Nat) (O : List Nat) (xs : List (List Nat)) (qs : List QRow) : Stats :=
  let c (i : Nat) : Nat := ((qs.filter (·.ref.isSome)).map fun q => q.counts.getD i 0).sum
  let fin := (xs.zip qs).filterMap fun e => e.2.ref.map fun r => (e.1, r)
  let bins := fin.flatMap fun e => e.1.zipIdx.filterMap fun w => if O.contains w.2 ∨ w.1 % 2 ^ 31 = 0 then none else some (binade e.2 w.1)
  ⟨tag, [c 0, c 1, c 2, k * (qs.filter (·.ref.isNone)).length], [qs.length, c 4, c 5], (fin.map (·.2)).foldl max 0,
   (fin.map (·.2)).foldl (fun a r => if r = 0 then a else min a r) inf32, 1,
   (List.range 32).map fun b => bins.count b, (List.range k).map fun i => absMaxOf (fin.map fun e => e.1.getD i 0)⟩

def statsBytes (z : Stats) : List Byte :=
  toLE 4 1 ++ toLE 4 z.tag ++ z.sums.flatMap (toLE 8) ++ z.rows.flatMap (fun n => toLE 4 (sat32 n)) ++ toLE 4 z.amaxMax ++ toLE 4 z.amaxMin ++
  toLE 4 (sat32 z.steps) ++ z.hist.flatMap (fun n => toLE 4 (sat32 n)) ++ z.chan.flatMap (toLE 4)

def readStats (k : Nat) (b : List Byte) : Stats :=
  ⟨fieldB b 4 4, (List.range 4).map fun i => fieldB b (8 + 8 * i) 8, (List.range 3).map fun i => fieldB b (0x28 + 4 * i) 4, fieldB b 0x34 4,
   fieldB b 0x38 4, fieldB b 0x3C 4, (List.range 32).map fun i => fieldB b (0x40 + 4 * i) 4, (List.range k).map fun i => fieldB b (0xC0 + 4 * i) 4⟩

/-- The accumulate form: STEPS rises once for a step. -/
def mergeStats (again : Bool) (o n : Stats) : Stats :=
  ⟨n.tag, List.zipWith (· + ·) o.sums n.sums, List.zipWith (· + ·) o.rows n.rows, max o.amaxMax n.amaxMax, min o.amaxMin n.amaxMin,
   if again then o.steps else o.steps + 1, List.zipWith (· + ·) o.hist n.hist, List.zipWith max o.chan n.chan⟩

/-- The record an observation will leave at the commit. -/
def observeBytes (o : Observe) (k : Nat) (z : Stats) (x : TAcc) : List Byte × TAcc :=
  if o.accumulate then
    match (getTile x.a.s x.t).statsPend.find? fun e => e.1 == o.addr with
    | some e => (statsBytes (mergeStats true (readStats k e.2) z), x)
    | none =>
      let r := tRead 4 o.addr (0xC0 + 4 * k) x
      (statsBytes (mergeStats false (readStats k r.1) z), r.2)
  else (statsBytes z, x)

/-- Rows of the operator, read in order. -/
def quantRows (q : QuantOp) : List Nat → TAcc → List (List Nat) × TAcc
  | [], x => ([], x)
  | i :: t, x =>
    let r := rdVec q.srcBf16 (q.src + i * q.k * (if q.srcBf16 then 2 else 4)) q.k x
    let u := quantRows q t r.2
    (r.1 :: u.1, u.2)

/-- Bytes that 03 R71 calls unpredictable. -/
def freeBytes : Nat → State → List Byte × State
  | 0, s => ([], s)
  | n + 1, s =>
    let b := freshByte s
    let r := freeBytes n b.2
    (b.1 :: r.1, r.2)

/-- The first code of a quantised tensor outside its bounds (15 R359); an integer format's NaN code is a NaN. -/
def codesFail (b : Bounds) (fmt : Nat) (codes : List Nat) : Option Failure :=
  boundsFail b 0 (codes.map fun k => (k, if k = nanCode fmt then .nan else decFmt fmt k))

/-- The row quantiser on the tile: codes, row scales and outlier values of every row (03 R56). A bad static scale or
outlier map leaves codes and outlier values open (R71). Counts, and the statistics record. -/
def quantGo (q : QuantOp) (x : TAcc) : (List Nat × Option (Nat × List Byte)) × TAcc :=
  let O := q.outliers
  let st := q.static.map (·.toNat)
  let xs := quantRows q (List.range q.rows) x
  let qs := xs.1.map (quantRow q.fmt O st)
  let wild := !((st.map goodScale).getD true) || !outliersOk q.k O
  let codes := packVals (fmtBits q.fmt) (qs.flatMap (·.codes))
  let outs := packVals 16 (qs.flatMap (·.outs))
  let f := if wild then freeBytes (codes.length + outs.length) xs.2.a.s else (codes ++ outs, xs.2.a.s)
  let x0 : TAcc := { xs.2 with a := { xs.2.a with s := f.2 } }
  let x1 := tWrite 4 q.codes (f.1.take codes.length) false x0
  let x2 := tWrite 4 q.outVals (f.1.drop codes.length) false (tWrite 4 q.scales (packVals 32 (qs.map (·.scale))) false x1)
  let x3 := noteFail (if wild then none else codesFail q.bounds q.fmt (qs.flatMap (·.codes))) x2
  let counts := qs.foldl (fun a r => addCounts a r.counts) []
  match q.observe with
  | none => ((counts, none), x3)
  | some o => let r := observeBytes o q.k (statsOf o.tag q.k O xs.1 qs) x3; ((counts, some (o.addr, r.1)), r.2)

/-- One column of a weight matrix (03 R59, R60): its scale, its codes, and the counts of R68. `none` where a weight that
is no outlier is not finite, for which the spec states no result. -/
def quantCol (fmt : Nat) (O : List Nat) (x : List Nat) : Option (Nat × List Nat × List Nat) :=
  let own := x.zipIdx.filterMap fun e => if O.contains e.2 then none else some e.1
  let n := own.length
  if own.any fun w => !isFin (dec32 w) then none
  else if absMaxOf own < tiny32 then
    some (one32, x.map fun _ => 0, [n, 0, (own.filter fun w => w % 2 ^ 31 != 0).length, 0, 0, 0, 1])
  else
    let s := fmul (absMaxOf own) (invQmax fmt)
    let e := encodeRow fmt O x (frecip s)
    some (s, e.map (·.code), [n, (e.filter (·.clipped)).length, (e.filter (·.flushed)).length, (e.filter (·.nonfinite)).length])

/-- The columns of a weight matrix, a FREE VALUE for each part of one that has no stated result (log entry 7). -/
def quantCols (q : WQuantOp) (rows : List (List Nat)) : List Nat → State → List (Nat × List Nat × List Nat) × State
  | [], s => ([], s)
  | n :: t, s =>
    let c := match quantCol q.fmt q.outliers (column rows n) with
      | some c => (c, s)
      | none =>
        let a := freshVal 4 s
        let b := freeBytes q.k a.2
        ((a.1, b.1.map fun (y : Byte) => y.toNat % 2 ^ fmtBits q.fmt, [q.k - q.outliers.length, 0, 0, q.k - q.outliers.length]), b.2)
    let r := quantCols q rows t c.2
    (c.1 :: r.1, r.2)

/-- The weight quantiser on the tile (03 R59): codes row by row, outlier rows zero, and the column scales. -/
def wquantGo (q : WQuantOp) (x : TAcc) : List Nat × TAcc :=
  let r := rdVec q.srcBf16 q.src (q.k * q.n) x
  let cs := quantCols q (pieces q.n q.k r.1) (List.range q.n) r.2.a.s
  let codes := (List.range q.k).flatMap fun i => cs.1.map fun c => c.2.1.getD i 0
  let x1 := tWrite 4 q.codes (packVals (fmtBits q.fmt) codes) false { r.2 with a := { r.2.a with s := cs.2 } }
  let x2 := tWrite 4 q.scales (packVals 32 (cs.1.map (·.1))) false x1
  (cs.1.foldl (fun a c => addCounts a c.2.2) [], noteFail (codesFail q.bounds q.fmt codes) x2)

/-- QUANTISE: the row form or the weight form; counts and a statistics record wait for the commit (03 R70). -/
def execQuantise (t : Nat) (s : State) : Res :=
  onUnit (tileOk t)
    (match bodyCtx s t, frontOp (getTile s t).qChannel with
     | some c, some (.quant q) =>
       let r := quantGo q (TAcc.start s t c)
       finishT r.2 (fun u =>
         doneChannel t (pendCounts t r.1.1 (modTile t (fun y =>
           { y with statsPend := match r.1.2 with
                    | some e => y.statsPend.filter (fun z => z.1 != e.1) ++ [e]
                    | none => y.statsPend }) u)))
     | some c, some (.wquant q) =>
       let r := wquantGo q (TAcc.start s t c)
       finishT r.2 (fun u => doneChannel t (pendCounts t r.1 u))
     | _, _ => s)

/-! ### Load and store streams (05 R110; 07 R152, R155, R160, R161; 12 R288) -/

/-- A descriptor of the program with its space-4 instance passed through the turnout table. -/
def turnDesc (t : Nat) (c : Ctx) (d : Desc) : Option Desc :=
  if d.space = 4 then (tabGet? d.inst c.turnout).map fun u => { d with inst := u }
  else if d.space = 5 then some { d with inst := t } else some d

/-- A stream of the run on tile `t` may reach the bytes of a descriptor: the tenant's allocations, and the run areas
of all its running runs (12 R288). -/
def streamOk (s : State) (r t : Nat) (write : Bool) (d : Desc) : Bool :=
  match getRun? s r with
  | none => false
  | some x =>
    let mine := s.allocs.any fun e => e.2.space == d.space && e.2.inst == d.inst && footprintIn d e.2.base e.2.len &&
      (e.2.tenant == x.tenant || (!write && e.2.tenant == 0 && e.2.sharedRo))
    let span := (dHi d + 1 - dLo d).toNat
    dEmpty d ||
    (match d.space with
     | 2 => mine
     | 3 => mine || (s.runs.any fun e => e.2.tenant == x.tenant && (e.2.state == .running || e.2.state == .pausing) &&
       match tabGet? d.inst e.2.basinAt with
       | some a => footprintIn d a (bundleOfRun s e.2).basinBytes
       | none => false)
     | 4 => decide (0 ≤ dLo d) && (mine || s.runs.any fun e => e.2.tenant == x.tenant && (e.2.state == .running || e.2.state == .pausing) && e.2.place.any fun p => p.2 == d.inst) &&
       memMine s x.tenant 4 d.inst (dLo d).toNat span
     | 5 => d.inst == t && decide (0 ≤ dLo d) && memMine s x.tenant 5 t (dLo d).toNat span
     | _ => false)

/-- Elements packed into bytes, each byte with its element's poison. -/
def packPv (bits : Nat) : List PV → List (Byte × Bool)
  | [] => []
  | v :: t =>
    if bits = 4 then
      match t with
      | [] => [(BitVec.ofNat 8 (v.1 % 16), v.2)]
      | w :: u => (BitVec.ofNat 8 (v.1 % 16 + 16 * (w.1 % 16)), v.2 || w.2) :: packPv bits u
    else ((toLE (bits / 8) v.1).map fun b => (b, v.2)) ++ packPv bits t

/-- Packed bytes written block by block, a poisoned part poisoning its block (10 R235). -/
def wrPvGo (space : Nat) : Nat → Nat → List (Byte × Bool) → TAcc → TAcc
  | 0, _, _, x => x
  | fuel + 1, off, l, x =>
    if l.isEmpty then x
    else
      let n := min l.length (64 - off % 64)
      let h := l.take n
      wrPvGo space fuel (off + n) (l.drop n) (tWrite space off (h.map (·.1)) (h.any (·.2)) x)

/-- The bytes land when all of them lie in the tenant's windows; otherwise none does (07 R161). -/
def wrPv (space off : Nat) (l : List (Byte × Bool)) (x : TAcc) : TAcc :=
  if memMine x.a.s x.tenant space x.t off l.length then wrPvGo space (l.length + 1) off l x else { x with bad := true }

/-- Raw bytes of the lines of a descriptor, padding included, each with its block's poison. -/
def rdLines (d : Desc) : List Line → Acc → List (Byte × Bool) × Acc
  | [], a => ([], a)
  | l :: t, a =>
    let r := rdBytes d.space d.inst l.addr (l.slots.length * fmtBits d.fmt / 8) a
    let u := rdLines d t r.2
    ((r.1.1.map fun b => (b, r.1.2)) ++ u.1, u.2)

/-- What a load brings: the elements packed in element order; of a K-tiled tensor its blocks whole, as the weight
port reads them, padding included (06 R138, R142, R148). -/
def loadBytes (d : Desc) (a : Acc) : List (Byte × Bool) × Acc :=
  if d.layout = 2 then rdLines d (dLines d) a
  else
    let r := rdEls d (dCount d) 0 a
    (packPv (fmtBits d.fmt) r.1, r.2)

/-- `n` packed elements of a format at a place of the tile. -/
def rdPv (space fmt off n : Nat) (x : TAcc) : List PV × TAcc :=
  if memMine x.a.s x.tenant space x.t off (elBytes fmt n) then
    let d : Desc := ⟨space, x.t, 1, fmt, off, [n], [], false, 0⟩
    let r := rdEls d n 0 x.a
    (r.1, { x with a := r.2, poison := x.poison || anyPoison r.1 })
  else (List.replicate n (0, false), { x with bad := true })

/-- A parity error on a word (15 R354, R355): a detection the first time; met again at the same place after
the reissue, the block is poisoned and the step goes on. -/
def parityStored (s : State) (t off : Nat) : Bool :=
  match (getTile s t).ctx with
  | some c => decide (0 < c.attempt) && ((c.lastFail.map fun f => f.check == 2 && f.place == off) == some true)
  | none => false

def doneLoad (t : Nat) (s : State) : State := modTile t (fun x => { x with qLoad := markFront x.qLoad }) s

/-- LOAD_TRANSFER: what a descriptor holds lands in the tile (07 R150; 05 R110); it waits while a block of it is held
(04 R95).
`parityAt`: the source offset of a word with a parity error. -/
def execLoadTransfer (t : Nat) (parityAt : Option Nat) (s : State) : Res :=
  onUnit (tileOk t)
    (match bodyCtx s t, frontOp (getTile s t).qLoad with
     | some c, some (.xfer src toSdata addr _) =>
       match turnDesc t c src with
       | none => schedule (endRun c.run [stWindow] s)
       | some d =>
         if !(2 ≤ d.space && streamOk s c.run t false d) then schedule (endRun c.run [stWindow] s)
         else viaGap (loadMover t) (descPhys s d) (fun s =>
           let stored := match parityAt with
             | some p => parityStored s t p
             | none => true
           if !stored then schedule (failStep t ⟨2, (parityAt.getD 0) % 2 ^ 32, parityAt.getD 0, 0⟩ s)
           else
             let s1 := match parityAt with
               | some p => poisonBlock d.space d.inst (p / 64 * 64) (runTenant s c.run) s
               | none => s
             let r := loadBytes d (TAcc.start s1 t c).a
             let x : TAcc := { TAcc.start s1 t c with a := r.2, poison := r.1.any (·.2) }
             finishT (wrPv (if toSdata then 5 else 4) addr r.1 x) (doneLoad t)) s
     | _, _ => s)

/-- An overlay has landed in instruction memory. -/
def landOverlay (n : Nat) (x : Tile) : Tile :=
  { x with imem := x.imem.map fun k => { k with overlays := k.overlays ++ [n] },
           ctx := x.ctx.map fun c => { c with overlays := c.overlays ++ [n] } }

/-- CODE_OVERLAY_TRANSFER: after the commit an overlay of the run's own image fills instruction memory (07
R159). -/
def execCodeOverlayTransfer (t : Nat) (s : State) : Res :=
  let x := getTile s t
  onUnit (tileOk t)
    (match frontOp x.qLoad with
     | some (.overlay n) =>
       if x.phase = .head then
         modTile t (fun y => landOverlay n { y with qLoad := y.qLoad.drop 1 }) s
       else s
     | _ => s)

/-- An operation leaves the store queue for the outbound queue (07 R155); beyond 256 it traps. -/
def queueOut (t : Nat) (e : Effect) (s : State) : State :=
  if 256 ≤ (getTile s t).outbound.length then schedule (failStep t ⟨0, 0, 0, 0⟩ s)
  else modTile t (fun y => { y with outbound := y.outbound ++ [e], qStore := y.qStore.drop 1 }) s

/-- A store whose destination is the tile's own memory (07 R152). -/
def ownStore (t : Nat) (c : Ctx) (d : Desc) : Bool := d.space == 5 || (d.space == 4 && tabGet? d.inst c.turnout == some t)

/-- The elements of a descriptor written from a list, all of them poisoned where `all` holds. -/
def wrList (d : Desc) (l : List PV) (all : Bool) (a : Acc) : Acc :=
  wrTensor d (fun n b => (((l.getD n (0, false)).1, all || (l.getD n (0, false)).2), b)) a

/-- STORE_TRANSFER: a store into the tile's own memory lands; every other effect is queued for the commit. -/
def execStoreTransfer (t : Nat) (s : State) : Res :=
  onUnit (tileOk t)
    (match bodyCtx s t, frontOp (getTile s t).qStore with
     | some c, some (.xfer dst addr ev) =>
       if ownStore t c dst then
         let d : Desc := { dst with inst := t }
         if streamOk s c.run t true d then
           let r := rdPv 4 d.fmt addr (dCount d) (TAcc.start s t c)
           finishT { r.2 with a := wrList d r.1 false r.2.a } (modTile t fun y => { y with qStore := markFront y.qStore })
         else schedule (endRun c.run [stWindow] s)
       else queueOut t (.store dst addr ev) s
     | some _, some (.furrow p) => queueOut t (.furrow p) s
     | some c, some (.adapter n p) =>
       match (getRun? s c.run).bind fun x => x.adapters.find? fun a => a.entry == n with
       | some a => queueOut t (.furrow { p with srcA := some a.src }) s
       | none => schedule (failStep t ⟨0, 0, 0, 0⟩ s)
     | some _, some (.peer m r addr len k n) => queueOut t (.peer m r addr len k n) s
     | _, _ => s)

end Sys2Proof.Machine
end

