-- ==== Sys2Proof/Machine/TileProg.lean ====
section
/-! DEFINITION. Tile programs (07): long words and the scalar processor, tile events, completion of unit
operations, step heads, commits and traps. -/

namespace Sys2Proof.Machine

/-! ### The scalar processor (07 R149, R153; log entry 12) -/

/-- A general register; g0 reads zero. -/
def gReg (c : Ctx) (r : Nat) : W32 := if r % 32 = 0 then 0 else tabGetD 0 (r % 32) c.g
/-- A general register written; g0 discards. -/
def setReg (r : Nat) (v : W32) (c : Ctx) : Ctx := if r % 32 = 0 then c else { c with g := tabPut (r % 32) v c.g }

def intFn (f : IntFn) (a b : W32) : W32 :=
  match f with
  | .add => a + b
  | .sub => a - b
  | .mul => a * b
  | .and => a &&& b
  | .or => a ||| b
  | .xor => a ^^^ b
  | .shl => a <<< (b.toNat % 32)
  | .shr => a >>> (b.toNat % 32)
  | .sar => a.sshiftRight (b.toNat % 32)
  | .slt => if a.toInt < b.toInt then 1 else 0
  | .sltu => if a.toNat < b.toNat then 1 else 0
  | .eq => if a = b then 1 else 0

/-- FP32 compare (07 R149). -/
def fcmp (c : Cmp) (a b : W32) : Bool :=
  match c with
  | .lt => ltX (dec32 a.toNat) (dec32 b.toNat)
  | .le => leX (dec32 a.toNat) (dec32 b.toNat)
  | .eq => eqX (dec32 a.toNat) (dec32 b.toNat)
  | .ne => !eqX (dec32 a.toNat) (dec32 b.toNat)

/-- Signed compare of a branch on general registers, or on a V register that holds an INT32. -/
def icmp (c : Cmp) (a b : W32) : Bool :=
  match c with
  | .lt => decide (a.toInt < b.toInt)
  | .le => decide (a.toInt ≤ b.toInt)
  | .eq => a == b
  | .ne => a != b

/-- A V register; one that holds no defined value (07 R156) reads as a FREE VALUE (log entry 6). -/
def readV (t v : Nat) (s : State) : W32 × State :=
  match tabGet? (v % 8) (getTile s t).v with
  | some w => (w, s)
  | none => let r := freshVal 4 s; (BitVec.ofNat 32 r.1, r.2)

/-- The V register that a scalar operation reads. -/
def vOf : ScalarOp → Option Nat
  | .readV _ v => some v
  | .branchV _ _ v _ _ => some v
  | _ => none

/-- A reduction into a V register has not ended (07 R153). -/
def vPending (x : Tile) (v : Nat) : Bool :=
  x.qChannel.any fun e => match e.1 with
    | .reduce _ _ _ w _ _ => w % 8 == v % 8
    | _ => false

/-- The scalar data address of a load or store. -/
def sAddr : Ctx → ScalarOp → Option Nat
  | c, .load _ ra off => some (((gReg c ra).toNat + off) % 2 ^ 32)
  | c, .store _ ra off => some (((gReg c ra).toNat + off) % 2 ^ 32)
  | _, _ => none

def setCtx (t : Nat) (c : Ctx) (s : State) : State := modTile t (fun x => { x with ctx := some c }) s

/-- What one scalar instruction does to the registers and the program counter, `c` standing at the next word
already; memory and V registers are read by the caller as `m`. -/
def scalarCtx (o : ScalarOp) (m : W32) (c : Ctx) : Ctx :=
  match o with
  | .int f rd ra rb => setReg rd (intFn f (gReg c ra) (gReg c rb)) c
  | .imm rd v => setReg rd v c
  | .fadd rd ra rb => setReg rd (BitVec.ofNat 32 (fadd (gReg c ra).toNat (gReg c rb).toNat)) c
  | .fmul rd ra rb => setReg rd (BitVec.ofNat 32 (fmul (gReg c ra).toNat (gReg c rb).toNat)) c
  | .fcmp k rd ra rb => setReg rd (if fcmp k (gReg c ra) (gReg c rb) then 1 else 0) c
  | .load rd _ _ => setReg rd m c
  | .store _ _ _ => c
  | .branch k ra rb target => if icmp k (gReg c ra) (gReg c rb) then { c with pc := target } else c
  | .jump target => { c with pc := target }
  | .readV rd _ => setReg rd m c
  | .branchV k i _ rb target => if (if i then icmp k m (gReg c rb) else fcmp k m (gReg c rb)) then { c with pc := target } else c
  | .undefinedOp => c

/-- One scalar instruction on tile `t`. -/
def runScalar (t : Nat) (c : Ctx) (o : ScalarOp) (s : State) : TAcc :=
  let x := TAcc.start s t c
  match o with
  | .load _ _ _ =>
    let r := tRead 5 ((sAddr c o).getD 0) 4 x
    { r.2 with a := { r.2.a with s := setCtx t (scalarCtx o (BitVec.ofNat 32 (leNat r.1)) c) r.2.a.s } }
  | .store rs _ _ =>
    let r := tWrite 5 ((sAddr c o).getD 0) (toLE 4 (gReg c rs).toNat) false x
    { r with a := { r.a with s := setCtx t c r.a.s } }
  | _ =>
    let v := match vOf o with
      | some k => readV t k s
      | none => ((0 : W32), s)
    { x with a := { x.a with s := setCtx t (scalarCtx o v.1 c) v.2 } }

/-! ### Tile events (07 R152) -/

def evCount (x : Tile) (ev : Nat) : Nat := tabGetD 0 (ev % 16) x.ev
/-- One post; the count stays within 0 to 255. -/
def postEv (ev : Nat) (x : Tile) : Tile := { x with ev := tabPut (ev % 16) (min 255 (evCount x ev + 1)) x.ev }
def postOpt (ev : Option Nat) (x : Tile) : Tile := match ev with
  | some e => postEv e x
  | none => x
/-- A wait takes its amount. -/
def takeEv (ev n : Nat) (x : Tile) : Tile := { x with ev := tabPut (ev % 16) (evCount x ev - n) x.ev }

/-- EVENT_WAIT: a sync-slot wait releases and subtracts its amount, or its word waits. -/
def execEventWait (t ev n : Nat) (s : State) : Res :=
  onUnit (tileOk t && decide (ev < 16))
    (if (bodyCtx s t).isSome ∧ (getTile s t).committing = false then
       if n ≤ evCount (getTile s t) ev then modTile t (fun x => takeEv ev n { x with waiting := none }) s
       else modTile t (fun x => { x with waiting := some ⟨none, none, none, none, none, none, some (.evWait ev n)⟩ }) s
     else s)

/-! ### LONG_WORD_ISSUE (07 R150, R151, R154) -/

/-- Every unit queue that the word uses has room. -/
def queuesOk (x : Tile) (w : LongWord) : Bool :=
  (w.main.isNone || decide (x.qMain.length < 4)) && (w.lateral.isNone || decide (x.qLateral.length < 4)) &&
  (w.channel.isNone || decide (x.qChannel.length < 8)) && (w.load.isNone || decide (x.qLoad.length < 16)) &&
  (w.store.isNone || decide (x.qStore.length < 16))

def isCommit : Option SyncOp → Bool
  | some (.commit _) => true
  | _ => false

def isOverlay : Option LoadOp → Bool
  | some (.overlay _) => true
  | _ => false

/-- The word reads a V register whose reduction has not ended (07 R153). -/
def reduceWaits (x : Tile) (w : LongWord) : Bool := ((w.scalar.bind vOf).map (vPending x)).getD false

/-- The word waits for a tile event (07 R152). -/
def eventWaits (x : Tile) (w : LongWord) : Bool :=
  match w.sync with
  | some (.evWait ev n) => decide (evCount x ev < n)
  | _ => false

/-- The word waits (07 R151). -/
def wordWaits (x : Tile) (w : LongWord) : Bool := !queuesOk x w || reduceWaits x w || eventWaits x w

/-! #### Undefined slot operations (07 R161; log entry 26) -/

/-- The format combinations of the main array (02 R23). -/
def modeFmts (m : Mode) (act w : Nat) : Bool :=
  match m with
  | .i8 => act == 1 && w == 1
  | .f8 => (act == 2 || act == 3) && (w == 2 || w == 3)
  | .i4 => (act == 1 || act == 8) && w == 8
  | .b16 => act == 4 && w == 4

/-- The block of a pass is a block of its descriptor. -/
def blockIn (d : Desc) (b : List Nat) : Bool :=
  decide (b.getD 0 0 < ceilDiv (dSize d 0) (kTile d.fmt).2.1) && decide (b.getD 1 0 < ceilDiv (dSize d 1) (kTile d.fmt).1) &&
  (outerDims d).all fun k => decide (b.getD k 0 < dSize d k)

/-- A pass that the operator set offers: 1 to a bank's capacity of rows (02 R24), formats of 02 R23, weights through a
K-tiled descriptor (06 R138, R142). -/
def passDefined (p : PassOp) : Bool :=
  decide (1 ≤ p.rows) && decide (p.rows ≤ modeRows p.mode) && modeFmts p.mode p.actFmt (wFmt p) && p.weights.layout == 2 &&
  layoutOk p.weights && blockIn p.weights p.block

/-- A drain whose output format 02 R45 lists, whose destination has the drained elements in the order that stage 5
gives, in a layout of 06. -/
def drainDefined (d : DrainOp) : Bool :=
  (match d.outFmt with
   | none => d.dst.fmt == 5 || d.dst.fmt == 6
   | some f => [1, 2, 3, 4, 5, 6, 8].contains f && d.dst.fmt == f) &&
  decide (d.dims.length ≤ 6) && d.dims.prod == d.rows * d.cols && d.perm.length == d.dims.length &&
  ((List.range d.dims.length).all d.perm.contains) && usedSizes d.dst == d.perm.map (fun j => d.dims.getD j 0) && layoutOk d.dst

def mainDefined : MainOp → Bool
  | .pass p => passDefined p
  | .drain d => drainDefined d
  | .transpose d _ => (transposeCheck { d with space := 4 }).isNone

/-- A counter signal's amount is 1 to 65,535 (09 R206); a wait's amount fits a counter, a take's is not 0 (R208). -/
def signalAmountOk (n : Nat) : Bool := decide (1 ≤ n ∧ n < 2 ^ 16)
def waitAmountOk (take : Bool) (n : Nat) : Bool := decide (n < 2 ^ 64) && (!take || decide (1 ≤ n))

def storeDefined : StoreOp → Bool
  | .peer _ _ _ _ _ n => decide (n < 2 ^ 16)
  | .furrow p => decide (p.signalN < 2 ^ 16)
  | .adapter _ p => decide (p.signalN < 2 ^ 16)
  | .xfer _ _ _ => true

/-- The word traps (07 R161): an undefined slot operation, or a scalar access beyond scalar data memory. An
overlay beside no commit (R159), a counter wait in a body (R154) and a 257th outbound effect (R155) are
undefined operations. -/
def wordTraps (x : Tile) (c : Ctx) (w : LongWord) : Bool :=
  w.scalar == some .undefinedOp || (((w.scalar.bind (sAddr c)).map fun a => decide (2 ^ 18 < a + 4)).getD false) ||
  (isOverlay w.load && !isCommit w.sync) || !((w.main.map mainDefined).getD true) || !((w.store.map storeDefined).getD true) ||
  (match w.sync with
   | some (.ctrWait _ _ _) => true
   | some (.ctrSignal _ n) => decide (256 ≤ x.outbound.length) || !signalAmountOk n
   | _ => false)

/-- The slots of a word that issue into queues, and its sync operation. -/
def enqueue (w : LongWord) (x : Tile) : Tile :=
  let y := { x with qMain := x.qMain ++ (w.main.map fun o => (o, false)).toList, qLateral := x.qLateral ++ (w.lateral.map fun o => (o, false)).toList,
                    qChannel := x.qChannel ++ (w.channel.map fun o => (o, false)).toList, qLoad := x.qLoad ++ (w.load.map fun o => (o, false)).toList,
                    qStore := x.qStore ++ (w.store.map fun o => (o, false)).toList, wordIssued := x.wordIssued + 1, waiting := none }
  match w.sync with
  | some (.evWait ev n) => takeEv ev n y
  | some (.evPost ev) => postEv ev y
  | some (.ctrSignal slot n) => { y with outbound := y.outbound ++ [.signal slot n] }
  | some (.commit last) => { y with committing := true, lastStep := last }
  | _ => y

/-- One word issues in a body, or waits (07 R151). -/
def issueWord (t : Nat) (c : Ctx) (w : LongWord) (parityAt : Option Nat) (s : State) : State :=
  let x := getTile s t
  if x.committing then s
  else if wordWaits x w then modTile t (fun y => { y with waiting := some w }) s
  else
    let scalarLoad := match w.scalar with
      | some (.load _ _ _) => true
      | _ => false
    match (if scalarLoad && (parityAt.map (parityStored s t)).getD false then none else parityAt) with
    | some p => schedule (failStep t ⟨2, p % 2 ^ 32, p, 0⟩ s)
    | none =>
      if wordTraps x c w then schedule (failStep t ⟨0, 0, 0, 0⟩ s)
      else
        let s1 := match parityAt with
          | some p => poisonBlock 5 t (p / 64 * 64) (runTenant s c.run) s
          | none => s
        let c1 := { c with pc := c.pc + 1 }
        let r := match w.scalar with
          | some o => runScalar t c1 o s1
          | none => { TAcc.start s1 t c with a := Acc.start 1 (setCtx t c1 s1) }
        finishT r (modTile t (enqueue w))

/-- A context with its run's placement in the turnout table, which the headgate writes at a boundary (07 R160; 12
R300). -/
def turned (s : State) (c : Ctx) : Ctx := { c with turnout := ((getRun? s c.run).map (·.place)).getD c.turnout }

/-- The body of a step begins: its boundary state is held for a recomputation (07 R156, R157). -/
def beginBody (t : Nat) (c : Ctx) (s : State) : State :=
  modTile t (fun y =>
    { y with phase := .body, ctx := some c, snapG := c.g, snapPc := c.pc, snapGroups := (y.groupMain, y.groupIn, y.groupOut), stepAclk := 0,
             snapBanks := ((c.bankA.fp32, c.bankA.drained), (c.bankB.fp32, c.bankB.drained)) }) s

/-- A step head's wait on counter slot `slot` (07 R154; 09 R212 to R214): an internal slot's WAIT_GE counts
from its run base. -/
def headWaitOn (s : State) (c : Ctx) (take : Bool) (slot amount : Nat) : Option (Nat × Bool × Nat) :=
  match getRun? s c.run with
  | none => none
  | some x =>
    let b := bundleOfRun s x
    if slot < b.counters then
      (physCtr s x.tenant (x.ctrBase + slot)).map fun k =>
        (k, take, if take = false ∧ b.external ≤ slot then (tabGetD 0 slot x.bases).toNat + amount else amount)
    else none

/-- The logical tile on `t` gives way to the next one that shares the tile (12 R299). -/
def nextShared (t : Nat) (c : Ctx) (s : State) : State :=
  match (getRun? s c.run).bind fun x => nextOnTile x t c.logical with
  | some i => loadCtx c.run i t (countShared (runTenant s c.run) (saveFrame t (withdraw (.tile t) s)))
  | none => s

/-- A step head's wait arrives (09 R207, R208, R212); one more occurrence while it is registered is the switch
of a shared tile; an amount that no counter wait has is an undefined operation; a tile that is saving records the wait
alone. -/
def headWait (t : Nat) (take : Bool) (slot amount : Nat) (s : State) : State :=
  let x := getTile s t
  match x.ctx with
  | none => s
  | some c =>
    if !x.qLoad.isEmpty then s
    else
      match x.phase with
      | .head =>
        if c.headWait.isSome then nextShared t c s
        else if !waitAmountOk take amount then schedule (failStep t ⟨0, 0, 0, 0⟩ (beginBody t (turned s c) s))
        else
          match headWaitOn s c take slot amount with
          | some w => schedule (registerHead t c w s)
          | none => schedule (endRun c.run [stWindow] s)
      | .saving =>
        if c.headWait.isSome then s
        else
          match headWaitOn s c take slot amount with
          | some w => setCtx t { c with headWait := some w } s
          | none => s
      | _ => s

/-- Some unit slot of the word holds an operation. -/
def unitWord (w : LongWord) : Bool := w.main.isSome || w.lateral.isSome || w.channel.isSome || w.load.isSome || w.store.isSome

/-- A word of a step head whose counter wait has been released issues (07 R150, R154): its other slots act, and a
unit operation, a parity error or a trap begins the body. -/
def issueHead (t : Nat) (c : Ctx) (w : LongWord) (parityAt : Option Nat) (s : State) : State :=
  let d := { turned s c with headIssued := c.headIssued + 1 }
  let v : LongWord := { w with sync := none }
  issueWord t d v parityAt (if unitWord w || parityAt.isSome || wordTraps (getTile s t) d v then beginBody t d s else s)

/-- LONG_WORD_ISSUE. The first word without a counter wait begins the body; in Idle it is held as a wake source (17
R397, R402). `parityAt`: a parity error in instruction memory, or in the scalar word that the slot loads (07 R149;
15 R354 to R356). -/
def execLongWordIssue (t : Nat) (w : LongWord) (parityAt : Option Nat) (s : State) : Res :=
  let x := getTile s t
  onUnit (tileOk t)
    (match x.ctx with
     | none => s
     | some c =>
       let held := !x.qLoad.isEmpty || ((getRun? s c.run).map fun r => r.cancelled || r.state != .running).getD true
       let asleep := powerEff s == .idle || powerEff s == .hold
       match x.phase with
       | .body => issueWord t c w parityAt s
       | .head =>
         match w.sync with
         | some (.ctrWait take slot amount) =>
           if c.headDone ≤ c.headIssued then headWait t take slot amount s
           else if held then s
           else if asleep then wakeSource 8 true s
           else issueHead t c w parityAt s
         | _ =>
           if c.headWait.isSome || held then s
           else if asleep then wakeSource 8 true s
           else issueWord t (turned s c) w parityAt (beginBody t (turned s c) s)
       | _ => s)

/-- STEP_HEAD_WAIT. -/
def execStepHeadWait (t : Nat) (take : Bool) (slot amount : Nat) (s : State) : Res :=
  onUnit (tileOk t) (headWait t take slot amount s)

/-! ### UNIT_OP_COMPLETE (07 R150, R152) -/

def mainEvent : MainOp → Option Nat
  | .pass p => p.event
  | .drain d => d.event
  | .transpose _ e => e

def lateralEvent : LateralOp → Option Nat
  | .load _ _ _ e => e
  | .extra _ e => e

def chanEvent : ChanOp → Option Nat
  | .vec _ _ _ _ _ _ _ _ _ e => e
  | .reduce _ _ _ _ _ e => e
  | .softmax _ _ _ _ _ _ e => e
  | .rms _ _ _ _ _ _ _ _ e => e
  | .layer _ _ _ _ _ _ _ _ _ e => e
  | .quant q => q.event
  | .wquant q => q.event

/-- The last checksum verdict of the last pass is in (07 R150). -/
def verdictsIn (x : Tile) : Bool := (x.trace.map fun tr => decide (tr.op.rows ≤ tr.verdicts)).getD true

def isPass : MainOp → Bool
  | .pass _ => true
  | _ => false

/-- The first operation of the main slot's queue that has ended (a pass with its last verdict), and the queue without
it. -/
def mainEnded (verdicts : Bool) : List (MainOp × Bool) → Option (MainOp × List (MainOp × Bool))
  | [] => none
  | e :: t =>
    if e.2 && (!isPass e.1 || verdicts) then some (e.1, t) else (mainEnded verdicts t).map fun r => (r.1, e :: r.2)

/-- An operation of a unit has ended: it leaves the queue and posts its event. -/
def completeOp (u : TileUnit) (x : Tile) : Tile :=
  match u with
  | .main =>
    match mainEnded (verdictsIn x) x.qMain with
    | some (o, q) => postOpt (mainEvent o) { x with qMain := q, passCount := if isPass o then x.passCount + 1 else x.passCount }
    | none => x
  | .lateral =>
    match x.qLateral with
    | (.extra k e, true) :: t => postOpt (lateralEvent (.extra k e)) { x with qLateral := t, passCount := x.passCount + 1 }
    | (o, true) :: t => postOpt (lateralEvent o) { x with qLateral := t }
    | _ => x
  | .channel =>
    match x.qChannel with
    | (o, true) :: t => postOpt (chanEvent o) { x with qChannel := t }
    | _ => x
  | .load =>
    match x.qLoad with
    | (.xfer _ _ _ e, true) :: t => postOpt e { x with qLoad := t }
    | _ => x
  | .store =>
    match x.qStore with
    | (.xfer _ _ e, true) :: t => postOpt e { x with qStore := t }
    | _ => x

/-- Bank conflicts that accesses of the tile met: time, and a count (02 R38, R48). -/
def addConflicts (n : Nat) (x : Tile) : Tile := { x with conflict := x.conflict + BitVec.ofNat 64 n }

/-- The failure of a step attempt that a detection is, with CHECK and DETAIL as 15 R372 codes them. -/
def detectedFailure : Detection → Failure
  | .parity p => ⟨2, p % 2 ^ 32, p, 0⟩
  | .residue => ⟨5, 0, 0, 0⟩
  | .sequencer => ⟨8, 0, 0, 0⟩

/-- A scratchpad word whose parity error lies in stored data: its block is poisoned, and the step, which loaded it,
runs on (15 R355; 10 R235). -/
def storedParity (t off tenant : Nat) (s : State) : State :=
  modTile t (fun x => { x with poisoned := true }) (poisonBlock 4 t (off / 64 * 64) tenant s)

/-- UNIT_OP_COMPLETE; `conflicts` are the bank conflicts met since the last count. What a check `found` in the unit's
work fails the attempt instead (15 R346, R361), unless it is a parity error met again in stored data (15 R355). -/
def execUnitOpComplete (t : Nat) (u : TileUnit) (s : State) (conflicts : Nat := 0) (found : Option Detection := none) : Res :=
  let done := fun s => modTile t (fun x => addConflicts conflicts (completeOp u x)) s
  onUnit (tileOk t)
    (match bodyCtx s t, found with
     | some _, none => done s
     | some c, some (.parity p) =>
       if parityStored s t p then done (storedParity t p (runTenant s c.run) s)
       else schedule (failStep t (detectedFailure (.parity p)) s)
     | some _, some d => schedule (failStep t (detectedFailure d) s)
     | none, _ => s)

/-! ### Traps and the step-time limit (07 R158, R161) -/

/-- The longest step-time count seen. -/
def stepMaxed (x : Tile) : Tile := { x with stepMax := if x.stepMax.toNat < x.stepAclk then BitVec.ofNat 32 x.stepAclk else x.stepMax }

/-- The step-time limit in ACLK: 150 µs. -/
def stepLimit : Nat := 141000

/-- The step-time counter of a body stands at its limit: the tile ends the step, a detected fault (07 R158). -/
def stepExpired (t : Nat) (s : State) : State :=
  if (getTile s t).phase = .body then
    schedule (failStep t ⟨9, 0, 0, 0⟩ (modTile t (fun x => stepMaxed { x with stepAclk := stepLimit }) s))
  else s

/-- STEP_TIME_LIMIT: the counter reaches 141,000. -/
def execStepTimeLimit (t : Nat) (s : State) : Res := onUnit (tileOk t) (stepExpired t s)

/-- TILE_TRAP: an undefined operation, an access beyond scalar data memory or a fetch beyond the code. -/
def execTileTrap (t : Nat) (s : State) : Res := onUnit (tileOk t) (schedule (failStep t ⟨0, 0, 0, 0⟩ s))

/-! ### COMMIT (07 R154 to R156) -/

/-- Descriptors of a furrow operation, with whether it writes them. -/
def fopDescs (p : FopParams) : List (Desc × Bool) :=
  (p.dst.toList ++ p.result.toList).map (fun d => (d, true)) ++ (p.srcA.toList ++ p.srcB.toList ++ p.index.toList ++ p.segment.toList).map fun d => (d, false)

/-- A furrow operation of a tile with its space-4 operands turned (07 R160) and those that it uses alone (04 R77). -/
def turnFop (t : Nat) (c : Ctx) (p : FopParams) : FopParams :=
  let f (d : Option Desc) : Option Desc := d.map fun x => (turnDesc t c x).getD x
  usedOperands { p with dst := f p.dst, srcA := f p.srcA, srcB := f p.srcB, index := f p.index, segment := f p.segment, result := f p.result }

/-- The queue a run's command came from. -/
def runSq (s : State) (r : Nat) : Nat := ((getCmd? s r).map (·.sq)).getD 0

/-- One outbound effect is released (07 R155, R161): false when the run ends at it. `bad`: the step loaded poison, so
every outbound write is marked; a poisoned source of the released transfer itself marks its own (10 R235). -/
def release (t : Nat) (c : Ctx) (bad : Bool) (e : Effect) (s : State) : Bool × State :=
  let tenant := runTenant s c.run
  let stop (st : Nat) : Bool × State := (false, endRun c.run [st] s)
  match e with
  | .store dst addr _ =>
    match turnDesc t c dst with
    | none => stop stWindow
    | some d =>
      let r := rdPv 4 d.fmt addr (dCount d) (TAcc.start s t c)
      if r.2.bad || !streamOk s c.run t true d || d.space == 5 then stop stWindow
      else
        let a := wrList d r.1 bad r.2.a
        if a.outs.contains stSharedPoisoned then (false, endRun c.run [stSharedPoisoned] a.s)
        else (true, noteRun c.run (addOutcomes (if r.2.poison then [stDataPoisoned] else []) a.outs) a.s)
  | .furrow p =>
    let q := turnFop t c p
    if !((fopDescs q).all fun e => streamOk s c.run t e.2 e.1) then stop stWindow
    else
      match fopCheck s q with
      | some st => stop st
      | none =>
        let k := (getRun? s c.run).map fun x => { q with counter := q.counter.map fun n => x.ctrBase + n }
        (true, startFop (newFop (k.getD q) tenant none (some c.run) bad s) s)
  | .peer m remote addr len k n =>
    let r := rdPv 4 9 addr len (TAcc.start s t c)
    if r.2.bad then stop stWindow
    else
      let src : Desc := ⟨4, t, 1, 9, addr, [len], [], false, 0⟩
      (true, kick (modDpt (fun d => { d with remotes := d.remotes ++
                                             [⟨c.run, true, m, 16 * tenant + runSq s c.run, tenant, src, r.1.map (fun v => (v.1, v.2 || bad)), remote, k, n, false, false, none, false⟩] })
                                     (noteRun c.run (if r.2.poison then [stDataPoisoned] else []) r.2.a.s)))
  | .signal slot n =>
    (true, match getRun? s c.run with
      | some x => signalCtr tenant (x.ctrBase + slot) n s
      | none => s)

/-- The effects in queue order, until one ends the run. -/
def releaseAll (t : Nat) (c : Ctx) (bad : Bool) : List Effect → State → State
  | [], s => s
  | e :: l, s =>
    let r := release t c bad e s
    if r.1 ∧ ((getTile r.2 t).ctx.map (·.run)) = some c.run then releaseAll t c bad l r.2 else r.2

/-- Statistics records and conversion counts of the step (03 R70). -/
def landStats (t : Nat) (s : State) : State :=
  let x := getTile s t
  let s1 := (x.statsPend.foldl (fun a e => wrBytes 4 t e.1 e.2 false a) (Acc.start 1 s)).s
  let n (i : Nat) : W64 := BitVec.ofNat 64 (x.qPend.getD i 0)
  modTile t (fun y => { y with qConverted := y.qConverted + n 0, qClipped := y.qClipped + n 1, qFlushed := y.qFlushed + n 2,
                               qNonfinite := y.qNonfinite + n 3, qZeroRow := y.qZeroRow + n 4, qFallback := y.qFallback + n 5,
                               qZeroCol := y.qZeroCol + n 6 }) s1

/-- What a commit records of the step's history (15 R361 to R365, R372; 10 R235). -/
def stepHistory (t : Nat) (c : Ctx) (poisoned : Bool) (s : State) : State :=
  let f := c.lastFail.getD ⟨0, 0, 0, 0⟩
  let s2 := noteRun c.run (if poisoned then [stDataPoisoned] else []) s
  let s3 := whenS (decide (0 < c.attempt) && (c.moved == 0 || c.moved == 4) && f.check != 0)
    (recordFault 1 f.check (.tile t) (runTenant s c.run) f.detail (runDigest s c.run)) s2
  whenS (c.moved == 1) (faultEvent 2 f.check (.tile c.origin) (runTenant s c.run) f.detail (runDigest s c.run)) s3

/-- The boundary after a commit (07 R156): events, V registers and queues empty, an overlay apart. -/
def boundary (c : Ctx) (x : Tile) : Tile :=
  { x with phase := .head, ev := [], v := [], qMain := [], qLateral := [], qChannel := [], qStore := [], outbound := [], committing := false,
           lats := [], trace := none, active := [], shadow := [], statsPend := [], qPend := [], poisoned := false,
           stepCount := x.stepCount + 1, stepMax := (stepMaxed x).stepMax, stepAclk := 0, waiting := none,
           ctx := some { c with headDone := 0, headIssued := 0, headWait := none, attempt := 0, moved := 0, lastFail := none } }

/-- A logical tile has made its last commit: its tile is free, and the run is over when every one has. -/
def finishLogical (t : Nat) (c : Ctx) (s : State) : State :=
  let s1 := modRun c.run (fun x => { x with finished := setIns c.logical x.finished }) (clearTile t s)
  match getRun? s1 c.run with
  | some x =>
    if (bundleOfRun s1 x).tiles ≤ x.finished.length then endRun c.run [] s1
    else whenS (nextOnTile x t c.logical).isSome (countShared x.tenant) (checkPaused c.run s1)
  | none => s1

/-- What comes at the boundary: the pause of the run, a tile that waits to be tested, the logical tile's own
tile after a test or a remap, or a logical tile that shares this one. -/
def atBoundary (t : Nat) (c : Ctx) (s : State) : State :=
  match getRun? s c.run with
  | none => s
  | some x =>
    if x.state = .pausing then modTile t (fun y => { y with phase := .saving }) s
    else
      let want := tabGetD t c.logical x.place
      if want ≠ t then saveFrame t s
      else
        match c.home with
        | some h => if h ≠ t ∧ tileFree s h then moveLogical t h (fun d => { d with home := none }) s else nextShared t c (beginTest t s)
        | none => nextShared t c (beginTest t s)

/-- A cancelled run's tile stops at its boundary (08 R191). -/
def stopCancelled (t : Nat) (c : Ctx) (s : State) : State :=
  let s1 := clearTile t s
  if runInBody s1 c.run then s1 else endRun c.run [stCancelled] s1

/-- Everything the step queued has completed, an overlay apart. -/
def allComplete (x : Tile) : Bool :=
  x.qMain.isEmpty && x.qLateral.isEmpty && x.qChannel.isEmpty && x.qStore.isEmpty && (x.qLoad.all fun e => isOverlay (some e.1))

/-- Blocks of stack memory that a tile's queued stores write. -/
def storePhys (s : State) (t : Nat) (c : Ctx) : List Nat :=
  (getTile s t).outbound.flatMap fun e => match e with
    | .store dst _ _ => ((turnDesc t c dst).map (descPhys s)).getD []
    | _ => []

/-- COMMIT: the effects are released in order, once no block of a store is held (04 R95); then the boundary.
`conflicts` as for UNIT_OP_COMPLETE. -/
def execCommit (t : Nat) (s : State) (conflicts : Nat := 0) : Res :=
  let x := getTile s t
  onUnit (tileOk t)
    (match bodyCtx s t with
     | none => s
     | some c =>
       if !x.committing || !allComplete x then s
       else if ((getRun? s c.run).map (·.cancelled)).getD true then schedule (fillTiles (stopCancelled t c s))
       else viaGap (commitMover t) (storePhys s t c) (fun s =>
         let s1 := releaseAll t c x.poisoned x.outbound (modTile t (addConflicts conflicts) s)
         match (getTile s1 t).ctx with
         | none => schedule (fillTiles s1)
         | some d =>
           if d.run ≠ c.run then schedule (fillTiles s1)
           else
             let s2 := modTile t (boundary (turned s1 d)) (landStats t s1)
             let s3 := stepHistory t c x.poisoned s2
             schedule (fillTiles (if x.lastStep then finishLogical t c s3 else atBoundary t ((getTile s3 t).ctx.getD d) s3))) s)

end Sys2Proof.Machine
end

