-- ==== Sys2Proof/Machine/StackRows.lean ====
section
/-! DEFINITION. What the stack controllers do of themselves and for other agents (10 R225 to R242): reads
and writes of code words, the merge window, write-backs, the bucket, the patrol; and the host's window BAR4
(14 R339 to R341). -/

namespace Sys2Proof.Machine

/-! ### The merge window and write-backs -/

/-- MERGE_WINDOW_EXPIRY of a block's entry (10 R228). -/
def execMergeWindowExpiry (k blk : Nat) (s : State) : Res :=
  onUnit (stackOk k && blkOk k blk) (if blkReady s blk then flushBlk blk s else s)

/-- CORRECTION_WRITE_BACK (10 R232): the corrected word, or the poison syndrome over the data (R226). -/
def execCorrectionWriteBack (k blk : Nat) (s : State) : Res :=
  let w := findWord s blk
  onUnit (stackOk k && blkOk k blk)
    (if blkReady s blk ∧ (getStk s k).writeBacks.contains blk = true then storeBlk blk w.data (w.kind == 3 || w.kind == 2) 4 s else s)

/-- UE_POISON_REWRITE (10 R234): the poison syndrome over the data as read. -/
def execUePoisonRewrite (k blk : Nat) (s : State) : Res :=
  onUnit (stackOk k && blkOk k blk)
    (if blkReady s blk ∧ (getStk s k).uePending.contains blk = true then storeBlk blk (findWord s blk).data true 4 s else s)

/-- CE_BUCKET_LEAK (10 R233); it stops in Hold (R238). -/
def execCeBucketLeak (k : Nat) (s : State) : Res :=
  onUnit (stackOk k)
    (if s.pm.state = .hold ∨ (getStk s k).ceLevel = 0 then s
     else modStk k (fun x => { x with ceLevel := x.ceLevel - 1, ceFired := x.ceFired && decide (x.ceThreshold.toNat / 2 < (x.ceLevel - 1).toNat) }) s)

/-! ### The patrol (10 R237, R238) -/

/-- Rows of 2 KiB in a unit, and in a stack. -/
def unitRows : Nat := 65536
def stackRows : Nat := 67108864

/-- The next row the patrol visits, and whether a pass ended before it. -/
def patrolNext (units : List Nat) (pos : Nat) : Option (Nat × Bool) :=
  if units.contains (pos / unitRows) then some (pos, false)
  else
    match (sortKey id units).find? fun u => decide (pos / unitRows < u) with
    | some u => some (u * unitRows, false)
    | none => (sortKey id units).head?.map fun u => (u * unitRows, true)

/-- The blocks of a row. -/
def rowBlks (k row : Nat) : List Nat := (List.range 32).map fun i => k * 2 ^ 31 + row * 32 + i

/-- PATROL_ROW_VISIT: every word of the row is decoded and handled like a demand read, after every access that waits
for its pair. -/
def execPatrolRowVisit (k : Nat) (s : State) : Res :=
  onUnit (stackOk k)
    (match patrolNext (unitsUsed s k) (getStk s k).patrolRow with
     | none => s
     | some (row, wrapped) =>
       if (getStk s k).patrolPause || !((rowBlks k row).all (blkReady s)) || behindPair s (rowBlks k row) then s
       else
         let ended := wrapped || decide (row + 1 = stackRows)
         modStk k (fun x => { x with patrolRow := (row + 1) % stackRows, patrolPasses := if ended then x.patrolPasses + 1 else x.patrolPasses })
           (forEach (fun b u => (readStack b u).2) (rowBlks k row) s))

/-! ### Accesses -/

/-- STACK_READ: the word at stack-local offset `off` is decoded for a reader; `flips` are symbol errors that
have arisen in it (10 R226, R228). -/
def execStackRead (k off : Nat) (flips : BitVec 576) (s : State) : Res := onUnit (stackOk k) (arrive (.read k off flips) s)

/-- STACK_WRITE (10 R227; 04 R99). `source` as SC_FLIP_STATUS codes it. -/
def execStackWrite (k off : Nat) (data : List Byte) (mask : W64) (source : Nat) (s : State) : Res :=
  onUnit (stackOk k) (arrive (.write k off data mask source) s)

/-- BAR4_READ. In Hold it is a wake source and is served after the wake (14 R341). -/
def execBar4Read (fn off len : Nat) (s : State) : Res :=
  onUnit (fnOk fn) (arrive (.winRead fn off (bar4Start (getFn s fn) + off) len) s)

/-- BAR4_WRITE. -/
def execBar4Write (fn off : Nat) (bytes : List (Option Byte)) (s : State) : Res :=
  onUnit (fnOk fn) (arrive (.winWrite fn (bar4Start (getFn s fn) + off) bytes) s)

/-- SLICE_END (04 R91, R95, R97): the gap serves what waited; the operation is over when its last slice ends (R78). -/
def execSliceEnd (k d p : Nat) (s : State) : Res :=
  onUnit (stackOk k && dieOk d && pairOk p)
    (match (getStk s k).slices.find? fun x => x.d == d && x.p == p with
     | some x => settleFop x.id (closeSlice k d p s)
     | none => s)

end Sys2Proof.Machine
end

