-- ==== Sys2Proof/Machine/Clock.lean ====
section
/-! DEFINITION. One ACLK tick, which step takes on an empty queue (log entry 14): DEV_TIME (01 R10), the
residency counter of the present power state (17 R406), the waits that count ACLK. -/

namespace Sys2Proof.Machine

/-- The residency counter of the present state advances (17 R406). -/
def tickResidency (p : PowerSt) : PowerSt :=
  match p.state with
  | .run => { p with resRun := p.resRun + 1 }
  | .trim => { p with resTrim := p.resTrim + 1 }
  | .idle => { p with resIdle := p.resIdle + 1 }
  | .hold => { p with resHold := p.resHold + 1 }

/-- HG_DPT_CREDIT_STALL: a queue to some peer waits for credit (13 R329). -/
def tickCredit (d : Dpt) : Dpt :=
  if d.peers.any fun p => !p.2.txq.isEmpty && p.2.credits == 0 then { d with creditStall := d.creditStall + 1 } else d

/-- A counter that rises by one when a condition holds. -/
def risesIf (c : Bool) (n : W64) : W64 := if c then n + 1 else n

/-- TL_STEP_WAIT in a step head; in a body the step-time count, TL_WAIT_ACC, and the counters of what its waiting long
word waits for, a commit included (02 R33, R48; 07 R151, R158, R169). -/
def tickTile (x : Tile) : Tile :=
  match x.phase with
  | .head => { x with stepWait := x.stepWait + 1 }
  | .body => { x with stepAclk := x.stepAclk + 1, waitAcc := risesIf (bankWaits x) x.waitAcc,
                      stallQueue := risesIf ((x.waiting.map fun w => !queuesOk x w).getD false) x.stallQueue,
                      stallReduce := risesIf ((x.waiting.map (reduceWaits x)).getD false) x.stallReduce,
                      stallEvent := risesIf (x.committing || (x.waiting.map (eventWaits x)).getD false) x.stallEvent }
  | _ => x

/-- Tiles whose step-time counter has reached its limit (07 R158). -/
def expired (s : State) : List Nat := tabKeys (fun x => x.phase == .body && decide (stepLimit ≤ x.stepAclk)) s.tiles

/-- One ACLK: DEV_TIME counts from the lock of the root PLL (01 R10), the residency counters from the release of
PERST_N (17 R406); tiles count where their clock runs (17 R397), and a step
at its time limit ends; an access that nothing holds any longer is served. -/
def tick (s : State) : State :=
  let s1 : State := { s with devTime := if s.clockOn then s.devTime + 1 else s.devTime }
  let s2 := modPm (fun p => if s.board.perstN then tickResidency p else p) (modDpt tickCredit s1)
  let s3 : State := if s.pm.state = .run ∨ s.pm.state = .trim then { s2 with tiles := tabMap (fun _ x => tickTile x) s2.tiles } else s2
  serveHeld (forEach stepExpired (expired s3) s3)

end Sys2Proof.Machine
end

