-- ==== Sys2Proof/Machine/Links.lean ====
section
/-! DEFINITION. Links in service: stack links (10 R242), the flume's die edges (15 R357), the CXL port (10
R245). -/

namespace Sys2Proof.Machine

/-- LINK_FRAME_RETRY: one retry of a frame; after eight failed ones the link is retrained in place (10 R242). -/
def execLinkFrameRetry (k : Nat) (ok : Bool) (s : State) : Res :=
  let x := getStk s k
  onUnit (stackOk k)
    (if !stackUsable s k || x.retraining then s
     else
       modStk k (fun y =>
         let n := if ok then 0 else y.linkTries + 1
         if 8 ≤ n then { y with linkRetry := y.linkRetry + 1, linkTries := 0, linkRetrain := y.linkRetrain + 1, retraining := true }
         else { y with linkRetry := y.linkRetry + 1, linkTries := n }) s)

def edgeKey (a b : Nat) : Nat × Nat := (min a b, max a b)
def edgeTry (s : State) (k : Nat × Nat) : Nat := ((s.edgeTries.find? fun e => e.1 == k).map (·.2)).getD 0
def setEdgeTry (k : Nat × Nat) (n : Nat) (s : State) : State :=
  let rest := s.edgeTries.filter fun e => e.1 != k
  { s with edgeTries := if n = 0 then rest else rest ++ [(k, n)] }

/-- FLIT_CRC_RETRY: a flit is sent again; after 16 failed retries of one flit its edge retrains (15 R357). -/
def execFlitCrcRetry (a b : Nat) (ok : Bool) (s : State) : Res :=
  let k := edgeKey a b
  onUnit (edgeOk a b)
    (if s.edgesDown.contains k ∨ 16 ≤ edgeTry s k then s else setEdgeTry k (if ok then 0 else edgeTry s k + 1) s)

/-- A transfer in flight over a failed edge ends with ST_DEVICE_FAULT (15 R357): of a command, a transfer or a
collective, or of a run, which ends. -/
def loseTransfer (h : Nat) (s : State) : State :=
  match getCmd? s h with
  | some c =>
    if c.stage ≠ .running then s
    else if (getRun? s h).isSome then endRun h [stDeviceFault] s
    else finishCmd h [stDeviceFault] 0 (modCmd h (fun x => { x with targets := [] }) (dropPeerWork h (scrambleDests c s)))
  | none => s

/-- The edge fails: the commands whose transfers are in flight over it, `inFlight`, end; traffic takes the other neighbours, the record tells of it, and the edge is classed as
permanent (15 R357, R368, R372). -/
def loseEdge (a b : Nat) (inFlight : List Nat) (s : State) : State :=
  let s1 := forEach loseTransfer inFlight (setEdgeTry (edgeKey a b) 0 { s with edgesDown := s.edgesDown ++ [edgeKey a b] })
  retireUnit 1 (.edge a b) 0xFF (recordFault 0x0A 1 (.edge a b) 0xFF 0 [] s1)

/-- RETRAINING_COMPLETE of a stack link or a die edge. `inFlight`: the commands whose transfers were in flight over an
edge that fails, which the routes decide, and the spec gives no route. -/
def execRetrainingComplete (u : UnitRef) (ok : Bool) (s : State) (inFlight : List Nat := []) : Res :=
  onUnit u.ok
    (match u with
     | .stack k =>
       if (getStk s k).retraining then
         let s1 := modStk k (fun x => { x with retraining := false }) s
         serveHeld (if ok then s1 else retireUnit 14 (.stack k) 0xFF s1)
       else s
     | .edge a b =>
       if 16 ≤ edgeTry s (edgeKey a b) then (if ok then setEdgeTry (edgeKey a b) 0 s else loseEdge a b inFlight s) else s
     | _ => s)

/-- FAR_LINK_DOWN of a CXL link (10 R245): the port is unusable until the next reset, without being classed, though
another link may still be up (R246). `errors`: what the port has reported since the last of these commands (log entry 28). -/
def execFarLinkDown (s : State) (link : Nat := 0) (errors : Nat := 0) : Res :=
  .next (if s.far.links.contains link then
      let s1 := { s with far := { s.far with links := s.far.links.filter (· != link), linkErrors := s.far.linkErrors + BitVec.ofNat 64 errors } }
      if s.cap.cxl then schedule (loseFar (capChange 2 (fun c => { c with cxl := false, degraded := true }) s1)) else s1
    else s)

end Sys2Proof.Machine
end

