-- ==== Sys2Proof/Machine/Thermal.lean ====
section
/-! DEFINITION. Temperature, throttling, the power limiter and the orderly stop (17 R409 to R416), the records'
way to flash and operating time (15 R371). Blocks are numbered as TH_STOP numbers them: 0 to 3 compute dies,
4 and 5 I/O dies, 6 to 13 stacks. Temperatures are in eighths of a degree. -/

namespace Sys2Proof.Machine

/-! ### Sensors (17 R409, R410) -/

def sensorBlock (i : Nat) : Nat := if i < 256 then i / 64 else if i < 304 then 4 + (i - 256) / 24 else 6 + (i - 304) / 32

def blockSensors (b : Nat) : List Nat := (List.range 560).filter fun i => sensorBlock i == b

def readingOf (p : PowerSt) (i : Nat) : Int := tabGetD 0 i p.readings

/-- The neighbours of a sensor that are not broken, with their weights. -/
def goodNeighbours (f : Fuses) (p : PowerSt) (i : Nat) : List (Nat × Nat) :=
  (tabGetD [] i f.neighbours).filter fun e => !p.broken.contains e.1

/-- A sensor's prediction: the weighted mean of its neighbours' readings (log entry 28); none with fewer than two. -/
def predicted (f : Fuses) (p : PowerSt) (i : Nat) : Option Int :=
  let l := goodNeighbours f p i
  let w := (l.map (·.2)).sum
  if l.length < 2 ∨ w = 0 then none else some ((l.map fun e => readingOf p e.1 * (e.2 : Int)).sum / (w : Int))

/-- What a sensor contributes to its block's temperature. -/
def sensorValue (f : Fuses) (p : PowerSt) (i : Nat) : Int :=
  if p.broken.contains i then (predicted f p i).getD (readingOf p i) else readingOf p i

/-- A block's temperature: the highest value among its sensors that have been read. -/
def blockTemp (f : Fuses) (p : PowerSt) (b : Nat) : Int :=
  match ((p.readings.filter fun e => sensorBlock e.1 == b).map fun e => sensorValue f p e.1) with
  | [] => tabGetD 0 b p.temp
  | t :: l => l.foldl max t

/-- One update differs from the prediction by more than 8 degrees. -/
def strikeOf (f : Fuses) (p : PowerSt) (i : Nat) : Bool :=
  !p.broken.contains i && (match predicted f p i with
    | some v => decide (64 < (readingOf p i - v).natAbs)
    | none => false)

/-- Three consecutive strikes mark a sensor broken. -/
def judge (f : Fuses) (p : PowerSt) (ids : List Nat) : PowerSt :=
  let hits := ids.filter (strikeOf f p)
  let strikes := ids.foldl (fun t i => if hits.contains i then tabPut i (tabGetD 0 i t + 1) t else tabDel i t) p.strikes
  { p with strikes := strikes, broken := (hits.filter fun i => decide (3 ≤ tabGetD 0 i strikes)).foldl (fun l i => setIns i l) p.broken }

/-- More than half of a block's sensors are broken (17 R411). -/
def mostlyBroken (p : PowerSt) (b : Nat) : Bool :=
  decide ((blockSensors b).length < 2 * (p.broken.filter fun i => sensorBlock i == b).length)

/-! ### Levels (17 R411, R412) -/

/-- (threshold, release) of each level of a block's kind: an action is withdrawn at its release temperature. -/
def levelTable (b : Nat) : List (Int × Int) :=
  if b < 4 then [(760, 759), (840, 824), (880, 760)] else if b < 6 then [(840, 824), (920, 800)] else [(680, 664), (760, 744), (800, 680)]

/-- The level of the orderly stop. -/
def stopLevel (b : Nat) : Nat := (levelTable b).length

/-- The highest level whose action applies. -/
def levelGo (old : Nat) (t : Int) : Nat → List (Int × Int) → Nat
  | _, [] => 0
  | n, (thr, rel) :: l =>
    let above := levelGo old t (n + 1) l
    if 0 < above then above else if thr ≤ t ∨ (n ≤ old ∧ rel < t) then n else 0

/-- A block with too few sensors stands at its second threshold; of an I/O die, whose second threshold is the
stop itself, at its first (log entry 29). -/
def brokenLevel (b : Nat) : Nat := if 4 ≤ b ∧ b < 6 then 1 else 2

def levelOf (p : PowerSt) (b : Nat) (t : Int) : Nat :=
  max (levelGo (tabGetD 0 b p.level) t 1 (levelTable b)) (if p.halfBroken.contains b then brokenLevel b else 0)

/-- k_T asked for at temperature `t` (17 R413). -/
def pauseTarget (t : Int) : Nat := if t < 760 then 0 else min 63 (ceilDiv ((t - 760).toNat * 63) 80)

/-- The applied k_T: up at once, down by at most 1 per millisecond. -/
def applyPause (time b : Nat) (t : Int) (p : PowerSt) : PowerSt :=
  let want := if p.halfBroken.contains b then 63 else pauseTarget t
  let old := tabGetD 0 b p.kT
  if old ≤ want then { p with kT := tabPut b want p.kT, kTime := tabPut b time p.kTime }
  else if tabGetD 0 b p.kTime + 1000 * aclkPerUs ≤ time then { p with kT := tabPut b (old - 1) p.kT, kTime := tabPut b time p.kTime }
  else p

/-- THERM_N is asserted at a die's or a stack's second threshold and during an orderly stop (17 R412, R416). -/
def thermAsserted (p : PowerSt) : Bool :=
  p.stopHold || ((List.range 14).any fun b => (decide (b < 4) || decide (6 ≤ b)) && decide (2 ≤ tabGetD 0 b p.level))

def showTherm (s : State) : State := modBoard (fun b => { b with thermN := !thermAsserted s.pm }) s

/-- A thermal event: the cause bit of the physical function, and a Henua event. -/
def thermalEvent (payload : List Nat) (s : State) : State := setCause 0 4 (henuaEvent 0x05 1 payload s)

/-- One block's temperature, pause level, actions. -/
def updateBlock (b : Nat) (s : State) : State :=
  let t := blockTemp s.fuses s.pm b
  let old := tabGetD 0 b s.pm.level
  let lvl := levelOf s.pm b t
  let s1 := modPm (fun p =>
    let q := { p with temp := tabPut b t p.temp, level := tabPut b lvl p.level }
    if b < 4 then applyPause (now s) b t q else q) s
  let s2 := if 6 ≤ b then modStk (b - 6) (fun x => { x with doubledRefresh := decide (1 ≤ lvl), thermalLimited := decide (2 ≤ lvl) }) s1 else s1
  whenS (decide (old < lvl)) (thermalEvent [b, lvl]) s2

/-! ### The orderly stop (17 R416) -/

/-- A dispatched command meets the stop: copies end at their current block; others that need the compute dies
wait undispatched. -/
def stopCmd (h : Nat) (s : State) : State :=
  match getCmd? s h with
  | none => s
  | some c =>
    if c.stage ≠ .running ∨ wakeClass s c.tenant c.pkt = 0 then s
    else
      match c.pkt.opcode with
      | 0x0205 => finishCmd h [stDeviceFault] 0 (scrambleDests c s)
      | 0x0206 => finishCmd h [stDeviceFault] 0 (scrambleDests c s)
      | 0x0207 => finishCmd h [stDeviceFault] 0 (scrambleDests c s)
      | 0x0604 => finishCmd h [stDeviceFault] 0 (dropPeerWork h s)
      | 0x0210 => if s.fops.any fun e => e.2.source == some h then s else modCmd h (fun x => { x with stage := .admitted }) s
      | 0x0303 => s
      | 0x0605 => s
      | 0x0701 => s
      | _ => modCmd h (fun x => { x with stage := .admitted }) s

/-- The stop is in force: the entry into Hold begins from whatever state the module is in; a wake in progress
is held. -/
def forceHold (p : PowerSt) : PowerSt :=
  let q := { p with stopHold := true, waking := false, heldWake := if p.waking then some (p.heldWake.getD p.lastWake) else p.heldWake }
  if p.state = .hold then { q with transition := false } else { q with transition := true, target := .hold }

/-- An orderly stop begins. -/
def beginStop (s : State) : State :=
  let s1 := modPm forceHold s
  let s2 := forEach pauseRun ((s1.runs.filter fun e => e.2.state == .running).map (·.1)) s1
  let s3 := forEach stopCmd (handlesOf s2.cmds) (stopFops (fun _ => true) stDeviceFault s2)
  let s4 := forEach (fun x => abandonTest x.unit) s3.test.running s3
  thermalEvent [0xFF, s.pm.stop.toNat] (wakeForHeld s4)

/-- Nothing stands between the stop and Hold (17 R416). -/
def stopReady (s : State) : Bool :=
  s.cap.valid && !(s.runs.any fun e => e.2.state == .running || e.2.state == .pausing) &&
  !((List.range 32).any fun t => (getTile s t).ctx.isSome) && s.fops.isEmpty

/-- The stop's last step: Hold is entered, and a POWER_STATE to Hold under way completes (17 R418). -/
def finishStop (s : State) : State :=
  let hs := (s.cmds.filter fun c => c.pkt.opcode == 0x0703 && c.stage == .running && bitsOf (pk c.pkt 0) 2 0 == 3).map (·.handle)
  forEach (fun h => finishCmd h [] (now s)) hs (modPm (fun p => { p with stopLoss := holdBlocked s }) (enterHold s))

/-- Blocks that have reached the stop threshold join the stop. -/
def stopBits (p : PowerSt) : BitVec 14 :=
  (List.range 14).foldl (fun v b => if stopLevel b ≤ tabGetD 0 b p.level then putBit v b true else v) p.stop

/-- Every stopped block has reached its release temperature. -/
def stopOver (p : PowerSt) : Bool := (List.range 14).all fun b => !hasBit p.stop b || decide (tabGetD 0 b p.level < stopLevel b)

/-- The stop's course at an update: it begins, enters Hold, ends. -/
def stopStep (s : State) : State :=
  let s1 := modPm (fun p => { p with stop := stopBits p }) s
  let s2 := if s1.pm.stop ≠ 0 ∧ s1.pm.stopHold = false then beginStop s1 else s1
  let s3 := if s2.pm.stopHold ∧ s2.pm.state ≠ .hold ∧ stopReady s2 = true then finishStop s2 else s2
  if s3.pm.stopHold ∧ s3.pm.state = .hold ∧ stopOver s3.pm = true then
    releaseHeldWake (modPm (fun p => { p with stop := 0, stopHold := false }) s3)
  else s3

/-- A sensor is read now: in Hold those of the compute dies are not, but for a stopped die, whose release
temperature the stop waits for (17 R409, R416; log entry 29). -/
def sensorRead (s : State) (i : Nat) : Bool :=
  decide (256 ≤ i) || s.pm.state != .hold || hasBit s.pm.stop (sensorBlock i)

/-- SENSOR_UPDATE: readings arrive, sensors are judged, every block read is brought up to date. -/
def sensorStep (readings : List (Nat × Int)) (s : State) : State :=
  let l := readings.filter fun e => sensorRead s e.1
  let ids := l.map (·.1)
  let blocks := (ids.map sensorBlock).foldl (fun a b => setIns b a) []
  let s1 := modPm (fun p => judge s.fuses { p with readings := l.foldl (fun t e => tabPut e.1 e.2 t) p.readings } ids) s
  let s2 := forEach (fun i => thermalEvent [i]) (s1.pm.broken.filter fun i => !s.pm.broken.contains i) s1
  let half := blocks.filter fun b => mostlyBroken s2.pm b && !s2.pm.halfBroken.contains b
  let s3 := forEach (fun b u => henuaEvent 0x05 1 [b] (modPm (fun p => { p with halfBroken := p.halfBroken ++ [b] }) u)) half s2
  showTherm (stopStep (forEach updateBlock blocks s3))

/-- SENSOR_UPDATE; nothing is read while the rails are down. -/
def execSensorUpdate (readings : List (Nat × Int)) (s : State) : Res :=
  onUnit (readings.all fun e => decide (e.1 < 560)) (if s.board.pgood then sensorStep readings s else s)

/-! ### The power limiter (17 R415) -/

/-- PM_POWER_LIMIT as the limiter takes it. -/
def effLimit (p : PowerSt) : Nat := if p.limit < 1200 then 1200 else if 2400 < p.limit then 2400 else p.limit

/-- One decision of the limiter on the running mean. -/
def limiterStep (mean : Nat) (p : PowerSt) : PowerSt :=
  let q := { p with now := mean, peak := max p.peak mean }
  if effLimit p < mean then
    { q with kP := min 63 (p.kP + 4), limStack := max 64 (p.limStack - 16), limDie := max 64 (p.limStack - 16) / 16 }
  else if mean + 50 < effLimit p then
    { q with kP := p.kP - 1, limStack := min 256 (p.limStack + 8), limDie := min 256 (p.limStack + 8) / 16 }
  else q

/-- The limiter is at work. -/
def limiting (p : PowerSt) : Bool := decide (0 < p.kP) || decide (p.limStack < 256)

/-- POWER_LIMITER_TICK: one event when limiting begins (18 R433). -/
def execPowerLimiterTick (mean : Nat) (s : State) : Res :=
  .next (if s.board.power48 then
    whenS (!limiting s.pm && limiting (limiterStep mean s.pm)) (henuaEvent 0x05 0 [mean]) (modPm (limiterStep mean) s) else s)

/-! ### Records to flash; operating time (15 R371) -/

/-- FAULT_RECORD_FLUSH. -/
def execFaultRecordFlush (s : State) : Res :=
  .next (if s.board.power48 then
    { s with hist := { s.hist with flash := trimFlash (s.hist.flash ++ s.hist.pendingFlash), pendingFlash := [] } } else s)

/-- OPERATING_TIME_TICK: one second while the always-on island is powered. -/
def execOperatingTimeTick (s : State) : Res :=
  .next (if s.board.power48 then modHenua (fun h => { h with operating := h.operating + 1 }) s else s)

end Sys2Proof.Machine
end

