-- ==== Sys2Proof/Machine/Boot.lean ====
section
/-! DEFINITION. Supply, resets, the start-up sequence (19 R439 to R450), the firmware push (18 R419 to R428), the
Function Level Reset (14 R333), and the end of a wake (17 R404, R416). -/

namespace Sys2Proof.Machine

/-! ### What a reset leaves (19 R449) -/

/-- FAULT_N is asserted (19 R444): rails off after a cut, admission halted, firmware in recovery. -/
def faultHolds (s : State) : Bool := s.board.cut || s.halted || s.henua.bstate == 4

def showFault (s : State) : State := modBoard (fun b => { b with faultN := !faultHolds s }) s

/-- The always-on island keeps its limiter and its counts of wakes; the sensors are judged afresh (17 R410). -/
def keptPm (p : PowerSt) : PowerSt :=
  { PowerSt.reset with iso := p.iso, limit := p.limit, now := p.now, peak := p.peak, limStack := p.limStack, limDie := p.limDie,
                       kP := p.kP, wakes := p.wakes, lastWake := p.lastWake }

/-- The Henua controller keeps its state; the push starts over (18 R428). -/
def keptHenua (h : Henua) : Henua :=
  { h with bootAddr := 0, bootLen := 0, goHeld := false, attempts := 0, source := 0, reason := 0, bstate := 0, code := [], image := none,
           unitEvents := [] }

/-- The pins stay as they are driven; the PCIe link is down. -/
def keptBoard (b : Board) : Board :=
  { b with thermN := true, faultN := !b.cut, step := min b.step 3, crsDone := false, linkFlit := false, linkWidth := 0, linkRate := 0,
           linkErrors := 0, linkReplays := 0, vfEnable := false }

/-- All package logic is reset (19 R449): commands in flight end without records; stack and far contents count as
never written (10 R230, R245). -/
def packageReset (s : State) : State :=
  { State.reset with pending := s.pending, out := s.out, mem := { Memories.reset with host := s.mem.host },
                     hist := { s.hist with resets := s.hist.resets + 1 }, pm := keptPm s.pm, fuses := s.fuses, henua := keptHenua s.henua,
                     board := keptBoard s.board, era := s.era + 1, freeCtr := s.freeCtr }

/-- Loss of 48 V: only flash, fuses and certificate are kept; the Henua configuration is in flash (18; DEDUCED, log entry
31). -/
def powerReset (s : State) : State :=
  { State.reset with pending := s.pending, out := s.out, mem := { Memories.reset with host := s.mem.host },
                     hist := { s.hist with pendingFlash := [], resets := s.hist.resets + 1 }, fuses := s.fuses,
                     henua := { State.reset.henua with operating := s.henua.operating, mgmtSeq := s.henua.mgmtSeq, netConfig := s.henua.netConfig },
                     board := { State.reset.board with perstN := s.board.perstN, pwrEn := s.board.pwrEn },
                     era := s.era + 1, freeCtr := s.freeCtr }

/-- The package is reset where its rails are up; otherwise it is reset already. -/
def resetIfUp (s : State) : State := if s.board.pgood then packageReset s else s

/-- The rails go down; the next start-up begins with their sequencing. -/
def railsDown (s : State) : State := modBoard (fun b => { b with pgood := false, step := min b.step 2 }) s

/-- Residency counts from the release of PERST_N (17 R406). -/
def startResidency (s : State) : State := modPm (fun p => { p with resRun := 0, resTrim := 0, resIdle := 0, resHold := 0 }) s

/-! ### Supply (19 R439) -/

/-- INPUT_POWER_APPLIED: the always-on island is up and has sampled the straps. -/
def execInputPowerApplied (slotId : Nat) (isoCompat : Bool) (s : State) : Res :=
  .next (if s.board.power48 then s
    else modPm (fun p => { p with iso := isoCompat })
      (modBoard (fun b => { b with power48 := true, cut := false, band := false, faultN := true, thermN := true, slotId := slotId % 16, step := 1 }) s))

/-- INPUT_WARNING_BAND: one event on each entry. -/
def execInputWarningBand (s : State) : Res :=
  .next (if s.board.power48 ∧ s.board.cut = false then henuaEvent 0x05 1 [] (modBoard (fun b => { b with band := true }) s) else s)

/-- INPUT_CUT: rails off, FAULT_N asserted, the always-on island runs on. -/
def execInputCut (s : State) : Res :=
  .next (if s.board.power48 ∧ s.board.cut = false then showFault (modBoard (fun b => { b with cut := true, band := false }) (railsDown (resetIfUp s))) else s)

/-- INPUT_POWER_LOSS. -/
def execInputPowerLoss (s : State) : Res := .next (if s.board.power48 then powerReset s else s)

/-- FAULT_N of a cut ends when the restart begins, that is with PWR_EN high (19 R439, R444). -/
def restart (s : State) : State := if s.board.pwrEn then modBoard (fun b => { b with faultN := true }) s else s

/-- INPUT_RECOVERY. -/
def execInputRecovery (s : State) : Res := .next (if s.board.cut then restart (modBoard (fun b => { b with cut := false }) s) else s)

/-! ### Sideband (19 R443, R448 to R450) -/

/-- PWR_EN_HIGH. -/
def execPwrEnHigh (s : State) : Res :=
  let s1 := modBoard (fun b => { b with pwrEn := true }) s
  .next (if s.board.power48 ∧ s.board.cut = false then restart s1 else s1)

/-- PWR_EN_LOW: as PERST_N, then the rails go down. -/
def execPwrEnLow (s : State) : Res := .next (railsDown (resetIfUp (modBoard (fun b => { b with pwrEn := false }) s)))

/-- PERST_N_ASSERT. -/
def execPerstNAssert (s : State) : Res :=
  .next (if s.board.perstN then modBoard (fun b => { b with perstN := false }) (resetIfUp s) else s)

/-- PERST_N_RELEASE. -/
def execPerstNRelease (s : State) : Res :=
  .next (if s.board.perstN then s else startResidency (modBoard (fun b => { b with perstN := true }) s))

/-- A hot reset or a link going down: PERST_N falls and rises again (14 R332). -/
def busReset (s : State) : State := if s.board.perstN ∧ s.board.pgood = true then startResidency (packageReset s) else s

def execHotReset (s : State) : Res := .next (busReset s)
def execPcieLinkDown (s : State) : Res := .next (busReset s)

/-- PCIE_LINK_TRAINED: PX_LINK_STATUS is that of the training just completed (14 R338). -/
def execPcieLinkTrained (flit : Bool) (width rate : Nat) (s : State) : Res :=
  .next (if s.board.perstN ∧ s.board.pgood = true then modBoard (fun b => { b with linkFlit := flit, linkWidth := width % 32, linkRate := rate % 16 }) s else s)

/-- CONFIG_RETRY_END: configuration requests are served from now on (19 R448). -/
def execConfigRetryEnd (s : State) : Res :=
  .next (if s.board.perstN ∧ s.board.pgood = true then modBoard (fun b => { b with crsDone := true }) s else s)

/-- WAKE_N_ASSERT: ignored before VALID (19 R450). -/
def execWakeNAssert (s : State) : Res := .next (if s.cap.valid then wakeSource 5 true s else s)

/-! ### Start-up (19 R447) -/

/-- HENUA_BOOT_COMPLETE: step 2 ends; fault history read, management paths up. -/
def execHenuaBootComplete (s : State) : Res :=
  .next (if s.board.power48 ∧ s.board.step = 1 then modHenua (fun h => { h with up := true }) (modBoard (fun b => { b with step := 2 }) s) else s)

/-- RAIL_SEQUENCING: step 3 ends; PGOOD is released. -/
def execRailSequencing (s : State) : Res :=
  .next (if s.board.step = 2 ∧ s.board.pwrEn = true ∧ s.board.cut = false then modBoard (fun b => { b with step := 3, pgood := true, faultN := true }) s else s)

/-- ROOT_PLL_LOCK: step 4 ends; DEV_TIME starts from zero (01 R10). -/
def execRootPllLock (s : State) : Res :=
  .next (if s.board.step = 3 ∧ s.board.perstN = true then modBoard (fun b => { b with step := 4, faultN := true }) { s with devTime := 0, clockOn := true } else s)

/-- The unit that a summary stands for. -/
def unitOf (cls unit : Nat) : Option UnitRef :=
  match cls with
  | 1 => some (.tile unit)
  | 2 => some (.furrow unit)
  | 3 => some (.stack unit)
  | 4 => some (.edge (unit / 8) (unit % 8))
  | 5 => some (.sluice unit)
  | 6 => some .sequencer
  | 7 => some .counterStore
  | 8 => some (.port unit)
  | 9 => some .cxl
  | 10 => some (.basin unit)
  | _ => none

/-- What the fault history decides for the next start (15 R370): permanent stays, a fault event within 604,800 s
makes the unit suspect, any other unit is normal. -/
def bootSums (s : State) : List UnitSum :=
  (s.hist.sums.map fun x =>
    if x.state = 3 then x
    else if 0 < recentEvents s x then { x with state := if x.cls = 2 ∨ x.cls = 5 then 2 else 1 } else { x with state := 0 }).filter
      fun x => !(x.state == 0 && x.events.isEmpty)

/-- A unit that boot self-test covers (16 R379). -/
def bootTested (s : State) : UnitRef → Bool
  | .tile t => tilePresent s t && (getSum s (.tile t)).state != 3
  | u => (getSum s u).state != 3

/-- One failing or suspect unit's outcome (16 R380; 15 R367, R370). -/
def bootOutcome (first repeats : List Nat) (mk : Nat → UnitRef) (n : Nat) (s : State) : State :=
  whenS (bootTested s (mk n)) (settleUnit (mk n) (first.contains n) (first.contains n && repeats.contains n)) s

/-- Units of a class that a boot test settles: those that failed, and those the history holds suspect. -/
def bootUnits (s : State) (cls : Nat) (first : List Nat) : List Nat :=
  ((s.hist.sums.filter fun x => x.cls == cls && x.state != 3).map (·.unit)).foldl (fun l n => setIns n l) (first.foldl (fun l n => setIns n l) [])

def bitsSet (l : List Nat) : Nat := (l.foldl (fun a n => setIns n a) [] |>.map fun n => 2 ^ n).sum

/-- BOOT_SELFTEST_END: step 5 ends; 65 ms and the repeats' own durations (16 R380). -/
def execBootSelftestEnd (first repeats : BootFails) (s : State) : Res :=
  let s0 : State := { s with hist := { s.hist with sums := bootSums s } }
  let ts := first.tiles.filter fun t => decide (t < 32) && bootTested s0 (.tile t)
  let es := first.sluices.filter fun e => decide (e < 20) && bootTested s0 (.sluice e)
  let fs := first.furrow.filter fun b => decide (b < 4096) && bootTested s0 (.furrow b)
  let ks := (fs.map (· / 512)).foldl (fun l n => setIns n l) []
  let s1 := forEach (bootOutcome ts repeats.tiles .tile) (bootUnits s0 1 ts) s0
  let s2 := forEach (bootOutcome es repeats.sluices .sluice) (bootUnits s1 5 es) s1
  let s3 := forEach (bootOutcome fs repeats.furrow .furrow) (bootUnits s2 2 fs) s2
  let us := 65000 + 24000 * ts.eraseDups.length + 6000 * es.eraseDups.length + 40000 * ks.length
  .next (if s.board.step = 4 then
    modBoard (fun b => { b with step := 5 })
      (modTest (fun x => { x with bootDone := true, bootTiles := BitVec.ofNat 32 (bitsSet ts), bootSluices := BitVec.ofNat 20 (bitsSet es),
                                  bootStacks := BitVec.ofNat 8 (bitsSet ks), bootUs := BitVec.ofNat 32 us }) s3)
    else s)

/-! ### The firmware push (18 R419 to R428) -/

/-- A push begins (18 R423, R428): the image is about to be verified. -/
def startPush (source : Nat) (h : Henua) : Henua :=
  { h with bstate := 2, source := source, goHeld := false, attempts := min 255 (h.attempts + 1), code := if source = 0 then [] else h.code }

/-- FIRMWARE_PUSH_GO: held while STATE is 0; ignored while a push verifies or an image runs. -/
def execFirmwarePushGo (s : State) : Res :=
  .next (if s.board.crsDone then
    modHenua (fun h =>
      if h.bstate = 0 then (if h.goHeld then h else { h with goHeld := true, source := 0 })
      else if h.bstate = 1 ∨ h.bstate = 4 then startPush 0 h else h) s
    else s)

/-- The good spares of one group take its failing data lanes in order (10 R241); that a failing spare is passed over
and counts as one of the two is DESIGN CHOICE, log entry 37. -/
def assignSpares (failing : List Nat) (group : Nat) : List (Nat × Nat) :=
  ((failing.foldl (fun l n => setIns n l) []).filter fun l => l / 34 == group && decide (l % 34 < 32)).zip
    ([34 * group + 32, 34 * group + 33].filter fun l => !failing.contains l)

def groupFails (failing : List Nat) (group : Nat) : Nat := ((failing.foldl (fun l n => setIns n l) []).filter fun l => l / 34 == group).length

/-- One stack's link: trained and margined; a group that needs more than two spares loses the stack. -/
def trainLink (failing : List (Nat × List Nat)) (k : Nat) (s : State) : State :=
  let l := (failing.filter fun e => e.1 == k).flatMap (·.2)
  let groups := (l.map (· / 34)).foldl (fun a g => setIns g a) []
  if groups.any fun g => decide (2 < groupFails l g) then retireUnit 14 (.stack k) 0xFF s
  else modStk k (fun x => { x with spares := groups.flatMap (assignSpares l) }) s

/-- STACK_LINK_TRAINING_END: step 6 ends; a GO that was held takes effect. -/
def execStackLinkTrainingEnd (failing : List (Nat × List Nat)) (s : State) : Res :=
  onUnit (failing.all fun e => stackOk e.1 && e.2.all laneOk) (if s.board.step = 5 then
    let s1 := forEach (trainLink failing) ((List.range 8).filter fun k => (getSum s (.stack k)).state != 3) s
    modHenua (fun h => if h.goHeld then startPush h.source h else { h with bstate := 1 }) (modBoard (fun b => { b with step := 6 }) s1)
    else s)

/-- Fields of an image's header (18 R419). -/
def parseImage (b : List Byte) : Image :=
  ⟨fieldB b 8 2, fieldB b 10 2, fieldB b 12 2, fieldB b 14 1, fieldB b 15 1, sliceB b 0x20 32, b.take 2048⟩

/-- Check 3: magic, layout, family, length, reserved bytes. -/
def headerOk (b : List Byte) (len : Nat) : Bool :=
  fieldB b 0 4 == 0x48444757 && fieldB b 4 2 == 1 && fieldB b 6 2 == 0x0D32 && fieldB b 0x10 4 == len && allZero (sliceB b 0x14 12) &&
  allZero (sliceB b 0x7E0 32) && allZero (sliceB b 0x14ED 2835)

def keySlot (s : State) (k : Nat) : KeySlot := tabGetD ⟨[], false, false⟩ k s.fuses.keys

/-- Check 1: the ranges of ADDR and BYTES. -/
def pushRange (addr len : Nat) : Bool := decide (addr < 2 ^ 48 ∧ len % 4096 = 0 ∧ 12288 ≤ len ∧ len ≤ 25165824)

/-- The checks of R424 in order: REASON of the first that fails. -/
def verifyImage (s : State) (addr len : Nat) (b : List Byte) (headerError payloadError : Bool) : Option Nat :=
  let im := parseImage b
  let k := keySlot s im.keySlot
  let pub := sliceB b 0x40 1952
  firstFail
    [need (pushRange addr len) 1, need (!headerError) 2, need (headerOk b len) 3,
     need (decide (im.keySlot < 6) && k.programmed && !k.revoked) 4, need (sha3 pub == k.hash) 5,
     need (Config.mldsaVerify pub (b.take 2048) (sliceB b 0x800 3309)) 6, need (decide (s.fuses.rollback ≤ im.svn)) 7,
     need (!payloadError) 2, need (sha3 (b.drop 8192) == im.digest) 8]

/-- The event of a push: SOURCE, REASON, MAJOR, MINOR, SVN, KEY_SLOT. -/
def pushEvent (severity reason : Nat) (im : Image) (s : State) : State :=
  henuaEvent 0x0A severity [s.henua.source, reason, im.major, im.minor, im.svn, im.keySlot] s

/-- What the device reads of a host's image: nothing when check 1 fails, the payload once checks 1 to 7 have passed. -/
def pushFetch (addr len : Nat) (b : List Byte) (bad : Bool) (s : State) : State :=
  if !pushRange addr len then s
  else
    let s1 := hostFetch 0 addr 8192 s
    match verifyImage s addr len b bad true with
    | some 2 => if bad then s1 else hostFetch 0 (addr + 8192) (len - 8192) s1
    | _ => s1

/-- FIRMWARE_VERIFICATION: the image is read and checked, and starts or is refused (18 R424, R427). A device
without Bus Master Enable reads nothing (R423). -/
def execFirmwareVerification (headerError payloadError : Bool) (s : State) : Res :=
  let h := s.henua
  let addr := if h.source = 0 then h.bootAddr.toNat / 4096 * 4096 else 0
  let len := if h.source = 0 then bitsOf h.bootLen.toNat 24 0 else h.code.length
  let b := if h.source = 0 then hostRead s addr len else h.code
  let noRead := h.source = 0 ∧ (getFn s 0).busMaster = false
  let im := parseImage b
  .next (if h.bstate ≠ 2 then s
    else
      let bad := headerError || decide noRead
      let s := if h.source = 0 ∧ ¬noRead then pushFetch addr len b bad s else s
      match verifyImage s addr len b bad payloadError with
      | some r => showFault (pushEvent 2 r im (modHenua (fun x => { x with bstate := 4, reason := r }) s))
      | none => showFault (pushEvent 0 0 im (modHenua (fun x => { x with bstate := 3, image := some im, code := b }) (modBoard (fun x => { x with step := 7 }) s))))

/-! ### Inventory (01 R15, R16; 12 R281, R286; 10 R244) -/

/-- Tenant 0's fixed profile (12 R286). -/
def tenant0Profile : Profile :=
  ⟨65535, 0, 1024, 0, 0, 0, 2 ^ 40, 2 ^ 42, 24 * 2 ^ 20, 96 * 2 ^ 20, 0, 0, 0, [(0, 2 ^ 48), (0, 0), (0, 0), (0, 0)]⟩

/-- Every unit usable, the CXL port also where no expander is found: the spec does not say (DESIGN CHOICE, log entry 31). -/
def fullCap (s : State) : Cap :=
  ⟨true, 2, false, false, s.fuses.present, 0, 0xFF, 0xFFFFF, 0, 0xFFFFF, true, true, 0, 0, 0, BitVec.allOnes 4096, 0⟩

/-- One unit of the fault history as the new table shows it (15 R366, R370). -/
def sumCap (c : Cap) (x : UnitSum) : Cap :=
  match unitOf x.cls x.unit with
  | some u =>
    if x.state = 3 then { clearUsable u c with replace := true }
    else if x.state = 2 ∨ (x.state = 1 ∧ x.cls = 1 ∧ hasBit c.tileUsable x.unit) then suspectCap u c else c
  | none => c

/-- The table at the end of the inventory. -/
def bootCap (s : State) : Cap :=
  let c := s.hist.sums.foldl sumCap (fullCap s)
  let im := s.henua.image.getD ⟨0, 0, 0, 0, 0, [], []⟩
  { c with fwMajor := BitVec.ofNat 16 im.major, fwMinor := BitVec.ofNat 16 im.minor, abi := BitVec.ofNat 16 im.abi }

/-- Expanders as mapped: at most four; two or four of one capacity are interleaved (10 R244), and what is beyond 4 TiB
in total is not mapped (10 R243). -/
def mapFar (l : List Nat) : Far :=
  let e := l.take 4
  let same := e.all fun x => x == e.headD 0
  ⟨min e.sum (2 ^ 42), if e.isEmpty then 0 else if (e.length = 2 ∨ e.length = 4) ∧ same = true then 2 else 1, e, List.range e.length, 0, 0⟩

/-- Edges that the history holds permanent (15 R357, R370). -/
def bootEdges (s : State) : List (Nat × Nat) :=
  (s.hist.sums.filter fun x => x.cls == 4 && x.state == 3).map fun x => (x.unit / 8, x.unit % 8)

/-- INVENTORY_COMPLETE: step 8 ends; spaces 3 to 5 are clear (05 R451), tenant 0 exists, VALID is 1. The table
is written under one generation step (01 R17; log entry 31). -/
def execInventoryComplete (expanders : List Nat) (s : State) : Res :=
  .next (if s.board.step = 7 ∧ s.cap.valid = false then
    let s1 : State := { clearTileMem [] [] [] s with cap := bootCap s, far := mapFar expanders, edgesDown := bootEdges s }
    let s2 := modDpt (fun d => { d with incarnation := Config.incarnation s.era }) (modBoard (fun b => { b with step := 8 })
      { s1 with cap := { s1.cap with degraded := degradedNow s1 } })
    let s3 := match placeContext s2 (contextLen tenant0Profile) with
      | some (base, u) => addTenant 0 tenant0Profile base u
      | none => addTenant 0 tenant0Profile 0 s2
    setCauseAll 0 (henuaEvent 0x02 0 (capStateWord s3.cap :: changedRegs (capRegs s) (capRegs s3)) (forEach checkNoFurrow (List.range 8) s3))
    else s)

/-! ### Function Level Reset (14 R333) -/

/-- Steps 1 to 3 for one function: commands cancelled without records, registers reset; what describes the
kept tenant stays, and the BAR4 size, which is one for every VF (14 R334). -/
def resetFn (f : Nat) (s : State) : State :=
  let s1 := forEach cancelCmd (handlesOf (s.cmds.filter fun c => c.tenant == f)) { s with cmds := s.cmds.map fun c => if c.tenant = f then { c with silent := true } else c }
  modFn f (fun x => { Fn.reset with switches := x.switches, late := x.late, bar4Log2 := x.bar4Log2 }) s1

/-- The registers that only the physical function has, the Resizable BAR sizes among them. -/
def resetPfOnly (s : State) : State :=
  let s1 := forEach (fun k => modStk k fun x =>
    { x with stackLimit := 256, dieLimit := 16, hostWaitMax := 0, debtMax := 0, ceLeakMs := 0x3E8, ceThreshold := 0x40, ueFirst := none,
             ueMore := false, patrolPause := false, patrolHours := 24 }) (tabKeys (fun _ => true) s.stks) s
  let s2 := forEach (fun g => modFn g fun x => { x with bar4Log2 := 6 }) (List.range 64)
    (forEach (fun t => modTile t fun x => { x with stepMax := 0 }) (tabKeys (fun _ => true) s.tiles) s1)
  modBoard (fun b => { b with vfEnable := false })
    (modDpt (fun d => { d with timeoutMs := 0x32, reorderMax := 0, ptpRxBase := 0, ptpRxCtrl := 0x4, ptpRxTail := 0, ptpRxHead := 0,
                               ptpTxBase := 0, ptpTxCtrl := 0x4, ptpTxTail := 0, ptpTxHead := 0 }) { s2 with margin := 0x5BCC0 })

/-- FUNCTION_LEVEL_RESET; of the physical function, of all 64. -/
def execFunctionLevelReset (fn : Nat) (s : State) : Res :=
  onUnit (fnOk fn)
    (schedule (henuaEvent 0x07 0 [fn] (if fn = 0 then resetPfOnly (forEach resetFn (List.range 64) s) else resetFn fn s)))

/-! ### The end of a wake (17 R402, R404, R416) -/

/-- Blocks of live allocations in a space (17 R416). -/
def allocBlks (s : State) (space : Nat) : List Nat :=
  ((s.allocs.filter fun e => e.2.space == space).flatMap fun e =>
    (List.range (ceilDiv e.2.len 64)).map fun i => zKey e.2.inst e.2.base / 64 + i).foldl (fun l b => setIns b l) []

/-- Spaces 3 to 5 after Hold: zero; after an orderly stop the blocks of live allocations are poisoned. -/
def wakeMemories (s : State) : State :=
  let p (space : Nat) := if s.pm.stopLoss then allocBlks s space else []
  { clearTileMem (p 3) (p 4) (p 5) s with tiles := tabMap (fun _ x => { x with imem := none, v := [], ev := [], active := [], shadow := [], lats := [], trace := none }) s.tiles }

/-- Allocations of spaces 3 to 5 that a tenant lost. -/
def lostAllocs (s : State) (t : Nat) : List Nat :=
  (s.allocs.filter fun e => e.2.tenant == t && decide (3 ≤ e.2.space) && decide (e.2.space ≤ 5)).map (·.1)

/-- One event for each affected tenant. -/
def lossEvents (s : State) : State :=
  if s.pm.stopLoss then
    forEach (fun t u => whenS (!(lostAllocs s t).isEmpty) (henuaEvent 0x05 2 (t :: lostAllocs s t)) u) (List.range 64) s
  else s

/-- Run is entered: POWER_STATE commands that asked for Run complete, and what waited goes on. -/
def enterRun (s : State) : State :=
  let hs := (s.cmds.filter fun c => c.pkt.opcode == 0x0703 && c.stage == .running && bitsOf (pk c.pkt 0) 2 0 == 0).map (·.handle)
  forEach (fun h => finishCmd h [] (now s)) hs
    (modPm (fun p => { p with state := .run, target := .run, transition := false, waking := false, saved := false, stopLoss := false }) s)

/-- WAKE_COMPLETE. `retrained`: failing lanes of the stacks whose link was retrained and margined as at start-up;
`failedStacks`: stacks whose link could not be brought up again (17 R404, R418). -/
def execWakeComplete (failedStacks : List Nat) (s : State) (retrained : List (Nat × List Nat) := []) : Res :=
  onUnit (failedStacks.all stackOk && retrained.all fun e => stackOk e.1 && e.2.all laneOk)
    (if s.pm.waking then
      let held := s.pm.state = .hold
      let s1 := enterRun (if held then lossEvents (wakeMemories s) else s)
      let s2 := if held then
          forEach (fun k => retireUnit 14 (.stack k) 0xFF) failedStacks
            (forEach (trainLink retrained) ((retrained.map (·.1)).foldl (fun l k => setIns k l) [] |>.filter (stackUsable s1)) s1)
        else s1
      fillTiles (schedule (serveHeld s2))
    else s)

end Sys2Proof.Machine
end

