-- ==== Sys2Proof/Machine/Complete.lean ====
section
/-! DEFINITION. The completion of a command (08 R183 to R190, R199; 05 R119): its status, its signal, its record, and the
objects that come into being or cease with it (08 R186, R193; 06 R129 to R131; 12 R281). -/

namespace Sys2Proof.Machine

/-- The outcomes of a command whose record is written now, lateness included (08 R189). -/
def finalOutcomes (s : State) (c : Cmd) : List Nat :=
  if deadlineOf s c < now s then addOutcomes [stDeadlineMissed] c.outcomes else c.outcomes

/-- FLAGS.SIGNAL is applied before the record (08 R190). -/
def applySignal (c : Cmd) (status : Nat) (s : State) : State :=
  whenS (bitOf c.pkt.flags 0 && signalsOn status) (signalCtr c.tenant c.pkt.counter c.pkt.signalN) s

/-- The completion record and its interrupt event. -/
def completeWith (c : Cmd) (late : Bool) (outs : List Nat) (s : State) : State :=
  let s1 := writeRecord c.tenant 2 late (outs.contains stRecomputed) (statusOf outs) c.pkt.tag c.handle c.pkt.opcode c.sq 0 0 c.value s
  whenS (bitOf c.pkt.flags 2) (cqEvent c.tenant) (whenS late (modFn c.tenant fun f => { f with late := f.late + 1 }) s1)

/-- The tenant field of a request that the Henua controller itself issues (17 R394; 18 R436). -/
def henuaTenant : Nat := 64

/-- The answer to a management POWER_STATE: its status and VALUE. -/
def answerHenua (c : Cmd) (outs : List Nat) (s : State) : State :=
  whenS (c.tenant == henuaTenant) (emit (.mgmt 0x09 (statusOf outs) (toLE 8 c.value))) s

/-- What the completion of a command that did its work brings about. -/
def completed (c : Cmd) (s : State) : State :=
  let q := c.pkt
  match q.opcode with
  | 0x0102 => schedule (freeTenant (pk q 1) s)
  | 0x0103 => modFn c.tenant (fun f => { f with queues := tabPut (bitsOf (pk q 1) 3 0) ⟨pk q 0, bitsOf (pk q 1) 11 8, 0, 0, false, false⟩ f.queues }) s
  | 0x0104 => modFn c.tenant (fun f => { f with queues := tabDel (pk q 1) f.queues }) s
  | 0x0202 => freeAllocs (fun i _ => i == pk q 0) (dropDescs (descsOf s (pk q 0)) s)
  | 0x0203 => bornDesc c s
  | 0x0204 => dropDescs [(c.tenant, pk q 2)] s
  | 0x0302 => { s with bundles := tabDel (pk q 0) s.bundles }
  | _ => s

/-- A live command, other than `c`, destroys descriptor `id` of tenant `t`. -/
def destroyedBy (s : State) (c : Cmd) (t id : Nat) : Bool :=
  s.cmds.any fun x => x.handle != c.handle &&
    ((x.pkt.opcode == 0x0204 && x.tenant == t && pk x.pkt 2 == id) ||
     (x.pkt.opcode == 0x0202 && (tabGet? id (getTen s t).descs).map (·.alloc) == some (pk x.pkt 0)))

/-- What the completion of a command that failed or was cancelled leaves: nothing that it created, and nothing marked by
its admission. -/
def undone (c : Cmd) (s : State) : State :=
  let q := c.pkt
  let spare (t id : Nat) (u : State) : State :=
    modTen t (fun y => { y with descs := tabMap (fun i x => if i = id then { x with dying := destroyedBy s c t id } else x) y.descs }) u
  let other (op h : Nat) : Bool := s.cmds.any fun x => x.handle != c.handle && x.pkt.opcode == op && pk x.pkt 0 == h
  match q.opcode with
  | 0x0101 => unmapEmpty s
  | 0x0102 => modTen (pk q 1) (fun t => { t with destroying := false }) s
  | 0x0104 => modQueue c.tenant (pk q 1) (fun x => { x with closing := false }) s
  | 0x0201 => freeAllocs (fun i _ => i == c.handle) s
  | 0x0202 =>
    forEach (fun (d : Nat × Nat) => spare d.1 d.2) (descsOf s (pk q 0))
      { s with allocs := tabMap (fun h a => if h = pk q 0 then { a with dying := other 0x0202 h } else a) s.allocs }
  | 0x0204 => spare c.tenant (pk q 2) s
  | 0x0301 => { s with bundles := tabDel c.handle s.bundles }
  | 0x0302 => { s with bundles := tabMap (fun h b => if h = pk q 0 then { b with dying := other 0x0302 h } else b) s.bundles }
  | _ => s

/-- A command that has executed completes once those that it waits for have, a BUNDLE_UNLOAD once every run of the bundle
has (08 R195). -/
def mayComplete (s : State) (c : Cmd) : Bool :=
  c.stage == .done && targetsGone s c && !(c.pkt.opcode == 0x0302 && c.outcomes.isEmpty && runsLive s (pk c.pkt 0))

/-- COMMAND_COMPLETION of the command with handle `h`. -/
def execCommandCompletion (h : Nat) (s : State) : Res :=
  match getCmd? s h with
  | none => .next s
  | some c =>
    if mayComplete s c then
      let outs := finalOutcomes s c
      let late := decide (deadlineOf s c < now s)
      let s1 := applySignal c (statusOf outs) s
      let s2 := if signalsOn (statusOf outs) then completed c s1 else undone c s1
      let s3 := { s2 with cmds := s2.cmds.filter fun x => x.handle != h }
      let s4 := if c.silent then answerHenua c outs s3 else completeWith c late outs s3
      .next (if c.pkt.opcode = 0x0703 then releaseHeldWake s4 else s4)
    else .next s

end Sys2Proof.Machine
end

