-- ==== Sys2Proof/Machine/Regs.lean ====
section
/-! DEFINITION. The register map of BAR0 and the doorbell pages of BAR2 (14 R335 to R338 with the rules they name),
reads with side effects (00 R5, R454; 01 R11), writes by field type (00 R5, R6), configuration-space registers
that the spec names (14 R334, R342; 18 R423). -/

namespace Sys2Proof.Machine

/-! ### What a 4-byte register reads -/

/-- The low or the high half of a 64-bit value. -/
def half (high : Bool) (v : Nat) : Nat := if high then v / 2 ^ 32 % 2 ^ 32 else v % 2 ^ 32

/-- HG_Q_STATUS (08 R176, R177). -/
def qStatus (s : State) (f : Nat) : Nat :=
  let x := getFn s f
  let live := liveCount s f
  let ready := tenantIs s f && sq0InUse x && (cqInUse x || (!cqEnabled x && decide (0 < live)))
  live * 65536 + 8 * b2n ((cqEnabled x && x.cqBad) || (sq0Enabled x && x.sq0Bad)) + 4 * b2n s.halted + 2 * b2n x.cqStalled + b2n ready

/-- Some counter of the tenant is broken (09 R204). -/
def tenantBroken (s : State) (f : Nat) : Bool :=
  match getTen? s f with
  | some t => s.ctrs.broken.any fun c => decide (t.profile.ctrBase ≤ c ∧ c < t.profile.ctrBase + t.profile.ctrCount)
  | none => false

def runsIn (s : State) (f : Nat) (p : Run → Bool) : Nat := (s.runs.filter fun e => e.2.tenant == f && p e.2).length

/-- HG_TENANT_STATE and HG_TENANT_RUNS (12 R301). -/
def tenantState (s : State) (f : Nat) : Nat :=
  match (if tenantIs s f then getTen? s f else none) with
  | some t => 4 * b2n t.held + 2 * b2n (!t.held && decide (0 < runsIn s f fun x => x.state == .waiting || x.state == .paused)) + 1
  | none => 0

def tenantRuns (s : State) (f : Nat) : Nat :=
  (runsIn s f fun x => x.state == .paused) % 256 * 256 + (runsIn s f fun x => x.state == .running || x.state == .pausing) % 256

/-- Logical tiles of running runs placed away from their map (12 R301). -/
def remapped (s : State) (f : Nat) : Nat :=
  ((s.runs.filter fun e => e.2.tenant == f && e.2.state == .running).map fun e =>
    (e.2.place.filter fun p => p.2 != mappedTile (bundleOfRun s e.2) p.1).length).sum

/-- Queue, counter and tenant registers of a function (08 R176; 09 R204; 12 R301). -/
def ownRegs (s : State) (f off : Nat) : Nat :=
  let x := getFn s f
  let prof := ((getTen? s f).map (·.profile)).getD tenant0Profile
  let there := (getTen? s f).isSome
  match off with
  | 0x40 => half false (now s)
  | 0x44 => half true (now s)
  | 0x100 => half false (cqBaseOf x)
  | 0x104 => half true (cqBaseOf x)
  | 0x108 => x.cqCtrl.toNat
  | 0x110 => half false (sq0BaseOf x)
  | 0x114 => half true (sq0BaseOf x)
  | 0x118 => x.sq0Ctrl.toNat
  | 0x120 => qStatus s f
  | 0x180 => if there then prof.ctrBase else 0
  | 0x184 => if there then prof.ctrCount else 0
  | 0x188 => 2 * b2n (tenantBroken s f) + b2n x.saturated
  | 0x190 => ((getTen? s f).map fun t => t.poked.toNat).getD 0
  | 0x200 => tenantState s f
  | 0x204 => tenantRuns s f
  | 0x208 => half false x.switches.toNat
  | 0x20C => half true x.switches.toNat
  | 0x210 => x.switchMax.toNat
  | 0x218 => half false x.late.toNat
  | 0x21C => half true x.late.toNat
  | 0x220 => remapped s f
  | _ => 0

/-- PX_BAR4_VIOL as 64 bits (14 R338). -/
def violWord (x : Fn) : Nat :=
  match x.viol with
  | some v => v.1 % 2 ^ 40 / 64 * 64 + 2 * b2n v.2 + 1
  | none => 0

/-- Host-interface registers and the MSI-X structures of a function (14 R338, R342). -/
def pxRegs (s : State) (f off : Nat) : Nat :=
  let x := getFn s f
  if 0x480 ≤ off ∧ off < 0x500 then (tabGetD 1 ((off - 0x480) / 4) x.irqMod).toNat
  else if 0x8000 ≤ off ∧ off < 0x8200 then
    let e := tabGetD msixDefault ((off - 0x8000) / 16) x.msix
    match off % 16 with
    | 0 => half false e.addr.toNat
    | 4 => half true e.addr.toNat
    | 8 => e.data.toNat
    | _ => b2n e.masked
  else
    match off with
    | 0x400 => 2 ^ 31 * b2n s.board.linkFlit + 2 ^ 16 * s.board.linkWidth + s.board.linkRate
    | 0x404 => 4 * b2n x.bar4Viol + 2 * b2n x.badAccess + b2n (tenantIs s f)
    | 0x408 => half false (x.bar4Base * 2 ^ 30)
    | 0x40C => half true (x.bar4Base * 2 ^ 30)
    | 0x410 => half false (violWord x)
    | 0x414 => half true (violWord x)
    | 0x418 => x.irqCause.toNat
    | 0x41C => x.irqEnable.toNat
    | 0x420 => x.irqVector
    | 0x9000 => x.pba.toNat
    | _ => 0

/-- Tile counters, quantisation counters, program counters by register number (02 R48; 03 R68; 07 R169). -/
def tileCounter (x : Tile) (block n : Nat) : Nat :=
  (match block, n with
   | 0, 0 => x.passCount | 0, 1 => x.issueAclk | 0, 2 => x.waitWeight | 0, 3 => x.waitLateral | 0, 4 => x.waitAcc | 0, 5 => x.waitPause
   | 0, 6 => x.conflict
   | 1, 0 => x.qConverted | 1, 1 => x.qClipped | 1, 2 => x.qFlushed | 1, 3 => x.qNonfinite | 1, 4 => x.qZeroRow | 1, 5 => x.qFallback
   | 1, 6 => x.qZeroCol
   | 2, 0 => x.stepCount | 2, 1 => x.stepRecomputed | 2, 2 => x.wordIssued | 2, 3 => x.stallQueue | 2, 4 => x.stallReduce
   | 2, 5 => x.stallEvent | 2, 6 => x.stepWait
   | _, _ => 0).toNat

/-- The blocks of 02 R48, 03 R68 and 07 R169: a fused tile reads as zero. -/
def tileRegs (s : State) (off : Nat) : Nat :=
  let o := off - 0x20000
  let t := o % 0x800 / 0x40
  let r := o % 0x40
  if !tilePresent s t then 0
  else if o / 0x800 = 2 ∧ r = 0x38 then (getTile s t).stepMax.toNat
  else half (decide (r % 8 = 4)) (tileCounter (getTile s t) (o / 0x800) (r / 8))

/-- A furrow operation's last slice on the pair has not ended (04 R98). -/
def fopBusy (s : State) (k u : Nat) (e : Nat × FurrowOp) : Bool :=
  e.2.touched.contains (k, u / 32, u % 32) &&
  (!(e.2.computed || e.2.stopped) || (getStk s k).slices.any fun x => x.id == e.1 && x.d * 32 + x.p == u)

/-- One word of SC_FURROW_BUSY; a virtual function sees its own tenant's operations (04 R98). -/
def busyWord (s : State) (f k w : Nat) : Nat :=
  ((List.range 32).map fun i =>
    if s.fops.any fun e => (f == 0 || e.2.tenant == f) && fopBusy s k (32 * w + i) e then 2 ^ i else 0).sum

/-- A thermal or power limit is the lower one (17 R414; 04 R103). -/
def trimmed (s : State) (k : Nat) : Bool :=
  let x := getStk s k
  decide (effStack s k < min x.stackLimit 256) || decide (effDie s k < min x.dieLimit 16)

def localAddr (blk : Nat) : Nat := blk % 2 ^ 31 * 64

def ceLastWord (x : Stack) : Nat :=
  match x.ceLast with
  | some e => 2 ^ 63 + e.2 % 128 * 2 ^ 56 + localAddr e.1
  | none => 0

def ueFirstWord (x : Stack) : Nat :=
  match x.ueFirst with
  | some b => localAddr b + 2 * b2n x.ueMore + 1
  | none => 2 * b2n x.ueMore

/-- The registers of one stack controller (04 R103; 10 R240), for the physical function. -/
def stackRegs (s : State) (k r : Nat) : Nat :=
  let x := getStk s k
  let h := decide (r % 8 = 4)
  let wide (v : W64) : Nat := half h v.toNat
  match r / 8 * 8 with
  | 0x000 => if h then 2 ^ 31 * b2n (trimmed s k) + 65536 * effStack s k + effDie s k else 65536 * x.stackLimit + x.dieLimit
  | 0x008 => if h then 0 else x.slices.length
  | 0x010 => wide x.slicesDone
  | 0x018 => wide x.hostWait
  | 0x020 => if h then x.debtMax else x.hostWaitMax.toNat
  | 0x028 => wide x.recompute
  | 0x030 => wide x.subst
  | 0x140 => if h then 65536 * x.ceLeakMs.toNat + x.ceThreshold.toNat else 2 ^ 31 * b2n x.ceFired + x.ceLevel.toNat
  | 0x148 => wide x.ceTotal
  | 0x150 => half h (ceLastWord x)
  | 0x158 => wide x.ueTotal
  | 0x160 => half h (ueFirstWord x)
  | 0x168 => wide x.poisonReads
  | 0x170 => if h then 2 ^ 31 * b2n x.patrolPause + x.patrolHours else x.ueSuppressed.toNat
  | 0x178 => if h then 0 else x.patrolPasses.toNat
  | 0x180 => wide x.mergeRmw
  | 0x188 => wide x.mergeFull
  | 0x190 => half h (localAddr x.flipAddr + 8 * x.flipSource + 2 * b2n x.flipFired + b2n x.flipArmed)
  | 0x198 => if h then 0 else x.spares.length
  | 0x1A0 => wide x.linkRetry
  | 0x1A8 => if h then 0 else x.linkRetrain.toNat
  | _ => 0

/-- One port's block (13 R328). -/
def portRegs (s : State) (p r : Nat) : Nat :=
  let x := getPort s p
  let h := decide (r % 8 = 4)
  let wide (v : W64) : Nat := half h v.toNat
  match r / 8 with
  | 0 => if h then 0 else 65536 * x.linkUp.toNat + 256 * x.mode + b2n x.configured
  | 1 => wide x.txBytes
  | 2 => wide x.rxBytes
  | 3 => wide x.fecCorr
  | 4 => wide x.fecUncorr
  | 5 => wide x.dropped
  | 6 => wide x.pfcRx
  | _ => 0

def minOf : List Nat → Nat
  | [] => 0
  | a :: l => l.foldl min a

/-- HG_DPT_FLOOR: the lowest major and ABI level in any group; zero when in none (13 R329). -/
def dptFloor (s : State) : Nat :=
  let ms := s.dpt.groups.flatMap fun g => majorsOf s g.2
  let abis := if s.dpt.groups.isEmpty then [] else s.cap.abi.toNat :: s.dpt.peers.map fun p => p.2.abi
  65536 * minOf ms + minOf abis

/-- Transport registers (13 R329). -/
def dptRegs (s : State) (r : Nat) : Nat :=
  let d := s.dpt
  let h := decide (r % 8 = 4)
  let wide (v : W64) : Nat := half h v.toNat
  match r with
  | 0x000 => 2 ^ 31 * b2n d.moduleSet + d.moduleNumber
  | 0x008 => wide d.incarnation
  | 0x00C => wide d.incarnation
  | 0x010 => d.timeoutMs
  | 0x014 => dptFloor s
  | 0x018 => wide d.peersLost
  | 0x01C => wide d.peersLost
  | 0x020 => wide d.retx
  | 0x024 => wide d.retx
  | 0x028 => wide d.creditStall
  | 0x02C => wide d.creditStall
  | 0x030 => d.reorderMax % 2 ^ 26
  | 0x100 => half false (d.ptpRxBase.toNat / 4096 * 4096)
  | 0x104 => half true d.ptpRxBase.toNat
  | 0x108 => d.ptpRxCtrl.toNat
  | 0x10C => d.ptpRxTail
  | 0x110 => d.ptpRxHead
  | 0x118 => half false (d.ptpTxBase.toNat / 4096 * 4096)
  | 0x11C => half true d.ptpTxBase.toNat
  | 0x120 => d.ptpTxCtrl.toNat
  | 0x128 => d.ptpTxHead
  | _ => 0

/-- Registers that the physical function alone has or reads (14 R335). -/
def pfRegs (s : State) (off : Nat) : Nat :=
  if 0x20000 ≤ off ∧ off < 0x21800 then tileRegs s off
  else if 0x40000 ≤ off ∧ off < 0x40500 then portRegs s ((off - 0x40000) / 0x40) ((off - 0x40000) % 0x40)
  else if 0x41000 ≤ off ∧ off < 0x4112C then dptRegs s (off - 0x41000)
  else
    match off with
    | 0x1A0 => s.ctrs.waits.length % 4096
    | 0x1A8 => half false s.ctrs.updates.toNat
    | 0x1AC => half true s.ctrs.updates.toNat
    | 0x228 => half false s.margin.toNat
    | 0x22C => half true s.margin.toNat
    | 0x428 => half false s.board.linkErrors.toNat
    | 0x42C => half true s.board.linkErrors.toNat
    | 0x430 => half false s.board.linkReplays.toNat
    | 0x434 => half true s.board.linkReplays.toNat
    | 0x32000 => half false s.far.capacity
    | 0x32004 => half true (s.far.capacity % 2 ^ 43)
    | 0x32008 => 16 * s.far.layout + 2 * s.far.expanders.length + b2n (!s.far.links.isEmpty)
    | 0x32010 => half false s.far.poisonReads.toNat
    | 0x32014 => half true s.far.poisonReads.toNat
    | 0x32018 => half false s.far.linkErrors.toNat
    | 0x3201C => half true s.far.linkErrors.toNat
    | _ => 0

/-- The 4-byte register at a BAR0 offset as function `f` reads it, without side effects. -/
def reg32 (s : State) (f off : Nat) : Nat :=
  if 0x1000 ≤ off ∧ off < 0x2000 then capRead s off
  else if 0x30000 ≤ off ∧ off < 0x31000 then
    let k := (off - 0x30000) / 0x200
    let r := (off - 0x30000) % 0x200
    if 0x100 ≤ r ∧ r < 0x140 then busyWord s f k ((r - 0x100) / 4) else if f = 0 then stackRegs s k r else 0
  else if (0x400 ≤ off ∧ off < 0x428) ∨ (0x480 ≤ off ∧ off < 0x500) ∨ (0x8000 ≤ off ∧ off < 0x9008) then pxRegs s f off
  else if off < 0x228 ∧ ¬(0x1A0 ≤ off ∧ off < 0x1B0) then ownRegs s f off
  else if f = 0 then pfRegs s off
  else 0

/-! ### Reads with effects (00 R5, R454; 01 R11) -/

/-- The lowest offset of the 64-bit register with RC fields in both halves that holds `off` (00 R454). -/
def rc64 (off : Nat) : Option Nat :=
  if off / 8 * 8 = 0x410 then some 0x410
  else if 0x30000 ≤ off ∧ off < 0x31000 ∧ (off - 0x30000) % 0x200 / 8 * 8 = 0x160 then some (off / 8 * 8)
  else none

/-- RC fields at a 4-byte offset are cleared, of a 64-bit register those of both halves. -/
def clearRc (f off : Nat) (s : State) : State :=
  if off = 0x210 then modFn f (fun x => { x with switchMax := 0 }) s
  else if off = 0x410 then modFn f (fun x => { x with viol := none }) s
  else if f ≠ 0 then s
  else if 0x30000 ≤ off ∧ off < 0x31000 then
    let k := (off - 0x30000) / 0x200
    match (off - 0x30000) % 0x200 with
    | 0x20 => modStk k (fun x => { x with hostWaitMax := 0 }) s
    | 0x24 => modStk k (fun x => { x with debtMax := 0 }) s
    | 0x160 => modStk k (fun x => { x with ueFirst := none, ueMore := false }) s
    | _ => s
  else if 0x21000 ≤ off ∧ off < 0x21800 ∧ (off - 0x21000) % 0x40 = 0x38 then modTile ((off - 0x21000) / 0x40) (fun x => { x with stepMax := 0 }) s
  else if off = 0x41030 then modDpt (fun d => { d with reorderMax := 0 }) s
  else s

/-- A 4-byte read: a low half of a 64-bit RC register latches the high half for the function; the next read of
the high half returns and releases it. HG_DEV_TIME latches in the same way (01 R11). -/
def read32 (f off : Nat) (s : State) : Nat × State :=
  let x := getFn s f
  if off = 0x40 then (reg32 s f off, modFn f (fun y => { y with devLatch := some (BitVec.ofNat 32 (reg32 s f 0x44)) }) s)
  else if off = 0x44 then
    match x.devLatch with
    | some v => (v.toNat, modFn f (fun y => { y with devLatch := none }) s)
    | none => (reg32 s f off, s)
  else
    match rc64 off with
    | none => (reg32 s f off, clearRc f off s)
    | some lo =>
      if off = lo then
        (reg32 s f lo, clearRc f lo (modFn f (fun y => { y with rcLatch := tabPut lo (BitVec.ofNat 32 (reg32 s f (lo + 4))) y.rcLatch }) s))
      else
        match tabGet? lo x.rcLatch with
        | some v => (v.toNat, modFn f (fun y => { y with rcLatch := tabDel lo y.rcLatch }) s)
        | none => (reg32 s f off, s)

/-- An 8-byte read is consistent and touches no latch (01 R11; 00 R454). -/
def read64 (f off : Nat) (s : State) : Nat × State :=
  let v := reg32 s f off + 2 ^ 32 * reg32 s f (off + 4)
  (v, match rc64 off with
    | some lo => clearRc f lo s
    | none => clearRc f (off + 4) (clearRc f off s))

/-- A naturally aligned access of 4 or 8 bytes (14 R336). -/
def aligned (off size : Nat) : Bool := (size == 4 || size == 8) && off % size == 0

def badAccess (f : Nat) (s : State) : State := modFn f (fun x => { x with badAccess := true }) s

/-- HG_SQ_STATE.BLOCKED: a wait or a barrier holds a later command of the queue (08 R178, R188). -/
def queueBlocked (s : State) (f q : Nat) : Bool := s.cmds.any fun c => c.tenant == f && c.sq == q && c.stage == .admitted && queueHolds s c

/-- A doorbell page of BAR2 (08 R178): HEAD and STATE; the WO registers read zero. -/
def bar2Read (s : State) (f off : Nat) : Nat :=
  let q := off / 0x1000
  let x := getFn s f
  let ring := if q = 0 then (if sq0Enabled x then some x.sq0 else none) else tabGet? q x.queues
  if 16 ≤ q then 0
  else
    match ring with
    | none => 0
    | some r =>
      match off % 0x1000 with
      | 4 => r.head
      | 8 => 4 * b2n (queueBlocked s f q) + 2 * b2n r.badTail + 1
      | _ => 0

/-- A read of a function's BAR0. -/
def barRead (f off size : Nat) (s : State) : State :=
  if !aligned off size then emit (.regRead f off 0) (badAccess f s)
  else
    let r := if size = 8 then read64 f off s else read32 f off s
    emit (.regRead f off r.1) r.2

/-- A read of a function's BAR2: no register of it is RC. -/
def pageRead (f off size : Nat) (s : State) : State :=
  if !aligned off size then emit (.bar2Read f off 0) (badAccess f s)
  else emit (.bar2Read f off (bar2Read s f off + (if size = 8 then 2 ^ 32 * bar2Read s f (off + 4) else 0))) s

/-! ### Configuration space (14 R334, R342; 18 R423) -/

/-- MG_BOOT_STATUS (18 R423, R438). -/
def bootStatus (s : State) : Nat :=
  2 ^ 24 * s.henua.attempts + 2 ^ 16 * s.henua.source + 256 * s.henua.reason + s.henua.bstate

/-- A register of the push DVSEC, which the physical function alone has: RW fields as stored, MG_BOOT_CTRL write-only,
and the header: DVSEC ID 0x0001, revision 0, 32 bytes long. -/
def dvsecReg (s : State) : CfgReg → Nat
  | .dvsecHeader w => if w = 0 then Config.dvsecWord 0 % 2 ^ 32 else if w = 1 then Config.dvsecWord 1 % 2 ^ 16 + 0x20 * 2 ^ 20 else 0x0001
  | .bootAddrLow => half false (s.henua.bootAddr.toNat / 4096 * 4096)
  | .bootAddrHigh => half true s.henua.bootAddr.toNat
  | .bootLen => bitsOf s.henua.bootLen.toNat 24 0
  | .bootStatus => bootStatus s
  | _ => 0

/-- A configuration register as function `f` reads it; the codings of PCIe's own are PRESUMED, log entry 33. -/
def configReg (s : State) (f : Nat) (r : CfgReg) : Nat :=
  let x := getFn s f
  match r with
  | .msixControl => 2 ^ 15 * b2n x.msixEnable + 2 ^ 14 * b2n x.msixMask + 31
  | .bar4Size => x.bar4Log2 + 10
  | .busMaster => b2n x.busMaster
  | .vfEnable => if f = 0 then b2n s.board.vfEnable else 0
  | .deviceId => if f = 0 then 0x0D32 else 0x0D33
  | .classCode => 0x120000
  | .totalVfs => if f = 0 then 63 else 0
  | .initialVfs => if f = 0 then 63 else 0
  | .firstVfOffset => if f = 0 then 1 else 0
  | .vfStride => if f = 0 then 1 else 0
  | .powerState => 3 * b2n x.d3hot
  | r => if f = 0 then dvsecReg s r else 0

/-- Until its requests are served, configuration space answers Request Retry Status (19 R448). -/
def configRead (f : Nat) (r : CfgReg) (s : State) : State :=
  emit (if s.board.crsDone then .cfgRead f r (configReg s f r) else .cfgRetry f r) s

/-- HG_DEV_TIME_READ (01 R11). -/
def execHgDevTimeRead (fn : Nat) (a : Access) (s : State) : Res :=
  onUnit (fnOk fn)
    (match a with
     | .low32 => barRead fn 0x40 4 s
     | .high32 => barRead fn 0x44 4 s
     | .full64 => barRead fn 0x40 8 s)

/-- RC_REGISTER_READ (00 R5, R454), and any other read of a register. -/
def execRcRegisterRead (fn : Nat) (place : RegPlace) (size : Nat) (s : State) : Res :=
  onUnit (fnOk fn)
    (match place with
     | .bar0 off => barRead fn off size s
     | .bar2 off => pageRead fn off size s
     | .config r => configRead fn r s)

/-! ### Writes (00 R5, R6) -/

/-- The half of a 64-bit register that a 4-byte write replaces. -/
def putHalf (high : Bool) (v : Nat) (old : W64) : W64 :=
  if high then BitVec.ofNat 64 (old.toNat % 2 ^ 32 + v % 2 ^ 32 * 2 ^ 32) else BitVec.ofNat 64 (old.toNat / 2 ^ 32 * 2 ^ 32 + v % 2 ^ 32)

/-- W1C fields (00 R5): a 1 clears the bit. -/
def writeW1c (f off v : Nat) (s : State) : State :=
  match off with
  | 0x188 => modFn f (fun x => { x with saturated := x.saturated && !bitOf v 0 }) s
  | 0x404 => modFn f (fun x => { x with bar4Viol := x.bar4Viol && !bitOf v 2, badAccess := x.badAccess && !bitOf v 1 }) s
  | 0x418 => modFn f (fun x => { x with irqCause := BitVec.ofNat 6 (x.irqCause.toNat &&& (63 - v % 64)) }) s
  | _ => s

/-- The state that a meaning's next leaves, for the registers that have a row of their own. -/
def viaRow (r : Res) (s : State) : State :=
  match r with
  | .next t => t
  | _ => s

/-- SC_FURROW_BUDGET (04 R92, R103): the last value written is kept; larger values act as the limits. -/
def setBudget (k v : Nat) (s : State) : State := modStk k (fun x => { x with stackLimit := bitsOf v 24 16, dieLimit := bitsOf v 4 0 }) s

/-- SC_PATROL_CTRL (10 R238, R240). -/
def setPatrol (k v : Nat) (s : State) : State := modStk k (fun x => { x with patrolPause := bitOf v 31, patrolHours := bitsOf v 7 0 }) s

/-- One word of an MSI-X entry. -/
def msixWord (r v : Nat) (m : MsixEntry) : MsixEntry :=
  match r with
  | 0 => { m with addr := putHalf false v m.addr }
  | 4 => { m with addr := putHalf true v m.addr }
  | 8 => { m with data := BitVec.ofNat 32 v }
  | _ => { m with masked := bitOf v 0 }

/-- An MSI-X table word (14 R342). -/
def writeMsix (f off v : Nat) (s : State) : State :=
  let e := (off - 0x8000) / 16
  sendPending f e (modFn f (fun x => { x with msix := tabMod msixDefault e (msixWord (off % 16) v) x.msix }) s)

/-- Registers of a function's own (08 R176, R177; 14 R338). BASE cannot be written while ENABLE is 1. -/
def writeOwn (f off v : Nat) (s : State) : State :=
  if 0x480 ≤ off ∧ off < 0x500 then
    modFn f (fun x => { x with irqMod := tabPut ((off - 0x480) / 4) (BitVec.ofNat 32 (bitsOf v 25 16 * 65536 + bitsOf v 7 0)) x.irqMod }) s
  else if 0x8000 ≤ off ∧ off < 0x8200 then writeMsix f off v s
  else
    match off with
    | 0x100 => modFn f (fun x => if cqEnabled x then x else { x with cqBase := putHalf false v x.cqBase }) s
    | 0x104 => modFn f (fun x => if cqEnabled x then x else { x with cqBase := putHalf true v x.cqBase }) s
    | 0x108 => viaRow (execHgCqCtrlWrite f (BitVec.ofNat 32 v) s) s
    | 0x110 => modFn f (fun x => if sq0Enabled x then x else { x with sq0Base := putHalf false v x.sq0Base }) s
    | 0x114 => modFn f (fun x => if sq0Enabled x then x else { x with sq0Base := putHalf true v x.sq0Base }) s
    | 0x118 => viaRow (execHgSq0CtrlWrite f (BitVec.ofNat 32 v) s) s
    | 0x408 => modFn f (fun x => { x with bar4Base := x.bar4Base / 4 * 4 + bitsOf v 31 30 }) s
    | 0x40C => modFn f (fun x => { x with bar4Base := bitsOf v 7 0 * 4 + x.bar4Base % 4 }) s
    | 0x41C => modFn f (fun x => { x with irqEnable := BitVec.ofNat 6 v }) s
    | 0x420 => modFn f (fun x => { x with irqVector := v % 32 }) s
    | _ => writeW1c f off v s

/-- Registers that only the physical function writes (04 R103; 10 R240; 12 R301; 13 R329). -/
def writePf (off v : Nat) (s : State) : State :=
  if 0x30000 ≤ off ∧ off < 0x31000 then
    let k := (off - 0x30000) / 0x200
    match (off - 0x30000) % 0x200 with
    | 0x000 => setBudget k v s
    | 0x144 => modStk k (fun x => { x with ceLeakMs := BitVec.ofNat 16 (v / 65536), ceThreshold := BitVec.ofNat 16 v }) s
    | 0x174 => setPatrol k v s
    | _ => s
  else
    match off with
    | 0x228 => schedule { s with margin := putHalf false v s.margin }
    | 0x22C => schedule { s with margin := putHalf true v s.margin }
    | 0x41010 => modDpt (fun d => { d with timeoutMs := bitsOf v 13 0 }) s
    | 0x41100 => modDpt (fun d => { d with ptpRxBase := putHalf false (v / 4096 * 4096) d.ptpRxBase }) s
    | 0x41104 => modDpt (fun d => { d with ptpRxBase := putHalf true v d.ptpRxBase }) s
    | 0x41108 => modDpt (fun d => { d with ptpRxCtrl := BitVec.ofNat 32 (2 ^ 31 * bitsOf v 31 31 + bitsOf v 3 0) }) s
    | 0x41110 => viaRow (execHgPtpRxHeadWrite 0 v s) s
    | 0x41118 => modDpt (fun d => { d with ptpTxBase := putHalf false (v / 4096 * 4096) d.ptpTxBase }) s
    | 0x4111C => modDpt (fun d => { d with ptpTxBase := putHalf true v d.ptpTxBase }) s
    | 0x41120 => modDpt (fun d => { d with ptpTxCtrl := BitVec.ofNat 32 (2 ^ 31 * bitsOf v 31 31 + bitsOf v 3 0) }) s
    | 0x41124 => viaRow (execHgPtpTxTailWrite 0 v 0 s) s
    | _ => s

/-- A 4-byte write of BAR0: the device ignores a write to any register that the function may not write. -/
def write32 (f off v : Nat) (s : State) : State :=
  if off < 0x200 ∨ (0x400 ≤ off ∧ off < 0x1000) ∨ (0x8000 ≤ off ∧ off < 0x8200) then writeOwn f off v s
  else if f = 0 then writePf off v s
  else s

/-- A 4-byte write of BAR2 (08 R178). -/
def bar2Write (f off v : Nat) (s : State) : State :=
  let q := off / 0x1000
  if 16 ≤ q then s
  else
    match off % 0x1000 with
    | 0x00 => viaRow (execHgSqTailWrite f q v [] s) s
    | 0x40 => viaRow (execHgCqHeadWrite f q v s) s
    | _ => s

/-- An aligned write of 4 or 8 bytes, low address first (14 R336). -/
def sizedWrite (w : Nat → Nat → State → State) (f off size v : Nat) (s : State) : State :=
  if !aligned off size then badAccess f s
  else if size = 8 then w (off + 4) (v / 2 ^ 32 % 2 ^ 32) (w off (v % 2 ^ 32) s) else w off (v % 2 ^ 32) s

/-- A write of BAR0; HG_PREEMPT_MARGIN written whole is one write of one register (12 R301). -/
def bar0Write (f off size v : Nat) (s : State) : State :=
  if f = 0 ∧ off = 0x228 ∧ size = 8 then schedule { s with margin := BitVec.ofNat 64 v } else sizedWrite (write32 f) f off size v s

/-- MSI-X Message Control: bit 15 Enable, bit 14 Function Mask (14 R342; PCIe, log entry 33). -/
def writeMsixControl (f v : Nat) (s : State) : State :=
  forEach (sendPending f) (List.range 32) (modFn f (fun x => { x with msixEnable := bitOf v 15, msixMask := bitOf v 14 }) s)

/-- Resizable BAR: 1 GiB to 1 TiB, in PCIe's code from 10 (log entry 33); one size for every VF (14 R334). -/
def writeBar4Size (f v : Nat) (s : State) : State :=
  if 10 ≤ v ∧ v ≤ 20 then
    (if f = 0 then modFn 0 (fun x => { x with bar4Log2 := v - 10 }) s
     else forEach (fun g => modFn g fun x => { x with bar4Log2 := v - 10 }) ((List.range 64).tail) s)
  else s

/-- D0 and D3hot alone are supported, and a D-state changes no module power state (14 R331, R332); another code leaves the
state as it is (PCIe, log entry 33). -/
def writePowerState (f v : Nat) (s : State) : State :=
  if v % 4 = 0 then modFn f (fun x => { x with d3hot := false }) s
  else if v % 4 = 3 then modFn f (fun x => { x with d3hot := true }) s
  else s

/-- Configuration space, once its requests are served (19 R448); MG_BOOT_CTRL.GO starts a push (18 R423). -/
def configWrite (f : Nat) (r : CfgReg) (v : Nat) (s : State) : State :=
  if !s.board.crsDone then emit (.cfgRetry f r) s
  else
    match r with
    | .bootAddrLow => if f = 0 then modHenua (fun h => { h with bootAddr := putHalf false v h.bootAddr }) s else s
    | .bootAddrHigh => if f = 0 then modHenua (fun h => { h with bootAddr := putHalf true v h.bootAddr }) s else s
    | .bootLen => if f = 0 then modHenua (fun h => { h with bootLen := BitVec.ofNat 32 (v % 2 ^ 25) }) s else s
    | .bootCtrl => if f = 0 ∧ bitOf v 0 = true then viaRow (execFirmwarePushGo s) s else s
    | .msixControl => writeMsixControl f v s
    | .bar4Size => writeBar4Size f v s
    | .busMaster => modFn f (fun x => { x with busMaster := bitOf v 0 }) s
    | .vfEnable => if f = 0 then modBoard (fun b => { b with vfEnable := bitOf v 0 }) s else s
    | .powerState => writePowerState f v s
    | _ => s

/-- W1C_REGISTER_WRITE (00 R5). -/
def execW1cRegisterWrite (fn off : Nat) (value : W32) (s : State) : Res := onUnit (fnOk fn) (sizedWrite (writeW1c fn) fn off 4 value.toNat s)

/-- REGISTER_WRITE (00 R5, R6): by the type of each field at the address. -/
def execRegisterWrite (t : RegTarget) (size : Nat) (value : W64) (s : State) : Res :=
  onUnit t.ok
    (match t.place with
     | .bar0 off => bar0Write t.fn off size value.toNat s
     | .bar2 off => sizedWrite (bar2Write t.fn) t.fn off size value.toNat s
     | .config r => configWrite t.fn r (value.toNat % 2 ^ 32) s)

/-- SC_FURROW_BUDGET_WRITE (04 R92, R103): the physical function alone. -/
def execScFurrowBudgetWrite (fn stack : Nat) (value : W32) (s : State) : Res :=
  onUnit (fnOk fn && stackOk stack) (if fn = 0 then setBudget stack value.toNat s else s)

/-- SC_PATROL_CTRL_WRITE (10 R238, R240): the physical function alone. -/
def execScPatrolCtrlWrite (fn stack : Nat) (value : W32) (s : State) : Res :=
  onUnit (fnOk fn && stackOk stack) (if fn = 0 then setPatrol stack value.toNat s else s)

/-- PM_POWER_LIMIT_WRITE (17 R415, R417). -/
def setPowerLimit (v : Nat) (s : State) : State := modPm (fun p => { p with limit := v % 4096 }) s

def execPmPowerLimitWrite (value : W32) (s : State) : Res := .next (if s.board.power48 then setPowerLimit value.toNat s else s)

end Sys2Proof.Machine
end

