-- ==== Sys2Proof/Machine/Mgmt.lean ====
section
/-! DEFINITION. The Henua controller's management commands (18 R436, R437) and register space (16 R391; 17 R417;
18 R438), and the firmware push over its paths (18 R426). -/

namespace Sys2Proof.Machine

/-! ### The management register space -/

/-- Security and event registers (18 R438). -/
def secRegs (s : State) (r : Nat) : Nat :=
  let h := s.henua
  match r with
  | 0x00 => 256 * slotBits s (·.revoked) + slotBits s (·.programmed)
  | 0x04 =>
    let im := h.image
    2 ^ 31 * b2n im.isSome + 2 ^ 24 * ((im.map (·.keySlot)).getD 0) + 2 ^ 16 * ((im.map (·.svn)).getD 0 % 128) + s.fuses.rollback
  | 0x08 => bootStatus s
  | 0x0C => 4 * b2n h.evtI3c + 2 * b2n h.evtEth + b2n h.evtFormat
  | 0x10 => h.evtSeq.toNat
  | 0x14 => h.evtLost.toNat
  | 0x18 => half false h.operating.toNat
  | 0x1C => half true h.operating.toNat
  | 0x20 => half false h.mgmtSeq.toNat
  | 0x24 => half true h.mgmtSeq.toNat
  | _ => 0

/-- The tile under test, of several the lowest (16 R391). -/
def testedTile (s : State) : Option Nat := (List.range 32).find? fun t => (getTile s t).underTest

/-- Self-test registers (16 R391). -/
def testRegs (s : State) (r : Nat) : Nat :=
  let x := s.test
  let h := decide (r % 8 = 4)
  match r with
  | 0x00 =>
    2 ^ 31 * b2n x.bootDone + 2 ^ 16 * ((List.range 8).map fun k => if (testOf? s (.stack k)).isSome then 2 ^ k else 0).sum +
    (match testedTile s with
     | some t => 32 + t
     | none => 0)
  | 0x04 => x.bootTiles.toNat
  | 0x08 => 256 * x.bootSluices.toNat + x.bootStacks.toNat
  | 0x0C => x.bootUs.toNat
  | 0x10 => half h x.tileTests.toNat
  | 0x14 => half h x.tileTests.toNat
  | 0x18 => half h x.tileFails.toNat
  | 0x1C => half h x.tileFails.toNat
  | 0x20 => half h x.stackTests.toNat
  | 0x24 => half h x.stackTests.toNat
  | 0x28 => half h x.stackFails.toNat
  | 0x2C => half h x.stackFails.toNat
  | 0x30 => x.slotSkipped.toNat
  | _ => 0

def powerCode : Power → Nat
  | .run => 0
  | .trim => 1
  | .idle => 2
  | .hold => 3

/-- Power registers (17 R417). -/
def powerRegs (s : State) (r : Nat) : Nat :=
  let p := s.pm
  match r with
  | 0x00 => 2 ^ 12 * p.lastWake + 256 * b2n p.transition + powerCode p.state
  | 0x04 => b2n p.iso
  | 0x08 => p.limit
  | 0x0C => p.now % 4096
  | 0x10 => p.peak % 4096
  | 0x14 => 65536 * p.limStack + 256 * p.limDie + p.kP
  | 0x20 => half false p.resRun.toNat
  | 0x24 => half true p.resRun.toNat
  | 0x28 => half false p.resTrim.toNat
  | 0x2C => half true p.resTrim.toNat
  | 0x30 => half false p.resIdle.toNat
  | 0x34 => half true p.resIdle.toNat
  | 0x38 => half false p.resHold.toNat
  | 0x3C => half true p.resHold.toNat
  | 0x40 => p.wakes.toNat
  | _ => 0

/-- One block's temperature word: TH_DIE, TH_IO, TH_STACK (17 R417). -/
def thermWord (p : PowerSt) (b : Nat) : Nat :=
  (if b < 4 then 2 ^ 24 * tabGetD 0 b p.kT else 0) + 65536 * tabGetD 0 b p.level + (BitVec.ofInt 16 (tabGetD 0 b p.temp)).toNat

/-- Thermal registers (17 R417). -/
def thermRegs (s : State) (r : Nat) : Nat :=
  if r < 0x18 then thermWord s.pm (r / 4)
  else if 0x20 ≤ r ∧ r < 0x40 then thermWord s.pm (6 + (r - 0x20) / 4)
  else if r = 0x40 then s.pm.stop.toNat
  else if 0x100 ≤ r ∧ r < 0x148 then ((s.pm.broken.filter fun i => i / 32 == (r - 0x100) / 4).map fun i => 2 ^ (i % 32)).sum
  else 0

/-- A 4-byte management register, without side effects; a reserved offset reads zero. -/
def mgmtReg (s : State) (off : Nat) : Nat :=
  if 0x2000 ≤ off ∧ off < 0x3000 then secRegs s (off - 0x2000)
  else if 0x3000 ≤ off ∧ off < 0x4000 then testRegs s (off - 0x3000)
  else if 0x4000 ≤ off ∧ off < 0x5000 then powerRegs s (off - 0x4000)
  else if 0x5000 ≤ off ∧ off < 0x6000 then thermRegs s (off - 0x5000)
  else 0

/-- The RC registers of the space are cleared by the read (00 R5). -/
def clearMgmt (off : Nat) (s : State) : State :=
  match off with
  | 0x2014 => modHenua (fun h => { h with evtLost := 0 }) s
  | 0x3030 => modTest (fun x => { x with slotSkipped := 0 }) s
  | 0x4010 => modPm (fun p => { p with peak := 0 }) s
  | _ => s

/-- Words read one after another. -/
def readMgmt : Nat → Nat → State → List Byte × State
  | 0, _, s => ([], s)
  | n + 1, off, s =>
    let r := readMgmt n (off + 4) (clearMgmt off s)
    (toLE 4 (mgmtReg s off) ++ r.1, r.2)

/-! ### Answers and signatures (18 R436, R437) -/

/-- An answer on the path. -/
def answer (code status : Nat) (data : List Byte) (s : State) : State := emit (.mgmt code status data) s

/-- A command runs when the controller is up. -/
def onHenua (f : State → State) (s : State) : Res := .next (if s.henua.up then f s else s)

/-- The bytes that a signature covers: code, parameters, sequence (their form is the model's; log entry 9). -/
def signedBytes (code seq : Nat) (params : List Nat) : List Byte := toLE 1 code ++ params.flatMap (toLE 8) ++ toLE 8 seq

/-- A public key that fills an unrevoked owner slot. -/
def ownerKey (s : State) (key : List Byte) : Bool :=
  [4, 5].any fun k => (keySlot s k).programmed && !(keySlot s k).revoked && sha3 key == (keySlot s k).hash

/-- Over I3C no signature is required; over Ethernet the three things of R437. -/
def signedOk (s : State) (p : MgmtPath) (a : Option MgmtAuth) (code : Nat) (params : List Nat) : Bool :=
  match p, a with
  | .i3c, _ => true
  | .ethernet, some x =>
    decide (s.henua.mgmtSeq.toNat < x.seq ∧ x.seq < 2 ^ 64) && ownerKey s x.pubKey && Config.mldsaVerify x.pubKey (signedBytes code x.seq params) x.sig
  | .ethernet, none => false

/-- An accepted command sets MG_MGMT_SEQ. -/
def acceptSeq (p : MgmtPath) (a : Option MgmtAuth) (s : State) : State :=
  match p, a with
  | .ethernet, some x => modHenua (fun h => { h with mgmtSeq := BitVec.ofNat 64 x.seq }) s
  | _, _ => s

/-- A refused signed command raises one event, at most one per second (of operating time). -/
def refuseSigned (code : Nat) (s : State) : State :=
  let t := s.henua.operating.toNat
  answer code stWindow []
    (if s.henua.refusedAt = some t then s else henuaEvent 0x0B 1 [code] (modHenua (fun h => { h with refusedAt := some t }) s))

/-- The checks in the order of R436: parameters, signature, VALID. -/
def signedCmd (code : Nat) (p : MgmtPath) (a : Option MgmtAuth) (params : List Nat) (paramsOk needsValid : Bool) (f : State → State) (s : State) : Res :=
  onHenua (fun s =>
    if !paramsOk then answer code stBadDescriptor [] s
    else if !signedOk s p a code params then refuseSigned code s
    else if needsValid && !s.cap.valid then answer code stEngineAbsent [] s
    else f (acceptSeq p a s)) s

/-! ### Commands that read -/

/-- GET_STATUS: slot number (19 R443), start-up step, capability state and PCIe usability (01 R16), firmware
push status; the layout is the model's (log entry 34). -/
def execGetStatus (_p : MgmtPath) (s : State) : Res :=
  onHenua (answer 0x01 stOk (toLE 1 s.board.slotId ++ toLE 1 s.board.step ++ toLE 4 (capStateWord s.cap) ++ toLE 1 (b2n s.cap.pcie) ++ toLE 4 (bootStatus s))) s

/-- READ_REG: 1 to 64 words at an aligned offset. -/
def execReadReg (_p : MgmtPath) (off count : Nat) (s : State) : Res :=
  onHenua (fun s =>
    if 1 ≤ count ∧ count ≤ 64 ∧ off % 4 = 0 then
      let r := readMgmt count off s
      answer 0x02 stOk r.1 r.2
    else answer 0x02 stBadDescriptor [] s) s

/-- The registers that WRITE_REG may write. -/
def rwMgmt (off : Nat) : Bool := off == 0x200C || off == 0x4008

def writeMgmt (off v : Nat) (s : State) : State :=
  if off = 0x200C then modHenua (fun h => { h with evtI3c := bitOf v 2, evtEth := bitOf v 1, evtFormat := bitOf v 0 }) s
  else if off = 0x4008 then setPowerLimit v s
  else s

/-- WRITE_REG: RW fields only. -/
def execWriteReg (p : MgmtPath) (a : Option MgmtAuth) (off : Nat) (value : W32) (s : State) : Res :=
  signedCmd 0x03 p a [off, value.toNat] (rwMgmt off) false (fun s => answer 0x03 stOk [] (writeMgmt off value.toNat s)) s

/-- The envelope of an event (18 R433); payloads other than records are 8-byte fields (log entry 34). -/
def envelope (e : HEvent) : List Byte :=
  let pl := if e.cls = 0x01 then e.payload.map (BitVec.ofNat 8) else e.payload.flatMap (toLE 8)
  toLE 2 2 ++ toLE 1 e.cls ++ toLE 1 e.severity ++ toLE 4 e.seq ++ toLE 8 e.time ++ toLE 8 e.operating ++ sliceB pl 0 64 ++ rep 8 0

/-- EVENT_READ: stored events from a SEQ onwards; what is returned has been delivered (18 R435). -/
def execEventRead (_p : MgmtPath) (first max : Nat) (s : State) : Res :=
  onHenua (fun s =>
    let l := (s.henua.events.filter fun e => decide (first ≤ e.seq)).take max
    let seqs := l.map (·.seq)
    answer 0x04 stOk (l.flatMap fun e => if s.henua.evtFormat then record32 e else envelope e)
      (modHenua (fun h => { h with events := h.events.map fun e => if seqs.contains e.seq then { e with delivered := true } else e }) s)) s

/-- FAULT_HISTORY_READ: the bytes that FAULT_HISTORY gives (15 R373). -/
def execFaultHistoryRead (_p : MgmtPath) (off len : Nat) (s : State) : Res :=
  onHenua (fun s => answer 0x05 stOk (((historyBytes s).drop off).take len) s) s

/-- IDENTITY_GET: a damaged certificate is reported as absent (18 R429). -/
def execIdentityGet (_p : MgmtPath) (s : State) : Res := onHenua (answer 0x07 stOk (if s.fuses.certValid then Config.certificate else [])) s

/-- ATTEST over a management path (18 R430). -/
def execHenuaAttest (_p : MgmtPath) (nonce : List Byte) (tenant : Nat) (s : State) : Res :=
  onHenua (fun s =>
    if nonce.length ≠ 32 ∨ 64 ≤ tenant then answer 0x08 stBadDescriptor [] s
    else if s.cap.valid = false then answer 0x08 stEngineAbsent [] s
    else answer 0x08 stOk (report s 1 tenant nonce) s) s

/-- COUNTER_PEEK over a management path (09 R217). -/
def execHenuaCounterPeek (_p : MgmtPath) (tenant ctr : Nat) (s : State) : Res :=
  onHenua (fun s =>
    if 64 ≤ tenant ∨ 65536 ≤ ctr then answer 0x0A stBadDescriptor [] s
    else if s.cap.valid = false then answer 0x0A stEngineAbsent [] s
    else
      match namedCtr s tenant ctr with
      | none => answer 0x0A stWindow [] s
      | some c => let r := readCtr c s; answer 0x0A stOk (toLE 8 r.1) r.2) s

/-! ### Commands that act -/

/-- A unit taken from the fault history is in its normal state again, unless it is out of service. -/
def forgetUnit (x : UnitSum) (s : State) : State :=
  match unitOf x.cls x.unit with
  | some (.tile t) => if x.state = 1 ∨ x.state = 2 then capChange 0 (fun c => { c with tileSuspect := putBit c.tileSuspect t false }) s else s
  | some u => if x.state = 2 then resumeUnit u s else s
  | none => s

/-- FAULT_CLEAR: summaries and records of the named units go; one event (18 R436). -/
def execFaultClear (p : MgmtPath) (a : Option MgmtAuth) (cls unit : Nat) (s : State) : Res :=
  let all := cls = 0xFF ∧ unit = 0xFFFF
  let hit (c u : Nat) : Bool := decide all || (c == cls && u == unit)
  signedCmd 0x06 p a [cls, unit] (decide all || ((unitOf cls unit).map UnitRef.ok).getD false) false (fun s =>
    let gone := s.hist.sums.filter fun x => hit x.cls x.unit
    let s1 : State := { s with hist := { s.hist with sums := s.hist.sums.filter (fun x => !hit x.cls x.unit),
                                                     flash := s.hist.flash.filter (fun r => !hit r.cls r.unit),
                                                     pendingFlash := s.hist.pendingFlash.filter fun r => !hit r.cls r.unit } }
    answer 0x06 stOk [] (henuaEvent 0x0B 0 [0x06, cls, unit] (forEach forgetUnit gone s1))) s

/-- The command that a management POWER_STATE issues: it belongs to no tenant and no queue. -/
def henuaCmd (st : Nat) (s : State) : Cmd :=
  { handle := 2 ^ 62 + s.nextOrder, order := s.nextOrder, tenant := henuaTenant, sq := 16,
    pkt := ⟨0x0703, henuaTenant, 0, 0, 0, 0, 0, [st, 0, 0, 0, 0, 0], 0⟩, admitTime := now s, stage := .admitted, outcomes := [],
    value := 0, desc := none, binds := [], targets := [], rivals := [], silent := true }

/-- HENUA_POWER_STATE (17 R394): the same request as POWER_STATE; it is answered when that completes. -/
def execHenuaPowerState (p : MgmtPath) (a : Option MgmtAuth) (st : Nat) (s : State) : Res :=
  signedCmd 0x09 p a [st] (decide (st < 4)) true
    (fun s => { s with cmds := s.cmds ++ [henuaCmd st s], nextOrder := s.nextOrder + 1 }) s

/-- COUNTER_POKE over a management path (09 R217). -/
def execHenuaCounterPoke (p : MgmtPath) (a : Option MgmtAuth) (tenant ctr value : Nat) (s : State) : Res :=
  signedCmd 0x0B p a [tenant, ctr, value] (decide (tenant < 64 ∧ ctr < 65536)) true (fun s =>
    match namedCtr s tenant ctr with
    | none => answer 0x0B stWindow [] s
    | some c =>
      let r := handSet 1 tenant ctr c value s
      schedule (answer 0x0B stOk (toLE 8 r.1) r.2)) s

def putKey (k : Nat) (g : KeySlot → KeySlot) (s : State) : State :=
  { s with fuses := { s.fuses with keys := tabPut k (g (keySlot s k)) s.fuses.keys } }

/-- OWNER_KEY_PROGRAM: slots 4 and 5, once each, over I3C only (18 R421, R436). -/
def execOwnerKeyProgram (p : MgmtPath) (slot : Nat) (hash : List Byte) (s : State) : Res :=
  onHenua (fun s =>
    if ¬(slot = 4 ∨ slot = 5) ∨ hash.length ≠ 32 then answer 0x0C stBadDescriptor [] s
    else if p = .ethernet then answer 0x0C stWindow [] s
    else if (keySlot s slot).programmed then answer 0x0C stBadDescriptor [] s
    else answer 0x0C stOk [] (henuaEvent 0x0B 0 [0x0C, slot, 0, 1] (putKey slot (fun k => { k with hash := hash, programmed := true }) s))) s

/-- Some slot other than `k` is programmed and not revoked (18 R421). -/
def otherKey (s : State) (k : Nat) : Bool := (List.range 6).any fun i => i != k && (keySlot s i).programmed && !(keySlot s i).revoked

/-- KEY_REVOKE. -/
def execKeyRevoke (p : MgmtPath) (a : Option MgmtAuth) (slot : Nat) (s : State) : Res :=
  signedCmd 0x0D p a [slot] (decide (slot < 6)) false (fun s =>
    if !otherKey s slot then answer 0x0D stBadDescriptor [] s
    else answer 0x0D stOk [] (henuaEvent 0x0B 0 [0x0D, slot, b2n (keySlot s slot).revoked, 1] (putKey slot (fun k => { k with revoked := true }) s))) s

/-- ROLLBACK_COMMIT: the counter advances to the running image's SVN (18 R422). -/
def execRollbackCommit (p : MgmtPath) (a : Option MgmtAuth) (s : State) : Res :=
  signedCmd 0x0E p a [] true true (fun s =>
    let svn := min 64 ((s.henua.image.map (·.svn)).getD 0)
    if s.fuses.rollback < svn then
      answer 0x0E stOk [] (henuaEvent 0x0B 0 [0x0E, s.fuses.rollback, svn] { s with fuses := { s.fuses with rollback := svn } })
    else answer 0x0E stOk [] s) s

/-- MGMT_NET_CONFIG: an entry of 13 R305. -/
def execMgmtNetConfig (p : MgmtPath) (a : Option MgmtAuth) (record : List Byte) (s : State) : Res :=
  signedCmd 0x0F p a (record.map (·.toNat)) (record.length == 64 && entryOk record) false
    (fun s => answer 0x0F stOk [] (modHenua (fun h => { h with netConfig := record }) s)) s

/-- PLDM_FIRMWARE_UPDATE (18 R426, R428): the image is in code memory and its checks follow, at once or, in
start-up, once STATE is 1; a push under way or a running image makes it busy (answer code 0x80: the PLDM busy
response, which has no number in R436). -/
def execPldmFirmwareUpdate (_p : MgmtPath) (image : List Byte) (s : State) : Res :=
  onHenua (fun s =>
    let h := s.henua
    if h.bstate = 1 ∨ h.bstate = 4 then modHenua (fun x => startPush 1 { x with code := image }) s
    else if h.bstate = 0 ∧ h.goHeld = false then modHenua (fun x => { x with goHeld := true, source := 1, code := image }) s
    else answer 0x80 stDeviceFault [] s) s

end Sys2Proof.Machine
end

