-- ==== Sys2Proof/Machine/Dispatch.lean ====
section
/-! DEFINITION. One arm per command: its meaning (everything but the queue). -/

namespace Sys2Proof.Machine

def exec (i : Instr) (s : State) : Host.Outcome State Fault Refusal :=
  match i with
  | .tenantCreate h => Sys2Proof.Machine.execTenantCreate h s
  | .tenantDestroy h => Sys2Proof.Machine.execTenantDestroy h s
  | .sqCreate h => Sys2Proof.Machine.execSqCreate h s
  | .sqDestroy h => Sys2Proof.Machine.execSqDestroy h s
  | .groupDeadline h => Sys2Proof.Machine.execGroupDeadline h s
  | .cmdCancel h => Sys2Proof.Machine.execCmdCancel h s
  | .tenantPause h => Sys2Proof.Machine.execTenantPause h s
  | .tenantResume h => Sys2Proof.Machine.execTenantResume h s
  | .alloc h => Sys2Proof.Machine.execAlloc h s
  | .free h => Sys2Proof.Machine.execFree h s
  | .descCreate h => Sys2Proof.Machine.execDescCreate h s
  | .descDestroy h => Sys2Proof.Machine.execDescDestroy h s
  | .fill h => Sys2Proof.Machine.execFill h s
  | .copy h crc => Sys2Proof.Machine.execCopy h crc s
  | .copyIndexed h crc => Sys2Proof.Machine.execCopyIndexed h crc s
  | .furrow h => Sys2Proof.Machine.execFurrow h s
  | .fopCopy id => Sys2Proof.Machine.execFopCopy id s
  | .fopFill id => Sys2Proof.Machine.execFopFill id s
  | .fopLogic id => Sys2Proof.Machine.execFopLogic id s
  | .fopDot id => Sys2Proof.Machine.execFopDot id s
  | .fopAxpy id => Sys2Proof.Machine.execFopAxpy id s
  | .fopAxpyReduce id => Sys2Proof.Machine.execFopAxpyReduce id s
  | .fopGather id => Sys2Proof.Machine.execFopGather id s
  | .fopSegment id => Sys2Proof.Machine.execFopSegment id s
  | .fopAtomic id => Sys2Proof.Machine.execFopAtomic id s
  | .fopAtomicFetch id => Sys2Proof.Machine.execFopAtomicFetch id s
  | .fopPageScore id => Sys2Proof.Machine.execFopPageScore id s
  | .bundleLoad h => Sys2Proof.Machine.execBundleLoad h s
  | .bundleUnload h => Sys2Proof.Machine.execBundleUnload h s
  | .bundleRun h => Sys2Proof.Machine.execBundleRun h s
  | .pageShare h => Sys2Proof.Machine.execPageShare h s
  | .pageRelease h => Sys2Proof.Machine.execPageRelease h s
  | .pageCow h => Sys2Proof.Machine.execPageCow h s
  | .attend h steps => Sys2Proof.Machine.execAttend h s steps
  | .verify h steps => Sys2Proof.Machine.execVerify h s steps
  | .evict h => Sys2Proof.Machine.execEvict h s
  | .adapterLoad h => Sys2Proof.Machine.execAdapterLoad h s
  | .adapterEvict h => Sys2Proof.Machine.execAdapterEvict h s
  | .ctrSignal h => Sys2Proof.Machine.execCtrSignal h s
  | .ctrWaitGe h => Sys2Proof.Machine.execCtrWaitGe h s
  | .ctrWaitTake h => Sys2Proof.Machine.execCtrWaitTake h s
  | .ctrRead h => Sys2Proof.Machine.execCtrRead h s
  | .portConfig h => Sys2Proof.Machine.execPortConfig h s
  | .groupJoin h => Sys2Proof.Machine.execGroupJoin h s
  | .groupLeave h => Sys2Proof.Machine.execGroupLeave h s
  | .remoteCopy h => Sys2Proof.Machine.execRemoteCopy h s
  | .collective h => Sys2Proof.Machine.execCollective h s
  | .selftest h => Sys2Proof.Machine.execSelftest h s
  | .margin h lanes => Sys2Proof.Machine.execMargin h lanes s
  | .powerState h => Sys2Proof.Machine.execPowerState h s
  | .faultHistory h => Sys2Proof.Machine.execFaultHistory h s
  | .counterPeek h => Sys2Proof.Machine.execCounterPeek h s
  | .counterPoke h => Sys2Proof.Machine.execCounterPoke h s
  | .flipMask h => Sys2Proof.Machine.execFlipMask h s
  | .attest h => Sys2Proof.Machine.execAttest h s
  | .nop h => Sys2Proof.Machine.execNop h s
  | .getStatus p => Sys2Proof.Machine.execGetStatus p s
  | .readReg p off count => Sys2Proof.Machine.execReadReg p off count s
  | .writeReg p a off value => Sys2Proof.Machine.execWriteReg p a off value s
  | .eventRead p first max => Sys2Proof.Machine.execEventRead p first max s
  | .faultHistoryRead p off len => Sys2Proof.Machine.execFaultHistoryRead p off len s
  | .faultClear p a cls unit => Sys2Proof.Machine.execFaultClear p a cls unit s
  | .identityGet p => Sys2Proof.Machine.execIdentityGet p s
  | .henuaAttest p nonce tenant => Sys2Proof.Machine.execHenuaAttest p nonce tenant s
  | .henuaPowerState p a st => Sys2Proof.Machine.execHenuaPowerState p a st s
  | .henuaCounterPeek p tenant ctr => Sys2Proof.Machine.execHenuaCounterPeek p tenant ctr s
  | .henuaCounterPoke p a tenant ctr value => Sys2Proof.Machine.execHenuaCounterPoke p a tenant ctr value s
  | .ownerKeyProgram p slot hash => Sys2Proof.Machine.execOwnerKeyProgram p slot hash s
  | .keyRevoke p a slot => Sys2Proof.Machine.execKeyRevoke p a slot s
  | .rollbackCommit p a => Sys2Proof.Machine.execRollbackCommit p a s
  | .mgmtNetConfig p a record => Sys2Proof.Machine.execMgmtNetConfig p a record s
  | .pldmFirmwareUpdate p image => Sys2Proof.Machine.execPldmFirmwareUpdate p image s
  | .hgSqTailWrite fn q tail stores => Sys2Proof.Machine.execHgSqTailWrite fn q tail stores s
  | .hgCqHeadWrite fn q head => Sys2Proof.Machine.execHgCqHeadWrite fn q head s
  | .hgCqCtrlWrite fn value => Sys2Proof.Machine.execHgCqCtrlWrite fn value s
  | .hgSq0CtrlWrite fn value => Sys2Proof.Machine.execHgSq0CtrlWrite fn value s
  | .packetAdmission mismatches => Sys2Proof.Machine.execPacketAdmission mismatches s
  | .commandStart => Sys2Proof.Machine.execCommandStart s
  | .commandCompletion h => Sys2Proof.Machine.execCommandCompletion h s
  | .irqHoldoffExpiry fn vec => Sys2Proof.Machine.execIrqHoldoffExpiry fn vec s
  | .cqStallTimeout tenant => Sys2Proof.Machine.execCqStallTimeout tenant s
  | .hgDevTimeRead fn a => Sys2Proof.Machine.execHgDevTimeRead fn a s
  | .rcRegisterRead fn place size => Sys2Proof.Machine.execRcRegisterRead fn place size s
  | .w1cRegisterWrite fn off value => Sys2Proof.Machine.execW1cRegisterWrite fn off value s
  | .registerWrite t size value => Sys2Proof.Machine.execRegisterWrite t size value s
  | .scFurrowBudgetWrite fn stack value => Sys2Proof.Machine.execScFurrowBudgetWrite fn stack value s
  | .pmPowerLimitWrite value => Sys2Proof.Machine.execPmPowerLimitWrite value s
  | .scPatrolCtrlWrite fn stack value => Sys2Proof.Machine.execScPatrolCtrlWrite fn stack value s
  | .hgPtpTxTailWrite fn tail fraction => Sys2Proof.Machine.execHgPtpTxTailWrite fn tail fraction s
  | .hgPtpRxHeadWrite fn head => Sys2Proof.Machine.execHgPtpRxHeadWrite fn head s
  | .msixUnmask fn vec => Sys2Proof.Machine.execMsixUnmask fn vec s
  | .firmwarePushGo => Sys2Proof.Machine.execFirmwarePushGo s
  | .firmwareVerification headerError payloadError => Sys2Proof.Machine.execFirmwareVerification headerError payloadError s
  | .bar4Read fn off len => Sys2Proof.Machine.execBar4Read fn off len s
  | .bar4Write fn off bytes => Sys2Proof.Machine.execBar4Write fn off bytes s
  | .inputPowerApplied slotId isoCompat => Sys2Proof.Machine.execInputPowerApplied slotId isoCompat s
  | .inputWarningBand => Sys2Proof.Machine.execInputWarningBand s
  | .inputCut => Sys2Proof.Machine.execInputCut s
  | .inputPowerLoss => Sys2Proof.Machine.execInputPowerLoss s
  | .inputRecovery => Sys2Proof.Machine.execInputRecovery s
  | .pwrEnHigh => Sys2Proof.Machine.execPwrEnHigh s
  | .pwrEnLow => Sys2Proof.Machine.execPwrEnLow s
  | .perstNAssert => Sys2Proof.Machine.execPerstNAssert s
  | .perstNRelease => Sys2Proof.Machine.execPerstNRelease s
  | .hotReset => Sys2Proof.Machine.execHotReset s
  | .pcieLinkDown => Sys2Proof.Machine.execPcieLinkDown s
  | .pcieLinkTrained flit width rate => Sys2Proof.Machine.execPcieLinkTrained flit width rate s
  | .functionLevelReset fn => Sys2Proof.Machine.execFunctionLevelReset fn s
  | .wakeNAssert => Sys2Proof.Machine.execWakeNAssert s
  | .wakeComplete failedStacks retrained => Sys2Proof.Machine.execWakeComplete failedStacks s retrained
  | .henuaBootComplete => Sys2Proof.Machine.execHenuaBootComplete s
  | .railSequencing => Sys2Proof.Machine.execRailSequencing s
  | .rootPllLock => Sys2Proof.Machine.execRootPllLock s
  | .bootSelftestEnd first repeats => Sys2Proof.Machine.execBootSelftestEnd first repeats s
  | .stackLinkTrainingEnd failing => Sys2Proof.Machine.execStackLinkTrainingEnd failing s
  | .inventoryComplete expanders => Sys2Proof.Machine.execInventoryComplete expanders s
  | .longWordIssue t w parityAt => Sys2Proof.Machine.execLongWordIssue t w parityAt s
  | .mainPass t => Sys2Proof.Machine.execMainPass t s
  | .checksumVerdict t row errors => Sys2Proof.Machine.execChecksumVerdict t row errors s
  | .accDrain t residueError => Sys2Proof.Machine.execAccDrain t residueError s
  | .lateralLoad t => Sys2Proof.Machine.execLateralLoad t s
  | .extraLateralSlot t => Sys2Proof.Machine.execExtraLateralSlot t s
  | .channelOp t => Sys2Proof.Machine.execChannelOp t s
  | .channelReduction t => Sys2Proof.Machine.execChannelReduction t s
  | .softmax t => Sys2Proof.Machine.execSoftmax t s
  | .normalisation t => Sys2Proof.Machine.execNormalisation t s
  | .quantise t => Sys2Proof.Machine.execQuantise t s
  | .loadTransfer t parityAt => Sys2Proof.Machine.execLoadTransfer t parityAt s
  | .codeOverlayTransfer t => Sys2Proof.Machine.execCodeOverlayTransfer t s
  | .storeTransfer t => Sys2Proof.Machine.execStoreTransfer t s
  | .eventWait t ev n => Sys2Proof.Machine.execEventWait t ev n s
  | .unitOpComplete t u k found => Sys2Proof.Machine.execUnitOpComplete t u s k found
  | .stepHeadWait t take slot amount => Sys2Proof.Machine.execStepHeadWait t take slot amount s
  | .commit t k => Sys2Proof.Machine.execCommit t s k
  | .stepTimeLimit t => Sys2Proof.Machine.execStepTimeLimit t s
  | .tileTrap t => Sys2Proof.Machine.execTileTrap t s
  | .tileFrameSaveComplete t => Sys2Proof.Machine.execTileFrameSaveComplete t s
  | .runResume run badHeader badBlocks => Sys2Proof.Machine.execRunResume run badHeader badBlocks s
  | .counterSignal tenant ctr amount uncorrectable => Sys2Proof.Machine.execCounterSignal tenant ctr amount uncorrectable s
  | .furrowSliceStart k d p id checkFails => Sys2Proof.Machine.execFurrowSliceStart k d p id checkFails s
  | .sliceEnd k d p => Sys2Proof.Machine.execSliceEnd k d p s
  | .refreshDue k d b => Sys2Proof.Machine.execRefreshDue k d b s
  | .stackRead k off flips => Sys2Proof.Machine.execStackRead k off flips s
  | .stackWrite k off data mask source => Sys2Proof.Machine.execStackWrite k off data mask source s
  | .mergeWindowExpiry k blk => Sys2Proof.Machine.execMergeWindowExpiry k blk s
  | .correctionWriteBack k blk => Sys2Proof.Machine.execCorrectionWriteBack k blk s
  | .uePoisonRewrite k blk => Sys2Proof.Machine.execUePoisonRewrite k blk s
  | .ceBucketLeak k => Sys2Proof.Machine.execCeBucketLeak k s
  | .patrolRowVisit k => Sys2Proof.Machine.execPatrolRowVisit k s
  | .linkFrameRetry k ok => Sys2Proof.Machine.execLinkFrameRetry k ok s
  | .farLinkDown link errors => Sys2Proof.Machine.execFarLinkDown s link errors
  | .flitCrcRetry a b ok => Sys2Proof.Machine.execFlitCrcRetry a b ok s
  | .dptWriteReceived hd payload => Sys2Proof.Machine.execDptWriteReceived hd payload s
  | .reorderRelease src queue => Sys2Proof.Machine.execReorderRelease src queue s
  | .dptSignalReceived hd => Sys2Proof.Machine.execDptSignalReceived hd s
  | .dptAckReceived src incarnation p => Sys2Proof.Machine.execDptAckReceived src incarnation p s
  | .dptControlReceived src incarnation p => Sys2Proof.Machine.execDptControlReceived src incarnation p s
  | .frameReceived port logical length fraction fecCorr fecUncorr k => Sys2Proof.Machine.execFrameReceived port logical length fraction fecCorr fecUncorr k s
  | .ackTimer peer path => Sys2Proof.Machine.execAckTimer peer path s
  | .retransmitTimeout peer path psn => Sys2Proof.Machine.execRetransmitTimeout peer path psn s
  | .pathProbe peer path => Sys2Proof.Machine.execPathProbe peer path s
  | .keepaliveTimer peer => Sys2Proof.Machine.execKeepaliveTimer peer s
  | .peerTimeout peer => Sys2Proof.Machine.execPeerTimeout peer s
  | .joinTimeout h => Sys2Proof.Machine.execJoinTimeout h s
  | .ethLinkUp port logical => Sys2Proof.Machine.execEthLinkUp port logical s
  | .ethLinkDown port logical => Sys2Proof.Machine.execEthLinkDown port logical s
  | .sensorUpdate readings => Sys2Proof.Machine.execSensorUpdate readings s
  | .powerLimiterTick mean => Sys2Proof.Machine.execPowerLimiterTick mean s
  | .tileTestSlot => Sys2Proof.Machine.execTileTestSlot s
  | .stackTestSlot => Sys2Proof.Machine.execStackTestSlot s
  | .suspectTestDue u => Sys2Proof.Machine.execSuspectTestDue u s
  | .selftestComplete u first repeats => Sys2Proof.Machine.execSelftestComplete u first repeats s
  | .faultRecordFlush => Sys2Proof.Machine.execFaultRecordFlush s
  | .operatingTimeTick => Sys2Proof.Machine.execOperatingTimeTick s
  | .dptCollectiveDataReceived hd payload => Sys2Proof.Machine.execDptCollectiveDataReceived hd payload s
  | .retrainingComplete u ok inFlight => Sys2Proof.Machine.execRetrainingComplete u ok s inFlight
  | .configRetryEnd => Sys2Proof.Machine.execConfigRetryEnd s

end Sys2Proof.Machine
end

