-- ==== Sys2Proof/Machine/Step.lean ====
section
/-! DEFINITION. One step: the command at the front of the queue is executed with the queue's rest; on an
empty queue one ACLK passes (log entry 14). -/

namespace Sys2Proof.Machine

/-- The state without the command at the front of its queue. -/
def State.popped (s : State) : State := { s with pending := s.pending.tail }

/-- One step of the block. -/
def step (s : State) : Host.Outcome State Fault Refusal :=
  match s.pending with
  | [] => .next (tick s)
  | c :: _ => exec c s.popped

/-- The command that a word spells, put at the front of the queue; the table gives no row bits, so the
state is unchanged (log entry 15). -/
def State.withFetchWord (s : State) (nbits w : Nat) : State :=
  match decodeTableWord nbits w with
  | some c => { s with pending := c :: s.pending }
  | none => s

end Sys2Proof.Machine
end

