-- ==== Sys2Proof/Machine/Domains.lean ====
section
/-! DEFINITION. What follows from the state without a field of its own: the body bias and SRAM setting of each domain
(17 R405), the outputs of powered-off domains (17 R407, R408), the sideband's outputs and address (19 R443), and the bytes of the always-on SRAM (17 "The saved
register set"). -/

namespace Sys2Proof.Machine

/-! ### Body bias and SRAM settings (17 R405) -/

/-- A domain's body bias, in millivolts. -/
inductive Bias | forward (mv : Nat) | zero | reverse (mv : Nat) | unpowered
  deriving DecidableEq, Repr

/-- What a tile's SRAM is set to. -/
inductive SramSet | assist | assistPeripheryGated | retention | unpowered
  deriving DecidableEq, Repr

/-- A tile of Trim whose clock is gated: it holds no run, and no test is placed on it (17 R396). -/
def tileGated (s : State) (t : Nat) : Bool := s.pm.state == .trim && (getTile s t).ctx.isNone && !(getTile s t).underTest

/-- The package is Off (17 R393), or the tile is fused (01 R13). -/
def tileDark (s : State) (t : Nat) : Bool := !s.board.pgood || !tilePresent s t || s.pm.state == .hold

def tileLogic (s : State) (t : Nat) : Bias :=
  if tileDark s t then .unpowered
  else if s.pm.state = .idle then .reverse 250
  else if tileGated s t then .zero
  else .forward 100

def tileSram (s : State) (t : Nat) : SramSet :=
  if tileDark s t then .unpowered
  else if s.pm.state = .idle then .retention
  else if tileGated s t then .assistPeripheryGated
  else .assist

/-- Flume, basin, sluice engines and stack controllers of the compute dies. -/
def dieLogic (s : State) : Bias := if !s.board.pgood || s.pm.state == .hold then .unpowered else .forward 100

/-- The I/O dies but for headgate, serdes and always-on island, which keep their setting in Hold. -/
def ioLogic (s : State) : Bias :=
  if !s.board.pgood then .unpowered else if s.pm.state = .hold then .reverse 150 else .forward 50

/-! ### Transmitters (17 R407, R408) -/

/-- The high-speed transmitters of the package's edge. -/
inductive Transmitter
  | pcie (lane : Nat)
  | cxl (lane : Nat)
  | ethernet (port lane : Nat)
  deriving DecidableEq, Repr

/-- What stands at a transmitter pair: a signal, nothing, or both legs held within 50 mV of ground. -/
inductive Leg | driven | floating | clamped
  deriving DecidableEq, Repr

/-- The domain that drives a transmitter is powered. -/
def transmits (s : State) : Transmitter → Bool
  | .pcie _ => s.board.pgood
  | .cxl _ => s.board.pgood && !s.far.expanders.isEmpty
  | .ethernet p l =>
    let x := getPort s p
    s.board.pgood && x.configured && ethUsable s p && !hasBit x.takenDown (l * modePorts x.mode / 8)

/-- An edge signal of an unpowered domain floats, or is clamped where the strap asks for it. -/
def leg (s : State) (x : Transmitter) : Leg := if transmits s x then .driven else if s.pm.iso then .clamped else .floating

/-! ### The sideband (19 R443) -/

/-- While 48 V is present the always-on island drives the sideband outputs; otherwise every pin is high-impedance. -/
def sidebandDriven (s : State) : Bool := s.board.power48

/-- The Henua controller's I3C static address. -/
def i3cAddress (s : State) : Nat := 0x30 + s.board.slotId

/-! ### The always-on SRAM (05 R105) -/

/-- Bytes of the Hold save area that R403's register set fills. -/
def savedBytes : Nat := 96576

/-- A byte of the always-on SRAM: the records that await flash (15 R371), while Hold lasts the saved register set, whose
order within its area the spec does not give (FREE VALUES, log entry 4), else what the memory holds. -/
def aonByte (s : State) (off : Nat) : Byte :=
  let held := (tabGet? off s.mem.aon).getD (Config.unwrittenByte 6 s.era off)
  if 0x10000 ≤ off ∧ off < 0x18000 then (s.hist.pendingFlash.flatMap recBytes).getD (off - 0x10000) held
  else if 0x18000 ≤ off ∧ off < 0x18000 + savedBytes ∧ s.pm.saved = true then Config.savedByte s.era s.pm.wakes.toNat off
  else held

end Sys2Proof.Machine
end

