-- ==== Sys2Proof/Safety.lean ====
section
/-! DEFINITION. What the statements speak of: a dispatched command and its end, the invariants of a safe state
(canonical memories, an even change generation, sync counters with nothing left to release). -/

namespace Sys2Proof.Machine

/-- Command `h` is dispatched, is of opcode `op`, and waits for no other command (08 R185, R191). -/
def Running (s : State) (h op : Nat) (c : Cmd) : Prop :=
  getCmd? s h = some c ∧ c.stage = .running ∧ c.pkt.opcode = op ∧ targetsGone s c = true

/-- Command `h` has ended its work with these outcomes beside those it had, and with this VALUE (08 R199). -/
def Ended (t : State) (h : Nat) (c : Cmd) (outs : List Nat) (value : Nat) : Prop :=
  getCmd? t h = some { c with stage := .done, outcomes := addOutcomes outs c.outcomes, value := value }

/-- The memories are in canonical form. -/
def MemSafe (s : State) : Prop := s.mem.wf = true

/-- No update of the capability table is in progress (01 R17). -/
def GenEven (s : State) : Prop := s.cap.gen.toNat % 2 = 0

/-- The amount of the first taker on counter `c`, in arrival order. -/
def headTaker (c : Nat) (ws : List Wait) : Option Nat := (ws.find? fun w => w.ctr == c && w.take).map (·.amount)

/-- The counter store has released what it must (09 R209): every registered WAIT_GE has a threshold above its
counter, and the head taker of a counter asks for more than the counter holds. -/
def Settled (s : State) : Prop :=
  (∀ w ∈ s.ctrs.waits, w.take = false → (ctrVal s w.ctr).toNat < w.amount) ∧
  ∀ c a, headTaker c s.ctrs.waits = some a → (ctrVal s c).toNat < a

/-- From `s` to `t` only command `h` has changed. -/
def OnlyCmd (s t : State) (h : Nat) : Prop := t = { s with cmds := t.cmds } ∧ ∀ k, k ≠ h → getCmd? t k = getCmd? s k

/-- From `s` to `t` data has moved: memories and their poison, the counters of the stack controllers and of the far
tier, the fault history, Henua events, interrupt registers and outputs may differ, and nothing else. -/
def DataOnly (s t : State) : Prop :=
  t = { s with out := t.out, fns := t.fns, sharedPoison := t.sharedPoison, mem := t.mem, stks := t.stks, far := t.far, hist := t.hist, henua := t.henua, freeCtr := t.freeCtr }

/-- From `s` to `t` work has gone on: beside data, also live commands, sync counters, runs, tiles and the power
management may differ, and nothing else. -/
def WorkOnly (s t : State) : Prop :=
  t = { s with out := t.out, fns := t.fns, cmds := t.cmds, sharedPoison := t.sharedPoison, ctrs := t.ctrs, mem := t.mem, stks := t.stks, runs := t.runs, tiles := t.tiles, far := t.far, hist := t.hist, pm := t.pm, henua := t.henua, freeCtr := t.freeCtr }

/-- A live command goes on: what it is stays, its outcomes are kept, done stays done, and none is dispatched. -/
structure CmdGoes (a b : Cmd) : Prop where
  same : b.handle = a.handle ∧ b.order = a.order ∧ b.tenant = a.tenant ∧ b.sq = a.sq ∧ b.pkt = a.pkt
  outs : ∀ x ∈ a.outcomes, x ∈ b.outcomes
  done : a.stage = .done → b.stage = .done
  starts : b.stage = .running → a.stage = .running

/-- Every live command of `s` goes on in `t`, in the same order, and there is no other. -/
def CmdsGo (s t : State) : Prop := List.Forall₂ CmdGoes s.cmds t.cmds

/-- Command `h` has ended its work. -/
def Done (t : State) (h : Nat) : Prop := ∃ c, getCmd? t h = some c ∧ c.stage = .done

/-- The commands that may set DEV_TIME or stop its count: resets of the package, and the lock of the root PLL
(01 R10; 19 R449). -/
def clockCommand : Instr → Bool
  | .inputCut => true
  | .inputPowerLoss => true
  | .pwrEnLow => true
  | .perstNAssert => true
  | .hotReset => true
  | .pcieLinkDown => true
  | .rootPllLock => true
  | _ => false

/-- The commands that burn fuses (18 R421, R422). -/
def fuseCommand : Instr → Bool
  | .ownerKeyProgram _ _ _ => true
  | .keyRevoke _ _ _ => true
  | .rollbackCommit _ _ => true
  | _ => false

end Sys2Proof.Machine
end

