-- ==== Sys2Proof/Certificates/Slice0/Obligations.lean ====
section
/-! DEFINITION. The statements about the model of IG-DX2, each as `def Obligations.<Name> : Prop`, by the chapters of
spec/, and the few expressions they share. -/

open Sys2Proof Sys2Proof.Machine

/-- Command `h`, of opcode `op`, has executed with no outcome, in time, signals nothing, and may complete (08 R189, R190, R195). -/
def Completing (s : State) (h op : Nat) (c : Cmd) : Prop :=
  getCmd? s h = some c ∧ mayComplete s c = true ∧ c.pkt.opcode = op ∧ c.outcomes = [] ∧ now s ≤ deadlineOf s c ∧
    bitOf c.pkt.flags 0 = false ∧ c.silent = false

/-- From `u` to `t` command `c` leaves and its record is written: 32 bytes at the tail of its tenant's completion ring, that
function's registers and the outputs may differ, its submission queues do not, and nothing else (08 R182). -/
def Recorded (u t : State) (c : Cmd) : Prop :=
  t = { u with cmds := u.cmds.filter (fun x => x.handle != c.handle), fns := t.fns, mem := { u.mem with host := t.mem.host }, out := t.out } ∧
  (∀ f, f ≠ c.tenant → getFn t f = getFn u f) ∧ (getFn t c.tenant).queues = (getFn u c.tenant).queues ∧ (getFn t c.tenant).sq0 = (getFn u c.tenant).sq0 ∧
  ∀ a, (a < cqBaseOf (getFn u c.tenant) + 32 * (getFn u c.tenant).cqTail ∨ cqBaseOf (getFn u c.tenant) + 32 * (getFn u c.tenant).cqTail + 32 ≤ a) →
    hostRead t a 1 = hostRead u a 1

/-- From `s` to `t` data command `c` has ended with what its data operation `a` met, and the state is `a`'s. -/
def EndsAs (s t : State) (c : Cmd) (value : Nat) (a : Acc) : Prop :=
  Ended t c.handle c a.outs value ∧ t = { a.s with cmds := t.cmds } ∧ ∀ k, k ≠ c.handle → getCmd? t k = getCmd? s k

/-- No other command has started and no furrow operation is there: nothing writes beside `c` (05 R125). -/
def Alone (s : State) (c : Cmd) : Prop :=
  c.rivals = [] ∧ s.fops = [] ∧ ∀ x ∈ s.cmds, x.handle ≠ c.handle → x.stage = .admitted

/-- A serving command may go on: the furrow budget, the tiles under test and the gap let it (04 R92, R95; 16 R382). -/
def Served (s : State) (c : Cmd) : Prop :=
  noBudget s (namedPhys s c) = false ∧ onTest s ((descUses c.pkt).map fun u => cmdDesc s c u.id) = false ∧ s.held = [] ∧
    blksWait s (namedPhys s c) = false

/-- The engine that works for a copy: the one of its queue while usable, else the one that would take it (05 R110). -/
def copyEngine (s : State) (c : Cmd) : Option Nat :=
  match sluiceQueueOf s c.handle with
  | some q => if sluiceUsable s (q / 8) then some (q / 8) else sluiceFor s c
  | none => sluiceFor s c

/-- A copy between these tensors may go on in its queue: no tile under test, no empty tensor, nothing held, no other writer. -/
def CopyGoes (s : State) (c : Cmd) (a b ix : Desc) : Prop :=
  sluiceTurn s c.handle = true ∧ onTest s [a, b, ix] = false ∧ dEmpty a = false ∧ dEmpty b = false ∧ s.held = [] ∧
    blksWait s (descPhys s a ++ descPhys s b ++ descPhys s ix) = false ∧ Alone s c

/-- The permutation is the identity. -/
def noPerm (perm : Nat) : Prop := ∀ k, k < 6 → permAt perm k = k

/-! ### The machine as a whole -/

/-- A command at the front of the queue runs, with the queue's rest (model's form of a block; log entry 14). -/
def Obligations.StepRunsTheFrontCommand : Prop :=
  ∀ (c : Instr) (rest : List Instr) (s : State), step { s with pending := c :: rest } = exec c { s with pending := rest }

/-- The residency counter of a power state. -/
def residency (p : PowerSt) : Power → W64
  | .run => p.resRun
  | .trim => p.resTrim
  | .idle => p.resIdle
  | .hold => p.resHold

/-- On an empty queue, no access being held and no step at its time limit, one ACLK passes (the model's choice, log entry 14):
DEV_TIME counts by one while its clock runs, the residency counter of the present power state while PERST_N is released,
HG_DPT_CREDIT_STALL while a queue to some peer waits for credit; beside these only the counters of tiles in Run and Trim may
change. -/
def Obligations.IdleStepIsOneAclk : Prop :=
  ∀ s : State, s.pending = [] → s.held = [] → (∀ e ∈ s.tiles, e.2.phase = .body → e.2.stepAclk + 1 < stepLimit) → ∃ t, step s = .next t ∧
    t.devTime = (if s.clockOn then s.devTime + 1 else s.devTime) ∧
    (∀ x, residency t.pm x = residency s.pm x + (if s.board.perstN = true ∧ s.pm.state = x then 1 else 0)) ∧
    t.dpt.creditStall = (if ∃ e ∈ s.dpt.peers, e.2.txq ≠ [] ∧ e.2.credits = 0 then s.dpt.creditStall + 1 else s.dpt.creditStall) ∧
    (s.pm.state ≠ .run ∧ s.pm.state ≠ .trim → t.tiles = s.tiles) ∧
    (∀ e ∈ t.tiles, ∃ x ∈ s.tiles, e.1 = x.1 ∧ e.2 = { x.2 with
      stepWait := e.2.stepWait, stepAclk := e.2.stepAclk, waitAcc := e.2.waitAcc, stallQueue := e.2.stallQueue,
      stallReduce := e.2.stallReduce, stallEvent := e.2.stallEvent }) ∧
    t = { s with devTime := t.devTime, tiles := t.tiles, dpt := { s.dpt with creditStall := t.dpt.creditStall }, pm := { s.pm with
      resRun := t.pm.resRun, resTrim := t.pm.resTrim, resIdle := t.pm.resIdle, resHold := t.pm.resHold } }

/-- The invariants that every step keeps: memories in canonical form (05 R105), an even change generation (01 R17), and a
settled counter store (09 R209). -/
def Obligations.EveryStepKeepsTheInvariants : Prop :=
  ∀ s t : State, MemSafe s ∧ GenEven s ∧ Settled s → step s = .next t → MemSafe t ∧ GenEven t ∧ Settled t

/-- The invariants hold at reset. -/
def Obligations.ResetMeetsTheInvariants : Prop :=
  MemSafe State.reset ∧ GenEven State.reset ∧ Settled State.reset

/-- Every step other than the three management commands that burn a fuse leaves every fuse as it is. Fuses are one-way: in every
step the rollback counter does not fall, a revoked key slot stays revoked, a programmed slot stays programmed with its hash. -/
def Obligations.FusesChangeOnlyOneWay : Prop :=
  (∀ s t : State, (∀ p a b, s.pending.head? ≠ some (.ownerKeyProgram p a b)) → (∀ p a b, s.pending.head? ≠ some (.keyRevoke p a b)) →
    (∀ p a, s.pending.head? ≠ some (.rollbackCommit p a)) → step s = .next t → t.fuses = s.fuses) ∧
  (∀ s t : State, step s = .next t → s.fuses.rollback ≤ t.fuses.rollback ∧
    ∀ k, ((keySlot s k).revoked = true → (keySlot t k).revoked = true) ∧
      ((keySlot s k).programmed = true → (keySlot t k).programmed = true ∧ (keySlot t k).hash = (keySlot s k).hash))

/-- No command but the resets, the power cuts and the lock of the root PLL changes DEV_TIME or its clock. A step takes exactly
one command, and no command adds to the queue. -/
def Obligations.CommandsLeaveTheClockAndTheQueue : Prop :=
  (∀ (c : Instr) (s t : State), clockCommand c = false → exec c s = .next t → t.devTime = s.devTime ∧ t.clockOn = s.clockOn) ∧
  (∀ s t : State, step s = .next t → t.pending = s.pending.tail)

/-! ### Commands of class 0x01xx and the plain ends (08 R192, R197; 12) -/

/-- NOP ends with DEV_TIME as VALUE, GROUP_DEADLINE, whose deadline its admission has set, with 0; nothing else changes. -/
def Obligations.NopAndGroupDeadlineEnd : Prop :=
  ∀ (s : State) (h : Nat) (c : Cmd),
    (Running s h 0x0709 c → ∃ t, exec (.nop h) s = .next t ∧ Ended t h c [] s.devTime.toNat ∧ OnlyCmd s t h) ∧
    (Running s h 0x0105 c → ∃ t, exec (.groupDeadline h) s = .next t ∧ Ended t h c [] 0 ∧ OnlyCmd s t h)

/-- SQ_CREATE ends with VALUE 0; its completion makes the queue, empty, at P0 with LOG2_ENTRIES. SQ_DESTROY ends with the number
of entries not fetched as VALUE and discards them; its completion removes the queue. No other queue of the function and no other
function's queues change. -/
def Obligations.QueuesComeAndGo : Prop :=
  ∀ (s : State) (h : Nat) (c : Cmd),
    (Running s h 0x0103 c → ∃ t, exec (.sqCreate h) s = .next t ∧ Ended t h c [] 0 ∧ OnlyCmd s t h) ∧
    (Completing s h 0x0103 c → ∃ u t, exec (.commandCompletion h) s = .next t ∧ Recorded u t c ∧ u = { s with fns := u.fns } ∧
      tabGet? (cmdParam c 1 % 16) (getFn t c.tenant).queues = some ⟨cmdParam c 0, cmdParam c 1 / 256 % 16, 0, 0, false, false⟩ ∧
      (∀ q, q ≠ cmdParam c 1 % 16 → tabGet? q (getFn t c.tenant).queues = tabGet? q (getFn s c.tenant).queues) ∧
      (getFn t c.tenant).sq0 = (getFn s c.tenant).sq0 ∧ ∀ f, f ≠ c.tenant → getFn t f = getFn s f) ∧
    (∀ x, Running s h 0x0104 c → 0 < cmdParam c 1 → tabGet? (cmdParam c 1) (getFn s c.tenant).queues = some x →
      ∃ t, exec (.sqDestroy h) s = .next t ∧ Ended t h c [] ((x.tail + 2 ^ x.log2 - x.head) % 2 ^ x.log2) ∧
        tabGet? (cmdParam c 1) (getFn t c.tenant).queues = some { x with head := x.tail } ∧
        (∀ q, q ≠ cmdParam c 1 → tabGet? q (getFn t c.tenant).queues = tabGet? q (getFn s c.tenant).queues) ∧
        (∀ f, f ≠ c.tenant → getFn t f = getFn s f) ∧ t = { s with cmds := t.cmds, fns := t.fns }) ∧
    (Completing s h 0x0104 c → ∃ u t, exec (.commandCompletion h) s = .next t ∧ Recorded u t c ∧ u = { s with fns := u.fns } ∧
      tabGet? (cmdParam c 1) (getFn t c.tenant).queues = none ∧
      (∀ q, q ≠ cmdParam c 1 → tabGet? q (getFn t c.tenant).queues = tabGet? q (getFn s c.tenant).queues) ∧
      (getFn t c.tenant).sq0 = (getFn s c.tenant).sq0 ∧ ∀ f, f ≠ c.tenant → getFn t f = getFn s f)

/-- CMD_CANCEL ends its work before the scheduler runs. Every earlier live command of its tenant with the TAG that has not been
dispatched ends with ST_CANCELLED, a TENANT_DESTROY at least where none of them has been dispatched; there VALUE counts them and
CMD_CANCEL completes after them. Every live command goes on. -/
def Obligations.CancelEndsWaitingCommands : Prop :=
  ∀ (s : State) (h : Nat) (c : Cmd), Running s h 0x0106 c → ∃ u, exec (.cmdCancel h) s = .next (schedule u) ∧ Done u h ∧ CmdsGo s u ∧
    (∀ x : Cmd, getCmd? s x.handle = some x → x.tenant = c.tenant → x.pkt.tag = cmdParam c 0 → x.order < c.order →
      x.stage = .admitted → x.pkt.opcode ≠ 0x0102 →
      ∃ y, getCmd? u x.handle = some y ∧ y.stage = .done ∧ stCancelled ∈ y.outcomes) ∧
    ∀ l, l = s.cmds.filter (fun z => z.tenant == c.tenant && z.pkt.tag == cmdParam c 0 && decide (z.order < c.order) && cancellable z) →
      (∀ z ∈ l, z.stage = .admitted ∧ getCmd? s z.handle = some z) →
      (∀ z ∈ l, ∃ y, getCmd? u z.handle = some y ∧ y.stage = .done ∧ stCancelled ∈ y.outcomes) ∧
      getCmd? u h = some { c with stage := .done, value := l.length, targets := l.map (·.handle) }

/-- TENANT_CREATE of a sound profile that fits makes the tenant with its context area and zero counters, and checks its rings
against its HOST ranges; the profile is read from the host. It is a tenant from the completion on. TENANT_DESTROY cancels every
live command of the tenant, counts them in VALUE and waits for them; with none left, and no furrow operation of the tenant, it
ends. Its completion removes the tenant with its allocations, bundles, runs, adapters and queues, and nothing of any other
tenant; the scheduler runs then. -/
def Obligations.TenantsComeAndGo : Prop :=
  (∀ (s u : State) (h base : Nat) (c : Cmd) (p : Profile), p = parseProfile (hostRead s (cmdParam c 0) 128) →
    (Running s h 0x0101 c → getTen? s (cmdParam c 1) = none →
      (∀ x ∈ s.cmds, x.pkt.opcode = 0x0102 → cmdParam x 1 ≠ cmdParam c 1) →
      profileOk (hostRead s (cmdParam c 0) 128) = true → rangesClear s p = true → sumsOk s p = true → contextLen p ≤ p.stackQuota →
      placeContext (hostFetch c.tenant (cmdParam c 0) 128 s) (contextLen p) = some (base, u) →
      ∃ t, exec (.tenantCreate h) s = .next t ∧ Ended t h c [] 0 ∧
        getTen? t (cmdParam c 1) = some ⟨p, false, false, [], [], 0, base⟩ ∧
        (∀ k, k ≠ cmdParam c 1 → getTen? t k = getTen? s k) ∧
        (∀ k, p.ctrBase ≤ k → k < p.ctrBase + p.ctrCount → ctrVal t k = 0) ∧
        (∀ k, k < p.ctrBase ∨ p.ctrBase + p.ctrCount ≤ k → ctrVal t k = ctrVal s k) ∧ t.ctrs.waits = s.ctrs.waits ∧
        (∀ f, f ≠ cmdParam c 1 → getFn t f = getFn s f) ∧
        getFn t (cmdParam c 1) = { getFn s (cmdParam c 1) with
          cqBad := (getFn t (cmdParam c 1)).cqBad, sq0Bad := (getFn t (cmdParam c 1)).sq0Bad } ∧
        t = { s with out := s.out ++ [.hostRead c.tenant (cmdParam c 0) 128], cmds := t.cmds, tenants := t.tenants, granules := u.granules,
                     ctrs := t.ctrs, fns := t.fns }) ∧
    (Completing s h 0x0101 c → (getTen? s (cmdParam c 1)).isSome = true →
      (∀ x ∈ s.cmds, x.handle ≠ h → x.pkt.opcode = 0x0101 → cmdParam x 1 ≠ cmdParam c 1) →
      ∃ t, exec (.commandCompletion h) s = .next t ∧ Recorded s t c ∧ tenantIs s (cmdParam c 1) = false ∧ tenantIs t (cmdParam c 1) = true)) ∧
  (∀ (s : State) (h T : Nat) (c : Cmd), T = cmdParam c 1 →
    (Running s h 0x0102 c → (∃ x ∈ s.cmds, x.tenant = T) →
      ∃ u y, exec (.tenantDestroy h) s = .next (schedule u) ∧ CmdsGo s u ∧ getCmd? u h = some y ∧
        y.targets = (s.cmds.filter fun x => x.tenant == T).map (·.handle) ∧ y.value = y.targets.length ∧
        ∀ x : Cmd, getCmd? s x.handle = some x → x.tenant = T → x.stage = .admitted → x.pkt.opcode ≠ 0x0102 →
          ∃ z, getCmd? u x.handle = some z ∧ z.stage = .done ∧ stCancelled ∈ z.outcomes) ∧
    (Running s h 0x0102 c → (∀ x ∈ s.cmds, x.tenant ≠ T) → (∀ o ∈ s.fops, o.2.tenant ≠ T) →
      ∃ t, exec (.tenantDestroy h) s = .next t ∧ Ended t h c [] c.value ∧ OnlyCmd s t h) ∧
    (Completing s h 0x0102 c → ∃ u t, exec (.commandCompletion h) s = .next t ∧ Recorded (schedule u) t c ∧
      getTen? u T = none ∧ (∀ k, k ≠ T → getTen? u k = getTen? s k) ∧
      (∀ a, a ∈ u.allocs ↔ a ∈ s.allocs ∧ a.2.tenant ≠ T) ∧ (∀ b, b ∈ u.bundles ↔ b ∈ s.bundles ∧ b.2.tenant ≠ T) ∧
      (∀ r, r ∈ u.runs ↔ r ∈ s.runs ∧ r.2.tenant ≠ T) ∧ (∀ a, a ∈ u.adapters ↔ a ∈ s.adapters ∧ a.2.tenant ≠ T) ∧
      (getFn u T).queues = [] ∧ (getFn u T).sq0 = { (getFn s T).sq0 with head := (getFn s T).sq0.tail } ∧
      (∀ f, f ≠ T → getFn u f = getFn s f) ∧
      u = { s with tenants := u.tenants, allocs := u.allocs, bundles := u.bundles, runs := u.runs, adapters := u.adapters,
                   granules := u.granules, fns := u.fns }))

/-- TENANT_PAUSE holds the tenant. With no run of it on tiles it ends at once with its admission time as VALUE; otherwise every
run of it that was on tiles is being paused or is paused before the scheduler runs. TENANT_RESUME lifts the hold and ends with
0; the power management may wake, and the scheduler runs. -/
def Obligations.PauseHoldsAndResumeLifts : Prop :=
  ∀ (s : State) (h : Nat) (c : Cmd) (x : Tenant), getTen? s (cmdParam c 1) = some x →
    (Running s h 0x0107 c → (∀ r ∈ s.runs, r.2.tenant = cmdParam c 1 → r.2.state ≠ .running ∧ r.2.state ≠ .pausing) →
      ∃ t, exec (.tenantPause h) s = .next t ∧ Ended t h c [] c.admitTime ∧ getTen? t (cmdParam c 1) = some { x with held := true } ∧
        (∀ k, k ≠ cmdParam c 1 → getTen? t k = getTen? s k) ∧ t = { s with cmds := t.cmds, tenants := t.tenants }) ∧
    (Running s h 0x0107 c → (∃ r ∈ s.runs, r.2.tenant = cmdParam c 1 ∧ (r.2.state = .running ∨ r.2.state = .pausing)) →
      ∃ u, exec (.tenantPause h) s = .next (schedule u) ∧ CmdsGo s u ∧ getTen? u (cmdParam c 1) = some { x with held := true } ∧
        (∀ k, k ≠ cmdParam c 1 → getTen? u k = getTen? s k) ∧
        ∀ r y, getRun? s r = some y → y.tenant = cmdParam c 1 → y.state = .running ∨ y.state = .pausing →
          ∃ z, getRun? u r = some z ∧ z.tenant = y.tenant ∧ (z.state = .pausing ∨ z.state = .paused)) ∧
    (Running s h 0x0108 c →
      ∃ u, exec (.tenantResume h) s = .next (schedule u) ∧ Ended u h c [] 0 ∧ (∀ k, k ≠ h → getCmd? u k = getCmd? s k) ∧
        getTen? u (cmdParam c 1) = some { x with held := false } ∧ (∀ k, k ≠ cmdParam c 1 → getTen? u k = getTen? s k) ∧
        u = { s with cmds := u.cmds, tenants := u.tenants, pm := u.pm })

/-! ### Descriptors, allocations and data movers (06; 08 R194) -/

/-- DESC_CREATE ends; its completion makes live the descriptor that its admission checked. DESC_DESTROY, where no adapter slot
makes it wait, empties the adapter slots loaded from the descriptor and ends; its completion frees the identifier. Every other
identifier and tenant stays. -/
def Obligations.DescriptorsComeAndGo : Prop :=
  ∀ (s : State) (h : Nat) (c : Cmd),
    (Running s h 0x0203 c → ∃ t, exec (.descCreate h) s = .next t ∧ Ended t h c [] 0 ∧ OnlyCmd s t h) ∧
    (∀ d a x, Completing s h 0x0203 c → c.desc = some d → tabGet? (namedAlloc c) s.allocs = some a → getTen? s c.tenant = some x →
      ∃ u t, exec (.commandCompletion h) s = .next t ∧ Recorded u t c ∧ u = { s with tenants := u.tenants } ∧
        getTen? u c.tenant = some { x with descs := tabPut (cmdParam c 2 % 2 ^ 32) ⟨d, namedAlloc c, a.dying⟩ x.descs } ∧
        ∀ k, k ≠ c.tenant → getTen? u k = getTen? s k) ∧
    (Running s h 0x0204 c → slotWaits s c [(c.tenant, cmdParam c 2)] = false →
      ∃ t, exec (.descDestroy h) s = .next t ∧ Ended t h c [] 0 ∧ (∀ k, k ≠ h → getCmd? t k = getCmd? s k) ∧
        (∀ a, a ∈ t.adapters ↔ a ∈ s.adapters ∧ ¬(a.2.tenant = c.tenant ∧ a.2.source = cmdParam c 2)) ∧
        t = { s with cmds := t.cmds, adapters := t.adapters }) ∧
    (∀ x, Completing s h 0x0204 c → getTen? s c.tenant = some x →
      ∃ u t, exec (.commandCompletion h) s = .next t ∧ Recorded u t c ∧
        getTen? u c.tenant = some { x with descs := tabDel (cmdParam c 2) x.descs } ∧ (∀ k, k ≠ c.tenant → getTen? u k = getTen? s k) ∧
        (∀ a, a ∈ u.adapters ↔ a ∈ s.adapters ∧ ¬(a.2.tenant = c.tenant ∧ a.2.source = cmdParam c 2)) ∧
        u = { s with tenants := u.tenants, adapters := u.adapters })

/-- ALLOC with room answers the base as VALUE; the new allocation, as long as asked for and rounded, overlaps none of its space
and instance. FREE, where no adapter slot makes it wait, empties the adapter slots of the descriptors made against the
allocation and ends; its completion ends the allocation and every descriptor made against it. Every other allocation stays. -/
def Obligations.AllocationsTakeAndFreeRoom : Prop :=
  (∀ (s u : State) (h base : Nat) (c : Cmd), Running s h 0x0201 c →
    (cmdParam c 1 % 16 ≤ 2 → cmdParam c 1 / 16 % 32 = 0) →
    quotaOk s c.tenant (cmdParam c 1 % 16) (cmdParam c 1 / 16 % 32) (allocLen (cmdParam c 1 % 16) (cmdParam c 0)) = true →
    placeAlloc s c (cmdParam c 1 % 16) (cmdParam c 1 / 16 % 32) (allocLen (cmdParam c 1 % 16) (cmdParam c 0)) = some (base, u) →
    ∃ t a, exec (.alloc h) s = .next t ∧ Ended t h c [] base ∧ tabGet? h t.allocs = some a ∧ a.tenant = c.tenant ∧
      a.space = cmdParam c 1 % 16 ∧ a.inst = cmdParam c 1 / 16 % 32 ∧ a.base = base ∧ a.len = allocLen (cmdParam c 1 % 16) (cmdParam c 0) ∧
      (∀ k, k ≠ h → tabGet? k t.allocs = tabGet? k s.allocs) ∧
      (a.space ≠ 0 → ∀ e ∈ s.allocs, e.2.space = a.space → e.2.inst = a.inst → 0 < e.2.len →
        a.base + a.len ≤ e.2.base ∨ e.2.base + e.2.len ≤ a.base) ∧
      t = { s with cmds := t.cmds, allocs := t.allocs, granules := t.granules }) ∧
  (∀ (s : State) (h : Nat) (c : Cmd),
    (Running s h 0x0202 c → slotWaits s c (descsOf s (cmdParam c 0)) = false → ∃ t, exec (.free h) s = .next t ∧ Ended t h c [] 0 ∧
      (∀ k, k ≠ h → getCmd? t k = getCmd? s k) ∧
      (∀ a, a ∈ t.adapters ↔ a ∈ s.adapters ∧ (a.2.tenant, a.2.source) ∉ descsOf s (cmdParam c 0)) ∧
      t = { s with cmds := t.cmds, adapters := t.adapters }) ∧
    (Completing s h 0x0202 c → ∃ u t, exec (.commandCompletion h) s = .next t ∧ Recorded u t c ∧
      (∀ e, e ∈ u.allocs ↔ e ∈ s.allocs ∧ e.1 ≠ cmdParam c 0) ∧
      (∀ k x i l, getTen? u k = some x → tabGet? i x.descs = some l → l.alloc ≠ cmdParam c 0) ∧
      u = { s with allocs := u.allocs, tenants := u.tenants, adapters := u.adapters, granules := u.granules }))

/-- FILL writes its pattern to every block of its destination, VALUE the bytes of all of them. Outside stack memory, while a
sluice engine of the die is usable, it does so itself and ends. In stack memory its blocks with padding are written by the row
itself; the rest is one FOP_FILL, which carries VALUE, and without a rest the command ends. COPY. In its turn of its queue, with
an engine and nothing held, it writes every block of its destination from the permuted elements of its source and ends with the
bytes of its destination as VALUE; a repaired retry adds ST_OK_RECOMPUTED. Over overlapping operands it ends with some status of
a copy (00 R4). The in-place transpose writes the transposed tensor. A copy of a descriptor onto itself ends at once; without a
usable engine it ends with ST_DEVICE_FAULT, its destination unpredictable. COPY_INDEXED. In its turn of its queue, with an
engine, a list that is not empty and nothing held, it writes the blocks that hold an element it moves, each from the item that
the clamped index list selects (the last entry wins in a scatter), and ends with the number of items as VALUE. An empty list
ends it at once with 0. A writer of the zero-filled spaces changes bytes of its blocks alone: every byte of basin, scratchpad
and scalar data outside the blocks that it is given reads as before. -/
def Obligations.DataMoversMoveDataOnly : Prop :=
  (∀ (s : State) (h : Nat) (c : Cmd) (d : Desc), Running s h 0x0205 c → d = cmdDesc s c (lo32 (cmdParam c 0)) → Alone s c → s.held = [] →
    (∀ a, d.space ≠ 2 → onTest s [d] = false → (∃ i, i < 4 ∧ sluiceUsable s (4 * (if d.space = 3 then d.inst else dieOfTile d.inst) + i) = true) →
      a = wrPieces d (patternSlots (cmdParam c 4) (cmdParam c 5) d) (dPieces d) (Acc.on c.tenant 1 s) → stSharedPoisoned ∉ a.outs →
      ∃ t, exec (.fill h) s = .next t ∧ EndsAs s t c (64 * (dPieces d).length) a) ∧
    (∀ a ps, d.space = 2 → ps = (dPieces d).filter (fun l => !wholePiece l) → blksWait s (ps.filterMap fun l => physBlk s l.addr) = false →
      a = wrPieces d (patternSlots (cmdParam c 4) (cmdParam c 5) d) ps (Acc.on c.tenant 1 s) → stSharedPoisoned ∉ a.outs →
      (ps.length = (dPieces d).length → ∃ t, exec (.fill h) s = .next t ∧ EndsAs s t c (64 * (dPieces d).length) a) ∧
      (ps.length ≠ (dPieces d).length → ∃ t o, exec (.fill h) s = .next t ∧ getFop? t s.nextFop = some o ∧ o.params = fillParams c d ∧
        o.source = some h ∧ o.tenant = c.tenant ∧ o.computed = false ∧ o.stopped = false ∧ o.outcomes = a.outs ∧
        o.refused = 64 * (dPieces d).length ∧ t = { a.s with fops := t.fops, nextFop := s.nextFop + 1 }))) ∧
  (∀ (s : State) (h perm : Nat) (c : Cmd) (a b : Desc), Running s h 0x0206 c → a = cmdDesc s c (lo32 (cmdParam c 0)) →
    b = cmdDesc s c (hi32 (cmdParam c 0)) → perm = cmdParam c 1 % 2 ^ 18 →
    (∀ e x, (cmdParam c 1).testBit 24 = false → ¬(a = b ∧ noPerm perm) → CopyGoes s c a b default → copyEngine s c = some e →
      footprintsMeet a b = false →
      x = wrPieces b (fun n y => let r := rdEl a (permuted a b perm n) y; (some r.1, r.2)) (dPieces b) (Acc.on c.tenant 1 s) → stSharedPoisoned ∉ x.outs →
      (∃ t, exec (.copy h .clean) s = .next t ∧ EndsAs s t c (64 * (dPieces b).length) x) ∧
      (∃ t, exec (.copy h .retried) s = .next t ∧ EndsAs s t c (64 * (dPieces b).length)
        (addOut stRecomputed true { x with s := recordFault 1 12 (.sluice e) c.tenant 0 [] x.s }))) ∧
    (∀ e, (cmdParam c 1).testBit 24 = false → ¬(a = b ∧ noPerm perm) → CopyGoes s c a b default → copyEngine s c = some e →
      footprintsMeet a b = true → ∃ t outs, exec (.copy h .clean) s = .next t ∧ Ended t h c outs (64 * (dPieces b).length) ∧
        (outs = [] ∨ ∃ x ∈ copyEnds, outs = [x]) ∧ DataOnly { s with cmds := t.cmds } t) ∧
    (∀ crc x, (cmdParam c 1).testBit 24 = true → onTest s [b] = false → Alone s c → x = transposeInPlace b (Acc.on c.tenant 1 s) →
      stSharedPoisoned ∉ x.2.outs → ∃ t, exec (.copy h crc) s = .next t ∧ EndsAs s t c x.1 x.2) ∧
    (∀ crc, (cmdParam c 1).testBit 24 = false → a = b → noPerm perm → sluiceTurn s h = true →
      ∃ t, exec (.copy h crc) s = .next t ∧ Ended t h c [] 0 ∧ OnlyCmd s t h) ∧
    (∀ crc, (cmdParam c 1).testBit 24 = false → ¬(a = b ∧ noPerm perm) → sluiceTurn s h = true → onTest s [a, b, default] = false →
      dEmpty a = false → dEmpty b = false → copyEngine s c = none →
      ∃ t, exec (.copy h crc) s = .next t ∧ Ended t h c [stDeviceFault] 0 ∧ t = { scramble b s with cmds := t.cmds })) ∧
  (∀ (s : State) (h : Nat) (c : Cmd) (a b ix : Desc), Running s h 0x0207 c → a = cmdDesc s c (lo32 (cmdParam c 0)) →
    b = cmdDesc s c (hi32 (cmdParam c 0)) → ix = cmdDesc s c (lo32 (cmdParam c 1)) →
    (∀ e x l from_, dEmpty ix = false → CopyGoes s c a b ix → copyEngine s c = some e → footprintsMeet a b = false →
      l = indexList ix (itemCount (if (cmdParam c 1).testBit 32 then b else a)) (Acc.on c.tenant 1 s) →
      from_ = indexedFrom ((cmdParam c 1).testBit 32) l.1 (itemSize b) →
      x = wrPieces b (fun n y => match from_ n with
        | none => (none, y)
        | some m => let r := rdEl a m y; (some r.1, r.2)) (indexedPieces b from_) l.2 → stSharedPoisoned ∉ x.outs →
      ∃ t, exec (.copyIndexed h .clean) s = .next t ∧ EndsAs s t c (dCount ix) x) ∧
    (∀ crc, dEmpty ix = true → sluiceTurn s h = true → ∃ t, exec (.copyIndexed h crc) s = .next t ∧ Ended t h c [] 0 ∧ OnlyCmd s t h)) ∧
  (∀ (d : Desc) (f : SlotFn) (ps : List Line) (s : State) (fn source : Nat), d.space ≤ 5 →
    (∀ n a, (f n a).2.s.mem.basin = a.s.mem.basin ∧ (f n a).2.s.mem.scratch = a.s.mem.scratch ∧ (f n a).2.s.mem.sdata = a.s.mem.sdata) →
    ∀ space inst off, 3 ≤ space → space ≤ 5 →
      (∀ l ∈ ps, ¬(d.space = space ∧ d.inst = inst ∧ l.addr / 64 = off / 64)) →
      off < 2 ^ 48 → (∀ l ∈ ps, l.addr % 64 = 0 ∧ l.addr < 2 ^ 48) →
      zByte (wrPieces d f ps (Acc.on fn source s)).s space inst off = zByte s space inst off)

/-! ### Serving (11) -/

/-- PAGE_SHARE, PAGE_RELEASE and PAGE_COW, once they may go on: with a directory that passes 11 R253 they act on the entries of
their list in order, each by its rule, and end with what they counted, at most the number of entries; otherwise they end with
ST_WINDOW_VIOLATION. ATTEND, VERIFY and EVICT, once they may go on, act on the active rows of their sequence table in order,
each by its rule, and end: ATTEND with VALUE 0, VERIFY with the accepted candidates, EVICT with the pages evicted. Without a
usable tile ATTEND and VERIFY end with ST_DEVICE_FAULT. -/
def Obligations.ServingCommandsMoveDataOnly : Prop :=
  (∀ (s : State) (h op : Nat) (i : Instr) (c : Cmd) (dir l : Desc) (f : PageDir → Nat → Nat → Nat × Acc → Bool × (Nat × Acc)),
    (op, i) ∈ [(0x0401, Instr.pageShare h), (0x0402, .pageRelease h), (0x0403, .pageCow h)] → Running s h op c → Served s c →
    dir = cmdDesc s c (lo32 (cmdParam c 0)) → l = cmdDesc s c (hi32 (cmdParam c 0)) →
    (op = 0x0401 → f = shareOne) → (op = 0x0402 → f = fun d => releaseOne d l) →
    (op = 0x0403 → f = fun d => cowOne d l (cmdDesc s c (lo32 (cmdParam c 2)))) →
    (∀ d x, (readDir c.tenant dir (Acc.held c.tenant 1 s)).1 = some d →
      x = pagesGo (f d) l (cmdParam c 1 % 2 ^ 32) 0 (0, (readDir c.tenant dir (Acc.held c.tenant 1 s)).2) → stSharedPoisoned ∉ x.2.outs →
      x.1 ≤ cmdParam c 1 % 2 ^ 32 ∧ ∃ t, exec i s = .next t ∧ EndsAs s t c x.1 x.2) ∧
    ((readDir c.tenant dir (Acc.held c.tenant 1 s)).1 = none → stSharedPoisoned ∉ (readDir c.tenant dir (Acc.held c.tenant 1 s)).2.outs →
      ∃ t, exec i s = .next t ∧ EndsAs s t c 0 (addOut stWindow true (readDir c.tenant dir (Acc.held c.tenant 1 s)).2))) ∧
  (∀ (s : State) (h : Nat) (c : Cmd) (seq : Desc), Served s c → seq = cmdDesc s c (lo32 (cmdParam c 0)) →
    (∀ x, Running s h 0x0404 c → anyTile s = true → 64 * (cmdParam c 1 / 2 ^ 48 % 2 ^ 16) ≤ dCount seq →
      x = rowsGo c.tenant seq (attendRow c.tenant [] (cmdDesc s c (hi32 (cmdParam c 0))) (cmdDesc s c (lo32 (cmdParam c 1))) (cmdParam c 1 / 2 ^ 32 % 2 ^ 16))
        (cmdParam c 1 / 2 ^ 48 % 2 ^ 16) 0 (0, Acc.held c.tenant 1 s) → stSharedPoisoned ∉ x.2.outs →
      ∃ t, exec (.attend h []) s = .next t ∧ EndsAs s t c 0 x.2) ∧
    (∀ steps, Running s h 0x0404 c → anyTile s = false → ∃ t, exec (.attend h steps) s = .next t ∧ Ended t h c [stDeviceFault] 0 ∧ OnlyCmd s t h) ∧
    (∀ x, Running s h 0x0405 c → anyTile s = true → 64 * (cmdParam c 2 / 2 ^ 16 % 2 ^ 16) ≤ dCount seq →
      x = rowsGo c.tenant seq (verifyRow c.tenant [] seq (cmdDesc s c (hi32 (cmdParam c 0))) (cmdDesc s c (lo32 (cmdParam c 1)))
        (cmdParam c 2 / 2 ^ 8 % 2 ^ 8) ((cmdParam c 2).testBit 0) ((cmdParam c 2).testBit 1)) (cmdParam c 2 / 2 ^ 16 % 2 ^ 16) 0 (0, Acc.held c.tenant 1 s) →
      stSharedPoisoned ∉ x.2.outs → ∃ t, exec (.verify h []) s = .next t ∧ EndsAs s t c x.1 x.2) ∧
    (∀ steps, Running s h 0x0405 c → anyTile s = false → ∃ t, exec (.verify h steps) s = .next t ∧ Ended t h c [stDeviceFault] 0 ∧ OnlyCmd s t h) ∧
    (∀ x drop, Running s h 0x0406 c → drop = (cmdParam c 1).testBit 32 →
      (drop = false → farMismatch c seq (dCount seq / 64) (Acc.held c.tenant 1 s) = false) →
      x = rowsGo c.tenant seq (evictRow seq (cmdParam c 1 % 2 ^ 32) drop) (dCount seq / 64) 0 (0, Acc.held c.tenant 1 s) → stSharedPoisoned ∉ x.2.outs →
      ∃ t, exec (.evict h) s = .next t ∧ EndsAs s t c x.1 x.2))

/-- ADAPTER_LOAD, once it may go on, normalises the up-projection of its source in place by the column scales and makes the slot
resident with its rank; ADAPTER_EVICT empties the slot where the tenant holds it. No other slot changes. -/
def Obligations.AdapterSlotsComeAndGo : Prop :=
  ∀ (s : State) (h : Nat) (c : Cmd),
    (∀ src col r k a, Running s h 0x0407 c → Served s c → src = cmdDesc s c (lo32 (cmdParam c 0)) → col = cmdDesc s c (hi32 (cmdParam c 0)) →
      r = cmdParam c 1 / 2 ^ 16 % 256 → k = dCount src / r - dCount col →
      a = wrPieces src (fun e a =>
        if e < r * k then (none, a)
        else
          let sc := rdEl col ((e - r * k) / (512 * r) * 512 + (e - r * k) % 512) a
          let b := rdEl src e sc.2
          (some (encB16 (dec32 (fmul (widen 4 b.1.1) (frecip sc.1.1))), b.1.2 || sc.1.2), b.2)) (dPieces src) (Acc.start 1 s) →
      stSharedPoisoned ∉ a.outs →
      ∃ t, exec (.adapterLoad h) s = .next t ∧
        EndsAs s t c 0 { a with s := { a.s with adapters := tabPut (cmdParam c 1 % 2 ^ 14) ⟨c.tenant, r, k, dCount col, cmdParam c 0 % 2 ^ 32, true⟩ s.adapters } }) ∧
    (Running s h 0x0408 c → ∃ t, exec (.adapterEvict h) s = .next t ∧ Ended t h c [] 0 ∧
      (∀ e, e ∈ t.adapters ↔ e ∈ s.adapters ∧ ¬(e.1 = cmdParam c 1 % 2 ^ 14 ∧ e.2.tenant = c.tenant)) ∧
      t = { s with cmds := t.cmds, adapters := t.adapters })

/-! ### Bundles (07 R164 to R167; 08 R195) -/

/-- BUNDLE_LOAD makes the bundle of the checked image resident under its handle, VALUE its ABI level; BUNDLE_UNLOAD ends once no
run of the bundle is live, and its completion removes the bundle named. BUNDLE_RUN of a run that is over, all its released
effects landed, ends with its outcomes and the number of its recomputed steps as VALUE; the run is gone. -/
def Obligations.BundlesComeRunAndGo : Prop :=
  (∀ (s : State) (h : Nat) (c : Cmd),
    (∀ d, Running s h 0x0301 c → d = cmdDesc s c (lo32 (cmdParam c 0)) → ∃ t b, exec (.bundleLoad h) s = .next t ∧ Ended t h c [] b.abi ∧ tabGet? h t.bundles = some b ∧
      b = parseBundle c.tenant d (imageBytes s d (min (dCount d) (256 + 16 * 256))) ∧
      (∀ k, k ≠ h → tabGet? k t.bundles = tabGet? k s.bundles) ∧ t = { s with cmds := t.cmds, bundles := t.bundles }) ∧
    (Running s h 0x0302 c → runsLive s (cmdParam c 0) = false → ∃ t, exec (.bundleUnload h) s = .next t ∧ Ended t h c [] 0 ∧ OnlyCmd s t h) ∧
    (Completing s h 0x0302 c → ∃ u t, exec (.commandCompletion h) s = .next t ∧ Recorded u t c ∧
      tabGet? (cmdParam c 0) t.bundles = none ∧ (∀ k, k ≠ cmdParam c 0 → tabGet? k t.bundles = tabGet? k s.bundles) ∧
      u = { s with bundles := t.bundles })) ∧
  (∀ (s : State) (h : Nat) (c : Cmd) (x : Run), Running s h 0x0303 c → getRun? s h = some x → x.state = .ended → effectsOut s h = false →
    ∃ u, exec (.bundleRun h) s = .next (schedule u) ∧ Ended u h c x.outcomes x.recomputes ∧
      (∀ k, k ≠ h → tabGet? k u.runs = tabGet? k s.runs) ∧ tabGet? h u.runs = none ∧
      u = { s with cmds := u.cmds, runs := u.runs })

/-! ### Sync counters (09) -/

/-- What one update releases (09 R209): from the value that step 1 leaves, every WAIT_GE whose threshold it meets, and takers
from the head of their queue, each subtracting its amount, until the head taker's amount exceeds the counter; other waits stay.
At a counter that is not broken each of these is one such update: a signal, by the Brodat command CTR_SIGNAL and by the store's
own COUNTER_SIGNAL (step 1 adds, saturating at 2^64 − 1; the scheduler runs after the update); the arrival of a WAIT_GE or
WAIT_TAKE (step 1 adds the wait); a value set by hand. -/
def Obligations.SignalIsOneSettledUpdate : Prop :=
  (∀ (k v : Nat) (ws : List Wait), ∃ m, (settle k v ws).2.2 + (((ws.filter fun w => w.ctr == k && w.take).take m).map (·.amount)).sum = v ∧
    ((settle k v ws).2.1.filter fun w => w.ctr == k && w.take) = (ws.filter fun w => w.ctr == k && w.take).drop m ∧
    (∀ w, ((ws.filter fun w => w.ctr == k && w.take).drop m).head? = some w → (settle k v ws).2.2 < w.amount) ∧
    ((settle k v ws).2.1.filter fun w => w.ctr == k && !w.take) = (ws.filter fun w => w.ctr == k && !w.take && decide (v < w.amount)) ∧
    ((settle k v ws).2.1.filter fun w => w.ctr != k) = ws.filter fun w => w.ctr != k) ∧
  ∀ (s : State) (h : Nat) (c : Cmd) (k n : Nat), s.ctrs.broken.contains k = false →
    (Running s h 0x0501 c → physCtr s c.tenant (cmdParam c 0 % 2 ^ 16) = some k → n = cmdParam c 1 →
      ∃ u, exec (.ctrSignal h) s = .next (schedule u) ∧ Done u h ∧
        (ctrVal u k).toNat = (settle k (min ((ctrVal s k).toNat + n) (2 ^ 64 - 1)) s.ctrs.waits).2.2 ∧
        u.ctrs.waits = (settle k (min ((ctrVal s k).toNat + n) (2 ^ 64 - 1)) s.ctrs.waits).2.1 ∧
        (∀ j, j ≠ k → ctrVal u j = ctrVal s j) ∧ u.ctrs.updates = s.ctrs.updates + 1 ∧ u.mem = s.mem ∧ u.tenants = s.tenants) ∧
    (∀ tenant ctr, physCtr s tenant ctr = some k →
      ∃ u, exec (.counterSignal tenant ctr n false) s = .next (schedule u) ∧ CmdsGo s u ∧
        (ctrVal u k).toNat = (settle k (min ((ctrVal s k).toNat + n) (2 ^ 64 - 1)) s.ctrs.waits).2.2 ∧
        u.ctrs.waits = (settle k (min ((ctrVal s k).toNat + n) (2 ^ 64 - 1)) s.ctrs.waits).2.1 ∧
        (∀ j, j ≠ k → ctrVal u j = ctrVal s j) ∧ u.ctrs.updates = s.ctrs.updates + 1 ∧ u.mem = s.mem ∧ u.tenants = s.tenants) ∧
    (∀ op take i ws, (op, take, i) ∈ [(0x0502, false, Instr.ctrWaitGe h), (0x0503, true, .ctrWaitTake h)] → Running s h op c →
      physCtr s c.tenant (cmdParam c 0 % 2 ^ 16) = some k → (∀ w ∈ s.ctrs.waits, w.owner ≠ .cmd h) →
      ws = s.ctrs.waits ++ [⟨k, take, cmdParam c 1, .cmd h⟩] → ∃ t, exec i s = .next t ∧
        (ctrVal t k).toNat = (settle k (ctrVal s k).toNat ws).2.2 ∧ t.ctrs.waits = (settle k (ctrVal s k).toNat ws).2.1) ∧
    (Running s h 0x0706 c → namedCtr s (cmdParam c 0 % 64) (cmdParam c 0 / 2 ^ 16 % 2 ^ 16) = some k →
      ∃ u, exec (.counterPoke h) s = .next (schedule u) ∧ (ctrVal u k).toNat = (settle k (cmdParam c 1 % 2 ^ 64) s.ctrs.waits).2.2 ∧
        u.ctrs.waits = (settle k (cmdParam c 1 % 2 ^ 64) s.ctrs.waits).2.1)

/-- CTR_READ and COUNTER_PEEK of a counter that is not broken answer its value and change nothing else. COUNTER_POKE sets the
counter's value by hand, as one update that settles its waits, and repairs a broken one; the owner's HG_CTR_POKED counts. -/
def Obligations.CounterReadsAndPokes : Prop :=
  (∀ (s : State) (h : Nat) (c : Cmd) (k : Nat), s.ctrs.broken.contains k = false →
    (Running s h 0x0504 c → physCtr s c.tenant (cmdParam c 0 % 2 ^ 16) = some k →
      ∃ t, exec (.ctrRead h) s = .next t ∧ Ended t h c [] (ctrVal s k).toNat ∧ OnlyCmd s t h) ∧
    (Running s h 0x0705 c → namedCtr s (cmdParam c 0 % 64) (cmdParam c 0 / 2 ^ 16 % 2 ^ 16) = some k →
      ∃ t, exec (.counterPeek h) s = .next t ∧ Ended t h c [] (ctrVal s k).toNat ∧ OnlyCmd s t h)) ∧
  (∀ (s : State) (h : Nat) (c : Cmd) (k : Nat) (x : Tenant), Running s h 0x0706 c →
    namedCtr s (cmdParam c 0 % 64) (cmdParam c 0 / 2 ^ 16 % 2 ^ 16) = some k → getTen? s (cmdParam c 0 % 64) = some x →
    s.ctrs.broken.contains k = false →
    ∃ u, exec (.counterPoke h) s = .next (schedule u) ∧ Done u h ∧
      (ctrVal u k).toNat = (settle k (cmdParam c 1 % 2 ^ 64) s.ctrs.waits).2.2 ∧
      u.ctrs.waits = (settle k (cmdParam c 1 % 2 ^ 64) s.ctrs.waits).2.1 ∧ u.ctrs.broken.contains k = false ∧
      (∀ j, j ≠ k → ctrVal u j = ctrVal s j) ∧ getTen? u (cmdParam c 0 % 64) = some { x with poked := x.poked + 1 } ∧ u.mem = s.mem)

/-- CTR_WAIT_GE: met, it ends with the counter's value and leaves it; not met, its wait is registered and it runs on.
CTR_WAIT_TAKE at a counter without an earlier taker: met, it takes its amount and ends with what is left; not met, it waits. -/
def Obligations.CounterWaitsEndOrWait : Prop :=
  (∀ (s : State) (h : Nat) (c : Cmd) (k : Nat), Running s h 0x0502 c → physCtr s c.tenant (cmdParam c 0 % 2 ^ 16) = some k →
    s.ctrs.broken.contains k = false → (∀ w ∈ s.ctrs.waits, w.owner ≠ .cmd h) →
    ∃ t, exec (.ctrWaitGe h) s = .next t ∧ (∀ j, j ≠ k → ctrVal t j = ctrVal s j) ∧ t.mem = s.mem ∧ t.tenants = s.tenants ∧
      (cmdParam c 1 ≤ (ctrVal s k).toNat → Ended t h c [] (ctrVal s k).toNat) ∧
      ((ctrVal s k).toNat < cmdParam c 1 → getCmd? t h = some c ∧ ⟨k, false, cmdParam c 1, .cmd h⟩ ∈ t.ctrs.waits)) ∧
  (∀ (s : State) (h : Nat) (c : Cmd) (k : Nat), Running s h 0x0503 c → physCtr s c.tenant (cmdParam c 0 % 2 ^ 16) = some k →
    s.ctrs.broken.contains k = false → (∀ w ∈ s.ctrs.waits, w.owner ≠ .cmd h) → headTaker k s.ctrs.waits = none →
    ∃ t, exec (.ctrWaitTake h) s = .next t ∧ (∀ j, j ≠ k → ctrVal t j = ctrVal s j) ∧ t.mem = s.mem ∧ t.tenants = s.tenants ∧
      (cmdParam c 1 ≤ (ctrVal s k).toNat →
        (ctrVal t k).toNat = (ctrVal s k).toNat - cmdParam c 1 ∧ Ended t h c [] ((ctrVal s k).toNat - cmdParam c 1)) ∧
      ((ctrVal s k).toNat < cmdParam c 1 → ctrVal t k = ctrVal s k ∧ getCmd? t h = some c ∧ ⟨k, true, cmdParam c 1, .cmd h⟩ ∈ t.ctrs.waits))

/-! ### Furrow units (04) -/

/-- The furrow rows by code. -/
def furrowRow (id : Nat) : List (Nat × Instr) :=
  [(0x01, .fopCopy id), (0x02, .fopFill id), (0x03, .fopLogic id), (0x10, .fopDot id), (0x11, .fopAxpy id), (0x12, .fopAxpyReduce id),
   (0x20, .fopGather id), (0x21, .fopSegment id), (0x30, .fopAtomic id), (0x31, .fopAtomicFetch id), (0x40, .fopPageScore id)]

/-- FURROW hands its operation, resolved from its packet, to the stack controllers once, where every stack that holds its rows
has a unit that can serve. FOP_COPY to FOP_PAGE_SCORE: an operation every pair of which has begun a slice makes all the writes
of its code, of a FILL those of its whole blocks, once; it is marked computed, with its outcomes and the elements it refused. It
then settles: with no slice of it left, the command that issued it ends. For each of the eleven operations, while nothing else
writes. -/
def Obligations.FurrowOperationsReachTheStacksAndWriteOnce : Prop :=
  (∀ (s : State) (h : Nat) (c : Cmd), Running s h 0x0210 c → (∀ o ∈ s.fops, o.2.source ≠ some h) →
    (∀ k ∈ fopStacks s (fopOfPacket (undying c.tenant s) c.tenant c.pkt), (getStk s k).noFurrow = false) →
    ∃ t, exec (.furrow h) s = .next t ∧
      getFop? t s.nextFop = some (newFop (fopOfPacket (undying c.tenant s) c.tenant c.pkt) c.tenant (some h) none false s) ∧
      (∀ k, k ≠ s.nextFop → getFop? t k = getFop? s k) ∧ t = { s with fops := t.fops, nextFop := s.nextFop + 1 }) ∧
  (∀ (s : State) (id op : Nat) (i : Instr) (o : FurrowOp) (r : Nat × Acc), (op, i) ∈ furrowRow id → getFop? s id = some o → o.params.op = op →
    o.computed = false → o.stopped = false → fopBegun s o = true → o.rivals = [] → (∀ e ∈ s.fops, e.1 = id) →
    (∀ x ∈ s.cmds, x.stage = .admitted ∨ o.source = some x.handle ∨ (x.pkt.opcode ≠ 0x0205 ∧ sluiceBound x.pkt = false)) →
    r = (if isFill s o then (0, fillPartGo o.params { Acc.on o.tenant 3 s with mark := o.marked })
      else fopGo o.params { Acc.on o.tenant 3 s with mark := o.marked }) →
    stSharedPoisoned ∉ r.2.outs →
    ∃ t, exec i s = .next (settleFop id t) ∧
      getFop? t id = some { o with computed := true, refused := o.refused + r.1, outcomes := addOutcomes r.2.outs o.outcomes } ∧
      t = { r.2.s with fops := t.fops } ∧
      ∀ h c, fopSliced t id = false → o.source = some h → getCmd? s h = some c → c.stage = .running →
        Ended (settleFop id t) h c (addOutcomes r.2.outs o.outcomes) (o.refused + r.1) ∧ getFop? (settleFop id t) id = none)

/-! ### Queues and the headgate (08 R170 to R191; 14 R342 to R344) -/

/-- The module after the entry at the head of queue `q` of tenant `t` is fetched from the host: the head and the rotation have
moved on. -/
def fetched (s : State) (t q : Nat) (x : SubQ) : State :=
  { modQueue t q (fun y => { y with head := (x.head + 1) % 2 ^ x.log2 }) (hostFetch t (x.base + 64 * x.head) 64 s) with
    rrTenant := (t + 1) % 64, rrQueue := tabPut t ((q + 1) % 16) s.rrQueue }

/-- PACKET_ADMISSION of the next packet: refused, it leaves no command and writes one admission record with the status and no
handle; accepted, it joins the live commands under the tenant's next handle, which its admission record names, and a
GROUP_DEADLINE sets its group's deadline at once; a second mismatch of the sequencers halts admission. Where no queue has an
entry to fetch nothing changes. -/
def Obligations.AdmissionAnswersOnePacket : Prop :=
  ∀ (s : State) (m : Nat), (fetchNext s = none → exec (.packetAdmission m) s = .next s) ∧
    ∀ (t q : Nat) (x : SubQ) (p : Packet), fetchNext s = some (t, q) → subqOf s t q = some x →
      p = parsePacket (hostRead s (x.base + 64 * x.head) 64) →
      (∀ v, m = 0 → verdict (fetched s t q x) t p = some v → ∃ u, exec (.packetAdmission m) s = .next u ∧ u.cmds = s.cmds ∧ u.seqs = s.seqs ∧
        hostRead u (cqBaseOf (getFn s t) + 32 * (getFn s t).cqTail) 32 =
          recordBytes 1 (rflags (getFn s t).cqPhase false false) v.1 p.tag 0 p.opcode q v.2 ((x.head + 1) % 2 ^ x.log2) (now s) ∧
        (getFn u t).cqTail = ((getFn s t).cqTail + 1) % cqSize (getFn s t)) ∧
      (m = 0 → verdict (fetched s t q x) t p = none → ∃ u, exec (.packetAdmission m) s = .next u ∧
        List.Forall₂ CmdGoes (s.cmds ++ [admitCmd (fetched s t q x) t q p (t * 2 ^ 56 + tabGetD 1 t s.seqs)]) u.cmds ∧
        tabGetD 1 t u.seqs = tabGetD 1 t s.seqs + 1 ∧ u.nextOrder = s.nextOrder + 1 ∧
        (p.opcode ≠ 0x0105 → hostRead u (cqBaseOf (getFn s t) + 32 * (getFn s t).cqTail) 32 =
          recordBytes 1 (rflags (getFn s t).cqPhase false false) stAccepted p.tag (t * 2 ^ 56 + tabGetD 1 t s.seqs) p.opcode q 0
            ((x.head + 1) % 2 ^ x.log2) (now s))) ∧
      (∀ y, m = 0 → verdict (fetched s t q x) t p = none → p.opcode = 0x0105 → getTen? s t = some y →
        ∃ v, exec (.packetAdmission m) s = .next (schedule v) ∧ getTen? v t = some { y with deadlines := tabPut (pk p 1) (pk p 0) y.deadlines } ∧
          ∀ k, k ≠ t → getTen? v k = getTen? s k) ∧
      (2 ≤ m → ∃ u, exec (.packetAdmission m) s = .next u ∧ u.halted = true ∧ u.cmds = s.cmds ∧ u.board.faultN = false)

/-- COMMAND_START dispatches the command of lowest rank among those that may start, and no other; a bundle run joins the runs
and is placed; a copy joins its queue of the sluice engine that takes it. -/
def Obligations.StartTakesTheLowestRank : Prop :=
  ∀ (s : State) (c : Cmd), nextStart s = some c →
    c ∈ s.cmds ∧ startable s c = true ∧ (∀ b ∈ s.cmds, startable s b = true → rankOf s c ≤ rankOf s b) ∧
    (c.pkt.opcode ≠ 0x0303 → ∃ t, exec .commandStart s = .next t ∧ (∀ k, k ≠ c.handle → getCmd? t k = getCmd? s k) ∧
      (∃ x, getCmd? s c.handle = some x ∧ getCmd? t c.handle = some { x with stage := .running }) ∧
      t = { s with cmds := t.cmds, sluiceQ := t.sluiceQ } ∧ (sluiceBound c.pkt = false → t.sluiceQ = s.sluiceQ) ∧
      ∀ e k, sluiceBound c.pkt = true → sluiceFor s c = some e → k = 8 * e + (if c.pkt.opcode = 0x0206 then cmdParam c 1 / 2 ^ 40 % 8 else 0) →
        tabGetD [] k t.sluiceQ = (tabGetD [] k s.sluiceQ).filter (fun h => (getCmd? s h).isSome) ++ [c.handle] ∧
        ∀ j, j ≠ k → tabGet? j t.sluiceQ = tabGet? j s.sluiceQ) ∧
    (c.pkt.opcode = 0x0303 → ∃ u, exec .commandStart s = .next (schedule u) ∧ getRun? u c.handle = some (newRun c) ∧
      (∀ k, k ≠ c.handle → getRun? u k = getRun? s k ∧ getCmd? u k = getCmd? s k) ∧
      u = { s with cmds := u.cmds, runs := u.runs })

/-- COMMAND_COMPLETION of a command that may complete removes it, applies its signal where it asks for one and its status lets
it, brings about what its completion does (or undoes), and writes one completion record: the first status of R199 that applies,
its TAG, handle, opcode, queue and VALUE, with LATE where its deadline has passed. A Henua request has no record. Every other
command goes on. -/
def Obligations.CompletionWritesOneRecord : Prop :=
  ∀ (s u : State) (h : Nat) (c : Cmd), getCmd? s h = some c → mayComplete s c = true →
    u = (if signalsOn (statusOf (finalOutcomes s c)) then completed c s else undone c s) →
    ∃ t, exec (.commandCompletion h) s = .next t ∧ getCmd? t h = none ∧ CmdsGo { s with cmds := s.cmds.filter fun x => x.handle != h } t ∧
      (c.pkt.opcode ≠ 0x0703 → c.pkt.opcode ≠ 0x0102 → t.ctrs = if bitOf c.pkt.flags 0 && signalsOn (statusOf (finalOutcomes s c))
        then (signalCtr c.tenant c.pkt.counter c.pkt.signalN s).ctrs else s.ctrs) ∧
      (c.pkt.opcode ≠ 0x0703 → bitOf c.pkt.flags 0 = false → c.silent = false → (getFn u c.tenant).cqBad = false →
        hostRead t (cqBaseOf (getFn u c.tenant) + 32 * (getFn u c.tenant).cqTail) 32 =
          recordBytes 2 (rflags (getFn u c.tenant).cqPhase (decide (deadlineOf s c < now s)) ((finalOutcomes s c).contains stRecomputed))
            (statusOf (finalOutcomes s c)) c.pkt.tag h c.pkt.opcode c.sq 0 0 c.value ∧
        (getFn t c.tenant).cqTail = ((getFn u c.tenant).cqTail + 1) % cqSize (getFn u c.tenant) ∧
        (∀ k, k ≠ h → getCmd? t k = getCmd? u k) ∧
        t = { u with cmds := t.cmds, fns := t.fns, mem := { u.mem with host := t.mem.host }, out := t.out })

/-- HG_SQ_TAIL_WRITE: the host's stores reach memory, then the tail is set, or BAD_TAIL where it is out of range.
HG_CQ_HEAD_WRITE sets the head of an existing queue's function, and clears CQ_STALLED once two entries are free; an index out of
range changes nothing. Behind a window write of the function that waits, each of the two doorbells waits. HG_CQ_CTRL_WRITE and
HG_SQ0_CTRL_WRITE: ENABLE follows the value; LOG2_ENTRIES follows it only while ENABLE was 0; enabling a setting in range opens
an empty ring (the ring's restart: log entry 18), one out of range leaves it unusable. -/
def Obligations.QueueRegistersMoveTheirRings : Prop :=
  (∀ (s : State) (fn q n : Nat) (stores : List (Nat × List Byte)) (x : SubQ), fn < 64 → q < 16 →
    (q = 0 → sq0Enabled (getFn s fn) = true ∧ x = (getFn s fn).sq0) → (q ≠ 0 → tabGet? q (getFn s fn).queues = some x) →
    (behindWrite s.held fn = true → ∃ t, exec (.hgSqTailWrite fn q n stores) s = .next t ∧
      t.held.map (·.acc) = s.held.map (·.acc) ++ [.doorbell fn q n] ∧ (∀ f, getFn t f = getFn s f) ∧
      t.mem = (forEach (fun (e : Nat × List Byte) => hostStore e.1 e.2) stores s).mem ∧ t = { s with mem := t.mem, held := t.held }) ∧
    (behindWrite s.held fn = false → ∃ t, exec (.hgSqTailWrite fn q n stores) s = .next t ∧
      (if q = 0 then some (getFn t fn).sq0 else tabGet? q (getFn t fn).queues) =
        some (if n % 4096 < 2 ^ x.log2 then { x with tail := n % 4096, badTail := false } else { x with badTail := true }) ∧
      (∀ f, f ≠ fn → getFn t f = getFn s f) ∧ t.mem = (forEach (fun (e : Nat × List Byte) => hostStore e.1 e.2) stores s).mem ∧
      t = { s with fns := t.fns, mem := t.mem }) ∧
    (behindWrite s.held fn = true → ∃ t, exec (.hgCqHeadWrite fn q n) s = .next t ∧
      t.held.map (·.acc) = s.held.map (·.acc) ++ [.cqHead fn q n] ∧ t = { s with held := t.held }) ∧
    (behindWrite s.held fn = false → ∃ t, exec (.hgCqHeadWrite fn q n) s = .next t ∧
      (n % 65536 < cqSize (getFn s fn) → (getFn t fn).cqHead = n % 65536 ∧ (getFn t fn).cqTail = (getFn s fn).cqTail ∧
        (getFn t fn).cqStalled = ((getFn s fn).cqStalled && decide (cqFree t fn < 2))) ∧
      (cqSize (getFn s fn) ≤ n % 65536 → t = s) ∧ (∀ f, f ≠ fn → getFn t f = getFn s f) ∧ t = { s with fns := t.fns })) ∧
  (∀ (s : State) (fn : Nat) (v : W32), fn < 64 →
    (∃ t, exec (.hgCqCtrlWrite fn v) s = .next t ∧ cqEnabled (getFn t fn) = bitOf v.toNat 31 ∧
      (cqEnabled (getFn s fn) = true → cqSize (getFn t fn) = cqSize (getFn s fn) ∧ (getFn t fn).cqTail = (getFn s fn).cqTail) ∧
      (cqEnabled (getFn s fn) = false → cqSize (getFn t fn) = 2 ^ (v.toNat % 32) ∧
        (bitOf v.toNat 31 = true → (getFn t fn).cqBad = !cqConfigOk s fn (getFn t fn) ∧ (getFn t fn).cqTail = 0 ∧ (getFn t fn).cqHead = 0)) ∧
      (∀ f, f ≠ fn → getFn t f = getFn s f) ∧ t = { s with fns := t.fns }) ∧
    (∃ t, exec (.hgSq0CtrlWrite fn v) s = .next t ∧ sq0Enabled (getFn t fn) = bitOf v.toNat 31 ∧
      (sq0Enabled (getFn s fn) = true → (getFn t fn).sq0 = (getFn s fn).sq0) ∧
      (sq0Enabled (getFn s fn) = false → bitOf v.toNat 31 = true → (getFn t fn).sq0Bad = !sq0ConfigOk s fn (getFn t fn) ∧
        (getFn t fn).sq0 = ⟨sq0BaseOf (getFn s fn), v.toNat % 16, 0, 0, false, false⟩) ∧
      (∀ f, f ≠ fn → getFn t f = getFn s f) ∧ t = { s with fns := t.fns }))

/-- The interrupt rows: a moderation timer that ends sends one message if anything counted; a completion queue short of room for
10 ms is stalled, announced and reported; unmasking an entry sends its pending message. -/
def Obligations.InterruptTimersSpeakOnce : Prop :=
  ∀ (s : State) (fn vec : Nat), fn < 64 → vec < 32 →
    (tabGetD false vec (getFn s fn).modTimer = false → exec (.irqHoldoffExpiry fn vec) s = .next s) ∧
    (tabGetD false vec (getFn s fn).modTimer = true →
      ∃ t, exec (.irqHoldoffExpiry fn vec) s = .next t ∧
        t.out = s.out ++ (if 0 < tabGetD 0 vec (getFn s fn).modCount ∧ (getFn s fn).msixEnable = true ∧ (getFn s fn).msixMask = false ∧
          (tabGetD msixDefault vec (getFn s fn).msix).masked = false then [.msix fn vec] else []) ∧
        (getFn t fn).modCount = tabDel vec (getFn s fn).modCount ∧ (getFn t fn).modTimer = tabDel vec (getFn s fn).modTimer ∧
        (hasBit (getFn t fn).pba vec = true ↔ hasBit (getFn s fn).pba vec = true ∨
          (0 < tabGetD 0 vec (getFn s fn).modCount ∧ (getFn s fn).msixEnable = true ∧
            ((getFn s fn).msixMask = true ∨ (tabGetD msixDefault vec (getFn s fn).msix).masked = true))) ∧
        (∀ f, f ≠ fn → getFn t f = getFn s f) ∧ t = { s with fns := t.fns, out := t.out }) ∧
    (tenantThere s fn = true → cqInUse (getFn s fn) = true → cqFree s fn < 2 → (getFn s fn).cqStalled = false →
      ∃ t, exec (.cqStallTimeout fn) s = .next t ∧ (getFn t fn).cqStalled = true ∧ (∀ f, f ≠ fn → getFn t f = getFn s f) ∧
        (s.henua.up = true → t.henua.evtSeq = s.henua.evtSeq + 1) ∧ t = { s with fns := t.fns, out := t.out, henua := t.henua }) ∧
    (∃ t, exec (.msixUnmask fn vec) s = .next t ∧
      (tabGetD msixDefault vec (getFn t fn).msix) = { tabGetD msixDefault vec (getFn s fn).msix with masked := false } ∧
      t.out = s.out ++ (if (getFn s fn).msixEnable = true ∧ (getFn s fn).msixMask = false ∧ hasBit (getFn s fn).pba vec = true
        then [.msix fn vec] else []) ∧
      (∀ f, f ≠ fn → getFn t f = getFn s f) ∧ t = { s with fns := t.fns, out := t.out })

/-! ### Registers (00 R5, R454; 01 R11; 04 R92; 10 R238; 17 R415) -/

/-- HG_DEV_TIME_READ: a read of the low half answers it and latches the high half for that function; the next read of the high
half returns the latched value and releases the latch; an 8-byte read answers the whole value and touches no latch. -/
def Obligations.DevTimeReadsAreConsistent : Prop :=
  ∀ (s : State) (fn : Nat), fn < 64 →
    (∃ t, exec (.hgDevTimeRead fn .low32) s = .next t ∧ t.out = s.out ++ [.regRead fn 0x40 (s.devTime.toNat % 2 ^ 32)] ∧
      (getFn t fn).devLatch = some (BitVec.ofNat 32 (s.devTime.toNat / 2 ^ 32)) ∧ (∀ f, f ≠ fn → getFn t f = getFn s f) ∧
      t = { s with fns := t.fns, out := t.out }) ∧
    (∀ v, (getFn s fn).devLatch = some v → ∃ t, exec (.hgDevTimeRead fn .high32) s = .next t ∧ t.out = s.out ++ [.regRead fn 0x44 v.toNat] ∧
      (getFn t fn).devLatch = none ∧ (∀ f, f ≠ fn → getFn t f = getFn s f) ∧ t = { s with fns := t.fns, out := t.out }) ∧
    ((getFn s fn).devLatch = none →
      exec (.hgDevTimeRead fn .high32) s = .next { s with out := s.out ++ [.regRead fn 0x44 (s.devTime.toNat / 2 ^ 32)] }) ∧
    exec (.hgDevTimeRead fn .full64) s = .next { s with out := s.out ++ [.regRead fn 0x40 s.devTime.toNat] }

/-- RC_REGISTER_READ. The registers with RC fields in both halves, SC_UE_FIRST and PX_BAR4_VIOL, are read and cleared as one (00
R454): a read with the low half, of 4 or 8 bytes, answers and clears both; a 4-byte one latches the high half for the function;
the next read of the high half answers the latch and releases it, and without a latch the live half. Other RC fields,
HG_RUN_SWITCH_MAX and the stack's host-wait maximum, clear by their read; a misaligned access answers 0 and sets BAD_ACCESS; a
register without RC field, a doorbell page and a configuration register answer their value and change nothing. -/
def Obligations.ReadsClearOnlyReadClearFields : Prop :=
  ∀ (s : State) (fn : Nat), fn < 64 →
    (∀ k lo w, k < 8 → lo = 0x30000 + 0x200 * k + 0x160 → w = ueFirstWord (getStk s k) → w < 2 ^ 64 →
      (∃ t, exec (.rcRegisterRead 0 (.bar0 lo) 4) s = .next t ∧ t.out = s.out ++ [.regRead 0 lo (w % 2 ^ 32)] ∧
        getStk t k = { getStk s k with ueFirst := none, ueMore := false } ∧ tabGet? lo (getFn t 0).rcLatch = some (BitVec.ofNat 32 (w / 2 ^ 32)) ∧
        (∀ j, j ≠ k → getStk t j = getStk s j) ∧ (∀ f, f ≠ 0 → getFn t f = getFn s f) ∧ t = { s with stks := t.stks, fns := t.fns, out := t.out }) ∧
      (∃ t, exec (.rcRegisterRead 0 (.bar0 lo) 8) s = .next t ∧ t.out = s.out ++ [.regRead 0 lo w] ∧
        getStk t k = { getStk s k with ueFirst := none, ueMore := false } ∧ (∀ j, j ≠ k → getStk t j = getStk s j) ∧ t = { s with stks := t.stks, out := t.out }) ∧
      (∀ v, tabGet? lo (getFn s 0).rcLatch = some v → ∃ t, exec (.rcRegisterRead 0 (.bar0 (lo + 4)) 4) s = .next t ∧
        t.out = s.out ++ [.regRead 0 (lo + 4) v.toNat] ∧ tabGet? lo (getFn t 0).rcLatch = none ∧ (∀ f, f ≠ 0 → getFn t f = getFn s f) ∧
        t = { s with fns := t.fns, out := t.out }) ∧
      (tabGet? lo (getFn s 0).rcLatch = none → exec (.rcRegisterRead 0 (.bar0 (lo + 4)) 4) s = .next { s with out := s.out ++ [.regRead 0 (lo + 4) (w / 2 ^ 32)] })) ∧
    (∀ w, w = violWord (getFn s fn) →
      (∃ t, exec (.rcRegisterRead fn (.bar0 0x410) 4) s = .next t ∧ t.out = s.out ++ [.regRead fn 0x410 (w % 2 ^ 32)] ∧ (getFn t fn).viol = none ∧
        tabGet? 0x410 (getFn t fn).rcLatch = some (BitVec.ofNat 32 (w / 2 ^ 32)) ∧ (∀ f, f ≠ fn → getFn t f = getFn s f) ∧ t = { s with fns := t.fns, out := t.out }) ∧
      (∃ t, exec (.rcRegisterRead fn (.bar0 0x410) 8) s = .next t ∧ t.out = s.out ++ [.regRead fn 0x410 w] ∧ getFn t fn = { getFn s fn with viol := none } ∧
        (∀ f, f ≠ fn → getFn t f = getFn s f) ∧ t = { s with fns := t.fns, out := t.out }) ∧
      (∀ v, tabGet? 0x410 (getFn s fn).rcLatch = some v → ∃ t, exec (.rcRegisterRead fn (.bar0 0x414) 4) s = .next t ∧ t.out = s.out ++ [.regRead fn 0x414 v.toNat] ∧
        tabGet? 0x410 (getFn t fn).rcLatch = none ∧ (getFn t fn).viol = (getFn s fn).viol ∧ (∀ f, f ≠ fn → getFn t f = getFn s f) ∧
        t = { s with fns := t.fns, out := t.out }) ∧
      (tabGet? 0x410 (getFn s fn).rcLatch = none → exec (.rcRegisterRead fn (.bar0 0x414) 4) s = .next { s with out := s.out ++ [.regRead fn 0x414 (w / 2 ^ 32)] })) ∧
    (∃ t, exec (.rcRegisterRead fn (.bar0 0x210) 4) s = .next t ∧ t.out = s.out ++ [.regRead fn 0x210 (getFn s fn).switchMax.toNat] ∧
      getFn t fn = { getFn s fn with switchMax := 0 } ∧ (∀ f, f ≠ fn → getFn t f = getFn s f) ∧ t = { s with fns := t.fns, out := t.out }) ∧
    (∀ k, k < 8 → ∃ t, exec (.rcRegisterRead 0 (.bar0 (0x30000 + 0x200 * k + 0x20)) 4) s = .next t ∧
      t.out = s.out ++ [.regRead 0 (0x30000 + 0x200 * k + 0x20) (getStk s k).hostWaitMax.toNat] ∧
      getStk t k = { getStk s k with hostWaitMax := 0 } ∧ (∀ j, j ≠ k → getStk t j = getStk s j) ∧ t = { s with stks := t.stks, out := t.out }) ∧
    (∀ off size, aligned off size = false → ∃ t, exec (.rcRegisterRead fn (.bar0 off) size) s = .next t ∧ t.out = s.out ++ [.regRead fn off 0] ∧
      getFn t fn = { getFn s fn with badAccess := true } ∧ (∀ f, f ≠ fn → getFn t f = getFn s f) ∧ t = { s with fns := t.fns, out := t.out }) ∧
    (∀ off, off % 4 = 0 → 0x1000 ≤ off → off < 0x9000 → exec (.rcRegisterRead fn (.bar0 off) 4) s = .next { s with out := s.out ++ [.regRead fn off (reg32 s fn off)] }) ∧
    (∀ off, off % 4 = 0 → exec (.rcRegisterRead fn (.bar2 off) 4) s = .next { s with out := s.out ++ [.bar2Read fn off (bar2Read s fn off)] }) ∧
    (∀ r size, s.board.crsDone = true → exec (.rcRegisterRead fn (.config r) size) s = .next { s with out := s.out ++ [.cfgRead fn r (configReg s fn r)] })

/-- Writes: a 1 clears a W1C field and a 0 leaves it; a read-only register stays as it is; misaligned writes set BAD_ACCESS
alone; interrupt enables keep the value written; HG_PREEMPT_MARGIN written whole by the physical function takes the value at
once. SC_FURROW_BUDGET, SC_PATROL_CTRL and PM_POWER_LIMIT keep the last value written by the physical function; a virtual
function's write changes nothing. -/
def Obligations.RegisterWritesFollowTheFieldType : Prop :=
  (∀ (s : State) (fn : Nat), fn < 64 →
    (∀ v : W32, ∃ t, exec (.w1cRegisterWrite fn 0x418 v) s = .next t ∧
      (∀ i, i < 6 → hasBit (getFn t fn).irqCause i = (hasBit (getFn s fn).irqCause i && !bitOf v.toNat i)) ∧
      getFn t fn = { getFn s fn with irqCause := (getFn t fn).irqCause } ∧ (∀ f, f ≠ fn → getFn t f = getFn s f) ∧ t = { s with fns := t.fns }) ∧
    (∀ v : W32, ∃ t, exec (.w1cRegisterWrite fn 0x188 v) s = .next t ∧
      getFn t fn = { getFn s fn with saturated := (getFn s fn).saturated && !bitOf v.toNat 0 } ∧ t = { s with fns := t.fns }) ∧
    (∀ (off : Nat) (v : W64), off % 4 = 0 → 0x1000 ≤ off → off < 0x8000 → exec (.registerWrite (.bar0 fn off) 4 v) s = .next s) ∧
    (∀ (off size : Nat) (v : W64), aligned off size = false → ∃ t, exec (.registerWrite (.bar0 fn off) size v) s = .next t ∧
      getFn t fn = { getFn s fn with badAccess := true } ∧ (∀ f, f ≠ fn → getFn t f = getFn s f) ∧ t = { s with fns := t.fns }) ∧
    (∀ v : W64, ∃ t, exec (.registerWrite (.bar0 fn 0x41C) 4 v) s = .next t ∧
      getFn t fn = { getFn s fn with irqEnable := BitVec.ofNat 6 (v.toNat % 2 ^ 32) } ∧ (∀ f, f ≠ fn → getFn t f = getFn s f) ∧ t = { s with fns := t.fns }) ∧
    (∀ v : W64, exec (.registerWrite (.bar0 0 0x228) 8 v) s = .next (schedule { s with margin := v }))) ∧
  (∀ (s : State) (fn k : Nat) (v : W32), fn < 64 → k < 8 →
    (∃ t, exec (.scFurrowBudgetWrite fn k v) s = .next t ∧
      getStk t k = (if fn = 0 then { getStk s k with stackLimit := v.toNat / 2 ^ 16 % 2 ^ 9, dieLimit := v.toNat % 2 ^ 5 } else getStk s k) ∧
      (∀ j, j ≠ k → getStk t j = getStk s j) ∧ t = { s with stks := t.stks }) ∧
    (∃ t, exec (.scPatrolCtrlWrite fn k v) s = .next t ∧
      getStk t k = (if fn = 0 then { getStk s k with patrolPause := bitOf v.toNat 31, patrolHours := v.toNat % 2 ^ 8 } else getStk s k) ∧
      (∀ j, j ≠ k → getStk t j = getStk s j) ∧ t = { s with stks := t.stks }) ∧
    (s.board.power48 = true → exec (.pmPowerLimitWrite v) s = .next { s with pm := { s.pm with limit := v.toNat % 2 ^ 12 } }))

/-! ### Memories (05 R105; 10 R225 to R236) -/

/-- A block written whole reads back: its poison mark, and its bytes where it is not poisoned. In host memory, where a poisoned
write carries 0xFF and the EP bit instead (10 R235), it is the unpoisoned block; in far memory as long as the expander itself
returns no poison. In spaces other than stack memory every other block of the instance reads as before. -/
def Obligations.BlocksReadBackAsWritten : Prop :=
  ∀ (s : State) (fn space inst off : Nat) (data : List Byte) (poison : Bool) (source : Nat), space ≤ 5 → off < 2 ^ 48 → off % 64 = 0 →
    data.length = 64 → unreachable s space off = false → (space = 0 → poison = false) →
    (∀ b, space = 2 → physBlk s off = some b → (getStk s (stackOfBlk b)).flipArmed = false) →
    (space = 1 → ∀ n, Config.expanderPoison n (farHome s.far off).1 ((farHome s.far off).2 / 64) = false) →
    (readBlk source space inst off (writeBlk fn space inst off data fullMask poison source s)).1.poison = poison ∧
    (poison = false → (readBlk source space inst off (writeBlk fn space inst off data fullMask poison source s)).1.data = data) ∧
    (space ≠ 2 → ∀ o, o < 2 ^ 48 → o % 64 = 0 → o ≠ off →
      (readBlk source space inst o (writeBlk fn space inst off data fullMask poison source s)).1 = (readBlk source space inst o s).1)

/-- STACK_WRITE of a whole ready block stores its word and leaves every other byte of stack memory; a first partial write of a
block, while the merge buffer has room, goes into a new entry, cancels what waits to be written back of the block, and no stored
byte changes. STACK_READ of a ready block with no merge entry: a clean word changes nothing but the open row; a corrected one
counts in SC_CE_TOTAL and owes a write-back; poison counts in SC_POISON_READS; an uncorrectable word outside the shared pages
counts in SC_UE_TOTAL and owes a rewrite with poison. Symbol errors named with the read arise in the word before it. -/
def Obligations.StackAccessesStoreMergeAndCount : Prop :=
  (∀ (s : State) (k off source : Nat) (data : List Byte) (mask : W64), k < 8 → data.length = 64 → blkReady s (localBlk k off) = true →
    accessWaits s (.write k off data mask source) = false →
    (mask = BitVec.allOnes 64 → (getStk s k).flipArmed = false → ∃ t, exec (.stackWrite k off data mask source) s = .next t ∧
      findWord t (localBlk k off) = ⟨data, 0, none⟩ ∧ mergeFind t (localBlk k off) = none ∧
      (∀ a, a < 64 * localBlk k off ∨ 64 * localBlk k off + 64 ≤ a → tabGet? a t.mem.stack = tabGet? a s.mem.stack) ∧
      (∀ j, j ≠ k → getStk t j = getStk s j) ∧ t = { s with mem := t.mem, stks := t.stks }) ∧
    (mask ≠ BitVec.allOnes 64 → mask ≠ 0 → source ≠ 3 → mergeFind s (localBlk k off) = none → (getStk s k).merge.length < 64 →
      ∃ t e, exec (.stackWrite k off data mask source) s = .next t ∧
        getStk t k = { getStk s k with
          merge := (getStk s k).merge ++ [e], writeBacks := setDel (localBlk k off) (getStk s k).writeBacks,
          uePending := setDel (localBlk k off) (getStk s k).uePending } ∧ e.blk = localBlk k off ∧ e.mask = mask ∧
        (∀ i, i < 64 → mask.getLsbD i = true → e.data.getD i 0 = data.getD i 0) ∧
        (∀ j, j ≠ k → getStk t j = getStk s j) ∧ t = { s with stks := t.stks })) ∧
  (∀ (s : State) (k off : Nat), k < 8 → blkReady s (localBlk k off) = true → mergeFind s (localBlk k off) = none →
    accessWaits s (.read k off 0) = false →
    (∀ f, f ≠ 0 → exec (.stackRead k off f) s = exec (.stackRead k off 0) { s with mem := { s.mem with
      flips := tabPut (localBlk k off) (tabGetD 0 (localBlk k off) s.mem.flips ^^^ f) s.mem.flips } }) ∧
    ((findWord s (localBlk k off)).kind = 0 → exec (.stackRead k off 0) s = .next (openRow (localBlk k off) s)) ∧
    ((findWord s (localBlk k off)).kind = 1 → ∃ t, exec (.stackRead k off 0) s = .next t ∧
      (getStk t k).ceTotal = (getStk s k).ceTotal + 1 ∧ localBlk k off ∈ (getStk t k).writeBacks ∧ t.mem = s.mem ∧
      (∀ j, j ≠ k → getStk t j = getStk s j) ∧ DataOnly s t) ∧
    ((findWord s (localBlk k off)).kind = 3 → ∃ t, exec (.stackRead k off 0) s = .next t ∧
      (getStk t k).poisonReads = (getStk s k).poisonReads + 1 ∧ t.mem = s.mem ∧ (∀ j, j ≠ k → getStk t j = getStk s j) ∧ DataOnly s t) ∧
    ((findWord s (localBlk k off)).kind = 2 → (modOfBlk s (localBlk k off)).bind (mirrorOf s) = none →
      ∃ t, exec (.stackRead k off 0) s = .next t ∧ (getStk t k).ueTotal = (getStk s k).ueTotal + 1 ∧
        localBlk k off ∈ (getStk t k).uePending ∧ t.mem = s.mem ∧ (∀ j, j ≠ k → getStk t j = getStk s j) ∧ DataOnly s t))

/-- The controller's own writes of a ready block: an expired merge entry is written over a clean word and goes; a correction is
written back and a rewrite poisons the word, each once. No other word of the stack changes. CE_BUCKET_LEAK lowers the bucket by
one outside Hold; PATROL_ROW_VISIT reads the next mapped row and moves on, a pass counted where the row number wraps. -/
def Obligations.ControllersRewriteTheirWords : Prop :=
  (∀ (s : State) (k b : Nat), k < 8 → b / 2 ^ 31 = k → blkReady s b = true → (getStk s k).flipArmed = false →
    (∀ e, mergeFind s b = some e → e.mask ≠ BitVec.allOnes 64 → (findWord s b).kind = 0 → ∃ t, exec (.mergeWindowExpiry k b) s = .next t ∧
      findWord t b = ⟨mergeBytes e.mask.toNat e.data (findWord s b).data, 0, none⟩ ∧ mergeFind t b = none ∧
      (getStk t k).mergeRmw = (getStk s k).mergeRmw + 1 ∧ (∀ c, c ≠ b → mergeFind t c = mergeFind s c) ∧
      (∀ a, a < 64 * b ∨ 64 * b + 64 ≤ a → tabGet? a t.mem.stack = tabGet? a s.mem.stack) ∧ t = { s with mem := t.mem, stks := t.stks }) ∧
    (mergeFind s b = none → exec (.mergeWindowExpiry k b) s = .next s) ∧
    (b ∈ (getStk s k).writeBacks → ∃ t, exec (.correctionWriteBack k b) s = .next t ∧
      findWord t b = ⟨(findWord s b).data, if (findWord s b).kind ≤ 1 then 0 else 3, none⟩ ∧
      (getStk t k).writeBacks = setDel b (getStk s k).writeBacks ∧
      (∀ a, a < 64 * b ∨ 64 * b + 64 ≤ a → tabGet? a t.mem.stack = tabGet? a s.mem.stack) ∧ t = { s with mem := t.mem, stks := t.stks }) ∧
    (b ∈ (getStk s k).uePending → ∃ t, exec (.uePoisonRewrite k b) s = .next t ∧
      findWord t b = ⟨(findWord s b).data, 3, none⟩ ∧ (getStk t k).uePending = setDel b (getStk s k).uePending ∧
      (∀ a, a < 64 * b ∨ 64 * b + 64 ≤ a → tabGet? a t.mem.stack = tabGet? a s.mem.stack) ∧ t = { s with mem := t.mem, stks := t.stks })) ∧
  (∀ (s : State) (k : Nat), k < 8 →
    (s.pm.state ≠ .hold → (getStk s k).ceLevel ≠ 0 → ∃ t, exec (.ceBucketLeak k) s = .next t ∧
      (getStk t k).ceLevel = (getStk s k).ceLevel - 1 ∧ (getStk t k).ceTotal = (getStk s k).ceTotal ∧
      (∀ j, j ≠ k → getStk t j = getStk s j) ∧ t = { s with stks := t.stks }) ∧
    (∀ row wrapped, patrolNext (unitsUsed s k) (getStk s k).patrolRow = some (row, wrapped) → (getStk s k).patrolPause = false →
      (∀ b ∈ rowBlks k row, blkReady s b = true) → behindPair s (rowBlks k row) = false → ∃ t, exec (.patrolRowVisit k) s = .next t ∧
        t = modStk k (fun x => { x with patrolRow := (row + 1) % stackRows, patrolPasses := if wrapped = true ∨ row + 1 = stackRows then x.patrolPasses + 1 else x.patrolPasses })
          (forEach (fun b u => (readStack b u).2) (rowBlks k row) s) ∧
        (getStk t k).patrolRow = (row + 1) % stackRows ∧
        (getStk t k).patrolPasses = (if wrapped = true ∨ row + 1 = stackRows then (getStk s k).patrolPasses + 1 else (getStk s k).patrolPasses) ∧
        DataOnly s t))

/-! ### Slices and refreshes (04 R91 to R97) -/

/-- FURROW_SLICE_START of a unit whose turn it is, with at most one failed check, opens its slice with what the unit holds;
SLICE_END closes one and counts it, refreshes a bank that owes four, then both banks of the pair where one is owed, and ends the
operation after its last; a write that the slice held lands in the gap; REFRESH_DUE inside a slice is owed, once in a slice and
at most four deep, as it is while accesses wait for the bank; otherwise it is made, and the open row closes. -/
def Obligations.SlicesOpenCloseAndOwe : Prop :=
  ∀ (s : State) (k d p id : Nat), k < 8 → d < 16 → p < 32 →
    (∀ o w n, getFop? s id = some o → workerOf s k d p = some w → stackUsable s k = true → turnOk s k id (32 * d + p) w = true →
      n ≤ 1 → ∃ t y, exec (.furrowSliceStart k d p id n) s = .next t ∧
        (getStk t k).slices = (getStk s k).slices ++ [⟨d, p, id, w, []⟩] ∧ (∃ r, tabGet? w (getStk t k).units = some r) ∧
        getFop? t id = some y ∧ (k, d, p) ∈ y.touched ∧
        y.params = o.params ∧ (n = 1 → stRecomputed ∈ y.outcomes) ∧ (∀ i, i ≠ id → getFop? t i = getFop? s i) ∧
        DataOnly { s with fops := t.fops } t) ∧
    (∀ x o, s.held = [] → (getStk s k).slices.find? (fun x => x.d == d && x.p == p) = some x → getFop? s x.id = some o → o.computed = false →
      o.stopped = false → ∃ t, exec (.sliceEnd k d p) s = .next t ∧ (∀ y, y ∈ (getStk t k).slices ↔ y ∈ (getStk s k).slices ∧ ¬(y.d = d ∧ y.p = p)) ∧
        (getStk t k).slicesDone = (getStk s k).slicesDone + 1 ∧
        (∀ b n, b / 2 = 32 * d + p → n = tabGetD 0 b (getStk s k).debt → tabGetD 0 b (getStk t k).debt = (if 4 ≤ n then n - 1 else n) - 1) ∧
        (∀ b, b / 2 ≠ 32 * d + p → tabGetD 0 b (getStk t k).debt = tabGetD 0 b (getStk s k).debt) ∧
        (∀ j, j ≠ k → getStk t j = getStk s j) ∧ t = { s with stks := t.stks }) ∧
    (∀ x o h, s.held = [] → (getStk s k).slices.find? (fun x => x.d == d && x.p == p) = some x → getFop? s x.id = some o →
      o.computed = true ∨ o.stopped = true → o.source = some h → fopSliced (closeSlice k d p s) x.id = false →
      ∃ t, exec (.sliceEnd k d p) s = .next t ∧ getFop? t x.id = none ∧ (∀ i, i ≠ x.id → getFop? t i = getFop? s i) ∧
        (∀ c, getCmd? s h = some c → c.stage = .running → Ended t h c o.outcomes o.refused) ∧
        (∀ j, j ≠ k → getStk t j = getStk s j) ∧ t = { s with stks := t.stks, fops := t.fops, cmds := t.cmds }) ∧
    (∀ x h off source (data : List Byte), s.held = [h] → h.acc = .write k off data (BitVec.allOnes 64) source → data.length = 64 →
      (getStk s k).slices = [x] → blkDie (localBlk k off) = x.d → blkPair (localBlk k off) = x.p → (getStk s k).retraining = false →
      stackUsable s k = true → s.pm.state ≠ .hold → (getStk s k).flipArmed = false → d = x.d → p = x.p → getFop? s x.id = none →
      ∃ t, exec (.sliceEnd k d p) s = .next t ∧ t.held = [] ∧ findWord t (localBlk k off) = ⟨data, 0, none⟩ ∧
        t = { s with stks := t.stks, mem := t.mem, held := t.held }) ∧
    (∀ b y n, b < 64 → (getStk s k).slices.find? (fun y => y.d == d && y.p == b / 2) = some y →
      n = min 4 (tabGetD 0 (64 * d + b) (getStk s k).debt + 1) →
      (b ∈ y.due → exec (.refreshDue k d b) s = .next s) ∧
      (b ∉ y.due → ∃ t, exec (.refreshDue k d b) s = .next t ∧ getStk t k = { getStk s k with
          slices := (getStk s k).slices.map fun z => if z.d = d ∧ z.p = b / 2 then { z with due := b :: z.due } else z,
          debt := tabPut (64 * d + b) n (getStk s k).debt, debtMax := max (getStk s k).debtMax n } ∧
        (∀ j, j ≠ k → getStk t j = getStk s j) ∧ t = { s with stks := t.stks })) ∧
    (∀ b n, b < 64 → (∀ x ∈ (getStk s k).slices, ¬(x.d = d ∧ x.p = b / 2)) → n = min 4 (tabGetD 0 (64 * d + b) (getStk s k).debt + 1) →
      (s.held = [] → exec (.refreshDue k d b) s = .next (modStk k (fun x => { x with openRows := tabDel (64 * d + b) x.openRows }) s)) ∧
      ((∃ h ∈ s.held, ∃ x ∈ accessPhys s h.acc, stackOfBlk x = k ∧ blkBank x = 64 * d + b) → ∃ t, exec (.refreshDue k d b) s = .next t ∧
        getStk t k = { getStk s k with debt := tabPut (64 * d + b) n (getStk s k).debt, debtMax := max (getStk s k).debtMax n } ∧
        (∀ j, j ≠ k → getStk t j = getStk s j) ∧ t = { s with stks := t.stks }))

/-! ### Links (10 R242, R245; 15 R357) -/

/-- LINK_FRAME_RETRY counts a retry, the eighth failed one retrains the link; FLIT_CRC_RETRY counts the failed retries of an
edge up to sixteen; RETRAINING_COMPLETE brings either back or classes it as permanent, and a command in flight over a failed
edge ends with ST_DEVICE_FAULT; FAR_LINK_DOWN of a link that is up makes a usable port unusable and loses every byte of the far
tier, and what touches it ends; its errors are counted. -/
def Obligations.LinksRetryRetrainOrFall : Prop :=
  ∀ (s : State) (k a b : Nat), k < 8 → a < 4 → b < 4 → a ≠ b →
    (∀ ok, stackUsable s k = true → (getStk s k).retraining = false → ∃ t, exec (.linkFrameRetry k ok) s = .next t ∧
      (getStk t k).linkRetry = (getStk s k).linkRetry + 1 ∧
      ((getStk t k).retraining = true ↔ ok = false ∧ 7 ≤ (getStk s k).linkTries) ∧
      (ok = true → (getStk t k).linkTries = 0) ∧ (∀ j, j ≠ k → getStk t j = getStk s j) ∧ t = { s with stks := t.stks }) ∧
    (∀ ok, edgeKey a b ∉ s.edgesDown → edgeTry s (edgeKey a b) < 16 → ∃ t, exec (.flitCrcRetry a b ok) s = .next t ∧
      edgeTry t (edgeKey a b) = (if ok then 0 else edgeTry s (edgeKey a b) + 1) ∧
      (∀ e, e ≠ edgeKey a b → edgeTry t e = edgeTry s e) ∧ t = { s with edgeTries := t.edgeTries }) ∧
    ((getStk s k).retraining = true → s.held = [] → ∀ l, ∃ t, exec (.retrainingComplete (.stack k) true l) s = .next t ∧
      getStk t k = { getStk s k with retraining := false } ∧ (∀ j, j ≠ k → getStk t j = getStk s j) ∧ t = { s with stks := t.stks }) ∧
    (16 ≤ edgeTry s (edgeKey a b) → ∀ l, ∃ t, exec (.retrainingComplete (.edge a b) true l) s = .next t ∧ edgeTry t (edgeKey a b) = 0 ∧
      (∀ e, e ≠ edgeKey a b → edgeTry t e = edgeTry s e) ∧ t = { s with edgeTries := t.edgeTries }) ∧
    (∀ u c, s.held = [] → (getSum s u).state ≠ 3 → (u = .stack k ∧ (getStk s k).retraining = true ∧ c = (fun t : State => hasBit t.cap.stackUsable k = false)) ∨
        (u = .edge a b ∧ 16 ≤ edgeTry s (edgeKey a b) ∧ c = (fun t : State => edgeKey a b ∈ t.edgesDown)) →
      ∀ l, ∃ t, exec (.retrainingComplete u false l) s = .next t ∧ c t ∧ t.cap.replace = true ∧ t.cap.degraded = true ∧ CmdsGo s t) ∧
    (∀ h x, 16 ≤ edgeTry s (edgeKey a b) → getCmd? s h = some x → x.stage = .running → getRun? s h = none →
      ∃ t y, exec (.retrainingComplete (.edge a b) false [h]) s = .next t ∧ getCmd? t h = some y ∧ y.stage = .done ∧ stDeviceFault ∈ y.outcomes) ∧
    (∀ n m, n ∉ s.far.links → exec (.farLinkDown n m) s = .next s) ∧
    (∀ n m, n ∈ s.far.links → s.cap.cxl = true → ∃ u, exec (.farLinkDown n m) s = .next (schedule (dropLost u)) ∧ u.cap.cxl = false ∧ u.cap.degraded = true ∧
      u.far = { s.far with links := s.far.links.filter (· != n), linkErrors := s.far.linkErrors + BitVec.ofNat 64 m } ∧
      u.mem = { s.mem with far := [], poisonFar := [] } ∧ u.era = s.era + 1 ∧ u.cmds = s.cmds ∧
      ∀ k, tabGet? k u.allocs = (tabGet? k s.allocs).map fun a => if a.space = 1 then { a with lost := true } else a)

/-! ### The window BAR4 (14 R339 to R341; 17 R416) -/

/-- BAR4_READ and BAR4_WRITE, where nothing makes them wait: a block of an allocation of the tenant is read, no furrow operation
writing it, or written whole; any other read returns 0xFF, any other write is dropped, and both are latched. In Hold, behind a
window write of the function that waits, and where a block waits for its pair or link, they wait as they arrived. During an
orderly stop a read returns 0xFF with the error mark, and a write is dropped. -/
def Obligations.WindowReachesOwnBlocksOnly : Prop :=
  ∀ (s : State) (fn off o : Nat), fn < 64 → o = bar4Start (getFn s fn) + off →
    (s.pm.stopHold = true → (∀ len, exec (.bar4Read fn off len) s = .next { s with out := s.out ++ [.bar4Data fn off (rep len 0xFF) true] }) ∧
      ∀ bytes, exec (.bar4Write fn off bytes) s = .next s) ∧
    (∀ len, s.pm.stopHold = false → behindWrite s.held fn = true ∨ powerEff s = .hold ∨ blksWait s (accessPhys s (.winRead fn off o len)) = true →
      ∃ t, exec (.bar4Read fn off len) s = .next t ∧ t.held.map (·.acc) = s.held.map (·.acc) ++ [.winRead fn off o len] ∧
        t.out = s.out ∧ t = { s with held := t.held, stks := t.stks, pm := t.pm }) ∧
    (∀ bytes, s.pm.stopHold = false → behindWrite s.held fn = true ∨ powerEff s = .hold ∨ blksWait s (accessPhys s (.winWrite fn o bytes)) = true →
      ∃ t, exec (.bar4Write fn off bytes) s = .next t ∧ t.held.map (·.acc) = s.held.map (·.acc) ++ [.winWrite fn o bytes] ∧
        t.mem = s.mem ∧ t = { s with held := t.held, stks := t.stks, pm := t.pm }) ∧
    (s.pm.stopHold = false →
      (∀ len, accessWaits s (.winRead fn off o len) = false → (∀ x ∈ accessBlks o len, windowBlk s fn false x = false) → 0 < len →
        ∃ t, exec (.bar4Read fn off len) s = .next t ∧ t.out = s.out ++ [.bar4Data fn off (rep len 0xFF) false] ∧
          (getFn t fn).bar4Viol = true ∧ (∀ f, f ≠ fn → getFn t f = getFn s f) ∧ t = { s with fns := t.fns, out := t.out }) ∧
      (o % 64 = 0 → accessWaits s (.winRead fn off o 64) = false → windowBlk s fn false o = true → racing s 2 o = false →
        ∃ t, exec (.bar4Read fn off 64) s = .next t ∧
        t = { (readBlk 0 2 0 o s).2 with out := (readBlk 0 2 0 o s).2.out ++ [.bar4Data fn off
          (if (readBlk 0 2 0 o s).1.poison then rep 64 0xFF else sliceB (readBlk 0 2 0 o s).1.data 0 64) (readBlk 0 2 0 o s).1.poison] }) ∧
      (∀ bytes : List (Option Byte), accessWaits s (.winWrite fn o bytes) = false →
        (∀ x ∈ accessBlks o bytes.length, windowBlk s fn true x = false) →
        ∃ t, exec (.bar4Write fn off bytes) s = .next t ∧ t = { s with fns := t.fns } ∧
          ((∃ y, some y ∈ bytes) → (getFn t fn).bar4Viol = true) ∧ ∀ f, f ≠ fn → getFn t f = getFn s f) ∧
      (∀ (data : List Byte) b, data.length = 64 → o % 64 = 0 → accessWaits s (.winWrite fn o (data.map some)) = false → windowBlk s fn true o = true →
        unreachable s 2 o = false →
        physBlk s o = some b → (getStk s (stackOfBlk b)).flipArmed = false → tabGet? (o / 65536) s.sharedPoison = none →
        ∃ t, exec (.bar4Write fn off (data.map some)) s = .next t ∧ findWord t b = ⟨data, 0, none⟩ ∧
          (∀ a, a < 64 * b ∨ 64 * b + 64 ≤ a → tabGet? a t.mem.stack = tabGet? a s.mem.stack) ∧ t = { s with mem := t.mem, stks := t.stks }))

/-! ### Tiles (02, 03, 07, 15) -/

/-- Bytes of a tile's scratchpad (4) or scalar data memory (5), as an operation of its context reads them. -/
def tileBytes (s : State) (t : Nat) (c : Ctx) (space off len : Nat) : List Byte := (tRead space off len (TAcc.start s t c)).1

/-- A vector of a tile's scratchpad, as FP32 patterns. -/
def tileVec (s : State) (t : Nat) (c : Ctx) (bf16 : Bool) (off n : Nat) : List Nat := (rdVec bf16 off n (TAcc.start s t c)).1

/-- The range lies in the memory of the tile that the tenant may reach. -/
def tileMine (s : State) (t : Nat) (c : Ctx) (space off len : Nat) : Prop := memMine s (runTenant s c.run) space t off len = true

/-- Bytes written, without poison, to a tile's scratchpad or scalar data memory. -/
def tilePut (space t off : Nat) (bs : List Byte) (s : State) : State := (wrBytes space t off bs false (Acc.start 1 s)).s

/-- Bytes of a vector element. -/
def vecB (bf16 : Bool) : Nat := if bf16 then 2 else 4

/-- Row `i` of a pass's activations. -/
def tileRow (s : State) (t : Nat) (c : Ctx) (p : PassOp) (i : Nat) : List Nat :=
  unpackBytes (actBits p) (tileBytes s t c 4 (p.acts + i * p.actStride) (elBytes p.actFmt (modeK p.mode)))

/-- The lateral sum of slot `slot` that row `i` of a pass with these lateral blocks adds in column `n`, if any. -/
def tileLat (s : State) (t : Nat) (c : Ctx) (p : PassOp) (lats : List LatBlock) (slot i n : Nat) : Option Nat :=
  match (rowPlan p lats)[i]? with
  | some (g, some b, j) =>
    let o := unpackBytes 16 (tileBytes s t c 4 (g.outAddr + 2 * g.outliers.length * j) (2 * g.outliers.length))
    if n < 512 then some (latSum g b (laneVals g b (mergedRow p g (tileRow s t c p i) o) o slot) slot n) else none
  | _ => none

/-- The activation rows and the outlier rows of a pass lie in the tenant's memory. -/
def passMine (s : State) (t : Nat) (c : Ctx) (p : PassOp) (lats : List LatBlock) : Prop :=
  (∀ i, i < p.rows → tileMine s t c 4 (p.acts + i * p.actStride) (elBytes p.actFmt (modeK p.mode))) ∧
  ∀ e ∈ rowPlan p lats, e.2.1.isSome = true → tileMine s t c 4 (e.1.outAddr + 2 * e.1.outliers.length * e.2.2) (2 * e.1.outliers.length)

/-- From `s` to `u` a unit of tile `t` has worked: no other tile changed. -/
def TileWork (s u : State) (t : Nat) : Prop := WorkOnly s u ∧ ∀ k, k ≠ t → getTile u k = getTile s k

/-- The operation of a main slot's queue at place `i` has been executed. -/
def markedAt (i : Nat) (q : List (MainOp × Bool)) : List (MainOp × Bool) := q.mapIdx fun j e => if j = i then (e.1, true) else e

/-- The conversion of entry `k` of a drain's rows and columns, by its stages, with its value for the range check. -/
def drained (s : State) (t : Nat) (c : Ctx) (d : DrainOp) (k : Nat) : Conv × Fl :=
  let b := bankOf c d.bankB
  let w := ((tabGet? (cellKey (k / d.cols) (k % d.cols)) b.cells).map (·.toNat)).getD 0
  let v := drainVal d b.fp32 w (d.rowScale.map fun a => (tileVec s t c false a d.rows).getD (k / d.cols) 0)
    (d.colScale.map fun a => (tileVec s t c false a d.cols).getD (k % d.cols) 0) (d.bias.map fun a => (tileVec s t c false a d.cols).getD (k % d.cols) 0)
  let z := drainConv d b.fp32 w v
  ({ z with code := z.code % 2 ^ fmtBits (drainFmt d b.fp32) }, writtenVal (drainFmt d b.fp32) v { z with code := z.code % 2 ^ fmtBits (drainFmt d b.fp32) })

/-- Every byte of a descriptor's footprint in the tile's own scratchpad is the tenant's. -/
def tensorMine (s : State) (t : Nat) (c : Ctx) (d : Desc) : Prop :=
  dEmpty d = true ∨ (0 ≤ dLo d ∧ tileMine s t c 4 (dLo d).toNat (dHi d + 1 - dLo d).toNat)

/-- A vector result of the channel unit: written at `dst` as FP32 or BF16, every element within its bounds. -/
def vecResult (s u : State) (t dst : Nat) (bo : Bool) (y : List Nat) : Prop :=
  u.mem = (tilePut 4 t dst (packVals (8 * vecB bo) (packVec bo y)) s).mem

/-- No element of a vector result leaves its bounds. -/
def vecInside (bounds : Bounds) (bo : Bool) (y : List Nat) : Prop :=
  boundsFail bounds 0 ((packVec bo y).map fun v => (v, if bo then decB16 v else dec32 v)) = none

/-- The run of a tile is running and the machine is not asleep. -/
def runsAwake (s : State) (c : Ctx) : Prop :=
  (∃ x, getRun? s c.run = some x ∧ x.cancelled = false ∧ x.state = .running) ∧ powerEff s ≠ .idle ∧ powerEff s ≠ .hold

/-- Bytes written to spaces 3 to 5 read back, every other byte of those memories reads as before, and nothing else changes. -/
def Obligations.TileMemoryBytesReadBack : Prop :=
  ∀ (s : State) (space inst off source : Nat) (bs : List Byte) (poison : Bool) (t : State), 3 ≤ space → space ≤ 5 → off + bs.length ≤ 2 ^ 48 →
    t = (wrBytes space inst off bs poison (Acc.start source s)).s →
    (∀ o, off ≤ o → o < off + bs.length → zByte t space inst o = bs.getD (o - off) 0) ∧
    (∀ sp i o, 3 ≤ sp → sp ≤ 5 → o < 2 ^ 48 → (sp ≠ space ∨ i ≠ inst ∨ o < off ∨ off + bs.length ≤ o) → zByte t sp i o = zByte s sp i o) ∧
    t = { s with mem := t.mem } ∧ t.mem.host = s.mem.host ∧ t.mem.far = s.mem.far ∧ t.mem.stack = s.mem.stack

/-- The channel unit in a body, its operands in the tenant's memory and no check failing, executes its front operation once:
vector operations, SOFTMAX, NORMALISATION and QUANTISE (rows and weight columns) write their results, a reduction sets its V
register; a quantiser's counts and its statistics record wait for the commit. -/
def Obligations.ChannelRowsExecuteTheirOperation : Prop :=
  ∀ (s : State) (t : Nat) (c : Ctx), t < 32 → bodyCtx s t = some c →
    (∀ f a b d dst n bi bo bounds e r, frontOp (getTile s t).qChannel = some (.vec f a b d dst n bi bo bounds e) →
      r = ((List.range n).map fun i => vfn f ((tileVec s t c bi a n).getD i 0) (if 2 ≤ arity f then (tileVec s t c bi b n).getD i 0 else 0)
        (if 3 ≤ arity f then (tileVec s t c bi d n).getD i 0 else 0)) →
      tileMine s t c 4 a (n * vecB bi) → (2 ≤ arity f → tileMine s t c 4 b (n * vecB bi)) → (3 ≤ arity f → tileMine s t c 4 d (n * vecB bi)) →
      tileMine s t c 4 dst (n * vecB bo) → firstBad f 0 ((tileVec s t c bi a n).zip r) = none → vecInside bounds bo r →
      ∃ u, exec (.channelOp t) s = .next u ∧ (getTile u t).qChannel = markFront (getTile s t).qChannel ∧ vecResult s u t dst bo r ∧ TileWork s u t) ∧
    (∀ f src n v bi e, frontOp (getTile s t).qChannel = some (.reduce f src n v bi e) → tileMine s t c 4 src (n * vecB bi) →
      ∃ u, exec (.channelReduction t) s = .next u ∧ (getTile u t).qChannel = markFront (getTile s t).qChannel ∧
        tabGet? (v % 8) (getTile u t).v = some (BitVec.ofNat 32 (rfn f (tileVec s t c bi src n))) ∧ u.mem = s.mem ∧ TileWork s u t) ∧
    (∀ src dst n bi bo bounds e y, frontOp (getTile s t).qChannel = some (.softmax src dst n bi bo bounds e) →
      y = softmaxF (tileVec s t c bi src n) → tileMine s t c 4 src (n * vecB bi) → tileMine s t c 4 dst (y.length * vecB bo) →
      softmaxFail (tileVec s t c bi src n) y = none → vecInside bounds bo y →
      ∃ u, exec (.softmax t) s = .next u ∧ (getTile u t).qChannel = markFront (getTile s t).qChannel ∧ vecResult s u t dst bo y ∧ TileWork s u t) ∧
    (∀ src dst n eps g bi bo bounds e y, frontOp (getTile s t).qChannel = some (.rms src dst n eps g bi bo bounds e) →
      y = rmsF eps.toNat (tileVec s t c bi src n) (tileVec s t c bi g n) → tileMine s t c 4 src (n * vecB bi) → tileMine s t c 4 g (n * vecB bi) →
      tileMine s t c 4 dst (y.length * vecB bo) → vecInside bounds bo y →
      ∃ u, exec (.normalisation t) s = .next u ∧ (getTile u t).qChannel = markFront (getTile s t).qChannel ∧ vecResult s u t dst bo y ∧ TileWork s u t) ∧
    (∀ src dst n eps g b bi bo bounds e y, frontOp (getTile s t).qChannel = some (.layer src dst n eps g b bi bo bounds e) →
      y = layerF eps.toNat (tileVec s t c bi src n) (tileVec s t c bi g n) (tileVec s t c bi b n) → tileMine s t c 4 src (n * vecB bi) →
      tileMine s t c 4 g (n * vecB bi) → tileMine s t c 4 b (n * vecB bi) → tileMine s t c 4 dst (y.length * vecB bo) → vecInside bounds bo y →
      ∃ u, exec (.normalisation t) s = .next u ∧ (getTile u t).qChannel = markFront (getTile s t).qChannel ∧ vecResult s u t dst bo y ∧ TileWork s u t) ∧
    (∀ q xs rows codes scales outs, frontOp (getTile s t).qChannel = some (.quant q) → (q.static.map fun w => goodScale w.toNat).getD true = true →
      outliersOk q.k q.outliers = true →
      xs = ((List.range q.rows).map fun i => tileVec s t c q.srcBf16 (q.src + i * q.k * vecB q.srcBf16) q.k) →
      rows = xs.map (quantRow q.fmt q.outliers (q.static.map (·.toNat))) →
      codes = packVals (fmtBits q.fmt) (rows.flatMap (·.codes)) → scales = packVals 32 (rows.map (·.scale)) → outs = packVals 16 (rows.flatMap (·.outs)) →
      codesFail q.bounds q.fmt (rows.flatMap (·.codes)) = none →
      (∀ i, i < q.rows → tileMine s t c 4 (q.src + i * q.k * vecB q.srcBf16) (q.k * vecB q.srcBf16)) → tileMine s t c 4 q.codes codes.length →
      tileMine s t c 4 q.scales scales.length → tileMine s t c 4 q.outVals outs.length →
      (∀ o, q.observe = some o → tileMine s t c 4 o.addr (0xC0 + 4 * q.k)) →
      ∃ u, exec (.quantise t) s = .next u ∧ (getTile u t).qChannel = markFront (getTile s t).qChannel ∧
        u.mem = (tilePut 4 t q.outVals outs (tilePut 4 t q.scales scales (tilePut 4 t q.codes codes s))).mem ∧
        (getTile u t).qPend = addCounts (getTile s t).qPend (rows.foldl (fun a r => addCounts a r.counts) []) ∧
        (q.observe = none → (getTile u t).statsPend = (getTile s t).statsPend) ∧
        (∀ o, q.observe = some o → ∃ b, (o.addr, b) ∈ (getTile u t).statsPend ∧
          (o.accumulate = false → b = statsBytes (statsOf o.tag q.k q.outliers xs rows))) ∧ TileWork s u t) ∧
    (∀ (q : WQuantOp) (cols : List (Nat × List Nat × List Nat)) codes, frontOp (getTile s t).qChannel = some (.wquant q) → cols.length = q.n →
      (∀ n, n < q.n → quantCol q.fmt q.outliers (column (pieces q.n q.k (tileVec s t c q.srcBf16 q.src (q.k * q.n))) n) = some (cols.getD n (0, [], []))) →
      codes = ((List.range q.k).flatMap fun i => cols.map fun z => z.2.1.getD i 0) → codesFail q.bounds q.fmt codes = none →
      tileMine s t c 4 q.src (q.k * q.n * vecB q.srcBf16) → tileMine s t c 4 q.codes (packVals (fmtBits q.fmt) codes).length →
      tileMine s t c 4 q.scales (packVals 32 (cols.map (·.1))).length →
      ∃ u, exec (.quantise t) s = .next u ∧ (getTile u t).qChannel = markFront (getTile s t).qChannel ∧
        u.mem = (tilePut 4 t q.scales (packVals 32 (cols.map (·.1))) (tilePut 4 t q.codes (packVals (fmtBits q.fmt) codes) s)).mem ∧
        (getTile u t).qPend = addCounts (getTile s t).qPend (cols.foldl (fun a z => addCounts a z.2.2) []) ∧ TileWork s u t)

/-- The arrays in a body: a pass swaps its block in, counts its check group and leaves in each entry the sum that its mode and
its lateral work give; a lateral load lands; an extra slot adds its lateral sums and leaves every other entry; an entry under a
bad outlier map holds no defined value. A drain writes its converted entries in the order of its stage 5 and empties its bank,
or the store path transposes in place. Each executes its operation once, its operands being in the tenant's memory. -/
def Obligations.ArrayRowsExecuteTheirOperation : Prop :=
  ∀ (s : State) (t : Nat) (c : Ctx), t < 32 → bodyCtx s t = some c →
    (∀ i p took fp32, passAt (getTile s t).qMain 0 = some (i, p) → bankWaits (getTile s t) = false →
      latsNeeded p ≤ (getTile s t).lats.length → took = (getTile s t).lats.take (latsNeeded p) →
      tileMine s t c 4 (passBlock p) (512 * modeK p.mode) → passMine s t c p took →
      fp32 = (if p.fresh then !modeInt p.mode || decide (0 < latsNeeded p) else (bankOf c p.bankB).fp32) →
      ∃ u d tr, exec (.mainPass t) s = .next u ∧ (getTile u t).qMain = markedAt i (getTile s t).qMain ∧ (getTile u t).ctx = some d ∧
        (getTile u t).trace = some tr ∧ tr.op = p ∧ tr.weights = tileBytes s t c 4 (passBlock p) (512 * modeK p.mode) ∧ tr.verdicts = 0 ∧
        tr.lats = took ∧ tr.group = (getTile s t).groupMain % 64 ∧ (getTile u t).groupMain = (getTile s t).groupMain + 1 ∧
        (getTile u t).active = tr.weights ∧ (bankOf d p.bankB).fp32 = fp32 ∧ (bankOf d p.bankB).drained = false ∧
        bankOf d (!p.bankB) = bankOf c (!p.bankB) ∧
        (∀ j n e, j < p.rows → n < modeN p.mode → (rowPlan p took)[j]? = some e →
          tabGet? (cellKey j n) (bankOf d p.bankB).cells =
            if e.2.1.isSome = true ∧ n < 512 ∧ groupOk e.1 = false then none
            else (passCell p p.fresh fp32 e.2.1.isSome (if p.fresh then none else tabGet? (cellKey j n) (bankOf c p.bankB).cells) (tileRow s t c p j)
              (column (blockRows p.mode (tileBytes s t c 4 (passBlock p) (512 * modeK p.mode))) n) (tileLat s t c p took 0 j n)).map (BitVec.ofNat 32)) ∧
        u.mem = s.mem ∧ TileWork s u t) ∧
    (∀ addr rank outs e, frontOp (getTile s t).qLateral = some (.load addr rank outs e) → tileMine s t c 4 addr (1024 * rank) →
      tileMine s t c 4 (addr + 1024 * rank) (1024 * rank) → tileMine s t c 4 (addr + 2048 * rank) (1024 * outs.length) →
      ∃ u, exec (.lateralLoad t) s = .next u ∧ (getTile u t).qLateral = markFront (getTile s t).qLateral ∧
        (getTile u t).lats = (getTile s t).lats ++ [⟨rank, outs, words16 (tileBytes s t c 4 addr (1024 * rank)),
          words16 (tileBytes s t c 4 (addr + 1024 * rank) (1024 * rank)), words16 (tileBytes s t c 4 (addr + 2048 * rank) (1024 * outs.length))⟩] ∧
        u.mem = s.mem ∧ TileWork s u t) ∧
    (∀ slot e tr, frontOp (getTile s t).qLateral = some (.extra slot e) → (getTile s t).trace = some tr →
      passMine s t c tr.op tr.lats →
      ∃ u d, exec (.extraLateralSlot t) s = .next u ∧ (getTile u t).qLateral = markFront (getTile s t).qLateral ∧ (getTile u t).ctx = some d ∧
        (∀ i n, n < 1024 → tabGet? (cellKey i n) (bankOf d tr.op.bankB).cells =
          if i < tr.op.rows ∧ n < modeN tr.op.mode ∧ (tileLat s t c tr.op tr.lats slot i n).isSome = true then
            if (((rowPlan tr.op tr.lats)[i]?).map fun z => groupOk z.1) = some true then
              (tabGet? (cellKey i n) (bankOf c tr.op.bankB).cells).map fun w =>
                BitVec.ofNat 32 (fadd w.toNat ((tileLat s t c tr.op tr.lats slot i n).getD 0))
            else none
          else tabGet? (cellKey i n) (bankOf c tr.op.bankB).cells) ∧
        (bankOf d tr.op.bankB).fp32 = (bankOf c tr.op.bankB).fp32 ∧ (bankOf d tr.op.bankB).drained = (bankOf c tr.op.bankB).drained ∧
        bankOf d (!tr.op.bankB) = bankOf c (!tr.op.bankB) ∧ u.mem = s.mem ∧ TileWork s u t) ∧
    (∀ i (q : DrainOp) els (v : State), storeAt (getTile s t).qMain 0 [] = some (i, .drain q) → tensorMine s t c (ownScratch t q.dst) →
      (∀ a, q.sOutVec = some a → tileMine s t c 4 a (4 * q.rows)) →
      (∀ a n, (q.rowScale = some a ∧ n = q.rows) ∨ (q.colScale = some a ∧ n = q.cols) ∨ (q.bias = some a ∧ n = q.cols) → tileMine s t c 4 a (4 * n)) →
      ((q.outFmt.map narrow).getD false = true → (q.sOut.map fun (x : W32) => goodScale x.toNat).getD true = true) →
      (∀ a n, q.colScale = some a → n < q.cols → goodScale ((tileVec s t c false a q.cols).getD n 0) = true) →
      (∀ j n, j < q.rows → n < q.cols → (tabGet? (cellKey j n) (bankOf c q.bankB).cells).isSome = true) →
      els = ((List.range (q.rows * q.cols)).map (drained s t c q)) → boundsFail q.bounds 0 (els.map fun e => (e.1.code, e.2)) = none →
      v = (wrTensor (ownScratch t q.dst) (fun n b => (((els.map (·.1.code)).getD (drainFrom q n) 0, false), b)) (Acc.start 1 s)).s →
      ∃ u d, exec (.accDrain t false) s = .next u ∧ (getTile u t).qMain = markedAt i (getTile s t).qMain ∧ (getTile u t).ctx = some d ∧
        bankOf d q.bankB = ⟨(bankOf c q.bankB).fp32, true, []⟩ ∧ bankOf d (!q.bankB) = bankOf c (!q.bankB) ∧
        u.mem = (match q.sOutVec with
          | some a => tilePut 4 t a (packVals 32 (List.replicate q.rows ((q.sOut.map (BitVec.toNat (w := 32))).getD one32))) v
          | none => v).mem ∧
        (getTile u t).qPend = addCounts (getTile s t).qPend (drainCounts q els) ∧ TileWork s u t) ∧
    (∀ i d e, storeAt (getTile s t).qMain 0 [] = some (i, .transpose d e) → tensorMine s t c (ownScratch t d) →
      ∃ u, exec (.accDrain t false) s = .next u ∧ (getTile u t).qMain = markedAt i (getTile s t).qMain ∧
        u.mem = (transposeInPlace (ownScratch t d) (Acc.start 1 s)).2.s.mem ∧ TileWork s u t)

/-- The total of the column sums of a pass over the columns `cols`, as the checker takes it: each column's own sum for the
activation row `x` with the errors that have befallen it. -/
def checkTotal (tr : PassTrace) (x : List Nat) (errs : List (Nat × Int)) (cols : List Nat) : Int :=
  (cols.map fun j => intSum tr.op x (column (blockRows tr.op.mode tr.weights) j) + ((errs.filter fun e => e.1 == j).map (·.2)).sum).sum

/-- The lane over the columns `cols`: Σ_k x_k × S_k with S_k the sum of row `k`'s weights (15 R347). -/
def checkLane (tr : PassTrace) (x : List Nat) (cols : List Nat) : Int :=
  dotI (x.map (signedOf (actBits tr.op))) ((blockRows tr.op.mode tr.weights).map fun r => (cols.map fun j => signedOf (wBits tr.op.mode) (r.getD j 0)).sum)

/-- The checksum of an integer pass (15 R348): it passes exactly when the total of the column sums equals the full lane and the
group total equals the group lane. Hence without errors in its column sums a row's verdict passes, and errors whose sum over the
columns is not zero, in particular any single one, are always found by the full lane; the verdict row of a fault-free integer
pass goes on to the next row. -/
def Obligations.IntegerChecksumsFindErrors : Prop :=
  (∀ (tr : PassTrace) (x : List Nat) (errs : List (Nat × Int)), modeInt tr.op.mode = true → tr.group < 64 →
    (mainVerdict tr x errs = none ↔ checkTotal tr x errs (List.range (modeN tr.op.mode)) = checkLane tr x (List.range (modeN tr.op.mode)) ∧
      checkTotal tr x errs (groupCols tr.group (groupWidth tr.op.mode)) = checkLane tr x (groupCols tr.group (groupWidth tr.op.mode)))) ∧
  (∀ (tr : PassTrace) (x : List Nat) (errs : List (Nat × Int)), modeInt tr.op.mode = true → (∀ e ∈ errs, e.1 < modeN tr.op.mode) →
    mainVerdict tr x [] = none ∧ ((errs.map (·.2)).sum ≠ 0 → mainVerdict tr x errs = some 3)) ∧
  ∀ (s : State) (t : Nat) (c : Ctx) (tr : PassTrace), t < 32 → bodyCtx s t = some c → (getTile s t).trace = some tr → modeInt tr.op.mode = true →
    tr.verdicts < tr.op.rows → ((rowPlan tr.op tr.lats)[tr.verdicts]?.map fun e => e.2.1) = some none →
    tileMine s t c 4 (tr.op.acts + tr.verdicts * tr.op.actStride) (elBytes tr.op.actFmt (modeK tr.op.mode)) →
    ∃ u, exec (.checksumVerdict t tr.verdicts []) s = .next u ∧ (getTile u t).trace = some { tr with verdicts := tr.verdicts + 1 } ∧
      (getTile u t).ctx = some c ∧ u.mem = s.mem ∧ TileWork s u t

/-- Tile programs: a word that neither waits nor traps issues its slots, moves the program counter and does its scalar
operation, in a body and, beside a released counter wait, in a step head; any other word after a head, and one of a head with a
unit operation, begins the body. A tile's units: an event wait takes its amount, or its word waits; an ended unit operation
leaves its queue, a pass with its last verdict only, and posts its event; the bank conflicts met are counted. A first trap, a
first time-out at 141,000 ACLK and a first detection take the tile back to the boundary of its step, and that recomputation is
counted in its run. -/
def Obligations.TileProgramsRun : Prop :=
  (∀ (s : State) (t : Nat) (c : Ctx), t < 32 → (getTile s t).ctx = some c → (getTile s t).committing = false →
    (∀ w m, (getTile s t).phase = .body → wordWaits (getTile s t) w = false → wordTraps (getTile s t) c w = false →
      (∀ rs ra off, w.scalar ≠ some (.store rs ra off)) →
      (∀ rd ra off a, w.scalar = some (.load rd ra off) → a = ((gReg c ra).toNat + off) % 2 ^ 32 →
        tileMine s t c 5 a 4 ∧ m = BitVec.ofNat 32 (leNat (tileBytes s t c 5 a 4))) →
      (∀ o v, w.scalar = some o → vOf o = some v → tabGet? (v % 8) (getTile s t).v = some m) →
      ∃ u x, exec (.longWordIssue t w none) s = .next u ∧ x = enqueue w (getTile s t) ∧
        (getTile u t).ctx = some ((w.scalar.map fun o => scalarCtx o m { c with pc := c.pc + 1 }).getD { c with pc := c.pc + 1 }) ∧
        (getTile u t).qMain = x.qMain ∧ (getTile u t).qLateral = x.qLateral ∧ (getTile u t).qChannel = x.qChannel ∧ (getTile u t).qLoad = x.qLoad ∧
        (getTile u t).qStore = x.qStore ∧ (getTile u t).ev = x.ev ∧ (getTile u t).outbound = x.outbound ∧ (getTile u t).committing = x.committing ∧
        (getTile u t).lastStep = x.lastStep ∧ (getTile u t).wordIssued = (getTile s t).wordIssued + 1 ∧ u.mem = s.mem ∧ TileWork s u t) ∧
    (∀ w rs ra off a, (getTile s t).phase = .body → wordWaits (getTile s t) w = false →
      wordTraps (getTile s t) c w = false → w.scalar = some (.store rs ra off) → a = ((gReg c ra).toNat + off) % 2 ^ 32 → tileMine s t c 5 a 4 →
      ∃ u, exec (.longWordIssue t w none) s = .next u ∧ (getTile u t).ctx = some { c with pc := c.pc + 1 } ∧
        u.mem = (tilePut 5 t a (toLE 4 (gReg c rs).toNat) s).mem ∧ TileWork s u t) ∧
    (∀ w, (getTile s t).phase = .body → wordWaits (getTile s t) w = true →
      exec (.longWordIssue t w none) s = .next (modTile t (fun y => { y with waiting := some w }) s)) ∧
    (∀ w d, (getTile s t).phase = .head → (getTile s t).qLoad = [] → runsAwake s c →
      ((∀ a b n, w.sync ≠ some (.ctrWait a b n)) → c.headWait = none →
        exec (.longWordIssue t w none) s = exec (.longWordIssue t w none) (beginBody t (turned s c) s)) ∧
      (∀ a b n, w.sync = some (.ctrWait a b n) → c.headIssued < c.headDone → d = { turned s c with headIssued := c.headIssued + 1 } →
        (unitWord w = true → exec (.longWordIssue t w none) s = exec (.longWordIssue t { w with sync := none } none) (beginBody t d s)) ∧
        (unitWord w = false → wordTraps (getTile s t) d { w with sync := none } = false → (∀ o, w.scalar = some o → sAddr d o = none ∧ vOf o = none) →
          ∃ u, exec (.longWordIssue t w none) s = .next u ∧ (getTile u t).phase = .head ∧ u.mem = s.mem ∧
            (getTile u t).ctx = some ((w.scalar.map fun o => scalarCtx o 0 { d with pc := c.pc + 1 }).getD { d with pc := c.pc + 1 }) ∧
            (getTile u t).wordIssued = (getTile s t).wordIssued + 1 ∧ TileWork s u t)))) ∧
  (∀ (s : State) (t : Nat) (c : Ctx), t < 32 → (getTile s t).ctx = some c → (getTile s t).phase = .body →
    (∀ ev n, (getTile s t).committing = false → ev < 16 → ∃ u, exec (.eventWait t ev n) s = .next u ∧
      getTile u t = (if n ≤ evCount (getTile s t) ev then { getTile s t with ev := tabPut ev (evCount (getTile s t) ev - n) (getTile s t).ev, waiting := none }
        else { getTile s t with waiting := some ⟨none, none, none, none, none, none, some (.evWait ev n)⟩ }) ∧
      (∀ k, k ≠ t → getTile u k = getTile s k) ∧ u = { s with tiles := u.tiles }) ∧
    (∀ un m (y z : Tile) e,
      ((∃ o q, un = .channel ∧ (getTile s t).qChannel = (o, true) :: q ∧ y = { getTile s t with qChannel := q } ∧ e = chanEvent o) ∨
       (∃ o q, un = .main ∧ mainEnded (verdictsIn (getTile s t)) (getTile s t).qMain = some (o, q) ∧ e = mainEvent o ∧
         y = { getTile s t with qMain := q, passCount := if isPass o = true then (getTile s t).passCount + 1 else (getTile s t).passCount }) ∨
       (∃ a r l v q, un = .lateral ∧ (getTile s t).qLateral = (.load a r l v, true) :: q ∧ y = { getTile s t with qLateral := q } ∧ e = v) ∨
       (∃ k v q, un = .lateral ∧ (getTile s t).qLateral = (.extra k v, true) :: q ∧
         y = { getTile s t with qLateral := q, passCount := (getTile s t).passCount + 1 } ∧ e = v) ∨
       (∃ d b a v q, un = .load ∧ (getTile s t).qLoad = (.xfer d b a v, true) :: q ∧ y = { getTile s t with qLoad := q } ∧ e = v) ∨
       (∃ d a v q, un = .store ∧ (getTile s t).qStore = (.xfer d a v, true) :: q ∧ y = { getTile s t with qStore := q } ∧ e = v)) →
      z = (match e with | some k => { y with ev := tabPut (k % 16) (min 255 (evCount y k + 1)) y.ev } | none => y) →
      ∃ u, exec (.unitOpComplete t un m none) s = .next u ∧ getTile u t = { z with conflict := z.conflict + BitVec.ofNat 64 m } ∧
        (∀ k, k ≠ t → getTile u k = getTile s k) ∧ u = { s with tiles := u.tiles }) ∧
    (∀ i f un m, c.attempt = 0 →
      (i = .tileTrap t ∧ c.moved ≠ 3 ∧ f = ⟨0, 0, 0, 0⟩) ∨ (i = .stepTimeLimit t ∧ recentDetect s t = false ∧ f = ⟨9, 0, 0, 0⟩) ∨
        (∃ d, i = .unitOpComplete t un m (some d) ∧ recentDetect s t = false ∧ f = detectedFailure d) →
      ∃ u, exec i s = .next (schedule u) ∧ (getTile u t).ctx = some { boundaryCtx (getTile s t) c with attempt := 1, lastFail := some f } ∧
        (getTile u t).qMain = [] ∧ (getTile u t).qLateral = [] ∧ (getTile u t).qChannel = [] ∧ (getTile u t).qLoad = [] ∧ (getTile u t).qStore = [] ∧
        (getTile u t).outbound = [] ∧ (getTile u t).committing = false ∧ (getTile u t).stepRecomputed = (getTile s t).stepRecomputed + 1 ∧
        (i = .stepTimeLimit t → 141000 ≤ (getTile u t).stepMax.toNat) ∧
        (∀ k, k ≠ t → getTile u k = getTile s k) ∧ (∀ k, k ≠ c.run → getRun? u k = getRun? s k) ∧
        (∀ x, getRun? s c.run = some x → getRun? u c.run = some (if c.moved = 0 then
          { x with recomputes := x.recomputes + 1, outcomes := addOutcomes [stRecomputed] x.outcomes } else x)) ∧
        u = { s with tiles := u.tiles, runs := u.runs }))

/-- Steps: a head's wait of a defined amount goes on at once where its counter meets it and is registered where not; a commit
whose step queued no effect brings the boundary, or the save of a run being paused; the last commit frees the tile; a saved
frame frees it as well; a run resumes where its plan places it, and ends where a frame is bad. -/
def Obligations.StepsEndAtTheirBoundary : Prop :=
  ∀ (s : State) (t : Nat) (c : Ctx), t < 32 → (getTile s t).ctx = some c →
    (∀ take slot amount w, (getTile s t).phase = .head → (getTile s t).qLoad = [] → c.headWait = none → headWaitOn s c take slot amount = some w → waitAmountOk take amount = true →
      s.ctrs.broken.contains w.1 = false → (∀ x ∈ s.ctrs.waits, x.owner ≠ .tile t) → (take = true → headTaker w.1 s.ctrs.waits = none) →
      ∃ u, exec (.stepHeadWait t take slot amount) s = .next (schedule u) ∧ (∀ j, j ≠ w.1 → ctrVal u j = ctrVal s j) ∧ u.mem = s.mem ∧
        (w.2.2 ≤ (ctrVal s w.1).toNat → (getTile u t).ctx = some { c with headDone := c.headDone + 1, headWait := none } ∧
          (take = true → (ctrVal u w.1).toNat = (ctrVal s w.1).toNat - w.2.2)) ∧
        ((ctrVal s w.1).toNat < w.2.2 → (getTile u t).ctx = some { c with headWait := some w } ∧ ⟨w.1, take, w.2.2, .tile t⟩ ∈ u.ctrs.waits)) ∧
    (∀ x m, (getTile s t).phase = .body → (getTile s t).committing = true → allComplete (getTile s t) = true → (getTile s t).outbound = [] →
      (getTile s t).poisoned = false → (getTile s t).statsPend = [] → (getTile s t).qPend = [] → c.attempt = 0 → c.moved = 0 → getRun? s c.run = some x → x.cancelled = false →
      ((getTile s t).lastStep = true ∨ x.state = .pausing ∨
        (tabGetD t c.logical x.place = t ∧ c.home = none ∧ testOf? s (.tile t) = none ∧ nextOnTile x t c.logical = none)) →
      ∃ u, exec (.commit t m) s = .next (schedule (fillTiles u)) ∧ (getTile u t).stepCount = (getTile s t).stepCount + 1 ∧ (getTile u t).ev = [] ∧
        (getTile u t).v = [] ∧ (getTile u t).conflict = (getTile s t).conflict + BitVec.ofNat 64 m ∧ u.mem = s.mem ∧
        ((getTile s t).lastStep = true → (getTile u t).ctx = none ∧ ∃ y, getRun? u c.run = some y ∧ c.logical ∈ y.finished) ∧
        ((getTile s t).lastStep = false → (getTile u t).phase = (if x.state = .pausing then .saving else .head) ∧
          (getTile u t).ctx = some { c with headDone := 0, headIssued := 0, headWait := none, attempt := 0, moved := 0, lastFail := none, turnout := x.place })) ∧
    (∀ x n, (getTile s t).phase = .saving → getRun? s c.run = some x → n = (bundleOfRun s x).scratchBytes → ∃ u y,
      exec (.tileFrameSaveComplete t) s = .next (fillTiles (schedule (beginTest t (checkPaused c.run u)))) ∧
      (getTile u t).ctx = none ∧ (getTile u t).phase = .idle ∧ getRun? u c.run = some y ∧ tabGet? c.logical y.frames = some (withOverlay (getTile s t) c) ∧
      tabGet? c.logical y.frameBytes = some (tileAreaSave s t n).1 ∧ tabGet? c.logical y.framePoison = some (tileAreaSave s t n).2 ∧
      y.state = x.state ∧ y.place = x.place ∧ (∀ k, k ≠ t → getTile u k = getTile s k) ∧ u = { s with tiles := u.tiles, runs := u.runs }) ∧
    (∀ run p bs, resumePlan s run = some (p, bs) →
      exec (.runResume run true []) s = .next (schedule (endRun run [stDeviceFault] s)) ∧
      ∃ u y, exec (.runResume run false []) s = .next (schedule (fillTiles u)) ∧ getRun? u run = some y ∧ y.state = .running ∧ y.place = p ∧
        y.basinAt = bs ∧ y.resuming = false ∧ (∀ k, k ≠ run → getRun? u k = getRun? s k) ∧ u = { s with runs := u.runs, fns := u.fns, mem := u.mem })

/-- Transfers: a load that its tenant may make, no block of it being held, lands what its descriptor holds in the tile, the
blocks of a K-tiled tensor whole; an overlay fills instruction memory at the next head; a store to the tile's own memory lands,
and every other outbound operation waits for the commit. -/
def Obligations.TransfersLandOrWaitForTheCommit : Prop :=
  ∀ (s : State) (t : Nat) (c : Ctx), t < 32 → (getTile s t).ctx = some c →
    (∀ src sd addr e d l sp, (getTile s t).phase = .body → frontOp (getTile s t).qLoad = some (.xfer src sd addr e) → turnDesc t c src = some d →
      2 ≤ d.space → streamOk s c.run t false d = true → sp = (if sd then 5 else 4) → s.held = [] → blksWait s (descPhys s d) = false →
      stSharedPoisoned ∉ (loadBytes d (Acc.start 1 s)).2.outs → l = (loadBytes d (Acc.start 1 s)).1 →
      (d.layout ≠ 2 → l = packPv (fmtBits d.fmt) (rdEls d (dCount d) 0 (Acc.start 1 s)).1) →
      tileMine s t c sp addr l.length →
      ∃ u, exec (.loadTransfer t none) s = .next u ∧ (getTile u t).qLoad = markFront (getTile s t).qLoad ∧
        (∀ i, i < l.length → zByte u sp t (addr + i) = ((l[i]?).map (·.1)).getD 0) ∧ TileWork s u t) ∧
    (∀ n q b, (getTile s t).phase = .head → (getTile s t).qLoad = (.overlay n, b) :: q → b = false →
      ∃ u, exec (.codeOverlayTransfer t) s = .next u ∧ getTile u t = landOverlay n { getTile s t with qLoad := q } ∧ (getTile u t).ctx = some { c with overlays := c.overlays ++ [n] } ∧
        (∀ k, k ≠ t → getTile u k = getTile s k) ∧ u = { s with tiles := u.tiles }) ∧
    (∀ o q e, (getTile s t).phase = .body → (getTile s t).qStore = (o, false) :: q → (getTile s t).outbound.length < 256 →
      (∃ dst addr ev, o = .xfer dst addr ev ∧ ownStore t c dst = false ∧ e = .store dst addr ev) ∨ (∃ p, o = .furrow p ∧ e = .furrow p) ∨
        (∃ n p x a, o = .adapter n p ∧ getRun? s c.run = some x ∧ x.adapters.find? (fun a => a.entry == n) = some a ∧
          e = .furrow { p with srcA := some a.src }) ∨
        (∃ m r a len k n, o = .peer m r a len k n ∧ e = .peer m r a len k n) →
      ∃ u, exec (.storeTransfer t) s = .next u ∧ getTile u t = { getTile s t with outbound := (getTile s t).outbound ++ [e], qStore := q } ∧
        (∀ k, k ≠ t → getTile u k = getTile s k) ∧ u = { s with tiles := u.tiles }) ∧
    (∀ dst addr ev, (getTile s t).phase = .body → frontOp (getTile s t).qStore = some (.xfer dst addr ev) → ownStore t c dst = true →
      streamOk s c.run t true { dst with inst := t } = true → tileMine s t c 4 addr (elBytes dst.fmt (dCount dst)) →
      ∃ u, exec (.storeTransfer t) s = .next u ∧ (getTile u t).qStore = markFront (getTile s t).qStore ∧
        u.mem = (wrList { dst with inst := t } (rdPv 4 dst.fmt addr (dCount dst) (TAcc.start s t c)).1 false (Acc.start 1 s)).s.mem ∧ TileWork s u t)

/-! ### The peer transport (13) -/

/-- A packet of a joined peer, under its incarnation and for this module. -/
def fromPeer (s : State) (hd : DptHdr) : Prop :=
  (∃ p, getPeer? s hd.src = some p ∧ p.incarnation = hd.incarnation % 2 ^ 32) ∧ hd.dst = s.dpt.moduleNumber

/-- A packet whose payload is as long as its header says, in whole blocks of 64 bytes. -/
def wellSized (hd : DptHdr) (payload : List Byte) : Prop := payload.length = hd.length ∧ hd.length % 64 = 0

/-- The state with the number of the packet noted on its path, which acknowledges at least every 8 packets (13 R310). -/
def arrived (s : State) (hd : DptHdr) : State := recvPsn hd.src hd.path hd.psn s

/-- A packet with the body `b` leaves to `m` on path `k`, after what `s` has put out. -/
def Leaves (s t : State) (m k : Nat) (b : DptBody) : Prop := ∃ w, t.out = s.out ++ [.dpt w] ∧ w.peer = m ∧ w.path = k ∧ w.body = b

/-- The peers other than `m` are as they were. -/
def peersBut (s t : State) (m : Nat) : Prop := ∀ n, n ≠ m → getPeer? t n = getPeer? s n

/-- Data and signal packets: an arrival notes its number on its path alone; one that is new waits in the reorder buffer, a
duplicate, one of a module that is no peer, and one of another length than its header's leave the buffer alone; the packet next
in its queue's order lands and leaves the buffer, and the order moves on; a signal in order is applied at once; collective data
is added to its contribution. -/
def Obligations.PeerPacketsLandInOrder : Prop :=
  ∀ (s : State) (hd : DptHdr) (payload : List Byte),
    ((arrived s hd).dpt.reorder = s.dpt.reorder ∧ (arrived s hd).dpt.rxNext = s.dpt.rxNext ∧ (arrived s hd).dpt.remotes = s.dpt.remotes ∧
      (arrived s hd).dpt.colls = s.dpt.colls ∧ (arrived s hd).dpt.groups = s.dpt.groups ∧ peersBut s (arrived s hd) hd.src ∧
      arrived s hd = { s with dpt := (arrived s hd).dpt, out := (arrived s hd).out, freeCtr := (arrived s hd).freeCtr }) ∧
    (getPeer? s hd.src = none → exec (.dptWriteReceived hd payload) s = .next s ∧ exec (.dptSignalReceived hd) s = .next s ∧
      exec (.dptCollectiveDataReceived hd payload) s = .next s) ∧
    (fromPeer s hd → ¬ wellSized hd payload → exec (.dptWriteReceived hd payload) s = .next s ∧
      exec (.dptCollectiveDataReceived hd payload) s = .next (arrived s hd)) ∧
    (fromPeer s hd → duplicate s hd = true → (wellSized hd payload → exec (.dptWriteReceived hd payload) s = .next (arrived s hd)) ∧
      (hd.length = 0 → exec (.dptSignalReceived hd) s = .next (arrived s hd))) ∧
    (fromPeer s hd → wellSized hd payload → duplicate s hd = false → ∃ t, exec (.dptWriteReceived hd payload) s = .next t ∧
      t.dpt.reorder = s.dpt.reorder ++ [⟨hd, payload⟩] ∧ s.dpt.reorderMax ≤ t.dpt.reorderMax ∧ occupancy t ≤ t.dpt.reorderMax ∧
      t.dpt.peers = (arrived s hd).dpt.peers ∧ t = { s with dpt := t.dpt, out := t.out, pm := t.pm, freeCtr := t.freeCtr }) ∧
    (fromPeer s hd → hd.length = 0 → duplicate s hd = false → hd.qsn ≠ nextQsn s hd.src hd.queue → ∃ t, exec (.dptSignalReceived hd) s = .next t ∧
      t.dpt.reorder = s.dpt.reorder ++ [⟨hd, []⟩] ∧ t = { s with dpt := t.dpt, out := t.out, freeCtr := t.freeCtr }) ∧
    (fromPeer s hd → hd.length = 0 → duplicate s hd = false → hd.qsn = nextQsn s hd.src hd.queue → ∃ u, exec (.dptSignalReceived hd) s = .next (schedule u) ∧
      nextQsn u hd.src hd.queue = (hd.qsn + 1) % 2 ^ 32 ∧ u.mem = s.mem ∧
      u.ctrs = (if hd.last then signalCtr hd.tenant hd.counter hd.signalN s else s).ctrs) ∧
    (∀ src queue b, s.dpt.reorder.find? (fun b => b.hd.src == src && b.hd.queue == queue && b.hd.qsn == nextQsn s src queue) = some b →
      b.payload = [] ∨ (powerEff s ≠ .hold ∧ onTest s (rxDesc s b.hd.tenant b.hd.desc).toList = false ∧ blksWait s (landPhys s b) = false) → s.held = [] →
      ∃ u, exec (.reorderRelease src queue) s = .next (schedule u) ∧
        nextQsn u src queue = (b.hd.qsn + 1) % 2 ^ 32 ∧ (∀ x, x ∈ u.dpt.reorder ↔ x ∈ s.dpt.reorder ∧ x ≠ b) ∧ u.mem = (landWrite b s).2.mem ∧
        ((landWrite b s).1 = true → u.ctrs = (if b.hd.last then signalCtr b.hd.tenant b.hd.counter b.hd.signalN (landWrite b s).2 else s).ctrs) ∧
        WorkOnly { s with dpt := u.dpt } u) ∧
    (∀ k c g d start l, fromPeer s hd → wellSized hd payload →
      s.dpt.colls.find? (fun k => k.group == hd.desc && k.tenant == hd.tenant && k.call == hd.queue) = some k →
      getCmd? s k.handle = some c → tabGet? k.group s.dpt.groups = some g → d = cmdDesc s c (lo32 (cmdParam c 0)) → start = hd.offset * 8 / fmtBits d.fmt →
      l = ((unpackVals (fmtBits d.fmt) payload.length payload).take (partLen c g.members.length (dCount d) - start)).zipIdx.map
        (fun e => (e.1, hd.poisonValid && hd.poison.testBit (e.2 * fmtBits d.fmt / 512))) →
      ∃ u, exec (.dptCollectiveDataReceived hd payload) s = .next (schedule (settleColl k.handle u)) ∧
        u.dpt.colls = s.dpt.colls.map (fun x => if x.handle == k.handle then addPart (rankIn g hd.src) start l x else x) ∧
        u = { s with dpt := u.dpt, out := u.out, freeCtr := u.freeCtr }) ∧
    (fromPeer s hd → s.dpt.colls = [] → ∃ t p q, exec (.dptCollectiveDataReceived hd payload) s = .next t ∧ getPeer? s hd.src = some p ∧
      getPeer? t hd.src = some q ∧ q.txq = p.txq ∧ t.dpt.colls = [] ∧ t = { s with dpt := t.dpt, out := t.out, freeCtr := t.freeCtr })

/-- Acknowledgement, loss and the timers: an acknowledgement takes what it names off its path and returns credit; the
acknowledgement timer sends one where it is owed; a packet that times out is sent again under a new number and its queue number;
the eighth time-out in a row takes the path down, which a probe's acknowledgement brings back; probes and keepalives are packets
of their path, and keepalives rotate over the paths. -/
def Obligations.PathsAcknowledgeAndResend : Prop :=
  ∀ (s : State) (m k : Nat) (p : Peer), getPeer? s m = some p → k < 16 →
    (∀ hd a got left, fromPeer s hd → hd.src = m → a.path = k → p.txq = [] → s.dpt.remotes = [] →
      got = (pathOf p k).out.filter (fun o => acked a o.psn) →
      left = ((pathOf p k).out.filter fun o => !acked a o.psn).map (fun o => { o with higherAcked := o.higherAcked +
        (got.filter fun g => decide (0 < (g.psn + 2 ^ 32 - o.psn) % 2 ^ 32 ∧ (g.psn + 2 ^ 32 - o.psn) % 2 ^ 32 < 2 ^ 31)).length }) →
      (∀ o ∈ left, o.higherAcked < 3) → ∃ t q, exec (.dptAckReceived hd.src hd.incarnation (hd.short, a)) s = .next t ∧ getPeer? t m = some q ∧
        q.credits = p.credits + a.credits ∧ pathOf q k = { pathOf p k with
          out := left, timeouts := if got.isEmpty then (pathOf p k).timeouts else 0, up := (pathOf p k).up || got.any fun o => o.body == .ctl .keepalive } ∧
        (∀ j, j ≠ k → pathOf q j = pathOf p j) ∧ peersBut s t m ∧ t = { s with dpt := { s.dpt with peers := t.dpt.peers } }) ∧
    (0 < (pathOf p k).sinceAck → portOfPath s m k ≠ none → ∃ t q a, exec (.ackTimer m k) s = .next t ∧ Leaves s t m k (.ack a) ∧ a.path = k ∧
      p.owed ≤ a.credits ∧ a.cumulative = (pathOf p k).rxCumulative ∧ getPeer? t m = some q ∧ q.owed = 0 ∧ (pathOf q k).sinceAck = 0 ∧
      (∀ j, j ≠ k → pathOf q j = pathOf p j) ∧ peersBut s t m ∧
      t = { s with out := t.out, freeCtr := t.freeCtr, dpt := { s.dpt with peers := t.dpt.peers, ports := t.dpt.ports } }) ∧
    ((pathOf p k).sinceAck = 0 → exec (.ackTimer m k) s = .next s) ∧
    (∀ psn o, (pathOf p k).out.find? (fun o => o.psn == psn) = some o → ∃ t q, exec (.retransmitTimeout m k psn) s = .next t ∧ getPeer? t m = some q ∧
      (pathOf q k).timeouts = (pathOf p k).timeouts + 1 ∧ ((pathOf q k).up = true ↔ (pathOf p k).up = true ∧ (pathOf p k).timeouts < 7) ∧
      (t.dpt.retx = s.dpt.retx ∨ (t.dpt.retx = s.dpt.retx + 1 ∧ ∃ j x, x ∈ (pathOf q j).out ∧ x.psn = (pathOf p j).txPsn ∧ x.hd.qsn = o.hd.qsn ∧
        x.hd.queue = o.hd.queue ∧ x.hd.retx = true ∧ x.ty = o.ty ∧ x.body = o.body)) ∧ peersBut s t m ∧ t = { s with out := t.out, dpt := t.dpt }) ∧
    ((pathOf p k).up = false → portOfPath s m k ≠ none → ∃ t q x, exec (.pathProbe m k) s = .next t ∧ Leaves s t m k (.ctl .keepalive) ∧
      getPeer? t m = some q ∧ (pathOf q k).out = (pathOf p k).out ++ [x] ∧ x.psn = (pathOf p k).txPsn ∧ x.body = .ctl .keepalive ∧
      (pathOf q k).txPsn = ((pathOf p k).txPsn + 1) % 2 ^ 32 ∧ (∀ j, j ≠ k → pathOf q j = pathOf p j) ∧ peersBut s t m ∧
      t = { s with out := t.out, dpt := { s.dpt with peers := t.dpt.peers, ports := t.dpt.ports } }) ∧
    ((pathOf p k).up = true → exec (.pathProbe m k) s = .next s) ∧
    ∃ t q x, exec (.keepaliveTimer m) s = .next t ∧ (portOfPath s m p.kaNext ≠ none → Leaves s t m p.kaNext (.ctl .keepalive)) ∧
      getPeer? t m = some q ∧ q.kaNext = (p.kaNext + 1) % 16 ∧ (pathOf q p.kaNext).out = (pathOf p p.kaNext).out ++ [x] ∧ x.psn = (pathOf p p.kaNext).txPsn ∧
      peersBut s t m ∧ t = { s with out := t.out, dpt := { s.dpt with peers := t.dpt.peers, ports := t.dpt.ports } }

/-- Groups: a join of a sound list makes the group with this module alone in it and asks every other member that a port reaches;
at its time-out it ends with the number of members joined, or with ST_VERSION_MISMATCH where their firmware is too far apart;
leaving removes the group; a peer that is lost leaves every group, and its open transfers go with it. -/
def Obligations.GroupsFormLoseAndLeave : Prop :=
  ∀ (s : State) (h : Nat) (c : Cmd),
    (∀ g n, Running s h 0x0602 c → g = cmdParam c 0 / 2 ^ 16 % 2 ^ 16 → n = cmdParam c 2 → (∀ e ∈ s.dpt.groups, e.2.join ≠ some h) →
      membersOk s (hostRead s (cmdParam c 1) (32 * n)) n = true → s.dpt.moduleNumber = cmdParam c 0 % 2 ^ 12 → tabGet? g s.dpt.groups = none →
      ∃ t x, exec (.groupJoin h) s = .next t ∧ tabGet? g t.dpt.groups = some x ∧ x.members = parseMembers (hostRead s (cmdParam c 1) (32 * n)) n ∧
        x.joined = [s.dpt.moduleNumber] ∧ x.formed = false ∧ x.join = some h ∧ (∀ k, k ≠ g → tabGet? k t.dpt.groups = tabGet? k s.dpt.groups) ∧
        (∀ m ∈ x.members, m.1 ≠ s.dpt.moduleNumber → portOfPath s m.1 0 ≠ none → ∃ w a, Output.dpt w ∈ t.out ∧ w.peer = m.1 ∧ w.addr = contactOf m.2 ∧
          w.body = .ctl (.advert a) ∧ a.group = g) ∧
        t = { s with out := t.out, dpt := { s.dpt with groups := t.dpt.groups, ports := t.dpt.ports } }) ∧
    (∀ g n, Running s h 0x0602 c → g = cmdParam c 0 / 2 ^ 16 % 2 ^ 16 → n = cmdParam c 2 → (∀ e ∈ s.dpt.groups, e.2.join ≠ some h) →
      membersOk s (hostRead s (cmdParam c 1) (32 * n)) n = false ∨ s.dpt.moduleNumber ≠ cmdParam c 0 % 2 ^ 12 →
      ∃ t, exec (.groupJoin h) s = .next t ∧ Ended t h c [stWindow] 0 ∧ t = { s with cmds := t.cmds, out := t.out }) ∧
    (∀ g x, s.dpt.groups.find? (fun e => e.2.join == some h) = some (g, x) → tabGet? g s.dpt.groups = some x →
      getCmd? s h = some c → c.stage = .running →
      (spreadOk (majorsOf s x) = true → ∃ t, exec (.joinTimeout h) s = .next t ∧
        Ended t h c (if x.joined.length < x.members.length then [stPeerUnreachable] else []) x.joined.length ∧
        tabGet? g t.dpt.groups = some { x with formed := true, join := none } ∧ (∀ k, k ≠ g → tabGet? k t.dpt.groups = tabGet? k s.dpt.groups) ∧
        t = { s with cmds := t.cmds, dpt := { s.dpt with groups := t.dpt.groups } }) ∧
      (spreadOk (majorsOf s x) = false → s.dpt.colls = [] → s.dpt.remotes = [] → ∃ t, exec (.joinTimeout h) s = .next t ∧
        Ended t h c [stVersionMismatch] x.joined.length ∧ tabGet? g t.dpt.groups = none)) ∧
    (∀ g, Running s h 0x0603 c → g = cmdParam c 0 / 2 ^ 16 % 2 ^ 16 → ∃ t, exec (.groupLeave h) s = .next t ∧ Done t h ∧ CmdsGo s t ∧
      tabGet? g t.dpt.groups = none) ∧
    (∀ m p, getPeer? s m = some p → ∃ u, exec (.peerTimeout m) s = .next (schedule u) ∧ getPeer? u m = none ∧ u.dpt.peersLost = s.dpt.peersLost + 1 ∧
      (m, p.incarnation) ∈ u.dpt.lostIncarnations ∧ (∀ e ∈ u.dpt.groups, m ∉ e.2.joined) ∧ (∀ r ∈ u.dpt.remotes, r.peer ≠ m) ∧
      (∀ x ∈ u.dpt.inbound, x.peer ≠ m) ∧ (∀ b ∈ u.dpt.reorder, b.hd.src ≠ m) ∧ CmdsGo s u)

/-- Remote copies, collectives and control messages: a copy to a joined peer waits in its queue, one to any other module ends; a
collective of an incomplete group ends, one of a complete group waits for its members; an open message is answered by what the
destination descriptor allows, an accepted one sends its copy, and a refusal ends it; a member's advertisement lets it join, and
its leave removes it; a hello that comes early is kept. -/
def Obligations.PeerCommandsOpenAndAnswer : Prop :=
  ∀ (s : State) (h : Nat) (c : Cmd),
    (∀ m, Running s h 0x0604 c → m = cmdParam c 1 % 2 ^ 12 → (∀ r ∈ s.dpt.remotes, r.handle ≠ h) →
      (getPeer? s m = none → ∃ t, exec (.remoteCopy h) s = .next t ∧ Ended t h c [stPeerUnreachable] 0 ∧ OnlyCmd s t h) ∧
      ((getPeer? s m).isSome = true → (∀ x ∈ s.cmds, x.pkt.opcode = 0x0604 → c.order ≤ x.order) →
        ∃ t r, exec (.remoteCopy h) s = .next t ∧ r ∈ t.dpt.remotes ∧ r.handle = h ∧ r.peer = m ∧ r.queue = 16 * c.tenant + c.sq ∧
          r.src = cmdDesc s c (lo32 (cmdParam c 0)) ∧ r.dst = hi32 (cmdParam c 0) ∧ r.opened = false ∧ CmdsGo s t ∧
          ((∀ x ∈ s.dpt.remotes, x.peer ≠ m ∨ x.queue ≠ r.queue) → r.asked = true))) ∧
    (∀ n, Running s h 0x0605 c → n = cmdParam c 1 / 2 ^ 16 % 2 ^ 16 → (∀ k ∈ s.dpt.colls, k.handle ≠ h) →
      ((∀ g, tabGet? n s.dpt.groups = some g → g.joined.length < g.members.length ∨ g.formed = false) →
        ∃ t, exec (.collective h) s = .next t ∧ Ended t h c [stPeerUnreachable] 0 ∧ OnlyCmd s t h) ∧
      (∀ g, tabGet? n s.dpt.groups = some g → g.members.length ≤ g.joined.length → g.formed = true → s.dpt.earlyHellos = [] →
        (∀ x ∈ s.cmds, x.pkt.opcode = 0x0605 → c.order ≤ x.order) → ∃ t, exec (.collective h) s = .next t ∧
          t.dpt.colls = s.dpt.colls ++ [⟨h, n, c.tenant, tabGetD 0 c.tenant g.calls, [s.dpt.moduleNumber], []⟩] ∧
          tabGet? n t.dpt.groups = some { g with calls := tabPut c.tenant (tabGetD 0 c.tenant g.calls + 1) g.calls } ∧ t.cmds = s.cmds ∧
          t = { s with out := t.out, dpt := t.dpt })) ∧
    (∀ (hd : DptHdr) q t d f n, fromPeer s hd → ∃ ok, exec (.dptControlReceived hd.src hd.incarnation (hd.short, .openReq q t d f n)) s =
        .next (schedule (sendCtl hd.src (.openReply q ok) (if ok then noteInbound hd.src q t d (arrived s hd) else arrived s hd))) ∧
      (ok = true ↔ (getTen? s t).isSome = true ∧ ∃ x, liveDesc s t d = some x ∧ x.write = true ∧ (x.space = 2 ∨ x.space = 3 ∨ x.space = 4) ∧
        x.layout = 0 ∧ x.fmt = f ∧ dCount x = n)) ∧
    (∀ hd q r msg, fromPeer s hd → s.dpt.remotes = [r] → r.peer = hd.src → r.queue = q → r.handle = h → r.tile = false → r.poisoned = false →
      getCmd? s h = some c → c.stage = .running →
      (msg = .openReply q false ∧ r.asked = true ∧ r.opened = false) ∨ (msg = .windowRefused q ∧ r.opened = true) →
      ∃ u, exec (.dptControlReceived hd.src hd.incarnation (hd.short, msg)) s = .next (schedule u) ∧ Ended u h c [stWindow] 0 ∧ u.dpt.remotes = [] ∧ u.mem = s.mem) ∧
    (∀ hd q r, fromPeer s hd → s.dpt.remotes.find? (fun r => r.peer == hd.src && r.queue == q) = some r → r.asked = true → r.opened = false →
      exec (.dptControlReceived hd.src hd.incarnation (hd.short, .openReply q true)) s = .next (schedule (sendCopy r (arrived s hd)))) ∧
    (∀ (hd : DptHdr) (a : Advert) g, tabGet? a.group s.dpt.groups = some g → getPeer? s hd.src = none → hd.src ≠ s.dpt.moduleNumber → hd.dst = s.dpt.moduleNumber →
      (∃ x ∈ g.members, x.1 = hd.src) → hd.src ∉ g.joined → listDigest g = a.digest → g.formed = false → g.join = none → s.dpt.colls = [] →
      ∃ u, exec (.dptControlReceived hd.src hd.incarnation (hd.short, .advert a)) s = .next (schedule u) ∧
        (tabGet? a.group u.dpt.groups).map (·.joined) = some (setIns hd.src g.joined) ∧ (∃ p, getPeer? u hd.src = some p ∧ p.incarnation = hd.incarnation % 2 ^ 32) ∧
        (∀ k, k ≠ a.group → tabGet? k u.dpt.groups = tabGet? k s.dpt.groups) ∧ peersBut s u hd.src ∧ u.cmds = s.cmds) ∧
    (∀ hd g x, fromPeer s hd → tabGet? g s.dpt.groups = some x → hd.src ∈ x.joined →
      ∃ u y, exec (.dptControlReceived hd.src hd.incarnation (hd.short, .leave g)) s = .next (schedule u) ∧ tabGet? g u.dpt.groups = some y ∧ hd.src ∉ y.joined ∧
        u.dpt.peersLost = s.dpt.peersLost + 1 ∧ CmdsGo s u) ∧
    (∀ hd : DptHdr, fromPeer s hd → exec (.dptControlReceived hd.src hd.incarnation (hd.short, .keepalive)) s = .next (schedule (arrived s hd)) ∧
      ∀ g t k kind red fmt n, s.dpt.colls = [] → (tabGet? g s.dpt.groups).isSome = true → ∃ u,
        exec (.dptControlReceived hd.src hd.incarnation (hd.short, .collHello g t k kind red fmt n)) s = .next (schedule u) ∧
        u.dpt.earlyHellos = (arrived s hd).dpt.earlyHellos ++ [(hd.src, .collHello g t k kind red fmt n)] ∧
        u = { arrived s hd with dpt := u.dpt })

/-! ### Ethernet ports and the 1588 rings (13 R302 to R306, R326, R327) -/

/-- PORT_CONFIG keeps the record and takes the links of a port down whose mode or addresses it changes; a link that comes up or
falls shows in its port's status, and one that comes up opens its paths; a frame of at most 9,216 bytes on a link that is up is
counted, and answered, delivered or dropped by its kind, a longer one dropped; the ring indexes keep what the physical function
writes. -/
def Obligations.PortsKeepTheirConfiguration : Prop :=
  ∀ (s : State),
    (∀ (h : Nat) (c : Cmd) p mode b, Running s h 0x0601 c → p = cmdParam c 0 % 2 ^ 5 → mode = cmdParam c 0 / 2 ^ 8 % 2 ^ 2 →
      b = hostRead s (cmdParam c 1) 256 →
      (ethUsable s p = false → ∃ t, exec (.portConfig h) s = .next t ∧ Ended t h c [stDeviceFault] 0 ∧ t = { s with cmds := t.cmds, out := t.out }) ∧
      (ethUsable s p = true → (∃ i, i < modePorts mode ∧ entryOk (sliceB b (64 * i) 64) = false) → ∃ t, exec (.portConfig h) s = .next t ∧
        Ended t h c [stWindow] 0 ∧ t = { s with cmds := t.cmds, out := t.out }) ∧
      (∀ same, ethUsable s p = true → (∀ i, i < modePorts mode → entryOk (sliceB b (64 * i) 64) = true) →
        (same = true ↔ (getPort s p).configured = true ∧ (getPort s p).mode = mode ∧ ∀ i, i < modePorts mode →
          entryAddr (sliceB (getPort s p).record (64 * i) 64) = entryAddr (sliceB b (64 * i) 64)) →
        ∃ t, exec (.portConfig h) s = .next t ∧ Ended t h c [] 0 ∧ (getPort t p).configured = true ∧ (getPort t p).mode = mode ∧
          (getPort t p).record.take (64 * modePorts mode) = b.take (64 * modePorts mode) ∧
          (getPort t p).linkUp = (if same then (getPort s p).linkUp else 0) ∧
          (∀ k, k ≠ p → getPort t k = getPort s k) ∧ t = { s with cmds := t.cmds, out := t.out, dpt := { s.dpt with ports := t.dpt.ports } })) ∧
    (∀ port l, port < 20 → l < 4 → (getPort s port).configured = true → ethUsable s port = true → l < modePorts (getPort s port).mode →
      hasBit (getPort s port).linkUp l = false → ∃ t, exec (.ethLinkUp port l) s = .next t ∧ hasBit (getPort t port).linkUp l = true ∧
        (∀ m k p, getPeer? t m = some p → portOfPath t m k = some (port, l) → (pathOf p k).up = true) ∧
        t = { s with dpt := t.dpt, out := t.out }) ∧
    (∀ port l, port < 20 → l < 4 → ∃ t, exec (.ethLinkDown port l) s = .next t ∧ hasBit (getPort t port).linkUp l = false ∧
      t = { s with dpt := t.dpt, out := t.out, cmds := t.cmds }) ∧
    (∀ port l len fr fc fu k, port < 20 → l < 4 → (hasBit (getPort s port).linkUp l = false → exec (.frameReceived port l len fr fc fu k) s = .next s) ∧
      (hasBit (getPort s port).linkUp l = true → 9216 < len → exec (.frameReceived port l len fr fc fu k) s =
        .next (modPort port (fun y => { y with dropped := y.dropped + 1 }) s)) ∧
      (hasBit (getPort s port).linkUp l = true → len ≤ 9216 → ∃ t, exec (.frameReceived port l len fr fc fu k) s = .next t ∧
        (getPort t port).rxBytes = (getPort s port).rxBytes + BitVec.ofNat 64 len ∧ (getPort t port).fecCorr = (getPort s port).fecCorr + BitVec.ofNat 64 fc ∧
        (getPort t port).fecUncorr = (getPort s port).fecUncorr + BitVec.ofNat 64 fu ∧
        (k = .other ∨ k = .arp false ∨ k = .nd false → (getPort t port).dropped = (getPort s port).dropped + 1) ∧
        ((k = .arp true → t.out = s.out ++ [.answered port l 0]) ∧ (k = .nd true → t.out = s.out ++ [.answered port l 1])) ∧
        (k = .arp true ∨ k = .nd true → (getPort t port).dropped = (getPort s port).dropped) ∧
        (∀ q, q ≠ port → getPort t q = getPort s q) ∧ t = { s with dpt := t.dpt, out := t.out, mem := { s.mem with host := t.mem.host }, fns := t.fns })) ∧
    (∀ fn i fr, fn < 64 → (fn ≠ 0 → exec (.hgPtpRxHeadWrite fn i) s = .next s ∧ exec (.hgPtpTxTailWrite fn i fr) s = .next s) ∧
      (fn = 0 → exec (.hgPtpRxHeadWrite fn i) s = .next { s with dpt := { s.dpt with ptpRxHead := i % 1024 } } ∧
        ∃ t, exec (.hgPtpTxTailWrite fn i fr) s = .next t ∧ t.dpt.ptpTxTail = i % 1024 ∧
          (ringOn s s.dpt.ptpTxBase s.dpt.ptpTxCtrl = true → i % 1024 < 2 ^ ringLog2 s.dpt.ptpTxCtrl → s.dpt.ptpTxHead < 2 ^ ringLog2 s.dpt.ptpTxCtrl →
            t.dpt.ptpTxHead = i % 1024) ∧ t = { s with dpt := t.dpt, out := t.out, mem := { s.mem with host := t.mem.host } }))

/-! ### Diagnostics, power states, tests, temperature (15 R371 to R373; 16 R379 to R392; 17 R394 to R416; 18 R430) -/

/-- From `s` to `t` the bytes `bs` have reached host memory at `a`, and no other byte of it changed. -/
def hostPut (s t : State) (a : Nat) (bs : List Byte) : Prop :=
  hostRead t a bs.length = bs ∧ ∀ b, b < a ∨ a + bs.length ≤ b → hostRead t b 1 = hostRead s b 1

/-- FAULT_HISTORY writes the header, the summaries padded to 64 bytes and the records, cut to its length; ATTEST the report over
the nonce; MARGIN a header and one entry per lane, the failing lanes of a stack's group taking its idle spares; each ends with
the bytes written as VALUE. FLIP_MASK arms its stack with the mask, or disarms it. -/
def Obligations.DiagnosticsWriteTheirBuffers : Prop :=
  ∀ (s : State) (h : Nat) (c : Cmd),
    ((historyBytes s).take 20 = toLE 2 1 ++ toLE 2 s.hist.sums.length ++ toLE 4 (allRecords s).length ++ toLE 8 s.henua.operating.toNat ++ toLE 4 s.hist.resets ∧
      (historyBytes s).length = 64 + roundUp (16 * s.hist.sums.length) 64 + 64 * (allRecords s).length ∧
      (historyBytes s).drop (64 + roundUp (16 * s.hist.sums.length) 64) = (allRecords s).reverse.flatMap recBytes) ∧
    (Running s h 0x0704 c → ∃ t, exec (.faultHistory h) s = .next t ∧ Ended t h c [] (min (cmdParam c 1) (historyBytes s).length) ∧
      hostPut s t (cmdParam c 0) ((historyBytes s).take (cmdParam c 1)) ∧ t = { s with cmds := t.cmds, out := t.out, mem := { s.mem with host := t.mem.host } }) ∧
    (∀ r, Running s h 0x0708 c → r = report s 0 c.tenant (hostRead s (cmdParam c 0) 32) →
      ∃ t, exec (.attest h) s = .next t ∧ Ended t h c [] (3840 + 48 * min 256 (attestBundles s c.tenant).length) ∧ hostPut s t (cmdParam c 1) r ∧
        r.length = 3840 + 48 * min 256 (attestBundles s c.tenant).length ∧ sliceB r 16 32 = hostRead s (cmdParam c 0) 32 ∧
        t = { s with cmds := t.cmds, out := t.out, mem := { s.mem with host := t.mem.host } }) ∧
    (∀ k, Running s h 0x0707 c → k = cmdParam c 0 % 2 ^ 3 →
      (stackUsable s k = true → ∃ t, exec (.flipMask h) s = .next t ∧ Ended t h c [] 0 ∧
        (getStk t k).flipMask = BitVec.ofNat 576 (leNat (hostRead s (cmdParam c 1) 72)) ∧
        ((getStk t k).flipArmed = true ↔ leNat (hostRead s (cmdParam c 1) 72) ≠ 0) ∧
        (getStk t k).flipFired = false ∧ (∀ j, j ≠ k → getStk t j = getStk s j) ∧ t = { s with cmds := t.cmds, stks := t.stks, out := t.out }) ∧
      (stackUsable s k = false → ∃ t, exec (.flipMask h) s = .next t ∧ Ended t h c [stDeviceFault] 0 ∧ t = { s with cmds := t.cmds, out := t.out })) ∧
    (∀ kind link lane lanes, Running s h 0x0702 c → kind = cmdParam c 0 % 2 ^ 4 → link = cmdParam c 0 / 2 ^ 8 % 2 ^ 8 → lane = cmdParam c 0 / 2 ^ 16 % 2 ^ 8 →
      (marginLink s kind link = false → ∃ t, exec (.margin h lanes) s = .next t ∧ Ended t h c [stDeviceFault] 0 ∧ OnlyCmd s t h) ∧
      (marginLink s kind link = true → marginWaits s c = true → exec (.margin h lanes) s = .next s) ∧
      (∀ n, marginLink s kind link = true → marginWaits s c = false → n = (if kind = 1 then 34 else 1) → ∃ t bs, exec (.margin h lanes) s = .next t ∧
        bs.length = 64 + 16 * n ∧ bs.take 64 = marginHeader kind link n (now s) ∧ Ended t h c [] bs.length ∧ hostPut s t (cmdParam c 1) bs ∧
        (kind ≠ 1 → t.stks = s.stks ∧ (laneUp s kind link lane = true → bs.drop 64 = entryBytes lane 5 0 (lanes.getD 0 ⟨0, 0, 0, 0⟩) 0xFFFF)) ∧
        (kind = 1 → (∀ j, j ≠ link → getStk t j = getStk s j) ∧ getStk t link = { getStk s link with spares := (getStk s link).spares ++
          (if idleSpares (getStk s link) lane = [] then [] else
            (sweptLanes (getStk s link) lane).filter fun l => !marginOk (lanes.getD (l - 34 * lane) ⟨0, 0, 0, 0⟩)).zip (idleSpares (getStk s link) lane) }) ∧
        t = { s with cmds := t.cmds, out := t.out, mem := { s.mem with host := t.mem.host }, stks := t.stks, freeCtr := t.freeCtr }))

/-- POWER_STATE: a request for the present state ends with its admission time; Run and Trim follow at once; Idle is entered when
no tile is inside a step and no test runs, and awaited otherwise; Hold is refused while a tenant holds memory of spaces 3 to 5,
and without a running run entered once nothing stands in its way. From Idle and Hold a request for Run or Trim, and WAKE_N,
begin a wake; its end is Run, with the compute dies' memories clear after Hold. What the power state alone decides: in Run every
tile in service is biased forward by 100 mV with SRAM assist; in Idle every tile in service is biased in reverse by 250 mV with
its SRAM retained; in Hold tiles and die logic have no power while the I/O dies are biased in reverse by 150 mV; with the rails
down nothing is powered and no edge transmitter drives: it floats, or is clamped where the strap asks. -/
def Obligations.PowerStatesChangeAsAsked : Prop :=
  (∀ (s : State), s.pm.stopHold = false →
    (∀ (h n : Nat) (c : Cmd), Running s h 0x0703 c → n = cmdParam c 0 % 2 ^ 3 → s.pm.waking = false → s.pm.transition = false →
      (powerOf n = s.pm.state → ∃ t, exec (.powerState h) s = .next t ∧ Ended t h c [] c.admitTime ∧ OnlyCmd s t h) ∧
      ((s.pm.state = .run ∧ powerOf n = .trim) ∨ (s.pm.state = .trim ∧ powerOf n = .run) → ∃ u, exec (.powerState h) s = .next (schedule u) ∧
        Ended u h c [] (now s) ∧ u = { s with cmds := u.cmds, pm := { s.pm with state := powerOf n } }) ∧
      (s.pm.state = .run ∨ s.pm.state = .trim → powerOf n = .idle →
        (idleReady s = true → ∃ t, exec (.powerState h) s = .next t ∧ Ended t h c [] (now s) ∧ t.pm.state = .idle ∧ t.pm.transition = false ∧
          t = { s with cmds := t.cmds, pm := t.pm }) ∧
        (idleReady s = false → exec (.powerState h) s = .next { s with pm := { s.pm with transition := true, target := .idle } })) ∧
      (s.pm.state ≠ .hold → powerOf n = .hold → holdBlocked s = true → ∃ u, exec (.powerState h) s = .next (schedule u) ∧
        Ended u h c [stWindow] 0 ∧ u.pm.state = s.pm.state ∧ u.pm.transition = false ∧ u = { s with cmds := u.cmds, pm := u.pm }) ∧
      (s.pm.state ≠ .hold → powerOf n = .hold → holdBlocked s = false → (∀ r ∈ s.runs, r.2.state ≠ .running) → holdReady s = true →
        ∃ t, exec (.powerState h) s = .next t ∧ Ended t h c [] (now s) ∧ t.pm.state = .hold ∧ t.pm.transition = false ∧ WorkOnly s t) ∧
      (s.pm.state ≠ .hold → powerOf n = .hold → holdBlocked s = false → (∀ r ∈ s.runs, r.2.state ≠ .running) → holdReady s = false →
        exec (.powerState h) s = .next { s with pm := { s.pm with transition := true, target := .hold } }) ∧
      (s.pm.state = .idle ∨ s.pm.state = .hold → powerOf n = .run ∨ powerOf n = .trim → exec (.powerState h) s = .next { s with pm := { s.pm with
        waking := true, transition := true, lastWake := (if c.silent then 6 else 1), wakes := s.pm.wakes + 1, heldWake := none } })) ∧
    (s.cap.valid = false ∨ (s.pm.transition = false ∧ (s.pm.state = .run ∨ s.pm.state = .trim)) → exec .wakeNAssert s = .next s) ∧
    (s.cap.valid = true → s.pm.transition = false → s.pm.waking = false → s.pm.state = .idle ∨ s.pm.state = .hold → exec .wakeNAssert s = .next { s with pm :=
      { s.pm with waking := true, transition := true, lastWake := 5, wakes := s.pm.wakes + 1, heldWake := none } }) ∧
    (∀ failed l, failed.all stackOk = true → (l.all fun e : Nat × List Nat => stackOk e.1 && e.2.all laneOk) = true →
      (s.pm.waking = false → exec (.wakeComplete failed l) s = .next s) ∧
      (s.pm.waking = true → s.held = [] → s.pm.stopLoss = false → (s.pm.state = .hold → failed = [] ∧ l = []) →
        ∃ u, exec (.wakeComplete failed l) s = .next (fillTiles (schedule u)) ∧
        u.pm = { s.pm with state := .run, target := .run, transition := false, waking := false, saved := false, stopLoss := false } ∧
        (s.pm.state ≠ .hold → u.mem = s.mem ∧ u.tiles = s.tiles) ∧
        (s.pm.state = .hold → u.mem = { s.mem with basin := [], scratch := [], sdata := [], poisonBasin := [], poisonScratch := [], poisonSdata := [] } ∧
          ∀ k, (getTile u k).imem = none) ∧
        (∀ (h : Nat) (c : Cmd), getCmd? s h = some c → c.pkt.opcode = 0x0703 → c.stage = .running → cmdParam c 0 % 2 ^ 3 = 0 → Ended u h c [] (now s)) ∧
        CmdsGo s u ∧ u = { s with cmds := u.cmds, pm := u.pm, mem := u.mem, tiles := u.tiles }))) ∧
  (∀ (s : State) (t : Nat),
    (s.board.pgood = true → tilePresent s t = true →
      (s.pm.state = .run → tileLogic s t = .forward 100 ∧ tileSram s t = .assist) ∧
      (s.pm.state = .idle → tileLogic s t = .reverse 250 ∧ tileSram s t = .retention) ∧
      (s.pm.state = .hold → tileLogic s t = .unpowered ∧ tileSram s t = .unpowered ∧ dieLogic s = .unpowered ∧ ioLogic s = .reverse 150)) ∧
    (s.board.pgood = false → tileLogic s t = .unpowered ∧ tileSram s t = .unpowered ∧ dieLogic s = .unpowered ∧ ioLogic s = .unpowered ∧
      ∀ x, leg s x = (if s.pm.iso then .clamped else .floating)) ∧
    (sidebandDriven s = true ↔ s.board.power48 = true) ∧ i3cAddress s = 0x30 + s.board.slotId)

/-- Logic self-tests: a rotation slot takes the next tile or stack, tests it when it is usable and not under test, and is
skipped otherwise; a suspect or suspended unit's test starts when it falls due; SELFTEST starts a test of a usable unit and ends
at once for a lost one; a test that passes ends its commands with 0, and a unit that fails twice is retired. -/
def Obligations.TestsRotateAndSettle : Prop :=
  ∀ (s : State),
    (rotating s = false → exec .tileTestSlot s = .next s ∧ exec .stackTestSlot s = .next s ∧ ∀ u : UnitRef, u.ok = true → exec (.suspectTestDue u) s = .next s) ∧
    (rotating s = true →
      (∀ n, n = s.test.tileSlot % 32 → (tilePresent s n && tileUsable s n) = false ∨ (testOf? s (.tile n)).isSome = true →
        exec .tileTestSlot s = .next { s with test := { s.test with tileSlot := s.test.tileSlot + 1, slotSkipped := s.test.slotSkipped + 1 } }) ∧
      (∀ n, n = s.test.tileSlot % 32 → (tilePresent s n && tileUsable s n) = true → testOf? s (.tile n) = none → (getTile s n).ctx = none →
        (getTile s n).underTest = false → ∃ t, exec .tileTestSlot s = .next t ∧ getTile t n = { getTile s n with underTest := true } ∧
          (∀ k, k ≠ n → getTile t k = getTile s k) ∧
          t = { s with tiles := t.tiles, test := { s.test with tileSlot := s.test.tileSlot + 1, running := s.test.running ++ [⟨.tile n, [], true, now s⟩] } }) ∧
      (∀ k, k = s.test.stackSlot % 8 → exec .stackTestSlot s = .next { s with test := { s.test with
        stackSlot := s.test.stackSlot + 1,
        slotSkipped := (if stackUsable s k = false ∨ (testOf? s (.stack k)).isSome = true then s.test.slotSkipped + 1 else s.test.slotSkipped),
        running := (if stackUsable s k = false ∨ (testOf? s (.stack k)).isSome = true then s.test.running else s.test.running ++ [⟨.stack k, [], true, now s⟩]) } }) ∧
      (∀ (u : UnitRef) b, u.ok = true → testBlock u = some b → (getSum s u).state = 1 ∨ (getSum s u).state = 2 → testOf? s b = none → (∀ t, b ≠ .tile t) →
        exec (.suspectTestDue u) s = .next { s with test := { s.test with running := s.test.running ++ [⟨b, [], false, now s⟩] } }) ∧
      (∀ t, t < 32 → (getSum s (.tile t)).state = 1 ∨ (getSum s (.tile t)).state = 2 → testOf? s (.tile t) = none → (getTile s t).ctx = none →
        (getTile s t).underTest = false → ∃ u, exec (.suspectTestDue (.tile t)) s = .next u ∧ getTile u t = { getTile s t with underTest := true } ∧
          (∀ k, k ≠ t → getTile u k = getTile s k) ∧
          u = { s with tiles := u.tiles, test := { s.test with running := s.test.running ++ [⟨.tile t, [], false, now s⟩] } }) ∧
      (∀ (u : UnitRef), u.ok = true → (getSum s u).state ≠ 1 → (getSum s u).state ≠ 2 → exec (.suspectTestDue u) s = .next s)) ∧
    (∀ (h k : Nat) (c : Cmd), Running s h 0x0701 c → k = cmdParam c 0 / 2 ^ 8 % 2 ^ 5 → (∀ x ∈ s.test.running, h ∉ x.cmds) →
      (cmdParam c 0 % 2 ^ 4 = 1 → tileUsable s k = false → ∃ t, exec (.selftest h) s = .next t ∧ Ended t h c [stTileLost] 0 ∧ OnlyCmd s t h) ∧
      (cmdParam c 0 % 2 ^ 4 ≠ 1 → stackUsable s k = false → ∃ t, exec (.selftest h) s = .next t ∧ Ended t h c [stDeviceFault] 0 ∧ OnlyCmd s t h) ∧
      (cmdParam c 0 % 2 ^ 4 ≠ 1 → stackUsable s k = true → testOf? s (.stack k) = none →
        exec (.selftest h) s = .next { s with test := { s.test with running := s.test.running ++ [⟨.stack k, [h], false, now s⟩] } }) ∧
      (cmdParam c 0 % 2 ^ 4 = 1 → tileUsable s k = true → testOf? s (.tile k) = none → (getTile s k).ctx = none → (getTile s k).underTest = false →
        ∃ t, exec (.selftest h) s = .next t ∧ getTile t k = { getTile s k with underTest := true } ∧ (∀ j, j ≠ k → getTile t j = getTile s j) ∧
          t = { s with tiles := t.tiles, test := { s.test with running := s.test.running ++ [⟨.tile k, [h], false, now s⟩] } })) ∧
    (∀ (k : Nat) (x : Test), k < 32 → testOf? s (.tile k) = some x → (getTile s k).underTest = true →
      (∀ l, (getSum s (.tile k)).state = 0 → ∃ u, exec (.selftestComplete (.tile k) [] l) s = .next (schedule (fillTiles u)) ∧
        (∀ y, y ∈ u.test.running ↔ y ∈ s.test.running ∧ y.unit ≠ .tile k) ∧ u.test.tileTests = s.test.tileTests + 1 ∧ u.test.tileFails = s.test.tileFails ∧
        getTile u k = { getTile s k with underTest := false } ∧ (∀ j, j ≠ k → getTile u j = getTile s j) ∧
        (∀ (h : Nat) (c : Cmd), h ∈ x.cmds → getCmd? s h = some c → x.cmds.Nodup → Ended u h c [] 0) ∧ CmdsGo s u ∧
        u = { s with cmds := u.cmds, tiles := u.tiles, test := u.test }) ∧
      (∀ f r, (getSum s (.tile k)).state ≠ 3 → f ≠ [] → r ≠ [] → ∃ t, exec (.selftestComplete (.tile k) f r) s = .next t ∧
        hasBit t.cap.tileUsable k = false ∧ t.cap.replace = true ∧ t.cap.degraded = true ∧ t.test.tileFails = s.test.tileFails + 2 ∧ CmdsGo s t))

/-- SENSOR_UPDATE: without rails nothing is read; a reading sets its block's temperature and level, a level that rises is
announced once, and only a stop level begins the orderly stop, with THERM_N asserted. POWER_LIMITER_TICK steps the limits down
above the power limit, which counts as 1,200 to 2,400 W, and up below it less 50. FAULT_RECORD_FLUSH moves the waiting records
to flash and OPERATING_TIME_TICK counts a second, while 48 V is present. -/
def Obligations.TemperatureAndPowerAreHeld : Prop :=
  ∀ (s : State),
    (∀ l, (l.all fun e : Nat × Int => decide (e.1 < 560)) = true → s.board.pgood = false → exec (.sensorUpdate l) s = .next s) ∧
    (∀ (i b lvl : Nat) (v temp : Int), i < 560 → s.board.pgood = true → sensorRead s i = true → tabGetD [] i s.fuses.neighbours = [] → s.pm.broken = [] →
      s.pm.halfBroken = [] → b = sensorBlock i → temp = blockTemp s.fuses { s.pm with readings := tabPut i v s.pm.readings } b →
      lvl = levelGo (tabGetD 0 b s.pm.level) temp 1 (levelTable b) → s.pm.stop = 0 → s.pm.stopHold = false →
      (∀ x, x < 14 → tabGetD 0 x s.pm.level < stopLevel x) →
      (lvl < stopLevel b → ∃ t, exec (.sensorUpdate [(i, v)]) s = .next t ∧ tabGet? b t.pm.temp = some temp ∧ tabGet? b t.pm.level = some lvl ∧
        (∀ x, x ≠ b → tabGet? x t.pm.temp = tabGet? x s.pm.temp ∧ tabGet? x t.pm.level = tabGet? x s.pm.level ∧ tabGet? x t.pm.kT = tabGet? x s.pm.kT) ∧
        t.pm.stopHold = false ∧ t.pm.stop = 0 ∧ (b < 4 → tabGetD 0 b s.pm.kT ≤ pauseTarget temp → tabGet? b t.pm.kT = some (pauseTarget temp)) ∧
        (6 ≤ b → getStk t (b - 6) = { getStk s (b - 6) with doubledRefresh := decide (1 ≤ lvl), thermalLimited := decide (2 ≤ lvl) }) ∧
        (∀ k, k + 6 ≠ b → getStk t k = getStk s k) ∧
        (s.henua.up = true → t.henua.evtSeq = if tabGetD 0 b s.pm.level < lvl then s.henua.evtSeq + 1 else s.henua.evtSeq) ∧
        ((b < 4 ∨ 6 ≤ b) ∧ 2 ≤ lvl → t.board.thermN = false) ∧
        t = { s with out := t.out, fns := t.fns, stks := t.stks, pm := t.pm, henua := t.henua, board := t.board }) ∧
      (stopLevel b ≤ lvl → ∃ t, exec (.sensorUpdate [(i, v)]) s = .next t ∧ t.pm.stopHold = true ∧ hasBit t.pm.stop b = true ∧ t.board.thermN = false ∧ CmdsGo s t)) ∧
    (∀ mean lim p, s.board.power48 = true → lim = max 1200 (min 2400 s.pm.limit) →
      p = (if lim < mean then { s.pm with
          now := mean, peak := max s.pm.peak mean, kP := min 63 (s.pm.kP + 4), limStack := max 64 (s.pm.limStack - 16),
          limDie := max 64 (s.pm.limStack - 16) / 16 }
        else if mean + 50 < lim then { s.pm with
          now := mean, peak := max s.pm.peak mean, kP := s.pm.kP - 1, limStack := min 256 (s.pm.limStack + 8),
          limDie := min 256 (s.pm.limStack + 8) / 16 }
        else { s.pm with now := mean, peak := max s.pm.peak mean }) →
      ∃ t, exec (.powerLimiterTick mean) s = .next t ∧ t.pm = p ∧ t = { s with out := t.out, pm := t.pm, henua := t.henua }) ∧
    (s.board.power48 = true → s.hist.flash.length + s.hist.pendingFlash.length ≤ 131072 → exec .faultRecordFlush s = .next { s with hist :=
      { s.hist with flash := s.hist.flash ++ s.hist.pendingFlash, pendingFlash := [] } }) ∧
    (s.board.power48 = false → exec .faultRecordFlush s = .next s ∧ exec .operatingTimeTick s = .next s ∧ ∀ mean, exec (.powerLimiterTick mean) s = .next s) ∧
    (s.board.power48 = true → exec .operatingTimeTick s = .next { s with henua := { s.henua with operating := s.henua.operating + 1 } })

/-! ### Supply, start-up, resets and the firmware push (14 R332, R333; 18 R419 to R428; 19 R439 to R450) -/

/-- The failing lanes of stack `k`. -/
def failingOf (failing : List (Nat × List Nat)) (k : Nat) : List Nat := (failing.filter fun e => e.1 == k).flatMap (·.2)

/-- The start-up goes in its order: input power, the Henua boot, the rails, the PLL with DEV_TIME from zero, boot self-test,
link training (a group's good spares take its failing data lanes, and a stack with a group that needs more is lost),
verification (its own statement), and the inventory, which makes tenant 0 and sets VALID with GEN 2 (log entry 31). Each command
does its step in its turn alone. -/
def Obligations.StartUpGoesStepByStep : Prop :=
  ∀ (s : State),
    (∀ slot iso, (s.board.power48 = true → exec (.inputPowerApplied slot iso) s = .next s) ∧
      (s.board.power48 = false → exec (.inputPowerApplied slot iso) s = .next { s with pm := { s.pm with iso := iso }, board := { s.board with
        power48 := true, cut := false, band := false, faultN := true, thermN := true, slotId := slot % 16, step := 1 } })) ∧
    exec .henuaBootComplete s = .next (if s.board.power48 = true ∧ s.board.step = 1
      then { s with henua := { s.henua with up := true }, board := { s.board with step := 2 } } else s) ∧
    exec .railSequencing s = .next (if s.board.step = 2 ∧ s.board.pwrEn = true ∧ s.board.cut = false
      then { s with board := { s.board with step := 3, pgood := true, faultN := true } } else s) ∧
    exec .rootPllLock s = .next (if s.board.step = 3 ∧ s.board.perstN = true
      then { s with devTime := 0, clockOn := true, board := { s.board with step := 4, faultN := true } } else s) ∧
    (∀ first repeats, (s.board.step ≠ 4 → exec (.bootSelftestEnd first repeats) s = .next s) ∧
      (s.board.step = 4 → ∃ t, exec (.bootSelftestEnd first repeats) s = .next t ∧ t.board = { s.board with step := 5 } ∧ t.test.bootDone = true ∧
        (∀ n, n < 32 → (hasBit t.test.bootTiles n = true ↔ n ∈ first.tiles ∧ bootTested { s with hist := { s.hist with sums := bootSums s } } (.tile n) = true)) ∧
        (∀ n, n < 20 → (hasBit t.test.bootSluices n = true ↔ n ∈ first.sluices ∧ bootTested { s with hist := { s.hist with sums := bootSums s } } (.sluice n) = true)))) ∧
    (∀ failing, (failing.all fun e : Nat × List Nat => stackOk e.1 && e.2.all laneOk) = true → (s.board.step ≠ 5 → exec (.stackLinkTrainingEnd failing) s = .next s) ∧
      (s.board.step = 5 → ∃ t, exec (.stackLinkTrainingEnd failing) s = .next t ∧ t.board = { s.board with step := 6 } ∧
        t.henua.bstate = (if s.henua.goHeld then 2 else 1) ∧ t.henua.goHeld = false ∧
        ((∀ k g, groupFails (failingOf failing k) g ≤ 2) → ∀ k, k < 8 → (getSum s (.stack k)).state ≠ 3 →
          (getStk t k).spares = (((failingOf failing k).map (· / 34)).foldl (fun a g => setIns g a) []).flatMap (assignSpares (failingOf failing k))) ∧
        (∀ k g, k < 8 → (getSum s (.stack k)).state ≠ 3 → 2 < groupFails (failingOf failing k) g → hasBit t.cap.stackUsable k = false))) ∧
    (∀ l, (s.board.step ≠ 7 ∨ s.cap.valid = true → exec (.inventoryComplete l) s = .next s) ∧
      (s.board.step = 7 → s.cap.valid = false → ∃ t x, exec (.inventoryComplete l) s = .next t ∧ t.board = { s.board with step := 8 } ∧
        t.cap.valid = true ∧ t.cap.gen = 2 ∧ t.cap.degraded = degradedNow t ∧ t.far = mapFar l ∧ t.dpt.incarnation = Config.incarnation s.era ∧
        getTen? t 0 = some x ∧ x.profile = tenant0Profile ∧ x.held = false ∧ (s.fops = [] → t.mem.basin = [] ∧ t.mem.scratch = [] ∧ t.mem.sdata = []) ∧ (∀ k, (getTile t k).imem = none) ∧
        (∀ k, k < 32 → (tileUsable t k = true ↔ tilePresent s k = true ∧ ∀ y ∈ s.hist.sums, ¬(y.cls = 1 ∧ y.unit = k ∧ y.state = 3))))) ∧
    exec .configRetryEnd s = .next (if s.board.perstN = true ∧ s.board.pgood = true then { s with board := { s.board with crsDone := true } } else s) ∧
    (∀ flit w r, exec (.pcieLinkTrained flit w r) s = .next (if s.board.perstN = true ∧ s.board.pgood = true
      then { s with board := { s.board with linkFlit := flit, linkWidth := w % 32, linkRate := r % 16 } } else s))

/-- All package logic is at reset and its record of the past is kept: host memory, fuses, the fault history with one more
reset, the Henua controller's time, sequence and events, and the power limit. -/
def resetKept (s t : State) : Prop :=
  t = { State.reset with pending := s.pending, out := s.out, mem := { Memories.reset with host := s.mem.host }, fuses := s.fuses,
                         hist := { s.hist with resets := s.hist.resets + 1 }, pm := t.pm, henua := t.henua, board := t.board, era := s.era + 1, freeCtr := s.freeCtr } ∧
  t.henua.operating = s.henua.operating ∧ t.henua.mgmtSeq = s.henua.mgmtSeq ∧ t.henua.events = s.henua.events ∧ t.henua.evtSeq = s.henua.evtSeq ∧
  t.henua.bstate = 0 ∧ t.henua.image = none ∧ t.pm.limit = s.pm.limit ∧ t.pm.state = PowerSt.reset.state

/-- With the rails up, PERST_N, PWR_EN low, an input cut, a hot reset and a link going down reset the package, without
completion records; a cut and PWR_EN low take the rails down, a cut asserts FAULT_N. Loss of 48 V keeps only what is in flash
and fuses. The pins and the warning band follow their events. -/
def Obligations.ResetsKeepOnlyTheRecord : Prop :=
  ∀ (s : State),
    (s.board.pgood = true →
      (s.board.perstN = true → (∃ t, exec .perstNAssert s = .next t ∧ resetKept s t ∧ t.board.perstN = false ∧ t.board.pgood = true) ∧
        (∃ t, exec .hotReset s = .next t ∧ resetKept s t ∧ t.board.perstN = true ∧ t.board.pgood = true) ∧
        (∃ t, exec .pcieLinkDown s = .next t ∧ resetKept s t ∧ t.board.perstN = true ∧ t.board.pgood = true)) ∧
      (∃ t, exec .pwrEnLow s = .next t ∧ resetKept s t ∧ t.board.pwrEn = false ∧ t.board.pgood = false) ∧
      (s.board.power48 = true → s.board.cut = false → ∃ t, exec .inputCut s = .next t ∧ resetKept s t ∧ t.board.cut = true ∧ t.board.pgood = false ∧
        t.board.faultN = false)) ∧
    (s.board.power48 = true → ∃ t, exec .inputPowerLoss s = .next t ∧ t.cmds = [] ∧ t.tenants = [] ∧ t.cap = Cap.reset ∧ t.pm = PowerSt.reset ∧ t.fuses = s.fuses ∧
      t.hist = { s.hist with pendingFlash := [], resets := s.hist.resets + 1 } ∧ t.henua.operating = s.henua.operating ∧ t.henua.mgmtSeq = s.henua.mgmtSeq ∧
      t.henua.events = [] ∧ t.henua.netConfig = s.henua.netConfig ∧ t.board.power48 = false ∧ t.board.perstN = s.board.perstN ∧ t.board.pwrEn = s.board.pwrEn ∧ t.mem = { Memories.reset with host := s.mem.host }) ∧
    (s.board.power48 = false → exec .inputPowerLoss s = .next s ∧ exec .inputCut s = .next s ∧ exec .inputWarningBand s = .next s) ∧
    (s.board.pgood = false → exec .hotReset s = .next s ∧ exec .pcieLinkDown s = .next s) ∧
    (s.board.perstN = false → exec .perstNAssert s = .next s ∧ exec .hotReset s = .next s ∧ exec .perstNRelease s = .next { s with
      board := { s.board with perstN := true }, pm := { s.pm with resRun := 0, resTrim := 0, resIdle := 0, resHold := 0 } }) ∧
    (∃ t, exec .pwrEnHigh s = .next t ∧ t.board.pwrEn = true ∧ (s.board.power48 = true → s.board.cut = false → t.board.faultN = true) ∧
      t = { s with board := { s.board with pwrEn := true, faultN := t.board.faultN } }) ∧
    (s.board.cut = true → ∃ t, exec .inputRecovery s = .next t ∧ t.board.cut = false ∧ (s.board.pwrEn = true → t.board.faultN = true) ∧
      t = { s with board := { s.board with cut := false, faultN := t.board.faultN } }) ∧
    (s.board.power48 = true → s.board.cut = false → ∃ t, exec .inputWarningBand s = .next t ∧ t.board = { s.board with band := true } ∧
      (s.henua.up = true → t.henua.evtSeq = s.henua.evtSeq + 1) ∧ t = { s with out := t.out, henua := t.henua, board := t.board })

/-- FUNCTION_LEVEL_RESET of a virtual function puts its registers at reset, but for its tenant's switch counts and its BAR4
size, and no command of the tenant will have a record; without live commands it leaves every other function and raises one
event. Of the physical function, it does so for all 64, BAR4 sizes too, with the registers that this function alone has. -/
def Obligations.FunctionResetClearsTheFunction : Prop :=
  ∀ (s : State) (fn : Nat), 0 < fn → fn < 64 →
    (∃ u, exec (.functionLevelReset fn) s = .next (schedule u) ∧ (∀ c ∈ u.cmds, c.tenant = fn → c.silent = true) ∧
      (∃ x y, getFn u fn = { Fn.reset with switches := x, late := y, bar4Log2 := (getFn s fn).bar4Log2 }) ∧
      ((∀ c ∈ s.cmds, c.tenant ≠ fn) → getFn u fn = { Fn.reset with switches := (getFn s fn).switches, late := (getFn s fn).late, bar4Log2 := (getFn s fn).bar4Log2 } ∧
        (∀ f, f ≠ fn → getFn u f = getFn s f) ∧ (s.henua.up = true → u.henua.evtSeq = s.henua.evtSeq + 1) ∧
        u = { s with fns := u.fns, henua := u.henua, out := u.out })) ∧
    ∃ u, exec (.functionLevelReset 0) s = .next (schedule u) ∧ (∀ c ∈ u.cmds, c.tenant < 64 → c.silent = true) ∧ u.margin = 0x5BCC0 ∧
      u.board.vfEnable = false ∧ u.dpt.timeoutMs = 0x32 ∧
      ((∀ c ∈ s.cmds, 64 ≤ c.tenant) → ∀ f, f < 64 → getFn u f = { Fn.reset with switches := (getFn s f).switches, late := (getFn s f).late }) ∧
      ∀ k, (getStk u k).stackLimit = 256 ∧ (getStk u k).dieLimit = 16 ∧ (getStk u k).patrolHours = 24 ∧ (getStk u k).patrolPause = false

/-- The firmware push: GO waits in start-up, begins a push in states 1 and 4, and is ignored otherwise; a push over PLDM does
the same with its own image. -/
def Obligations.PushesBeginWhereTheyMay : Prop :=
  ∀ (s : State),
    (s.board.crsDone = false → exec .firmwarePushGo s = .next s) ∧
    (s.board.crsDone = true →
      (s.henua.bstate = 0 → s.henua.goHeld = false → exec .firmwarePushGo s = .next { s with henua := { s.henua with goHeld := true, source := 0 } }) ∧
      (s.henua.bstate = 1 ∨ s.henua.bstate = 4 → exec .firmwarePushGo s = .next { s with henua := { s.henua with
        bstate := 2, source := 0, goHeld := false, attempts := min 255 (s.henua.attempts + 1), code := [] } }) ∧
      (s.henua.bstate = 2 ∨ s.henua.bstate = 3 → exec .firmwarePushGo s = .next s)) ∧
    (∀ p b, s.henua.up = true →
      (s.henua.bstate = 1 ∨ s.henua.bstate = 4 → exec (.pldmFirmwareUpdate p b) s = .next { s with henua := { s.henua with
        bstate := 2, source := 1, goHeld := false, attempts := min 255 (s.henua.attempts + 1), code := b } }) ∧
      (s.henua.bstate = 2 ∨ s.henua.bstate = 3 → ∃ st, exec (.pldmFirmwareUpdate p b) s = .next { s with out := s.out ++ [.mgmt 0x80 st []] }))

/-- FIRMWARE_VERIFICATION: an image starts only when all checks of R424 hold: its place and length in range and read without
error, its header sound, its key slot programmed, not revoked and filled by the key, the signature good, its SVN not below the
rollback counter, its payload as its digest says; otherwise the module is in recovery with the reason, FAULT_N asserted. -/
def Obligations.OnlyVerifiedImagesStart : Prop :=
  ∀ (s : State) (he pe : Bool),
    (s.henua.bstate ≠ 2 → exec (.firmwareVerification he pe) s = .next s) ∧
    (s.henua.bstate = 2 → ∃ t, exec (.firmwareVerification he pe) s = .next t ∧
      ((t.henua.bstate = 4 ∧ t.henua.image = s.henua.image ∧ 1 ≤ t.henua.reason ∧ t.henua.reason ≤ 8 ∧ t.board.faultN = false ∧ t.board.step = s.board.step) ∨
       (t.henua.bstate = 3 ∧ he = false ∧ pe = false ∧ t.board.step = 7 ∧ ∃ im b, t.henua.image = some im ∧ im = parseImage b ∧ t.henua.code = b ∧
          (s.henua.source ≠ 0 → b = s.henua.code ∧ pushRange 0 b.length = true ∧ headerOk b b.length = true) ∧ (s.henua.source = 0 → (getFn s 0).busMaster = true ∧
            b = hostRead s (s.henua.bootAddr.toNat / 4096 * 4096) (bitsOf s.henua.bootLen.toNat 24 0) ∧
            pushRange (s.henua.bootAddr.toNat / 4096 * 4096) (bitsOf s.henua.bootLen.toNat 24 0) = true ∧ headerOk b (bitsOf s.henua.bootLen.toNat 24 0) = true) ∧
          im.keySlot < 6 ∧ (keySlot s im.keySlot).programmed = true ∧ (keySlot s im.keySlot).revoked = false ∧
          sha3 (sliceB b 0x40 1952) = (keySlot s im.keySlot).hash ∧ Config.mldsaVerify (sliceB b 0x40 1952) (b.take 2048) (sliceB b 0x800 3309) = true ∧
          s.fuses.rollback ≤ im.svn ∧ sha3 (b.drop 8192) = im.digest)) ∧
      t = { s with henua := t.henua, board := t.board, out := t.out })

/-! ### Management (18 R421, R422, R435 to R438) -/

/-- While the controller is up, the reading commands answer and change nothing: GET_STATUS, IDENTITY_GET, FAULT_HISTORY_READ,
ATTEST and COUNTER_PEEK with their data; READ_REG with a word of four bytes per register, reading and clearing its RC registers
alone; EVENT_READ with the stored events, which are delivered then. While it is down nothing happens. -/
def Obligations.ManagementReadsAnswer : Prop :=
  ∀ (s : State) (p : MgmtPath),
    (s.henua.up = true →
      (∃ d, exec (.getStatus p) s = .next { s with out := s.out ++ [.mgmt 0x01 stOk d] }) ∧
      (∃ d, exec (.identityGet p) s = .next { s with out := s.out ++ [.mgmt 0x07 stOk d] } ∧ d = (if s.fuses.certValid then Config.certificate else [])) ∧
      (∀ off len, exec (.faultHistoryRead p off len) s = .next { s with out := s.out ++ [.mgmt 0x05 stOk (((historyBytes s).drop off).take len)] }) ∧
      (∀ nonce tenant, nonce.length = 32 → tenant < 64 → s.cap.valid = true → exec (.henuaAttest p nonce tenant) s = .next { s with
        out := s.out ++ [.mgmt 0x08 stOk (report s 1 tenant nonce)] }) ∧
      (∀ tenant ctr k, tenant < 64 → ctr < 65536 → s.cap.valid = true → namedCtr s tenant ctr = some k → s.ctrs.broken.contains k = false →
        exec (.henuaCounterPeek p tenant ctr) s = .next { s with out := s.out ++ [.mgmt 0x0A stOk (toLE 8 (ctrVal s k).toNat)] }) ∧
      (∀ off n, 1 ≤ n → n ≤ 64 → off % 4 = 0 → ∃ t d, exec (.readReg p off n) s = .next t ∧ t.out = s.out ++ [.mgmt 0x02 stOk d] ∧ d.length = 4 * n ∧
        (∀ i, i < n → leNat (sliceB d (4 * i) 4) = mgmtReg s (off + 4 * i) % 2 ^ 32) ∧
        t = { s with out := t.out, henua := { s.henua with evtLost := t.henua.evtLost }, test := { s.test with slotSkipped := t.test.slotSkipped },
                     pm := { s.pm with peak := t.pm.peak } }) ∧
      (∀ first n, ∃ t d, exec (.eventRead p first n) s = .next t ∧ t.out = s.out ++ [.mgmt 0x04 stOk d] ∧
        (∀ e ∈ (s.henua.events.filter fun e => decide (first ≤ e.seq)).take n, ∃ x ∈ t.henua.events, x.seq = e.seq ∧ x.delivered = true) ∧
        t.henua.events.map (fun e => (e.cls, e.seq, e.payload)) = s.henua.events.map (fun e => (e.cls, e.seq, e.payload)) ∧
        t = { s with out := t.out, henua := { s.henua with events := t.henua.events } })) ∧
    (s.henua.up = false → ∀ i a off n nonce w, i ∈ [Instr.getStatus p, .identityGet p, .faultHistoryRead p off n, .henuaAttest p nonce n, .henuaCounterPeek p off n,
      .readReg p off n, .eventRead p off n, .writeReg p a off w] → exec i s = .next s)

/-- The signed commands with their codes, parameters and whether these are sound. -/
def signedRow (p : MgmtPath) (a : Option MgmtAuth) (cls unit st tenant ctr value slot off : Nat) (w : W32) (record : List Byte) : List (Nat × List Nat × Bool × Instr) :=
  [(0x03, [off, w.toNat], off == 0x200C || off == 0x4008, .writeReg p a off w),
   (0x06, [cls, unit], decide (cls = 0xFF ∧ unit = 0xFFFF) || ((unitOf cls unit).map UnitRef.ok).getD false, .faultClear p a cls unit),
   (0x09, [st], decide (st < 4), .henuaPowerState p a st),
   (0x0B, [tenant, ctr, value], decide (tenant < 64 ∧ ctr < 65536), .henuaCounterPoke p a tenant ctr value),
   (0x0D, [slot], decide (slot < 6), .keyRevoke p a slot), (0x0E, [], true, .rollbackCommit p a),
   (0x0F, record.map (·.toNat), record.length == 64 && entryOk record, .mgmtNetConfig p a record)]

/-- The commands that change the module's state need a signature over Ethernet: without a public key of an unrevoked owner slot,
a sequence above the last accepted and a good signature they change nothing but the event store; a request with bad parameters
is answered and changes nothing; and the sequence never falls, so that none is accepted twice. -/
def Obligations.SignedCommandsNeedTheirSignature : Prop :=
  (∀ (s : State) (a : Option MgmtAuth) (cls unit st tenant ctr value slot off code : Nat) (w : W32) (record : List Byte) (ps : List Nat) (ok : Bool) (i : Instr),
    s.henua.up = true → (code, ps, ok, i) ∈ signedRow .ethernet a cls unit st tenant ctr value slot off w record →
      (ok = false → exec i s = .next { s with out := s.out ++ [.mgmt code stBadDescriptor []] }) ∧
      (ok = true → (∀ x, a = some x → ¬(s.henua.mgmtSeq.toNat < x.seq ∧ x.seq < 2 ^ 64 ∧ ownerKey s x.pubKey = true ∧
          Config.mldsaVerify x.pubKey (signedBytes code x.seq ps) x.sig = true)) →
        ∃ t, exec i s = .next t ∧ Output.mgmt code stWindow [] ∈ t.out ∧
          t = { s with out := t.out, henua := { s.henua with events := t.henua.events, evtSeq := t.henua.evtSeq, evtLost := t.henua.evtLost, refusedAt := t.henua.refusedAt } })) ∧
  ∀ (s t : State), step s = .next t → s.henua.mgmtSeq.toNat ≤ t.henua.mgmtSeq.toNat

/-- The management writes over I3C: WRITE_REG, MGMT_NET_CONFIG, COUNTER_POKE and FAULT_CLEAR do what they say; POWER_STATE
becomes one waiting request; OWNER_KEY_PROGRAM fills an empty owner slot, KEY_REVOKE revokes a slot while another key is good,
ROLLBACK_COMMIT raises the rollback counter to the running image's SVN. -/
def Obligations.ManagementWritesTakeEffect : Prop :=
  ∀ (s : State) (a : Option MgmtAuth), s.henua.up = true →
    (∀ v : W32, exec (.writeReg .i3c a 0x4008 v) s = .next { s with pm := { s.pm with limit := v.toNat % 4096 }, out := s.out ++ [.mgmt 0x03 stOk []] }) ∧
    (∀ v : W32, exec (.writeReg .i3c a 0x200C v) s = .next { s with out := s.out ++ [.mgmt 0x03 stOk []], henua := { s.henua with
      evtI3c := v.toNat.testBit 2, evtEth := v.toNat.testBit 1, evtFormat := v.toNat.testBit 0 } }) ∧
    (∀ record, record.length = 64 → entryOk record = true → exec (.mgmtNetConfig .i3c a record) s = .next { s with
      henua := { s.henua with netConfig := record }, out := s.out ++ [.mgmt 0x0F stOk []] }) ∧
    (∀ st, st < 4 → s.cap.valid = true → ∃ c, exec (.henuaPowerState .i3c a st) s = .next { s with cmds := s.cmds ++ [c], nextOrder := s.nextOrder + 1 } ∧
      c.pkt.opcode = 0x0703 ∧ cmdParam c 0 = st ∧ c.stage = .admitted ∧ c.order = s.nextOrder ∧ c.admitTime = now s ∧ c.silent = true) ∧
    (∀ tenant ctr value k x, tenant < 64 → ctr < 65536 → s.cap.valid = true → namedCtr s tenant ctr = some k → getTen? s tenant = some x →
      s.ctrs.broken.contains k = false → ∃ u, exec (.henuaCounterPoke .i3c a tenant ctr value) s = .next (schedule u) ∧
        (ctrVal u k).toNat = (settle k (value % 2 ^ 64) s.ctrs.waits).2.2 ∧ (∀ j, j ≠ k → ctrVal u j = ctrVal s j) ∧
        getTen? u tenant = some { x with poked := x.poked + 1 } ∧ Output.mgmt 0x0B stOk (toLE 8 (ctrVal s k).toNat) ∈ u.out ∧ u.mem = s.mem) ∧
    (∀ cls unit : Nat, ((unitOf cls unit).map UnitRef.ok).getD false = true → ¬(cls = 0xFF ∧ unit = 0xFFFF) → ∃ t, exec (.faultClear .i3c a cls unit) s = .next t ∧
      (∀ x, x ∈ t.hist.sums ↔ x ∈ s.hist.sums ∧ ¬(x.cls = cls ∧ x.unit = unit)) ∧ (∀ r, r ∈ t.hist.flash ↔ r ∈ s.hist.flash ∧ ¬(r.cls = cls ∧ r.unit = unit)) ∧
      (∀ r, r ∈ t.hist.pendingFlash ↔ r ∈ s.hist.pendingFlash ∧ ¬(r.cls = cls ∧ r.unit = unit)) ∧ t.hist.resets = s.hist.resets ∧ t.fuses = s.fuses ∧ CmdsGo s t) ∧
    (∀ slot hash, slot = 4 ∨ slot = 5 → hash.length = 32 → (keySlot s slot).programmed = false → ∃ t, exec (.ownerKeyProgram .i3c slot hash) s = .next t ∧
      keySlot t slot = { keySlot s slot with hash := hash, programmed := true } ∧ (∀ k, k ≠ slot → keySlot t k = keySlot s k) ∧ t.fuses.rollback = s.fuses.rollback ∧
      t = { s with fuses := t.fuses, henua := t.henua, out := t.out }) ∧
    (∀ p slot hash, p = .ethernet ∨ (slot ≠ 4 ∧ slot ≠ 5) ∨ (keySlot s slot).programmed = true → ∃ st, exec (.ownerKeyProgram p slot hash) s = .next { s with
      out := s.out ++ [.mgmt 0x0C st []] } ∧ st ≠ stOk) ∧
    (∀ slot, slot < 6 → (otherKey s slot = true → ∃ t, exec (.keyRevoke .i3c a slot) s = .next t ∧ keySlot t slot = { keySlot s slot with revoked := true } ∧
        (∀ k, k ≠ slot → keySlot t k = keySlot s k) ∧ t.fuses.rollback = s.fuses.rollback ∧ t = { s with fuses := t.fuses, henua := t.henua, out := t.out }) ∧
      (otherKey s slot = false → exec (.keyRevoke .i3c a slot) s = .next { s with out := s.out ++ [.mgmt 0x0D stBadDescriptor []] })) ∧
    (∀ im, s.cap.valid = true → s.henua.image = some im → im.svn ≤ 64 → ∃ t, exec (.rollbackCommit .i3c a) s = .next t ∧
      t.fuses = { s.fuses with rollback := max s.fuses.rollback im.svn } ∧ t = { s with fuses := t.fuses, henua := t.henua, out := t.out })

/-- Every command that names units that exist completes; one that names a unit the part does not have is no event of it, and the
model stops at it by name. -/
def Obligations.WellFormedCommandsComplete : Prop :=
  ∀ (c : Instr) (s : State), (c.wf = true → ∃ t, exec c s = .next t) ∧ (c.wf = false → exec c s = .fault .noSuchUnit)
end

