-- ==== Sys2Proof/Laws/Tab.lean ====
section
/-! SUPPORT. Laws of the finite tables: what a lookup finds after an update or a removal, and that both keep
the canonical form. -/

namespace Sys2Proof.Machine

variable {α : Type}

theorem tabGet?_tabPut_same (k : Nat) (a : α) (t : Tab α) : tabGet? k (tabPut k a t) = some a := by
  induction t with
  | nil => simp [tabPut, tabGet?]
  | cons e t ih =>
    obtain ⟨j, b⟩ := e
    simp only [tabPut]
    split
    · simp [tabGet?]
    · split
      · simp [tabGet?]
      · rename_i h; simp [tabGet?, h, ih]

theorem tabGet?_tabPut_ne {k k' : Nat} (h : k' ≠ k) (a : α) (t : Tab α) : tabGet? k' (tabPut k a t) = tabGet? k' t := by
  induction t with
  | nil => simp [tabPut, tabGet?, Ne.symm h]
  | cons e t ih =>
    obtain ⟨j, b⟩ := e
    simp only [tabPut]
    split
    · simp [tabGet?, Ne.symm h]
    · split
      · rename_i e; subst e; simp [tabGet?, Ne.symm h]
      · simp [tabGet?, ih]

@[simp] theorem tabGetD_tabPut_same (d : α) (k : Nat) (a : α) (t : Tab α) : tabGetD d k (tabPut k a t) = a := by
  simp [tabGetD, tabGet?_tabPut_same]

theorem tabGetD_tabPut_ne {k k' : Nat} (h : k' ≠ k) (d a : α) (t : Tab α) : tabGetD d k' (tabPut k a t) = tabGetD d k' t := by
  simp [tabGetD, tabGet?_tabPut_ne h]

theorem tabGet?_tabDel_ne {k k' : Nat} (h : k' ≠ k) (t : Tab α) : tabGet? k' (tabDel k t) = tabGet? k' t := by
  induction t with
  | nil => rfl
  | cons e t ih =>
    obtain ⟨j, b⟩ := e
    simp only [tabDel]
    split
    · rename_i e; subst e; simp [tabGet?, Ne.symm h, ih]
    · simp [tabGet?, ih]

theorem tabRising_cons (lo : Option Nat) (k : Nat) (a : α) (t : Tab α) :
    tabRising lo ((k, a) :: t) = true ↔ (∀ l, lo = some l → l < k) ∧ tabRising (some k) t = true := by
  cases lo <;> simp [tabRising]

/-- A lower bound may be lowered or dropped. -/
theorem tabRising_weaken {lo lo' : Option Nat} (h : ∀ l, lo = some l → ∃ m, lo' = some m ∧ l ≤ m) (t : Tab α)
    (r : tabRising lo' t = true) : tabRising lo t = true := by
  cases t with
  | nil => rfl
  | cons e t =>
    obtain ⟨k, a⟩ := e
    rw [tabRising_cons] at *
    refine ⟨fun l e => ?_, r.2⟩
    obtain ⟨m, hm, hl⟩ := h l e
    have := r.1 m hm; omega

/-- An update keeps keys rising. -/
theorem tabRising_tabPut (k : Nat) (a : α) (t : Tab α) : ∀ lo : Option Nat, (∀ l, lo = some l → l < k) →
    tabRising lo t = true → tabRising lo (tabPut k a t) = true := by
  induction t with
  | nil => intro lo h _; simp only [tabPut, tabRising_cons]; exact ⟨h, rfl⟩
  | cons e t ih =>
    obtain ⟨j, b⟩ := e
    intro lo h r
    rw [tabRising_cons] at r
    simp only [tabPut]
    split
    · rename_i hj
      rw [tabRising_cons, tabRising_cons]
      exact ⟨h, fun l e => by cases e; exact hj, r.2⟩
    · split
      · rename_i e; subst e; rw [tabRising_cons]; exact ⟨h, r.2⟩
      · rw [tabRising_cons]; exact ⟨r.1, ih _ (fun l e => by cases e; omega) r.2⟩

/-- A removal keeps keys rising. -/
theorem tabRising_tabDel (k : Nat) (t : Tab α) : ∀ lo : Option Nat, tabRising lo t = true → tabRising lo (tabDel k t) = true := by
  induction t with
  | nil => intro lo _; rfl
  | cons e t ih =>
    obtain ⟨j, b⟩ := e
    intro lo r
    rw [tabRising_cons] at r
    simp only [tabDel]
    split
    · exact ih _ (tabRising_weaken (lo' := some j) (fun l e => ⟨j, rfl, Nat.le_of_lt (r.1 l e)⟩) t r.2)
    · rw [tabRising_cons]; exact ⟨r.1, ih _ r.2⟩

/-- A key at or below the bound is not listed. -/
theorem tabGet?_below {k : Nat} (t : Tab α) : ∀ j, tabRising (some j) t = true → k ≤ j → tabGet? k t = none := by
  induction t with
  | nil => intros; rfl
  | cons e t ih =>
    obtain ⟨i, b⟩ := e
    intro j r hk
    rw [tabRising_cons] at r
    have := r.1 j rfl
    rw [tabGet?, if_neg (by omega)]
    exact ih i r.2 (by omega)

/-- A removed key is not listed. -/
@[simp] theorem tabGet?_tabDel_same (k : Nat) (t : Tab α) : tabGet? k (tabDel k t) = none := by
  induction t with
  | nil => rfl
  | cons e t ih =>
    obtain ⟨j, b⟩ := e
    simp only [tabDel]
    split
    · exact ih
    · rename_i q; simp only [tabGet?, if_neg q]; exact ih

/-- Entries changed one by one are read back changed. -/
theorem tabGet?_tabMap (f : Nat → α → α) (k : Nat) (t : Tab α) : tabGet? k (tabMap f t) = (tabGet? k t).map (f k) := by
  induction t with
  | nil => rfl
  | cons e t ih =>
    obtain ⟨j, b⟩ := e
    simp only [tabMap, List.map_cons, tabGet?] at *
    split
    · rename_i q; subst q; rfl
    · exact ih

theorem tabWf_tabPut (k : Nat) (a : α) {t : Tab α} (h : tabWf t = true) : tabWf (tabPut k a t) = true :=
  tabRising_tabPut k a t none (fun _ e => by cases e) h

theorem tabWf_tabDel (k : Nat) {t : Tab α} (h : tabWf t = true) : tabWf (tabDel k t) = true := tabRising_tabDel k t none h

theorem mem_tabPut {k : Nat} {a : α} {e : Nat × α} : ∀ {t : Tab α}, e ∈ tabPut k a t → e = (k, a) ∨ e ∈ t
  | [], h => by simp [tabPut] at h; exact .inl h
  | (j, b) :: t, h => by
    simp only [tabPut] at h
    split at h
    · rcases List.mem_cons.mp h with h | h
      · exact .inl h
      · exact .inr h
    · split at h
      · rcases List.mem_cons.mp h with h | h
        · exact .inl h
        · exact .inr (List.mem_cons_of_mem _ h)
      · rcases List.mem_cons.mp h with h | h
        · exact .inr (h ▸ List.mem_cons_self)
        · rcases mem_tabPut h with h | h
          · exact .inl h
          · exact .inr (List.mem_cons_of_mem _ h)

theorem mem_tabDel {k : Nat} {e : Nat × α} : ∀ {t : Tab α}, e ∈ tabDel k t → e ∈ t
  | [], h => h
  | (j, b) :: t, h => by
    simp only [tabDel] at h
    split at h
    · exact List.mem_cons_of_mem _ (mem_tabDel h)
    · rcases List.mem_cons.mp h with h | h
      · exact h ▸ List.mem_cons_self
      · exact List.mem_cons_of_mem _ (mem_tabDel h)

/-- A byte write keeps a zero-filled memory canonical. -/
theorem zWf_putZ (k : Nat) (b : Byte) {m : Mem} (h : zWf m = true) : zWf (putZ k b m) = true := by
  simp only [zWf, Bool.and_eq_true, List.all_eq_true] at *
  unfold putZ
  split
  · exact ⟨tabWf_tabDel k h.1, fun e he => h.2 e (mem_tabDel he)⟩
  · rename_i hb
    refine ⟨tabWf_tabPut k b h.1, fun e he => ?_⟩
    rcases mem_tabPut he with rfl | he
    · simpa using hb
    · exact h.2 e he

end Sys2Proof.Machine
end

