-- ==== Sys2Proof/Laws/Settle.lean ====
section
/-! SUPPORT. What one counter update leaves registered (09 R209): steps 2 to 4 lower the value at most, touch
no other counter's waits, and leave no wait that the value meets. -/

namespace Sys2Proof.Machine

/-- The waits on other counters, in order. -/
def others (c : Nat) (ws : List Wait) : List Wait := ws.filter fun w => w.ctr != c

theorem releaseGe_others (c v : Nat) (ws : List Wait) : others c (releaseGe c v ws).2 = others c ws := by
  induction ws with
  | nil => rfl
  | cons w t ih =>
    simp only [releaseGe]
    split
    · rename_i h; simp only [others] at *; simp [ih, h.1]
    · simp only [others] at *; simp [List.filter_cons, ih]

theorem releaseGe_unmet (c v : Nat) (ws : List Wait) :
    ∀ w ∈ (releaseGe c v ws).2, w.ctr = c → w.take = false → v < w.amount := by
  induction ws with
  | nil => intro w h; cases h
  | cons x t ih =>
    intro w h hc ht
    simp only [releaseGe] at h
    split at h
    · exact ih w h hc ht
    · rename_i hx
      rcases List.mem_cons.mp h with rfl | h
      · have : ¬ w.amount ≤ v := fun q => hx ⟨hc, ht, q⟩
        omega
      · exact ih w h hc ht

theorem releaseGe_head (c c' v : Nat) (ws : List Wait) : headTaker c' (releaseGe c v ws).2 = headTaker c' ws := by
  induction ws with
  | nil => rfl
  | cons w t ih =>
    simp only [releaseGe]
    split
    · rename_i h; simp only [headTaker] at *; simp [ih, h.2.1]
    · simp only [headTaker, List.find?_cons] at *
      split <;> simp_all

theorem releaseTake_blocked (c v : Nat) (ws : List Wait) : (releaseTake c true v ws).2 = (ws, v) := by
  induction ws with
  | nil => rfl
  | cons w t ih => simp only [releaseTake]; split <;> simp [ih]

theorem releaseTake_le (c v : Nat) (b : Bool) (ws : List Wait) : (releaseTake c b v ws).2.2 ≤ v := by
  induction ws generalizing v b with
  | nil => exact Nat.le_refl _
  | cons w t ih =>
    simp only [releaseTake]
    split
    · split
      · exact Nat.le_trans (ih _ _) (Nat.sub_le _ _)
      · exact ih _ _
    · exact ih _ _

theorem releaseTake_others (c v : Nat) (b : Bool) (ws : List Wait) : others c (releaseTake c b v ws).2.1 = others c ws := by
  induction ws generalizing v b with
  | nil => rfl
  | cons w t ih =>
    simp only [releaseTake]
    split
    · rename_i h
      split
      · simp only [others] at *; simp [ih, h.1]
      · simp only [others] at *; simp [ih, h.1]
    · simp only [others] at *; simp [List.filter_cons, ih]

theorem releaseTake_mem (c v : Nat) (b : Bool) (ws : List Wait) : ∀ w ∈ (releaseTake c b v ws).2.1, w ∈ ws := by
  induction ws generalizing v b with
  | nil => intro w h; cases h
  | cons x t ih =>
    intro w h
    simp only [releaseTake] at h
    split at h
    · split at h
      · exact List.mem_cons_of_mem _ (ih _ _ w h)
      · rcases List.mem_cons.mp h with rfl | h
        · exact List.mem_cons_self
        · exact List.mem_cons_of_mem _ (ih _ _ w h)
    · rcases List.mem_cons.mp h with rfl | h
      · exact List.mem_cons_self
      · exact List.mem_cons_of_mem _ (ih _ _ w h)

theorem releaseTake_head (c v : Nat) (ws : List Wait) :
    ∀ a, headTaker c (releaseTake c false v ws).2.1 = some a → (releaseTake c false v ws).2.2 < a := by
  induction ws generalizing v with
  | nil => intro a h; cases h
  | cons w t ih =>
    intro a h
    simp only [releaseTake] at h ⊢
    split at h
    · rename_i hw
      simp only [hw, and_self, if_true]
      split at h
      · rename_i hv; simp only [hv, and_self, if_true]; exact ih _ a h
      · rename_i hv
        simp only [hv, if_false]
        rw [show (releaseTake c true v t).2.2 = v by rw [releaseTake_blocked]]
        simp only [headTaker, List.find?_cons, hw.1, hw.2, beq_self_eq_true, Bool.and_self] at h
        cases h
        have : ¬ w.amount ≤ v := fun q => hv ⟨trivial, q⟩
        exact Nat.lt_of_not_le this
    · rename_i hw
      simp only [hw, if_false]
      refine ih _ a ?_
      have hb : (w.ctr == c && w.take) = false := by
        rw [Bool.and_eq_false_iff]
        by_cases q : w.ctr = c
        · right; cases ht : w.take
          · rfl
          · exact absurd ⟨q, ht⟩ hw
        · left; simpa using q
      simpa only [headTaker, List.find?_cons, hb] using h

theorem settle_others (c v : Nat) (ws : List Wait) : others c (settle c v ws).2.1 = others c ws := by
  simp only [settle, releaseGe_others, releaseTake_others]

theorem settle_le (c v : Nat) (ws : List Wait) : (settle c v ws).2.2 ≤ v := releaseTake_le _ _ _ _

theorem settle_unmet (c v : Nat) (ws : List Wait) :
    ∀ w ∈ (settle c v ws).2.1, w.ctr = c → w.take = false → (settle c v ws).2.2 < w.amount := releaseGe_unmet _ _ _

theorem settle_head (c v : Nat) (ws : List Wait) (a : Nat) (h : headTaker c (settle c v ws).2.1 = some a) :
    (settle c v ws).2.2 < a := by
  simp only [settle, releaseGe_head] at h ⊢
  exact releaseTake_head _ _ _ a h

theorem headTaker_others {c c' : Nat} (h : c' ≠ c) (ws : List Wait) : headTaker c' (others c ws) = headTaker c' ws := by
  induction ws with
  | nil => rfl
  | cons w t ih =>
    simp only [others, headTaker, List.filter_cons, List.find?_cons] at *
    by_cases q : w.ctr = c
    · have e1 : (w.ctr != c) = false := by simp [q]
      have e2 : (w.ctr == c') = false := by simp [q, Ne.symm h]
      simpa [e1, e2] using ih
    · have e1 : (w.ctr != c) = true := by simp [q]
      simp only [e1, if_true, List.find?_cons]
      split <;> simp_all

/-- Counter `c` of a store has released what it must (09 R209). -/
def SettledAt (c : Nat) (k : Counters) : Prop :=
  (∀ w ∈ k.waits, w.ctr = c → w.take = false → (tabGetD 0 c k.vals).toNat < w.amount) ∧
  ∀ a, headTaker c k.waits = some a → (tabGetD 0 c k.vals).toNat < a

theorem settled_iff (s : State) : Settled s ↔ ∀ c, SettledAt c s.ctrs := by
  refine ⟨fun h c => ⟨fun w hw e ht => ?_, fun a ha => h.2 c a ha⟩, fun h => ⟨fun w hw ht => (h w.ctr).1 w hw rfl ht, fun c a ha => (h c).2 a ha⟩⟩
  have := h.1 w hw ht
  rwa [e] at this

/-- One update settles its counter and leaves every other one as settled as it was: the waits given agree with the
registered ones on every other counter, and the value fits a counter. -/
theorem settledAt_update (k : Counters) (c v : Nat) (ws : List Wait) (hv : v < 2 ^ 64) (ho : others c ws = others c k.waits)
    (b : List Nat) (n : Nat) (c' : Nat) (h : c' ≠ c → SettledAt c' k) :
    SettledAt c' ⟨tabPut c (BitVec.ofNat 64 (settle c v ws).2.2) k.vals, b, (settle c v ws).2.1, n⟩ := by
  have hn : (BitVec.ofNat 64 (settle c v ws).2.2).toNat = (settle c v ws).2.2 := by
    rw [BitVec.toNat_ofNat, Nat.mod_eq_of_lt]
    exact Nat.lt_of_le_of_lt (settle_le c v ws) hv
  by_cases q : c' = c
  · subst q
    refine ⟨fun w hw e ht => ?_, fun a ha => ?_⟩ <;> dsimp only at * <;> rw [tabGetD_tabPut_same, hn]
    · exact settle_unmet c' v ws w hw e ht
    · exact settle_head c' v ws a ha
  · refine ⟨fun w hw e ht => ?_, fun a ha => ?_⟩ <;> dsimp only at * <;> rw [tabGetD_tabPut_ne q]
    · refine (h q).1 w ?_ e ht
      have : w ∈ others c (settle c v ws).2.1 := by simp only [others, List.mem_filter]; exact ⟨hw, by rw [e]; simpa using q⟩
      rw [settle_others, ho] at this
      exact List.mem_of_mem_filter this
    · refine (h q).2 a ?_
      rw [← headTaker_others q, settle_others, ho, headTaker_others q] at ha
      exact ha

theorem headTaker_filter {c : Nat} {p : Wait → Bool} (ws : List Wait) (h : ∀ w ∈ ws, p w = true → w.ctr ≠ c) :
    headTaker c (ws.filter fun w => !p w) = headTaker c ws := by
  unfold headTaker
  rw [List.find?_filter]
  congr 1
  refine List.find?_congr fun w hw => ?_
  by_cases q : p w = true
  · simp [q, h w hw q]
  · simp [q, beq_eq_decide]

/-- A withdrawal leaves a counter on which nothing was withdrawn settled. -/
theorem settledAt_filter {c : Nat} {p : Wait → Bool} (k : Counters) (h : ∀ w ∈ k.waits, p w = true → w.ctr ≠ c) (q : SettledAt c k) :
    SettledAt c { k with waits := k.waits.filter fun w => !p w } :=
  ⟨fun w hw => q.1 w (List.mem_of_mem_filter hw), fun a ha => q.2 a (by rw [← headTaker_filter k.waits h]; exact ha)⟩

end Sys2Proof.Machine
end

