-- ==== Sys2Proof/Laws/Kept.lean ====
section
/-! SUPPORT. What almost no operation touches: the queue of commands, the fuses, DEV_TIME and its clock; and what
every operation keeps: canonical memories, an even change generation, a settled counter store. One relation, with one
lemma per operation in the files Laws/Kept*.lean. -/

namespace Sys2Proof.Machine

/-- From `s` to `t` nothing outside the package's working state has changed, and the invariants hold on; with
`cf` also DEV_TIME and its clock are as they were, with `ff` the fuses. -/
structure Kept (cf ff : Bool) (s t : State) : Prop where
  pending : t.pending = s.pending
  fuses : ff = true → t.fuses = s.fuses
  clock : cf = true → t.devTime = s.devTime ∧ t.clockOn = s.clockOn
  gen : GenEven s → GenEven t
  mem : MemSafe s → MemSafe t
  settled : Settled s → Settled t

theorem Kept.refl (cf ff : Bool) (s : State) : Kept cf ff s s := ⟨rfl, fun _ => rfl, fun _ => ⟨rfl, rfl⟩, id, id, id⟩

theorem Kept.trans {cf ff : Bool} {s t u : State} (a : Kept cf ff s t) (b : Kept cf ff t u) : Kept cf ff s u :=
  ⟨b.pending.trans a.pending, fun h => (b.fuses h).trans (a.fuses h),
   fun h => ⟨(b.clock h).1.trans (a.clock h).1, (b.clock h).2.trans (a.clock h).2⟩,
   fun h => b.gen (a.gen h), fun h => b.mem (a.mem h), fun h => b.settled (a.settled h)⟩

/-- Equal on what `Kept` looks at. -/
theorem Kept.of_eq {cf ff : Bool} {s t : State} (p : t.pending = s.pending) (f : t.fuses = s.fuses) (d : t.devTime = s.devTime)
    (c : t.clockOn = s.clockOn) (g : t.cap.gen = s.cap.gen) (m : t.mem = s.mem) (k : t.ctrs = s.ctrs) : Kept cf ff s t :=
  ⟨p, fun _ => f, fun _ => ⟨d, c⟩, fun h => by unfold GenEven at *; rw [g]; exact h, fun h => by unfold MemSafe at *; rw [m]; exact h,
   fun h => by unfold Settled ctrVal at *; rw [k]; exact h⟩

/-- A record update that leaves those fields alone. -/
theorem Kept.upd {cf ff : Bool} {s0 s t : State} (h : Kept cf ff s0 s) (p : t.pending = s.pending) (f : t.fuses = s.fuses) (d : t.devTime = s.devTime)
    (c : t.clockOn = s.clockOn) (g : t.cap.gen = s.cap.gen) (m : t.mem = s.mem) (k : t.ctrs = s.ctrs) : Kept cf ff s0 t :=
  h.trans (Kept.of_eq p f d c g m k)

/-- What a meaning answers as next state. -/
def ResKept (cf ff : Bool) (s0 : State) (r : Res) : Prop := ∀ t, r = .next t → Kept cf ff s0 t

theorem ResKept.next {cf ff : Bool} {s0 s : State} (h : Kept cf ff s0 s) : ResKept cf ff s0 (.next s) := by
  intro t e; cases e; exact h

theorem ResKept.fault {cf ff : Bool} {s0 : State} (f : Fault) : ResKept cf ff s0 (.fault f) := by
  intro t e; cases e

/-- A record update that leaves those fields alone, found by unification. -/
theorem Kept.mk' {cf ff : Bool} {s0 s : State} {out : List Output} {cap : Cap} {fns : Tab Fn} {tenants : Tab Tenant} {seqs : Tab Nat} {cmds : List Cmd} {nextOrder : Nat} {halted : Bool} {rrTenant : Nat} {rrQueue : Tab Nat} {allocs : Tab Alloc} {granules : Tab Granule} {sharedPoison : Tab (List Nat)} {stks : Tab Stack} {held : List Held} {fops : Tab FurrowOp} {nextFop : Nat} {sluiceQ : Tab (List Nat)} {bundles : Tab Bundle} {runs : Tab Run} {tiles : Tab Tile} {adapters : Tab Adapter} {margin : W64} {far : Far} {edgesDown : List (Nat × Nat)} {edgeTries : List ((Nat × Nat) × Nat)} {dpt : Dpt} {hist : FaultHist} {test : SelfTest} {pm : PowerSt} {henua : Henua} {board : Board} {era : Nat} {freeCtr : Nat} (h : Kept cf ff s0 s) (g : cap.gen = s.cap.gen) :
    Kept cf ff s0 ⟨s.pending, out, s.devTime, s.clockOn, cap, fns, tenants, seqs, cmds, nextOrder, halted, rrTenant, rrQueue, allocs, granules, sharedPoison, s.ctrs, s.mem, stks, held, fops, nextFop, sluiceQ, bundles, runs, tiles, adapters, margin, far, edgesDown, edgeTries, dpt, hist, test, pm, s.fuses, henua, board, era, freeCtr⟩ := h.upd rfl rfl rfl rfl g rfl rfl

/-- The same with another memory, canonical where the old one was. -/
theorem Kept.mkMem {cf ff : Bool} {s0 s : State} {out : List Output} {cap : Cap} {fns : Tab Fn} {tenants : Tab Tenant} {seqs : Tab Nat} {cmds : List Cmd} {nextOrder : Nat} {halted : Bool} {rrTenant : Nat} {rrQueue : Tab Nat} {allocs : Tab Alloc} {granules : Tab Granule} {sharedPoison : Tab (List Nat)} {stks : Tab Stack} {held : List Held} {fops : Tab FurrowOp} {nextFop : Nat} {sluiceQ : Tab (List Nat)} {bundles : Tab Bundle} {runs : Tab Run} {tiles : Tab Tile} {adapters : Tab Adapter} {margin : W64} {far : Far} {edgesDown : List (Nat × Nat)} {edgeTries : List ((Nat × Nat) × Nat)} {dpt : Dpt} {hist : FaultHist} {test : SelfTest} {pm : PowerSt} {henua : Henua} {board : Board} {era : Nat} {freeCtr : Nat} {mem : Memories} (h : Kept cf ff s0 s) (g : cap.gen = s.cap.gen) (w : s.mem.wf = true → mem.wf = true) :
    Kept cf ff s0 ⟨s.pending, out, s.devTime, s.clockOn, cap, fns, tenants, seqs, cmds, nextOrder, halted, rrTenant, rrQueue, allocs, granules, sharedPoison, s.ctrs, mem, stks, held, fops, nextFop, sluiceQ, bundles, runs, tiles, adapters, margin, far, edgesDown, edgeTries, dpt, hist, test, pm, s.fuses, henua, board, era, freeCtr⟩ := by
  refine h.trans ⟨rfl, fun _ => rfl, fun _ => ⟨rfl, rfl⟩, fun q => ?_, w, fun q => q⟩
  unfold GenEven at *; rw [← g] at q; exact q

/-- The second component of a pair that a match has named. -/
theorem Kept.snd {α : Type} {cf ff : Bool} {s0 s : State} {a : α} {p : α × State} (e : p = (a, s)) (h : Kept cf ff s0 p.2) : Kept cf ff s0 s := by
  subst e; exact h

/-- A branch of `if`. -/
theorem Kept.ite {cf ff : Bool} {s0 s t : State} {c : Prop} [Decidable c] (a : Kept cf ff s0 s) (b : Kept cf ff s0 t) : Kept cf ff s0 (if c then s else t) := by
  split <;> assumption

/-- The second component of an answer that a match has named. -/
theorem Kept.opt {α : Type} {cf ff : Bool} {s0 s : State} {a : α} {o : Option (α × State)} (e : o = some (a, s)) (h : ∀ x, o = some x → Kept cf ff s0 x.2) :
    Kept cf ff s0 s := h _ e

/-- The identity. -/
theorem Kept.ident {cf ff : Bool} {s0 s : State} (h : Kept cf ff s0 s) : Kept cf ff s0 (id s) := h

/-- A fold of kept operations. -/
theorem Kept.foldl {α : Type} {cf ff : Bool} {s0 : State} (f : State → α → State) (l : List α) (s : State) (h : Kept cf ff s0 s)
    (hf : ∀ s a, Kept cf ff s0 s → Kept cf ff s0 (f s a)) : Kept cf ff s0 (l.foldl f s) := by
  induction l generalizing s with
  | nil => exact h
  | cons a t ih => exact ih (f s a) (hf s a h)

end Sys2Proof.Machine
end

