-- ==== Sys2Proof/Laws/KeptOps.lean ====
section
/-! SUPPORT. `Kept` for the operations of Machine/Ops.lean. -/

namespace Sys2Proof.Machine

theorem onUnit_kept {cf ff : Bool} {s0 : State} (isThere : Bool) (t : State) (h0 : Kept cf ff s0 t) :
    ResKept cf ff s0 (onUnit isThere t) := by
  unfold onUnit
  repeat' first
    | with_reducible assumption
    | with_reducible apply ResKept.next
    | with_reducible apply ResKept.fault
    | split

theorem forEach_kept {cf ff : Bool} {s0 : State} {α : Type} (f : α → State → State) (l : List α) (s : State)
    (h0 : ∀ (y0 : α) (y1 : State), Kept cf ff s0 y1 → Kept cf ff s0 (f y0 y1)) (h1 : Kept cf ff s0 s) : Kept cf ff s0 (forEach f l s) := by
  induction l generalizing s with
  | nil => exact h1
  | cons a t ih => exact ih (f a s) (h0 a s h1)

theorem whenS_kept {cf ff : Bool} {s0 : State} (c : Bool) (g : State → State) (s : State) (h0 : ∀ (y0 : State), Kept cf ff s0 y0 → Kept cf ff s0 (g y0)) (h1 : Kept cf ff s0 s) :
    Kept cf ff s0 (whenS c g s) := by
  unfold whenS
  repeat' first
    | with_reducible assumption
    | with_reducible apply h0
    | split

theorem modFn_kept {cf ff : Bool} {s0 : State} (f : Nat) (g : Fn → Fn) (s : State) (h0 : Kept cf ff s0 s) :
    Kept cf ff s0 (modFn f g s) := by
  unfold modFn
  repeat' first
    | with_reducible assumption
    | dsimp only
    | (with_reducible refine Kept.mk' ?_ rfl; with_reducible assumption)

theorem modTile_kept {cf ff : Bool} {s0 : State} (t : Nat) (g : Tile → Tile) (s : State) (h0 : Kept cf ff s0 s) :
    Kept cf ff s0 (modTile t g s) := by
  unfold modTile
  repeat' first
    | with_reducible assumption
    | dsimp only
    | (with_reducible refine Kept.mk' ?_ rfl; with_reducible assumption)

theorem modStk_kept {cf ff : Bool} {s0 : State} (k : Nat) (g : Stack → Stack) (s : State) (h0 : Kept cf ff s0 s) :
    Kept cf ff s0 (modStk k g s) := by
  unfold modStk
  repeat' first
    | with_reducible assumption
    | dsimp only
    | (with_reducible refine Kept.mk' ?_ rfl; with_reducible assumption)

theorem modPort_kept {cf ff : Bool} {s0 : State} (p : Nat) (g : Port → Port) (s : State) (h0 : Kept cf ff s0 s) :
    Kept cf ff s0 (modPort p g s) := by
  unfold modPort
  repeat' first
    | with_reducible assumption
    | dsimp only
    | (with_reducible refine Kept.mk' ?_ rfl; with_reducible assumption)

theorem modTen_kept {cf ff : Bool} {s0 : State} (t : Nat) (g : Tenant → Tenant) (s : State) (h0 : Kept cf ff s0 s) :
    Kept cf ff s0 (modTen t g s) := by
  unfold modTen
  repeat' first
    | with_reducible assumption
    | split
    | dsimp only
    | with_reducible refine Kept.snd (by assumption) ?_
    | (with_reducible refine Kept.mk' ?_ rfl; with_reducible assumption)

theorem modRun_kept {cf ff : Bool} {s0 : State} (r : Nat) (g : Run → Run) (s : State) (h0 : Kept cf ff s0 s) :
    Kept cf ff s0 (modRun r g s) := by
  unfold modRun
  repeat' first
    | with_reducible assumption
    | split
    | dsimp only
    | with_reducible refine Kept.snd (by assumption) ?_
    | (with_reducible refine Kept.mk' ?_ rfl; with_reducible assumption)

theorem modFop_kept {cf ff : Bool} {s0 : State} (i : Nat) (g : FurrowOp → FurrowOp) (s : State) (h0 : Kept cf ff s0 s) :
    Kept cf ff s0 (modFop i g s) := by
  unfold modFop
  repeat' first
    | with_reducible assumption
    | split
    | dsimp only
    | with_reducible refine Kept.snd (by assumption) ?_
    | (with_reducible refine Kept.mk' ?_ rfl; with_reducible assumption)

theorem modHenua_kept {cf ff : Bool} {s0 : State} (g : Henua → Henua) (s : State) (h0 : Kept cf ff s0 s) :
    Kept cf ff s0 (modHenua g s) := by
  unfold modHenua
  repeat' first
    | with_reducible assumption
    | dsimp only
    | (with_reducible refine Kept.mk' ?_ rfl; with_reducible assumption)

theorem modDpt_kept {cf ff : Bool} {s0 : State} (g : Dpt → Dpt) (s : State) (h0 : Kept cf ff s0 s) :
    Kept cf ff s0 (modDpt g s) := by
  unfold modDpt
  repeat' first
    | with_reducible assumption
    | dsimp only
    | (with_reducible refine Kept.mk' ?_ rfl; with_reducible assumption)

theorem modPm_kept {cf ff : Bool} {s0 : State} (g : PowerSt → PowerSt) (s : State) (h0 : Kept cf ff s0 s) :
    Kept cf ff s0 (modPm g s) := by
  unfold modPm
  repeat' first
    | with_reducible assumption
    | dsimp only
    | (with_reducible refine Kept.mk' ?_ rfl; with_reducible assumption)

theorem modBoard_kept {cf ff : Bool} {s0 : State} (g : Board → Board) (s : State) (h0 : Kept cf ff s0 s) :
    Kept cf ff s0 (modBoard g s) := by
  unfold modBoard
  repeat' first
    | with_reducible assumption
    | dsimp only
    | (with_reducible refine Kept.mk' ?_ rfl; with_reducible assumption)

theorem modTest_kept {cf ff : Bool} {s0 : State} (g : SelfTest → SelfTest) (s : State) (h0 : Kept cf ff s0 s) :
    Kept cf ff s0 (modTest g s) := by
  unfold modTest
  repeat' first
    | with_reducible assumption
    | dsimp only
    | (with_reducible refine Kept.mk' ?_ rfl; with_reducible assumption)

theorem emit_kept {cf ff : Bool} {s0 : State} (o : Output) (s : State) (h0 : Kept cf ff s0 s) :
    Kept cf ff s0 (emit o s) := by
  unfold emit
  repeat' first
    | with_reducible assumption
    | dsimp only
    | (with_reducible refine Kept.mk' ?_ rfl; with_reducible assumption)

theorem freshByte_kept {cf ff : Bool} {s0 : State} (s : State) (h0 : Kept cf ff s0 s) :
    Kept cf ff s0 (freshByte s).2 := by
  unfold freshByte
  repeat' first
    | with_reducible assumption
    | dsimp only
    | (with_reducible refine Kept.mk' ?_ rfl; with_reducible assumption)

theorem henuaEvent_kept {cf ff : Bool} {s0 : State} (cls : Nat) (severity : Nat) (payload : List Nat) (s : State) (h0 : Kept cf ff s0 s) :
    Kept cf ff s0 (henuaEvent cls severity payload s) := by
  unfold henuaEvent
  repeat' first
    | with_reducible assumption
    | with_reducible apply modHenua_kept
    | with_reducible apply whenS_kept
    | with_reducible apply emit_kept
    | split

theorem sendMsix_kept {cf ff : Bool} {s0 : State} (f : Nat) (v : Nat) (s : State) (h0 : Kept cf ff s0 s) :
    Kept cf ff s0 (sendMsix f v s) := by
  unfold sendMsix
  repeat' first
    | with_reducible assumption
    | with_reducible apply modFn_kept
    | with_reducible apply emit_kept
    | split
    | intro _
    | dsimp only

theorem vecEvent_kept {cf ff : Bool} {s0 : State} (f : Nat) (v : Nat) (s : State) (h0 : Kept cf ff s0 s) :
    Kept cf ff s0 (vecEvent f v s) := by
  unfold vecEvent
  repeat' first
    | with_reducible assumption
    | with_reducible apply sendMsix_kept
    | with_reducible apply modFn_kept
    | split
    | intro _
    | dsimp only

theorem setCause_kept {cf ff : Bool} {s0 : State} (f : Nat) (bit : Nat) (s : State) (h0 : Kept cf ff s0 s) :
    Kept cf ff s0 (setCause f bit s) := by
  unfold setCause
  repeat' first
    | with_reducible assumption
    | with_reducible apply whenS_kept
    | with_reducible apply vecEvent_kept
    | with_reducible apply modFn_kept
    | split
    | intro _
    | dsimp only

theorem setCauseAll_kept {cf ff : Bool} {s0 : State} (bit : Nat) (s : State) (h0 : Kept cf ff s0 s) :
    Kept cf ff s0 (setCauseAll bit s) := by
  unfold setCauseAll
  repeat' first
    | with_reducible assumption
    | with_reducible apply forEach_kept
    | with_reducible apply setCause_kept
    | intro _

theorem cqEvent_kept {cf ff : Bool} {s0 : State} (f : Nat) (s : State) (h0 : Kept cf ff s0 s) :
    Kept cf ff s0 (cqEvent f s) := by
  unfold cqEvent
  repeat' first
    | with_reducible assumption
    | with_reducible apply vecEvent_kept

theorem capChange_kept {cf ff : Bool} {s0 : State} (severity : Nat) (g : Cap → Cap) (s : State) (h0 : Kept cf ff s0 s) (hg : ∀ c, (g c).gen = c.gen) :
    Kept cf ff s0 (capChange severity g s) := by
  unfold capChange
  dsimp only
  split
  · apply setCauseAll_kept
    apply henuaEvent_kept
    refine h0.trans ⟨rfl, fun _ => rfl, fun _ => ⟨rfl, rfl⟩, fun q => ?_, id, id⟩
    unfold GenEven at *
    simp only [hg]
    rw [BitVec.toNat_add]
    have h2 : (2 : BitVec 16).toNat = 2 := rfl
    rw [h2]; omega
  · exact h0.upd rfl rfl rfl rfl (hg _) rfl rfl

theorem recordFault_kept {cf ff : Bool} {s0 : State} (kind : Nat) (check : Nat) (u : UnitRef) (tenant : Nat) (detail : Nat) (bundle : List Byte) (s : State) (h0 : Kept cf ff s0 s) :
    Kept cf ff s0 (recordFault kind check u tenant detail bundle s) := by
  unfold recordFault
  repeat' first
    | with_reducible assumption
    | with_reducible apply henuaEvent_kept
    | with_reducible apply modHenua_kept
    | split
    | intro _
    | dsimp only
    | (with_reducible refine Kept.mk' ?_ rfl; with_reducible assumption)

theorem modSum_kept {cf ff : Bool} {s0 : State} (u : UnitRef) (g : UnitSum → UnitSum) (s : State) (h0 : Kept cf ff s0 s) :
    Kept cf ff s0 (modSum u g s) := by
  unfold modSum
  repeat' first
    | with_reducible assumption
    | split
    | intro _
    | dsimp only
    | (with_reducible refine Kept.mk' ?_ rfl; with_reducible assumption)

theorem clearUsable_gen (u : UnitRef) (c : Cap) : (clearUsable u c).gen = c.gen := by
  cases u <;> rfl

theorem suspectCap_gen (u : UnitRef) (c : Cap) : (suspectCap u c).gen = c.gen := by
  cases u <;> rfl

theorem retireCap_kept {cf ff : Bool} {s0 : State} (check : Nat) (u : UnitRef) (tenant : Nat) (s : State) (h0 : Kept cf ff s0 s) :
    Kept cf ff s0 (retireCap check u tenant s) := by
  unfold retireCap
  split
  · exact h0
  · exact capChange_kept _ _ _ (modSum_kept _ _ _ (recordFault_kept _ _ _ _ _ _ _ h0)) fun c => clearUsable_gen u c

end Sys2Proof.Machine
end

