-- ==== Sys2Proof/Laws/KeptWake.lean ====
section
/-! SUPPORT. `Kept` for the operations of Machine/Wake.lean. -/

namespace Sys2Proof.Machine

theorem startWake_kept {cf ff : Bool} {s0 : State} (code : Nat) (s : State) (h0 : Kept cf ff s0 s) :
    Kept cf ff s0 (startWake code s) := by
  unfold startWake
  repeat' first
    | with_reducible assumption
    | with_reducible apply modPm_kept
    | with_reducible apply freshByte_kept
    | split

theorem wakeSource_kept {cf ff : Bool} {s0 : State} (code : Nat) (idleToo : Bool) (s : State) (h0 : Kept cf ff s0 s) :
    Kept cf ff s0 (wakeSource code idleToo s) := by
  unfold wakeSource
  repeat' first
    | with_reducible assumption
    | with_reducible apply modPm_kept
    | with_reducible apply startWake_kept
    | split
    | intro _
    | dsimp only

theorem releaseHeldWake_kept {cf ff : Bool} {s0 : State} (s : State) (h0 : Kept cf ff s0 s) :
    Kept cf ff s0 (releaseHeldWake s) := by
  unfold releaseHeldWake
  repeat' first
    | with_reducible assumption
    | with_reducible apply startWake_kept
    | split

end Sys2Proof.Machine
end

