-- ==== Sys2Proof/Laws/KeptCtr.lean ====
section
/-! SUPPORT. `Kept` for the operations of Machine/Ctr.lean. -/

namespace Sys2Proof.Machine

theorem modCmd_kept {cf ff : Bool} {s0 : State} (h : Nat) (g : Cmd → Cmd) (s : State) (h0 : Kept cf ff s0 s) :
    Kept cf ff s0 (modCmd h g s) := by
  unfold modCmd
  repeat' first
    | with_reducible assumption
    | split
    | intro _
    | dsimp only
    | (with_reducible refine Kept.mk' ?_ rfl; with_reducible assumption)

theorem finishCmd_kept {cf ff : Bool} {s0 : State} (h : Nat) (outs : List Nat) (value : Nat) (s : State) (h0 : Kept cf ff s0 s) :
    Kept cf ff s0 (finishCmd h outs value s) := by
  unfold finishCmd
  repeat' first
    | with_reducible assumption
    | with_reducible apply modCmd_kept

theorem noteOutcome_kept {cf ff : Bool} {s0 : State} (h : Nat) (st : Nat) (s : State) (h0 : Kept cf ff s0 s) :
    Kept cf ff s0 (noteOutcome h st s) := by
  unfold noteOutcome
  repeat' first
    | with_reducible assumption
    | with_reducible apply modCmd_kept

theorem tellOwner_kept {cf ff : Bool} {s0 : State} (r : Release) (s : State) (h0 : Kept cf ff s0 s) :
    Kept cf ff s0 (tellOwner r s) := by
  unfold tellOwner
  repeat' first
    | with_reducible assumption
    | with_reducible apply finishCmd_kept
    | with_reducible apply wakeSource_kept
    | with_reducible apply modTile_kept
    | with_reducible apply headWait_kept
    | split

theorem wakeSource_ctrs (code : Nat) (idle : Bool) (s : State) : (wakeSource code idle s).ctrs = s.ctrs := by
  unfold wakeSource startWake freshByte modPm
  dsimp only
  (repeat' split) <;> rfl

theorem tellOwner_ctrs (r : Release) (s : State) : (tellOwner r s).ctrs = s.ctrs := by
  unfold tellOwner
  split
  · rfl
  · rw [wakeSource_ctrs]; rfl

theorem tellOwners_ctrs (l : List Release) (s : State) : (forEach tellOwner l s).ctrs = s.ctrs := by
  induction l generalizing s with
  | nil => rfl
  | cons r t ih => exact (ih _).trans (tellOwner_ctrs r s)

/-- The counter store after one update. -/
def updatedCtrs (c v : Nat) (ws : List Wait) (k : Counters) : Counters :=
  ⟨tabPut c (BitVec.ofNat 64 (settle c v ws).2.2) k.vals, k.broken, (settle c v ws).2.1, k.updates + 1⟩

theorem ctrUpdate_ctrs (c v : Nat) (ws : List Wait) (s : State) : (ctrUpdate c v ws s).ctrs = updatedCtrs c v ws s.ctrs := by
  unfold ctrUpdate whenS
  dsimp only
  split
  · rw [wakeSource_ctrs, tellOwners_ctrs]; rfl
  · rw [tellOwners_ctrs]; rfl

/-- What an update does after it has changed the store: owners are told and Hold may end. -/
theorem ctrUpdate_after {cf ff : Bool} (c v : Nat) (ws : List Wait) (s : State) :
    Kept cf ff { s with ctrs := updatedCtrs c v ws s.ctrs } (ctrUpdate c v ws s) := by
  unfold ctrUpdate
  dsimp only
  apply whenS_kept
  · intro t ht; exact wakeSource_kept _ _ _ ht
  · exact forEach_kept _ _ _ (fun r t ht => tellOwner_kept _ _ ht) (Kept.refl _ _ _)

/-- One update keeps everything, and leaves the store settled (09 R209). -/
theorem ctrUpdate_kept {cf ff : Bool} {s0 : State} (c v : Nat) (ws : List Wait) (s : State) (h0 : Kept cf ff s0 s) (hv : v < 2 ^ 64)
    (ho : others c ws = others c s.ctrs.waits) : Kept cf ff s0 (ctrUpdate c v ws s) :=
  have h1 : Settled s → Settled { s with ctrs := updatedCtrs c v ws s.ctrs } := fun q => (settled_iff _).2 fun c' =>
    settledAt_update s.ctrs c v ws hv ho _ _ c' fun _ => (settled_iff s).1 q c'
  (h0.trans (show Kept cf ff s { s with ctrs := updatedCtrs c v ws s.ctrs } from
    ⟨rfl, fun _ => rfl, fun _ => ⟨rfl, rfl⟩, id, id, h1⟩)).trans (ctrUpdate_after c v ws s)

theorem signalPhys_kept {cf ff : Bool} {s0 : State} (c n : Nat) (s : State) (h0 : Kept cf ff s0 s) : Kept cf ff s0 (signalPhys c n s) := by
  unfold signalPhys
  split
  · exact h0
  · have h1 := ctrUpdate_kept c (min ((ctrVal s c).toNat + n) (2 ^ 64 - 1)) s.ctrs.waits s h0
      (Nat.lt_of_le_of_lt (Nat.min_le_right _ _) (by decide)) rfl
    dsimp only
    split
    · exact whenS_kept _ _ _ (fun t ht => modFn_kept _ _ _ ht) h1
    · exact h1

theorem signalCtr_kept {cf ff : Bool} {s0 : State} (tenant : Nat) (k : Nat) (n : Nat) (s : State) (h0 : Kept cf ff s0 s) :
    Kept cf ff s0 (signalCtr tenant k n s) := by
  unfold signalCtr
  repeat' first
    | with_reducible assumption
    | with_reducible apply signalPhys_kept
    | split

theorem arriveWait_kept {cf ff : Bool} {s0 : State} (w : Wait) (s : State) (h0 : Kept cf ff s0 s) : Kept cf ff s0 (arriveWait w s) := by
  unfold arriveWait
  exact ctrUpdate_kept _ _ _ _ h0 (BitVec.isLt _) (by simp [others])

/-- Settlings of the counters `l` over a store in which every other counter is settled. -/
theorem settleEach_kept {cf ff : Bool} {s0 : State} (l : List Nat) (s : State) (h : Kept cf ff s0 { s with ctrs := s0.ctrs })
    (hs : Settled s0 → ∀ c, c ∉ l → SettledAt c s.ctrs) :
    Kept cf ff s0 (forEach (fun c t => ctrUpdate c (ctrVal t c).toNat t.ctrs.waits t) l s) := by
  induction l generalizing s with
  | nil => exact ⟨h.pending, h.fuses, h.clock, h.gen, h.mem, fun q => (settled_iff s).2 fun c => hs q c (by simp)⟩
  | cons c t ih =>
    have a := ctrUpdate_after (cf := cf) (ff := ff) c (ctrVal s c).toNat s.ctrs.waits s
    refine ih (ctrUpdate c (ctrVal s c).toNat s.ctrs.waits s) ⟨a.pending.trans h.pending, fun x => (a.fuses x).trans (h.fuses x),
      fun x => ⟨(a.clock x).1.trans (h.clock x).1, (a.clock x).2.trans (h.clock x).2⟩, fun x => a.gen (h.gen x), fun x => a.mem (h.mem x), id⟩ fun q c' n => ?_
    rw [ctrUpdate_ctrs]
    exact settledAt_update s.ctrs c _ _ (BitVec.isLt _) rfl _ _ c' fun e => hs q c' fun m => (List.mem_cons.1 m).elim e n

theorem withdrawAll_kept {cf ff : Bool} {s0 : State} (p : Wait → Bool) (s : State) (h0 : Kept cf ff s0 s) : Kept cf ff s0 (withdrawAll p s) := by
  refine h0.trans (settleEach_kept _ _ (Kept.refl _ _ _) fun q c n => settledAt_filter s.ctrs (fun w hw hp e => n ?_) ((settled_iff s).1 q c))
  exact List.mem_map.2 ⟨w, List.mem_filter.2 ⟨hw, hp⟩, e⟩

theorem withdraw_kept {cf ff : Bool} {s0 : State} (o : WaitOwner) (s : State) (h0 : Kept cf ff s0 s) :
    Kept cf ff s0 (withdraw o s) := by
  unfold withdraw
  repeat' first
    | with_reducible assumption
    | with_reducible apply withdrawAll_kept
    | intro _
    | dsimp only

/-- Marks of broken counters take no part in `Kept`. -/
theorem Kept.broken {cf ff : Bool} {s0 s : State} (l : List Nat) (h : Kept cf ff s0 s) : Kept cf ff s0 { s with ctrs := { s.ctrs with broken := l } } :=
  h.trans ⟨rfl, fun _ => rfl, fun _ => ⟨rfl, rfl⟩, id, id, id⟩

theorem pokePhys_kept {cf ff : Bool} {s0 : State} (c v : Nat) (s : State) (h0 : Kept cf ff s0 s) : Kept cf ff s0 (pokePhys c v s) := by
  unfold pokePhys
  exact ctrUpdate_kept _ _ _ _ (Kept.broken _ h0) (Nat.mod_lt _ (by decide)) rfl

end Sys2Proof.Machine
end

