-- ==== Sys2Proof/Laws/KeptMem.lean ====
section
/-! SUPPORT. `Kept` for the operations of Machine/Mem.lean. -/

namespace Sys2Proof.Machine

/-- Folds that carry a mover beside a result. -/
theorem Kept.foldlA {α β : Type} {cf ff : Bool} {s0 : State} (f : β × Acc → α → β × Acc) (l : List α) (b : β × Acc) (h : Kept cf ff s0 b.2.s)
    (hf : ∀ b a, Kept cf ff s0 b.2.s → Kept cf ff s0 (f b a).2.s) : Kept cf ff s0 (l.foldl f b).2.s := by
  induction l generalizing b with
  | nil => exact h
  | cons a t ih => exact ih (f b a) (hf b a h)

theorem Kept.foldlS {α : Type} {cf ff : Bool} {s0 : State} (f : Acc → α → Acc) (l : List α) (b : Acc) (h : Kept cf ff s0 b.s)
    (hf : ∀ b a, Kept cf ff s0 b.s → Kept cf ff s0 (f b a).s) : Kept cf ff s0 (l.foldl f b).s := by
  induction l generalizing b with
  | nil => exact h
  | cons a t ih => exact ih (f b a) (hf b a h)

theorem Kept.sndA {α : Type} {cf ff : Bool} {s0 : State} {a : α} {b : Acc} {p : α × Acc} (e : p = (a, b)) (h : Kept cf ff s0 p.2.s) : Kept cf ff s0 b.s := by
  subst e; exact h

theorem Kept.sndB {α β : Type} {cf ff : Bool} {s0 : State} {a : α} {c : β} {b : Acc} {p : α × (β × Acc)} (e : p = (a, c, b)) (h : Kept cf ff s0 p.2.2.s) :
    Kept cf ff s0 b.s := by
  subst e; exact h

theorem tabWf_putBytes (k : Nat) (l : List Byte) {m : Mem} (h : tabWf m = true) : tabWf (putBytes k l m) = true := by
  induction l generalizing k m with
  | nil => exact h
  | cons b t ih => exact ih (k + 1) (tabWf_tabPut k b h)

theorem zWf_putBytesZ (k : Nat) (l : List Byte) {m : Mem} (h : zWf m = true) : zWf (putBytesZ k l m) = true := by
  induction l generalizing k m with
  | nil => exact h
  | cons b t ih => exact ih (k + 1) (zWf_putZ k b h)

theorem Memories.wf_iff (m : Memories) : m.wf = true ↔ tabWf m.host = true ∧ tabWf m.far = true ∧ tabWf m.stack = true ∧
    tabWf m.aon = true ∧ zWf m.basin = true ∧ zWf m.scratch = true ∧ zWf m.sdata = true := by
  simp [Memories.wf, and_assoc]

theorem hostStore_kept {cf ff : Bool} {s0 : State} (addr : Nat) (bs : List Byte) (s : State) (h0 : Kept cf ff s0 s) : Kept cf ff s0 (hostStore addr bs s) := by
  unfold hostStore
  refine Kept.mkMem h0 rfl fun q => ?_
  rw [Memories.wf_iff] at *
  exact ⟨tabWf_putBytes _ _ q.1, q.2⟩

theorem hostWrite_kept {cf ff : Bool} {s0 : State} (fn : Nat) (addr : Nat) (bs : List Byte) (s : State) (h0 : Kept cf ff s0 s) :
    Kept cf ff s0 (hostWrite fn addr bs s) := by
  unfold hostWrite
  repeat' first
    | with_reducible assumption
    | with_reducible apply emit_kept
    | with_reducible apply hostStore_kept
    | dsimp only

theorem hostFetch_kept {cf ff : Bool} {s0 : State} (fn : Nat) (addr : Nat) (len : Nat) (s : State) (h0 : Kept cf ff s0 s) :
    Kept cf ff s0 (hostFetch fn addr len s) := by
  unfold hostFetch
  repeat' first
    | with_reducible assumption
    | with_reducible apply emit_kept
    | dsimp only

theorem openRow_kept {cf ff : Bool} {s0 : State} (blk : Nat) (s : State) (h0 : Kept cf ff s0 s) :
    Kept cf ff s0 (openRow blk s) := by
  unfold openRow
  repeat' first
    | with_reducible assumption
    | with_reducible apply modStk_kept
    | intro _
    | dsimp only
    | (with_reducible refine Kept.mk' ?_ rfl
       first
       | with_reducible assumption
       | with_reducible apply modStk_kept)

theorem countCe_kept {cf ff : Bool} {s0 : State} (blk : Nat) (sym : Nat) (s : State) (h0 : Kept cf ff s0 s) :
    Kept cf ff s0 (countCe blk sym s) := by
  unfold countCe
  repeat' first
    | with_reducible assumption
    | with_reducible apply modStk_kept
    | with_reducible apply whenS_kept
    | with_reducible apply setCause_kept
    | with_reducible apply henuaEvent_kept
    | split
    | intro _

theorem countUe_kept {cf ff : Bool} {s0 : State} (blk : Nat) (repaired : Bool) (s : State) (h0 : Kept cf ff s0 s) :
    Kept cf ff s0 (countUe blk repaired s) := by
  unfold countUe
  repeat' first
    | with_reducible assumption
    | with_reducible apply modStk_kept
    | with_reducible apply whenS_kept
    | with_reducible apply henuaEvent_kept

theorem countPoison_kept {cf ff : Bool} {s0 : State} (blk : Nat) (s : State) (h0 : Kept cf ff s0 s) :
    Kept cf ff s0 (countPoison blk s) := by
  unfold countPoison
  repeat' first
    | with_reducible assumption
    | with_reducible apply modStk_kept

theorem storeBlk_kept {cf ff : Bool} {s0 : State} (blk : Nat) (data : List Byte) (poison : Bool) (source : Nat) (s : State) (h0 : Kept cf ff s0 s) :
    Kept cf ff s0 (storeBlk blk data poison source s) := by
  unfold storeBlk
  refine modStk_kept _ _ _ (openRow_kept _ _ (Kept.mkMem h0 rfl fun q => ?_))
  rw [Memories.wf_iff] at *
  exact ⟨q.1, q.2.1, tabWf_putBytes _ _ q.2.2.1, q.2.2.2⟩

theorem mergeDrop_kept {cf ff : Bool} {s0 : State} (blk : Nat) (s : State) (h0 : Kept cf ff s0 s) :
    Kept cf ff s0 (mergeDrop blk s) := by
  unfold mergeDrop
  repeat' first
    | with_reducible assumption
    | with_reducible apply modStk_kept

theorem poisonSharedPage_kept {cf ff : Bool} {s0 : State} (off : Nat) (s : State) (h0 : Kept cf ff s0 s) :
    Kept cf ff s0 (poisonSharedPage off s) := by
  unfold poisonSharedPage
  repeat' first
    | with_reducible assumption
    | with_reducible apply setCause_kept
    | with_reducible apply henuaEvent_kept
    | split
    | dsimp only
    | (with_reducible refine Kept.mk' ?_ rfl; with_reducible assumption)

theorem foundUe_kept {cf ff : Bool} {s0 : State} (blk : Nat) (data : List Byte) (s : State) (h0 : Kept cf ff s0 s) :
    Kept cf ff s0 (foundUe blk data s).2 := by
  unfold foundUe
  repeat' first
    | with_reducible assumption
    | with_reducible apply countUe_kept
    | with_reducible apply poisonSharedPage_kept
    | with_reducible apply countCe_kept
    | with_reducible apply storeBlk_kept
    | with_reducible apply openRow_kept
    | split
    | dsimp only
    | with_reducible refine Kept.snd (by assumption) ?_
    | with_reducible refine Kept.sndA (by assumption) ?_
    | with_reducible refine Kept.sndB (by assumption) ?_

theorem decodeBlk_kept {cf ff : Bool} {s0 : State} (blk : Nat) (sB : State) (h0 : Kept cf ff s0 sB) :
    Kept cf ff s0 (decodeBlk blk sB).2 := by
  unfold decodeBlk
  repeat' first
    | with_reducible assumption
    | with_reducible apply openRow_kept
    | with_reducible apply countCe_kept
    | with_reducible apply countPoison_kept
    | with_reducible apply foundUe_kept
    | split
    | dsimp only
    | with_reducible refine Kept.snd (by assumption) ?_
    | with_reducible refine Kept.sndA (by assumption) ?_
    | with_reducible refine Kept.sndB (by assumption) ?_

theorem modifyBlk_kept {cf ff : Bool} {s0 : State} (blk : Nat) (data : List Byte) (mask : Nat) (poison : Bool) (source : Nat) (s : State) (h0 : Kept cf ff s0 s) :
    Kept cf ff s0 (modifyBlk blk data mask poison source s) := by
  unfold modifyBlk
  repeat' first
    | with_reducible assumption
    | with_reducible apply decodeBlk_kept
    | with_reducible apply storeBlk_kept
    | split
    | dsimp only

theorem flushEntry_kept {cf ff : Bool} {s0 : State} (e : MergeEntry) (s : State) (h0 : Kept cf ff s0 s) :
    Kept cf ff s0 (flushEntry e s) := by
  unfold flushEntry
  repeat' first
    | with_reducible assumption
    | with_reducible apply mergeDrop_kept
    | with_reducible apply storeBlk_kept
    | with_reducible apply modifyBlk_kept
    | with_reducible apply modStk_kept
    | split
    | intro _
    | dsimp only
    | (with_reducible refine Kept.mk' ?_ rfl
       first
       | with_reducible assumption
       | with_reducible apply mergeDrop_kept
       | with_reducible apply storeBlk_kept
       | with_reducible apply modifyBlk_kept
       | with_reducible apply modStk_kept
       | split)

theorem flushBlk_kept {cf ff : Bool} {s0 : State} (blk : Nat) (s : State) (h0 : Kept cf ff s0 s) :
    Kept cf ff s0 (flushBlk blk s) := by
  unfold flushBlk
  repeat' first
    | with_reducible assumption
    | with_reducible apply flushEntry_kept
    | split

theorem cancelBacks_kept {cf ff : Bool} {s0 : State} (blk : Nat) (s : State) (h0 : Kept cf ff s0 s) :
    Kept cf ff s0 (cancelBacks blk s) := by
  unfold cancelBacks
  repeat' first
    | with_reducible assumption
    | with_reducible apply modStk_kept
    | intro _
    | dsimp only
    | (with_reducible refine Kept.mk' ?_ rfl
       first
       | with_reducible assumption
       | with_reducible apply modStk_kept)

theorem mergeWrite_kept {cf ff : Bool} {s0 : State} (blk : Nat) (data : List Byte) (mask : Nat) (source : Nat) (sB : State) (h0 : Kept cf ff s0 sB) :
    Kept cf ff s0 (mergeWrite blk data mask source sB) := by
  unfold mergeWrite
  repeat' first
    | with_reducible assumption
    | with_reducible apply cancelBacks_kept
    | with_reducible apply flushEntry_kept
    | with_reducible apply modStk_kept
    | split
    | intro _
    | dsimp only
    | with_reducible refine Kept.snd (by assumption) ?_
    | with_reducible refine Kept.sndA (by assumption) ?_
    | with_reducible refine Kept.sndB (by assumption) ?_
    | (with_reducible refine Kept.mk' ?_ rfl
       first
       | with_reducible assumption
       | with_reducible apply cancelBacks_kept
       | with_reducible apply flushEntry_kept
       | with_reducible apply modStk_kept
       | split
       | with_reducible refine Kept.snd (by assumption) ?_
       | with_reducible refine Kept.sndA (by assumption) ?_
       | with_reducible refine Kept.sndB (by assumption) ?_)

theorem readStack_kept {cf ff : Bool} {s0 : State} (blk : Nat) (s : State) (h0 : Kept cf ff s0 s) :
    Kept cf ff s0 (readStack blk s).2 := by
  unfold readStack
  repeat' first
    | with_reducible assumption
    | with_reducible apply decodeBlk_kept
    | with_reducible apply flushBlk_kept
    | split

theorem writeStack_kept {cf ff : Bool} {s0 : State} (blk : Nat) (data : List Byte) (mask : Nat) (poison : Bool) (source : Nat) (s : State) (h0 : Kept cf ff s0 s) :
    Kept cf ff s0 (writeStack blk data mask poison source s) := by
  unfold writeStack
  repeat' first
    | with_reducible assumption
    | with_reducible apply storeBlk_kept
    | with_reducible apply mergeDrop_kept
    | with_reducible apply modifyBlk_kept
    | with_reducible apply flushBlk_kept
    | with_reducible apply mergeWrite_kept
    | split
    | dsimp only

theorem furrowRead_kept {cf ff : Bool} {s0 : State} (blk : Nat) (s : State) (h0 : Kept cf ff s0 s) :
    Kept cf ff s0 (furrowRead blk s).2 := by
  unfold furrowRead
  repeat' first
    | with_reducible assumption
    | with_reducible apply flushBlk_kept
    | with_reducible apply readStack_kept
    | with_reducible apply storeBlk_kept
    | split
    | dsimp only

theorem zMem_wf {s : State} (q : s.mem.wf = true) (space : Nat) : zWf (zMem s space).1 = true := by
  rw [Memories.wf_iff] at q
  unfold zMem
  split
  · exact q.2.2.2.2.1
  · exact q.2.2.2.2.2.1
  · exact q.2.2.2.2.2.2

theorem setZ_kept {cf ff : Bool} {s0 : State} (space : Nat) (m : Mem) (p : List Nat) (s : State) (h0 : Kept cf ff s0 s)
    (hm : s.mem.wf = true → zWf m = true) : Kept cf ff s0 (setZ space m p s) := by
  unfold setZ
  split <;> refine Kept.mkMem h0 rfl fun q => ?_ <;> have w := hm q <;> rw [Memories.wf_iff] at *
  · exact ⟨q.1, q.2.1, q.2.2.1, q.2.2.2.1, w, q.2.2.2.2.2⟩
  · exact ⟨q.1, q.2.1, q.2.2.1, q.2.2.2.1, q.2.2.2.2.1, w, q.2.2.2.2.2.2⟩
  · exact ⟨q.1, q.2.1, q.2.2.1, q.2.2.2.1, q.2.2.2.2.1, q.2.2.2.2.2.1, w⟩

theorem readBlk_kept {cf ff : Bool} {s0 : State} (source : Nat) (space : Nat) (inst : Nat) (off : Nat) (s : State) (h0 : Kept cf ff s0 s) :
    Kept cf ff s0 (readBlk source space inst off s).2 := by
  unfold readBlk
  repeat' first
    | with_reducible assumption
    | with_reducible apply furrowRead_kept
    | with_reducible apply readStack_kept
    | split
    | intro _
    | dsimp only
    | with_reducible refine Kept.snd (by assumption) ?_
    | with_reducible refine Kept.sndA (by assumption) ?_
    | with_reducible refine Kept.sndB (by assumption) ?_
    | (with_reducible refine Kept.mk' ?_ rfl
       first
       | with_reducible assumption
       | with_reducible apply furrowRead_kept
       | with_reducible apply readStack_kept
       | split
       | with_reducible refine Kept.snd (by assumption) ?_
       | with_reducible refine Kept.sndA (by assumption) ?_
       | with_reducible refine Kept.sndB (by assumption) ?_)

theorem farWrite_kept {cf ff : Bool} {s0 : State} (off : Nat) (bs : List Byte) (p : List Nat) (s : State) (h0 : Kept cf ff s0 s) :
    Kept cf ff s0 (farWrite off bs p s) := by
  unfold farWrite
  refine Kept.mkMem h0 rfl fun q => ?_
  rw [Memories.wf_iff] at *
  exact ⟨q.1, tabWf_putBytes _ _ q.2.1, q.2.2⟩

theorem clearFar_kept {cf ff : Bool} {s0 : State} (s : State) (h0 : Kept cf ff s0 s) : Kept cf ff s0 (clearFar s) := by
  unfold clearFar
  refine Kept.mkMem h0 rfl fun q => ?_
  rw [Memories.wf_iff] at *
  exact ⟨q.1, rfl, q.2.2⟩

theorem clearTileMem_kept {cf ff : Bool} {s0 : State} (pb ps pd : List Nat) (s : State) (h0 : Kept cf ff s0 s) : Kept cf ff s0 (clearTileMem pb ps pd s) := by
  unfold clearTileMem
  refine Kept.mkMem h0 rfl fun q => ?_
  rw [Memories.wf_iff] at *
  exact ⟨q.1, q.2.1, q.2.2.1, q.2.2.2.1, rfl, rfl, rfl⟩

theorem hostBlk_kept {cf ff : Bool} {s0 : State} (fn : Nat) (off : Nat) (data : List Byte) (mask : Nat) (poison : Bool) (s : State) (h0 : Kept cf ff s0 s) :
    Kept cf ff s0 (hostBlk fn off data mask poison s) := by
  unfold hostBlk
  repeat' first
    | with_reducible assumption
    | with_reducible apply hostWrite_kept
    | with_reducible apply emit_kept
    | split
    | dsimp only

theorem writeBlk_kept {cf ff : Bool} {s0 : State} (fn space inst off : Nat) (data : List Byte) (mask : Nat) (poison : Bool) (source : Nat) (s : State)
    (h0 : Kept cf ff s0 s) : Kept cf ff s0 (writeBlk fn space inst off data mask poison source s) := by
  unfold writeBlk
  split
  · exact hostBlk_kept _ _ _ _ _ _ h0
  · split
    · exact h0
    · exact farWrite_kept _ _ _ _ h0
  · split
    · exact h0
    · exact writeStack_kept _ _ _ _ _ _ h0
  · refine setZ_kept _ _ _ _ h0 fun q => ?_
    exact zWf_putBytesZ _ _ (zMem_wf q space)

theorem Acc.start_kept {cf ff : Bool} {s0 : State} (source : Nat) (s : State) (h0 : Kept cf ff s0 s) :
    Kept cf ff s0 (Acc.start source s).s := by
  unfold Acc.start
  repeat' first
    | with_reducible assumption
    | dsimp only

theorem Acc.on_kept {cf ff : Bool} {s0 : State} (fn : Nat) (source : Nat) (s : State) (h0 : Kept cf ff s0 s) :
    Kept cf ff s0 (Acc.on fn source s).s := by
  unfold Acc.on
  repeat' first
    | with_reducible assumption
    | dsimp only

theorem Acc.held_kept {cf ff : Bool} {s0 : State} (t : Nat) (source : Nat) (s : State) (h0 : Kept cf ff s0 s) :
    Kept cf ff s0 (Acc.held t source s).s := by
  unfold Acc.held
  repeat' first
    | with_reducible assumption
    | dsimp only

theorem freeBlock_kept {cf ff : Bool} {s0 : State} (s : State) (h0 : Kept cf ff s0 s) :
    Kept cf ff s0 (freeBlock s).2 := by
  unfold freeBlock
  repeat' first
    | with_reducible assumption
    | intro _
    | dsimp only
    | (with_reducible refine Kept.mk' ?_ rfl; with_reducible assumption)

theorem readRaced_kept {cf ff : Bool} {s0 : State} (source : Nat) (space : Nat) (inst : Nat) (off : Nat) (s : State) (h0 : Kept cf ff s0 s) :
    Kept cf ff s0 (readRaced source space inst off s).2 := by
  unfold readRaced
  repeat' first
    | with_reducible assumption
    | with_reducible apply readBlk_kept
    | with_reducible apply freeBlock_kept
    | split
    | dsimp only
    | (with_reducible refine Kept.mk' ?_ rfl
       first
       | with_reducible assumption
       | with_reducible apply readBlk_kept
       | with_reducible apply freeBlock_kept
       | split)

theorem addOut_kept {cf ff : Bool} {s0 : State} (st : Nat) (c : Bool) (a : Acc) (h0 : Kept cf ff s0 a.s) :
    Kept cf ff s0 (addOut st c a).s := by
  unfold addOut
  repeat' first
    | with_reducible assumption
    | split

theorem rdBlk_kept {cf ff : Bool} {s0 : State} (space : Nat) (inst : Nat) (off : Nat) (a : Acc) (h0 : Kept cf ff s0 a.s) :
    Kept cf ff s0 (rdBlk space inst off a).2.s := by
  unfold rdBlk
  repeat' first
    | with_reducible assumption
    | with_reducible apply readRaced_kept
    | with_reducible apply hostFetch_kept
    | with_reducible apply addOut_kept
    | split
    | dsimp only
    | with_reducible refine Kept.snd (by assumption) ?_
    | with_reducible refine Kept.sndA (by assumption) ?_
    | with_reducible refine Kept.sndB (by assumption) ?_
    | (with_reducible refine Kept.mk' ?_ rfl
       first
       | with_reducible assumption
       | with_reducible apply readRaced_kept
       | with_reducible apply hostFetch_kept
       | with_reducible apply addOut_kept
       | split
       | with_reducible refine Kept.snd (by assumption) ?_
       | with_reducible refine Kept.sndA (by assumption) ?_
       | with_reducible refine Kept.sndB (by assumption) ?_)

theorem putBlk_kept {cf ff : Bool} {s0 : State} (space : Nat) (inst : Nat) (off : Nat) (data : List Byte) (mask : Nat) (poison : Bool) (a : Acc) (h0 : Kept cf ff s0 a.s) :
    Kept cf ff s0 (putBlk space inst off data mask poison a).s := by
  unfold putBlk
  repeat' first
    | with_reducible assumption
    | with_reducible apply addOut_kept
    | with_reducible apply writeBlk_kept
    | dsimp only
    | (with_reducible refine Kept.mk' ?_ rfl
       first
       | with_reducible assumption
       | with_reducible apply addOut_kept
       | with_reducible apply writeBlk_kept)

theorem Acc.stop_kept {cf ff : Bool} {s0 : State} (st : Nat) (a : Acc) (h0 : Kept cf ff s0 a.s) :
    Kept cf ff s0 (Acc.stop st a).s := by
  unfold Acc.stop
  repeat' first
    | with_reducible assumption
    | with_reducible apply addOut_kept
    | dsimp only
    | (with_reducible refine Kept.mk' ?_ rfl
       first
       | with_reducible assumption
       | with_reducible apply addOut_kept)

theorem wrBlk_kept {cf ff : Bool} {s0 : State} (space : Nat) (inst : Nat) (off : Nat) (data : List Byte) (mask : Nat) (poison : Bool) (a : Acc) (h0 : Kept cf ff s0 a.s) :
    Kept cf ff s0 (wrBlk space inst off data mask poison a).s := by
  unfold wrBlk
  repeat' first
    | with_reducible assumption
    | with_reducible apply Acc.stop_kept
    | with_reducible apply addOut_kept
    | with_reducible apply rdBlk_kept
    | with_reducible apply putBlk_kept
    | split
    | dsimp only
    | (with_reducible refine Kept.mk' ?_ rfl
       first
       | with_reducible assumption
       | with_reducible apply Acc.stop_kept
       | with_reducible apply addOut_kept
       | with_reducible apply rdBlk_kept
       | with_reducible apply putBlk_kept
       | split)

theorem rdBytesGo_kept {cf ff : Bool} {s0 : State} (space inst fuel off len : Nat) (a : Acc) (h0 : Kept cf ff s0 a.s) :
    Kept cf ff s0 (rdBytesGo space inst fuel off len a).2.s := by
  induction fuel generalizing off len a with
  | zero => exact h0
  | succ n ih =>
    unfold rdBytesGo
    split
    · exact h0
    · exact ih _ _ _ (rdBlk_kept _ _ _ _ h0)

theorem rdBytes_kept {cf ff : Bool} {s0 : State} (space : Nat) (inst : Nat) (off : Nat) (len : Nat) (a : Acc) (h0 : Kept cf ff s0 a.s) :
    Kept cf ff s0 (rdBytes space inst off len a).2.s := by
  unfold rdBytes
  repeat' first
    | with_reducible assumption
    | with_reducible apply rdBytesGo_kept

theorem wrBytesGo_kept {cf ff : Bool} {s0 : State} (space inst fuel off : Nat) (bs : List Byte) (p : Bool) (a : Acc) (h0 : Kept cf ff s0 a.s) :
    Kept cf ff s0 (wrBytesGo space inst fuel off bs p a).s := by
  induction fuel generalizing off bs a with
  | zero => exact h0
  | succ n ih =>
    unfold wrBytesGo
    split
    · exact h0
    · exact ih _ _ _ (wrBlk_kept _ _ _ _ _ _ _ h0)

theorem wrBytes_kept {cf ff : Bool} {s0 : State} (space : Nat) (inst : Nat) (off : Nat) (bs : List Byte) (poison : Bool) (a : Acc) (h0 : Kept cf ff s0 a.s) :
    Kept cf ff s0 (wrBytes space inst off bs poison a).s := by
  unfold wrBytes
  repeat' first
    | with_reducible assumption
    | with_reducible apply wrBytesGo_kept

theorem copyRunGo_kept {cf ff : Bool} {s0 : State} (sp si dp di fuel src dst len : Nat) (a : Acc) (h0 : Kept cf ff s0 a.s) :
    Kept cf ff s0 (copyRunGo sp si dp di fuel src dst len a).s := by
  induction fuel generalizing src dst len a with
  | zero => exact h0
  | succ n ih =>
    unfold copyRunGo
    split
    · exact h0
    · exact ih _ _ _ _ (wrBytes_kept _ _ _ _ _ _ (rdBytes_kept _ _ _ _ _ h0))

theorem copyRun_kept {cf ff : Bool} {s0 : State} (sp : Nat) (si : Nat) (src : Nat) (dp : Nat) (di : Nat) (dst : Nat) (len : Nat) (a : Acc) (h0 : Kept cf ff s0 a.s) :
    Kept cf ff s0 (copyRun sp si src dp di dst len a).s := by
  unfold copyRun
  repeat' first
    | with_reducible assumption
    | with_reducible apply copyRunGo_kept

end Sys2Proof.Machine
end

