-- ==== Sys2Proof/Laws/KeptOperands.lean ====
section
/-! SUPPORT. `Kept` for the operations of Machine/Operands.lean. -/

namespace Sys2Proof.Machine

theorem rdEl_kept {cf ff : Bool} {s0 : State} (d : Desc) (n : Nat) (a : Acc) (h0 : Kept cf ff s0 a.s) :
    Kept cf ff s0 (rdEl d n a).2.s := by
  unfold rdEl
  repeat' first
    | with_reducible assumption
    | with_reducible apply rdBytes_kept

theorem rdEls_kept {cf ff : Bool} {s0 : State} (d : Desc) (x0 : Nat) (x1 : Nat) (x2 : Acc) (h0 : Kept cf ff s0 x2.s) :
    Kept cf ff s0 (rdEls d x0 x1 x2).2.s := by
  fun_induction rdEls d x0 x1 x2
  all_goals try subst_vars
  all_goals
    repeat' first
      | with_reducible assumption
      | with_reducible apply rdEl_kept
      | split
      | dsimp only
      | with_reducible refine Kept.snd (by assumption) ?_
      | with_reducible refine Kept.sndA (by assumption) ?_
      | with_reducible refine Kept.sndB (by assumption) ?_
      | with_reducible apply_assumption

theorem lineVals_kept {cf ff : Bool} {s0 : State} (f : Nat → Acc → (Nat × Bool) × Acc) (x0 : List (Option Nat)) (x1 : Acc) (h0 : ∀ (y0 : Nat) (y1 : Acc), Kept cf ff s0 y1.s → Kept cf ff s0 (f y0 y1).2.s) (h1 : Kept cf ff s0 x1.s) :
    Kept cf ff s0 (lineVals f x0 x1).2.s := by
  fun_induction lineVals f x0 x1
  all_goals try subst_vars
  all_goals
    repeat' first
      | with_reducible assumption
      | with_reducible apply h0
      | split
      | dsimp only
      | with_reducible refine Kept.snd (by assumption) ?_
      | with_reducible refine Kept.sndA (by assumption) ?_
      | with_reducible refine Kept.sndB (by assumption) ?_
      | with_reducible apply_assumption

theorem slotVals_kept {cf ff : Bool} {s0 : State} (d : Desc) (f : SlotFn) (l : List (Option Nat)) (a : Acc)
    (h0 : ∀ (n : Nat) (b : Acc), Kept cf ff s0 b.s → Kept cf ff s0 (f n b).2.s) (h1 : Kept cf ff s0 a.s) : Kept cf ff s0 (slotVals d f l a).2.s := by
  induction l generalizing a with
  | nil => exact h1
  | cons o t ih =>
    cases o with
    | none => exact ih _ h1
    | some n =>
      unfold slotVals
      dsimp only
      split
      · exact ih _ (h0 _ _ h1)
      · refine ih _ ?_
        split
        · exact rdEl_kept _ _ _ (h0 _ _ h1)
        · exact h0 _ _ h1

theorem wrPiece_kept {cf ff : Bool} {s0 : State} (d : Desc) (f : SlotFn) (l : Line) (a : Acc) (h0 : ∀ (y0 : Nat) (y1 : Acc), Kept cf ff s0 y1.s → Kept cf ff s0 (f y0 y1).2.s) (h1 : Kept cf ff s0 a.s) :
    Kept cf ff s0 (wrPiece d f l a).s := by
  unfold wrPiece
  repeat' first
    | with_reducible assumption
    | with_reducible apply h0
    | with_reducible apply slotVals_kept
    | with_reducible apply wrBlk_kept
    | split
    | intro _
    | dsimp only

theorem wrPieces_kept {cf ff : Bool} {s0 : State} (d : Desc) (f : SlotFn) (x0 : List Line) (x1 : Acc) (h0 : ∀ (y0 : Nat) (y1 : Acc), Kept cf ff s0 y1.s → Kept cf ff s0 (f y0 y1).2.s) (h1 : Kept cf ff s0 x1.s) :
    Kept cf ff s0 (wrPieces d f x0 x1).s := by
  fun_induction wrPieces d f x0 x1
  all_goals try subst_vars
  all_goals
    repeat' first
      | with_reducible assumption
      | with_reducible apply h0
      | with_reducible apply wrPiece_kept
      | split
      | dsimp only
      | with_reducible refine Kept.snd (by assumption) ?_
      | with_reducible refine Kept.sndA (by assumption) ?_
      | with_reducible refine Kept.sndB (by assumption) ?_
      | with_reducible apply_assumption

theorem wrEl_kept {cf ff : Bool} {s0 : State} (d : Desc) (n : Nat) (v : Nat) (poison : Bool) (a : Acc) (h0 : Kept cf ff s0 a.s) :
    Kept cf ff s0 (wrEl d n v poison a).s := by
  unfold wrEl
  repeat' first
    | with_reducible assumption
    | with_reducible apply wrPiece_kept
    | split
    | intro _
    | dsimp only

theorem wrLineGo_kept {cf ff : Bool} {s0 : State} (d : Desc) (per : Nat) (x0 : Nat) (x1 : Nat) (x2 : List (Nat × Bool)) (x3 : Acc) (h0 : Kept cf ff s0 x3.s) :
    Kept cf ff s0 (wrLineGo d per x0 x1 x2 x3).s := by
  fun_induction wrLineGo d per x0 x1 x2 x3
  all_goals try subst_vars
  all_goals
    repeat' first
      | with_reducible assumption
      | with_reducible apply wrBlk_kept
      | split
      | dsimp only
      | with_reducible refine Kept.snd (by assumption) ?_
      | with_reducible refine Kept.sndA (by assumption) ?_
      | with_reducible refine Kept.sndB (by assumption) ?_
      | with_reducible apply_assumption

theorem wrLines_kept {cf ff : Bool} {s0 : State} (d : Desc) (f : Nat → Acc → (Nat × Bool) × Acc) (x0 : List Line) (x1 : Acc) (h0 : ∀ (y0 : Nat) (y1 : Acc), Kept cf ff s0 y1.s → Kept cf ff s0 (f y0 y1).2.s) (h1 : Kept cf ff s0 x1.s) :
    Kept cf ff s0 (wrLines d f x0 x1).s := by
  fun_induction wrLines d f x0 x1
  all_goals try subst_vars
  all_goals
    repeat' first
      | with_reducible assumption
      | with_reducible apply h0
      | with_reducible apply lineVals_kept
      | with_reducible apply wrLineGo_kept
      | split
      | dsimp only
      | with_reducible refine Kept.snd (by assumption) ?_
      | with_reducible refine Kept.sndA (by assumption) ?_
      | with_reducible refine Kept.sndB (by assumption) ?_
      | with_reducible apply_assumption

theorem wrTensor_kept {cf ff : Bool} {s0 : State} (d : Desc) (f : Nat → Acc → (Nat × Bool) × Acc) (a : Acc) (h0 : ∀ (y0 : Nat) (y1 : Acc), Kept cf ff s0 y1.s → Kept cf ff s0 (f y0 y1).2.s) (h1 : Kept cf ff s0 a.s) :
    Kept cf ff s0 (wrTensor d f a).s := by
  unfold wrTensor
  repeat' first
    | with_reducible assumption
    | with_reducible apply h0
    | with_reducible apply wrLines_kept

theorem freshVal_kept {cf ff : Bool} {s0 : State} (x0 : Nat) (x1 : State) (h0 : Kept cf ff s0 x1) :
    Kept cf ff s0 (freshVal x0 x1).2 := by
  fun_induction freshVal x0 x1
  all_goals try subst_vars
  all_goals
    repeat' first
      | with_reducible assumption
      | with_reducible apply freshByte_kept
      | split
      | dsimp only
      | with_reducible refine Kept.snd (by assumption) ?_
      | with_reducible refine Kept.sndA (by assumption) ?_
      | with_reducible refine Kept.sndB (by assumption) ?_
      | with_reducible apply_assumption

theorem scramble_kept {cf ff : Bool} {s0 : State} (d : Desc) (s : State) (h0 : Kept cf ff s0 s) :
    Kept cf ff s0 (scramble d s) := by
  unfold scramble
  repeat' first
    | with_reducible assumption
    | with_reducible apply Acc.start_kept
    | with_reducible apply wrTensor_kept
    | with_reducible apply freshVal_kept
    | intro _

end Sys2Proof.Machine
end

