-- ==== Sys2Proof/Laws/KeptAdmission.lean ====
section
/-! SUPPORT. `Kept` for the operations of Machine/Admission.lean. -/

namespace Sys2Proof.Machine

end Sys2Proof.Machine
end

