-- ==== Sys2Proof/Laws/KeptSched.lean ====
section
/-! SUPPORT. `Kept` for the operations of Machine/Sched.lean. -/

namespace Sys2Proof.Machine

theorem zWf_filter (p : Host.Cell → Bool) {m : Mem} (h : zWf m = true) : zWf (m.filter p) = true := by
  have key : ∀ (t : Mem) (lo : Option Nat), tabRising lo t = true → tabRising lo (t.filter p) = true := by
    intro t
    induction t with
    | nil => intro lo r; exact r
    | cons e t ih =>
      obtain ⟨k, b⟩ := e
      intro lo r
      rw [tabRising_cons] at r
      rw [List.filter_cons]
      split
      · rw [tabRising_cons]; exact ⟨r.1, ih _ r.2⟩
      · exact tabRising_weaken (lo' := some k) (fun l e => ⟨k, rfl, Nat.le_of_lt (r.1 l e)⟩) _ (ih _ r.2)
  simp only [zWf, Bool.and_eq_true, List.all_eq_true] at *
  exact ⟨key m none h.1, fun e he => h.2 e (List.mem_of_mem_filter he)⟩

theorem setArea_kept {cf ff : Bool} {s0 : State} (space inst lo hi : Nat) (cells : List (Nat × Byte)) (poison : List Nat) (s : State) (h0 : Kept cf ff s0 s) :
    Kept cf ff s0 (setArea space inst lo hi cells poison s) := by
  unfold setArea
  refine setZ_kept _ _ _ _ h0 fun q => ?_
  have base := zWf_filter (fun c => !(decide (zKey inst lo ≤ c.1 ∧ c.1 < zKey inst hi) && (allocAt s space inst (c.1 - zKey inst 0)).isNone)) (zMem_wf q space)
  generalize (zMem s space).1.filter _ = m at base ⊢
  induction cells generalizing m with
  | nil => exact base
  | cons c t ih =>
    refine ih _ ?_
    dsimp only
    split
    · exact zWf_putZ _ _ base
    · exact base

theorem tileAreaLoad_kept {cf ff : Bool} {s0 : State} (t : Nat) (n : Nat) (cells : List (Nat × Byte)) (poison : List Nat) (s : State) (h0 : Kept cf ff s0 s) :
    Kept cf ff s0 (tileAreaLoad t n cells poison s) := by
  unfold tileAreaLoad
  repeat' first
    | with_reducible assumption
    | with_reducible apply setArea_kept
    | intro _
    | dsimp only

theorem clearTile_kept {cf ff : Bool} {s0 : State} (t : Nat) (s : State) (h0 : Kept cf ff s0 s) :
    Kept cf ff s0 (clearTile t s) := by
  unfold clearTile
  repeat' first
    | with_reducible assumption
    | with_reducible apply modTile_kept
    | intro _
    | dsimp only
    | (with_reducible refine Kept.mk' ?_ rfl
       first
       | with_reducible assumption
       | with_reducible apply modTile_kept)

theorem countShared_kept {cf ff : Bool} {s0 : State} (tenant : Nat) (s : State) (h0 : Kept cf ff s0 s) :
    Kept cf ff s0 (countShared tenant s) := by
  unfold countShared
  repeat' first
    | with_reducible assumption
    | with_reducible apply modFn_kept
    | intro _
    | dsimp only
    | (with_reducible refine Kept.mk' ?_ rfl
       first
       | with_reducible assumption
       | with_reducible apply modFn_kept)

theorem countSwitch_kept {cf ff : Bool} {s0 : State} (tenant : Nat) (since : Nat) (s : State) (h0 : Kept cf ff s0 s) :
    Kept cf ff s0 (countSwitch tenant since s) := by
  unfold countSwitch
  repeat' first
    | with_reducible assumption
    | with_reducible apply modFn_kept

theorem pauseDone_kept {cf ff : Bool} {s0 : State} (t : Nat) (s : State) (h0 : Kept cf ff s0 s) :
    Kept cf ff s0 (pauseDone t s) := by
  unfold pauseDone
  repeat' first
    | with_reducible assumption
    | with_reducible apply forEach_kept
    | with_reducible apply modCmd_kept
    | with_reducible apply finishCmd_kept
    | split
    | intro _
    | dsimp only
    | with_reducible refine Kept.snd (by assumption) ?_
    | with_reducible refine Kept.sndA (by assumption) ?_
    | with_reducible refine Kept.sndB (by assumption) ?_
    | (with_reducible refine Kept.mk' ?_ rfl
       first
       | with_reducible assumption
       | with_reducible apply forEach_kept
       | with_reducible apply modCmd_kept
       | with_reducible apply finishCmd_kept
       | split
       | with_reducible refine Kept.snd (by assumption) ?_
       | with_reducible refine Kept.sndA (by assumption) ?_
       | with_reducible refine Kept.sndB (by assumption) ?_)

theorem saveBasins_kept {cf ff : Bool} {s0 : State} (r : Nat) (s : State) (h0 : Kept cf ff s0 s) :
    Kept cf ff s0 (saveBasins r s) := by
  unfold saveBasins
  repeat' first
    | with_reducible assumption
    | with_reducible apply forEach_kept
    | with_reducible apply modRun_kept
    | split
    | intro _

theorem checkPaused_kept {cf ff : Bool} {s0 : State} (r : Nat) (s : State) (h0 : Kept cf ff s0 s) :
    Kept cf ff s0 (checkPaused r s) := by
  unfold checkPaused
  repeat' first
    | with_reducible assumption
    | with_reducible apply pauseDone_kept
    | with_reducible apply countSwitch_kept
    | with_reducible apply modRun_kept
    | with_reducible apply saveBasins_kept
    | split

theorem saveFrame_kept {cf ff : Bool} {s0 : State} (t : Nat) (s : State) (h0 : Kept cf ff s0 s) :
    Kept cf ff s0 (saveFrame t s) := by
  unfold saveFrame
  repeat' first
    | with_reducible assumption
    | with_reducible apply clearTile_kept
    | with_reducible apply modRun_kept
    | split
    | intro _
    | dsimp only
    | with_reducible refine Kept.snd (by assumption) ?_
    | with_reducible refine Kept.sndA (by assumption) ?_
    | with_reducible refine Kept.sndB (by assumption) ?_
    | (with_reducible refine Kept.mk' ?_ rfl
       first
       | with_reducible assumption
       | with_reducible apply clearTile_kept
       | with_reducible apply modRun_kept
       | split
       | with_reducible refine Kept.snd (by assumption) ?_
       | with_reducible refine Kept.sndA (by assumption) ?_
       | with_reducible refine Kept.sndB (by assumption) ?_)

theorem pauseRun_kept {cf ff : Bool} {s0 : State} (r : Nat) (s : State) (h0 : Kept cf ff s0 s) :
    Kept cf ff s0 (pauseRun r s) := by
  unfold pauseRun
  repeat' first
    | with_reducible assumption
    | with_reducible apply modRun_kept
    | with_reducible apply forEach_kept
    | with_reducible apply modTile_kept
    | with_reducible apply clearTile_kept
    | with_reducible apply checkPaused_kept
    | with_reducible apply withdrawAll_kept
    | split
    | intro _
    | dsimp only
    | with_reducible refine Kept.snd (by assumption) ?_
    | with_reducible refine Kept.sndA (by assumption) ?_
    | with_reducible refine Kept.sndB (by assumption) ?_
    | (with_reducible refine Kept.mk' ?_ rfl
       first
       | with_reducible assumption
       | with_reducible apply modRun_kept
       | with_reducible apply forEach_kept
       | with_reducible apply modTile_kept
       | with_reducible apply clearTile_kept
       | with_reducible apply checkPaused_kept
       | with_reducible apply withdrawAll_kept
       | split
       | with_reducible refine Kept.snd (by assumption) ?_
       | with_reducible refine Kept.sndA (by assumption) ?_
       | with_reducible refine Kept.sndB (by assumption) ?_)

theorem endRun_kept {cf ff : Bool} {s0 : State} (r : Nat) (outs : List Nat) (s : State) (h0 : Kept cf ff s0 s) :
    Kept cf ff s0 (endRun r outs s) := by
  unfold endRun
  repeat' first
    | with_reducible assumption
    | with_reducible apply pauseDone_kept
    | with_reducible apply forEach_kept
    | with_reducible apply clearTile_kept
    | with_reducible apply withdrawAll_kept
    | with_reducible apply modRun_kept
    | split
    | intro _
    | dsimp only
    | with_reducible refine Kept.snd (by assumption) ?_
    | with_reducible refine Kept.sndA (by assumption) ?_
    | with_reducible refine Kept.sndB (by assumption) ?_
    | (with_reducible refine Kept.mk' ?_ rfl
       first
       | with_reducible assumption
       | with_reducible apply pauseDone_kept
       | with_reducible apply forEach_kept
       | with_reducible apply clearTile_kept
       | with_reducible apply withdrawAll_kept
       | with_reducible apply modRun_kept
       | split
       | with_reducible refine Kept.snd (by assumption) ?_
       | with_reducible refine Kept.sndA (by assumption) ?_
       | with_reducible refine Kept.sndB (by assumption) ?_)

theorem settleFop_kept {cf ff : Bool} {s0 : State} (id : Nat) (s : State) (h0 : Kept cf ff s0 s) :
    Kept cf ff s0 (settleFop id s) := by
  unfold settleFop
  repeat' first
    | with_reducible assumption
    | with_reducible apply Kept.ident
    | with_reducible apply finishCmd_kept
    | with_reducible apply endRun_kept
    | with_reducible apply signalCtr_kept
    | split
    | intro _
    | dsimp only
    | with_reducible refine Kept.snd (by assumption) ?_
    | with_reducible refine Kept.sndA (by assumption) ?_
    | with_reducible refine Kept.sndB (by assumption) ?_
    | (with_reducible refine Kept.mk' ?_ rfl; with_reducible assumption)

theorem scrambleFop_kept {cf ff : Bool} {s0 : State} (i : Nat) (s : State) (h0 : Kept cf ff s0 s) :
    Kept cf ff s0 (scrambleFop i s) := by
  unfold scrambleFop
  repeat' first
    | with_reducible assumption
    | with_reducible apply forEach_kept
    | with_reducible apply scramble_kept
    | split

theorem stopFops_kept {cf ff : Bool} {s0 : State} (p : FurrowOp → Bool) (outcome : Nat) (s : State) (h0 : Kept cf ff s0 s) :
    Kept cf ff s0 (stopFops p outcome s) := by
  unfold stopFops
  repeat' first
    | with_reducible assumption
    | with_reducible apply forEach_kept
    | with_reducible apply settleFop_kept
    | with_reducible apply modFop_kept
    | with_reducible apply scrambleFop_kept
    | intro _

theorem cancelRun_kept {cf ff : Bool} {s0 : State} (r : Nat) (s : State) (h0 : Kept cf ff s0 s) :
    Kept cf ff s0 (cancelRun r s) := by
  unfold cancelRun
  repeat' first
    | with_reducible assumption
    | with_reducible apply forEach_kept
    | with_reducible apply clearTile_kept
    | with_reducible apply withdrawAll_kept
    | with_reducible apply modRun_kept
    | with_reducible apply endRun_kept
    | split
    | intro _
    | dsimp only
    | with_reducible refine Kept.snd (by assumption) ?_
    | with_reducible refine Kept.sndA (by assumption) ?_
    | with_reducible refine Kept.sndB (by assumption) ?_
    | (with_reducible refine Kept.mk' ?_ rfl
       first
       | with_reducible assumption
       | with_reducible apply forEach_kept
       | with_reducible apply clearTile_kept
       | with_reducible apply withdrawAll_kept
       | with_reducible apply modRun_kept
       | with_reducible apply endRun_kept
       | split
       | with_reducible refine Kept.snd (by assumption) ?_
       | with_reducible refine Kept.sndA (by assumption) ?_
       | with_reducible refine Kept.sndB (by assumption) ?_)

theorem registerHead_kept {cf ff : Bool} {s0 : State} (t : Nat) (c : Ctx) (w : Nat × Bool × Nat) (s : State) (h0 : Kept cf ff s0 s) :
    Kept cf ff s0 (registerHead t c w s) := by
  unfold registerHead
  repeat' first
    | with_reducible assumption
    | with_reducible apply endRun_kept
    | with_reducible apply arriveWait_kept
    | with_reducible apply modTile_kept
    | with_reducible apply headWait_kept
    | split

theorem loadCtx_kept {cf ff : Bool} {s0 : State} (r : Nat) (i : Nat) (t : Nat) (s : State) (h0 : Kept cf ff s0 s) :
    Kept cf ff s0 (loadCtx r i t s) := by
  unfold loadCtx
  repeat' first
    | with_reducible assumption
    | with_reducible apply modRun_kept
    | with_reducible apply clearTile_kept
    | with_reducible apply tileAreaLoad_kept
    | with_reducible apply modTile_kept
    | with_reducible apply headWait_kept
    | with_reducible apply registerHead_kept
    | split
    | intro _
    | dsimp only
    | with_reducible refine Kept.snd (by assumption) ?_
    | with_reducible refine Kept.sndA (by assumption) ?_
    | with_reducible refine Kept.sndB (by assumption) ?_
    | (with_reducible refine Kept.mk' ?_ rfl
       first
       | with_reducible assumption
       | with_reducible apply modRun_kept
       | with_reducible apply clearTile_kept
       | with_reducible apply tileAreaLoad_kept
       | with_reducible apply modTile_kept
       | with_reducible apply headWait_kept
       | with_reducible apply registerHead_kept
       | split
       | with_reducible refine Kept.snd (by assumption) ?_
       | with_reducible refine Kept.sndA (by assumption) ?_
       | with_reducible refine Kept.sndB (by assumption) ?_)

theorem fillTiles_kept {cf ff : Bool} {s0 : State} (s : State) (h0 : Kept cf ff s0 s) :
    Kept cf ff s0 (fillTiles s) := by
  unfold fillTiles
  repeat' first
    | with_reducible assumption
    | with_reducible apply forEach_kept
    | with_reducible apply loadCtx_kept
    | split
    | intro _

theorem startRun_kept {cf ff : Bool} {s0 : State} (r : Nat) (place : Tab Nat) (basin : Tab Nat) (s : State) (h0 : Kept cf ff s0 s) :
    Kept cf ff s0 (startRun r place basin s) := by
  unfold startRun
  repeat' first
    | with_reducible assumption
    | with_reducible apply endRun_kept
    | with_reducible apply fillTiles_kept
    | with_reducible apply modRun_kept
    | split

theorem tryRun_kept {cf ff : Bool} {s0 : State} (r : Nat) (a : State × List Nat) (h0 : Kept cf ff s0 a.1) : Kept cf ff s0 (tryRun r a).1 := by
  unfold tryRun
  repeat' first
    | with_reducible assumption
    | with_reducible apply endRun_kept
    | with_reducible apply forEach_kept
    | with_reducible apply whenS_kept
    | with_reducible apply pauseRun_kept
    | with_reducible apply startRun_kept
    | with_reducible apply modRun_kept
    | split
    | intro _
    | dsimp only

theorem schedule_kept {cf ff : Bool} {s0 : State} (s : State) (h0 : Kept cf ff s0 s) : Kept cf ff s0 (schedule s) := by
  unfold schedule
  split
  · have key : ∀ (l : List Nat) (a : State × List Nat), Kept cf ff s0 a.1 → Kept cf ff s0 (l.foldl (fun a r => tryRun r a) a).1 := by
      intro l
      induction l with
      | nil => exact fun a h => h
      | cons r t ih => exact fun a h => ih _ (tryRun_kept r a h)
    exact key _ _ h0
  · exact h0

theorem scrambleDests_kept {cf ff : Bool} {s0 : State} (c : Cmd) (s : State) (h0 : Kept cf ff s0 s) :
    Kept cf ff s0 (scrambleDests c s) := by
  unfold scrambleDests
  repeat' first
    | with_reducible assumption
    | with_reducible apply forEach_kept
    | with_reducible apply scramble_kept
    | split

theorem dropPeerWork_kept {cf ff : Bool} {s0 : State} (h : Nat) (s : State) (h0 : Kept cf ff s0 s) :
    Kept cf ff s0 (dropPeerWork h s) := by
  unfold dropPeerWork
  repeat' first
    | with_reducible assumption
    | with_reducible apply modDpt_kept

theorem cancelCmd_kept {cf ff : Bool} {s0 : State} (h : Nat) (s : State) (h0 : Kept cf ff s0 s) :
    Kept cf ff s0 (cancelCmd h s) := by
  unfold cancelCmd
  repeat' first
    | with_reducible assumption
    | with_reducible apply modCmd_kept
    | with_reducible apply finishCmd_kept
    | with_reducible apply stopFops_kept
    | with_reducible apply noteOutcome_kept
    | with_reducible apply cancelRun_kept
    | with_reducible apply withdraw_kept
    | with_reducible apply dropPeerWork_kept
    | with_reducible apply scrambleDests_kept
    | split
    | intro _
    | dsimp only
    | with_reducible refine Kept.snd (by assumption) ?_
    | with_reducible refine Kept.sndA (by assumption) ?_
    | with_reducible refine Kept.sndB (by assumption) ?_
    | (with_reducible refine Kept.mk' ?_ rfl
       first
       | with_reducible assumption
       | with_reducible apply modCmd_kept
       | with_reducible apply finishCmd_kept
       | with_reducible apply stopFops_kept
       | with_reducible apply noteOutcome_kept
       | with_reducible apply cancelRun_kept
       | with_reducible apply withdraw_kept
       | with_reducible apply dropPeerWork_kept
       | with_reducible apply scrambleDests_kept
       | split
       | with_reducible refine Kept.snd (by assumption) ?_
       | with_reducible refine Kept.sndA (by assumption) ?_
       | with_reducible refine Kept.sndB (by assumption) ?_)

end Sys2Proof.Machine
end

