-- ==== Sys2Proof/Laws/KeptRetire.lean ====
section
/-! SUPPORT. `Kept` for the operations of Machine/Retire.lean. -/

namespace Sys2Proof.Machine

theorem failFops_kept {cf ff : Bool} {s0 : State} (k : Nat) (s : State) (h0 : Kept cf ff s0 s) :
    Kept cf ff s0 (failFops k s) := by
  unfold failFops
  repeat' first
    | with_reducible assumption
    | with_reducible apply stopFops_kept

theorem failUnserved_kept {cf ff : Bool} {s0 : State} (k : Nat) (s : State) (h0 : Kept cf ff s0 s) :
    Kept cf ff s0 (failUnserved k s) := by
  unfold failUnserved
  repeat' first
    | with_reducible assumption
    | with_reducible apply stopFops_kept
    | intro _
    | dsimp only

theorem checkNoFurrow_kept {cf ff : Bool} {s0 : State} (k : Nat) (s : State) (h0 : Kept cf ff s0 s) :
    Kept cf ff s0 (checkNoFurrow k s) := by
  unfold checkNoFurrow
  repeat' first
    | with_reducible assumption
    | with_reducible apply modStk_kept
    | with_reducible apply failUnserved_kept
    | with_reducible apply henuaEvent_kept
    | split
    | intro _
    | dsimp only
    | (with_reducible refine Kept.mk' ?_ rfl
       first
       | with_reducible assumption
       | with_reducible apply modStk_kept
       | with_reducible apply failUnserved_kept
       | with_reducible apply henuaEvent_kept
       | split)

theorem dropLost_kept {cf ff : Bool} {s0 : State} (s : State) (h0 : Kept cf ff s0 s) :
    Kept cf ff s0 (dropLost s) := by
  unfold dropLost
  repeat' first
    | with_reducible assumption
    | with_reducible apply forEach_kept
    | with_reducible apply endRun_kept
    | with_reducible apply stopFops_kept
    | with_reducible apply finishCmd_kept
    | with_reducible apply modCmd_kept
    | with_reducible apply dropPeerWork_kept
    | with_reducible apply scrambleDests_kept
    | split
    | intro _
    | dsimp only
    | with_reducible refine Kept.snd (by assumption) ?_
    | with_reducible refine Kept.sndA (by assumption) ?_
    | with_reducible refine Kept.sndB (by assumption) ?_
    | (with_reducible refine Kept.mk' ?_ rfl
       first
       | with_reducible assumption
       | with_reducible apply forEach_kept
       | with_reducible apply endRun_kept
       | with_reducible apply stopFops_kept
       | with_reducible apply finishCmd_kept
       | with_reducible apply modCmd_kept
       | with_reducible apply dropPeerWork_kept
       | with_reducible apply scrambleDests_kept
       | split
       | with_reducible refine Kept.snd (by assumption) ?_
       | with_reducible refine Kept.sndA (by assumption) ?_
       | with_reducible refine Kept.sndB (by assumption) ?_)

theorem claimTile_kept {cf ff : Bool} {s0 : State} (r : Nat) (u : Nat) (s : State) (h0 : Kept cf ff s0 s) :
    Kept cf ff s0 (claimTile r u s) := by
  unfold claimTile
  repeat' first
    | with_reducible assumption
    | with_reducible apply pauseRun_kept
    | split

theorem moveLogical_kept {cf ff : Bool} {s0 : State} (t : Nat) (u : Nat) (mk : Ctx → Ctx) (s : State) (h0 : Kept cf ff s0 s) :
    Kept cf ff s0 (moveLogical t u mk s) := by
  unfold moveLogical
  repeat' first
    | with_reducible assumption
    | with_reducible apply fillTiles_kept
    | with_reducible apply claimTile_kept
    | with_reducible apply modRun_kept
    | with_reducible apply saveFrame_kept
    | with_reducible apply withdraw_kept
    | with_reducible apply modTile_kept
    | split

theorem markSuspect_kept {cf ff : Bool} {s0 : State} (u : UnitRef) (s : State) (h0 : Kept cf ff s0 s) :
    Kept cf ff s0 (markSuspect u s) := by
  unfold markSuspect
  repeat' first
    | with_reducible assumption
    | with_reducible apply capChange_kept
    | with_reducible apply checkNoFurrow_kept
    | exact fun _ => rfl
    | exact suspectCap_gen _
    | split
    | dsimp only
    | with_reducible refine Kept.snd (by assumption) ?_
    | with_reducible refine Kept.sndA (by assumption) ?_
    | with_reducible refine Kept.sndB (by assumption) ?_
    | (with_reducible refine Kept.mk' ?_ rfl; with_reducible assumption)

theorem abandonTest_kept {cf ff : Bool} {s0 : State} (u : UnitRef) (s : State) (h0 : Kept cf ff s0 s) :
    Kept cf ff s0 (abandonTest u s) := by
  unfold abandonTest
  repeat' first
    | with_reducible assumption
    | with_reducible apply forEach_kept
    | with_reducible apply finishCmd_kept
    | with_reducible apply modTest_kept
    | with_reducible apply modTile_kept
    | split
    | intro _

theorem replaceRun_kept {cf ff : Bool} {s0 : State} (r : Nat) (s : State) (h0 : Kept cf ff s0 s) :
    Kept cf ff s0 (replaceRun r s) := by
  unfold replaceRun
  repeat' first
    | with_reducible assumption
    | with_reducible apply Kept.ident
    | with_reducible apply endRun_kept
    | with_reducible apply forEach_kept
    | with_reducible apply claimTile_kept
    | with_reducible apply modRun_kept
    | split
    | intro _

theorem noteRecompute_kept {cf ff : Bool} {s0 : State} (c : Ctx) (s : State) (h0 : Kept cf ff s0 s) :
    Kept cf ff s0 (noteRecompute c s) := by
  unfold noteRecompute
  repeat' first
    | with_reducible assumption
    | with_reducible apply whenS_kept
    | with_reducible apply modRun_kept
    | intro _
    | dsimp only
    | (with_reducible refine Kept.mk' ?_ rfl
       first
       | with_reducible assumption
       | with_reducible apply whenS_kept
       | with_reducible apply modRun_kept)

theorem leaveLost_kept {cf ff : Bool} {s0 : State} (t : Nat) (s : State) (h0 : Kept cf ff s0 s) :
    Kept cf ff s0 (leaveLost t s) := by
  unfold leaveLost
  repeat' first
    | with_reducible assumption
    | with_reducible apply saveFrame_kept
    | with_reducible apply modTile_kept
    | with_reducible apply noteRecompute_kept
    | with_reducible apply clearTile_kept
    | with_reducible apply withdraw_kept
    | split
    | intro _
    | dsimp only
    | with_reducible refine Kept.snd (by assumption) ?_
    | with_reducible refine Kept.sndA (by assumption) ?_
    | with_reducible refine Kept.sndB (by assumption) ?_
    | (with_reducible refine Kept.mk' ?_ rfl
       first
       | with_reducible assumption
       | with_reducible apply saveFrame_kept
       | with_reducible apply modTile_kept
       | with_reducible apply noteRecompute_kept
       | with_reducible apply clearTile_kept
       | with_reducible apply withdraw_kept
       | split
       | with_reducible refine Kept.snd (by assumption) ?_
       | with_reducible refine Kept.sndA (by assumption) ?_
       | with_reducible refine Kept.sndB (by assumption) ?_)

theorem loseTile_kept {cf ff : Bool} {s0 : State} (t : Nat) (s : State) (h0 : Kept cf ff s0 s) :
    Kept cf ff s0 (loseTile t s) := by
  unfold loseTile
  repeat' first
    | with_reducible assumption
    | with_reducible apply fillTiles_kept
    | with_reducible apply forEach_kept
    | with_reducible apply checkPaused_kept
    | with_reducible apply replaceRun_kept
    | with_reducible apply dropLost_kept
    | with_reducible apply leaveLost_kept
    | with_reducible apply abandonTest_kept

theorem loseStack_kept {cf ff : Bool} {s0 : State} (k : Nat) (s : State) (h0 : Kept cf ff s0 s) :
    Kept cf ff s0 (loseStack k s) := by
  unfold loseStack
  repeat' first
    | with_reducible assumption
    | with_reducible apply checkNoFurrow_kept
    | with_reducible apply failFops_kept
    | with_reducible apply dropLost_kept
    | with_reducible apply abandonTest_kept
    | with_reducible apply modStk_kept

theorem loseFar_kept {cf ff : Bool} {s0 : State} (s : State) (h0 : Kept cf ff s0 s) :
    Kept cf ff s0 (loseFar s) := by
  unfold loseFar
  repeat' first
    | with_reducible assumption
    | with_reducible apply dropLost_kept
    | with_reducible apply clearFar_kept
    | split
    | intro _
    | dsimp only
    | (with_reducible refine Kept.mk' ?_ rfl
       first
       | with_reducible assumption
       | with_reducible apply dropLost_kept
       | with_reducible apply clearFar_kept
       | split)

theorem loseUnit_kept {cf ff : Bool} {s0 : State} (u : UnitRef) (s : State) (h0 : Kept cf ff s0 s) :
    Kept cf ff s0 (loseUnit u s) := by
  unfold loseUnit
  repeat' first
    | with_reducible assumption
    | with_reducible apply loseTile_kept
    | with_reducible apply loseStack_kept
    | with_reducible apply checkNoFurrow_kept
    | with_reducible apply dropLost_kept
    | split

theorem retireUnit_kept {cf ff : Bool} {s0 : State} (check : Nat) (u : UnitRef) (tenant : Nat) (s : State) (h0 : Kept cf ff s0 s) :
    Kept cf ff s0 (retireUnit check u tenant s) := by
  unfold retireUnit
  repeat' first
    | with_reducible assumption
    | with_reducible apply schedule_kept
    | with_reducible apply loseUnit_kept
    | with_reducible apply retireCap_kept
    | split

theorem faultEvent_kept {cf ff : Bool} {s0 : State} (kind : Nat) (check : Nat) (u : UnitRef) (tenant : Nat) (detail : Nat) (bundle : List Byte) (s : State) (h0 : Kept cf ff s0 s) :
    Kept cf ff s0 (faultEvent kind check u tenant detail bundle s) := by
  unfold faultEvent
  repeat' first
    | with_reducible assumption
    | with_reducible apply modSum_kept
    | with_reducible apply recordFault_kept
    | with_reducible apply retireUnit_kept
    | with_reducible apply markSuspect_kept
    | split
    | intro _
    | dsimp only

theorem restartStep_kept {cf ff : Bool} {s0 : State} (t : Nat) (f : Failure) (s : State) (h0 : Kept cf ff s0 s) :
    Kept cf ff s0 (restartStep t f s) := by
  unfold restartStep
  repeat' first
    | with_reducible assumption
    | with_reducible apply modTile_kept
    | intro _
    | dsimp only
    | (with_reducible refine Kept.mk' ?_ rfl
       first
       | with_reducible assumption
       | with_reducible apply modTile_kept)

theorem moveStep_kept {cf ff : Bool} {s0 : State} (t : Nat) (why : Nat) (f : Failure) (s : State) (h0 : Kept cf ff s0 s) :
    Kept cf ff s0 (moveStep t why f s) := by
  unfold moveStep
  repeat' first
    | with_reducible assumption
    | with_reducible apply endRun_kept
    | with_reducible apply moveLogical_kept
    | with_reducible apply modTile_kept
    | split

theorem failStep_kept {cf ff : Bool} {s0 : State} (t : Nat) (f : Failure) (s : State) (h0 : Kept cf ff s0 s) :
    Kept cf ff s0 (failStep t f s) := by
  unfold failStep
  repeat' first
    | with_reducible assumption
    | with_reducible apply modTile_kept
    | with_reducible apply whenS_kept
    | with_reducible apply faultEvent_kept
    | with_reducible apply endRun_kept
    | with_reducible apply recordFault_kept
    | with_reducible apply henuaEvent_kept
    | with_reducible apply restartStep_kept
    | with_reducible apply noteRecompute_kept
    | with_reducible apply moveStep_kept
    | split
    | intro _
    | dsimp only
    | with_reducible refine Kept.snd (by assumption) ?_
    | with_reducible refine Kept.sndA (by assumption) ?_
    | with_reducible refine Kept.sndB (by assumption) ?_
    | (with_reducible refine Kept.mk' ?_ rfl
       first
       | with_reducible assumption
       | with_reducible apply modTile_kept
       | with_reducible apply whenS_kept
       | with_reducible apply faultEvent_kept
       | with_reducible apply endRun_kept
       | with_reducible apply recordFault_kept
       | with_reducible apply henuaEvent_kept
       | with_reducible apply restartStep_kept
       | with_reducible apply noteRecompute_kept
       | with_reducible apply moveStep_kept
       | split
       | with_reducible refine Kept.snd (by assumption) ?_
       | with_reducible refine Kept.sndA (by assumption) ?_
       | with_reducible refine Kept.sndB (by assumption) ?_)

end Sys2Proof.Machine
end

