-- ==== Sys2Proof/Laws/KeptQueues.lean ====
section
/-! SUPPORT. `Kept` for the operations of Machine/Queues.lean. -/

namespace Sys2Proof.Machine

theorem unstall_kept {cf ff : Bool} {s0 : State} (t : Nat) (s : State) (h0 : Kept cf ff s0 s) :
    Kept cf ff s0 (unstall t s) := by
  unfold unstall
  repeat' first
    | with_reducible assumption
    | with_reducible apply whenS_kept
    | with_reducible apply modFn_kept

theorem writeRecord_kept {cf ff : Bool} {s0 : State} (t : Nat) (kind : Nat) (late : Bool) (recomputed : Bool) (status : Nat) (tag : Nat) (handle : Nat) (opcode : Nat) (sq : Nat) (check : Nat) (sqHead : Nat) (value : Nat) (s : State) (h0 : Kept cf ff s0 s) :
    Kept cf ff s0 (writeRecord t kind late recomputed status tag handle opcode sq check sqHead value s) := by
  unfold writeRecord
  repeat' first
    | with_reducible assumption
    | with_reducible apply modFn_kept
    | with_reducible apply hostWrite_kept
    | split
    | intro _
    | dsimp only
    | (with_reducible refine Kept.mk' ?_ rfl
       first
       | with_reducible assumption
       | with_reducible apply modFn_kept
       | with_reducible apply hostWrite_kept
       | split)

theorem pushHeld_kept {cf ff : Bool} {s0 : State} (h : Held) (s : State) (h0 : Kept cf ff s0 s) :
    Kept cf ff s0 (pushHeld h s) := by
  unfold pushHeld
  repeat' first
    | with_reducible assumption
    | dsimp only
    | (with_reducible refine Kept.mk' ?_ rfl; with_reducible assumption)

theorem setTail_kept {cf ff : Bool} {s0 : State} (fn : Nat) (q : Nat) (tail : Nat) (s : State) (h0 : Kept cf ff s0 s) :
    Kept cf ff s0 (setTail fn q tail s) := by
  unfold setTail
  repeat' first
    | with_reducible assumption
    | with_reducible apply modFn_kept
    | split
    | intro _
    | dsimp only
    | (with_reducible refine Kept.mk' ?_ rfl
       first
       | with_reducible assumption
       | with_reducible apply modFn_kept
       | split)

theorem execHgSqTailWrite_kept {cf ff : Bool} {s0 : State} (fn : Nat) (q : Nat) (tail : Nat) (stores : List (Nat × List Byte)) (s : State) (h0 : Kept cf ff s0 s) :
    ResKept cf ff s0 (execHgSqTailWrite fn q tail stores s) := by
  unfold execHgSqTailWrite
  repeat' first
    | with_reducible assumption
    | with_reducible apply forEach_kept
    | with_reducible apply hostStore_kept
    | with_reducible apply onUnit_kept
    | with_reducible apply pushHeld_kept
    | with_reducible apply setTail_kept
    | exact ResKept.same (by assumption)
    | split
    | intro _
    | dsimp only

theorem setCqHead_kept {cf ff : Bool} {s0 : State} (fn : Nat) (q : Nat) (head : Nat) (s : State) (h0 : Kept cf ff s0 s) :
    Kept cf ff s0 (setCqHead fn q head s) := by
  unfold setCqHead
  repeat' first
    | with_reducible assumption
    | with_reducible apply unstall_kept
    | with_reducible apply modFn_kept
    | split
    | intro _
    | dsimp only
    | (with_reducible refine Kept.mk' ?_ rfl
       first
       | with_reducible assumption
       | with_reducible apply unstall_kept
       | with_reducible apply modFn_kept
       | split)

theorem execHgCqHeadWrite_kept {cf ff : Bool} {s0 : State} (fn : Nat) (q : Nat) (head : Nat) (s : State) (h0 : Kept cf ff s0 s) :
    ResKept cf ff s0 (execHgCqHeadWrite fn q head s) := by
  unfold execHgCqHeadWrite
  repeat' first
    | with_reducible assumption
    | with_reducible apply onUnit_kept
    | with_reducible apply pushHeld_kept
    | with_reducible apply setCqHead_kept
    | exact ResKept.same (by assumption)
    | split
    | dsimp only

theorem execHgCqCtrlWrite_kept {cf ff : Bool} {s0 : State} (fn : Nat) (value : W32) (s : State) (h0 : Kept cf ff s0 s) :
    ResKept cf ff s0 (execHgCqCtrlWrite fn value s) := by
  unfold execHgCqCtrlWrite
  repeat' first
    | with_reducible assumption
    | with_reducible apply onUnit_kept
    | with_reducible apply modFn_kept

theorem execHgSq0CtrlWrite_kept {cf ff : Bool} {s0 : State} (fn : Nat) (value : W32) (s : State) (h0 : Kept cf ff s0 s) :
    ResKept cf ff s0 (execHgSq0CtrlWrite fn value s) := by
  unfold execHgSq0CtrlWrite
  repeat' first
    | with_reducible assumption
    | with_reducible apply onUnit_kept
    | with_reducible apply modFn_kept

theorem modQueue_kept {cf ff : Bool} {s0 : State} (t : Nat) (q : Nat) (g : SubQ → SubQ) (s : State) (h0 : Kept cf ff s0 s) :
    Kept cf ff s0 (modQueue t q g s) := by
  unfold modQueue
  repeat' first
    | with_reducible assumption
    | with_reducible apply modFn_kept

theorem admitEffects_kept {cf ff : Bool} {s0 : State} (c : Cmd) (s : State) (h0 : Kept cf ff s0 s) :
    Kept cf ff s0 (admitEffects c s) := by
  unfold admitEffects
  repeat' first
    | with_reducible assumption
    | with_reducible apply modTen_kept
    | with_reducible apply modFn_kept
    | with_reducible apply schedule_kept
    | with_reducible apply forEach_kept
    | with_reducible apply modDpt_kept
    | split
    | intro _
    | dsimp only
    | with_reducible refine Kept.snd (by assumption) ?_
    | with_reducible refine Kept.sndA (by assumption) ?_
    | with_reducible refine Kept.sndB (by assumption) ?_
    | (with_reducible refine Kept.mk' ?_ rfl; with_reducible assumption)

theorem hostFetches_kept {cf ff : Bool} {s0 : State} (t : Nat) (p : Packet) (s : State) (h0 : Kept cf ff s0 s) :
    Kept cf ff s0 (hostFetches t p s) := by
  unfold hostFetches
  repeat' first
    | with_reducible assumption
    | with_reducible apply hostFetch_kept
    | split
    | dsimp only

theorem acceptPacket_kept {cf ff : Bool} {s0 : State} (t : Nat) (q : Nat) (head : Nat) (p : Packet) (s : State) (h0 : Kept cf ff s0 s) :
    Kept cf ff s0 (acceptPacket t q head p s) := by
  unfold acceptPacket
  repeat' first
    | with_reducible assumption
    | with_reducible apply hostFetches_kept
    | with_reducible apply writeRecord_kept
    | with_reducible apply whenS_kept
    | with_reducible apply wakeSource_kept
    | with_reducible apply admitEffects_kept
    | intro _
    | dsimp only
    | (with_reducible refine Kept.mk' ?_ rfl
       first
       | with_reducible assumption
       | with_reducible apply hostFetches_kept
       | with_reducible apply writeRecord_kept
       | with_reducible apply whenS_kept
       | with_reducible apply wakeSource_kept
       | with_reducible apply admitEffects_kept)

theorem refusePacket_kept {cf ff : Bool} {s0 : State} (t : Nat) (q : Nat) (head : Nat) (p : Packet) (v : Nat × Nat) (s : State) (h0 : Kept cf ff s0 s) :
    Kept cf ff s0 (refusePacket t q head p v s) := by
  unfold refusePacket
  repeat' first
    | with_reducible assumption
    | with_reducible apply cqEvent_kept
    | with_reducible apply writeRecord_kept

theorem haltAdmission_kept {cf ff : Bool} {s0 : State} (t : Nat) (s : State) (h0 : Kept cf ff s0 s) :
    Kept cf ff s0 (haltAdmission t s) := by
  unfold haltAdmission
  repeat' first
    | with_reducible assumption
    | with_reducible apply setCauseAll_kept
    | with_reducible apply henuaEvent_kept
    | with_reducible apply recordFault_kept
    | with_reducible apply modBoard_kept
    | intro _
    | dsimp only
    | (with_reducible refine Kept.mk' ?_ rfl; with_reducible assumption)

theorem execPacketAdmission_kept {cf ff : Bool} {s0 : State} (mismatches : Nat) (s : State) (h0 : Kept cf ff s0 s) :
    ResKept cf ff s0 (execPacketAdmission mismatches s) := by
  unfold execPacketAdmission
  repeat' first
    | with_reducible assumption
    | with_reducible apply modQueue_kept
    | with_reducible apply hostFetch_kept
    | with_reducible apply haltAdmission_kept
    | with_reducible apply whenS_kept
    | with_reducible apply recordFault_kept
    | with_reducible apply refusePacket_kept
    | with_reducible apply acceptPacket_kept
    | exact ResKept.same (by assumption)
    | with_reducible apply ResKept.next
    | split
    | intro _
    | dsimp only
    | with_reducible refine Kept.snd (by assumption) ?_
    | with_reducible refine Kept.sndA (by assumption) ?_
    | with_reducible refine Kept.sndB (by assumption) ?_
    | (with_reducible refine Kept.mk' ?_ rfl
       first
       | with_reducible assumption
       | with_reducible apply modQueue_kept
       | with_reducible apply hostFetch_kept
       | with_reducible apply haltAdmission_kept
       | with_reducible apply whenS_kept
       | with_reducible apply recordFault_kept
       | with_reducible apply refusePacket_kept
       | with_reducible apply acceptPacket_kept
       | split
       | with_reducible refine Kept.snd (by assumption) ?_
       | with_reducible refine Kept.sndA (by assumption) ?_
       | with_reducible refine Kept.sndB (by assumption) ?_)

theorem wakeForHeld_kept {cf ff : Bool} {s0 : State} (s : State) (h0 : Kept cf ff s0 s) :
    Kept cf ff s0 (wakeForHeld s) := by
  unfold wakeForHeld
  repeat' first
    | with_reducible assumption
    | with_reducible apply wakeSource_kept
    | split

theorem joinSluice_kept {cf ff : Bool} {s0 : State} (c : Cmd) (s : State) (h0 : Kept cf ff s0 s) :
    Kept cf ff s0 (joinSluice c s) := by
  unfold joinSluice
  repeat' first
    | with_reducible assumption
    | split
    | intro _
    | dsimp only
    | with_reducible refine Kept.snd (by assumption) ?_
    | with_reducible refine Kept.sndA (by assumption) ?_
    | with_reducible refine Kept.sndB (by assumption) ?_
    | (with_reducible refine Kept.mk' ?_ rfl
       first
       | with_reducible assumption
       | split
       | with_reducible refine Kept.snd (by assumption) ?_
       | with_reducible refine Kept.sndA (by assumption) ?_
       | with_reducible refine Kept.sndB (by assumption) ?_)

theorem execCommandStart_kept {cf ff : Bool} {s0 : State} (s : State) (h0 : Kept cf ff s0 s) :
    ResKept cf ff s0 (execCommandStart s) := by
  unfold execCommandStart
  repeat' first
    | with_reducible assumption
    | with_reducible apply wakeForHeld_kept
    | with_reducible apply modCmd_kept
    | with_reducible apply schedule_kept
    | with_reducible apply joinSluice_kept
    | exact ResKept.same (by assumption)
    | with_reducible apply ResKept.next
    | split
    | intro _
    | dsimp only
    | with_reducible refine Kept.snd (by assumption) ?_
    | with_reducible refine Kept.sndA (by assumption) ?_
    | with_reducible refine Kept.sndB (by assumption) ?_
    | (with_reducible refine Kept.mk' ?_ rfl
       first
       | with_reducible assumption
       | with_reducible apply wakeForHeld_kept
       | with_reducible apply modCmd_kept
       | with_reducible apply schedule_kept
       | with_reducible apply joinSluice_kept
       | split
       | with_reducible refine Kept.snd (by assumption) ?_
       | with_reducible refine Kept.sndA (by assumption) ?_
       | with_reducible refine Kept.sndB (by assumption) ?_)

theorem runCmd_kept {cf ff : Bool} {s0 : State} (h : Nat) (op : Nat) (f : Cmd → State → State) (s : State) (h0 : ∀ (y0 : Cmd) (y1 : State), Kept cf ff s0 y1 → Kept cf ff s0 (f y0 y1)) (h1 : Kept cf ff s0 s) :
    ResKept cf ff s0 (runCmd h op f s) := by
  unfold runCmd
  repeat' first
    | with_reducible assumption
    | with_reducible apply h0
    | exact ResKept.same (by assumption)
    | with_reducible apply ResKept.next
    | split
    | dsimp only
    | with_reducible refine Kept.snd (by assumption) ?_
    | with_reducible refine Kept.sndA (by assumption) ?_
    | with_reducible refine Kept.sndB (by assumption) ?_

theorem execCqStallTimeout_kept {cf ff : Bool} {s0 : State} (tenant : Nat) (s : State) (h0 : Kept cf ff s0 s) :
    ResKept cf ff s0 (execCqStallTimeout tenant s) := by
  unfold execCqStallTimeout
  repeat' first
    | with_reducible assumption
    | with_reducible apply onUnit_kept
    | with_reducible apply henuaEvent_kept
    | with_reducible apply cqEvent_kept
    | with_reducible apply modFn_kept
    | split

theorem execIrqHoldoffExpiry_kept {cf ff : Bool} {s0 : State} (fn : Nat) (vec : Nat) (s : State) (h0 : Kept cf ff s0 s) :
    ResKept cf ff s0 (execIrqHoldoffExpiry fn vec s) := by
  unfold execIrqHoldoffExpiry
  repeat' first
    | with_reducible assumption
    | with_reducible apply onUnit_kept
    | with_reducible apply whenS_kept
    | with_reducible apply sendMsix_kept
    | with_reducible apply modFn_kept
    | split

theorem sendPending_kept {cf ff : Bool} {s0 : State} (fn : Nat) (vec : Nat) (s : State) (h0 : Kept cf ff s0 s) :
    Kept cf ff s0 (sendPending fn vec s) := by
  unfold sendPending
  repeat' first
    | with_reducible assumption
    | with_reducible apply emit_kept
    | with_reducible apply modFn_kept
    | split
    | intro _
    | dsimp only

theorem execMsixUnmask_kept {cf ff : Bool} {s0 : State} (fn : Nat) (vec : Nat) (s : State) (h0 : Kept cf ff s0 s) :
    ResKept cf ff s0 (execMsixUnmask fn vec s) := by
  unfold execMsixUnmask
  repeat' first
    | with_reducible assumption
    | with_reducible apply onUnit_kept
    | with_reducible apply sendPending_kept
    | with_reducible apply modFn_kept

end Sys2Proof.Machine
end

