-- ==== Sys2Proof/Laws/KeptSpace.lean ====
section
/-! SUPPORT. `Kept` for the operations of Machine/Space.lean. -/

namespace Sys2Proof.Machine

theorem mapRange_kept {cf ff : Bool} {s0 : State} (mode stack : Nat) (context : Bool) (n g : Nat) (s : State) (h0 : Kept cf ff s0 s) :
    ∀ t, mapRange mode stack context n g s = some t → Kept cf ff s0 t := by
  induction n generalizing g s with
  | zero => intro t e; cases e; exact h0
  | succ n ih =>
    intro t e
    unfold mapRange at e
    split at e
    · split at e
      · exact ih _ _ h0 t e
      · cases e
    · split at e
      · exact ih _ _ (Kept.mk' h0 rfl) t e
      · cases e

theorem placeStack_kept {cf ff : Bool} {s0 : State} (s : State) (mode stack len : Nat) (h0 : Kept cf ff s0 s) :
    ∀ x, placeStack s mode stack len = some x → Kept cf ff s0 x.2 := by
  intro x hx
  unfold placeStack at hx
  dsimp only at hx
  obtain ⟨a, -, ha⟩ := List.exists_of_findSome?_eq_some hx
  split at ha
  · obtain ⟨t, ht, rfl⟩ := Option.map_eq_some_iff.mp ha
    exact mapRange_kept _ _ _ _ _ _ h0 t ht
  · cases ha

theorem placeContext_kept {cf ff : Bool} {s0 : State} (s : State) (len : Nat) (h0 : Kept cf ff s0 s) :
    ∀ x, placeContext s len = some x → Kept cf ff s0 x.2 := by
  intro x hx
  unfold placeContext at hx
  split at hx
  · cases hx
  · obtain ⟨t, ht, rfl⟩ := Option.map_eq_some_iff.mp hx
    exact mapRange_kept _ _ _ _ _ _ h0 t ht

theorem unmapEmpty_kept {cf ff : Bool} {s0 : State} (s : State) (h0 : Kept cf ff s0 s) :
    Kept cf ff s0 (unmapEmpty s) := by
  unfold unmapEmpty
  repeat' first
    | with_reducible assumption
    | split
    | intro _
    | dsimp only
    | (with_reducible refine Kept.mk' ?_ rfl; with_reducible assumption)

theorem placeAlloc_kept {cf ff : Bool} {s0 : State} (s : State) (c : Cmd) (space inst len : Nat) (h0 : Kept cf ff s0 s) :
    ∀ x, placeAlloc s c space inst len = some x → Kept cf ff s0 x.2 := by
  intro x hx
  unfold placeAlloc at hx
  dsimp only at hx
  split at hx
  · cases hx; exact h0
  · obtain ⟨t, ht, rfl⟩ := Option.map_eq_some_iff.mp hx; exact h0
  · exact placeStack_kept _ _ _ _ h0 x hx
  · obtain ⟨t, ht, rfl⟩ := Option.map_eq_some_iff.mp hx; exact h0
  · obtain ⟨t, ht, rfl⟩ := Option.map_eq_some_iff.mp hx; exact h0
  · obtain ⟨t, ht, rfl⟩ := Option.map_eq_some_iff.mp hx; exact h0

theorem freeAllocs_kept {cf ff : Bool} {s0 : State} (p : Nat → Alloc → Bool) (s : State) (h0 : Kept cf ff s0 s) :
    Kept cf ff s0 (freeAllocs p s) := by
  unfold freeAllocs
  repeat' first
    | with_reducible assumption
    | with_reducible apply unmapEmpty_kept
    | intro _
    | dsimp only
    | (with_reducible refine Kept.mk' ?_ rfl; with_reducible assumption)

end Sys2Proof.Machine
end

