-- ==== Sys2Proof/Laws/KeptGap.lean ====
section
/-! SUPPORT. `Kept` for the operations of Machine/Gap.lean. -/

namespace Sys2Proof.Machine

theorem upset_kept {cf ff : Bool} {s0 : State} (blk : Nat) (f : BitVec 576) (s : State) (h0 : Kept cf ff s0 s) : Kept cf ff s0 (upset blk f s) := by
  unfold upset
  split
  · exact h0
  · refine Kept.mkMem h0 rfl fun q => ?_
    rw [Memories.wf_iff] at *
    exact q

theorem violate_kept {cf ff : Bool} {s0 : State} (fn : Nat) (off : Nat) (write : Bool) (s : State) (h0 : Kept cf ff s0 s) :
    Kept cf ff s0 (violate fn off write s) := by
  unfold violate
  repeat' first
    | with_reducible assumption
    | with_reducible apply modFn_kept

theorem bar4Blks_kept {cf ff : Bool} {s0 : State} (fn : Nat) (x0 : List Nat) (x1 : State) (h0 : Kept cf ff s0 x1) :
    Kept cf ff s0 (bar4Blks fn x0 x1).2 := by
  fun_induction bar4Blks fn x0 x1
  all_goals try subst_vars
  all_goals
    repeat' first
      | with_reducible assumption
      | with_reducible apply readRaced_kept
      | with_reducible apply violate_kept
      | split
      | dsimp only
      | with_reducible refine Kept.snd (by assumption) ?_
      | with_reducible refine Kept.sndA (by assumption) ?_
      | with_reducible refine Kept.sndB (by assumption) ?_
      | with_reducible apply_assumption

theorem repairShared_kept {cf ff : Bool} {s0 : State} (fn : Nat) (off : Nat) (mask : Nat) (s : State) (h0 : Kept cf ff s0 s) :
    Kept cf ff s0 (repairShared fn off mask s) := by
  unfold repairShared
  repeat' first
    | with_reducible assumption
    | with_reducible apply henuaEvent_kept
    | split
    | dsimp only
    | with_reducible refine Kept.snd (by assumption) ?_
    | with_reducible refine Kept.sndA (by assumption) ?_
    | with_reducible refine Kept.sndB (by assumption) ?_
    | (with_reducible refine Kept.mk' ?_ rfl; with_reducible assumption)

theorem bar4Blk_kept {cf ff : Bool} {s0 : State} (fn : Nat) (start : Nat) (bytes : List (Option Byte)) (o : Nat) (s : State) (h0 : Kept cf ff s0 s) :
    Kept cf ff s0 (bar4Blk fn start bytes o s) := by
  unfold bar4Blk
  repeat' first
    | with_reducible assumption
    | with_reducible apply repairShared_kept
    | with_reducible apply writeBlk_kept
    | with_reducible apply violate_kept
    | split
    | intro _
    | dsimp only

theorem serveAccess_kept {cf ff : Bool} {s0 : State} (a : StackAccess) (s : State) (h0 : Kept cf ff s0 s) :
    Kept cf ff s0 (serveAccess a s) := by
  unfold serveAccess
  repeat' first
    | with_reducible assumption
    | with_reducible apply readStack_kept
    | with_reducible apply upset_kept
    | with_reducible apply writeStack_kept
    | with_reducible apply emit_kept
    | with_reducible apply bar4Blks_kept
    | with_reducible apply forEach_kept
    | with_reducible apply bar4Blk_kept
    | with_reducible apply setTail_kept
    | with_reducible apply setCqHead_kept
    | split
    | intro _
    | dsimp only
    | with_reducible refine Kept.snd (by assumption) ?_
    | with_reducible refine Kept.sndA (by assumption) ?_
    | with_reducible refine Kept.sndB (by assumption) ?_

theorem holdAccess_kept {cf ff : Bool} {s0 : State} (a : StackAccess) (s : State) (h0 : Kept cf ff s0 s) :
    Kept cf ff s0 (holdAccess a s) := by
  unfold holdAccess
  repeat' first
    | with_reducible assumption
    | with_reducible apply pushHeld_kept
    | with_reducible apply forEach_kept
    | with_reducible apply modStk_kept
    | with_reducible apply wakeSource_kept
    | split
    | intro _
    | dsimp only
    | with_reducible refine Kept.snd (by assumption) ?_
    | with_reducible refine Kept.sndA (by assumption) ?_
    | with_reducible refine Kept.sndB (by assumption) ?_
    | (with_reducible refine Kept.mk' ?_ rfl
       first
       | with_reducible assumption
       | with_reducible apply pushHeld_kept
       | with_reducible apply forEach_kept
       | with_reducible apply modStk_kept
       | with_reducible apply wakeSource_kept
       | split
       | with_reducible refine Kept.snd (by assumption) ?_
       | with_reducible refine Kept.sndA (by assumption) ?_
       | with_reducible refine Kept.sndB (by assumption) ?_)

theorem arrive_kept {cf ff : Bool} {s0 : State} (a : StackAccess) (s : State) (h0 : Kept cf ff s0 s) :
    Kept cf ff s0 (arrive a s) := by
  unfold arrive
  repeat' first
    | with_reducible assumption
    | with_reducible apply holdAccess_kept
    | with_reducible apply serveAccess_kept
    | split
    | dsimp only

theorem offerHeld_kept {cf ff : Bool} {s0 : State} (h : Held) (s : State) (h0 : Kept cf ff s0 s) :
    Kept cf ff s0 (offerHeld h s) := by
  unfold offerHeld
  repeat' first
    | with_reducible assumption
    | with_reducible apply pushHeld_kept
    | with_reducible apply serveAccess_kept
    | with_reducible apply forEach_kept
    | with_reducible apply modStk_kept
    | split
    | intro _
    | dsimp only
    | (with_reducible refine Kept.mk' ?_ rfl
       first
       | with_reducible assumption
       | with_reducible apply pushHeld_kept
       | with_reducible apply serveAccess_kept
       | with_reducible apply forEach_kept
       | with_reducible apply modStk_kept
       | split)

theorem serveHeld_kept {cf ff : Bool} {s0 : State} (s : State) (h0 : Kept cf ff s0 s) :
    Kept cf ff s0 (serveHeld s) := by
  unfold serveHeld
  repeat' first
    | with_reducible assumption
    | with_reducible apply forEach_kept
    | with_reducible apply offerHeld_kept
    | intro _
    | dsimp only
    | (with_reducible refine Kept.mk' ?_ rfl
       first
       | with_reducible assumption
       | with_reducible apply forEach_kept
       | with_reducible apply offerHeld_kept)

theorem dropMover_kept {cf ff : Bool} {s0 : State} (id : Nat) (s : State) (h0 : Kept cf ff s0 s) :
    Kept cf ff s0 (dropMover id s) := by
  unfold dropMover
  repeat' first
    | with_reducible assumption
    | with_reducible apply Kept.ident
    | split
    | intro _
    | dsimp only
    | with_reducible refine Kept.snd (by assumption) ?_
    | with_reducible refine Kept.sndA (by assumption) ?_
    | with_reducible refine Kept.sndB (by assumption) ?_
    | (with_reducible refine Kept.mk' ?_ rfl
       first
       | with_reducible assumption
       | split
       | with_reducible refine Kept.snd (by assumption) ?_
       | with_reducible refine Kept.sndA (by assumption) ?_
       | with_reducible refine Kept.sndB (by assumption) ?_)

theorem viaGap_kept {cf ff : Bool} {s0 : State} (id : Nat) (blks : List Nat) (f : State → State) (s : State) (h0 : ∀ (y0 : State), Kept cf ff s0 y0 → Kept cf ff s0 (f y0)) (h1 : Kept cf ff s0 s) :
    Kept cf ff s0 (viaGap id blks f s) := by
  unfold viaGap
  repeat' first
    | with_reducible assumption
    | with_reducible apply Kept.ident
    | with_reducible apply h0
    | with_reducible apply dropMover_kept
    | with_reducible apply holdAccess_kept
    | split
    | dsimp only

theorem payBank_kept {cf ff : Bool} {s0 : State} (k : Nat) (d : Nat) (b : Nat) (s : State) (h0 : Kept cf ff s0 s) :
    Kept cf ff s0 (payBank k d b s) := by
  unfold payBank
  repeat' first
    | with_reducible assumption
    | with_reducible apply modStk_kept
    | split
    | intro _
    | dsimp only
    | (with_reducible refine Kept.mk' ?_ rfl
       first
       | with_reducible assumption
       | with_reducible apply modStk_kept
       | split)

theorem payForced_kept {cf ff : Bool} {s0 : State} (k : Nat) (d : Nat) (p : Nat) (s : State) (h0 : Kept cf ff s0 s) :
    Kept cf ff s0 (payForced k d p s) := by
  unfold payForced
  repeat' first
    | with_reducible assumption
    | with_reducible apply forEach_kept
    | with_reducible apply whenS_kept
    | with_reducible apply payBank_kept
    | intro _
    | dsimp only

theorem refreshPair_kept {cf ff : Bool} {s0 : State} (k : Nat) (d : Nat) (p : Nat) (s : State) (h0 : Kept cf ff s0 s) :
    Kept cf ff s0 (refreshPair k d p s) := by
  unfold refreshPair
  repeat' first
    | with_reducible assumption
    | with_reducible apply whenS_kept
    | with_reducible apply forEach_kept
    | with_reducible apply payBank_kept
    | intro _
    | dsimp only

theorem serveGapGo_kept {cf ff : Bool} {s0 : State} (k d p : Nat) (l : List Held) (rows : Tab Nat) (s : State) (h0 : Kept cf ff s0 s) :
    Kept cf ff s0 (serveGapGo k d p l rows s) := by
  induction l generalizing rows s with
  | nil => exact h0
  | cons h t ih =>
    unfold serveGapGo
    dsimp only
    split
    · exact ih _ _ (offerHeld_kept _ _ h0)
    · exact ih _ _ (pushHeld_kept _ _ h0)

theorem closeSlice_kept {cf ff : Bool} {s0 : State} (k : Nat) (d : Nat) (p : Nat) (s : State) (h0 : Kept cf ff s0 s) :
    Kept cf ff s0 (closeSlice k d p s) := by
  unfold closeSlice
  repeat' first
    | with_reducible assumption
    | with_reducible apply payForced_kept
    | with_reducible apply modStk_kept
    | with_reducible apply refreshPair_kept
    | with_reducible apply serveGapGo_kept
    | intro _
    | dsimp only
    | (with_reducible refine Kept.mk' ?_ rfl
       first
       | with_reducible assumption
       | with_reducible apply payForced_kept
       | with_reducible apply modStk_kept
       | with_reducible apply refreshPair_kept
       | with_reducible apply serveGapGo_kept)

end Sys2Proof.Machine
end

