-- ==== Sys2Proof/Laws/KeptTenants.lean ====
section
/-! SUPPORT. `Kept` for the operations of Machine/Tenants.lean. -/

namespace Sys2Proof.Machine

theorem tabGet?_filter {α : Type} (p : Nat → Bool) (k : Nat) (t : Tab α) :
    tabGet? k (t.filter fun e => p e.1) = if p k then tabGet? k t else none := by
  induction t with
  | nil => simp [tabGet?]
  | cons e t ih =>
    obtain ⟨j, b⟩ := e
    by_cases q : j = k
    · subst q
      by_cases r : p j <;> simp [List.filter_cons, tabGet?, r, ih]
    · by_cases r : p j <;> simp [List.filter_cons, tabGet?, r, ih, q]

theorem zeroCounters_kept {cf ff : Bool} {s0 : State} (base n : Nat) (s : State) (h0 : Kept cf ff s0 s) : Kept cf ff s0 (zeroCounters base n s) := by
  unfold zeroCounters
  refine h0.trans ⟨rfl, fun _ => rfl, fun _ => ⟨rfl, rfl⟩, id, id, fun q => ?_⟩
  have key : ∀ c, (tabGetD 0 c (s.ctrs.vals.filter fun e => !(decide (base ≤ e.1 ∧ e.1 < base + n)))).toNat
      ≤ (tabGetD 0 c s.ctrs.vals).toNat := by
    intro c
    unfold tabGetD
    rw [tabGet?_filter (fun e => !(decide (base ≤ e ∧ e < base + n)))]
    split
    · exact Nat.le_refl _
    · exact Nat.zero_le _
  exact ⟨fun w hw ht => Nat.lt_of_le_of_lt (key _) (q.1 w hw ht), fun c a ha => Nat.lt_of_le_of_lt (key _) (q.2 c a ha)⟩

theorem checkRings_kept {cf ff : Bool} {s0 : State} (f : Nat) (s : State) (h0 : Kept cf ff s0 s) :
    Kept cf ff s0 (checkRings f s) := by
  unfold checkRings
  repeat' first
    | with_reducible assumption
    | with_reducible apply modFn_kept

theorem addTenant_kept {cf ff : Bool} {s0 : State} (t : Nat) (p : Profile) (base : Nat) (s : State) (h0 : Kept cf ff s0 s) :
    Kept cf ff s0 (addTenant t p base s) := by
  unfold addTenant
  repeat' first
    | with_reducible assumption
    | with_reducible apply checkRings_kept
    | with_reducible apply zeroCounters_kept
    | dsimp only
    | (with_reducible refine Kept.mk' ?_ rfl; with_reducible assumption)

theorem execTenantCreate_kept {cf ff : Bool} {s0 : State} (h : Nat) (s : State) (h0 : Kept cf ff s0 s) :
    ResKept cf ff s0 (execTenantCreate h s) := by
  unfold execTenantCreate
  repeat' first
    | with_reducible assumption
    | with_reducible apply runCmd_kept
    | with_reducible apply hostFetch_kept
    | with_reducible apply finishCmd_kept
    | with_reducible apply placeContext_kept
    | with_reducible apply addTenant_kept
    | exact ResKept.same (by assumption)
    | split
    | intro _
    | dsimp only
    | with_reducible refine Kept.snd (by assumption) ?_
    | with_reducible refine Kept.opt (by assumption) ?_
    | with_reducible refine Kept.sndA (by assumption) ?_
    | with_reducible refine Kept.sndB (by assumption) ?_

theorem freeTenant_kept {cf ff : Bool} {s0 : State} (t : Nat) (s : State) (h0 : Kept cf ff s0 s) :
    Kept cf ff s0 (freeTenant t s) := by
  unfold freeTenant
  repeat' first
    | with_reducible assumption
    | with_reducible apply modFn_kept
    | with_reducible apply freeAllocs_kept
    | intro _
    | dsimp only
    | (with_reducible refine Kept.mk' ?_ rfl; with_reducible assumption)

theorem execTenantDestroy_kept {cf ff : Bool} {s0 : State} (h : Nat) (s : State) (h0 : Kept cf ff s0 s) :
    ResKept cf ff s0 (execTenantDestroy h s) := by
  unfold execTenantDestroy
  repeat' first
    | with_reducible assumption
    | with_reducible apply runCmd_kept
    | with_reducible apply schedule_kept
    | with_reducible apply modCmd_kept
    | with_reducible apply forEach_kept
    | with_reducible apply cancelCmd_kept
    | with_reducible apply finishCmd_kept
    | exact ResKept.same (by assumption)
    | split
    | intro _
    | dsimp only
    | (with_reducible refine Kept.mk' ?_ rfl
       first
       | with_reducible assumption
       | with_reducible apply runCmd_kept
       | with_reducible apply schedule_kept
       | with_reducible apply modCmd_kept
       | with_reducible apply forEach_kept
       | with_reducible apply cancelCmd_kept
       | with_reducible apply finishCmd_kept
       | split)

theorem execSqCreate_kept {cf ff : Bool} {s0 : State} (h : Nat) (s : State) (h0 : Kept cf ff s0 s) :
    ResKept cf ff s0 (execSqCreate h s) := by
  unfold execSqCreate
  repeat' first
    | with_reducible assumption
    | with_reducible apply runCmd_kept
    | with_reducible apply finishCmd_kept
    | exact ResKept.same (by assumption)
    | intro _
    | dsimp only

theorem execSqDestroy_kept {cf ff : Bool} {s0 : State} (h : Nat) (s : State) (h0 : Kept cf ff s0 s) :
    ResKept cf ff s0 (execSqDestroy h s) := by
  unfold execSqDestroy
  repeat' first
    | with_reducible assumption
    | with_reducible apply runCmd_kept
    | with_reducible apply finishCmd_kept
    | with_reducible apply modQueue_kept
    | exact ResKept.same (by assumption)
    | split
    | intro _
    | dsimp only
    | with_reducible refine Kept.snd (by assumption) ?_
    | with_reducible refine Kept.opt (by assumption) ?_
    | with_reducible refine Kept.sndA (by assumption) ?_
    | with_reducible refine Kept.sndB (by assumption) ?_
    | (with_reducible refine Kept.mk' ?_ rfl
       first
       | with_reducible assumption
       | with_reducible apply runCmd_kept
       | with_reducible apply finishCmd_kept
       | with_reducible apply modQueue_kept
       | split
       | with_reducible refine Kept.snd (by assumption) ?_
       | with_reducible refine Kept.opt (by assumption) ?_
       | with_reducible refine Kept.sndA (by assumption) ?_
       | with_reducible refine Kept.sndB (by assumption) ?_)

theorem execGroupDeadline_kept {cf ff : Bool} {s0 : State} (h : Nat) (s : State) (h0 : Kept cf ff s0 s) :
    ResKept cf ff s0 (execGroupDeadline h s) := by
  unfold execGroupDeadline
  repeat' first
    | with_reducible assumption
    | with_reducible apply runCmd_kept
    | with_reducible apply finishCmd_kept
    | intro _

theorem execCmdCancel_kept {cf ff : Bool} {s0 : State} (h : Nat) (s : State) (h0 : Kept cf ff s0 s) :
    ResKept cf ff s0 (execCmdCancel h s) := by
  unfold execCmdCancel
  repeat' first
    | with_reducible assumption
    | with_reducible apply runCmd_kept
    | with_reducible apply schedule_kept
    | with_reducible apply finishCmd_kept
    | with_reducible apply modCmd_kept
    | with_reducible apply forEach_kept
    | with_reducible apply cancelCmd_kept
    | intro _

theorem execTenantPause_kept {cf ff : Bool} {s0 : State} (h : Nat) (s : State) (h0 : Kept cf ff s0 s) :
    ResKept cf ff s0 (execTenantPause h s) := by
  unfold execTenantPause
  repeat' first
    | with_reducible assumption
    | with_reducible apply runCmd_kept
    | with_reducible apply modTen_kept
    | with_reducible apply finishCmd_kept
    | with_reducible apply schedule_kept
    | with_reducible apply pauseDone_kept
    | with_reducible apply forEach_kept
    | with_reducible apply pauseRun_kept
    | with_reducible apply modCmd_kept
    | exact ResKept.same (by assumption)
    | split
    | intro _
    | dsimp only
    | (with_reducible refine Kept.mk' ?_ rfl
       first
       | with_reducible assumption
       | with_reducible apply runCmd_kept
       | with_reducible apply modTen_kept
       | with_reducible apply finishCmd_kept
       | with_reducible apply schedule_kept
       | with_reducible apply pauseDone_kept
       | with_reducible apply forEach_kept
       | with_reducible apply pauseRun_kept
       | with_reducible apply modCmd_kept
       | split)

theorem execTenantResume_kept {cf ff : Bool} {s0 : State} (h : Nat) (s : State) (h0 : Kept cf ff s0 s) :
    ResKept cf ff s0 (execTenantResume h s) := by
  unfold execTenantResume
  repeat' first
    | with_reducible assumption
    | with_reducible apply runCmd_kept
    | with_reducible apply finishCmd_kept
    | with_reducible apply modTen_kept
    | with_reducible apply whenS_kept
    | with_reducible apply wakeSource_kept
    | with_reducible apply schedule_kept
    | intro _

end Sys2Proof.Machine
end

