-- ==== Sys2Proof/Laws/KeptMemCmds.lean ====
section
/-! SUPPORT. `Kept` for the operations of Machine/MemCmds.lean. -/

namespace Sys2Proof.Machine

theorem freeSlots_kept {cf ff : Bool} {s0 : State} (d : Desc) (n : Nat) (a : Acc) (h0 : Kept cf ff s0 a.s) : Kept cf ff s0 (freeSlots d n a).2.s :=
  freshVal_kept _ _ h0

theorem execAlloc_kept {cf ff : Bool} {s0 : State} (h : Nat) (s : State) (h0 : Kept cf ff s0 s) :
    ResKept cf ff s0 (execAlloc h s) := by
  unfold execAlloc
  repeat' first
    | with_reducible assumption
    | with_reducible apply runCmd_kept
    | with_reducible apply finishCmd_kept
    | with_reducible apply placeAlloc_kept
    | split
    | intro _
    | dsimp only
    | with_reducible refine Kept.snd (by assumption) ?_
    | with_reducible refine Kept.opt (by assumption) ?_
    | with_reducible refine Kept.sndA (by assumption) ?_
    | with_reducible refine Kept.sndB (by assumption) ?_
    | (with_reducible refine Kept.mk' ?_ rfl
       first
       | with_reducible assumption
       | with_reducible apply runCmd_kept
       | with_reducible apply finishCmd_kept
       | with_reducible apply placeAlloc_kept
       | split
       | with_reducible refine Kept.snd (by assumption) ?_
       | with_reducible refine Kept.opt (by assumption) ?_)

theorem emptySlots_kept {cf ff : Bool} {s0 : State} (ds : List (Nat × Nat)) (s : State) (h0 : Kept cf ff s0 s) :
    Kept cf ff s0 (emptySlots ds s) := by
  unfold emptySlots
  repeat' first
    | with_reducible assumption
    | intro _
    | dsimp only
    | (with_reducible refine Kept.mk' ?_ rfl; with_reducible assumption)

theorem dropDescs_kept {cf ff : Bool} {s0 : State} (ds : List (Nat × Nat)) (s : State) (h0 : Kept cf ff s0 s) :
    Kept cf ff s0 (dropDescs ds s) := by
  unfold dropDescs
  repeat' first
    | with_reducible assumption
    | with_reducible apply emptySlots_kept
    | with_reducible apply forEach_kept
    | with_reducible apply modTen_kept
    | intro _

theorem execFree_kept {cf ff : Bool} {s0 : State} (h : Nat) (s : State) (h0 : Kept cf ff s0 s) :
    ResKept cf ff s0 (execFree h s) := by
  unfold execFree
  repeat' first
    | with_reducible assumption
    | with_reducible apply runCmd_kept
    | with_reducible apply finishCmd_kept
    | with_reducible apply emptySlots_kept
    | exact ResKept.same (by assumption)
    | split
    | intro _
    | dsimp only

theorem bornDesc_kept {cf ff : Bool} {s0 : State} (c : Cmd) (s : State) (h0 : Kept cf ff s0 s) :
    Kept cf ff s0 (bornDesc c s) := by
  unfold bornDesc
  repeat' first
    | with_reducible assumption
    | with_reducible apply modTen_kept
    | split
    | intro _
    | dsimp only
    | with_reducible refine Kept.snd (by assumption) ?_
    | with_reducible refine Kept.opt (by assumption) ?_
    | with_reducible refine Kept.sndA (by assumption) ?_
    | with_reducible refine Kept.sndB (by assumption) ?_
    | (with_reducible refine Kept.mk' ?_ rfl
       first
       | with_reducible assumption
       | with_reducible apply modTen_kept
       | split
       | with_reducible refine Kept.snd (by assumption) ?_
       | with_reducible refine Kept.opt (by assumption) ?_
       | with_reducible refine Kept.sndA (by assumption) ?_
       | with_reducible refine Kept.sndB (by assumption) ?_)

theorem execDescCreate_kept {cf ff : Bool} {s0 : State} (h : Nat) (s : State) (h0 : Kept cf ff s0 s) :
    ResKept cf ff s0 (execDescCreate h s) := by
  unfold execDescCreate
  repeat' first
    | with_reducible assumption
    | with_reducible apply runCmd_kept
    | with_reducible apply finishCmd_kept
    | exact ResKept.same (by assumption)
    | intro _
    | dsimp only

theorem execDescDestroy_kept {cf ff : Bool} {s0 : State} (h : Nat) (s : State) (h0 : Kept cf ff s0 s) :
    ResKept cf ff s0 (execDescDestroy h s) := by
  unfold execDescDestroy
  repeat' first
    | with_reducible assumption
    | with_reducible apply runCmd_kept
    | with_reducible apply finishCmd_kept
    | with_reducible apply emptySlots_kept
    | exact ResKept.same (by assumption)
    | split
    | intro _
    | dsimp only

theorem poisonBlock_kept {cf ff : Bool} {s0 : State} (space inst off tenant : Nat) (s : State) (h0 : Kept cf ff s0 s) :
    Kept cf ff s0 (poisonBlock space inst off tenant s) := by
  unfold poisonBlock
  split
  · exact recordFault_kept _ _ _ _ _ _ _ (setZ_kept _ _ _ _ h0 fun q => zMem_wf q _)
  · exact h0

theorem sluiceMove_kept {cf ff : Bool} {s0 : State} (e : Nat) (tenant : Nat) (src : Desc) (dst : Desc) (from_ : Nat → Nat) (f : SlotFn) (ps : List Line) (crc : CrcOutcome) (a : Acc) (h0 : ∀ (y0 : Nat) (y1 : Acc), Kept cf ff s0 y1.s → Kept cf ff s0 (f y0 y1).2.s) (h1 : Kept cf ff s0 a.s) :
    Kept cf ff s0 (sluiceMove e tenant src dst from_ f ps crc a).2.s := by
  unfold sluiceMove
  repeat' first
    | with_reducible assumption
    | with_reducible apply h0
    | with_reducible apply wrPieces_kept
    | with_reducible apply addOut_kept
    | with_reducible apply recordFault_kept
    | with_reducible apply faultEvent_kept
    | with_reducible apply scramble_kept
    | with_reducible apply poisonBlock_kept
    | split

theorem scrambleTouched_kept {cf ff : Bool} {s0 : State} (h : Nat) (a : Acc) (h0 : Kept cf ff s0 a.s) :
    Kept cf ff s0 (scrambleTouched h a) := by
  unfold scrambleTouched
  repeat' first
    | with_reducible assumption
    | with_reducible apply forEach_kept
    | with_reducible apply scramble_kept
    | split
    | intro _
    | dsimp only
    | with_reducible refine Kept.snd (by assumption) ?_
    | with_reducible refine Kept.opt (by assumption) ?_
    | with_reducible refine Kept.sndA (by assumption) ?_
    | with_reducible refine Kept.sndB (by assumption) ?_

theorem finishAcc_kept {cf ff : Bool} {s0 : State} (h : Nat) (value : Nat) (a : Acc) (h0 : Kept cf ff s0 a.s) :
    Kept cf ff s0 (finishAcc h value a) := by
  unfold finishAcc
  repeat' first
    | with_reducible assumption
    | with_reducible apply finishCmd_kept
    | with_reducible apply scrambleTouched_kept
    | dsimp only

theorem freeEnd_kept {cf ff : Bool} {s0 : State} (ends : List Nat) (a : Acc) (h0 : Kept cf ff s0 a.s) :
    Kept cf ff s0 (freeEnd ends a).s := by
  unfold freeEnd
  repeat' first
    | with_reducible assumption
    | dsimp only
    | (with_reducible refine Kept.mk' ?_ rfl; with_reducible assumption)

theorem freeMeet_kept {cf ff : Bool} {s0 : State} (d : Desc) (e : Desc) (s : State) (h0 : Kept cf ff s0 s) :
    Kept cf ff s0 (freeMeet d e s) := by
  unfold freeMeet
  repeat' first
    | with_reducible assumption
    | with_reducible apply forEach_kept
    | with_reducible apply freeBlock_kept
    | with_reducible apply writeBlk_kept
    | split
    | intro _
    | dsimp only

theorem meetRivals_kept {cf ff : Bool} {s0 : State} (c : Option Cmd) (fop : Option Nat) (atomic : Bool) (rivals : List Desc) (ds : List Desc) (s : State) (h0 : Kept cf ff s0 s) :
    Kept cf ff s0 (meetRivals c fop atomic rivals ds s) := by
  unfold meetRivals
  repeat' first
    | with_reducible assumption
    | with_reducible apply forEach_kept
    | with_reducible apply freeMeet_kept
    | split
    | intro _
    | dsimp only
    | with_reducible refine Kept.snd (by assumption) ?_
    | with_reducible refine Kept.opt (by assumption) ?_
    | with_reducible refine Kept.sndA (by assumption) ?_
    | with_reducible refine Kept.sndB (by assumption) ?_
    | (with_reducible refine Kept.mk' ?_ rfl
       first
       | with_reducible assumption
       | with_reducible apply forEach_kept
       | with_reducible apply freeMeet_kept
       | split
       | with_reducible refine Kept.snd (by assumption) ?_
       | with_reducible refine Kept.opt (by assumption) ?_
       | with_reducible refine Kept.sndA (by assumption) ?_
       | with_reducible refine Kept.sndB (by assumption) ?_)

theorem finishMove_kept {cf ff : Bool} {s0 : State} (c : Cmd) (ds : List Desc) (value : Nat) (a : Acc) (h0 : Kept cf ff s0 a.s) :
    Kept cf ff s0 (finishMove c ds value a) := by
  unfold finishMove
  repeat' first
    | with_reducible assumption
    | with_reducible apply finishAcc_kept
    | with_reducible apply meetRivals_kept
    | dsimp only
    | (with_reducible refine Kept.mk' ?_ rfl
       first
       | with_reducible assumption
       | with_reducible apply finishAcc_kept
       | with_reducible apply meetRivals_kept)

theorem transposeInPlace_kept {cf ff : Bool} {s0 : State} (d : Desc) (a : Acc) (h0 : Kept cf ff s0 a.s) :
    Kept cf ff s0 (transposeInPlace d a).2.s := by
  unfold transposeInPlace
  repeat' first
    | with_reducible assumption
    | with_reducible apply rdEls_kept
    | with_reducible apply wrPieces_kept
    | intro _

theorem onSluice_kept {cf ff : Bool} {s0 : State} (c : Cmd) (a : Desc) (b : Desc) (ix : Desc) (move : Nat → Acc → Nat × Acc) (s : State) (h0 : ∀ (y0 : Nat) (y1 : Acc), Kept cf ff s0 y1.s → Kept cf ff s0 (move y0 y1).2.s) (h1 : Kept cf ff s0 s) :
    Kept cf ff s0 (onSluice c a b ix move s) := by
  unfold onSluice
  repeat' first
    | with_reducible assumption
    | with_reducible apply h0
    | with_reducible apply Acc.on_kept
    | with_reducible apply finishCmd_kept
    | with_reducible apply scramble_kept
    | with_reducible apply viaGap_kept
    | with_reducible apply finishMove_kept
    | split
    | intro _
    | dsimp only
    | with_reducible refine Kept.snd (by assumption) ?_
    | with_reducible refine Kept.opt (by assumption) ?_
    | with_reducible refine Kept.sndA (by assumption) ?_
    | with_reducible refine Kept.sndB (by assumption) ?_

theorem execCopy_kept {cf ff : Bool} {s0 : State} (h : Nat) (crc : CrcOutcome) (s : State) (h0 : Kept cf ff s0 s) :
    ResKept cf ff s0 (execCopy h crc s) := by
  unfold execCopy
  repeat' first
    | with_reducible assumption
    | with_reducible apply Acc.on_kept
    | with_reducible apply runCmd_kept
    | with_reducible apply transposeInPlace_kept
    | with_reducible apply finishMove_kept
    | with_reducible apply finishCmd_kept
    | with_reducible apply onSluice_kept
    | with_reducible apply sluiceMove_kept
    | with_reducible apply freeSlots_kept
    | with_reducible apply freeEnd_kept
    | with_reducible apply rdEl_kept
    | exact ResKept.same (by assumption)
    | split
    | intro _
    | dsimp only

theorem indexAt_kept {cf ff : Bool} {s0 : State} (ix : Desc) (count : Nat) (i : Nat) (a : Acc) (h0 : Kept cf ff s0 a.s) :
    Kept cf ff s0 (indexAt ix count i a).2.s := by
  unfold indexAt
  repeat' first
    | with_reducible assumption
    | with_reducible apply rdEl_kept

theorem indexList_kept {cf ff : Bool} {s0 : State} (ix : Desc) (count : Nat) (a : Acc) (h0 : Kept cf ff s0 a.s) :
    Kept cf ff s0 (indexList ix count a).2.s := by
  unfold indexList
  repeat' first
    | with_reducible assumption
    | with_reducible apply rdEls_kept

theorem execCopyIndexed_kept {cf ff : Bool} {s0 : State} (h : Nat) (crc : CrcOutcome) (s : State) (h0 : Kept cf ff s0 s) :
    ResKept cf ff s0 (execCopyIndexed h crc s) := by
  unfold execCopyIndexed
  repeat' first
    | with_reducible assumption
    | with_reducible apply runCmd_kept
    | with_reducible apply finishCmd_kept
    | with_reducible apply onSluice_kept
    | with_reducible apply indexList_kept
    | with_reducible apply freeSlots_kept
    | with_reducible apply rdEl_kept
    | with_reducible apply sluiceMove_kept
    | with_reducible apply freeEnd_kept
    | exact ResKept.same (by assumption)
    | split
    | intro _
    | dsimp only
    | with_reducible refine Kept.snd (by assumption) ?_
    | with_reducible refine Kept.opt (by assumption) ?_
    | with_reducible refine Kept.sndA (by assumption) ?_
    | with_reducible refine Kept.sndB (by assumption) ?_

end Sys2Proof.Machine
end

