-- ==== Sys2Proof/Laws/KeptFurrowOps.lean ====
section
/-! SUPPORT. `Kept` for the operations of Machine/FurrowOps.lean. -/

namespace Sys2Proof.Machine

theorem patternSlots_kept {cf ff : Bool} {s0 : State} (p4 p5 : Nat) (d : Desc) (n : Nat) (a : Acc) (h0 : Kept cf ff s0 a.s) :
    Kept cf ff s0 (patternSlots p4 p5 d n a).2.s := h0

theorem rdList_kept {cf ff : Bool} {s0 : State} (d : Desc) (x0 : List Nat) (x1 : Acc) (h0 : Kept cf ff s0 x1.s) :
    Kept cf ff s0 (rdList d x0 x1).2.s := by
  fun_induction rdList d x0 x1
  all_goals try subst_vars
  all_goals
    repeat' first
      | with_reducible assumption
      | with_reducible apply rdEl_kept
      | split
      | dsimp only
      | with_reducible refine Kept.snd (by assumption) ?_
      | with_reducible refine Kept.sndA (by assumption) ?_
      | with_reducible refine Kept.sndB (by assumption) ?_
      | with_reducible apply_assumption

theorem wrFirst_kept {cf ff : Bool} {s0 : State} (d : Desc) (n : Nat) (f : Nat → Acc → PV × Acc) (a : Acc) (h0 : ∀ (y0 : Nat) (y1 : Acc), Kept cf ff s0 y1.s → Kept cf ff s0 (f y0 y1).2.s) (h1 : Kept cf ff s0 a.s) :
    Kept cf ff s0 (wrFirst d n f a).s := by
  unfold wrFirst
  repeat' first
    | with_reducible assumption
    | with_reducible apply h0
    | with_reducible apply wrPieces_kept
    | split
    | intro _

theorem wrRows_kept {cf ff : Bool} {s0 : State} (bad : Bool) (d : Desc) (f : Nat → Acc → PV × Acc) (a : Acc) (h0 : ∀ (y0 : Nat) (y1 : Acc), Kept cf ff s0 y1.s → Kept cf ff s0 (f y0 y1).2.s) (h1 : Kept cf ff s0 a.s) :
    Kept cf ff s0 (wrRows bad d f a).s := by
  unfold wrRows
  repeat' first
    | with_reducible assumption
    | with_reducible apply h0
    | with_reducible apply freeEnd_kept
    | with_reducible apply wrPieces_kept
    | with_reducible apply freeSlots_kept
    | split
    | intro _
    | dsimp only

theorem fopCopyGo_kept {cf ff : Bool} {s0 : State} (p : FopParams) (a : Acc) (h0 : Kept cf ff s0 a.s) :
    Kept cf ff s0 (fopCopyGo p a).s := by
  unfold fopCopyGo
  repeat' first
    | with_reducible assumption
    | with_reducible apply wrRows_kept
    | with_reducible apply rdEl_kept
    | intro _
    | dsimp only

theorem fopFillGo_kept {cf ff : Bool} {s0 : State} (p : FopParams) (a : Acc) (h0 : Kept cf ff s0 a.s) :
    Kept cf ff s0 (fopFillGo p a).s := by
  unfold fopFillGo
  repeat' first
    | with_reducible assumption
    | with_reducible apply wrPieces_kept
    | with_reducible apply patternSlots_kept
    | dsimp only

theorem fillPartGo_kept {cf ff : Bool} {s0 : State} (p : FopParams) (a : Acc) (h0 : Kept cf ff s0 a.s) :
    Kept cf ff s0 (fillPartGo p a).s := by
  unfold fillPartGo
  repeat' first
    | with_reducible assumption
    | with_reducible apply patternSlots_kept
    | with_reducible apply wrPieces_kept
    | intro _
    | dsimp only
    | (with_reducible refine Kept.mk' ?_ rfl
       first
       | with_reducible assumption
       | with_reducible apply patternSlots_kept
       | with_reducible apply wrPieces_kept)

theorem fopLogicGo_kept {cf ff : Bool} {s0 : State} (p : FopParams) (a : Acc) (h0 : Kept cf ff s0 a.s) :
    Kept cf ff s0 (fopLogicGo p a).s := by
  unfold fopLogicGo
  repeat' first
    | with_reducible assumption
    | with_reducible apply wrRows_kept
    | with_reducible apply rdEl_kept
    | split
    | intro _

theorem fopDotGo_kept {cf ff : Bool} {s0 : State} (p : FopParams) (a : Acc) (h0 : Kept cf ff s0 a.s) :
    Kept cf ff s0 (fopDotGo p a).s := by
  unfold fopDotGo
  repeat' first
    | with_reducible assumption
    | with_reducible apply wrFirst_kept
    | with_reducible apply rdEls_kept
    | intro _

theorem rowScaleOf_kept {cf ff : Bool} {s0 : State} (p : FopParams) (row : Nat) (a : Acc) (h0 : Kept cf ff s0 a.s) :
    Kept cf ff s0 (rowScaleOf p row a).2.s := by
  unfold rowScaleOf
  repeat' first
    | with_reducible assumption
    | with_reducible apply rdEl_kept
    | split

theorem fopAxpyGo_kept {cf ff : Bool} {s0 : State} (p : FopParams) (a : Acc) (h0 : Kept cf ff s0 a.s) :
    Kept cf ff s0 (fopAxpyGo p a).s := by
  unfold fopAxpyGo
  repeat' first
    | with_reducible assumption
    | with_reducible apply wrRows_kept
    | with_reducible apply rowScaleOf_kept
    | with_reducible apply rdEl_kept
    | intro _
    | dsimp only

theorem fopAxpyReduceGo_kept {cf ff : Bool} {s0 : State} (p : FopParams) (a : Acc) (h0 : Kept cf ff s0 a.s) :
    Kept cf ff s0 (fopAxpyReduceGo p a).s := by
  unfold fopAxpyReduceGo
  repeat' first
    | with_reducible assumption
    | with_reducible apply rowScaleOf_kept
    | with_reducible apply wrFirst_kept
    | with_reducible apply rdList_kept
    | split
    | with_reducible refine Kept.foldl _ _ _ ?_ ?_
    | intro _
    | dsimp only
    | with_reducible refine Kept.foldlA _ _ _ ?_ ?_
    | with_reducible refine Kept.foldlS _ _ _ ?_ ?_

theorem gatherGo_kept {cf ff : Bool} {s0 : State} (p : FopParams) (outs : Nat) (bad : List Nat) (span : Nat → Acc → (List Nat × Bool) × Acc) (a : Acc) (h0 : ∀ (y0 : Nat) (y1 : Acc), Kept cf ff s0 y1.s → Kept cf ff s0 (span y0 y1).2.s) (h1 : Kept cf ff s0 a.s) :
    Kept cf ff s0 (gatherGo p outs bad span a).s := by
  unfold gatherGo
  repeat' first
    | with_reducible assumption
    | with_reducible apply h0
    | with_reducible apply wrFirst_kept
    | with_reducible apply freshVal_kept
    | with_reducible apply rdList_kept
    | split
    | intro _
    | dsimp only
    | (with_reducible refine Kept.mk' ?_ rfl
       first
       | with_reducible assumption
       | with_reducible apply h0
       | with_reducible apply wrFirst_kept
       | with_reducible apply freshVal_kept
       | with_reducible apply rdList_kept
       | split)

theorem fopGatherGo_kept {cf ff : Bool} {s0 : State} (p : FopParams) (a : Acc) (h0 : Kept cf ff s0 a.s) :
    Kept cf ff s0 (fopGatherGo p a).s := by
  unfold fopGatherGo
  repeat' first
    | with_reducible assumption
    | with_reducible apply gatherGo_kept
    | intro _
    | dsimp only

theorem fopSegmentGo_kept {cf ff : Bool} {s0 : State} (p : FopParams) (a : Acc) (h0 : Kept cf ff s0 a.s) :
    Kept cf ff s0 (fopSegmentGo p a).s := by
  unfold fopSegmentGo
  repeat' first
    | with_reducible assumption
    | with_reducible apply rdEls_kept
    | with_reducible apply freeEnd_kept
    | with_reducible apply gatherGo_kept
    | split
    | intro _
    | dsimp only

theorem atomicGo_kept {cf ff : Bool} {s0 : State} (p : FopParams) (x0 : Nat) (x1 : Nat) (x2 : Nat × Acc) (h0 : Kept cf ff s0 x2.2.s) :
    Kept cf ff s0 (atomicGo p x0 x1 x2).2.s := by
  induction x0 generalizing x1 x2
  all_goals
    unfold atomicGo
    repeat' first
      | with_reducible assumption
      | with_reducible apply rdEl_kept
      | with_reducible apply wrEl_kept
      | split
      | dsimp only
      | with_reducible refine Kept.snd (by assumption) ?_
      | with_reducible refine Kept.sndA (by assumption) ?_
      | with_reducible refine Kept.sndB (by assumption) ?_
      | with_reducible apply_assumption

theorem pageScoreGo_kept {cf ff : Bool} {s0 : State} (p : FopParams) (x0 : Nat) (x1 : Nat) (x2 : Acc) (h0 : Kept cf ff s0 x2.s) :
    Kept cf ff s0 (pageScoreGo p x0 x1 x2).s := by
  fun_induction pageScoreGo p x0 x1 x2
  all_goals try subst_vars
  all_goals
    repeat' first
      | with_reducible assumption
      | with_reducible apply rdEl_kept
      | with_reducible apply rdEls_kept
      | with_reducible apply wrEl_kept
      | split
      | dsimp only
      | with_reducible refine Kept.snd (by assumption) ?_
      | with_reducible refine Kept.sndA (by assumption) ?_
      | with_reducible refine Kept.sndB (by assumption) ?_
      | with_reducible apply_assumption

theorem fopGo_kept {cf ff : Bool} {s0 : State} (p : FopParams) (a : Acc) (h0 : Kept cf ff s0 a.s) :
    Kept cf ff s0 (fopGo p a).2.s := by
  unfold fopGo
  repeat' first
    | with_reducible assumption
    | with_reducible apply fopCopyGo_kept
    | with_reducible apply fopFillGo_kept
    | with_reducible apply fopLogicGo_kept
    | with_reducible apply fopDotGo_kept
    | with_reducible apply fopAxpyGo_kept
    | with_reducible apply fopAxpyReduceGo_kept
    | with_reducible apply fopGatherGo_kept
    | with_reducible apply fopSegmentGo_kept
    | with_reducible apply atomicGo_kept
    | with_reducible apply pageScoreGo_kept
    | split

end Sys2Proof.Machine
end

