-- ==== Sys2Proof/Laws/KeptFurrow.lean ====
section
/-! SUPPORT. `Kept` for the operations of Machine/Furrow.lean. -/

namespace Sys2Proof.Machine

theorem startFop_kept {cf ff : Bool} {s0 : State} (o : FurrowOp) (s : State) (h0 : Kept cf ff s0 s) :
    Kept cf ff s0 (startFop o s) := by
  unfold startFop
  repeat' first
    | with_reducible assumption
    | with_reducible apply Kept.ident
    | with_reducible apply stopFops_kept
    | split
    | intro _
    | dsimp only
    | (with_reducible refine Kept.mk' ?_ rfl
       first
       | with_reducible assumption
       | with_reducible apply stopFops_kept
       | split)

theorem undying_kept {cf ff : Bool} {s0 : State} (t : Nat) (s : State) (h0 : Kept cf ff s0 s) :
    Kept cf ff s0 (undying t s) := by
  unfold undying
  repeat' first
    | with_reducible assumption
    | with_reducible apply modTen_kept

theorem execFurrow_kept {cf ff : Bool} {s0 : State} (h : Nat) (s : State) (h0 : Kept cf ff s0 s) :
    ResKept cf ff s0 (execFurrow h s) := by
  unfold execFurrow
  repeat' first
    | with_reducible assumption
    | with_reducible apply runCmd_kept
    | with_reducible apply startFop_kept
    | with_reducible apply undying_kept
    | exact ResKept.same (by assumption)
    | split
    | intro _
    | dsimp only

theorem fillStack_kept {cf ff : Bool} {s0 : State} (c : Cmd) (d : Desc) (s : State) (h0 : Kept cf ff s0 s) :
    Kept cf ff s0 (fillStack c d s) := by
  unfold fillStack
  repeat' first
    | with_reducible assumption
    | with_reducible apply Acc.on_kept
    | with_reducible apply viaGap_kept
    | with_reducible apply wrPieces_kept
    | with_reducible apply patternSlots_kept
    | with_reducible apply finishMove_kept
    | with_reducible apply startFop_kept
    | split
    | intro _
    | dsimp only
    | (with_reducible refine Kept.mk' ?_ rfl
       first
       | with_reducible assumption
       | with_reducible apply Acc.on_kept
       | with_reducible apply viaGap_kept
       | with_reducible apply wrPieces_kept
       | with_reducible apply patternSlots_kept
       | with_reducible apply finishMove_kept
       | with_reducible apply startFop_kept
       | split)

theorem execFill_kept {cf ff : Bool} {s0 : State} (h : Nat) (s : State) (h0 : Kept cf ff s0 s) :
    ResKept cf ff s0 (execFill h s) := by
  unfold execFill
  repeat' first
    | with_reducible assumption
    | with_reducible apply Acc.on_kept
    | with_reducible apply runCmd_kept
    | with_reducible apply fillStack_kept
    | with_reducible apply finishMove_kept
    | with_reducible apply wrPieces_kept
    | with_reducible apply patternSlots_kept
    | with_reducible apply finishCmd_kept
    | with_reducible apply scramble_kept
    | exact ResKept.same (by assumption)
    | split
    | intro _
    | dsimp only

theorem runFop_kept {cf ff : Bool} {s0 : State} (id : Nat) (op : Nat) (s : State) (h0 : Kept cf ff s0 s) :
    ResKept cf ff s0 (runFop id op s) := by
  unfold runFop
  repeat' first
    | with_reducible assumption
    | with_reducible apply Kept.ident
    | with_reducible apply Acc.on_kept
    | with_reducible apply fillPartGo_kept
    | with_reducible apply fopGo_kept
    | with_reducible apply whenS_kept
    | with_reducible apply scrambleFop_kept
    | with_reducible apply meetRivals_kept
    | with_reducible apply settleFop_kept
    | with_reducible apply modFop_kept
    | exact ResKept.same (by assumption)
    | with_reducible apply ResKept.next
    | split
    | intro _
    | dsimp only
    | with_reducible refine Kept.snd (by assumption) ?_
    | with_reducible refine Kept.sndA (by assumption) ?_
    | with_reducible refine Kept.sndB (by assumption) ?_
    | (with_reducible refine Kept.mk' ?_ rfl
       first
       | with_reducible assumption
       | with_reducible apply Acc.on_kept
       | with_reducible apply fillPartGo_kept
       | with_reducible apply fopGo_kept
       | with_reducible apply whenS_kept
       | with_reducible apply scrambleFop_kept
       | with_reducible apply meetRivals_kept
       | with_reducible apply settleFop_kept
       | with_reducible apply modFop_kept
       | split
       | with_reducible refine Kept.snd (by assumption) ?_
       | with_reducible refine Kept.sndA (by assumption) ?_
       | with_reducible refine Kept.sndB (by assumption) ?_)

theorem execFopCopy_kept {cf ff : Bool} {s0 : State} (id : Nat) (s : State) (h0 : Kept cf ff s0 s) :
    ResKept cf ff s0 (execFopCopy id s) := by
  unfold execFopCopy
  repeat' first
    | with_reducible assumption
    | with_reducible apply Kept.ident
    | with_reducible apply runFop_kept

theorem execFopFill_kept {cf ff : Bool} {s0 : State} (id : Nat) (s : State) (h0 : Kept cf ff s0 s) :
    ResKept cf ff s0 (execFopFill id s) := by
  unfold execFopFill
  repeat' first
    | with_reducible assumption
    | with_reducible apply Kept.ident
    | with_reducible apply runFop_kept

theorem execFopLogic_kept {cf ff : Bool} {s0 : State} (id : Nat) (s : State) (h0 : Kept cf ff s0 s) :
    ResKept cf ff s0 (execFopLogic id s) := by
  unfold execFopLogic
  repeat' first
    | with_reducible assumption
    | with_reducible apply Kept.ident
    | with_reducible apply runFop_kept

theorem execFopDot_kept {cf ff : Bool} {s0 : State} (id : Nat) (s : State) (h0 : Kept cf ff s0 s) :
    ResKept cf ff s0 (execFopDot id s) := by
  unfold execFopDot
  repeat' first
    | with_reducible assumption
    | with_reducible apply Kept.ident
    | with_reducible apply runFop_kept

theorem execFopAxpy_kept {cf ff : Bool} {s0 : State} (id : Nat) (s : State) (h0 : Kept cf ff s0 s) :
    ResKept cf ff s0 (execFopAxpy id s) := by
  unfold execFopAxpy
  repeat' first
    | with_reducible assumption
    | with_reducible apply Kept.ident
    | with_reducible apply runFop_kept

theorem execFopAxpyReduce_kept {cf ff : Bool} {s0 : State} (id : Nat) (s : State) (h0 : Kept cf ff s0 s) :
    ResKept cf ff s0 (execFopAxpyReduce id s) := by
  unfold execFopAxpyReduce
  repeat' first
    | with_reducible assumption
    | with_reducible apply Kept.ident
    | with_reducible apply runFop_kept

theorem execFopGather_kept {cf ff : Bool} {s0 : State} (id : Nat) (s : State) (h0 : Kept cf ff s0 s) :
    ResKept cf ff s0 (execFopGather id s) := by
  unfold execFopGather
  repeat' first
    | with_reducible assumption
    | with_reducible apply Kept.ident
    | with_reducible apply runFop_kept

theorem execFopSegment_kept {cf ff : Bool} {s0 : State} (id : Nat) (s : State) (h0 : Kept cf ff s0 s) :
    ResKept cf ff s0 (execFopSegment id s) := by
  unfold execFopSegment
  repeat' first
    | with_reducible assumption
    | with_reducible apply Kept.ident
    | with_reducible apply runFop_kept

theorem execFopAtomic_kept {cf ff : Bool} {s0 : State} (id : Nat) (s : State) (h0 : Kept cf ff s0 s) :
    ResKept cf ff s0 (execFopAtomic id s) := by
  unfold execFopAtomic
  repeat' first
    | with_reducible assumption
    | with_reducible apply Kept.ident
    | with_reducible apply runFop_kept

theorem execFopAtomicFetch_kept {cf ff : Bool} {s0 : State} (id : Nat) (s : State) (h0 : Kept cf ff s0 s) :
    ResKept cf ff s0 (execFopAtomicFetch id s) := by
  unfold execFopAtomicFetch
  repeat' first
    | with_reducible assumption
    | with_reducible apply Kept.ident
    | with_reducible apply runFop_kept

theorem execFopPageScore_kept {cf ff : Bool} {s0 : State} (id : Nat) (s : State) (h0 : Kept cf ff s0 s) :
    ResKept cf ff s0 (execFopPageScore id s) := by
  unfold execFopPageScore
  repeat' first
    | with_reducible assumption
    | with_reducible apply Kept.ident
    | with_reducible apply runFop_kept

theorem flushPair_kept {cf ff : Bool} {s0 : State} (k : Nat) (d : Nat) (p : Nat) (s : State) (h0 : Kept cf ff s0 s) :
    Kept cf ff s0 (flushPair k d p s) := by
  unfold flushPair
  repeat' first
    | with_reducible assumption
    | with_reducible apply forEach_kept
    | with_reducible apply flushEntry_kept

theorem loadUnit_kept {cf ff : Bool} {s0 : State} (k : Nat) (w : Nat) (p : FopParams) (s : State) (h0 : Kept cf ff s0 s) :
    Kept cf ff s0 (loadUnit k w p s) := by
  unfold loadUnit
  repeat' first
    | with_reducible assumption
    | with_reducible apply Acc.start_kept
    | with_reducible apply rdEls_kept
    | with_reducible apply modStk_kept
    | split
    | intro _
    | dsimp only
    | with_reducible refine Kept.snd (by assumption) ?_
    | with_reducible refine Kept.sndA (by assumption) ?_
    | with_reducible refine Kept.sndB (by assumption) ?_
    | (with_reducible refine Kept.mk' ?_ rfl
       first
       | with_reducible assumption
       | with_reducible apply Acc.start_kept
       | with_reducible apply rdEls_kept
       | with_reducible apply modStk_kept
       | split
       | with_reducible refine Kept.snd (by assumption) ?_
       | with_reducible refine Kept.sndA (by assumption) ?_
       | with_reducible refine Kept.sndB (by assumption) ?_)

theorem openSlice_kept {cf ff : Bool} {s0 : State} (k : Nat) (d : Nat) (p : Nat) (id : Nat) (w : Nat) (o : FurrowOp) (s : State) (h0 : Kept cf ff s0 s) :
    Kept cf ff s0 (openSlice k d p id w o s) := by
  unfold openSlice
  repeat' first
    | with_reducible assumption
    | with_reducible apply Kept.ident
    | with_reducible apply loadUnit_kept
    | with_reducible apply modFop_kept
    | with_reducible apply modStk_kept
    | with_reducible apply flushPair_kept
    | with_reducible apply payForced_kept
    | split
    | intro _
    | dsimp only
    | (with_reducible refine Kept.mk' ?_ rfl
       first
       | with_reducible assumption
       | with_reducible apply loadUnit_kept
       | with_reducible apply modFop_kept
       | with_reducible apply modStk_kept
       | with_reducible apply flushPair_kept
       | with_reducible apply payForced_kept
       | split)

theorem execFurrowSliceStart_kept {cf ff : Bool} {s0 : State} (k : Nat) (d : Nat) (p : Nat) (id : Nat) (checkFails : Nat) (s : State) (h0 : Kept cf ff s0 s) :
    ResKept cf ff s0 (execFurrowSliceStart k d p id checkFails s) := by
  unfold execFurrowSliceStart
  repeat' first
    | with_reducible assumption
    | with_reducible apply Kept.ident
    | with_reducible apply onUnit_kept
    | with_reducible apply openSlice_kept
    | with_reducible apply modFop_kept
    | with_reducible apply modStk_kept
    | with_reducible apply recordFault_kept
    | with_reducible apply faultEvent_kept
    | with_reducible apply closeSlice_kept
    | exact ResKept.same (by assumption)
    | split
    | intro _
    | dsimp only
    | with_reducible refine Kept.snd (by assumption) ?_
    | with_reducible refine Kept.sndA (by assumption) ?_
    | with_reducible refine Kept.sndB (by assumption) ?_
    | (with_reducible refine Kept.mk' ?_ rfl
       first
       | with_reducible assumption
       | with_reducible apply onUnit_kept
       | with_reducible apply openSlice_kept
       | with_reducible apply modFop_kept
       | with_reducible apply modStk_kept
       | with_reducible apply recordFault_kept
       | with_reducible apply faultEvent_kept
       | with_reducible apply closeSlice_kept
       | split
       | with_reducible refine Kept.snd (by assumption) ?_
       | with_reducible refine Kept.sndA (by assumption) ?_
       | with_reducible refine Kept.sndB (by assumption) ?_)

theorem oweRefresh_kept {cf ff : Bool} {s0 : State} (k : Nat) (d : Nat) (b : Nat) (s : State) (h0 : Kept cf ff s0 s) :
    Kept cf ff s0 (oweRefresh k d b s) := by
  unfold oweRefresh
  repeat' first
    | with_reducible assumption
    | with_reducible apply modStk_kept
    | intro _
    | dsimp only
    | (with_reducible refine Kept.mk' ?_ rfl
       first
       | with_reducible assumption
       | with_reducible apply modStk_kept)

theorem execRefreshDue_kept {cf ff : Bool} {s0 : State} (k : Nat) (d : Nat) (b : Nat) (s : State) (h0 : Kept cf ff s0 s) :
    ResKept cf ff s0 (execRefreshDue k d b s) := by
  unfold execRefreshDue
  repeat' first
    | with_reducible assumption
    | with_reducible apply onUnit_kept
    | with_reducible apply oweRefresh_kept
    | with_reducible apply modStk_kept
    | exact ResKept.same (by assumption)
    | split
    | intro _
    | dsimp only
    | with_reducible refine Kept.snd (by assumption) ?_
    | with_reducible refine Kept.sndA (by assumption) ?_
    | with_reducible refine Kept.sndB (by assumption) ?_
    | (with_reducible refine Kept.mk' ?_ rfl
       first
       | with_reducible assumption
       | with_reducible apply onUnit_kept
       | with_reducible apply oweRefresh_kept
       | with_reducible apply modStk_kept
       | split
       | with_reducible refine Kept.snd (by assumption) ?_
       | with_reducible refine Kept.sndA (by assumption) ?_
       | with_reducible refine Kept.sndB (by assumption) ?_)

end Sys2Proof.Machine
end

