-- ==== Sys2Proof/Laws/KeptUnitTests.lean ====
section
/-! SUPPORT. `Kept` for the operations of Machine/UnitTests.lean. -/

namespace Sys2Proof.Machine

theorem beginTest_kept {cf ff : Bool} {s0 : State} (t : Nat) (s : State) (h0 : Kept cf ff s0 s) :
    Kept cf ff s0 (beginTest t s) := by
  unfold beginTest
  repeat' first
    | with_reducible assumption
    | with_reducible apply modTile_kept
    | with_reducible apply moveLogical_kept
    | split

theorem startTest_kept {cf ff : Bool} {s0 : State} (u : UnitRef) (cmds : List Nat) (slot : Bool) (s : State) (h0 : Kept cf ff s0 s) :
    Kept cf ff s0 (startTest u cmds slot s) := by
  unfold startTest
  repeat' first
    | with_reducible assumption
    | with_reducible apply modTest_kept
    | with_reducible apply beginTest_kept
    | split
    | intro _
    | dsimp only
    | with_reducible refine Kept.snd (by assumption) ?_
    | with_reducible refine Kept.sndA (by assumption) ?_
    | with_reducible refine Kept.sndB (by assumption) ?_
    | (with_reducible refine Kept.mk' ?_ rfl
       first
       | with_reducible assumption
       | with_reducible apply modTest_kept
       | with_reducible apply beginTest_kept
       | split
       | with_reducible refine Kept.snd (by assumption) ?_
       | with_reducible refine Kept.sndA (by assumption) ?_
       | with_reducible refine Kept.sndB (by assumption) ?_)

theorem skipSlot_kept {cf ff : Bool} {s0 : State} (s : State) (h0 : Kept cf ff s0 s) :
    Kept cf ff s0 (skipSlot s) := by
  unfold skipSlot
  repeat' first
    | with_reducible assumption
    | with_reducible apply modTest_kept

theorem slotFor_kept {cf ff : Bool} {s0 : State} (u : UnitRef) (usable : Bool) (s : State) (h0 : Kept cf ff s0 s) :
    Kept cf ff s0 (slotFor u usable s) := by
  unfold slotFor
  repeat' first
    | with_reducible assumption
    | with_reducible apply skipSlot_kept
    | with_reducible apply startTest_kept
    | split

theorem execTileTestSlot_kept {cf ff : Bool} {s0 : State} (s : State) (h0 : Kept cf ff s0 s) :
    ResKept cf ff s0 (execTileTestSlot s) := by
  unfold execTileTestSlot
  repeat' first
    | with_reducible assumption
    | with_reducible apply slotFor_kept
    | with_reducible apply modTest_kept
    | with_reducible apply ResKept.next
    | split

theorem execStackTestSlot_kept {cf ff : Bool} {s0 : State} (s : State) (h0 : Kept cf ff s0 s) :
    ResKept cf ff s0 (execStackTestSlot s) := by
  unfold execStackTestSlot
  repeat' first
    | with_reducible assumption
    | with_reducible apply slotFor_kept
    | with_reducible apply modTest_kept
    | with_reducible apply ResKept.next
    | split

theorem execSuspectTestDue_kept {cf ff : Bool} {s0 : State} (u : UnitRef) (s : State) (h0 : Kept cf ff s0 s) :
    ResKept cf ff s0 (execSuspectTestDue u s) := by
  unfold execSuspectTestDue
  repeat' first
    | with_reducible assumption
    | with_reducible apply onUnit_kept
    | with_reducible apply startTest_kept
    | split

theorem execSelftest_kept {cf ff : Bool} {s0 : State} (h : Nat) (s : State) (h0 : Kept cf ff s0 s) :
    ResKept cf ff s0 (execSelftest h s) := by
  unfold execSelftest
  repeat' first
    | with_reducible assumption
    | with_reducible apply runCmd_kept
    | with_reducible apply finishCmd_kept
    | with_reducible apply startTest_kept
    | split
    | intro _
    | dsimp only

theorem resumeUnit_kept {cf ff : Bool} {s0 : State} (u : UnitRef) (s : State) (h0 : Kept cf ff s0 s) :
    Kept cf ff s0 (resumeUnit u s) := by
  unfold resumeUnit
  repeat' first
    | with_reducible assumption
    | with_reducible apply capChange_kept
    | with_reducible apply checkNoFurrow_kept
    | exact fun _ => rfl
    | exact suspectCap_gen _
    | split
    | intro _
    | dsimp only
    | with_reducible refine Kept.snd (by assumption) ?_
    | with_reducible refine Kept.sndA (by assumption) ?_
    | with_reducible refine Kept.sndB (by assumption) ?_
    | (with_reducible refine Kept.mk' ?_ rfl; with_reducible assumption)

theorem normalUnit_kept {cf ff : Bool} {s0 : State} (u : UnitRef) (s : State) (h0 : Kept cf ff s0 s) :
    Kept cf ff s0 (normalUnit u s) := by
  unfold normalUnit
  repeat' first
    | with_reducible assumption
    | with_reducible apply recordFault_kept
    | with_reducible apply modSum_kept
    | with_reducible apply capChange_kept
    | exact fun _ => rfl
    | exact suspectCap_gen _
    | split

theorem passUnit_kept {cf ff : Bool} {s0 : State} (u : UnitRef) (s : State) (h0 : Kept cf ff s0 s) :
    Kept cf ff s0 (passUnit u s) := by
  unfold passUnit
  repeat' first
    | with_reducible assumption
    | with_reducible apply whenS_kept
    | with_reducible apply resumeUnit_kept
    | with_reducible apply modSum_kept
    | with_reducible apply normalUnit_kept
    | split
    | intro _
    | dsimp only

theorem settleUnit_kept {cf ff : Bool} {s0 : State} (u : UnitRef) (first : Bool) (again : Bool) (s : State) (h0 : Kept cf ff s0 s) :
    Kept cf ff s0 (settleUnit u first again s) := by
  unfold settleUnit
  repeat' first
    | with_reducible assumption
    | with_reducible apply retireUnit_kept
    | with_reducible apply faultEvent_kept
    | with_reducible apply passUnit_kept
    | split

theorem countTest_kept {cf ff : Bool} {s0 : State} (u : UnitRef) (first : Bool) (again : Bool) (s : State) (h0 : Kept cf ff s0 s) :
    Kept cf ff s0 (countTest u first again s) := by
  unfold countTest
  repeat' first
    | with_reducible assumption
    | with_reducible apply modTest_kept

theorem settleTest_kept {cf ff : Bool} {s0 : State} (u : UnitRef) (first : List Nat) (repeats : List Nat) (s : State) (h0 : Kept cf ff s0 s) :
    Kept cf ff s0 (settleTest u first repeats s) := by
  unfold settleTest
  repeat' first
    | with_reducible assumption
    | with_reducible apply forEach_kept
    | with_reducible apply settleUnit_kept
    | split
    | intro _

theorem execSelftestComplete_kept {cf ff : Bool} {s0 : State} (u : UnitRef) (first : List Nat) (repeats : List Nat) (s : State) (h0 : Kept cf ff s0 s) :
    ResKept cf ff s0 (execSelftestComplete u first repeats s) := by
  unfold execSelftestComplete
  repeat' first
    | with_reducible assumption
    | with_reducible apply onUnit_kept
    | with_reducible apply modTest_kept
    | with_reducible apply modTile_kept
    | with_reducible apply forEach_kept
    | with_reducible apply finishCmd_kept
    | with_reducible apply countTest_kept
    | with_reducible apply schedule_kept
    | with_reducible apply fillTiles_kept
    | with_reducible apply settleTest_kept
    | split
    | intro _

end Sys2Proof.Machine
end

