-- ==== Sys2Proof/Laws/KeptBundles.lean ====
section
/-! SUPPORT. `Kept` for the operations of Machine/Bundles.lean. -/

namespace Sys2Proof.Machine

theorem execBundleLoad_kept {cf ff : Bool} {s0 : State} (h : Nat) (s : State) (h0 : Kept cf ff s0 s) :
    ResKept cf ff s0 (execBundleLoad h s) := by
  unfold execBundleLoad
  repeat' first
    | with_reducible assumption
    | with_reducible apply runCmd_kept
    | with_reducible apply finishCmd_kept
    | exact ResKept.same (by assumption)
    | intro _
    | dsimp only
    | (with_reducible refine Kept.mk' ?_ rfl
       first
       | with_reducible assumption
       | with_reducible apply runCmd_kept
       | with_reducible apply finishCmd_kept)

theorem execBundleUnload_kept {cf ff : Bool} {s0 : State} (h : Nat) (s : State) (h0 : Kept cf ff s0 s) :
    ResKept cf ff s0 (execBundleUnload h s) := by
  unfold execBundleUnload
  repeat' first
    | with_reducible assumption
    | with_reducible apply runCmd_kept
    | with_reducible apply finishCmd_kept
    | exact ResKept.same (by assumption)
    | split
    | intro _
    | dsimp only

theorem execBundleRun_kept {cf ff : Bool} {s0 : State} (h : Nat) (s : State) (h0 : Kept cf ff s0 s) :
    ResKept cf ff s0 (execBundleRun h s) := by
  unfold execBundleRun
  repeat' first
    | with_reducible assumption
    | with_reducible apply runCmd_kept
    | with_reducible apply finishCmd_kept
    | with_reducible apply schedule_kept
    | split
    | intro _
    | dsimp only
    | with_reducible refine Kept.snd (by assumption) ?_
    | with_reducible refine Kept.sndA (by assumption) ?_
    | with_reducible refine Kept.sndB (by assumption) ?_
    | (with_reducible refine Kept.mk' ?_ rfl; with_reducible assumption)

theorem execTileFrameSaveComplete_kept {cf ff : Bool} {s0 : State} (t : Nat) (s : State) (h0 : Kept cf ff s0 s) :
    ResKept cf ff s0 (execTileFrameSaveComplete t s) := by
  unfold execTileFrameSaveComplete
  repeat' first
    | with_reducible assumption
    | with_reducible apply onUnit_kept
    | with_reducible apply fillTiles_kept
    | with_reducible apply schedule_kept
    | with_reducible apply beginTest_kept
    | with_reducible apply checkPaused_kept
    | with_reducible apply saveFrame_kept
    | split

theorem loadBasins_kept {cf ff : Bool} {s0 : State} (r : Nat) (bs : Tab Nat) (s : State) (h0 : Kept cf ff s0 s) :
    Kept cf ff s0 (loadBasins r bs s) := by
  unfold loadBasins
  repeat' first
    | with_reducible assumption
    | with_reducible apply forEach_kept
    | with_reducible apply setArea_kept
    | with_reducible apply modRun_kept
    | split
    | intro _

theorem execRunResume_kept {cf ff : Bool} {s0 : State} (run : Nat) (badHeader : Bool) (badBlocks : List Nat) (s : State) (h0 : Kept cf ff s0 s) :
    ResKept cf ff s0 (execRunResume run badHeader badBlocks s) := by
  unfold execRunResume
  repeat' first
    | with_reducible assumption
    | with_reducible apply schedule_kept
    | with_reducible apply endRun_kept
    | with_reducible apply modRun_kept
    | with_reducible apply fillTiles_kept
    | with_reducible apply countSwitch_kept
    | with_reducible apply loadBasins_kept
    | exact ResKept.same (by assumption)
    | with_reducible apply ResKept.next
    | split
    | with_reducible refine Kept.foldl _ _ _ ?_ ?_
    | intro _
    | dsimp only
    | with_reducible refine Kept.snd (by assumption) ?_
    | with_reducible refine Kept.foldlA _ _ _ ?_ ?_
    | with_reducible refine Kept.foldlS _ _ _ ?_ ?_
    | with_reducible refine Kept.sndA (by assumption) ?_
    | with_reducible refine Kept.sndB (by assumption) ?_
    | (with_reducible refine Kept.mk' ?_ rfl
       first
       | with_reducible assumption
       | with_reducible apply schedule_kept
       | with_reducible apply endRun_kept
       | with_reducible apply modRun_kept
       | with_reducible apply fillTiles_kept
       | with_reducible apply countSwitch_kept
       | with_reducible apply loadBasins_kept
       | split
       | with_reducible refine Kept.foldl _ _ _ ?_ ?_
       | with_reducible refine Kept.snd (by assumption) ?_
       | with_reducible refine Kept.foldlA _ _ _ ?_ ?_
       | with_reducible refine Kept.foldlS _ _ _ ?_ ?_
       | with_reducible refine Kept.sndA (by assumption) ?_
       | with_reducible refine Kept.sndB (by assumption) ?_)

end Sys2Proof.Machine
end

