-- ==== Sys2Proof/Laws/KeptServing.lean ====
section
/-! SUPPORT. `Kept` for the operations of Machine/Serving.lean. -/

namespace Sys2Proof.Machine

theorem readDir_kept {cf ff : Bool} {s0 : State} (t : Nat) (dd : Desc) (a : Acc) (h0 : Kept cf ff s0 a.s) :
    Kept cf ff s0 (readDir t dd a).2.s := by
  unfold readDir
  repeat' first
    | with_reducible assumption
    | with_reducible apply rdBytes_kept
    | split
    | dsimp only

theorem asFurrow_kept {cf ff : Bool} {s0 : State} (off : Nat) (len : Nat) (f : Acc → Acc) (a : Acc) (h0 : ∀ (y0 : Acc), Kept cf ff s0 y0.s → Kept cf ff s0 (f y0).s) (h1 : Kept cf ff s0 a.s) :
    Kept cf ff s0 (asFurrow off len f a).s := by
  unfold asFurrow
  repeat' first
    | with_reducible assumption
    | with_reducible apply h0
    | with_reducible apply Acc.stop_kept
    | split
    | dsimp only
    | (with_reducible refine Kept.mk' ?_ rfl
       first
       | with_reducible assumption
       | with_reducible apply h0
       | with_reducible apply Acc.stop_kept
       | split)

theorem rdWord_kept {cf ff : Bool} {s0 : State} (d : Desc) (off : Nat) (a : Acc) (h0 : Kept cf ff s0 a.s) :
    Kept cf ff s0 (rdWord d off a).2.s := by
  unfold rdWord
  repeat' first
    | with_reducible assumption
    | with_reducible apply rdBytes_kept

theorem wrWord_kept {cf ff : Bool} {s0 : State} (d : Desc) (off : Nat) (v : Nat) (poison : Bool) (a : Acc) (h0 : Kept cf ff s0 a.s) :
    Kept cf ff s0 (wrWord d off v poison a).s := by
  unfold wrWord
  repeat' first
    | with_reducible assumption
    | with_reducible apply asFurrow_kept
    | with_reducible apply wrBytes_kept
    | dsimp only

theorem getCount_kept {cf ff : Bool} {s0 : State} (d : PageDir) (p : Nat) (a : Acc) (h0 : Kept cf ff s0 a.s) :
    Kept cf ff s0 (getCount d p a).2.s := by
  unfold getCount
  repeat' first
    | with_reducible assumption
    | with_reducible apply rdWord_kept

theorem putCount_kept {cf ff : Bool} {s0 : State} (d : PageDir) (p : Nat) (n : Nat) (poison : Bool) (a : Acc) (h0 : Kept cf ff s0 a.s) :
    Kept cf ff s0 (putCount d p n poison a).s := by
  unfold putCount
  repeat' first
    | with_reducible assumption
    | with_reducible apply wrWord_kept

theorem getScore_kept {cf ff : Bool} {s0 : State} (d : PageDir) (p : Nat) (a : Acc) (h0 : Kept cf ff s0 a.s) :
    Kept cf ff s0 (getScore d p a).2.s := by
  unfold getScore
  repeat' first
    | with_reducible assumption
    | with_reducible apply rdWord_kept

theorem putScore_kept {cf ff : Bool} {s0 : State} (d : PageDir) (p : Nat) (v : Nat) (poison : Bool) (a : Acc) (h0 : Kept cf ff s0 a.s) :
    Kept cf ff s0 (putScore d p v poison a).s := by
  unfold putScore
  repeat' first
    | with_reducible assumption
    | with_reducible apply wrWord_kept

theorem popStack_kept {cf ff : Bool} {s0 : State} (d : Desc) (a : Acc) (h0 : Kept cf ff s0 a.s) :
    Kept cf ff s0 (popStack d a).2.s := by
  unfold popStack
  repeat' first
    | with_reducible assumption
    | with_reducible apply rdEl_kept
    | with_reducible apply wrEl_kept
    | split
    | dsimp only

theorem pushStack_kept {cf ff : Bool} {s0 : State} (d : Desc) (v : Nat) (a : Acc) (h0 : Kept cf ff s0 a.s) :
    Kept cf ff s0 (pushStack d v a).s := by
  unfold pushStack
  repeat' first
    | with_reducible assumption
    | with_reducible apply rdEl_kept
    | with_reducible apply addOut_kept
    | with_reducible apply wrEl_kept
    | split
    | dsimp only

theorem releaseRef_kept {cf ff : Bool} {s0 : State} (d : PageDir) (p : Nat) (a : Acc) (h0 : Kept cf ff s0 a.s) :
    Kept cf ff s0 (releaseRef d p a).2.s := by
  unfold releaseRef
  repeat' first
    | with_reducible assumption
    | with_reducible apply getCount_kept
    | with_reducible apply pushStack_kept
    | with_reducible apply putCount_kept
    | split
    | dsimp only

theorem headgateCopy_kept {cf ff : Bool} {s0 : State} (src : Desc) (so : Nat) (dst : Desc) (do_ : Nat) (len : Nat) (a : Acc) (h0 : Kept cf ff s0 a.s) :
    Kept cf ff s0 (headgateCopy src so dst do_ len a).s := by
  unfold headgateCopy
  repeat' first
    | with_reducible assumption
    | with_reducible apply addOut_kept
    | with_reducible apply copyRun_kept
    | split

theorem pagesGo_kept {cf ff : Bool} {s0 : State} (f : Nat → Nat → Nat × Acc → Bool × (Nat × Acc)) (l : Desc) (x0 : Nat) (x1 : Nat) (x2 : Nat × Acc) (h0 : ∀ (y0 : Nat) (y1 : Nat) (y2 : Nat × Acc), Kept cf ff s0 y2.2.s → Kept cf ff s0 (f y0 y1 y2).2.2.s) (h1 : Kept cf ff s0 x2.2.s) :
    Kept cf ff s0 (pagesGo f l x0 x1 x2).2.s := by
  fun_induction pagesGo f l x0 x1 x2
  all_goals try subst_vars
  all_goals
    repeat' first
      | with_reducible assumption
      | with_reducible apply h0
      | with_reducible apply rdEl_kept
      | split
      | dsimp only
      | with_reducible refine Kept.snd (by assumption) ?_
      | with_reducible refine Kept.sndA (by assumption) ?_
      | with_reducible refine Kept.sndB (by assumption) ?_
      | with_reducible apply_assumption

theorem shareOne_kept {cf ff : Bool} {s0 : State} (d : PageDir) (_i : Nat) (e : Nat) (r : Nat × Acc) (h0 : Kept cf ff s0 r.2.s) :
    Kept cf ff s0 (shareOne d _i e r).2.2.s := by
  unfold shareOne
  repeat' first
    | with_reducible assumption
    | with_reducible apply getCount_kept
    | with_reducible apply putCount_kept
    | with_reducible apply addOut_kept
    | split
    | dsimp only

theorem releaseOne_kept {cf ff : Bool} {s0 : State} (d : PageDir) (l : Desc) (i : Nat) (e : Nat) (r : Nat × Acc) (h0 : Kept cf ff s0 r.2.s) :
    Kept cf ff s0 (releaseOne d l i e r).2.2.s := by
  unfold releaseOne
  repeat' first
    | with_reducible assumption
    | with_reducible apply wrEl_kept
    | with_reducible apply releaseRef_kept
    | with_reducible apply pushStack_kept
    | with_reducible apply addOut_kept
    | split

theorem takePage_kept {cf ff : Bool} {s0 : State} (d : PageDir) (from_ : Desc) (score : PV) (r : Nat × Acc) (go : Nat → Acc → Acc) (h0 : Kept cf ff s0 r.2.s) (h1 : ∀ (y0 : Nat) (y1 : Acc), Kept cf ff s0 y1.s → Kept cf ff s0 (go y0 y1).s) :
    Kept cf ff s0 (takePage d from_ score r go).2.2.s := by
  unfold takePage
  repeat' first
    | with_reducible assumption
    | with_reducible apply h1
    | with_reducible apply popStack_kept
    | with_reducible apply addOut_kept
    | with_reducible apply putScore_kept
    | with_reducible apply putCount_kept
    | split
    | dsimp only

theorem cowOne_kept {cf ff : Bool} {s0 : State} (d : PageDir) (l : Desc) (from_ : Desc) (i : Nat) (e : Nat) (r : Nat × Acc) (h0 : Kept cf ff s0 r.2.s) :
    Kept cf ff s0 (cowOne d l from_ i e r).2.2.s := by
  unfold cowOne
  repeat' first
    | with_reducible assumption
    | with_reducible apply getCount_kept
    | with_reducible apply getScore_kept
    | with_reducible apply takePage_kept
    | with_reducible apply wrEl_kept
    | with_reducible apply releaseRef_kept
    | with_reducible apply headgateCopy_kept
    | with_reducible apply pushStack_kept
    | with_reducible apply addOut_kept
    | split
    | intro _
    | dsimp only
    | with_reducible refine Kept.snd (by assumption) ?_
    | with_reducible refine Kept.sndA (by assumption) ?_
    | with_reducible refine Kept.sndB (by assumption) ?_

theorem serve_kept {cf ff : Bool} {s0 : State} (c : Cmd) (f : State → State) (s : State) (h0 : ∀ (y0 : State), Kept cf ff s0 y0 → Kept cf ff s0 (f y0)) (h1 : Kept cf ff s0 s) :
    Kept cf ff s0 (serve c f s) := by
  unfold serve
  repeat' first
    | with_reducible assumption
    | with_reducible apply h0
    | with_reducible apply viaGap_kept
    | split
    | intro _
    | dsimp only

theorem pageCmd_kept {cf ff : Bool} {s0 : State} (c : Cmd) (f : PageDir → Desc → Nat → Nat → Nat × Acc → Bool × (Nat × Acc)) (s : State) (h0 : ∀ (y0 : PageDir) (y1 : Desc) (y2 : Nat) (y3 : Nat) (y4 : Nat × Acc), Kept cf ff s0 y4.2.s → Kept cf ff s0 (f y0 y1 y2 y3 y4).2.2.s) (h1 : Kept cf ff s0 s) :
    Kept cf ff s0 (pageCmd c f s) := by
  unfold pageCmd
  repeat' first
    | with_reducible assumption
    | with_reducible apply h0
    | with_reducible apply Acc.held_kept
    | with_reducible apply serve_kept
    | with_reducible apply readDir_kept
    | with_reducible apply finishAcc_kept
    | with_reducible apply addOut_kept
    | with_reducible apply pagesGo_kept
    | split
    | intro _
    | dsimp only
    | with_reducible refine Kept.snd (by assumption) ?_
    | with_reducible refine Kept.sndA (by assumption) ?_
    | with_reducible refine Kept.sndB (by assumption) ?_

theorem execPageShare_kept {cf ff : Bool} {s0 : State} (h : Nat) (s : State) (h0 : Kept cf ff s0 s) :
    ResKept cf ff s0 (execPageShare h s) := by
  unfold execPageShare
  repeat' first
    | with_reducible assumption
    | with_reducible apply runCmd_kept
    | with_reducible apply pageCmd_kept
    | with_reducible apply shareOne_kept
    | intro _

theorem execPageRelease_kept {cf ff : Bool} {s0 : State} (h : Nat) (s : State) (h0 : Kept cf ff s0 s) :
    ResKept cf ff s0 (execPageRelease h s) := by
  unfold execPageRelease
  repeat' first
    | with_reducible assumption
    | with_reducible apply runCmd_kept
    | with_reducible apply pageCmd_kept
    | with_reducible apply releaseOne_kept
    | intro _

theorem execPageCow_kept {cf ff : Bool} {s0 : State} (h : Nat) (s : State) (h0 : Kept cf ff s0 s) :
    ResKept cf ff s0 (execPageCow h s) := by
  unfold execPageCow
  repeat' first
    | with_reducible assumption
    | with_reducible apply runCmd_kept
    | with_reducible apply pageCmd_kept
    | with_reducible apply cowOne_kept
    | intro _

theorem entryAt_kept {cf ff : Bool} {s0 : State} (r : SeqRow) (k : Nat) (l : Nat) (a : Acc) (h0 : Kept cf ff s0 a.s) :
    Kept cf ff s0 (entryAt r k l a).2.s := by
  unfold entryAt
  repeat' first
    | with_reducible assumption
    | with_reducible apply rdEl_kept

theorem setEntry_kept {cf ff : Bool} {s0 : State} (r : SeqRow) (k : Nat) (l : Nat) (v : Nat) (a : Acc) (h0 : Kept cf ff s0 a.s) :
    Kept cf ff s0 (setEntry r k l v a).s := by
  unfold setEntry
  repeat' first
    | with_reducible assumption
    | with_reducible apply wrEl_kept

theorem readRow_kept {cf ff : Bool} {s0 : State} (t : Nat) (seq : Desc) (i : Nat) (a : Acc) (h0 : Kept cf ff s0 a.s) :
    Kept cf ff s0 (readRow t seq i a).2.s := by
  unfold readRow
  repeat' first
    | with_reducible assumption
    | with_reducible apply rdBytes_kept
    | with_reducible apply readDir_kept
    | with_reducible apply addOut_kept
    | split
    | dsimp only

theorem rowsGo_kept {cf ff : Bool} {s0 : State} (t : Nat) (seq : Desc) (f : Nat → SeqRow → Nat × Acc → Nat × Acc) (x0 : Nat) (x1 : Nat) (x2 : Nat × Acc) (h0 : ∀ (y0 : Nat) (y1 : SeqRow) (y2 : Nat × Acc), Kept cf ff s0 y2.2.s → Kept cf ff s0 (f y0 y1 y2).2.s) (h1 : Kept cf ff s0 x2.2.s) :
    Kept cf ff s0 (rowsGo t seq f x0 x1 x2).2.s := by
  induction x0 generalizing x1 x2
  all_goals
    unfold rowsGo
    repeat' first
      | with_reducible assumption
      | with_reducible apply h0
      | with_reducible apply readRow_kept
      | split
      | dsimp only
      | with_reducible refine Kept.snd (by assumption) ?_
      | with_reducible refine Kept.sndA (by assumption) ?_
      | with_reducible refine Kept.sndB (by assumption) ?_
      | with_reducible apply_assumption

theorem reissueOn_kept {cf ff : Bool} {s0 : State} (tenant : Nat) (t : Nat) (f : Failure) (s : State) (h0 : Kept cf ff s0 s) :
    Kept cf ff s0 (reissueOn tenant t f s) := by
  unfold reissueOn
  repeat' first
    | with_reducible assumption
    | with_reducible apply modTile_kept
    | with_reducible apply whenS_kept
    | with_reducible apply faultEvent_kept
    | intro _
    | dsimp only
    | (with_reducible refine Kept.mk' ?_ rfl
       first
       | with_reducible assumption
       | with_reducible apply modTile_kept
       | with_reducible apply whenS_kept
       | with_reducible apply faultEvent_kept)

theorem substituteStep_kept {cf ff : Bool} {s0 : State} (tenant : Nat) (t : Nat) (u : Nat) (why : Option Failure) (fails : List Failure) (s : State) (h0 : Kept cf ff s0 s) :
    Kept cf ff s0 (substituteStep tenant t u why fails s).2 := by
  unfold substituteStep
  repeat' first
    | with_reducible assumption
    | with_reducible apply faultEvent_kept
    | with_reducible apply recordFault_kept
    | with_reducible apply reissueOn_kept
    | split
    | dsimp only
    | with_reducible refine Kept.snd (by assumption) ?_
    | with_reducible refine Kept.sndA (by assumption) ?_
    | with_reducible refine Kept.sndB (by assumption) ?_

theorem headgateStep_kept {cf ff : Bool} {s0 : State} (tenant : Nat) (t : Nat) (fails : List Failure) (s : State) (h0 : Kept cf ff s0 s) :
    Kept cf ff s0 (headgateStep tenant t fails s).2 := by
  unfold headgateStep
  repeat' first
    | with_reducible assumption
    | with_reducible apply reissueOn_kept
    | with_reducible apply recordFault_kept
    | with_reducible apply faultEvent_kept
    | with_reducible apply substituteStep_kept
    | split
    | dsimp only
    | with_reducible refine Kept.snd (by assumption) ?_
    | with_reducible refine Kept.sndA (by assumption) ?_
    | with_reducible refine Kept.sndB (by assumption) ?_

theorem rowStep_kept {cf ff : Bool} {s0 : State} (tenant : Nat) (e : StepFails) (a : Acc) (h0 : Kept cf ff s0 a.s) :
    Kept cf ff s0 (rowStep tenant e a).s := by
  unfold rowStep
  repeat' first
    | with_reducible assumption
    | with_reducible apply Acc.stop_kept
    | with_reducible apply headgateStep_kept
    | with_reducible apply addOut_kept
    | split
    | dsimp only
    | (with_reducible refine Kept.mk' ?_ rfl
       first
       | with_reducible assumption
       | with_reducible apply Acc.stop_kept
       | with_reducible apply headgateStep_kept
       | with_reducible apply addOut_kept
       | split)

theorem rowSteps_kept {cf ff : Bool} {s0 : State} (tenant : Nat) (steps : List StepFails) (i : Nat) (a : Acc) (h0 : Kept cf ff s0 a.s) :
    Kept cf ff s0 (rowSteps tenant steps i a).s := by
  unfold rowSteps
  repeat' first
    | with_reducible assumption
    | with_reducible apply rowStep_kept
    | with_reducible refine Kept.foldl _ _ _ ?_ ?_
    | intro _
    | dsimp only
    | with_reducible refine Kept.foldlA _ _ _ ?_ ?_
    | with_reducible refine Kept.foldlS _ _ _ ?_ ?_

theorem visGo_kept {cf ff : Bool} {s0 : State} (r : SeqRow) (l : Nat) (x0 : Nat) (x1 : Nat) (x2 : Acc) (h0 : Kept cf ff s0 x2.s) :
    Kept cf ff s0 (visGo r l x0 x1 x2).2.s := by
  fun_induction visGo r l x0 x1 x2
  all_goals try subst_vars
  all_goals
    repeat' first
      | with_reducible assumption
      | with_reducible apply entryAt_kept
      | split
      | intro _
      | dsimp only
      | with_reducible refine Kept.snd (by assumption) ?_
      | with_reducible refine Kept.sndA (by assumption) ?_
      | with_reducible refine Kept.sndB (by assumption) ?_
      | with_reducible apply_assumption

theorem visible_kept {cf ff : Bool} {s0 : State} (r : SeqRow) (l : Nat) (a : Acc) (h0 : Kept cf ff s0 a.s) :
    Kept cf ff s0 (visible r l a).2.s := by
  unfold visible
  repeat' first
    | with_reducible assumption
    | with_reducible apply visGo_kept

theorem kvRows_kept {cf ff : Bool} {s0 : State} (d : PageDir) (h : Nat) (v : Bool) (x0 : List Vis) (x1 : Acc) (h0 : Kept cf ff s0 x1.s) :
    Kept cf ff s0 (kvRows d h v x0 x1).2.s := by
  fun_induction kvRows d h v x0 x1
  all_goals try subst_vars
  all_goals
    repeat' first
      | with_reducible assumption
      | with_reducible apply rdEls_kept
      | split
      | dsimp only
      | with_reducible refine Kept.snd (by assumption) ?_
      | with_reducible refine Kept.sndA (by assumption) ?_
      | with_reducible refine Kept.sndB (by assumption) ?_
      | with_reducible apply_assumption

theorem scorePages_kept {cf ff : Bool} {s0 : State} (d : PageDir) (decay : Nat) (vis : List Vis) (ps : List (List Nat)) (poison : Bool) (x0 : List Nat) (x1 : Acc) (h0 : Kept cf ff s0 x1.s) :
    Kept cf ff s0 (scorePages d decay vis ps poison x0 x1).s := by
  fun_induction scorePages d decay vis ps poison x0 x1
  all_goals try subst_vars
  all_goals
    repeat' first
      | with_reducible assumption
      | with_reducible apply getScore_kept
      | with_reducible apply putScore_kept
      | split
      | intro _
      | dsimp only
      | with_reducible refine Kept.snd (by assumption) ?_
      | with_reducible refine Kept.sndA (by assumption) ?_
      | with_reducible refine Kept.sndB (by assumption) ?_
      | with_reducible apply_assumption

theorem wrRow_kept {cf ff : Bool} {s0 : State} (d : Desc) (i : Nat) (n : Nat) (f : Nat → PV) (a : Acc) (h0 : Kept cf ff s0 a.s) :
    Kept cf ff s0 (wrRow d i n f a).s := by
  unfold wrRow
  repeat' first
    | with_reducible assumption
    | with_reducible apply wrPieces_kept
    | split
    | intro _

theorem attendHeads_kept {cf ff : Bool} {s0 : State} (r : SeqRow) (vis : List Vis) (q : List PV) (x0 : Nat) (x1 : Nat) (x2 : Acc) (h0 : Kept cf ff s0 x2.s) :
    Kept cf ff s0 (attendHeads r vis q x0 x1 x2).2.s := by
  fun_induction attendHeads r vis q x0 x1 x2
  all_goals try subst_vars
  all_goals
    repeat' first
      | with_reducible assumption
      | with_reducible apply kvRows_kept
      | with_reducible apply scorePages_kept
      | split
      | intro _
      | dsimp only
      | with_reducible refine Kept.snd (by assumption) ?_
      | with_reducible refine Kept.sndA (by assumption) ?_
      | with_reducible refine Kept.sndB (by assumption) ?_
      | with_reducible apply_assumption

theorem wrFreeRow_kept {cf ff : Bool} {s0 : State} (od : Desc) (i : Nat) (n : Nat) (a : Acc) (h0 : Kept cf ff s0 a.s) :
    Kept cf ff s0 (wrFreeRow od i n a).s := by
  unfold wrFreeRow
  repeat' first
    | with_reducible assumption
    | with_reducible apply freshVal_kept
    | with_reducible apply wrRow_kept
    | intro _
    | dsimp only
    | (with_reducible refine Kept.mk' ?_ rfl
       first
       | with_reducible assumption
       | with_reducible apply freshVal_kept
       | with_reducible apply wrRow_kept)

theorem attendRow_kept {cf ff : Bool} {s0 : State} (tenant : Nat) (steps : List StepFails) (qd : Desc) (od : Desc) (layer : Nat) (i : Nat) (r : SeqRow) (x : Nat × Acc) (h0 : Kept cf ff s0 x.2.s) :
    Kept cf ff s0 (attendRow tenant steps qd od layer i r x).2.s := by
  unfold attendRow
  repeat' first
    | with_reducible assumption
    | with_reducible apply Acc.stop_kept
    | with_reducible apply addOut_kept
    | with_reducible apply rdEls_kept
    | with_reducible apply visible_kept
    | with_reducible apply wrFreeRow_kept
    | with_reducible apply attendHeads_kept
    | with_reducible apply rowSteps_kept
    | with_reducible apply wrRow_kept
    | split
    | intro _
    | dsimp only

theorem execAttend_kept {cf ff : Bool} {s0 : State} (h : Nat) (steps : List StepFails) (s : State) (h0 : Kept cf ff s0 s) :
    ResKept cf ff s0 (execAttend h s steps) := by
  unfold execAttend
  repeat' first
    | with_reducible assumption
    | with_reducible apply Acc.held_kept
    | with_reducible apply runCmd_kept
    | with_reducible apply serve_kept
    | with_reducible apply finishCmd_kept
    | with_reducible apply finishAcc_kept
    | with_reducible apply addOut_kept
    | with_reducible apply rowsGo_kept
    | with_reducible apply attendRow_kept
    | exact ResKept.same (by assumption)
    | split
    | intro _
    | dsimp only

theorem residents_kept {cf ff : Bool} {s0 : State} (r : SeqRow) (l : Nat) (x0 : Nat) (x1 : Nat) (x2 : Acc) (h0 : Kept cf ff s0 x2.s) :
    Kept cf ff s0 (residents r l x0 x1 x2).2.s := by
  fun_induction residents r l x0 x1 x2
  all_goals try subst_vars
  all_goals
    repeat' first
      | with_reducible assumption
      | with_reducible apply entryAt_kept
      | split
      | dsimp only
      | with_reducible refine Kept.snd (by assumption) ?_
      | with_reducible refine Kept.sndA (by assumption) ?_
      | with_reducible refine Kept.sndB (by assumption) ?_
      | with_reducible apply_assumption

theorem lowest_kept {cf ff : Bool} {s0 : State} (d : PageDir) (x0 : List (Nat × Nat)) (x1 : Acc) (h0 : Kept cf ff s0 x1.s) :
    Kept cf ff s0 (lowest d x0 x1).2.s := by
  fun_induction lowest d x0 x1
  all_goals try subst_vars
  all_goals
    repeat' first
      | with_reducible assumption
      | with_reducible apply getScore_kept
      | split
      | dsimp only
      | with_reducible refine Kept.snd (by assumption) ?_
      | with_reducible refine Kept.sndA (by assumption) ?_
      | with_reducible refine Kept.sndB (by assumption) ?_
      | with_reducible apply_assumption

theorem popFar_kept {cf ff : Bool} {s0 : State} (d : PageDir) (a : Acc) (h0 : Kept cf ff s0 a.s) :
    Kept cf ff s0 (popFar d a).2.s := by
  unfold popFar
  repeat' first
    | with_reducible assumption
    | with_reducible apply popStack_kept
    | split
    | intro _
    | dsimp only

theorem evictSlot_kept {cf ff : Bool} {s0 : State} (r : SeqRow) (drop : Bool) (k : Nat) (l : Nat) (p : Nat) (a : Acc) (h0 : Kept cf ff s0 a.s) :
    Kept cf ff s0 (evictSlot r drop k l p a).s := by
  unfold evictSlot
  repeat' first
    | with_reducible assumption
    | with_reducible apply setEntry_kept
    | with_reducible apply releaseRef_kept
    | with_reducible apply popFar_kept
    | with_reducible apply headgateCopy_kept
    | with_reducible apply rdWord_kept
    | with_reducible apply wrWord_kept
    | split
    | dsimp only

theorem evictLayer_kept {cf ff : Bool} {s0 : State} (r : SeqRow) (budget : Nat) (drop : Bool) (l : Nat) (x0 : Nat) (x1 : Nat × Acc) (h0 : Kept cf ff s0 x1.2.s) :
    Kept cf ff s0 (evictLayer r budget drop l x0 x1).2.s := by
  fun_induction evictLayer r budget drop l x0 x1
  all_goals try subst_vars
  all_goals
    repeat' first
      | with_reducible assumption
      | with_reducible apply residents_kept
      | with_reducible apply lowest_kept
      | with_reducible apply evictSlot_kept
      | split
      | intro _
      | dsimp only
      | with_reducible refine Kept.snd (by assumption) ?_
      | with_reducible refine Kept.sndA (by assumption) ?_
      | with_reducible refine Kept.sndB (by assumption) ?_
      | with_reducible apply_assumption

theorem evictRow_kept {cf ff : Bool} {s0 : State} (seq : Desc) (budget : Nat) (drop : Bool) (_i : Nat) (r : SeqRow) (x : Nat × Acc) (h0 : Kept cf ff s0 x.2.s) :
    Kept cf ff s0 (evictRow seq budget drop _i r x).2.s := by
  unfold evictRow
  repeat' first
    | with_reducible assumption
    | with_reducible apply evictLayer_kept
    | with_reducible apply wrBytes_kept
    | split
    | with_reducible refine Kept.foldl _ _ _ ?_ ?_
    | intro _
    | dsimp only
    | with_reducible refine Kept.foldlA _ _ _ ?_ ?_

theorem execEvict_kept {cf ff : Bool} {s0 : State} (h : Nat) (s : State) (h0 : Kept cf ff s0 s) :
    ResKept cf ff s0 (execEvict h s) := by
  unfold execEvict
  repeat' first
    | with_reducible assumption
    | with_reducible apply Acc.held_kept
    | with_reducible apply runCmd_kept
    | with_reducible apply serve_kept
    | with_reducible apply finishAcc_kept
    | with_reducible apply addOut_kept
    | with_reducible apply rowsGo_kept
    | with_reducible apply evictRow_kept
    | exact ResKept.same (by assumption)
    | split
    | intro _
    | dsimp only
    | with_reducible refine Kept.snd (by assumption) ?_
    | with_reducible refine Kept.sndA (by assumption) ?_
    | with_reducible refine Kept.sndB (by assumption) ?_

theorem copyPos_kept {cf ff : Bool} {s0 : State} (r : SeqRow) (src : Nat) (dst : Nat) (a : Acc) (h0 : Kept cf ff s0 a.s) :
    Kept cf ff s0 (copyPos r src dst a).s := by
  unfold copyPos
  repeat' first
    | with_reducible assumption
    | with_reducible apply entryAt_kept
    | with_reducible apply headgateCopy_kept
    | split
    | with_reducible refine Kept.foldl _ _ _ ?_ ?_
    | intro _
    | dsimp only
    | with_reducible refine Kept.snd (by assumption) ?_
    | with_reducible refine Kept.foldlA _ _ _ ?_ ?_
    | with_reducible refine Kept.foldlS _ _ _ ?_ ?_
    | with_reducible refine Kept.sndA (by assumption) ?_
    | with_reducible refine Kept.sndB (by assumption) ?_

theorem copyPath_kept {cf ff : Bool} {s0 : State} (r : SeqRow) (L : Nat) (x0 : List Nat) (x1 : Nat) (x2 : Acc) (h0 : Kept cf ff s0 x2.s) :
    Kept cf ff s0 (copyPath r L x0 x1 x2).s := by
  induction x0 generalizing x1 x2
  all_goals
    unfold copyPath
    repeat' first
      | with_reducible assumption
      | with_reducible apply copyPos_kept
      | split
      | dsimp only
      | with_reducible refine Kept.snd (by assumption) ?_
      | with_reducible refine Kept.sndA (by assumption) ?_
      | with_reducible refine Kept.sndB (by assumption) ?_
      | with_reducible apply_assumption

theorem releaseTail_kept {cf ff : Bool} {s0 : State} (r : SeqRow) (lo : Nat) (hi : Nat) (x : Nat × Acc) (h0 : Kept cf ff s0 x.2.s) :
    Kept cf ff s0 (releaseTail r lo hi x).2.s := by
  unfold releaseTail
  repeat' first
    | with_reducible assumption
    | with_reducible apply entryAt_kept
    | with_reducible apply setEntry_kept
    | with_reducible apply releaseRef_kept
    | split
    | with_reducible refine Kept.foldl _ _ _ ?_ ?_
    | intro _
    | dsimp only
    | with_reducible refine Kept.snd (by assumption) ?_
    | with_reducible refine Kept.foldlA _ _ _ ?_ ?_

theorem verifyRow_kept {cf ff : Bool} {s0 : State} (tenant : Nat) (steps : List StepFails) (seq : Desc) (cand : Desc) (dec : Desc) (n : Nat) (sampling : Bool) (tree : Bool) (i : Nat) (r : SeqRow) (x : Nat × Acc) (h0 : Kept cf ff s0 x.2.s) :
    Kept cf ff s0 (verifyRow tenant steps seq cand dec n sampling tree i r x).2.s := by
  unfold verifyRow
  repeat' first
    | with_reducible assumption
    | with_reducible apply wrBytes_kept
    | with_reducible apply rdEls_kept
    | with_reducible apply rowSteps_kept
    | with_reducible apply copyPath_kept
    | with_reducible apply releaseTail_kept
    | split
    | intro _
    | dsimp only

theorem execVerify_kept {cf ff : Bool} {s0 : State} (h : Nat) (steps : List StepFails) (s : State) (h0 : Kept cf ff s0 s) :
    ResKept cf ff s0 (execVerify h s steps) := by
  unfold execVerify
  repeat' first
    | with_reducible assumption
    | with_reducible apply Acc.held_kept
    | with_reducible apply runCmd_kept
    | with_reducible apply serve_kept
    | with_reducible apply finishCmd_kept
    | with_reducible apply finishAcc_kept
    | with_reducible apply addOut_kept
    | with_reducible apply rowsGo_kept
    | with_reducible apply verifyRow_kept
    | exact ResKept.same (by assumption)
    | split
    | intro _
    | dsimp only

theorem execAdapterLoad_kept {cf ff : Bool} {s0 : State} (h : Nat) (s : State) (h0 : Kept cf ff s0 s) :
    ResKept cf ff s0 (execAdapterLoad h s) := by
  unfold execAdapterLoad
  repeat' first
    | with_reducible assumption
    | with_reducible apply Acc.start_kept
    | with_reducible apply runCmd_kept
    | with_reducible apply serve_kept
    | with_reducible apply rdEl_kept
    | with_reducible apply wrPieces_kept
    | with_reducible apply finishAcc_kept
    | exact ResKept.same (by assumption)
    | split
    | intro _
    | dsimp only
    | (with_reducible refine Kept.mk' ?_ rfl
       first
       | with_reducible assumption
       | with_reducible apply Acc.start_kept
       | with_reducible apply runCmd_kept
       | with_reducible apply serve_kept
       | with_reducible apply rdEl_kept
       | with_reducible apply wrPieces_kept
       | with_reducible apply finishAcc_kept
       | split)

theorem execAdapterEvict_kept {cf ff : Bool} {s0 : State} (h : Nat) (s : State) (h0 : Kept cf ff s0 s) :
    ResKept cf ff s0 (execAdapterEvict h s) := by
  unfold execAdapterEvict
  repeat' first
    | with_reducible assumption
    | with_reducible apply runCmd_kept
    | with_reducible apply finishCmd_kept
    | intro _
    | dsimp only
    | (with_reducible refine Kept.mk' ?_ rfl; with_reducible assumption)

end Sys2Proof.Machine
end

