-- ==== Sys2Proof/Laws/KeptComplete.lean ====
section
/-! SUPPORT. `Kept` for the operations of Machine/Complete.lean. -/

namespace Sys2Proof.Machine

theorem applySignal_kept {cf ff : Bool} {s0 : State} (c : Cmd) (status : Nat) (s : State) (h0 : Kept cf ff s0 s) :
    Kept cf ff s0 (applySignal c status s) := by
  unfold applySignal
  repeat' first
    | with_reducible assumption
    | with_reducible apply whenS_kept
    | with_reducible apply signalCtr_kept

theorem completeWith_kept {cf ff : Bool} {s0 : State} (c : Cmd) (late : Bool) (outs : List Nat) (s : State) (h0 : Kept cf ff s0 s) :
    Kept cf ff s0 (completeWith c late outs s) := by
  unfold completeWith
  repeat' first
    | with_reducible assumption
    | with_reducible apply writeRecord_kept
    | with_reducible apply whenS_kept
    | with_reducible apply cqEvent_kept
    | with_reducible apply modFn_kept

theorem answerHenua_kept {cf ff : Bool} {s0 : State} (c : Cmd) (outs : List Nat) (s : State) (h0 : Kept cf ff s0 s) :
    Kept cf ff s0 (answerHenua c outs s) := by
  unfold answerHenua
  repeat' first
    | with_reducible assumption
    | with_reducible apply whenS_kept
    | with_reducible apply emit_kept

theorem completed_kept {cf ff : Bool} {s0 : State} (c : Cmd) (s : State) (h0 : Kept cf ff s0 s) :
    Kept cf ff s0 (completed c s) := by
  unfold completed
  repeat' first
    | with_reducible assumption
    | with_reducible apply schedule_kept
    | with_reducible apply freeTenant_kept
    | with_reducible apply modFn_kept
    | with_reducible apply freeAllocs_kept
    | with_reducible apply dropDescs_kept
    | with_reducible apply bornDesc_kept
    | split
    | intro _
    | dsimp only
    | with_reducible refine Kept.snd (by assumption) ?_
    | with_reducible refine Kept.sndA (by assumption) ?_
    | with_reducible refine Kept.sndB (by assumption) ?_
    | (with_reducible refine Kept.mk' ?_ rfl
       first
       | with_reducible assumption
       | with_reducible apply schedule_kept
       | with_reducible apply freeTenant_kept
       | with_reducible apply modFn_kept
       | with_reducible apply freeAllocs_kept
       | with_reducible apply dropDescs_kept
       | with_reducible apply bornDesc_kept
       | split
       | with_reducible refine Kept.snd (by assumption) ?_
       | with_reducible refine Kept.sndA (by assumption) ?_
       | with_reducible refine Kept.sndB (by assumption) ?_)

theorem undone_kept {cf ff : Bool} {s0 : State} (c : Cmd) (s : State) (h0 : Kept cf ff s0 s) :
    Kept cf ff s0 (undone c s) := by
  unfold undone
  repeat' first
    | with_reducible assumption
    | with_reducible apply Kept.ident
    | with_reducible apply modTen_kept
    | with_reducible apply unmapEmpty_kept
    | with_reducible apply modQueue_kept
    | with_reducible apply freeAllocs_kept
    | with_reducible apply forEach_kept
    | split
    | intro _
    | dsimp only
    | with_reducible refine Kept.snd (by assumption) ?_
    | with_reducible refine Kept.sndA (by assumption) ?_
    | with_reducible refine Kept.sndB (by assumption) ?_
    | (with_reducible refine Kept.mk' ?_ rfl
       first
       | with_reducible assumption
       | with_reducible apply modTen_kept
       | with_reducible apply unmapEmpty_kept
       | with_reducible apply modQueue_kept
       | with_reducible apply freeAllocs_kept
       | with_reducible apply forEach_kept
       | split
       | with_reducible refine Kept.snd (by assumption) ?_
       | with_reducible refine Kept.sndA (by assumption) ?_
       | with_reducible refine Kept.sndB (by assumption) ?_)

theorem execCommandCompletion_kept {cf ff : Bool} {s0 : State} (h : Nat) (s : State) (h0 : Kept cf ff s0 s) :
    ResKept cf ff s0 (execCommandCompletion h s) := by
  unfold execCommandCompletion
  repeat' first
    | with_reducible assumption
    | with_reducible apply applySignal_kept
    | with_reducible apply completed_kept
    | with_reducible apply undone_kept
    | with_reducible apply answerHenua_kept
    | with_reducible apply completeWith_kept
    | with_reducible apply releaseHeldWake_kept
    | exact ResKept.same (by assumption)
    | with_reducible apply ResKept.next
    | split
    | intro _
    | dsimp only
    | with_reducible refine Kept.snd (by assumption) ?_
    | with_reducible refine Kept.sndA (by assumption) ?_
    | with_reducible refine Kept.sndB (by assumption) ?_
    | (with_reducible refine Kept.mk' ?_ rfl
       first
       | with_reducible assumption
       | with_reducible apply applySignal_kept
       | with_reducible apply completed_kept
       | with_reducible apply undone_kept
       | with_reducible apply answerHenua_kept
       | with_reducible apply completeWith_kept
       | with_reducible apply releaseHeldWake_kept
       | split
       | with_reducible refine Kept.snd (by assumption) ?_
       | with_reducible refine Kept.sndA (by assumption) ?_
       | with_reducible refine Kept.sndB (by assumption) ?_)

end Sys2Proof.Machine
end

