-- ==== Sys2Proof/Laws/KeptCtrCmds.lean ====
section
/-! SUPPORT. `Kept` for the operations of Machine/CtrCmds.lean. -/

namespace Sys2Proof.Machine

theorem readCtr_kept {cf ff : Bool} {s0 : State} (c : Nat) (s : State) (h0 : Kept cf ff s0 s) :
    Kept cf ff s0 (readCtr c s).2 := by
  unfold readCtr
  repeat' first
    | with_reducible assumption
    | with_reducible apply freshVal_kept
    | split

theorem execCtrSignal_kept {cf ff : Bool} {s0 : State} (h : Nat) (s : State) (h0 : Kept cf ff s0 s) :
    ResKept cf ff s0 (execCtrSignal h s) := by
  unfold execCtrSignal
  repeat' first
    | with_reducible assumption
    | with_reducible apply runCmd_kept
    | with_reducible apply schedule_kept
    | with_reducible apply finishCmd_kept
    | with_reducible apply signalCtr_kept
    | intro _

theorem brodatWait_kept {cf ff : Bool} {s0 : State} (take : Bool) (c : Cmd) (s : State) (h0 : Kept cf ff s0 s) :
    Kept cf ff s0 (brodatWait take c s) := by
  unfold brodatWait
  repeat' first
    | with_reducible assumption
    | with_reducible apply finishCmd_kept
    | with_reducible apply arriveWait_kept
    | split

theorem execCtrWaitGe_kept {cf ff : Bool} {s0 : State} (h : Nat) (s : State) (h0 : Kept cf ff s0 s) :
    ResKept cf ff s0 (execCtrWaitGe h s) := by
  unfold execCtrWaitGe
  repeat' first
    | with_reducible assumption
    | with_reducible apply runCmd_kept
    | with_reducible apply brodatWait_kept

theorem execCtrWaitTake_kept {cf ff : Bool} {s0 : State} (h : Nat) (s : State) (h0 : Kept cf ff s0 s) :
    ResKept cf ff s0 (execCtrWaitTake h s) := by
  unfold execCtrWaitTake
  repeat' first
    | with_reducible assumption
    | with_reducible apply runCmd_kept
    | with_reducible apply brodatWait_kept

theorem execCtrRead_kept {cf ff : Bool} {s0 : State} (h : Nat) (s : State) (h0 : Kept cf ff s0 s) :
    ResKept cf ff s0 (execCtrRead h s) := by
  unfold execCtrRead
  repeat' first
    | with_reducible assumption
    | with_reducible apply runCmd_kept
    | with_reducible apply finishCmd_kept
    | with_reducible apply readCtr_kept
    | split
    | intro _

theorem execCounterPeek_kept {cf ff : Bool} {s0 : State} (h : Nat) (s : State) (h0 : Kept cf ff s0 s) :
    ResKept cf ff s0 (execCounterPeek h s) := by
  unfold execCounterPeek
  repeat' first
    | with_reducible assumption
    | with_reducible apply runCmd_kept
    | with_reducible apply finishCmd_kept
    | with_reducible apply readCtr_kept
    | split
    | intro _

theorem handSet_kept {cf ff : Bool} {s0 : State} (issuer : Nat) (t : Nat) (k : Nat) (c : Nat) (v : Nat) (s : State) (h0 : Kept cf ff s0 s) :
    Kept cf ff s0 (handSet issuer t k c v s).2 := by
  unfold handSet
  repeat' first
    | with_reducible assumption
    | with_reducible apply readCtr_kept
    | with_reducible apply henuaEvent_kept
    | with_reducible apply modTen_kept
    | with_reducible apply pokePhys_kept

theorem execCounterPoke_kept {cf ff : Bool} {s0 : State} (h : Nat) (s : State) (h0 : Kept cf ff s0 s) :
    ResKept cf ff s0 (execCounterPoke h s) := by
  unfold execCounterPoke
  repeat' first
    | with_reducible assumption
    | with_reducible apply runCmd_kept
    | with_reducible apply finishCmd_kept
    | with_reducible apply handSet_kept
    | with_reducible apply schedule_kept
    | split
    | intro _
    | dsimp only

theorem breakCtr_kept {cf ff : Bool} {s0 : State} (t k c : Nat) (s : State) (h0 : Kept cf ff s0 s) : Kept cf ff s0 (breakCtr t k c s) := by
  unfold breakCtr
  refine henuaEvent_kept _ _ _ _ (recordFault_kept _ _ _ _ _ _ _ (forEach_kept _ _ _ (fun w u hu => ?_) ?_))
  · split
    · exact finishCmd_kept _ _ _ _ hu
    · split
      · exact endRun_kept _ _ _ hu
      · exact hu
  · refine h0.trans ⟨rfl, fun _ => rfl, fun _ => ⟨rfl, rfl⟩, id, id, fun q => ?_⟩
    refine ⟨fun w hw ht => q.1 w (List.mem_of_mem_filter hw) ht, fun c' a ha => ?_⟩
    by_cases e : c' = c
    · subst e
      exfalso
      have : headTaker c' (others c' s.ctrs.waits) = none := by
        unfold headTaker others
        simp
        intro w _ h1 h2
        exact absurd h2 h1
      rw [show headTaker c' (others c' s.ctrs.waits) = some a from ha] at this
      cases this
    · exact q.2 c' a (by rw [← headTaker_others e]; exact ha)

theorem execCounterSignal_kept {cf ff : Bool} {s0 : State} (tenant : Nat) (ctr : Nat) (amount : Nat) (uncorrectable : Bool) (s : State) (h0 : Kept cf ff s0 s) :
    ResKept cf ff s0 (execCounterSignal tenant ctr amount uncorrectable s) := by
  unfold execCounterSignal
  repeat' first
    | with_reducible assumption
    | with_reducible apply schedule_kept
    | with_reducible apply breakCtr_kept
    | with_reducible apply signalPhys_kept
    | with_reducible apply ResKept.next
    | split

end Sys2Proof.Machine
end

