-- ==== Sys2Proof/Laws/KeptPeer.lean ====
section
/-! SUPPORT. `Kept` for the operations of Machine/Peer.lean. -/

namespace Sys2Proof.Machine

theorem modPeer_kept {cf ff : Bool} {s0 : State} (m : Nat) (g : Peer → Peer) (s : State) (h0 : Kept cf ff s0 s) :
    Kept cf ff s0 (modPeer m g s) := by
  unfold modPeer
  repeat' first
    | with_reducible assumption
    | with_reducible apply modDpt_kept
    | split

theorem modPath_kept {cf ff : Bool} {s0 : State} (m : Nat) (k : Nat) (g : PathSt → PathSt) (s : State) (h0 : Kept cf ff s0 s) :
    Kept cf ff s0 (modPath m k g s) := by
  unfold modPath
  repeat' first
    | with_reducible assumption
    | with_reducible apply modPeer_kept

theorem countTx_kept {cf ff : Bool} {s0 : State} (m : Nat) (k : Nat) (n : Nat) (s : State) (h0 : Kept cf ff s0 s) :
    Kept cf ff s0 (countTx m k n s) := by
  unfold countTx
  repeat' first
    | with_reducible assumption
    | with_reducible apply modPort_kept
    | split

theorem wireOut_kept {cf ff : Bool} {s0 : State} (m : Nat) (k : Nat) (ty : Nat) (addr : List Byte) (hd : DptHdr) (b : DptBody) (s : State) (h0 : Kept cf ff s0 s) :
    Kept cf ff s0 (wireOut m k ty addr hd b s) := by
  unfold wireOut
  repeat' first
    | with_reducible assumption
    | with_reducible apply countTx_kept
    | with_reducible apply emit_kept
    | split
    | dsimp only
    | (with_reducible refine Kept.mk' ?_ rfl
       first
       | with_reducible assumption
       | with_reducible apply countTx_kept
       | with_reducible apply emit_kept
       | split)

theorem sendOn_kept {cf ff : Bool} {s0 : State} (m : Nat) (k : Nat) (ty : Nat) (hd : DptHdr) (b : DptBody) (s : State) (h0 : Kept cf ff s0 s) :
    Kept cf ff s0 (sendOn m k ty hd b s) := by
  unfold sendOn
  repeat' first
    | with_reducible assumption
    | with_reducible apply wireOut_kept
    | with_reducible apply modPath_kept
    | split
    | intro _
    | dsimp only
    | with_reducible refine Kept.snd (by assumption) ?_
    | with_reducible refine Kept.sndA (by assumption) ?_
    | with_reducible refine Kept.sndB (by assumption) ?_
    | (with_reducible refine Kept.mk' ?_ rfl
       first
       | with_reducible assumption
       | with_reducible apply wireOut_kept
       | with_reducible apply modPath_kept
       | split
       | with_reducible refine Kept.snd (by assumption) ?_
       | with_reducible refine Kept.sndA (by assumption) ?_
       | with_reducible refine Kept.sndB (by assumption) ?_)

theorem sendCtl_kept {cf ff : Bool} {s0 : State} (m : Nat) (c : DptCtl) (s : State) (h0 : Kept cf ff s0 s) :
    Kept cf ff s0 (sendCtl m c s) := by
  unfold sendCtl
  repeat' first
    | with_reducible assumption
    | with_reducible apply sendOn_kept
    | dsimp only

theorem sendAdvert_kept {cf ff : Bool} {s0 : State} (m : Nat) (addr : List Byte) (a : Advert) (s : State) (h0 : Kept cf ff s0 s) :
    Kept cf ff s0 (sendAdvert m addr a s) := by
  unfold sendAdvert
  repeat' first
    | with_reducible assumption
    | with_reducible apply wireOut_kept
    | dsimp only

theorem noteSent_kept {cf ff : Bool} {s0 : State} (m : Nat) (x : TxItem) (q : Nat) (s : State) (h0 : Kept cf ff s0 s) :
    Kept cf ff s0 (noteSent m x q s) := by
  unfold noteSent
  repeat' first
    | with_reducible assumption
    | with_reducible apply modDpt_kept
    | split

theorem pumpGo_kept {cf ff : Bool} {s0 : State} (m : Nat) (x0 : Nat) (x1 : State) (h0 : Kept cf ff s0 x1) :
    Kept cf ff s0 (pumpGo m x0 x1) := by
  fun_induction pumpGo m x0 x1
  all_goals try subst_vars
  all_goals
    repeat' first
      | with_reducible assumption
      | with_reducible apply modPeer_kept
      | with_reducible apply noteSent_kept
      | with_reducible apply sendOn_kept
      | split
      | intro _
      | dsimp only
      | with_reducible refine Kept.snd (by assumption) ?_
      | with_reducible refine Kept.sndA (by assumption) ?_
      | with_reducible refine Kept.sndB (by assumption) ?_
      | (with_reducible refine Kept.mk' ?_ rfl
         first
         | with_reducible assumption
         | with_reducible apply modPeer_kept
         | with_reducible apply noteSent_kept
         | with_reducible apply sendOn_kept
         | split
         | with_reducible refine Kept.snd (by assumption) ?_
         | with_reducible refine Kept.sndA (by assumption) ?_
         | with_reducible refine Kept.sndB (by assumption) ?_)
      | with_reducible apply_assumption

theorem pump_kept {cf ff : Bool} {s0 : State} (m : Nat) (s : State) (h0 : Kept cf ff s0 s) :
    Kept cf ff s0 (pump m s) := by
  unfold pump
  repeat' first
    | with_reducible assumption
    | with_reducible apply pumpGo_kept
    | dsimp only

theorem queueItems_kept {cf ff : Bool} {s0 : State} (m : Nat) (l : List TxItem) (s : State) (h0 : Kept cf ff s0 s) :
    Kept cf ff s0 (queueItems m l s) := by
  unfold queueItems
  repeat' first
    | with_reducible assumption
    | with_reducible apply pump_kept
    | with_reducible apply modPeer_kept

theorem grantPool_kept {cf ff : Bool} {s0 : State} (m : Nat) (s : State) (h0 : Kept cf ff s0 s) :
    Kept cf ff s0 (grantPool m s).2 := by
  unfold grantPool
  repeat' first
    | with_reducible assumption
    | with_reducible apply modPeer_kept
    | intro _
    | dsimp only
    | (with_reducible refine Kept.mk' ?_ rfl
       first
       | with_reducible assumption
       | with_reducible apply modPeer_kept)

theorem sendAck_kept {cf ff : Bool} {s0 : State} (m : Nat) (k : Nat) (sB : State) (h0 : Kept cf ff s0 sB) :
    Kept cf ff s0 (sendAck m k sB) := by
  unfold sendAck
  repeat' first
    | with_reducible assumption
    | with_reducible apply grantPool_kept
    | with_reducible apply wireOut_kept
    | with_reducible apply modPath_kept
    | with_reducible apply modPeer_kept
    | split
    | intro _
    | dsimp only
    | with_reducible refine Kept.snd (by assumption) ?_
    | with_reducible refine Kept.sndA (by assumption) ?_
    | with_reducible refine Kept.sndB (by assumption) ?_
    | (with_reducible refine Kept.mk' ?_ rfl
       first
       | with_reducible assumption
       | with_reducible apply grantPool_kept
       | with_reducible apply wireOut_kept
       | with_reducible apply modPath_kept
       | with_reducible apply modPeer_kept
       | split
       | with_reducible refine Kept.snd (by assumption) ?_
       | with_reducible refine Kept.sndA (by assumption) ?_
       | with_reducible refine Kept.sndB (by assumption) ?_)

theorem recvPsn_kept {cf ff : Bool} {s0 : State} (m : Nat) (k : Nat) (psn : Nat) (s : State) (h0 : Kept cf ff s0 s) :
    Kept cf ff s0 (recvPsn m k psn s) := by
  unfold recvPsn
  repeat' first
    | with_reducible assumption
    | with_reducible apply modPath_kept
    | with_reducible apply sendAck_kept
    | split
    | intro _
    | dsimp only

theorem finishRemote_kept {cf ff : Bool} {s0 : State} (r : Remote) (outs : List Nat) (s : State) (h0 : Kept cf ff s0 s) :
    Kept cf ff s0 (finishRemote r outs s) := by
  unfold finishRemote
  repeat' first
    | with_reducible assumption
    | with_reducible apply modDpt_kept
    | with_reducible apply endRun_kept
    | with_reducible apply modRun_kept
    | with_reducible apply finishCmd_kept
    | split

theorem kickGo_kept {cf ff : Bool} {s0 : State} (x0 : List (Nat × Nat)) (x1 : List Remote) (x2 : State) (h0 : Kept cf ff s0 x2) :
    Kept cf ff s0 (kickGo x0 x1 x2) := by
  fun_induction kickGo x0 x1 x2
  all_goals try subst_vars
  all_goals
    repeat' first
      | with_reducible assumption
      | with_reducible apply finishRemote_kept
      | with_reducible apply sendCtl_kept
      | with_reducible apply modDpt_kept
      | split
      | intro _
      | dsimp only
      | with_reducible refine Kept.snd (by assumption) ?_
      | with_reducible refine Kept.sndA (by assumption) ?_
      | with_reducible refine Kept.sndB (by assumption) ?_
      | (with_reducible refine Kept.mk' ?_ rfl
         first
         | with_reducible assumption
         | with_reducible apply finishRemote_kept
         | with_reducible apply sendCtl_kept
         | with_reducible apply modDpt_kept
         | split
         | with_reducible refine Kept.snd (by assumption) ?_
         | with_reducible refine Kept.sndA (by assumption) ?_
         | with_reducible refine Kept.sndB (by assumption) ?_)
      | with_reducible apply_assumption

theorem kick_kept {cf ff : Bool} {s0 : State} (s : State) (h0 : Kept cf ff s0 s) :
    Kept cf ff s0 (kick s) := by
  unfold kick
  repeat' first
    | with_reducible assumption
    | with_reducible apply kickGo_kept

theorem finishColl_kept {cf ff : Bool} {s0 : State} (k : Coll) (outs : List Nat) (s : State) (h0 : Kept cf ff s0 s) :
    Kept cf ff s0 (finishColl k outs s) := by
  unfold finishColl
  repeat' first
    | with_reducible assumption
    | with_reducible apply modDpt_kept
    | with_reducible apply finishCmd_kept

theorem scrambleColl_kept {cf ff : Bool} {s0 : State} (k : Coll) (s : State) (h0 : Kept cf ff s0 s) :
    Kept cf ff s0 (scrambleColl k s) := by
  unfold scrambleColl
  repeat' first
    | with_reducible assumption
    | with_reducible apply scramble_kept
    | split

theorem advanceEpoch_kept {cf ff : Bool} {s0 : State} (g : Nat) (s : State) (h0 : Kept cf ff s0 s) :
    Kept cf ff s0 (advanceEpoch g s) := by
  unfold advanceEpoch
  repeat' first
    | with_reducible assumption
    | with_reducible apply forEach_kept
    | with_reducible apply finishColl_kept
    | with_reducible apply scrambleColl_kept
    | with_reducible apply modDpt_kept
    | split
    | intro _

theorem dropMember_kept {cf ff : Bool} {s0 : State} (g : Nat) (m : Nat) (s : State) (h0 : Kept cf ff s0 s) :
    Kept cf ff s0 (dropMember g m s) := by
  unfold dropMember
  repeat' first
    | with_reducible assumption
    | with_reducible apply advanceEpoch_kept
    | with_reducible apply modDpt_kept
    | with_reducible apply setCause_kept
    | with_reducible apply henuaEvent_kept

theorem scrambleInbound_kept {cf ff : Bool} {s0 : State} (x : Inbound) (s : State) (h0 : Kept cf ff s0 s) :
    Kept cf ff s0 (scrambleInbound x s) := by
  unfold scrambleInbound
  repeat' first
    | with_reducible assumption
    | with_reducible apply Acc.start_kept
    | with_reducible apply wrPieces_kept
    | with_reducible apply freeSlots_kept
    | split
    | intro _
    | dsimp only
    | with_reducible refine Kept.snd (by assumption) ?_
    | with_reducible refine Kept.sndA (by assumption) ?_
    | with_reducible refine Kept.sndB (by assumption) ?_

theorem removePeer_kept {cf ff : Bool} {s0 : State} (m : Nat) (s : State) (h0 : Kept cf ff s0 s) :
    Kept cf ff s0 (removePeer m s) := by
  unfold removePeer
  repeat' first
    | with_reducible assumption
    | with_reducible apply forEach_kept
    | with_reducible apply scrambleInbound_kept
    | with_reducible apply finishRemote_kept
    | with_reducible apply modDpt_kept
    | intro _
    | dsimp only
    | (with_reducible refine Kept.mk' ?_ rfl
       first
       | with_reducible assumption
       | with_reducible apply forEach_kept
       | with_reducible apply scrambleInbound_kept
       | with_reducible apply finishRemote_kept
       | with_reducible apply modDpt_kept)

theorem losePeer_kept {cf ff : Bool} {s0 : State} (m : Nat) (s : State) (h0 : Kept cf ff s0 s) :
    Kept cf ff s0 (losePeer m s) := by
  unfold losePeer
  repeat' first
    | with_reducible assumption
    | with_reducible apply modDpt_kept
    | with_reducible apply schedule_kept
    | with_reducible apply forEach_kept
    | with_reducible apply dropMember_kept
    | with_reducible apply removePeer_kept
    | split
    | intro _

theorem heardFrom_kept {cf ff : Bool} {s0 : State} (m : Nat) (inc : Nat) (s : State) (h0 : Kept cf ff s0 s) :
    Kept cf ff s0 (heardFrom m inc s).2 := by
  unfold heardFrom
  repeat' first
    | with_reducible assumption
    | with_reducible apply losePeer_kept
    | split

theorem setNextQsn_kept {cf ff : Bool} {s0 : State} (m : Nat) (q : Nat) (n : Nat) (s : State) (h0 : Kept cf ff s0 s) :
    Kept cf ff s0 (setNextQsn m q n s) := by
  unfold setNextQsn
  repeat' first
    | with_reducible assumption
    | with_reducible apply modDpt_kept

theorem bufferPkt_kept {cf ff : Bool} {s0 : State} (hd : DptHdr) (payload : List Byte) (s : State) (h0 : Kept cf ff s0 s) :
    Kept cf ff s0 (bufferPkt hd payload s) := by
  unfold bufferPkt
  repeat' first
    | with_reducible assumption
    | with_reducible apply modDpt_kept

theorem landWrite_kept {cf ff : Bool} {s0 : State} (b : Buffered) (s : State) (h0 : Kept cf ff s0 s) :
    Kept cf ff s0 (landWrite b s).2 := by
  unfold landWrite
  repeat' first
    | with_reducible assumption
    | with_reducible apply Acc.start_kept
    | with_reducible apply wrPieces_kept
    | split
    | intro _
    | dsimp only

theorem landSignal_kept {cf ff : Bool} {s0 : State} (hd : DptHdr) (s : State) (h0 : Kept cf ff s0 s) :
    Kept cf ff s0 (landSignal hd s).2 := by
  unfold landSignal
  repeat' first
    | with_reducible assumption
    | with_reducible apply signalPhys_kept
    | split

theorem noteLanded_kept {cf ff : Bool} {s0 : State} (b : Buffered) (s : State) (h0 : Kept cf ff s0 s) :
    Kept cf ff s0 (noteLanded b s) := by
  unfold noteLanded
  repeat' first
    | with_reducible assumption
    | with_reducible apply modDpt_kept
    | split
    | intro _
    | dsimp only
    | (with_reducible refine Kept.mk' ?_ rfl
       first
       | with_reducible assumption
       | with_reducible apply modDpt_kept
       | split)

theorem releasePkt_kept {cf ff : Bool} {s0 : State} (b : Buffered) (s : State) (h0 : Kept cf ff s0 s) :
    Kept cf ff s0 (releasePkt b s) := by
  unfold releasePkt
  repeat' first
    | with_reducible assumption
    | with_reducible apply noteLanded_kept
    | with_reducible apply landWrite_kept
    | with_reducible apply landSignal_kept
    | with_reducible apply modPeer_kept
    | with_reducible apply setNextQsn_kept
    | with_reducible apply modDpt_kept
    | with_reducible apply sendAck_kept
    | with_reducible apply whenS_kept
    | with_reducible apply sendCtl_kept
    | split
    | intro _
    | dsimp only
    | (with_reducible refine Kept.mk' ?_ rfl
       first
       | with_reducible assumption
       | with_reducible apply noteLanded_kept
       | with_reducible apply landWrite_kept
       | with_reducible apply landSignal_kept
       | with_reducible apply modPeer_kept
       | with_reducible apply setNextQsn_kept
       | with_reducible apply modDpt_kept
       | with_reducible apply sendAck_kept
       | with_reducible apply whenS_kept
       | with_reducible apply sendCtl_kept
       | split)

theorem execDptWriteReceived_kept {cf ff : Bool} {s0 : State} (hd : DptHdr) (payload : List Byte) (s : State) (h0 : Kept cf ff s0 s) :
    ResKept cf ff s0 (execDptWriteReceived hd payload s) := by
  unfold execDptWriteReceived
  repeat' first
    | with_reducible assumption
    | with_reducible apply heardFrom_kept
    | with_reducible apply recvPsn_kept
    | with_reducible apply whenS_kept
    | with_reducible apply wakeSource_kept
    | with_reducible apply bufferPkt_kept
    | exact ResKept.same (by assumption)
    | with_reducible apply ResKept.next
    | split
    | intro _
    | dsimp only

theorem execReorderRelease_kept {cf ff : Bool} {s0 : State} (src : Nat) (queue : Nat) (s : State) (h0 : Kept cf ff s0 s) :
    ResKept cf ff s0 (execReorderRelease src queue s) := by
  unfold execReorderRelease
  repeat' first
    | with_reducible assumption
    | with_reducible apply wakeSource_kept
    | with_reducible apply viaGap_kept
    | with_reducible apply schedule_kept
    | with_reducible apply releasePkt_kept
    | exact ResKept.same (by assumption)
    | with_reducible apply ResKept.next
    | split
    | intro _
    | dsimp only
    | with_reducible refine Kept.snd (by assumption) ?_
    | with_reducible refine Kept.sndA (by assumption) ?_
    | with_reducible refine Kept.sndB (by assumption) ?_

theorem execDptSignalReceived_kept {cf ff : Bool} {s0 : State} (hd : DptHdr) (s : State) (h0 : Kept cf ff s0 s) :
    ResKept cf ff s0 (execDptSignalReceived hd s) := by
  unfold execDptSignalReceived
  repeat' first
    | with_reducible assumption
    | with_reducible apply heardFrom_kept
    | with_reducible apply recvPsn_kept
    | with_reducible apply schedule_kept
    | with_reducible apply releasePkt_kept
    | with_reducible apply bufferPkt_kept
    | exact ResKept.same (by assumption)
    | with_reducible apply ResKept.next
    | split
    | dsimp only

theorem resend_kept {cf ff : Bool} {s0 : State} (m : Nat) (k : Nat) (o : OutPkt) (s : State) (h0 : Kept cf ff s0 s) :
    Kept cf ff s0 (resend m k o s) := by
  unfold resend
  repeat' first
    | with_reducible assumption
    | with_reducible apply sendOn_kept
    | with_reducible apply modDpt_kept
    | with_reducible apply modPath_kept
    | split
    | intro _
    | dsimp only
    | with_reducible refine Kept.snd (by assumption) ?_
    | with_reducible refine Kept.sndA (by assumption) ?_
    | with_reducible refine Kept.sndB (by assumption) ?_
    | (with_reducible refine Kept.mk' ?_ rfl
       first
       | with_reducible assumption
       | with_reducible apply sendOn_kept
       | with_reducible apply modDpt_kept
       | with_reducible apply modPath_kept
       | split
       | with_reducible refine Kept.snd (by assumption) ?_
       | with_reducible refine Kept.sndA (by assumption) ?_
       | with_reducible refine Kept.sndB (by assumption) ?_)

theorem ackReceived_kept {cf ff : Bool} {s0 : State} (hd : DptHdr) (a : DptAck) (s : State) (h0 : Kept cf ff s0 s) :
    ResKept cf ff s0 (ackReceived hd a s) := by
  unfold ackReceived
  repeat' first
    | with_reducible assumption
    | with_reducible apply heardFrom_kept
    | with_reducible apply modPeer_kept
    | with_reducible apply modPath_kept
    | with_reducible apply forEach_kept
    | with_reducible apply resend_kept
    | with_reducible apply pump_kept
    | with_reducible apply kick_kept
    | with_reducible apply finishRemote_kept
    | exact ResKept.same (by assumption)
    | with_reducible apply ResKept.next
    | split
    | intro _
    | dsimp only
    | with_reducible refine Kept.snd (by assumption) ?_
    | with_reducible refine Kept.sndA (by assumption) ?_
    | with_reducible refine Kept.sndB (by assumption) ?_
    | (with_reducible refine Kept.mk' ?_ rfl
       first
       | with_reducible assumption
       | with_reducible apply heardFrom_kept
       | with_reducible apply modPeer_kept
       | with_reducible apply modPath_kept
       | with_reducible apply forEach_kept
       | with_reducible apply resend_kept
       | with_reducible apply pump_kept
       | with_reducible apply kick_kept
       | with_reducible apply finishRemote_kept
       | split
       | with_reducible refine Kept.snd (by assumption) ?_
       | with_reducible refine Kept.sndA (by assumption) ?_
       | with_reducible refine Kept.sndB (by assumption) ?_)

theorem execAckTimer_kept {cf ff : Bool} {s0 : State} (peer : Nat) (path : Nat) (s : State) (h0 : Kept cf ff s0 s) :
    ResKept cf ff s0 (execAckTimer peer path s) := by
  unfold execAckTimer
  repeat' first
    | with_reducible assumption
    | with_reducible apply onUnit_kept
    | with_reducible apply sendAck_kept
    | split

theorem execRetransmitTimeout_kept {cf ff : Bool} {s0 : State} (peer : Nat) (path : Nat) (psn : Nat) (s : State) (h0 : Kept cf ff s0 s) :
    ResKept cf ff s0 (execRetransmitTimeout peer path psn s) := by
  unfold execRetransmitTimeout
  repeat' first
    | with_reducible assumption
    | with_reducible apply onUnit_kept
    | with_reducible apply resend_kept
    | with_reducible apply modPath_kept
    | split

theorem execPathProbe_kept {cf ff : Bool} {s0 : State} (peer : Nat) (path : Nat) (s : State) (h0 : Kept cf ff s0 s) :
    ResKept cf ff s0 (execPathProbe peer path s) := by
  unfold execPathProbe
  repeat' first
    | with_reducible assumption
    | with_reducible apply onUnit_kept
    | with_reducible apply sendOn_kept
    | exact ResKept.same (by assumption)
    | split
    | dsimp only
    | with_reducible refine Kept.snd (by assumption) ?_
    | with_reducible refine Kept.sndA (by assumption) ?_
    | with_reducible refine Kept.sndB (by assumption) ?_

theorem execKeepaliveTimer_kept {cf ff : Bool} {s0 : State} (peer : Nat) (s : State) (h0 : Kept cf ff s0 s) :
    ResKept cf ff s0 (execKeepaliveTimer peer s) := by
  unfold execKeepaliveTimer
  repeat' first
    | with_reducible assumption
    | with_reducible apply sendOn_kept
    | with_reducible apply modPeer_kept
    | exact ResKept.same (by assumption)
    | with_reducible apply ResKept.next
    | split
    | intro _
    | dsimp only
    | with_reducible refine Kept.snd (by assumption) ?_
    | with_reducible refine Kept.sndA (by assumption) ?_
    | with_reducible refine Kept.sndB (by assumption) ?_
    | (with_reducible refine Kept.mk' ?_ rfl
       first
       | with_reducible assumption
       | with_reducible apply sendOn_kept
       | with_reducible apply modPeer_kept
       | split
       | with_reducible refine Kept.snd (by assumption) ?_
       | with_reducible refine Kept.sndA (by assumption) ?_
       | with_reducible refine Kept.sndB (by assumption) ?_)

theorem execPeerTimeout_kept {cf ff : Bool} {s0 : State} (peer : Nat) (s : State) (h0 : Kept cf ff s0 s) :
    ResKept cf ff s0 (execPeerTimeout peer s) := by
  unfold execPeerTimeout
  repeat' first
    | with_reducible assumption
    | with_reducible apply losePeer_kept
    | with_reducible apply ResKept.next

theorem prunePeers_kept {cf ff : Bool} {s0 : State} (s : State) (h0 : Kept cf ff s0 s) :
    Kept cf ff s0 (prunePeers s) := by
  unfold prunePeers
  repeat' first
    | with_reducible assumption
    | with_reducible apply forEach_kept
    | with_reducible apply removePeer_kept

theorem removeGroup_kept {cf ff : Bool} {s0 : State} (g : Nat) (s : State) (h0 : Kept cf ff s0 s) :
    Kept cf ff s0 (removeGroup g s) := by
  unfold removeGroup
  repeat' first
    | with_reducible assumption
    | with_reducible apply advanceEpoch_kept
    | with_reducible apply prunePeers_kept
    | with_reducible apply modDpt_kept

theorem completeJoin_kept {cf ff : Bool} {s0 : State} (g : Nat) (s : State) (h0 : Kept cf ff s0 s) :
    Kept cf ff s0 (completeJoin g s) := by
  unfold completeJoin
  repeat' first
    | with_reducible assumption
    | with_reducible apply finishCmd_kept
    | with_reducible apply removeGroup_kept
    | with_reducible apply modDpt_kept
    | split

theorem execGroupJoin_kept {cf ff : Bool} {s0 : State} (h : Nat) (s : State) (h0 : Kept cf ff s0 s) :
    ResKept cf ff s0 (execGroupJoin h s) := by
  unfold execGroupJoin
  repeat' first
    | with_reducible assumption
    | with_reducible apply runCmd_kept
    | with_reducible apply hostFetch_kept
    | with_reducible apply finishCmd_kept
    | with_reducible apply forEach_kept
    | with_reducible apply whenS_kept
    | with_reducible apply advanceEpoch_kept
    | with_reducible apply modDpt_kept
    | with_reducible apply sendAdvert_kept
    | exact ResKept.same (by assumption)
    | split
    | intro _
    | dsimp only
    | (with_reducible refine Kept.mk' ?_ rfl
       first
       | with_reducible assumption
       | with_reducible apply runCmd_kept
       | with_reducible apply hostFetch_kept
       | with_reducible apply finishCmd_kept
       | with_reducible apply forEach_kept
       | with_reducible apply whenS_kept
       | with_reducible apply advanceEpoch_kept
       | with_reducible apply modDpt_kept
       | with_reducible apply sendAdvert_kept
       | split)

theorem execJoinTimeout_kept {cf ff : Bool} {s0 : State} (h : Nat) (s : State) (h0 : Kept cf ff s0 s) :
    ResKept cf ff s0 (execJoinTimeout h s) := by
  unfold execJoinTimeout
  repeat' first
    | with_reducible assumption
    | with_reducible apply completeJoin_kept
    | with_reducible apply ResKept.next
    | split

theorem execGroupLeave_kept {cf ff : Bool} {s0 : State} (h : Nat) (s : State) (h0 : Kept cf ff s0 s) :
    ResKept cf ff s0 (execGroupLeave h s) := by
  unfold execGroupLeave
  repeat' first
    | with_reducible assumption
    | with_reducible apply runCmd_kept
    | with_reducible apply finishCmd_kept
    | with_reducible apply forEach_kept
    | with_reducible apply whenS_kept
    | with_reducible apply sendCtl_kept
    | with_reducible apply schedule_kept
    | with_reducible apply removeGroup_kept
    | split
    | intro _
    | dsimp only

theorem recvAdvert_kept {cf ff : Bool} {s0 : State} (m : Nat) (a : Advert) (s : State) (h0 : Kept cf ff s0 s) :
    Kept cf ff s0 (recvAdvert m a s) := by
  unfold recvAdvert
  repeat' first
    | with_reducible assumption
    | with_reducible apply losePeer_kept
    | with_reducible apply sendAdvert_kept
    | with_reducible apply modDpt_kept
    | with_reducible apply advanceEpoch_kept
    | with_reducible apply completeJoin_kept
    | split
    | intro _
    | dsimp only
    | with_reducible refine Kept.snd (by assumption) ?_
    | with_reducible refine Kept.sndA (by assumption) ?_
    | with_reducible refine Kept.sndB (by assumption) ?_
    | (with_reducible refine Kept.mk' ?_ rfl
       first
       | with_reducible assumption
       | with_reducible apply losePeer_kept
       | with_reducible apply sendAdvert_kept
       | with_reducible apply modDpt_kept
       | with_reducible apply advanceEpoch_kept
       | with_reducible apply completeJoin_kept
       | split
       | with_reducible refine Kept.snd (by assumption) ?_
       | with_reducible refine Kept.sndA (by assumption) ?_
       | with_reducible refine Kept.sndB (by assumption) ?_)

theorem execRemoteCopy_kept {cf ff : Bool} {s0 : State} (h : Nat) (s : State) (h0 : Kept cf ff s0 s) :
    ResKept cf ff s0 (execRemoteCopy h s) := by
  unfold execRemoteCopy
  repeat' first
    | with_reducible assumption
    | with_reducible apply runCmd_kept
    | with_reducible apply finishCmd_kept
    | with_reducible apply kick_kept
    | with_reducible apply modDpt_kept
    | split
    | intro _
    | dsimp only

theorem sendCopy_kept {cf ff : Bool} {s0 : State} (r : Remote) (s : State) (h0 : Kept cf ff s0 s) :
    Kept cf ff s0 (sendCopy r s) := by
  unfold sendCopy
  repeat' first
    | with_reducible assumption
    | with_reducible apply Acc.start_kept
    | with_reducible apply rdEls_kept
    | with_reducible apply modDpt_kept
    | with_reducible apply queueItems_kept
    | split
    | intro _
    | dsimp only
    | (with_reducible refine Kept.mk' ?_ rfl
       first
       | with_reducible assumption
       | with_reducible apply Acc.start_kept
       | with_reducible apply rdEls_kept
       | with_reducible apply modDpt_kept
       | with_reducible apply queueItems_kept
       | split)

theorem noteInbound_kept {cf ff : Bool} {s0 : State} (m : Nat) (q : Nat) (t : Nat) (d : Nat) (s : State) (h0 : Kept cf ff s0 s) :
    Kept cf ff s0 (noteInbound m q t d s) := by
  unfold noteInbound
  repeat' first
    | with_reducible assumption
    | with_reducible apply modDpt_kept
    | intro _
    | dsimp only
    | (with_reducible refine Kept.mk' ?_ rfl
       first
       | with_reducible assumption
       | with_reducible apply modDpt_kept)

theorem settleColl_kept {cf ff : Bool} {s0 : State} (h : Nat) (s : State) (h0 : Kept cf ff s0 s) :
    Kept cf ff s0 (settleColl h s) := by
  unfold settleColl
  repeat' first
    | with_reducible assumption
    | with_reducible apply Acc.start_kept
    | with_reducible apply wakeSource_kept
    | with_reducible apply viaGap_kept
    | with_reducible apply wrPieces_kept
    | with_reducible apply finishColl_kept
    | split
    | intro _
    | dsimp only
    | with_reducible refine Kept.snd (by assumption) ?_
    | with_reducible refine Kept.sndA (by assumption) ?_
    | with_reducible refine Kept.sndB (by assumption) ?_

theorem modColl_kept {cf ff : Bool} {s0 : State} (h : Nat) (f : Coll → Coll) (s : State) (h0 : Kept cf ff s0 s) :
    Kept cf ff s0 (modColl h f s) := by
  unfold modColl
  repeat' first
    | with_reducible assumption
    | with_reducible apply modDpt_kept

theorem startColl_kept {cf ff : Bool} {s0 : State} (h : Nat) (s : State) (h0 : Kept cf ff s0 s) :
    Kept cf ff s0 (startColl h s) := by
  unfold startColl
  repeat' first
    | with_reducible assumption
    | with_reducible apply Acc.start_kept
    | with_reducible apply rdEls_kept
    | with_reducible apply modColl_kept
    | with_reducible apply forEach_kept
    | with_reducible apply queueItems_kept
    | with_reducible apply settleColl_kept
    | split
    | intro _
    | dsimp only
    | with_reducible refine Kept.snd (by assumption) ?_
    | with_reducible refine Kept.sndA (by assumption) ?_
    | with_reducible refine Kept.sndB (by assumption) ?_
    | (with_reducible refine Kept.mk' ?_ rfl
       first
       | with_reducible assumption
       | with_reducible apply Acc.start_kept
       | with_reducible apply rdEls_kept
       | with_reducible apply modColl_kept
       | with_reducible apply forEach_kept
       | with_reducible apply queueItems_kept
       | with_reducible apply settleColl_kept
       | split
       | with_reducible refine Kept.snd (by assumption) ?_
       | with_reducible refine Kept.sndA (by assumption) ?_
       | with_reducible refine Kept.sndB (by assumption) ?_)

theorem matchHello_kept {cf ff : Bool} {s0 : State} (h : Nat) (m : Nat) (kind : Nat) (red : Nat) (fmt : Nat) (count : Nat) (s : State) (h0 : Kept cf ff s0 s) :
    Kept cf ff s0 (matchHello h m kind red fmt count s) := by
  unfold matchHello
  repeat' first
    | with_reducible assumption
    | with_reducible apply modColl_kept
    | with_reducible apply startColl_kept
    | with_reducible apply finishColl_kept
    | split
    | intro _
    | dsimp only

theorem execCollective_kept {cf ff : Bool} {s0 : State} (h : Nat) (s : State) (h0 : Kept cf ff s0 s) :
    ResKept cf ff s0 (execCollective h s) := by
  unfold execCollective
  repeat' first
    | with_reducible assumption
    | with_reducible apply runCmd_kept
    | with_reducible apply schedule_kept
    | with_reducible apply settleColl_kept
    | with_reducible apply finishCmd_kept
    | with_reducible apply modDpt_kept
    | with_reducible apply forEach_kept
    | with_reducible apply whenS_kept
    | with_reducible apply sendCtl_kept
    | with_reducible apply matchHello_kept
    | exact ResKept.same (by assumption)
    | split
    | intro _
    | dsimp only
    | with_reducible refine Kept.snd (by assumption) ?_
    | with_reducible refine Kept.sndA (by assumption) ?_
    | with_reducible refine Kept.sndB (by assumption) ?_
    | (with_reducible refine Kept.mk' ?_ rfl
       first
       | with_reducible assumption
       | with_reducible apply runCmd_kept
       | with_reducible apply schedule_kept
       | with_reducible apply settleColl_kept
       | with_reducible apply finishCmd_kept
       | with_reducible apply modDpt_kept
       | with_reducible apply forEach_kept
       | with_reducible apply whenS_kept
       | with_reducible apply sendCtl_kept
       | with_reducible apply matchHello_kept
       | split
       | with_reducible refine Kept.snd (by assumption) ?_
       | with_reducible refine Kept.sndA (by assumption) ?_
       | with_reducible refine Kept.sndB (by assumption) ?_)

theorem recvHello_kept {cf ff : Bool} {s0 : State} (m : Nat) (c : DptCtl) (s : State) (h0 : Kept cf ff s0 s) :
    Kept cf ff s0 (recvHello m c s) := by
  unfold recvHello
  repeat' first
    | with_reducible assumption
    | with_reducible apply matchHello_kept
    | with_reducible apply modDpt_kept
    | split

theorem execDptCollectiveDataReceived_kept {cf ff : Bool} {s0 : State} (hd : DptHdr) (payload : List Byte) (s : State) (h0 : Kept cf ff s0 s) :
    ResKept cf ff s0 (execDptCollectiveDataReceived hd payload s) := by
  unfold execDptCollectiveDataReceived
  repeat' first
    | with_reducible assumption
    | with_reducible apply heardFrom_kept
    | with_reducible apply recvPsn_kept
    | with_reducible apply modPeer_kept
    | with_reducible apply schedule_kept
    | with_reducible apply settleColl_kept
    | with_reducible apply modColl_kept
    | exact ResKept.same (by assumption)
    | with_reducible apply ResKept.next
    | split
    | intro _
    | dsimp only
    | with_reducible refine Kept.snd (by assumption) ?_
    | with_reducible refine Kept.sndA (by assumption) ?_
    | with_reducible refine Kept.sndB (by assumption) ?_
    | (with_reducible refine Kept.mk' ?_ rfl
       first
       | with_reducible assumption
       | with_reducible apply heardFrom_kept
       | with_reducible apply recvPsn_kept
       | with_reducible apply modPeer_kept
       | with_reducible apply schedule_kept
       | with_reducible apply settleColl_kept
       | with_reducible apply modColl_kept
       | split
       | with_reducible refine Kept.snd (by assumption) ?_
       | with_reducible refine Kept.sndA (by assumption) ?_
       | with_reducible refine Kept.sndB (by assumption) ?_)

theorem controlReceived_kept {cf ff : Bool} {s0 : State} (hd : DptHdr) (m : DptCtl) (s : State) (h0 : Kept cf ff s0 s) :
    ResKept cf ff s0 (controlReceived hd m s) := by
  unfold controlReceived
  repeat' first
    | with_reducible assumption
    | with_reducible apply schedule_kept
    | with_reducible apply recvAdvert_kept
    | with_reducible apply heardFrom_kept
    | with_reducible apply recvPsn_kept
    | with_reducible apply prunePeers_kept
    | with_reducible apply whenS_kept
    | with_reducible apply dropMember_kept
    | with_reducible apply modDpt_kept
    | with_reducible apply sendCtl_kept
    | with_reducible apply noteInbound_kept
    | with_reducible apply sendCopy_kept
    | with_reducible apply kick_kept
    | with_reducible apply finishRemote_kept
    | with_reducible apply recvHello_kept
    | exact ResKept.same (by assumption)
    | with_reducible apply ResKept.next
    | split
    | intro _
    | dsimp only
    | with_reducible refine Kept.snd (by assumption) ?_
    | with_reducible refine Kept.sndA (by assumption) ?_
    | with_reducible refine Kept.sndB (by assumption) ?_
    | (with_reducible refine Kept.mk' ?_ rfl
       first
       | with_reducible assumption
       | with_reducible apply schedule_kept
       | with_reducible apply recvAdvert_kept
       | with_reducible apply heardFrom_kept
       | with_reducible apply recvPsn_kept
       | with_reducible apply prunePeers_kept
       | with_reducible apply whenS_kept
       | with_reducible apply dropMember_kept
       | with_reducible apply modDpt_kept
       | with_reducible apply sendCtl_kept
       | with_reducible apply noteInbound_kept
       | with_reducible apply sendCopy_kept
       | with_reducible apply kick_kept
       | with_reducible apply finishRemote_kept
       | with_reducible apply recvHello_kept
       | split
       | with_reducible refine Kept.snd (by assumption) ?_
       | with_reducible refine Kept.sndA (by assumption) ?_
       | with_reducible refine Kept.sndB (by assumption) ?_)

theorem execDptAckReceived_kept {cf ff : Bool} {s0 : State} (src incarnation : Nat) (p : DptShort × DptAck) (s : State) (h0 : Kept cf ff s0 s) :
    ResKept cf ff s0 (execDptAckReceived src incarnation p s) := ackReceived_kept _ _ s h0

theorem execDptControlReceived_kept {cf ff : Bool} {s0 : State} (src incarnation : Nat) (p : DptShort × DptCtl) (s : State) (h0 : Kept cf ff s0 s) :
    ResKept cf ff s0 (execDptControlReceived src incarnation p s) := controlReceived_kept _ _ s h0

end Sys2Proof.Machine
end

