-- ==== Sys2Proof/Laws/KeptFrames.lean ====
section
/-! SUPPORT. `Kept` for the operations of Machine/Frames.lean. -/

namespace Sys2Proof.Machine

theorem stopMargins_kept {cf ff : Bool} {s0 : State} (port : Nat) (down : Nat → Bool) (s : State) (h0 : Kept cf ff s0 s) :
    Kept cf ff s0 (stopMargins port down s) := by
  unfold stopMargins
  repeat' first
    | with_reducible assumption
    | with_reducible apply forEach_kept
    | with_reducible apply finishCmd_kept
    | intro _
    | dsimp only

theorem execPortConfig_kept {cf ff : Bool} {s0 : State} (h : Nat) (s : State) (h0 : Kept cf ff s0 s) :
    ResKept cf ff s0 (execPortConfig h s) := by
  unfold execPortConfig
  repeat' first
    | with_reducible assumption
    | with_reducible apply runCmd_kept
    | with_reducible apply hostFetch_kept
    | with_reducible apply finishCmd_kept
    | with_reducible apply modPort_kept
    | with_reducible apply stopMargins_kept
    | exact ResKept.same (by assumption)
    | split
    | intro _
    | dsimp only
    | (with_reducible refine Kept.mk' ?_ rfl
       first
       | with_reducible assumption
       | with_reducible apply runCmd_kept
       | with_reducible apply hostFetch_kept
       | with_reducible apply finishCmd_kept
       | with_reducible apply modPort_kept
       | with_reducible apply stopMargins_kept
       | split)

theorem pumpAll_kept {cf ff : Bool} {s0 : State} (s : State) (h0 : Kept cf ff s0 s) :
    Kept cf ff s0 (pumpAll s) := by
  unfold pumpAll
  repeat' first
    | with_reducible assumption
    | with_reducible apply forEach_kept
    | with_reducible apply pump_kept

theorem execEthLinkUp_kept {cf ff : Bool} {s0 : State} (port : Nat) (logical : Nat) (s : State) (h0 : Kept cf ff s0 s) :
    ResKept cf ff s0 (execEthLinkUp port logical s) := by
  unfold execEthLinkUp
  repeat' first
    | with_reducible assumption
    | with_reducible apply onUnit_kept
    | with_reducible apply modPort_kept
    | with_reducible apply pumpAll_kept
    | with_reducible apply modDpt_kept
    | exact ResKept.same (by assumption)
    | split
    | intro _
    | dsimp only
    | (with_reducible refine Kept.mk' ?_ rfl
       first
       | with_reducible assumption
       | with_reducible apply onUnit_kept
       | with_reducible apply modPort_kept
       | with_reducible apply pumpAll_kept
       | with_reducible apply modDpt_kept
       | split)

theorem execEthLinkDown_kept {cf ff : Bool} {s0 : State} (port : Nat) (logical : Nat) (s : State) (h0 : Kept cf ff s0 s) :
    ResKept cf ff s0 (execEthLinkDown port logical s) := by
  unfold execEthLinkDown
  repeat' first
    | with_reducible assumption
    | with_reducible apply onUnit_kept
    | with_reducible apply pumpAll_kept
    | with_reducible apply modPort_kept
    | with_reducible apply stopMargins_kept
    | exact ResKept.same (by assumption)
    | intro _
    | dsimp only
    | (with_reducible refine Kept.mk' ?_ rfl
       first
       | with_reducible assumption
       | with_reducible apply onUnit_kept
       | with_reducible apply pumpAll_kept
       | with_reducible apply modPort_kept
       | with_reducible apply stopMargins_kept)

theorem ringReceive_kept {cf ff : Bool} {s0 : State} (port : Nat) (logical : Nat) (fraction : Nat) (bytes : List Byte) (s : State) (h0 : Kept cf ff s0 s) :
    Kept cf ff s0 (ringReceive port logical fraction bytes s) := by
  unfold ringReceive
  repeat' first
    | with_reducible assumption
    | with_reducible apply setCause_kept
    | with_reducible apply modDpt_kept
    | with_reducible apply hostWrite_kept
    | split
    | intro _
    | dsimp only
    | (with_reducible refine Kept.mk' ?_ rfl
       first
       | with_reducible assumption
       | with_reducible apply setCause_kept
       | with_reducible apply modDpt_kept
       | with_reducible apply hostWrite_kept
       | split)

theorem execFrameReceived_kept {cf ff : Bool} {s0 : State} (port : Nat) (logical : Nat) (length : Nat) (fraction : Nat) (fecCorr : Nat) (fecUncorr : Nat) (k : FrameKind) (s : State) (h0 : Kept cf ff s0 s) :
    ResKept cf ff s0 (execFrameReceived port logical length fraction fecCorr fecUncorr k s) := by
  unfold execFrameReceived
  repeat' first
    | with_reducible assumption
    | with_reducible apply onUnit_kept
    | with_reducible apply modPort_kept
    | with_reducible apply emit_kept
    | with_reducible apply ringReceive_kept
    | exact ResKept.same (by assumption)
    | split
    | intro _
    | dsimp only
    | with_reducible refine Kept.snd (by assumption) ?_
    | with_reducible refine Kept.sndA (by assumption) ?_
    | with_reducible refine Kept.sndB (by assumption) ?_
    | (with_reducible refine Kept.mk' ?_ rfl
       first
       | with_reducible assumption
       | with_reducible apply onUnit_kept
       | with_reducible apply modPort_kept
       | with_reducible apply emit_kept
       | with_reducible apply ringReceive_kept
       | split
       | with_reducible refine Kept.snd (by assumption) ?_
       | with_reducible refine Kept.sndA (by assumption) ?_
       | with_reducible refine Kept.sndB (by assumption) ?_)

theorem ringSend_kept {cf ff : Bool} {s0 : State} (fraction : Nat) (i : Nat) (s : State) (h0 : Kept cf ff s0 s) :
    Kept cf ff s0 (ringSend fraction i s) := by
  unfold ringSend
  repeat' first
    | with_reducible assumption
    | with_reducible apply hostFetch_kept
    | with_reducible apply emit_kept
    | with_reducible apply modPort_kept
    | with_reducible apply hostWrite_kept
    | split
    | intro _
    | dsimp only
    | (with_reducible refine Kept.mk' ?_ rfl
       first
       | with_reducible assumption
       | with_reducible apply hostFetch_kept
       | with_reducible apply emit_kept
       | with_reducible apply modPort_kept
       | with_reducible apply hostWrite_kept
       | split)

theorem sendRing_kept {cf ff : Bool} {s0 : State} (fraction : Nat) (tail : Nat) (x0 : Nat) (x1 : State) (h0 : Kept cf ff s0 x1) :
    Kept cf ff s0 (sendRing fraction tail x0 x1) := by
  fun_induction sendRing fraction tail x0 x1
  all_goals try subst_vars
  all_goals
    repeat' first
      | with_reducible assumption
      | with_reducible apply modDpt_kept
      | with_reducible apply ringSend_kept
      | split
      | intro _
      | dsimp only
      | with_reducible refine Kept.snd (by assumption) ?_
      | with_reducible refine Kept.sndA (by assumption) ?_
      | with_reducible refine Kept.sndB (by assumption) ?_
      | (with_reducible refine Kept.mk' ?_ rfl
         first
         | with_reducible assumption
         | with_reducible apply modDpt_kept
         | with_reducible apply ringSend_kept
         | split
         | with_reducible refine Kept.snd (by assumption) ?_
         | with_reducible refine Kept.sndA (by assumption) ?_
         | with_reducible refine Kept.sndB (by assumption) ?_)
      | with_reducible apply_assumption

theorem execHgPtpTxTailWrite_kept {cf ff : Bool} {s0 : State} (fn : Nat) (tail : Nat) (fraction : Nat) (s : State) (h0 : Kept cf ff s0 s) :
    ResKept cf ff s0 (execHgPtpTxTailWrite fn tail fraction s) := by
  unfold execHgPtpTxTailWrite
  repeat' first
    | with_reducible assumption
    | with_reducible apply onUnit_kept
    | with_reducible apply modDpt_kept
    | with_reducible apply sendRing_kept
    | split
    | intro _
    | dsimp only

theorem execHgPtpRxHeadWrite_kept {cf ff : Bool} {s0 : State} (fn : Nat) (head : Nat) (s : State) (h0 : Kept cf ff s0 s) :
    ResKept cf ff s0 (execHgPtpRxHeadWrite fn head s) := by
  unfold execHgPtpRxHeadWrite
  repeat' first
    | with_reducible assumption
    | with_reducible apply onUnit_kept
    | with_reducible apply modDpt_kept
    | split

end Sys2Proof.Machine
end

