-- ==== Sys2Proof/Laws/KeptDiag.lean ====
section
/-! SUPPORT. `Kept` for the operations of Machine/Diag.lean. -/

namespace Sys2Proof.Machine

theorem execNop_kept {cf ff : Bool} {s0 : State} (h : Nat) (s : State) (h0 : Kept cf ff s0 s) :
    ResKept cf ff s0 (execNop h s) := by
  unfold execNop
  repeat' first
    | with_reducible assumption
    | with_reducible apply runCmd_kept
    | with_reducible apply finishCmd_kept
    | intro _

theorem execFlipMask_kept {cf ff : Bool} {s0 : State} (h : Nat) (s : State) (h0 : Kept cf ff s0 s) :
    ResKept cf ff s0 (execFlipMask h s) := by
  unfold execFlipMask
  repeat' first
    | with_reducible assumption
    | with_reducible apply runCmd_kept
    | with_reducible apply hostFetch_kept
    | with_reducible apply finishCmd_kept
    | with_reducible apply modStk_kept
    | exact ResKept.same (by assumption)
    | split
    | intro _
    | dsimp only
    | (with_reducible refine Kept.mk' ?_ rfl
       first
       | with_reducible assumption
       | with_reducible apply runCmd_kept
       | with_reducible apply hostFetch_kept
       | with_reducible apply finishCmd_kept
       | with_reducible apply modStk_kept
       | split)

theorem execFaultHistory_kept {cf ff : Bool} {s0 : State} (h : Nat) (s : State) (h0 : Kept cf ff s0 s) :
    ResKept cf ff s0 (execFaultHistory h s) := by
  unfold execFaultHistory
  repeat' first
    | with_reducible assumption
    | with_reducible apply runCmd_kept
    | with_reducible apply finishCmd_kept
    | with_reducible apply hostWrite_kept
    | exact ResKept.same (by assumption)
    | intro _
    | dsimp only

theorem execAttest_kept {cf ff : Bool} {s0 : State} (h : Nat) (s : State) (h0 : Kept cf ff s0 s) :
    ResKept cf ff s0 (execAttest h s) := by
  unfold execAttest
  repeat' first
    | with_reducible assumption
    | with_reducible apply runCmd_kept
    | with_reducible apply finishCmd_kept
    | with_reducible apply hostWrite_kept
    | with_reducible apply hostFetch_kept
    | exact ResKept.same (by assumption)
    | intro _
    | dsimp only

theorem unmeasured_kept {cf ff : Bool} {s0 : State} (lane : Nat) (use : Nat) (replaces : Nat) (s : State) (h0 : Kept cf ff s0 s) :
    Kept cf ff s0 (unmeasured lane use replaces s).2 := by
  unfold unmeasured
  repeat' first
    | with_reducible assumption
    | with_reducible apply freshVal_kept

theorem groupEntries_kept {cf ff : Bool} {s0 : State} (x : Stack) (group : Nat) (ms : List LaneMargin) (swept : List Nat) (x0 : List Nat) (x1 : State) (h0 : Kept cf ff s0 x1) :
    Kept cf ff s0 (groupEntries x group ms swept x0 x1).2 := by
  induction x0 generalizing x x1
  all_goals
    unfold groupEntries
    repeat' first
      | with_reducible assumption
      | with_reducible apply unmeasured_kept
      | split
      | intro _
      | dsimp only
      | with_reducible refine Kept.snd (by assumption) ?_
      | with_reducible refine Kept.sndA (by assumption) ?_
      | with_reducible refine Kept.sndB (by assumption) ?_
      | with_reducible apply_assumption

theorem marginGroup_kept {cf ff : Bool} {s0 : State} (k : Nat) (group : Nat) (ms : List LaneMargin) (s : State) (h0 : Kept cf ff s0 s) :
    Kept cf ff s0 (marginGroup k group ms s).2 := by
  unfold marginGroup
  repeat' first
    | with_reducible assumption
    | with_reducible apply modStk_kept
    | with_reducible apply groupEntries_kept

theorem marginLane_kept {cf ff : Bool} {s0 : State} (kind : Nat) (link : Nat) (lane : Nat) (ms : List LaneMargin) (s : State) (h0 : Kept cf ff s0 s) :
    Kept cf ff s0 (marginLane kind link lane ms s).2 := by
  unfold marginLane
  repeat' first
    | with_reducible assumption
    | with_reducible apply unmeasured_kept
    | split

theorem execMargin_kept {cf ff : Bool} {s0 : State} (h : Nat) (lanes : List LaneMargin) (s : State) (h0 : Kept cf ff s0 s) :
    ResKept cf ff s0 (execMargin h lanes s) := by
  unfold execMargin
  repeat' first
    | with_reducible assumption
    | with_reducible apply runCmd_kept
    | with_reducible apply finishCmd_kept
    | with_reducible apply marginGroup_kept
    | with_reducible apply marginLane_kept
    | with_reducible apply hostWrite_kept
    | exact ResKept.same (by assumption)
    | split
    | intro _
    | dsimp only

theorem holdWake_kept {cf ff : Bool} {s0 : State} (c : Bool) (s : State) (h0 : Kept cf ff s0 s) :
    Kept cf ff s0 (holdWake c s) := by
  unfold holdWake
  repeat' first
    | with_reducible assumption
    | with_reducible apply whenS_kept
    | with_reducible apply modPm_kept

theorem enterIdle_kept {cf ff : Bool} {s0 : State} (s : State) (h0 : Kept cf ff s0 s) :
    Kept cf ff s0 (enterIdle s) := by
  unfold enterIdle
  repeat' first
    | with_reducible assumption
    | with_reducible apply holdWake_kept
    | with_reducible apply modPm_kept

theorem flushAll_kept {cf ff : Bool} {s0 : State} (s : State) (h0 : Kept cf ff s0 s) :
    Kept cf ff s0 (flushAll s) := by
  unfold flushAll
  repeat' first
    | with_reducible assumption
    | with_reducible apply forEach_kept
    | with_reducible apply flushBlk_kept
    | intro _

theorem enterHold_kept {cf ff : Bool} {s0 : State} (s : State) (h0 : Kept cf ff s0 s) :
    Kept cf ff s0 (enterHold s) := by
  unfold enterHold
  repeat' first
    | with_reducible assumption
    | with_reducible apply modPm_kept
    | with_reducible apply flushAll_kept
    | with_reducible apply holdWake_kept

theorem beginEntry_kept {cf ff : Bool} {s0 : State} (target : Power) (s : State) (h0 : Kept cf ff s0 s) :
    Kept cf ff s0 (beginEntry target s) := by
  unfold beginEntry
  repeat' first
    | with_reducible assumption
    | with_reducible apply modPm_kept
    | with_reducible apply forEach_kept
    | with_reducible apply pauseRun_kept
    | split

theorem execPowerState_kept {cf ff : Bool} {s0 : State} (h : Nat) (s : State) (h0 : Kept cf ff s0 s) :
    ResKept cf ff s0 (execPowerState h s) := by
  unfold execPowerState
  repeat' first
    | with_reducible assumption
    | with_reducible apply runCmd_kept
    | with_reducible apply finishCmd_kept
    | with_reducible apply wakeSource_kept
    | with_reducible apply schedule_kept
    | with_reducible apply modPm_kept
    | with_reducible apply beginEntry_kept
    | with_reducible apply enterIdle_kept
    | with_reducible apply enterHold_kept
    | split
    | intro _
    | dsimp only

end Sys2Proof.Machine
end

