-- ==== Sys2Proof/Laws/KeptTileData.lean ====
section
/-! SUPPORT. `Kept` for the operations of Machine/TileData.lean. -/

namespace Sys2Proof.Machine

theorem Kept.sndT {α : Type} {cf ff : Bool} {s0 : State} {a : α} {b : TAcc} {p : α × TAcc} (e : p = (a, b)) (h : Kept cf ff s0 p.2.a.s) : Kept cf ff s0 b.a.s := by
  subst e; exact h

theorem TAcc.start_kept {cf ff : Bool} {s0 : State} (s : State) (t : Nat) (c : Ctx) (h0 : Kept cf ff s0 s) :
    Kept cf ff s0 (TAcc.start s t c).a.s := by
  unfold TAcc.start
  repeat' first
    | with_reducible assumption
    | with_reducible apply Acc.start_kept

theorem tRead_kept {cf ff : Bool} {s0 : State} (space : Nat) (off : Nat) (len : Nat) (x : TAcc) (h0 : Kept cf ff s0 x.a.s) :
    Kept cf ff s0 (tRead space off len x).2.a.s := by
  unfold tRead
  repeat' first
    | with_reducible assumption
    | with_reducible apply rdBytes_kept
    | split

theorem tWrite_kept {cf ff : Bool} {s0 : State} (space : Nat) (off : Nat) (bs : List Byte) (poison : Bool) (x : TAcc) (h0 : Kept cf ff s0 x.a.s) :
    Kept cf ff s0 (tWrite space off bs poison x).a.s := by
  unfold tWrite
  repeat' first
    | with_reducible assumption
    | with_reducible apply wrBytes_kept
    | split

theorem noteFail_kept {cf ff : Bool} {s0 : State} (f : Option Failure) (x : TAcc) (h0 : Kept cf ff s0 x.a.s) :
    Kept cf ff s0 (noteFail f x).a.s := by
  unfold noteFail
  repeat' first
    | with_reducible assumption

theorem noteRun_kept {cf ff : Bool} {s0 : State} (r : Nat) (outs : List Nat) (s : State) (h0 : Kept cf ff s0 s) :
    Kept cf ff s0 (noteRun r outs s) := by
  unfold noteRun
  repeat' first
    | with_reducible assumption
    | with_reducible apply modRun_kept

theorem finishT_kept {cf ff : Bool} {s0 : State} (x : TAcc) (k : State → State) (h0 : Kept cf ff s0 x.a.s) (h1 : ∀ (y0 : State), Kept cf ff s0 y0 → Kept cf ff s0 (k y0)) :
    Kept cf ff s0 (finishT x k) := by
  unfold finishT
  repeat' first
    | with_reducible assumption
    | with_reducible apply h1
    | with_reducible apply noteRun_kept
    | with_reducible apply modTile_kept
    | with_reducible apply schedule_kept
    | with_reducible apply endRun_kept
    | with_reducible apply failStep_kept
    | split

theorem rdVec_kept {cf ff : Bool} {s0 : State} (bf16 : Bool) (off : Nat) (n : Nat) (x : TAcc) (h0 : Kept cf ff s0 x.a.s) :
    Kept cf ff s0 (rdVec bf16 off n x).2.a.s := by
  unfold rdVec
  repeat' first
    | with_reducible assumption
    | with_reducible apply tRead_kept

theorem wrVec_kept {cf ff : Bool} {s0 : State} (bf16 : Bool) (b : Bounds) (off : Nat) (vs : List Nat) (x : TAcc) (h0 : Kept cf ff s0 x.a.s) :
    Kept cf ff s0 (wrVec bf16 b off vs x).a.s := by
  unfold wrVec
  repeat' first
    | with_reducible assumption
    | with_reducible apply noteFail_kept
    | with_reducible apply tWrite_kept

theorem doneChannel_kept {cf ff : Bool} {s0 : State} (t : Nat) (s : State) (h0 : Kept cf ff s0 s) :
    Kept cf ff s0 (doneChannel t s) := by
  unfold doneChannel
  repeat' first
    | with_reducible assumption
    | with_reducible apply modTile_kept

theorem doneLateral_kept {cf ff : Bool} {s0 : State} (t : Nat) (s : State) (h0 : Kept cf ff s0 s) :
    Kept cf ff s0 (doneLateral t s) := by
  unfold doneLateral
  repeat' first
    | with_reducible assumption
    | with_reducible apply modTile_kept

theorem actRow_kept {cf ff : Bool} {s0 : State} (p : PassOp) (i : Nat) (x : TAcc) (h0 : Kept cf ff s0 x.a.s) :
    Kept cf ff s0 (actRow p i x).2.a.s := by
  unfold actRow
  repeat' first
    | with_reducible assumption
    | with_reducible apply tRead_kept

theorem actRows_kept {cf ff : Bool} {s0 : State} (p : PassOp) (x0 : List Nat) (x1 : TAcc) (h0 : Kept cf ff s0 x1.a.s) :
    Kept cf ff s0 (actRows p x0 x1).2.a.s := by
  fun_induction actRows p x0 x1
  all_goals try subst_vars
  all_goals
    repeat' first
      | with_reducible assumption
      | with_reducible apply actRow_kept
      | split
      | dsimp only
      | with_reducible refine Kept.snd (by assumption) ?_
      | with_reducible refine Kept.sndA (by assumption) ?_
      | with_reducible refine Kept.sndB (by assumption) ?_
      | with_reducible refine Kept.sndT (by assumption) ?_
      | with_reducible apply_assumption

theorem outlierVals_kept {cf ff : Bool} {s0 : State} (g : RowGroup) (j : Nat) (x : TAcc) (h0 : Kept cf ff s0 x.a.s) :
    Kept cf ff s0 (outlierVals g j x).2.a.s := by
  unfold outlierVals
  repeat' first
    | with_reducible assumption
    | with_reducible apply tRead_kept

theorem setBank_kept {cf ff : Bool} {s0 : State} (t : Nat) (b : Bool) (k : Bank) (s : State) (h0 : Kept cf ff s0 s) :
    Kept cf ff s0 (setBank t b k s) := by
  unfold setBank
  repeat' first
    | with_reducible assumption
    | with_reducible apply modTile_kept

theorem passRows_kept {cf ff : Bool} {s0 : State} (p : PassOp) (fp32 : Bool) (w : List (List Nat)) (x0 : List (List Nat × Nat × RowGroup × Option LatBlock × Nat)) (x1 : Tab W32 × TAcc) (h0 : Kept cf ff s0 x1.2.a.s) :
    Kept cf ff s0 (passRows p fp32 w x0 x1).2.a.s := by
  fun_induction passRows p fp32 w x0 x1
  all_goals try subst_vars
  all_goals
    repeat' first
      | with_reducible assumption
      | with_reducible apply outlierVals_kept
      | split
      | dsimp only
      | with_reducible refine Kept.snd (by assumption) ?_
      | with_reducible refine Kept.sndA (by assumption) ?_
      | with_reducible refine Kept.sndB (by assumption) ?_
      | with_reducible refine Kept.sndT (by assumption) ?_
      | with_reducible apply_assumption

theorem markMain_kept {cf ff : Bool} {s0 : State} (i : Nat) (t : Nat) (s : State) (h0 : Kept cf ff s0 s) :
    Kept cf ff s0 (markMain i t s) := by
  unfold markMain
  repeat' first
    | with_reducible assumption
    | with_reducible apply modTile_kept
    | split
    | intro _
    | dsimp only
    | (with_reducible refine Kept.mk' ?_ rfl
       first
       | with_reducible assumption
       | with_reducible apply modTile_kept
       | split)

theorem execMainPass_kept {cf ff : Bool} {s0 : State} (t : Nat) (s : State) (h0 : Kept cf ff s0 s) :
    ResKept cf ff s0 (execMainPass t s) := by
  unfold execMainPass
  repeat' first
    | with_reducible assumption
    | with_reducible apply TAcc.start_kept
    | with_reducible apply onUnit_kept
    | with_reducible apply tRead_kept
    | with_reducible apply actRows_kept
    | with_reducible apply passRows_kept
    | with_reducible apply finishT_kept
    | with_reducible apply markMain_kept
    | with_reducible apply setBank_kept
    | with_reducible apply modTile_kept
    | exact ResKept.same (by assumption)
    | split
    | intro _
    | dsimp only
    | with_reducible refine Kept.snd (by assumption) ?_
    | with_reducible refine Kept.sndA (by assumption) ?_
    | with_reducible refine Kept.sndB (by assumption) ?_
    | with_reducible refine Kept.sndT (by assumption) ?_
    | (with_reducible refine Kept.mk' ?_ rfl
       first
       | with_reducible assumption
       | with_reducible apply TAcc.start_kept
       | with_reducible apply onUnit_kept
       | with_reducible apply tRead_kept
       | with_reducible apply actRows_kept
       | with_reducible apply passRows_kept
       | with_reducible apply finishT_kept
       | with_reducible apply markMain_kept
       | with_reducible apply setBank_kept
       | with_reducible apply modTile_kept
       | split
       | with_reducible refine Kept.snd (by assumption) ?_
       | with_reducible refine Kept.sndA (by assumption) ?_
       | with_reducible refine Kept.sndB (by assumption) ?_
       | with_reducible refine Kept.sndT (by assumption) ?_)

theorem execLateralLoad_kept {cf ff : Bool} {s0 : State} (t : Nat) (s : State) (h0 : Kept cf ff s0 s) :
    ResKept cf ff s0 (execLateralLoad t s) := by
  unfold execLateralLoad
  repeat' first
    | with_reducible assumption
    | with_reducible apply TAcc.start_kept
    | with_reducible apply onUnit_kept
    | with_reducible apply tRead_kept
    | with_reducible apply finishT_kept
    | with_reducible apply doneLateral_kept
    | with_reducible apply modTile_kept
    | split
    | intro _

theorem slotRows_kept {cf ff : Bool} {s0 : State} (p : PassOp) (slot : Nat) (x0 : List (List Nat × Nat × RowGroup × Option LatBlock × Nat)) (x1 : Tab W32 × TAcc) (h0 : Kept cf ff s0 x1.2.a.s) :
    Kept cf ff s0 (slotRows p slot x0 x1).2.a.s := by
  fun_induction slotRows p slot x0 x1
  all_goals try subst_vars
  all_goals
    repeat' first
      | with_reducible assumption
      | with_reducible apply outlierVals_kept
      | split
      | with_reducible refine Kept.foldl _ _ _ ?_ ?_
      | intro _
      | dsimp only
      | with_reducible refine Kept.snd (by assumption) ?_
      | with_reducible refine Kept.foldlA _ _ _ ?_ ?_
      | with_reducible refine Kept.foldlS _ _ _ ?_ ?_
      | with_reducible refine Kept.sndA (by assumption) ?_
      | with_reducible refine Kept.sndB (by assumption) ?_
      | with_reducible refine Kept.sndT (by assumption) ?_
      | with_reducible apply_assumption

theorem execExtraLateralSlot_kept {cf ff : Bool} {s0 : State} (t : Nat) (s : State) (h0 : Kept cf ff s0 s) :
    ResKept cf ff s0 (execExtraLateralSlot t s) := by
  unfold execExtraLateralSlot
  repeat' first
    | with_reducible assumption
    | with_reducible apply TAcc.start_kept
    | with_reducible apply onUnit_kept
    | with_reducible apply actRows_kept
    | with_reducible apply slotRows_kept
    | with_reducible apply finishT_kept
    | with_reducible apply doneLateral_kept
    | with_reducible apply setBank_kept
    | with_reducible apply modTile_kept
    | split
    | intro _

theorem execChecksumVerdict_kept {cf ff : Bool} {s0 : State} (t : Nat) (row : Nat) (errors : List (Nat × Int)) (s : State) (h0 : Kept cf ff s0 s) :
    ResKept cf ff s0 (execChecksumVerdict t row errors s) := by
  unfold execChecksumVerdict
  repeat' first
    | with_reducible assumption
    | with_reducible apply TAcc.start_kept
    | with_reducible apply onUnit_kept
    | with_reducible apply actRow_kept
    | with_reducible apply outlierVals_kept
    | with_reducible apply finishT_kept
    | with_reducible apply noteFail_kept
    | with_reducible apply setBank_kept
    | with_reducible apply modTile_kept
    | exact ResKept.same (by assumption)
    | split
    | intro _
    | dsimp only
    | with_reducible refine Kept.snd (by assumption) ?_
    | with_reducible refine Kept.sndA (by assumption) ?_
    | with_reducible refine Kept.sndB (by assumption) ?_
    | with_reducible refine Kept.sndT (by assumption) ?_
    | (with_reducible refine Kept.mk' ?_ rfl
       first
       | with_reducible assumption
       | with_reducible apply TAcc.start_kept
       | with_reducible apply onUnit_kept
       | with_reducible apply actRow_kept
       | with_reducible apply outlierVals_kept
       | with_reducible apply finishT_kept
       | with_reducible apply noteFail_kept
       | with_reducible apply setBank_kept
       | with_reducible apply modTile_kept
       | split
       | with_reducible refine Kept.snd (by assumption) ?_
       | with_reducible refine Kept.sndA (by assumption) ?_
       | with_reducible refine Kept.sndB (by assumption) ?_
       | with_reducible refine Kept.sndT (by assumption) ?_)

theorem pendCounts_kept {cf ff : Bool} {s0 : State} (t : Nat) (l : List Nat) (s : State) (h0 : Kept cf ff s0 s) :
    Kept cf ff s0 (pendCounts t l s) := by
  unfold pendCounts
  repeat' first
    | with_reducible assumption
    | with_reducible apply modTile_kept

theorem drainEls_kept {cf ff : Bool} {s0 : State} (d : DrainOp) (b : Bank) (rs : Option (List Nat)) (cs : Option (List Nat)) (bs : Option (List Nat)) (x0 : List Nat) (x1 : State) (h0 : Kept cf ff s0 x1) :
    Kept cf ff s0 (drainEls d b rs cs bs x0 x1).2 := by
  induction x0 generalizing x1
  all_goals
    unfold drainEls
    repeat' first
      | with_reducible assumption
      | with_reducible apply freshVal_kept
      | split
      | intro _
      | dsimp only
      | with_reducible refine Kept.snd (by assumption) ?_
      | with_reducible refine Kept.sndA (by assumption) ?_
      | with_reducible refine Kept.sndB (by assumption) ?_
      | with_reducible refine Kept.sndT (by assumption) ?_
      | (with_reducible refine Kept.mk' ?_ rfl
         first
         | with_reducible assumption
         | with_reducible apply freshVal_kept
         | split
         | with_reducible refine Kept.snd (by assumption) ?_
         | with_reducible refine Kept.sndA (by assumption) ?_
         | with_reducible refine Kept.sndB (by assumption) ?_
         | with_reducible refine Kept.sndT (by assumption) ?_)
      | with_reducible apply_assumption

theorem optVec_kept {cf ff : Bool} {s0 : State} (addr : Option Nat) (n : Nat) (x : TAcc) (h0 : Kept cf ff s0 x.a.s) :
    Kept cf ff s0 (optVec addr n x).2.a.s := by
  unfold optVec
  repeat' first
    | with_reducible assumption
    | with_reducible apply rdVec_kept
    | split

theorem drainWrite_kept {cf ff : Bool} {s0 : State} (t : Nat) (d : DrainOp) (els : List (Conv × Fl)) (x : TAcc) (h0 : Kept cf ff s0 x.a.s) :
    Kept cf ff s0 (drainWrite t d els x).a.s := by
  unfold drainWrite
  repeat' first
    | with_reducible assumption
    | with_reducible apply wrTensor_kept
    | split
    | intro _
    | dsimp only
    | (with_reducible refine Kept.mk' ?_ rfl
       first
       | with_reducible assumption
       | with_reducible apply wrTensor_kept
       | split)

theorem drainGo_kept {cf ff : Bool} {s0 : State} (t : Nat) (d : DrainOp) (b : Bank) (residueError : Bool) (x : TAcc) (h0 : Kept cf ff s0 x.a.s) :
    Kept cf ff s0 (drainGo t d b residueError x).1.a.s := by
  unfold drainGo
  repeat' first
    | with_reducible assumption
    | with_reducible apply optVec_kept
    | with_reducible apply drainEls_kept
    | with_reducible apply drainWrite_kept
    | with_reducible apply tWrite_kept
    | with_reducible apply noteFail_kept
    | split
    | intro _
    | dsimp only
    | with_reducible refine Kept.snd (by assumption) ?_
    | with_reducible refine Kept.sndA (by assumption) ?_
    | with_reducible refine Kept.sndB (by assumption) ?_
    | with_reducible refine Kept.sndT (by assumption) ?_
    | (with_reducible refine Kept.mk' ?_ rfl
       first
       | with_reducible assumption
       | with_reducible apply optVec_kept
       | with_reducible apply drainEls_kept
       | with_reducible apply drainWrite_kept
       | with_reducible apply tWrite_kept
       | with_reducible apply noteFail_kept
       | split
       | with_reducible refine Kept.snd (by assumption) ?_
       | with_reducible refine Kept.sndA (by assumption) ?_
       | with_reducible refine Kept.sndB (by assumption) ?_
       | with_reducible refine Kept.sndT (by assumption) ?_)

theorem execAccDrain_kept {cf ff : Bool} {s0 : State} (t : Nat) (residueError : Bool) (s : State) (h0 : Kept cf ff s0 s) :
    ResKept cf ff s0 (execAccDrain t residueError s) := by
  unfold execAccDrain
  repeat' first
    | with_reducible assumption
    | with_reducible apply TAcc.start_kept
    | with_reducible apply onUnit_kept
    | with_reducible apply drainGo_kept
    | with_reducible apply finishT_kept
    | with_reducible apply markMain_kept
    | with_reducible apply pendCounts_kept
    | with_reducible apply setBank_kept
    | with_reducible apply transposeInPlace_kept
    | exact ResKept.same (by assumption)
    | split
    | intro _
    | dsimp only
    | with_reducible refine Kept.snd (by assumption) ?_
    | with_reducible refine Kept.sndA (by assumption) ?_
    | with_reducible refine Kept.sndB (by assumption) ?_
    | with_reducible refine Kept.sndT (by assumption) ?_
    | (with_reducible refine Kept.mk' ?_ rfl
       first
       | with_reducible assumption
       | with_reducible apply TAcc.start_kept
       | with_reducible apply onUnit_kept
       | with_reducible apply drainGo_kept
       | with_reducible apply finishT_kept
       | with_reducible apply markMain_kept
       | with_reducible apply pendCounts_kept
       | with_reducible apply setBank_kept
       | with_reducible apply transposeInPlace_kept
       | split
       | with_reducible refine Kept.snd (by assumption) ?_
       | with_reducible refine Kept.sndA (by assumption) ?_
       | with_reducible refine Kept.sndB (by assumption) ?_
       | with_reducible refine Kept.sndT (by assumption) ?_)

theorem execChannelOp_kept {cf ff : Bool} {s0 : State} (t : Nat) (s : State) (h0 : Kept cf ff s0 s) :
    ResKept cf ff s0 (execChannelOp t s) := by
  unfold execChannelOp
  repeat' first
    | with_reducible assumption
    | with_reducible apply TAcc.start_kept
    | with_reducible apply onUnit_kept
    | with_reducible apply rdVec_kept
    | with_reducible apply finishT_kept
    | with_reducible apply wrVec_kept
    | with_reducible apply noteFail_kept
    | with_reducible apply doneChannel_kept
    | split

theorem execChannelReduction_kept {cf ff : Bool} {s0 : State} (t : Nat) (s : State) (h0 : Kept cf ff s0 s) :
    ResKept cf ff s0 (execChannelReduction t s) := by
  unfold execChannelReduction
  repeat' first
    | with_reducible assumption
    | with_reducible apply TAcc.start_kept
    | with_reducible apply onUnit_kept
    | with_reducible apply rdVec_kept
    | with_reducible apply finishT_kept
    | with_reducible apply doneChannel_kept
    | with_reducible apply modTile_kept
    | split
    | intro _

theorem execSoftmax_kept {cf ff : Bool} {s0 : State} (t : Nat) (s : State) (h0 : Kept cf ff s0 s) :
    ResKept cf ff s0 (execSoftmax t s) := by
  unfold execSoftmax
  repeat' first
    | with_reducible assumption
    | with_reducible apply TAcc.start_kept
    | with_reducible apply onUnit_kept
    | with_reducible apply rdVec_kept
    | with_reducible apply finishT_kept
    | with_reducible apply wrVec_kept
    | with_reducible apply noteFail_kept
    | with_reducible apply doneChannel_kept
    | split

theorem execNormalisation_kept {cf ff : Bool} {s0 : State} (t : Nat) (s : State) (h0 : Kept cf ff s0 s) :
    ResKept cf ff s0 (execNormalisation t s) := by
  unfold execNormalisation
  repeat' first
    | with_reducible assumption
    | with_reducible apply TAcc.start_kept
    | with_reducible apply onUnit_kept
    | with_reducible apply rdVec_kept
    | with_reducible apply finishT_kept
    | with_reducible apply wrVec_kept
    | with_reducible apply doneChannel_kept
    | exact ResKept.same (by assumption)
    | split
    | dsimp only
    | with_reducible refine Kept.snd (by assumption) ?_
    | with_reducible refine Kept.sndA (by assumption) ?_
    | with_reducible refine Kept.sndB (by assumption) ?_
    | with_reducible refine Kept.sndT (by assumption) ?_

theorem observeBytes_kept {cf ff : Bool} {s0 : State} (o : Observe) (k : Nat) (z : Stats) (x : TAcc) (h0 : Kept cf ff s0 x.a.s) :
    Kept cf ff s0 (observeBytes o k z x).2.a.s := by
  unfold observeBytes
  repeat' first
    | with_reducible assumption
    | with_reducible apply tRead_kept
    | split

theorem quantRows_kept {cf ff : Bool} {s0 : State} (q : QuantOp) (x0 : List Nat) (x1 : TAcc) (h0 : Kept cf ff s0 x1.a.s) :
    Kept cf ff s0 (quantRows q x0 x1).2.a.s := by
  fun_induction quantRows q x0 x1
  all_goals try subst_vars
  all_goals
    repeat' first
      | with_reducible assumption
      | with_reducible apply rdVec_kept
      | split
      | dsimp only
      | with_reducible refine Kept.snd (by assumption) ?_
      | with_reducible refine Kept.sndA (by assumption) ?_
      | with_reducible refine Kept.sndB (by assumption) ?_
      | with_reducible refine Kept.sndT (by assumption) ?_
      | with_reducible apply_assumption

theorem freeBytes_kept {cf ff : Bool} {s0 : State} (x0 : Nat) (x1 : State) (h0 : Kept cf ff s0 x1) :
    Kept cf ff s0 (freeBytes x0 x1).2 := by
  fun_induction freeBytes x0 x1
  all_goals try subst_vars
  all_goals
    repeat' first
      | with_reducible assumption
      | with_reducible apply freshByte_kept
      | split
      | dsimp only
      | with_reducible refine Kept.snd (by assumption) ?_
      | with_reducible refine Kept.sndA (by assumption) ?_
      | with_reducible refine Kept.sndB (by assumption) ?_
      | with_reducible refine Kept.sndT (by assumption) ?_
      | with_reducible apply_assumption

theorem quantGo_kept {cf ff : Bool} {s0 : State} (q : QuantOp) (x : TAcc) (h0 : Kept cf ff s0 x.a.s) :
    Kept cf ff s0 (quantGo q x).2.a.s := by
  unfold quantGo
  repeat' first
    | with_reducible assumption
    | with_reducible apply quantRows_kept
    | with_reducible apply freeBytes_kept
    | with_reducible apply tWrite_kept
    | with_reducible apply noteFail_kept
    | with_reducible apply observeBytes_kept
    | split
    | with_reducible refine Kept.foldl _ _ _ ?_ ?_
    | intro _
    | dsimp only
    | with_reducible refine Kept.snd (by assumption) ?_
    | with_reducible refine Kept.foldlA _ _ _ ?_ ?_
    | with_reducible refine Kept.foldlS _ _ _ ?_ ?_
    | with_reducible refine Kept.sndA (by assumption) ?_
    | with_reducible refine Kept.sndB (by assumption) ?_
    | with_reducible refine Kept.sndT (by assumption) ?_
    | (with_reducible refine Kept.mk' ?_ rfl
       first
       | with_reducible assumption
       | with_reducible apply quantRows_kept
       | with_reducible apply freeBytes_kept
       | with_reducible apply tWrite_kept
       | with_reducible apply noteFail_kept
       | with_reducible apply observeBytes_kept
       | split
       | with_reducible refine Kept.foldl _ _ _ ?_ ?_
       | with_reducible refine Kept.snd (by assumption) ?_
       | with_reducible refine Kept.foldlA _ _ _ ?_ ?_
       | with_reducible refine Kept.foldlS _ _ _ ?_ ?_
       | with_reducible refine Kept.sndA (by assumption) ?_
       | with_reducible refine Kept.sndB (by assumption) ?_
       | with_reducible refine Kept.sndT (by assumption) ?_)

theorem quantCols_kept {cf ff : Bool} {s0 : State} (q : WQuantOp) (rows : List (List Nat)) (l : List Nat) (s : State) (h0 : Kept cf ff s0 s) :
    Kept cf ff s0 (quantCols q rows l s).2 := by
  induction l generalizing s with
  | nil => exact h0
  | cons n t ih =>
    unfold quantCols
    dsimp only
    refine ih _ ?_
    split
    · exact h0
    · exact freeBytes_kept _ _ (freshVal_kept _ _ h0)

theorem wquantGo_kept {cf ff : Bool} {s0 : State} (q : WQuantOp) (x : TAcc) (h0 : Kept cf ff s0 x.a.s) :
    Kept cf ff s0 (wquantGo q x).2.a.s := by
  unfold wquantGo
  repeat' first
    | with_reducible assumption
    | with_reducible apply rdVec_kept
    | with_reducible apply quantCols_kept
    | with_reducible apply tWrite_kept
    | with_reducible apply noteFail_kept
    | with_reducible refine Kept.foldl _ _ _ ?_ ?_
    | intro _
    | dsimp only
    | with_reducible refine Kept.foldlA _ _ _ ?_ ?_
    | with_reducible refine Kept.foldlS _ _ _ ?_ ?_
    | (with_reducible refine Kept.mk' ?_ rfl
       first
       | with_reducible assumption
       | with_reducible apply rdVec_kept
       | with_reducible apply quantCols_kept
       | with_reducible apply tWrite_kept
       | with_reducible apply noteFail_kept
       | with_reducible refine Kept.foldl _ _ _ ?_ ?_
       | with_reducible refine Kept.foldlA _ _ _ ?_ ?_
       | with_reducible refine Kept.foldlS _ _ _ ?_ ?_)

theorem execQuantise_kept {cf ff : Bool} {s0 : State} (t : Nat) (s : State) (h0 : Kept cf ff s0 s) :
    ResKept cf ff s0 (execQuantise t s) := by
  unfold execQuantise
  repeat' first
    | with_reducible assumption
    | with_reducible apply TAcc.start_kept
    | with_reducible apply onUnit_kept
    | with_reducible apply quantGo_kept
    | with_reducible apply finishT_kept
    | with_reducible apply doneChannel_kept
    | with_reducible apply pendCounts_kept
    | with_reducible apply modTile_kept
    | with_reducible apply wquantGo_kept
    | exact ResKept.same (by assumption)
    | split
    | intro _
    | dsimp only
    | with_reducible refine Kept.snd (by assumption) ?_
    | with_reducible refine Kept.sndA (by assumption) ?_
    | with_reducible refine Kept.sndB (by assumption) ?_
    | with_reducible refine Kept.sndT (by assumption) ?_
    | (with_reducible refine Kept.mk' ?_ rfl
       first
       | with_reducible assumption
       | with_reducible apply TAcc.start_kept
       | with_reducible apply onUnit_kept
       | with_reducible apply quantGo_kept
       | with_reducible apply finishT_kept
       | with_reducible apply doneChannel_kept
       | with_reducible apply pendCounts_kept
       | with_reducible apply modTile_kept
       | with_reducible apply wquantGo_kept
       | split
       | with_reducible refine Kept.snd (by assumption) ?_
       | with_reducible refine Kept.sndA (by assumption) ?_
       | with_reducible refine Kept.sndB (by assumption) ?_
       | with_reducible refine Kept.sndT (by assumption) ?_)

theorem wrPvGo_kept {cf ff : Bool} {s0 : State} (space : Nat) (x0 : Nat) (x1 : Nat) (x2 : List (Byte × Bool)) (x3 : TAcc) (h0 : Kept cf ff s0 x3.a.s) :
    Kept cf ff s0 (wrPvGo space x0 x1 x2 x3).a.s := by
  fun_induction wrPvGo space x0 x1 x2 x3
  all_goals try subst_vars
  all_goals
    repeat' first
      | with_reducible assumption
      | with_reducible apply tWrite_kept
      | split
      | dsimp only
      | with_reducible refine Kept.snd (by assumption) ?_
      | with_reducible refine Kept.sndA (by assumption) ?_
      | with_reducible refine Kept.sndB (by assumption) ?_
      | with_reducible refine Kept.sndT (by assumption) ?_
      | with_reducible apply_assumption

theorem wrPv_kept {cf ff : Bool} {s0 : State} (space : Nat) (off : Nat) (l : List (Byte × Bool)) (x : TAcc) (h0 : Kept cf ff s0 x.a.s) :
    Kept cf ff s0 (wrPv space off l x).a.s := by
  unfold wrPv
  repeat' first
    | with_reducible assumption
    | with_reducible apply wrPvGo_kept
    | split
    | dsimp only
    | (with_reducible refine Kept.mk' ?_ rfl
       first
       | with_reducible assumption
       | with_reducible apply wrPvGo_kept
       | split)

theorem rdLines_kept {cf ff : Bool} {s0 : State} (d : Desc) (x0 : List Line) (x1 : Acc) (h0 : Kept cf ff s0 x1.s) :
    Kept cf ff s0 (rdLines d x0 x1).2.s := by
  fun_induction rdLines d x0 x1
  all_goals try subst_vars
  all_goals
    repeat' first
      | with_reducible assumption
      | with_reducible apply rdBytes_kept
      | split
      | intro _
      | dsimp only
      | with_reducible refine Kept.snd (by assumption) ?_
      | with_reducible refine Kept.sndA (by assumption) ?_
      | with_reducible refine Kept.sndB (by assumption) ?_
      | with_reducible refine Kept.sndT (by assumption) ?_
      | with_reducible apply_assumption

theorem loadBytes_kept {cf ff : Bool} {s0 : State} (d : Desc) (a : Acc) (h0 : Kept cf ff s0 a.s) :
    Kept cf ff s0 (loadBytes d a).2.s := by
  unfold loadBytes
  repeat' first
    | with_reducible assumption
    | with_reducible apply rdLines_kept
    | with_reducible apply rdEls_kept
    | split
    | dsimp only

theorem rdPv_kept {cf ff : Bool} {s0 : State} (space : Nat) (fmt : Nat) (off : Nat) (n : Nat) (x : TAcc) (h0 : Kept cf ff s0 x.a.s) :
    Kept cf ff s0 (rdPv space fmt off n x).2.a.s := by
  unfold rdPv
  repeat' first
    | with_reducible assumption
    | with_reducible apply rdEls_kept
    | split

theorem doneLoad_kept {cf ff : Bool} {s0 : State} (t : Nat) (s : State) (h0 : Kept cf ff s0 s) :
    Kept cf ff s0 (doneLoad t s) := by
  unfold doneLoad
  repeat' first
    | with_reducible assumption
    | with_reducible apply modTile_kept

theorem execLoadTransfer_kept {cf ff : Bool} {s0 : State} (t : Nat) (parityAt : Option Nat) (s : State) (h0 : Kept cf ff s0 s) :
    ResKept cf ff s0 (execLoadTransfer t parityAt s) := by
  unfold execLoadTransfer
  repeat' first
    | with_reducible assumption
    | with_reducible apply TAcc.start_kept
    | with_reducible apply onUnit_kept
    | with_reducible apply schedule_kept
    | with_reducible apply endRun_kept
    | with_reducible apply viaGap_kept
    | with_reducible apply failStep_kept
    | with_reducible apply poisonBlock_kept
    | with_reducible apply loadBytes_kept
    | with_reducible apply finishT_kept
    | with_reducible apply wrPv_kept
    | with_reducible apply doneLoad_kept
    | exact ResKept.same (by assumption)
    | split
    | intro _
    | dsimp only
    | with_reducible refine Kept.snd (by assumption) ?_
    | with_reducible refine Kept.sndA (by assumption) ?_
    | with_reducible refine Kept.sndB (by assumption) ?_
    | with_reducible refine Kept.sndT (by assumption) ?_
    | (with_reducible refine Kept.mk' ?_ rfl
       first
       | with_reducible assumption
       | with_reducible apply TAcc.start_kept
       | with_reducible apply onUnit_kept
       | with_reducible apply schedule_kept
       | with_reducible apply endRun_kept
       | with_reducible apply viaGap_kept
       | with_reducible apply failStep_kept
       | with_reducible apply poisonBlock_kept
       | with_reducible apply loadBytes_kept
       | with_reducible apply finishT_kept
       | with_reducible apply wrPv_kept
       | with_reducible apply doneLoad_kept
       | split
       | with_reducible refine Kept.snd (by assumption) ?_
       | with_reducible refine Kept.sndA (by assumption) ?_
       | with_reducible refine Kept.sndB (by assumption) ?_
       | with_reducible refine Kept.sndT (by assumption) ?_)

theorem execCodeOverlayTransfer_kept {cf ff : Bool} {s0 : State} (t : Nat) (s : State) (h0 : Kept cf ff s0 s) :
    ResKept cf ff s0 (execCodeOverlayTransfer t s) := by
  unfold execCodeOverlayTransfer
  repeat' first
    | with_reducible assumption
    | with_reducible apply onUnit_kept
    | with_reducible apply modTile_kept
    | exact ResKept.same (by assumption)
    | split
    | intro _
    | dsimp only
    | with_reducible refine Kept.snd (by assumption) ?_
    | with_reducible refine Kept.sndA (by assumption) ?_
    | with_reducible refine Kept.sndB (by assumption) ?_
    | with_reducible refine Kept.sndT (by assumption) ?_
    | (with_reducible refine Kept.mk' ?_ rfl
       first
       | with_reducible assumption
       | with_reducible apply onUnit_kept
       | with_reducible apply modTile_kept
       | split
       | with_reducible refine Kept.snd (by assumption) ?_
       | with_reducible refine Kept.sndA (by assumption) ?_
       | with_reducible refine Kept.sndB (by assumption) ?_
       | with_reducible refine Kept.sndT (by assumption) ?_)

theorem queueOut_kept {cf ff : Bool} {s0 : State} (t : Nat) (e : Effect) (s : State) (h0 : Kept cf ff s0 s) :
    Kept cf ff s0 (queueOut t e s) := by
  unfold queueOut
  repeat' first
    | with_reducible assumption
    | with_reducible apply schedule_kept
    | with_reducible apply failStep_kept
    | with_reducible apply modTile_kept
    | split

theorem wrList_kept {cf ff : Bool} {s0 : State} (d : Desc) (l : List PV) (all : Bool) (a : Acc) (h0 : Kept cf ff s0 a.s) :
    Kept cf ff s0 (wrList d l all a).s := by
  unfold wrList
  repeat' first
    | with_reducible assumption
    | with_reducible apply wrTensor_kept
    | intro _

theorem execStoreTransfer_kept {cf ff : Bool} {s0 : State} (t : Nat) (s : State) (h0 : Kept cf ff s0 s) :
    ResKept cf ff s0 (execStoreTransfer t s) := by
  unfold execStoreTransfer
  repeat' first
    | with_reducible assumption
    | with_reducible apply TAcc.start_kept
    | with_reducible apply onUnit_kept
    | with_reducible apply rdPv_kept
    | with_reducible apply finishT_kept
    | with_reducible apply wrList_kept
    | with_reducible apply modTile_kept
    | with_reducible apply schedule_kept
    | with_reducible apply endRun_kept
    | with_reducible apply queueOut_kept
    | with_reducible apply failStep_kept
    | exact ResKept.same (by assumption)
    | split
    | intro _
    | dsimp only
    | with_reducible refine Kept.snd (by assumption) ?_
    | with_reducible refine Kept.sndA (by assumption) ?_
    | with_reducible refine Kept.sndB (by assumption) ?_
    | with_reducible refine Kept.sndT (by assumption) ?_
    | (with_reducible refine Kept.mk' ?_ rfl
       first
       | with_reducible assumption
       | with_reducible apply TAcc.start_kept
       | with_reducible apply onUnit_kept
       | with_reducible apply rdPv_kept
       | with_reducible apply finishT_kept
       | with_reducible apply wrList_kept
       | with_reducible apply modTile_kept
       | with_reducible apply schedule_kept
       | with_reducible apply endRun_kept
       | with_reducible apply queueOut_kept
       | with_reducible apply failStep_kept
       | split
       | with_reducible refine Kept.snd (by assumption) ?_
       | with_reducible refine Kept.sndA (by assumption) ?_
       | with_reducible refine Kept.sndB (by assumption) ?_
       | with_reducible refine Kept.sndT (by assumption) ?_)

end Sys2Proof.Machine
end

