-- ==== Sys2Proof/Laws/KeptTileProg.lean ====
section
/-! SUPPORT. `Kept` for the operations of Machine/TileProg.lean. -/

namespace Sys2Proof.Machine

theorem readV_kept {cf ff : Bool} {s0 : State} (t : Nat) (v : Nat) (s : State) (h0 : Kept cf ff s0 s) :
    Kept cf ff s0 (readV t v s).2 := by
  unfold readV
  repeat' first
    | with_reducible assumption
    | with_reducible apply freshVal_kept
    | split

theorem setCtx_kept {cf ff : Bool} {s0 : State} (t : Nat) (c : Ctx) (s : State) (h0 : Kept cf ff s0 s) :
    Kept cf ff s0 (setCtx t c s) := by
  unfold setCtx
  repeat' first
    | with_reducible assumption
    | with_reducible apply modTile_kept

theorem runScalar_kept {cf ff : Bool} {s0 : State} (t : Nat) (c : Ctx) (o : ScalarOp) (s : State) (h0 : Kept cf ff s0 s) :
    Kept cf ff s0 (runScalar t c o s).a.s := by
  unfold runScalar
  repeat' first
    | with_reducible assumption
    | with_reducible apply TAcc.start_kept
    | with_reducible apply tRead_kept
    | with_reducible apply setCtx_kept
    | with_reducible apply tWrite_kept
    | with_reducible apply readV_kept
    | split

theorem execEventWait_kept {cf ff : Bool} {s0 : State} (t : Nat) (ev : Nat) (n : Nat) (s : State) (h0 : Kept cf ff s0 s) :
    ResKept cf ff s0 (execEventWait t ev n s) := by
  unfold execEventWait
  repeat' first
    | with_reducible assumption
    | with_reducible apply onUnit_kept
    | with_reducible apply modTile_kept
    | exact ResKept.same (by assumption)
    | split
    | intro _
    | dsimp only
    | (with_reducible refine Kept.mk' ?_ rfl
       first
       | with_reducible assumption
       | with_reducible apply onUnit_kept
       | with_reducible apply modTile_kept
       | split)

theorem issueWord_kept {cf ff : Bool} {s0 : State} (t : Nat) (c : Ctx) (w : LongWord) (parityAt : Option Nat) (s : State) (h0 : Kept cf ff s0 s) :
    Kept cf ff s0 (issueWord t c w parityAt s) := by
  unfold issueWord
  repeat' first
    | with_reducible assumption
    | with_reducible apply Acc.start_kept
    | with_reducible apply TAcc.start_kept
    | with_reducible apply modTile_kept
    | with_reducible apply schedule_kept
    | with_reducible apply failStep_kept
    | with_reducible apply poisonBlock_kept
    | with_reducible apply runScalar_kept
    | with_reducible apply setCtx_kept
    | with_reducible apply finishT_kept
    | split
    | intro _
    | dsimp only
    | with_reducible refine Kept.snd (by assumption) ?_
    | with_reducible refine Kept.sndA (by assumption) ?_
    | with_reducible refine Kept.sndB (by assumption) ?_
    | with_reducible refine Kept.sndT (by assumption) ?_
    | (with_reducible refine Kept.mk' ?_ rfl
       first
       | with_reducible assumption
       | with_reducible apply Acc.start_kept
       | with_reducible apply TAcc.start_kept
       | with_reducible apply modTile_kept
       | with_reducible apply schedule_kept
       | with_reducible apply failStep_kept
       | with_reducible apply poisonBlock_kept
       | with_reducible apply runScalar_kept
       | with_reducible apply setCtx_kept
       | with_reducible apply finishT_kept
       | split
       | with_reducible refine Kept.snd (by assumption) ?_
       | with_reducible refine Kept.sndA (by assumption) ?_
       | with_reducible refine Kept.sndB (by assumption) ?_
       | with_reducible refine Kept.sndT (by assumption) ?_)

theorem beginBody_kept {cf ff : Bool} {s0 : State} (t : Nat) (c : Ctx) (s : State) (h0 : Kept cf ff s0 s) :
    Kept cf ff s0 (beginBody t c s) := by
  unfold beginBody
  repeat' first
    | with_reducible assumption
    | with_reducible apply modTile_kept
    | intro _
    | dsimp only
    | (with_reducible refine Kept.mk' ?_ rfl
       first
       | with_reducible assumption
       | with_reducible apply modTile_kept)

theorem nextShared_kept {cf ff : Bool} {s0 : State} (t : Nat) (c : Ctx) (s : State) (h0 : Kept cf ff s0 s) :
    Kept cf ff s0 (nextShared t c s) := by
  unfold nextShared
  repeat' first
    | with_reducible assumption
    | with_reducible apply loadCtx_kept
    | with_reducible apply countShared_kept
    | with_reducible apply saveFrame_kept
    | with_reducible apply withdraw_kept
    | split
    | intro _
    | dsimp only
    | with_reducible refine Kept.snd (by assumption) ?_
    | with_reducible refine Kept.sndA (by assumption) ?_
    | with_reducible refine Kept.sndB (by assumption) ?_
    | with_reducible refine Kept.sndT (by assumption) ?_

theorem headWait_kept {cf ff : Bool} {s0 : State} (t : Nat) (take : Bool) (slot : Nat) (amount : Nat) (s : State) (h0 : Kept cf ff s0 s) :
    Kept cf ff s0 (headWait t take slot amount s) := by
  unfold headWait
  repeat' first
    | with_reducible assumption
    | with_reducible apply nextShared_kept
    | with_reducible apply schedule_kept
    | with_reducible apply failStep_kept
    | with_reducible apply beginBody_kept
    | with_reducible apply registerHead_kept
    | with_reducible apply endRun_kept
    | with_reducible apply setCtx_kept
    | split
    | dsimp only
    | with_reducible refine Kept.snd (by assumption) ?_
    | with_reducible refine Kept.sndA (by assumption) ?_
    | with_reducible refine Kept.sndB (by assumption) ?_
    | with_reducible refine Kept.sndT (by assumption) ?_
    | (with_reducible refine Kept.mk' ?_ rfl
       first
       | with_reducible assumption
       | with_reducible apply nextShared_kept
       | with_reducible apply schedule_kept
       | with_reducible apply failStep_kept
       | with_reducible apply beginBody_kept
       | with_reducible apply registerHead_kept
       | with_reducible apply endRun_kept
       | with_reducible apply setCtx_kept
       | split
       | with_reducible refine Kept.snd (by assumption) ?_
       | with_reducible refine Kept.sndA (by assumption) ?_
       | with_reducible refine Kept.sndB (by assumption) ?_
       | with_reducible refine Kept.sndT (by assumption) ?_)

theorem issueHead_kept {cf ff : Bool} {s0 : State} (t : Nat) (c : Ctx) (w : LongWord) (parityAt : Option Nat) (s : State) (h0 : Kept cf ff s0 s) :
    Kept cf ff s0 (issueHead t c w parityAt s) := by
  unfold issueHead
  repeat' first
    | with_reducible assumption
    | with_reducible apply issueWord_kept
    | with_reducible apply beginBody_kept
    | split
    | dsimp only
    | (with_reducible refine Kept.mk' ?_ rfl
       first
       | with_reducible assumption
       | with_reducible apply issueWord_kept
       | with_reducible apply beginBody_kept
       | split)

theorem execLongWordIssue_kept {cf ff : Bool} {s0 : State} (t : Nat) (w : LongWord) (parityAt : Option Nat) (s : State) (h0 : Kept cf ff s0 s) :
    ResKept cf ff s0 (execLongWordIssue t w parityAt s) := by
  unfold execLongWordIssue
  repeat' first
    | with_reducible assumption
    | with_reducible apply onUnit_kept
    | with_reducible apply issueWord_kept
    | with_reducible apply headWait_kept
    | with_reducible apply wakeSource_kept
    | with_reducible apply issueHead_kept
    | with_reducible apply beginBody_kept
    | exact ResKept.same (by assumption)
    | split
    | intro _
    | dsimp only
    | with_reducible refine Kept.snd (by assumption) ?_
    | with_reducible refine Kept.sndA (by assumption) ?_
    | with_reducible refine Kept.sndB (by assumption) ?_
    | with_reducible refine Kept.sndT (by assumption) ?_

theorem execStepHeadWait_kept {cf ff : Bool} {s0 : State} (t : Nat) (take : Bool) (slot : Nat) (amount : Nat) (s : State) (h0 : Kept cf ff s0 s) :
    ResKept cf ff s0 (execStepHeadWait t take slot amount s) := by
  unfold execStepHeadWait
  repeat' first
    | with_reducible assumption
    | with_reducible apply onUnit_kept
    | with_reducible apply headWait_kept

theorem storedParity_kept {cf ff : Bool} {s0 : State} (t : Nat) (off : Nat) (tenant : Nat) (s : State) (h0 : Kept cf ff s0 s) :
    Kept cf ff s0 (storedParity t off tenant s) := by
  unfold storedParity
  repeat' first
    | with_reducible assumption
    | with_reducible apply modTile_kept
    | with_reducible apply poisonBlock_kept
    | intro _
    | dsimp only
    | (with_reducible refine Kept.mk' ?_ rfl
       first
       | with_reducible assumption
       | with_reducible apply modTile_kept
       | with_reducible apply poisonBlock_kept)

theorem execUnitOpComplete_kept {cf ff : Bool} {s0 : State} (t : Nat) (u : TileUnit) (conflicts : Nat) (found : Option Detection) (s : State) (h0 : Kept cf ff s0 s) :
    ResKept cf ff s0 (execUnitOpComplete t u s conflicts found) := by
  unfold execUnitOpComplete
  repeat' first
    | with_reducible assumption
    | with_reducible apply modTile_kept
    | with_reducible apply onUnit_kept
    | with_reducible apply storedParity_kept
    | with_reducible apply schedule_kept
    | with_reducible apply failStep_kept
    | exact ResKept.same (by assumption)
    | split
    | intro _
    | dsimp only
    | with_reducible refine Kept.snd (by assumption) ?_
    | with_reducible refine Kept.sndA (by assumption) ?_
    | with_reducible refine Kept.sndB (by assumption) ?_
    | with_reducible refine Kept.sndT (by assumption) ?_

theorem stepExpired_kept {cf ff : Bool} {s0 : State} (t : Nat) (s : State) (h0 : Kept cf ff s0 s) :
    Kept cf ff s0 (stepExpired t s) := by
  unfold stepExpired
  repeat' first
    | with_reducible assumption
    | with_reducible apply schedule_kept
    | with_reducible apply failStep_kept
    | with_reducible apply modTile_kept
    | split
    | intro _
    | dsimp only
    | (with_reducible refine Kept.mk' ?_ rfl
       first
       | with_reducible assumption
       | with_reducible apply schedule_kept
       | with_reducible apply failStep_kept
       | with_reducible apply modTile_kept
       | split)

theorem execStepTimeLimit_kept {cf ff : Bool} {s0 : State} (t : Nat) (s : State) (h0 : Kept cf ff s0 s) :
    ResKept cf ff s0 (execStepTimeLimit t s) := by
  unfold execStepTimeLimit
  repeat' first
    | with_reducible assumption
    | with_reducible apply onUnit_kept
    | with_reducible apply stepExpired_kept
    | exact ResKept.same (by assumption)
    | dsimp only

theorem execTileTrap_kept {cf ff : Bool} {s0 : State} (t : Nat) (s : State) (h0 : Kept cf ff s0 s) :
    ResKept cf ff s0 (execTileTrap t s) := by
  unfold execTileTrap
  repeat' first
    | with_reducible assumption
    | with_reducible apply onUnit_kept
    | with_reducible apply schedule_kept
    | with_reducible apply failStep_kept

theorem release_kept {cf ff : Bool} {s0 : State} (t : Nat) (c : Ctx) (bad : Bool) (e : Effect) (s : State) (h0 : Kept cf ff s0 s) :
    Kept cf ff s0 (release t c bad e s).2 := by
  unfold release
  repeat' first
    | with_reducible assumption
    | with_reducible apply TAcc.start_kept
    | with_reducible apply endRun_kept
    | with_reducible apply rdPv_kept
    | with_reducible apply wrList_kept
    | with_reducible apply noteRun_kept
    | with_reducible apply startFop_kept
    | with_reducible apply kick_kept
    | with_reducible apply modDpt_kept
    | with_reducible apply signalCtr_kept
    | split
    | intro _
    | dsimp only
    | with_reducible refine Kept.snd (by assumption) ?_
    | with_reducible refine Kept.sndA (by assumption) ?_
    | with_reducible refine Kept.sndB (by assumption) ?_
    | with_reducible refine Kept.sndT (by assumption) ?_
    | (with_reducible refine Kept.mk' ?_ rfl
       first
       | with_reducible assumption
       | with_reducible apply TAcc.start_kept
       | with_reducible apply endRun_kept
       | with_reducible apply rdPv_kept
       | with_reducible apply wrList_kept
       | with_reducible apply noteRun_kept
       | with_reducible apply startFop_kept
       | with_reducible apply kick_kept
       | with_reducible apply modDpt_kept
       | with_reducible apply signalCtr_kept
       | split
       | with_reducible refine Kept.snd (by assumption) ?_
       | with_reducible refine Kept.sndA (by assumption) ?_
       | with_reducible refine Kept.sndB (by assumption) ?_
       | with_reducible refine Kept.sndT (by assumption) ?_)

theorem releaseAll_kept {cf ff : Bool} {s0 : State} (t : Nat) (c : Ctx) (bad : Bool) (x0 : List Effect) (x1 : State) (h0 : Kept cf ff s0 x1) :
    Kept cf ff s0 (releaseAll t c bad x0 x1) := by
  fun_induction releaseAll t c bad x0 x1
  all_goals try subst_vars
  all_goals
    repeat' first
      | with_reducible assumption
      | with_reducible apply release_kept
      | split
      | dsimp only
      | with_reducible refine Kept.snd (by assumption) ?_
      | with_reducible refine Kept.sndA (by assumption) ?_
      | with_reducible refine Kept.sndB (by assumption) ?_
      | with_reducible refine Kept.sndT (by assumption) ?_
      | with_reducible apply_assumption

theorem landStats_kept {cf ff : Bool} {s0 : State} (t : Nat) (s : State) (h0 : Kept cf ff s0 s) :
    Kept cf ff s0 (landStats t s) := by
  unfold landStats
  repeat' first
    | with_reducible assumption
    | with_reducible apply Acc.start_kept
    | with_reducible apply wrBytes_kept
    | with_reducible apply modTile_kept
    | with_reducible refine Kept.foldl _ _ _ ?_ ?_
    | intro _
    | dsimp only
    | with_reducible refine Kept.foldlA _ _ _ ?_ ?_
    | with_reducible refine Kept.foldlS _ _ _ ?_ ?_

theorem stepHistory_kept {cf ff : Bool} {s0 : State} (t : Nat) (c : Ctx) (poisoned : Bool) (s : State) (h0 : Kept cf ff s0 s) :
    Kept cf ff s0 (stepHistory t c poisoned s) := by
  unfold stepHistory
  repeat' first
    | with_reducible assumption
    | with_reducible apply noteRun_kept
    | with_reducible apply whenS_kept
    | with_reducible apply recordFault_kept
    | with_reducible apply faultEvent_kept
    | split
    | intro _
    | dsimp only

theorem finishLogical_kept {cf ff : Bool} {s0 : State} (t : Nat) (c : Ctx) (s : State) (h0 : Kept cf ff s0 s) :
    Kept cf ff s0 (finishLogical t c s) := by
  unfold finishLogical
  repeat' first
    | with_reducible assumption
    | with_reducible apply modRun_kept
    | with_reducible apply clearTile_kept
    | with_reducible apply endRun_kept
    | with_reducible apply whenS_kept
    | with_reducible apply countShared_kept
    | with_reducible apply checkPaused_kept
    | split
    | intro _
    | dsimp only
    | with_reducible refine Kept.snd (by assumption) ?_
    | with_reducible refine Kept.sndA (by assumption) ?_
    | with_reducible refine Kept.sndB (by assumption) ?_
    | with_reducible refine Kept.sndT (by assumption) ?_
    | (with_reducible refine Kept.mk' ?_ rfl
       first
       | with_reducible assumption
       | with_reducible apply modRun_kept
       | with_reducible apply clearTile_kept
       | with_reducible apply endRun_kept
       | with_reducible apply whenS_kept
       | with_reducible apply countShared_kept
       | with_reducible apply checkPaused_kept
       | split
       | with_reducible refine Kept.snd (by assumption) ?_
       | with_reducible refine Kept.sndA (by assumption) ?_
       | with_reducible refine Kept.sndB (by assumption) ?_
       | with_reducible refine Kept.sndT (by assumption) ?_)

theorem atBoundary_kept {cf ff : Bool} {s0 : State} (t : Nat) (c : Ctx) (s : State) (h0 : Kept cf ff s0 s) :
    Kept cf ff s0 (atBoundary t c s) := by
  unfold atBoundary
  repeat' first
    | with_reducible assumption
    | with_reducible apply modTile_kept
    | with_reducible apply saveFrame_kept
    | with_reducible apply moveLogical_kept
    | with_reducible apply nextShared_kept
    | with_reducible apply beginTest_kept
    | split
    | intro _
    | dsimp only

theorem stopCancelled_kept {cf ff : Bool} {s0 : State} (t : Nat) (c : Ctx) (s : State) (h0 : Kept cf ff s0 s) :
    Kept cf ff s0 (stopCancelled t c s) := by
  unfold stopCancelled
  repeat' first
    | with_reducible assumption
    | with_reducible apply clearTile_kept
    | with_reducible apply endRun_kept
    | split
    | dsimp only

theorem execCommit_kept {cf ff : Bool} {s0 : State} (t : Nat) (conflicts : Nat) (s : State) (h0 : Kept cf ff s0 s) :
    ResKept cf ff s0 (execCommit t s conflicts) := by
  unfold execCommit
  repeat' first
    | with_reducible assumption
    | with_reducible apply onUnit_kept
    | with_reducible apply schedule_kept
    | with_reducible apply fillTiles_kept
    | with_reducible apply stopCancelled_kept
    | with_reducible apply viaGap_kept
    | with_reducible apply releaseAll_kept
    | with_reducible apply modTile_kept
    | with_reducible apply landStats_kept
    | with_reducible apply stepHistory_kept
    | with_reducible apply finishLogical_kept
    | with_reducible apply atBoundary_kept
    | exact ResKept.same (by assumption)
    | split
    | intro _
    | dsimp only
    | with_reducible refine Kept.snd (by assumption) ?_
    | with_reducible refine Kept.sndA (by assumption) ?_
    | with_reducible refine Kept.sndB (by assumption) ?_
    | with_reducible refine Kept.sndT (by assumption) ?_

end Sys2Proof.Machine
end

