-- ==== Sys2Proof/Laws/KeptStackRows.lean ====
section
/-! SUPPORT. `Kept` for the operations of Machine/StackRows.lean. -/

namespace Sys2Proof.Machine

theorem execMergeWindowExpiry_kept {cf ff : Bool} {s0 : State} (k : Nat) (blk : Nat) (s : State) (h0 : Kept cf ff s0 s) :
    ResKept cf ff s0 (execMergeWindowExpiry k blk s) := by
  unfold execMergeWindowExpiry
  repeat' first
    | with_reducible assumption
    | with_reducible apply onUnit_kept
    | with_reducible apply flushBlk_kept
    | split

theorem execCorrectionWriteBack_kept {cf ff : Bool} {s0 : State} (k : Nat) (blk : Nat) (s : State) (h0 : Kept cf ff s0 s) :
    ResKept cf ff s0 (execCorrectionWriteBack k blk s) := by
  unfold execCorrectionWriteBack
  repeat' first
    | with_reducible assumption
    | with_reducible apply onUnit_kept
    | with_reducible apply storeBlk_kept
    | split

theorem execUePoisonRewrite_kept {cf ff : Bool} {s0 : State} (k : Nat) (blk : Nat) (s : State) (h0 : Kept cf ff s0 s) :
    ResKept cf ff s0 (execUePoisonRewrite k blk s) := by
  unfold execUePoisonRewrite
  repeat' first
    | with_reducible assumption
    | with_reducible apply onUnit_kept
    | with_reducible apply storeBlk_kept
    | split

theorem execCeBucketLeak_kept {cf ff : Bool} {s0 : State} (k : Nat) (s : State) (h0 : Kept cf ff s0 s) :
    ResKept cf ff s0 (execCeBucketLeak k s) := by
  unfold execCeBucketLeak
  repeat' first
    | with_reducible assumption
    | with_reducible apply onUnit_kept
    | with_reducible apply modStk_kept
    | split

theorem execPatrolRowVisit_kept {cf ff : Bool} {s0 : State} (k : Nat) (s : State) (h0 : Kept cf ff s0 s) :
    ResKept cf ff s0 (execPatrolRowVisit k s) := by
  unfold execPatrolRowVisit
  repeat' first
    | with_reducible assumption
    | with_reducible apply onUnit_kept
    | with_reducible apply modStk_kept
    | with_reducible apply forEach_kept
    | with_reducible apply readStack_kept
    | exact ResKept.same (by assumption)
    | split
    | intro _
    | dsimp only
    | with_reducible refine Kept.snd (by assumption) ?_
    | with_reducible refine Kept.sndA (by assumption) ?_
    | with_reducible refine Kept.sndB (by assumption) ?_
    | (with_reducible refine Kept.mk' ?_ rfl
       first
       | with_reducible assumption
       | with_reducible apply onUnit_kept
       | with_reducible apply modStk_kept
       | with_reducible apply forEach_kept
       | with_reducible apply readStack_kept
       | split
       | with_reducible refine Kept.snd (by assumption) ?_
       | with_reducible refine Kept.sndA (by assumption) ?_
       | with_reducible refine Kept.sndB (by assumption) ?_)

theorem execStackRead_kept {cf ff : Bool} {s0 : State} (k : Nat) (off : Nat) (flips : BitVec 576) (s : State) (h0 : Kept cf ff s0 s) :
    ResKept cf ff s0 (execStackRead k off flips s) := by
  unfold execStackRead
  repeat' first
    | with_reducible assumption
    | with_reducible apply onUnit_kept
    | with_reducible apply arrive_kept
    | exact ResKept.same (by assumption)
    | dsimp only

theorem execStackWrite_kept {cf ff : Bool} {s0 : State} (k : Nat) (off : Nat) (data : List Byte) (mask : W64) (source : Nat) (s : State) (h0 : Kept cf ff s0 s) :
    ResKept cf ff s0 (execStackWrite k off data mask source s) := by
  unfold execStackWrite
  repeat' first
    | with_reducible assumption
    | with_reducible apply onUnit_kept
    | with_reducible apply arrive_kept
    | exact ResKept.same (by assumption)
    | dsimp only

theorem execBar4Read_kept {cf ff : Bool} {s0 : State} (fn : Nat) (off : Nat) (len : Nat) (s : State) (h0 : Kept cf ff s0 s) :
    ResKept cf ff s0 (execBar4Read fn off len s) := by
  unfold execBar4Read
  repeat' first
    | with_reducible assumption
    | with_reducible apply onUnit_kept
    | with_reducible apply arrive_kept
    | exact ResKept.same (by assumption)
    | dsimp only

theorem execBar4Write_kept {cf ff : Bool} {s0 : State} (fn : Nat) (off : Nat) (bytes : List (Option Byte)) (s : State) (h0 : Kept cf ff s0 s) :
    ResKept cf ff s0 (execBar4Write fn off bytes s) := by
  unfold execBar4Write
  repeat' first
    | with_reducible assumption
    | with_reducible apply onUnit_kept
    | with_reducible apply arrive_kept
    | exact ResKept.same (by assumption)
    | dsimp only

theorem execSliceEnd_kept {cf ff : Bool} {s0 : State} (k : Nat) (d : Nat) (p : Nat) (s : State) (h0 : Kept cf ff s0 s) :
    ResKept cf ff s0 (execSliceEnd k d p s) := by
  unfold execSliceEnd
  repeat' first
    | with_reducible assumption
    | with_reducible apply onUnit_kept
    | with_reducible apply settleFop_kept
    | with_reducible apply closeSlice_kept
    | exact ResKept.same (by assumption)
    | split
    | intro _
    | dsimp only
    | with_reducible refine Kept.snd (by assumption) ?_
    | with_reducible refine Kept.sndA (by assumption) ?_
    | with_reducible refine Kept.sndB (by assumption) ?_

end Sys2Proof.Machine
end

