-- ==== Sys2Proof/Laws/KeptLinks.lean ====
section
/-! SUPPORT. `Kept` for the operations of Machine/Links.lean. -/

namespace Sys2Proof.Machine

theorem execLinkFrameRetry_kept {cf ff : Bool} {s0 : State} (k : Nat) (ok : Bool) (s : State) (h0 : Kept cf ff s0 s) :
    ResKept cf ff s0 (execLinkFrameRetry k ok s) := by
  unfold execLinkFrameRetry
  repeat' first
    | with_reducible assumption
    | with_reducible apply onUnit_kept
    | with_reducible apply modStk_kept
    | split

theorem setEdgeTry_kept {cf ff : Bool} {s0 : State} (k : Nat × Nat) (n : Nat) (s : State) (h0 : Kept cf ff s0 s) :
    Kept cf ff s0 (setEdgeTry k n s) := by
  unfold setEdgeTry
  repeat' first
    | with_reducible assumption
    | split
    | intro _
    | dsimp only
    | (with_reducible refine Kept.mk' ?_ rfl; with_reducible assumption)

theorem execFlitCrcRetry_kept {cf ff : Bool} {s0 : State} (a : Nat) (b : Nat) (ok : Bool) (s : State) (h0 : Kept cf ff s0 s) :
    ResKept cf ff s0 (execFlitCrcRetry a b ok s) := by
  unfold execFlitCrcRetry
  repeat' first
    | with_reducible assumption
    | with_reducible apply onUnit_kept
    | with_reducible apply setEdgeTry_kept
    | split

theorem loseTransfer_kept {cf ff : Bool} {s0 : State} (h : Nat) (s : State) (h0 : Kept cf ff s0 s) :
    Kept cf ff s0 (loseTransfer h s) := by
  unfold loseTransfer
  repeat' first
    | with_reducible assumption
    | with_reducible apply endRun_kept
    | with_reducible apply finishCmd_kept
    | with_reducible apply modCmd_kept
    | with_reducible apply dropPeerWork_kept
    | with_reducible apply scrambleDests_kept
    | split
    | intro _
    | dsimp only
    | with_reducible refine Kept.snd (by assumption) ?_
    | with_reducible refine Kept.sndA (by assumption) ?_
    | with_reducible refine Kept.sndB (by assumption) ?_
    | (with_reducible refine Kept.mk' ?_ rfl
       first
       | with_reducible assumption
       | with_reducible apply endRun_kept
       | with_reducible apply finishCmd_kept
       | with_reducible apply modCmd_kept
       | with_reducible apply dropPeerWork_kept
       | with_reducible apply scrambleDests_kept
       | split
       | with_reducible refine Kept.snd (by assumption) ?_
       | with_reducible refine Kept.sndA (by assumption) ?_
       | with_reducible refine Kept.sndB (by assumption) ?_)

theorem loseEdge_kept {cf ff : Bool} {s0 : State} (a : Nat) (b : Nat) (inFlight : List Nat) (s : State) (h0 : Kept cf ff s0 s) :
    Kept cf ff s0 (loseEdge a b inFlight s) := by
  unfold loseEdge
  repeat' first
    | with_reducible assumption
    | with_reducible apply forEach_kept
    | with_reducible apply loseTransfer_kept
    | with_reducible apply setEdgeTry_kept
    | with_reducible apply retireUnit_kept
    | with_reducible apply recordFault_kept
    | intro _
    | dsimp only
    | (with_reducible refine Kept.mk' ?_ rfl
       first
       | with_reducible assumption
       | with_reducible apply forEach_kept
       | with_reducible apply loseTransfer_kept
       | with_reducible apply setEdgeTry_kept
       | with_reducible apply retireUnit_kept
       | with_reducible apply recordFault_kept)

theorem execRetrainingComplete_kept {cf ff : Bool} {s0 : State} (u : UnitRef) (ok : Bool) (inFlight : List Nat) (s : State) (h0 : Kept cf ff s0 s) :
    ResKept cf ff s0 (execRetrainingComplete u ok s inFlight) := by
  unfold execRetrainingComplete
  repeat' first
    | with_reducible assumption
    | with_reducible apply onUnit_kept
    | with_reducible apply modStk_kept
    | with_reducible apply serveHeld_kept
    | with_reducible apply retireUnit_kept
    | with_reducible apply setEdgeTry_kept
    | with_reducible apply loseEdge_kept
    | exact ResKept.same (by assumption)
    | split
    | intro _
    | dsimp only
    | with_reducible refine Kept.snd (by assumption) ?_
    | with_reducible refine Kept.sndA (by assumption) ?_
    | with_reducible refine Kept.sndB (by assumption) ?_
    | (with_reducible refine Kept.mk' ?_ rfl
       first
       | with_reducible assumption
       | with_reducible apply onUnit_kept
       | with_reducible apply modStk_kept
       | with_reducible apply serveHeld_kept
       | with_reducible apply retireUnit_kept
       | with_reducible apply setEdgeTry_kept
       | with_reducible apply loseEdge_kept
       | split
       | with_reducible refine Kept.snd (by assumption) ?_
       | with_reducible refine Kept.sndA (by assumption) ?_
       | with_reducible refine Kept.sndB (by assumption) ?_)

theorem execFarLinkDown_kept {cf ff : Bool} {s0 : State} (link : Nat) (errors : Nat) (s : State) (h0 : Kept cf ff s0 s) :
    ResKept cf ff s0 (execFarLinkDown s link errors) := by
  unfold execFarLinkDown
  repeat' first
    | with_reducible assumption
    | with_reducible apply schedule_kept
    | with_reducible apply loseFar_kept
    | with_reducible apply capChange_kept
    | exact ResKept.same (by assumption)
    | with_reducible apply ResKept.next
    | exact fun _ => rfl
    | exact suspectCap_gen _
    | split
    | intro _
    | dsimp only
    | (with_reducible refine Kept.mk' ?_ rfl
       first
       | with_reducible assumption
       | with_reducible apply schedule_kept
       | with_reducible apply loseFar_kept
       | with_reducible apply capChange_kept
       | split)

end Sys2Proof.Machine
end

