-- ==== Sys2Proof/Laws/KeptThermal.lean ====
section
/-! SUPPORT. `Kept` for the operations of Machine/Thermal.lean. -/

namespace Sys2Proof.Machine

theorem showTherm_kept {cf ff : Bool} {s0 : State} (s : State) (h0 : Kept cf ff s0 s) :
    Kept cf ff s0 (showTherm s) := by
  unfold showTherm
  repeat' first
    | with_reducible assumption
    | with_reducible apply modBoard_kept

theorem thermalEvent_kept {cf ff : Bool} {s0 : State} (payload : List Nat) (s : State) (h0 : Kept cf ff s0 s) :
    Kept cf ff s0 (thermalEvent payload s) := by
  unfold thermalEvent
  repeat' first
    | with_reducible assumption
    | with_reducible apply setCause_kept
    | with_reducible apply henuaEvent_kept

theorem updateBlock_kept {cf ff : Bool} {s0 : State} (b : Nat) (s : State) (h0 : Kept cf ff s0 s) :
    Kept cf ff s0 (updateBlock b s) := by
  unfold updateBlock
  repeat' first
    | with_reducible assumption
    | with_reducible apply modPm_kept
    | with_reducible apply modStk_kept
    | with_reducible apply whenS_kept
    | with_reducible apply thermalEvent_kept
    | split

theorem stopCmd_kept {cf ff : Bool} {s0 : State} (h : Nat) (s : State) (h0 : Kept cf ff s0 s) :
    Kept cf ff s0 (stopCmd h s) := by
  unfold stopCmd
  repeat' first
    | with_reducible assumption
    | with_reducible apply finishCmd_kept
    | with_reducible apply scrambleDests_kept
    | with_reducible apply dropPeerWork_kept
    | with_reducible apply modCmd_kept
    | split

theorem beginStop_kept {cf ff : Bool} {s0 : State} (s : State) (h0 : Kept cf ff s0 s) :
    Kept cf ff s0 (beginStop s) := by
  unfold beginStop
  repeat' first
    | with_reducible assumption
    | with_reducible apply modPm_kept
    | with_reducible apply forEach_kept
    | with_reducible apply pauseRun_kept
    | with_reducible apply stopCmd_kept
    | with_reducible apply stopFops_kept
    | with_reducible apply abandonTest_kept
    | with_reducible apply thermalEvent_kept
    | with_reducible apply wakeForHeld_kept
    | intro _

theorem finishStop_kept {cf ff : Bool} {s0 : State} (s : State) (h0 : Kept cf ff s0 s) :
    Kept cf ff s0 (finishStop s) := by
  unfold finishStop
  repeat' first
    | with_reducible assumption
    | with_reducible apply forEach_kept
    | with_reducible apply finishCmd_kept
    | with_reducible apply modPm_kept
    | with_reducible apply enterHold_kept
    | intro _

theorem stopStep_kept {cf ff : Bool} {s0 : State} (s : State) (h0 : Kept cf ff s0 s) :
    Kept cf ff s0 (stopStep s) := by
  unfold stopStep
  repeat' first
    | with_reducible assumption
    | with_reducible apply modPm_kept
    | with_reducible apply beginStop_kept
    | with_reducible apply finishStop_kept
    | with_reducible apply releaseHeldWake_kept
    | split
    | intro _
    | dsimp only

theorem sensorStep_kept {cf ff : Bool} {s0 : State} (readings : List (Nat × Int)) (s : State) (h0 : Kept cf ff s0 s) :
    Kept cf ff s0 (sensorStep readings s) := by
  unfold sensorStep
  repeat' first
    | with_reducible assumption
    | with_reducible apply modPm_kept
    | with_reducible apply forEach_kept
    | with_reducible apply thermalEvent_kept
    | with_reducible apply henuaEvent_kept
    | with_reducible apply showTherm_kept
    | with_reducible apply stopStep_kept
    | with_reducible apply updateBlock_kept
    | with_reducible refine Kept.foldl _ _ _ ?_ ?_
    | intro _

theorem execSensorUpdate_kept {cf ff : Bool} {s0 : State} (readings : List (Nat × Int)) (s : State) (h0 : Kept cf ff s0 s) :
    ResKept cf ff s0 (execSensorUpdate readings s) := by
  unfold execSensorUpdate
  repeat' first
    | with_reducible assumption
    | with_reducible apply onUnit_kept
    | with_reducible apply sensorStep_kept
    | split

theorem execPowerLimiterTick_kept {cf ff : Bool} {s0 : State} (mean : Nat) (s : State) (h0 : Kept cf ff s0 s) :
    ResKept cf ff s0 (execPowerLimiterTick mean s) := by
  unfold execPowerLimiterTick
  repeat' first
    | with_reducible assumption
    | with_reducible apply whenS_kept
    | with_reducible apply henuaEvent_kept
    | with_reducible apply modPm_kept
    | with_reducible apply ResKept.next
    | split

theorem execFaultRecordFlush_kept {cf ff : Bool} {s0 : State} (s : State) (h0 : Kept cf ff s0 s) :
    ResKept cf ff s0 (execFaultRecordFlush s) := by
  unfold execFaultRecordFlush
  repeat' first
    | with_reducible assumption
    | with_reducible apply ResKept.next
    | split
    | dsimp only
    | (with_reducible refine Kept.mk' ?_ rfl; with_reducible assumption)

theorem execOperatingTimeTick_kept {cf ff : Bool} {s0 : State} (s : State) (h0 : Kept cf ff s0 s) :
    ResKept cf ff s0 (execOperatingTimeTick s) := by
  unfold execOperatingTimeTick
  repeat' first
    | with_reducible assumption
    | with_reducible apply modHenua_kept
    | with_reducible apply ResKept.next
    | split

end Sys2Proof.Machine
end

