-- ==== Sys2Proof/Laws/KeptBoot.lean ====
section
/-! SUPPORT. `Kept` for the operations of Machine/Boot.lean. -/

namespace Sys2Proof.Machine

theorem settled_reset : Settled State.reset := by
  constructor
  · intro w hw; cases hw
  · intro c a ha; cases ha

theorem showFault_kept {cf ff : Bool} {s0 : State} (s : State) (h0 : Kept cf ff s0 s) :
    Kept cf ff s0 (showFault s) := by
  unfold showFault
  repeat' first
    | with_reducible assumption
    | with_reducible apply modBoard_kept

theorem packageReset_kept {ff : Bool} {s0 : State} (s : State) (h0 : Kept false ff s0 s) : Kept false ff s0 (packageReset s) := by
  refine h0.trans ⟨rfl, fun _ => rfl, nofun, fun _ => rfl, fun q => ?_, fun _ => settled_reset⟩
  unfold MemSafe at *
  rw [Memories.wf_iff] at *
  exact ⟨q.1, rfl, rfl, rfl, rfl, rfl, rfl⟩

theorem powerReset_kept {ff : Bool} {s0 : State} (s : State) (h0 : Kept false ff s0 s) : Kept false ff s0 (powerReset s) := by
  refine h0.trans ⟨rfl, fun _ => rfl, nofun, fun _ => rfl, fun q => ?_, fun _ => settled_reset⟩
  unfold MemSafe at *
  rw [Memories.wf_iff] at *
  exact ⟨q.1, rfl, rfl, rfl, rfl, rfl, rfl⟩

theorem resetIfUp_kept {ff : Bool} {s0 : State} (s : State) (h0 : Kept false ff s0 s) :
    Kept false ff s0 (resetIfUp s) := by
  unfold resetIfUp
  repeat' first
    | with_reducible assumption
    | with_reducible apply packageReset_kept
    | split

theorem railsDown_kept {cf ff : Bool} {s0 : State} (s : State) (h0 : Kept cf ff s0 s) :
    Kept cf ff s0 (railsDown s) := by
  unfold railsDown
  repeat' first
    | with_reducible assumption
    | with_reducible apply modBoard_kept

theorem startResidency_kept {cf ff : Bool} {s0 : State} (s : State) (h0 : Kept cf ff s0 s) :
    Kept cf ff s0 (startResidency s) := by
  unfold startResidency
  repeat' first
    | with_reducible assumption
    | with_reducible apply modPm_kept

theorem execInputPowerApplied_kept {cf ff : Bool} {s0 : State} (slotId : Nat) (isoCompat : Bool) (s : State) (h0 : Kept cf ff s0 s) :
    ResKept cf ff s0 (execInputPowerApplied slotId isoCompat s) := by
  unfold execInputPowerApplied
  repeat' first
    | with_reducible assumption
    | with_reducible apply modPm_kept
    | with_reducible apply modBoard_kept
    | with_reducible apply ResKept.next
    | split

theorem execInputWarningBand_kept {cf ff : Bool} {s0 : State} (s : State) (h0 : Kept cf ff s0 s) :
    ResKept cf ff s0 (execInputWarningBand s) := by
  unfold execInputWarningBand
  repeat' first
    | with_reducible assumption
    | with_reducible apply henuaEvent_kept
    | with_reducible apply modBoard_kept
    | with_reducible apply ResKept.next
    | split

theorem execInputCut_kept {ff : Bool} {s0 : State} (s : State) (h0 : Kept false ff s0 s) :
    ResKept false ff s0 (execInputCut s) := by
  unfold execInputCut
  repeat' first
    | with_reducible assumption
    | with_reducible apply showFault_kept
    | with_reducible apply modBoard_kept
    | with_reducible apply railsDown_kept
    | with_reducible apply resetIfUp_kept
    | with_reducible apply ResKept.next
    | split

theorem execInputPowerLoss_kept {ff : Bool} {s0 : State} (s : State) (h0 : Kept false ff s0 s) :
    ResKept false ff s0 (execInputPowerLoss s) := by
  unfold execInputPowerLoss
  repeat' first
    | with_reducible assumption
    | with_reducible apply powerReset_kept
    | with_reducible apply ResKept.next
    | split

theorem restart_kept {cf ff : Bool} {s0 : State} (s : State) (h0 : Kept cf ff s0 s) :
    Kept cf ff s0 (restart s) := by
  unfold restart
  repeat' first
    | with_reducible assumption
    | with_reducible apply modBoard_kept
    | split

theorem execInputRecovery_kept {cf ff : Bool} {s0 : State} (s : State) (h0 : Kept cf ff s0 s) :
    ResKept cf ff s0 (execInputRecovery s) := by
  unfold execInputRecovery
  repeat' first
    | with_reducible assumption
    | with_reducible apply restart_kept
    | with_reducible apply modBoard_kept
    | with_reducible apply ResKept.next
    | split

theorem execPwrEnHigh_kept {cf ff : Bool} {s0 : State} (s : State) (h0 : Kept cf ff s0 s) :
    ResKept cf ff s0 (execPwrEnHigh s) := by
  unfold execPwrEnHigh
  repeat' first
    | with_reducible assumption
    | with_reducible apply modBoard_kept
    | with_reducible apply restart_kept
    | with_reducible apply ResKept.next
    | split

theorem execPwrEnLow_kept {ff : Bool} {s0 : State} (s : State) (h0 : Kept false ff s0 s) :
    ResKept false ff s0 (execPwrEnLow s) := by
  unfold execPwrEnLow
  repeat' first
    | with_reducible assumption
    | with_reducible apply railsDown_kept
    | with_reducible apply resetIfUp_kept
    | with_reducible apply modBoard_kept
    | with_reducible apply ResKept.next

theorem execPerstNAssert_kept {ff : Bool} {s0 : State} (s : State) (h0 : Kept false ff s0 s) :
    ResKept false ff s0 (execPerstNAssert s) := by
  unfold execPerstNAssert
  repeat' first
    | with_reducible assumption
    | with_reducible apply modBoard_kept
    | with_reducible apply resetIfUp_kept
    | with_reducible apply ResKept.next
    | split

theorem execPerstNRelease_kept {cf ff : Bool} {s0 : State} (s : State) (h0 : Kept cf ff s0 s) :
    ResKept cf ff s0 (execPerstNRelease s) := by
  unfold execPerstNRelease
  repeat' first
    | with_reducible assumption
    | with_reducible apply startResidency_kept
    | with_reducible apply modBoard_kept
    | with_reducible apply ResKept.next
    | split

theorem busReset_kept {ff : Bool} {s0 : State} (s : State) (h0 : Kept false ff s0 s) :
    Kept false ff s0 (busReset s) := by
  unfold busReset
  repeat' first
    | with_reducible assumption
    | with_reducible apply startResidency_kept
    | with_reducible apply packageReset_kept
    | split

theorem execHotReset_kept {ff : Bool} {s0 : State} (s : State) (h0 : Kept false ff s0 s) :
    ResKept false ff s0 (execHotReset s) := by
  unfold execHotReset
  repeat' first
    | with_reducible assumption
    | with_reducible apply busReset_kept
    | with_reducible apply ResKept.next

theorem execPcieLinkDown_kept {ff : Bool} {s0 : State} (s : State) (h0 : Kept false ff s0 s) :
    ResKept false ff s0 (execPcieLinkDown s) := by
  unfold execPcieLinkDown
  repeat' first
    | with_reducible assumption
    | with_reducible apply busReset_kept
    | with_reducible apply ResKept.next

theorem execPcieLinkTrained_kept {cf ff : Bool} {s0 : State} (flit : Bool) (width : Nat) (rate : Nat) (s : State) (h0 : Kept cf ff s0 s) :
    ResKept cf ff s0 (execPcieLinkTrained flit width rate s) := by
  unfold execPcieLinkTrained
  repeat' first
    | with_reducible assumption
    | with_reducible apply modBoard_kept
    | with_reducible apply ResKept.next
    | split

theorem execConfigRetryEnd_kept {cf ff : Bool} {s0 : State} (s : State) (h0 : Kept cf ff s0 s) :
    ResKept cf ff s0 (execConfigRetryEnd s) := by
  unfold execConfigRetryEnd
  repeat' first
    | with_reducible assumption
    | with_reducible apply modBoard_kept
    | with_reducible apply ResKept.next
    | split

theorem execWakeNAssert_kept {cf ff : Bool} {s0 : State} (s : State) (h0 : Kept cf ff s0 s) :
    ResKept cf ff s0 (execWakeNAssert s) := by
  unfold execWakeNAssert
  repeat' first
    | with_reducible assumption
    | with_reducible apply wakeSource_kept
    | with_reducible apply ResKept.next
    | split

theorem execHenuaBootComplete_kept {cf ff : Bool} {s0 : State} (s : State) (h0 : Kept cf ff s0 s) :
    ResKept cf ff s0 (execHenuaBootComplete s) := by
  unfold execHenuaBootComplete
  repeat' first
    | with_reducible assumption
    | with_reducible apply modHenua_kept
    | with_reducible apply modBoard_kept
    | with_reducible apply ResKept.next
    | split

theorem execRailSequencing_kept {cf ff : Bool} {s0 : State} (s : State) (h0 : Kept cf ff s0 s) :
    ResKept cf ff s0 (execRailSequencing s) := by
  unfold execRailSequencing
  repeat' first
    | with_reducible assumption
    | with_reducible apply modBoard_kept
    | with_reducible apply ResKept.next
    | split

theorem execRootPllLock_kept {ff : Bool} {s0 : State} (s : State) (h0 : Kept false ff s0 s) : ResKept false ff s0 (execRootPllLock s) := by
  refine ResKept.next ?_
  split
  · exact modBoard_kept _ _ (h0.trans ⟨rfl, fun _ => rfl, nofun, id, id, id⟩)
  · exact h0

theorem bootOutcome_kept {cf ff : Bool} {s0 : State} (first : List Nat) (repeats : List Nat) (mk : Nat → UnitRef) (n : Nat) (s : State) (h0 : Kept cf ff s0 s) :
    Kept cf ff s0 (bootOutcome first repeats mk n s) := by
  unfold bootOutcome
  repeat' first
    | with_reducible assumption
    | with_reducible apply whenS_kept
    | with_reducible apply settleUnit_kept

theorem execBootSelftestEnd_kept {cf ff : Bool} {s0 : State} (first : BootFails) (repeats : BootFails) (s : State) (h0 : Kept cf ff s0 s) :
    ResKept cf ff s0 (execBootSelftestEnd first repeats s) := by
  unfold execBootSelftestEnd
  repeat' first
    | with_reducible assumption
    | with_reducible apply forEach_kept
    | with_reducible apply bootOutcome_kept
    | with_reducible apply modBoard_kept
    | with_reducible apply modTest_kept
    | with_reducible apply ResKept.next
    | split
    | with_reducible refine Kept.foldl _ _ _ ?_ ?_
    | intro _
    | dsimp only
    | with_reducible refine Kept.foldlA _ _ _ ?_ ?_
    | with_reducible refine Kept.foldlS _ _ _ ?_ ?_
    | (with_reducible refine Kept.mk' ?_ rfl; with_reducible assumption)

theorem execFirmwarePushGo_kept {cf ff : Bool} {s0 : State} (s : State) (h0 : Kept cf ff s0 s) :
    ResKept cf ff s0 (execFirmwarePushGo s) := by
  unfold execFirmwarePushGo
  repeat' first
    | with_reducible assumption
    | with_reducible apply modHenua_kept
    | with_reducible apply ResKept.next
    | split

theorem trainLink_kept {cf ff : Bool} {s0 : State} (failing : List (Nat × List Nat)) (k : Nat) (s : State) (h0 : Kept cf ff s0 s) :
    Kept cf ff s0 (trainLink failing k s) := by
  unfold trainLink
  repeat' first
    | with_reducible assumption
    | with_reducible apply retireUnit_kept
    | with_reducible apply modStk_kept
    | split
    | with_reducible refine Kept.foldl _ _ _ ?_ ?_
    | intro _
    | dsimp only

theorem execStackLinkTrainingEnd_kept {cf ff : Bool} {s0 : State} (failing : List (Nat × List Nat)) (s : State) (h0 : Kept cf ff s0 s) :
    ResKept cf ff s0 (execStackLinkTrainingEnd failing s) := by
  unfold execStackLinkTrainingEnd
  repeat' first
    | with_reducible assumption
    | with_reducible apply onUnit_kept
    | with_reducible apply forEach_kept
    | with_reducible apply trainLink_kept
    | with_reducible apply modHenua_kept
    | with_reducible apply modBoard_kept
    | exact ResKept.same (by assumption)
    | split
    | intro _
    | dsimp only
    | (with_reducible refine Kept.mk' ?_ rfl
       first
       | with_reducible assumption
       | with_reducible apply onUnit_kept
       | with_reducible apply forEach_kept
       | with_reducible apply trainLink_kept
       | with_reducible apply modHenua_kept
       | with_reducible apply modBoard_kept
       | split)

theorem pushEvent_kept {cf ff : Bool} {s0 : State} (severity : Nat) (reason : Nat) (im : Image) (s : State) (h0 : Kept cf ff s0 s) :
    Kept cf ff s0 (pushEvent severity reason im s) := by
  unfold pushEvent
  repeat' first
    | with_reducible assumption
    | with_reducible apply henuaEvent_kept

theorem pushFetch_kept {cf ff : Bool} {s0 : State} (addr : Nat) (len : Nat) (b : List Byte) (bad : Bool) (s : State) (h0 : Kept cf ff s0 s) :
    Kept cf ff s0 (pushFetch addr len b bad s) := by
  unfold pushFetch
  repeat' first
    | with_reducible assumption
    | with_reducible apply hostFetch_kept
    | split
    | dsimp only
    | with_reducible refine Kept.snd (by assumption) ?_
    | with_reducible refine Kept.opt (by assumption) ?_
    | with_reducible refine Kept.sndA (by assumption) ?_
    | with_reducible refine Kept.sndB (by assumption) ?_

theorem execFirmwareVerification_kept {cf ff : Bool} {s0 : State} (headerError : Bool) (payloadError : Bool) (s : State) (h0 : Kept cf ff s0 s) :
    ResKept cf ff s0 (execFirmwareVerification headerError payloadError s) := by
  unfold execFirmwareVerification
  repeat' first
    | with_reducible assumption
    | with_reducible apply pushFetch_kept
    | with_reducible apply showFault_kept
    | with_reducible apply pushEvent_kept
    | with_reducible apply modHenua_kept
    | with_reducible apply modBoard_kept
    | exact ResKept.same (by assumption)
    | with_reducible apply ResKept.next
    | split
    | intro _
    | dsimp only
    | with_reducible refine Kept.snd (by assumption) ?_
    | with_reducible refine Kept.opt (by assumption) ?_
    | with_reducible refine Kept.sndA (by assumption) ?_
    | with_reducible refine Kept.sndB (by assumption) ?_
    | (with_reducible refine Kept.mk' ?_ rfl
       first
       | with_reducible assumption
       | with_reducible apply pushFetch_kept
       | with_reducible apply showFault_kept
       | with_reducible apply pushEvent_kept
       | with_reducible apply modHenua_kept
       | with_reducible apply modBoard_kept
       | split
       | with_reducible refine Kept.snd (by assumption) ?_
       | with_reducible refine Kept.opt (by assumption) ?_
       | with_reducible refine Kept.sndA (by assumption) ?_
       | with_reducible refine Kept.sndB (by assumption) ?_)

theorem inventory_kept {cf ff : Bool} {s0 s : State} (c : Cap) (hc : c.gen = 2) (f : Far) (e : List (Nat × Nat)) (h0 : Kept cf ff s0 s) :
    Kept cf ff s0 { s with cap := c, far := f, edgesDown := e } := by
  refine h0.trans ⟨rfl, fun _ => rfl, fun _ => ⟨rfl, rfl⟩, fun _ => ?_, id, id⟩
  unfold GenEven
  simp only [hc]
  rfl

theorem sumCap_gen (c : Cap) (x : UnitSum) : (sumCap c x).gen = c.gen := by
  unfold sumCap
  split
  · split
    · exact clearUsable_gen _ c
    · split
      · exact suspectCap_gen _ c
      · rfl
  · rfl

theorem bootCap_gen (s : State) : (bootCap s).gen = 2 := by
  have key : ∀ (l : List UnitSum) (c : Cap), (l.foldl sumCap c).gen = c.gen := by
    intro l
    induction l with
    | nil => exact fun c => rfl
    | cons x t ih => exact fun c => (ih _).trans (sumCap_gen c x)
  exact (key _ _).trans rfl

theorem execInventoryComplete_kept {cf ff : Bool} {s0 : State} (expanders : List Nat) (s : State) (h0 : Kept cf ff s0 s) :
    ResKept cf ff s0 (execInventoryComplete expanders s) := by
  unfold execInventoryComplete
  refine ResKept.next ?_
  split
  · dsimp only
    refine setCauseAll_kept _ _ (henuaEvent_kept _ _ _ _ (forEach_kept _ _ _ (fun k t ht => checkNoFurrow_kept _ _ ht) ?_))
    have h1 := inventory_kept (bootCap s) (bootCap_gen s) (mapFar expanders) (bootEdges s) (clearTileMem_kept [] [] [] s h0)
    split
    · rename_i e
      refine addTenant_kept _ _ _ _ (Kept.opt e fun x hx => placeContext_kept _ _ ?_ x hx)
      exact modDpt_kept _ _ (modBoard_kept _ _ (h1.upd rfl rfl rfl rfl rfl rfl rfl))
    · exact addTenant_kept _ _ _ _ (modDpt_kept _ _ (modBoard_kept _ _ (h1.upd rfl rfl rfl rfl rfl rfl rfl)))
  · exact h0

theorem resetFn_kept {cf ff : Bool} {s0 : State} (f : Nat) (s : State) (h0 : Kept cf ff s0 s) :
    Kept cf ff s0 (resetFn f s) := by
  unfold resetFn
  repeat' first
    | with_reducible assumption
    | with_reducible apply forEach_kept
    | with_reducible apply cancelCmd_kept
    | with_reducible apply modFn_kept
    | split
    | intro _
    | dsimp only
    | (with_reducible refine Kept.mk' ?_ rfl
       first
       | with_reducible assumption
       | with_reducible apply forEach_kept
       | with_reducible apply cancelCmd_kept
       | with_reducible apply modFn_kept
       | split)

theorem resetPfOnly_kept {cf ff : Bool} {s0 : State} (s : State) (h0 : Kept cf ff s0 s) :
    Kept cf ff s0 (resetPfOnly s) := by
  unfold resetPfOnly
  repeat' first
    | with_reducible assumption
    | with_reducible apply forEach_kept
    | with_reducible apply modStk_kept
    | with_reducible apply modFn_kept
    | with_reducible apply modTile_kept
    | with_reducible apply modBoard_kept
    | with_reducible apply modDpt_kept
    | intro _
    | dsimp only
    | (with_reducible refine Kept.mk' ?_ rfl
       first
       | with_reducible assumption
       | with_reducible apply forEach_kept
       | with_reducible apply modStk_kept
       | with_reducible apply modFn_kept
       | with_reducible apply modTile_kept
       | with_reducible apply modBoard_kept
       | with_reducible apply modDpt_kept)

theorem execFunctionLevelReset_kept {cf ff : Bool} {s0 : State} (fn : Nat) (s : State) (h0 : Kept cf ff s0 s) :
    ResKept cf ff s0 (execFunctionLevelReset fn s) := by
  unfold execFunctionLevelReset
  repeat' first
    | with_reducible assumption
    | with_reducible apply onUnit_kept
    | with_reducible apply schedule_kept
    | with_reducible apply henuaEvent_kept
    | with_reducible apply resetPfOnly_kept
    | with_reducible apply forEach_kept
    | with_reducible apply resetFn_kept
    | split

theorem wakeMemories_kept {cf ff : Bool} {s0 : State} (s : State) (h0 : Kept cf ff s0 s) :
    Kept cf ff s0 (wakeMemories s) := by
  unfold wakeMemories
  repeat' first
    | with_reducible assumption
    | with_reducible apply clearTileMem_kept
    | split
    | intro _
    | dsimp only
    | (with_reducible refine Kept.mk' ?_ rfl
       first
       | with_reducible assumption
       | with_reducible apply clearTileMem_kept
       | split)

theorem lossEvents_kept {cf ff : Bool} {s0 : State} (s : State) (h0 : Kept cf ff s0 s) :
    Kept cf ff s0 (lossEvents s) := by
  unfold lossEvents
  repeat' first
    | with_reducible assumption
    | with_reducible apply forEach_kept
    | with_reducible apply whenS_kept
    | with_reducible apply henuaEvent_kept
    | split
    | intro _

theorem enterRun_kept {cf ff : Bool} {s0 : State} (s : State) (h0 : Kept cf ff s0 s) :
    Kept cf ff s0 (enterRun s) := by
  unfold enterRun
  repeat' first
    | with_reducible assumption
    | with_reducible apply forEach_kept
    | with_reducible apply finishCmd_kept
    | with_reducible apply modPm_kept
    | intro _

theorem execWakeComplete_kept {cf ff : Bool} {s0 : State} (failedStacks : List Nat) (retrained : List (Nat × List Nat)) (s : State) (h0 : Kept cf ff s0 s) :
    ResKept cf ff s0 (execWakeComplete failedStacks s retrained) := by
  unfold execWakeComplete
  repeat' first
    | with_reducible assumption
    | with_reducible apply onUnit_kept
    | with_reducible apply enterRun_kept
    | with_reducible apply lossEvents_kept
    | with_reducible apply wakeMemories_kept
    | with_reducible apply forEach_kept
    | with_reducible apply retireUnit_kept
    | with_reducible apply trainLink_kept
    | with_reducible apply fillTiles_kept
    | with_reducible apply schedule_kept
    | with_reducible apply serveHeld_kept
    | exact ResKept.same (by assumption)
    | split
    | with_reducible refine Kept.foldl _ _ _ ?_ ?_
    | intro _
    | dsimp only
    | with_reducible refine Kept.foldlA _ _ _ ?_ ?_
    | with_reducible refine Kept.foldlS _ _ _ ?_ ?_

end Sys2Proof.Machine
end

