-- ==== Sys2Proof/Laws/KeptDomains.lean ====
section
/-! SUPPORT. `Kept` for the operations of Machine/Domains.lean. -/

namespace Sys2Proof.Machine

end Sys2Proof.Machine
end

