-- ==== Sys2Proof/Laws/KeptRegs.lean ====
section
/-! SUPPORT. `Kept` for the operations of Machine/Regs.lean. -/

namespace Sys2Proof.Machine

theorem clearRc_kept {cf ff : Bool} {s0 : State} (f : Nat) (off : Nat) (s : State) (h0 : Kept cf ff s0 s) :
    Kept cf ff s0 (clearRc f off s) := by
  unfold clearRc
  repeat' first
    | with_reducible assumption
    | with_reducible apply modFn_kept
    | with_reducible apply modStk_kept
    | with_reducible apply modTile_kept
    | with_reducible apply modDpt_kept
    | split

theorem read32_kept {cf ff : Bool} {s0 : State} (f : Nat) (off : Nat) (s : State) (h0 : Kept cf ff s0 s) :
    Kept cf ff s0 (read32 f off s).2 := by
  unfold read32
  repeat' first
    | with_reducible assumption
    | with_reducible apply modFn_kept
    | with_reducible apply clearRc_kept
    | split
    | intro _
    | dsimp only

theorem read64_kept {cf ff : Bool} {s0 : State} (f : Nat) (off : Nat) (s : State) (h0 : Kept cf ff s0 s) :
    Kept cf ff s0 (read64 f off s).2 := by
  unfold read64
  repeat' first
    | with_reducible assumption
    | with_reducible apply clearRc_kept
    | split

theorem badAccess_kept {cf ff : Bool} {s0 : State} (f : Nat) (s : State) (h0 : Kept cf ff s0 s) :
    Kept cf ff s0 (badAccess f s) := by
  unfold badAccess
  repeat' first
    | with_reducible assumption
    | with_reducible apply modFn_kept

theorem barRead_kept {cf ff : Bool} {s0 : State} (f : Nat) (off : Nat) (size : Nat) (s : State) (h0 : Kept cf ff s0 s) :
    Kept cf ff s0 (barRead f off size s) := by
  unfold barRead
  repeat' first
    | with_reducible assumption
    | with_reducible apply emit_kept
    | with_reducible apply badAccess_kept
    | with_reducible apply read64_kept
    | with_reducible apply read32_kept
    | split
    | dsimp only

theorem pageRead_kept {cf ff : Bool} {s0 : State} (f : Nat) (off : Nat) (size : Nat) (s : State) (h0 : Kept cf ff s0 s) :
    Kept cf ff s0 (pageRead f off size s) := by
  unfold pageRead
  repeat' first
    | with_reducible assumption
    | with_reducible apply emit_kept
    | with_reducible apply badAccess_kept
    | split
    | dsimp only

theorem configRead_kept {cf ff : Bool} {s0 : State} (f : Nat) (r : CfgReg) (s : State) (h0 : Kept cf ff s0 s) :
    Kept cf ff s0 (configRead f r s) := by
  unfold configRead
  repeat' first
    | with_reducible assumption
    | with_reducible apply emit_kept
    | split
    | dsimp only

theorem execHgDevTimeRead_kept {cf ff : Bool} {s0 : State} (fn : Nat) (a : Access) (s : State) (h0 : Kept cf ff s0 s) :
    ResKept cf ff s0 (execHgDevTimeRead fn a s) := by
  unfold execHgDevTimeRead
  repeat' first
    | with_reducible assumption
    | with_reducible apply onUnit_kept
    | with_reducible apply barRead_kept
    | split

theorem execRcRegisterRead_kept {cf ff : Bool} {s0 : State} (fn : Nat) (place : RegPlace) (size : Nat) (s : State) (h0 : Kept cf ff s0 s) :
    ResKept cf ff s0 (execRcRegisterRead fn place size s) := by
  unfold execRcRegisterRead
  repeat' first
    | with_reducible assumption
    | with_reducible apply onUnit_kept
    | with_reducible apply barRead_kept
    | with_reducible apply pageRead_kept
    | with_reducible apply configRead_kept
    | exact ResKept.same (by assumption)
    | split
    | dsimp only
    | with_reducible refine Kept.snd (by assumption) ?_
    | with_reducible refine Kept.sndA (by assumption) ?_
    | with_reducible refine Kept.sndB (by assumption) ?_

theorem writeW1c_kept {cf ff : Bool} {s0 : State} (f : Nat) (off : Nat) (v : Nat) (s : State) (h0 : Kept cf ff s0 s) :
    Kept cf ff s0 (writeW1c f off v s) := by
  unfold writeW1c
  repeat' first
    | with_reducible assumption
    | with_reducible apply modFn_kept
    | with_reducible apply badAccess_kept
    | split

theorem viaRow_kept {cf ff : Bool} {s0 : State} (r : Res) (s : State) (h0 : ResKept cf ff s0 r) (h1 : Kept cf ff s0 s) : Kept cf ff s0 (viaRow r s) := by
  unfold viaRow
  split
  · exact h0 _ rfl
  · exact h1

theorem setBudget_kept {cf ff : Bool} {s0 : State} (k : Nat) (v : Nat) (s : State) (h0 : Kept cf ff s0 s) :
    Kept cf ff s0 (setBudget k v s) := by
  unfold setBudget
  repeat' first
    | with_reducible assumption
    | with_reducible apply modStk_kept

theorem setPatrol_kept {cf ff : Bool} {s0 : State} (k : Nat) (v : Nat) (s : State) (h0 : Kept cf ff s0 s) :
    Kept cf ff s0 (setPatrol k v s) := by
  unfold setPatrol
  repeat' first
    | with_reducible assumption
    | with_reducible apply modStk_kept

theorem writeMsix_kept {cf ff : Bool} {s0 : State} (f : Nat) (off : Nat) (v : Nat) (s : State) (h0 : Kept cf ff s0 s) :
    Kept cf ff s0 (writeMsix f off v s) := by
  unfold writeMsix
  repeat' first
    | with_reducible assumption
    | with_reducible apply sendPending_kept
    | with_reducible apply modFn_kept

theorem writeOwn_kept {cf ff : Bool} {s0 : State} (f : Nat) (off : Nat) (v : Nat) (s : State) (h0 : Kept cf ff s0 s) :
    Kept cf ff s0 (writeOwn f off v s) := by
  unfold writeOwn
  repeat' first
    | with_reducible assumption
    | with_reducible apply modFn_kept
    | with_reducible apply writeMsix_kept
    | with_reducible apply viaRow_kept
    | with_reducible apply execHgCqCtrlWrite_kept
    | with_reducible apply execHgSq0CtrlWrite_kept
    | with_reducible apply writeW1c_kept
    | split

theorem writePf_kept {cf ff : Bool} {s0 : State} (off : Nat) (v : Nat) (s : State) (h0 : Kept cf ff s0 s) :
    Kept cf ff s0 (writePf off v s) := by
  unfold writePf
  repeat' first
    | with_reducible assumption
    | with_reducible apply setBudget_kept
    | with_reducible apply modStk_kept
    | with_reducible apply setPatrol_kept
    | with_reducible apply schedule_kept
    | with_reducible apply modDpt_kept
    | with_reducible apply viaRow_kept
    | with_reducible apply execHgPtpRxHeadWrite_kept
    | with_reducible apply execHgPtpTxTailWrite_kept
    | split
    | intro _
    | dsimp only
    | with_reducible refine Kept.snd (by assumption) ?_
    | with_reducible refine Kept.sndA (by assumption) ?_
    | with_reducible refine Kept.sndB (by assumption) ?_
    | (with_reducible refine Kept.mk' ?_ rfl; with_reducible assumption)

theorem write32_kept {cf ff : Bool} {s0 : State} (f : Nat) (off : Nat) (v : Nat) (s : State) (h0 : Kept cf ff s0 s) :
    Kept cf ff s0 (write32 f off v s) := by
  unfold write32
  repeat' first
    | with_reducible assumption
    | with_reducible apply writeOwn_kept
    | with_reducible apply writePf_kept
    | split

theorem bar2Write_kept {cf ff : Bool} {s0 : State} (f : Nat) (off : Nat) (v : Nat) (s : State) (h0 : Kept cf ff s0 s) :
    Kept cf ff s0 (bar2Write f off v s) := by
  unfold bar2Write
  repeat' first
    | with_reducible assumption
    | with_reducible apply viaRow_kept
    | with_reducible apply execHgSqTailWrite_kept
    | with_reducible apply execHgCqHeadWrite_kept
    | split
    | intro _
    | dsimp only

theorem sizedWrite_kept {cf ff : Bool} {s0 : State} (w : Nat → Nat → State → State) (f : Nat) (off : Nat) (size : Nat) (v : Nat) (s : State) (h0 : ∀ (y0 : Nat) (y1 : Nat) (y2 : State), Kept cf ff s0 y2 → Kept cf ff s0 (w y0 y1 y2)) (h1 : Kept cf ff s0 s) :
    Kept cf ff s0 (sizedWrite w f off size v s) := by
  unfold sizedWrite
  repeat' first
    | with_reducible assumption
    | with_reducible apply h0
    | with_reducible apply badAccess_kept
    | split

theorem bar0Write_kept {cf ff : Bool} {s0 : State} (f : Nat) (off : Nat) (size : Nat) (v : Nat) (s : State) (h0 : Kept cf ff s0 s) :
    Kept cf ff s0 (bar0Write f off size v s) := by
  unfold bar0Write
  repeat' first
    | with_reducible assumption
    | with_reducible apply schedule_kept
    | with_reducible apply sizedWrite_kept
    | with_reducible apply write32_kept
    | split
    | dsimp only
    | (with_reducible refine Kept.mk' ?_ rfl
       first
       | with_reducible assumption
       | with_reducible apply schedule_kept
       | with_reducible apply sizedWrite_kept
       | with_reducible apply write32_kept
       | split)

theorem writeMsixControl_kept {cf ff : Bool} {s0 : State} (f : Nat) (v : Nat) (s : State) (h0 : Kept cf ff s0 s) :
    Kept cf ff s0 (writeMsixControl f v s) := by
  unfold writeMsixControl
  repeat' first
    | with_reducible assumption
    | with_reducible apply forEach_kept
    | with_reducible apply sendPending_kept
    | with_reducible apply modFn_kept

theorem writeBar4Size_kept {cf ff : Bool} {s0 : State} (f : Nat) (v : Nat) (s : State) (h0 : Kept cf ff s0 s) :
    Kept cf ff s0 (writeBar4Size f v s) := by
  unfold writeBar4Size
  repeat' first
    | with_reducible assumption
    | with_reducible apply modFn_kept
    | with_reducible apply forEach_kept
    | split
    | intro _

theorem writePowerState_kept {cf ff : Bool} {s0 : State} (f : Nat) (v : Nat) (s : State) (h0 : Kept cf ff s0 s) :
    Kept cf ff s0 (writePowerState f v s) := by
  unfold writePowerState
  repeat' first
    | with_reducible assumption
    | with_reducible apply modFn_kept
    | split
    | intro _
    | dsimp only
    | (with_reducible refine Kept.mk' ?_ rfl
       first
       | with_reducible assumption
       | with_reducible apply modFn_kept
       | split)

theorem configWrite_kept {cf ff : Bool} {s0 : State} (f : Nat) (r : CfgReg) (v : Nat) (s : State) (h0 : Kept cf ff s0 s) :
    Kept cf ff s0 (configWrite f r v s) := by
  unfold configWrite
  repeat' first
    | with_reducible assumption
    | with_reducible apply emit_kept
    | with_reducible apply modHenua_kept
    | with_reducible apply viaRow_kept
    | with_reducible apply execFirmwarePushGo_kept
    | with_reducible apply writeMsixControl_kept
    | with_reducible apply writeBar4Size_kept
    | with_reducible apply modFn_kept
    | with_reducible apply modBoard_kept
    | with_reducible apply writePowerState_kept
    | split
    | intro _
    | dsimp only
    | with_reducible refine Kept.snd (by assumption) ?_
    | with_reducible refine Kept.sndA (by assumption) ?_
    | with_reducible refine Kept.sndB (by assumption) ?_
    | (with_reducible refine Kept.mk' ?_ rfl
       first
       | with_reducible assumption
       | with_reducible apply emit_kept
       | with_reducible apply modHenua_kept
       | with_reducible apply viaRow_kept
       | with_reducible apply execFirmwarePushGo_kept
       | with_reducible apply writeMsixControl_kept
       | with_reducible apply writeBar4Size_kept
       | with_reducible apply modFn_kept
       | with_reducible apply modBoard_kept
       | with_reducible apply writePowerState_kept
       | split
       | with_reducible refine Kept.snd (by assumption) ?_
       | with_reducible refine Kept.sndA (by assumption) ?_
       | with_reducible refine Kept.sndB (by assumption) ?_)

theorem execW1cRegisterWrite_kept {cf ff : Bool} {s0 : State} (fn : Nat) (off : Nat) (value : W32) (s : State) (h0 : Kept cf ff s0 s) :
    ResKept cf ff s0 (execW1cRegisterWrite fn off value s) := by
  unfold execW1cRegisterWrite
  repeat' first
    | with_reducible assumption
    | with_reducible apply onUnit_kept
    | with_reducible apply sizedWrite_kept
    | with_reducible apply writeW1c_kept

theorem execRegisterWrite_kept {cf ff : Bool} {s0 : State} (t : RegTarget) (size : Nat) (value : W64) (s : State) (h0 : Kept cf ff s0 s) :
    ResKept cf ff s0 (execRegisterWrite t size value s) := by
  unfold execRegisterWrite
  repeat' first
    | with_reducible assumption
    | with_reducible apply onUnit_kept
    | with_reducible apply bar0Write_kept
    | with_reducible apply sizedWrite_kept
    | with_reducible apply bar2Write_kept
    | with_reducible apply configWrite_kept
    | exact ResKept.same (by assumption)
    | split
    | dsimp only
    | with_reducible refine Kept.snd (by assumption) ?_
    | with_reducible refine Kept.sndA (by assumption) ?_
    | with_reducible refine Kept.sndB (by assumption) ?_

theorem execScFurrowBudgetWrite_kept {cf ff : Bool} {s0 : State} (fn : Nat) (stack : Nat) (value : W32) (s : State) (h0 : Kept cf ff s0 s) :
    ResKept cf ff s0 (execScFurrowBudgetWrite fn stack value s) := by
  unfold execScFurrowBudgetWrite
  repeat' first
    | with_reducible assumption
    | with_reducible apply onUnit_kept
    | with_reducible apply setBudget_kept
    | split

theorem execScPatrolCtrlWrite_kept {cf ff : Bool} {s0 : State} (fn : Nat) (stack : Nat) (value : W32) (s : State) (h0 : Kept cf ff s0 s) :
    ResKept cf ff s0 (execScPatrolCtrlWrite fn stack value s) := by
  unfold execScPatrolCtrlWrite
  repeat' first
    | with_reducible assumption
    | with_reducible apply onUnit_kept
    | with_reducible apply setPatrol_kept
    | split

theorem setPowerLimit_kept {cf ff : Bool} {s0 : State} (v : Nat) (s : State) (h0 : Kept cf ff s0 s) :
    Kept cf ff s0 (setPowerLimit v s) := by
  unfold setPowerLimit
  repeat' first
    | with_reducible assumption
    | with_reducible apply modPm_kept

theorem execPmPowerLimitWrite_kept {cf ff : Bool} {s0 : State} (value : W32) (s : State) (h0 : Kept cf ff s0 s) :
    ResKept cf ff s0 (execPmPowerLimitWrite value s) := by
  unfold execPmPowerLimitWrite
  repeat' first
    | with_reducible assumption
    | with_reducible apply setPowerLimit_kept
    | with_reducible apply ResKept.next
    | split

end Sys2Proof.Machine
end

