-- ==== Sys2Proof/Laws/KeptMgmt.lean ====
section
/-! SUPPORT. `Kept` for the operations of Machine/Mgmt.lean. -/

namespace Sys2Proof.Machine

theorem clearMgmt_kept {cf ff : Bool} {s0 : State} (off : Nat) (s : State) (h0 : Kept cf ff s0 s) :
    Kept cf ff s0 (clearMgmt off s) := by
  unfold clearMgmt
  repeat' first
    | with_reducible assumption
    | with_reducible apply modHenua_kept
    | with_reducible apply modTest_kept
    | with_reducible apply modPm_kept
    | split

theorem readMgmt_kept {cf ff : Bool} {s0 : State} (x0 : Nat) (x1 : Nat) (x2 : State) (h0 : Kept cf ff s0 x2) :
    Kept cf ff s0 (readMgmt x0 x1 x2).2 := by
  fun_induction readMgmt x0 x1 x2
  all_goals try subst_vars
  all_goals
    repeat' first
      | with_reducible assumption
      | with_reducible apply clearMgmt_kept
      | split
      | dsimp only
      | with_reducible refine Kept.snd (by assumption) ?_
      | with_reducible refine Kept.opt (by assumption) ?_
      | with_reducible refine Kept.sndA (by assumption) ?_
      | with_reducible refine Kept.sndB (by assumption) ?_
      | with_reducible apply_assumption

theorem answer_kept {cf ff : Bool} {s0 : State} (code : Nat) (status : Nat) (data : List Byte) (s : State) (h0 : Kept cf ff s0 s) :
    Kept cf ff s0 (answer code status data s) := by
  unfold answer
  repeat' first
    | with_reducible assumption
    | with_reducible apply emit_kept

theorem onHenua_kept {cf ff : Bool} {s0 : State} (f : State → State) (s : State) (h0 : ∀ (y0 : State), Kept cf ff s0 y0 → Kept cf ff s0 (f y0)) (h1 : Kept cf ff s0 s) :
    ResKept cf ff s0 (onHenua f s) := by
  unfold onHenua
  repeat' first
    | with_reducible assumption
    | with_reducible apply h0
    | with_reducible apply ResKept.next
    | split

theorem acceptSeq_kept {cf ff : Bool} {s0 : State} (p : MgmtPath) (a : Option MgmtAuth) (s : State) (h0 : Kept cf ff s0 s) :
    Kept cf ff s0 (acceptSeq p a s) := by
  unfold acceptSeq
  repeat' first
    | with_reducible assumption
    | with_reducible apply modHenua_kept
    | split

theorem refuseSigned_kept {cf ff : Bool} {s0 : State} (code : Nat) (s : State) (h0 : Kept cf ff s0 s) :
    Kept cf ff s0 (refuseSigned code s) := by
  unfold refuseSigned
  repeat' first
    | with_reducible assumption
    | with_reducible apply answer_kept
    | with_reducible apply henuaEvent_kept
    | with_reducible apply modHenua_kept
    | split

theorem signedCmd_kept {cf ff : Bool} {s0 : State} (code : Nat) (p : MgmtPath) (a : Option MgmtAuth) (params : List Nat) (paramsOk : Bool) (needsValid : Bool) (f : State → State) (s : State) (h0 : ∀ (y0 : State), Kept cf ff s0 y0 → Kept cf ff s0 (f y0)) (h1 : Kept cf ff s0 s) :
    ResKept cf ff s0 (signedCmd code p a params paramsOk needsValid f s) := by
  unfold signedCmd
  repeat' first
    | with_reducible assumption
    | with_reducible apply h0
    | with_reducible apply onHenua_kept
    | with_reducible apply answer_kept
    | with_reducible apply refuseSigned_kept
    | with_reducible apply acceptSeq_kept
    | split
    | intro _

theorem execGetStatus_kept {cf ff : Bool} {s0 : State} (_p : MgmtPath) (s : State) (h0 : Kept cf ff s0 s) :
    ResKept cf ff s0 (execGetStatus _p s) := by
  unfold execGetStatus
  repeat' first
    | with_reducible assumption
    | with_reducible apply onHenua_kept
    | with_reducible apply answer_kept

theorem execReadReg_kept {cf ff : Bool} {s0 : State} (_p : MgmtPath) (off : Nat) (count : Nat) (s : State) (h0 : Kept cf ff s0 s) :
    ResKept cf ff s0 (execReadReg _p off count s) := by
  unfold execReadReg
  repeat' first
    | with_reducible assumption
    | with_reducible apply onHenua_kept
    | with_reducible apply readMgmt_kept
    | with_reducible apply answer_kept
    | split
    | intro _

theorem writeMgmt_kept {cf ff : Bool} {s0 : State} (off : Nat) (v : Nat) (s : State) (h0 : Kept cf ff s0 s) :
    Kept cf ff s0 (writeMgmt off v s) := by
  unfold writeMgmt
  repeat' first
    | with_reducible assumption
    | with_reducible apply modHenua_kept
    | with_reducible apply setPowerLimit_kept
    | split

theorem execWriteReg_kept {cf ff : Bool} {s0 : State} (p : MgmtPath) (a : Option MgmtAuth) (off : Nat) (value : W32) (s : State) (h0 : Kept cf ff s0 s) :
    ResKept cf ff s0 (execWriteReg p a off value s) := by
  unfold execWriteReg
  repeat' first
    | with_reducible assumption
    | with_reducible apply signedCmd_kept
    | with_reducible apply answer_kept
    | with_reducible apply writeMgmt_kept
    | intro _

theorem execEventRead_kept {cf ff : Bool} {s0 : State} (_p : MgmtPath) (first : Nat) (max : Nat) (s : State) (h0 : Kept cf ff s0 s) :
    ResKept cf ff s0 (execEventRead _p first max s) := by
  unfold execEventRead
  repeat' first
    | with_reducible assumption
    | with_reducible apply onHenua_kept
    | with_reducible apply answer_kept
    | with_reducible apply modHenua_kept
    | split
    | intro _

theorem execFaultHistoryRead_kept {cf ff : Bool} {s0 : State} (_p : MgmtPath) (off : Nat) (len : Nat) (s : State) (h0 : Kept cf ff s0 s) :
    ResKept cf ff s0 (execFaultHistoryRead _p off len s) := by
  unfold execFaultHistoryRead
  repeat' first
    | with_reducible assumption
    | with_reducible apply onHenua_kept
    | with_reducible apply answer_kept
    | intro _

theorem execIdentityGet_kept {cf ff : Bool} {s0 : State} (_p : MgmtPath) (s : State) (h0 : Kept cf ff s0 s) :
    ResKept cf ff s0 (execIdentityGet _p s) := by
  unfold execIdentityGet
  repeat' first
    | with_reducible assumption
    | with_reducible apply onHenua_kept
    | with_reducible apply answer_kept

theorem execHenuaAttest_kept {cf ff : Bool} {s0 : State} (_p : MgmtPath) (nonce : List Byte) (tenant : Nat) (s : State) (h0 : Kept cf ff s0 s) :
    ResKept cf ff s0 (execHenuaAttest _p nonce tenant s) := by
  unfold execHenuaAttest
  repeat' first
    | with_reducible assumption
    | with_reducible apply onHenua_kept
    | with_reducible apply answer_kept
    | split
    | intro _

theorem execHenuaCounterPeek_kept {cf ff : Bool} {s0 : State} (_p : MgmtPath) (tenant : Nat) (ctr : Nat) (s : State) (h0 : Kept cf ff s0 s) :
    ResKept cf ff s0 (execHenuaCounterPeek _p tenant ctr s) := by
  unfold execHenuaCounterPeek
  repeat' first
    | with_reducible assumption
    | with_reducible apply onHenua_kept
    | with_reducible apply answer_kept
    | with_reducible apply readCtr_kept
    | split
    | intro _

theorem forgetUnit_kept {cf ff : Bool} {s0 : State} (x : UnitSum) (s : State) (h0 : Kept cf ff s0 s) :
    Kept cf ff s0 (forgetUnit x s) := by
  unfold forgetUnit
  repeat' first
    | with_reducible assumption
    | with_reducible apply capChange_kept
    | with_reducible apply resumeUnit_kept
    | exact fun _ => rfl
    | exact suspectCap_gen _
    | split

theorem execFaultClear_kept {cf ff : Bool} {s0 : State} (p : MgmtPath) (a : Option MgmtAuth) (cls : Nat) (unit : Nat) (s : State) (h0 : Kept cf ff s0 s) :
    ResKept cf ff s0 (execFaultClear p a cls unit s) := by
  unfold execFaultClear
  repeat' first
    | with_reducible assumption
    | with_reducible apply signedCmd_kept
    | with_reducible apply answer_kept
    | with_reducible apply henuaEvent_kept
    | with_reducible apply forEach_kept
    | with_reducible apply forgetUnit_kept
    | intro _
    | dsimp only
    | (with_reducible refine Kept.mk' ?_ rfl; with_reducible assumption)

theorem execHenuaPowerState_kept {cf ff : Bool} {s0 : State} (p : MgmtPath) (a : Option MgmtAuth) (st : Nat) (s : State) (h0 : Kept cf ff s0 s) :
    ResKept cf ff s0 (execHenuaPowerState p a st s) := by
  unfold execHenuaPowerState
  repeat' first
    | with_reducible assumption
    | with_reducible apply signedCmd_kept
    | with_reducible apply ResKept.next
    | intro _
    | dsimp only
    | (with_reducible refine Kept.mk' ?_ rfl; with_reducible assumption)

theorem execHenuaCounterPoke_kept {cf ff : Bool} {s0 : State} (p : MgmtPath) (a : Option MgmtAuth) (tenant : Nat) (ctr : Nat) (value : Nat) (s : State) (h0 : Kept cf ff s0 s) :
    ResKept cf ff s0 (execHenuaCounterPoke p a tenant ctr value s) := by
  unfold execHenuaCounterPoke
  repeat' first
    | with_reducible assumption
    | with_reducible apply signedCmd_kept
    | with_reducible apply answer_kept
    | with_reducible apply handSet_kept
    | with_reducible apply schedule_kept
    | split
    | intro _

theorem putKey_kept {cf : Bool} {s0 : State} (k : Nat) (g : KeySlot → KeySlot) (s : State) (h0 : Kept cf false s0 s) : Kept cf false s0 (putKey k g s) :=
  h0.trans ⟨rfl, nofun, fun _ => ⟨rfl, rfl⟩, id, id, id⟩

theorem execOwnerKeyProgram_kept {cf : Bool} {s0 : State} (p : MgmtPath) (slot : Nat) (hash : List Byte) (s : State) (h0 : Kept cf false s0 s) :
    ResKept cf false s0 (execOwnerKeyProgram p slot hash s) := by
  unfold execOwnerKeyProgram
  repeat' first
    | with_reducible assumption
    | with_reducible apply onHenua_kept
    | with_reducible apply answer_kept
    | with_reducible apply henuaEvent_kept
    | with_reducible apply putKey_kept
    | split
    | intro _

theorem execKeyRevoke_kept {cf : Bool} {s0 : State} (p : MgmtPath) (a : Option MgmtAuth) (slot : Nat) (s : State) (h0 : Kept cf false s0 s) :
    ResKept cf false s0 (execKeyRevoke p a slot s) := by
  unfold execKeyRevoke
  repeat' first
    | with_reducible assumption
    | with_reducible apply signedCmd_kept
    | with_reducible apply answer_kept
    | with_reducible apply henuaEvent_kept
    | with_reducible apply putKey_kept
    | split
    | intro _

theorem execRollbackCommit_kept {cf : Bool} {s0 : State} (p : MgmtPath) (a : Option MgmtAuth) (s : State) (h0 : Kept cf false s0 s) :
    ResKept cf false s0 (execRollbackCommit p a s) := by
  unfold execRollbackCommit
  refine signedCmd_kept _ _ _ _ _ _ _ _ (fun t ht => ?_) h0
  dsimp only
  split
  · exact answer_kept _ _ _ _ (henuaEvent_kept _ _ _ _ (ht.trans ⟨rfl, nofun, fun _ => ⟨rfl, rfl⟩, id, id, id⟩))
  · exact answer_kept _ _ _ _ ht

theorem execMgmtNetConfig_kept {cf ff : Bool} {s0 : State} (p : MgmtPath) (a : Option MgmtAuth) (record : List Byte) (s : State) (h0 : Kept cf ff s0 s) :
    ResKept cf ff s0 (execMgmtNetConfig p a record s) := by
  unfold execMgmtNetConfig
  repeat' first
    | with_reducible assumption
    | with_reducible apply signedCmd_kept
    | with_reducible apply answer_kept
    | with_reducible apply modHenua_kept
    | intro _

theorem execPldmFirmwareUpdate_kept {cf ff : Bool} {s0 : State} (_p : MgmtPath) (image : List Byte) (s : State) (h0 : Kept cf ff s0 s) :
    ResKept cf ff s0 (execPldmFirmwareUpdate _p image s) := by
  unfold execPldmFirmwareUpdate
  repeat' first
    | with_reducible assumption
    | with_reducible apply onHenua_kept
    | with_reducible apply modHenua_kept
    | with_reducible apply answer_kept
    | split
    | intro _
    | dsimp only

end Sys2Proof.Machine
end

