-- ==== Sys2Proof/Laws/Data.lean ====
section
/-! SUPPORT. `DataOnly` for the operations that move data: what none of them touches. -/

namespace Sys2Proof.Machine

theorem DataOnly.refl (s : State) : DataOnly s s := rfl

theorem DataOnly.trans {s t u : State} (a : DataOnly s t) (b : DataOnly t u) : DataOnly s u := by
  unfold DataOnly at *
  rw [b, a]

/-- A record update that leaves the rest alone, found by unification. -/
theorem DataOnly.mk' {s0 s : State} {out : List Output} {fns : Tab Fn} {sharedPoison : Tab (List Nat)} {mem : Memories} {stks : Tab Stack} {far : Far} {hist : FaultHist} {henua : Henua} {freeCtr : Nat} (h : DataOnly s0 s) :
    DataOnly s0 ⟨s.pending, out, s.devTime, s.clockOn, s.cap, fns, s.tenants, s.seqs, s.cmds, s.nextOrder, s.halted, s.rrTenant, s.rrQueue, s.allocs, s.granules, sharedPoison, s.ctrs, mem, stks, s.held, s.fops, s.nextFop, s.sluiceQ, s.bundles, s.runs, s.tiles, s.adapters, s.margin, far, s.edgesDown, s.edgeTries, s.dpt, hist, s.test, s.pm, s.fuses, henua, s.board, s.era, freeCtr⟩ := h.trans rfl

/-- What a meaning answers as next state. -/
def ResDataOnly (s0 : State) (r : Res) : Prop := ∀ t, r = .next t → DataOnly s0 t

theorem ResDataOnly.next {s0 s : State} (h : DataOnly s0 s) : ResDataOnly s0 (.next s) := by
  intro t e; cases e; exact h

theorem ResDataOnly.fault {s0 : State} (f : Fault) : ResDataOnly s0 (.fault f) := by
  intro t e; cases e

theorem DataOnly.snd {α : Type} {s0 s : State} {a : α} {p : α × State} (e : p = (a, s)) (h : DataOnly s0 p.2) : DataOnly s0 s := by
  subst e; exact h

theorem DataOnly.opt {α : Type} {s0 s : State} {a : α} {o : Option (α × State)} (e : o = some (a, s)) (h : ∀ x, o = some x → DataOnly s0 x.2) :
    DataOnly s0 s := h _ e

theorem DataOnly.ident {s0 s : State} (h : DataOnly s0 s) : DataOnly s0 (id s) := h

theorem DataOnly.foldl {α : Type} {s0 : State} (f : State → α → State) (l : List α) (s : State) (h : DataOnly s0 s)
    (hf : ∀ s a, DataOnly s0 s → DataOnly s0 (f s a)) : DataOnly s0 (l.foldl f s) := by
  induction l generalizing s with
  | nil => exact h
  | cons a t ih => exact ih (f s a) (hf s a h)

/-! ### Machine/Ops.lean -/

theorem whenS_data {s0 : State} (c : Bool) (g : State → State) (s : State) (h0 : ∀ (y0 : State), DataOnly s0 y0 → DataOnly s0 (g y0)) (h1 : DataOnly s0 s) :
    DataOnly s0 (whenS c g s) := by
  unfold whenS
  repeat' first
    | with_reducible assumption
    | with_reducible apply h0
    | split

theorem modFn_data {s0 : State} (f : Nat) (g : Fn → Fn) (s : State) (h0 : DataOnly s0 s) :
    DataOnly s0 (modFn f g s) := by
  unfold modFn
  repeat' first
    | with_reducible assumption
    | dsimp only
    | (with_reducible refine DataOnly.mk' ?_; with_reducible assumption)

theorem modStk_data {s0 : State} (k : Nat) (g : Stack → Stack) (s : State) (h0 : DataOnly s0 s) :
    DataOnly s0 (modStk k g s) := by
  unfold modStk
  repeat' first
    | with_reducible assumption
    | dsimp only
    | (with_reducible refine DataOnly.mk' ?_; with_reducible assumption)

theorem modHenua_data {s0 : State} (g : Henua → Henua) (s : State) (h0 : DataOnly s0 s) :
    DataOnly s0 (modHenua g s) := by
  unfold modHenua
  repeat' first
    | with_reducible assumption
    | dsimp only
    | (with_reducible refine DataOnly.mk' ?_; with_reducible assumption)

theorem emit_data {s0 : State} (o : Output) (s : State) (h0 : DataOnly s0 s) :
    DataOnly s0 (emit o s) := by
  unfold emit
  repeat' first
    | with_reducible assumption
    | dsimp only
    | (with_reducible refine DataOnly.mk' ?_; with_reducible assumption)

theorem freshByte_data {s0 : State} (s : State) (h0 : DataOnly s0 s) :
    DataOnly s0 (freshByte s).2 := by
  unfold freshByte
  repeat' first
    | with_reducible assumption
    | dsimp only
    | (with_reducible refine DataOnly.mk' ?_; with_reducible assumption)

theorem henuaEvent_data {s0 : State} (cls : Nat) (severity : Nat) (payload : List Nat) (s : State) (h0 : DataOnly s0 s) :
    DataOnly s0 (henuaEvent cls severity payload s) := by
  unfold henuaEvent
  repeat' first
    | with_reducible assumption
    | with_reducible apply modHenua_data
    | with_reducible apply whenS_data
    | with_reducible apply emit_data
    | split

theorem sendMsix_data {s0 : State} (f : Nat) (v : Nat) (s : State) (h0 : DataOnly s0 s) :
    DataOnly s0 (sendMsix f v s) := by
  unfold sendMsix
  repeat' first
    | with_reducible assumption
    | with_reducible apply modFn_data
    | with_reducible apply emit_data
    | split
    | intro _
    | dsimp only

theorem vecEvent_data {s0 : State} (f : Nat) (v : Nat) (s : State) (h0 : DataOnly s0 s) :
    DataOnly s0 (vecEvent f v s) := by
  unfold vecEvent
  repeat' first
    | with_reducible assumption
    | with_reducible apply sendMsix_data
    | with_reducible apply modFn_data
    | split
    | intro _
    | dsimp only

theorem setCause_data {s0 : State} (f : Nat) (bit : Nat) (s : State) (h0 : DataOnly s0 s) :
    DataOnly s0 (setCause f bit s) := by
  unfold setCause
  repeat' first
    | with_reducible assumption
    | with_reducible apply whenS_data
    | with_reducible apply vecEvent_data
    | with_reducible apply modFn_data
    | split
    | intro _
    | dsimp only

theorem recordFault_data {s0 : State} (kind : Nat) (check : Nat) (u : UnitRef) (tenant : Nat) (detail : Nat) (bundle : List Byte) (s : State) (h0 : DataOnly s0 s) :
    DataOnly s0 (recordFault kind check u tenant detail bundle s) := by
  unfold recordFault
  repeat' first
    | with_reducible assumption
    | with_reducible apply henuaEvent_data
    | with_reducible apply modHenua_data
    | split
    | intro _
    | dsimp only
    | (with_reducible refine DataOnly.mk' ?_; with_reducible assumption)

/-! ### Machine/Mem.lean -/

/-- Folds that carry a mover beside a result. -/
theorem DataOnly.foldlA {α β : Type} {s0 : State} (f : β × Acc → α → β × Acc) (l : List α) (b : β × Acc) (h : DataOnly s0 b.2.s)
    (hf : ∀ b a, DataOnly s0 b.2.s → DataOnly s0 (f b a).2.s) : DataOnly s0 (l.foldl f b).2.s := by
  induction l generalizing b with
  | nil => exact h
  | cons a t ih => exact ih (f b a) (hf b a h)

theorem DataOnly.foldlS {α : Type} {s0 : State} (f : Acc → α → Acc) (l : List α) (b : Acc) (h : DataOnly s0 b.s)
    (hf : ∀ b a, DataOnly s0 b.s → DataOnly s0 (f b a).s) : DataOnly s0 (l.foldl f b).s := by
  induction l generalizing b with
  | nil => exact h
  | cons a t ih => exact ih (f b a) (hf b a h)

theorem DataOnly.sndA {α : Type} {s0 : State} {a : α} {b : Acc} {p : α × Acc} (e : p = (a, b)) (h : DataOnly s0 p.2.s) : DataOnly s0 b.s := by
  subst e; exact h

theorem DataOnly.sndB {α β : Type} {s0 : State} {a : α} {c : β} {b : Acc} {p : α × (β × Acc)} (e : p = (a, c, b)) (h : DataOnly s0 p.2.2.s) :
    DataOnly s0 b.s := by
  subst e; exact h

theorem hostStore_data {s0 : State} (addr : Nat) (bs : List Byte) (s : State) (h0 : DataOnly s0 s) :
    DataOnly s0 (hostStore addr bs s) := by
  unfold hostStore
  repeat' first
    | with_reducible assumption
    | dsimp only
    | (with_reducible refine DataOnly.mk' ?_; with_reducible assumption)

theorem hostWrite_data {s0 : State} (fn : Nat) (addr : Nat) (bs : List Byte) (s : State) (h0 : DataOnly s0 s) :
    DataOnly s0 (hostWrite fn addr bs s) := by
  unfold hostWrite
  repeat' first
    | with_reducible assumption
    | with_reducible apply emit_data
    | with_reducible apply hostStore_data
    | dsimp only

theorem hostFetch_data {s0 : State} (fn : Nat) (addr : Nat) (len : Nat) (s : State) (h0 : DataOnly s0 s) :
    DataOnly s0 (hostFetch fn addr len s) := by
  unfold hostFetch
  repeat' first
    | with_reducible assumption
    | with_reducible apply emit_data
    | dsimp only

theorem openRow_data {s0 : State} (blk : Nat) (s : State) (h0 : DataOnly s0 s) :
    DataOnly s0 (openRow blk s) := by
  unfold openRow
  repeat' first
    | with_reducible assumption
    | with_reducible apply modStk_data
    | intro _
    | dsimp only
    | (with_reducible refine DataOnly.mk' ?_
       first
       | with_reducible assumption
       | with_reducible apply modStk_data)

theorem countCe_data {s0 : State} (blk : Nat) (sym : Nat) (s : State) (h0 : DataOnly s0 s) :
    DataOnly s0 (countCe blk sym s) := by
  unfold countCe
  repeat' first
    | with_reducible assumption
    | with_reducible apply modStk_data
    | with_reducible apply whenS_data
    | with_reducible apply setCause_data
    | with_reducible apply henuaEvent_data
    | split
    | intro _

theorem countUe_data {s0 : State} (blk : Nat) (repaired : Bool) (s : State) (h0 : DataOnly s0 s) :
    DataOnly s0 (countUe blk repaired s) := by
  unfold countUe
  repeat' first
    | with_reducible assumption
    | with_reducible apply modStk_data
    | with_reducible apply whenS_data
    | with_reducible apply henuaEvent_data

theorem countPoison_data {s0 : State} (blk : Nat) (s : State) (h0 : DataOnly s0 s) :
    DataOnly s0 (countPoison blk s) := by
  unfold countPoison
  repeat' first
    | with_reducible assumption
    | with_reducible apply modStk_data

theorem storeBlk_data {s0 : State} (blk : Nat) (data : List Byte) (poison : Bool) (source : Nat) (s : State) (h0 : DataOnly s0 s) :
    DataOnly s0 (storeBlk blk data poison source s) := by
  unfold storeBlk
  repeat' first
    | with_reducible assumption
    | with_reducible apply modStk_data
    | with_reducible apply openRow_data
    | split
    | intro _
    | dsimp only
    | with_reducible refine DataOnly.snd (by assumption) ?_
    | with_reducible refine DataOnly.sndA (by assumption) ?_
    | with_reducible refine DataOnly.sndB (by assumption) ?_
    | (with_reducible refine DataOnly.mk' ?_
       first
       | with_reducible assumption
       | with_reducible apply modStk_data
       | with_reducible apply openRow_data
       | split
       | with_reducible refine DataOnly.snd (by assumption) ?_
       | with_reducible refine DataOnly.sndA (by assumption) ?_
       | with_reducible refine DataOnly.sndB (by assumption) ?_)

theorem mergeDrop_data {s0 : State} (blk : Nat) (s : State) (h0 : DataOnly s0 s) :
    DataOnly s0 (mergeDrop blk s) := by
  unfold mergeDrop
  repeat' first
    | with_reducible assumption
    | with_reducible apply modStk_data

theorem poisonSharedPage_data {s0 : State} (off : Nat) (s : State) (h0 : DataOnly s0 s) :
    DataOnly s0 (poisonSharedPage off s) := by
  unfold poisonSharedPage
  repeat' first
    | with_reducible assumption
    | with_reducible apply setCause_data
    | with_reducible apply henuaEvent_data
    | split
    | dsimp only
    | (with_reducible refine DataOnly.mk' ?_; with_reducible assumption)

theorem foundUe_data {s0 : State} (blk : Nat) (data : List Byte) (s : State) (h0 : DataOnly s0 s) :
    DataOnly s0 (foundUe blk data s).2 := by
  unfold foundUe
  repeat' first
    | with_reducible assumption
    | with_reducible apply countUe_data
    | with_reducible apply poisonSharedPage_data
    | with_reducible apply countCe_data
    | with_reducible apply storeBlk_data
    | with_reducible apply openRow_data
    | split
    | dsimp only
    | with_reducible refine DataOnly.snd (by assumption) ?_
    | with_reducible refine DataOnly.sndA (by assumption) ?_
    | with_reducible refine DataOnly.sndB (by assumption) ?_

theorem decodeBlk_data {s0 : State} (blk : Nat) (sB : State) (h0 : DataOnly s0 sB) :
    DataOnly s0 (decodeBlk blk sB).2 := by
  unfold decodeBlk
  repeat' first
    | with_reducible assumption
    | with_reducible apply openRow_data
    | with_reducible apply countCe_data
    | with_reducible apply countPoison_data
    | with_reducible apply foundUe_data
    | split
    | dsimp only
    | with_reducible refine DataOnly.snd (by assumption) ?_
    | with_reducible refine DataOnly.sndA (by assumption) ?_
    | with_reducible refine DataOnly.sndB (by assumption) ?_

theorem modifyBlk_data {s0 : State} (blk : Nat) (data : List Byte) (mask : Nat) (poison : Bool) (source : Nat) (s : State) (h0 : DataOnly s0 s) :
    DataOnly s0 (modifyBlk blk data mask poison source s) := by
  unfold modifyBlk
  repeat' first
    | with_reducible assumption
    | with_reducible apply decodeBlk_data
    | with_reducible apply storeBlk_data
    | split
    | dsimp only

theorem flushEntry_data {s0 : State} (e : MergeEntry) (s : State) (h0 : DataOnly s0 s) :
    DataOnly s0 (flushEntry e s) := by
  unfold flushEntry
  repeat' first
    | with_reducible assumption
    | with_reducible apply mergeDrop_data
    | with_reducible apply storeBlk_data
    | with_reducible apply modifyBlk_data
    | with_reducible apply modStk_data
    | split
    | intro _
    | dsimp only
    | (with_reducible refine DataOnly.mk' ?_
       first
       | with_reducible assumption
       | with_reducible apply mergeDrop_data
       | with_reducible apply storeBlk_data
       | with_reducible apply modifyBlk_data
       | with_reducible apply modStk_data
       | split)

theorem flushBlk_data {s0 : State} (blk : Nat) (s : State) (h0 : DataOnly s0 s) :
    DataOnly s0 (flushBlk blk s) := by
  unfold flushBlk
  repeat' first
    | with_reducible assumption
    | with_reducible apply flushEntry_data
    | split

theorem cancelBacks_data {s0 : State} (blk : Nat) (s : State) (h0 : DataOnly s0 s) :
    DataOnly s0 (cancelBacks blk s) := by
  unfold cancelBacks
  repeat' first
    | with_reducible assumption
    | with_reducible apply modStk_data
    | intro _
    | dsimp only
    | (with_reducible refine DataOnly.mk' ?_
       first
       | with_reducible assumption
       | with_reducible apply modStk_data)

theorem mergeWrite_data {s0 : State} (blk : Nat) (data : List Byte) (mask : Nat) (source : Nat) (sB : State) (h0 : DataOnly s0 sB) :
    DataOnly s0 (mergeWrite blk data mask source sB) := by
  unfold mergeWrite
  repeat' first
    | with_reducible assumption
    | with_reducible apply cancelBacks_data
    | with_reducible apply flushEntry_data
    | with_reducible apply modStk_data
    | split
    | intro _
    | dsimp only
    | with_reducible refine DataOnly.snd (by assumption) ?_
    | with_reducible refine DataOnly.sndA (by assumption) ?_
    | with_reducible refine DataOnly.sndB (by assumption) ?_
    | (with_reducible refine DataOnly.mk' ?_
       first
       | with_reducible assumption
       | with_reducible apply cancelBacks_data
       | with_reducible apply flushEntry_data
       | with_reducible apply modStk_data
       | split
       | with_reducible refine DataOnly.snd (by assumption) ?_
       | with_reducible refine DataOnly.sndA (by assumption) ?_
       | with_reducible refine DataOnly.sndB (by assumption) ?_)

theorem readStack_data {s0 : State} (blk : Nat) (s : State) (h0 : DataOnly s0 s) :
    DataOnly s0 (readStack blk s).2 := by
  unfold readStack
  repeat' first
    | with_reducible assumption
    | with_reducible apply decodeBlk_data
    | with_reducible apply flushBlk_data
    | split

theorem writeStack_data {s0 : State} (blk : Nat) (data : List Byte) (mask : Nat) (poison : Bool) (source : Nat) (s : State) (h0 : DataOnly s0 s) :
    DataOnly s0 (writeStack blk data mask poison source s) := by
  unfold writeStack
  repeat' first
    | with_reducible assumption
    | with_reducible apply storeBlk_data
    | with_reducible apply mergeDrop_data
    | with_reducible apply modifyBlk_data
    | with_reducible apply flushBlk_data
    | with_reducible apply mergeWrite_data
    | split
    | dsimp only

theorem furrowRead_data {s0 : State} (blk : Nat) (s : State) (h0 : DataOnly s0 s) :
    DataOnly s0 (furrowRead blk s).2 := by
  unfold furrowRead
  repeat' first
    | with_reducible assumption
    | with_reducible apply flushBlk_data
    | with_reducible apply readStack_data
    | with_reducible apply storeBlk_data
    | split
    | dsimp only

theorem setZ_data {s0 : State} (space : Nat) (m : Mem) (p : List Nat) (s : State) (h0 : DataOnly s0 s) :
    DataOnly s0 (setZ space m p s) := by
  unfold setZ
  repeat' first
    | with_reducible assumption
    | split
    | dsimp only
    | with_reducible refine DataOnly.snd (by assumption) ?_
    | with_reducible refine DataOnly.sndA (by assumption) ?_
    | with_reducible refine DataOnly.sndB (by assumption) ?_
    | (with_reducible refine DataOnly.mk' ?_
       first
       | with_reducible assumption
       | split
       | with_reducible refine DataOnly.snd (by assumption) ?_
       | with_reducible refine DataOnly.sndA (by assumption) ?_
       | with_reducible refine DataOnly.sndB (by assumption) ?_)

theorem readBlk_data {s0 : State} (source : Nat) (space : Nat) (inst : Nat) (off : Nat) (s : State) (h0 : DataOnly s0 s) :
    DataOnly s0 (readBlk source space inst off s).2 := by
  unfold readBlk
  repeat' first
    | with_reducible assumption
    | with_reducible apply furrowRead_data
    | with_reducible apply readStack_data
    | split
    | intro _
    | dsimp only
    | with_reducible refine DataOnly.snd (by assumption) ?_
    | with_reducible refine DataOnly.sndA (by assumption) ?_
    | with_reducible refine DataOnly.sndB (by assumption) ?_
    | (with_reducible refine DataOnly.mk' ?_
       first
       | with_reducible assumption
       | with_reducible apply furrowRead_data
       | with_reducible apply readStack_data
       | split
       | with_reducible refine DataOnly.snd (by assumption) ?_
       | with_reducible refine DataOnly.sndA (by assumption) ?_
       | with_reducible refine DataOnly.sndB (by assumption) ?_)

theorem farWrite_data {s0 : State} (off : Nat) (bs : List Byte) (p : List Nat) (s : State) (h0 : DataOnly s0 s) :
    DataOnly s0 (farWrite off bs p s) := by
  unfold farWrite
  repeat' first
    | with_reducible assumption
    | dsimp only
    | (with_reducible refine DataOnly.mk' ?_; with_reducible assumption)

theorem hostBlk_data {s0 : State} (fn : Nat) (off : Nat) (data : List Byte) (mask : Nat) (poison : Bool) (s : State) (h0 : DataOnly s0 s) :
    DataOnly s0 (hostBlk fn off data mask poison s) := by
  unfold hostBlk
  repeat' first
    | with_reducible assumption
    | with_reducible apply hostWrite_data
    | with_reducible apply emit_data
    | split
    | dsimp only

theorem writeBlk_data {s0 : State} (fn : Nat) (space : Nat) (inst : Nat) (off : Nat) (data : List Byte) (mask : Nat) (poison : Bool) (source : Nat) (s : State) (h0 : DataOnly s0 s) :
    DataOnly s0 (writeBlk fn space inst off data mask poison source s) := by
  unfold writeBlk
  repeat' first
    | with_reducible assumption
    | with_reducible apply hostBlk_data
    | with_reducible apply farWrite_data
    | with_reducible apply writeStack_data
    | with_reducible apply setZ_data
    | split
    | intro _
    | dsimp only
    | with_reducible refine DataOnly.snd (by assumption) ?_
    | with_reducible refine DataOnly.sndA (by assumption) ?_
    | with_reducible refine DataOnly.sndB (by assumption) ?_

theorem freeBlock_data {s0 : State} (s : State) (h0 : DataOnly s0 s) :
    DataOnly s0 (freeBlock s).2 := by
  unfold freeBlock
  repeat' first
    | with_reducible assumption
    | intro _
    | dsimp only
    | (with_reducible refine DataOnly.mk' ?_; with_reducible assumption)

theorem readRaced_data {s0 : State} (source : Nat) (space : Nat) (inst : Nat) (off : Nat) (s : State) (h0 : DataOnly s0 s) :
    DataOnly s0 (readRaced source space inst off s).2 := by
  unfold readRaced
  repeat' first
    | with_reducible assumption
    | with_reducible apply readBlk_data
    | with_reducible apply freeBlock_data
    | split
    | dsimp only
    | (with_reducible refine DataOnly.mk' ?_
       first
       | with_reducible assumption
       | with_reducible apply readBlk_data
       | with_reducible apply freeBlock_data
       | split)

theorem addOut_data {s0 : State} (st : Nat) (c : Bool) (a : Acc) (h0 : DataOnly s0 a.s) :
    DataOnly s0 (addOut st c a).s := by
  unfold addOut
  repeat' first
    | with_reducible assumption
    | split

theorem rdBlk_data {s0 : State} (space : Nat) (inst : Nat) (off : Nat) (a : Acc) (h0 : DataOnly s0 a.s) :
    DataOnly s0 (rdBlk space inst off a).2.s := by
  unfold rdBlk
  repeat' first
    | with_reducible assumption
    | with_reducible apply readRaced_data
    | with_reducible apply hostFetch_data
    | with_reducible apply addOut_data
    | split
    | dsimp only
    | with_reducible refine DataOnly.snd (by assumption) ?_
    | with_reducible refine DataOnly.sndA (by assumption) ?_
    | with_reducible refine DataOnly.sndB (by assumption) ?_
    | (with_reducible refine DataOnly.mk' ?_
       first
       | with_reducible assumption
       | with_reducible apply readRaced_data
       | with_reducible apply hostFetch_data
       | with_reducible apply addOut_data
       | split
       | with_reducible refine DataOnly.snd (by assumption) ?_
       | with_reducible refine DataOnly.sndA (by assumption) ?_
       | with_reducible refine DataOnly.sndB (by assumption) ?_)

theorem putBlk_data {s0 : State} (space : Nat) (inst : Nat) (off : Nat) (data : List Byte) (mask : Nat) (poison : Bool) (a : Acc) (h0 : DataOnly s0 a.s) :
    DataOnly s0 (putBlk space inst off data mask poison a).s := by
  unfold putBlk
  repeat' first
    | with_reducible assumption
    | with_reducible apply addOut_data
    | with_reducible apply writeBlk_data
    | dsimp only
    | (with_reducible refine DataOnly.mk' ?_
       first
       | with_reducible assumption
       | with_reducible apply addOut_data
       | with_reducible apply writeBlk_data)

theorem Acc.stop_data {s0 : State} (st : Nat) (a : Acc) (h0 : DataOnly s0 a.s) :
    DataOnly s0 (Acc.stop st a).s := by
  unfold Acc.stop
  repeat' first
    | with_reducible assumption
    | with_reducible apply addOut_data
    | dsimp only
    | (with_reducible refine DataOnly.mk' ?_
       first
       | with_reducible assumption
       | with_reducible apply addOut_data)

theorem wrBlk_data {s0 : State} (space : Nat) (inst : Nat) (off : Nat) (data : List Byte) (mask : Nat) (poison : Bool) (a : Acc) (h0 : DataOnly s0 a.s) :
    DataOnly s0 (wrBlk space inst off data mask poison a).s := by
  unfold wrBlk
  repeat' first
    | with_reducible assumption
    | with_reducible apply Acc.stop_data
    | with_reducible apply addOut_data
    | with_reducible apply rdBlk_data
    | with_reducible apply putBlk_data
    | split
    | dsimp only
    | (with_reducible refine DataOnly.mk' ?_
       first
       | with_reducible assumption
       | with_reducible apply Acc.stop_data
       | with_reducible apply addOut_data
       | with_reducible apply rdBlk_data
       | with_reducible apply putBlk_data
       | split)

theorem rdBytesGo_data {s0 : State} (space inst fuel off len : Nat) (a : Acc) (h0 : DataOnly s0 a.s) :
    DataOnly s0 (rdBytesGo space inst fuel off len a).2.s := by
  induction fuel generalizing off len a with
  | zero => exact h0
  | succ n ih =>
    unfold rdBytesGo
    split
    · exact h0
    · exact ih _ _ _ (rdBlk_data _ _ _ _ h0)

theorem rdBytes_data {s0 : State} (space : Nat) (inst : Nat) (off : Nat) (len : Nat) (a : Acc) (h0 : DataOnly s0 a.s) :
    DataOnly s0 (rdBytes space inst off len a).2.s := by
  unfold rdBytes
  repeat' first
    | with_reducible assumption
    | with_reducible apply rdBytesGo_data

theorem wrBytesGo_data {s0 : State} (space inst fuel off : Nat) (bs : List Byte) (p : Bool) (a : Acc) (h0 : DataOnly s0 a.s) :
    DataOnly s0 (wrBytesGo space inst fuel off bs p a).s := by
  induction fuel generalizing off bs a with
  | zero => exact h0
  | succ n ih =>
    unfold wrBytesGo
    split
    · exact h0
    · exact ih _ _ _ (wrBlk_data _ _ _ _ _ _ _ h0)

theorem wrBytes_data {s0 : State} (space : Nat) (inst : Nat) (off : Nat) (bs : List Byte) (poison : Bool) (a : Acc) (h0 : DataOnly s0 a.s) :
    DataOnly s0 (wrBytes space inst off bs poison a).s := by
  unfold wrBytes
  repeat' first
    | with_reducible assumption
    | with_reducible apply wrBytesGo_data

theorem copyRunGo_data {s0 : State} (sp si dp di fuel src dst len : Nat) (a : Acc) (h0 : DataOnly s0 a.s) :
    DataOnly s0 (copyRunGo sp si dp di fuel src dst len a).s := by
  induction fuel generalizing src dst len a with
  | zero => exact h0
  | succ n ih =>
    unfold copyRunGo
    split
    · exact h0
    · exact ih _ _ _ _ (wrBytes_data _ _ _ _ _ _ (rdBytes_data _ _ _ _ _ h0))

theorem copyRun_data {s0 : State} (sp : Nat) (si : Nat) (src : Nat) (dp : Nat) (di : Nat) (dst : Nat) (len : Nat) (a : Acc) (h0 : DataOnly s0 a.s) :
    DataOnly s0 (copyRun sp si src dp di dst len a).s := by
  unfold copyRun
  repeat' first
    | with_reducible assumption
    | with_reducible apply copyRunGo_data

/-! ### Machine/Operands.lean -/

theorem rdEl_data {s0 : State} (d : Desc) (n : Nat) (a : Acc) (h0 : DataOnly s0 a.s) :
    DataOnly s0 (rdEl d n a).2.s := by
  unfold rdEl
  repeat' first
    | with_reducible assumption
    | with_reducible apply rdBytes_data

theorem rdEls_data {s0 : State} (d : Desc) (x0 : Nat) (x1 : Nat) (x2 : Acc) (h0 : DataOnly s0 x2.s) :
    DataOnly s0 (rdEls d x0 x1 x2).2.s := by
  fun_induction rdEls d x0 x1 x2
  all_goals try subst_vars
  all_goals
    repeat' first
      | with_reducible assumption
      | with_reducible apply rdEl_data
      | split
      | dsimp only
      | with_reducible refine DataOnly.snd (by assumption) ?_
      | with_reducible refine DataOnly.sndA (by assumption) ?_
      | with_reducible refine DataOnly.sndB (by assumption) ?_
      | with_reducible apply_assumption

theorem slotVals_data {s0 : State} (d : Desc) (f : SlotFn) (l : List (Option Nat)) (a : Acc)
    (h0 : ∀ (n : Nat) (b : Acc), DataOnly s0 b.s → DataOnly s0 (f n b).2.s) (h1 : DataOnly s0 a.s) : DataOnly s0 (slotVals d f l a).2.s := by
  induction l generalizing a with
  | nil => exact h1
  | cons o t ih =>
    cases o with
    | none => exact ih _ h1
    | some n =>
      unfold slotVals
      dsimp only
      split
      · exact ih _ (h0 _ _ h1)
      · refine ih _ ?_
        split
        · exact rdEl_data _ _ _ (h0 _ _ h1)
        · exact h0 _ _ h1

theorem wrPiece_data {s0 : State} (d : Desc) (f : SlotFn) (l : Line) (a : Acc) (h0 : ∀ (y0 : Nat) (y1 : Acc), DataOnly s0 y1.s → DataOnly s0 (f y0 y1).2.s) (h1 : DataOnly s0 a.s) :
    DataOnly s0 (wrPiece d f l a).s := by
  unfold wrPiece
  repeat' first
    | with_reducible assumption
    | with_reducible apply h0
    | with_reducible apply slotVals_data
    | with_reducible apply wrBlk_data
    | split
    | intro _
    | dsimp only

theorem wrPieces_data {s0 : State} (d : Desc) (f : SlotFn) (x0 : List Line) (x1 : Acc) (h0 : ∀ (y0 : Nat) (y1 : Acc), DataOnly s0 y1.s → DataOnly s0 (f y0 y1).2.s) (h1 : DataOnly s0 x1.s) :
    DataOnly s0 (wrPieces d f x0 x1).s := by
  fun_induction wrPieces d f x0 x1
  all_goals try subst_vars
  all_goals
    repeat' first
      | with_reducible assumption
      | with_reducible apply h0
      | with_reducible apply wrPiece_data
      | split
      | dsimp only
      | with_reducible refine DataOnly.snd (by assumption) ?_
      | with_reducible refine DataOnly.sndA (by assumption) ?_
      | with_reducible refine DataOnly.sndB (by assumption) ?_
      | with_reducible apply_assumption

theorem wrEl_data {s0 : State} (d : Desc) (n : Nat) (v : Nat) (poison : Bool) (a : Acc) (h0 : DataOnly s0 a.s) :
    DataOnly s0 (wrEl d n v poison a).s := by
  unfold wrEl
  repeat' first
    | with_reducible assumption
    | with_reducible apply wrPiece_data
    | split
    | intro _
    | dsimp only

theorem freshVal_data {s0 : State} (x0 : Nat) (x1 : State) (h0 : DataOnly s0 x1) :
    DataOnly s0 (freshVal x0 x1).2 := by
  fun_induction freshVal x0 x1
  all_goals try subst_vars
  all_goals
    repeat' first
      | with_reducible assumption
      | with_reducible apply freshByte_data
      | split
      | dsimp only
      | with_reducible refine DataOnly.snd (by assumption) ?_
      | with_reducible refine DataOnly.sndA (by assumption) ?_
      | with_reducible refine DataOnly.sndB (by assumption) ?_
      | with_reducible apply_assumption

/-! ### Machine/MemCmds.lean -/

theorem freeSlots_data {s0 : State} (d : Desc) (n : Nat) (a : Acc) (h0 : DataOnly s0 a.s) : DataOnly s0 (freeSlots d n a).2.s :=
  freshVal_data _ _ h0

theorem freeEnd_data {s0 : State} (ends : List Nat) (a : Acc) (h0 : DataOnly s0 a.s) :
    DataOnly s0 (freeEnd ends a).s := by
  unfold freeEnd
  repeat' first
    | with_reducible assumption
    | dsimp only
    | (with_reducible refine DataOnly.mk' ?_; with_reducible assumption)

theorem transposeInPlace_data {s0 : State} (d : Desc) (a : Acc) (h0 : DataOnly s0 a.s) :
    DataOnly s0 (transposeInPlace d a).2.s := by
  unfold transposeInPlace
  repeat' first
    | with_reducible assumption
    | with_reducible apply rdEls_data
    | with_reducible apply wrPieces_data
    | intro _

theorem indexList_data {s0 : State} (ix : Desc) (count : Nat) (a : Acc) (h0 : DataOnly s0 a.s) :
    DataOnly s0 (indexList ix count a).2.s := by
  unfold indexList
  repeat' first
    | with_reducible assumption
    | with_reducible apply rdEls_data

/-! ### Machine/FurrowOps.lean -/

theorem patternSlots_data {s0 : State} (p4 p5 : Nat) (d : Desc) (n : Nat) (a : Acc) (h0 : DataOnly s0 a.s) :
    DataOnly s0 (patternSlots p4 p5 d n a).2.s := h0

theorem rdList_data {s0 : State} (d : Desc) (x0 : List Nat) (x1 : Acc) (h0 : DataOnly s0 x1.s) :
    DataOnly s0 (rdList d x0 x1).2.s := by
  fun_induction rdList d x0 x1
  all_goals try subst_vars
  all_goals
    repeat' first
      | with_reducible assumption
      | with_reducible apply rdEl_data
      | split
      | dsimp only
      | with_reducible refine DataOnly.snd (by assumption) ?_
      | with_reducible refine DataOnly.sndA (by assumption) ?_
      | with_reducible refine DataOnly.sndB (by assumption) ?_
      | with_reducible apply_assumption

theorem wrFirst_data {s0 : State} (d : Desc) (n : Nat) (f : Nat → Acc → PV × Acc) (a : Acc) (h0 : ∀ (y0 : Nat) (y1 : Acc), DataOnly s0 y1.s → DataOnly s0 (f y0 y1).2.s) (h1 : DataOnly s0 a.s) :
    DataOnly s0 (wrFirst d n f a).s := by
  unfold wrFirst
  repeat' first
    | with_reducible assumption
    | with_reducible apply h0
    | with_reducible apply wrPieces_data
    | split
    | intro _

theorem wrRows_data {s0 : State} (bad : Bool) (d : Desc) (f : Nat → Acc → PV × Acc) (a : Acc) (h0 : ∀ (y0 : Nat) (y1 : Acc), DataOnly s0 y1.s → DataOnly s0 (f y0 y1).2.s) (h1 : DataOnly s0 a.s) :
    DataOnly s0 (wrRows bad d f a).s := by
  unfold wrRows
  repeat' first
    | with_reducible assumption
    | with_reducible apply h0
    | with_reducible apply freeEnd_data
    | with_reducible apply wrPieces_data
    | with_reducible apply freeSlots_data
    | split
    | intro _
    | dsimp only

theorem fopCopyGo_data {s0 : State} (p : FopParams) (a : Acc) (h0 : DataOnly s0 a.s) :
    DataOnly s0 (fopCopyGo p a).s := by
  unfold fopCopyGo
  repeat' first
    | with_reducible assumption
    | with_reducible apply wrRows_data
    | with_reducible apply rdEl_data
    | intro _
    | dsimp only

theorem fopFillGo_data {s0 : State} (p : FopParams) (a : Acc) (h0 : DataOnly s0 a.s) :
    DataOnly s0 (fopFillGo p a).s := by
  unfold fopFillGo
  repeat' first
    | with_reducible assumption
    | with_reducible apply wrPieces_data
    | with_reducible apply patternSlots_data
    | dsimp only

theorem fopLogicGo_data {s0 : State} (p : FopParams) (a : Acc) (h0 : DataOnly s0 a.s) :
    DataOnly s0 (fopLogicGo p a).s := by
  unfold fopLogicGo
  repeat' first
    | with_reducible assumption
    | with_reducible apply wrRows_data
    | with_reducible apply rdEl_data
    | split
    | intro _

theorem fopDotGo_data {s0 : State} (p : FopParams) (a : Acc) (h0 : DataOnly s0 a.s) :
    DataOnly s0 (fopDotGo p a).s := by
  unfold fopDotGo
  repeat' first
    | with_reducible assumption
    | with_reducible apply wrFirst_data
    | with_reducible apply rdEls_data
    | intro _

theorem rowScaleOf_data {s0 : State} (p : FopParams) (row : Nat) (a : Acc) (h0 : DataOnly s0 a.s) :
    DataOnly s0 (rowScaleOf p row a).2.s := by
  unfold rowScaleOf
  repeat' first
    | with_reducible assumption
    | with_reducible apply rdEl_data
    | split

theorem fopAxpyGo_data {s0 : State} (p : FopParams) (a : Acc) (h0 : DataOnly s0 a.s) :
    DataOnly s0 (fopAxpyGo p a).s := by
  unfold fopAxpyGo
  repeat' first
    | with_reducible assumption
    | with_reducible apply wrRows_data
    | with_reducible apply rowScaleOf_data
    | with_reducible apply rdEl_data
    | intro _
    | dsimp only

theorem fopAxpyReduceGo_data {s0 : State} (p : FopParams) (a : Acc) (h0 : DataOnly s0 a.s) :
    DataOnly s0 (fopAxpyReduceGo p a).s := by
  unfold fopAxpyReduceGo
  repeat' first
    | with_reducible assumption
    | with_reducible apply rowScaleOf_data
    | with_reducible apply wrFirst_data
    | with_reducible apply rdList_data
    | split
    | with_reducible refine DataOnly.foldl _ _ _ ?_ ?_
    | intro _
    | dsimp only
    | with_reducible refine DataOnly.foldlA _ _ _ ?_ ?_
    | with_reducible refine DataOnly.foldlS _ _ _ ?_ ?_

theorem gatherGo_data {s0 : State} (p : FopParams) (outs : Nat) (bad : List Nat) (span : Nat → Acc → (List Nat × Bool) × Acc) (a : Acc) (h0 : ∀ (y0 : Nat) (y1 : Acc), DataOnly s0 y1.s → DataOnly s0 (span y0 y1).2.s) (h1 : DataOnly s0 a.s) :
    DataOnly s0 (gatherGo p outs bad span a).s := by
  unfold gatherGo
  repeat' first
    | with_reducible assumption
    | with_reducible apply h0
    | with_reducible apply wrFirst_data
    | with_reducible apply freshVal_data
    | with_reducible apply rdList_data
    | split
    | intro _
    | dsimp only
    | (with_reducible refine DataOnly.mk' ?_
       first
       | with_reducible assumption
       | with_reducible apply h0
       | with_reducible apply wrFirst_data
       | with_reducible apply freshVal_data
       | with_reducible apply rdList_data
       | split)

theorem fopGatherGo_data {s0 : State} (p : FopParams) (a : Acc) (h0 : DataOnly s0 a.s) :
    DataOnly s0 (fopGatherGo p a).s := by
  unfold fopGatherGo
  repeat' first
    | with_reducible assumption
    | with_reducible apply gatherGo_data
    | intro _
    | dsimp only

theorem fopSegmentGo_data {s0 : State} (p : FopParams) (a : Acc) (h0 : DataOnly s0 a.s) :
    DataOnly s0 (fopSegmentGo p a).s := by
  unfold fopSegmentGo
  repeat' first
    | with_reducible assumption
    | with_reducible apply rdEls_data
    | with_reducible apply freeEnd_data
    | with_reducible apply gatherGo_data
    | split
    | intro _
    | dsimp only

theorem atomicGo_data {s0 : State} (p : FopParams) (x0 : Nat) (x1 : Nat) (x2 : Nat × Acc) (h0 : DataOnly s0 x2.2.s) :
    DataOnly s0 (atomicGo p x0 x1 x2).2.s := by
  induction x0 generalizing x1 x2
  all_goals
    unfold atomicGo
    repeat' first
      | with_reducible assumption
      | with_reducible apply rdEl_data
      | with_reducible apply wrEl_data
      | split
      | dsimp only
      | with_reducible refine DataOnly.snd (by assumption) ?_
      | with_reducible refine DataOnly.sndA (by assumption) ?_
      | with_reducible refine DataOnly.sndB (by assumption) ?_
      | with_reducible apply_assumption

theorem pageScoreGo_data {s0 : State} (p : FopParams) (x0 : Nat) (x1 : Nat) (x2 : Acc) (h0 : DataOnly s0 x2.s) :
    DataOnly s0 (pageScoreGo p x0 x1 x2).s := by
  fun_induction pageScoreGo p x0 x1 x2
  all_goals try subst_vars
  all_goals
    repeat' first
      | with_reducible assumption
      | with_reducible apply rdEl_data
      | with_reducible apply rdEls_data
      | with_reducible apply wrEl_data
      | split
      | dsimp only
      | with_reducible refine DataOnly.snd (by assumption) ?_
      | with_reducible refine DataOnly.sndA (by assumption) ?_
      | with_reducible refine DataOnly.sndB (by assumption) ?_
      | with_reducible apply_assumption

theorem fopGo_data {s0 : State} (p : FopParams) (a : Acc) (h0 : DataOnly s0 a.s) :
    DataOnly s0 (fopGo p a).2.s := by
  unfold fopGo
  repeat' first
    | with_reducible assumption
    | with_reducible apply fopCopyGo_data
    | with_reducible apply fopFillGo_data
    | with_reducible apply fopLogicGo_data
    | with_reducible apply fopDotGo_data
    | with_reducible apply fopAxpyGo_data
    | with_reducible apply fopAxpyReduceGo_data
    | with_reducible apply fopGatherGo_data
    | with_reducible apply fopSegmentGo_data
    | with_reducible apply atomicGo_data
    | with_reducible apply pageScoreGo_data
    | split

/-! ### Machine/Serving.lean -/

theorem readDir_data {s0 : State} (t : Nat) (dd : Desc) (a : Acc) (h0 : DataOnly s0 a.s) :
    DataOnly s0 (readDir t dd a).2.s := by
  unfold readDir
  repeat' first
    | with_reducible assumption
    | with_reducible apply rdBytes_data
    | split
    | dsimp only

theorem asFurrow_data {s0 : State} (off : Nat) (len : Nat) (f : Acc → Acc) (a : Acc) (h0 : ∀ (y0 : Acc), DataOnly s0 y0.s → DataOnly s0 (f y0).s) (h1 : DataOnly s0 a.s) :
    DataOnly s0 (asFurrow off len f a).s := by
  unfold asFurrow
  repeat' first
    | with_reducible assumption
    | with_reducible apply h0
    | with_reducible apply Acc.stop_data
    | split
    | dsimp only
    | (with_reducible refine DataOnly.mk' ?_
       first
       | with_reducible assumption
       | with_reducible apply h0
       | with_reducible apply Acc.stop_data
       | split)

theorem rdWord_data {s0 : State} (d : Desc) (off : Nat) (a : Acc) (h0 : DataOnly s0 a.s) :
    DataOnly s0 (rdWord d off a).2.s := by
  unfold rdWord
  repeat' first
    | with_reducible assumption
    | with_reducible apply rdBytes_data

theorem wrWord_data {s0 : State} (d : Desc) (off : Nat) (v : Nat) (poison : Bool) (a : Acc) (h0 : DataOnly s0 a.s) :
    DataOnly s0 (wrWord d off v poison a).s := by
  unfold wrWord
  repeat' first
    | with_reducible assumption
    | with_reducible apply asFurrow_data
    | with_reducible apply wrBytes_data
    | dsimp only

theorem getCount_data {s0 : State} (d : PageDir) (p : Nat) (a : Acc) (h0 : DataOnly s0 a.s) :
    DataOnly s0 (getCount d p a).2.s := by
  unfold getCount
  repeat' first
    | with_reducible assumption
    | with_reducible apply rdWord_data

theorem putCount_data {s0 : State} (d : PageDir) (p : Nat) (n : Nat) (poison : Bool) (a : Acc) (h0 : DataOnly s0 a.s) :
    DataOnly s0 (putCount d p n poison a).s := by
  unfold putCount
  repeat' first
    | with_reducible assumption
    | with_reducible apply wrWord_data

theorem getScore_data {s0 : State} (d : PageDir) (p : Nat) (a : Acc) (h0 : DataOnly s0 a.s) :
    DataOnly s0 (getScore d p a).2.s := by
  unfold getScore
  repeat' first
    | with_reducible assumption
    | with_reducible apply rdWord_data

theorem putScore_data {s0 : State} (d : PageDir) (p : Nat) (v : Nat) (poison : Bool) (a : Acc) (h0 : DataOnly s0 a.s) :
    DataOnly s0 (putScore d p v poison a).s := by
  unfold putScore
  repeat' first
    | with_reducible assumption
    | with_reducible apply wrWord_data

theorem popStack_data {s0 : State} (d : Desc) (a : Acc) (h0 : DataOnly s0 a.s) :
    DataOnly s0 (popStack d a).2.s := by
  unfold popStack
  repeat' first
    | with_reducible assumption
    | with_reducible apply rdEl_data
    | with_reducible apply wrEl_data
    | split
    | dsimp only

theorem pushStack_data {s0 : State} (d : Desc) (v : Nat) (a : Acc) (h0 : DataOnly s0 a.s) :
    DataOnly s0 (pushStack d v a).s := by
  unfold pushStack
  repeat' first
    | with_reducible assumption
    | with_reducible apply rdEl_data
    | with_reducible apply addOut_data
    | with_reducible apply wrEl_data
    | split
    | dsimp only

theorem releaseRef_data {s0 : State} (d : PageDir) (p : Nat) (a : Acc) (h0 : DataOnly s0 a.s) :
    DataOnly s0 (releaseRef d p a).2.s := by
  unfold releaseRef
  repeat' first
    | with_reducible assumption
    | with_reducible apply getCount_data
    | with_reducible apply pushStack_data
    | with_reducible apply putCount_data
    | split
    | dsimp only

theorem headgateCopy_data {s0 : State} (src : Desc) (so : Nat) (dst : Desc) (do_ : Nat) (len : Nat) (a : Acc) (h0 : DataOnly s0 a.s) :
    DataOnly s0 (headgateCopy src so dst do_ len a).s := by
  unfold headgateCopy
  repeat' first
    | with_reducible assumption
    | with_reducible apply addOut_data
    | with_reducible apply copyRun_data
    | split

theorem shareOne_data {s0 : State} (d : PageDir) (_i : Nat) (e : Nat) (r : Nat × Acc) (h0 : DataOnly s0 r.2.s) :
    DataOnly s0 (shareOne d _i e r).2.2.s := by
  unfold shareOne
  repeat' first
    | with_reducible assumption
    | with_reducible apply getCount_data
    | with_reducible apply putCount_data
    | with_reducible apply addOut_data
    | split
    | dsimp only

theorem releaseOne_data {s0 : State} (d : PageDir) (l : Desc) (i : Nat) (e : Nat) (r : Nat × Acc) (h0 : DataOnly s0 r.2.s) :
    DataOnly s0 (releaseOne d l i e r).2.2.s := by
  unfold releaseOne
  repeat' first
    | with_reducible assumption
    | with_reducible apply wrEl_data
    | with_reducible apply releaseRef_data
    | with_reducible apply pushStack_data
    | with_reducible apply addOut_data
    | split

theorem takePage_data {s0 : State} (d : PageDir) (from_ : Desc) (score : PV) (r : Nat × Acc) (go : Nat → Acc → Acc) (h0 : DataOnly s0 r.2.s) (h1 : ∀ (y0 : Nat) (y1 : Acc), DataOnly s0 y1.s → DataOnly s0 (go y0 y1).s) :
    DataOnly s0 (takePage d from_ score r go).2.2.s := by
  unfold takePage
  repeat' first
    | with_reducible assumption
    | with_reducible apply h1
    | with_reducible apply popStack_data
    | with_reducible apply addOut_data
    | with_reducible apply putScore_data
    | with_reducible apply putCount_data
    | split
    | dsimp only

theorem cowOne_data {s0 : State} (d : PageDir) (l : Desc) (from_ : Desc) (i : Nat) (e : Nat) (r : Nat × Acc) (h0 : DataOnly s0 r.2.s) :
    DataOnly s0 (cowOne d l from_ i e r).2.2.s := by
  unfold cowOne
  repeat' first
    | with_reducible assumption
    | with_reducible apply getCount_data
    | with_reducible apply getScore_data
    | with_reducible apply takePage_data
    | with_reducible apply wrEl_data
    | with_reducible apply releaseRef_data
    | with_reducible apply headgateCopy_data
    | with_reducible apply pushStack_data
    | with_reducible apply addOut_data
    | split
    | intro _
    | dsimp only
    | with_reducible refine DataOnly.snd (by assumption) ?_
    | with_reducible refine DataOnly.sndA (by assumption) ?_
    | with_reducible refine DataOnly.sndB (by assumption) ?_

theorem entryAt_data {s0 : State} (r : SeqRow) (k : Nat) (l : Nat) (a : Acc) (h0 : DataOnly s0 a.s) :
    DataOnly s0 (entryAt r k l a).2.s := by
  unfold entryAt
  repeat' first
    | with_reducible assumption
    | with_reducible apply rdEl_data

theorem setEntry_data {s0 : State} (r : SeqRow) (k : Nat) (l : Nat) (v : Nat) (a : Acc) (h0 : DataOnly s0 a.s) :
    DataOnly s0 (setEntry r k l v a).s := by
  unfold setEntry
  repeat' first
    | with_reducible assumption
    | with_reducible apply wrEl_data

theorem readRow_data {s0 : State} (t : Nat) (seq : Desc) (i : Nat) (a : Acc) (h0 : DataOnly s0 a.s) :
    DataOnly s0 (readRow t seq i a).2.s := by
  unfold readRow
  repeat' first
    | with_reducible assumption
    | with_reducible apply rdBytes_data
    | with_reducible apply readDir_data
    | with_reducible apply addOut_data
    | split
    | dsimp only

theorem rowsGo_data {s0 : State} (t : Nat) (seq : Desc) (f : Nat → SeqRow → Nat × Acc → Nat × Acc) (x0 : Nat) (x1 : Nat) (x2 : Nat × Acc) (h0 : ∀ (y0 : Nat) (y1 : SeqRow) (y2 : Nat × Acc), DataOnly s0 y2.2.s → DataOnly s0 (f y0 y1 y2).2.s) (h1 : DataOnly s0 x2.2.s) :
    DataOnly s0 (rowsGo t seq f x0 x1 x2).2.s := by
  induction x0 generalizing x1 x2
  all_goals
    unfold rowsGo
    repeat' first
      | with_reducible assumption
      | with_reducible apply h0
      | with_reducible apply readRow_data
      | split
      | dsimp only
      | with_reducible refine DataOnly.snd (by assumption) ?_
      | with_reducible refine DataOnly.sndA (by assumption) ?_
      | with_reducible refine DataOnly.sndB (by assumption) ?_
      | with_reducible apply_assumption

theorem residents_data {s0 : State} (r : SeqRow) (l : Nat) (x0 : Nat) (x1 : Nat) (x2 : Acc) (h0 : DataOnly s0 x2.s) :
    DataOnly s0 (residents r l x0 x1 x2).2.s := by
  fun_induction residents r l x0 x1 x2
  all_goals try subst_vars
  all_goals
    repeat' first
      | with_reducible assumption
      | with_reducible apply entryAt_data
      | split
      | dsimp only
      | with_reducible refine DataOnly.snd (by assumption) ?_
      | with_reducible refine DataOnly.sndA (by assumption) ?_
      | with_reducible refine DataOnly.sndB (by assumption) ?_
      | with_reducible apply_assumption

theorem lowest_data {s0 : State} (d : PageDir) (x0 : List (Nat × Nat)) (x1 : Acc) (h0 : DataOnly s0 x1.s) :
    DataOnly s0 (lowest d x0 x1).2.s := by
  fun_induction lowest d x0 x1
  all_goals try subst_vars
  all_goals
    repeat' first
      | with_reducible assumption
      | with_reducible apply getScore_data
      | split
      | dsimp only
      | with_reducible refine DataOnly.snd (by assumption) ?_
      | with_reducible refine DataOnly.sndA (by assumption) ?_
      | with_reducible refine DataOnly.sndB (by assumption) ?_
      | with_reducible apply_assumption

theorem popFar_data {s0 : State} (d : PageDir) (a : Acc) (h0 : DataOnly s0 a.s) :
    DataOnly s0 (popFar d a).2.s := by
  unfold popFar
  repeat' first
    | with_reducible assumption
    | with_reducible apply popStack_data
    | split
    | intro _
    | dsimp only

theorem evictSlot_data {s0 : State} (r : SeqRow) (drop : Bool) (k : Nat) (l : Nat) (p : Nat) (a : Acc) (h0 : DataOnly s0 a.s) :
    DataOnly s0 (evictSlot r drop k l p a).s := by
  unfold evictSlot
  repeat' first
    | with_reducible assumption
    | with_reducible apply setEntry_data
    | with_reducible apply releaseRef_data
    | with_reducible apply popFar_data
    | with_reducible apply headgateCopy_data
    | with_reducible apply rdWord_data
    | with_reducible apply wrWord_data
    | split
    | dsimp only

theorem evictLayer_data {s0 : State} (r : SeqRow) (budget : Nat) (drop : Bool) (l : Nat) (x0 : Nat) (x1 : Nat × Acc) (h0 : DataOnly s0 x1.2.s) :
    DataOnly s0 (evictLayer r budget drop l x0 x1).2.s := by
  fun_induction evictLayer r budget drop l x0 x1
  all_goals try subst_vars
  all_goals
    repeat' first
      | with_reducible assumption
      | with_reducible apply residents_data
      | with_reducible apply lowest_data
      | with_reducible apply evictSlot_data
      | split
      | intro _
      | dsimp only
      | with_reducible refine DataOnly.snd (by assumption) ?_
      | with_reducible refine DataOnly.sndA (by assumption) ?_
      | with_reducible refine DataOnly.sndB (by assumption) ?_
      | with_reducible apply_assumption

theorem evictRow_data {s0 : State} (seq : Desc) (budget : Nat) (drop : Bool) (_i : Nat) (r : SeqRow) (x : Nat × Acc) (h0 : DataOnly s0 x.2.s) :
    DataOnly s0 (evictRow seq budget drop _i r x).2.s := by
  unfold evictRow
  repeat' first
    | with_reducible assumption
    | with_reducible apply evictLayer_data
    | with_reducible apply wrBytes_data
    | split
    | with_reducible refine DataOnly.foldl _ _ _ ?_ ?_
    | intro _
    | dsimp only
    | with_reducible refine DataOnly.foldlA _ _ _ ?_ ?_

end Sys2Proof.Machine
end

