-- ==== Sys2Proof/Laws/Work.lean ====
section
/-! SUPPORT. `WorkOnly` for scheduling, counters and the running of work: what none of them touches. -/

namespace Sys2Proof.Machine

theorem WorkOnly.refl (s : State) : WorkOnly s s := rfl

theorem WorkOnly.trans {s t u : State} (a : WorkOnly s t) (b : WorkOnly t u) : WorkOnly s u := by
  unfold WorkOnly at *
  rw [b, a]

/-- A record update that leaves the rest alone, found by unification. -/
theorem WorkOnly.mk' {s0 s : State} {out : List Output} {fns : Tab Fn} {cmds : List Cmd} {sharedPoison : Tab (List Nat)} {ctrs : Counters} {mem : Memories} {stks : Tab Stack} {runs : Tab Run} {tiles : Tab Tile} {far : Far} {hist : FaultHist} {pm : PowerSt} {henua : Henua} {freeCtr : Nat} (h : WorkOnly s0 s) :
    WorkOnly s0 ⟨s.pending, out, s.devTime, s.clockOn, s.cap, fns, s.tenants, s.seqs, cmds, s.nextOrder, s.halted, s.rrTenant, s.rrQueue, s.allocs, s.granules, sharedPoison, ctrs, mem, stks, s.held, s.fops, s.nextFop, s.sluiceQ, s.bundles, runs, tiles, s.adapters, s.margin, far, s.edgesDown, s.edgeTries, s.dpt, hist, s.test, pm, s.fuses, henua, s.board, s.era, freeCtr⟩ := h.trans rfl

/-- What a meaning answers as next state. -/
def ResWorkOnly (s0 : State) (r : Res) : Prop := ∀ t, r = .next t → WorkOnly s0 t

theorem ResWorkOnly.next {s0 s : State} (h : WorkOnly s0 s) : ResWorkOnly s0 (.next s) := by
  intro t e; cases e; exact h

theorem ResWorkOnly.fault {s0 : State} (f : Fault) : ResWorkOnly s0 (.fault f) := by
  intro t e; cases e

theorem WorkOnly.snd {α : Type} {s0 s : State} {a : α} {p : α × State} (e : p = (a, s)) (h : WorkOnly s0 p.2) : WorkOnly s0 s := by
  subst e; exact h

theorem WorkOnly.opt {α : Type} {s0 s : State} {a : α} {o : Option (α × State)} (e : o = some (a, s)) (h : ∀ x, o = some x → WorkOnly s0 x.2) :
    WorkOnly s0 s := h _ e

theorem WorkOnly.ident {s0 s : State} (h : WorkOnly s0 s) : WorkOnly s0 (id s) := h

theorem WorkOnly.foldl {α : Type} {s0 : State} (f : State → α → State) (l : List α) (s : State) (h : WorkOnly s0 s)
    (hf : ∀ s a, WorkOnly s0 s → WorkOnly s0 (f s a)) : WorkOnly s0 (l.foldl f s) := by
  induction l generalizing s with
  | nil => exact h
  | cons a t ih => exact ih (f s a) (hf s a h)

/-! ### Machine/Ops.lean -/

theorem forEach_work {s0 : State} {α : Type} (f : α → State → State) (l : List α) (s : State)
    (h0 : ∀ (y0 : α) (y1 : State), WorkOnly s0 y1 → WorkOnly s0 (f y0 y1)) (h1 : WorkOnly s0 s) : WorkOnly s0 (forEach f l s) := by
  induction l generalizing s with
  | nil => exact h1
  | cons a t ih => exact ih (f a s) (h0 a s h1)

theorem whenS_work {s0 : State} (c : Bool) (g : State → State) (s : State) (h0 : ∀ (y0 : State), WorkOnly s0 y0 → WorkOnly s0 (g y0)) (h1 : WorkOnly s0 s) :
    WorkOnly s0 (whenS c g s) := by
  unfold whenS
  repeat' first
    | with_reducible assumption
    | with_reducible apply h0
    | split

theorem modFn_work {s0 : State} (f : Nat) (g : Fn → Fn) (s : State) (h0 : WorkOnly s0 s) :
    WorkOnly s0 (modFn f g s) := by
  unfold modFn
  repeat' first
    | with_reducible assumption
    | dsimp only
    | (with_reducible refine WorkOnly.mk' ?_; with_reducible assumption)

theorem modTile_work {s0 : State} (t : Nat) (g : Tile → Tile) (s : State) (h0 : WorkOnly s0 s) :
    WorkOnly s0 (modTile t g s) := by
  unfold modTile
  repeat' first
    | with_reducible assumption
    | dsimp only
    | (with_reducible refine WorkOnly.mk' ?_; with_reducible assumption)

theorem modStk_work {s0 : State} (k : Nat) (g : Stack → Stack) (s : State) (h0 : WorkOnly s0 s) :
    WorkOnly s0 (modStk k g s) := by
  unfold modStk
  repeat' first
    | with_reducible assumption
    | dsimp only
    | (with_reducible refine WorkOnly.mk' ?_; with_reducible assumption)

theorem modRun_work {s0 : State} (r : Nat) (g : Run → Run) (s : State) (h0 : WorkOnly s0 s) :
    WorkOnly s0 (modRun r g s) := by
  unfold modRun
  repeat' first
    | with_reducible assumption
    | split
    | dsimp only
    | with_reducible refine WorkOnly.snd (by assumption) ?_
    | (with_reducible refine WorkOnly.mk' ?_; with_reducible assumption)

theorem modHenua_work {s0 : State} (g : Henua → Henua) (s : State) (h0 : WorkOnly s0 s) :
    WorkOnly s0 (modHenua g s) := by
  unfold modHenua
  repeat' first
    | with_reducible assumption
    | dsimp only
    | (with_reducible refine WorkOnly.mk' ?_; with_reducible assumption)

theorem modPm_work {s0 : State} (g : PowerSt → PowerSt) (s : State) (h0 : WorkOnly s0 s) :
    WorkOnly s0 (modPm g s) := by
  unfold modPm
  repeat' first
    | with_reducible assumption
    | dsimp only
    | (with_reducible refine WorkOnly.mk' ?_; with_reducible assumption)

theorem emit_work {s0 : State} (o : Output) (s : State) (h0 : WorkOnly s0 s) :
    WorkOnly s0 (emit o s) := by
  unfold emit
  repeat' first
    | with_reducible assumption
    | dsimp only
    | (with_reducible refine WorkOnly.mk' ?_; with_reducible assumption)

theorem freshByte_work {s0 : State} (s : State) (h0 : WorkOnly s0 s) :
    WorkOnly s0 (freshByte s).2 := by
  unfold freshByte
  repeat' first
    | with_reducible assumption
    | dsimp only
    | (with_reducible refine WorkOnly.mk' ?_; with_reducible assumption)

theorem henuaEvent_work {s0 : State} (cls : Nat) (severity : Nat) (payload : List Nat) (s : State) (h0 : WorkOnly s0 s) :
    WorkOnly s0 (henuaEvent cls severity payload s) := by
  unfold henuaEvent
  repeat' first
    | with_reducible assumption
    | with_reducible apply modHenua_work
    | with_reducible apply whenS_work
    | with_reducible apply emit_work
    | split

theorem sendMsix_work {s0 : State} (f : Nat) (v : Nat) (s : State) (h0 : WorkOnly s0 s) :
    WorkOnly s0 (sendMsix f v s) := by
  unfold sendMsix
  repeat' first
    | with_reducible assumption
    | with_reducible apply modFn_work
    | with_reducible apply emit_work
    | split
    | intro _
    | dsimp only

theorem vecEvent_work {s0 : State} (f : Nat) (v : Nat) (s : State) (h0 : WorkOnly s0 s) :
    WorkOnly s0 (vecEvent f v s) := by
  unfold vecEvent
  repeat' first
    | with_reducible assumption
    | with_reducible apply sendMsix_work
    | with_reducible apply modFn_work
    | split
    | intro _
    | dsimp only

theorem setCause_work {s0 : State} (f : Nat) (bit : Nat) (s : State) (h0 : WorkOnly s0 s) :
    WorkOnly s0 (setCause f bit s) := by
  unfold setCause
  repeat' first
    | with_reducible assumption
    | with_reducible apply whenS_work
    | with_reducible apply vecEvent_work
    | with_reducible apply modFn_work
    | split
    | intro _
    | dsimp only

/-! ### Machine/Wake.lean -/

theorem startWake_work {s0 : State} (code : Nat) (s : State) (h0 : WorkOnly s0 s) :
    WorkOnly s0 (startWake code s) := by
  unfold startWake
  repeat' first
    | with_reducible assumption
    | with_reducible apply modPm_work
    | with_reducible apply freshByte_work
    | split

theorem wakeSource_work {s0 : State} (code : Nat) (idleToo : Bool) (s : State) (h0 : WorkOnly s0 s) :
    WorkOnly s0 (wakeSource code idleToo s) := by
  unfold wakeSource
  repeat' first
    | with_reducible assumption
    | with_reducible apply modPm_work
    | with_reducible apply startWake_work
    | split
    | intro _
    | dsimp only

/-! ### Machine/Ctr.lean -/

theorem modCmd_work {s0 : State} (h : Nat) (g : Cmd → Cmd) (s : State) (h0 : WorkOnly s0 s) :
    WorkOnly s0 (modCmd h g s) := by
  unfold modCmd
  repeat' first
    | with_reducible assumption
    | split
    | intro _
    | dsimp only
    | (with_reducible refine WorkOnly.mk' ?_; with_reducible assumption)

theorem finishCmd_work {s0 : State} (h : Nat) (outs : List Nat) (value : Nat) (s : State) (h0 : WorkOnly s0 s) :
    WorkOnly s0 (finishCmd h outs value s) := by
  unfold finishCmd
  repeat' first
    | with_reducible assumption
    | with_reducible apply modCmd_work

theorem tellOwner_work {s0 : State} (r : Release) (s : State) (h0 : WorkOnly s0 s) :
    WorkOnly s0 (tellOwner r s) := by
  unfold tellOwner
  repeat' first
    | with_reducible assumption
    | with_reducible apply finishCmd_work
    | with_reducible apply wakeSource_work
    | with_reducible apply modTile_work
    | with_reducible apply headWait_work
    | split

theorem ctrUpdate_work {s0 : State} (c : Nat) (v : Nat) (ws : List Wait) (s : State) (h0 : WorkOnly s0 s) :
    WorkOnly s0 (ctrUpdate c v ws s) := by
  unfold ctrUpdate
  repeat' first
    | with_reducible assumption
    | with_reducible apply forEach_work
    | with_reducible apply tellOwner_work
    | with_reducible apply whenS_work
    | with_reducible apply wakeSource_work
    | intro _
    | dsimp only
    | (with_reducible refine WorkOnly.mk' ?_
       first
       | with_reducible assumption
       | with_reducible apply forEach_work
       | with_reducible apply tellOwner_work
       | with_reducible apply whenS_work
       | with_reducible apply wakeSource_work)

theorem signalPhys_work {s0 : State} (c : Nat) (n : Nat) (s : State) (h0 : WorkOnly s0 s) :
    WorkOnly s0 (signalPhys c n s) := by
  unfold signalPhys
  repeat' first
    | with_reducible assumption
    | with_reducible apply ctrUpdate_work
    | with_reducible apply whenS_work
    | with_reducible apply modFn_work
    | split
    | intro _
    | dsimp only
    | with_reducible refine WorkOnly.snd (by assumption) ?_
    | (with_reducible refine WorkOnly.mk' ?_
       first
       | with_reducible assumption
       | with_reducible apply ctrUpdate_work
       | with_reducible apply whenS_work
       | with_reducible apply modFn_work
       | split
       | with_reducible refine WorkOnly.snd (by assumption) ?_)

theorem signalCtr_work {s0 : State} (tenant : Nat) (k : Nat) (n : Nat) (s : State) (h0 : WorkOnly s0 s) :
    WorkOnly s0 (signalCtr tenant k n s) := by
  unfold signalCtr
  repeat' first
    | with_reducible assumption
    | with_reducible apply signalPhys_work
    | split

theorem arriveWait_work {s0 : State} (w : Wait) (s : State) (h0 : WorkOnly s0 s) :
    WorkOnly s0 (arriveWait w s) := by
  unfold arriveWait
  repeat' first
    | with_reducible assumption
    | with_reducible apply ctrUpdate_work
    | dsimp only

theorem withdrawAll_work {s0 : State} (p : Wait → Bool) (s : State) (h0 : WorkOnly s0 s) :
    WorkOnly s0 (withdrawAll p s) := by
  unfold withdrawAll
  repeat' first
    | with_reducible assumption
    | with_reducible apply forEach_work
    | with_reducible apply ctrUpdate_work
    | intro _
    | dsimp only
    | (with_reducible refine WorkOnly.mk' ?_
       first
       | with_reducible assumption
       | with_reducible apply forEach_work
       | with_reducible apply ctrUpdate_work)

/-! ### Machine/Mem.lean -/

/-- Folds that carry a mover beside a result. -/
theorem WorkOnly.foldlA {α β : Type} {s0 : State} (f : β × Acc → α → β × Acc) (l : List α) (b : β × Acc) (h : WorkOnly s0 b.2.s)
    (hf : ∀ b a, WorkOnly s0 b.2.s → WorkOnly s0 (f b a).2.s) : WorkOnly s0 (l.foldl f b).2.s := by
  induction l generalizing b with
  | nil => exact h
  | cons a t ih => exact ih (f b a) (hf b a h)

theorem WorkOnly.foldlS {α : Type} {s0 : State} (f : Acc → α → Acc) (l : List α) (b : Acc) (h : WorkOnly s0 b.s)
    (hf : ∀ b a, WorkOnly s0 b.s → WorkOnly s0 (f b a).s) : WorkOnly s0 (l.foldl f b).s := by
  induction l generalizing b with
  | nil => exact h
  | cons a t ih => exact ih (f b a) (hf b a h)

theorem WorkOnly.sndA {α : Type} {s0 : State} {a : α} {b : Acc} {p : α × Acc} (e : p = (a, b)) (h : WorkOnly s0 p.2.s) : WorkOnly s0 b.s := by
  subst e; exact h

theorem WorkOnly.sndB {α β : Type} {s0 : State} {a : α} {c : β} {b : Acc} {p : α × (β × Acc)} (e : p = (a, c, b)) (h : WorkOnly s0 p.2.2.s) :
    WorkOnly s0 b.s := by
  subst e; exact h

theorem hostFetch_work {s0 : State} (fn : Nat) (addr : Nat) (len : Nat) (s : State) (h0 : WorkOnly s0 s) :
    WorkOnly s0 (hostFetch fn addr len s) := by
  unfold hostFetch
  repeat' first
    | with_reducible assumption
    | with_reducible apply emit_work
    | dsimp only

theorem openRow_work {s0 : State} (blk : Nat) (s : State) (h0 : WorkOnly s0 s) :
    WorkOnly s0 (openRow blk s) := by
  unfold openRow
  repeat' first
    | with_reducible assumption
    | with_reducible apply modStk_work
    | intro _
    | dsimp only
    | (with_reducible refine WorkOnly.mk' ?_
       first
       | with_reducible assumption
       | with_reducible apply modStk_work)

theorem countCe_work {s0 : State} (blk : Nat) (sym : Nat) (s : State) (h0 : WorkOnly s0 s) :
    WorkOnly s0 (countCe blk sym s) := by
  unfold countCe
  repeat' first
    | with_reducible assumption
    | with_reducible apply modStk_work
    | with_reducible apply whenS_work
    | with_reducible apply setCause_work
    | with_reducible apply henuaEvent_work
    | split
    | intro _

theorem countUe_work {s0 : State} (blk : Nat) (repaired : Bool) (s : State) (h0 : WorkOnly s0 s) :
    WorkOnly s0 (countUe blk repaired s) := by
  unfold countUe
  repeat' first
    | with_reducible assumption
    | with_reducible apply modStk_work
    | with_reducible apply whenS_work
    | with_reducible apply henuaEvent_work

theorem countPoison_work {s0 : State} (blk : Nat) (s : State) (h0 : WorkOnly s0 s) :
    WorkOnly s0 (countPoison blk s) := by
  unfold countPoison
  repeat' first
    | with_reducible assumption
    | with_reducible apply modStk_work

theorem storeBlk_work {s0 : State} (blk : Nat) (data : List Byte) (poison : Bool) (source : Nat) (s : State) (h0 : WorkOnly s0 s) :
    WorkOnly s0 (storeBlk blk data poison source s) := by
  unfold storeBlk
  repeat' first
    | with_reducible assumption
    | with_reducible apply modStk_work
    | with_reducible apply openRow_work
    | split
    | intro _
    | dsimp only
    | with_reducible refine WorkOnly.snd (by assumption) ?_
    | with_reducible refine WorkOnly.sndA (by assumption) ?_
    | with_reducible refine WorkOnly.sndB (by assumption) ?_
    | (with_reducible refine WorkOnly.mk' ?_
       first
       | with_reducible assumption
       | with_reducible apply modStk_work
       | with_reducible apply openRow_work
       | split
       | with_reducible refine WorkOnly.snd (by assumption) ?_
       | with_reducible refine WorkOnly.sndA (by assumption) ?_
       | with_reducible refine WorkOnly.sndB (by assumption) ?_)

theorem mergeDrop_work {s0 : State} (blk : Nat) (s : State) (h0 : WorkOnly s0 s) :
    WorkOnly s0 (mergeDrop blk s) := by
  unfold mergeDrop
  repeat' first
    | with_reducible assumption
    | with_reducible apply modStk_work

theorem poisonSharedPage_work {s0 : State} (off : Nat) (s : State) (h0 : WorkOnly s0 s) :
    WorkOnly s0 (poisonSharedPage off s) := by
  unfold poisonSharedPage
  repeat' first
    | with_reducible assumption
    | with_reducible apply setCause_work
    | with_reducible apply henuaEvent_work
    | split
    | dsimp only
    | (with_reducible refine WorkOnly.mk' ?_; with_reducible assumption)

theorem foundUe_work {s0 : State} (blk : Nat) (data : List Byte) (s : State) (h0 : WorkOnly s0 s) :
    WorkOnly s0 (foundUe blk data s).2 := by
  unfold foundUe
  repeat' first
    | with_reducible assumption
    | with_reducible apply countUe_work
    | with_reducible apply poisonSharedPage_work
    | with_reducible apply countCe_work
    | with_reducible apply storeBlk_work
    | with_reducible apply openRow_work
    | split
    | dsimp only
    | with_reducible refine WorkOnly.snd (by assumption) ?_
    | with_reducible refine WorkOnly.sndA (by assumption) ?_
    | with_reducible refine WorkOnly.sndB (by assumption) ?_

theorem decodeBlk_work {s0 : State} (blk : Nat) (sB : State) (h0 : WorkOnly s0 sB) :
    WorkOnly s0 (decodeBlk blk sB).2 := by
  unfold decodeBlk
  repeat' first
    | with_reducible assumption
    | with_reducible apply openRow_work
    | with_reducible apply countCe_work
    | with_reducible apply countPoison_work
    | with_reducible apply foundUe_work
    | split
    | dsimp only
    | with_reducible refine WorkOnly.snd (by assumption) ?_
    | with_reducible refine WorkOnly.sndA (by assumption) ?_
    | with_reducible refine WorkOnly.sndB (by assumption) ?_

theorem modifyBlk_work {s0 : State} (blk : Nat) (data : List Byte) (mask : Nat) (poison : Bool) (source : Nat) (s : State) (h0 : WorkOnly s0 s) :
    WorkOnly s0 (modifyBlk blk data mask poison source s) := by
  unfold modifyBlk
  repeat' first
    | with_reducible assumption
    | with_reducible apply decodeBlk_work
    | with_reducible apply storeBlk_work
    | split
    | dsimp only

theorem flushEntry_work {s0 : State} (e : MergeEntry) (s : State) (h0 : WorkOnly s0 s) :
    WorkOnly s0 (flushEntry e s) := by
  unfold flushEntry
  repeat' first
    | with_reducible assumption
    | with_reducible apply mergeDrop_work
    | with_reducible apply storeBlk_work
    | with_reducible apply modifyBlk_work
    | with_reducible apply modStk_work
    | split
    | intro _
    | dsimp only
    | (with_reducible refine WorkOnly.mk' ?_
       first
       | with_reducible assumption
       | with_reducible apply mergeDrop_work
       | with_reducible apply storeBlk_work
       | with_reducible apply modifyBlk_work
       | with_reducible apply modStk_work
       | split)

theorem flushBlk_work {s0 : State} (blk : Nat) (s : State) (h0 : WorkOnly s0 s) :
    WorkOnly s0 (flushBlk blk s) := by
  unfold flushBlk
  repeat' first
    | with_reducible assumption
    | with_reducible apply flushEntry_work
    | split

theorem readStack_work {s0 : State} (blk : Nat) (s : State) (h0 : WorkOnly s0 s) :
    WorkOnly s0 (readStack blk s).2 := by
  unfold readStack
  repeat' first
    | with_reducible assumption
    | with_reducible apply decodeBlk_work
    | with_reducible apply flushBlk_work
    | split

theorem furrowRead_work {s0 : State} (blk : Nat) (s : State) (h0 : WorkOnly s0 s) :
    WorkOnly s0 (furrowRead blk s).2 := by
  unfold furrowRead
  repeat' first
    | with_reducible assumption
    | with_reducible apply flushBlk_work
    | with_reducible apply readStack_work
    | with_reducible apply storeBlk_work
    | split
    | dsimp only

theorem setZ_work {s0 : State} (space : Nat) (m : Mem) (p : List Nat) (s : State) (h0 : WorkOnly s0 s) :
    WorkOnly s0 (setZ space m p s) := by
  unfold setZ
  repeat' first
    | with_reducible assumption
    | split
    | dsimp only
    | with_reducible refine WorkOnly.snd (by assumption) ?_
    | with_reducible refine WorkOnly.sndA (by assumption) ?_
    | with_reducible refine WorkOnly.sndB (by assumption) ?_
    | (with_reducible refine WorkOnly.mk' ?_
       first
       | with_reducible assumption
       | split
       | with_reducible refine WorkOnly.snd (by assumption) ?_
       | with_reducible refine WorkOnly.sndA (by assumption) ?_
       | with_reducible refine WorkOnly.sndB (by assumption) ?_)

theorem readBlk_work {s0 : State} (source : Nat) (space : Nat) (inst : Nat) (off : Nat) (s : State) (h0 : WorkOnly s0 s) :
    WorkOnly s0 (readBlk source space inst off s).2 := by
  unfold readBlk
  repeat' first
    | with_reducible assumption
    | with_reducible apply furrowRead_work
    | with_reducible apply readStack_work
    | split
    | intro _
    | dsimp only
    | with_reducible refine WorkOnly.snd (by assumption) ?_
    | with_reducible refine WorkOnly.sndA (by assumption) ?_
    | with_reducible refine WorkOnly.sndB (by assumption) ?_
    | (with_reducible refine WorkOnly.mk' ?_
       first
       | with_reducible assumption
       | with_reducible apply furrowRead_work
       | with_reducible apply readStack_work
       | split
       | with_reducible refine WorkOnly.snd (by assumption) ?_
       | with_reducible refine WorkOnly.sndA (by assumption) ?_
       | with_reducible refine WorkOnly.sndB (by assumption) ?_)

theorem Acc.start_work {s0 : State} (source : Nat) (s : State) (h0 : WorkOnly s0 s) :
    WorkOnly s0 (Acc.start source s).s := by
  unfold Acc.start
  repeat' first
    | with_reducible assumption
    | dsimp only

theorem freeBlock_work {s0 : State} (s : State) (h0 : WorkOnly s0 s) :
    WorkOnly s0 (freeBlock s).2 := by
  unfold freeBlock
  repeat' first
    | with_reducible assumption
    | intro _
    | dsimp only
    | (with_reducible refine WorkOnly.mk' ?_; with_reducible assumption)

theorem readRaced_work {s0 : State} (source : Nat) (space : Nat) (inst : Nat) (off : Nat) (s : State) (h0 : WorkOnly s0 s) :
    WorkOnly s0 (readRaced source space inst off s).2 := by
  unfold readRaced
  repeat' first
    | with_reducible assumption
    | with_reducible apply readBlk_work
    | with_reducible apply freeBlock_work
    | split
    | dsimp only
    | (with_reducible refine WorkOnly.mk' ?_
       first
       | with_reducible assumption
       | with_reducible apply readBlk_work
       | with_reducible apply freeBlock_work
       | split)

theorem addOut_work {s0 : State} (st : Nat) (c : Bool) (a : Acc) (h0 : WorkOnly s0 a.s) :
    WorkOnly s0 (addOut st c a).s := by
  unfold addOut
  repeat' first
    | with_reducible assumption
    | split

theorem rdBlk_work {s0 : State} (space : Nat) (inst : Nat) (off : Nat) (a : Acc) (h0 : WorkOnly s0 a.s) :
    WorkOnly s0 (rdBlk space inst off a).2.s := by
  unfold rdBlk
  repeat' first
    | with_reducible assumption
    | with_reducible apply readRaced_work
    | with_reducible apply hostFetch_work
    | with_reducible apply addOut_work
    | split
    | dsimp only
    | with_reducible refine WorkOnly.snd (by assumption) ?_
    | with_reducible refine WorkOnly.sndA (by assumption) ?_
    | with_reducible refine WorkOnly.sndB (by assumption) ?_
    | (with_reducible refine WorkOnly.mk' ?_
       first
       | with_reducible assumption
       | with_reducible apply readRaced_work
       | with_reducible apply hostFetch_work
       | with_reducible apply addOut_work
       | split
       | with_reducible refine WorkOnly.snd (by assumption) ?_
       | with_reducible refine WorkOnly.sndA (by assumption) ?_
       | with_reducible refine WorkOnly.sndB (by assumption) ?_)

theorem rdBytesGo_work {s0 : State} (space inst fuel off len : Nat) (a : Acc) (h0 : WorkOnly s0 a.s) :
    WorkOnly s0 (rdBytesGo space inst fuel off len a).2.s := by
  induction fuel generalizing off len a with
  | zero => exact h0
  | succ n ih =>
    unfold rdBytesGo
    split
    · exact h0
    · exact ih _ _ _ (rdBlk_work _ _ _ _ h0)

theorem rdBytes_work {s0 : State} (space : Nat) (inst : Nat) (off : Nat) (len : Nat) (a : Acc) (h0 : WorkOnly s0 a.s) :
    WorkOnly s0 (rdBytes space inst off len a).2.s := by
  unfold rdBytes
  repeat' first
    | with_reducible assumption
    | with_reducible apply rdBytesGo_work

/-! ### Machine/Operands.lean -/

theorem rdEl_work {s0 : State} (d : Desc) (n : Nat) (a : Acc) (h0 : WorkOnly s0 a.s) :
    WorkOnly s0 (rdEl d n a).2.s := by
  unfold rdEl
  repeat' first
    | with_reducible assumption
    | with_reducible apply rdBytes_work

theorem rdEls_work {s0 : State} (d : Desc) (x0 : Nat) (x1 : Nat) (x2 : Acc) (h0 : WorkOnly s0 x2.s) :
    WorkOnly s0 (rdEls d x0 x1 x2).2.s := by
  fun_induction rdEls d x0 x1 x2
  all_goals try subst_vars
  all_goals
    repeat' first
      | with_reducible assumption
      | with_reducible apply rdEl_work
      | split
      | dsimp only
      | with_reducible refine WorkOnly.snd (by assumption) ?_
      | with_reducible refine WorkOnly.sndA (by assumption) ?_
      | with_reducible refine WorkOnly.sndB (by assumption) ?_
      | with_reducible apply_assumption

/-! ### Machine/Sched.lean -/

theorem setArea_work {s0 : State} (space : Nat) (inst : Nat) (lo : Nat) (hi : Nat) (cells : List (Nat × Byte)) (poison : List Nat) (s : State) (h0 : WorkOnly s0 s) :
    WorkOnly s0 (setArea space inst lo hi cells poison s) := by
  unfold setArea
  repeat' first
    | with_reducible assumption
    | with_reducible apply setZ_work
    | split
    | with_reducible refine WorkOnly.foldl _ _ _ ?_ ?_
    | intro _
    | dsimp only
    | with_reducible refine WorkOnly.foldlA _ _ _ ?_ ?_
    | with_reducible refine WorkOnly.foldlS _ _ _ ?_ ?_

theorem tileAreaLoad_work {s0 : State} (t : Nat) (n : Nat) (cells : List (Nat × Byte)) (poison : List Nat) (s : State) (h0 : WorkOnly s0 s) :
    WorkOnly s0 (tileAreaLoad t n cells poison s) := by
  unfold tileAreaLoad
  repeat' first
    | with_reducible assumption
    | with_reducible apply setArea_work
    | intro _
    | dsimp only

theorem clearTile_work {s0 : State} (t : Nat) (s : State) (h0 : WorkOnly s0 s) :
    WorkOnly s0 (clearTile t s) := by
  unfold clearTile
  repeat' first
    | with_reducible assumption
    | with_reducible apply modTile_work
    | intro _
    | dsimp only
    | (with_reducible refine WorkOnly.mk' ?_
       first
       | with_reducible assumption
       | with_reducible apply modTile_work)

theorem countSwitch_work {s0 : State} (tenant : Nat) (since : Nat) (s : State) (h0 : WorkOnly s0 s) :
    WorkOnly s0 (countSwitch tenant since s) := by
  unfold countSwitch
  repeat' first
    | with_reducible assumption
    | with_reducible apply modFn_work

theorem pauseDone_work {s0 : State} (t : Nat) (s : State) (h0 : WorkOnly s0 s) :
    WorkOnly s0 (pauseDone t s) := by
  unfold pauseDone
  repeat' first
    | with_reducible assumption
    | with_reducible apply forEach_work
    | with_reducible apply modCmd_work
    | with_reducible apply finishCmd_work
    | split
    | intro _
    | dsimp only
    | with_reducible refine WorkOnly.snd (by assumption) ?_
    | with_reducible refine WorkOnly.sndA (by assumption) ?_
    | with_reducible refine WorkOnly.sndB (by assumption) ?_
    | (with_reducible refine WorkOnly.mk' ?_
       first
       | with_reducible assumption
       | with_reducible apply forEach_work
       | with_reducible apply modCmd_work
       | with_reducible apply finishCmd_work
       | split
       | with_reducible refine WorkOnly.snd (by assumption) ?_
       | with_reducible refine WorkOnly.sndA (by assumption) ?_
       | with_reducible refine WorkOnly.sndB (by assumption) ?_)

theorem saveBasins_work {s0 : State} (r : Nat) (s : State) (h0 : WorkOnly s0 s) :
    WorkOnly s0 (saveBasins r s) := by
  unfold saveBasins
  repeat' first
    | with_reducible assumption
    | with_reducible apply forEach_work
    | with_reducible apply modRun_work
    | split
    | intro _

theorem checkPaused_work {s0 : State} (r : Nat) (s : State) (h0 : WorkOnly s0 s) :
    WorkOnly s0 (checkPaused r s) := by
  unfold checkPaused
  repeat' first
    | with_reducible assumption
    | with_reducible apply pauseDone_work
    | with_reducible apply countSwitch_work
    | with_reducible apply modRun_work
    | with_reducible apply saveBasins_work
    | split

theorem pauseRun_work {s0 : State} (r : Nat) (s : State) (h0 : WorkOnly s0 s) :
    WorkOnly s0 (pauseRun r s) := by
  unfold pauseRun
  repeat' first
    | with_reducible assumption
    | with_reducible apply modRun_work
    | with_reducible apply forEach_work
    | with_reducible apply modTile_work
    | with_reducible apply clearTile_work
    | with_reducible apply checkPaused_work
    | with_reducible apply withdrawAll_work
    | split
    | intro _
    | dsimp only
    | with_reducible refine WorkOnly.snd (by assumption) ?_
    | with_reducible refine WorkOnly.sndA (by assumption) ?_
    | with_reducible refine WorkOnly.sndB (by assumption) ?_
    | (with_reducible refine WorkOnly.mk' ?_
       first
       | with_reducible assumption
       | with_reducible apply modRun_work
       | with_reducible apply forEach_work
       | with_reducible apply modTile_work
       | with_reducible apply clearTile_work
       | with_reducible apply checkPaused_work
       | with_reducible apply withdrawAll_work
       | split
       | with_reducible refine WorkOnly.snd (by assumption) ?_
       | with_reducible refine WorkOnly.sndA (by assumption) ?_
       | with_reducible refine WorkOnly.sndB (by assumption) ?_)

theorem endRun_work {s0 : State} (r : Nat) (outs : List Nat) (s : State) (h0 : WorkOnly s0 s) :
    WorkOnly s0 (endRun r outs s) := by
  unfold endRun
  repeat' first
    | with_reducible assumption
    | with_reducible apply pauseDone_work
    | with_reducible apply forEach_work
    | with_reducible apply clearTile_work
    | with_reducible apply withdrawAll_work
    | with_reducible apply modRun_work
    | split
    | intro _
    | dsimp only
    | with_reducible refine WorkOnly.snd (by assumption) ?_
    | with_reducible refine WorkOnly.sndA (by assumption) ?_
    | with_reducible refine WorkOnly.sndB (by assumption) ?_
    | (with_reducible refine WorkOnly.mk' ?_
       first
       | with_reducible assumption
       | with_reducible apply pauseDone_work
       | with_reducible apply forEach_work
       | with_reducible apply clearTile_work
       | with_reducible apply withdrawAll_work
       | with_reducible apply modRun_work
       | split
       | with_reducible refine WorkOnly.snd (by assumption) ?_
       | with_reducible refine WorkOnly.sndA (by assumption) ?_
       | with_reducible refine WorkOnly.sndB (by assumption) ?_)

theorem registerHead_work {s0 : State} (t : Nat) (c : Ctx) (w : Nat × Bool × Nat) (s : State) (h0 : WorkOnly s0 s) :
    WorkOnly s0 (registerHead t c w s) := by
  unfold registerHead
  repeat' first
    | with_reducible assumption
    | with_reducible apply endRun_work
    | with_reducible apply arriveWait_work
    | with_reducible apply modTile_work
    | with_reducible apply headWait_work
    | split

theorem loadCtx_work {s0 : State} (r : Nat) (i : Nat) (t : Nat) (s : State) (h0 : WorkOnly s0 s) :
    WorkOnly s0 (loadCtx r i t s) := by
  unfold loadCtx
  repeat' first
    | with_reducible assumption
    | with_reducible apply modRun_work
    | with_reducible apply clearTile_work
    | with_reducible apply tileAreaLoad_work
    | with_reducible apply modTile_work
    | with_reducible apply headWait_work
    | with_reducible apply registerHead_work
    | split
    | intro _
    | dsimp only
    | with_reducible refine WorkOnly.snd (by assumption) ?_
    | with_reducible refine WorkOnly.sndA (by assumption) ?_
    | with_reducible refine WorkOnly.sndB (by assumption) ?_
    | (with_reducible refine WorkOnly.mk' ?_
       first
       | with_reducible assumption
       | with_reducible apply modRun_work
       | with_reducible apply clearTile_work
       | with_reducible apply tileAreaLoad_work
       | with_reducible apply modTile_work
       | with_reducible apply headWait_work
       | with_reducible apply registerHead_work
       | split
       | with_reducible refine WorkOnly.snd (by assumption) ?_
       | with_reducible refine WorkOnly.sndA (by assumption) ?_
       | with_reducible refine WorkOnly.sndB (by assumption) ?_)

theorem fillTiles_work {s0 : State} (s : State) (h0 : WorkOnly s0 s) :
    WorkOnly s0 (fillTiles s) := by
  unfold fillTiles
  repeat' first
    | with_reducible assumption
    | with_reducible apply forEach_work
    | with_reducible apply loadCtx_work
    | split
    | intro _

theorem startRun_work {s0 : State} (r : Nat) (place : Tab Nat) (basin : Tab Nat) (s : State) (h0 : WorkOnly s0 s) :
    WorkOnly s0 (startRun r place basin s) := by
  unfold startRun
  repeat' first
    | with_reducible assumption
    | with_reducible apply endRun_work
    | with_reducible apply fillTiles_work
    | with_reducible apply modRun_work
    | split

theorem tryRun_work {s0 : State} (r : Nat) (a : State × List Nat) (h0 : WorkOnly s0 a.1) : WorkOnly s0 (tryRun r a).1 := by
  unfold tryRun
  repeat' first
    | with_reducible assumption
    | with_reducible apply endRun_work
    | with_reducible apply forEach_work
    | with_reducible apply whenS_work
    | with_reducible apply pauseRun_work
    | with_reducible apply startRun_work
    | with_reducible apply modRun_work
    | split
    | intro _
    | dsimp only

theorem schedule_work {s0 : State} (s : State) (h0 : WorkOnly s0 s) : WorkOnly s0 (schedule s) := by
  unfold schedule
  split
  · have key : ∀ (l : List Nat) (a : State × List Nat), WorkOnly s0 a.1 → WorkOnly s0 (l.foldl (fun a r => tryRun r a) a).1 := by
      intro l
      induction l with
      | nil => exact fun a h => h
      | cons r t ih => exact fun a h => ih _ (tryRun_work r a h)
    exact key _ _ h0
  · exact h0

end Sys2Proof.Machine
end

