-- ==== Sys2Proof/Laws/Goes.lean ====
section
/-! SUPPORT. `CmdsGo` for every operation that a command causes beside its own end: live commands go on. -/

namespace Sys2Proof.Machine

theorem CmdGoes.refl (a : Cmd) : CmdGoes a a := ⟨⟨rfl, rfl, rfl, rfl, rfl⟩, fun _ h => h, id, id⟩

theorem CmdGoes.trans {a b c : Cmd} (x : CmdGoes a b) (y : CmdGoes b c) : CmdGoes a c :=
  ⟨⟨y.same.1.trans x.same.1, y.same.2.1.trans x.same.2.1, y.same.2.2.1.trans x.same.2.2.1, y.same.2.2.2.1.trans x.same.2.2.2.1,
    y.same.2.2.2.2.trans x.same.2.2.2.2⟩, fun o h => y.outs o (x.outs o h), fun h => y.done (x.done h), fun h => x.starts (y.starts h)⟩

theorem CmdsGo.refl (s : State) : CmdsGo s s := by
  unfold CmdsGo
  induction s.cmds with
  | nil => exact .nil
  | cons c t ih => exact .cons (CmdGoes.refl c) ih

theorem CmdsGo.trans {s t u : State} (a : CmdsGo s t) (b : CmdsGo t u) : CmdsGo s u := by
  unfold CmdsGo at *
  generalize s.cmds = x, t.cmds = y, u.cmds = z at a b
  induction a generalizing z with
  | nil => cases b; exact .nil
  | cons h _ ih =>
    cases b with
    | cons k r => exact .cons (h.trans k) (ih _ r)

/-- The first command with a handle goes on. -/
theorem CmdsGo.get {s t : State} (h : CmdsGo s t) (k : Nat) (c : Cmd) (e : getCmd? s k = some c) :
    ∃ d, getCmd? t k = some d ∧ CmdGoes c d := by
  unfold CmdsGo at h
  unfold getCmd? at *
  generalize s.cmds = x, t.cmds = y at *
  induction h with
  | nil => cases e
  | cons x _ ih =>
    rename_i a b _ _ _
    rw [List.find?_cons] at e
    rw [List.find?_cons, x.same.1]
    cases q : (a.handle == k) with
    | true => rw [q] at e; cases e; exact ⟨b, rfl, x⟩
    | false => rw [q] at e; exact ih e

theorem Done.goes {s t : State} {k : Nat} (h : Done s k) (g : CmdsGo s t) : Done t k := by
  obtain ⟨c, e, d⟩ := h
  obtain ⟨c', e', x⟩ := g.get k c e
  exact ⟨c', e', x.done d⟩

/-- A record update that leaves the rest alone, found by unification. -/
theorem CmdsGo.mk' {s0 s : State} {pending : List Instr} {out : List Output} {devTime : W64} {clockOn : Bool} {cap : Cap} {fns : Tab Fn} {tenants : Tab Tenant} {seqs : Tab Nat} {nextOrder : Nat} {halted : Bool} {rrTenant : Nat} {rrQueue : Tab Nat} {allocs : Tab Alloc} {granules : Tab Granule} {sharedPoison : Tab (List Nat)} {ctrs : Counters} {mem : Memories} {stks : Tab Stack} {held : List Held} {fops : Tab FurrowOp} {nextFop : Nat} {sluiceQ : Tab (List Nat)} {bundles : Tab Bundle} {runs : Tab Run} {tiles : Tab Tile} {adapters : Tab Adapter} {margin : W64} {far : Far} {edgesDown : List (Nat × Nat)} {edgeTries : List ((Nat × Nat) × Nat)} {dpt : Dpt} {hist : FaultHist} {test : SelfTest} {pm : PowerSt} {fuses : Fuses} {henua : Henua} {board : Board} {era : Nat} {freeCtr : Nat} (h : CmdsGo s0 s) :
    CmdsGo s0 ⟨pending, out, devTime, clockOn, cap, fns, tenants, seqs, s.cmds, nextOrder, halted, rrTenant, rrQueue, allocs, granules, sharedPoison, ctrs, mem, stks, held, fops, nextFop, sluiceQ, bundles, runs, tiles, adapters, margin, far, edgesDown, edgeTries, dpt, hist, test, pm, fuses, henua, board, era, freeCtr⟩ := h

/-- What a meaning answers as next state. -/
def ResCmdsGo (s0 : State) (r : Res) : Prop := ∀ t, r = .next t → CmdsGo s0 t

theorem ResCmdsGo.next {s0 s : State} (h : CmdsGo s0 s) : ResCmdsGo s0 (.next s) := by
  intro t e; cases e; exact h

theorem ResCmdsGo.fault {s0 : State} (f : Fault) : ResCmdsGo s0 (.fault f) := by
  intro t e; cases e

theorem CmdsGo.snd {α : Type} {s0 s : State} {a : α} {p : α × State} (e : p = (a, s)) (h : CmdsGo s0 p.2) : CmdsGo s0 s := by
  subst e; exact h

theorem CmdsGo.opt {α : Type} {s0 s : State} {a : α} {o : Option (α × State)} (e : o = some (a, s)) (h : ∀ x, o = some x → CmdsGo s0 x.2) :
    CmdsGo s0 s := h _ e

theorem CmdsGo.ident {s0 s : State} (h : CmdsGo s0 s) : CmdsGo s0 (id s) := h

theorem CmdsGo.foldl {α : Type} {s0 : State} (f : State → α → State) (l : List α) (s : State) (h : CmdsGo s0 s)
    (hf : ∀ s a, CmdsGo s0 s → CmdsGo s0 (f s a)) : CmdsGo s0 (l.foldl f s) := by
  induction l generalizing s with
  | nil => exact h
  | cons a t ih => exact ih (f s a) (hf s a h)

/-! ### Machine/Ops.lean -/

theorem forEach_goes {s0 : State} {α : Type} (f : α → State → State) (l : List α) (s : State)
    (h0 : ∀ (y0 : α) (y1 : State), CmdsGo s0 y1 → CmdsGo s0 (f y0 y1)) (h1 : CmdsGo s0 s) : CmdsGo s0 (forEach f l s) := by
  induction l generalizing s with
  | nil => exact h1
  | cons a t ih => exact ih (f a s) (h0 a s h1)

theorem whenS_goes {s0 : State} (c : Bool) (g : State → State) (s : State) (h0 : ∀ (y0 : State), CmdsGo s0 y0 → CmdsGo s0 (g y0)) (h1 : CmdsGo s0 s) :
    CmdsGo s0 (whenS c g s) := by
  unfold whenS
  repeat' first
    | with_reducible assumption
    | with_reducible apply h0
    | split

theorem modFn_goes {s0 : State} (f : Nat) (g : Fn → Fn) (s : State) (h0 : CmdsGo s0 s) :
    CmdsGo s0 (modFn f g s) := by
  unfold modFn
  repeat' first
    | with_reducible assumption
    | dsimp only
    | (with_reducible refine CmdsGo.mk' ?_; with_reducible assumption)

theorem modTile_goes {s0 : State} (t : Nat) (g : Tile → Tile) (s : State) (h0 : CmdsGo s0 s) :
    CmdsGo s0 (modTile t g s) := by
  unfold modTile
  repeat' first
    | with_reducible assumption
    | dsimp only
    | (with_reducible refine CmdsGo.mk' ?_; with_reducible assumption)

theorem modStk_goes {s0 : State} (k : Nat) (g : Stack → Stack) (s : State) (h0 : CmdsGo s0 s) :
    CmdsGo s0 (modStk k g s) := by
  unfold modStk
  repeat' first
    | with_reducible assumption
    | dsimp only
    | (with_reducible refine CmdsGo.mk' ?_; with_reducible assumption)

theorem modPort_goes {s0 : State} (p : Nat) (g : Port → Port) (s : State) (h0 : CmdsGo s0 s) :
    CmdsGo s0 (modPort p g s) := by
  unfold modPort
  repeat' first
    | with_reducible assumption
    | dsimp only
    | (with_reducible refine CmdsGo.mk' ?_; with_reducible assumption)

theorem modTen_goes {s0 : State} (t : Nat) (g : Tenant → Tenant) (s : State) (h0 : CmdsGo s0 s) :
    CmdsGo s0 (modTen t g s) := by
  unfold modTen
  repeat' first
    | with_reducible assumption
    | split
    | dsimp only
    | with_reducible refine CmdsGo.snd (by assumption) ?_
    | (with_reducible refine CmdsGo.mk' ?_; with_reducible assumption)

theorem modRun_goes {s0 : State} (r : Nat) (g : Run → Run) (s : State) (h0 : CmdsGo s0 s) :
    CmdsGo s0 (modRun r g s) := by
  unfold modRun
  repeat' first
    | with_reducible assumption
    | split
    | dsimp only
    | with_reducible refine CmdsGo.snd (by assumption) ?_
    | (with_reducible refine CmdsGo.mk' ?_; with_reducible assumption)

theorem modFop_goes {s0 : State} (i : Nat) (g : FurrowOp → FurrowOp) (s : State) (h0 : CmdsGo s0 s) :
    CmdsGo s0 (modFop i g s) := by
  unfold modFop
  repeat' first
    | with_reducible assumption
    | split
    | dsimp only
    | with_reducible refine CmdsGo.snd (by assumption) ?_
    | (with_reducible refine CmdsGo.mk' ?_; with_reducible assumption)

theorem modHenua_goes {s0 : State} (g : Henua → Henua) (s : State) (h0 : CmdsGo s0 s) :
    CmdsGo s0 (modHenua g s) := by
  unfold modHenua
  repeat' first
    | with_reducible assumption
    | dsimp only
    | (with_reducible refine CmdsGo.mk' ?_; with_reducible assumption)

theorem modDpt_goes {s0 : State} (g : Dpt → Dpt) (s : State) (h0 : CmdsGo s0 s) :
    CmdsGo s0 (modDpt g s) := by
  unfold modDpt
  repeat' first
    | with_reducible assumption
    | dsimp only
    | (with_reducible refine CmdsGo.mk' ?_; with_reducible assumption)

theorem modPm_goes {s0 : State} (g : PowerSt → PowerSt) (s : State) (h0 : CmdsGo s0 s) :
    CmdsGo s0 (modPm g s) := by
  unfold modPm
  repeat' first
    | with_reducible assumption
    | dsimp only
    | (with_reducible refine CmdsGo.mk' ?_; with_reducible assumption)

theorem modTest_goes {s0 : State} (g : SelfTest → SelfTest) (s : State) (h0 : CmdsGo s0 s) :
    CmdsGo s0 (modTest g s) := by
  unfold modTest
  repeat' first
    | with_reducible assumption
    | dsimp only
    | (with_reducible refine CmdsGo.mk' ?_; with_reducible assumption)

theorem emit_goes {s0 : State} (o : Output) (s : State) (h0 : CmdsGo s0 s) :
    CmdsGo s0 (emit o s) := by
  unfold emit
  repeat' first
    | with_reducible assumption
    | dsimp only
    | (with_reducible refine CmdsGo.mk' ?_; with_reducible assumption)

theorem freshByte_goes {s0 : State} (s : State) (h0 : CmdsGo s0 s) :
    CmdsGo s0 (freshByte s).2 := by
  unfold freshByte
  repeat' first
    | with_reducible assumption
    | dsimp only
    | (with_reducible refine CmdsGo.mk' ?_; with_reducible assumption)

theorem henuaEvent_goes {s0 : State} (cls : Nat) (severity : Nat) (payload : List Nat) (s : State) (h0 : CmdsGo s0 s) :
    CmdsGo s0 (henuaEvent cls severity payload s) := by
  unfold henuaEvent
  repeat' first
    | with_reducible assumption
    | with_reducible apply modHenua_goes
    | with_reducible apply whenS_goes
    | with_reducible apply emit_goes
    | split

theorem sendMsix_goes {s0 : State} (f : Nat) (v : Nat) (s : State) (h0 : CmdsGo s0 s) :
    CmdsGo s0 (sendMsix f v s) := by
  unfold sendMsix
  repeat' first
    | with_reducible assumption
    | with_reducible apply modFn_goes
    | with_reducible apply emit_goes
    | split
    | intro _
    | dsimp only

theorem vecEvent_goes {s0 : State} (f : Nat) (v : Nat) (s : State) (h0 : CmdsGo s0 s) :
    CmdsGo s0 (vecEvent f v s) := by
  unfold vecEvent
  repeat' first
    | with_reducible assumption
    | with_reducible apply sendMsix_goes
    | with_reducible apply modFn_goes
    | split
    | intro _
    | dsimp only

theorem setCause_goes {s0 : State} (f : Nat) (bit : Nat) (s : State) (h0 : CmdsGo s0 s) :
    CmdsGo s0 (setCause f bit s) := by
  unfold setCause
  repeat' first
    | with_reducible assumption
    | with_reducible apply whenS_goes
    | with_reducible apply vecEvent_goes
    | with_reducible apply modFn_goes
    | split
    | intro _
    | dsimp only

theorem setCauseAll_goes {s0 : State} (bit : Nat) (s : State) (h0 : CmdsGo s0 s) :
    CmdsGo s0 (setCauseAll bit s) := by
  unfold setCauseAll
  repeat' first
    | with_reducible assumption
    | with_reducible apply forEach_goes
    | with_reducible apply setCause_goes
    | intro _

theorem capChange_goes {s0 : State} (severity : Nat) (g : Cap → Cap) (s : State) (h0 : CmdsGo s0 s) :
    CmdsGo s0 (capChange severity g s) := by
  unfold capChange
  repeat' first
    | with_reducible assumption
    | with_reducible apply setCauseAll_goes
    | with_reducible apply henuaEvent_goes
    | split
    | dsimp only
    | (with_reducible refine CmdsGo.mk' ?_
       first
       | with_reducible assumption
       | with_reducible apply setCauseAll_goes
       | with_reducible apply henuaEvent_goes
       | split)

theorem recordFault_goes {s0 : State} (kind : Nat) (check : Nat) (u : UnitRef) (tenant : Nat) (detail : Nat) (bundle : List Byte) (s : State) (h0 : CmdsGo s0 s) :
    CmdsGo s0 (recordFault kind check u tenant detail bundle s) := by
  unfold recordFault
  repeat' first
    | with_reducible assumption
    | with_reducible apply henuaEvent_goes
    | with_reducible apply modHenua_goes
    | split
    | intro _
    | dsimp only
    | (with_reducible refine CmdsGo.mk' ?_; with_reducible assumption)

theorem modSum_goes {s0 : State} (u : UnitRef) (g : UnitSum → UnitSum) (s : State) (h0 : CmdsGo s0 s) :
    CmdsGo s0 (modSum u g s) := by
  unfold modSum
  repeat' first
    | with_reducible assumption
    | split
    | intro _
    | dsimp only
    | (with_reducible refine CmdsGo.mk' ?_; with_reducible assumption)

theorem retireCap_goes {s0 : State} (check : Nat) (u : UnitRef) (tenant : Nat) (s : State) (h0 : CmdsGo s0 s) :
    CmdsGo s0 (retireCap check u tenant s) := by
  unfold retireCap
  repeat' first
    | with_reducible assumption
    | with_reducible apply capChange_goes
    | with_reducible apply modSum_goes
    | with_reducible apply recordFault_goes
    | exact fun _ => rfl
    | exact fun _ => rfl
    | split
    | intro _
    | dsimp only
    | (with_reducible refine CmdsGo.mk' ?_
       first
       | with_reducible assumption
       | with_reducible apply capChange_goes
       | with_reducible apply modSum_goes
       | with_reducible apply recordFault_goes
       | split)

/-! ### Machine/Wake.lean -/

theorem startWake_goes {s0 : State} (code : Nat) (s : State) (h0 : CmdsGo s0 s) :
    CmdsGo s0 (startWake code s) := by
  unfold startWake
  repeat' first
    | with_reducible assumption
    | with_reducible apply modPm_goes
    | with_reducible apply freshByte_goes
    | split

theorem wakeSource_goes {s0 : State} (code : Nat) (idleToo : Bool) (s : State) (h0 : CmdsGo s0 s) :
    CmdsGo s0 (wakeSource code idleToo s) := by
  unfold wakeSource
  repeat' first
    | with_reducible assumption
    | with_reducible apply modPm_goes
    | with_reducible apply startWake_goes
    | split
    | intro _
    | dsimp only

/-! ### Machine/Ctr.lean -/

theorem modCmd_goes {s0 : State} (h : Nat) (g : Cmd → Cmd) (s : State) (h0 : CmdsGo s0 s) (hg : ∀ c, CmdGoes c (g c)) :
    CmdsGo s0 (modCmd h g s) := by
  refine h0.trans ?_
  unfold CmdsGo modCmd
  induction s.cmds with
  | nil => exact .nil
  | cons c t ih =>
    refine .cons ?_ ih
    dsimp only
    split
    · exact hg c
    · exact CmdGoes.refl c

theorem addOutcomes_keeps (new old : List Nat) : ∀ x ∈ old, x ∈ addOutcomes new old := by
  unfold addOutcomes
  induction new generalizing old with
  | nil => exact fun x h => h
  | cons a t ih =>
    intro x hx
    refine ih _ x ?_
    dsimp only
    split
    · exact hx
    · exact List.mem_append_left _ hx

theorem finishCmd_goes {s0 : State} (h : Nat) (outs : List Nat) (value : Nat) (s : State) (h0 : CmdsGo s0 s) :
    CmdsGo s0 (finishCmd h outs value s) := by
  refine modCmd_goes _ _ _ h0 fun c => ?_
  unfold Cmd.ended
  split
  · exact CmdGoes.refl c
  · exact ⟨⟨rfl, rfl, rfl, rfl, rfl⟩, addOutcomes_keeps _ _, fun _ => rfl, nofun⟩

theorem noteOutcome_goes {s0 : State} (h st : Nat) (s : State) (h0 : CmdsGo s0 s) : CmdsGo s0 (noteOutcome h st s) :=
  modCmd_goes _ _ _ h0 fun c => ⟨⟨rfl, rfl, rfl, rfl, rfl⟩, addOutcomes_keeps _ _, id, id⟩

theorem tellOwner_goes {s0 : State} (r : Release) (s : State) (h0 : CmdsGo s0 s) :
    CmdsGo s0 (tellOwner r s) := by
  unfold tellOwner
  repeat' first
    | with_reducible assumption
    | with_reducible apply finishCmd_goes
    | with_reducible apply wakeSource_goes
    | with_reducible apply modTile_goes
    | with_reducible apply headWait_goes
    | split

theorem ctrUpdate_goes {s0 : State} (c : Nat) (v : Nat) (ws : List Wait) (s : State) (h0 : CmdsGo s0 s) :
    CmdsGo s0 (ctrUpdate c v ws s) := by
  unfold ctrUpdate
  repeat' first
    | with_reducible assumption
    | with_reducible apply forEach_goes
    | with_reducible apply tellOwner_goes
    | with_reducible apply whenS_goes
    | with_reducible apply wakeSource_goes
    | intro _
    | dsimp only
    | (with_reducible refine CmdsGo.mk' ?_
       first
       | with_reducible assumption
       | with_reducible apply forEach_goes
       | with_reducible apply tellOwner_goes
       | with_reducible apply whenS_goes
       | with_reducible apply wakeSource_goes)

theorem signalPhys_goes {s0 : State} (c : Nat) (n : Nat) (s : State) (h0 : CmdsGo s0 s) :
    CmdsGo s0 (signalPhys c n s) := by
  unfold signalPhys
  repeat' first
    | with_reducible assumption
    | with_reducible apply ctrUpdate_goes
    | with_reducible apply whenS_goes
    | with_reducible apply modFn_goes
    | split
    | intro _
    | dsimp only
    | with_reducible refine CmdsGo.snd (by assumption) ?_
    | (with_reducible refine CmdsGo.mk' ?_
       first
       | with_reducible assumption
       | with_reducible apply ctrUpdate_goes
       | with_reducible apply whenS_goes
       | with_reducible apply modFn_goes
       | split
       | with_reducible refine CmdsGo.snd (by assumption) ?_)

theorem signalCtr_goes {s0 : State} (tenant : Nat) (k : Nat) (n : Nat) (s : State) (h0 : CmdsGo s0 s) :
    CmdsGo s0 (signalCtr tenant k n s) := by
  unfold signalCtr
  repeat' first
    | with_reducible assumption
    | with_reducible apply signalPhys_goes
    | split

theorem arriveWait_goes {s0 : State} (w : Wait) (s : State) (h0 : CmdsGo s0 s) :
    CmdsGo s0 (arriveWait w s) := by
  unfold arriveWait
  repeat' first
    | with_reducible assumption
    | with_reducible apply ctrUpdate_goes
    | dsimp only

theorem withdrawAll_goes {s0 : State} (p : Wait → Bool) (s : State) (h0 : CmdsGo s0 s) :
    CmdsGo s0 (withdrawAll p s) := by
  unfold withdrawAll
  repeat' first
    | with_reducible assumption
    | with_reducible apply forEach_goes
    | with_reducible apply ctrUpdate_goes
    | intro _
    | dsimp only
    | (with_reducible refine CmdsGo.mk' ?_
       first
       | with_reducible assumption
       | with_reducible apply forEach_goes
       | with_reducible apply ctrUpdate_goes)

theorem withdraw_goes {s0 : State} (o : WaitOwner) (s : State) (h0 : CmdsGo s0 s) :
    CmdsGo s0 (withdraw o s) := by
  unfold withdraw
  repeat' first
    | with_reducible assumption
    | with_reducible apply withdrawAll_goes
    | intro _
    | dsimp only

theorem pokePhys_goes {s0 : State} (c : Nat) (v : Nat) (s : State) (h0 : CmdsGo s0 s) :
    CmdsGo s0 (pokePhys c v s) := by
  unfold pokePhys
  repeat' first
    | with_reducible assumption
    | with_reducible apply ctrUpdate_goes
    | dsimp only
    | (with_reducible refine CmdsGo.mk' ?_
       first
       | with_reducible assumption
       | with_reducible apply ctrUpdate_goes)

/-! ### Machine/Mem.lean -/

/-- Folds that carry a mover beside a result. -/
theorem CmdsGo.foldlA {α β : Type} {s0 : State} (f : β × Acc → α → β × Acc) (l : List α) (b : β × Acc) (h : CmdsGo s0 b.2.s)
    (hf : ∀ b a, CmdsGo s0 b.2.s → CmdsGo s0 (f b a).2.s) : CmdsGo s0 (l.foldl f b).2.s := by
  induction l generalizing b with
  | nil => exact h
  | cons a t ih => exact ih (f b a) (hf b a h)

theorem CmdsGo.foldlS {α : Type} {s0 : State} (f : Acc → α → Acc) (l : List α) (b : Acc) (h : CmdsGo s0 b.s)
    (hf : ∀ b a, CmdsGo s0 b.s → CmdsGo s0 (f b a).s) : CmdsGo s0 (l.foldl f b).s := by
  induction l generalizing b with
  | nil => exact h
  | cons a t ih => exact ih (f b a) (hf b a h)

theorem CmdsGo.sndA {α : Type} {s0 : State} {a : α} {b : Acc} {p : α × Acc} (e : p = (a, b)) (h : CmdsGo s0 p.2.s) : CmdsGo s0 b.s := by
  subst e; exact h

theorem CmdsGo.sndB {α β : Type} {s0 : State} {a : α} {c : β} {b : Acc} {p : α × (β × Acc)} (e : p = (a, c, b)) (h : CmdsGo s0 p.2.2.s) :
    CmdsGo s0 b.s := by
  subst e; exact h

theorem hostStore_goes {s0 : State} (addr : Nat) (bs : List Byte) (s : State) (h0 : CmdsGo s0 s) :
    CmdsGo s0 (hostStore addr bs s) := by
  unfold hostStore
  repeat' first
    | with_reducible assumption
    | dsimp only
    | (with_reducible refine CmdsGo.mk' ?_; with_reducible assumption)

theorem hostWrite_goes {s0 : State} (fn : Nat) (addr : Nat) (bs : List Byte) (s : State) (h0 : CmdsGo s0 s) :
    CmdsGo s0 (hostWrite fn addr bs s) := by
  unfold hostWrite
  repeat' first
    | with_reducible assumption
    | with_reducible apply emit_goes
    | with_reducible apply hostStore_goes
    | dsimp only

theorem hostFetch_goes {s0 : State} (fn : Nat) (addr : Nat) (len : Nat) (s : State) (h0 : CmdsGo s0 s) :
    CmdsGo s0 (hostFetch fn addr len s) := by
  unfold hostFetch
  repeat' first
    | with_reducible assumption
    | with_reducible apply emit_goes
    | dsimp only

theorem openRow_goes {s0 : State} (blk : Nat) (s : State) (h0 : CmdsGo s0 s) :
    CmdsGo s0 (openRow blk s) := by
  unfold openRow
  repeat' first
    | with_reducible assumption
    | with_reducible apply modStk_goes
    | intro _
    | dsimp only
    | (with_reducible refine CmdsGo.mk' ?_
       first
       | with_reducible assumption
       | with_reducible apply modStk_goes)

theorem countCe_goes {s0 : State} (blk : Nat) (sym : Nat) (s : State) (h0 : CmdsGo s0 s) :
    CmdsGo s0 (countCe blk sym s) := by
  unfold countCe
  repeat' first
    | with_reducible assumption
    | with_reducible apply modStk_goes
    | with_reducible apply whenS_goes
    | with_reducible apply setCause_goes
    | with_reducible apply henuaEvent_goes
    | split
    | intro _

theorem countUe_goes {s0 : State} (blk : Nat) (repaired : Bool) (s : State) (h0 : CmdsGo s0 s) :
    CmdsGo s0 (countUe blk repaired s) := by
  unfold countUe
  repeat' first
    | with_reducible assumption
    | with_reducible apply modStk_goes
    | with_reducible apply whenS_goes
    | with_reducible apply henuaEvent_goes

theorem countPoison_goes {s0 : State} (blk : Nat) (s : State) (h0 : CmdsGo s0 s) :
    CmdsGo s0 (countPoison blk s) := by
  unfold countPoison
  repeat' first
    | with_reducible assumption
    | with_reducible apply modStk_goes

theorem storeBlk_goes {s0 : State} (blk : Nat) (data : List Byte) (poison : Bool) (source : Nat) (s : State) (h0 : CmdsGo s0 s) :
    CmdsGo s0 (storeBlk blk data poison source s) := by
  unfold storeBlk
  repeat' first
    | with_reducible assumption
    | with_reducible apply modStk_goes
    | with_reducible apply openRow_goes
    | split
    | intro _
    | dsimp only
    | with_reducible refine CmdsGo.snd (by assumption) ?_
    | with_reducible refine CmdsGo.sndA (by assumption) ?_
    | with_reducible refine CmdsGo.sndB (by assumption) ?_
    | (with_reducible refine CmdsGo.mk' ?_
       first
       | with_reducible assumption
       | with_reducible apply modStk_goes
       | with_reducible apply openRow_goes
       | split
       | with_reducible refine CmdsGo.snd (by assumption) ?_
       | with_reducible refine CmdsGo.sndA (by assumption) ?_
       | with_reducible refine CmdsGo.sndB (by assumption) ?_)

theorem mergeDrop_goes {s0 : State} (blk : Nat) (s : State) (h0 : CmdsGo s0 s) :
    CmdsGo s0 (mergeDrop blk s) := by
  unfold mergeDrop
  repeat' first
    | with_reducible assumption
    | with_reducible apply modStk_goes

theorem poisonSharedPage_goes {s0 : State} (off : Nat) (s : State) (h0 : CmdsGo s0 s) :
    CmdsGo s0 (poisonSharedPage off s) := by
  unfold poisonSharedPage
  repeat' first
    | with_reducible assumption
    | with_reducible apply setCause_goes
    | with_reducible apply henuaEvent_goes
    | split
    | dsimp only
    | (with_reducible refine CmdsGo.mk' ?_; with_reducible assumption)

theorem foundUe_goes {s0 : State} (blk : Nat) (data : List Byte) (s : State) (h0 : CmdsGo s0 s) :
    CmdsGo s0 (foundUe blk data s).2 := by
  unfold foundUe
  repeat' first
    | with_reducible assumption
    | with_reducible apply countUe_goes
    | with_reducible apply poisonSharedPage_goes
    | with_reducible apply countCe_goes
    | with_reducible apply storeBlk_goes
    | with_reducible apply openRow_goes
    | split
    | dsimp only
    | with_reducible refine CmdsGo.snd (by assumption) ?_
    | with_reducible refine CmdsGo.sndA (by assumption) ?_
    | with_reducible refine CmdsGo.sndB (by assumption) ?_

theorem decodeBlk_goes {s0 : State} (blk : Nat) (sB : State) (h0 : CmdsGo s0 sB) :
    CmdsGo s0 (decodeBlk blk sB).2 := by
  unfold decodeBlk
  repeat' first
    | with_reducible assumption
    | with_reducible apply openRow_goes
    | with_reducible apply countCe_goes
    | with_reducible apply countPoison_goes
    | with_reducible apply foundUe_goes
    | split
    | dsimp only
    | with_reducible refine CmdsGo.snd (by assumption) ?_
    | with_reducible refine CmdsGo.sndA (by assumption) ?_
    | with_reducible refine CmdsGo.sndB (by assumption) ?_

theorem modifyBlk_goes {s0 : State} (blk : Nat) (data : List Byte) (mask : Nat) (poison : Bool) (source : Nat) (s : State) (h0 : CmdsGo s0 s) :
    CmdsGo s0 (modifyBlk blk data mask poison source s) := by
  unfold modifyBlk
  repeat' first
    | with_reducible assumption
    | with_reducible apply decodeBlk_goes
    | with_reducible apply storeBlk_goes
    | split
    | dsimp only

theorem flushEntry_goes {s0 : State} (e : MergeEntry) (s : State) (h0 : CmdsGo s0 s) :
    CmdsGo s0 (flushEntry e s) := by
  unfold flushEntry
  repeat' first
    | with_reducible assumption
    | with_reducible apply mergeDrop_goes
    | with_reducible apply storeBlk_goes
    | with_reducible apply modifyBlk_goes
    | with_reducible apply modStk_goes
    | split
    | intro _
    | dsimp only
    | (with_reducible refine CmdsGo.mk' ?_
       first
       | with_reducible assumption
       | with_reducible apply mergeDrop_goes
       | with_reducible apply storeBlk_goes
       | with_reducible apply modifyBlk_goes
       | with_reducible apply modStk_goes
       | split)

theorem flushBlk_goes {s0 : State} (blk : Nat) (s : State) (h0 : CmdsGo s0 s) :
    CmdsGo s0 (flushBlk blk s) := by
  unfold flushBlk
  repeat' first
    | with_reducible assumption
    | with_reducible apply flushEntry_goes
    | split

theorem cancelBacks_goes {s0 : State} (blk : Nat) (s : State) (h0 : CmdsGo s0 s) :
    CmdsGo s0 (cancelBacks blk s) := by
  unfold cancelBacks
  repeat' first
    | with_reducible assumption
    | with_reducible apply modStk_goes
    | intro _
    | dsimp only
    | (with_reducible refine CmdsGo.mk' ?_
       first
       | with_reducible assumption
       | with_reducible apply modStk_goes)

theorem mergeWrite_goes {s0 : State} (blk : Nat) (data : List Byte) (mask : Nat) (source : Nat) (sB : State) (h0 : CmdsGo s0 sB) :
    CmdsGo s0 (mergeWrite blk data mask source sB) := by
  unfold mergeWrite
  repeat' first
    | with_reducible assumption
    | with_reducible apply cancelBacks_goes
    | with_reducible apply flushEntry_goes
    | with_reducible apply modStk_goes
    | split
    | intro _
    | dsimp only
    | with_reducible refine CmdsGo.snd (by assumption) ?_
    | with_reducible refine CmdsGo.sndA (by assumption) ?_
    | with_reducible refine CmdsGo.sndB (by assumption) ?_
    | (with_reducible refine CmdsGo.mk' ?_
       first
       | with_reducible assumption
       | with_reducible apply cancelBacks_goes
       | with_reducible apply flushEntry_goes
       | with_reducible apply modStk_goes
       | split
       | with_reducible refine CmdsGo.snd (by assumption) ?_
       | with_reducible refine CmdsGo.sndA (by assumption) ?_
       | with_reducible refine CmdsGo.sndB (by assumption) ?_)

theorem readStack_goes {s0 : State} (blk : Nat) (s : State) (h0 : CmdsGo s0 s) :
    CmdsGo s0 (readStack blk s).2 := by
  unfold readStack
  repeat' first
    | with_reducible assumption
    | with_reducible apply decodeBlk_goes
    | with_reducible apply flushBlk_goes
    | split

theorem writeStack_goes {s0 : State} (blk : Nat) (data : List Byte) (mask : Nat) (poison : Bool) (source : Nat) (s : State) (h0 : CmdsGo s0 s) :
    CmdsGo s0 (writeStack blk data mask poison source s) := by
  unfold writeStack
  repeat' first
    | with_reducible assumption
    | with_reducible apply storeBlk_goes
    | with_reducible apply mergeDrop_goes
    | with_reducible apply modifyBlk_goes
    | with_reducible apply flushBlk_goes
    | with_reducible apply mergeWrite_goes
    | split
    | dsimp only

theorem furrowRead_goes {s0 : State} (blk : Nat) (s : State) (h0 : CmdsGo s0 s) :
    CmdsGo s0 (furrowRead blk s).2 := by
  unfold furrowRead
  repeat' first
    | with_reducible assumption
    | with_reducible apply flushBlk_goes
    | with_reducible apply readStack_goes
    | with_reducible apply storeBlk_goes
    | split
    | dsimp only

theorem setZ_goes {s0 : State} (space : Nat) (m : Mem) (p : List Nat) (s : State) (h0 : CmdsGo s0 s) :
    CmdsGo s0 (setZ space m p s) := by
  unfold setZ
  repeat' first
    | with_reducible assumption
    | split
    | dsimp only
    | with_reducible refine CmdsGo.snd (by assumption) ?_
    | with_reducible refine CmdsGo.sndA (by assumption) ?_
    | with_reducible refine CmdsGo.sndB (by assumption) ?_
    | (with_reducible refine CmdsGo.mk' ?_
       first
       | with_reducible assumption
       | split
       | with_reducible refine CmdsGo.snd (by assumption) ?_
       | with_reducible refine CmdsGo.sndA (by assumption) ?_
       | with_reducible refine CmdsGo.sndB (by assumption) ?_)

theorem readBlk_goes {s0 : State} (source : Nat) (space : Nat) (inst : Nat) (off : Nat) (s : State) (h0 : CmdsGo s0 s) :
    CmdsGo s0 (readBlk source space inst off s).2 := by
  unfold readBlk
  repeat' first
    | with_reducible assumption
    | with_reducible apply furrowRead_goes
    | with_reducible apply readStack_goes
    | split
    | intro _
    | dsimp only
    | with_reducible refine CmdsGo.snd (by assumption) ?_
    | with_reducible refine CmdsGo.sndA (by assumption) ?_
    | with_reducible refine CmdsGo.sndB (by assumption) ?_
    | (with_reducible refine CmdsGo.mk' ?_
       first
       | with_reducible assumption
       | with_reducible apply furrowRead_goes
       | with_reducible apply readStack_goes
       | split
       | with_reducible refine CmdsGo.snd (by assumption) ?_
       | with_reducible refine CmdsGo.sndA (by assumption) ?_
       | with_reducible refine CmdsGo.sndB (by assumption) ?_)

theorem farWrite_goes {s0 : State} (off : Nat) (bs : List Byte) (p : List Nat) (s : State) (h0 : CmdsGo s0 s) :
    CmdsGo s0 (farWrite off bs p s) := by
  unfold farWrite
  repeat' first
    | with_reducible assumption
    | dsimp only
    | (with_reducible refine CmdsGo.mk' ?_; with_reducible assumption)

theorem hostBlk_goes {s0 : State} (fn : Nat) (off : Nat) (data : List Byte) (mask : Nat) (poison : Bool) (s : State) (h0 : CmdsGo s0 s) :
    CmdsGo s0 (hostBlk fn off data mask poison s) := by
  unfold hostBlk
  repeat' first
    | with_reducible assumption
    | with_reducible apply hostWrite_goes
    | with_reducible apply emit_goes
    | split
    | dsimp only

theorem writeBlk_goes {s0 : State} (fn : Nat) (space : Nat) (inst : Nat) (off : Nat) (data : List Byte) (mask : Nat) (poison : Bool) (source : Nat) (s : State) (h0 : CmdsGo s0 s) :
    CmdsGo s0 (writeBlk fn space inst off data mask poison source s) := by
  unfold writeBlk
  repeat' first
    | with_reducible assumption
    | with_reducible apply hostBlk_goes
    | with_reducible apply farWrite_goes
    | with_reducible apply writeStack_goes
    | with_reducible apply setZ_goes
    | split
    | intro _
    | dsimp only
    | with_reducible refine CmdsGo.snd (by assumption) ?_
    | with_reducible refine CmdsGo.sndA (by assumption) ?_
    | with_reducible refine CmdsGo.sndB (by assumption) ?_

theorem Acc.start_goes {s0 : State} (source : Nat) (s : State) (h0 : CmdsGo s0 s) :
    CmdsGo s0 (Acc.start source s).s := by
  unfold Acc.start
  repeat' first
    | with_reducible assumption
    | dsimp only

theorem freeBlock_goes {s0 : State} (s : State) (h0 : CmdsGo s0 s) :
    CmdsGo s0 (freeBlock s).2 := by
  unfold freeBlock
  repeat' first
    | with_reducible assumption
    | intro _
    | dsimp only
    | (with_reducible refine CmdsGo.mk' ?_; with_reducible assumption)

theorem readRaced_goes {s0 : State} (source : Nat) (space : Nat) (inst : Nat) (off : Nat) (s : State) (h0 : CmdsGo s0 s) :
    CmdsGo s0 (readRaced source space inst off s).2 := by
  unfold readRaced
  repeat' first
    | with_reducible assumption
    | with_reducible apply readBlk_goes
    | with_reducible apply freeBlock_goes
    | split
    | dsimp only
    | (with_reducible refine CmdsGo.mk' ?_
       first
       | with_reducible assumption
       | with_reducible apply readBlk_goes
       | with_reducible apply freeBlock_goes
       | split)

theorem addOut_goes {s0 : State} (st : Nat) (c : Bool) (a : Acc) (h0 : CmdsGo s0 a.s) :
    CmdsGo s0 (addOut st c a).s := by
  unfold addOut
  repeat' first
    | with_reducible assumption
    | split

theorem rdBlk_goes {s0 : State} (space : Nat) (inst : Nat) (off : Nat) (a : Acc) (h0 : CmdsGo s0 a.s) :
    CmdsGo s0 (rdBlk space inst off a).2.s := by
  unfold rdBlk
  repeat' first
    | with_reducible assumption
    | with_reducible apply readRaced_goes
    | with_reducible apply hostFetch_goes
    | with_reducible apply addOut_goes
    | split
    | dsimp only
    | with_reducible refine CmdsGo.snd (by assumption) ?_
    | with_reducible refine CmdsGo.sndA (by assumption) ?_
    | with_reducible refine CmdsGo.sndB (by assumption) ?_
    | (with_reducible refine CmdsGo.mk' ?_
       first
       | with_reducible assumption
       | with_reducible apply readRaced_goes
       | with_reducible apply hostFetch_goes
       | with_reducible apply addOut_goes
       | split
       | with_reducible refine CmdsGo.snd (by assumption) ?_
       | with_reducible refine CmdsGo.sndA (by assumption) ?_
       | with_reducible refine CmdsGo.sndB (by assumption) ?_)

theorem putBlk_goes {s0 : State} (space : Nat) (inst : Nat) (off : Nat) (data : List Byte) (mask : Nat) (poison : Bool) (a : Acc) (h0 : CmdsGo s0 a.s) :
    CmdsGo s0 (putBlk space inst off data mask poison a).s := by
  unfold putBlk
  repeat' first
    | with_reducible assumption
    | with_reducible apply addOut_goes
    | with_reducible apply writeBlk_goes
    | dsimp only
    | (with_reducible refine CmdsGo.mk' ?_
       first
       | with_reducible assumption
       | with_reducible apply addOut_goes
       | with_reducible apply writeBlk_goes)

theorem Acc.stop_goes {s0 : State} (st : Nat) (a : Acc) (h0 : CmdsGo s0 a.s) :
    CmdsGo s0 (Acc.stop st a).s := by
  unfold Acc.stop
  repeat' first
    | with_reducible assumption
    | with_reducible apply addOut_goes
    | dsimp only
    | (with_reducible refine CmdsGo.mk' ?_
       first
       | with_reducible assumption
       | with_reducible apply addOut_goes)

theorem wrBlk_goes {s0 : State} (space : Nat) (inst : Nat) (off : Nat) (data : List Byte) (mask : Nat) (poison : Bool) (a : Acc) (h0 : CmdsGo s0 a.s) :
    CmdsGo s0 (wrBlk space inst off data mask poison a).s := by
  unfold wrBlk
  repeat' first
    | with_reducible assumption
    | with_reducible apply Acc.stop_goes
    | with_reducible apply addOut_goes
    | with_reducible apply rdBlk_goes
    | with_reducible apply putBlk_goes
    | split
    | dsimp only
    | (with_reducible refine CmdsGo.mk' ?_
       first
       | with_reducible assumption
       | with_reducible apply Acc.stop_goes
       | with_reducible apply addOut_goes
       | with_reducible apply rdBlk_goes
       | with_reducible apply putBlk_goes
       | split)

theorem rdBytesGo_goes {s0 : State} (space inst fuel off len : Nat) (a : Acc) (h0 : CmdsGo s0 a.s) :
    CmdsGo s0 (rdBytesGo space inst fuel off len a).2.s := by
  induction fuel generalizing off len a with
  | zero => exact h0
  | succ n ih =>
    unfold rdBytesGo
    split
    · exact h0
    · exact ih _ _ _ (rdBlk_goes _ _ _ _ h0)

theorem rdBytes_goes {s0 : State} (space : Nat) (inst : Nat) (off : Nat) (len : Nat) (a : Acc) (h0 : CmdsGo s0 a.s) :
    CmdsGo s0 (rdBytes space inst off len a).2.s := by
  unfold rdBytes
  repeat' first
    | with_reducible assumption
    | with_reducible apply rdBytesGo_goes

theorem wrBytesGo_goes {s0 : State} (space inst fuel off : Nat) (bs : List Byte) (p : Bool) (a : Acc) (h0 : CmdsGo s0 a.s) :
    CmdsGo s0 (wrBytesGo space inst fuel off bs p a).s := by
  induction fuel generalizing off bs a with
  | zero => exact h0
  | succ n ih =>
    unfold wrBytesGo
    split
    · exact h0
    · exact ih _ _ _ (wrBlk_goes _ _ _ _ _ _ _ h0)

theorem wrBytes_goes {s0 : State} (space : Nat) (inst : Nat) (off : Nat) (bs : List Byte) (poison : Bool) (a : Acc) (h0 : CmdsGo s0 a.s) :
    CmdsGo s0 (wrBytes space inst off bs poison a).s := by
  unfold wrBytes
  repeat' first
    | with_reducible assumption
    | with_reducible apply wrBytesGo_goes

theorem copyRunGo_goes {s0 : State} (sp si dp di fuel src dst len : Nat) (a : Acc) (h0 : CmdsGo s0 a.s) :
    CmdsGo s0 (copyRunGo sp si dp di fuel src dst len a).s := by
  induction fuel generalizing src dst len a with
  | zero => exact h0
  | succ n ih =>
    unfold copyRunGo
    split
    · exact h0
    · exact ih _ _ _ _ (wrBytes_goes _ _ _ _ _ _ (rdBytes_goes _ _ _ _ _ h0))

theorem copyRun_goes {s0 : State} (sp : Nat) (si : Nat) (src : Nat) (dp : Nat) (di : Nat) (dst : Nat) (len : Nat) (a : Acc) (h0 : CmdsGo s0 a.s) :
    CmdsGo s0 (copyRun sp si src dp di dst len a).s := by
  unfold copyRun
  repeat' first
    | with_reducible assumption
    | with_reducible apply copyRunGo_goes

/-! ### Machine/Operands.lean -/

theorem rdEl_goes {s0 : State} (d : Desc) (n : Nat) (a : Acc) (h0 : CmdsGo s0 a.s) :
    CmdsGo s0 (rdEl d n a).2.s := by
  unfold rdEl
  repeat' first
    | with_reducible assumption
    | with_reducible apply rdBytes_goes

theorem rdEls_goes {s0 : State} (d : Desc) (x0 : Nat) (x1 : Nat) (x2 : Acc) (h0 : CmdsGo s0 x2.s) :
    CmdsGo s0 (rdEls d x0 x1 x2).2.s := by
  fun_induction rdEls d x0 x1 x2
  all_goals try subst_vars
  all_goals
    repeat' first
      | with_reducible assumption
      | with_reducible apply rdEl_goes
      | split
      | dsimp only
      | with_reducible refine CmdsGo.snd (by assumption) ?_
      | with_reducible refine CmdsGo.sndA (by assumption) ?_
      | with_reducible refine CmdsGo.sndB (by assumption) ?_
      | with_reducible apply_assumption

theorem lineVals_goes {s0 : State} (f : Nat → Acc → (Nat × Bool) × Acc) (x0 : List (Option Nat)) (x1 : Acc) (h0 : ∀ (y0 : Nat) (y1 : Acc), CmdsGo s0 y1.s → CmdsGo s0 (f y0 y1).2.s) (h1 : CmdsGo s0 x1.s) :
    CmdsGo s0 (lineVals f x0 x1).2.s := by
  fun_induction lineVals f x0 x1
  all_goals try subst_vars
  all_goals
    repeat' first
      | with_reducible assumption
      | with_reducible apply h0
      | split
      | dsimp only
      | with_reducible refine CmdsGo.snd (by assumption) ?_
      | with_reducible refine CmdsGo.sndA (by assumption) ?_
      | with_reducible refine CmdsGo.sndB (by assumption) ?_
      | with_reducible apply_assumption

theorem slotVals_goes {s0 : State} (d : Desc) (f : SlotFn) (l : List (Option Nat)) (a : Acc)
    (h0 : ∀ (n : Nat) (b : Acc), CmdsGo s0 b.s → CmdsGo s0 (f n b).2.s) (h1 : CmdsGo s0 a.s) : CmdsGo s0 (slotVals d f l a).2.s := by
  induction l generalizing a with
  | nil => exact h1
  | cons o t ih =>
    cases o with
    | none => exact ih _ h1
    | some n =>
      unfold slotVals
      dsimp only
      split
      · exact ih _ (h0 _ _ h1)
      · refine ih _ ?_
        split
        · exact rdEl_goes _ _ _ (h0 _ _ h1)
        · exact h0 _ _ h1

theorem wrPiece_goes {s0 : State} (d : Desc) (f : SlotFn) (l : Line) (a : Acc) (h0 : ∀ (y0 : Nat) (y1 : Acc), CmdsGo s0 y1.s → CmdsGo s0 (f y0 y1).2.s) (h1 : CmdsGo s0 a.s) :
    CmdsGo s0 (wrPiece d f l a).s := by
  unfold wrPiece
  repeat' first
    | with_reducible assumption
    | with_reducible apply h0
    | with_reducible apply slotVals_goes
    | with_reducible apply wrBlk_goes
    | split
    | intro _
    | dsimp only

theorem wrPieces_goes {s0 : State} (d : Desc) (f : SlotFn) (x0 : List Line) (x1 : Acc) (h0 : ∀ (y0 : Nat) (y1 : Acc), CmdsGo s0 y1.s → CmdsGo s0 (f y0 y1).2.s) (h1 : CmdsGo s0 x1.s) :
    CmdsGo s0 (wrPieces d f x0 x1).s := by
  fun_induction wrPieces d f x0 x1
  all_goals try subst_vars
  all_goals
    repeat' first
      | with_reducible assumption
      | with_reducible apply h0
      | with_reducible apply wrPiece_goes
      | split
      | dsimp only
      | with_reducible refine CmdsGo.snd (by assumption) ?_
      | with_reducible refine CmdsGo.sndA (by assumption) ?_
      | with_reducible refine CmdsGo.sndB (by assumption) ?_
      | with_reducible apply_assumption

theorem wrEl_goes {s0 : State} (d : Desc) (n : Nat) (v : Nat) (poison : Bool) (a : Acc) (h0 : CmdsGo s0 a.s) :
    CmdsGo s0 (wrEl d n v poison a).s := by
  unfold wrEl
  repeat' first
    | with_reducible assumption
    | with_reducible apply wrPiece_goes
    | split
    | intro _
    | dsimp only

theorem wrLineGo_goes {s0 : State} (d : Desc) (per : Nat) (x0 : Nat) (x1 : Nat) (x2 : List (Nat × Bool)) (x3 : Acc) (h0 : CmdsGo s0 x3.s) :
    CmdsGo s0 (wrLineGo d per x0 x1 x2 x3).s := by
  fun_induction wrLineGo d per x0 x1 x2 x3
  all_goals try subst_vars
  all_goals
    repeat' first
      | with_reducible assumption
      | with_reducible apply wrBlk_goes
      | split
      | dsimp only
      | with_reducible refine CmdsGo.snd (by assumption) ?_
      | with_reducible refine CmdsGo.sndA (by assumption) ?_
      | with_reducible refine CmdsGo.sndB (by assumption) ?_
      | with_reducible apply_assumption

theorem wrLines_goes {s0 : State} (d : Desc) (f : Nat → Acc → (Nat × Bool) × Acc) (x0 : List Line) (x1 : Acc) (h0 : ∀ (y0 : Nat) (y1 : Acc), CmdsGo s0 y1.s → CmdsGo s0 (f y0 y1).2.s) (h1 : CmdsGo s0 x1.s) :
    CmdsGo s0 (wrLines d f x0 x1).s := by
  fun_induction wrLines d f x0 x1
  all_goals try subst_vars
  all_goals
    repeat' first
      | with_reducible assumption
      | with_reducible apply h0
      | with_reducible apply lineVals_goes
      | with_reducible apply wrLineGo_goes
      | split
      | dsimp only
      | with_reducible refine CmdsGo.snd (by assumption) ?_
      | with_reducible refine CmdsGo.sndA (by assumption) ?_
      | with_reducible refine CmdsGo.sndB (by assumption) ?_
      | with_reducible apply_assumption

theorem wrTensor_goes {s0 : State} (d : Desc) (f : Nat → Acc → (Nat × Bool) × Acc) (a : Acc) (h0 : ∀ (y0 : Nat) (y1 : Acc), CmdsGo s0 y1.s → CmdsGo s0 (f y0 y1).2.s) (h1 : CmdsGo s0 a.s) :
    CmdsGo s0 (wrTensor d f a).s := by
  unfold wrTensor
  repeat' first
    | with_reducible assumption
    | with_reducible apply h0
    | with_reducible apply wrLines_goes

theorem freshVal_goes {s0 : State} (x0 : Nat) (x1 : State) (h0 : CmdsGo s0 x1) :
    CmdsGo s0 (freshVal x0 x1).2 := by
  fun_induction freshVal x0 x1
  all_goals try subst_vars
  all_goals
    repeat' first
      | with_reducible assumption
      | with_reducible apply freshByte_goes
      | split
      | dsimp only
      | with_reducible refine CmdsGo.snd (by assumption) ?_
      | with_reducible refine CmdsGo.sndA (by assumption) ?_
      | with_reducible refine CmdsGo.sndB (by assumption) ?_
      | with_reducible apply_assumption

theorem scramble_goes {s0 : State} (d : Desc) (s : State) (h0 : CmdsGo s0 s) :
    CmdsGo s0 (scramble d s) := by
  unfold scramble
  repeat' first
    | with_reducible assumption
    | with_reducible apply Acc.start_goes
    | with_reducible apply wrTensor_goes
    | with_reducible apply freshVal_goes
    | intro _

/-! ### Machine/Sched.lean -/

theorem setArea_goes {s0 : State} (space : Nat) (inst : Nat) (lo : Nat) (hi : Nat) (cells : List (Nat × Byte)) (poison : List Nat) (s : State) (h0 : CmdsGo s0 s) :
    CmdsGo s0 (setArea space inst lo hi cells poison s) := by
  unfold setArea
  repeat' first
    | with_reducible assumption
    | with_reducible apply setZ_goes
    | split
    | with_reducible refine CmdsGo.foldl _ _ _ ?_ ?_
    | intro _
    | dsimp only
    | with_reducible refine CmdsGo.foldlA _ _ _ ?_ ?_
    | with_reducible refine CmdsGo.foldlS _ _ _ ?_ ?_

theorem tileAreaLoad_goes {s0 : State} (t : Nat) (n : Nat) (cells : List (Nat × Byte)) (poison : List Nat) (s : State) (h0 : CmdsGo s0 s) :
    CmdsGo s0 (tileAreaLoad t n cells poison s) := by
  unfold tileAreaLoad
  repeat' first
    | with_reducible assumption
    | with_reducible apply setArea_goes
    | intro _
    | dsimp only

theorem clearTile_goes {s0 : State} (t : Nat) (s : State) (h0 : CmdsGo s0 s) :
    CmdsGo s0 (clearTile t s) := by
  unfold clearTile
  repeat' first
    | with_reducible assumption
    | with_reducible apply modTile_goes
    | intro _
    | dsimp only
    | (with_reducible refine CmdsGo.mk' ?_
       first
       | with_reducible assumption
       | with_reducible apply modTile_goes)

theorem countShared_goes {s0 : State} (tenant : Nat) (s : State) (h0 : CmdsGo s0 s) :
    CmdsGo s0 (countShared tenant s) := by
  unfold countShared
  repeat' first
    | with_reducible assumption
    | with_reducible apply modFn_goes
    | intro _
    | dsimp only
    | (with_reducible refine CmdsGo.mk' ?_
       first
       | with_reducible assumption
       | with_reducible apply modFn_goes)

theorem countSwitch_goes {s0 : State} (tenant : Nat) (since : Nat) (s : State) (h0 : CmdsGo s0 s) :
    CmdsGo s0 (countSwitch tenant since s) := by
  unfold countSwitch
  repeat' first
    | with_reducible assumption
    | with_reducible apply modFn_goes

theorem pauseDone_goes {s0 : State} (t : Nat) (s : State) (h0 : CmdsGo s0 s) :
    CmdsGo s0 (pauseDone t s) := by
  unfold pauseDone
  repeat' first
    | with_reducible assumption
    | with_reducible apply forEach_goes
    | with_reducible apply modCmd_goes
    | with_reducible apply finishCmd_goes
    | exact fun c => ⟨⟨rfl, rfl, rfl, rfl, rfl⟩, addOutcomes_keeps _ _, id, id⟩
    | exact fun c => ⟨⟨rfl, rfl, rfl, rfl, rfl⟩, fun _ h => h, id, id⟩
    | split
    | intro _
    | dsimp only
    | with_reducible refine CmdsGo.snd (by assumption) ?_
    | with_reducible refine CmdsGo.sndA (by assumption) ?_
    | with_reducible refine CmdsGo.sndB (by assumption) ?_
    | (with_reducible refine CmdsGo.mk' ?_
       first
       | with_reducible assumption
       | with_reducible apply forEach_goes
       | with_reducible apply modCmd_goes
       | with_reducible apply finishCmd_goes
       | split
       | with_reducible refine CmdsGo.snd (by assumption) ?_
       | with_reducible refine CmdsGo.sndA (by assumption) ?_
       | with_reducible refine CmdsGo.sndB (by assumption) ?_)

theorem saveBasins_goes {s0 : State} (r : Nat) (s : State) (h0 : CmdsGo s0 s) :
    CmdsGo s0 (saveBasins r s) := by
  unfold saveBasins
  repeat' first
    | with_reducible assumption
    | with_reducible apply forEach_goes
    | with_reducible apply modRun_goes
    | split
    | intro _

theorem checkPaused_goes {s0 : State} (r : Nat) (s : State) (h0 : CmdsGo s0 s) :
    CmdsGo s0 (checkPaused r s) := by
  unfold checkPaused
  repeat' first
    | with_reducible assumption
    | with_reducible apply pauseDone_goes
    | with_reducible apply countSwitch_goes
    | with_reducible apply modRun_goes
    | with_reducible apply saveBasins_goes
    | split

theorem saveFrame_goes {s0 : State} (t : Nat) (s : State) (h0 : CmdsGo s0 s) :
    CmdsGo s0 (saveFrame t s) := by
  unfold saveFrame
  repeat' first
    | with_reducible assumption
    | with_reducible apply clearTile_goes
    | with_reducible apply modRun_goes
    | split
    | intro _
    | dsimp only
    | with_reducible refine CmdsGo.snd (by assumption) ?_
    | with_reducible refine CmdsGo.sndA (by assumption) ?_
    | with_reducible refine CmdsGo.sndB (by assumption) ?_
    | (with_reducible refine CmdsGo.mk' ?_
       first
       | with_reducible assumption
       | with_reducible apply clearTile_goes
       | with_reducible apply modRun_goes
       | split
       | with_reducible refine CmdsGo.snd (by assumption) ?_
       | with_reducible refine CmdsGo.sndA (by assumption) ?_
       | with_reducible refine CmdsGo.sndB (by assumption) ?_)

theorem pauseRun_goes {s0 : State} (r : Nat) (s : State) (h0 : CmdsGo s0 s) :
    CmdsGo s0 (pauseRun r s) := by
  unfold pauseRun
  repeat' first
    | with_reducible assumption
    | with_reducible apply modRun_goes
    | with_reducible apply forEach_goes
    | with_reducible apply modTile_goes
    | with_reducible apply clearTile_goes
    | with_reducible apply checkPaused_goes
    | with_reducible apply withdrawAll_goes
    | split
    | intro _
    | dsimp only
    | with_reducible refine CmdsGo.snd (by assumption) ?_
    | with_reducible refine CmdsGo.sndA (by assumption) ?_
    | with_reducible refine CmdsGo.sndB (by assumption) ?_
    | (with_reducible refine CmdsGo.mk' ?_
       first
       | with_reducible assumption
       | with_reducible apply modRun_goes
       | with_reducible apply forEach_goes
       | with_reducible apply modTile_goes
       | with_reducible apply clearTile_goes
       | with_reducible apply checkPaused_goes
       | with_reducible apply withdrawAll_goes
       | split
       | with_reducible refine CmdsGo.snd (by assumption) ?_
       | with_reducible refine CmdsGo.sndA (by assumption) ?_
       | with_reducible refine CmdsGo.sndB (by assumption) ?_)

theorem endRun_goes {s0 : State} (r : Nat) (outs : List Nat) (s : State) (h0 : CmdsGo s0 s) :
    CmdsGo s0 (endRun r outs s) := by
  unfold endRun
  repeat' first
    | with_reducible assumption
    | with_reducible apply pauseDone_goes
    | with_reducible apply forEach_goes
    | with_reducible apply clearTile_goes
    | with_reducible apply withdrawAll_goes
    | with_reducible apply modRun_goes
    | split
    | intro _
    | dsimp only
    | with_reducible refine CmdsGo.snd (by assumption) ?_
    | with_reducible refine CmdsGo.sndA (by assumption) ?_
    | with_reducible refine CmdsGo.sndB (by assumption) ?_
    | (with_reducible refine CmdsGo.mk' ?_
       first
       | with_reducible assumption
       | with_reducible apply pauseDone_goes
       | with_reducible apply forEach_goes
       | with_reducible apply clearTile_goes
       | with_reducible apply withdrawAll_goes
       | with_reducible apply modRun_goes
       | split
       | with_reducible refine CmdsGo.snd (by assumption) ?_
       | with_reducible refine CmdsGo.sndA (by assumption) ?_
       | with_reducible refine CmdsGo.sndB (by assumption) ?_)

theorem settleFop_goes {s0 : State} (id : Nat) (s : State) (h0 : CmdsGo s0 s) :
    CmdsGo s0 (settleFop id s) := by
  unfold settleFop
  repeat' first
    | with_reducible assumption
    | with_reducible apply CmdsGo.ident
    | with_reducible apply finishCmd_goes
    | with_reducible apply endRun_goes
    | with_reducible apply signalCtr_goes
    | split
    | intro _
    | dsimp only
    | with_reducible refine CmdsGo.snd (by assumption) ?_
    | with_reducible refine CmdsGo.sndA (by assumption) ?_
    | with_reducible refine CmdsGo.sndB (by assumption) ?_
    | (with_reducible refine CmdsGo.mk' ?_; with_reducible assumption)

theorem scrambleFop_goes {s0 : State} (i : Nat) (s : State) (h0 : CmdsGo s0 s) :
    CmdsGo s0 (scrambleFop i s) := by
  unfold scrambleFop
  repeat' first
    | with_reducible assumption
    | with_reducible apply forEach_goes
    | with_reducible apply scramble_goes
    | split

theorem stopFops_goes {s0 : State} (p : FurrowOp → Bool) (outcome : Nat) (s : State) (h0 : CmdsGo s0 s) :
    CmdsGo s0 (stopFops p outcome s) := by
  unfold stopFops
  repeat' first
    | with_reducible assumption
    | with_reducible apply forEach_goes
    | with_reducible apply settleFop_goes
    | with_reducible apply modFop_goes
    | with_reducible apply scrambleFop_goes
    | intro _

theorem cancelRun_goes {s0 : State} (r : Nat) (s : State) (h0 : CmdsGo s0 s) :
    CmdsGo s0 (cancelRun r s) := by
  unfold cancelRun
  repeat' first
    | with_reducible assumption
    | with_reducible apply forEach_goes
    | with_reducible apply clearTile_goes
    | with_reducible apply withdrawAll_goes
    | with_reducible apply modRun_goes
    | with_reducible apply endRun_goes
    | split
    | intro _
    | dsimp only
    | with_reducible refine CmdsGo.snd (by assumption) ?_
    | with_reducible refine CmdsGo.sndA (by assumption) ?_
    | with_reducible refine CmdsGo.sndB (by assumption) ?_
    | (with_reducible refine CmdsGo.mk' ?_
       first
       | with_reducible assumption
       | with_reducible apply forEach_goes
       | with_reducible apply clearTile_goes
       | with_reducible apply withdrawAll_goes
       | with_reducible apply modRun_goes
       | with_reducible apply endRun_goes
       | split
       | with_reducible refine CmdsGo.snd (by assumption) ?_
       | with_reducible refine CmdsGo.sndA (by assumption) ?_
       | with_reducible refine CmdsGo.sndB (by assumption) ?_)

theorem registerHead_goes {s0 : State} (t : Nat) (c : Ctx) (w : Nat × Bool × Nat) (s : State) (h0 : CmdsGo s0 s) :
    CmdsGo s0 (registerHead t c w s) := by
  unfold registerHead
  repeat' first
    | with_reducible assumption
    | with_reducible apply endRun_goes
    | with_reducible apply arriveWait_goes
    | with_reducible apply modTile_goes
    | with_reducible apply headWait_goes
    | split

theorem loadCtx_goes {s0 : State} (r : Nat) (i : Nat) (t : Nat) (s : State) (h0 : CmdsGo s0 s) :
    CmdsGo s0 (loadCtx r i t s) := by
  unfold loadCtx
  repeat' first
    | with_reducible assumption
    | with_reducible apply modRun_goes
    | with_reducible apply clearTile_goes
    | with_reducible apply tileAreaLoad_goes
    | with_reducible apply modTile_goes
    | with_reducible apply headWait_goes
    | with_reducible apply registerHead_goes
    | split
    | intro _
    | dsimp only
    | with_reducible refine CmdsGo.snd (by assumption) ?_
    | with_reducible refine CmdsGo.sndA (by assumption) ?_
    | with_reducible refine CmdsGo.sndB (by assumption) ?_
    | (with_reducible refine CmdsGo.mk' ?_
       first
       | with_reducible assumption
       | with_reducible apply modRun_goes
       | with_reducible apply clearTile_goes
       | with_reducible apply tileAreaLoad_goes
       | with_reducible apply modTile_goes
       | with_reducible apply headWait_goes
       | with_reducible apply registerHead_goes
       | split
       | with_reducible refine CmdsGo.snd (by assumption) ?_
       | with_reducible refine CmdsGo.sndA (by assumption) ?_
       | with_reducible refine CmdsGo.sndB (by assumption) ?_)

theorem fillTiles_goes {s0 : State} (s : State) (h0 : CmdsGo s0 s) :
    CmdsGo s0 (fillTiles s) := by
  unfold fillTiles
  repeat' first
    | with_reducible assumption
    | with_reducible apply forEach_goes
    | with_reducible apply loadCtx_goes
    | split
    | intro _

theorem startRun_goes {s0 : State} (r : Nat) (place : Tab Nat) (basin : Tab Nat) (s : State) (h0 : CmdsGo s0 s) :
    CmdsGo s0 (startRun r place basin s) := by
  unfold startRun
  repeat' first
    | with_reducible assumption
    | with_reducible apply endRun_goes
    | with_reducible apply fillTiles_goes
    | with_reducible apply modRun_goes
    | split

theorem tryRun_goes {s0 : State} (r : Nat) (a : State × List Nat) (h0 : CmdsGo s0 a.1) : CmdsGo s0 (tryRun r a).1 := by
  unfold tryRun
  repeat' first
    | with_reducible assumption
    | with_reducible apply endRun_goes
    | with_reducible apply forEach_goes
    | with_reducible apply whenS_goes
    | with_reducible apply pauseRun_goes
    | with_reducible apply startRun_goes
    | with_reducible apply modRun_goes
    | split
    | intro _
    | dsimp only

theorem schedule_goes {s0 : State} (s : State) (h0 : CmdsGo s0 s) : CmdsGo s0 (schedule s) := by
  unfold schedule
  split
  · have key : ∀ (l : List Nat) (a : State × List Nat), CmdsGo s0 a.1 → CmdsGo s0 (l.foldl (fun a r => tryRun r a) a).1 := by
      intro l
      induction l with
      | nil => exact fun a h => h
      | cons r t ih => exact fun a h => ih _ (tryRun_goes r a h)
    exact key _ _ h0
  · exact h0

theorem scrambleDests_goes {s0 : State} (c : Cmd) (s : State) (h0 : CmdsGo s0 s) :
    CmdsGo s0 (scrambleDests c s) := by
  unfold scrambleDests
  repeat' first
    | with_reducible assumption
    | with_reducible apply forEach_goes
    | with_reducible apply scramble_goes
    | split

theorem dropPeerWork_goes {s0 : State} (h : Nat) (s : State) (h0 : CmdsGo s0 s) :
    CmdsGo s0 (dropPeerWork h s) := by
  unfold dropPeerWork
  repeat' first
    | with_reducible assumption
    | with_reducible apply modDpt_goes

theorem cancelCmd_goes {s0 : State} (h : Nat) (s : State) (h0 : CmdsGo s0 s) :
    CmdsGo s0 (cancelCmd h s) := by
  unfold cancelCmd
  repeat' first
    | with_reducible assumption
    | with_reducible apply modCmd_goes
    | with_reducible apply finishCmd_goes
    | with_reducible apply stopFops_goes
    | with_reducible apply noteOutcome_goes
    | with_reducible apply cancelRun_goes
    | with_reducible apply withdraw_goes
    | with_reducible apply dropPeerWork_goes
    | with_reducible apply scrambleDests_goes
    | exact fun c => ⟨⟨rfl, rfl, rfl, rfl, rfl⟩, addOutcomes_keeps _ _, id, id⟩
    | exact fun c => ⟨⟨rfl, rfl, rfl, rfl, rfl⟩, fun _ h => h, id, id⟩
    | split
    | intro _
    | dsimp only
    | with_reducible refine CmdsGo.snd (by assumption) ?_
    | with_reducible refine CmdsGo.sndA (by assumption) ?_
    | with_reducible refine CmdsGo.sndB (by assumption) ?_
    | (with_reducible refine CmdsGo.mk' ?_
       first
       | with_reducible assumption
       | with_reducible apply modCmd_goes
       | with_reducible apply finishCmd_goes
       | with_reducible apply stopFops_goes
       | with_reducible apply noteOutcome_goes
       | with_reducible apply cancelRun_goes
       | with_reducible apply withdraw_goes
       | with_reducible apply dropPeerWork_goes
       | with_reducible apply scrambleDests_goes
       | split
       | with_reducible refine CmdsGo.snd (by assumption) ?_
       | with_reducible refine CmdsGo.sndA (by assumption) ?_
       | with_reducible refine CmdsGo.sndB (by assumption) ?_)

/-! ### Machine/Retire.lean -/

theorem failFops_goes {s0 : State} (k : Nat) (s : State) (h0 : CmdsGo s0 s) :
    CmdsGo s0 (failFops k s) := by
  unfold failFops
  repeat' first
    | with_reducible assumption
    | with_reducible apply stopFops_goes

theorem failUnserved_goes {s0 : State} (k : Nat) (s : State) (h0 : CmdsGo s0 s) :
    CmdsGo s0 (failUnserved k s) := by
  unfold failUnserved
  repeat' first
    | with_reducible assumption
    | with_reducible apply stopFops_goes
    | intro _
    | dsimp only

theorem checkNoFurrow_goes {s0 : State} (k : Nat) (s : State) (h0 : CmdsGo s0 s) :
    CmdsGo s0 (checkNoFurrow k s) := by
  unfold checkNoFurrow
  repeat' first
    | with_reducible assumption
    | with_reducible apply modStk_goes
    | with_reducible apply failUnserved_goes
    | with_reducible apply henuaEvent_goes
    | split
    | intro _
    | dsimp only
    | (with_reducible refine CmdsGo.mk' ?_
       first
       | with_reducible assumption
       | with_reducible apply modStk_goes
       | with_reducible apply failUnserved_goes
       | with_reducible apply henuaEvent_goes
       | split)

theorem dropLost_goes {s0 : State} (s : State) (h0 : CmdsGo s0 s) :
    CmdsGo s0 (dropLost s) := by
  unfold dropLost
  repeat' first
    | with_reducible assumption
    | with_reducible apply forEach_goes
    | with_reducible apply endRun_goes
    | with_reducible apply stopFops_goes
    | with_reducible apply finishCmd_goes
    | with_reducible apply modCmd_goes
    | with_reducible apply dropPeerWork_goes
    | with_reducible apply scrambleDests_goes
    | exact fun c => ⟨⟨rfl, rfl, rfl, rfl, rfl⟩, addOutcomes_keeps _ _, id, id⟩
    | exact fun c => ⟨⟨rfl, rfl, rfl, rfl, rfl⟩, fun _ h => h, id, id⟩
    | split
    | intro _
    | dsimp only
    | with_reducible refine CmdsGo.snd (by assumption) ?_
    | with_reducible refine CmdsGo.sndA (by assumption) ?_
    | with_reducible refine CmdsGo.sndB (by assumption) ?_
    | (with_reducible refine CmdsGo.mk' ?_
       first
       | with_reducible assumption
       | with_reducible apply forEach_goes
       | with_reducible apply endRun_goes
       | with_reducible apply stopFops_goes
       | with_reducible apply finishCmd_goes
       | with_reducible apply modCmd_goes
       | with_reducible apply dropPeerWork_goes
       | with_reducible apply scrambleDests_goes
       | split
       | with_reducible refine CmdsGo.snd (by assumption) ?_
       | with_reducible refine CmdsGo.sndA (by assumption) ?_
       | with_reducible refine CmdsGo.sndB (by assumption) ?_)

theorem claimTile_goes {s0 : State} (r : Nat) (u : Nat) (s : State) (h0 : CmdsGo s0 s) :
    CmdsGo s0 (claimTile r u s) := by
  unfold claimTile
  repeat' first
    | with_reducible assumption
    | with_reducible apply pauseRun_goes
    | split

theorem moveLogical_goes {s0 : State} (t : Nat) (u : Nat) (mk : Ctx → Ctx) (s : State) (h0 : CmdsGo s0 s) :
    CmdsGo s0 (moveLogical t u mk s) := by
  unfold moveLogical
  repeat' first
    | with_reducible assumption
    | with_reducible apply fillTiles_goes
    | with_reducible apply claimTile_goes
    | with_reducible apply modRun_goes
    | with_reducible apply saveFrame_goes
    | with_reducible apply withdraw_goes
    | with_reducible apply modTile_goes
    | split

theorem markSuspect_goes {s0 : State} (u : UnitRef) (s : State) (h0 : CmdsGo s0 s) :
    CmdsGo s0 (markSuspect u s) := by
  unfold markSuspect
  repeat' first
    | with_reducible assumption
    | with_reducible apply capChange_goes
    | with_reducible apply checkNoFurrow_goes
    | exact fun _ => rfl
    | exact fun _ => rfl
    | split
    | dsimp only
    | with_reducible refine CmdsGo.snd (by assumption) ?_
    | with_reducible refine CmdsGo.sndA (by assumption) ?_
    | with_reducible refine CmdsGo.sndB (by assumption) ?_
    | (with_reducible refine CmdsGo.mk' ?_; with_reducible assumption)

theorem abandonTest_goes {s0 : State} (u : UnitRef) (s : State) (h0 : CmdsGo s0 s) :
    CmdsGo s0 (abandonTest u s) := by
  unfold abandonTest
  repeat' first
    | with_reducible assumption
    | with_reducible apply forEach_goes
    | with_reducible apply finishCmd_goes
    | with_reducible apply modTest_goes
    | with_reducible apply modTile_goes
    | split
    | intro _

theorem replaceRun_goes {s0 : State} (r : Nat) (s : State) (h0 : CmdsGo s0 s) :
    CmdsGo s0 (replaceRun r s) := by
  unfold replaceRun
  repeat' first
    | with_reducible assumption
    | with_reducible apply CmdsGo.ident
    | with_reducible apply endRun_goes
    | with_reducible apply forEach_goes
    | with_reducible apply claimTile_goes
    | with_reducible apply modRun_goes
    | split
    | intro _

theorem noteRecompute_goes {s0 : State} (c : Ctx) (s : State) (h0 : CmdsGo s0 s) :
    CmdsGo s0 (noteRecompute c s) := by
  unfold noteRecompute
  repeat' first
    | with_reducible assumption
    | with_reducible apply whenS_goes
    | with_reducible apply modRun_goes
    | intro _
    | dsimp only
    | (with_reducible refine CmdsGo.mk' ?_
       first
       | with_reducible assumption
       | with_reducible apply whenS_goes
       | with_reducible apply modRun_goes)

theorem leaveLost_goes {s0 : State} (t : Nat) (s : State) (h0 : CmdsGo s0 s) :
    CmdsGo s0 (leaveLost t s) := by
  unfold leaveLost
  repeat' first
    | with_reducible assumption
    | with_reducible apply saveFrame_goes
    | with_reducible apply modTile_goes
    | with_reducible apply noteRecompute_goes
    | with_reducible apply clearTile_goes
    | with_reducible apply withdraw_goes
    | split
    | intro _
    | dsimp only
    | with_reducible refine CmdsGo.snd (by assumption) ?_
    | with_reducible refine CmdsGo.sndA (by assumption) ?_
    | with_reducible refine CmdsGo.sndB (by assumption) ?_
    | (with_reducible refine CmdsGo.mk' ?_
       first
       | with_reducible assumption
       | with_reducible apply saveFrame_goes
       | with_reducible apply modTile_goes
       | with_reducible apply noteRecompute_goes
       | with_reducible apply clearTile_goes
       | with_reducible apply withdraw_goes
       | split
       | with_reducible refine CmdsGo.snd (by assumption) ?_
       | with_reducible refine CmdsGo.sndA (by assumption) ?_
       | with_reducible refine CmdsGo.sndB (by assumption) ?_)

theorem loseTile_goes {s0 : State} (t : Nat) (s : State) (h0 : CmdsGo s0 s) :
    CmdsGo s0 (loseTile t s) := by
  unfold loseTile
  repeat' first
    | with_reducible assumption
    | with_reducible apply fillTiles_goes
    | with_reducible apply forEach_goes
    | with_reducible apply checkPaused_goes
    | with_reducible apply replaceRun_goes
    | with_reducible apply dropLost_goes
    | with_reducible apply leaveLost_goes
    | with_reducible apply abandonTest_goes

theorem loseStack_goes {s0 : State} (k : Nat) (s : State) (h0 : CmdsGo s0 s) :
    CmdsGo s0 (loseStack k s) := by
  unfold loseStack
  repeat' first
    | with_reducible assumption
    | with_reducible apply checkNoFurrow_goes
    | with_reducible apply failFops_goes
    | with_reducible apply dropLost_goes
    | with_reducible apply abandonTest_goes
    | with_reducible apply modStk_goes

theorem loseUnit_goes {s0 : State} (u : UnitRef) (s : State) (h0 : CmdsGo s0 s) :
    CmdsGo s0 (loseUnit u s) := by
  unfold loseUnit
  repeat' first
    | with_reducible assumption
    | with_reducible apply loseTile_goes
    | with_reducible apply loseStack_goes
    | with_reducible apply checkNoFurrow_goes
    | with_reducible apply dropLost_goes
    | split

theorem retireUnit_goes {s0 : State} (check : Nat) (u : UnitRef) (tenant : Nat) (s : State) (h0 : CmdsGo s0 s) :
    CmdsGo s0 (retireUnit check u tenant s) := by
  unfold retireUnit
  repeat' first
    | with_reducible assumption
    | with_reducible apply schedule_goes
    | with_reducible apply loseUnit_goes
    | with_reducible apply retireCap_goes
    | split

theorem faultEvent_goes {s0 : State} (kind : Nat) (check : Nat) (u : UnitRef) (tenant : Nat) (detail : Nat) (bundle : List Byte) (s : State) (h0 : CmdsGo s0 s) :
    CmdsGo s0 (faultEvent kind check u tenant detail bundle s) := by
  unfold faultEvent
  repeat' first
    | with_reducible assumption
    | with_reducible apply modSum_goes
    | with_reducible apply recordFault_goes
    | with_reducible apply retireUnit_goes
    | with_reducible apply markSuspect_goes
    | split
    | intro _
    | dsimp only

theorem restartStep_goes {s0 : State} (t : Nat) (f : Failure) (s : State) (h0 : CmdsGo s0 s) :
    CmdsGo s0 (restartStep t f s) := by
  unfold restartStep
  repeat' first
    | with_reducible assumption
    | with_reducible apply modTile_goes
    | intro _
    | dsimp only
    | (with_reducible refine CmdsGo.mk' ?_
       first
       | with_reducible assumption
       | with_reducible apply modTile_goes)

theorem moveStep_goes {s0 : State} (t : Nat) (why : Nat) (f : Failure) (s : State) (h0 : CmdsGo s0 s) :
    CmdsGo s0 (moveStep t why f s) := by
  unfold moveStep
  repeat' first
    | with_reducible assumption
    | with_reducible apply endRun_goes
    | with_reducible apply moveLogical_goes
    | with_reducible apply modTile_goes
    | split

theorem failStep_goes {s0 : State} (t : Nat) (f : Failure) (s : State) (h0 : CmdsGo s0 s) :
    CmdsGo s0 (failStep t f s) := by
  unfold failStep
  repeat' first
    | with_reducible assumption
    | with_reducible apply modTile_goes
    | with_reducible apply whenS_goes
    | with_reducible apply faultEvent_goes
    | with_reducible apply endRun_goes
    | with_reducible apply recordFault_goes
    | with_reducible apply henuaEvent_goes
    | with_reducible apply restartStep_goes
    | with_reducible apply noteRecompute_goes
    | with_reducible apply moveStep_goes
    | split
    | intro _
    | dsimp only
    | with_reducible refine CmdsGo.snd (by assumption) ?_
    | with_reducible refine CmdsGo.sndA (by assumption) ?_
    | with_reducible refine CmdsGo.sndB (by assumption) ?_
    | (with_reducible refine CmdsGo.mk' ?_
       first
       | with_reducible assumption
       | with_reducible apply modTile_goes
       | with_reducible apply whenS_goes
       | with_reducible apply faultEvent_goes
       | with_reducible apply endRun_goes
       | with_reducible apply recordFault_goes
       | with_reducible apply henuaEvent_goes
       | with_reducible apply restartStep_goes
       | with_reducible apply noteRecompute_goes
       | with_reducible apply moveStep_goes
       | split
       | with_reducible refine CmdsGo.snd (by assumption) ?_
       | with_reducible refine CmdsGo.sndA (by assumption) ?_
       | with_reducible refine CmdsGo.sndB (by assumption) ?_)

/-! ### Machine/Queues.lean -/

theorem unstall_goes {s0 : State} (t : Nat) (s : State) (h0 : CmdsGo s0 s) :
    CmdsGo s0 (unstall t s) := by
  unfold unstall
  repeat' first
    | with_reducible assumption
    | with_reducible apply whenS_goes
    | with_reducible apply modFn_goes

theorem pushHeld_goes {s0 : State} (h : Held) (s : State) (h0 : CmdsGo s0 s) :
    CmdsGo s0 (pushHeld h s) := by
  unfold pushHeld
  repeat' first
    | with_reducible assumption
    | dsimp only
    | (with_reducible refine CmdsGo.mk' ?_; with_reducible assumption)

theorem setTail_goes {s0 : State} (fn : Nat) (q : Nat) (tail : Nat) (s : State) (h0 : CmdsGo s0 s) :
    CmdsGo s0 (setTail fn q tail s) := by
  unfold setTail
  repeat' first
    | with_reducible assumption
    | with_reducible apply modFn_goes
    | split
    | intro _
    | dsimp only
    | (with_reducible refine CmdsGo.mk' ?_
       first
       | with_reducible assumption
       | with_reducible apply modFn_goes
       | split)

theorem setCqHead_goes {s0 : State} (fn : Nat) (q : Nat) (head : Nat) (s : State) (h0 : CmdsGo s0 s) :
    CmdsGo s0 (setCqHead fn q head s) := by
  unfold setCqHead
  repeat' first
    | with_reducible assumption
    | with_reducible apply unstall_goes
    | with_reducible apply modFn_goes
    | split
    | intro _
    | dsimp only
    | (with_reducible refine CmdsGo.mk' ?_
       first
       | with_reducible assumption
       | with_reducible apply unstall_goes
       | with_reducible apply modFn_goes
       | split)

/-! ### Machine/Space.lean -/

theorem unmapEmpty_goes {s0 : State} (s : State) (h0 : CmdsGo s0 s) :
    CmdsGo s0 (unmapEmpty s) := by
  unfold unmapEmpty
  repeat' first
    | with_reducible assumption
    | split
    | intro _
    | dsimp only
    | (with_reducible refine CmdsGo.mk' ?_; with_reducible assumption)

theorem freeAllocs_goes {s0 : State} (p : Nat → Alloc → Bool) (s : State) (h0 : CmdsGo s0 s) :
    CmdsGo s0 (freeAllocs p s) := by
  unfold freeAllocs
  repeat' first
    | with_reducible assumption
    | with_reducible apply unmapEmpty_goes
    | intro _
    | dsimp only
    | (with_reducible refine CmdsGo.mk' ?_; with_reducible assumption)

/-! ### Machine/Gap.lean -/

theorem upset_goes {s0 : State} (blk : Nat) (f : BitVec 576) (s : State) (h0 : CmdsGo s0 s) :
    CmdsGo s0 (upset blk f s) := by
  unfold upset
  repeat' first
    | with_reducible assumption
    | split
    | dsimp only
    | (with_reducible refine CmdsGo.mk' ?_
       first
       | with_reducible assumption
       | split)

theorem violate_goes {s0 : State} (fn : Nat) (off : Nat) (write : Bool) (s : State) (h0 : CmdsGo s0 s) :
    CmdsGo s0 (violate fn off write s) := by
  unfold violate
  repeat' first
    | with_reducible assumption
    | with_reducible apply modFn_goes

theorem bar4Blks_goes {s0 : State} (fn : Nat) (x0 : List Nat) (x1 : State) (h0 : CmdsGo s0 x1) :
    CmdsGo s0 (bar4Blks fn x0 x1).2 := by
  fun_induction bar4Blks fn x0 x1
  all_goals try subst_vars
  all_goals
    repeat' first
      | with_reducible assumption
      | with_reducible apply readRaced_goes
      | with_reducible apply violate_goes
      | split
      | dsimp only
      | with_reducible refine CmdsGo.snd (by assumption) ?_
      | with_reducible refine CmdsGo.sndA (by assumption) ?_
      | with_reducible refine CmdsGo.sndB (by assumption) ?_
      | with_reducible apply_assumption

theorem repairShared_goes {s0 : State} (fn : Nat) (off : Nat) (mask : Nat) (s : State) (h0 : CmdsGo s0 s) :
    CmdsGo s0 (repairShared fn off mask s) := by
  unfold repairShared
  repeat' first
    | with_reducible assumption
    | with_reducible apply henuaEvent_goes
    | split
    | dsimp only
    | with_reducible refine CmdsGo.snd (by assumption) ?_
    | with_reducible refine CmdsGo.sndA (by assumption) ?_
    | with_reducible refine CmdsGo.sndB (by assumption) ?_
    | (with_reducible refine CmdsGo.mk' ?_; with_reducible assumption)

theorem bar4Blk_goes {s0 : State} (fn : Nat) (start : Nat) (bytes : List (Option Byte)) (o : Nat) (s : State) (h0 : CmdsGo s0 s) :
    CmdsGo s0 (bar4Blk fn start bytes o s) := by
  unfold bar4Blk
  repeat' first
    | with_reducible assumption
    | with_reducible apply repairShared_goes
    | with_reducible apply writeBlk_goes
    | with_reducible apply violate_goes
    | split
    | intro _
    | dsimp only

theorem serveAccess_goes {s0 : State} (a : StackAccess) (s : State) (h0 : CmdsGo s0 s) :
    CmdsGo s0 (serveAccess a s) := by
  unfold serveAccess
  repeat' first
    | with_reducible assumption
    | with_reducible apply readStack_goes
    | with_reducible apply upset_goes
    | with_reducible apply writeStack_goes
    | with_reducible apply emit_goes
    | with_reducible apply bar4Blks_goes
    | with_reducible apply forEach_goes
    | with_reducible apply bar4Blk_goes
    | with_reducible apply setTail_goes
    | with_reducible apply setCqHead_goes
    | split
    | intro _
    | dsimp only
    | with_reducible refine CmdsGo.snd (by assumption) ?_
    | with_reducible refine CmdsGo.sndA (by assumption) ?_
    | with_reducible refine CmdsGo.sndB (by assumption) ?_

theorem offerHeld_goes {s0 : State} (h : Held) (s : State) (h0 : CmdsGo s0 s) :
    CmdsGo s0 (offerHeld h s) := by
  unfold offerHeld
  repeat' first
    | with_reducible assumption
    | with_reducible apply pushHeld_goes
    | with_reducible apply serveAccess_goes
    | with_reducible apply forEach_goes
    | with_reducible apply modStk_goes
    | split
    | intro _
    | dsimp only
    | (with_reducible refine CmdsGo.mk' ?_
       first
       | with_reducible assumption
       | with_reducible apply pushHeld_goes
       | with_reducible apply serveAccess_goes
       | with_reducible apply forEach_goes
       | with_reducible apply modStk_goes
       | split)

theorem serveHeld_goes {s0 : State} (s : State) (h0 : CmdsGo s0 s) :
    CmdsGo s0 (serveHeld s) := by
  unfold serveHeld
  repeat' first
    | with_reducible assumption
    | with_reducible apply forEach_goes
    | with_reducible apply offerHeld_goes
    | intro _
    | dsimp only
    | (with_reducible refine CmdsGo.mk' ?_
       first
       | with_reducible assumption
       | with_reducible apply forEach_goes
       | with_reducible apply offerHeld_goes)

/-! ### Machine/Tenants.lean -/

theorem freeTenant_goes {s0 : State} (t : Nat) (s : State) (h0 : CmdsGo s0 s) :
    CmdsGo s0 (freeTenant t s) := by
  unfold freeTenant
  repeat' first
    | with_reducible assumption
    | with_reducible apply modFn_goes
    | with_reducible apply freeAllocs_goes
    | intro _
    | dsimp only
    | (with_reducible refine CmdsGo.mk' ?_; with_reducible assumption)

/-! ### Machine/MemCmds.lean -/

theorem freeSlots_goes {s0 : State} (d : Desc) (n : Nat) (a : Acc) (h0 : CmdsGo s0 a.s) : CmdsGo s0 (freeSlots d n a).2.s :=
  freshVal_goes _ _ h0

theorem emptySlots_goes {s0 : State} (ds : List (Nat × Nat)) (s : State) (h0 : CmdsGo s0 s) :
    CmdsGo s0 (emptySlots ds s) := by
  unfold emptySlots
  repeat' first
    | with_reducible assumption
    | intro _
    | dsimp only
    | (with_reducible refine CmdsGo.mk' ?_; with_reducible assumption)

theorem dropDescs_goes {s0 : State} (ds : List (Nat × Nat)) (s : State) (h0 : CmdsGo s0 s) :
    CmdsGo s0 (dropDescs ds s) := by
  unfold dropDescs
  repeat' first
    | with_reducible assumption
    | with_reducible apply emptySlots_goes
    | with_reducible apply forEach_goes
    | with_reducible apply modTen_goes
    | intro _

theorem poisonBlock_goes {s0 : State} (space : Nat) (inst : Nat) (off : Nat) (tenant : Nat) (s : State) (h0 : CmdsGo s0 s) :
    CmdsGo s0 (poisonBlock space inst off tenant s) := by
  unfold poisonBlock
  repeat' first
    | with_reducible assumption
    | with_reducible apply recordFault_goes
    | with_reducible apply setZ_goes
    | split
    | dsimp only

theorem freeEnd_goes {s0 : State} (ends : List Nat) (a : Acc) (h0 : CmdsGo s0 a.s) :
    CmdsGo s0 (freeEnd ends a).s := by
  unfold freeEnd
  repeat' first
    | with_reducible assumption
    | dsimp only
    | (with_reducible refine CmdsGo.mk' ?_; with_reducible assumption)

/-! ### Machine/FurrowOps.lean -/

theorem patternSlots_goes {s0 : State} (p4 p5 : Nat) (d : Desc) (n : Nat) (a : Acc) (h0 : CmdsGo s0 a.s) :
    CmdsGo s0 (patternSlots p4 p5 d n a).2.s := h0

theorem rdList_goes {s0 : State} (d : Desc) (x0 : List Nat) (x1 : Acc) (h0 : CmdsGo s0 x1.s) :
    CmdsGo s0 (rdList d x0 x1).2.s := by
  fun_induction rdList d x0 x1
  all_goals try subst_vars
  all_goals
    repeat' first
      | with_reducible assumption
      | with_reducible apply rdEl_goes
      | split
      | dsimp only
      | with_reducible refine CmdsGo.snd (by assumption) ?_
      | with_reducible refine CmdsGo.sndA (by assumption) ?_
      | with_reducible refine CmdsGo.sndB (by assumption) ?_
      | with_reducible apply_assumption

theorem wrFirst_goes {s0 : State} (d : Desc) (n : Nat) (f : Nat → Acc → PV × Acc) (a : Acc) (h0 : ∀ (y0 : Nat) (y1 : Acc), CmdsGo s0 y1.s → CmdsGo s0 (f y0 y1).2.s) (h1 : CmdsGo s0 a.s) :
    CmdsGo s0 (wrFirst d n f a).s := by
  unfold wrFirst
  repeat' first
    | with_reducible assumption
    | with_reducible apply h0
    | with_reducible apply wrPieces_goes
    | split
    | intro _

theorem wrRows_goes {s0 : State} (bad : Bool) (d : Desc) (f : Nat → Acc → PV × Acc) (a : Acc) (h0 : ∀ (y0 : Nat) (y1 : Acc), CmdsGo s0 y1.s → CmdsGo s0 (f y0 y1).2.s) (h1 : CmdsGo s0 a.s) :
    CmdsGo s0 (wrRows bad d f a).s := by
  unfold wrRows
  repeat' first
    | with_reducible assumption
    | with_reducible apply h0
    | with_reducible apply freeEnd_goes
    | with_reducible apply wrPieces_goes
    | with_reducible apply freeSlots_goes
    | split
    | intro _
    | dsimp only

theorem fopCopyGo_goes {s0 : State} (p : FopParams) (a : Acc) (h0 : CmdsGo s0 a.s) :
    CmdsGo s0 (fopCopyGo p a).s := by
  unfold fopCopyGo
  repeat' first
    | with_reducible assumption
    | with_reducible apply wrRows_goes
    | with_reducible apply rdEl_goes
    | intro _
    | dsimp only

theorem fopFillGo_goes {s0 : State} (p : FopParams) (a : Acc) (h0 : CmdsGo s0 a.s) :
    CmdsGo s0 (fopFillGo p a).s := by
  unfold fopFillGo
  repeat' first
    | with_reducible assumption
    | with_reducible apply wrPieces_goes
    | with_reducible apply patternSlots_goes
    | dsimp only

theorem fopLogicGo_goes {s0 : State} (p : FopParams) (a : Acc) (h0 : CmdsGo s0 a.s) :
    CmdsGo s0 (fopLogicGo p a).s := by
  unfold fopLogicGo
  repeat' first
    | with_reducible assumption
    | with_reducible apply wrRows_goes
    | with_reducible apply rdEl_goes
    | split
    | intro _

theorem fopDotGo_goes {s0 : State} (p : FopParams) (a : Acc) (h0 : CmdsGo s0 a.s) :
    CmdsGo s0 (fopDotGo p a).s := by
  unfold fopDotGo
  repeat' first
    | with_reducible assumption
    | with_reducible apply wrFirst_goes
    | with_reducible apply rdEls_goes
    | intro _

theorem rowScaleOf_goes {s0 : State} (p : FopParams) (row : Nat) (a : Acc) (h0 : CmdsGo s0 a.s) :
    CmdsGo s0 (rowScaleOf p row a).2.s := by
  unfold rowScaleOf
  repeat' first
    | with_reducible assumption
    | with_reducible apply rdEl_goes
    | split

theorem fopAxpyGo_goes {s0 : State} (p : FopParams) (a : Acc) (h0 : CmdsGo s0 a.s) :
    CmdsGo s0 (fopAxpyGo p a).s := by
  unfold fopAxpyGo
  repeat' first
    | with_reducible assumption
    | with_reducible apply wrRows_goes
    | with_reducible apply rowScaleOf_goes
    | with_reducible apply rdEl_goes
    | intro _
    | dsimp only

theorem fopAxpyReduceGo_goes {s0 : State} (p : FopParams) (a : Acc) (h0 : CmdsGo s0 a.s) :
    CmdsGo s0 (fopAxpyReduceGo p a).s := by
  unfold fopAxpyReduceGo
  repeat' first
    | with_reducible assumption
    | with_reducible apply rowScaleOf_goes
    | with_reducible apply wrFirst_goes
    | with_reducible apply rdList_goes
    | split
    | with_reducible refine CmdsGo.foldl _ _ _ ?_ ?_
    | intro _
    | dsimp only
    | with_reducible refine CmdsGo.foldlA _ _ _ ?_ ?_
    | with_reducible refine CmdsGo.foldlS _ _ _ ?_ ?_

theorem gatherGo_goes {s0 : State} (p : FopParams) (outs : Nat) (bad : List Nat) (span : Nat → Acc → (List Nat × Bool) × Acc) (a : Acc) (h0 : ∀ (y0 : Nat) (y1 : Acc), CmdsGo s0 y1.s → CmdsGo s0 (span y0 y1).2.s) (h1 : CmdsGo s0 a.s) :
    CmdsGo s0 (gatherGo p outs bad span a).s := by
  unfold gatherGo
  repeat' first
    | with_reducible assumption
    | with_reducible apply h0
    | with_reducible apply wrFirst_goes
    | with_reducible apply freshVal_goes
    | with_reducible apply rdList_goes
    | split
    | intro _
    | dsimp only
    | (with_reducible refine CmdsGo.mk' ?_
       first
       | with_reducible assumption
       | with_reducible apply h0
       | with_reducible apply wrFirst_goes
       | with_reducible apply freshVal_goes
       | with_reducible apply rdList_goes
       | split)

theorem fopGatherGo_goes {s0 : State} (p : FopParams) (a : Acc) (h0 : CmdsGo s0 a.s) :
    CmdsGo s0 (fopGatherGo p a).s := by
  unfold fopGatherGo
  repeat' first
    | with_reducible assumption
    | with_reducible apply gatherGo_goes
    | intro _
    | dsimp only

theorem fopSegmentGo_goes {s0 : State} (p : FopParams) (a : Acc) (h0 : CmdsGo s0 a.s) :
    CmdsGo s0 (fopSegmentGo p a).s := by
  unfold fopSegmentGo
  repeat' first
    | with_reducible assumption
    | with_reducible apply rdEls_goes
    | with_reducible apply freeEnd_goes
    | with_reducible apply gatherGo_goes
    | split
    | intro _
    | dsimp only

theorem atomicGo_goes {s0 : State} (p : FopParams) (x0 : Nat) (x1 : Nat) (x2 : Nat × Acc) (h0 : CmdsGo s0 x2.2.s) :
    CmdsGo s0 (atomicGo p x0 x1 x2).2.s := by
  induction x0 generalizing x1 x2
  all_goals
    unfold atomicGo
    repeat' first
      | with_reducible assumption
      | with_reducible apply rdEl_goes
      | with_reducible apply wrEl_goes
      | split
      | dsimp only
      | with_reducible refine CmdsGo.snd (by assumption) ?_
      | with_reducible refine CmdsGo.sndA (by assumption) ?_
      | with_reducible refine CmdsGo.sndB (by assumption) ?_
      | with_reducible apply_assumption

theorem pageScoreGo_goes {s0 : State} (p : FopParams) (x0 : Nat) (x1 : Nat) (x2 : Acc) (h0 : CmdsGo s0 x2.s) :
    CmdsGo s0 (pageScoreGo p x0 x1 x2).s := by
  fun_induction pageScoreGo p x0 x1 x2
  all_goals try subst_vars
  all_goals
    repeat' first
      | with_reducible assumption
      | with_reducible apply rdEl_goes
      | with_reducible apply rdEls_goes
      | with_reducible apply wrEl_goes
      | split
      | dsimp only
      | with_reducible refine CmdsGo.snd (by assumption) ?_
      | with_reducible refine CmdsGo.sndA (by assumption) ?_
      | with_reducible refine CmdsGo.sndB (by assumption) ?_
      | with_reducible apply_assumption

theorem fopGo_goes {s0 : State} (p : FopParams) (a : Acc) (h0 : CmdsGo s0 a.s) :
    CmdsGo s0 (fopGo p a).2.s := by
  unfold fopGo
  repeat' first
    | with_reducible assumption
    | with_reducible apply fopCopyGo_goes
    | with_reducible apply fopFillGo_goes
    | with_reducible apply fopLogicGo_goes
    | with_reducible apply fopDotGo_goes
    | with_reducible apply fopAxpyGo_goes
    | with_reducible apply fopAxpyReduceGo_goes
    | with_reducible apply fopGatherGo_goes
    | with_reducible apply fopSegmentGo_goes
    | with_reducible apply atomicGo_goes
    | with_reducible apply pageScoreGo_goes
    | split

/-! ### Machine/Furrow.lean -/

theorem startFop_goes {s0 : State} (o : FurrowOp) (s : State) (h0 : CmdsGo s0 s) :
    CmdsGo s0 (startFop o s) := by
  unfold startFop
  repeat' first
    | with_reducible assumption
    | with_reducible apply CmdsGo.ident
    | with_reducible apply stopFops_goes
    | split
    | intro _
    | dsimp only
    | (with_reducible refine CmdsGo.mk' ?_
       first
       | with_reducible assumption
       | with_reducible apply stopFops_goes
       | split)

/-! ### Machine/UnitTests.lean -/

theorem beginTest_goes {s0 : State} (t : Nat) (s : State) (h0 : CmdsGo s0 s) :
    CmdsGo s0 (beginTest t s) := by
  unfold beginTest
  repeat' first
    | with_reducible assumption
    | with_reducible apply modTile_goes
    | with_reducible apply moveLogical_goes
    | split

/-! ### Machine/Serving.lean -/

theorem readDir_goes {s0 : State} (t : Nat) (dd : Desc) (a : Acc) (h0 : CmdsGo s0 a.s) :
    CmdsGo s0 (readDir t dd a).2.s := by
  unfold readDir
  repeat' first
    | with_reducible assumption
    | with_reducible apply rdBytes_goes
    | split
    | dsimp only

theorem asFurrow_goes {s0 : State} (off : Nat) (len : Nat) (f : Acc → Acc) (a : Acc) (h0 : ∀ (y0 : Acc), CmdsGo s0 y0.s → CmdsGo s0 (f y0).s) (h1 : CmdsGo s0 a.s) :
    CmdsGo s0 (asFurrow off len f a).s := by
  unfold asFurrow
  repeat' first
    | with_reducible assumption
    | with_reducible apply h0
    | with_reducible apply Acc.stop_goes
    | split
    | dsimp only
    | (with_reducible refine CmdsGo.mk' ?_
       first
       | with_reducible assumption
       | with_reducible apply h0
       | with_reducible apply Acc.stop_goes
       | split)

theorem rdWord_goes {s0 : State} (d : Desc) (off : Nat) (a : Acc) (h0 : CmdsGo s0 a.s) :
    CmdsGo s0 (rdWord d off a).2.s := by
  unfold rdWord
  repeat' first
    | with_reducible assumption
    | with_reducible apply rdBytes_goes

theorem wrWord_goes {s0 : State} (d : Desc) (off : Nat) (v : Nat) (poison : Bool) (a : Acc) (h0 : CmdsGo s0 a.s) :
    CmdsGo s0 (wrWord d off v poison a).s := by
  unfold wrWord
  repeat' first
    | with_reducible assumption
    | with_reducible apply asFurrow_goes
    | with_reducible apply wrBytes_goes
    | dsimp only

theorem getCount_goes {s0 : State} (d : PageDir) (p : Nat) (a : Acc) (h0 : CmdsGo s0 a.s) :
    CmdsGo s0 (getCount d p a).2.s := by
  unfold getCount
  repeat' first
    | with_reducible assumption
    | with_reducible apply rdWord_goes

theorem putCount_goes {s0 : State} (d : PageDir) (p : Nat) (n : Nat) (poison : Bool) (a : Acc) (h0 : CmdsGo s0 a.s) :
    CmdsGo s0 (putCount d p n poison a).s := by
  unfold putCount
  repeat' first
    | with_reducible assumption
    | with_reducible apply wrWord_goes

theorem getScore_goes {s0 : State} (d : PageDir) (p : Nat) (a : Acc) (h0 : CmdsGo s0 a.s) :
    CmdsGo s0 (getScore d p a).2.s := by
  unfold getScore
  repeat' first
    | with_reducible assumption
    | with_reducible apply rdWord_goes

theorem putScore_goes {s0 : State} (d : PageDir) (p : Nat) (v : Nat) (poison : Bool) (a : Acc) (h0 : CmdsGo s0 a.s) :
    CmdsGo s0 (putScore d p v poison a).s := by
  unfold putScore
  repeat' first
    | with_reducible assumption
    | with_reducible apply wrWord_goes

theorem popStack_goes {s0 : State} (d : Desc) (a : Acc) (h0 : CmdsGo s0 a.s) :
    CmdsGo s0 (popStack d a).2.s := by
  unfold popStack
  repeat' first
    | with_reducible assumption
    | with_reducible apply rdEl_goes
    | with_reducible apply wrEl_goes
    | split
    | dsimp only

theorem pushStack_goes {s0 : State} (d : Desc) (v : Nat) (a : Acc) (h0 : CmdsGo s0 a.s) :
    CmdsGo s0 (pushStack d v a).s := by
  unfold pushStack
  repeat' first
    | with_reducible assumption
    | with_reducible apply rdEl_goes
    | with_reducible apply addOut_goes
    | with_reducible apply wrEl_goes
    | split
    | dsimp only

theorem releaseRef_goes {s0 : State} (d : PageDir) (p : Nat) (a : Acc) (h0 : CmdsGo s0 a.s) :
    CmdsGo s0 (releaseRef d p a).2.s := by
  unfold releaseRef
  repeat' first
    | with_reducible assumption
    | with_reducible apply getCount_goes
    | with_reducible apply pushStack_goes
    | with_reducible apply putCount_goes
    | split
    | dsimp only

theorem headgateCopy_goes {s0 : State} (src : Desc) (so : Nat) (dst : Desc) (do_ : Nat) (len : Nat) (a : Acc) (h0 : CmdsGo s0 a.s) :
    CmdsGo s0 (headgateCopy src so dst do_ len a).s := by
  unfold headgateCopy
  repeat' first
    | with_reducible assumption
    | with_reducible apply addOut_goes
    | with_reducible apply copyRun_goes
    | split

theorem shareOne_goes {s0 : State} (d : PageDir) (_i : Nat) (e : Nat) (r : Nat × Acc) (h0 : CmdsGo s0 r.2.s) :
    CmdsGo s0 (shareOne d _i e r).2.2.s := by
  unfold shareOne
  repeat' first
    | with_reducible assumption
    | with_reducible apply getCount_goes
    | with_reducible apply putCount_goes
    | with_reducible apply addOut_goes
    | split
    | dsimp only

theorem releaseOne_goes {s0 : State} (d : PageDir) (l : Desc) (i : Nat) (e : Nat) (r : Nat × Acc) (h0 : CmdsGo s0 r.2.s) :
    CmdsGo s0 (releaseOne d l i e r).2.2.s := by
  unfold releaseOne
  repeat' first
    | with_reducible assumption
    | with_reducible apply wrEl_goes
    | with_reducible apply releaseRef_goes
    | with_reducible apply pushStack_goes
    | with_reducible apply addOut_goes
    | split

theorem takePage_goes {s0 : State} (d : PageDir) (from_ : Desc) (score : PV) (r : Nat × Acc) (go : Nat → Acc → Acc) (h0 : CmdsGo s0 r.2.s) (h1 : ∀ (y0 : Nat) (y1 : Acc), CmdsGo s0 y1.s → CmdsGo s0 (go y0 y1).s) :
    CmdsGo s0 (takePage d from_ score r go).2.2.s := by
  unfold takePage
  repeat' first
    | with_reducible assumption
    | with_reducible apply h1
    | with_reducible apply popStack_goes
    | with_reducible apply addOut_goes
    | with_reducible apply putScore_goes
    | with_reducible apply putCount_goes
    | split
    | dsimp only

theorem cowOne_goes {s0 : State} (d : PageDir) (l : Desc) (from_ : Desc) (i : Nat) (e : Nat) (r : Nat × Acc) (h0 : CmdsGo s0 r.2.s) :
    CmdsGo s0 (cowOne d l from_ i e r).2.2.s := by
  unfold cowOne
  repeat' first
    | with_reducible assumption
    | with_reducible apply getCount_goes
    | with_reducible apply getScore_goes
    | with_reducible apply takePage_goes
    | with_reducible apply wrEl_goes
    | with_reducible apply releaseRef_goes
    | with_reducible apply headgateCopy_goes
    | with_reducible apply pushStack_goes
    | with_reducible apply addOut_goes
    | split
    | intro _
    | dsimp only
    | with_reducible refine CmdsGo.snd (by assumption) ?_
    | with_reducible refine CmdsGo.sndA (by assumption) ?_
    | with_reducible refine CmdsGo.sndB (by assumption) ?_

theorem entryAt_goes {s0 : State} (r : SeqRow) (k : Nat) (l : Nat) (a : Acc) (h0 : CmdsGo s0 a.s) :
    CmdsGo s0 (entryAt r k l a).2.s := by
  unfold entryAt
  repeat' first
    | with_reducible assumption
    | with_reducible apply rdEl_goes

theorem setEntry_goes {s0 : State} (r : SeqRow) (k : Nat) (l : Nat) (v : Nat) (a : Acc) (h0 : CmdsGo s0 a.s) :
    CmdsGo s0 (setEntry r k l v a).s := by
  unfold setEntry
  repeat' first
    | with_reducible assumption
    | with_reducible apply wrEl_goes

theorem readRow_goes {s0 : State} (t : Nat) (seq : Desc) (i : Nat) (a : Acc) (h0 : CmdsGo s0 a.s) :
    CmdsGo s0 (readRow t seq i a).2.s := by
  unfold readRow
  repeat' first
    | with_reducible assumption
    | with_reducible apply rdBytes_goes
    | with_reducible apply readDir_goes
    | with_reducible apply addOut_goes
    | split
    | dsimp only

theorem rowsGo_goes {s0 : State} (t : Nat) (seq : Desc) (f : Nat → SeqRow → Nat × Acc → Nat × Acc) (x0 : Nat) (x1 : Nat) (x2 : Nat × Acc) (h0 : ∀ (y0 : Nat) (y1 : SeqRow) (y2 : Nat × Acc), CmdsGo s0 y2.2.s → CmdsGo s0 (f y0 y1 y2).2.s) (h1 : CmdsGo s0 x2.2.s) :
    CmdsGo s0 (rowsGo t seq f x0 x1 x2).2.s := by
  induction x0 generalizing x1 x2
  all_goals
    unfold rowsGo
    repeat' first
      | with_reducible assumption
      | with_reducible apply h0
      | with_reducible apply readRow_goes
      | split
      | dsimp only
      | with_reducible refine CmdsGo.snd (by assumption) ?_
      | with_reducible refine CmdsGo.sndA (by assumption) ?_
      | with_reducible refine CmdsGo.sndB (by assumption) ?_
      | with_reducible apply_assumption

theorem reissueOn_goes {s0 : State} (tenant : Nat) (t : Nat) (f : Failure) (s : State) (h0 : CmdsGo s0 s) :
    CmdsGo s0 (reissueOn tenant t f s) := by
  unfold reissueOn
  repeat' first
    | with_reducible assumption
    | with_reducible apply modTile_goes
    | with_reducible apply whenS_goes
    | with_reducible apply faultEvent_goes
    | intro _
    | dsimp only
    | (with_reducible refine CmdsGo.mk' ?_
       first
       | with_reducible assumption
       | with_reducible apply modTile_goes
       | with_reducible apply whenS_goes
       | with_reducible apply faultEvent_goes)

theorem substituteStep_goes {s0 : State} (tenant : Nat) (t : Nat) (u : Nat) (why : Option Failure) (fails : List Failure) (s : State) (h0 : CmdsGo s0 s) :
    CmdsGo s0 (substituteStep tenant t u why fails s).2 := by
  unfold substituteStep
  repeat' first
    | with_reducible assumption
    | with_reducible apply faultEvent_goes
    | with_reducible apply recordFault_goes
    | with_reducible apply reissueOn_goes
    | split
    | dsimp only
    | with_reducible refine CmdsGo.snd (by assumption) ?_
    | with_reducible refine CmdsGo.sndA (by assumption) ?_
    | with_reducible refine CmdsGo.sndB (by assumption) ?_

theorem headgateStep_goes {s0 : State} (tenant : Nat) (t : Nat) (fails : List Failure) (s : State) (h0 : CmdsGo s0 s) :
    CmdsGo s0 (headgateStep tenant t fails s).2 := by
  unfold headgateStep
  repeat' first
    | with_reducible assumption
    | with_reducible apply reissueOn_goes
    | with_reducible apply recordFault_goes
    | with_reducible apply faultEvent_goes
    | with_reducible apply substituteStep_goes
    | split
    | dsimp only
    | with_reducible refine CmdsGo.snd (by assumption) ?_
    | with_reducible refine CmdsGo.sndA (by assumption) ?_
    | with_reducible refine CmdsGo.sndB (by assumption) ?_

theorem rowStep_goes {s0 : State} (tenant : Nat) (e : StepFails) (a : Acc) (h0 : CmdsGo s0 a.s) :
    CmdsGo s0 (rowStep tenant e a).s := by
  unfold rowStep
  repeat' first
    | with_reducible assumption
    | with_reducible apply Acc.stop_goes
    | with_reducible apply headgateStep_goes
    | with_reducible apply addOut_goes
    | split
    | dsimp only
    | (with_reducible refine CmdsGo.mk' ?_
       first
       | with_reducible assumption
       | with_reducible apply Acc.stop_goes
       | with_reducible apply headgateStep_goes
       | with_reducible apply addOut_goes
       | split)

theorem rowSteps_goes {s0 : State} (tenant : Nat) (steps : List StepFails) (i : Nat) (a : Acc) (h0 : CmdsGo s0 a.s) :
    CmdsGo s0 (rowSteps tenant steps i a).s := by
  unfold rowSteps
  repeat' first
    | with_reducible assumption
    | with_reducible apply rowStep_goes
    | with_reducible refine CmdsGo.foldl _ _ _ ?_ ?_
    | intro _
    | dsimp only
    | with_reducible refine CmdsGo.foldlA _ _ _ ?_ ?_
    | with_reducible refine CmdsGo.foldlS _ _ _ ?_ ?_

theorem visGo_goes {s0 : State} (r : SeqRow) (l : Nat) (x0 : Nat) (x1 : Nat) (x2 : Acc) (h0 : CmdsGo s0 x2.s) :
    CmdsGo s0 (visGo r l x0 x1 x2).2.s := by
  fun_induction visGo r l x0 x1 x2
  all_goals try subst_vars
  all_goals
    repeat' first
      | with_reducible assumption
      | with_reducible apply entryAt_goes
      | split
      | intro _
      | dsimp only
      | with_reducible refine CmdsGo.snd (by assumption) ?_
      | with_reducible refine CmdsGo.sndA (by assumption) ?_
      | with_reducible refine CmdsGo.sndB (by assumption) ?_
      | with_reducible apply_assumption

theorem visible_goes {s0 : State} (r : SeqRow) (l : Nat) (a : Acc) (h0 : CmdsGo s0 a.s) :
    CmdsGo s0 (visible r l a).2.s := by
  unfold visible
  repeat' first
    | with_reducible assumption
    | with_reducible apply visGo_goes

theorem kvRows_goes {s0 : State} (d : PageDir) (h : Nat) (v : Bool) (x0 : List Vis) (x1 : Acc) (h0 : CmdsGo s0 x1.s) :
    CmdsGo s0 (kvRows d h v x0 x1).2.s := by
  fun_induction kvRows d h v x0 x1
  all_goals try subst_vars
  all_goals
    repeat' first
      | with_reducible assumption
      | with_reducible apply rdEls_goes
      | split
      | dsimp only
      | with_reducible refine CmdsGo.snd (by assumption) ?_
      | with_reducible refine CmdsGo.sndA (by assumption) ?_
      | with_reducible refine CmdsGo.sndB (by assumption) ?_
      | with_reducible apply_assumption

theorem scorePages_goes {s0 : State} (d : PageDir) (decay : Nat) (vis : List Vis) (ps : List (List Nat)) (poison : Bool) (x0 : List Nat) (x1 : Acc) (h0 : CmdsGo s0 x1.s) :
    CmdsGo s0 (scorePages d decay vis ps poison x0 x1).s := by
  fun_induction scorePages d decay vis ps poison x0 x1
  all_goals try subst_vars
  all_goals
    repeat' first
      | with_reducible assumption
      | with_reducible apply getScore_goes
      | with_reducible apply putScore_goes
      | split
      | intro _
      | dsimp only
      | with_reducible refine CmdsGo.snd (by assumption) ?_
      | with_reducible refine CmdsGo.sndA (by assumption) ?_
      | with_reducible refine CmdsGo.sndB (by assumption) ?_
      | with_reducible apply_assumption

theorem wrRow_goes {s0 : State} (d : Desc) (i : Nat) (n : Nat) (f : Nat → PV) (a : Acc) (h0 : CmdsGo s0 a.s) :
    CmdsGo s0 (wrRow d i n f a).s := by
  unfold wrRow
  repeat' first
    | with_reducible assumption
    | with_reducible apply wrPieces_goes
    | split
    | intro _

theorem attendHeads_goes {s0 : State} (r : SeqRow) (vis : List Vis) (q : List PV) (x0 : Nat) (x1 : Nat) (x2 : Acc) (h0 : CmdsGo s0 x2.s) :
    CmdsGo s0 (attendHeads r vis q x0 x1 x2).2.s := by
  fun_induction attendHeads r vis q x0 x1 x2
  all_goals try subst_vars
  all_goals
    repeat' first
      | with_reducible assumption
      | with_reducible apply kvRows_goes
      | with_reducible apply scorePages_goes
      | split
      | intro _
      | dsimp only
      | with_reducible refine CmdsGo.snd (by assumption) ?_
      | with_reducible refine CmdsGo.sndA (by assumption) ?_
      | with_reducible refine CmdsGo.sndB (by assumption) ?_
      | with_reducible apply_assumption

theorem wrFreeRow_goes {s0 : State} (od : Desc) (i : Nat) (n : Nat) (a : Acc) (h0 : CmdsGo s0 a.s) :
    CmdsGo s0 (wrFreeRow od i n a).s := by
  unfold wrFreeRow
  repeat' first
    | with_reducible assumption
    | with_reducible apply freshVal_goes
    | with_reducible apply wrRow_goes
    | intro _
    | dsimp only
    | (with_reducible refine CmdsGo.mk' ?_
       first
       | with_reducible assumption
       | with_reducible apply freshVal_goes
       | with_reducible apply wrRow_goes)

theorem attendRow_goes {s0 : State} (tenant : Nat) (steps : List StepFails) (qd : Desc) (od : Desc) (layer : Nat) (i : Nat) (r : SeqRow) (x : Nat × Acc) (h0 : CmdsGo s0 x.2.s) :
    CmdsGo s0 (attendRow tenant steps qd od layer i r x).2.s := by
  unfold attendRow
  repeat' first
    | with_reducible assumption
    | with_reducible apply Acc.stop_goes
    | with_reducible apply addOut_goes
    | with_reducible apply rdEls_goes
    | with_reducible apply visible_goes
    | with_reducible apply wrFreeRow_goes
    | with_reducible apply attendHeads_goes
    | with_reducible apply rowSteps_goes
    | with_reducible apply wrRow_goes
    | split
    | intro _
    | dsimp only

theorem residents_goes {s0 : State} (r : SeqRow) (l : Nat) (x0 : Nat) (x1 : Nat) (x2 : Acc) (h0 : CmdsGo s0 x2.s) :
    CmdsGo s0 (residents r l x0 x1 x2).2.s := by
  fun_induction residents r l x0 x1 x2
  all_goals try subst_vars
  all_goals
    repeat' first
      | with_reducible assumption
      | with_reducible apply entryAt_goes
      | split
      | dsimp only
      | with_reducible refine CmdsGo.snd (by assumption) ?_
      | with_reducible refine CmdsGo.sndA (by assumption) ?_
      | with_reducible refine CmdsGo.sndB (by assumption) ?_
      | with_reducible apply_assumption

theorem lowest_goes {s0 : State} (d : PageDir) (x0 : List (Nat × Nat)) (x1 : Acc) (h0 : CmdsGo s0 x1.s) :
    CmdsGo s0 (lowest d x0 x1).2.s := by
  fun_induction lowest d x0 x1
  all_goals try subst_vars
  all_goals
    repeat' first
      | with_reducible assumption
      | with_reducible apply getScore_goes
      | split
      | dsimp only
      | with_reducible refine CmdsGo.snd (by assumption) ?_
      | with_reducible refine CmdsGo.sndA (by assumption) ?_
      | with_reducible refine CmdsGo.sndB (by assumption) ?_
      | with_reducible apply_assumption

theorem popFar_goes {s0 : State} (d : PageDir) (a : Acc) (h0 : CmdsGo s0 a.s) :
    CmdsGo s0 (popFar d a).2.s := by
  unfold popFar
  repeat' first
    | with_reducible assumption
    | with_reducible apply popStack_goes
    | split
    | intro _
    | dsimp only

theorem evictSlot_goes {s0 : State} (r : SeqRow) (drop : Bool) (k : Nat) (l : Nat) (p : Nat) (a : Acc) (h0 : CmdsGo s0 a.s) :
    CmdsGo s0 (evictSlot r drop k l p a).s := by
  unfold evictSlot
  repeat' first
    | with_reducible assumption
    | with_reducible apply setEntry_goes
    | with_reducible apply releaseRef_goes
    | with_reducible apply popFar_goes
    | with_reducible apply headgateCopy_goes
    | with_reducible apply rdWord_goes
    | with_reducible apply wrWord_goes
    | split
    | dsimp only

theorem evictLayer_goes {s0 : State} (r : SeqRow) (budget : Nat) (drop : Bool) (l : Nat) (x0 : Nat) (x1 : Nat × Acc) (h0 : CmdsGo s0 x1.2.s) :
    CmdsGo s0 (evictLayer r budget drop l x0 x1).2.s := by
  fun_induction evictLayer r budget drop l x0 x1
  all_goals try subst_vars
  all_goals
    repeat' first
      | with_reducible assumption
      | with_reducible apply residents_goes
      | with_reducible apply lowest_goes
      | with_reducible apply evictSlot_goes
      | split
      | intro _
      | dsimp only
      | with_reducible refine CmdsGo.snd (by assumption) ?_
      | with_reducible refine CmdsGo.sndA (by assumption) ?_
      | with_reducible refine CmdsGo.sndB (by assumption) ?_
      | with_reducible apply_assumption

theorem evictRow_goes {s0 : State} (seq : Desc) (budget : Nat) (drop : Bool) (_i : Nat) (r : SeqRow) (x : Nat × Acc) (h0 : CmdsGo s0 x.2.s) :
    CmdsGo s0 (evictRow seq budget drop _i r x).2.s := by
  unfold evictRow
  repeat' first
    | with_reducible assumption
    | with_reducible apply evictLayer_goes
    | with_reducible apply wrBytes_goes
    | split
    | with_reducible refine CmdsGo.foldl _ _ _ ?_ ?_
    | intro _
    | dsimp only
    | with_reducible refine CmdsGo.foldlA _ _ _ ?_ ?_

theorem copyPos_goes {s0 : State} (r : SeqRow) (src : Nat) (dst : Nat) (a : Acc) (h0 : CmdsGo s0 a.s) :
    CmdsGo s0 (copyPos r src dst a).s := by
  unfold copyPos
  repeat' first
    | with_reducible assumption
    | with_reducible apply entryAt_goes
    | with_reducible apply headgateCopy_goes
    | split
    | with_reducible refine CmdsGo.foldl _ _ _ ?_ ?_
    | intro _
    | dsimp only
    | with_reducible refine CmdsGo.snd (by assumption) ?_
    | with_reducible refine CmdsGo.foldlA _ _ _ ?_ ?_
    | with_reducible refine CmdsGo.foldlS _ _ _ ?_ ?_
    | with_reducible refine CmdsGo.sndA (by assumption) ?_
    | with_reducible refine CmdsGo.sndB (by assumption) ?_

theorem copyPath_goes {s0 : State} (r : SeqRow) (L : Nat) (x0 : List Nat) (x1 : Nat) (x2 : Acc) (h0 : CmdsGo s0 x2.s) :
    CmdsGo s0 (copyPath r L x0 x1 x2).s := by
  induction x0 generalizing x1 x2
  all_goals
    unfold copyPath
    repeat' first
      | with_reducible assumption
      | with_reducible apply copyPos_goes
      | split
      | dsimp only
      | with_reducible refine CmdsGo.snd (by assumption) ?_
      | with_reducible refine CmdsGo.sndA (by assumption) ?_
      | with_reducible refine CmdsGo.sndB (by assumption) ?_
      | with_reducible apply_assumption

theorem releaseTail_goes {s0 : State} (r : SeqRow) (lo : Nat) (hi : Nat) (x : Nat × Acc) (h0 : CmdsGo s0 x.2.s) :
    CmdsGo s0 (releaseTail r lo hi x).2.s := by
  unfold releaseTail
  repeat' first
    | with_reducible assumption
    | with_reducible apply entryAt_goes
    | with_reducible apply setEntry_goes
    | with_reducible apply releaseRef_goes
    | split
    | with_reducible refine CmdsGo.foldl _ _ _ ?_ ?_
    | intro _
    | dsimp only
    | with_reducible refine CmdsGo.snd (by assumption) ?_
    | with_reducible refine CmdsGo.foldlA _ _ _ ?_ ?_

theorem verifyRow_goes {s0 : State} (tenant : Nat) (steps : List StepFails) (seq : Desc) (cand : Desc) (dec : Desc) (n : Nat) (sampling : Bool) (tree : Bool) (i : Nat) (r : SeqRow) (x : Nat × Acc) (h0 : CmdsGo s0 x.2.s) :
    CmdsGo s0 (verifyRow tenant steps seq cand dec n sampling tree i r x).2.s := by
  unfold verifyRow
  repeat' first
    | with_reducible assumption
    | with_reducible apply wrBytes_goes
    | with_reducible apply rdEls_goes
    | with_reducible apply rowSteps_goes
    | with_reducible apply copyPath_goes
    | with_reducible apply releaseTail_goes
    | split
    | intro _
    | dsimp only

/-! ### Machine/CtrCmds.lean -/

theorem readCtr_goes {s0 : State} (c : Nat) (s : State) (h0 : CmdsGo s0 s) :
    CmdsGo s0 (readCtr c s).2 := by
  unfold readCtr
  repeat' first
    | with_reducible assumption
    | with_reducible apply freshVal_goes
    | split

theorem handSet_goes {s0 : State} (issuer : Nat) (t : Nat) (k : Nat) (c : Nat) (v : Nat) (s : State) (h0 : CmdsGo s0 s) :
    CmdsGo s0 (handSet issuer t k c v s).2 := by
  unfold handSet
  repeat' first
    | with_reducible assumption
    | with_reducible apply readCtr_goes
    | with_reducible apply henuaEvent_goes
    | with_reducible apply modTen_goes
    | with_reducible apply pokePhys_goes

/-! ### Machine/Peer.lean -/

theorem modPeer_goes {s0 : State} (m : Nat) (g : Peer → Peer) (s : State) (h0 : CmdsGo s0 s) :
    CmdsGo s0 (modPeer m g s) := by
  unfold modPeer
  repeat' first
    | with_reducible assumption
    | with_reducible apply modDpt_goes
    | split

theorem modPath_goes {s0 : State} (m : Nat) (k : Nat) (g : PathSt → PathSt) (s : State) (h0 : CmdsGo s0 s) :
    CmdsGo s0 (modPath m k g s) := by
  unfold modPath
  repeat' first
    | with_reducible assumption
    | with_reducible apply modPeer_goes

theorem countTx_goes {s0 : State} (m : Nat) (k : Nat) (n : Nat) (s : State) (h0 : CmdsGo s0 s) :
    CmdsGo s0 (countTx m k n s) := by
  unfold countTx
  repeat' first
    | with_reducible assumption
    | with_reducible apply modPort_goes
    | split

theorem wireOut_goes {s0 : State} (m : Nat) (k : Nat) (ty : Nat) (addr : List Byte) (hd : DptHdr) (b : DptBody) (s : State) (h0 : CmdsGo s0 s) :
    CmdsGo s0 (wireOut m k ty addr hd b s) := by
  unfold wireOut
  repeat' first
    | with_reducible assumption
    | with_reducible apply countTx_goes
    | with_reducible apply emit_goes
    | split
    | dsimp only
    | (with_reducible refine CmdsGo.mk' ?_
       first
       | with_reducible assumption
       | with_reducible apply countTx_goes
       | with_reducible apply emit_goes
       | split)

theorem sendOn_goes {s0 : State} (m : Nat) (k : Nat) (ty : Nat) (hd : DptHdr) (b : DptBody) (s : State) (h0 : CmdsGo s0 s) :
    CmdsGo s0 (sendOn m k ty hd b s) := by
  unfold sendOn
  repeat' first
    | with_reducible assumption
    | with_reducible apply wireOut_goes
    | with_reducible apply modPath_goes
    | split
    | intro _
    | dsimp only
    | with_reducible refine CmdsGo.snd (by assumption) ?_
    | with_reducible refine CmdsGo.sndA (by assumption) ?_
    | with_reducible refine CmdsGo.sndB (by assumption) ?_
    | (with_reducible refine CmdsGo.mk' ?_
       first
       | with_reducible assumption
       | with_reducible apply wireOut_goes
       | with_reducible apply modPath_goes
       | split
       | with_reducible refine CmdsGo.snd (by assumption) ?_
       | with_reducible refine CmdsGo.sndA (by assumption) ?_
       | with_reducible refine CmdsGo.sndB (by assumption) ?_)

theorem sendCtl_goes {s0 : State} (m : Nat) (c : DptCtl) (s : State) (h0 : CmdsGo s0 s) :
    CmdsGo s0 (sendCtl m c s) := by
  unfold sendCtl
  repeat' first
    | with_reducible assumption
    | with_reducible apply sendOn_goes
    | dsimp only

theorem finishRemote_goes {s0 : State} (r : Remote) (outs : List Nat) (s : State) (h0 : CmdsGo s0 s) :
    CmdsGo s0 (finishRemote r outs s) := by
  unfold finishRemote
  repeat' first
    | with_reducible assumption
    | with_reducible apply modDpt_goes
    | with_reducible apply endRun_goes
    | with_reducible apply modRun_goes
    | with_reducible apply finishCmd_goes
    | split

theorem kickGo_goes {s0 : State} (x0 : List (Nat × Nat)) (x1 : List Remote) (x2 : State) (h0 : CmdsGo s0 x2) :
    CmdsGo s0 (kickGo x0 x1 x2) := by
  fun_induction kickGo x0 x1 x2
  all_goals try subst_vars
  all_goals
    repeat' first
      | with_reducible assumption
      | with_reducible apply finishRemote_goes
      | with_reducible apply sendCtl_goes
      | with_reducible apply modDpt_goes
      | split
      | intro _
      | dsimp only
      | with_reducible refine CmdsGo.snd (by assumption) ?_
      | with_reducible refine CmdsGo.sndA (by assumption) ?_
      | with_reducible refine CmdsGo.sndB (by assumption) ?_
      | (with_reducible refine CmdsGo.mk' ?_
         first
         | with_reducible assumption
         | with_reducible apply finishRemote_goes
         | with_reducible apply sendCtl_goes
         | with_reducible apply modDpt_goes
         | split
         | with_reducible refine CmdsGo.snd (by assumption) ?_
         | with_reducible refine CmdsGo.sndA (by assumption) ?_
         | with_reducible refine CmdsGo.sndB (by assumption) ?_)
      | with_reducible apply_assumption

theorem kick_goes {s0 : State} (s : State) (h0 : CmdsGo s0 s) :
    CmdsGo s0 (kick s) := by
  unfold kick
  repeat' first
    | with_reducible assumption
    | with_reducible apply kickGo_goes

/-! ### Machine/TileData.lean -/

theorem CmdsGo.sndT {α : Type} {s0 : State} {a : α} {b : TAcc} {p : α × TAcc} (e : p = (a, b)) (h : CmdsGo s0 p.2.a.s) : CmdsGo s0 b.a.s := by
  subst e; exact h

theorem TAcc.start_goes {s0 : State} (s : State) (t : Nat) (c : Ctx) (h0 : CmdsGo s0 s) :
    CmdsGo s0 (TAcc.start s t c).a.s := by
  unfold TAcc.start
  repeat' first
    | with_reducible assumption
    | with_reducible apply Acc.start_goes

theorem tRead_goes {s0 : State} (space : Nat) (off : Nat) (len : Nat) (x : TAcc) (h0 : CmdsGo s0 x.a.s) :
    CmdsGo s0 (tRead space off len x).2.a.s := by
  unfold tRead
  repeat' first
    | with_reducible assumption
    | with_reducible apply rdBytes_goes
    | split

theorem tWrite_goes {s0 : State} (space : Nat) (off : Nat) (bs : List Byte) (poison : Bool) (x : TAcc) (h0 : CmdsGo s0 x.a.s) :
    CmdsGo s0 (tWrite space off bs poison x).a.s := by
  unfold tWrite
  repeat' first
    | with_reducible assumption
    | with_reducible apply wrBytes_goes
    | split

theorem noteRun_goes {s0 : State} (r : Nat) (outs : List Nat) (s : State) (h0 : CmdsGo s0 s) :
    CmdsGo s0 (noteRun r outs s) := by
  unfold noteRun
  repeat' first
    | with_reducible assumption
    | with_reducible apply modRun_goes

theorem finishT_goes {s0 : State} (x : TAcc) (k : State → State) (h0 : CmdsGo s0 x.a.s) (h1 : ∀ (y0 : State), CmdsGo s0 y0 → CmdsGo s0 (k y0)) :
    CmdsGo s0 (finishT x k) := by
  unfold finishT
  repeat' first
    | with_reducible assumption
    | with_reducible apply h1
    | with_reducible apply noteRun_goes
    | with_reducible apply modTile_goes
    | with_reducible apply schedule_goes
    | with_reducible apply endRun_goes
    | with_reducible apply failStep_goes
    | split

theorem rdPv_goes {s0 : State} (space : Nat) (fmt : Nat) (off : Nat) (n : Nat) (x : TAcc) (h0 : CmdsGo s0 x.a.s) :
    CmdsGo s0 (rdPv space fmt off n x).2.a.s := by
  unfold rdPv
  repeat' first
    | with_reducible assumption
    | with_reducible apply rdEls_goes
    | split

theorem wrList_goes {s0 : State} (d : Desc) (l : List PV) (all : Bool) (a : Acc) (h0 : CmdsGo s0 a.s) :
    CmdsGo s0 (wrList d l all a).s := by
  unfold wrList
  repeat' first
    | with_reducible assumption
    | with_reducible apply wrTensor_goes
    | intro _

/-! ### Machine/TileProg.lean -/

theorem readV_goes {s0 : State} (t : Nat) (v : Nat) (s : State) (h0 : CmdsGo s0 s) :
    CmdsGo s0 (readV t v s).2 := by
  unfold readV
  repeat' first
    | with_reducible assumption
    | with_reducible apply freshVal_goes
    | split

theorem setCtx_goes {s0 : State} (t : Nat) (c : Ctx) (s : State) (h0 : CmdsGo s0 s) :
    CmdsGo s0 (setCtx t c s) := by
  unfold setCtx
  repeat' first
    | with_reducible assumption
    | with_reducible apply modTile_goes

theorem runScalar_goes {s0 : State} (t : Nat) (c : Ctx) (o : ScalarOp) (s : State) (h0 : CmdsGo s0 s) :
    CmdsGo s0 (runScalar t c o s).a.s := by
  unfold runScalar
  repeat' first
    | with_reducible assumption
    | with_reducible apply TAcc.start_goes
    | with_reducible apply tRead_goes
    | with_reducible apply setCtx_goes
    | with_reducible apply tWrite_goes
    | with_reducible apply readV_goes
    | split

theorem issueWord_goes {s0 : State} (t : Nat) (c : Ctx) (w : LongWord) (parityAt : Option Nat) (s : State) (h0 : CmdsGo s0 s) :
    CmdsGo s0 (issueWord t c w parityAt s) := by
  unfold issueWord
  repeat' first
    | with_reducible assumption
    | with_reducible apply Acc.start_goes
    | with_reducible apply TAcc.start_goes
    | with_reducible apply modTile_goes
    | with_reducible apply schedule_goes
    | with_reducible apply failStep_goes
    | with_reducible apply poisonBlock_goes
    | with_reducible apply runScalar_goes
    | with_reducible apply setCtx_goes
    | with_reducible apply finishT_goes
    | split
    | intro _
    | dsimp only
    | with_reducible refine CmdsGo.snd (by assumption) ?_
    | with_reducible refine CmdsGo.sndA (by assumption) ?_
    | with_reducible refine CmdsGo.sndB (by assumption) ?_
    | with_reducible refine CmdsGo.sndT (by assumption) ?_
    | (with_reducible refine CmdsGo.mk' ?_
       first
       | with_reducible assumption
       | with_reducible apply Acc.start_goes
       | with_reducible apply TAcc.start_goes
       | with_reducible apply modTile_goes
       | with_reducible apply schedule_goes
       | with_reducible apply failStep_goes
       | with_reducible apply poisonBlock_goes
       | with_reducible apply runScalar_goes
       | with_reducible apply setCtx_goes
       | with_reducible apply finishT_goes
       | split
       | with_reducible refine CmdsGo.snd (by assumption) ?_
       | with_reducible refine CmdsGo.sndA (by assumption) ?_
       | with_reducible refine CmdsGo.sndB (by assumption) ?_
       | with_reducible refine CmdsGo.sndT (by assumption) ?_)

theorem beginBody_goes {s0 : State} (t : Nat) (c : Ctx) (s : State) (h0 : CmdsGo s0 s) :
    CmdsGo s0 (beginBody t c s) := by
  unfold beginBody
  repeat' first
    | with_reducible assumption
    | with_reducible apply modTile_goes
    | intro _
    | dsimp only
    | (with_reducible refine CmdsGo.mk' ?_
       first
       | with_reducible assumption
       | with_reducible apply modTile_goes)

theorem nextShared_goes {s0 : State} (t : Nat) (c : Ctx) (s : State) (h0 : CmdsGo s0 s) :
    CmdsGo s0 (nextShared t c s) := by
  unfold nextShared
  repeat' first
    | with_reducible assumption
    | with_reducible apply loadCtx_goes
    | with_reducible apply countShared_goes
    | with_reducible apply saveFrame_goes
    | with_reducible apply withdraw_goes
    | split
    | intro _
    | dsimp only
    | with_reducible refine CmdsGo.snd (by assumption) ?_
    | with_reducible refine CmdsGo.sndA (by assumption) ?_
    | with_reducible refine CmdsGo.sndB (by assumption) ?_
    | with_reducible refine CmdsGo.sndT (by assumption) ?_

theorem headWait_goes {s0 : State} (t : Nat) (take : Bool) (slot : Nat) (amount : Nat) (s : State) (h0 : CmdsGo s0 s) :
    CmdsGo s0 (headWait t take slot amount s) := by
  unfold headWait
  repeat' first
    | with_reducible assumption
    | with_reducible apply nextShared_goes
    | with_reducible apply schedule_goes
    | with_reducible apply failStep_goes
    | with_reducible apply beginBody_goes
    | with_reducible apply registerHead_goes
    | with_reducible apply endRun_goes
    | with_reducible apply setCtx_goes
    | split
    | dsimp only
    | with_reducible refine CmdsGo.snd (by assumption) ?_
    | with_reducible refine CmdsGo.sndA (by assumption) ?_
    | with_reducible refine CmdsGo.sndB (by assumption) ?_
    | with_reducible refine CmdsGo.sndT (by assumption) ?_
    | (with_reducible refine CmdsGo.mk' ?_
       first
       | with_reducible assumption
       | with_reducible apply nextShared_goes
       | with_reducible apply schedule_goes
       | with_reducible apply failStep_goes
       | with_reducible apply beginBody_goes
       | with_reducible apply registerHead_goes
       | with_reducible apply endRun_goes
       | with_reducible apply setCtx_goes
       | split
       | with_reducible refine CmdsGo.snd (by assumption) ?_
       | with_reducible refine CmdsGo.sndA (by assumption) ?_
       | with_reducible refine CmdsGo.sndB (by assumption) ?_
       | with_reducible refine CmdsGo.sndT (by assumption) ?_)

theorem release_goes {s0 : State} (t : Nat) (c : Ctx) (bad : Bool) (e : Effect) (s : State) (h0 : CmdsGo s0 s) :
    CmdsGo s0 (release t c bad e s).2 := by
  unfold release
  repeat' first
    | with_reducible assumption
    | with_reducible apply TAcc.start_goes
    | with_reducible apply endRun_goes
    | with_reducible apply rdPv_goes
    | with_reducible apply wrList_goes
    | with_reducible apply noteRun_goes
    | with_reducible apply startFop_goes
    | with_reducible apply kick_goes
    | with_reducible apply modDpt_goes
    | with_reducible apply signalCtr_goes
    | split
    | intro _
    | dsimp only
    | with_reducible refine CmdsGo.snd (by assumption) ?_
    | with_reducible refine CmdsGo.sndA (by assumption) ?_
    | with_reducible refine CmdsGo.sndB (by assumption) ?_
    | with_reducible refine CmdsGo.sndT (by assumption) ?_
    | (with_reducible refine CmdsGo.mk' ?_
       first
       | with_reducible assumption
       | with_reducible apply TAcc.start_goes
       | with_reducible apply endRun_goes
       | with_reducible apply rdPv_goes
       | with_reducible apply wrList_goes
       | with_reducible apply noteRun_goes
       | with_reducible apply startFop_goes
       | with_reducible apply kick_goes
       | with_reducible apply modDpt_goes
       | with_reducible apply signalCtr_goes
       | split
       | with_reducible refine CmdsGo.snd (by assumption) ?_
       | with_reducible refine CmdsGo.sndA (by assumption) ?_
       | with_reducible refine CmdsGo.sndB (by assumption) ?_
       | with_reducible refine CmdsGo.sndT (by assumption) ?_)

theorem releaseAll_goes {s0 : State} (t : Nat) (c : Ctx) (bad : Bool) (x0 : List Effect) (x1 : State) (h0 : CmdsGo s0 x1) :
    CmdsGo s0 (releaseAll t c bad x0 x1) := by
  fun_induction releaseAll t c bad x0 x1
  all_goals try subst_vars
  all_goals
    repeat' first
      | with_reducible assumption
      | with_reducible apply release_goes
      | split
      | dsimp only
      | with_reducible refine CmdsGo.snd (by assumption) ?_
      | with_reducible refine CmdsGo.sndA (by assumption) ?_
      | with_reducible refine CmdsGo.sndB (by assumption) ?_
      | with_reducible refine CmdsGo.sndT (by assumption) ?_
      | with_reducible apply_assumption

theorem finishLogical_goes {s0 : State} (t : Nat) (c : Ctx) (s : State) (h0 : CmdsGo s0 s) :
    CmdsGo s0 (finishLogical t c s) := by
  unfold finishLogical
  repeat' first
    | with_reducible assumption
    | with_reducible apply modRun_goes
    | with_reducible apply clearTile_goes
    | with_reducible apply endRun_goes
    | with_reducible apply whenS_goes
    | with_reducible apply countShared_goes
    | with_reducible apply checkPaused_goes
    | split
    | intro _
    | dsimp only
    | with_reducible refine CmdsGo.snd (by assumption) ?_
    | with_reducible refine CmdsGo.sndA (by assumption) ?_
    | with_reducible refine CmdsGo.sndB (by assumption) ?_
    | with_reducible refine CmdsGo.sndT (by assumption) ?_
    | (with_reducible refine CmdsGo.mk' ?_
       first
       | with_reducible assumption
       | with_reducible apply modRun_goes
       | with_reducible apply clearTile_goes
       | with_reducible apply endRun_goes
       | with_reducible apply whenS_goes
       | with_reducible apply countShared_goes
       | with_reducible apply checkPaused_goes
       | split
       | with_reducible refine CmdsGo.snd (by assumption) ?_
       | with_reducible refine CmdsGo.sndA (by assumption) ?_
       | with_reducible refine CmdsGo.sndB (by assumption) ?_
       | with_reducible refine CmdsGo.sndT (by assumption) ?_)

theorem atBoundary_goes {s0 : State} (t : Nat) (c : Ctx) (s : State) (h0 : CmdsGo s0 s) :
    CmdsGo s0 (atBoundary t c s) := by
  unfold atBoundary
  repeat' first
    | with_reducible assumption
    | with_reducible apply modTile_goes
    | with_reducible apply saveFrame_goes
    | with_reducible apply moveLogical_goes
    | with_reducible apply nextShared_goes
    | with_reducible apply beginTest_goes
    | split
    | intro _
    | dsimp only

end Sys2Proof.Machine
end

