-- ==== Sys2Proof/Laws/Exec.lean ====
section
/-! SUPPORT. `Kept` for every command and for a step: what the machine as a whole keeps. -/

namespace Sys2Proof.Machine

/-- Every command keeps the queue and the invariants; all but the clock commands keep DEV_TIME, all but the fuse
commands the fuses. -/
theorem exec_kept (i : Instr) (s : State) : ResKept (!clockCommand i) (!fuseCommand i) s (exec i s) := by
  cases i with
  | tenantCreate h => exact execTenantCreate_kept h s (Kept.refl _ _ s)
  | tenantDestroy h => exact execTenantDestroy_kept h s (Kept.refl _ _ s)
  | sqCreate h => exact execSqCreate_kept h s (Kept.refl _ _ s)
  | sqDestroy h => exact execSqDestroy_kept h s (Kept.refl _ _ s)
  | groupDeadline h => exact execGroupDeadline_kept h s (Kept.refl _ _ s)
  | cmdCancel h => exact execCmdCancel_kept h s (Kept.refl _ _ s)
  | tenantPause h => exact execTenantPause_kept h s (Kept.refl _ _ s)
  | tenantResume h => exact execTenantResume_kept h s (Kept.refl _ _ s)
  | alloc h => exact execAlloc_kept h s (Kept.refl _ _ s)
  | free h => exact execFree_kept h s (Kept.refl _ _ s)
  | descCreate h => exact execDescCreate_kept h s (Kept.refl _ _ s)
  | descDestroy h => exact execDescDestroy_kept h s (Kept.refl _ _ s)
  | fill h => exact execFill_kept h s (Kept.refl _ _ s)
  | copy h crc => exact execCopy_kept h crc s (Kept.refl _ _ s)
  | copyIndexed h crc => exact execCopyIndexed_kept h crc s (Kept.refl _ _ s)
  | furrow h => exact execFurrow_kept h s (Kept.refl _ _ s)
  | fopCopy id => exact execFopCopy_kept id s (Kept.refl _ _ s)
  | fopFill id => exact execFopFill_kept id s (Kept.refl _ _ s)
  | fopLogic id => exact execFopLogic_kept id s (Kept.refl _ _ s)
  | fopDot id => exact execFopDot_kept id s (Kept.refl _ _ s)
  | fopAxpy id => exact execFopAxpy_kept id s (Kept.refl _ _ s)
  | fopAxpyReduce id => exact execFopAxpyReduce_kept id s (Kept.refl _ _ s)
  | fopGather id => exact execFopGather_kept id s (Kept.refl _ _ s)
  | fopSegment id => exact execFopSegment_kept id s (Kept.refl _ _ s)
  | fopAtomic id => exact execFopAtomic_kept id s (Kept.refl _ _ s)
  | fopAtomicFetch id => exact execFopAtomicFetch_kept id s (Kept.refl _ _ s)
  | fopPageScore id => exact execFopPageScore_kept id s (Kept.refl _ _ s)
  | bundleLoad h => exact execBundleLoad_kept h s (Kept.refl _ _ s)
  | bundleUnload h => exact execBundleUnload_kept h s (Kept.refl _ _ s)
  | bundleRun h => exact execBundleRun_kept h s (Kept.refl _ _ s)
  | pageShare h => exact execPageShare_kept h s (Kept.refl _ _ s)
  | pageRelease h => exact execPageRelease_kept h s (Kept.refl _ _ s)
  | pageCow h => exact execPageCow_kept h s (Kept.refl _ _ s)
  | attend h steps => exact execAttend_kept h steps s (Kept.refl _ _ s)
  | verify h steps => exact execVerify_kept h steps s (Kept.refl _ _ s)
  | evict h => exact execEvict_kept h s (Kept.refl _ _ s)
  | adapterLoad h => exact execAdapterLoad_kept h s (Kept.refl _ _ s)
  | adapterEvict h => exact execAdapterEvict_kept h s (Kept.refl _ _ s)
  | ctrSignal h => exact execCtrSignal_kept h s (Kept.refl _ _ s)
  | ctrWaitGe h => exact execCtrWaitGe_kept h s (Kept.refl _ _ s)
  | ctrWaitTake h => exact execCtrWaitTake_kept h s (Kept.refl _ _ s)
  | ctrRead h => exact execCtrRead_kept h s (Kept.refl _ _ s)
  | portConfig h => exact execPortConfig_kept h s (Kept.refl _ _ s)
  | groupJoin h => exact execGroupJoin_kept h s (Kept.refl _ _ s)
  | groupLeave h => exact execGroupLeave_kept h s (Kept.refl _ _ s)
  | remoteCopy h => exact execRemoteCopy_kept h s (Kept.refl _ _ s)
  | collective h => exact execCollective_kept h s (Kept.refl _ _ s)
  | selftest h => exact execSelftest_kept h s (Kept.refl _ _ s)
  | margin h lanes => exact execMargin_kept h lanes s (Kept.refl _ _ s)
  | powerState h => exact execPowerState_kept h s (Kept.refl _ _ s)
  | faultHistory h => exact execFaultHistory_kept h s (Kept.refl _ _ s)
  | counterPeek h => exact execCounterPeek_kept h s (Kept.refl _ _ s)
  | counterPoke h => exact execCounterPoke_kept h s (Kept.refl _ _ s)
  | flipMask h => exact execFlipMask_kept h s (Kept.refl _ _ s)
  | attest h => exact execAttest_kept h s (Kept.refl _ _ s)
  | nop h => exact execNop_kept h s (Kept.refl _ _ s)
  | getStatus p => exact execGetStatus_kept p s (Kept.refl _ _ s)
  | readReg p off count => exact execReadReg_kept p off count s (Kept.refl _ _ s)
  | writeReg p a off value => exact execWriteReg_kept p a off value s (Kept.refl _ _ s)
  | eventRead p first max => exact execEventRead_kept p first max s (Kept.refl _ _ s)
  | faultHistoryRead p off len => exact execFaultHistoryRead_kept p off len s (Kept.refl _ _ s)
  | faultClear p a cls unit => exact execFaultClear_kept p a cls unit s (Kept.refl _ _ s)
  | identityGet p => exact execIdentityGet_kept p s (Kept.refl _ _ s)
  | henuaAttest p nonce tenant => exact execHenuaAttest_kept p nonce tenant s (Kept.refl _ _ s)
  | henuaPowerState p a st => exact execHenuaPowerState_kept p a st s (Kept.refl _ _ s)
  | henuaCounterPeek p tenant ctr => exact execHenuaCounterPeek_kept p tenant ctr s (Kept.refl _ _ s)
  | henuaCounterPoke p a tenant ctr value => exact execHenuaCounterPoke_kept p a tenant ctr value s (Kept.refl _ _ s)
  | ownerKeyProgram p slot hash => exact execOwnerKeyProgram_kept p slot hash s (Kept.refl _ _ s)
  | keyRevoke p a slot => exact execKeyRevoke_kept p a slot s (Kept.refl _ _ s)
  | rollbackCommit p a => exact execRollbackCommit_kept p a s (Kept.refl _ _ s)
  | mgmtNetConfig p a record => exact execMgmtNetConfig_kept p a record s (Kept.refl _ _ s)
  | pldmFirmwareUpdate p image => exact execPldmFirmwareUpdate_kept p image s (Kept.refl _ _ s)
  | hgSqTailWrite fn q tail stores => exact execHgSqTailWrite_kept fn q tail stores s (Kept.refl _ _ s)
  | hgCqHeadWrite fn q head => exact execHgCqHeadWrite_kept fn q head s (Kept.refl _ _ s)
  | hgCqCtrlWrite fn value => exact execHgCqCtrlWrite_kept fn value s (Kept.refl _ _ s)
  | hgSq0CtrlWrite fn value => exact execHgSq0CtrlWrite_kept fn value s (Kept.refl _ _ s)
  | packetAdmission mismatches => exact execPacketAdmission_kept mismatches s (Kept.refl _ _ s)
  | commandStart => exact execCommandStart_kept s (Kept.refl _ _ s)
  | commandCompletion h => exact execCommandCompletion_kept h s (Kept.refl _ _ s)
  | irqHoldoffExpiry fn vec => exact execIrqHoldoffExpiry_kept fn vec s (Kept.refl _ _ s)
  | cqStallTimeout tenant => exact execCqStallTimeout_kept tenant s (Kept.refl _ _ s)
  | hgDevTimeRead fn a => exact execHgDevTimeRead_kept fn a s (Kept.refl _ _ s)
  | rcRegisterRead fn place size => exact execRcRegisterRead_kept fn place size s (Kept.refl _ _ s)
  | w1cRegisterWrite fn off value => exact execW1cRegisterWrite_kept fn off value s (Kept.refl _ _ s)
  | registerWrite t size value => exact execRegisterWrite_kept t size value s (Kept.refl _ _ s)
  | scFurrowBudgetWrite fn stack value => exact execScFurrowBudgetWrite_kept fn stack value s (Kept.refl _ _ s)
  | pmPowerLimitWrite value => exact execPmPowerLimitWrite_kept value s (Kept.refl _ _ s)
  | scPatrolCtrlWrite fn stack value => exact execScPatrolCtrlWrite_kept fn stack value s (Kept.refl _ _ s)
  | hgPtpTxTailWrite fn tail fraction => exact execHgPtpTxTailWrite_kept fn tail fraction s (Kept.refl _ _ s)
  | hgPtpRxHeadWrite fn head => exact execHgPtpRxHeadWrite_kept fn head s (Kept.refl _ _ s)
  | msixUnmask fn vec => exact execMsixUnmask_kept fn vec s (Kept.refl _ _ s)
  | firmwarePushGo => exact execFirmwarePushGo_kept s (Kept.refl _ _ s)
  | firmwareVerification headerError payloadError => exact execFirmwareVerification_kept headerError payloadError s (Kept.refl _ _ s)
  | bar4Read fn off len => exact execBar4Read_kept fn off len s (Kept.refl _ _ s)
  | bar4Write fn off bytes => exact execBar4Write_kept fn off bytes s (Kept.refl _ _ s)
  | inputPowerApplied slotId isoCompat => exact execInputPowerApplied_kept slotId isoCompat s (Kept.refl _ _ s)
  | inputWarningBand => exact execInputWarningBand_kept s (Kept.refl _ _ s)
  | inputCut => exact execInputCut_kept s (Kept.refl _ _ s)
  | inputPowerLoss => exact execInputPowerLoss_kept s (Kept.refl _ _ s)
  | inputRecovery => exact execInputRecovery_kept s (Kept.refl _ _ s)
  | pwrEnHigh => exact execPwrEnHigh_kept s (Kept.refl _ _ s)
  | pwrEnLow => exact execPwrEnLow_kept s (Kept.refl _ _ s)
  | perstNAssert => exact execPerstNAssert_kept s (Kept.refl _ _ s)
  | perstNRelease => exact execPerstNRelease_kept s (Kept.refl _ _ s)
  | hotReset => exact execHotReset_kept s (Kept.refl _ _ s)
  | pcieLinkDown => exact execPcieLinkDown_kept s (Kept.refl _ _ s)
  | pcieLinkTrained flit width rate => exact execPcieLinkTrained_kept flit width rate s (Kept.refl _ _ s)
  | functionLevelReset fn => exact execFunctionLevelReset_kept fn s (Kept.refl _ _ s)
  | wakeNAssert => exact execWakeNAssert_kept s (Kept.refl _ _ s)
  | wakeComplete failedStacks retrained => exact execWakeComplete_kept failedStacks retrained s (Kept.refl _ _ s)
  | henuaBootComplete => exact execHenuaBootComplete_kept s (Kept.refl _ _ s)
  | railSequencing => exact execRailSequencing_kept s (Kept.refl _ _ s)
  | rootPllLock => exact execRootPllLock_kept s (Kept.refl _ _ s)
  | bootSelftestEnd first repeats => exact execBootSelftestEnd_kept first repeats s (Kept.refl _ _ s)
  | stackLinkTrainingEnd failing => exact execStackLinkTrainingEnd_kept failing s (Kept.refl _ _ s)
  | inventoryComplete expanders => exact execInventoryComplete_kept expanders s (Kept.refl _ _ s)
  | longWordIssue t w parityAt => exact execLongWordIssue_kept t w parityAt s (Kept.refl _ _ s)
  | mainPass t => exact execMainPass_kept t s (Kept.refl _ _ s)
  | checksumVerdict t row errors => exact execChecksumVerdict_kept t row errors s (Kept.refl _ _ s)
  | accDrain t residueError => exact execAccDrain_kept t residueError s (Kept.refl _ _ s)
  | lateralLoad t => exact execLateralLoad_kept t s (Kept.refl _ _ s)
  | extraLateralSlot t => exact execExtraLateralSlot_kept t s (Kept.refl _ _ s)
  | channelOp t => exact execChannelOp_kept t s (Kept.refl _ _ s)
  | channelReduction t => exact execChannelReduction_kept t s (Kept.refl _ _ s)
  | softmax t => exact execSoftmax_kept t s (Kept.refl _ _ s)
  | normalisation t => exact execNormalisation_kept t s (Kept.refl _ _ s)
  | quantise t => exact execQuantise_kept t s (Kept.refl _ _ s)
  | loadTransfer t parityAt => exact execLoadTransfer_kept t parityAt s (Kept.refl _ _ s)
  | codeOverlayTransfer t => exact execCodeOverlayTransfer_kept t s (Kept.refl _ _ s)
  | storeTransfer t => exact execStoreTransfer_kept t s (Kept.refl _ _ s)
  | eventWait t ev n => exact execEventWait_kept t ev n s (Kept.refl _ _ s)
  | unitOpComplete t u k found => exact execUnitOpComplete_kept t u k found s (Kept.refl _ _ s)
  | stepHeadWait t take slot amount => exact execStepHeadWait_kept t take slot amount s (Kept.refl _ _ s)
  | commit t k => exact execCommit_kept t k s (Kept.refl _ _ s)
  | stepTimeLimit t => exact execStepTimeLimit_kept t s (Kept.refl _ _ s)
  | tileTrap t => exact execTileTrap_kept t s (Kept.refl _ _ s)
  | tileFrameSaveComplete t => exact execTileFrameSaveComplete_kept t s (Kept.refl _ _ s)
  | runResume run badHeader badBlocks => exact execRunResume_kept run badHeader badBlocks s (Kept.refl _ _ s)
  | counterSignal tenant ctr amount uncorrectable => exact execCounterSignal_kept tenant ctr amount uncorrectable s (Kept.refl _ _ s)
  | furrowSliceStart k d p id checkFails => exact execFurrowSliceStart_kept k d p id checkFails s (Kept.refl _ _ s)
  | sliceEnd k d p => exact execSliceEnd_kept k d p s (Kept.refl _ _ s)
  | refreshDue k d b => exact execRefreshDue_kept k d b s (Kept.refl _ _ s)
  | stackRead k off flips => exact execStackRead_kept k off flips s (Kept.refl _ _ s)
  | stackWrite k off data mask source => exact execStackWrite_kept k off data mask source s (Kept.refl _ _ s)
  | mergeWindowExpiry k blk => exact execMergeWindowExpiry_kept k blk s (Kept.refl _ _ s)
  | correctionWriteBack k blk => exact execCorrectionWriteBack_kept k blk s (Kept.refl _ _ s)
  | uePoisonRewrite k blk => exact execUePoisonRewrite_kept k blk s (Kept.refl _ _ s)
  | ceBucketLeak k => exact execCeBucketLeak_kept k s (Kept.refl _ _ s)
  | patrolRowVisit k => exact execPatrolRowVisit_kept k s (Kept.refl _ _ s)
  | linkFrameRetry k ok => exact execLinkFrameRetry_kept k ok s (Kept.refl _ _ s)
  | farLinkDown link errors => exact execFarLinkDown_kept link errors s (Kept.refl _ _ s)
  | flitCrcRetry a b ok => exact execFlitCrcRetry_kept a b ok s (Kept.refl _ _ s)
  | dptWriteReceived hd payload => exact execDptWriteReceived_kept hd payload s (Kept.refl _ _ s)
  | reorderRelease src queue => exact execReorderRelease_kept src queue s (Kept.refl _ _ s)
  | dptSignalReceived hd => exact execDptSignalReceived_kept hd s (Kept.refl _ _ s)
  | dptAckReceived src incarnation p => exact execDptAckReceived_kept src incarnation p s (Kept.refl _ _ s)
  | dptControlReceived src incarnation p => exact execDptControlReceived_kept src incarnation p s (Kept.refl _ _ s)
  | frameReceived port logical length fraction fecCorr fecUncorr k => exact execFrameReceived_kept port logical length fraction fecCorr fecUncorr k s (Kept.refl _ _ s)
  | ackTimer peer path => exact execAckTimer_kept peer path s (Kept.refl _ _ s)
  | retransmitTimeout peer path psn => exact execRetransmitTimeout_kept peer path psn s (Kept.refl _ _ s)
  | pathProbe peer path => exact execPathProbe_kept peer path s (Kept.refl _ _ s)
  | keepaliveTimer peer => exact execKeepaliveTimer_kept peer s (Kept.refl _ _ s)
  | peerTimeout peer => exact execPeerTimeout_kept peer s (Kept.refl _ _ s)
  | joinTimeout h => exact execJoinTimeout_kept h s (Kept.refl _ _ s)
  | ethLinkUp port logical => exact execEthLinkUp_kept port logical s (Kept.refl _ _ s)
  | ethLinkDown port logical => exact execEthLinkDown_kept port logical s (Kept.refl _ _ s)
  | sensorUpdate readings => exact execSensorUpdate_kept readings s (Kept.refl _ _ s)
  | powerLimiterTick mean => exact execPowerLimiterTick_kept mean s (Kept.refl _ _ s)
  | tileTestSlot => exact execTileTestSlot_kept s (Kept.refl _ _ s)
  | stackTestSlot => exact execStackTestSlot_kept s (Kept.refl _ _ s)
  | suspectTestDue u => exact execSuspectTestDue_kept u s (Kept.refl _ _ s)
  | selftestComplete u first repeats => exact execSelftestComplete_kept u first repeats s (Kept.refl _ _ s)
  | faultRecordFlush => exact execFaultRecordFlush_kept s (Kept.refl _ _ s)
  | operatingTimeTick => exact execOperatingTimeTick_kept s (Kept.refl _ _ s)
  | dptCollectiveDataReceived hd payload => exact execDptCollectiveDataReceived_kept hd payload s (Kept.refl _ _ s)
  | retrainingComplete u ok inFlight => exact execRetrainingComplete_kept u ok inFlight s (Kept.refl _ _ s)
  | configRetryEnd => exact execConfigRetryEnd_kept s (Kept.refl _ _ s)

/-- The tick of an empty queue: DEV_TIME counts, steps at their time limit end, and what nothing holds any longer is
served. -/
theorem tick_kept (s : State) : Kept false true s (tick s) := by
  unfold tick
  dsimp only
  refine serveHeld_kept _ (forEach_kept _ _ _ (fun a u h => stepExpired_kept a u h) ?_)
  split
  · exact ⟨rfl, fun _ => rfl, nofun, id, id, id⟩
  · exact ⟨rfl, fun _ => rfl, nofun, id, id, id⟩

end Sys2Proof.Machine
end

