-- ==== Sys2Proof/Laws/Cmd.lean ====
section
/-! SUPPORT. What the shared operations answer: a dispatched command runs, ends, and nothing else changes; units
read back after an update. -/

namespace Sys2Proof.Machine

/-- A dispatched command that waits for nothing runs its meaning. -/
theorem runCmd_next {s : State} {h op : Nat} {c : Cmd} (r : Running s h op c) (f : Cmd → State → State) :
    runCmd h op f s = .next (f c s) := by
  unfold runCmd
  rw [r.1]
  exact if_pos ⟨r.2.1, r.2.2.1, r.2.2.2⟩

theorem getCmd?_handle {s : State} {h : Nat} {c : Cmd} (e : getCmd? s h = some c) : c.handle = h := by
  unfold getCmd? at e
  simpa using List.find?_some e

theorem getCmd?_modCmd {s : State} {h : Nat} {c : Cmd} (g : Cmd → Cmd) (hg : (g c).handle = c.handle) (e : getCmd? s h = some c) :
    getCmd? (modCmd h g s) h = some (g c) := by
  unfold getCmd? modCmd at *
  dsimp only
  generalize s.cmds = l at *
  induction l with
  | nil => cases e
  | cons a t ih =>
    rw [List.find?_cons] at e
    rw [List.map_cons, List.find?_cons]
    cases q : (a.handle == h) with
    | true => rw [q] at e; cases e; simp only [if_true, hg, q]
    | false => rw [q] at e; simp only [q, Bool.false_eq_true, if_false]; exact ih e

theorem getCmd?_modCmd_ne {s : State} {h k : Nat} (g : Cmd → Cmd) (hg : ∀ c, (g c).handle = c.handle) (n : k ≠ h) :
    getCmd? (modCmd h g s) k = getCmd? s k := by
  unfold getCmd? modCmd
  dsimp only
  generalize s.cmds = l
  induction l with
  | nil => rfl
  | cons a t ih =>
    rw [List.map_cons, List.find?_cons, List.find?_cons]
    cases q : (a.handle == h) with
    | true =>
      have e : a.handle = h := by simpa using q
      have f : (a.handle == k) = false := by simp [e, Ne.symm n]
      simp only [if_true, hg, f]
      exact ih
    | false =>
      simp only [Bool.false_eq_true, if_false]
      rw [ih]

@[simp] theorem Cmd.ended_handle (outs : List Nat) (value : Nat) (c : Cmd) : (c.ended outs value).handle = c.handle := by
  unfold Cmd.ended; split <;> rfl

theorem ended_finishCmd {s : State} {h : Nat} {c : Cmd} (outs : List Nat) (value : Nat) (e : getCmd? s h = some c) (r : c.stage = .running) :
    Ended (finishCmd h outs value s) h c outs value := by
  unfold Ended finishCmd
  rw [getCmd?_modCmd _ (Cmd.ended_handle outs value c) e, Cmd.ended, if_neg (by rw [r]; decide)]

theorem onlyCmd_finishCmd (s : State) (h : Nat) (outs : List Nat) (value : Nat) : OnlyCmd s (finishCmd h outs value s) h :=
  ⟨rfl, fun _ n => getCmd?_modCmd_ne _ (Cmd.ended_handle outs value) n⟩

theorem done_finishCmd {s : State} {h : Nat} {c : Cmd} (outs : List Nat) (value : Nat) (e : getCmd? s h = some c) : Done (finishCmd h outs value s) h := by
  refine ⟨_, getCmd?_modCmd _ (Cmd.ended_handle outs value c) e, ?_⟩
  unfold Cmd.ended
  split
  · assumption
  · rfl

@[simp] theorem getFn_modFn (f : Nat) (g : Fn → Fn) (s : State) : getFn (modFn f g s) f = g (getFn s f) := by
  simp [getFn, modFn, tabMod]

theorem getFn_modFn_ne {f k : Nat} (g : Fn → Fn) (s : State) (n : k ≠ f) : getFn (modFn f g s) k = getFn s k := by
  simp [getFn, modFn, tabMod, tabGetD_tabPut_ne n]

@[simp] theorem getTile_modTile (t : Nat) (g : Tile → Tile) (s : State) : getTile (modTile t g s) t = g (getTile s t) := by
  simp [getTile, modTile, tabMod]

theorem getTile_modTile_ne {t k : Nat} (g : Tile → Tile) (s : State) (n : k ≠ t) : getTile (modTile t g s) k = getTile s k := by
  simp [getTile, modTile, tabMod, tabGetD_tabPut_ne n]

@[simp] theorem getStk_modStk (k : Nat) (g : Stack → Stack) (s : State) : getStk (modStk k g s) k = g (getStk s k) := by
  simp [getStk, modStk, tabMod]

theorem getStk_modStk_ne {k j : Nat} (g : Stack → Stack) (s : State) (n : j ≠ k) : getStk (modStk k g s) j = getStk s j := by
  simp [getStk, modStk, tabMod, tabGetD_tabPut_ne n]

@[simp] theorem getPort_modPort (p : Nat) (g : Port → Port) (s : State) : getPort (modPort p g s) p = g (getPort s p) := by
  simp [getPort, modPort, tabMod]

theorem getPort_modPort_ne {p k : Nat} (g : Port → Port) (s : State) (n : k ≠ p) : getPort (modPort p g s) k = getPort s k := by
  simp [getPort, modPort, tabMod, tabGetD_tabPut_ne n]

/-- A live tenant changed by `modTen`. -/
theorem getTen?_modTen {s : State} {t : Nat} {x : Tenant} (g : Tenant → Tenant) (e : getTen? s t = some x) :
    getTen? (modTen t g s) t = some (g x) := by
  unfold getTen? at e
  simp [getTen?, modTen, e, tabGet?_tabPut_same]

theorem getTen?_modTen_ne {t k : Nat} (g : Tenant → Tenant) (s : State) (n : k ≠ t) : getTen? (modTen t g s) k = getTen? s k := by
  unfold modTen getTen?
  split
  · exact tabGet?_tabPut_ne n _ _
  · rfl

end Sys2Proof.Machine
end

