-- ==== Sys2Proof/Laws/State.lean ====
section
/-! SUPPORT. For each update of one part of the state, what every field holds after it. -/

namespace Sys2Proof.Machine

/-! `modFn` changes `fns`. -/

@[simp] theorem modFn_pending (f : Nat) (g : Fn → Fn) (s : State) : (modFn f g s).pending = s.pending := rfl
@[simp] theorem modFn_out (f : Nat) (g : Fn → Fn) (s : State) : (modFn f g s).out = s.out := rfl
@[simp] theorem modFn_devTime (f : Nat) (g : Fn → Fn) (s : State) : (modFn f g s).devTime = s.devTime := rfl
@[simp] theorem modFn_clockOn (f : Nat) (g : Fn → Fn) (s : State) : (modFn f g s).clockOn = s.clockOn := rfl
@[simp] theorem modFn_cap (f : Nat) (g : Fn → Fn) (s : State) : (modFn f g s).cap = s.cap := rfl
@[simp] theorem modFn_fns (f : Nat) (g : Fn → Fn) (s : State) : (modFn f g s).fns = tabMod Fn.reset f g s.fns := rfl
@[simp] theorem modFn_tenants (f : Nat) (g : Fn → Fn) (s : State) : (modFn f g s).tenants = s.tenants := rfl
@[simp] theorem modFn_seqs (f : Nat) (g : Fn → Fn) (s : State) : (modFn f g s).seqs = s.seqs := rfl
@[simp] theorem modFn_cmds (f : Nat) (g : Fn → Fn) (s : State) : (modFn f g s).cmds = s.cmds := rfl
@[simp] theorem modFn_nextOrder (f : Nat) (g : Fn → Fn) (s : State) : (modFn f g s).nextOrder = s.nextOrder := rfl
@[simp] theorem modFn_halted (f : Nat) (g : Fn → Fn) (s : State) : (modFn f g s).halted = s.halted := rfl
@[simp] theorem modFn_rrTenant (f : Nat) (g : Fn → Fn) (s : State) : (modFn f g s).rrTenant = s.rrTenant := rfl
@[simp] theorem modFn_rrQueue (f : Nat) (g : Fn → Fn) (s : State) : (modFn f g s).rrQueue = s.rrQueue := rfl
@[simp] theorem modFn_allocs (f : Nat) (g : Fn → Fn) (s : State) : (modFn f g s).allocs = s.allocs := rfl
@[simp] theorem modFn_granules (f : Nat) (g : Fn → Fn) (s : State) : (modFn f g s).granules = s.granules := rfl
@[simp] theorem modFn_sharedPoison (f : Nat) (g : Fn → Fn) (s : State) : (modFn f g s).sharedPoison = s.sharedPoison := rfl
@[simp] theorem modFn_ctrs (f : Nat) (g : Fn → Fn) (s : State) : (modFn f g s).ctrs = s.ctrs := rfl
@[simp] theorem modFn_mem (f : Nat) (g : Fn → Fn) (s : State) : (modFn f g s).mem = s.mem := rfl
@[simp] theorem modFn_stks (f : Nat) (g : Fn → Fn) (s : State) : (modFn f g s).stks = s.stks := rfl
@[simp] theorem modFn_fops (f : Nat) (g : Fn → Fn) (s : State) : (modFn f g s).fops = s.fops := rfl
@[simp] theorem modFn_held (f : Nat) (g : Fn → Fn) (s : State) : (modFn f g s).held = s.held := rfl
@[simp] theorem modFn_nextFop (f : Nat) (g : Fn → Fn) (s : State) : (modFn f g s).nextFop = s.nextFop := rfl
@[simp] theorem modFn_sluiceQ (f : Nat) (g : Fn → Fn) (s : State) : (modFn f g s).sluiceQ = s.sluiceQ := rfl
@[simp] theorem modFn_bundles (f : Nat) (g : Fn → Fn) (s : State) : (modFn f g s).bundles = s.bundles := rfl
@[simp] theorem modFn_runs (f : Nat) (g : Fn → Fn) (s : State) : (modFn f g s).runs = s.runs := rfl
@[simp] theorem modFn_tiles (f : Nat) (g : Fn → Fn) (s : State) : (modFn f g s).tiles = s.tiles := rfl
@[simp] theorem modFn_adapters (f : Nat) (g : Fn → Fn) (s : State) : (modFn f g s).adapters = s.adapters := rfl
@[simp] theorem modFn_margin (f : Nat) (g : Fn → Fn) (s : State) : (modFn f g s).margin = s.margin := rfl
@[simp] theorem modFn_far (f : Nat) (g : Fn → Fn) (s : State) : (modFn f g s).far = s.far := rfl
@[simp] theorem modFn_edgesDown (f : Nat) (g : Fn → Fn) (s : State) : (modFn f g s).edgesDown = s.edgesDown := rfl
@[simp] theorem modFn_edgeTries (f : Nat) (g : Fn → Fn) (s : State) : (modFn f g s).edgeTries = s.edgeTries := rfl
@[simp] theorem modFn_dpt (f : Nat) (g : Fn → Fn) (s : State) : (modFn f g s).dpt = s.dpt := rfl
@[simp] theorem modFn_hist (f : Nat) (g : Fn → Fn) (s : State) : (modFn f g s).hist = s.hist := rfl
@[simp] theorem modFn_test (f : Nat) (g : Fn → Fn) (s : State) : (modFn f g s).test = s.test := rfl
@[simp] theorem modFn_pm (f : Nat) (g : Fn → Fn) (s : State) : (modFn f g s).pm = s.pm := rfl
@[simp] theorem modFn_fuses (f : Nat) (g : Fn → Fn) (s : State) : (modFn f g s).fuses = s.fuses := rfl
@[simp] theorem modFn_henua (f : Nat) (g : Fn → Fn) (s : State) : (modFn f g s).henua = s.henua := rfl
@[simp] theorem modFn_board (f : Nat) (g : Fn → Fn) (s : State) : (modFn f g s).board = s.board := rfl
@[simp] theorem modFn_era (f : Nat) (g : Fn → Fn) (s : State) : (modFn f g s).era = s.era := rfl
@[simp] theorem modFn_freeCtr (f : Nat) (g : Fn → Fn) (s : State) : (modFn f g s).freeCtr = s.freeCtr := rfl

/-! `modTile` changes `tiles`. -/

@[simp] theorem modTile_pending (k : Nat) (g : Tile → Tile) (s : State) : (modTile k g s).pending = s.pending := rfl
@[simp] theorem modTile_out (k : Nat) (g : Tile → Tile) (s : State) : (modTile k g s).out = s.out := rfl
@[simp] theorem modTile_devTime (k : Nat) (g : Tile → Tile) (s : State) : (modTile k g s).devTime = s.devTime := rfl
@[simp] theorem modTile_clockOn (k : Nat) (g : Tile → Tile) (s : State) : (modTile k g s).clockOn = s.clockOn := rfl
@[simp] theorem modTile_cap (k : Nat) (g : Tile → Tile) (s : State) : (modTile k g s).cap = s.cap := rfl
@[simp] theorem modTile_fns (k : Nat) (g : Tile → Tile) (s : State) : (modTile k g s).fns = s.fns := rfl
@[simp] theorem modTile_tenants (k : Nat) (g : Tile → Tile) (s : State) : (modTile k g s).tenants = s.tenants := rfl
@[simp] theorem modTile_seqs (k : Nat) (g : Tile → Tile) (s : State) : (modTile k g s).seqs = s.seqs := rfl
@[simp] theorem modTile_cmds (k : Nat) (g : Tile → Tile) (s : State) : (modTile k g s).cmds = s.cmds := rfl
@[simp] theorem modTile_nextOrder (k : Nat) (g : Tile → Tile) (s : State) : (modTile k g s).nextOrder = s.nextOrder := rfl
@[simp] theorem modTile_halted (k : Nat) (g : Tile → Tile) (s : State) : (modTile k g s).halted = s.halted := rfl
@[simp] theorem modTile_rrTenant (k : Nat) (g : Tile → Tile) (s : State) : (modTile k g s).rrTenant = s.rrTenant := rfl
@[simp] theorem modTile_rrQueue (k : Nat) (g : Tile → Tile) (s : State) : (modTile k g s).rrQueue = s.rrQueue := rfl
@[simp] theorem modTile_allocs (k : Nat) (g : Tile → Tile) (s : State) : (modTile k g s).allocs = s.allocs := rfl
@[simp] theorem modTile_granules (k : Nat) (g : Tile → Tile) (s : State) : (modTile k g s).granules = s.granules := rfl
@[simp] theorem modTile_sharedPoison (k : Nat) (g : Tile → Tile) (s : State) : (modTile k g s).sharedPoison = s.sharedPoison := rfl
@[simp] theorem modTile_ctrs (k : Nat) (g : Tile → Tile) (s : State) : (modTile k g s).ctrs = s.ctrs := rfl
@[simp] theorem modTile_mem (k : Nat) (g : Tile → Tile) (s : State) : (modTile k g s).mem = s.mem := rfl
@[simp] theorem modTile_stks (k : Nat) (g : Tile → Tile) (s : State) : (modTile k g s).stks = s.stks := rfl
@[simp] theorem modTile_fops (k : Nat) (g : Tile → Tile) (s : State) : (modTile k g s).fops = s.fops := rfl
@[simp] theorem modTile_held (k : Nat) (g : Tile → Tile) (s : State) : (modTile k g s).held = s.held := rfl
@[simp] theorem modTile_nextFop (k : Nat) (g : Tile → Tile) (s : State) : (modTile k g s).nextFop = s.nextFop := rfl
@[simp] theorem modTile_sluiceQ (k : Nat) (g : Tile → Tile) (s : State) : (modTile k g s).sluiceQ = s.sluiceQ := rfl
@[simp] theorem modTile_bundles (k : Nat) (g : Tile → Tile) (s : State) : (modTile k g s).bundles = s.bundles := rfl
@[simp] theorem modTile_runs (k : Nat) (g : Tile → Tile) (s : State) : (modTile k g s).runs = s.runs := rfl
@[simp] theorem modTile_tiles (k : Nat) (g : Tile → Tile) (s : State) : (modTile k g s).tiles = tabMod Tile.reset k g s.tiles := rfl
@[simp] theorem modTile_adapters (k : Nat) (g : Tile → Tile) (s : State) : (modTile k g s).adapters = s.adapters := rfl
@[simp] theorem modTile_margin (k : Nat) (g : Tile → Tile) (s : State) : (modTile k g s).margin = s.margin := rfl
@[simp] theorem modTile_far (k : Nat) (g : Tile → Tile) (s : State) : (modTile k g s).far = s.far := rfl
@[simp] theorem modTile_edgesDown (k : Nat) (g : Tile → Tile) (s : State) : (modTile k g s).edgesDown = s.edgesDown := rfl
@[simp] theorem modTile_edgeTries (k : Nat) (g : Tile → Tile) (s : State) : (modTile k g s).edgeTries = s.edgeTries := rfl
@[simp] theorem modTile_dpt (k : Nat) (g : Tile → Tile) (s : State) : (modTile k g s).dpt = s.dpt := rfl
@[simp] theorem modTile_hist (k : Nat) (g : Tile → Tile) (s : State) : (modTile k g s).hist = s.hist := rfl
@[simp] theorem modTile_test (k : Nat) (g : Tile → Tile) (s : State) : (modTile k g s).test = s.test := rfl
@[simp] theorem modTile_pm (k : Nat) (g : Tile → Tile) (s : State) : (modTile k g s).pm = s.pm := rfl
@[simp] theorem modTile_fuses (k : Nat) (g : Tile → Tile) (s : State) : (modTile k g s).fuses = s.fuses := rfl
@[simp] theorem modTile_henua (k : Nat) (g : Tile → Tile) (s : State) : (modTile k g s).henua = s.henua := rfl
@[simp] theorem modTile_board (k : Nat) (g : Tile → Tile) (s : State) : (modTile k g s).board = s.board := rfl
@[simp] theorem modTile_era (k : Nat) (g : Tile → Tile) (s : State) : (modTile k g s).era = s.era := rfl
@[simp] theorem modTile_freeCtr (k : Nat) (g : Tile → Tile) (s : State) : (modTile k g s).freeCtr = s.freeCtr := rfl

/-! `modStk` changes `stks`. -/

@[simp] theorem modStk_pending (k : Nat) (g : Stack → Stack) (s : State) : (modStk k g s).pending = s.pending := rfl
@[simp] theorem modStk_out (k : Nat) (g : Stack → Stack) (s : State) : (modStk k g s).out = s.out := rfl
@[simp] theorem modStk_devTime (k : Nat) (g : Stack → Stack) (s : State) : (modStk k g s).devTime = s.devTime := rfl
@[simp] theorem modStk_clockOn (k : Nat) (g : Stack → Stack) (s : State) : (modStk k g s).clockOn = s.clockOn := rfl
@[simp] theorem modStk_cap (k : Nat) (g : Stack → Stack) (s : State) : (modStk k g s).cap = s.cap := rfl
@[simp] theorem modStk_fns (k : Nat) (g : Stack → Stack) (s : State) : (modStk k g s).fns = s.fns := rfl
@[simp] theorem modStk_tenants (k : Nat) (g : Stack → Stack) (s : State) : (modStk k g s).tenants = s.tenants := rfl
@[simp] theorem modStk_seqs (k : Nat) (g : Stack → Stack) (s : State) : (modStk k g s).seqs = s.seqs := rfl
@[simp] theorem modStk_cmds (k : Nat) (g : Stack → Stack) (s : State) : (modStk k g s).cmds = s.cmds := rfl
@[simp] theorem modStk_nextOrder (k : Nat) (g : Stack → Stack) (s : State) : (modStk k g s).nextOrder = s.nextOrder := rfl
@[simp] theorem modStk_halted (k : Nat) (g : Stack → Stack) (s : State) : (modStk k g s).halted = s.halted := rfl
@[simp] theorem modStk_rrTenant (k : Nat) (g : Stack → Stack) (s : State) : (modStk k g s).rrTenant = s.rrTenant := rfl
@[simp] theorem modStk_rrQueue (k : Nat) (g : Stack → Stack) (s : State) : (modStk k g s).rrQueue = s.rrQueue := rfl
@[simp] theorem modStk_allocs (k : Nat) (g : Stack → Stack) (s : State) : (modStk k g s).allocs = s.allocs := rfl
@[simp] theorem modStk_granules (k : Nat) (g : Stack → Stack) (s : State) : (modStk k g s).granules = s.granules := rfl
@[simp] theorem modStk_sharedPoison (k : Nat) (g : Stack → Stack) (s : State) : (modStk k g s).sharedPoison = s.sharedPoison := rfl
@[simp] theorem modStk_ctrs (k : Nat) (g : Stack → Stack) (s : State) : (modStk k g s).ctrs = s.ctrs := rfl
@[simp] theorem modStk_mem (k : Nat) (g : Stack → Stack) (s : State) : (modStk k g s).mem = s.mem := rfl
@[simp] theorem modStk_stks (k : Nat) (g : Stack → Stack) (s : State) : (modStk k g s).stks = tabMod Stack.reset k g s.stks := rfl
@[simp] theorem modStk_fops (k : Nat) (g : Stack → Stack) (s : State) : (modStk k g s).fops = s.fops := rfl
@[simp] theorem modStk_held (k : Nat) (g : Stack → Stack) (s : State) : (modStk k g s).held = s.held := rfl
@[simp] theorem modStk_nextFop (k : Nat) (g : Stack → Stack) (s : State) : (modStk k g s).nextFop = s.nextFop := rfl
@[simp] theorem modStk_sluiceQ (k : Nat) (g : Stack → Stack) (s : State) : (modStk k g s).sluiceQ = s.sluiceQ := rfl
@[simp] theorem modStk_bundles (k : Nat) (g : Stack → Stack) (s : State) : (modStk k g s).bundles = s.bundles := rfl
@[simp] theorem modStk_runs (k : Nat) (g : Stack → Stack) (s : State) : (modStk k g s).runs = s.runs := rfl
@[simp] theorem modStk_tiles (k : Nat) (g : Stack → Stack) (s : State) : (modStk k g s).tiles = s.tiles := rfl
@[simp] theorem modStk_adapters (k : Nat) (g : Stack → Stack) (s : State) : (modStk k g s).adapters = s.adapters := rfl
@[simp] theorem modStk_margin (k : Nat) (g : Stack → Stack) (s : State) : (modStk k g s).margin = s.margin := rfl
@[simp] theorem modStk_far (k : Nat) (g : Stack → Stack) (s : State) : (modStk k g s).far = s.far := rfl
@[simp] theorem modStk_edgesDown (k : Nat) (g : Stack → Stack) (s : State) : (modStk k g s).edgesDown = s.edgesDown := rfl
@[simp] theorem modStk_edgeTries (k : Nat) (g : Stack → Stack) (s : State) : (modStk k g s).edgeTries = s.edgeTries := rfl
@[simp] theorem modStk_dpt (k : Nat) (g : Stack → Stack) (s : State) : (modStk k g s).dpt = s.dpt := rfl
@[simp] theorem modStk_hist (k : Nat) (g : Stack → Stack) (s : State) : (modStk k g s).hist = s.hist := rfl
@[simp] theorem modStk_test (k : Nat) (g : Stack → Stack) (s : State) : (modStk k g s).test = s.test := rfl
@[simp] theorem modStk_pm (k : Nat) (g : Stack → Stack) (s : State) : (modStk k g s).pm = s.pm := rfl
@[simp] theorem modStk_fuses (k : Nat) (g : Stack → Stack) (s : State) : (modStk k g s).fuses = s.fuses := rfl
@[simp] theorem modStk_henua (k : Nat) (g : Stack → Stack) (s : State) : (modStk k g s).henua = s.henua := rfl
@[simp] theorem modStk_board (k : Nat) (g : Stack → Stack) (s : State) : (modStk k g s).board = s.board := rfl
@[simp] theorem modStk_era (k : Nat) (g : Stack → Stack) (s : State) : (modStk k g s).era = s.era := rfl
@[simp] theorem modStk_freeCtr (k : Nat) (g : Stack → Stack) (s : State) : (modStk k g s).freeCtr = s.freeCtr := rfl

/-! `modPort` changes `dpt`. -/

@[simp] theorem modPort_pending (p : Nat) (g : Port → Port) (s : State) : (modPort p g s).pending = s.pending := rfl
@[simp] theorem modPort_out (p : Nat) (g : Port → Port) (s : State) : (modPort p g s).out = s.out := rfl
@[simp] theorem modPort_devTime (p : Nat) (g : Port → Port) (s : State) : (modPort p g s).devTime = s.devTime := rfl
@[simp] theorem modPort_clockOn (p : Nat) (g : Port → Port) (s : State) : (modPort p g s).clockOn = s.clockOn := rfl
@[simp] theorem modPort_cap (p : Nat) (g : Port → Port) (s : State) : (modPort p g s).cap = s.cap := rfl
@[simp] theorem modPort_fns (p : Nat) (g : Port → Port) (s : State) : (modPort p g s).fns = s.fns := rfl
@[simp] theorem modPort_tenants (p : Nat) (g : Port → Port) (s : State) : (modPort p g s).tenants = s.tenants := rfl
@[simp] theorem modPort_seqs (p : Nat) (g : Port → Port) (s : State) : (modPort p g s).seqs = s.seqs := rfl
@[simp] theorem modPort_cmds (p : Nat) (g : Port → Port) (s : State) : (modPort p g s).cmds = s.cmds := rfl
@[simp] theorem modPort_nextOrder (p : Nat) (g : Port → Port) (s : State) : (modPort p g s).nextOrder = s.nextOrder := rfl
@[simp] theorem modPort_halted (p : Nat) (g : Port → Port) (s : State) : (modPort p g s).halted = s.halted := rfl
@[simp] theorem modPort_rrTenant (p : Nat) (g : Port → Port) (s : State) : (modPort p g s).rrTenant = s.rrTenant := rfl
@[simp] theorem modPort_rrQueue (p : Nat) (g : Port → Port) (s : State) : (modPort p g s).rrQueue = s.rrQueue := rfl
@[simp] theorem modPort_allocs (p : Nat) (g : Port → Port) (s : State) : (modPort p g s).allocs = s.allocs := rfl
@[simp] theorem modPort_granules (p : Nat) (g : Port → Port) (s : State) : (modPort p g s).granules = s.granules := rfl
@[simp] theorem modPort_sharedPoison (p : Nat) (g : Port → Port) (s : State) : (modPort p g s).sharedPoison = s.sharedPoison := rfl
@[simp] theorem modPort_ctrs (p : Nat) (g : Port → Port) (s : State) : (modPort p g s).ctrs = s.ctrs := rfl
@[simp] theorem modPort_mem (p : Nat) (g : Port → Port) (s : State) : (modPort p g s).mem = s.mem := rfl
@[simp] theorem modPort_stks (p : Nat) (g : Port → Port) (s : State) : (modPort p g s).stks = s.stks := rfl
@[simp] theorem modPort_fops (p : Nat) (g : Port → Port) (s : State) : (modPort p g s).fops = s.fops := rfl
@[simp] theorem modPort_held (p : Nat) (g : Port → Port) (s : State) : (modPort p g s).held = s.held := rfl
@[simp] theorem modPort_nextFop (p : Nat) (g : Port → Port) (s : State) : (modPort p g s).nextFop = s.nextFop := rfl
@[simp] theorem modPort_sluiceQ (p : Nat) (g : Port → Port) (s : State) : (modPort p g s).sluiceQ = s.sluiceQ := rfl
@[simp] theorem modPort_bundles (p : Nat) (g : Port → Port) (s : State) : (modPort p g s).bundles = s.bundles := rfl
@[simp] theorem modPort_runs (p : Nat) (g : Port → Port) (s : State) : (modPort p g s).runs = s.runs := rfl
@[simp] theorem modPort_tiles (p : Nat) (g : Port → Port) (s : State) : (modPort p g s).tiles = s.tiles := rfl
@[simp] theorem modPort_adapters (p : Nat) (g : Port → Port) (s : State) : (modPort p g s).adapters = s.adapters := rfl
@[simp] theorem modPort_margin (p : Nat) (g : Port → Port) (s : State) : (modPort p g s).margin = s.margin := rfl
@[simp] theorem modPort_far (p : Nat) (g : Port → Port) (s : State) : (modPort p g s).far = s.far := rfl
@[simp] theorem modPort_edgesDown (p : Nat) (g : Port → Port) (s : State) : (modPort p g s).edgesDown = s.edgesDown := rfl
@[simp] theorem modPort_edgeTries (p : Nat) (g : Port → Port) (s : State) : (modPort p g s).edgeTries = s.edgeTries := rfl
@[simp] theorem modPort_dpt (p : Nat) (g : Port → Port) (s : State) : (modPort p g s).dpt = { s.dpt with ports := tabMod Port.reset p g s.dpt.ports } := rfl
@[simp] theorem modPort_hist (p : Nat) (g : Port → Port) (s : State) : (modPort p g s).hist = s.hist := rfl
@[simp] theorem modPort_test (p : Nat) (g : Port → Port) (s : State) : (modPort p g s).test = s.test := rfl
@[simp] theorem modPort_pm (p : Nat) (g : Port → Port) (s : State) : (modPort p g s).pm = s.pm := rfl
@[simp] theorem modPort_fuses (p : Nat) (g : Port → Port) (s : State) : (modPort p g s).fuses = s.fuses := rfl
@[simp] theorem modPort_henua (p : Nat) (g : Port → Port) (s : State) : (modPort p g s).henua = s.henua := rfl
@[simp] theorem modPort_board (p : Nat) (g : Port → Port) (s : State) : (modPort p g s).board = s.board := rfl
@[simp] theorem modPort_era (p : Nat) (g : Port → Port) (s : State) : (modPort p g s).era = s.era := rfl
@[simp] theorem modPort_freeCtr (p : Nat) (g : Port → Port) (s : State) : (modPort p g s).freeCtr = s.freeCtr := rfl

/-! `modHenua` changes `henua`. -/

@[simp] theorem modHenua_pending (g : Henua → Henua) (s : State) : (modHenua g s).pending = s.pending := rfl
@[simp] theorem modHenua_out (g : Henua → Henua) (s : State) : (modHenua g s).out = s.out := rfl
@[simp] theorem modHenua_devTime (g : Henua → Henua) (s : State) : (modHenua g s).devTime = s.devTime := rfl
@[simp] theorem modHenua_clockOn (g : Henua → Henua) (s : State) : (modHenua g s).clockOn = s.clockOn := rfl
@[simp] theorem modHenua_cap (g : Henua → Henua) (s : State) : (modHenua g s).cap = s.cap := rfl
@[simp] theorem modHenua_fns (g : Henua → Henua) (s : State) : (modHenua g s).fns = s.fns := rfl
@[simp] theorem modHenua_tenants (g : Henua → Henua) (s : State) : (modHenua g s).tenants = s.tenants := rfl
@[simp] theorem modHenua_seqs (g : Henua → Henua) (s : State) : (modHenua g s).seqs = s.seqs := rfl
@[simp] theorem modHenua_cmds (g : Henua → Henua) (s : State) : (modHenua g s).cmds = s.cmds := rfl
@[simp] theorem modHenua_nextOrder (g : Henua → Henua) (s : State) : (modHenua g s).nextOrder = s.nextOrder := rfl
@[simp] theorem modHenua_halted (g : Henua → Henua) (s : State) : (modHenua g s).halted = s.halted := rfl
@[simp] theorem modHenua_rrTenant (g : Henua → Henua) (s : State) : (modHenua g s).rrTenant = s.rrTenant := rfl
@[simp] theorem modHenua_rrQueue (g : Henua → Henua) (s : State) : (modHenua g s).rrQueue = s.rrQueue := rfl
@[simp] theorem modHenua_allocs (g : Henua → Henua) (s : State) : (modHenua g s).allocs = s.allocs := rfl
@[simp] theorem modHenua_granules (g : Henua → Henua) (s : State) : (modHenua g s).granules = s.granules := rfl
@[simp] theorem modHenua_sharedPoison (g : Henua → Henua) (s : State) : (modHenua g s).sharedPoison = s.sharedPoison := rfl
@[simp] theorem modHenua_ctrs (g : Henua → Henua) (s : State) : (modHenua g s).ctrs = s.ctrs := rfl
@[simp] theorem modHenua_mem (g : Henua → Henua) (s : State) : (modHenua g s).mem = s.mem := rfl
@[simp] theorem modHenua_stks (g : Henua → Henua) (s : State) : (modHenua g s).stks = s.stks := rfl
@[simp] theorem modHenua_fops (g : Henua → Henua) (s : State) : (modHenua g s).fops = s.fops := rfl
@[simp] theorem modHenua_held (g : Henua → Henua) (s : State) : (modHenua g s).held = s.held := rfl
@[simp] theorem modHenua_nextFop (g : Henua → Henua) (s : State) : (modHenua g s).nextFop = s.nextFop := rfl
@[simp] theorem modHenua_sluiceQ (g : Henua → Henua) (s : State) : (modHenua g s).sluiceQ = s.sluiceQ := rfl
@[simp] theorem modHenua_bundles (g : Henua → Henua) (s : State) : (modHenua g s).bundles = s.bundles := rfl
@[simp] theorem modHenua_runs (g : Henua → Henua) (s : State) : (modHenua g s).runs = s.runs := rfl
@[simp] theorem modHenua_tiles (g : Henua → Henua) (s : State) : (modHenua g s).tiles = s.tiles := rfl
@[simp] theorem modHenua_adapters (g : Henua → Henua) (s : State) : (modHenua g s).adapters = s.adapters := rfl
@[simp] theorem modHenua_margin (g : Henua → Henua) (s : State) : (modHenua g s).margin = s.margin := rfl
@[simp] theorem modHenua_far (g : Henua → Henua) (s : State) : (modHenua g s).far = s.far := rfl
@[simp] theorem modHenua_edgesDown (g : Henua → Henua) (s : State) : (modHenua g s).edgesDown = s.edgesDown := rfl
@[simp] theorem modHenua_edgeTries (g : Henua → Henua) (s : State) : (modHenua g s).edgeTries = s.edgeTries := rfl
@[simp] theorem modHenua_dpt (g : Henua → Henua) (s : State) : (modHenua g s).dpt = s.dpt := rfl
@[simp] theorem modHenua_hist (g : Henua → Henua) (s : State) : (modHenua g s).hist = s.hist := rfl
@[simp] theorem modHenua_test (g : Henua → Henua) (s : State) : (modHenua g s).test = s.test := rfl
@[simp] theorem modHenua_pm (g : Henua → Henua) (s : State) : (modHenua g s).pm = s.pm := rfl
@[simp] theorem modHenua_fuses (g : Henua → Henua) (s : State) : (modHenua g s).fuses = s.fuses := rfl
@[simp] theorem modHenua_henua (g : Henua → Henua) (s : State) : (modHenua g s).henua = g s.henua := rfl
@[simp] theorem modHenua_board (g : Henua → Henua) (s : State) : (modHenua g s).board = s.board := rfl
@[simp] theorem modHenua_era (g : Henua → Henua) (s : State) : (modHenua g s).era = s.era := rfl
@[simp] theorem modHenua_freeCtr (g : Henua → Henua) (s : State) : (modHenua g s).freeCtr = s.freeCtr := rfl

/-! `modDpt` changes `dpt`. -/

@[simp] theorem modDpt_pending (g : Dpt → Dpt) (s : State) : (modDpt g s).pending = s.pending := rfl
@[simp] theorem modDpt_out (g : Dpt → Dpt) (s : State) : (modDpt g s).out = s.out := rfl
@[simp] theorem modDpt_devTime (g : Dpt → Dpt) (s : State) : (modDpt g s).devTime = s.devTime := rfl
@[simp] theorem modDpt_clockOn (g : Dpt → Dpt) (s : State) : (modDpt g s).clockOn = s.clockOn := rfl
@[simp] theorem modDpt_cap (g : Dpt → Dpt) (s : State) : (modDpt g s).cap = s.cap := rfl
@[simp] theorem modDpt_fns (g : Dpt → Dpt) (s : State) : (modDpt g s).fns = s.fns := rfl
@[simp] theorem modDpt_tenants (g : Dpt → Dpt) (s : State) : (modDpt g s).tenants = s.tenants := rfl
@[simp] theorem modDpt_seqs (g : Dpt → Dpt) (s : State) : (modDpt g s).seqs = s.seqs := rfl
@[simp] theorem modDpt_cmds (g : Dpt → Dpt) (s : State) : (modDpt g s).cmds = s.cmds := rfl
@[simp] theorem modDpt_nextOrder (g : Dpt → Dpt) (s : State) : (modDpt g s).nextOrder = s.nextOrder := rfl
@[simp] theorem modDpt_halted (g : Dpt → Dpt) (s : State) : (modDpt g s).halted = s.halted := rfl
@[simp] theorem modDpt_rrTenant (g : Dpt → Dpt) (s : State) : (modDpt g s).rrTenant = s.rrTenant := rfl
@[simp] theorem modDpt_rrQueue (g : Dpt → Dpt) (s : State) : (modDpt g s).rrQueue = s.rrQueue := rfl
@[simp] theorem modDpt_allocs (g : Dpt → Dpt) (s : State) : (modDpt g s).allocs = s.allocs := rfl
@[simp] theorem modDpt_granules (g : Dpt → Dpt) (s : State) : (modDpt g s).granules = s.granules := rfl
@[simp] theorem modDpt_sharedPoison (g : Dpt → Dpt) (s : State) : (modDpt g s).sharedPoison = s.sharedPoison := rfl
@[simp] theorem modDpt_ctrs (g : Dpt → Dpt) (s : State) : (modDpt g s).ctrs = s.ctrs := rfl
@[simp] theorem modDpt_mem (g : Dpt → Dpt) (s : State) : (modDpt g s).mem = s.mem := rfl
@[simp] theorem modDpt_stks (g : Dpt → Dpt) (s : State) : (modDpt g s).stks = s.stks := rfl
@[simp] theorem modDpt_fops (g : Dpt → Dpt) (s : State) : (modDpt g s).fops = s.fops := rfl
@[simp] theorem modDpt_held (g : Dpt → Dpt) (s : State) : (modDpt g s).held = s.held := rfl
@[simp] theorem modDpt_nextFop (g : Dpt → Dpt) (s : State) : (modDpt g s).nextFop = s.nextFop := rfl
@[simp] theorem modDpt_sluiceQ (g : Dpt → Dpt) (s : State) : (modDpt g s).sluiceQ = s.sluiceQ := rfl
@[simp] theorem modDpt_bundles (g : Dpt → Dpt) (s : State) : (modDpt g s).bundles = s.bundles := rfl
@[simp] theorem modDpt_runs (g : Dpt → Dpt) (s : State) : (modDpt g s).runs = s.runs := rfl
@[simp] theorem modDpt_tiles (g : Dpt → Dpt) (s : State) : (modDpt g s).tiles = s.tiles := rfl
@[simp] theorem modDpt_adapters (g : Dpt → Dpt) (s : State) : (modDpt g s).adapters = s.adapters := rfl
@[simp] theorem modDpt_margin (g : Dpt → Dpt) (s : State) : (modDpt g s).margin = s.margin := rfl
@[simp] theorem modDpt_far (g : Dpt → Dpt) (s : State) : (modDpt g s).far = s.far := rfl
@[simp] theorem modDpt_edgesDown (g : Dpt → Dpt) (s : State) : (modDpt g s).edgesDown = s.edgesDown := rfl
@[simp] theorem modDpt_edgeTries (g : Dpt → Dpt) (s : State) : (modDpt g s).edgeTries = s.edgeTries := rfl
@[simp] theorem modDpt_dpt (g : Dpt → Dpt) (s : State) : (modDpt g s).dpt = g s.dpt := rfl
@[simp] theorem modDpt_hist (g : Dpt → Dpt) (s : State) : (modDpt g s).hist = s.hist := rfl
@[simp] theorem modDpt_test (g : Dpt → Dpt) (s : State) : (modDpt g s).test = s.test := rfl
@[simp] theorem modDpt_pm (g : Dpt → Dpt) (s : State) : (modDpt g s).pm = s.pm := rfl
@[simp] theorem modDpt_fuses (g : Dpt → Dpt) (s : State) : (modDpt g s).fuses = s.fuses := rfl
@[simp] theorem modDpt_henua (g : Dpt → Dpt) (s : State) : (modDpt g s).henua = s.henua := rfl
@[simp] theorem modDpt_board (g : Dpt → Dpt) (s : State) : (modDpt g s).board = s.board := rfl
@[simp] theorem modDpt_era (g : Dpt → Dpt) (s : State) : (modDpt g s).era = s.era := rfl
@[simp] theorem modDpt_freeCtr (g : Dpt → Dpt) (s : State) : (modDpt g s).freeCtr = s.freeCtr := rfl

/-! `modPm` changes `pm`. -/

@[simp] theorem modPm_pending (g : PowerSt → PowerSt) (s : State) : (modPm g s).pending = s.pending := rfl
@[simp] theorem modPm_out (g : PowerSt → PowerSt) (s : State) : (modPm g s).out = s.out := rfl
@[simp] theorem modPm_devTime (g : PowerSt → PowerSt) (s : State) : (modPm g s).devTime = s.devTime := rfl
@[simp] theorem modPm_clockOn (g : PowerSt → PowerSt) (s : State) : (modPm g s).clockOn = s.clockOn := rfl
@[simp] theorem modPm_cap (g : PowerSt → PowerSt) (s : State) : (modPm g s).cap = s.cap := rfl
@[simp] theorem modPm_fns (g : PowerSt → PowerSt) (s : State) : (modPm g s).fns = s.fns := rfl
@[simp] theorem modPm_tenants (g : PowerSt → PowerSt) (s : State) : (modPm g s).tenants = s.tenants := rfl
@[simp] theorem modPm_seqs (g : PowerSt → PowerSt) (s : State) : (modPm g s).seqs = s.seqs := rfl
@[simp] theorem modPm_cmds (g : PowerSt → PowerSt) (s : State) : (modPm g s).cmds = s.cmds := rfl
@[simp] theorem modPm_nextOrder (g : PowerSt → PowerSt) (s : State) : (modPm g s).nextOrder = s.nextOrder := rfl
@[simp] theorem modPm_halted (g : PowerSt → PowerSt) (s : State) : (modPm g s).halted = s.halted := rfl
@[simp] theorem modPm_rrTenant (g : PowerSt → PowerSt) (s : State) : (modPm g s).rrTenant = s.rrTenant := rfl
@[simp] theorem modPm_rrQueue (g : PowerSt → PowerSt) (s : State) : (modPm g s).rrQueue = s.rrQueue := rfl
@[simp] theorem modPm_allocs (g : PowerSt → PowerSt) (s : State) : (modPm g s).allocs = s.allocs := rfl
@[simp] theorem modPm_granules (g : PowerSt → PowerSt) (s : State) : (modPm g s).granules = s.granules := rfl
@[simp] theorem modPm_sharedPoison (g : PowerSt → PowerSt) (s : State) : (modPm g s).sharedPoison = s.sharedPoison := rfl
@[simp] theorem modPm_ctrs (g : PowerSt → PowerSt) (s : State) : (modPm g s).ctrs = s.ctrs := rfl
@[simp] theorem modPm_mem (g : PowerSt → PowerSt) (s : State) : (modPm g s).mem = s.mem := rfl
@[simp] theorem modPm_stks (g : PowerSt → PowerSt) (s : State) : (modPm g s).stks = s.stks := rfl
@[simp] theorem modPm_fops (g : PowerSt → PowerSt) (s : State) : (modPm g s).fops = s.fops := rfl
@[simp] theorem modPm_held (g : PowerSt → PowerSt) (s : State) : (modPm g s).held = s.held := rfl
@[simp] theorem modPm_nextFop (g : PowerSt → PowerSt) (s : State) : (modPm g s).nextFop = s.nextFop := rfl
@[simp] theorem modPm_sluiceQ (g : PowerSt → PowerSt) (s : State) : (modPm g s).sluiceQ = s.sluiceQ := rfl
@[simp] theorem modPm_bundles (g : PowerSt → PowerSt) (s : State) : (modPm g s).bundles = s.bundles := rfl
@[simp] theorem modPm_runs (g : PowerSt → PowerSt) (s : State) : (modPm g s).runs = s.runs := rfl
@[simp] theorem modPm_tiles (g : PowerSt → PowerSt) (s : State) : (modPm g s).tiles = s.tiles := rfl
@[simp] theorem modPm_adapters (g : PowerSt → PowerSt) (s : State) : (modPm g s).adapters = s.adapters := rfl
@[simp] theorem modPm_margin (g : PowerSt → PowerSt) (s : State) : (modPm g s).margin = s.margin := rfl
@[simp] theorem modPm_far (g : PowerSt → PowerSt) (s : State) : (modPm g s).far = s.far := rfl
@[simp] theorem modPm_edgesDown (g : PowerSt → PowerSt) (s : State) : (modPm g s).edgesDown = s.edgesDown := rfl
@[simp] theorem modPm_edgeTries (g : PowerSt → PowerSt) (s : State) : (modPm g s).edgeTries = s.edgeTries := rfl
@[simp] theorem modPm_dpt (g : PowerSt → PowerSt) (s : State) : (modPm g s).dpt = s.dpt := rfl
@[simp] theorem modPm_hist (g : PowerSt → PowerSt) (s : State) : (modPm g s).hist = s.hist := rfl
@[simp] theorem modPm_test (g : PowerSt → PowerSt) (s : State) : (modPm g s).test = s.test := rfl
@[simp] theorem modPm_pm (g : PowerSt → PowerSt) (s : State) : (modPm g s).pm = g s.pm := rfl
@[simp] theorem modPm_fuses (g : PowerSt → PowerSt) (s : State) : (modPm g s).fuses = s.fuses := rfl
@[simp] theorem modPm_henua (g : PowerSt → PowerSt) (s : State) : (modPm g s).henua = s.henua := rfl
@[simp] theorem modPm_board (g : PowerSt → PowerSt) (s : State) : (modPm g s).board = s.board := rfl
@[simp] theorem modPm_era (g : PowerSt → PowerSt) (s : State) : (modPm g s).era = s.era := rfl
@[simp] theorem modPm_freeCtr (g : PowerSt → PowerSt) (s : State) : (modPm g s).freeCtr = s.freeCtr := rfl

/-! `modBoard` changes `board`. -/

@[simp] theorem modBoard_pending (g : Board → Board) (s : State) : (modBoard g s).pending = s.pending := rfl
@[simp] theorem modBoard_out (g : Board → Board) (s : State) : (modBoard g s).out = s.out := rfl
@[simp] theorem modBoard_devTime (g : Board → Board) (s : State) : (modBoard g s).devTime = s.devTime := rfl
@[simp] theorem modBoard_clockOn (g : Board → Board) (s : State) : (modBoard g s).clockOn = s.clockOn := rfl
@[simp] theorem modBoard_cap (g : Board → Board) (s : State) : (modBoard g s).cap = s.cap := rfl
@[simp] theorem modBoard_fns (g : Board → Board) (s : State) : (modBoard g s).fns = s.fns := rfl
@[simp] theorem modBoard_tenants (g : Board → Board) (s : State) : (modBoard g s).tenants = s.tenants := rfl
@[simp] theorem modBoard_seqs (g : Board → Board) (s : State) : (modBoard g s).seqs = s.seqs := rfl
@[simp] theorem modBoard_cmds (g : Board → Board) (s : State) : (modBoard g s).cmds = s.cmds := rfl
@[simp] theorem modBoard_nextOrder (g : Board → Board) (s : State) : (modBoard g s).nextOrder = s.nextOrder := rfl
@[simp] theorem modBoard_halted (g : Board → Board) (s : State) : (modBoard g s).halted = s.halted := rfl
@[simp] theorem modBoard_rrTenant (g : Board → Board) (s : State) : (modBoard g s).rrTenant = s.rrTenant := rfl
@[simp] theorem modBoard_rrQueue (g : Board → Board) (s : State) : (modBoard g s).rrQueue = s.rrQueue := rfl
@[simp] theorem modBoard_allocs (g : Board → Board) (s : State) : (modBoard g s).allocs = s.allocs := rfl
@[simp] theorem modBoard_granules (g : Board → Board) (s : State) : (modBoard g s).granules = s.granules := rfl
@[simp] theorem modBoard_sharedPoison (g : Board → Board) (s : State) : (modBoard g s).sharedPoison = s.sharedPoison := rfl
@[simp] theorem modBoard_ctrs (g : Board → Board) (s : State) : (modBoard g s).ctrs = s.ctrs := rfl
@[simp] theorem modBoard_mem (g : Board → Board) (s : State) : (modBoard g s).mem = s.mem := rfl
@[simp] theorem modBoard_stks (g : Board → Board) (s : State) : (modBoard g s).stks = s.stks := rfl
@[simp] theorem modBoard_fops (g : Board → Board) (s : State) : (modBoard g s).fops = s.fops := rfl
@[simp] theorem modBoard_held (g : Board → Board) (s : State) : (modBoard g s).held = s.held := rfl
@[simp] theorem modBoard_nextFop (g : Board → Board) (s : State) : (modBoard g s).nextFop = s.nextFop := rfl
@[simp] theorem modBoard_sluiceQ (g : Board → Board) (s : State) : (modBoard g s).sluiceQ = s.sluiceQ := rfl
@[simp] theorem modBoard_bundles (g : Board → Board) (s : State) : (modBoard g s).bundles = s.bundles := rfl
@[simp] theorem modBoard_runs (g : Board → Board) (s : State) : (modBoard g s).runs = s.runs := rfl
@[simp] theorem modBoard_tiles (g : Board → Board) (s : State) : (modBoard g s).tiles = s.tiles := rfl
@[simp] theorem modBoard_adapters (g : Board → Board) (s : State) : (modBoard g s).adapters = s.adapters := rfl
@[simp] theorem modBoard_margin (g : Board → Board) (s : State) : (modBoard g s).margin = s.margin := rfl
@[simp] theorem modBoard_far (g : Board → Board) (s : State) : (modBoard g s).far = s.far := rfl
@[simp] theorem modBoard_edgesDown (g : Board → Board) (s : State) : (modBoard g s).edgesDown = s.edgesDown := rfl
@[simp] theorem modBoard_edgeTries (g : Board → Board) (s : State) : (modBoard g s).edgeTries = s.edgeTries := rfl
@[simp] theorem modBoard_dpt (g : Board → Board) (s : State) : (modBoard g s).dpt = s.dpt := rfl
@[simp] theorem modBoard_hist (g : Board → Board) (s : State) : (modBoard g s).hist = s.hist := rfl
@[simp] theorem modBoard_test (g : Board → Board) (s : State) : (modBoard g s).test = s.test := rfl
@[simp] theorem modBoard_pm (g : Board → Board) (s : State) : (modBoard g s).pm = s.pm := rfl
@[simp] theorem modBoard_fuses (g : Board → Board) (s : State) : (modBoard g s).fuses = s.fuses := rfl
@[simp] theorem modBoard_henua (g : Board → Board) (s : State) : (modBoard g s).henua = s.henua := rfl
@[simp] theorem modBoard_board (g : Board → Board) (s : State) : (modBoard g s).board = g s.board := rfl
@[simp] theorem modBoard_era (g : Board → Board) (s : State) : (modBoard g s).era = s.era := rfl
@[simp] theorem modBoard_freeCtr (g : Board → Board) (s : State) : (modBoard g s).freeCtr = s.freeCtr := rfl

/-! `modTest` changes `test`. -/

@[simp] theorem modTest_pending (g : SelfTest → SelfTest) (s : State) : (modTest g s).pending = s.pending := rfl
@[simp] theorem modTest_out (g : SelfTest → SelfTest) (s : State) : (modTest g s).out = s.out := rfl
@[simp] theorem modTest_devTime (g : SelfTest → SelfTest) (s : State) : (modTest g s).devTime = s.devTime := rfl
@[simp] theorem modTest_clockOn (g : SelfTest → SelfTest) (s : State) : (modTest g s).clockOn = s.clockOn := rfl
@[simp] theorem modTest_cap (g : SelfTest → SelfTest) (s : State) : (modTest g s).cap = s.cap := rfl
@[simp] theorem modTest_fns (g : SelfTest → SelfTest) (s : State) : (modTest g s).fns = s.fns := rfl
@[simp] theorem modTest_tenants (g : SelfTest → SelfTest) (s : State) : (modTest g s).tenants = s.tenants := rfl
@[simp] theorem modTest_seqs (g : SelfTest → SelfTest) (s : State) : (modTest g s).seqs = s.seqs := rfl
@[simp] theorem modTest_cmds (g : SelfTest → SelfTest) (s : State) : (modTest g s).cmds = s.cmds := rfl
@[simp] theorem modTest_nextOrder (g : SelfTest → SelfTest) (s : State) : (modTest g s).nextOrder = s.nextOrder := rfl
@[simp] theorem modTest_halted (g : SelfTest → SelfTest) (s : State) : (modTest g s).halted = s.halted := rfl
@[simp] theorem modTest_rrTenant (g : SelfTest → SelfTest) (s : State) : (modTest g s).rrTenant = s.rrTenant := rfl
@[simp] theorem modTest_rrQueue (g : SelfTest → SelfTest) (s : State) : (modTest g s).rrQueue = s.rrQueue := rfl
@[simp] theorem modTest_allocs (g : SelfTest → SelfTest) (s : State) : (modTest g s).allocs = s.allocs := rfl
@[simp] theorem modTest_granules (g : SelfTest → SelfTest) (s : State) : (modTest g s).granules = s.granules := rfl
@[simp] theorem modTest_sharedPoison (g : SelfTest → SelfTest) (s : State) : (modTest g s).sharedPoison = s.sharedPoison := rfl
@[simp] theorem modTest_ctrs (g : SelfTest → SelfTest) (s : State) : (modTest g s).ctrs = s.ctrs := rfl
@[simp] theorem modTest_mem (g : SelfTest → SelfTest) (s : State) : (modTest g s).mem = s.mem := rfl
@[simp] theorem modTest_stks (g : SelfTest → SelfTest) (s : State) : (modTest g s).stks = s.stks := rfl
@[simp] theorem modTest_fops (g : SelfTest → SelfTest) (s : State) : (modTest g s).fops = s.fops := rfl
@[simp] theorem modTest_held (g : SelfTest → SelfTest) (s : State) : (modTest g s).held = s.held := rfl
@[simp] theorem modTest_nextFop (g : SelfTest → SelfTest) (s : State) : (modTest g s).nextFop = s.nextFop := rfl
@[simp] theorem modTest_sluiceQ (g : SelfTest → SelfTest) (s : State) : (modTest g s).sluiceQ = s.sluiceQ := rfl
@[simp] theorem modTest_bundles (g : SelfTest → SelfTest) (s : State) : (modTest g s).bundles = s.bundles := rfl
@[simp] theorem modTest_runs (g : SelfTest → SelfTest) (s : State) : (modTest g s).runs = s.runs := rfl
@[simp] theorem modTest_tiles (g : SelfTest → SelfTest) (s : State) : (modTest g s).tiles = s.tiles := rfl
@[simp] theorem modTest_adapters (g : SelfTest → SelfTest) (s : State) : (modTest g s).adapters = s.adapters := rfl
@[simp] theorem modTest_margin (g : SelfTest → SelfTest) (s : State) : (modTest g s).margin = s.margin := rfl
@[simp] theorem modTest_far (g : SelfTest → SelfTest) (s : State) : (modTest g s).far = s.far := rfl
@[simp] theorem modTest_edgesDown (g : SelfTest → SelfTest) (s : State) : (modTest g s).edgesDown = s.edgesDown := rfl
@[simp] theorem modTest_edgeTries (g : SelfTest → SelfTest) (s : State) : (modTest g s).edgeTries = s.edgeTries := rfl
@[simp] theorem modTest_dpt (g : SelfTest → SelfTest) (s : State) : (modTest g s).dpt = s.dpt := rfl
@[simp] theorem modTest_hist (g : SelfTest → SelfTest) (s : State) : (modTest g s).hist = s.hist := rfl
@[simp] theorem modTest_test (g : SelfTest → SelfTest) (s : State) : (modTest g s).test = g s.test := rfl
@[simp] theorem modTest_pm (g : SelfTest → SelfTest) (s : State) : (modTest g s).pm = s.pm := rfl
@[simp] theorem modTest_fuses (g : SelfTest → SelfTest) (s : State) : (modTest g s).fuses = s.fuses := rfl
@[simp] theorem modTest_henua (g : SelfTest → SelfTest) (s : State) : (modTest g s).henua = s.henua := rfl
@[simp] theorem modTest_board (g : SelfTest → SelfTest) (s : State) : (modTest g s).board = s.board := rfl
@[simp] theorem modTest_era (g : SelfTest → SelfTest) (s : State) : (modTest g s).era = s.era := rfl
@[simp] theorem modTest_freeCtr (g : SelfTest → SelfTest) (s : State) : (modTest g s).freeCtr = s.freeCtr := rfl

/-! `modCmd` changes `cmds`. -/

@[simp] theorem modCmd_pending (h : Nat) (g : Cmd → Cmd) (s : State) : (modCmd h g s).pending = s.pending := rfl
@[simp] theorem modCmd_out (h : Nat) (g : Cmd → Cmd) (s : State) : (modCmd h g s).out = s.out := rfl
@[simp] theorem modCmd_devTime (h : Nat) (g : Cmd → Cmd) (s : State) : (modCmd h g s).devTime = s.devTime := rfl
@[simp] theorem modCmd_clockOn (h : Nat) (g : Cmd → Cmd) (s : State) : (modCmd h g s).clockOn = s.clockOn := rfl
@[simp] theorem modCmd_cap (h : Nat) (g : Cmd → Cmd) (s : State) : (modCmd h g s).cap = s.cap := rfl
@[simp] theorem modCmd_fns (h : Nat) (g : Cmd → Cmd) (s : State) : (modCmd h g s).fns = s.fns := rfl
@[simp] theorem modCmd_tenants (h : Nat) (g : Cmd → Cmd) (s : State) : (modCmd h g s).tenants = s.tenants := rfl
@[simp] theorem modCmd_seqs (h : Nat) (g : Cmd → Cmd) (s : State) : (modCmd h g s).seqs = s.seqs := rfl
@[simp] theorem modCmd_cmds (h : Nat) (g : Cmd → Cmd) (s : State) : (modCmd h g s).cmds = s.cmds.map fun c => if c.handle == h then g c else c := rfl
@[simp] theorem modCmd_nextOrder (h : Nat) (g : Cmd → Cmd) (s : State) : (modCmd h g s).nextOrder = s.nextOrder := rfl
@[simp] theorem modCmd_halted (h : Nat) (g : Cmd → Cmd) (s : State) : (modCmd h g s).halted = s.halted := rfl
@[simp] theorem modCmd_rrTenant (h : Nat) (g : Cmd → Cmd) (s : State) : (modCmd h g s).rrTenant = s.rrTenant := rfl
@[simp] theorem modCmd_rrQueue (h : Nat) (g : Cmd → Cmd) (s : State) : (modCmd h g s).rrQueue = s.rrQueue := rfl
@[simp] theorem modCmd_allocs (h : Nat) (g : Cmd → Cmd) (s : State) : (modCmd h g s).allocs = s.allocs := rfl
@[simp] theorem modCmd_granules (h : Nat) (g : Cmd → Cmd) (s : State) : (modCmd h g s).granules = s.granules := rfl
@[simp] theorem modCmd_sharedPoison (h : Nat) (g : Cmd → Cmd) (s : State) : (modCmd h g s).sharedPoison = s.sharedPoison := rfl
@[simp] theorem modCmd_ctrs (h : Nat) (g : Cmd → Cmd) (s : State) : (modCmd h g s).ctrs = s.ctrs := rfl
@[simp] theorem modCmd_mem (h : Nat) (g : Cmd → Cmd) (s : State) : (modCmd h g s).mem = s.mem := rfl
@[simp] theorem modCmd_stks (h : Nat) (g : Cmd → Cmd) (s : State) : (modCmd h g s).stks = s.stks := rfl
@[simp] theorem modCmd_fops (h : Nat) (g : Cmd → Cmd) (s : State) : (modCmd h g s).fops = s.fops := rfl
@[simp] theorem modCmd_held (h : Nat) (g : Cmd → Cmd) (s : State) : (modCmd h g s).held = s.held := rfl
@[simp] theorem modCmd_nextFop (h : Nat) (g : Cmd → Cmd) (s : State) : (modCmd h g s).nextFop = s.nextFop := rfl
@[simp] theorem modCmd_sluiceQ (h : Nat) (g : Cmd → Cmd) (s : State) : (modCmd h g s).sluiceQ = s.sluiceQ := rfl
@[simp] theorem modCmd_bundles (h : Nat) (g : Cmd → Cmd) (s : State) : (modCmd h g s).bundles = s.bundles := rfl
@[simp] theorem modCmd_runs (h : Nat) (g : Cmd → Cmd) (s : State) : (modCmd h g s).runs = s.runs := rfl
@[simp] theorem modCmd_tiles (h : Nat) (g : Cmd → Cmd) (s : State) : (modCmd h g s).tiles = s.tiles := rfl
@[simp] theorem modCmd_adapters (h : Nat) (g : Cmd → Cmd) (s : State) : (modCmd h g s).adapters = s.adapters := rfl
@[simp] theorem modCmd_margin (h : Nat) (g : Cmd → Cmd) (s : State) : (modCmd h g s).margin = s.margin := rfl
@[simp] theorem modCmd_far (h : Nat) (g : Cmd → Cmd) (s : State) : (modCmd h g s).far = s.far := rfl
@[simp] theorem modCmd_edgesDown (h : Nat) (g : Cmd → Cmd) (s : State) : (modCmd h g s).edgesDown = s.edgesDown := rfl
@[simp] theorem modCmd_edgeTries (h : Nat) (g : Cmd → Cmd) (s : State) : (modCmd h g s).edgeTries = s.edgeTries := rfl
@[simp] theorem modCmd_dpt (h : Nat) (g : Cmd → Cmd) (s : State) : (modCmd h g s).dpt = s.dpt := rfl
@[simp] theorem modCmd_hist (h : Nat) (g : Cmd → Cmd) (s : State) : (modCmd h g s).hist = s.hist := rfl
@[simp] theorem modCmd_test (h : Nat) (g : Cmd → Cmd) (s : State) : (modCmd h g s).test = s.test := rfl
@[simp] theorem modCmd_pm (h : Nat) (g : Cmd → Cmd) (s : State) : (modCmd h g s).pm = s.pm := rfl
@[simp] theorem modCmd_fuses (h : Nat) (g : Cmd → Cmd) (s : State) : (modCmd h g s).fuses = s.fuses := rfl
@[simp] theorem modCmd_henua (h : Nat) (g : Cmd → Cmd) (s : State) : (modCmd h g s).henua = s.henua := rfl
@[simp] theorem modCmd_board (h : Nat) (g : Cmd → Cmd) (s : State) : (modCmd h g s).board = s.board := rfl
@[simp] theorem modCmd_era (h : Nat) (g : Cmd → Cmd) (s : State) : (modCmd h g s).era = s.era := rfl
@[simp] theorem modCmd_freeCtr (h : Nat) (g : Cmd → Cmd) (s : State) : (modCmd h g s).freeCtr = s.freeCtr := rfl

/-! `emit` changes `out`. -/

@[simp] theorem emit_pending (o : Output) (s : State) : (emit o s).pending = s.pending := rfl
@[simp] theorem emit_out (o : Output) (s : State) : (emit o s).out = s.out ++ [o] := rfl
@[simp] theorem emit_devTime (o : Output) (s : State) : (emit o s).devTime = s.devTime := rfl
@[simp] theorem emit_clockOn (o : Output) (s : State) : (emit o s).clockOn = s.clockOn := rfl
@[simp] theorem emit_cap (o : Output) (s : State) : (emit o s).cap = s.cap := rfl
@[simp] theorem emit_fns (o : Output) (s : State) : (emit o s).fns = s.fns := rfl
@[simp] theorem emit_tenants (o : Output) (s : State) : (emit o s).tenants = s.tenants := rfl
@[simp] theorem emit_seqs (o : Output) (s : State) : (emit o s).seqs = s.seqs := rfl
@[simp] theorem emit_cmds (o : Output) (s : State) : (emit o s).cmds = s.cmds := rfl
@[simp] theorem emit_nextOrder (o : Output) (s : State) : (emit o s).nextOrder = s.nextOrder := rfl
@[simp] theorem emit_halted (o : Output) (s : State) : (emit o s).halted = s.halted := rfl
@[simp] theorem emit_rrTenant (o : Output) (s : State) : (emit o s).rrTenant = s.rrTenant := rfl
@[simp] theorem emit_rrQueue (o : Output) (s : State) : (emit o s).rrQueue = s.rrQueue := rfl
@[simp] theorem emit_allocs (o : Output) (s : State) : (emit o s).allocs = s.allocs := rfl
@[simp] theorem emit_granules (o : Output) (s : State) : (emit o s).granules = s.granules := rfl
@[simp] theorem emit_sharedPoison (o : Output) (s : State) : (emit o s).sharedPoison = s.sharedPoison := rfl
@[simp] theorem emit_ctrs (o : Output) (s : State) : (emit o s).ctrs = s.ctrs := rfl
@[simp] theorem emit_mem (o : Output) (s : State) : (emit o s).mem = s.mem := rfl
@[simp] theorem emit_stks (o : Output) (s : State) : (emit o s).stks = s.stks := rfl
@[simp] theorem emit_fops (o : Output) (s : State) : (emit o s).fops = s.fops := rfl
@[simp] theorem emit_held (o : Output) (s : State) : (emit o s).held = s.held := rfl
@[simp] theorem emit_nextFop (o : Output) (s : State) : (emit o s).nextFop = s.nextFop := rfl
@[simp] theorem emit_sluiceQ (o : Output) (s : State) : (emit o s).sluiceQ = s.sluiceQ := rfl
@[simp] theorem emit_bundles (o : Output) (s : State) : (emit o s).bundles = s.bundles := rfl
@[simp] theorem emit_runs (o : Output) (s : State) : (emit o s).runs = s.runs := rfl
@[simp] theorem emit_tiles (o : Output) (s : State) : (emit o s).tiles = s.tiles := rfl
@[simp] theorem emit_adapters (o : Output) (s : State) : (emit o s).adapters = s.adapters := rfl
@[simp] theorem emit_margin (o : Output) (s : State) : (emit o s).margin = s.margin := rfl
@[simp] theorem emit_far (o : Output) (s : State) : (emit o s).far = s.far := rfl
@[simp] theorem emit_edgesDown (o : Output) (s : State) : (emit o s).edgesDown = s.edgesDown := rfl
@[simp] theorem emit_edgeTries (o : Output) (s : State) : (emit o s).edgeTries = s.edgeTries := rfl
@[simp] theorem emit_dpt (o : Output) (s : State) : (emit o s).dpt = s.dpt := rfl
@[simp] theorem emit_hist (o : Output) (s : State) : (emit o s).hist = s.hist := rfl
@[simp] theorem emit_test (o : Output) (s : State) : (emit o s).test = s.test := rfl
@[simp] theorem emit_pm (o : Output) (s : State) : (emit o s).pm = s.pm := rfl
@[simp] theorem emit_fuses (o : Output) (s : State) : (emit o s).fuses = s.fuses := rfl
@[simp] theorem emit_henua (o : Output) (s : State) : (emit o s).henua = s.henua := rfl
@[simp] theorem emit_board (o : Output) (s : State) : (emit o s).board = s.board := rfl
@[simp] theorem emit_era (o : Output) (s : State) : (emit o s).era = s.era := rfl
@[simp] theorem emit_freeCtr (o : Output) (s : State) : (emit o s).freeCtr = s.freeCtr := rfl

/-! `finishCmd` changes `cmds`. -/

@[simp] theorem finishCmd_pending (h : Nat) (outs : List Nat) (value : Nat) (s : State) : (finishCmd h outs value s).pending = s.pending := rfl
@[simp] theorem finishCmd_out (h : Nat) (outs : List Nat) (value : Nat) (s : State) : (finishCmd h outs value s).out = s.out := rfl
@[simp] theorem finishCmd_devTime (h : Nat) (outs : List Nat) (value : Nat) (s : State) : (finishCmd h outs value s).devTime = s.devTime := rfl
@[simp] theorem finishCmd_clockOn (h : Nat) (outs : List Nat) (value : Nat) (s : State) : (finishCmd h outs value s).clockOn = s.clockOn := rfl
@[simp] theorem finishCmd_cap (h : Nat) (outs : List Nat) (value : Nat) (s : State) : (finishCmd h outs value s).cap = s.cap := rfl
@[simp] theorem finishCmd_fns (h : Nat) (outs : List Nat) (value : Nat) (s : State) : (finishCmd h outs value s).fns = s.fns := rfl
@[simp] theorem finishCmd_tenants (h : Nat) (outs : List Nat) (value : Nat) (s : State) : (finishCmd h outs value s).tenants = s.tenants := rfl
@[simp] theorem finishCmd_seqs (h : Nat) (outs : List Nat) (value : Nat) (s : State) : (finishCmd h outs value s).seqs = s.seqs := rfl
@[simp] theorem finishCmd_cmds (h : Nat) (outs : List Nat) (value : Nat) (s : State) : (finishCmd h outs value s).cmds = s.cmds.map fun c => if c.handle == h then Cmd.ended outs value c else c := rfl
@[simp] theorem finishCmd_nextOrder (h : Nat) (outs : List Nat) (value : Nat) (s : State) : (finishCmd h outs value s).nextOrder = s.nextOrder := rfl
@[simp] theorem finishCmd_halted (h : Nat) (outs : List Nat) (value : Nat) (s : State) : (finishCmd h outs value s).halted = s.halted := rfl
@[simp] theorem finishCmd_rrTenant (h : Nat) (outs : List Nat) (value : Nat) (s : State) : (finishCmd h outs value s).rrTenant = s.rrTenant := rfl
@[simp] theorem finishCmd_rrQueue (h : Nat) (outs : List Nat) (value : Nat) (s : State) : (finishCmd h outs value s).rrQueue = s.rrQueue := rfl
@[simp] theorem finishCmd_allocs (h : Nat) (outs : List Nat) (value : Nat) (s : State) : (finishCmd h outs value s).allocs = s.allocs := rfl
@[simp] theorem finishCmd_granules (h : Nat) (outs : List Nat) (value : Nat) (s : State) : (finishCmd h outs value s).granules = s.granules := rfl
@[simp] theorem finishCmd_sharedPoison (h : Nat) (outs : List Nat) (value : Nat) (s : State) : (finishCmd h outs value s).sharedPoison = s.sharedPoison := rfl
@[simp] theorem finishCmd_ctrs (h : Nat) (outs : List Nat) (value : Nat) (s : State) : (finishCmd h outs value s).ctrs = s.ctrs := rfl
@[simp] theorem finishCmd_mem (h : Nat) (outs : List Nat) (value : Nat) (s : State) : (finishCmd h outs value s).mem = s.mem := rfl
@[simp] theorem finishCmd_stks (h : Nat) (outs : List Nat) (value : Nat) (s : State) : (finishCmd h outs value s).stks = s.stks := rfl
@[simp] theorem finishCmd_fops (h : Nat) (outs : List Nat) (value : Nat) (s : State) : (finishCmd h outs value s).fops = s.fops := rfl
@[simp] theorem finishCmd_held (h : Nat) (outs : List Nat) (value : Nat) (s : State) : (finishCmd h outs value s).held = s.held := rfl
@[simp] theorem finishCmd_nextFop (h : Nat) (outs : List Nat) (value : Nat) (s : State) : (finishCmd h outs value s).nextFop = s.nextFop := rfl
@[simp] theorem finishCmd_sluiceQ (h : Nat) (outs : List Nat) (value : Nat) (s : State) : (finishCmd h outs value s).sluiceQ = s.sluiceQ := rfl
@[simp] theorem finishCmd_bundles (h : Nat) (outs : List Nat) (value : Nat) (s : State) : (finishCmd h outs value s).bundles = s.bundles := rfl
@[simp] theorem finishCmd_runs (h : Nat) (outs : List Nat) (value : Nat) (s : State) : (finishCmd h outs value s).runs = s.runs := rfl
@[simp] theorem finishCmd_tiles (h : Nat) (outs : List Nat) (value : Nat) (s : State) : (finishCmd h outs value s).tiles = s.tiles := rfl
@[simp] theorem finishCmd_adapters (h : Nat) (outs : List Nat) (value : Nat) (s : State) : (finishCmd h outs value s).adapters = s.adapters := rfl
@[simp] theorem finishCmd_margin (h : Nat) (outs : List Nat) (value : Nat) (s : State) : (finishCmd h outs value s).margin = s.margin := rfl
@[simp] theorem finishCmd_far (h : Nat) (outs : List Nat) (value : Nat) (s : State) : (finishCmd h outs value s).far = s.far := rfl
@[simp] theorem finishCmd_edgesDown (h : Nat) (outs : List Nat) (value : Nat) (s : State) : (finishCmd h outs value s).edgesDown = s.edgesDown := rfl
@[simp] theorem finishCmd_edgeTries (h : Nat) (outs : List Nat) (value : Nat) (s : State) : (finishCmd h outs value s).edgeTries = s.edgeTries := rfl
@[simp] theorem finishCmd_dpt (h : Nat) (outs : List Nat) (value : Nat) (s : State) : (finishCmd h outs value s).dpt = s.dpt := rfl
@[simp] theorem finishCmd_hist (h : Nat) (outs : List Nat) (value : Nat) (s : State) : (finishCmd h outs value s).hist = s.hist := rfl
@[simp] theorem finishCmd_test (h : Nat) (outs : List Nat) (value : Nat) (s : State) : (finishCmd h outs value s).test = s.test := rfl
@[simp] theorem finishCmd_pm (h : Nat) (outs : List Nat) (value : Nat) (s : State) : (finishCmd h outs value s).pm = s.pm := rfl
@[simp] theorem finishCmd_fuses (h : Nat) (outs : List Nat) (value : Nat) (s : State) : (finishCmd h outs value s).fuses = s.fuses := rfl
@[simp] theorem finishCmd_henua (h : Nat) (outs : List Nat) (value : Nat) (s : State) : (finishCmd h outs value s).henua = s.henua := rfl
@[simp] theorem finishCmd_board (h : Nat) (outs : List Nat) (value : Nat) (s : State) : (finishCmd h outs value s).board = s.board := rfl
@[simp] theorem finishCmd_era (h : Nat) (outs : List Nat) (value : Nat) (s : State) : (finishCmd h outs value s).era = s.era := rfl
@[simp] theorem finishCmd_freeCtr (h : Nat) (outs : List Nat) (value : Nat) (s : State) : (finishCmd h outs value s).freeCtr = s.freeCtr := rfl

/-! `hostStore` changes `mem`; `hostWrite` also adds to `out`. -/

@[simp] theorem hostStore_pending (a : Nat) (bs : List Byte) (s : State) : (hostStore a bs s).pending = s.pending := rfl
@[simp] theorem hostStore_out (a : Nat) (bs : List Byte) (s : State) : (hostStore a bs s).out = s.out := rfl
@[simp] theorem hostStore_devTime (a : Nat) (bs : List Byte) (s : State) : (hostStore a bs s).devTime = s.devTime := rfl
@[simp] theorem hostStore_clockOn (a : Nat) (bs : List Byte) (s : State) : (hostStore a bs s).clockOn = s.clockOn := rfl
@[simp] theorem hostStore_cap (a : Nat) (bs : List Byte) (s : State) : (hostStore a bs s).cap = s.cap := rfl
@[simp] theorem hostStore_fns (a : Nat) (bs : List Byte) (s : State) : (hostStore a bs s).fns = s.fns := rfl
@[simp] theorem hostStore_tenants (a : Nat) (bs : List Byte) (s : State) : (hostStore a bs s).tenants = s.tenants := rfl
@[simp] theorem hostStore_seqs (a : Nat) (bs : List Byte) (s : State) : (hostStore a bs s).seqs = s.seqs := rfl
@[simp] theorem hostStore_cmds (a : Nat) (bs : List Byte) (s : State) : (hostStore a bs s).cmds = s.cmds := rfl
@[simp] theorem hostStore_nextOrder (a : Nat) (bs : List Byte) (s : State) : (hostStore a bs s).nextOrder = s.nextOrder := rfl
@[simp] theorem hostStore_halted (a : Nat) (bs : List Byte) (s : State) : (hostStore a bs s).halted = s.halted := rfl
@[simp] theorem hostStore_rrTenant (a : Nat) (bs : List Byte) (s : State) : (hostStore a bs s).rrTenant = s.rrTenant := rfl
@[simp] theorem hostStore_rrQueue (a : Nat) (bs : List Byte) (s : State) : (hostStore a bs s).rrQueue = s.rrQueue := rfl
@[simp] theorem hostStore_allocs (a : Nat) (bs : List Byte) (s : State) : (hostStore a bs s).allocs = s.allocs := rfl
@[simp] theorem hostStore_granules (a : Nat) (bs : List Byte) (s : State) : (hostStore a bs s).granules = s.granules := rfl
@[simp] theorem hostStore_sharedPoison (a : Nat) (bs : List Byte) (s : State) : (hostStore a bs s).sharedPoison = s.sharedPoison := rfl
@[simp] theorem hostStore_ctrs (a : Nat) (bs : List Byte) (s : State) : (hostStore a bs s).ctrs = s.ctrs := rfl
@[simp] theorem hostStore_mem (a : Nat) (bs : List Byte) (s : State) : (hostStore a bs s).mem = { s.mem with host := putBytes a bs s.mem.host } := rfl
@[simp] theorem hostStore_stks (a : Nat) (bs : List Byte) (s : State) : (hostStore a bs s).stks = s.stks := rfl
@[simp] theorem hostStore_fops (a : Nat) (bs : List Byte) (s : State) : (hostStore a bs s).fops = s.fops := rfl
@[simp] theorem hostStore_held (a : Nat) (bs : List Byte) (s : State) : (hostStore a bs s).held = s.held := rfl
@[simp] theorem hostStore_nextFop (a : Nat) (bs : List Byte) (s : State) : (hostStore a bs s).nextFop = s.nextFop := rfl
@[simp] theorem hostStore_sluiceQ (a : Nat) (bs : List Byte) (s : State) : (hostStore a bs s).sluiceQ = s.sluiceQ := rfl
@[simp] theorem hostStore_bundles (a : Nat) (bs : List Byte) (s : State) : (hostStore a bs s).bundles = s.bundles := rfl
@[simp] theorem hostStore_runs (a : Nat) (bs : List Byte) (s : State) : (hostStore a bs s).runs = s.runs := rfl
@[simp] theorem hostStore_tiles (a : Nat) (bs : List Byte) (s : State) : (hostStore a bs s).tiles = s.tiles := rfl
@[simp] theorem hostStore_adapters (a : Nat) (bs : List Byte) (s : State) : (hostStore a bs s).adapters = s.adapters := rfl
@[simp] theorem hostStore_margin (a : Nat) (bs : List Byte) (s : State) : (hostStore a bs s).margin = s.margin := rfl
@[simp] theorem hostStore_far (a : Nat) (bs : List Byte) (s : State) : (hostStore a bs s).far = s.far := rfl
@[simp] theorem hostStore_edgesDown (a : Nat) (bs : List Byte) (s : State) : (hostStore a bs s).edgesDown = s.edgesDown := rfl
@[simp] theorem hostStore_edgeTries (a : Nat) (bs : List Byte) (s : State) : (hostStore a bs s).edgeTries = s.edgeTries := rfl
@[simp] theorem hostStore_dpt (a : Nat) (bs : List Byte) (s : State) : (hostStore a bs s).dpt = s.dpt := rfl
@[simp] theorem hostStore_hist (a : Nat) (bs : List Byte) (s : State) : (hostStore a bs s).hist = s.hist := rfl
@[simp] theorem hostStore_test (a : Nat) (bs : List Byte) (s : State) : (hostStore a bs s).test = s.test := rfl
@[simp] theorem hostStore_pm (a : Nat) (bs : List Byte) (s : State) : (hostStore a bs s).pm = s.pm := rfl
@[simp] theorem hostStore_fuses (a : Nat) (bs : List Byte) (s : State) : (hostStore a bs s).fuses = s.fuses := rfl
@[simp] theorem hostStore_henua (a : Nat) (bs : List Byte) (s : State) : (hostStore a bs s).henua = s.henua := rfl
@[simp] theorem hostStore_board (a : Nat) (bs : List Byte) (s : State) : (hostStore a bs s).board = s.board := rfl
@[simp] theorem hostStore_era (a : Nat) (bs : List Byte) (s : State) : (hostStore a bs s).era = s.era := rfl
@[simp] theorem hostStore_freeCtr (a : Nat) (bs : List Byte) (s : State) : (hostStore a bs s).freeCtr = s.freeCtr := rfl

@[simp] theorem hostWrite_pending (fn a : Nat) (bs : List Byte) (s : State) : (hostWrite fn a bs s).pending = s.pending := rfl
@[simp] theorem hostWrite_out (fn a : Nat) (bs : List Byte) (s : State) : (hostWrite fn a bs s).out = s.out ++ [.hostWrite fn a bs] := rfl
@[simp] theorem hostWrite_devTime (fn a : Nat) (bs : List Byte) (s : State) : (hostWrite fn a bs s).devTime = s.devTime := rfl
@[simp] theorem hostWrite_clockOn (fn a : Nat) (bs : List Byte) (s : State) : (hostWrite fn a bs s).clockOn = s.clockOn := rfl
@[simp] theorem hostWrite_cap (fn a : Nat) (bs : List Byte) (s : State) : (hostWrite fn a bs s).cap = s.cap := rfl
@[simp] theorem hostWrite_fns (fn a : Nat) (bs : List Byte) (s : State) : (hostWrite fn a bs s).fns = s.fns := rfl
@[simp] theorem hostWrite_tenants (fn a : Nat) (bs : List Byte) (s : State) : (hostWrite fn a bs s).tenants = s.tenants := rfl
@[simp] theorem hostWrite_seqs (fn a : Nat) (bs : List Byte) (s : State) : (hostWrite fn a bs s).seqs = s.seqs := rfl
@[simp] theorem hostWrite_cmds (fn a : Nat) (bs : List Byte) (s : State) : (hostWrite fn a bs s).cmds = s.cmds := rfl
@[simp] theorem hostWrite_nextOrder (fn a : Nat) (bs : List Byte) (s : State) : (hostWrite fn a bs s).nextOrder = s.nextOrder := rfl
@[simp] theorem hostWrite_halted (fn a : Nat) (bs : List Byte) (s : State) : (hostWrite fn a bs s).halted = s.halted := rfl
@[simp] theorem hostWrite_rrTenant (fn a : Nat) (bs : List Byte) (s : State) : (hostWrite fn a bs s).rrTenant = s.rrTenant := rfl
@[simp] theorem hostWrite_rrQueue (fn a : Nat) (bs : List Byte) (s : State) : (hostWrite fn a bs s).rrQueue = s.rrQueue := rfl
@[simp] theorem hostWrite_allocs (fn a : Nat) (bs : List Byte) (s : State) : (hostWrite fn a bs s).allocs = s.allocs := rfl
@[simp] theorem hostWrite_granules (fn a : Nat) (bs : List Byte) (s : State) : (hostWrite fn a bs s).granules = s.granules := rfl
@[simp] theorem hostWrite_sharedPoison (fn a : Nat) (bs : List Byte) (s : State) : (hostWrite fn a bs s).sharedPoison = s.sharedPoison := rfl
@[simp] theorem hostWrite_ctrs (fn a : Nat) (bs : List Byte) (s : State) : (hostWrite fn a bs s).ctrs = s.ctrs := rfl
@[simp] theorem hostWrite_mem (fn a : Nat) (bs : List Byte) (s : State) : (hostWrite fn a bs s).mem = { s.mem with host := putBytes a bs s.mem.host } := rfl
@[simp] theorem hostWrite_stks (fn a : Nat) (bs : List Byte) (s : State) : (hostWrite fn a bs s).stks = s.stks := rfl
@[simp] theorem hostWrite_fops (fn a : Nat) (bs : List Byte) (s : State) : (hostWrite fn a bs s).fops = s.fops := rfl
@[simp] theorem hostWrite_held (fn a : Nat) (bs : List Byte) (s : State) : (hostWrite fn a bs s).held = s.held := rfl
@[simp] theorem hostWrite_nextFop (fn a : Nat) (bs : List Byte) (s : State) : (hostWrite fn a bs s).nextFop = s.nextFop := rfl
@[simp] theorem hostWrite_sluiceQ (fn a : Nat) (bs : List Byte) (s : State) : (hostWrite fn a bs s).sluiceQ = s.sluiceQ := rfl
@[simp] theorem hostWrite_bundles (fn a : Nat) (bs : List Byte) (s : State) : (hostWrite fn a bs s).bundles = s.bundles := rfl
@[simp] theorem hostWrite_runs (fn a : Nat) (bs : List Byte) (s : State) : (hostWrite fn a bs s).runs = s.runs := rfl
@[simp] theorem hostWrite_tiles (fn a : Nat) (bs : List Byte) (s : State) : (hostWrite fn a bs s).tiles = s.tiles := rfl
@[simp] theorem hostWrite_adapters (fn a : Nat) (bs : List Byte) (s : State) : (hostWrite fn a bs s).adapters = s.adapters := rfl
@[simp] theorem hostWrite_margin (fn a : Nat) (bs : List Byte) (s : State) : (hostWrite fn a bs s).margin = s.margin := rfl
@[simp] theorem hostWrite_far (fn a : Nat) (bs : List Byte) (s : State) : (hostWrite fn a bs s).far = s.far := rfl
@[simp] theorem hostWrite_edgesDown (fn a : Nat) (bs : List Byte) (s : State) : (hostWrite fn a bs s).edgesDown = s.edgesDown := rfl
@[simp] theorem hostWrite_edgeTries (fn a : Nat) (bs : List Byte) (s : State) : (hostWrite fn a bs s).edgeTries = s.edgeTries := rfl
@[simp] theorem hostWrite_dpt (fn a : Nat) (bs : List Byte) (s : State) : (hostWrite fn a bs s).dpt = s.dpt := rfl
@[simp] theorem hostWrite_hist (fn a : Nat) (bs : List Byte) (s : State) : (hostWrite fn a bs s).hist = s.hist := rfl
@[simp] theorem hostWrite_test (fn a : Nat) (bs : List Byte) (s : State) : (hostWrite fn a bs s).test = s.test := rfl
@[simp] theorem hostWrite_pm (fn a : Nat) (bs : List Byte) (s : State) : (hostWrite fn a bs s).pm = s.pm := rfl
@[simp] theorem hostWrite_fuses (fn a : Nat) (bs : List Byte) (s : State) : (hostWrite fn a bs s).fuses = s.fuses := rfl
@[simp] theorem hostWrite_henua (fn a : Nat) (bs : List Byte) (s : State) : (hostWrite fn a bs s).henua = s.henua := rfl
@[simp] theorem hostWrite_board (fn a : Nat) (bs : List Byte) (s : State) : (hostWrite fn a bs s).board = s.board := rfl
@[simp] theorem hostWrite_era (fn a : Nat) (bs : List Byte) (s : State) : (hostWrite fn a bs s).era = s.era := rfl
@[simp] theorem hostWrite_freeCtr (fn a : Nat) (bs : List Byte) (s : State) : (hostWrite fn a bs s).freeCtr = s.freeCtr := rfl

/-! `modTen` changes `tenants` where the entry exists. -/

theorem modTen_eq (k : Nat) (g : Tenant → Tenant) (s : State) : modTen k g s = { s with tenants := (modTen k g s).tenants } := by
  unfold modTen
  split <;> rfl

@[simp] theorem modTen_pending (k : Nat) (g : Tenant → Tenant) (s : State) : (modTen k g s).pending = s.pending := by rw [modTen_eq]
@[simp] theorem modTen_out (k : Nat) (g : Tenant → Tenant) (s : State) : (modTen k g s).out = s.out := by rw [modTen_eq]
@[simp] theorem modTen_devTime (k : Nat) (g : Tenant → Tenant) (s : State) : (modTen k g s).devTime = s.devTime := by rw [modTen_eq]
@[simp] theorem modTen_clockOn (k : Nat) (g : Tenant → Tenant) (s : State) : (modTen k g s).clockOn = s.clockOn := by rw [modTen_eq]
@[simp] theorem modTen_cap (k : Nat) (g : Tenant → Tenant) (s : State) : (modTen k g s).cap = s.cap := by rw [modTen_eq]
@[simp] theorem modTen_fns (k : Nat) (g : Tenant → Tenant) (s : State) : (modTen k g s).fns = s.fns := by rw [modTen_eq]
@[simp] theorem modTen_seqs (k : Nat) (g : Tenant → Tenant) (s : State) : (modTen k g s).seqs = s.seqs := by rw [modTen_eq]
@[simp] theorem modTen_cmds (k : Nat) (g : Tenant → Tenant) (s : State) : (modTen k g s).cmds = s.cmds := by rw [modTen_eq]
@[simp] theorem modTen_nextOrder (k : Nat) (g : Tenant → Tenant) (s : State) : (modTen k g s).nextOrder = s.nextOrder := by rw [modTen_eq]
@[simp] theorem modTen_halted (k : Nat) (g : Tenant → Tenant) (s : State) : (modTen k g s).halted = s.halted := by rw [modTen_eq]
@[simp] theorem modTen_rrTenant (k : Nat) (g : Tenant → Tenant) (s : State) : (modTen k g s).rrTenant = s.rrTenant := by rw [modTen_eq]
@[simp] theorem modTen_rrQueue (k : Nat) (g : Tenant → Tenant) (s : State) : (modTen k g s).rrQueue = s.rrQueue := by rw [modTen_eq]
@[simp] theorem modTen_allocs (k : Nat) (g : Tenant → Tenant) (s : State) : (modTen k g s).allocs = s.allocs := by rw [modTen_eq]
@[simp] theorem modTen_granules (k : Nat) (g : Tenant → Tenant) (s : State) : (modTen k g s).granules = s.granules := by rw [modTen_eq]
@[simp] theorem modTen_sharedPoison (k : Nat) (g : Tenant → Tenant) (s : State) : (modTen k g s).sharedPoison = s.sharedPoison := by rw [modTen_eq]
@[simp] theorem modTen_ctrs (k : Nat) (g : Tenant → Tenant) (s : State) : (modTen k g s).ctrs = s.ctrs := by rw [modTen_eq]
@[simp] theorem modTen_mem (k : Nat) (g : Tenant → Tenant) (s : State) : (modTen k g s).mem = s.mem := by rw [modTen_eq]
@[simp] theorem modTen_stks (k : Nat) (g : Tenant → Tenant) (s : State) : (modTen k g s).stks = s.stks := by rw [modTen_eq]
@[simp] theorem modTen_fops (k : Nat) (g : Tenant → Tenant) (s : State) : (modTen k g s).fops = s.fops := by rw [modTen_eq]
@[simp] theorem modTen_held (k : Nat) (g : Tenant → Tenant) (s : State) : (modTen k g s).held = s.held := by rw [modTen_eq]
@[simp] theorem modTen_nextFop (k : Nat) (g : Tenant → Tenant) (s : State) : (modTen k g s).nextFop = s.nextFop := by rw [modTen_eq]
@[simp] theorem modTen_sluiceQ (k : Nat) (g : Tenant → Tenant) (s : State) : (modTen k g s).sluiceQ = s.sluiceQ := by rw [modTen_eq]
@[simp] theorem modTen_bundles (k : Nat) (g : Tenant → Tenant) (s : State) : (modTen k g s).bundles = s.bundles := by rw [modTen_eq]
@[simp] theorem modTen_runs (k : Nat) (g : Tenant → Tenant) (s : State) : (modTen k g s).runs = s.runs := by rw [modTen_eq]
@[simp] theorem modTen_tiles (k : Nat) (g : Tenant → Tenant) (s : State) : (modTen k g s).tiles = s.tiles := by rw [modTen_eq]
@[simp] theorem modTen_adapters (k : Nat) (g : Tenant → Tenant) (s : State) : (modTen k g s).adapters = s.adapters := by rw [modTen_eq]
@[simp] theorem modTen_margin (k : Nat) (g : Tenant → Tenant) (s : State) : (modTen k g s).margin = s.margin := by rw [modTen_eq]
@[simp] theorem modTen_far (k : Nat) (g : Tenant → Tenant) (s : State) : (modTen k g s).far = s.far := by rw [modTen_eq]
@[simp] theorem modTen_edgesDown (k : Nat) (g : Tenant → Tenant) (s : State) : (modTen k g s).edgesDown = s.edgesDown := by rw [modTen_eq]
@[simp] theorem modTen_edgeTries (k : Nat) (g : Tenant → Tenant) (s : State) : (modTen k g s).edgeTries = s.edgeTries := by rw [modTen_eq]
@[simp] theorem modTen_dpt (k : Nat) (g : Tenant → Tenant) (s : State) : (modTen k g s).dpt = s.dpt := by rw [modTen_eq]
@[simp] theorem modTen_hist (k : Nat) (g : Tenant → Tenant) (s : State) : (modTen k g s).hist = s.hist := by rw [modTen_eq]
@[simp] theorem modTen_test (k : Nat) (g : Tenant → Tenant) (s : State) : (modTen k g s).test = s.test := by rw [modTen_eq]
@[simp] theorem modTen_pm (k : Nat) (g : Tenant → Tenant) (s : State) : (modTen k g s).pm = s.pm := by rw [modTen_eq]
@[simp] theorem modTen_fuses (k : Nat) (g : Tenant → Tenant) (s : State) : (modTen k g s).fuses = s.fuses := by rw [modTen_eq]
@[simp] theorem modTen_henua (k : Nat) (g : Tenant → Tenant) (s : State) : (modTen k g s).henua = s.henua := by rw [modTen_eq]
@[simp] theorem modTen_board (k : Nat) (g : Tenant → Tenant) (s : State) : (modTen k g s).board = s.board := by rw [modTen_eq]
@[simp] theorem modTen_era (k : Nat) (g : Tenant → Tenant) (s : State) : (modTen k g s).era = s.era := by rw [modTen_eq]
@[simp] theorem modTen_freeCtr (k : Nat) (g : Tenant → Tenant) (s : State) : (modTen k g s).freeCtr = s.freeCtr := by rw [modTen_eq]

/-! `modRun` changes `runs` where the entry exists. -/

theorem modRun_eq (k : Nat) (g : Run → Run) (s : State) : modRun k g s = { s with runs := (modRun k g s).runs } := by
  unfold modRun
  split <;> rfl

@[simp] theorem modRun_pending (k : Nat) (g : Run → Run) (s : State) : (modRun k g s).pending = s.pending := by rw [modRun_eq]
@[simp] theorem modRun_out (k : Nat) (g : Run → Run) (s : State) : (modRun k g s).out = s.out := by rw [modRun_eq]
@[simp] theorem modRun_devTime (k : Nat) (g : Run → Run) (s : State) : (modRun k g s).devTime = s.devTime := by rw [modRun_eq]
@[simp] theorem modRun_clockOn (k : Nat) (g : Run → Run) (s : State) : (modRun k g s).clockOn = s.clockOn := by rw [modRun_eq]
@[simp] theorem modRun_cap (k : Nat) (g : Run → Run) (s : State) : (modRun k g s).cap = s.cap := by rw [modRun_eq]
@[simp] theorem modRun_fns (k : Nat) (g : Run → Run) (s : State) : (modRun k g s).fns = s.fns := by rw [modRun_eq]
@[simp] theorem modRun_tenants (k : Nat) (g : Run → Run) (s : State) : (modRun k g s).tenants = s.tenants := by rw [modRun_eq]
@[simp] theorem modRun_seqs (k : Nat) (g : Run → Run) (s : State) : (modRun k g s).seqs = s.seqs := by rw [modRun_eq]
@[simp] theorem modRun_cmds (k : Nat) (g : Run → Run) (s : State) : (modRun k g s).cmds = s.cmds := by rw [modRun_eq]
@[simp] theorem modRun_nextOrder (k : Nat) (g : Run → Run) (s : State) : (modRun k g s).nextOrder = s.nextOrder := by rw [modRun_eq]
@[simp] theorem modRun_halted (k : Nat) (g : Run → Run) (s : State) : (modRun k g s).halted = s.halted := by rw [modRun_eq]
@[simp] theorem modRun_rrTenant (k : Nat) (g : Run → Run) (s : State) : (modRun k g s).rrTenant = s.rrTenant := by rw [modRun_eq]
@[simp] theorem modRun_rrQueue (k : Nat) (g : Run → Run) (s : State) : (modRun k g s).rrQueue = s.rrQueue := by rw [modRun_eq]
@[simp] theorem modRun_allocs (k : Nat) (g : Run → Run) (s : State) : (modRun k g s).allocs = s.allocs := by rw [modRun_eq]
@[simp] theorem modRun_granules (k : Nat) (g : Run → Run) (s : State) : (modRun k g s).granules = s.granules := by rw [modRun_eq]
@[simp] theorem modRun_sharedPoison (k : Nat) (g : Run → Run) (s : State) : (modRun k g s).sharedPoison = s.sharedPoison := by rw [modRun_eq]
@[simp] theorem modRun_ctrs (k : Nat) (g : Run → Run) (s : State) : (modRun k g s).ctrs = s.ctrs := by rw [modRun_eq]
@[simp] theorem modRun_mem (k : Nat) (g : Run → Run) (s : State) : (modRun k g s).mem = s.mem := by rw [modRun_eq]
@[simp] theorem modRun_stks (k : Nat) (g : Run → Run) (s : State) : (modRun k g s).stks = s.stks := by rw [modRun_eq]
@[simp] theorem modRun_fops (k : Nat) (g : Run → Run) (s : State) : (modRun k g s).fops = s.fops := by rw [modRun_eq]
@[simp] theorem modRun_held (k : Nat) (g : Run → Run) (s : State) : (modRun k g s).held = s.held := by rw [modRun_eq]
@[simp] theorem modRun_nextFop (k : Nat) (g : Run → Run) (s : State) : (modRun k g s).nextFop = s.nextFop := by rw [modRun_eq]
@[simp] theorem modRun_sluiceQ (k : Nat) (g : Run → Run) (s : State) : (modRun k g s).sluiceQ = s.sluiceQ := by rw [modRun_eq]
@[simp] theorem modRun_bundles (k : Nat) (g : Run → Run) (s : State) : (modRun k g s).bundles = s.bundles := by rw [modRun_eq]
@[simp] theorem modRun_tiles (k : Nat) (g : Run → Run) (s : State) : (modRun k g s).tiles = s.tiles := by rw [modRun_eq]
@[simp] theorem modRun_adapters (k : Nat) (g : Run → Run) (s : State) : (modRun k g s).adapters = s.adapters := by rw [modRun_eq]
@[simp] theorem modRun_margin (k : Nat) (g : Run → Run) (s : State) : (modRun k g s).margin = s.margin := by rw [modRun_eq]
@[simp] theorem modRun_far (k : Nat) (g : Run → Run) (s : State) : (modRun k g s).far = s.far := by rw [modRun_eq]
@[simp] theorem modRun_edgesDown (k : Nat) (g : Run → Run) (s : State) : (modRun k g s).edgesDown = s.edgesDown := by rw [modRun_eq]
@[simp] theorem modRun_edgeTries (k : Nat) (g : Run → Run) (s : State) : (modRun k g s).edgeTries = s.edgeTries := by rw [modRun_eq]
@[simp] theorem modRun_dpt (k : Nat) (g : Run → Run) (s : State) : (modRun k g s).dpt = s.dpt := by rw [modRun_eq]
@[simp] theorem modRun_hist (k : Nat) (g : Run → Run) (s : State) : (modRun k g s).hist = s.hist := by rw [modRun_eq]
@[simp] theorem modRun_test (k : Nat) (g : Run → Run) (s : State) : (modRun k g s).test = s.test := by rw [modRun_eq]
@[simp] theorem modRun_pm (k : Nat) (g : Run → Run) (s : State) : (modRun k g s).pm = s.pm := by rw [modRun_eq]
@[simp] theorem modRun_fuses (k : Nat) (g : Run → Run) (s : State) : (modRun k g s).fuses = s.fuses := by rw [modRun_eq]
@[simp] theorem modRun_henua (k : Nat) (g : Run → Run) (s : State) : (modRun k g s).henua = s.henua := by rw [modRun_eq]
@[simp] theorem modRun_board (k : Nat) (g : Run → Run) (s : State) : (modRun k g s).board = s.board := by rw [modRun_eq]
@[simp] theorem modRun_era (k : Nat) (g : Run → Run) (s : State) : (modRun k g s).era = s.era := by rw [modRun_eq]
@[simp] theorem modRun_freeCtr (k : Nat) (g : Run → Run) (s : State) : (modRun k g s).freeCtr = s.freeCtr := by rw [modRun_eq]

/-! `modFop` changes `fops` where the entry exists. -/

theorem modFop_eq (k : Nat) (g : FurrowOp → FurrowOp) (s : State) : modFop k g s = { s with fops := (modFop k g s).fops } := by
  unfold modFop
  split <;> rfl

@[simp] theorem modFop_pending (k : Nat) (g : FurrowOp → FurrowOp) (s : State) : (modFop k g s).pending = s.pending := by rw [modFop_eq]
@[simp] theorem modFop_out (k : Nat) (g : FurrowOp → FurrowOp) (s : State) : (modFop k g s).out = s.out := by rw [modFop_eq]
@[simp] theorem modFop_devTime (k : Nat) (g : FurrowOp → FurrowOp) (s : State) : (modFop k g s).devTime = s.devTime := by rw [modFop_eq]
@[simp] theorem modFop_clockOn (k : Nat) (g : FurrowOp → FurrowOp) (s : State) : (modFop k g s).clockOn = s.clockOn := by rw [modFop_eq]
@[simp] theorem modFop_cap (k : Nat) (g : FurrowOp → FurrowOp) (s : State) : (modFop k g s).cap = s.cap := by rw [modFop_eq]
@[simp] theorem modFop_fns (k : Nat) (g : FurrowOp → FurrowOp) (s : State) : (modFop k g s).fns = s.fns := by rw [modFop_eq]
@[simp] theorem modFop_tenants (k : Nat) (g : FurrowOp → FurrowOp) (s : State) : (modFop k g s).tenants = s.tenants := by rw [modFop_eq]
@[simp] theorem modFop_seqs (k : Nat) (g : FurrowOp → FurrowOp) (s : State) : (modFop k g s).seqs = s.seqs := by rw [modFop_eq]
@[simp] theorem modFop_cmds (k : Nat) (g : FurrowOp → FurrowOp) (s : State) : (modFop k g s).cmds = s.cmds := by rw [modFop_eq]
@[simp] theorem modFop_nextOrder (k : Nat) (g : FurrowOp → FurrowOp) (s : State) : (modFop k g s).nextOrder = s.nextOrder := by rw [modFop_eq]
@[simp] theorem modFop_halted (k : Nat) (g : FurrowOp → FurrowOp) (s : State) : (modFop k g s).halted = s.halted := by rw [modFop_eq]
@[simp] theorem modFop_rrTenant (k : Nat) (g : FurrowOp → FurrowOp) (s : State) : (modFop k g s).rrTenant = s.rrTenant := by rw [modFop_eq]
@[simp] theorem modFop_rrQueue (k : Nat) (g : FurrowOp → FurrowOp) (s : State) : (modFop k g s).rrQueue = s.rrQueue := by rw [modFop_eq]
@[simp] theorem modFop_allocs (k : Nat) (g : FurrowOp → FurrowOp) (s : State) : (modFop k g s).allocs = s.allocs := by rw [modFop_eq]
@[simp] theorem modFop_granules (k : Nat) (g : FurrowOp → FurrowOp) (s : State) : (modFop k g s).granules = s.granules := by rw [modFop_eq]
@[simp] theorem modFop_sharedPoison (k : Nat) (g : FurrowOp → FurrowOp) (s : State) : (modFop k g s).sharedPoison = s.sharedPoison := by rw [modFop_eq]
@[simp] theorem modFop_ctrs (k : Nat) (g : FurrowOp → FurrowOp) (s : State) : (modFop k g s).ctrs = s.ctrs := by rw [modFop_eq]
@[simp] theorem modFop_mem (k : Nat) (g : FurrowOp → FurrowOp) (s : State) : (modFop k g s).mem = s.mem := by rw [modFop_eq]
@[simp] theorem modFop_stks (k : Nat) (g : FurrowOp → FurrowOp) (s : State) : (modFop k g s).stks = s.stks := by rw [modFop_eq]
@[simp] theorem modFop_held (k : Nat) (g : FurrowOp → FurrowOp) (s : State) : (modFop k g s).held = s.held := by rw [modFop_eq]
@[simp] theorem modFop_nextFop (k : Nat) (g : FurrowOp → FurrowOp) (s : State) : (modFop k g s).nextFop = s.nextFop := by rw [modFop_eq]
@[simp] theorem modFop_sluiceQ (k : Nat) (g : FurrowOp → FurrowOp) (s : State) : (modFop k g s).sluiceQ = s.sluiceQ := by rw [modFop_eq]
@[simp] theorem modFop_bundles (k : Nat) (g : FurrowOp → FurrowOp) (s : State) : (modFop k g s).bundles = s.bundles := by rw [modFop_eq]
@[simp] theorem modFop_runs (k : Nat) (g : FurrowOp → FurrowOp) (s : State) : (modFop k g s).runs = s.runs := by rw [modFop_eq]
@[simp] theorem modFop_tiles (k : Nat) (g : FurrowOp → FurrowOp) (s : State) : (modFop k g s).tiles = s.tiles := by rw [modFop_eq]
@[simp] theorem modFop_adapters (k : Nat) (g : FurrowOp → FurrowOp) (s : State) : (modFop k g s).adapters = s.adapters := by rw [modFop_eq]
@[simp] theorem modFop_margin (k : Nat) (g : FurrowOp → FurrowOp) (s : State) : (modFop k g s).margin = s.margin := by rw [modFop_eq]
@[simp] theorem modFop_far (k : Nat) (g : FurrowOp → FurrowOp) (s : State) : (modFop k g s).far = s.far := by rw [modFop_eq]
@[simp] theorem modFop_edgesDown (k : Nat) (g : FurrowOp → FurrowOp) (s : State) : (modFop k g s).edgesDown = s.edgesDown := by rw [modFop_eq]
@[simp] theorem modFop_edgeTries (k : Nat) (g : FurrowOp → FurrowOp) (s : State) : (modFop k g s).edgeTries = s.edgeTries := by rw [modFop_eq]
@[simp] theorem modFop_dpt (k : Nat) (g : FurrowOp → FurrowOp) (s : State) : (modFop k g s).dpt = s.dpt := by rw [modFop_eq]
@[simp] theorem modFop_hist (k : Nat) (g : FurrowOp → FurrowOp) (s : State) : (modFop k g s).hist = s.hist := by rw [modFop_eq]
@[simp] theorem modFop_test (k : Nat) (g : FurrowOp → FurrowOp) (s : State) : (modFop k g s).test = s.test := by rw [modFop_eq]
@[simp] theorem modFop_pm (k : Nat) (g : FurrowOp → FurrowOp) (s : State) : (modFop k g s).pm = s.pm := by rw [modFop_eq]
@[simp] theorem modFop_fuses (k : Nat) (g : FurrowOp → FurrowOp) (s : State) : (modFop k g s).fuses = s.fuses := by rw [modFop_eq]
@[simp] theorem modFop_henua (k : Nat) (g : FurrowOp → FurrowOp) (s : State) : (modFop k g s).henua = s.henua := by rw [modFop_eq]
@[simp] theorem modFop_board (k : Nat) (g : FurrowOp → FurrowOp) (s : State) : (modFop k g s).board = s.board := by rw [modFop_eq]
@[simp] theorem modFop_era (k : Nat) (g : FurrowOp → FurrowOp) (s : State) : (modFop k g s).era = s.era := by rw [modFop_eq]
@[simp] theorem modFop_freeCtr (k : Nat) (g : FurrowOp → FurrowOp) (s : State) : (modFop k g s).freeCtr = s.freeCtr := by rw [modFop_eq]

end Sys2Proof.Machine
end

