-- ==== Sys2Proof/Laws/Records.lean ====
section
/-! SUPPORT. Bytes written to host memory read back; a record in the completion ring reads as written; the shells of the
commands always answer. -/

namespace Sys2Proof.Machine

theorem getBytes_putBytes_low (d : Nat → Byte) (j : Nat) (bs : List Byte) : ∀ k m, j < k → tabGetD (d j) j (putBytes k bs m) = tabGetD (d j) j m := by
  induction bs with
  | nil => intros; rfl
  | cons b t ih =>
    intro k m h
    unfold putBytes
    rw [ih (k+1) _ (by omega), tabGetD_tabPut_ne (by omega)]

theorem getBytes_putBytes (d : Nat → Byte) (bs : List Byte) : ∀ k m, getBytes d k bs.length (putBytes k bs m) = bs := by
  induction bs with
  | nil => intros; rfl
  | cons b t ih =>
    intro k m
    unfold putBytes getBytes
    rw [List.length_cons, List.range_succ_eq_map, List.map_cons, List.map_map]
    congr 1
    · rw [Nat.add_zero, getBytes_putBytes_low d k t (k+1) _ (by omega)]; simp
    · have := ih (k+1) (tabPut k b m)
      unfold getBytes at this
      rw [← this]
      rw [this]
      conv_rhs => rw [← this]
      apply List.map_congr_left
      intro i _
      simp [Nat.add_assoc, Nat.add_comm 1 i]

theorem toLE_length (n v : Nat) : (toLE n v).length = n := by
  induction n generalizing v with
  | zero => rfl
  | succ n ih => simp [toLE, ih]

theorem recordBytes_length (a b c d e f g h i j) : (recordBytes a b c d e f g h i j).length = 32 := by
  simp [recordBytes, toLE_length]

theorem hostRead_hostWrite (fn a : Nat) (bs : List Byte) (s : State) : hostRead (hostWrite fn a bs s) a bs.length = bs := by
  unfold hostRead
  rw [hostWrite_mem]
  exact getBytes_putBytes _ bs a _

theorem writeRecord_read (t kind : Nat) (late rc : Bool) (st tag h op sq ck sh v : Nat) (s : State) (hb : (getFn s t).cqBad = false) :
    hostRead (writeRecord t kind late rc st tag h op sq ck sh v s) (cqBaseOf (getFn s t) + 32 * (getFn s t).cqTail) 32 =
      recordBytes kind (rflags (getFn s t).cqPhase late rc) st tag h op sq ck sh v := by
  have e := hostRead_hostWrite t (cqBaseOf (getFn s t) + 32 * (getFn s t).cqTail)
    (recordBytes kind (rflags (getFn s t).cqPhase late rc) st tag h op sq ck sh v) s
  rw [recordBytes_length] at e
  rw [← e]
  unfold writeRecord hostRead
  dsimp only
  rw [hb, if_neg (by decide), modFn_mem]

theorem vecEvent_mem (f v : Nat) (s : State) : (vecEvent f v s).mem = s.mem := by
  unfold vecEvent sendMsix; dsimp only; repeat' split <;> try rfl

theorem vecEvent_cmds (f v : Nat) (s : State) : (vecEvent f v s).cmds = s.cmds ∧ (vecEvent f v s).seqs = s.seqs := by
  unfold vecEvent sendMsix; dsimp only; repeat' split <;> try exact ⟨rfl, rfl⟩

theorem modFn_cqTail (f k : Nat) (g : Fn → Fn) (s : State) (hg : ∀ x, (g x).cqTail = x.cqTail) :
    (getFn (modFn f g s) k).cqTail = (getFn s k).cqTail := by
  by_cases e : k = f
  · subst e
    rw [getFn_modFn, hg]
  · rw [getFn_modFn_ne _ _ e]

theorem sendMsix_cqTail (f v k : Nat) (s : State) : (getFn (sendMsix f v s) k).cqTail = (getFn s k).cqTail := by
  unfold sendMsix
  dsimp only
  repeat' split
  · rfl
  · exact modFn_cqTail _ _ _ _ fun _ => rfl
  · rfl

theorem vecEvent_cqTail (f v k : Nat) (s : State) : (getFn (vecEvent f v s) k).cqTail = (getFn s k).cqTail := by
  unfold vecEvent
  dsimp only
  repeat' split
  · rfl
  · rw [sendMsix_cqTail]
    exact modFn_cqTail _ _ _ _ fun _ => rfl
  · exact modFn_cqTail _ _ _ _ fun _ => rfl

theorem runCmd_answers (h op : Nat) (f : Cmd → State → State) (s : State) : ∃ t, runCmd h op f s = .next t := by
  unfold runCmd; split
  · split <;> exact ⟨_, rfl⟩
  · exact ⟨_, rfl⟩

theorem onUnit_answers (b : Bool) (t : State) : (b = true → ∃ u, onUnit b t = .next u) ∧ (b = false → onUnit b t = .fault .noSuchUnit) := by
  cases b <;> simp [onUnit]

theorem runFop_answers (id op : Nat) (s : State) : ∃ t, runFop id op s = .next t := by
  unfold runFop; split
  · exact ⟨_, rfl⟩
  · split <;> exact ⟨_, rfl⟩

end Sys2Proof.Machine
end

