-- ==== Sys2Proof/Tests/Slice0.lean ====
section
/-! SUPPORT. Tests: ill-formed commands are refused; the hypotheses of every statement are met by a concrete state and
operands; a few of the spec's own examples. Every expected value comes from the spec. -/

open Sys2Proof Sys2Proof.Machine

namespace Sys2Proof.Tests

set_option Elab.async false

/-! ### Ill-formed commands are refused, one for each check -/

theorem test_wf_function : (Instr.hgDevTimeRead 64 .low32).wf = false := by decide
theorem test_wf_queue : (Instr.hgSqTailWrite 0 16 0 []).wf = false := by decide
theorem test_wf_vector : (Instr.msixUnmask 0 32).wf = false := by decide
theorem test_wf_tile : (Instr.mainPass 32).wf = false := by decide
theorem test_wf_stack : (Instr.ceBucketLeak 8).wf = false := by decide
theorem test_wf_die : (Instr.sliceEnd 0 16 0).wf = false := by decide
theorem test_wf_pair : (Instr.sliceEnd 0 0 32).wf = false := by decide
theorem test_wf_bank : (Instr.refreshDue 0 0 64).wf = false := by decide
theorem test_wf_block : (Instr.mergeWindowExpiry 1 5).wf = false := by decide
theorem test_wf_data_lane : (Instr.stackLinkTrainingEnd [(0, [8704])]).wf = false := by decide
theorem test_wf_edge : (Instr.flitCrcRetry 2 2 true).wf = false := by decide
theorem test_wf_port : (Instr.ethLinkUp 20 0).wf = false := by decide
theorem test_wf_logical : (Instr.ethLinkUp 0 4).wf = false := by decide
theorem test_wf_path : (Instr.ackTimer 0 16).wf = false := by decide
theorem test_wf_event : (Instr.eventWait 0 16 1).wf = false := by decide
theorem test_wf_sensor : (Instr.sensorUpdate [(560, 0)]).wf = false := by decide
theorem test_wf_unit : (Instr.suspectTestDue (.sluice 20)).wf = false := by decide
theorem test_wf_target : (Instr.registerWrite (.bar2 64 0) 4 0).wf = false := by decide
theorem test_wf_wake_lane : (Instr.wakeComplete [] [(0, [8704])]).wf = false := by decide
theorem test_wf_failed_stack : (Instr.wakeComplete [8] []).wf = false := by decide
/-- Its meaning stops at it by name. -/
theorem test_wf_stops : (match exec (.mainPass 32) State.reset with | .fault .noSuchUnit => true | _ => false) = true := by decide

/-! ### States that the witnesses use -/

/-- A dispatched command of tenant `t`. -/
def cmdOf (h op t : Nat) (p : List Nat) : Cmd :=
  { handle := h, order := 1, tenant := t, sq := 0, pkt := ⟨op, t, 0, 0x77, 0, 0, 0, p, t⟩, admitTime := 0, stage := .running, outcomes := [],
    value := 0, desc := none, binds := [], targets := [], rivals := [], silent := false }

/-- A tensor of 64 INT8 elements in space `sp`. -/
def vec64 (sp : Nat) : Desc := ⟨sp, 0, 1, 0, 0, [64, 0, 0, 0, 0, 0], [1, 0, 0, 0, 0, 0], true, 0⟩

def prof1 : Profile := ⟨8, 64, 64, 0, 4, 0, 2 ^ 30, 0, 65536, 65536, 2 ^ 20, 2 ^ 20, 4096, [(0, 2 ^ 20), (0, 0), (0, 0), (0, 0)]⟩

/-- A tenant with two descriptors, 1 in scratch and 2 in basin memory. -/
def ten1 : Tenant := ⟨prof1, false, false, [(1, ⟨vec64 4, 9, false⟩), (2, ⟨vec64 3, 9, false⟩)], [], 0, 0⟩

/-- A module in Run with every unit usable and tenants 0 and 1. -/
def up : State :=
  { State.reset with
    clockOn := true
    cap := ⟨true, 2, false, false, 0xFFFFFFFF, 0, 0xFF, 0xFFFFF, 0, 0xFFFFF, true, true, 1, 0, 1, BitVec.allOnes 4096, 0⟩
    tenants := [(0, { ten1 with profile := { prof1 with ctrBase := 0 } }), (1, ten1)]
    pm := { PowerSt.reset with state := .run, target := .run }
    henua := { State.reset.henua with up := true, bstate := 3 }
    board := { State.reset.board with power48 := true, perstN := true, pwrEn := true, pgood := true, step := 8, crsDone := true } }

/-- The same with one command. -/
def upCmd (c : Cmd) : State := { up with cmds := [c] }

/-- Commands whose statements ask for nothing but that the command is dispatched. -/
theorem test_running (op : Nat) (p : List Nat) (t : Nat) (s : State) : Running { s with cmds := [cmdOf 5 op t p] } 5 op (cmdOf 5 op t p) :=
  ⟨rfl, rfl, rfl, rfl⟩

/-! ### Witnesses: each statement's hypotheses are met -/

/-! ### Witnesses: each statement's hypotheses are met -/

/-- One ACLK short of the limit of a step; a peer without credit. -/
theorem test_hyps_IdleStepIsOneAclk : let s := { up with tiles := [(3, { Tile.reset with phase := .body, stepAclk := stepLimit - 2 })] }
    s.pending = [] ∧ s.held = [] ∧ ∀ e ∈ s.tiles, e.2.phase = .body → e.2.stepAclk + 1 < stepLimit := by decide

theorem test_hyps_EveryStepKeepsTheInvariants : (MemSafe up ∧ GenEven up ∧ Settled up) ∧ ∃ t, step up = .next t :=
  ⟨⟨by unfold MemSafe; decide, by unfold GenEven; decide, And.intro (fun w h => nomatch h) (fun c a h => nomatch h)⟩, ⟨_, rfl⟩⟩

theorem test_hyps_FusesChangeOnlyOneWay : (∀ p a b, up.pending.head? ≠ some (.ownerKeyProgram p a b)) ∧ (∀ p a b, up.pending.head? ≠ some (.keyRevoke p a b)) ∧
    (∀ p a, up.pending.head? ≠ some (.rollbackCommit p a)) ∧ ∃ t, step up = .next t :=
  ⟨by intros; simp [up, State.reset], by intros; simp [up, State.reset], by intros; simp [up, State.reset], ⟨_, rfl⟩⟩

theorem test_hyps_CommandsLeaveTheClockAndTheQueue : clockCommand .commandStart = false ∧ (∃ t, exec .commandStart up = .next t) ∧ ∃ t, step up = .next t :=
  ⟨rfl, ⟨_, rfl⟩, ⟨_, rfl⟩⟩

theorem test_hyps_NopAndGroupDeadlineEnd : Running (upCmd (cmdOf 5 0x0709 1 [])) 5 0x0709 (cmdOf 5 0x0709 1 []) ∧
    Running (upCmd (cmdOf 5 0x0105 1 [100, 0])) 5 0x0105 (cmdOf 5 0x0105 1 [100, 0]) := ⟨⟨rfl, rfl, rfl, rfl⟩, ⟨rfl, rfl, rfl, rfl⟩⟩

/-- A command that has executed. -/
def doneOf (h op t : Nat) (p : List Nat) : Cmd := { cmdOf h op t p with stage := .done }

/-- A function 1 with a submission queue 3 and a completion queue; also for the queue registers. -/
def upQueues (c : Cmd) : State :=
  { upCmd c with fns := [(1, { Fn.reset with cqCtrl := 0x80000006, sq0Ctrl := 0x80000004, sq0 := ⟨0x1000, 4, 0, 1, false, false⟩, queues := [(3, ⟨0, 4, 0, 2, false, false⟩)] })] }

theorem test_hyps_QueuesComeAndGo : let c := cmdOf 5 0x0104 1 [0, 3]
    Running (upQueues c) 5 0x0104 c ∧ 0 < cmdParam c 1 ∧ tabGet? (cmdParam c 1) (getFn (upQueues c) 1).queues = some ⟨0, 4, 0, 2, false, false⟩ ∧
    Running (upQueues (cmdOf 5 0x0103 1 [0, 4])) 5 0x0103 (cmdOf 5 0x0103 1 [0, 4]) ∧
    Completing (upQueues (doneOf 5 0x0103 1 [0, 4])) 5 0x0103 (doneOf 5 0x0103 1 [0, 4]) ∧
    Completing (upQueues (doneOf 5 0x0104 1 [0, 3])) 5 0x0104 (doneOf 5 0x0104 1 [0, 3]) := by unfold Running Completing; decide +kernel

/-- An earlier command of the same TAG that has not been dispatched. -/
def waitingCmd : Cmd := { cmdOf 4 0x0205 1 [1] with order := 0, stage := .admitted }

theorem test_hyps_CancelEndsWaitingCommands : let c := cmdOf 5 0x0106 1 [0x77]
    let s := { up with cmds := [waitingCmd, c] }
    let l := s.cmds.filter fun z => z.tenant == c.tenant && z.pkt.tag == cmdParam c 0 && decide (z.order < c.order) && cancellable z
    Running s 5 0x0106 c ∧ getCmd? s waitingCmd.handle = some waitingCmd ∧ waitingCmd.tenant = c.tenant ∧ waitingCmd.pkt.tag = cmdParam c 0 ∧
    waitingCmd.order < c.order ∧ waitingCmd.stage = .admitted ∧ waitingCmd.pkt.opcode ≠ 0x0102 ∧ l = [waitingCmd] ∧
    ∀ z ∈ l, z.stage = .admitted ∧ getCmd? s z.handle = some z := by unfold Running; decide +kernel

/-- A tenant profile: 8 descriptors, counters 128 to 191, one GiB of stack memory. -/
def profBytes : List Byte :=
  toLE 4 1 ++ toLE 4 8 ++ toLE 2 128 ++ toLE 2 64 ++ toLE 2 8 ++ toLE 2 4 ++ toLE 8 0 ++ toLE 8 (2 ^ 30) ++ toLE 8 0 ++ toLE 4 65536 ++ toLE 4 65536 ++ rep 80 0

def upHost (a : Nat) (bs : List Byte) (c : Cmd) : State :=
  { upCmd c with mem := { Memories.reset with host := (List.range bs.length).map fun i => (a + i, bs.getD i 0) } }

theorem test_hyps_TenantsComeAndGo_create : let c := cmdOf 5 0x0101 0 [0, 2]
    let d := doneOf 5 0x0101 0 [0, 1]
    let s := upHost 0 profBytes c
    let p := parseProfile (hostRead s (cmdParam c 0) 128)
    Running s 5 0x0101 c ∧ getTen? s (cmdParam c 1) = none ∧ (∀ x ∈ s.cmds, x.pkt.opcode = 0x0102 → cmdParam x 1 ≠ cmdParam c 1) ∧
    profileOk (hostRead s (cmdParam c 0) 128) = true ∧ rangesClear s p = true ∧ sumsOk s p = true ∧ contextLen p ≤ p.stackQuota ∧
    (placeContext (hostFetch c.tenant (cmdParam c 0) 128 s) (contextLen p)).isSome = true ∧
    Completing (upCmd d) 5 0x0101 d ∧ (getTen? (upCmd d) (cmdParam d 1)).isSome = true ∧
    (∀ x ∈ (upCmd d).cmds, x.handle ≠ 5 → x.pkt.opcode = 0x0101 → cmdParam x 1 ≠ cmdParam d 1) := by unfold Running Completing; decide +kernel

theorem test_hyps_TenantsComeAndGo_destroy : let c := cmdOf 5 0x0102 0 [0, 1]
    let d := doneOf 5 0x0102 0 [0, 1]
    let s := { up with cmds := [waitingCmd, c] }
    Running s 5 0x0102 c ∧ (∃ x ∈ s.cmds, x.tenant = cmdParam c 1) ∧ getCmd? s waitingCmd.handle = some waitingCmd ∧ waitingCmd.tenant = cmdParam c 1 ∧
    waitingCmd.stage = .admitted ∧ waitingCmd.pkt.opcode ≠ 0x0102 ∧
    Running (upCmd c) 5 0x0102 c ∧ (∀ x ∈ (upCmd c).cmds, x.tenant ≠ cmdParam c 1) ∧ (∀ o ∈ (upCmd c).fops, o.2.tenant ≠ cmdParam c 1) ∧
    Completing (upCmd d) 5 0x0102 d := by unfold Running Completing; decide +kernel

/-- A run of command 9, on tiles. -/
def run9 (st : RunState) : Run := ⟨1, 9, 64, [], [], st, [], [], [], [], [], 0, false, [], [0], 2, [], false⟩

theorem test_hyps_PauseHoldsAndResumeLifts : let c := cmdOf 5 0x0107 0 [0, 1]
    let s := { upCmd c with runs := [(9, run9 .running)] }
    getTen? (upCmd c) (cmdParam c 1) = some ten1 ∧ Running (upCmd c) 5 0x0107 c ∧
    (∀ r ∈ (upCmd c).runs, r.2.tenant = cmdParam c 1 → r.2.state ≠ .running ∧ r.2.state ≠ .pausing) ∧
    getTen? s (cmdParam c 1) = some ten1 ∧ Running s 5 0x0107 c ∧ (∃ r ∈ s.runs, r.2.tenant = cmdParam c 1 ∧ (r.2.state = .running ∨ r.2.state = .pausing)) ∧
    getRun? s 9 = some (run9 .running) ∧ Running (upCmd (cmdOf 5 0x0108 0 [0, 1])) 5 0x0108 (cmdOf 5 0x0108 0 [0, 1]) := by unfold Running; decide +kernel

theorem test_hyps_DescriptorsComeAndGo : let c := { doneOf 5 0x0203 1 [0, 9, 3] with desc := some (vec64 4) }
    let a : Alloc := ⟨1, 4, 0, 0, 4096, none, false, none, false, false⟩
    let s := { upCmd c with allocs := [(9, a)] }
    let d := cmdOf 5 0x0204 1 [0, 0, 1]
    Running (upCmd (cmdOf 5 0x0203 1 [])) 5 0x0203 (cmdOf 5 0x0203 1 []) ∧ Completing s 5 0x0203 c ∧ c.desc = some (vec64 4) ∧
    tabGet? (namedAlloc c) s.allocs = some a ∧ getTen? s c.tenant = some ten1 ∧
    Running (upCmd d) 5 0x0204 d ∧ slotWaits (upCmd d) d [(d.tenant, cmdParam d 2)] = false ∧
    Completing (upCmd (doneOf 5 0x0204 1 [0, 0, 1])) 5 0x0204 (doneOf 5 0x0204 1 [0, 0, 1]) ∧ getTen? (upCmd d) 1 = some ten1 := by
  unfold Running Completing; decide +kernel

theorem test_hyps_AllocationsTakeAndFreeRoom : let c := cmdOf 5 0x0201 1 [100, 4]
    let s := upCmd c
    let f := cmdOf 5 0x0202 1 [9]
    Running s 5 0x0201 c ∧ (cmdParam c 1 % 16 ≤ 2 → cmdParam c 1 / 16 % 32 = 0) ∧
    quotaOk s c.tenant (cmdParam c 1 % 16) (cmdParam c 1 / 16 % 32) (allocLen (cmdParam c 1 % 16) (cmdParam c 0)) = true ∧
    (placeAlloc s c (cmdParam c 1 % 16) (cmdParam c 1 / 16 % 32) (allocLen (cmdParam c 1 % 16) (cmdParam c 0))).isSome = true ∧
    Running (upCmd f) 5 0x0202 f ∧ slotWaits (upCmd f) f (descsOf (upCmd f) (cmdParam f 0)) = false ∧
    Completing (upCmd (doneOf 5 0x0202 1 [9])) 5 0x0202 (doneOf 5 0x0202 1 [9]) := by unfold Running Completing; decide +kernel

/-- Tenant 1 with tensors of 64 bytes in scratchpad 0 (1), basin (2) and stack memory (3), a list of one index (4), an empty tensor
(5), one that overlaps the first (6), 32 bytes of stack memory, a block with padding (7), and an adapter's BF16 source of two
elements (8) with its column scales (9), a page pool (10), and a square tensor (11). -/
def tens : Tenant :=
  { ten1 with descs := [(1, ⟨vec64 4, 9, false⟩), (2, ⟨vec64 3, 9, false⟩), (3, ⟨vec64 2, 9, false⟩), (4, ⟨⟨3, 0, 1, 6, 4096, [1], [1], true, 0⟩, 9, false⟩),
                        (5, ⟨⟨3, 0, 1, 6, 4096, [0], [1], true, 0⟩, 9, false⟩), (6, ⟨{ vec64 4 with size := [128] }, 9, false⟩),
                        (7, ⟨{ vec64 2 with size := [32] }, 9, false⟩), (8, ⟨⟨3, 0, 1, 4, 0, [2], [1], true, 0⟩, 9, false⟩),
                        (9, ⟨⟨3, 0, 1, 5, 64, [1], [1], true, 0⟩, 9, false⟩), (10, ⟨{ vec64 2 with fmt := 9 }, 9, false⟩),
                        (11, ⟨{ vec64 4 with rank := 2, size := [2, 2], stride := [1, 64] }, 9, false⟩)] }

/-- The first granule of stack memory is mapped. -/
def upMove (c : Cmd) : State := { upCmd c with tenants := [(1, tens)], granules := [(0, ⟨0, 0, 0, [], false⟩)] }

/-- Copy from descriptor `a` to `b`, any engine, dimensions in order. -/
def copyCmd (op a b : Nat) : Cmd := cmdOf 5 op 1 [2 ^ 32 * b + a, 2 ^ 32 * 0xFF + 0o543210, 0, 0]

theorem test_hyps_DataMoversMoveDataOnly_fill : let c (n : Nat) := cmdOf 5 0x0205 1 [n, 0, 0, 0, 7, 0]
    let d := cmdDesc (upMove (c 1)) (c 1) 1
    let a := wrPieces d (patternSlots 7 0 d) (dPieces d) (Acc.on 1 1 (upMove (c 1)))
    let ps (n : Nat) := (dPieces (cmdDesc (upMove (c n)) (c n) n)).filter fun l => !wholePiece l
    let x (n : Nat) := wrPieces (cmdDesc (upMove (c n)) (c n) n) (patternSlots 7 0 (cmdDesc (upMove (c n)) (c n) n)) (ps n) (Acc.on 1 1 (upMove (c n)))
    (∀ n, n ∈ [1, 3, 7] → Running (upMove (c n)) 5 0x0205 (c n) ∧ Alone (upMove (c n)) (c n) ∧ (upMove (c n)).held = []) ∧
    d.space = 4 ∧ onTest (upMove (c 1)) [d] = false ∧ sluiceUsable (upMove (c 1)) (4 * dieOfTile d.inst + 3) = true ∧ stSharedPoisoned ∉ a.outs ∧
    (∀ n, n ∈ [3, 7] → (cmdDesc (upMove (c n)) (c n) n).space = 2 ∧ blksWait (upMove (c n)) ((ps n).filterMap fun l => physBlk (upMove (c n)) l.addr) = false ∧
      stSharedPoisoned ∉ (x n).outs) ∧
    (ps 7).length = (dPieces (cmdDesc (upMove (c 7)) (c 7) 7)).length ∧ (ps 3).length ≠ (dPieces (cmdDesc (upMove (c 3)) (c 3) 3)).length := by
  unfold Running Alone; decide +kernel

theorem test_hyps_DataMoversMoveDataOnly_copy : let c (a b : Nat) := copyCmd 0x0206 a b
    let s (a b : Nat) := upMove (c a b)
    let d (n : Nat) := cmdDesc (s 1 2) (c 1 2) n
    let t := { s 1 2 with cap := Cap.reset }
    (∀ e, e ∈ [(1, 2), (1, 6), (1, 1)] → Running (s e.1 e.2) 5 0x0206 (c e.1 e.2) ∧ (cmdParam (c e.1 e.2) 1).testBit 24 = false) ∧
    d 1 ≠ d 2 ∧ d 1 ≠ d 6 ∧ CopyGoes (s 1 2) (c 1 2) (d 1) (d 2) default ∧ CopyGoes (s 1 6) (c 1 6) (d 1) (d 6) default ∧
    copyEngine (s 1 2) (c 1 2) = some 0 ∧ copyEngine (s 1 6) (c 1 6) = some 0 ∧ footprintsMeet (d 1) (d 2) = false ∧ footprintsMeet (d 1) (d 6) = true ∧
    stSharedPoisoned ∉ (wrPieces (d 2) (fun n y => let r := rdEl (d 1) (permuted (d 1) (d 2) (cmdParam (c 1 2) 1 % 2 ^ 18) n) y; (some r.1, r.2)) (dPieces (d 2))
      (Acc.on 1 1 (s 1 2))).outs ∧
    (∀ k, k < 6 → permAt (cmdParam (c 1 1) 1 % 2 ^ 18) k = k) ∧ sluiceTurn (s 1 1) 5 = true ∧
    Running t 5 0x0206 (c 1 2) ∧ sluiceTurn t 5 = true ∧ onTest t [d 1, d 2, default] = false ∧ dEmpty (d 1) = false ∧ dEmpty (d 2) = false ∧
    copyEngine t (c 1 2) = none := by
  unfold Running CopyGoes Alone; decide +kernel

theorem test_hyps_DataMoversMoveDataOnly_inPlace : let c := cmdOf 5 0x0206 1 [2 ^ 32 * 11 + 11, 2 ^ 24, 0, 0]
    let b := cmdDesc (upMove c) c (hi32 (cmdParam c 0))
    Running (upMove c) 5 0x0206 c ∧ (cmdParam c 1).testBit 24 = true ∧ onTest (upMove c) [b] = false ∧ Alone (upMove c) c ∧
    stSharedPoisoned ∉ (transposeInPlace b (Acc.on c.tenant 1 (upMove c))).2.outs := by unfold Running Alone; decide +kernel

theorem test_hyps_DataMoversMoveDataOnly_indexed : let c (ix : Nat) := cmdOf 5 0x0207 1 [2 ^ 32 * 2 + 1, ix, 0, 0]
    let s := upMove (c 4)
    let d (n : Nat) := cmdDesc s (c 4) n
    let l := indexList (d 4) (itemCount (d 1)) (Acc.on 1 1 s)
    let from_ := indexedFrom false l.1 (itemSize (d 2))
    let x := wrPieces (d 2) (fun n y => match from_ n with
      | none => (none, y)
      | some m => let r := rdEl (d 1) m y; (some r.1, r.2)) (indexedPieces (d 2) from_) l.2
    Running s 5 0x0207 (c 4) ∧ (cmdParam (c 4) 1).testBit 32 = false ∧ dEmpty (d 4) = false ∧ CopyGoes s (c 4) (d 1) (d 2) (d 4) ∧
    copyEngine s (c 4) = some 0 ∧ footprintsMeet (d 1) (d 2) = false ∧ stSharedPoisoned ∉ x.outs ∧
    Running (upMove (c 5)) 5 0x0207 (c 5) ∧ dEmpty (cmdDesc (upMove (c 5)) (c 5) 5) = true ∧ sluiceTurn (upMove (c 5)) 5 = true := by
  unfold Running CopyGoes Alone; decide +kernel

theorem test_hyps_DataMoversMoveDataOnly_frame : let f : SlotFn := fun _ a => (some (7, false), a)
    (∀ n a, (f n a).2.s.mem.basin = a.s.mem.basin ∧ (f n a).2.s.mem.scratch = a.s.mem.scratch ∧ (f n a).2.s.mem.sdata = a.s.mem.sdata) ∧
    (∀ l ∈ dPieces (vec64 4), ¬((vec64 4).space = 4 ∧ (vec64 4).inst = 0 ∧ l.addr / 64 = 64 / 64)) ∧ 64 < 2 ^ 48 ∧
    (∀ l ∈ dPieces (vec64 4), l.addr % 64 = 0 ∧ l.addr < 2 ^ 48) :=
  ⟨fun _ _ => ⟨rfl, rfl, rfl⟩, by decide +kernel⟩

/-- A page directory of one page of 64 bytes, its pool being descriptor 10 and its free stack descriptor 4. -/
def dirBytes : List Byte := toLE 4 0 ++ toLE 4 1 ++ toLE 4 64 ++ toLE 4 10 ++ toLE 4 4 ++ rep 44 0

/-- The directory at the start of basin memory 0 is descriptor 12, a list of one page descriptor 4; descriptor 1 holds no directory. -/
def upServe (op d : Nat) : State :=
  { upMove (cmdOf 5 op 1 [2 ^ 32 * 4 + d, 1, 10]) with
    tenants := [(1, { tens with descs := tens.descs ++ [(12, ⟨{ vec64 3 with size := [192] }, 9, false⟩)] })],
    mem := { Memories.reset with basin := (List.range 64).map fun i => (i, dirBytes.getD i 0) } }

def dirOf (op d : Nat) : Option PageDir × Acc := readDir 1 (cmdDesc (upServe op d) (cmdOf 5 op 1 [2 ^ 32 * 4 + d, 1, 10]) d) (Acc.held 1 1 (upServe op d))

theorem test_hyps_ServingCommandsMoveDataOnly_pages : ∀ op, op ∈ [0x0401, 0x0402, 0x0403] → ∀ d, d ∈ [1, 12] →
    Running (upServe op d) 5 op (cmdOf 5 op 1 [2 ^ 32 * 4 + d, 1, 10]) ∧ Served (upServe op d) (cmdOf 5 op 1 [2 ^ 32 * 4 + d, 1, 10]) ∧
    stSharedPoisoned ∉ (dirOf op d).2.outs ∧ ((dirOf op d).1.isSome = true ↔ d = 12) := by unfold Running Served; decide +kernel

/-- The list of one page, run by each of the three rules. -/
theorem test_hyps_ServingCommandsMoveDataOnly_entries : let l := ((tabGet? 4 tens.descs).map (·.desc)).getD default
    ((dirOf 0x0401 12).1.map fun d => (pagesGo (shareOne d) l 1 0 (0, (dirOf 0x0401 12).2)).2.outs.contains stSharedPoisoned) = some false ∧
    ((dirOf 0x0402 12).1.map fun d => (pagesGo (releaseOne d l) l 1 0 (0, (dirOf 0x0402 12).2)).2.outs.contains stSharedPoisoned) = some false ∧
    ((dirOf 0x0403 12).1.map fun d => (pagesGo (cowOne d l (vec64 2)) l 1 0 (0, (dirOf 0x0403 12).2)).2.outs.contains stSharedPoisoned) = some false := by decide +kernel

/-- ATTEND over a sequence table of one row, which is inactive; also without a tile. -/
theorem test_hyps_ServingCommandsMoveDataOnly_attend : let a := cmdOf 5 0x0404 1 [2 ^ 32 * 1 + 2, 2 ^ 48 * 1 + 2 ^ 32 * 1 + 1]
    let n := { upMove a with cap := Cap.reset }
    Running (upMove a) 5 0x0404 a ∧ Served (upMove a) a ∧ anyTile (upMove a) = true ∧ cmdDesc (upMove a) a (lo32 (cmdParam a 0)) = vec64 3 ∧
    cmdDesc (upMove a) a (hi32 (cmdParam a 0)) = vec64 4 ∧ 64 * (cmdParam a 1 / 2 ^ 48 % 2 ^ 16) ≤ dCount (vec64 3) ∧
    stSharedPoisoned ∉ (rowsGo 1 (vec64 3) (attendRow 1 [] (vec64 4) (vec64 4) 1) 1 0 (0, Acc.held 1 1 (upMove a))).2.outs ∧
    anyTile n = false ∧ Running n 5 0x0404 a ∧ Served n a := by unfold Running Served; decide +kernel

theorem test_hyps_ServingCommandsMoveDataOnly_verify : let v := cmdOf 5 0x0405 1 [2 ^ 32 * 1 + 2, 1, 2 ^ 16 * 1 + 2 ^ 8 * 1]
    let n := { upMove v with cap := Cap.reset }
    Running (upMove v) 5 0x0405 v ∧ Served (upMove v) v ∧ anyTile (upMove v) = true ∧ 64 * (cmdParam v 2 / 2 ^ 16 % 2 ^ 16) ≤ dCount (vec64 3) ∧
    stSharedPoisoned ∉ (rowsGo 1 (vec64 3) (verifyRow 1 [] (vec64 3) (vec64 4) (vec64 4) 1 false false) 1 0 (0, Acc.held 1 1 (upMove v))).2.outs ∧
    anyTile n = false ∧ Running n 5 0x0405 v ∧ Served n v := by unfold Running Served; decide +kernel

/-- EVICT, dropping pages and parking them. -/
theorem test_hyps_ServingCommandsMoveDataOnly_evict : ∀ p, p ∈ [2 ^ 32 * 1 + 100, 100] →
    Running (upMove (cmdOf 5 0x0406 1 [2, p])) 5 0x0406 (cmdOf 5 0x0406 1 [2, p]) ∧ Served (upMove (cmdOf 5 0x0406 1 [2, p])) (cmdOf 5 0x0406 1 [2, p]) ∧
    farMismatch (cmdOf 5 0x0406 1 [2, p]) (vec64 3) 1 (Acc.held 1 1 (upMove (cmdOf 5 0x0406 1 [2, p]))) = false ∧
    stSharedPoisoned ∉ (rowsGo 1 (vec64 3) (evictRow (vec64 3) 100 (p.testBit 32)) 1 0 (0, Acc.held 1 1 (upMove (cmdOf 5 0x0406 1 [2, p])))).2.outs := by
  unfold Running Served; decide +kernel

theorem test_hyps_AdapterSlotsComeAndGo : let c := cmdOf 5 0x0407 1 [2 ^ 32 * 9 + 8, 2 ^ 16 * 1 + 3]
    let s := upMove c
    let src := cmdDesc s c 8
    let col := cmdDesc s c 9
    Running s 5 0x0407 c ∧ Served s c ∧ lo32 (cmdParam c 0) = 8 ∧ hi32 (cmdParam c 0) = 9 ∧ cmdParam c 1 / 2 ^ 16 % 256 = 1 ∧ dCount src / 1 - dCount col = 1 ∧
    stSharedPoisoned ∉ (wrPieces src (fun e a =>
      if e < 1 * 1 then (none, a)
      else
        let sc := rdEl col ((e - 1 * 1) / (512 * 1) * 512 + (e - 1 * 1) % 512) a
        let b := rdEl src e sc.2
        (some (encB16 (dec32 (fmul (widen 4 b.1.1) (frecip sc.1.1))), b.1.2 || sc.1.2), b.2)) (dPieces src) (Acc.start 1 s)).outs ∧
    Running (upMove (cmdOf 5 0x0408 1 [0, 3])) 5 0x0408 (cmdOf 5 0x0408 1 [0, 3]) := by unfold Running Served; decide +kernel

theorem test_hyps_BundlesComeRunAndGo : let c := cmdOf 5 0x0303 1 [9]
    let s := { upCmd c with runs := [(5, run9 .ended)] }
    let l := cmdOf 5 0x0301 1 [2]
    let u := cmdOf 5 0x0302 1 [9]
    Running s 5 0x0303 c ∧ getRun? s 5 = some (run9 .ended) ∧ (run9 .ended).state = .ended ∧ effectsOut s 5 = false ∧
    Running (upMove l) 5 0x0301 l ∧ Running (upCmd u) 5 0x0302 u ∧ runsLive (upCmd u) (cmdParam u 0) = false ∧
    Completing (upCmd (doneOf 5 0x0302 1 [9])) 5 0x0302 (doneOf 5 0x0302 1 [9]) := by unfold Running Completing; decide +kernel

theorem test_hyps_SignalIsOneSettledUpdate : let c := cmdOf 5 0x0501 1 [3, 7]
    let p := cmdOf 5 0x0706 0 [3 * 2 ^ 16 + 1, 9]
    up.ctrs.broken.contains 67 = false ∧ Running (upCmd c) 5 0x0501 c ∧ physCtr (upCmd c) c.tenant (cmdParam c 0 % 2 ^ 16) = some 67 ∧ physCtr up 1 3 = some 67 ∧
    (∀ op, op ∈ [0x0502, 0x0503] → Running (upCmd (cmdOf 5 op 1 [3, 6])) 5 op (cmdOf 5 op 1 [3, 6]) ∧
      physCtr (upCmd (cmdOf 5 op 1 [3, 6])) 1 (cmdParam (cmdOf 5 op 1 [3, 6]) 0 % 2 ^ 16) = some 67) ∧ (∀ w ∈ up.ctrs.waits, w.owner ≠ .cmd 5) ∧
    Running (upCmd p) 5 0x0706 p ∧ namedCtr (upCmd p) (cmdParam p 0 % 64) (cmdParam p 0 / 2 ^ 16 % 2 ^ 16) = some 67 := by
  unfold Running; decide

theorem test_hyps_CounterReadsAndPokes : let r := cmdOf 5 0x0504 1 [3]
    let p := cmdOf 5 0x0705 0 [3 * 2 ^ 16 + 1]
    let q := cmdOf 5 0x0706 0 [3 * 2 ^ 16 + 1, 9]
    (upCmd r).ctrs.broken.contains 67 = false ∧ Running (upCmd r) 5 0x0504 r ∧ physCtr (upCmd r) r.tenant (cmdParam r 0 % 2 ^ 16) = some 67 ∧
    Running (upCmd p) 5 0x0705 p ∧ namedCtr (upCmd p) (cmdParam p 0 % 64) (cmdParam p 0 / 2 ^ 16 % 2 ^ 16) = some 67 ∧
    Running (upCmd q) 5 0x0706 q ∧ getTen? (upCmd q) (cmdParam q 0 % 64) = some ten1 := by unfold Running; decide

/-- A counter of 5 with no waits, and waits for exactly its value and for one more. -/
theorem test_hyps_CounterWaitsEndOrWait : let s (c : Cmd) := { upCmd c with ctrs := { up.ctrs with vals := [(67, 5)] } }
    (∀ op, op ∈ [0x0502, 0x0503] → ∀ n, n ∈ [5, 6] → Running (s (cmdOf 5 op 1 [3, n])) 5 op (cmdOf 5 op 1 [3, n]) ∧
      physCtr (s (cmdOf 5 op 1 [3, n])) 1 (cmdParam (cmdOf 5 op 1 [3, n]) 0 % 2 ^ 16) = some 67) ∧
    (s waitingCmd).ctrs.broken.contains 67 = false ∧ (∀ w ∈ (s waitingCmd).ctrs.waits, w.owner ≠ .cmd 5) ∧ headTaker 67 (s waitingCmd).ctrs.waits = none ∧
    (ctrVal (s waitingCmd) 67).toNat = 5 := by unfold Running; decide
/-- A FOP_FILL of the 64 elements of a stack tensor. -/
def fill64 : FurrowOp :=
  ⟨⟨2, 0, 0, 0, 0, 0, some (vec64 2), none, none, none, none, none, 0, 0, none, 0⟩, 1, none, none, 0, false, [], [], 0, false, false, [], []⟩

/-- Operation 7 in stack 0, with a slice of unit pair 3 of die 2 open. -/
def upFop : State :=
  { up with fops := [(7, fill64)], stks := [(0, { Stack.reset with slices := [⟨2, 3, 7, 67, []⟩], debt := [(64 * 2 + 6, 1)] })],
            granules := [(0, ⟨0, 0, 0, [], false⟩)] }

/-- Eight blocks of stack memory that hold zeros. -/
def zeroed : State := { upFop with mem := { Memories.reset with stack := (List.range 512).map fun i => (i, 0) } }

/-- `n` elements of stack memory at `base`. -/
def stackVec (fmt base n : Nat) : Desc := { vec64 2 with fmt := fmt, base := base, size := [n] }

/-- Operation 7 of code `op` over them, every pair with work of it having begun. -/
def begun (op : Nat) : State :=
  let p : FopParams :=
    { fill64.params with
      op := op, sub := 1, vecLen := 1, srcA := some (stackVec 6 256 16), srcB := some (stackVec 6 320 16), index := some (stackVec 6 64 1), segment := some (stackVec 6 128 2), result := some (stackVec 7 192 1),
      dst := some (stackVec 6 0 16) }
  { zeroed with fops := [(7, { fill64 with params := p, touched := (workUnits zeroed p).map fun u => (u / 512, u / 32 % 16, u % 32) })] }

theorem test_hyps_FurrowOperationsReachTheStacksAndWriteOnce_furrow : let c := cmdOf 5 0x0210 1 [2 * 2 ^ 0, 3]
    Running (upMove c) 5 0x0210 c ∧ (∀ o ∈ (upMove c).fops, o.2.source ≠ some 5) ∧
    (∀ k ∈ fopStacks (upMove c) (fopOfPacket (undying c.tenant (upMove c)) c.tenant c.pkt), (getStk (upMove c) k).noFurrow = false) := by
  unfold Running; decide +kernel

theorem test_hyps_FurrowOperationsReachTheStacksAndWriteOnce_write : furrowRow 7 ≠ [] ∧ ∀ e ∈ furrowRow 7, getFop? (begun e.1) 7 = (begun e.1).fops.head?.map (·.2) ∧
    ∀ o ∈ (begun e.1).fops.map (·.2), o.params.op = e.1 ∧ o.computed = false ∧ o.stopped = false ∧ fopBegun (begun e.1) o = true ∧ o.rivals = [] ∧
      (∀ f ∈ (begun e.1).fops, f.1 = 7) ∧ (begun e.1).cmds = [] ∧ isFill (begun e.1) o = false ∧
      stSharedPoisoned ∉ (fopGo o.params { Acc.on o.tenant 3 (begun e.1) with mark := o.marked }).2.outs := by decide +kernel

/-- The FOP_FILL of a FILL command, which its last slice ends. -/
theorem test_hyps_FurrowOperationsReachTheStacksAndWriteOnce_fill : let c := cmdOf 5 0x0205 1 [3, 0, 0, 0, 7, 0]
    let o := { fill64 with source := some 5, touched := (workUnits upFop fill64.params).map fun u => (u / 512, u / 32 % 16, u % 32) }
    let s := { upMove c with fops := [(7, o)] }
    let r := fillPartGo o.params { Acc.on o.tenant 3 s with mark := o.marked }
    (∀ x ∈ s.cmds, x.stage = .admitted ∨ o.source = some x.handle ∨ (x.pkt.opcode ≠ 0x0205 ∧ sluiceBound x.pkt = false)) ∧ fopBegun s o = true ∧
    isFill s o = true ∧ stSharedPoisoned ∉ r.outs ∧ fopSliced { r.s with fops := s.fops } 7 = false ∧ o.source = some 5 ∧ getCmd? s 5 = some c ∧
    c.stage = .running := by decide +kernel

/-- A packet of tenant 1, TAG 0x77, with P1 of GROUP_DEADLINE. -/
def nopBytes (op : Nat) : List Byte := toLE 2 op ++ toLE 1 1 ++ toLE 1 0 ++ toLE 4 0x77 ++ rep 16 0 ++ toLE 8 (if op = 0x0105 then 1 else 0) ++ rep 32 0

/-- Function 1 with its completion queue and an entry in queue 0, at 0x1000 of host memory. -/
def upFetch (op : Nat) : State :=
  { upHost 0x1000 (nopBytes op) (cmdOf 5 0x0709 1 []) with cmds := [], fns := (upQueues waitingCmd).fns }

/-- No entry; a refused packet, a NOP and a GROUP_DEADLINE. -/
theorem test_hyps_AdmissionAnswersOnePacket : let x : SubQ := ⟨0x1000, 4, 0, 1, false, false⟩
    let v (op : Nat) := verdict (fetched (upFetch op) 1 0 x) 1 (parsePacket (hostRead (upFetch op) (x.base + 64 * x.head) 64))
    fetchNext up = none ∧ (∀ op, op ∈ [0x0709, 0x0105, 0xFFFF] → fetchNext (upFetch op) = some (1, 0) ∧ subqOf (upFetch op) 1 0 = some x) ∧
    v 0x0709 = none ∧ v 0x0105 = none ∧ v 0xFFFF = some (stBadOpcode, 2) ∧
    (parsePacket (hostRead (upFetch 0x0105) (x.base + 64 * x.head) 64)).opcode = 0x0105 ∧ getTen? (upFetch 0x0105) 1 = some ten1 := by decide +kernel

theorem test_hyps_StartTakesTheLowestRank : let c := { cmdOf 5 0x0709 1 [] with stage := .admitted }
    let r := { cmdOf 5 0x0303 1 [9] with stage := .admitted }
    let k := { copyCmd 0x0206 1 2 with stage := .admitted }
    nextStart (upCmd c) = some c ∧ c.pkt.opcode ≠ 0x0303 ∧ nextStart (upCmd r) = some r ∧ sluiceBound c.pkt = false ∧
    nextStart (upMove k) = some k ∧ sluiceBound k.pkt = true ∧ sluiceFor (upMove k) k = some 0 := by decide +kernel

/-- A NOP that has executed, and one that its cancellation has reached. -/
theorem test_hyps_CompletionWritesOneRecord : let c := doneOf 5 0x0709 1 []
    let d := { c with outcomes := [stCancelled] }
    getCmd? (upQueues c) 5 = some c ∧ mayComplete (upQueues c) c = true ∧ bitOf c.pkt.flags 0 = false ∧ c.silent = false ∧ c.pkt.opcode ≠ 0x0703 ∧
    (getFn (completed c (upQueues c)) c.tenant).cqBad = false ∧ signalsOn (statusOf (finalOutcomes (upQueues c) c)) = true ∧
    getCmd? (upQueues d) 5 = some d ∧ mayComplete (upQueues d) d = true ∧ (getFn (undone d (upQueues d)) d.tenant).cqBad = false ∧
    signalsOn (statusOf (finalOutcomes (upQueues d) d)) = false := by decide

theorem test_hyps_QueueRegistersMoveTheirRings : let s := upQueues waitingCmd
    let w := { s with held := [⟨.winWrite 1 0 [], 0, []⟩] }
    sq0Enabled (getFn s 1) = true ∧ (getFn s 1).sq0 = ⟨0x1000, 4, 0, 1, false, false⟩ ∧ tabGet? 3 (getFn s 1).queues = some ⟨0, 4, 0, 2, false, false⟩ ∧
    behindWrite s.held 1 = false ∧ behindWrite w.held 1 = true ∧ 63 % 65536 < cqSize (getFn s 1) ∧ cqSize (getFn s 1) ≤ 64 % 65536 ∧
    cqEnabled (getFn s 1) = true ∧ cqEnabled (getFn s 2) = false ∧ sq0Enabled (getFn s 2) = false ∧ bitOf (0x80000004#32).toNat 31 = true := by decide

/-- Function 1 with a moderation timer of vector 4 running, and a completion queue without room. -/
def upIrq : State :=
  { up with fns := [(1, { Fn.reset with cqCtrl := 0x80000006, cqTail := 63, modTimer := [(4, true)], modCount := [(4, 2)], msixEnable := true })] }

theorem test_hyps_InterruptTimersSpeakOnce : tabGetD false 5 (getFn upIrq 1).modTimer = false ∧ tabGetD false 4 (getFn upIrq 1).modTimer = true ∧
    tenantThere upIrq 1 = true ∧ cqInUse (getFn upIrq 1) = true ∧ cqFree upIrq 1 < 2 ∧ (getFn upIrq 1).cqStalled = false := by decide

theorem test_hyps_DevTimeReadsAreConsistent : (getFn { up with fns := [(1, { Fn.reset with devLatch := some 7 })] } 1).devLatch = some 7 ∧ (getFn up 1).devLatch = none := by decide

/-- Latched and unlatched halves, a word with its top bits, the last stack. -/
theorem test_hyps_ReadsClearOnlyReadClearFields : let s := { up with fns := [(0, { Fn.reset with rcLatch := [(0x30F60, 3)] }), (1, { Fn.reset with rcLatch := [(0x410, 9)], viol := some (64, true) })] }
    tabGet? 0x410 (getFn s 1).rcLatch = some 9 ∧ tabGet? 0x410 (getFn s 0).rcLatch = none ∧ 0x30F60 = 0x30000 + 0x200 * 7 + 0x160 ∧
    tabGet? 0x30F60 (getFn s 0).rcLatch = some 3 ∧ tabGet? 0x30000 (getFn s 0).rcLatch = none ∧ ueFirstWord (getStk s 7) < 2 ^ 64 ∧
    aligned 0x412 4 = false ∧ aligned 0x410 2 = false ∧ 0x8FFC % 4 = 0 ∧ 0x8FFC < 0x9000 ∧ s.board.crsDone = true := by decide

theorem test_hyps_RegisterWritesFollowTheFieldType : (63 < 64 ∧ 7 < 8) ∧ (0x7FFC % 4 = 0 ∧ 0x1000 ≤ 0x7FFC ∧ 0x7FFC < 0x8000) ∧ aligned 0x41E 4 = false ∧
    up.board.power48 = true := by decide

/-! ### Memories, slices, links and the window -/

/-- Stack memory that holds a word of 0x5A at physical block 3 of stack 0, with these symbol errors, poisoned or not. -/
def upWord (poison : List Nat) (flips : Tab (BitVec 576)) (x : Stack) : State :=
  { up with mem := { Memories.reset with stack := (List.range 64).map (fun i => (64 * 3 + i, 0x5A)), poisonStack := poison, flips := flips }, stks := [(0, x)],
            granules := [(0, ⟨0, 0, 0, [], false⟩)] }

/-- Far memory is left out: whether the expander returns poison there is not known. -/
theorem test_hyps_BlocksReadBackAsWritten : (∀ sp, sp ≤ 5 → sp ≠ 1 → unreachable (upWord [] [] Stack.reset) sp 192 = false) ∧
    (∀ b, physBlk (upWord [] [] Stack.reset) 192 = some b → (getStk (upWord [] [] Stack.reset) (stackOfBlk b)).flipArmed = false) ∧ (rep 64 1).length = 64 := by
  have h : physBlk (upWord [] [] Stack.reset) 192 = some 3 := by decide +kernel
  exact ⟨by decide +kernel, fun b e => by rw [h] at e; cases e; decide +kernel, rfl⟩

theorem test_hyps_StackAccessesStoreMergeAndCount_write : localBlk 0 192 = 3 ∧ blkReady up (localBlk 0 192) = true ∧ mergeFind up (localBlk 0 192) = none ∧
    accessWaits up (.write 0 192 (rep 64 1) 1 2) = false ∧ accessWaits up (.write 0 192 (rep 64 1) (BitVec.allOnes 64) 2) = false ∧
    (getStk up 0).flipArmed = false ∧ (getStk up 0).merge.length < 64 ∧ (1#64) ≠ BitVec.allOnes 64 ∧ (1#64) ≠ 0 := by decide +kernel

theorem test_hyps_StackAccessesStoreMergeAndCount_read : ∀ e ∈ [(upWord [] [] Stack.reset, 0), (upWord [] [(3, 0x10)] Stack.reset, 1), (upWord [3] [] Stack.reset, 3),
      (upWord [] [(3, 0x110)] Stack.reset, 2)],
    blkReady e.1 (localBlk 0 192) = true ∧ mergeFind e.1 (localBlk 0 192) = none ∧ accessWaits e.1 (.read 0 192 0) = false ∧
    (findWord e.1 (localBlk 0 192)).kind = e.2 ∧ (modOfBlk e.1 (localBlk 0 192)).bind (mirrorOf e.1) = none := by decide +kernel

/-- A merge entry of the word's first byte; a correction and a rewrite owed to it; a bucket that is not empty. -/
def busyStk : Stack := { Stack.reset with merge := [⟨3, rep 64 1, 1, 1⟩], writeBacks := [3], uePending := [3], ceLevel := 2 }

theorem test_hyps_ControllersRewriteTheirWords : let s := upWord [] [] busyStk
    3 / 2 ^ 31 = 0 ∧ blkReady s 3 = true ∧ (getStk s 0).flipArmed = false ∧ mergeFind s 3 = some ⟨3, rep 64 1, 1, 1⟩ ∧ (1#64) ≠ BitVec.allOnes 64 ∧
    (findWord s 3).kind = 0 ∧ mergeFind s 4 = none ∧ 3 ∈ (getStk s 0).writeBacks ∧ 3 ∈ (getStk s 0).uePending ∧ s.pm.state ≠ .hold ∧ (getStk s 0).ceLevel ≠ 0 ∧
    patrolNext (unitsUsed s 0) (getStk s 0).patrolRow = some (0, false) ∧ (getStk s 0).patrolPause = false ∧ (∀ b ∈ rowBlks 0 0, blkReady s b = true) ∧
    behindPair s (rowBlks 0 0) = false := by
  decide +kernel

theorem test_hyps_SlicesOpenCloseAndOwe_start : let s := { upFop with stks := [], fops := [(7, { fill64 with params := { fill64.params with srcA := some (vec64 2) } })] }
    (getFop? s 7).isSome = true ∧ workerOf s 0 0 0 = some 0 ∧ stackUsable s 0 = true ∧ turnOk s 0 7 0 0 = true := by decide +kernel

/-- Operation 7 with this slice open in stack 0, whose bank 6 of die 2 owes four refreshes. -/
def upSlice (o : FurrowOp) (h : List Held) : State :=
  { upFop with fops := [(7, o)], held := h, stks := [(0, { Stack.reset with slices := [⟨2, 3, 7, 67, [6]⟩], debt := [(64 * 2 + 6, 4)] })] }

theorem test_hyps_SlicesOpenCloseAndOwe_close : let s := upSlice fill64 []
    let o := { fill64 with computed := true, source := some 5 }
    let t := { upSlice o [] with cmds := [cmdOf 5 0x0210 1 []] }
    s.held = [] ∧ (getStk s 0).slices.find? (fun x => x.d == 2 && x.p == 3) = some ⟨2, 3, 7, 67, [6]⟩ ∧ getFop? s 7 = some fill64 ∧
    fill64.computed = false ∧ fill64.stopped = false ∧ tabGetD 0 (64 * 2 + 6) (getStk s 0).debt = 4 ∧ (64 * 2 + 6) / 2 = 32 * 2 + 3 ∧
    (getStk t 0).slices.find? (fun x => x.d == 2 && x.p == 3) = some ⟨2, 3, 7, 67, [6]⟩ ∧ getFop? t 7 = some o ∧ o.computed = true ∧ o.source = some 5 ∧
    fopSliced (closeSlice 0 2 3 t) 7 = false ∧ getCmd? t 5 = some (cmdOf 5 0x0210 1 []) := by decide +kernel

/-- A whole write that slice 2, 3 of stack 0 holds. -/
def heldWrite : Held := ⟨.write 0 (64 * (64 * 2 + 1024 * 3)) (rep 64 7) (BitVec.allOnes 64) 2, 0, [0]⟩

theorem test_hyps_SlicesOpenCloseAndOwe_held : let off := 64 * (64 * 2 + 1024 * 3)
    let h := heldWrite
    let s := { upSlice fill64 [h] with fops := [] }
    s.held = [h] ∧ h.acc = .write 0 off (rep 64 7) (BitVec.allOnes 64) 2 ∧ (rep 64 7).length = 64 ∧ (getStk s 0).slices = [⟨2, 3, 7, 67, [6]⟩] ∧
    blkDie (localBlk 0 off) = 2 ∧ blkPair (localBlk 0 off) = 3 ∧ (getStk s 0).retraining = false ∧ stackUsable s 0 = true ∧ s.pm.state ≠ .hold ∧
    (getStk s 0).flipArmed = false ∧ getFop? s 7 = none := by decide +kernel

/-- Bank 6 is due in the slice, bank 7 is not; bank 8 has no slice, and an access waits for bank 6 of a pair that has none. -/
theorem test_hyps_SlicesOpenCloseAndOwe_due : let s := upSlice fill64 []
    let t := { s with stks := [], held := [heldWrite] }
    (∀ b, b ∈ [6, 7] → (getStk s 0).slices.find? (fun y => y.d == 2 && y.p == b / 2) = some ⟨2, 3, 7, 67, [6]⟩) ∧
    (∀ x ∈ (getStk s 0).slices, ¬(x.d = 2 ∧ x.p = 8 / 2)) ∧ s.held = [] ∧ (∀ x ∈ (getStk t 0).slices, ¬(x.d = 2 ∧ x.p = 6 / 2)) ∧
    ∃ h ∈ t.held, ∃ x ∈ accessPhys t h.acc, stackOfBlk x = 0 ∧ blkBank x = 64 * 2 + 6 := by decide +kernel

theorem test_hyps_LinksRetryRetrainOrFall : let s := { up with stks := [(0, { Stack.reset with retraining := true })], edgeTries := [(edgeKey 0 1, 16)],
                                                               cmds := [cmdOf 5 0x0206 1 []], far := { up.far with links := [1] } }
    stackUsable s 1 = true ∧ (getStk s 1).retraining = false ∧ edgeKey 0 2 ∉ s.edgesDown ∧ edgeTry s (edgeKey 0 2) < 16 ∧ (getStk s 0).retraining = true ∧
    s.held = [] ∧ 16 ≤ edgeTry s (edgeKey 0 1) ∧ (getSum s (.stack 0)).state ≠ 3 ∧ (getSum s (.edge 0 1)).state ≠ 3 ∧
    getCmd? s 5 = some (cmdOf 5 0x0206 1 []) ∧ (cmdOf 5 0x0206 1 []).stage = .running ∧ getRun? s 5 = none ∧ 0 ∉ s.far.links ∧ 1 ∈ s.far.links ∧
    s.cap.cxl = true := by decide

/-- Tenant 1 holds the first 64 KiB of stack memory. -/
def upWin : State := { upWord [] [] Stack.reset with allocs := [(9, ⟨1, 2, 0, 0, 65536, none, false, none, false, false⟩)] }

theorem test_hyps_WindowReachesOwnBlocksOnly : bar4Start (getFn upWin 1) + 192 = 192 ∧ upWin.pm.stopHold = false ∧
    accessWaits upWin (.winRead 1 0 65536 4) = false ∧ (∀ x ∈ accessBlks 65536 4, windowBlk upWin 1 false x = false) ∧
    accessWaits upWin (.winRead 1 192 192 64) = false ∧ windowBlk upWin 1 false 192 = true ∧ racing upWin 2 192 = false ∧
    accessWaits upWin (.winWrite 1 65536 [some 1]) = false ∧ (∀ x ∈ accessBlks 65536 1, windowBlk upWin 1 true x = false) ∧
    accessWaits upWin (.winWrite 1 192 ((rep 64 1).map some)) = false ∧ windowBlk upWin 1 true 192 = true ∧ unreachable upWin 2 192 = false ∧
    physBlk upWin 192 = some 3 ∧ (getStk upWin (stackOfBlk 3)).flipArmed = false ∧ tabGet? (192 / 65536) upWin.sharedPoison = none := by decide +kernel

/-- An orderly stop; a window write that waits, in a link that retrains; Hold. -/
theorem test_hyps_WindowReachesOwnBlocksOnly_waits : let s := { upWin with stks := [(0, { Stack.reset with retraining := true })] }
    { upWin with pm := { upWin.pm with stopHold := true } }.pm.stopHold = true ∧ blksWait s (accessPhys s (.winRead 1 192 192 64)) = true ∧
    blksWait s (accessPhys s (.winWrite 1 192 [some 1])) = true ∧ s.pm.stopHold = false ∧ behindWrite [⟨.winWrite 1 192 [some 1], 0, []⟩] 1 = true ∧
    powerEff { upWin with pm := { upWin.pm with state := .hold } } = .hold := by decide +kernel

/-! ### Tiles -/

theorem test_hyps_TileMemoryBytesReadBack : 3 ≤ 5 ∧ 5 ≤ 5 ∧ 2 ^ 48 - 2 + (rep 2 7).length ≤ 2 ^ 48 := by decide

def bank0 : Bank := ⟨true, false, [(cellKey 0 0, 0x3F800000)]⟩

/-- Logical tile 0 of run 5, in Turnout its own tile. -/
def ctx5 : Ctx := ⟨5, 0, [], 0, [], bank0, ⟨false, true, []⟩, 0, 0, none, [(0, 3)], false, 0, 0, 0, none, none⟩

/-- Bundle 9 of tenant 1: one logical tile, one counter slot that is external. -/
def bundle9 : Bundle := ⟨1, 1, [], 0, 1, 0, 1, 1, 1000, 0, 0, [3], [], vec64 2, false⟩

def run5r : Run := ⟨1, 9, 0, [], [], .running, [(0, 3)], [], [], [], [], 0, false, [⟨1, 0, vec64 2, 1, 1, 1⟩], [], 0, [], false⟩

/-- Tile 3 runs logical tile 0 of run 5 of tenant 1. -/
def upTile (x : Tile) : State := { up with tiles := [(3, x)], runs := [(5, run5r)], bundles := [(9, bundle9)] }

def body (x : Tile) : Tile := { x with ctx := some ctx5, phase := .body }

def noBounds : Bounds := ⟨true, true, none⟩

/-- A vector addition of two elements, whose second source is unused by the first clause of a unary one. -/
theorem test_hyps_ChannelRowsExecuteTheirOperation_vec : let s := upTile (body { Tile.reset with qChannel := [(.vec .add 0 64 0 128 2 false false noBounds none, false)] })
    let x := tileVec s 3 ctx5 false 0 2
    let r := (List.range 2).map fun i => vfn .add (x.getD i 0) (if 2 ≤ arity .add then (tileVec s 3 ctx5 false 64 2).getD i 0 else 0) (if 3 ≤ arity .add then x.getD i 0 else 0)
    bodyCtx s 3 = some ctx5 ∧ frontOp (getTile s 3).qChannel = some (.vec .add 0 64 0 128 2 false false noBounds none) ∧
    tileMine s 3 ctx5 4 0 (2 * vecB false) ∧ tileMine s 3 ctx5 4 64 (2 * vecB false) ∧ tileMine s 3 ctx5 4 128 (2 * vecB false) ∧
    firstBad .add 0 (x.zip r) = none ∧ vecInside noBounds false r := by unfold tileMine vecInside; decide +kernel

theorem test_hyps_ChannelRowsExecuteTheirOperation_reduce :
    frontOp [(ChanOp.reduce .sum 0 1 0 true none, false)] = some (.reduce .sum 0 1 0 true none) ∧
    tileMine (upTile (body Tile.reset)) 3 ctx5 4 0 (1 * vecB true) := by unfold tileMine; decide +kernel

theorem test_hyps_ChannelRowsExecuteTheirOperation_composite : let s := upTile (body Tile.reset)
    let v (off : Nat) := tileVec s 3 ctx5 false off 1
    frontOp [(ChanOp.softmax 0 0 1 false false noBounds none, false)] = some (.softmax 0 0 1 false false noBounds none) ∧
    softmaxFail (v 0) (softmaxF (v 0)) = none ∧ vecInside noBounds false (softmaxF (v 0)) ∧ tileMine s 3 ctx5 4 0 ((softmaxF (v 0)).length * vecB false) ∧
    frontOp [(ChanOp.rms 0 0 1 0 4 false false noBounds none, false)] = some (.rms 0 0 1 0 4 false false noBounds none) ∧
    vecInside noBounds false (rmsF 0 (v 0) (v 4)) ∧ tileMine s 3 ctx5 4 0 ((rmsF 0 (v 0) (v 4)).length * vecB false) ∧ tileMine s 3 ctx5 4 4 (1 * vecB false) ∧
    frontOp [(ChanOp.layer 0 0 1 0 4 8 false false noBounds none, false)] = some (.layer 0 0 1 0 4 8 false false noBounds none) ∧
    vecInside noBounds false (layerF 0 (v 0) (v 4) (v 8)) ∧ tileMine s 3 ctx5 4 0 ((layerF 0 (v 0) (v 4) (v 8)).length * vecB false) ∧
    tileMine s 3 ctx5 4 8 (1 * vecB false) := by unfold tileMine vecInside; decide +kernel

/-- One row of two elements, the second an outlier, with and without a statistics record; one weight column. -/
theorem test_hyps_ChannelRowsExecuteTheirOperation_quantise : let q (o : Option Observe) : QuantOp := ⟨0, false, 1, 2, 1, [1], none, 64, 68, 72, o, noBounds, none⟩
    let w : WQuantOp := ⟨0, false, 2, 1, 1, [1], 64, 68, noBounds, none⟩
    let s := upTile (body { Tile.reset with qChannel := [(.quant (q none), false)] })
    let rows := (quantRow 1 [1] none (tileVec s 3 ctx5 false 0 2) :: [])
    let cols := (quantCol 1 [1] (column (pieces 1 2 (tileVec s 3 ctx5 false 0 2)) 0)).toList
    frontOp (getTile s 3).qChannel = some (.quant (q none)) ∧ outliersOk 2 [1] = true ∧ codesFail noBounds 1 (rows.flatMap (·.codes)) = none ∧
    tileMine s 3 ctx5 4 0 (2 * vecB false) ∧ tileMine s 3 ctx5 4 64 (packVals (fmtBits 1) (rows.flatMap (·.codes))).length ∧
    tileMine s 3 ctx5 4 68 (packVals 32 (rows.map (·.scale))).length ∧ tileMine s 3 ctx5 4 72 (packVals 16 (rows.flatMap (·.outs))).length ∧
    (∀ o ∈ (q (some ⟨128, 7, false⟩)).observe.toList, tileMine s 3 ctx5 4 o.addr (0xC0 + 4 * 2)) ∧
    frontOp [(ChanOp.wquant w, false)] = some (.wquant w) ∧ cols.length = w.n ∧
    quantCol 1 [1] (column (pieces 1 2 (tileVec s 3 ctx5 false 0 2)) 0) = some (cols.getD 0 (0, [], [])) ∧
    codesFail noBounds 1 ((List.range 2).flatMap fun i => cols.map fun z => z.2.1.getD i 0) = none := by unfold tileMine; decide +kernel
/-- One row against one column block, no lateral work. -/
def pass1 : PassOp := ⟨.i8, 1, { vec64 4 with fmt := 1, layout := 2, base := 0x80000, rank := 2, size := [512, 512] }, [0, 0], 0, 512, 1, false, true, [], none⟩
def drain1 : DrainOp := ⟨false, 1, 1, [1], [0], false, none, none, none, none, none, none, { vec64 4 with fmt := 5, size := [1] }, noBounds, none⟩
def trace1 : PassTrace := ⟨pass1, [], [], 0, 0, 0, 0⟩
/-- A row group of rank 2 with the block that serves it. -/
def group1 : RowGroup := ⟨1, 2, [1], 4096⟩
def lat1 : LatBlock := ⟨2, [1], [], [], []⟩

/-- A pass with lateral work into the bank that is drained, and one that adds to the other. -/
theorem test_hyps_ArrayRowsExecuteTheirOperation_pass : let p := { pass1 with bankB := true, groups := [group1] }
    let a := { pass1 with fresh := false }
    let x := body { Tile.reset with qMain := [(.pass p, false)], lats := [lat1] }
    let y := body { Tile.reset with qMain := [(.pass a, false)] }
    bodyCtx (upTile x) 3 = some ctx5 ∧ passAt (getTile (upTile x) 3).qMain 0 = some (0, p) ∧ bankWaits (getTile (upTile x) 3) = false ∧ latsNeeded p = 1 ∧
    (getTile (upTile x) 3).lats.take 1 = [lat1] ∧ tileMine (upTile x) 3 ctx5 4 (passBlock p) (512 * modeK p.mode) ∧
    (∀ i, i < p.rows → tileMine (upTile x) 3 ctx5 4 (p.acts + i * p.actStride) (elBytes p.actFmt (modeK p.mode))) ∧
    (∀ e ∈ rowPlan p [lat1], e.2.1.isSome = true → tileMine (upTile x) 3 ctx5 4 (e.1.outAddr + 2 * e.1.outliers.length * e.2.2) (2 * e.1.outliers.length)) ∧
    (rowPlan p [lat1])[0]? = some (group1, some lat1, 0) ∧
    passAt (getTile (upTile y) 3).qMain 0 = some (0, a) ∧ bankWaits (getTile (upTile y) 3) = false ∧ latsNeeded a = 0 := by
  unfold tileMine; decide +kernel

theorem test_hyps_ArrayRowsExecuteTheirOperation_lateral : let x := body { Tile.reset with qLateral := [(.load 0 2 [1] none, false)], trace := some { trace1 with op := { pass1 with groups := [group1] }, lats := [lat1] } }
    let s := upTile x
    frontOp (getTile s 3).qLateral = some (.load 0 2 [1] none) ∧ tileMine s 3 ctx5 4 0 (1024 * 2) ∧ tileMine s 3 ctx5 4 (0 + 1024 * 2) (1024 * 2) ∧
    tileMine s 3 ctx5 4 (0 + 2048 * 2) (1024 * 1) ∧ frontOp [(LateralOp.extra 1 none, false)] = some (.extra 1 none) ∧ (getTile s 3).trace.isSome = true ∧
    (∀ e ∈ rowPlan { pass1 with groups := [group1] } [lat1], e.2.1.isSome = true →
      tileMine s 3 ctx5 4 (e.1.outAddr + 2 * e.1.outliers.length * e.2.2) (2 * e.1.outliers.length)) := by unfold tileMine; decide +kernel

/-- A drain of one entry, beside a vector of scales; an in-place transpose. -/
theorem test_hyps_ArrayRowsExecuteTheirOperation_drain : let s := upTile (body { Tile.reset with qMain := [(.drain drain1, false)] })
    let d := ownScratch 3 drain1.dst
    let f : Desc := { vec64 4 with rank := 2, size := [2, 2], stride := [1, 64] }
    storeAt (getTile s 3).qMain 0 [] = some (0, .drain drain1) ∧ dEmpty d = false ∧ (0 ≤ dLo d ∧ tileMine s 3 ctx5 4 (dLo d).toNat (dHi d + 1 - dLo d).toNat) ∧
    drain1.sOutVec = none ∧ drain1.rowScale = none ∧ drain1.colScale = none ∧ drain1.bias = none ∧ drain1.outFmt = none ∧
    (∀ j, j < drain1.rows → ∀ n, n < drain1.cols → (tabGet? (cellKey j n) (bankOf ctx5 drain1.bankB).cells).isSome = true) ∧
    boundsFail drain1.bounds 0 (((List.range (drain1.rows * drain1.cols)).map (drained s 3 ctx5 drain1)).map fun e => (e.1.code, e.2)) = none ∧
    storeAt [(.transpose f none, false)] 0 [] = some (0, .transpose f none) ∧ 0 ≤ dLo (ownScratch 3 f) ∧
    tileMine s 3 ctx5 4 (dLo (ownScratch 3 f)).toNat (dHi (ownScratch 3 f) + 1 - dLo (ownScratch 3 f)).toNat := by unfold tileMine; decide +kernel

theorem test_hyps_IntegerChecksumsFindErrors : let s := upTile (body { Tile.reset with trace := some { trace1 with group := 63 } })
    let tr : PassTrace := { trace1 with group := 63 }
    modeInt tr.op.mode = true ∧ tr.group < 64 ∧ (∀ e ∈ [(511, (1 : Int))], e.1 < modeN tr.op.mode) ∧ ([(511, (1 : Int))].map (·.2)).sum ≠ 0 ∧
    bodyCtx s 3 = some ctx5 ∧ (getTile s 3).trace = some tr ∧ tr.verdicts < tr.op.rows ∧
    ((rowPlan tr.op tr.lats)[tr.verdicts]?.map fun e => e.2.1) = some none ∧
    tileMine s 3 ctx5 4 (tr.op.acts + tr.verdicts * tr.op.actStride) (elBytes tr.op.actFmt (modeK tr.op.mode)) := by unfold tileMine; decide +kernel

def emptyWord : LongWord := ⟨none, none, none, none, none, none, none⟩

/-- A word with a load of the last word of the run area, one with a store, one that reads a V register, and one that waits. -/
theorem test_hyps_TileProgramsRun_word : let x := body { Tile.reset with v := [(1, 7)] }
    let w := { emptyWord with scalar := some (.load 1 2 (sdataRun - 4)) }
    (getTile (upTile x) 3).ctx = some ctx5 ∧ (getTile (upTile x) 3).committing = false ∧ (getTile (upTile x) 3).phase = .body ∧ wordWaits x w = false ∧ wordTraps x ctx5 w = false ∧
    ((gReg ctx5 2).toNat + (sdataRun - 4)) % 2 ^ 32 = sdataRun - 4 ∧ tileMine (upTile x) 3 ctx5 5 (sdataRun - 4) 4 ∧
    wordTraps x ctx5 { emptyWord with scalar := some (.store 1 2 8) } = false ∧ wordWaits x { emptyWord with scalar := some (.store 1 2 8) } = false ∧
    vOf (.readV 1 9) = some 9 ∧ tabGet? (9 % 8) x.v = some 7 ∧ wordTraps x ctx5 { emptyWord with scalar := some (.readV 1 9) } = false ∧
    wordWaits x { emptyWord with sync := some (.evWait 4 1) } = true := by unfold tileMine; decide +kernel

/-- In a head: a word without a counter wait; beside a released wait a word with a unit operation, and one without. -/
theorem test_hyps_TileProgramsRun_head : let c := { ctx5 with headDone := 1 }
    let x := { body Tile.reset with phase := .head, ctx := some c }
    let s := upTile x
    let w := { emptyWord with sync := some (.ctrWait false 0 1) }
    (getTile s 3).ctx = some c ∧ (getTile s 3).phase = .head ∧ (getTile s 3).qLoad = [] ∧ (getTile s 3).committing = false ∧ c.headWait = none ∧
    getRun? s c.run = some run5r ∧ run5r.cancelled = false ∧ run5r.state = .running ∧ powerEff s ≠ .idle ∧ powerEff s ≠ .hold ∧
    c.headIssued < c.headDone ∧ unitWord { w with main := some (.pass pass1) } = true ∧ unitWord w = false ∧
    wordTraps (getTile s 3) { turned s c with headIssued := 1 } { w with sync := none } = false := by decide +kernel

/-- An event count that is met exactly; the operation of each unit, executed; a pass with its last verdict. -/
theorem test_hyps_TileProgramsRun_units : let o : ChanOp := .reduce .sum 0 1 0 false (some 3)
    let x := body { Tile.reset with qChannel := [(o, true)], qMain := [(.pass pass1, true)], qLoad := [(.xfer (vec64 2) false 0 none, true)],
                                    qStore := [(.xfer (vec64 2) 0 none, true)], qLateral := [(.extra 1 none, true)], ev := [(15, 2)] }
    (getTile (upTile x) 3).ctx = some ctx5 ∧ (getTile (upTile x) 3).phase = .body ∧ x.committing = false ∧ evCount x 15 = 2 ∧
    x.qChannel = [(o, true)] ∧ mainEnded (verdictsIn x) x.qMain = some (.pass pass1, []) ∧ x.qLateral = [(.extra 1 none, true)] ∧
    x.qLoad = [(.xfer (vec64 2) false 0 none, true)] ∧ x.qStore = [(.xfer (vec64 2) 0 none, true)] ∧
    ctx5.attempt = 0 ∧ ctx5.moved ≠ 3 ∧ recentDetect (upTile x) 3 = false ∧ getRun? (upTile x) ctx5.run = some run5r := by decide

/-- A head's wait: met, and one unit short of it. -/
theorem test_hyps_StepsEndAtTheirBoundary_head : let s := { upTile { body Tile.reset with phase := .head } with ctrs := { up.ctrs with vals := [(64, 2)] } }
    (getTile s 3).ctx = some ctx5 ∧ (getTile s 3).phase = .head ∧ (getTile s 3).qLoad = [] ∧ ctx5.headWait = none ∧
    headWaitOn s ctx5 true 0 2 = some (64, true, 2) ∧ headWaitOn s ctx5 false 0 3 = some (64, false, 3) ∧ waitAmountOk true 2 = true ∧ waitAmountOk false 3 = true ∧
    s.ctrs.broken.contains 64 = false ∧ (∀ w ∈ s.ctrs.waits, w.owner ≠ .tile 3) ∧ headTaker 64 s.ctrs.waits = none ∧ (ctrVal s 64).toNat = 2 := by decide

/-- Tile 3 commits the last step. -/
def lastCommit : Tile := body { Tile.reset with committing := true, lastStep := true }

/-- Run 5 is paused with its frame; it may resume on its tile. -/
def upPaused : State :=
  { upTile Tile.reset with tiles := [], cmds := [cmdOf 5 0x0303 1 [9]], runs := [(5, { run5r with state := .paused, frames := [(0, ctx5)] })] }

theorem test_hyps_StepsEndAtTheirBoundary : let s := upTile lastCommit
    let v := upTile { lastCommit with phase := .saving }
    (getTile s 3).phase = .body ∧ (getTile s 3).committing = true ∧ allComplete (getTile s 3) = true ∧ (getTile s 3).outbound = [] ∧ (getTile s 3).poisoned = false ∧
    (getTile s 3).statsPend = [] ∧ (getTile s 3).qPend = [] ∧ ctx5.attempt = 0 ∧ ctx5.moved = 0 ∧ getRun? s ctx5.run = some run5r ∧ run5r.cancelled = false ∧
    (getTile s 3).lastStep = true ∧ (tabGetD 3 ctx5.logical run5r.place = 3 ∧ ctx5.home = none ∧ testOf? s (.tile 3) = none ∧ nextOnTile run5r 3 ctx5.logical = none) ∧
    (getTile v 3).phase = .saving ∧ (getTile v 3).ctx = some ctx5 ∧ getRun? v ctx5.run = some run5r ∧ (resumePlan upPaused 5).isSome = true := by decide +kernel

theorem test_hyps_TransfersLandOrWaitForTheCommit_load : let d : Desc := { vec64 4 with inst := 0 }
    let k : Desc := { d with layout := 2, rank := 2, size := [512, 1], stride := [1, 512] }
    let s := upTile (body { Tile.reset with qLoad := [(.xfer d false 4096 none, false)] })
    (getTile s 3).ctx = some ctx5 ∧ (getTile s 3).phase = .body ∧ frontOp (getTile s 3).qLoad = some (.xfer d false 4096 none) ∧
    turnDesc 3 ctx5 d = some { d with inst := 3 } ∧ streamOk s ctx5.run 3 false { d with inst := 3 } = true ∧ s.held = [] ∧
    blksWait s (descPhys s { d with inst := 3 }) = false ∧ stSharedPoisoned ∉ (loadBytes { d with inst := 3 } (Acc.start 1 s)).2.outs ∧
    (loadBytes { d with inst := 3 } (Acc.start 1 s)).1 = packPv (fmtBits d.fmt) (rdEls { d with inst := 3 } (dCount d) 0 (Acc.start 1 s)).1 ∧
    tileMine s 3 ctx5 4 4096 (loadBytes { d with inst := 3 } (Acc.start 1 s)).1.length ∧ k.layout = 2 := by unfold tileMine; decide +kernel

/-- An overlay at a head; a store to the tile itself, one to stack memory, an adapter's operation and a peer write, the queue of
effects one short of full. -/
theorem test_hyps_TransfersLandOrWaitForTheCommit_store : let d : Desc := { vec64 4 with inst := 0 }
    let h := upTile { body Tile.reset with phase := .head, qLoad := [(.overlay 2, false)] }
    let s := upTile (body { Tile.reset with qStore := [(.xfer d 0 none, false)], outbound := List.replicate 255 (.signal 0 1) })
    (getTile h 3).ctx = some ctx5 ∧ (getTile h 3).phase = .head ∧ (getTile h 3).qLoad = [(.overlay 2, false)] ∧
    (getTile s 3).phase = .body ∧ frontOp (getTile s 3).qStore = some (.xfer d 0 none) ∧ ownStore 3 ctx5 d = true ∧
    streamOk s ctx5.run 3 true { d with inst := 3 } = true ∧ tileMine s 3 ctx5 4 0 (elBytes d.fmt (dCount d)) ∧ ownStore 3 ctx5 (vec64 2) = false ∧
    (getTile s 3).outbound.length < 256 ∧ getRun? s ctx5.run = some run5r ∧ run5r.adapters.find? (fun a => a.entry == 1) = some ⟨1, 0, vec64 2, 1, 1, 1⟩ := by
  unfold tileMine; decide +kernel
/-! ### The peer transport -/

def pkt7 : OutPkt := ⟨4, 1, default, .data [], 0⟩

/-- A joined peer: path 2 has a packet unacknowledged and owes an acknowledgement, path 3 is down after eight time-outs. -/
def peer9 : Peer := ⟨77, 1, 1, 0, [], [(2, ⟨true, 5, 7, [pkt7], 3, [], 1⟩), (3, ⟨false, 0, 8, [], 0, [], 0⟩)], [], 10, 0, 0, 15, []⟩

/-- A list of this module, 1, and module 9. -/
def memberBytes : List Byte := toLE 2 1 ++ toLE 1 4 ++ rep 29 0 ++ toLE 2 9 ++ toLE 1 4 ++ rep 29 0

def group3 : Group := ⟨parseMembers memberBytes 2, [1, 9], true, 0, [], none⟩

def hdr9 : DptHdr := { (default : DptHdr) with src := 9, dst := 1, incarnation := 77, queue := 16, qsn := 0 }

def coll5 : Coll := ⟨5, 3, 1, 0, [1, 9], []⟩

def remote5 : Remote := ⟨5, false, 9, 16, 1, vec64 2, [], 4, 0, 0, true, false, none, false⟩

/-- Module 1 with peer 9, group 3 formed, port 0 with its link up. -/
def upPeer (c : Cmd) : State :=
  { upHost 0 memberBytes c with dpt := { Dpt.reset with
      moduleSet := true, moduleNumber := 1, peers := [(9, peer9)], groups := [(3, group3)],
      ports := [(0, { Port.reset with configured := true, linkUp := 1 })] } }

theorem test_fromPeer : fromPeer (upPeer (cmdOf 5 0x0605 1 [])) hdr9 := ⟨⟨peer9, by decide +kernel, by decide⟩, by decide⟩

/-- A packet in order, one ahead of it, a duplicate, one of no peer, payloads of 64, 0 and 3 bytes. -/
theorem test_hyps_PeerPacketsLandInOrder : let s := upPeer (cmdOf 5 0x0605 1 [])
    let h : DptHdr := { hdr9 with length := 64 }
    let t := { s with dpt := { s.dpt with reorder := [⟨hdr9, []⟩] } }
    fromPeer s h ∧ getPeer? s 8 = none ∧ wellSized h (rep 64 1) ∧ ¬ wellSized h (rep 3 1) ∧ wellSized hdr9 [] ∧ hdr9.length = 0 ∧
    duplicate s h = false ∧ duplicate s hdr9 = false ∧ hdr9.qsn = nextQsn s hdr9.src hdr9.queue ∧ fromPeer t hdr9 ∧ duplicate t hdr9 = true ∧
    duplicate s { hdr9 with qsn := 1 } = false ∧ (1 ≠ nextQsn s 9 16) :=
  ⟨test_fromPeer, by decide +kernel, by unfold wellSized; decide, by unfold wellSized; decide, by unfold wellSized; decide, rfl, by decide, by decide, by decide,
   test_fromPeer, by decide +kernel⟩

theorem test_hyps_PeerPacketsLandInOrder_release : let s := upPeer (cmdOf 5 0x0605 1 [])
    let b : Buffered := ⟨{ hdr9 with length := 64, tenant := 1, desc := 1 }, rep 64 1⟩
    let t := { s with dpt := { s.dpt with reorder := [b], colls := [coll5] } }
    t.dpt.reorder.find? (fun b => b.hd.src == 9 && b.hd.queue == 16 && b.hd.qsn == nextQsn t 9 16) = some b ∧ powerEff t ≠ .hold ∧
    onTest t (rxDesc t b.hd.tenant b.hd.desc).toList = false ∧ blksWait t (landPhys t b) = false ∧ t.held = [] ∧
    t.dpt.colls.find? (fun k => k.group == 3 && k.tenant == 1 && k.call == 0) = some coll5 ∧ (getCmd? t coll5.handle).isSome = true ∧
    tabGet? coll5.group t.dpt.groups = some group3 ∧ s.dpt.colls = [] := by decide +kernel

/-- The eighth time-out of path 2; two more packets above the one that is acknowledged. -/
theorem test_hyps_PathsAcknowledgeAndResend : let s := upPeer (cmdOf 5 0x0605 1 [])
    let a : DptAck := ⟨2, 4, 0, 3, []⟩
    let got := (pathOf peer9 2).out.filter fun o => acked a o.psn
    let left := ((pathOf peer9 2).out.filter fun o => !acked a o.psn).map fun o => { o with higherAcked := o.higherAcked +
      (got.filter fun (g : OutPkt) => decide (0 < (g.psn + 2 ^ 32 - o.psn) % 2 ^ 32 ∧ (g.psn + 2 ^ 32 - o.psn) % 2 ^ 32 < 2 ^ 31)).length }
    fromPeer s hdr9 ∧ getPeer? s 9 = some peer9 ∧ a.path = 2 ∧ peer9.txq = [] ∧ s.dpt.remotes = [] ∧ (∀ o ∈ left, o.higherAcked < 3) ∧
    0 < (pathOf peer9 2).sinceAck ∧ portOfPath s 9 2 ≠ none ∧ (pathOf peer9 4).sinceAck = 0 ∧
    (pathOf peer9 2).out.find? (fun o => o.psn == 4) = some pkt7 ∧ (pathOf peer9 2).timeouts = 7 ∧ (pathOf peer9 3).up = false ∧ portOfPath s 9 3 ≠ none ∧
    (pathOf peer9 2).up = true ∧ portOfPath s 9 peer9.kaNext ≠ none := ⟨test_fromPeer, by decide +kernel⟩

theorem test_hyps_GroupsFormLoseAndLeave : let c := cmdOf 5 0x0602 0 [2 ^ 16 * 4 + 1, 0, 2]
    let s := upPeer c
    let w := cmdOf 5 0x0602 0 [2 ^ 16 * 4 + 2, 0, 2]
    let l := cmdOf 5 0x0603 0 [2 ^ 16 * 3]
    Running s 5 0x0602 c ∧ cmdParam c 0 / 2 ^ 16 % 2 ^ 16 = 4 ∧ cmdParam c 2 = 2 ∧ (∀ e ∈ s.dpt.groups, e.2.join ≠ some 5) ∧
    membersOk s (hostRead s (cmdParam c 1) (32 * 2)) 2 = true ∧ s.dpt.moduleNumber = cmdParam c 0 % 2 ^ 12 ∧ tabGet? 4 s.dpt.groups = none ∧
    (∀ m ∈ parseMembers (hostRead s (cmdParam c 1) (32 * 2)) 2, portOfPath s m.1 0 ≠ none) ∧
    Running (upPeer w) 5 0x0602 w ∧ (upPeer w).dpt.moduleNumber ≠ cmdParam w 0 % 2 ^ 12 ∧ Running (upPeer l) 5 0x0603 l ∧ getPeer? s 9 = some peer9 := by
  unfold Running; decide +kernel

/-- A join that waits, with firmware of one major version and of versions too far apart. -/
theorem test_hyps_GroupsFormLoseAndLeave_timeout : let c := cmdOf 5 0x0602 0 [2 ^ 16 * 4 + 1, 0, 2]
    let g : Group := { group3 with join := some 5, formed := false }
    let t := { upPeer c with dpt := { (upPeer c).dpt with groups := [(3, g)] } }
    let u := { t with dpt := { t.dpt with peers := [(9, { peer9 with major := 3 })] } }
    t.dpt.groups.find? (fun e => e.2.join == some 5) = some (3, g) ∧ tabGet? 3 t.dpt.groups = some g ∧ spreadOk (majorsOf t g) = true ∧
    getCmd? t 5 = some c ∧ c.stage = .running ∧ u.dpt.groups.find? (fun e => e.2.join == some 5) = some (3, g) ∧ tabGet? 3 u.dpt.groups = some g ∧
    spreadOk (majorsOf u g) = false ∧ u.dpt.colls = [] ∧ u.dpt.remotes = [] ∧ getCmd? u 5 = some c := by decide +kernel

theorem test_hyps_PeerCommandsOpenAndAnswer_commands : let c := cmdOf 5 0x0604 1 [1, 9, 0, 0]
    let d := cmdOf 5 0x0605 1 [1, 2 ^ 16 * 3, 0, 0]
    let s := upPeer d
    let t := upPeer c
    Running t 5 0x0604 c ∧ cmdParam c 1 % 2 ^ 12 = 9 ∧ (∀ r ∈ t.dpt.remotes, r.handle ≠ 5) ∧ (getPeer? t 9).isSome = true ∧
    (∀ x ∈ t.cmds, x.pkt.opcode = 0x0604 → c.order ≤ x.order) ∧ Running (upCmd c) 5 0x0604 c ∧ getPeer? (upCmd c) 9 = none ∧
    Running s 5 0x0605 d ∧ cmdParam d 1 / 2 ^ 16 % 2 ^ 16 = 3 ∧ (∀ k ∈ s.dpt.colls, k.handle ≠ 5) ∧
    tabGet? 3 s.dpt.groups = some group3 ∧ group3.members.length ≤ group3.joined.length ∧ group3.formed = true ∧ s.dpt.earlyHellos = [] ∧
    (∀ x ∈ s.cmds, x.pkt.opcode = 0x0605 → d.order ≤ x.order) ∧ Running (upCmd d) 5 0x0605 d ∧ tabGet? 3 (upCmd d).dpt.groups = none := by
  unfold Running; decide +kernel

/-- Refusals and an acceptance of the copy to peer 9; a hello that comes early. -/
theorem test_hyps_PeerCommandsOpenAndAnswer_messages : let c := cmdOf 5 0x0604 1 [1, 9, 0, 0]
    let s (r : Remote) := { upPeer c with dpt := { (upPeer c).dpt with remotes := [r] } }
    fromPeer (s remote5) hdr9 ∧ fromPeer (upPeer c) hdr9 ∧ (s remote5).dpt.remotes = [remote5] ∧ remote5.peer = hdr9.src ∧ remote5.queue = 16 ∧ remote5.handle = 5 ∧
    remote5.tile = false ∧ remote5.asked = true ∧ remote5.opened = false ∧ remote5.poisoned = false ∧ { remote5 with opened := true }.opened = true ∧
    getCmd? (s remote5) 5 = some c ∧ c.stage = .running ∧ (s remote5).dpt.remotes.find? (fun r => r.peer == hdr9.src && r.queue == 16) = some remote5 ∧
    (upPeer c).dpt.colls = [] ∧ (tabGet? 3 (upPeer c).dpt.groups).isSome = true ∧ tabGet? 3 (upPeer c).dpt.groups = some group3 ∧ hdr9.src ∈ group3.joined :=
  ⟨test_fromPeer, test_fromPeer, rfl, rfl, rfl, rfl, rfl, rfl, rfl, rfl, rfl, by decide +kernel⟩

theorem test_hyps_PeerCommandsOpenAndAnswer_advert : let s := upPeer (cmdOf 5 0x0604 1 [1, 9, 0, 0])
    let g : Group := { group3 with joined := [1], formed := false }
    let t := { s with dpt := { s.dpt with groups := [(3, g)], peers := [], colls := [] } }
    let a : Advert := ⟨3, 77, 1, 0, 1, 0, listDigest g, []⟩
    tabGet? a.group t.dpt.groups = some g ∧ getPeer? t hdr9.src = none ∧ hdr9.src ≠ t.dpt.moduleNumber ∧ hdr9.dst = t.dpt.moduleNumber ∧
    (∃ x ∈ g.members, x.1 = hdr9.src) ∧ hdr9.src ∉ g.joined ∧ listDigest g = a.digest ∧ g.formed = false ∧ g.join = none ∧ t.dpt.colls = [] :=
  ⟨by decide +kernel, by decide +kernel, by decide +kernel, by decide +kernel, by decide +kernel, by decide +kernel, rfl, rfl, rfl, rfl⟩

/-- One entry of a port record. -/
def portBytes : List Byte := rep 8 0 ++ toLE 1 4 ++ toLE 1 0 ++ toLE 2 1500 ++ rep 244 0

theorem test_hyps_PortsKeepTheirConfiguration : let c := cmdOf 5 0x0601 0 [2, 0]
    let s := { upHost 0 portBytes c with dpt := { Dpt.reset with ports := [(0, { Port.reset with configured := true, linkUp := 1 }), (1, { Port.reset with configured := true })] } }
    let n := { upCmd c with cap := Cap.reset }
    let r := { s with dpt := { s.dpt with ptpTxCtrl := 0x80000004 } }
    Running s 5 0x0601 c ∧ ethUsable s 2 = true ∧ (∀ i, i < modePorts 0 → entryOk (sliceB (hostRead s (cmdParam c 1) 256) (64 * i) 64) = true) ∧
    Running n 5 0x0601 c ∧ ethUsable n 2 = false ∧ Running (upCmd c) 5 0x0601 c ∧ (upCmd c).cmds = [c] ∧
    (getPort s 1).configured = true ∧ ethUsable s 1 = true ∧ 0 < modePorts (getPort s 1).mode ∧
    hasBit (getPort s 1).linkUp 0 = false ∧ hasBit (getPort s 0).linkUp 0 = true ∧ ringOn r r.dpt.ptpTxBase r.dpt.ptpTxCtrl = true ∧
    15 % 1024 < 2 ^ ringLog2 r.dpt.ptpTxCtrl ∧ r.dpt.ptpTxHead < 2 ^ ringLog2 r.dpt.ptpTxCtrl := by unfold Running; decide +kernel

/-- A record whose entry asks for an MTU out of range. -/
theorem test_hyps_PortsKeepTheirConfiguration_bad : let c := cmdOf 5 0x0601 0 [2, 0]
    let s := upHost 0 (rep 8 0 ++ toLE 1 9 ++ toLE 1 0 ++ toLE 2 0 ++ rep 244 0) c
    ethUsable s 2 = true ∧ ∃ i, i < modePorts 0 ∧ entryOk (sliceB (hostRead s (cmdParam c 1) 256) (64 * i) 64) = false := ⟨by decide, 0, by decide +kernel⟩

/-! ### Diagnostics, power, tests, temperature, start-up, management -/

theorem test_hyps_DiagnosticsWriteTheirBuffers : let h := cmdOf 5 0x0704 0 [0, 100]
    let a := cmdOf 5 0x0708 0 [0, 4096]
    let f := cmdOf 5 0x0707 0 [7, 0]
    let n := { upCmd f with cap := Cap.reset }
    Running (upCmd h) 5 0x0704 h ∧ Running (upCmd a) 5 0x0708 a ∧ Running (upCmd f) 5 0x0707 f ∧ cmdParam f 0 % 2 ^ 3 = 7 ∧ stackUsable (upCmd f) 7 = true ∧
    Running n 5 0x0707 f ∧ stackUsable n 7 = false := by unfold Running; decide

/-- The last group of stack 3; a link that retrains; a link that is not there; a lane of the host link. -/
theorem test_hyps_DiagnosticsWriteTheirBuffers_margin : let c := cmdOf 5 0x0702 0 [1 + 256 * 3 + 65536 * 255, 0]
    let w := { upCmd c with stks := [(3, { Stack.reset with retraining := true })] }
    let n := { upCmd c with cap := Cap.reset }
    let p := cmdOf 5 0x0702 0 [3 + 65536 * 15, 0]
    Running (upCmd c) 5 0x0702 c ∧ cmdParam c 0 % 2 ^ 4 = 1 ∧ cmdParam c 0 / 2 ^ 8 % 2 ^ 8 = 3 ∧ cmdParam c 0 / 2 ^ 16 % 2 ^ 8 = 255 ∧
    marginLink (upCmd c) 1 3 = true ∧ marginWaits (upCmd c) c = false ∧ Running w 5 0x0702 c ∧ marginLink w 1 3 = true ∧ marginWaits w c = true ∧
    Running n 5 0x0702 c ∧ marginLink n 1 3 = false ∧ Running (upCmd p) 5 0x0702 p := by unfold Running; decide

/-- `up` in power state `p`, with command `c`. -/
def upPower (p : Power) (c : Cmd) : State := { upCmd c with pm := { up.pm with state := p, target := p } }

def powerCmd (n : Nat) : Cmd := cmdOf 5 0x0703 0 [n]

theorem test_hyps_PowerStatesChangeAsAsked : (∀ p, p ∈ [Power.run, .trim, .idle, .hold] → ∀ n, n < 4 → Running (upPower p (powerCmd n)) 5 0x0703 (powerCmd n) ∧
      cmdParam (powerCmd n) 0 % 2 ^ 3 = n ∧ (upPower p (powerCmd n)).pm.state = p ∧ (upPower p (powerCmd n)).pm.waking = false ∧
      (upPower p (powerCmd n)).pm.transition = false ∧ (upPower p (powerCmd n)).pm.stopHold = false) ∧
    [powerOf 0, powerOf 1, powerOf 2, powerOf 3] = [.run, .trim, .idle, .hold] ∧ idleReady (upPower .run (powerCmd 2)) = true ∧
    idleReady { upPower .run (powerCmd 2) with tiles := [(3, body Tile.reset)] } = false ∧
    holdBlocked { upPower .run (powerCmd 3) with allocs := [(9, ⟨1, 4, 0, 0, 65536, none, false, none, false, false⟩)] } = true ∧
    holdBlocked (upPower .run (powerCmd 3)) = false ∧ (∀ r ∈ (upPower .run (powerCmd 3)).runs, r.2.state ≠ .running) ∧ holdReady (upPower .run (powerCmd 3)) = true ∧
    holdReady { upPower .run (powerCmd 3) with tiles := [(3, body Tile.reset)] } = false ∧
    up.cap.valid = true ∧ { up with cap := Cap.reset }.cap.valid = false := by unfold Running; decide +kernel

theorem test_hyps_PowerStatesChangeAsAsked_wake : ∀ p, p ∈ [Power.idle, .hold] →
    let s := { upPower p (powerCmd 0) with pm := { (upPower p (powerCmd 0)).pm with waking := true, transition := true } }
    s.pm.waking = true ∧ s.held = [] ∧ s.pm.stopLoss = false ∧ s.pm.stopHold = false ∧ [].all stackOk = true ∧
    (([] : List (Nat × List Nat)).all fun e => stackOk e.1 && e.2.all laneOk) = true ∧ getCmd? s 5 = some (powerCmd 0) ∧ (powerCmd 0).stage = .running := by decide

theorem test_hyps_PowerStatesChangeAsAsked_bias : (∀ p, p ∈ [Power.run, .trim, .idle, .hold] → (upPower p waitingCmd).board.pgood = true ∧ tilePresent (upPower p waitingCmd) 31 = true) ∧
    State.reset.board.pgood = false := by decide

theorem test_hyps_TestsRotateAndSettle : let s := { up with test := { SelfTest.reset with tileSlot := 31, stackSlot := 7, running := [⟨.tile 31, [], true, 0⟩] } }
    let h (n : Nat) := { up with hist := ⟨[], [], [⟨5, 2, n, [], 0⟩, ⟨1, 2, n, [], 0⟩], 0⟩ }
    rotating { up with cap := Cap.reset } = false ∧ rotating up = true ∧ (tilePresent up 0 && tileUsable up 0) = true ∧ testOf? up (.tile 0) = none ∧
    (getTile up 0).ctx = none ∧ (getTile up 0).underTest = false ∧ (testOf? s (.tile (s.test.tileSlot % 32))).isSome = true ∧ rotating s = true ∧
    rotating (h 1) = true ∧ testBlock (.sluice 2) = some (.sluice 2) ∧ (getSum (h 1) (.sluice 2)).state = 1 ∧ (getSum (h 2) (.sluice 2)).state = 2 ∧
    testOf? (h 1) (.sluice 2) = none ∧ (getSum (h 1) (.tile 2)).state = 1 ∧ testOf? (h 1) (.tile 2) = none ∧ (getTile (h 1) 2).ctx = none ∧
    (getSum (h 0) (.tile 2)).state ≠ 1 ∧ (getSum (h 0) (.tile 2)).state ≠ 2 ∧ UnitRef.ok (.sluice 2) = true := by decide

theorem test_hyps_TestsRotateAndSettle_command : let t := cmdOf 5 0x0701 0 [1 + 256 * 31]
    let k := cmdOf 5 0x0701 0 [2 + 256 * 7]
    let n (c : Cmd) := { upCmd c with cap := Cap.reset }
    Running (upCmd t) 5 0x0701 t ∧ cmdParam t 0 / 2 ^ 8 % 2 ^ 5 = 31 ∧ cmdParam t 0 % 2 ^ 4 = 1 ∧ tileUsable (upCmd t) 31 = true ∧ testOf? (upCmd t) (.tile 31) = none ∧
    (getTile (upCmd t) 31).ctx = none ∧ (getTile (upCmd t) 31).underTest = false ∧ (∀ y ∈ (upCmd t).test.running, 5 ∉ y.cmds) ∧
    Running (upCmd k) 5 0x0701 k ∧ cmdParam k 0 / 2 ^ 8 % 2 ^ 5 = 7 ∧ cmdParam k 0 % 2 ^ 4 ≠ 1 ∧ stackUsable (upCmd k) 7 = true ∧ testOf? (upCmd k) (.stack 7) = none ∧
    Running (n t) 5 0x0701 t ∧ tileUsable (n t) 31 = false ∧ Running (n k) 5 0x0701 k ∧ stackUsable (n k) 7 = false := by unfold Running; decide

theorem test_hyps_TestsRotateAndSettle_complete : let x : Test := ⟨.tile 3, [5], false, 0⟩
    let s := { upTile { Tile.reset with underTest := true } with cmds := [cmdOf 5 0x0701 0 [1 + 256 * 3]], test := { SelfTest.reset with running := [x, ⟨.stack 1, [], true, 0⟩] } }
    testOf? s (.tile 3) = some x ∧ (getTile s 3).underTest = true ∧ (getSum s (.tile 3)).state = 0 ∧ (getSum s (.tile 3)).state ≠ 3 ∧ x.cmds.Nodup ∧
    getCmd? s 5 = some (cmdOf 5 0x0701 0 [1 + 256 * 3]) ∧ 5 ∈ x.cmds := by decide +kernel

theorem test_hyps_TemperatureAndPowerAreHeld : let p (v : Int) := { up.pm with readings := tabPut 559 v up.pm.readings }
    (([(559, (700 : Int))] : List (Nat × Int)).all fun e => decide (e.1 < 560)) = true ∧ { up with board := State.reset.board }.board.pgood = false ∧ up.board.pgood = true ∧
    sensorRead up 559 = true ∧ tabGetD [] 559 up.fuses.neighbours = [] ∧ up.pm.broken = [] ∧ up.pm.halfBroken = [] ∧ up.pm.stop = 0 ∧ up.pm.stopHold = false ∧
    (∀ x, x < 14 → tabGetD 0 x up.pm.level < stopLevel x) ∧
    levelGo (tabGetD 0 (sensorBlock 559) up.pm.level) (blockTemp up.fuses (p 700) (sensorBlock 559)) 1 (levelTable (sensorBlock 559)) < stopLevel (sensorBlock 559) ∧
    stopLevel (sensorBlock 559) ≤ levelGo (tabGetD 0 (sensorBlock 559) up.pm.level) (blockTemp up.fuses (p 1000) (sensorBlock 559)) 1 (levelTable (sensorBlock 559)) ∧
    up.board.power48 = true ∧ State.reset.board.power48 = false ∧ up.hist.flash.length + up.hist.pendingFlash.length ≤ 131072 := by decide +kernel

theorem test_hyps_StartUpGoesStepByStep : let s (n : Nat) := { State.reset with board := { State.reset.board with power48 := true, pwrEn := true, perstN := true, pgood := true, step := n } }
    State.reset.board.power48 = false ∧ (s 1).board.power48 = true ∧ (s 4).board.step = 4 ∧ (s 5).board.step = 5 ∧ (getSum (s 5) (.stack 2)).state ≠ 3 ∧
    (([(2, [0, 33, 8703])] : List (Nat × List Nat)).all fun e => stackOk e.1 && e.2.all laneOk) = true ∧
    2 < groupFails (failingOf [(2, [0, 1, 2])] 2) 0 ∧ (s 7).board.step = 7 ∧ (s 7).cap.valid = false ∧ up.cap.valid = true ∧ (s 7).fops = [] := by decide

/-- Two failing lanes in each of two groups: every group has spares enough. -/
theorem test_hyps_StartUpGoesStepByStep_spares (k g : Nat) : groupFails (failingOf [(2, [0, 1, 8670, 8671])] k) g ≤ 2 := by
  by_cases h : k = 2
  · subst h
    have e : setIns 8671 (setIns 8670 (setIns 1 (setIns 0 []))) = [0, 1, 8670, 8671] := by decide
    unfold groupFails failingOf
    by_cases a : g = 0
    · subst a; decide
    · by_cases b : g = 255
      · subst b; decide
      · simp [e, Ne.symm a, Ne.symm b]
  · unfold groupFails failingOf; simp [Ne.symm h]

theorem test_hyps_ResetsKeepOnlyTheRecord : let b := State.reset.board
    up.board.pgood = true ∧ up.board.perstN = true ∧ up.board.power48 = true ∧ up.board.cut = false ∧ b.perstN = false ∧ b.power48 = false ∧ b.pgood = false ∧
    { b with cut := true }.cut = true := by decide

theorem test_hyps_FunctionResetClearsTheFunction : 0 < 63 ∧ 63 < 64 ∧ (∀ c ∈ up.cmds, c.tenant ≠ 63) ∧ (∀ c ∈ up.cmds, 64 ≤ c.tenant) := by decide

theorem test_hyps_PushesBeginWhereTheyMay : let h (n : Nat) := { up with henua := { up.henua with bstate := n } }
    State.reset.board.crsDone = false ∧ up.board.crsDone = true ∧ (h 0).henua.bstate = 0 ∧ (h 0).henua.goHeld = false ∧ (h 1).henua.bstate = 1 ∧ (h 4).henua.bstate = 4 ∧
    (h 2).henua.bstate = 2 ∧ up.henua.bstate = 3 ∧ up.henua.up = true := by decide

theorem test_hyps_OnlyVerifiedImagesStart : up.henua.bstate ≠ 2 ∧ { up with henua := { up.henua with bstate := 2 } }.henua.bstate = 2 := by decide

theorem test_hyps_ManagementReadsAnswer : up.henua.up = true ∧ State.reset.henua.up = false ∧ (rep 32 0).length = 32 ∧ up.cap.valid = true ∧ namedCtr up 1 63 = some 127 ∧
    up.ctrs.broken.contains 127 = false ∧ 0x200C % 4 = 0 ∧ 1 ≤ 64 := by decide

theorem test_hyps_SignedCommandsNeedTheirSignature : up.henua.up = true ∧
    (0x0E, [], true, Instr.rollbackCommit .ethernet none) ∈ signedRow .ethernet none 0 0 0 0 0 0 0 0 0 [] ∧
    (0x09, [9], false, Instr.henuaPowerState .ethernet none 9) ∈ signedRow .ethernet none 0 0 9 0 0 0 0 0 0 [] ∧
    (∀ x, (none : Option MgmtAuth) = some x → ¬(up.henua.mgmtSeq.toNat < x.seq ∧ x.seq < 2 ^ 64 ∧ ownerKey up x.pubKey = true ∧
      Config.mldsaVerify x.pubKey (signedBytes 0x0E x.seq []) x.sig = true)) ∧ ∃ t, step up = .next t :=
  ⟨by decide, by decide, by decide, nofun, _, rfl⟩

theorem test_hyps_ManagementWritesTakeEffect : let k : KeySlot := ⟨rep 32 7, true, false⟩
    let s := { up with fuses := { up.fuses with keys := [(0, k), (4, k)] } }
    let im : Image := ⟨1, 0, 1, 64, 0, [], []⟩
    s.henua.up = true ∧ (sliceB portBytes 0 64).length = 64 ∧ entryOk (sliceB portBytes 0 64) = true ∧ s.cap.valid = true ∧ namedCtr s 1 3 = some 67 ∧
    getTen? s 1 = some ten1 ∧ s.ctrs.broken.contains 67 = false ∧ ((unitOf 1 31).map UnitRef.ok).getD false = true ∧ ¬((1 : Nat) = 0xFF ∧ (31 : Nat) = 0xFFFF) ∧
    (rep 32 0).length = 32 ∧ (keySlot s 5).programmed = false ∧ (keySlot s 4).programmed = true ∧ otherKey s 4 = true ∧ otherKey up 4 = false ∧
    { s with henua := { s.henua with image := some im } }.henua.image = some im ∧ im.svn ≤ 64 := by decide +kernel

theorem test_hyps_WellFormedCommandsComplete : (Instr.mainPass 31).wf = true ∧ (Instr.mainPass 32).wf = false := by decide

/-! ### Examples of the spec -/
/-- 01, the spare IG-DX2-24T: GRADE of MG_CAP_TILE_PRESENT 0xEDDB_7EB7 is 0x18; with T13 retired MG_CAP_TILE_USABLE is
0xEDDB_5EB7. -/
theorem test_example_retired_tile : gradeCode { up with fuses := { up.fuses with present := 0xEDDB7EB7 } } = 0x18 ∧
    (clearUsable (.tile 13) { up.cap with tileUsable := 0xEDDB7EB7 }).tileUsable = 0xEDDB5EB7 := by decide +kernel

/-- 10, one byte of the shared weights: granule 64, interleaved, unit 8, and its replica in granule 192, rotated, unit 40. -/
theorem test_example_stack_map : let s := { up with granules := [(64, ⟨0, 0, 8, [], false⟩), (192, ⟨1, 0, 40, [], false⟩)] }
    physBlk s 0x1001234567 = some (localBlk 4 0x40246567) ∧ physBlk s 0x3001234567 = some (localBlk 0 0x140246567) := by
  decide +kernel

/-- 09, the second example: takers of 2 and 1 wait; +1 releases none, +2 then releases both, in order, and leaves 0. A WAIT_GE
of 3 would have gone first. -/
theorem test_example_takers : let w (n : Nat) (t : Nat) : Wait := ⟨7, true, n, .tile t⟩
    settle 7 1 [w 2 4, w 1 5] = ([], [w 2 4, w 1 5], 1) ∧ settle 7 3 [w 2 4, w 1 5] = ([(w 2 4, 1), (w 1 5, 0)], [], 0) ∧
    (settle 7 3 [w 2 4, w 1 5, ⟨7, false, 3, .cmd 9⟩]).1.map (·.1.owner) = [.cmd 9, .tile 4, .tile 5] := by decide

/-- 03, the sensor embedding: a = 3.5 gives the scale 2^-7, and 3.5 × 128 = 448 is E4M3 0x7E; 166.4 rounds to 160, 0x72. -/
theorem test_example_quantise : fmul 0x40600000 0x3B124925 = 0x3C000000 := by decide +kernel

/-- 12, the plan bundle on the spare module: logical tiles 3, 5, 12, 16 and 19 are placed on T05, T13, T22, T29 and T30. -/
theorem test_example_placement : let b := { bundle9 with tiles := 20, tileMap := (List.range 20).map fun i => i / 5 * 8 + i % 5 }
    ((placeRun (fun t => (0xEDDB7EB7 : Nat).testBit t) b ((List.range 20).map fun i => (i, i / 5 * 8 + i % 5))).map fun p => [3, 5, 12, 16, 19].map fun i => tabGetD 99 i p) = some [5, 13, 22, 29, 30] := by decide +kernel

/-- 17 R413: at 100 °C the pause level is 32, at 105 °C 63, below 95 °C 0. -/
theorem test_example_pause : pauseTarget 800 = 32 ∧ pauseTarget 840 = 63 ∧ pauseTarget 759 = 0 := by decide

/-- 16, one stack group in service: lane 600 fails with T_RIGHT 11, moves onto spare 611, and VALUE is 608. -/
theorem test_example_margin : let s := { up with stks := [(3, { Stack.reset with spares := [(593, 610)] })] }
    let ms := (List.range 34).map fun i => if 578 + i = 600 then (⟨13, 11, 35, 35⟩ : LaneMargin) else ⟨13, 13, 35, 35⟩
    (getStk (marginGroup 3 17 ms s).2 3).spares = [(593, 610), (600, 611)] ∧ (marginHeader 1 3 34 0).length + 34 * 16 = 608 := by decide +kernel

/-- 08 R199: the first status of the list that applies. -/
theorem test_status_order : statusOf [stCancelled, stDataPoisoned, stRecomputed] = stDataPoisoned ∧ statusOf [] = stOk := by decide

/-- 18 R421: SHA3-256 of the empty message (FIPS 202; log entry 11). -/
theorem test_sha3_empty : (sha3 []).take 4 = [0xA7, 0xFF, 0xC6, 0xF8] := by decide +kernel

/-- 08 R197: NOP's VALUE is DEV_TIME. -/
theorem test_nop : let c := cmdOf 5 0x0709 1 []
    (match exec (.nop 5) { upCmd c with devTime := 1234 } with | .next t => (getCmd? t 5).map fun x => (x.stage, x.value) | _ => none) = some (.done, 1234) := by decide

/-- 15 R372: a record is 64 bytes long. -/
theorem test_record_length : (recBytes ⟨5, 10, 1, 13, 0xFF, 0, 0, 0, 0, []⟩).length = 64 := by decide +kernel

end Sys2Proof.Tests
end

/-! Registers with RC fields (00 R5, R454): what a read answers and what it clears. A 64-bit register with RC fields in both
halves is described once, by `RcPair`; its four reads then follow for every such register. -/

namespace Sys2Proof.Machine

/-! ### Parts of the state that another part's update leaves -/

@[simp] theorem getFn_emit (o : Output) (s : State) (f : Nat) : getFn (emit o s) f = getFn s f := rfl
@[simp] theorem getStk_emit (o : Output) (s : State) (k : Nat) : getStk (emit o s) k = getStk s k := rfl
@[simp] theorem getFn_modStk (k : Nat) (g : Stack → Stack) (s : State) (f : Nat) : getFn (modStk k g s) f = getFn s f := rfl
@[simp] theorem getStk_modFn (f : Nat) (g : Fn → Fn) (s : State) (k : Nat) : getStk (modFn f g s) k = getStk s k := rfl

/-! ### What an answer and the update of one function or one stack leave -/

theorem emit_modFn_leaves (o : Output) (f : Nat) (g : Fn → Fn) (s : State) :
    (emit o (modFn f g s)).out = s.out ++ [o] ∧ getFn (emit o (modFn f g s)) f = g (getFn s f) ∧
      (∀ k, k ≠ f → getFn (emit o (modFn f g s)) k = getFn s k) ∧
      emit o (modFn f g s) = { s with fns := (emit o (modFn f g s)).fns, out := (emit o (modFn f g s)).out } :=
  ⟨rfl, by simp, fun _ n => by simp [getFn_modFn_ne g s n], rfl⟩

theorem emit_modStk_leaves (o : Output) (k : Nat) (g : Stack → Stack) (s : State) :
    (emit o (modStk k g s)).out = s.out ++ [o] ∧ getStk (emit o (modStk k g s)) k = g (getStk s k) ∧
      (∀ j, j ≠ k → getStk (emit o (modStk k g s)) j = getStk s j) ∧
      emit o (modStk k g s) = { s with stks := (emit o (modStk k g s)).stks, out := (emit o (modStk k g s)).out } :=
  ⟨rfl, by simp, fun _ n => by simp [getStk_modStk_ne g s n], rfl⟩

/-! ### RC_REGISTER_READ by place and width -/

theorem exec_rcRegisterRead_bar0 {f : Nat} (hf : f < 64) (off size : Nat) (s : State) :
    exec (.rcRegisterRead f (.bar0 off) size) s = .next (barRead f off size s) := if_pos (decide_eq_true hf)

theorem exec_rcRegisterRead_bar2 {f : Nat} (hf : f < 64) (off size : Nat) (s : State) :
    exec (.rcRegisterRead f (.bar2 off) size) s = .next (pageRead f off size s) := if_pos (decide_eq_true hf)

theorem exec_rcRegisterRead_config {f : Nat} (hf : f < 64) (r : CfgReg) (size : Nat) (s : State) :
    exec (.rcRegisterRead f (.config r) size) s = .next (configRead f r s) := if_pos (decide_eq_true hf)

theorem aligned_four {off : Nat} (h : off % 4 = 0) : aligned off 4 = true := by simp [aligned, h]

theorem aligned_eight {off : Nat} (h : off % 8 = 0) : aligned off 8 = true := by simp [aligned, h]

theorem barRead_misaligned {f off size : Nat} (s : State) (h : aligned off size = false) :
    barRead f off size s = emit (.regRead f off 0) (badAccess f s) := by simp [barRead, h]

theorem barRead_four {f off : Nat} (s : State) (h : off % 4 = 0) :
    barRead f off 4 s = emit (.regRead f off (read32 f off s).1) (read32 f off s).2 := by simp [barRead, aligned_four h]

theorem barRead_eight {f off : Nat} (s : State) (h : off % 8 = 0) :
    barRead f off 8 s = emit (.regRead f off (read64 f off s).1) (read64 f off s).2 := by simp [barRead, aligned_eight h]

theorem pageRead_four {f off : Nat} (s : State) (h : off % 4 = 0) :
    pageRead f off 4 s = emit (.bar2Read f off (bar2Read s f off)) s := by simp [pageRead, aligned_four h]

/-- A 4-byte read of a register that latches nothing. -/
theorem exec_read_plain {f off : Nat} (s : State) (hf : f < 64) (ha : off % 4 = 0) (ht : off ≠ 0x40 ∧ off ≠ 0x44) (hr : rc64 off = none) :
    exec (.rcRegisterRead f (.bar0 off) 4) s = .next (emit (.regRead f off (reg32 s f off)) (clearRc f off s)) := by
  rw [exec_rcRegisterRead_bar0 hf, barRead_four s ha]
  simp [read32, ht, hr]

/-! ### What a read clears -/

theorem clearRc_switchMax (f : Nat) (s : State) : clearRc f 0x210 s = modFn f (fun x => { x with switchMax := 0 }) s := rfl

theorem clearRc_viol (f : Nat) (s : State) : clearRc f 0x410 s = modFn f (fun x => { x with viol := none }) s := rfl

/-- The capability table, the blocks between it and the MSI-X table, and that table hold no RC field. -/
theorem clearRc_noRcField {f off : Nat} (s : State) (lo : 0x1000 ≤ off) (hi : off < 0x9000) : clearRc f off s = s := by
  unfold clearRc
  rw [if_neg (by omega), if_neg (by omega)]
  split
  · rfl
  · rw [if_neg (by omega), if_neg (by omega), if_neg (by omega)]

/-- Offset `r` of stack `k`'s registers (10 R240). -/
def stackOff (k r : Nat) : Nat := 0x30000 + 0x200 * k + r

section
variable {k r : Nat}

theorem stackOff_range (hk : k < 8) (hr : r < 0x200) : 0x30000 ≤ stackOff k r ∧ stackOff k r < 0x31000 := by
  unfold stackOff; omega

theorem stackOff_stack (hr : r < 0x200) : (stackOff k r - 0x30000) / 0x200 = k := by unfold stackOff; omega

theorem stackOff_reg (hr : r < 0x200) : (stackOff k r - 0x30000) % 0x200 = r := by unfold stackOff; omega

/-- The physical function reads the register of the stack, outside SC_FURROW_BUSY. -/
theorem reg32_stackOff (s : State) (hk : k < 8) (hr : r < 0x200) (hb : ¬(0x100 ≤ r ∧ r < 0x140)) :
    reg32 s 0 (stackOff k r) = stackRegs s k r := by
  obtain ⟨lo, hi⟩ := stackOff_range hk hr
  unfold reg32
  rw [if_neg (by omega), if_pos ⟨lo, hi⟩]
  simp [stackOff_stack hr, stackOff_reg hr, hb]

/-- The three RC registers of a stack, which the physical function's read clears (04 R103; 10 R240). -/
theorem clearRc_stackOff (s : State) (hk : k < 8) (hr : r < 0x200) :
    clearRc 0 (stackOff k r) s =
      if r = 0x20 then modStk k (fun x => { x with hostWaitMax := 0 }) s
      else if r = 0x24 then modStk k (fun x => { x with debtMax := 0 }) s
      else if r = 0x160 then modStk k (fun x => { x with ueFirst := none, ueMore := false }) s
      else s := by
  obtain ⟨lo, hi⟩ := stackOff_range hk hr
  unfold clearRc
  rw [if_neg (by omega), if_neg (by omega), if_neg (by omega), if_pos ⟨lo, hi⟩]
  simp only [stackOff_stack hr, stackOff_reg hr]
  split <;> simp_all

theorem clearRc_hostWaitMax (s : State) (hk : k < 8) :
    clearRc 0 (stackOff k 0x20) s = modStk k (fun x => { x with hostWaitMax := 0 }) s := by
  rw [clearRc_stackOff s hk (by decide), if_pos rfl]

theorem clearRc_ueFirst (s : State) (hk : k < 8) :
    clearRc 0 (stackOff k 0x160) s = modStk k (fun x => { x with ueFirst := none, ueMore := false }) s := by
  rw [clearRc_stackOff s hk (by decide), if_neg (by decide), if_neg (by decide), if_pos rfl]

end

/-! ### The 64-bit registers with RC fields in both halves (00 R454) -/

/-- The high half of `w` is kept as the function's latch of the register at `lo`. -/
def putLatch (lo w : Nat) (x : Fn) : Fn := { x with rcLatch := tabPut lo (BitVec.ofNat 32 (w / 2 ^ 32)) x.rcLatch }

def dropLatch (lo : Nat) (x : Fn) : Fn := { x with rcLatch := tabDel lo x.rcLatch }

@[simp] theorem tabGet?_putLatch (lo w : Nat) (x : Fn) : tabGet? lo (putLatch lo w x).rcLatch = some (BitVec.ofNat 32 (w / 2 ^ 32)) :=
  tabGet?_tabPut_same ..

@[simp] theorem tabGet?_dropLatch (lo : Nat) (x : Fn) : tabGet? lo (dropLatch lo x).rcLatch = none := tabGet?_tabDel_same ..

@[simp] theorem dropLatch_viol (lo : Nat) (x : Fn) : (dropLatch lo x).viol = x.viol := rfl

/-- The register at `lo`, which function `f` reads as `w`, is one 64-bit register with RC fields in both halves. -/
structure RcPair (s : State) (f lo w : Nat) : Prop where
  align : lo % 8 = 0
  rcLow : rc64 lo = some lo
  rcHigh : rc64 (lo + 4) = some lo
  low : reg32 s f lo = w % 2 ^ 32
  high : reg32 s f (lo + 4) = w / 2 ^ 32

namespace RcPair
variable {s : State} {f lo w : Nat}

/-- HG_DEV_TIME has a latch of its own and is no such register. -/
theorem notDevTime (p : RcPair s f lo w) : lo ≠ 0x40 := by
  rintro rfl; exact absurd p.rcLow (by decide)

theorem notDevTimeHigh (p : RcPair s f lo w) : lo + 4 ≠ 0x40 ∧ lo + 4 ≠ 0x44 := by
  have := p.align; have := p.notDevTime; omega

theorem exec_low (p : RcPair s f lo w) (hf : f < 64) :
    exec (.rcRegisterRead f (.bar0 lo) 4) s = .next (emit (.regRead f lo (w % 2 ^ 32)) (clearRc f lo (modFn f (putLatch lo w) s))) := by
  have ha := p.align
  rw [exec_rcRegisterRead_bar0 hf, barRead_four s (by omega)]
  simp only [read32, p.notDevTime, show lo ≠ 0x44 by omega, p.rcLow, p.low, p.high, if_false, if_true]
  rfl

theorem exec_whole (p : RcPair s f lo w) (hf : f < 64) :
    exec (.rcRegisterRead f (.bar0 lo) 8) s = .next (emit (.regRead f lo w) (clearRc f lo s)) := by
  rw [exec_rcRegisterRead_bar0 hf, barRead_eight s p.align]
  simp only [read64, p.rcLow, p.low, p.high, Nat.mod_add_div]

theorem exec_high_latched (p : RcPair s f lo w) (hf : f < 64) {v : W32} (hv : tabGet? lo (getFn s f).rcLatch = some v) :
    exec (.rcRegisterRead f (.bar0 (lo + 4)) 4) s = .next (emit (.regRead f (lo + 4) v.toNat) (modFn f (dropLatch lo) s)) := by
  have ha := p.align
  rw [exec_rcRegisterRead_bar0 hf, barRead_four s (by omega)]
  simp only [read32, p.notDevTimeHigh, p.rcHigh, hv, if_false, show lo + 4 ≠ lo by omega]
  rfl

theorem exec_high_live (p : RcPair s f lo w) (hf : f < 64) (hn : tabGet? lo (getFn s f).rcLatch = none) :
    exec (.rcRegisterRead f (.bar0 (lo + 4)) 4) s = .next (emit (.regRead f (lo + 4) (w / 2 ^ 32)) s) := by
  have ha := p.align
  rw [exec_rcRegisterRead_bar0 hf, barRead_four s (by omega)]
  simp [read32, p.notDevTimeHigh, p.rcHigh, p.high, hn]

end RcPair

theorem half_high {w : Nat} (h : w < 2 ^ 64) : half true w = w / 2 ^ 32 := by
  simp only [half, if_true]; omega

/-- SC_UE_FIRST (10 R240). -/
theorem rcPair_ueFirst (s : State) {k : Nat} (hk : k < 8) (hw : ueFirstWord (getStk s k) < 2 ^ 64) :
    RcPair s 0 (stackOff k 0x160) (ueFirstWord (getStk s k)) where
  align := by unfold stackOff; omega
  rcLow := by unfold rc64 stackOff; rw [if_neg (by omega), if_pos (by omega)]; congr 1; omega
  rcHigh := by unfold rc64 stackOff; rw [if_neg (by omega), if_pos (by omega)]; congr 1; omega
  low := reg32_stackOff s hk (by omega) (by omega)
  high := (reg32_stackOff (r := 0x164) s hk (by omega) (by omega)).trans (half_high hw)

theorem violWord_lt (x : Fn) : violWord x < 2 ^ 64 := by
  unfold violWord b2n
  split
  · split <;> omega
  · omega

/-- PX_BAR4_VIOL (14 R338). -/
theorem rcPair_viol (s : State) (f : Nat) : RcPair s f 0x410 (violWord (getFn s f)) where
  align := rfl
  rcLow := rfl
  rcHigh := rfl
  low := rfl
  high := half_high (violWord_lt _)

/-! ### The statement -/

/-- Settles O28. The two 64-bit registers with RC fields are both an `RcPair`, whose four reads say what is answered and
latched; the other reads are plain ones, told apart by what `clearRc` clears at their offset. -/
theorem readsClearOnlyReadClearFields : Obligations.ReadsClearOnlyReadClearFields := by
  unfold Obligations.ReadsClearOnlyReadClearFields
  intro s fn hfn
  refine ⟨fun k lo w hk hlo hw hlt => ?ueFirst, fun w hw => ?viol, ?switchMax, fun k hk => ?hostWaitMax, fun off size ha => ?misaligned,
    fun off ha lo hi => ?noRcField, fun off ha => ?doorbell, fun r size hc => ?config⟩
  case ueFirst =>
    obtain rfl : lo = stackOff k 0x160 := hlo
    subst hw
    have pf : 0 < 64 := by decide
    have p := rcPair_ueFirst s hk hlt
    refine ⟨⟨_, p.exec_low pf, ?_⟩, ⟨_, p.exec_whole pf, ?_⟩, fun v hv => ⟨_, p.exec_high_latched pf hv, ?_⟩, p.exec_high_live pf⟩
    · rw [clearRc_ueFirst _ hk]
      exact ⟨rfl, by simp, by simp, fun j n => by simp [getStk_modStk_ne _ _ n], fun f n => by simp [getFn_modFn_ne _ _ n], rfl⟩
    · rw [clearRc_ueFirst _ hk]
      exact emit_modStk_leaves ..
    · exact ⟨rfl, by simp, fun f n => by simp [getFn_modFn_ne _ _ n], rfl⟩
  case viol =>
    subst hw
    have p := rcPair_viol s fn
    refine ⟨⟨_, p.exec_low hfn, ?_⟩, ⟨_, p.exec_whole hfn, ?_⟩, fun v hv => ⟨_, p.exec_high_latched hfn hv, ?_⟩, p.exec_high_live hfn⟩
    · rw [clearRc_viol]
      exact ⟨rfl, by simp, by simp, fun f n => by simp [getFn_modFn_ne _ _ n], rfl⟩
    · rw [clearRc_viol]
      exact emit_modFn_leaves ..
    · exact ⟨rfl, by simp, by simp, fun f n => by simp [getFn_modFn_ne _ _ n], rfl⟩
  case switchMax =>
    refine ⟨_, exec_read_plain s hfn rfl (by decide) rfl, ?_⟩
    rw [clearRc_switchMax]
    exact emit_modFn_leaves ..
  case hostWaitMax =>
    have plain : rc64 (stackOff k 0x20) = none := by unfold rc64 stackOff; rw [if_neg (by omega), if_neg (by omega)]
    refine ⟨_, exec_read_plain (off := stackOff k 0x20) s (by decide) (by unfold stackOff; omega) (by unfold stackOff; omega) plain, ?_⟩
    rw [reg32_stackOff s hk (by decide) (by decide), clearRc_hostWaitMax s hk]
    exact emit_modStk_leaves ..
  case misaligned =>
    refine ⟨_, exec_rcRegisterRead_bar0 hfn off size s, ?_⟩
    rw [barRead_misaligned s ha]
    exact emit_modFn_leaves ..
  case noRcField =>
    have plain : rc64 off = none := by unfold rc64; rw [if_neg (by omega), if_neg (by omega)]
    rw [exec_read_plain s hfn ha (by omega) plain, clearRc_noRcField s lo hi]
    rfl
  case doorbell =>
    rw [exec_rcRegisterRead_bar2 hfn, pageRead_four s ha]
    rfl
  case config =>
    rw [exec_rcRegisterRead_config hfn, configRead, if_pos hc]
    rfl

end Sys2Proof.Machine

/-! COMMAND_COMPLETION (08 R182 to R190, R199): which part of the state each of its four steps may touch. The signal and the
effect come first, then the command goes, then it is reported by a record. -/

namespace Sys2Proof.Machine

/-! ### The commands that are left -/

/-- The live commands without the one with handle `h`. -/
def dropCmd (h : Nat) (s : State) : State := { s with cmds := s.cmds.filter fun x => x.handle != h }

theorem getCmd?_dropCmd_same (h : Nat) (s : State) : getCmd? (dropCmd h s) h = none := by
  unfold getCmd? dropCmd
  rw [List.find?_filter, List.find?_eq_none]
  simp

theorem getCmd?_dropCmd_ne {h k : Nat} (s : State) (n : k ≠ h) : getCmd? (dropCmd h s) k = getCmd? s k := by
  unfold getCmd? dropCmd
  rw [List.find?_filter]
  congr 1
  funext x
  by_cases e : x.handle = k
  · simp [e, n]
  · simp [e]

theorem getCmd?_of_cmds_eq {s t : State} (e : t.cmds = s.cmds) (k : Nat) : getCmd? t k = getCmd? s k := by
  unfold getCmd?
  rw [e]

theorem CmdsGo.of_cmds_eq {s t : State} (e : t.cmds = s.cmds) : CmdsGo s t := by
  unfold CmdsGo
  rw [e]
  exact CmdsGo.refl s

theorem CmdsGo.drop {s t : State} (g : CmdsGo s t) (h : Nat) : CmdsGo (dropCmd h s) (dropCmd h t) :=
  List.rel_filter (fun _ _ x => by dsimp only; rw [x.same.1]) g

/-- No command appears: a handle that is not live stays so. -/
theorem CmdsGo.get_none {s t : State} (g : CmdsGo s t) {k : Nat} (e : getCmd? s k = none) : getCmd? t k = none := by
  unfold CmdsGo at g
  unfold getCmd? at *
  generalize s.cmds = l, t.cmds = m at *
  induction g with
  | nil => rfl
  | cons x _ ih =>
    rw [List.find?_cons] at e ⊢
    rw [x.same.1]
    split at e
    · cases e
    · exact ih e

/-! ### The objects that a completion brings about or ends -/

/-- The state but for the objects of the tenants: queues, allocations, granules, descriptors, bundles and adapter slots. -/
def apartFromObjects (s : State) : State :=
  { s with fns := [], tenants := [], allocs := [], granules := [], bundles := [], adapters := [] }

theorem cmds_of_apartFromObjects {s t : State} (e : apartFromObjects t = apartFromObjects s) : t.cmds = s.cmds := by
  simpa only [apartFromObjects] using congrArg State.cmds e

theorem ctrs_of_apartFromObjects {s t : State} (e : apartFromObjects t = apartFromObjects s) : t.ctrs = s.ctrs := by
  simpa only [apartFromObjects] using congrArg State.ctrs e

theorem modTen_apartFromObjects (k : Nat) (g : Tenant → Tenant) (s : State) : apartFromObjects (modTen k g s) = apartFromObjects s := by
  rw [modTen_eq]; rfl

theorem forEach_apartFromObjects {α : Type} {f : α → State → State} (hf : ∀ a s, apartFromObjects (f a s) = apartFromObjects s)
    (l : List α) (s : State) : apartFromObjects (forEach f l s) = apartFromObjects s := by
  induction l generalizing s with
  | nil => rfl
  | cons a t ih => exact (ih (f a s)).trans (hf a s)

theorem freeAllocs_apartFromObjects (p : Nat → Alloc → Bool) (s : State) : apartFromObjects (freeAllocs p s) = apartFromObjects s := rfl

theorem dropDescs_apartFromObjects (ds : List (Nat × Nat)) (s : State) : apartFromObjects (dropDescs ds s) = apartFromObjects s :=
  forEach_apartFromObjects (fun _ _ => modTen_apartFromObjects ..) ds s

theorem bornDesc_apartFromObjects (c : Cmd) (s : State) : apartFromObjects (bornDesc c s) = apartFromObjects s := by
  unfold bornDesc
  split
  · exact modTen_apartFromObjects ..
  · rfl

/-- TENANT_DESTROY alone also lets runs be placed anew, on the tiles that it frees. -/
theorem completed_apartFromObjects {c : Cmd} (s : State) (n : c.pkt.opcode ≠ 0x0102) : apartFromObjects (completed c s) = apartFromObjects s := by
  unfold completed
  dsimp only
  split
  case h_1 e => exact absurd e n
  case h_4 => -- FREE
    exact (freeAllocs_apartFromObjects ..).trans (dropDescs_apartFromObjects ..)
  case h_5 => -- DESC_CREATE
    exact bornDesc_apartFromObjects c s
  case h_6 => -- DESC_DESTROY
    exact dropDescs_apartFromObjects ..
  all_goals rfl

theorem undone_apartFromObjects (c : Cmd) (s : State) : apartFromObjects (undone c s) = apartFromObjects s := by
  unfold undone
  dsimp only
  split
  case h_2 => -- TENANT_DESTROY
    exact modTen_apartFromObjects ..
  case h_5 => -- FREE
    exact forEach_apartFromObjects (fun _ _ => modTen_apartFromObjects ..) _ _
  case h_6 => -- DESC_DESTROY
    exact modTen_apartFromObjects ..
  all_goals rfl

theorem completed_goes (c : Cmd) (s : State) : CmdsGo s (completed c s) := by
  by_cases e : c.pkt.opcode = 0x0102
  · have eff : completed c s = schedule (freeTenant (pk c.pkt 1) s) := by simp only [completed, e]
    rw [eff]
    exact schedule_goes _ (freeTenant_goes _ _ (CmdsGo.refl s))
  · exact .of_cmds_eq (cmds_of_apartFromObjects (completed_apartFromObjects s e))

theorem undone_goes (c : Cmd) (s : State) : CmdsGo s (undone c s) :=
  .of_cmds_eq (cmds_of_apartFromObjects (undone_apartFromObjects c s))

/-- What the completion of a command with this status does, or undoes. -/
def completionEffect (c : Cmd) (status : Nat) (s : State) : State :=
  if signalsOn status then completed c s else undone c s

theorem completionEffect_goes (c : Cmd) (status : Nat) (s : State) : CmdsGo s (completionEffect c status s) := by
  unfold completionEffect
  split
  · exact completed_goes c s
  · exact undone_goes c s

theorem completionEffect_ctrs {c : Cmd} (status : Nat) (s : State) (n : c.pkt.opcode ≠ 0x0102) : (completionEffect c status s).ctrs = s.ctrs := by
  unfold completionEffect
  split
  · exact ctrs_of_apartFromObjects (completed_apartFromObjects s n)
  · exact ctrs_of_apartFromObjects (undone_apartFromObjects c s)

/-! ### The signal (08 R190) -/

theorem applySignal_goes (c : Cmd) (status : Nat) (s : State) : CmdsGo s (applySignal c status s) :=
  whenS_goes _ _ _ (fun _ g => signalCtr_goes _ _ _ _ g) (CmdsGo.refl s)

theorem applySignal_ctrs (c : Cmd) (status : Nat) (s : State) : (applySignal c status s).ctrs =
    if bitOf c.pkt.flags 0 && signalsOn status then (signalCtr c.tenant c.pkt.counter c.pkt.signalN s).ctrs else s.ctrs := by
  unfold applySignal whenS
  split <;> rfl

theorem applySignal_unasked {c : Cmd} (status : Nat) (s : State) (n : bitOf c.pkt.flags 0 = false) : applySignal c status s = s := by
  simp [applySignal, whenS, n]

/-! ### The record and its interrupt (08 R182, R199; 14 R342) -/

/-- The state but for what a record touches: the ring's registers and the interrupt's, host memory and outputs. -/
def apartFromRecord (s : State) : State := { s with fns := [], mem := { s.mem with host := [] }, out := [] }

theorem eq_of_apartFromRecord {s t : State} (e : apartFromRecord t = apartFromRecord s) :
    t = { s with fns := t.fns, mem := { s.mem with host := t.mem.host }, out := t.out } :=
  calc
    t = { apartFromRecord t with fns := t.fns, mem := { (apartFromRecord t).mem with host := t.mem.host }, out := t.out } := rfl
    _ = { apartFromRecord s with fns := t.fns, mem := { (apartFromRecord s).mem with host := t.mem.host }, out := t.out } := by rw [e]

theorem cmds_of_apartFromRecord {s t : State} (e : apartFromRecord t = apartFromRecord s) : t.cmds = s.cmds := by
  rw [eq_of_apartFromRecord e]

theorem ctrs_of_apartFromRecord {s t : State} (e : apartFromRecord t = apartFromRecord s) : t.ctrs = s.ctrs := by
  rw [eq_of_apartFromRecord e]

theorem modFn_apartFromRecord (f : Nat) (g : Fn → Fn) (s : State) : apartFromRecord (modFn f g s) = apartFromRecord s := rfl

theorem emit_apartFromRecord (o : Output) (s : State) : apartFromRecord (emit o s) = apartFromRecord s := rfl

theorem hostWrite_apartFromRecord (fn a : Nat) (bs : List Byte) (s : State) : apartFromRecord (hostWrite fn a bs s) = apartFromRecord s := rfl

theorem sendMsix_apartFromRecord (f v : Nat) (s : State) : apartFromRecord (sendMsix f v s) = apartFromRecord s := by
  unfold sendMsix
  dsimp only
  repeat' split
  all_goals rfl

theorem vecEvent_apartFromRecord (f v : Nat) (s : State) : apartFromRecord (vecEvent f v s) = apartFromRecord s := by
  unfold vecEvent
  dsimp only
  repeat' split
  · rfl
  · exact sendMsix_apartFromRecord ..
  · rfl

section
variable (t kind : Nat) (late rc : Bool) (st tag h op sq ck sh v : Nat) (s : State)

theorem writeRecord_apartFromRecord : apartFromRecord (writeRecord t kind late rc st tag h op sq ck sh v s) = apartFromRecord s := by
  unfold writeRecord
  dsimp only
  split
  · rfl
  · exact (modFn_apartFromRecord ..).trans (hostWrite_apartFromRecord ..)

theorem writeRecord_cqTail (hb : (getFn s t).cqBad = false) :
    (getFn (writeRecord t kind late rc st tag h op sq ck sh v s) t).cqTail = ((getFn s t).cqTail + 1) % cqSize (getFn s t) := by
  unfold writeRecord
  rw [if_neg (by simp [hb]), getFn_modFn]

end

/-- What `g` keeps, `g` under a condition keeps. -/
theorem whenS_keeps {α : Type} (p : State → α) {g : State → State} (hg : ∀ s, p (g s) = p s) (b : Bool) (s : State) :
    p (whenS b g s) = p s := by
  unfold whenS
  split
  · exact hg s
  · rfl

section
variable (c : Cmd) (late : Bool) (outs : List Nat) (s : State)

/-- The write of the completion record alone. -/
def completionRecord : State :=
  writeRecord c.tenant 2 late (outs.contains stRecomputed) (statusOf outs) c.pkt.tag c.handle c.pkt.opcode c.sq 0 0 c.value s

/-- What an interrupt event and the count of late commands keep stays as the record's write leaves it. -/
theorem completeWith_keeps {α : Type} (p : State → α) (hv : ∀ v s, p (vecEvent c.tenant v s) = p s)
    (hl : ∀ s, p (modFn c.tenant (fun f => { f with late := f.late + 1 }) s) = p s) :
    p (completeWith c late outs s) = p (completionRecord c late outs s) :=
  (whenS_keeps p (fun _ => hv ..) _ _).trans (whenS_keeps p hl _ _)

theorem completeWith_apartFromRecord : apartFromRecord (completeWith c late outs s) = apartFromRecord s :=
  (completeWith_keeps c late outs s _ (vecEvent_apartFromRecord c.tenant) (modFn_apartFromRecord _ _)).trans (writeRecord_apartFromRecord ..)

theorem completeWith_record (hb : (getFn s c.tenant).cqBad = false) :
    hostRead (completeWith c late outs s) (cqBaseOf (getFn s c.tenant) + 32 * (getFn s c.tenant).cqTail) 32 =
      recordBytes 2 (rflags (getFn s c.tenant).cqPhase late (outs.contains stRecomputed)) (statusOf outs) c.pkt.tag c.handle c.pkt.opcode
        c.sq 0 0 c.value := by
  have m := completeWith_keeps c late outs s (·.mem) (vecEvent_mem c.tenant) fun _ => rfl
  unfold hostRead
  rw [m]
  exact writeRecord_read (hb := hb) ..

theorem completeWith_cqTail (hb : (getFn s c.tenant).cqBad = false) :
    (getFn (completeWith c late outs s) c.tenant).cqTail = ((getFn s c.tenant).cqTail + 1) % cqSize (getFn s c.tenant) :=
  (completeWith_keeps c late outs s (fun s => (getFn s c.tenant).cqTail) (fun v => vecEvent_cqTail c.tenant v c.tenant)
    fun _ => modFn_cqTail _ _ _ _ fun _ => rfl).trans (writeRecord_cqTail (hb := hb) ..)

/-- The report of a completion: a record, or the answer to a request of the Henua controller. -/
def reportCompletion : State := if c.silent then answerHenua c outs s else completeWith c late outs s

theorem reportCompletion_apartFromRecord : apartFromRecord (reportCompletion c late outs s) = apartFromRecord s := by
  unfold reportCompletion
  split
  · exact whenS_keeps _ (emit_apartFromRecord _) _ _
  · exact completeWith_apartFromRecord c late outs s

theorem reportCompletion_goes : CmdsGo s (reportCompletion c late outs s) :=
  .of_cmds_eq (cmds_of_apartFromRecord (reportCompletion_apartFromRecord c late outs s))

theorem reportCompletion_ctrs : (reportCompletion c late outs s).ctrs = s.ctrs :=
  ctrs_of_apartFromRecord (reportCompletion_apartFromRecord c late outs s)

end

theorem releaseHeldWake_goes (s : State) : CmdsGo s (releaseHeldWake s) := by
  unfold releaseHeldWake
  repeat' split
  · exact CmdsGo.refl s
  · exact CmdsGo.refl s
  · exact startWake_goes _ _ (CmdsGo.refl s)

/-! ### The row -/

/-- The state after the completion of `c`, before a held wake begins. -/
def completeCmd (c : Cmd) (s : State) : State :=
  let outs := finalOutcomes s c
  reportCompletion c (decide (deadlineOf s c < now s)) outs
    (dropCmd c.handle (completionEffect c (statusOf outs) (applySignal c (statusOf outs) s)))

/-- POWER_STATE alone lets a held wake begin (17 R401). -/
theorem exec_commandCompletion {s : State} {h : Nat} {c : Cmd} (e : getCmd? s h = some c) (m : mayComplete s c = true) :
    exec (.commandCompletion h) s = .next (if c.pkt.opcode = 0x0703 then releaseHeldWake (completeCmd c s) else completeCmd c s) := by
  show execCommandCompletion h s = _
  unfold execCommandCompletion completeCmd
  rw [e, getCmd?_handle e]
  exact if_pos m

theorem completeCmd_goes (c : Cmd) (s : State) : CmdsGo (dropCmd c.handle s) (completeCmd c s) :=
  (((applySignal_goes c _ s).trans (completionEffect_goes c _ _)).drop c.handle).trans (reportCompletion_goes c _ _ _)

theorem completeCmd_ctrs {c : Cmd} (s : State) (n : c.pkt.opcode ≠ 0x0102) : (completeCmd c s).ctrs =
    if bitOf c.pkt.flags 0 && signalsOn (statusOf (finalOutcomes s c)) then (signalCtr c.tenant c.pkt.counter c.pkt.signalN s).ctrs
    else s.ctrs := by
  rw [← applySignal_ctrs, ← completionEffect_ctrs _ (applySignal c _ s) n]
  exact reportCompletion_ctrs c _ _ _

/-- A command without SIGNAL that is not silent: its effect, its end and its record. -/
theorem completeCmd_recorded {c : Cmd} (s : State) (ns : bitOf c.pkt.flags 0 = false) (nq : c.silent = false) :
    completeCmd c s = completeWith c (decide (deadlineOf s c < now s)) (finalOutcomes s c)
      (dropCmd c.handle (completionEffect c (statusOf (finalOutcomes s c)) s)) := by
  unfold completeCmd reportCompletion
  dsimp only
  rw [applySignal_unasked _ s ns, nq]
  rfl

/-! ### The statement -/

/-- Settles O24. `completeCmd` is the row but for the held wake of POWER_STATE; its counters are those of the signal, since
neither effect nor record touches them, and its record is written over the state that the effect leaves. -/
theorem completionWritesOneRecord : Obligations.CompletionWritesOneRecord := by
  unfold Obligations.CompletionWritesOneRecord
  intro s u h c e m hu
  obtain rfl : c.handle = h := getCmd?_handle e
  obtain rfl : u = completionEffect c (statusOf (finalOutcomes s c)) s := hu
  have goes : CmdsGo (dropCmd c.handle s) (if c.pkt.opcode = 0x0703 then releaseHeldWake (completeCmd c s) else completeCmd c s) := by
    split
    · exact (completeCmd_goes c s).trans (releaseHeldWake_goes _)
    · exact completeCmd_goes c s
  refine ⟨_, exec_commandCompletion e m, goes.get_none (getCmd?_dropCmd_same _ s), goes, fun np nt => ?counters, fun np ns nq hb => ?record⟩
  case counters =>
    rw [if_neg np]
    exact completeCmd_ctrs s nt
  case record =>
    rw [if_neg np, completeCmd_recorded s ns nq]
    have rest := completeWith_apartFromRecord c (decide (deadlineOf s c < now s)) (finalOutcomes s c)
      (dropCmd c.handle (completionEffect c (statusOf (finalOutcomes s c)) s))
    have cmds := cmds_of_apartFromRecord rest
    refine ⟨completeWith_record c _ _ _ hb, completeWith_cqTail c _ _ _ hb, fun k n => ?_, ?_⟩
    · exact (getCmd?_of_cmds_eq cmds k).trans (getCmd?_dropCmd_ne _ n)
    · rw [cmds]
      exact eq_of_apartFromRecord rest

end Sys2Proof.Machine

/-! COMMAND_START (08 R188; 12 R291; 05 R110): the scan for the lowest rank is the library's `List.argmin`; a dispatch then
touches the stage of one command and, for a copy, one descriptor queue. -/

namespace Sys2Proof.Machine

/-! ### The command that starts (12 R291) -/

section
variable {s : State} {c : Cmd}

theorem nextStart_eq_argmin (s : State) : nextStart s = (s.cmds.filter (startable s)).argmin (rankOf s) := by
  unfold nextStart List.argmin
  congr 1
  funext a c
  cases a <;> rfl

theorem nextStart_mem_filter (e : nextStart s = some c) : c ∈ s.cmds.filter (startable s) := by
  rw [nextStart_eq_argmin] at e
  exact List.argmin_mem e

theorem nextStart_rank_le {b : Cmd} (e : nextStart s = some c) (hb : b ∈ s.cmds) (st : startable s b = true) : rankOf s c ≤ rankOf s b := by
  rw [nextStart_eq_argmin] at e
  exact List.le_of_mem_argmin (List.mem_filter.2 ⟨hb, st⟩) e

theorem exists_getCmd?_of_mem (m : c ∈ s.cmds) : ∃ x, getCmd? s c.handle = some x :=
  Option.isSome_iff_exists.1 (List.find?_isSome.2 ⟨c, m, beq_self_eq_true _⟩)

/-! ### Its dispatch -/

/-- The state once command `h` is dispatched, before a run or a descriptor queue takes it up. -/
def dispatched (h : Nat) (s : State) : State := modCmd h (fun x => { x with stage := .running }) s

theorem getCmd?_dispatched (s : State) (h k : Nat) :
    getCmd? (dispatched h s) k = (getCmd? s k).map fun x => if x.handle == h then { x with stage := .running } else x := by
  unfold getCmd? dispatched modCmd
  rw [List.find?_map]
  congr 2
  funext x
  dsimp only [Function.comp]
  split <;> rfl

theorem getCmd?_dispatched_same {x : Cmd} {h : Nat} (e : getCmd? s h = some x) :
    getCmd? (dispatched h s) h = some { x with stage := .running } :=
  getCmd?_modCmd (fun x => { x with stage := .running }) rfl e

theorem getCmd?_dispatched_ne {h k : Nat} (n : k ≠ h) : getCmd? (dispatched h s) k = getCmd? s k :=
  getCmd?_modCmd_ne _ (fun _ => rfl) n

theorem exec_commandStart_run (e : nextStart s = some c) (o : c.pkt.opcode = 0x0303) :
    exec .commandStart s = .next (schedule { dispatched c.handle s with runs := tabPut c.handle (newRun c) s.runs }) := by
  show execCommandStart s = _
  unfold execCommandStart
  rw [e]
  exact congrArg Host.Outcome.next (if_pos o)

theorem exec_commandStart_other (e : nextStart s = some c) (o : c.pkt.opcode ≠ 0x0303) :
    exec .commandStart s = .next (joinSluice c (dispatched c.handle s)) := by
  show execCommandStart s = _
  unfold execCommandStart
  rw [e]
  exact congrArg Host.Outcome.next (if_neg o)

/-! ### A copy's descriptor queue (05 R110) -/

theorem joinSluice_eq (c : Cmd) (s : State) : joinSluice c s = { s with sluiceQ := (joinSluice c s).sluiceQ } := by
  unfold joinSluice
  split <;> rfl

theorem joinSluice_unbound (s : State) (b : sluiceBound c.pkt = false) : joinSluice c s = s := by
  simp [joinSluice, b]

theorem joinSluice_bound {e k : Nat} (b : sluiceBound c.pkt = true) (f : sluiceFor s c = some e)
    (hk : k = 8 * e + (if c.pkt.opcode = 0x0206 then cmdParam c 1 / 2 ^ 40 % 8 else 0)) :
    (joinSluice c s).sluiceQ = tabPut k ((tabGetD [] k s.sluiceQ).filter (fun h => (getCmd? s h).isSome) ++ [c.handle]) s.sluiceQ := by
  subst hk
  unfold joinSluice
  rw [if_pos b, f]
  rfl

theorem getCmd?_joinSluice (c : Cmd) (s : State) (k : Nat) : getCmd? (joinSluice c s) k = getCmd? s k :=
  getCmd?_of_cmds_eq (by rw [joinSluice_eq]) k

end

/-! ### The statement -/

/-- Settles O23. `nextStart` is the `argmin` of the rank over the startable commands; what it dispatches keeps its place among
the live commands, so the same commands are live when a copy joins its queue. -/
theorem startTakesTheLowestRank : Obligations.StartTakesTheLowestRank := by
  unfold Obligations.StartTakesTheLowestRank
  intro s c e
  obtain ⟨mem, may⟩ := List.mem_filter.1 (nextStart_mem_filter e)
  refine ⟨mem, may, fun _ => nextStart_rank_le e, fun o => ?other, fun o => ?run⟩
  case other =>
    obtain ⟨x, hx⟩ := exists_getCmd?_of_mem mem
    refine ⟨_, exec_commandStart_other e o, fun k n => ?_, ⟨x, hx, ?_⟩, ?_, fun b => ?_, fun d k b f hk => ?_⟩
    · rw [getCmd?_joinSluice, getCmd?_dispatched_ne n]
    · rw [getCmd?_joinSluice, getCmd?_dispatched_same hx]
    · rw [joinSluice_eq]
      rfl
    · rw [joinSluice_unbound _ b]
      rfl
    · rw [joinSluice_bound (s := dispatched c.handle s) b f hk]
      simp only [getCmd?_dispatched, Option.isSome_map]
      exact ⟨tabGetD_tabPut_same .., fun j n => tabGet?_tabPut_ne n ..⟩
  case run =>
    exact ⟨_, exec_commandStart_run e o, tabGet?_tabPut_same .., fun k n => ⟨tabGet?_tabPut_ne n .., getCmd?_dispatched_ne n⟩, rfl⟩

end Sys2Proof.Machine

/-! PACKET_ADMISSION (08 R170 to R185, R200): the fetch, then a refusal's record, an acceptance, or the halt. An acceptance is
taken in three steps: the command joins the live ones, its admission record is written, and its effects and its wake follow. -/

namespace Sys2Proof.Machine

/-! ### The entry that is fetched (08 R172, R179) -/

section
variable {s : State} {t q : Nat} {x : SubQ}

/-- An entry is fetched only while the tenant's completion queue is in use. -/
theorem fetchNext_cqInUse (e : fetchNext s = some (t, q)) : cqInUse (getFn s t) = true := by
  unfold fetchNext at e
  split at e
  · cases e
  · obtain ⟨k, -, hk⟩ := List.exists_of_findSome?_eq_some e
    split at hk
    case isTrue ready =>
      obtain ⟨r, -, hr⟩ := Option.map_eq_some_iff.1 hk
      obtain ⟨rfl, rfl⟩ := Prod.mk.inj hr
      simp only [Bool.and_eq_true] at ready
      obtain ⟨⟨-, inUse⟩, -⟩ := ready
      exact inUse
    case isFalse => cases hk

theorem fetchNext_cqBad (e : fetchNext s = some (t, q)) : (getFn s t).cqBad = false := by
  have h := fetchNext_cqInUse e
  simp only [cqInUse, Bool.and_eq_true, Bool.not_eq_true'] at h
  exact h.2

/-- The fetch moves the head of a submission queue and leaves the completion queue as it is. -/
theorem getFn_fetched (s : State) (t q : Nat) (x : SubQ) :
    ∃ a b, getFn (fetched s t q x) t = { getFn s t with sq0 := a, queues := b } := by
  have e : getFn (fetched s t q x) t = getFn (modQueue t q (fun y => { y with head := (x.head + 1) % 2 ^ x.log2 }) s) t := rfl
  rw [e, modQueue, getFn_modFn]
  split
  · exact ⟨_, _, rfl⟩
  · exact ⟨_, _, rfl⟩

theorem fetched_cmds (s : State) (t q : Nat) (x : SubQ) : (fetched s t q x).cmds = s.cmds := rfl
theorem fetched_seqs (s : State) (t q : Nat) (x : SubQ) : (fetched s t q x).seqs = s.seqs := rfl
theorem fetched_nextOrder (s : State) (t q : Nat) (x : SubQ) : (fetched s t q x).nextOrder = s.nextOrder := rfl
theorem fetched_tenants (s : State) (t q : Nat) (x : SubQ) : (fetched s t q x).tenants = s.tenants := rfl

section
variable {p : Packet} (hn : fetchNext s = some (t, q)) (hx : subqOf s t q = some x)

include hn hx in
theorem exec_packetAdmission_halts {m : Nat} (hm : 2 ≤ m) :
    exec (.packetAdmission m) s = .next (haltAdmission t (fetched s t q x)) := by
  show execPacketAdmission m s = _
  unfold execPacketAdmission
  rw [hn]
  dsimp only
  rw [hx]
  exact if_pos hm

variable (hp : p = parsePacket (hostRead s (x.base + 64 * x.head) 64))
include hn hx hp

theorem exec_packetAdmission_refused {v : Nat × Nat} (hv : verdict (fetched s t q x) t p = some v) :
    exec (.packetAdmission 0) s = .next (refusePacket t q ((x.head + 1) % 2 ^ x.log2) p v (fetched s t q x)) := by
  show execPacketAdmission 0 s = _
  unfold fetched at hv ⊢
  simp [execPacketAdmission, hn, hx, ← hp, hv, whenS]

theorem exec_packetAdmission_accepted (hv : verdict (fetched s t q x) t p = none) :
    exec (.packetAdmission 0) s = .next (acceptPacket t q ((x.head + 1) % 2 ^ x.log2) p (fetched s t q x)) := by
  show execPacketAdmission 0 s = _
  unfold fetched at hv ⊢
  simp [execPacketAdmission, hn, hx, ← hp, hv, whenS]

end

theorem exec_packetAdmission_idle (m : Nat) (hn : fetchNext s = none) : exec (.packetAdmission m) s = .next s := by
  show execPacketAdmission m s = _
  unfold execPacketAdmission
  rw [hn]

end

/-! ### What an admission record leaves -/

theorem seqs_of_apartFromRecord {s t : State} (e : apartFromRecord t = apartFromRecord s) : t.seqs = s.seqs := by
  rw [eq_of_apartFromRecord e]

theorem tenants_of_apartFromRecord {s t : State} (e : apartFromRecord t = apartFromRecord s) : t.tenants = s.tenants := by
  rw [eq_of_apartFromRecord e]

theorem nextOrder_of_apartFromRecord {s t : State} (e : apartFromRecord t = apartFromRecord s) : t.nextOrder = s.nextOrder := by
  rw [eq_of_apartFromRecord e]

/-! ### A refused packet (08 R183, R184) -/

section
variable (t q head : Nat) (p : Packet) (v : Nat × Nat) (s : State)

theorem refusePacket_apartFromRecord : apartFromRecord (refusePacket t q head p v s) = apartFromRecord s :=
  (vecEvent_apartFromRecord ..).trans (writeRecord_apartFromRecord ..)

theorem refusePacket_record (hb : (getFn s t).cqBad = false) :
    hostRead (refusePacket t q head p v s) (cqBaseOf (getFn s t) + 32 * (getFn s t).cqTail) 32 =
      recordBytes 1 (rflags (getFn s t).cqPhase false false) v.1 p.tag 0 p.opcode q v.2 head (now s) := by
  unfold refusePacket cqEvent hostRead
  rw [vecEvent_mem]
  exact writeRecord_read (hb := hb) ..

theorem refusePacket_cqTail (hb : (getFn s t).cqBad = false) :
    (getFn (refusePacket t q head p v s) t).cqTail = ((getFn s t).cqTail + 1) % cqSize (getFn s t) :=
  (vecEvent_cqTail ..).trans (writeRecord_cqTail (hb := hb) ..)

end

/-! ### An accepted packet (08 R183, R185, R189) -/

section
variable (t q head : Nat) (p : Packet) (s : State)

/-- The command that a packet becomes: the tenant's next handle. -/
def packetCmd : Cmd := admitCmd s t q p (t * 2 ^ 56 + tabGetD 1 t s.seqs)

/-- The state once the command has joined the live ones. -/
def joined : State :=
  { hostFetches t p s with cmds := s.cmds ++ [packetCmd t q p s], nextOrder := s.nextOrder + 1, seqs := tabPut t (tabGetD 1 t s.seqs + 1) s.seqs }

/-- The state once its admission record is written, too. -/
def announced : State :=
  writeRecord t 1 false false stAccepted p.tag (t * 2 ^ 56 + tabGetD 1 t s.seqs) p.opcode q 0 head (now s) (joined t q p s)

theorem acceptPacket_eq : acceptPacket t q head p s =
    whenS (decide (0 < wakeClass s t p)) (wakeSource 2 (wakeClass s t p == 2)) (admitEffects (packetCmd t q p s) (announced t q head p s)) := rfl

theorem announced_apartFromRecord : apartFromRecord (announced t q head p s) = apartFromRecord (joined t q p s) :=
  writeRecord_apartFromRecord ..

theorem hostFetches_eq : hostFetches t p s = { s with out := (hostFetches t p s).out } := by
  unfold hostFetches
  repeat' split
  all_goals rfl

theorem getFn_joined (k : Nat) : getFn (joined t q p s) k = getFn s k := by
  unfold joined
  rw [hostFetches_eq]
  rfl

theorem announced_cmds : (announced t q head p s).cmds = s.cmds ++ [packetCmd t q p s] :=
  cmds_of_apartFromRecord (announced_apartFromRecord ..)

theorem announced_seqs : (announced t q head p s).seqs = tabPut t (tabGetD 1 t s.seqs + 1) s.seqs :=
  seqs_of_apartFromRecord (announced_apartFromRecord ..)

theorem announced_nextOrder : (announced t q head p s).nextOrder = s.nextOrder + 1 :=
  nextOrder_of_apartFromRecord (announced_apartFromRecord ..)

theorem announced_tenants : (announced t q head p s).tenants = s.tenants := by
  rw [tenants_of_apartFromRecord (announced_apartFromRecord ..), joined, hostFetches_eq]

theorem announced_record (hb : (getFn s t).cqBad = false) :
    hostRead (announced t q head p s) (cqBaseOf (getFn s t) + 32 * (getFn s t).cqTail) 32 =
      recordBytes 1 (rflags (getFn s t).cqPhase false false) stAccepted p.tag (t * 2 ^ 56 + tabGetD 1 t s.seqs) p.opcode q 0 head (now s) := by
  have j := getFn_joined t q p s t
  rw [← j] at hb ⊢
  exact writeRecord_read (hb := hb) ..

end

/-! ### The effects at admission (08 R189, R193; 13 R313) -/

theorem admitEffects_deadline {c : Cmd} (s : State) (e : c.pkt.opcode = 0x0105) : admitEffects c s =
    schedule (modTen c.tenant (fun t => { t with deadlines := tabPut (pk c.pkt 1) (pk c.pkt 0) t.deadlines }) s) := by
  simp only [admitEffects, e]

/-- All but GROUP_DEADLINE mark objects of the tenants, or set the module's number. -/
theorem admitEffects_apartFromObjects {c : Cmd} (s : State) (n : c.pkt.opcode ≠ 0x0105) :
    ∃ d, apartFromObjects (admitEffects c s) = apartFromObjects { s with dpt := d } := by
  unfold admitEffects
  dsimp only
  split
  case h_1 => exact ⟨_, modTen_apartFromObjects ..⟩ -- TENANT_DESTROY
  case h_3 e => exact absurd e n
  case h_4 => exact ⟨_, forEach_apartFromObjects (fun _ _ => modTen_apartFromObjects ..) _ _⟩ -- FREE
  case h_5 => exact ⟨_, modTen_apartFromObjects ..⟩ -- DESC_DESTROY
  all_goals exact ⟨_, rfl⟩

section
variable {c : Cmd} (s : State)

theorem admitEffects_cmds (n : c.pkt.opcode ≠ 0x0105) : (admitEffects c s).cmds = s.cmds := by
  obtain ⟨d, e⟩ := admitEffects_apartFromObjects s n
  exact (cmds_of_apartFromObjects e).trans rfl

theorem admitEffects_mem (n : c.pkt.opcode ≠ 0x0105) : (admitEffects c s).mem = s.mem := by
  obtain ⟨d, e⟩ := admitEffects_apartFromObjects s n
  simpa only [apartFromObjects] using congrArg State.mem e

/-- A GROUP_DEADLINE lets runs be placed anew, which goes on with every live command. -/
theorem admitEffects_goes (c : Cmd) : CmdsGo s (admitEffects c s) := by
  by_cases n : c.pkt.opcode = 0x0105
  · rw [admitEffects_deadline s n]
    exact schedule_goes _ (modTen_goes _ _ _ (CmdsGo.refl s))
  · exact .of_cmds_eq (admitEffects_cmds s n)

theorem schedule_seqs : (schedule s).seqs = s.seqs := by
  rw [schedule_work s (WorkOnly.refl s)]

theorem schedule_nextOrder : (schedule s).nextOrder = s.nextOrder := by
  rw [schedule_work s (WorkOnly.refl s)]

theorem admitEffects_seqs (c : Cmd) : (admitEffects c s).seqs = s.seqs := by
  by_cases n : c.pkt.opcode = 0x0105
  · rw [admitEffects_deadline s n, schedule_seqs, modTen_seqs]
  · obtain ⟨d, e⟩ := admitEffects_apartFromObjects s n
    simpa only [apartFromObjects] using congrArg State.seqs e

theorem admitEffects_nextOrder (c : Cmd) : (admitEffects c s).nextOrder = s.nextOrder := by
  by_cases n : c.pkt.opcode = 0x0105
  · rw [admitEffects_deadline s n, schedule_nextOrder, modTen_nextOrder]
  · obtain ⟨d, e⟩ := admitEffects_apartFromObjects s n
    simpa only [apartFromObjects] using congrArg State.nextOrder e

end

/-! ### The wake (17 R400) -/

/-- A wake source touches the power management alone, and the free values that LAST_WAKE takes. -/
theorem wakeSource_eq (code : Nat) (idle : Bool) (s : State) :
    wakeSource code idle s = { s with pm := (wakeSource code idle s).pm, freeCtr := (wakeSource code idle s).freeCtr } := by
  unfold wakeSource startWake freshByte modPm
  dsimp only
  repeat' split
  all_goals rfl

/-! ### The acceptance as a whole -/

section
variable (t q head : Nat) (p : Packet) (s : State)

/-- What a wake source keeps is as the effects at admission leave it. -/
theorem acceptPacket_keeps {α : Type} (k : State → α) (hk : ∀ code idle s, k (wakeSource code idle s) = k s) :
    k (acceptPacket t q head p s) = k (admitEffects (packetCmd t q p s) (announced t q head p s)) :=
  whenS_keeps k (hk _ _) _ _

theorem acceptPacket_goes : List.Forall₂ CmdGoes (s.cmds ++ [packetCmd t q p s]) (acceptPacket t q head p s).cmds := by
  rw [acceptPacket_keeps t q head p s State.cmds fun _ _ _ => by rw [wakeSource_eq], ← announced_cmds t q head p s]
  exact admitEffects_goes (announced t q head p s) _

theorem acceptPacket_seqs : (acceptPacket t q head p s).seqs = tabPut t (tabGetD 1 t s.seqs + 1) s.seqs := by
  rw [acceptPacket_keeps t q head p s State.seqs fun _ _ _ => by rw [wakeSource_eq], admitEffects_seqs, announced_seqs]

theorem acceptPacket_nextOrder : (acceptPacket t q head p s).nextOrder = s.nextOrder + 1 := by
  rw [acceptPacket_keeps t q head p s State.nextOrder fun _ _ _ => by rw [wakeSource_eq], admitEffects_nextOrder, announced_nextOrder]

theorem acceptPacket_record {p : Packet} (n : p.opcode ≠ 0x0105) (hb : (getFn s t).cqBad = false) :
    hostRead (acceptPacket t q head p s) (cqBaseOf (getFn s t) + 32 * (getFn s t).cqTail) 32 =
      recordBytes 1 (rflags (getFn s t).cqPhase false false) stAccepted p.tag (t * 2 ^ 56 + tabGetD 1 t s.seqs) p.opcode q 0 head (now s) := by
  have m : (acceptPacket t q head p s).mem = (announced t q head p s).mem :=
    (acceptPacket_keeps t q head p s State.mem fun _ _ _ => by rw [wakeSource_eq]).trans (admitEffects_mem _ n)
  unfold hostRead
  rw [m]
  exact announced_record t q head p s hb

/-- A GROUP_DEADLINE wakes nothing. -/
theorem acceptPacket_deadline {p : Packet} (e : p.opcode = 0x0105) : acceptPacket t q head p s =
    schedule (modTen t (fun x => { x with deadlines := tabPut (pk p 1) (pk p 0) x.deadlines }) (announced t q head p s)) := by
  have w : wakeClass s t p = 0 := by simp only [wakeClass, e]
  rw [acceptPacket_eq, w]
  exact admitEffects_deadline _ e

end

/-! ### The halt (08 R170) -/

theorem forEach_data {s0 : State} {α : Type} {f : α → State → State} (hf : ∀ a s, DataOnly s0 s → DataOnly s0 (f a s)) (l : List α) (s : State)
    (h : DataOnly s0 s) : DataOnly s0 (forEach f l s) := by
  induction l generalizing s with
  | nil => exact h
  | cons a l ih => exact ih _ (hf a s h)

theorem setCauseAll_data {s0 : State} (bit : Nat) (s : State) (h : DataOnly s0 s) : DataOnly s0 (setCauseAll bit s) :=
  forEach_data (fun _ _ g => setCause_data _ _ _ g) _ _ h

/-- Beside the stop and FAULT_N, the halt leaves a fault record, an event and its interrupts. -/
theorem haltAdmission_data (t : Nat) (s : State) :
    DataOnly (modBoard (fun b => { b with faultN := false }) { s with halted := true }) (haltAdmission t s) :=
  setCauseAll_data _ _ (henuaEvent_data _ _ _ _ (recordFault_data _ _ _ _ _ _ _ (DataOnly.refl _)))

/-! ### The statement -/

/-- Settles O22. The fetch leaves the registers of the completion queue as they are, so each record lies where that queue's tail
stood; what follows an acceptance's record goes on with every live command and, but for GROUP_DEADLINE, leaves memory. -/
theorem admissionAnswersOnePacket : Obligations.AdmissionAnswersOnePacket := by
  unfold Obligations.AdmissionAnswersOnePacket
  intro s m
  refine ⟨exec_packetAdmission_idle m, fun t q x p hn hx hp => ?_⟩
  obtain ⟨a, b, hf⟩ := getFn_fetched s t q x
  have hb : (getFn (fetched s t q x) t).cqBad = false := by rw [hf]; exact fetchNext_cqBad hn
  have base : cqBaseOf (getFn (fetched s t q x) t) = cqBaseOf (getFn s t) := by rw [hf]; rfl
  have size : cqSize (getFn (fetched s t q x) t) = cqSize (getFn s t) := by rw [hf]; rfl
  have tail : (getFn (fetched s t q x) t).cqTail = (getFn s t).cqTail := by rw [hf]
  have phase : (getFn (fetched s t q x) t).cqPhase = (getFn s t).cqPhase := by rw [hf]
  refine ⟨fun v hm hv => ?refused, fun hm hv => ?accepted, fun y hm hv o hy => ?deadline, fun hm => ?halted⟩
  case refused =>
    subst hm
    have rest := refusePacket_apartFromRecord t q ((x.head + 1) % 2 ^ x.log2) p v (fetched s t q x)
    refine ⟨_, exec_packetAdmission_refused hn hx hp hv, (cmds_of_apartFromRecord rest).trans (fetched_cmds ..),
      (seqs_of_apartFromRecord rest).trans (fetched_seqs ..), ?_, ?_⟩
    · rw [← base, ← tail, ← phase]
      exact refusePacket_record (hb := hb) ..
    · rw [← tail, ← size]
      exact refusePacket_cqTail (hb := hb) ..
  case accepted =>
    subst hm
    rw [← fetched_cmds s t q x, ← fetched_nextOrder s t q x, ← fetched_seqs s t q x]
    refine ⟨_, exec_packetAdmission_accepted hn hx hp hv, acceptPacket_goes .., ?_, acceptPacket_nextOrder .., fun o => ?_⟩
    · rw [acceptPacket_seqs, tabGetD_tabPut_same]
    · rw [← base, ← tail, ← phase]
      exact acceptPacket_record (n := o) (hb := hb) ..
  case deadline =>
    subst hm
    refine ⟨_, (exec_packetAdmission_accepted hn hx hp hv).trans (congrArg _ (acceptPacket_deadline _ _ _ _ o)), ?_, fun k n => ?_⟩
    · exact getTen?_modTen _ (by unfold getTen?; rw [announced_tenants]; exact hy)
    · rw [getTen?_modTen_ne _ _ n]
      unfold getTen?
      rw [announced_tenants, fetched_tenants]
  case halted =>
    refine ⟨_, exec_packetAdmission_halts hn hx hm, ?_⟩
    rw [haltAdmission_data t (fetched s t q x)]
    exact ⟨rfl, rfl, rfl⟩

end Sys2Proof.Machine

/-! One update of a sync counter (09 R205 to R209): what steps 2 to 4 release and leave, told apart by kind of wait; then the
signals, arrivals and hand-set values whose counter store is that of one update. -/

namespace Sys2Proof.Machine

/-! ### The waits that an update leaves, by kind (09 R209) -/

/-- The takers on counter `c`, in arrival order. -/
def takers (c : Nat) (ws : List Wait) : List Wait := ws.filter fun w => w.ctr == c && w.take

/-- The WAIT_GEs on counter `c`, in order. -/
def watchers (c : Nat) (ws : List Wait) : List Wait := ws.filter fun w => w.ctr == c && !w.take

/-- A WAIT_GE on `c` whose threshold `v` meets. -/
def metBy (c v : Nat) (w : Wait) : Bool := w.ctr == c && !w.take && decide (w.amount ≤ v)

theorem releaseGe_waits (c v : Nat) (ws : List Wait) : (releaseGe c v ws).2 = ws.filter fun w => !metBy c v w := by
  induction ws with
  | nil => rfl
  | cons w t ih =>
    simp only [releaseGe, List.filter_cons, ← ih]
    split
    case isTrue m =>
      obtain ⟨hc, ht, hv⟩ := m
      simp [metBy, hc, ht, hv]
    case isFalse m =>
      have n : metBy c v w = false := by simpa [metBy] using m
      simp [n]

theorem releaseGe_takers (c v : Nat) (ws : List Wait) : takers c (releaseGe c v ws).2 = takers c ws := by
  rw [releaseGe_waits, takers, List.filter_filter]
  refine List.filter_congr fun w _ => ?_
  cases ht : w.take <;> simp [metBy, ht]

theorem releaseGe_watchers (c v : Nat) (ws : List Wait) :
    watchers c (releaseGe c v ws).2 = (watchers c ws).filter fun w => decide (v < w.amount) := by
  rw [releaseGe_waits, watchers, watchers, List.filter_filter, List.filter_filter]
  refine List.filter_congr fun w _ => ?_
  cases hw : (w.ctr == c && !w.take)
  · simp
  · simp [metBy, hw, ← decide_not]

theorem releaseTake_watchers (c v : Nat) (b : Bool) (ws : List Wait) : watchers c (releaseTake c b v ws).2.1 = watchers c ws := by
  induction ws generalizing v b with
  | nil => rfl
  | cons w t ih =>
    unfold watchers at *
    simp only [releaseTake]
    split
    case isTrue h => split <;> simp [ih, h]
    case isFalse => simp [List.filter_cons, ih]

/-- Step 3 releases the first `m` takers, subtracting their amounts. -/
theorem releaseTake_takers (c v : Nat) (ws : List Wait) : ∃ m,
    (releaseTake c false v ws).2.2 + (((takers c ws).take m).map (·.amount)).sum = v ∧
      takers c (releaseTake c false v ws).2.1 = (takers c ws).drop m := by
  induction ws generalizing v with
  | nil => exact ⟨0, rfl, rfl⟩
  | cons w t ih =>
    unfold takers at *
    simp only [releaseTake]
    split
    case isTrue h =>
      split
      case isTrue hv => -- the head taker is released
        obtain ⟨m, sum, rest⟩ := ih (v - w.amount)
        refine ⟨m + 1, ?_, ?_⟩
        · simp only [List.filter_cons, h, beq_self_eq_true, Bool.and_self, if_true, List.take_succ_cons, List.map_cons, List.sum_cons]
          omega
        · simpa [List.filter_cons, h] using rest
      case isFalse => -- the head taker asks for more, and with it every later one waits
        exact ⟨0, by simp [releaseTake_blocked], by simp [releaseTake_blocked]⟩
    case isFalse h =>
      have n : (w.ctr == c && w.take) = false := by simpa using h
      simpa [List.filter_cons, n] using ih v

theorem settle_takers (c v : Nat) (ws : List Wait) : ∃ m,
    (settle c v ws).2.2 + (((takers c ws).take m).map (·.amount)).sum = v ∧ takers c (settle c v ws).2.1 = (takers c ws).drop m := by
  simpa only [settle, releaseGe_takers] using releaseTake_takers c v (releaseGe c v ws).2

/-- Step 4 releases nothing more: the takes have only lowered the counter. -/
theorem settle_watchers (c v : Nat) (ws : List Wait) :
    watchers c (settle c v ws).2.1 = (watchers c ws).filter fun w => decide (v < w.amount) := by
  have le := settle_le c v ws
  simp only [settle, releaseGe_watchers, releaseTake_watchers] at le ⊢
  rw [List.filter_filter]
  refine List.filter_congr fun w _ => ?_
  have imp : v < w.amount → (releaseTake c false v (releaseGe c v ws).2).2.2 < w.amount := le.trans_lt
  simpa using imp

theorem head?_takers (c : Nat) (ws : List Wait) : (takers c ws).head?.map (·.amount) = headTaker c ws := by
  rw [takers, List.head?_filter, headTaker]

/-! ### The state after one update -/

/-- From `s` to `t` counter `c` has had one update: steps 2 to 4 followed from value `v` over the waits `ws`. -/
structure OneUpdate (c v : Nat) (ws : List Wait) (s t : State) : Prop where
  val : (ctrVal t c).toNat = (settle c v ws).2.2
  waits : t.ctrs.waits = (settle c v ws).2.1
  others : ∀ j, j ≠ c → ctrVal t j = ctrVal s j
  count : t.ctrs.updates = s.ctrs.updates + 1

theorem OneUpdate.of_ctrs {c v : Nat} {ws : List Wait} {s t : State} {k : Counters} (hv : v < 2 ^ 64)
    (e : t.ctrs = updatedCtrs c v ws k) (vals : k.vals = s.ctrs.vals) (count : k.updates = s.ctrs.updates) : OneUpdate c v ws s t where
  val := by
    rw [ctrVal, e, updatedCtrs, tabGetD_tabPut_same, BitVec.toNat_ofNat, Nat.mod_eq_of_lt ((settle_le c v ws).trans_lt hv)]
  waits := by rw [e]; rfl
  others j n := by rw [ctrVal, e, updatedCtrs, tabGetD_tabPut_ne n, vals]; rfl
  count := by rw [e, updatedCtrs, count]

/-! ### What the releases leave -/

theorem forEach_keeps {α β : Type} (p : State → β) {f : α → State → State} (hf : ∀ a s, p (f a s) = p s) (l : List α)
    (s : State) : p (forEach f l s) = p s := by
  induction l generalizing s with
  | nil => rfl
  | cons a l ih => exact (ih (f a s)).trans (hf a s)

theorem tellOwner_mem (r : Release) (s : State) : (tellOwner r s).mem = s.mem := by
  unfold tellOwner
  split
  · exact finishCmd_mem ..
  · rw [wakeSource_eq, modTile_mem]

theorem ctrUpdate_mem (c v : Nat) (ws : List Wait) (s : State) : (ctrUpdate c v ws s).mem = s.mem :=
  (whenS_keeps State.mem (fun _ => by rw [wakeSource_eq]) _ _).trans (forEach_keeps State.mem tellOwner_mem _ _)

/-! ### Signals (09 R206) -/

section
variable {s : State} {c : Nat}

/-- The value that step 1 of a signal of `n` leaves. -/
def signalSum (s : State) (c n : Nat) : Nat := min ((ctrVal s c).toNat + n) (2 ^ 64 - 1)

theorem signalSum_lt (s : State) (c n : Nat) : signalSum s c n < 2 ^ 64 :=
  (Nat.min_le_right _ _).trans_lt (by decide)

/-- A signal is an update, and beside it touches the functions alone (HG_CTR_STATUS.SATURATED). -/
theorem signalPhys_keeps {α : Type} (p : State → α) (hp : ∀ f g s, p (modFn f g s) = p s) (n : Nat)
    (ok : s.ctrs.broken.contains c = false) :
    p (signalPhys c n s) = p (ctrUpdate c (signalSum s c n) s.ctrs.waits s) := by
  unfold signalPhys
  rw [if_neg (by rw [ok]; decide)]
  dsimp only
  split
  · exact whenS_keeps p (hp _ _) _ _
  · rfl

theorem signalPhys_mem (n : Nat) (ok : s.ctrs.broken.contains c = false) : (signalPhys c n s).mem = s.mem :=
  (signalPhys_keeps State.mem modFn_mem n ok).trans (ctrUpdate_mem ..)

theorem signalPhys_tenants (c n : Nat) (s : State) : (signalPhys c n s).tenants = s.tenants := by
  rw [signalPhys_work c n s (WorkOnly.refl s)]

theorem signalPhys_oneUpdate (n : Nat) (ok : s.ctrs.broken.contains c = false) :
    OneUpdate c (signalSum s c n) s.ctrs.waits s (signalPhys c n s) :=
  .of_ctrs (signalSum_lt ..) ((signalPhys_keeps State.ctrs modFn_ctrs n ok).trans (ctrUpdate_ctrs ..)) rfl rfl

end

/-! ### Arrivals (09 R207, R208) and values set by hand (R217) -/

theorem arriveWait_oneUpdate (w : Wait) (s : State) :
    OneUpdate w.ctr (ctrVal s w.ctr).toNat (s.ctrs.waits ++ [w]) s (arriveWait w s) :=
  .of_ctrs (BitVec.isLt _) (ctrUpdate_ctrs ..) rfl rfl

theorem readCtr_ctrs (c : Nat) (s : State) : (readCtr c s).2.ctrs = s.ctrs := by
  unfold readCtr
  split
  · rw [freshVal_data 8 s (DataOnly.refl s)]
  · rfl

/-- The event and the tenant's count that follow a hand-set value leave the store as its update does. -/
theorem handSet_ctrs (issuer t k c v : Nat) (s : State) :
    (handSet issuer t k c v s).2.ctrs = updatedCtrs c (v % 2 ^ 64) s.ctrs.waits { s.ctrs with broken := setDel c s.ctrs.broken } := by
  unfold handSet
  dsimp only
  rw [henuaEvent_data _ _ _ _ (DataOnly.refl _), modTen_ctrs, pokePhys, ctrUpdate_ctrs]
  dsimp only
  rw [readCtr_ctrs]

theorem handSet_oneUpdate (issuer t k c v : Nat) (s : State) :
    OneUpdate c (v % 2 ^ 64) s.ctrs.waits s (handSet issuer t k c v s).2 :=
  .of_ctrs (Nat.mod_lt _ (by decide)) (handSet_ctrs ..) rfl rfl

/-! ### The instructions -/

section
variable {s : State} {h k : Nat} {c : Cmd}

theorem bitsOf_pk_low (c : Cmd) (i hi : Nat) : bitsOf (pk c.pkt i) hi 0 = cmdParam c i % 2 ^ (hi + 1) := by
  rw [bitsOf, pow_zero, Nat.div_one]
  rfl

theorem exec_ctrSignal (r : Running s h 0x0501 c) (e : physCtr s c.tenant (cmdParam c 0 % 2 ^ 16) = some k) :
    exec (.ctrSignal h) s = .next (schedule (finishCmd h [] 0 (signalPhys k (cmdParam c 1) s))) := by
  have slot : bitsOf (pk c.pkt 0) 15 0 = cmdParam c 0 % 2 ^ 16 := bitsOf_pk_low ..
  show execCtrSignal h s = _
  rw [execCtrSignal, runCmd_next r, signalCtr, slot, e]
  rfl

theorem exec_counterSignal {tenant ctr : Nat} (n : Nat) (e : physCtr s tenant ctr = some k) :
    exec (.counterSignal tenant ctr n false) s = .next (schedule (signalPhys k n s)) := by
  show execCounterSignal tenant ctr n false s = _
  unfold execCounterSignal
  rw [e]
  rfl

theorem brodatWait_arrives (take : Bool) (own : c.handle = h) (e : physCtr s c.tenant (cmdParam c 0 % 2 ^ 16) = some k)
    (ok : s.ctrs.broken.contains k = false) (fresh : ∀ w ∈ s.ctrs.waits, w.owner ≠ .cmd h) :
    brodatWait take c s = arriveWait ⟨k, take, cmdParam c 1, .cmd h⟩ s := by
  have slot : bitsOf (pk c.pkt 0) 15 0 = cmdParam c 0 % 2 ^ 16 := bitsOf_pk_low ..
  have first : (s.ctrs.waits.any fun w => w.owner == .cmd c.handle) = false := by simpa [own] using fresh
  unfold brodatWait
  rw [cmdCtr, slot, e]
  dsimp only
  rw [if_neg (by rw [ok]; decide), if_neg (by rw [first]; decide), own]
  rfl

/-- What COUNTER_POKE `c` answers of counter `k`, and the state that its value set by hand leaves. -/
def poked (c : Cmd) (k : Nat) (s : State) : Nat × State :=
  handSet 0 (cmdParam c 0 % 64) (cmdParam c 0 / 2 ^ 16 % 2 ^ 16) k (cmdParam c 1) s

theorem exec_counterPoke (r : Running s h 0x0706 c) (e : namedCtr s (cmdParam c 0 % 64) (cmdParam c 0 / 2 ^ 16 % 2 ^ 16) = some k) :
    exec (.counterPoke h) s = .next (schedule (finishCmd h [] (poked c k s).1 (poked c k s).2)) := by
  have tenant : bitsOf (pk c.pkt 0) 5 0 = cmdParam c 0 % 64 := bitsOf_pk_low ..
  have slot : bitsOf (pk c.pkt 0) 31 16 = cmdParam c 0 / 2 ^ 16 % 2 ^ 16 := rfl
  show execCounterPoke h s = _
  rw [execCounterPoke, runCmd_next r]
  dsimp only
  rw [tenant, slot, e]
  rfl

end

/-! ### The statement -/

/-- Settles O18. The rule itself is `settle_takers`, `settle_head`, `settle_watchers` and `settle_others`; each of the instructions
leaves the counter store as `OneUpdate` says, since what else it does touches no counter. -/
theorem signalIsOneSettledUpdate : Obligations.SignalIsOneSettledUpdate := by
  unfold Obligations.SignalIsOneSettledUpdate
  refine ⟨fun k v ws => ?rule, fun s h c k n ok => ⟨fun r e hn => ?signal, fun tenant ctr e => ?store,
    fun op take i ws hi r e fresh hw => ?arrival, fun r e => ?poke⟩⟩
  case rule =>
    obtain ⟨m, sum, rest⟩ := settle_takers k v ws
    refine ⟨m, sum, rest, fun w hd => ?_, ?_, settle_others k v ws⟩
    · refine settle_head k v ws w.amount ?_
      rw [← head?_takers, rest]
      exact congrArg (Option.map (·.amount)) hd
    · refine (settle_watchers k v ws).trans ?_
      rw [watchers, List.filter_filter]
      exact List.filter_congr fun w _ => Bool.and_comm ..
  case signal =>
    subst hn
    obtain ⟨val, waits, others, count⟩ := signalPhys_oneUpdate (cmdParam c 1) ok
    obtain ⟨d, hd, _⟩ := (signalPhys_goes k (cmdParam c 1) s (CmdsGo.refl s)).get h c r.1
    exact ⟨_, exec_ctrSignal r e, done_finishCmd [] 0 hd, val, waits, others, count, signalPhys_mem _ ok, signalPhys_tenants ..⟩
  case store =>
    obtain ⟨val, waits, others, count⟩ := signalPhys_oneUpdate n ok
    exact ⟨_, exec_counterSignal n e, signalPhys_goes _ _ _ (CmdsGo.refl s), val, waits, others, count, signalPhys_mem _ ok,
      signalPhys_tenants ..⟩
  case arrival =>
    subst hw
    have arrives := brodatWait_arrives take (getCmd?_handle r.1) e ok fresh
    have next : exec i s = .next (brodatWait take c s) := by
      simp only [List.mem_cons, List.not_mem_nil, or_false, Prod.mk.injEq] at hi
      obtain ⟨rfl, rfl, rfl⟩ | ⟨rfl, rfl, rfl⟩ := hi
      · exact runCmd_next r _
      · exact runCmd_next r _
    obtain ⟨val, waits, _, _⟩ := arriveWait_oneUpdate ⟨k, take, cmdParam c 1, .cmd h⟩ s
    exact ⟨_, next.trans (congrArg _ arrives), val, waits⟩
  case poke =>
    obtain ⟨val, waits, _, _⟩ := handSet_oneUpdate 0 (cmdParam c 0 % 64) (cmdParam c 0 / 2 ^ 16 % 2 ^ 16) k (cmdParam c 1) s
    exact ⟨_, exec_counterPoke r e, val, waits⟩

end Sys2Proof.Machine

/-! The checksum of an integer pass (15 R347, R348): the total of the column sums differs from a lane by exactly the errors that
befell the columns the lane covers, since the lane is the columns' sums taken row by row; then CHECKSUM_VERDICT of a row with
neither errors nor a lateral block. -/

namespace Sys2Proof.Machine

/-! ### The sums of a lane, by rows and by columns (15 R347) -/

theorem dotI_map_zero {α : Type} (a : List Int) (rows : List α) : dotI a (rows.map fun _ => 0) = 0 := by
  refine List.sum_eq_zero fun v hv => ?_
  obtain ⟨i, hi, rfl⟩ := List.mem_iff_getElem.mp hv
  simp

theorem dotI_map_add {α : Type} (a : List Int) (rows : List α) (f g : α → Int) :
    dotI a (rows.map fun r => f r + g r) = dotI a (rows.map f) + dotI a (rows.map g) := by
  induction a generalizing rows with
  | nil => rfl
  | cons v a ih =>
    cases rows with
    | nil => rfl
    | cons r rows =>
      have tail := ih rows
      simp only [dotI, List.map_cons, List.zipWith_cons_cons, List.sum_cons] at tail ⊢
      rw [tail]
      ring

/-- Summing a row's weights first and the columns' products first come to the same. -/
theorem dotI_map_sum {α : Type} (a : List Int) (rows : List α) (cols : List Nat) (f : α → Nat → Int) :
    dotI a (rows.map fun r => (cols.map (f r)).sum) = (cols.map fun j => dotI a (rows.map fun r => f r j)).sum := by
  induction cols with
  | nil => exact dotI_map_zero a rows
  | cons j cols ih =>
    simp only [List.map_cons, List.sum_cons]
    rw [dotI_map_add, ih]

@[simp] theorem signedOf_zero (bits : Nat) : signedOf bits 0 = 0 := by simp [signedOf]

/-! ### Rows and columns of a weight block (06 R142) -/

theorem length_unpackVals_four (n : Nat) (bs : List Byte) : (unpackVals 4 n bs).length ≤ 2 * bs.length := by
  induction n generalizing bs with
  | zero => simp [unpackVals]
  | succ n ih =>
    cases bs with
    | nil => simp [unpackVals]
    | cons b t =>
      have tail := ih t
      simp only [unpackVals, if_true, List.length_cons]
      omega

theorem length_unpackVals_eight (n : Nat) (bs : List Byte) : (unpackVals 8 n bs).length ≤ bs.length := by
  induction n generalizing bs with
  | zero => simp [unpackVals]
  | succ n ih =>
    cases bs with
    | nil => simp [unpackVals]
    | cons b t =>
      have tail := ih t
      simpa [unpackVals] using tail

theorem length_of_mem_pieces {α : Type} {n k : Nat} {l p : List α} (hp : p ∈ pieces n k l) : p.length ≤ n := by
  induction k generalizing l with
  | zero => simp [pieces] at hp
  | succ k ih =>
    obtain rfl | rest := List.mem_cons.mp hp
    · exact List.length_take_le ..
    · exact ih rest

/-- A row of an integer mode's block has no weight beyond the mode's columns. -/
theorem length_of_mem_blockRows {m : Mode} (int : modeInt m = true) {bs : List Byte} {r : List Nat} (hr : r ∈ blockRows m bs) :
    r.length ≤ modeN m := by
  obtain ⟨p, hp, rfl⟩ := List.mem_map.mp hr
  have short := length_of_mem_pieces hp
  cases m with
  | i8 => exact (length_unpackVals_eight ..).trans short
  | i4 => exact (length_unpackVals_four ..).trans (Nat.mul_le_mul_left 2 short)
  | f8 => simp [modeInt] at int
  | b16 => simp [modeInt] at int

/-! ### A pass's column sums, lanes and errors -/

/-- The sum of column `j` of a pass for the activation row `x`, free of errors. -/
def colSum (tr : PassTrace) (x : List Nat) (j : Nat) : Int := intSum tr.op x (column (blockRows tr.op.mode tr.weights) j)

/-- The sum of the errors that befell the columns `cols`. -/
def errsOver (errs : List (Nat × Int)) (cols : List Nat) : Int := ((errs.filter fun e => cols.contains e.1).map (·.2)).sum

theorem colSum_eq_dotI (tr : PassTrace) (x : List Nat) (j : Nat) :
    colSum tr x j = dotI (x.map (signedOf (actBits tr.op)))
      ((blockRows tr.op.mode tr.weights).map fun r => signedOf (wBits tr.op.mode) (r.getD j 0)) := by
  unfold colSum intSum column
  rw [List.map_map]
  rfl

/-- A column that the mode does not have sums to 0. -/
theorem colSum_beyond {tr : PassTrace} (int : modeInt tr.op.mode = true) (x : List Nat) {j : Nat} (hj : modeN tr.op.mode ≤ j) :
    colSum tr x j = 0 := by
  have zeros : ((blockRows tr.op.mode tr.weights).map fun r => signedOf (wBits tr.op.mode) (r.getD j 0)) =
      (blockRows tr.op.mode tr.weights).map fun _ => 0 := by
    refine List.map_congr_left fun r hr => ?_
    rw [List.getD_eq_default r 0 ((length_of_mem_blockRows int hr).trans hj), signedOf_zero]
  rw [colSum_eq_dotI, zeros, dotI_map_zero]

/-- The checker's list of column sums answers every column's sum, those beyond the mode's columns included. -/
theorem getD_colSums {tr : PassTrace} (int : modeInt tr.op.mode = true) (x : List Nat) (j : Nat) :
    ((List.range (modeN tr.op.mode)).map (colSum tr x)).getD j 0 = colSum tr x j := by
  by_cases hj : j < modeN tr.op.mode
  · simp [List.getD_eq_getElem?_getD, hj]
  · rw [List.getD_eq_default _ _ (by simpa using hj), colSum_beyond int x (Nat.le_of_not_lt hj)]

/-- A lane is the total of its columns' sums. -/
theorem checkLane_eq_sum (tr : PassTrace) (x : List Nat) (cols : List Nat) : checkLane tr x cols = (cols.map (colSum tr x)).sum := by
  unfold checkLane
  rw [dotI_map_sum]
  exact congrArg List.sum (List.map_congr_left fun j _ => (colSum_eq_dotI tr x j).symm)

theorem errsOver_cons {j : Nat} {cols : List Nat} (fresh : j ∉ cols) (errs : List (Nat × Int)) :
    errsOver errs (j :: cols) = ((errs.filter fun e => e.1 == j).map (·.2)).sum + errsOver errs cols := by
  unfold errsOver
  induction errs with
  | nil => rfl
  | cons e errs ih =>
    by_cases at_j : e.1 = j
    · have off : e.1 ∉ cols := at_j ▸ fresh
      simp_all [add_assoc]
    · by_cases within : e.1 ∈ cols
      · simp_all [add_left_comm]
      · simp_all

/-- Errors counted column by column are each counted once. -/
theorem sum_map_errs {cols : List Nat} (nodup : cols.Nodup) (errs : List (Nat × Int)) :
    (cols.map fun j => ((errs.filter fun e => e.1 == j).map (·.2)).sum).sum = errsOver errs cols := by
  induction cols with
  | nil => simp [errsOver]
  | cons j cols ih =>
    obtain ⟨fresh, nodup⟩ := List.nodup_cons.mp nodup
    rw [List.map_cons, List.sum_cons, ih nodup, errsOver_cons fresh]

/-- The total differs from the lane by the errors that befell the lane's columns. -/
theorem checkTotal_eq (tr : PassTrace) (x : List Nat) (errs : List (Nat × Int)) {cols : List Nat} (nodup : cols.Nodup) :
    checkTotal tr x errs cols = checkLane tr x cols + errsOver errs cols := by
  unfold checkTotal
  rw [List.sum_map_add, sum_map_errs nodup, checkLane_eq_sum]
  rfl

@[simp] theorem errsOver_nil (cols : List Nat) : errsOver [] cols = 0 := rfl

theorem errsOver_all {errs : List (Nat × Int)} {n : Nat} (within : ∀ e ∈ errs, e.1 < n) :
    errsOver errs (List.range n) = (errs.map (·.2)).sum := by
  unfold errsOver
  rw [List.filter_eq_self.mpr fun e he => by simpa using within e he]

/-! ### The verdict (15 R348) -/

/-- A lane's check of an integer pass holds exactly when no error is left over in the total of its columns. -/
theorem intCheck_eq {tr : PassTrace} (int : modeInt tr.op.mode = true) (x : List Nat) (errs : List (Nat × Int)) (cols : List Nat) :
    intCheck (x.map fun v => signedOf (actBits tr.op) v)
      ((blockRows tr.op.mode tr.weights).map fun r => r.map fun v => signedOf (wBits tr.op.mode) v)
      ((List.range (modeN tr.op.mode)).map (colSum tr x)) errs cols = decide (errsOver errs cols = 0) := by
  have lane : dotI (x.map fun v => signedOf (actBits tr.op) v)
      (((blockRows tr.op.mode tr.weights).map fun r => r.map fun v => signedOf (wBits tr.op.mode) v).map
        fun r => (cols.map fun n => r.getD n 0).sum) = checkLane tr x cols := by
    unfold checkLane
    rw [List.map_map]
    refine congrArg _ (List.map_congr_left fun r _ => congrArg List.sum (List.map_congr_left fun n _ => ?_))
    rw [← List.getD_map (f := signedOf (wBits tr.op.mode)), signedOf_zero]
  have sums : (cols.map fun n => ((List.range (modeN tr.op.mode)).map (colSum tr x)).getD n 0) = cols.map (colSum tr x) :=
    List.map_congr_left fun n _ => getD_colSums int x n
  unfold intCheck
  dsimp only
  rw [lane, sums, ← checkLane_eq_sum, beq_eq_decide]
  exact decide_eq_decide.mpr left_eq_add

theorem groupCols_nodup (g w : Nat) : (groupCols g w).Nodup :=
  List.nodup_range.map fun _ _ h => Nat.add_left_cancel h

theorem laneCode_eq_none (full group : Bool) : laneCode full group = none ↔ full = true ∧ group = true := by
  cases full <;> cases group <;> decide

/-- The verdict of an integer pass depends on the errors alone: on those left over in the full lane, then in the group lane. -/
theorem mainVerdict_int {tr : PassTrace} (int : modeInt tr.op.mode = true) (x : List Nat) (errs : List (Nat × Int)) :
    mainVerdict tr x errs = laneCode (decide (errsOver errs (List.range (modeN tr.op.mode)) = 0))
      (decide (errsOver errs (groupCols tr.group (groupWidth tr.op.mode)) = 0)) := by
  unfold mainVerdict
  dsimp only
  rw [if_pos int]
  exact congrArg₂ laneCode (intCheck_eq int x errs _) (intCheck_eq int x errs _)

theorem mainVerdict_nil {tr : PassTrace} (int : modeInt tr.op.mode = true) (x : List Nat) : mainVerdict tr x [] = none := by
  rw [mainVerdict_int int]
  rfl

/-! ### Reads of a tile's own memory leave the machine as it is -/

/-- From `a` to `b` a mover has only read, and met nothing but poison. -/
def OnlyRead (a b : Acc) : Prop := b.s = a.s ∧ ∀ o ∈ b.outs, o ∈ a.outs ∨ o = stDataPoisoned

theorem OnlyRead.refl (a : Acc) : OnlyRead a a := ⟨rfl, fun _ => .inl⟩

theorem OnlyRead.trans {a b c : Acc} (p : OnlyRead a b) (q : OnlyRead b c) : OnlyRead a c :=
  ⟨q.1.trans p.1, fun o h => (q.2 o h).elim (p.2 o) .inr⟩

theorem OnlyRead.addOut {a b : Acc} (p : OnlyRead a b) {st : Nat} {c : Bool} (h : c = true → st = stDataPoisoned) :
    OnlyRead a (addOut st c b) := by
  unfold Machine.addOut
  split
  case isFalse => exact p
  case isTrue met =>
    refine ⟨p.1, fun o ho => (List.mem_append.mp ho).elim (p.2 o) fun last => .inr ?_⟩
    rw [List.mem_singleton.mp last]
    exact h (Bool.and_eq_true_iff.mp met).1

/-- A block of the scratchpad is read without a fault and without a recomputation, and no shared page holds it. -/
theorem readRaced_scratch (source inst off : Nat) (s : State) :
    ∃ data poison, readRaced source 4 inst off s = (⟨data, poison, false, false, false⟩, s) :=
  ⟨_, _, if_neg fun h => Bool.false_ne_true h.2⟩

theorem rdBlk_scratch_onlyRead (inst off : Nat) (a : Acc) : OnlyRead a (rdBlk 4 inst off a).2 := by
  unfold rdBlk
  split
  · exact .refl a
  · obtain ⟨data, poison, e⟩ := readRaced_scratch a.source inst off a.s
    rw [if_neg (by decide), e]
    have fetched : OnlyRead a { a with cache := tabPut (cacheKey 4 inst off) (data, poison) a.cache } := .refl a
    exact fetched.addOut fun _ => rfl

theorem rdBytesGo_scratch_onlyRead (inst fuel off len : Nat) (a : Acc) : OnlyRead a (rdBytesGo 4 inst fuel off len a).2 := by
  induction fuel generalizing off len a with
  | zero => exact .refl a
  | succ fuel ih =>
    unfold rdBytesGo
    split
    · exact .refl a
    · exact (rdBlk_scratch_onlyRead ..).trans (ih ..)

/-- A read of the scratchpad that the tenant may make changes nothing but the reader's own account of it. -/
theorem tRead_scratch {off len : Nat} {x : TAcc} (mine : memMine x.a.s x.tenant 4 x.t off len = true) :
    ∃ a p, (tRead 4 off len x).2 = { x with a := a, poison := p } ∧ OnlyRead x.a a := by
  unfold tRead
  rw [if_pos mine]
  exact ⟨_, _, rfl, rdBytesGo_scratch_onlyRead ..⟩

theorem actRow_mine {p : PassOp} {i : Nat} {x : TAcc}
    (mine : memMine x.a.s x.tenant 4 x.t (p.acts + i * p.actStride) (elBytes p.actFmt (modeK p.mode)) = true) :
    ∃ a poison, (actRow p i x).2 = { x with a := a, poison := poison } ∧ OnlyRead x.a a :=
  tRead_scratch mine

/-! ### CHECKSUM_VERDICT without errors -/

/-- An operation that read its own memory only, with no check failed, is done (07 R161; 15 R361). -/
theorem finishT_onlyRead {x : TAcc} {s : State} (read : OnlyRead (Acc.start 1 s) x.a) (inside : x.bad = false)
    (passed : x.fail = none) (k : State → State) :
    ∃ outs, finishT x k = k (noteRun x.run outs (modTile x.t (fun y => { y with poisoned := y.poisoned || x.poison }) s)) := by
  have shared : x.a.outs.contains stSharedPoisoned = false := by
    refine Bool.eq_false_iff.mpr fun h => ?_
    obtain old | e := read.2 _ (List.contains_iff_mem.mp h)
    · exact absurd old (List.not_mem_nil)
    · exact absurd e (by decide)
  unfold finishT
  dsimp only
  rw [inside, shared, passed, read.1]
  exact ⟨_, rfl⟩

@[simp] theorem getTile_noteRun (r : Nat) (outs : List Nat) (s : State) (t : Nat) : getTile (noteRun r outs s) t = getTile s t := by
  simp [getTile, noteRun]

@[simp] theorem noteRun_mem (r : Nat) (outs : List Nat) (s : State) : (noteRun r outs s).mem = s.mem := modRun_mem ..

theorem noteRun_work {s0 s : State} (r : Nat) (outs : List Nat) (h : WorkOnly s0 s) : WorkOnly s0 (noteRun r outs s) := modRun_work _ _ _ h

/-- The state after a row's verdict that passes, without errors kept: the row is counted, poison that the reading met marks the
step (10 R235), and the outcomes that it met are the run's. -/
def rowPassed (t : Nat) (c : Ctx) (tr : PassTrace) (poison : Bool) (outs : List Nat) (s : State) : State :=
  setBank t tr.op.bankB (bankOf c tr.op.bankB)
    (modTile t (fun y => { y with trace := some { tr with verdicts := tr.verdicts + 1 } })
      (noteRun c.run outs (modTile t (fun y => { y with poisoned := y.poisoned || poison }) s)))

section
variable {s : State} {t : Nat} {c : Ctx} (tr : PassTrace) (poison : Bool) (outs : List Nat)

theorem rowPassed_trace : (getTile (rowPassed t c tr poison outs s) t).trace = some { tr with verdicts := tr.verdicts + 1 } := by
  simp [rowPassed, setBank]

/-- The bank is set to what it holds already. -/
theorem rowPassed_ctx (hc : (getTile s t).ctx = some c) : (getTile (rowPassed t c tr poison outs s) t).ctx = some c := by
  unfold rowPassed setBank bankOf
  cases tr.op.bankB <;> simp [hc]

theorem rowPassed_mem : (rowPassed t c tr poison outs s).mem = s.mem := by simp [rowPassed, setBank]

theorem rowPassed_tileWork : TileWork s (rowPassed t c tr poison outs s) t := by
  unfold rowPassed setBank
  refine ⟨modTile_work _ _ _ (modTile_work _ _ _ (noteRun_work _ _ (modTile_work _ _ _ (.refl s)))), fun k other => ?_⟩
  rw [getTile_modTile_ne _ _ other, getTile_modTile_ne _ _ other, getTile_noteRun, getTile_modTile_ne _ _ other]

end

section
variable {s : State} {t : Nat} {c : Ctx} {tr : PassTrace} (ht : t < 32) (hc : bodyCtx s t = some c)
    (htr : (getTile s t).trace = some tr) (int : modeInt tr.op.mode = true) (hrow : tr.verdicts < tr.op.rows)
    (noLat : ((rowPlan tr.op tr.lats)[tr.verdicts]?.map fun e => e.2.1) = some none)
include ht hc htr int hrow noLat

/-- A row of an integer pass with neither errors nor a lateral block is read, and its verdict passes. -/
theorem exec_checksumVerdict_nil :
    exec (.checksumVerdict t tr.verdicts []) s = .next (finishT (actRow tr.op tr.verdicts (TAcc.start s t c)).2 fun u =>
      setBank t tr.op.bankB (bankOf c tr.op.bankB) (modTile t (fun y => { y with trace := some { tr with verdicts := tr.verdicts + 1 } }) u)) := by
  obtain ⟨⟨g, lat, j⟩, hplan, hlat⟩ := Option.map_eq_some_iff.mp noLat
  obtain rfl : lat = none := hlat
  have tileThere : tileOk t = true := decide_eq_true ht
  show execChecksumVerdict t tr.verdicts [] s = _
  unfold execChecksumVerdict
  rw [hc, htr, onUnit, if_pos tileThere]
  dsimp only
  rw [if_pos ⟨rfl, hrow⟩, hplan, List.filter_nil, mainVerdict_nil int]
  simp [noteFail, keepErrs]

/-- The row's values lie in the tenant's memory, so reading them ends no run. -/
theorem rowPassed_of_mine
    (mine : tileMine s t c 4 (tr.op.acts + tr.verdicts * tr.op.actStride) (elBytes tr.op.actFmt (modeK tr.op.mode))) :
    ∃ poison outs, exec (.checksumVerdict t tr.verdicts []) s = .next (rowPassed t c tr poison outs s) := by
  obtain ⟨a, poison, row, read⟩ := actRow_mine (x := TAcc.start s t c) mine
  rw [exec_checksumVerdict_nil ht hc htr int hrow noLat, row]
  obtain ⟨outs, done⟩ := finishT_onlyRead (x := { TAcc.start s t c with a := a, poison := poison }) read rfl rfl _
  exact ⟨poison, outs, congrArg _ done⟩

end

theorem ctx_of_bodyCtx {s : State} {t : Nat} {c : Ctx} (h : bodyCtx s t = some c) : (getTile s t).ctx = some c := by
  unfold bodyCtx at h
  split at h
  · exact h
  · nomatch h

/-! ### The statement -/

/-- Settles O39. By `checkTotal_eq` a total misses its lane by the errors that befell the lane's columns, and by `mainVerdict_int`
the verdict is that of the errors left over; a row without any is `rowPassed`. -/
theorem integerChecksumsFindErrors : Obligations.IntegerChecksumsFindErrors := by
  unfold Obligations.IntegerChecksumsFindErrors
  refine ⟨fun tr x errs int _ => ?equal, fun tr x errs int within => ⟨mainVerdict_nil int x, fun leftOver => ?found⟩,
    fun s t c tr ht hc htr int hrow noLat mine => ?next⟩
  case equal =>
    rw [mainVerdict_int int, laneCode_eq_none, decide_eq_true_iff, decide_eq_true_iff, checkTotal_eq tr x errs List.nodup_range,
      checkTotal_eq tr x errs (groupCols_nodup ..), add_eq_left, add_eq_left]
  case found =>
    rw [mainVerdict_int int, errsOver_all within, decide_eq_false leftOver]
    rfl
  case next =>
    obtain ⟨poison, outs, passed⟩ := rowPassed_of_mine ht hc htr int hrow noLat mine
    exact ⟨_, passed, rowPassed_trace tr poison outs, rowPassed_ctx tr poison outs (ctx_of_bodyCtx hc), rowPassed_mem tr poison outs,
      rowPassed_tileWork tr poison outs⟩

end Sys2Proof.Machine

/-! The machine as a whole: what a step keeps, what an ACLK on an empty queue counts (log entry 14), and the fuses, which only
three management commands burn (18 R421, R422). -/

namespace Sys2Proof.Machine

/-! ### A step -/

theorem step_of_cons {s : State} {c : Instr} {rest : List Instr} (e : s.pending = c :: rest) : step s = exec c s.popped := by
  unfold step
  rw [e]

theorem step_of_nil {s : State} (e : s.pending = []) : step s = .next (tick s) := by
  unfold step
  rw [e]

/-- Whatever a step does, its invariants hold on, and its fuses stay unless the command burns them. -/
theorem step_kept {s t : State} (e : step s = .next t) :
    Kept false (s.pending.head?.all fun c => !fuseCommand c) s.popped t := by
  cases p : s.pending with
  | nil =>
    rw [step_of_nil p] at e
    cases e
    have same : State.popped s = s := by
      unfold State.popped
      rw [p]
      exact congrArg (fun l => { s with pending := l }) p.symm
    rw [same]
    exact tick_kept s
  | cons c rest =>
    rw [step_of_cons p] at e
    have kept := exec_kept c s.popped t e
    exact ⟨kept.pending, by simpa using kept.fuses, nofun, kept.gen, kept.mem, kept.settled⟩

/-- Settles O1, by the definition of a step. -/
theorem stepRunsTheFrontCommand : Obligations.StepRunsTheFrontCommand := by
  unfold Obligations.StepRunsTheFrontCommand
  intro c rest s
  exact step_of_cons rfl

/-- Settles O3: `step_kept` holds of every step. -/
theorem everyStepKeepsTheInvariants : Obligations.EveryStepKeepsTheInvariants := by
  unfold Obligations.EveryStepKeepsTheInvariants
  rintro s t ⟨mem, gen, settled⟩ e
  have kept := step_kept e
  exact ⟨kept.mem mem, kept.gen gen, kept.settled settled⟩

/-- Settles O4: at reset every memory is empty, GEN is 0 and nothing waits. -/
theorem resetMeetsTheInvariants : Obligations.ResetMeetsTheInvariants := by
  unfold Obligations.ResetMeetsTheInvariants
  refine ⟨?memory, rfl, ?settled⟩
  case memory =>
    unfold MemSafe
    decide
  case settled =>
    have idle : State.reset.ctrs.waits = [] := rfl
    refine ⟨fun w hw => ?_, fun c a ha => ?_⟩
    · rw [idle] at hw
      nomatch hw
    · rw [idle] at ha
      nomatch ha

/-- Settles O6, by `exec_kept` and `step_kept`. -/
theorem commandsLeaveTheClockAndTheQueue : Obligations.CommandsLeaveTheClockAndTheQueue := by
  unfold Obligations.CommandsLeaveTheClockAndTheQueue
  refine ⟨fun c s t other e => (exec_kept c s t e).clock ?_, fun s t e => (step_kept e).pending⟩
  rw [other]
  rfl

/-! ### Fuses (18 R421, R422) -/

/-- From `s` to `t` fuses have moved one way only: the rollback counter has not fallen, revoked slots are revoked, and
programmed slots are programmed with their hash. -/
def FusesRise (s t : State) : Prop :=
  s.fuses.rollback ≤ t.fuses.rollback ∧
    ∀ k, ((keySlot s k).revoked = true → (keySlot t k).revoked = true) ∧
      ((keySlot s k).programmed = true → (keySlot t k).programmed = true ∧ (keySlot t k).hash = (keySlot s k).hash)

theorem FusesRise.of_eq {s t : State} (e : t.fuses = s.fuses) : FusesRise s t := by
  unfold FusesRise keySlot
  rw [e]
  exact ⟨le_rfl, fun k => ⟨id, fun p => ⟨p, rfl⟩⟩⟩

theorem FusesRise.congr {s t s' t' : State} (es : s'.fuses = s.fuses) (et : t'.fuses = t.fuses) (r : FusesRise s t) : FusesRise s' t' := by
  unfold FusesRise keySlot at *
  rw [es, et]
  exact r

@[simp] theorem keySlot_putKey_same (k : Nat) (g : KeySlot → KeySlot) (s : State) : keySlot (putKey k g s) k = g (keySlot s k) :=
  tabGetD_tabPut_same ..

theorem keySlot_putKey_ne {k j : Nat} (n : j ≠ k) (g : KeySlot → KeySlot) (s : State) : keySlot (putKey k g s) j = keySlot s j :=
  tabGetD_tabPut_ne n ..

/-- A slot may be revoked, and programmed where it is empty. -/
theorem FusesRise.putKey {s : State} {k : Nat} {g : KeySlot → KeySlot} (revoked : (keySlot s k).revoked = true → (g (keySlot s k)).revoked = true)
    (programmed : (keySlot s k).programmed = true → (g (keySlot s k)).programmed = true ∧ (g (keySlot s k)).hash = (keySlot s k).hash) :
    FusesRise s (putKey k g s) := by
  refine ⟨le_rfl, fun j => ?_⟩
  by_cases e : j = k
  · subst e
    rw [keySlot_putKey_same]
    exact ⟨revoked, programmed⟩
  · rw [keySlot_putKey_ne e]
    exact ⟨id, fun p => ⟨p, rfl⟩⟩

@[simp] theorem henuaEvent_fuses (cls sev : Nat) (l : List Nat) (s : State) : (henuaEvent cls sev l s).fuses = s.fuses :=
  (henuaEvent_kept (cf := false) (ff := true) cls sev l s (Kept.refl ..)).fuses rfl

@[simp] theorem refuseSigned_fuses (code : Nat) (s : State) : (refuseSigned code s).fuses = s.fuses :=
  (refuseSigned_kept (cf := false) (ff := true) code s (Kept.refl ..)).fuses rfl

@[simp] theorem acceptSeq_fuses (p : MgmtPath) (a : Option MgmtAuth) (s : State) : (acceptSeq p a s).fuses = s.fuses :=
  (acceptSeq_kept (cf := false) (ff := true) p a s (Kept.refl ..)).fuses rfl

/-- A signed command is carried out, or leaves the fuses as they are. -/
theorem signedCmd_cases {code : Nat} {p : MgmtPath} {a : Option MgmtAuth} {ps : List Nat} {ok v : Bool} {f : State → State} {s t : State}
    (e : signedCmd code p a ps ok v f s = .next t) : t.fuses = s.fuses ∨ t = f (acceptSeq p a s) := by
  unfold signedCmd onHenua at e
  cases e
  dsimp only
  split_ifs
  · exact .inl rfl
  · exact .inl (refuseSigned_fuses ..)
  · exact .inl rfl
  · exact .inr rfl
  · exact .inl rfl

section
variable {p : MgmtPath} {a : Option MgmtAuth} {slot : Nat} {hash : List Byte} {s t : State}

theorem ownerKeyProgram_fusesRise (e : execOwnerKeyProgram p slot hash s = .next t) : FusesRise s t := by
  unfold execOwnerKeyProgram onHenua at e
  cases e
  dsimp only
  split_ifs with up bad eth filled
  · exact .of_eq rfl
  · exact .of_eq rfl
  · exact .of_eq rfl
  · exact (FusesRise.putKey id fun programmed => absurd programmed filled).congr rfl (henuaEvent_fuses ..)
  · exact .of_eq rfl

theorem keyRevoke_fusesRise (e : execKeyRevoke p a slot s = .next t) : FusesRise s t := by
  obtain same | rfl := signedCmd_cases e
  · exact .of_eq same
  · split_ifs
    · exact .of_eq (acceptSeq_fuses ..)
    · exact (FusesRise.putKey (fun _ => rfl) fun programmed => ⟨programmed, rfl⟩).congr (acceptSeq_fuses ..).symm (henuaEvent_fuses ..)

theorem rollbackCommit_fusesRise (e : execRollbackCommit p a s = .next t) : FusesRise s t := by
  obtain same | committed := signedCmd_cases e
  · exact .of_eq same
  · subst committed
    dsimp only
    split_ifs with above
    · exact FusesRise.congr (acceptSeq_fuses ..).symm (henuaEvent_fuses ..) ⟨above.le, fun k => ⟨id, fun programmed => ⟨programmed, rfl⟩⟩⟩
    · exact .of_eq (acceptSeq_fuses ..)

end

theorem fuseCommand_fusesRise {c : Instr} {s t : State} (burns : fuseCommand c = true) (e : exec c s = .next t) : FusesRise s t := by
  cases c with
  | ownerKeyProgram p slot hash => exact ownerKeyProgram_fusesRise e
  | keyRevoke p a slot => exact keyRevoke_fusesRise e
  | rollbackCommit p a => exact rollbackCommit_fusesRise e
  | _ => nomatch burns

/-- A step burns fuses only by a fuse command at the front of the queue. -/
theorem step_fuses {s t : State} (others : (s.pending.head?.all fun c => !fuseCommand c) = true) (e : step s = .next t) : t.fuses = s.fuses :=
  (step_kept e).fuses others

theorem step_fusesRise {s t : State} (e : step s = .next t) : FusesRise s t := by
  by_cases others : (s.pending.head?.all fun c => !fuseCommand c) = true
  · exact .of_eq (step_fuses others e)
  · cases p : s.pending with
    | nil => simp [p] at others
    | cons c rest =>
      rw [step_of_cons p] at e
      exact (fuseCommand_fusesRise (by simpa [p] using others) e).congr rfl rfl

/-- Settles O5: a step burns fuses by a fuse command only, and each of the three burns them one way. -/
theorem fusesChangeOnlyOneWay : Obligations.FusesChangeOnlyOneWay := by
  unfold Obligations.FusesChangeOnlyOneWay
  refine ⟨fun s t noKey noRevoke noRollback e => step_fuses ?_ e, fun s t e => step_fusesRise e⟩
  cases p : s.pending with
  | nil => rfl
  | cons c rest =>
    rw [p] at noKey noRevoke noRollback
    cases c with
    | ownerKeyProgram => exact (noKey _ _ _ rfl).elim
    | keyRevoke => exact (noRevoke _ _ _ rfl).elim
    | rollbackCommit => exact (noRollback _ _ rfl).elim
    | _ => rfl

/-! ### The plain ends -/

/-- Settles O7. -/
theorem nopAndGroupDeadlineEnd : Obligations.NopAndGroupDeadlineEnd := by
  unfold Obligations.NopAndGroupDeadlineEnd
  intro s h c
  refine ⟨fun r => ⟨_, runCmd_next r _, ended_finishCmd _ _ r.1 r.2.1, onlyCmd_finishCmd ..⟩,
    fun r => ⟨_, runCmd_next r _, ended_finishCmd _ _ r.1 r.2.1, onlyCmd_finishCmd ..⟩⟩

/-! ### One ACLK (log entry 14) -/

/-- The state after one ACLK in which no step reaches its time limit and nothing is held. -/
def ticked (s : State) : State :=
  { s with devTime := if s.clockOn then s.devTime + 1 else s.devTime, dpt := tickCredit s.dpt,
           pm := if s.board.perstN then tickResidency s.pm else s.pm,
           tiles := if s.pm.state = .run ∨ s.pm.state = .trim then tabMap (fun _ x => tickTile x) s.tiles else s.tiles }

theorem tickTile_phase (x : Tile) : (tickTile x).phase = x.phase := by
  unfold tickTile
  split <;> rfl

theorem tickTile_stepAclk_le (x : Tile) : (tickTile x).stepAclk ≤ x.stepAclk + 1 := by
  unfold tickTile
  split <;> simp

/-- What a tick changes in a tile: the counters of its program. -/
theorem tickTile_counters (x : Tile) : tickTile x = { x with
    stepWait := (tickTile x).stepWait, stepAclk := (tickTile x).stepAclk, waitAcc := (tickTile x).waitAcc,
    stallQueue := (tickTile x).stallQueue, stallReduce := (tickTile x).stallReduce, stallEvent := (tickTile x).stallEvent } := by
  unfold tickTile
  split <;> rfl

/-- The tiles after an ACLK are those before it, their program's counters apart. -/
theorem mem_ticked_tiles {s : State} {e : Nat × Tile} (h : e ∈ (ticked s).tiles) : ∃ x ∈ s.tiles, e.1 = x.1 ∧ (e.2 = x.2 ∨ e.2 = tickTile x.2) := by
  unfold ticked at h
  dsimp only at h
  split_ifs at h
  · obtain ⟨x, hx, rfl⟩ := List.mem_map.mp h
    exact ⟨x, hx, rfl, .inr rfl⟩
  · exact ⟨e, h, rfl, .inl rfl⟩

theorem expired_ticked {s : State} (inTime : ∀ e ∈ s.tiles, e.2.phase = .body → e.2.stepAclk + 1 < stepLimit) : expired (ticked s) = [] := by
  unfold expired tabKeys
  rw [List.map_eq_nil_iff, List.filter_eq_nil_iff]
  intro e he late
  obtain ⟨body, limit⟩ : e.2.phase = .body ∧ stepLimit ≤ e.2.stepAclk := by simpa using late
  obtain ⟨x, hx, -, same | moved⟩ := mem_ticked_tiles he
  · have := inTime x hx (same ▸ body)
    rw [same] at limit
    omega
  · have := inTime x hx (by rw [← tickTile_phase, ← moved]; exact body)
    have := tickTile_stepAclk_le x.2
    rw [moved] at limit
    omega

theorem serveHeld_of_idle {s : State} (idle : s.held = []) : serveHeld s = s := by
  cases s
  cases idle
  rfl

theorem tick_eq_ticked {s : State} (idle : s.held = []) (inTime : ∀ e ∈ s.tiles, e.2.phase = .body → e.2.stepAclk + 1 < stepLimit) :
    tick s = ticked s := by
  have counted : tick s = serveHeld (forEach stepExpired (expired (ticked s)) (ticked s)) := by
    unfold tick ticked
    dsimp only
    split_ifs <;> rfl
  rw [counted, expired_ticked inTime]
  exact serveHeld_of_idle idle

theorem tickResidency_residency (p : PowerSt) (x : Power) :
    residency (tickResidency p) x = residency p x + (if p.state = x then 1 else 0) := by
  cases x <;> cases e : p.state <;> simp [tickResidency, residency, e]

theorem tickResidency_counters (p : PowerSt) : tickResidency p = { p with
    resRun := (tickResidency p).resRun, resTrim := (tickResidency p).resTrim, resIdle := (tickResidency p).resIdle,
    resHold := (tickResidency p).resHold } := by
  unfold tickResidency
  split <;> rfl

theorem tickCredit_creditStall (d : Dpt) : (tickCredit d).creditStall =
    if ∃ e ∈ d.peers, e.2.txq ≠ [] ∧ e.2.credits = 0 then d.creditStall + 1 else d.creditStall := by
  unfold tickCredit
  have starved : (d.peers.any fun p => !p.2.txq.isEmpty && p.2.credits == 0) = true ↔ ∃ e ∈ d.peers, e.2.txq ≠ [] ∧ e.2.credits = 0 := by
    simp
  simp only [← starved]
  split_ifs <;> rfl

theorem tickCredit_only (d : Dpt) : tickCredit d = { d with creditStall := (tickCredit d).creditStall } := by
  unfold tickCredit
  split_ifs <;> rfl

theorem ticked_pm_counters (s : State) : (ticked s).pm = { s.pm with
    resRun := (ticked s).pm.resRun, resTrim := (ticked s).pm.resTrim, resIdle := (ticked s).pm.resIdle, resHold := (ticked s).pm.resHold } := by
  unfold ticked
  dsimp only
  split_ifs
  · exact tickResidency_counters _
  · rfl

theorem ticked_residency (s : State) (x : Power) :
    residency (ticked s).pm x = residency s.pm x + (if s.board.perstN = true ∧ s.pm.state = x then 1 else 0) := by
  unfold ticked
  cases released : s.board.perstN
  · simp
  · simp [tickResidency_residency]

/-- Settles O2: nothing being held and no step at its limit, the tick is `ticked`. -/
theorem idleStepIsOneAclk : Obligations.IdleStepIsOneAclk := by
  unfold Obligations.IdleStepIsOneAclk
  intro s empty idle inTime
  refine ⟨ticked s, ?_, rfl, ticked_residency s, tickCredit_creditStall _, fun asleep => if_neg (by simpa [not_or] using asleep), fun e he => ?tile, ?frame⟩
  · rw [step_of_nil empty, tick_eq_ticked idle inTime]
  case tile =>
    obtain ⟨x, hx, key, same | moved⟩ := mem_ticked_tiles he
    · exact ⟨x, hx, key, by rw [same]⟩
    · exact ⟨x, hx, key, by rw [moved]; exact tickTile_counters x.2⟩
  case frame =>
    conv_lhs => rw [show ticked s = { s with devTime := (ticked s).devTime, tiles := (ticked s).tiles, dpt := (ticked s).dpt, pm := (ticked s).pm } from rfl,
      ticked_pm_counters, show (ticked s).dpt = tickCredit s.dpt from rfl, tickCredit_only]
    rfl

end Sys2Proof.Machine

/-! Registers: HG_DEV_TIME's latch (01 R11) and what a write does by the type of its field (00 R5, R6; 04 R92; 10 R238; 17 R415);
and which commands the model answers at all (log entry 37). -/

namespace Sys2Proof.Machine

/-! ### What the update of one function or one stack leaves -/

theorem modFn_leaves (f : Nat) (g : Fn → Fn) (s : State) : getFn (modFn f g s) f = g (getFn s f) ∧
    (∀ k, k ≠ f → getFn (modFn f g s) k = getFn s k) ∧ modFn f g s = { s with fns := (modFn f g s).fns } :=
  ⟨getFn_modFn .., fun _ n => getFn_modFn_ne g s n, rfl⟩

theorem modStk_leaves (k : Nat) (g : Stack → Stack) (s : State) : getStk (modStk k g s) k = g (getStk s k) ∧
    (∀ j, j ≠ k → getStk (modStk k g s) j = getStk s j) ∧ modStk k g s = { s with stks := (modStk k g s).stks } :=
  ⟨getStk_modStk .., fun _ n => getStk_modStk_ne g s n, rfl⟩

theorem onUnit_next {b : Bool} (there : b = true) (t : State) : onUnit b t = .next t := if_pos there

theorem onFn_next {f : Nat} (hf : f < 64) (t : State) : onUnit (fnOk f) t = .next t := onUnit_next (decide_eq_true hf) t

/-! ### HG_DEV_TIME (01 R11) -/

theorem devTime_lt (s : State) : s.devTime.toNat < 2 ^ 64 := s.devTime.isLt

theorem reg32_devTime_low (s : State) (f : Nat) : reg32 s f 0x40 = s.devTime.toNat % 2 ^ 32 := rfl

theorem reg32_devTime_high (s : State) (f : Nat) : reg32 s f 0x44 = s.devTime.toNat / 2 ^ 32 := half_high (devTime_lt s)

theorem read32_devTime_low (s : State) (f : Nat) : read32 f 0x40 s =
    (s.devTime.toNat % 2 ^ 32, modFn f (fun y => { y with devLatch := some (BitVec.ofNat 32 (s.devTime.toNat / 2 ^ 32)) }) s) := by
  rw [← reg32_devTime_low s f, ← reg32_devTime_high s f]
  rfl

theorem read32_devTime_latched {s : State} {f : Nat} {v : W32} (latched : (getFn s f).devLatch = some v) :
    read32 f 0x44 s = (v.toNat, modFn f (fun y => { y with devLatch := none }) s) := by
  simp [read32, latched]

theorem read32_devTime_live {s : State} {f : Nat} (live : (getFn s f).devLatch = none) :
    read32 f 0x44 s = (s.devTime.toNat / 2 ^ 32, s) := by
  simp [read32, live, reg32_devTime_high]

theorem clearRc_devTime (f : Nat) (s : State) : clearRc f 0x44 (clearRc f 0x40 s) = s := by
  have low : clearRc f 0x40 s = s := by simp [clearRc]
  rw [low]
  simp [clearRc]

theorem read64_devTime (s : State) (f : Nat) : read64 f 0x40 s = (s.devTime.toNat, s) := by
  have rc : rc64 0x40 = none := by decide
  unfold read64
  rw [rc, reg32_devTime_low, reg32_devTime_high, Nat.mod_add_div]
  exact congrArg _ (clearRc_devTime f s)

/-- Settles O27: each of the three reads is a `barRead` of HG_DEV_TIME. -/
theorem devTimeReadsAreConsistent : Obligations.DevTimeReadsAreConsistent := by
  unfold Obligations.DevTimeReadsAreConsistent
  intro s fn hf
  refine ⟨?low, fun v latched => ?high, fun live => ?live, ?whole⟩
  case low =>
    have leaves := emit_modFn_leaves (.regRead fn 0x40 (s.devTime.toNat % 2 ^ 32)) fn
      (fun y => { y with devLatch := some (BitVec.ofNat 32 (s.devTime.toNat / 2 ^ 32)) }) s
    obtain ⟨answer, latch, others, frame⟩ := leaves
    refine ⟨_, (onFn_next hf _).trans (congrArg _ ((barRead_four s rfl).trans ?_)), answer, by rw [latch], others, frame⟩
    rw [read32_devTime_low]
  case high =>
    obtain ⟨answer, latch, others, frame⟩ := emit_modFn_leaves (.regRead fn 0x44 v.toNat) fn (fun y => { y with devLatch := none }) s
    refine ⟨_, (onFn_next hf _).trans (congrArg _ ((barRead_four s rfl).trans ?_)), answer, by rw [latch], others, frame⟩
    rw [read32_devTime_latched latched]
  case live =>
    refine (onFn_next hf _).trans (congrArg _ ((barRead_four s rfl).trans ?_))
    rw [read32_devTime_live live]
    rfl
  case whole =>
    refine (onFn_next hf _).trans (congrArg _ ((barRead_eight s rfl).trans ?_))
    rw [read64_devTime]
    rfl

/-! ### Writes by field type (00 R5, R6) -/

section
variable {f : Nat} (hf : f < 64) (s : State)
include hf

theorem exec_w1c {off : Nat} (v : W32) (h : off % 4 = 0) : exec (.w1cRegisterWrite f off v) s = .next (writeW1c f off v.toNat s) := by
  refine (onFn_next hf _).trans (congrArg _ ?_)
  rw [sizedWrite, aligned_four h, Nat.mod_eq_of_lt v.isLt]
  rfl

theorem exec_registerWrite (off size : Nat) (v : W64) : exec (.registerWrite (.bar0 f off) size v) s = .next (bar0Write f off size v.toNat s) :=
  onFn_next hf _

end

theorem bar0Write_four {f off : Nat} (v : Nat) (s : State) (h : off % 4 = 0) : bar0Write f off 4 v s = write32 f off (v % 2 ^ 32) s := by
  unfold bar0Write
  rw [if_neg (by simp), sizedWrite, aligned_four h]
  rfl

theorem bar0Write_misaligned {f off size : Nat} (v : Nat) (s : State) (h : aligned off size = false) : bar0Write f off size v s = badAccess f s := by
  unfold bar0Write
  rw [if_neg, sizedWrite, h]
  · rfl
  · rintro ⟨-, rfl, rfl⟩
    nomatch h

theorem bar0Write_margin (v : W64) (s : State) : bar0Write 0 0x228 8 v.toNat s = schedule { s with margin := v } := by
  unfold bar0Write
  rw [if_pos ⟨rfl, rfl, rfl⟩, BitVec.ofNat_toNat, BitVec.setWidth_eq]

/-- Between the registers of a function's own and its MSI-X table nothing can be written. -/
theorem write32_readOnly {f off : Nat} (v : Nat) (s : State) (lo : 0x1000 ≤ off) (hi : off < 0x8000) : write32 f off v s = s := by
  have pf : writePf off v s = s := by
    unfold writePf
    rw [if_neg (by omega)]
    split
    all_goals try omega
    rfl
  unfold write32
  rw [if_neg (by omega), pf, ite_self]

theorem write32_irqEnable (f v : Nat) (s : State) : write32 f 0x41C v s = modFn f (fun x => { x with irqEnable := BitVec.ofNat 6 v }) s := rfl

/-- A 1 clears the bit, a 0 leaves it. -/
theorem hasBit_w1c (old : BitVec 6) (v : Nat) {i : Nat} (hi : i < 6) :
    hasBit (BitVec.ofNat 6 (old.toNat &&& (63 - v % 64))) i = (hasBit old i && !bitOf v i) := by
  have inverted : 63 - v % 64 = 2 ^ 6 - (v % 64 + 1) := by omega
  have low : v % 64 < 2 ^ 6 := Nat.mod_lt _ (by decide)
  unfold hasBit bitOf
  rw [BitVec.toNat_ofNat, Nat.testBit_mod_two_pow, Nat.testBit_and, inverted, Nat.testBit_two_pow_sub_succ low,
    show v % 64 = v % 2 ^ 6 from rfl, Nat.testBit_mod_two_pow]
  simp [hi]

/-- Settles O29. -/
theorem registerWritesFollowTheFieldType : Obligations.RegisterWritesFollowTheFieldType := by
  unfold Obligations.RegisterWritesFollowTheFieldType
  refine ⟨fun s fn hf => ⟨fun v => ?cause, fun v => ?saturated, fun off v h lo hi => ?readOnly, fun off size v h => ?misaligned,
    fun v => ?enable, fun v => ?margin⟩, fun s fn k v hf hk => ⟨?budget, ?patrol, fun on => ?limit⟩⟩
  case cause =>
    obtain ⟨own, others, frame⟩ := modFn_leaves fn (fun x => { x with irqCause := BitVec.ofNat 6 (x.irqCause.toNat &&& (63 - v.toNat % 64)) }) s
    refine ⟨_, exec_w1c hf s v rfl, fun i hi => ?_, ?_, others, frame⟩
    · refine Eq.trans (congrArg (fun x : Fn => hasBit x.irqCause i) own) ?_
      exact hasBit_w1c _ _ hi
    · exact own.trans (congrArg (fun x : Fn => { getFn s fn with irqCause := x.irqCause }) own).symm
  case saturated =>
    obtain ⟨own, -, frame⟩ := modFn_leaves fn (fun x => { x with saturated := x.saturated && !bitOf v.toNat 0 }) s
    exact ⟨_, exec_w1c hf s v rfl, own, frame⟩
  case readOnly =>
    rw [exec_registerWrite hf, bar0Write_four _ s h, write32_readOnly _ s lo hi]
  case misaligned =>
    obtain ⟨own, others, frame⟩ := modFn_leaves fn (fun x => { x with badAccess := true }) s
    exact ⟨_, by rw [exec_registerWrite hf, bar0Write_misaligned _ s h]; rfl, own, others, frame⟩
  case enable =>
    obtain ⟨own, others, frame⟩ := modFn_leaves fn (fun x => { x with irqEnable := BitVec.ofNat 6 (v.toNat % 2 ^ 32) }) s
    exact ⟨_, by rw [exec_registerWrite hf, bar0Write_four _ s rfl, write32_irqEnable], own, others, frame⟩
  case margin =>
    rw [exec_registerWrite (by decide), bar0Write_margin]
  case budget =>
    have runs : exec (.scFurrowBudgetWrite fn k v) s = .next (if fn = 0 then setBudget k v.toNat s else s) :=
      onUnit_next (by simp [fnOk, stackOk, hf, hk]) _
    by_cases physical : fn = 0
    · obtain ⟨own, others, frame⟩ := modStk_leaves k (fun x => { x with stackLimit := bitsOf v.toNat 24 16, dieLimit := bitsOf v.toNat 4 0 }) s
      refine ⟨_, by rw [runs, if_pos physical]; rfl, ?_, others, frame⟩
      rw [own, if_pos physical]
      simp [bitsOf]
    · exact ⟨s, by rw [runs, if_neg physical], (if_neg physical).symm, fun _ _ => rfl, rfl⟩
  case patrol =>
    have runs : exec (.scPatrolCtrlWrite fn k v) s = .next (if fn = 0 then setPatrol k v.toNat s else s) :=
      onUnit_next (by simp [fnOk, stackOk, hf, hk]) _
    by_cases physical : fn = 0
    · obtain ⟨own, others, frame⟩ := modStk_leaves k (fun x => { x with patrolPause := bitOf v.toNat 31, patrolHours := bitsOf v.toNat 7 0 }) s
      refine ⟨_, by rw [runs, if_pos physical]; rfl, ?_, others, frame⟩
      rw [own, if_pos physical]
      simp [bitsOf]
    · exact ⟨s, by rw [runs, if_neg physical], (if_neg physical).symm, fun _ _ => rfl, rfl⟩
  case limit =>
    exact congrArg _ (if_pos on)

end Sys2Proof.Machine

/-! Which commands the model answers: those that name units of the part, each by a next state; the others it stops by name (log
entry 37). -/

namespace Sys2Proof.Machine

/-- The answer is a next state where `ok` holds, and the stop by name otherwise. -/
def Answers (ok : Bool) (r : Res) : Prop := (ok = true → ∃ t, r = .next t) ∧ (ok = false → r = .fault .noSuchUnit)

theorem answers_onUnit (ok : Bool) (t : State) : Answers ok (onUnit ok t) := onUnit_answers ok t

theorem answers_of_next {r : Res} (next : ∃ t, r = .next t) : Answers true r := ⟨fun _ => next, nofun⟩

theorem answers_runCmd (h op : Nat) (f : Cmd → State → State) (s : State) : Answers true (runCmd h op f s) :=
  answers_of_next (runCmd_answers h op f s)

theorem packetAdmission_answers (m : Nat) (s : State) : ∃ t, execPacketAdmission m s = .next t := by
  unfold execPacketAdmission
  repeat' split
  all_goals exact ⟨_, rfl⟩

theorem commandStart_answers (s : State) : ∃ t, execCommandStart s = .next t := by
  unfold execCommandStart
  split <;> exact ⟨_, rfl⟩

theorem commandCompletion_answers (h : Nat) (s : State) : ∃ t, execCommandCompletion h s = .next t := by
  unfold execCommandCompletion
  split
  · exact ⟨_, rfl⟩
  · split <;> exact ⟨_, rfl⟩

theorem runResume_answers (run : Nat) (badHeader : Bool) (badBlocks : List Nat) (s : State) :
    ∃ t, execRunResume run badHeader badBlocks s = .next t := by
  unfold execRunResume
  split
  · exact ⟨_, rfl⟩
  · split <;> exact ⟨_, rfl⟩

theorem controlReceived_answers (hd : DptHdr) (m : DptCtl) (s : State) : ∃ t, controlReceived hd m s = .next t := by
  unfold controlReceived
  cases m <;> exact ⟨_, rfl⟩

theorem exec_answers (c : Instr) (s : State) : Answers c.wf (exec c s) := by
  cases c with
  | tenantCreate => unfold exec execTenantCreate; exact answers_runCmd ..
  | tenantDestroy => unfold exec execTenantDestroy; exact answers_runCmd ..
  | sqCreate => unfold exec execSqCreate; exact answers_runCmd ..
  | sqDestroy => unfold exec execSqDestroy; exact answers_runCmd ..
  | groupDeadline => unfold exec execGroupDeadline; exact answers_runCmd ..
  | cmdCancel => unfold exec execCmdCancel; exact answers_runCmd ..
  | tenantPause => unfold exec execTenantPause; exact answers_runCmd ..
  | tenantResume => unfold exec execTenantResume; exact answers_runCmd ..
  | alloc => unfold exec execAlloc; exact answers_runCmd ..
  | free => unfold exec execFree; exact answers_runCmd ..
  | descCreate => unfold exec execDescCreate; exact answers_runCmd ..
  | descDestroy => unfold exec execDescDestroy; exact answers_runCmd ..
  | fill => unfold exec execFill; exact answers_runCmd ..
  | copy => unfold exec execCopy; exact answers_runCmd ..
  | copyIndexed => unfold exec execCopyIndexed; exact answers_runCmd ..
  | furrow => unfold exec execFurrow; exact answers_runCmd ..
  | bundleLoad => unfold exec execBundleLoad; exact answers_runCmd ..
  | bundleUnload => unfold exec execBundleUnload; exact answers_runCmd ..
  | bundleRun => unfold exec execBundleRun; exact answers_runCmd ..
  | pageShare => unfold exec execPageShare; exact answers_runCmd ..
  | pageRelease => unfold exec execPageRelease; exact answers_runCmd ..
  | pageCow => unfold exec execPageCow; exact answers_runCmd ..
  | attend => unfold exec execAttend; exact answers_runCmd ..
  | verify => unfold exec execVerify; exact answers_runCmd ..
  | evict => unfold exec execEvict; exact answers_runCmd ..
  | adapterLoad => unfold exec execAdapterLoad; exact answers_runCmd ..
  | adapterEvict => unfold exec execAdapterEvict; exact answers_runCmd ..
  | ctrSignal => unfold exec execCtrSignal; exact answers_runCmd ..
  | ctrWaitGe => unfold exec execCtrWaitGe; exact answers_runCmd ..
  | ctrWaitTake => unfold exec execCtrWaitTake; exact answers_runCmd ..
  | ctrRead => unfold exec execCtrRead; exact answers_runCmd ..
  | portConfig => unfold exec execPortConfig; exact answers_runCmd ..
  | groupJoin => unfold exec execGroupJoin; exact answers_runCmd ..
  | groupLeave => unfold exec execGroupLeave; exact answers_runCmd ..
  | remoteCopy => unfold exec execRemoteCopy; exact answers_runCmd ..
  | collective => unfold exec execCollective; exact answers_runCmd ..
  | selftest => unfold exec execSelftest; exact answers_runCmd ..
  | margin => unfold exec execMargin; exact answers_runCmd ..
  | powerState => unfold exec execPowerState; exact answers_runCmd ..
  | faultHistory => unfold exec execFaultHistory; exact answers_runCmd ..
  | counterPeek => unfold exec execCounterPeek; exact answers_runCmd ..
  | counterPoke => unfold exec execCounterPoke; exact answers_runCmd ..
  | flipMask => unfold exec execFlipMask; exact answers_runCmd ..
  | attest => unfold exec execAttest; exact answers_runCmd ..
  | nop => unfold exec execNop; exact answers_runCmd ..
  | fopCopy | fopFill | fopLogic | fopDot | fopAxpy | fopAxpyReduce | fopGather | fopSegment | fopAtomic | fopAtomicFetch
  | fopPageScore => exact answers_of_next (runFop_answers ..)
  | packetAdmission => exact answers_of_next (packetAdmission_answers ..)
  | commandStart => exact answers_of_next (commandStart_answers ..)
  | commandCompletion => exact answers_of_next (commandCompletion_answers ..)
  | runResume => exact answers_of_next (runResume_answers ..)
  | getStatus | readReg | writeReg | eventRead | faultHistoryRead | faultClear | identityGet | henuaAttest | henuaPowerState
  | henuaCounterPeek | henuaCounterPoke | ownerKeyProgram | keyRevoke | rollbackCommit | mgmtNetConfig | pldmFirmwareUpdate
  | pmPowerLimitWrite | firmwarePushGo | firmwareVerification | inputPowerApplied | inputWarningBand | inputCut | inputPowerLoss
  | inputRecovery | pwrEnHigh | pwrEnLow | perstNAssert | perstNRelease | hotReset | pcieLinkDown | pcieLinkTrained | wakeNAssert
  | henuaBootComplete | railSequencing | rootPllLock | bootSelftestEnd | inventoryComplete | counterSignal | farLinkDown
  | dptWriteReceived | reorderRelease | dptSignalReceived | keepaliveTimer | peerTimeout | joinTimeout | powerLimiterTick
  | tileTestSlot | stackTestSlot | faultRecordFlush | operatingTimeTick | dptCollectiveDataReceived | configRetryEnd
  | dptAckReceived => exact answers_of_next ⟨_, rfl⟩
  | dptControlReceived => exact answers_of_next (controlReceived_answers ..)
  | hgSqTailWrite | hgCqHeadWrite | hgCqCtrlWrite | hgSq0CtrlWrite | irqHoldoffExpiry | cqStallTimeout | hgDevTimeRead
  | rcRegisterRead | w1cRegisterWrite | registerWrite | scFurrowBudgetWrite | scPatrolCtrlWrite | hgPtpTxTailWrite
  | hgPtpRxHeadWrite | msixUnmask | bar4Read | bar4Write | functionLevelReset | wakeComplete | stackLinkTrainingEnd
  | longWordIssue | mainPass | checksumVerdict | accDrain | lateralLoad | extraLateralSlot | channelOp | channelReduction
  | softmax | normalisation | quantise | loadTransfer | codeOverlayTransfer | storeTransfer | eventWait | unitOpComplete
  | stepHeadWait | commit | stepTimeLimit | tileTrap | tileFrameSaveComplete | furrowSliceStart | sliceEnd | refreshDue
  | stackRead | stackWrite | mergeWindowExpiry | correctionWriteBack | uePoisonRewrite | ceBucketLeak | patrolRowVisit
  | linkFrameRetry | flitCrcRetry | frameReceived | ackTimer | retransmitTimeout | pathProbe | ethLinkUp | ethLinkDown
  | sensorUpdate | suspectTestDue | selftestComplete | retrainingComplete => exact answers_onUnit ..

/-- Settles O60. -/
theorem wellFormedCommandsComplete : Obligations.WellFormedCommandsComplete := by
  unfold Obligations.WellFormedCommandsComplete
  exact exec_answers

end Sys2Proof.Machine

/-! What the operations shared by every family may touch (18 R433 to R435; 14 R342 to R344; 01 R16, R17; 15 R371, R372): a Henua
event the controller's store and the outputs, a cause bit the functions' registers, a change of the capability table the table
and what announces it, a fault record the history and what reports it. -/

namespace Sys2Proof.Machine

/-! ### Henua events -/

theorem storeEvent_henua (e : HEvent) (h : Henua) :
    storeEvent e h = { h with events := (storeEvent e h).events, evtLost := (storeEvent e h).evtLost } := by
  unfold storeEvent
  dsimp only
  split
  · rfl
  · split <;> rfl

section
variable (cls severity : Nat) (payload : List Nat) (s : State)

theorem henuaEvent_eq : henuaEvent cls severity payload s =
    { s with henua := (henuaEvent cls severity payload s).henua, out := (henuaEvent cls severity payload s).out } := by
  unfold henuaEvent whenS
  split
  · dsimp only
    split <;> rfl
  · rfl

/-- Of the controller an event touches the stored events, their number and the count of those lost. -/
theorem henuaEvent_henua : (henuaEvent cls severity payload s).henua = { s.henua with
    events := (henuaEvent cls severity payload s).henua.events, evtSeq := (henuaEvent cls severity payload s).henua.evtSeq,
    evtLost := (henuaEvent cls severity payload s).henua.evtLost } := by
  unfold henuaEvent whenS
  split
  · dsimp only
    split <;> (simp only [modHenua, emit]; rw [storeEvent_henua])
  · rfl

theorem henuaEvent_shape : ∃ events seq lost out, henuaEvent cls severity payload s =
    { s with henua := { s.henua with events := events, evtSeq := seq, evtLost := lost }, out := out } :=
  ⟨(henuaEvent cls severity payload s).henua.events, (henuaEvent cls severity payload s).henua.evtSeq,
    (henuaEvent cls severity payload s).henua.evtLost, (henuaEvent cls severity payload s).out,
    by conv_lhs => rw [henuaEvent_eq, henuaEvent_henua]⟩

theorem henuaEvent_evtSeq : (henuaEvent cls severity payload s).henua.evtSeq = if s.henua.up then s.henua.evtSeq + 1 else s.henua.evtSeq := by
  unfold henuaEvent whenS
  split
  · dsimp only
    split <;> rfl
  · rfl

theorem henuaEvent_down (down : s.henua.up = false) : henuaEvent cls severity payload s = s := by
  unfold henuaEvent
  rw [down]
  rfl

/-- What an event puts out stays behind what was put out before. -/
theorem mem_henuaEvent_out {o : Output} (h : o ∈ s.out) : o ∈ (henuaEvent cls severity payload s).out := by
  unfold henuaEvent whenS
  split
  · dsimp only
    split
    · exact List.mem_append_left _ h
    · exact h
  · exact h

end

/-! ### Interrupts -/

theorem sendMsix_eq (f v : Nat) (s : State) : sendMsix f v s = { s with fns := (sendMsix f v s).fns, out := (sendMsix f v s).out } := by
  unfold sendMsix
  dsimp only
  repeat' split
  all_goals rfl

theorem vecEvent_eq (f v : Nat) (s : State) : vecEvent f v s = { s with fns := (vecEvent f v s).fns, out := (vecEvent f v s).out } := by
  unfold vecEvent
  dsimp only
  repeat' split
  · rfl
  · rw [sendMsix_eq]
    rfl
  · rfl

theorem setCause_eq (f bit : Nat) (s : State) : setCause f bit s = { s with fns := (setCause f bit s).fns, out := (setCause f bit s).out } := by
  unfold setCause whenS
  dsimp only
  repeat' split
  · rfl
  · rw [vecEvent_eq]
    rfl
  · rfl

/-- The state without the functions' registers and the outputs. -/
def apartFromFns (s : State) : State := { s with fns := [], out := [] }

theorem eq_of_apartFromFns {s t : State} (e : apartFromFns t = apartFromFns s) : t = { s with fns := t.fns, out := t.out } := by
  have restored := congrArg (fun x : State => { x with fns := t.fns, out := t.out }) e
  exact restored

theorem setCause_apartFromFns (f bit : Nat) (s : State) : apartFromFns (setCause f bit s) = apartFromFns s := by
  rw [setCause_eq]
  rfl

theorem setCauseAll_eq (bit : Nat) (s : State) : setCauseAll bit s = { s with fns := (setCauseAll bit s).fns, out := (setCauseAll bit s).out } :=
  eq_of_apartFromFns (forEach_keeps apartFromFns (fun f s => setCause_apartFromFns f bit s) ..)

/-! ### The capability table -/

theorem capChange_eq (severity : Nat) (g : Cap → Cap) (s : State) : capChange severity g s =
    { s with cap := (capChange severity g s).cap, fns := (capChange severity g s).fns, henua := (capChange severity g s).henua,
             out := (capChange severity g s).out } := by
  unfold capChange
  dsimp only
  split
  · rw [setCauseAll_eq, henuaEvent_eq]
  · rfl

/-- The table after a change. -/
theorem capChange_cap (severity : Nat) (g : Cap → Cap) (s : State) : (capChange severity g s).cap =
    if s.cap.valid then { g s.cap with gen := (g s.cap).gen + 2, degraded := (g s.cap).degraded || degradedNow { s with cap := g s.cap } }
    else g s.cap := by
  unfold capChange
  dsimp only
  split
  · rw [setCauseAll_eq, henuaEvent_eq]
  · rfl

/-! ### The fault history -/

theorem recordFault_eq (kind check : Nat) (u : UnitRef) (tenant detail : Nat) (bundle : List Byte) (s : State) :
    recordFault kind check u tenant detail bundle s =
      { s with hist := (recordFault kind check u tenant detail bundle s).hist,
               henua := (recordFault kind check u tenant detail bundle s).henua,
               out := (recordFault kind check u tenant detail bundle s).out } := by
  unfold recordFault
  dsimp only
  split
  · rw [henuaEvent_eq]
    split <;> rfl
  · split <;> rfl

theorem retireCap_eq (check : Nat) (u : UnitRef) (tenant : Nat) (s : State) : retireCap check u tenant s =
    { s with cap := (retireCap check u tenant s).cap, fns := (retireCap check u tenant s).fns, henua := (retireCap check u tenant s).henua,
             hist := (retireCap check u tenant s).hist, out := (retireCap check u tenant s).out } := by
  unfold retireCap
  split
  · rfl
  · rw [capChange_eq]
    unfold modSum
    dsimp only
    rw [recordFault_eq]

end Sys2Proof.Machine

/-! FIRMWARE_VERIFICATION (18 R423, R424): the image that a push names, what its checks say of it, and the start or the refusal. -/

namespace Sys2Proof.Machine

/-! ### Checks in order -/

theorem mem_of_firstFail_eq_some {l : List (Option Nat)} {r : Nat} (e : firstFail l = some r) : some r ∈ l := by
  induction l with
  | nil => nomatch e
  | cons o l ih =>
    cases o with
    | none => exact List.mem_cons_of_mem _ (ih e)
    | some x =>
      cases e
      exact List.mem_cons_self

theorem firstFail_eq_none {l : List (Option Nat)} : firstFail l = none ↔ ∀ o ∈ l, o = none := by
  induction l with
  | nil => simp [firstFail]
  | cons o l ih => cases o <;> simp [firstFail, ih]

theorem need_eq_none {ok : Bool} {r : Nat} : need ok r = none ↔ ok = true := by cases ok <;> simp [need]

theorem eq_of_need_eq_some {ok : Bool} {r x : Nat} (e : some x = need ok r) : x = r := by
  cases ok
  · exact Option.some.inj e
  · nomatch e

theorem verifyImage_reason {s : State} {addr len r : Nat} {b : List Byte} {he pe : Bool} (e : verifyImage s addr len b he pe = some r) :
    1 ≤ r ∧ r ≤ 8 := by
  have failed := mem_of_firstFail_eq_some e
  simp only [List.mem_cons, List.not_mem_nil, or_false] at failed
  obtain h | h | h | h | h | h | h | h | h := failed <;> rw [eq_of_need_eq_some h] <;> decide

/-! ### The image of a push -/

/-- Where the image of the push lies in host memory; a push of the management paths is in code memory. -/
def pushAddr (s : State) : Nat := if s.henua.source = 0 then s.henua.bootAddr.toNat / 4096 * 4096 else 0

def pushLen (s : State) : Nat := if s.henua.source = 0 then bitsOf s.henua.bootLen.toNat 24 0 else s.henua.code.length

def pushBytes (s : State) : List Byte := if s.henua.source = 0 then hostRead s (pushAddr s) (pushLen s) else s.henua.code

/-- The state once the image is read: its fetches are put out. -/
def pushRead (he : Bool) (s : State) : State :=
  if s.henua.source = 0 ∧ ¬(s.henua.source = 0 ∧ (getFn s 0).busMaster = false) then
    pushFetch (pushAddr s) (pushLen s) (pushBytes s) (he || decide (s.henua.source = 0 ∧ (getFn s 0).busMaster = false)) s
  else s

theorem pushFetch_eq (addr len : Nat) (b : List Byte) (bad : Bool) (s : State) :
    pushFetch addr len b bad s = { s with out := (pushFetch addr len b bad s).out } := by
  unfold pushFetch
  dsimp only
  repeat' split
  all_goals rfl

theorem pushRead_eq (he : Bool) (s : State) : pushRead he s = { s with out := (pushRead he s).out } := by
  unfold pushRead
  split
  · exact pushFetch_eq ..
  · rfl

/-- REASON of the first check that fails. -/
def pushReason (he pe : Bool) (s : State) : Option Nat :=
  verifyImage s (pushAddr s) (pushLen s) (pushBytes s) (he || decide (s.henua.source = 0 ∧ (getFn s 0).busMaster = false)) pe

theorem verifyImage_pushRead (h he pe : Bool) (s : State) (addr len : Nat) (b : List Byte) :
    verifyImage (pushRead h s) addr len b he pe = verifyImage s addr len b he pe := by
  rw [pushRead_eq]
  rfl

/-- The module in recovery, for reason `r`. -/
def pushRefused (r : Nat) (s u : State) : State :=
  showFault (pushEvent 2 r (parseImage (pushBytes s)) (modHenua (fun x => { x with bstate := 4, reason := r }) u))

/-- The image starts. -/
def pushStarted (s u : State) : State :=
  showFault (pushEvent 0 0 (parseImage (pushBytes s)) (modHenua (fun x => { x with bstate := 3, image := some (parseImage (pushBytes s)), code := pushBytes s })
    (modBoard (fun x => { x with step := 7 }) u)))

theorem exec_firmwareVerification {s : State} (pushed : s.henua.bstate = 2) (he pe : Bool) : exec (.firmwareVerification he pe) s =
    .next (match pushReason he pe s with
      | some r => pushRefused r s (pushRead he s)
      | none => pushStarted s (pushRead he s)) := by
  unfold pushReason
  rw [← verifyImage_pushRead he]
  exact congrArg _ (if_neg fun other => other pushed)

theorem pushEvent_shape (sev r : Nat) (im : Image) (s : State) : ∃ events seq lost out, pushEvent sev r im s =
    { s with henua := { s.henua with events := events, evtSeq := seq, evtLost := lost }, out := out } := by
  exact henuaEvent_shape ..

/-- In recovery FAULT_N is asserted. -/
theorem pushRefused_shape (r : Nat) (s u : State) : ∃ events seq lost out, pushRefused r s u =
    { u with henua := { u.henua with bstate := 4, reason := r, events := events, evtSeq := seq, evtLost := lost },
             board := { u.board with faultN := false }, out := out } := by
  obtain ⟨events, seq, lost, out, e⟩ := pushEvent_shape 2 r (parseImage (pushBytes s)) (modHenua (fun x => { x with bstate := 4, reason := r }) u)
  refine ⟨events, seq, lost, out, ?_⟩
  unfold pushRefused showFault faultHolds
  rw [e]
  simp [modHenua, modBoard]

theorem pushStarted_shape (s u : State) : ∃ events seq lost fault out, pushStarted s u =
    { u with henua := { u.henua with bstate := 3, image := some (parseImage (pushBytes s)), code := pushBytes s, events := events,
                                     evtSeq := seq, evtLost := lost },
             board := { u.board with step := 7, faultN := fault }, out := out } := by
  obtain ⟨events, seq, lost, out, e⟩ := pushEvent_shape 0 0 (parseImage (pushBytes s))
    (modHenua (fun x => { x with bstate := 3, image := some (parseImage (pushBytes s)), code := pushBytes s }) (modBoard (fun x => { x with step := 7 }) u))
  refine ⟨events, seq, lost, (pushStarted s u).board.faultN, out, ?_⟩
  unfold pushStarted showFault
  rw [e]
  rfl

/-- All checks of R424 hold of the image, and it was read. -/
structure PushSound (he pe : Bool) (s : State) : Prop where
  range : pushRange (pushAddr s) (pushLen s) = true
  header : he = false
  busMaster : s.henua.source = 0 → (getFn s 0).busMaster = true
  fields : headerOk (pushBytes s) (pushLen s) = true
  slot : (parseImage (pushBytes s)).keySlot < 6
  programmed : (keySlot s (parseImage (pushBytes s)).keySlot).programmed = true
  unrevoked : (keySlot s (parseImage (pushBytes s)).keySlot).revoked = false
  key : sha3 (sliceB (pushBytes s) 0x40 1952) = (keySlot s (parseImage (pushBytes s)).keySlot).hash
  signature : Config.mldsaVerify (sliceB (pushBytes s) 0x40 1952) ((pushBytes s).take 2048) (sliceB (pushBytes s) 0x800 3309) = true
  svn : s.fuses.rollback ≤ (parseImage (pushBytes s)).svn
  payloadRead : pe = false
  payload : sha3 ((pushBytes s).drop 8192) = (parseImage (pushBytes s)).digest

theorem pushSound_of_pushReason {he pe : Bool} {s : State} (e : pushReason he pe s = none) : PushSound he pe s := by
  have passed := firstFail_eq_none.mp e
  simp only [List.forall_mem_cons, List.not_mem_nil, false_imp_iff, implies_true, and_true, need_eq_none, Bool.and_eq_true, Bool.not_eq_true',
    Bool.or_eq_false_iff, decide_eq_true_eq, decide_eq_false_iff_not, beq_iff_eq, not_and, Bool.not_eq_false] at passed
  obtain ⟨range, ⟨header, busMaster⟩, fields, ⟨⟨slot, programmed⟩, unrevoked⟩, key, signature, svn, payloadRead, payload⟩ := passed
  exact ⟨range, header, busMaster, fields, slot, programmed, unrevoked, key, signature, svn, payloadRead, payload⟩

/-- Settles O56: an image starts only where `pushReason` is none, so `PushSound`. -/
theorem onlyVerifiedImagesStart : Obligations.OnlyVerifiedImagesStart := by
  unfold Obligations.OnlyVerifiedImagesStart
  intro s he pe
  refine ⟨fun idle => congrArg _ (if_pos idle), fun pushed => ⟨_, exec_firmwareVerification pushed he pe, ?_⟩⟩
  cases e : pushReason he pe s with
  | some r =>
    obtain ⟨low, high⟩ := verifyImage_reason e
    obtain ⟨_, _, _, _, refused⟩ := pushRefused_shape r s (pushRead he s)
    dsimp only
    rw [refused, pushRead_eq]
    exact ⟨.inl ⟨rfl, rfl, low, high, rfl, rfl⟩, rfl⟩
  | none =>
    have sound := pushSound_of_pushReason e
    obtain ⟨_, _, _, _, _, started⟩ := pushStarted_shape s (pushRead he s)
    dsimp only
    rw [started, pushRead_eq]
    refine ⟨.inr ⟨rfl, sound.header, sound.payloadRead, rfl, _, pushBytes s, rfl, rfl, rfl, fun path => ?path, fun host => ?host, sound.slot,
      sound.programmed, sound.unrevoked, sound.key, sound.signature, sound.svn, sound.payload⟩, rfl⟩
    case path =>
      have range := sound.range
      have fields := sound.fields
      rw [pushAddr, pushLen, if_neg path, if_neg path] at range
      rw [pushBytes, pushLen, if_neg path, if_neg path] at fields
      exact ⟨if_neg path, by rw [pushBytes, if_neg path]; exact range, by rw [pushBytes, if_neg path]; exact fields⟩
    case host =>
      have range := sound.range
      have fields := sound.fields
      rw [pushAddr, pushLen, if_pos host, if_pos host] at range
      rw [pushBytes, pushAddr, pushLen, if_pos host, if_pos host, if_pos host] at fields
      exact ⟨sound.busMaster host, by rw [pushBytes, pushAddr, pushLen, if_pos host, if_pos host, if_pos host], range,
        by rw [pushBytes, pushAddr, pushLen, if_pos host, if_pos host, if_pos host]; exact fields⟩

end Sys2Proof.Machine

/-! The queue registers (08 R175 to R178): the doorbell, the head of the completion queue, and the two control registers. -/

namespace Sys2Proof.Machine

/-! ### Words of a control register -/

theorem bitsOf_single (v i : Nat) : bitsOf v i i = (bitOf v i).toNat := by
  unfold bitsOf bitOf
  rw [Nat.add_sub_cancel_left, pow_one, Nat.toNat_testBit]

theorem bitsOf_low (v hi : Nat) : bitsOf v hi 0 = v % 2 ^ (hi + 1) := by
  rw [bitsOf, pow_zero, Nat.div_one]
  rfl

/-- Bit 31 of a word whose other fields lie below it. -/
theorem hasBit_enable (b : Bool) {r : Nat} (hr : r < 2 ^ 31) : hasBit (BitVec.ofNat 32 (2 ^ 31 * b.toNat + r)) 31 = b := by
  unfold hasBit
  rw [BitVec.toNat_ofNat, Nat.testBit_eq_decide_div_mod_eq]
  cases b <;> simp <;> omega

section
variable {fn : Nat} (hf : fn < 64) (s : State) (v : W32)

/-! ### HG_CQ_CTRL -/

/-- LOG2_ENTRIES that a write leaves. -/
def cqLog2 (x : Fn) (v : Nat) : Nat := if cqEnabled x then bitsOf x.cqCtrl.toNat 4 0 else bitsOf v 4 0

theorem cqLog2_lt (x : Fn) (v : Nat) : cqLog2 x v < 32 := by
  unfold cqLog2
  split <;> exact Nat.mod_lt _ (by decide)

def cqCtrlWord (x : Fn) (v : Nat) : W32 := BitVec.ofNat 32 (2 ^ 31 * bitsOf v 31 31 + 2 ^ 16 * bitsOf v 20 16 + cqLog2 x v)

/-- The function after a write of `v`. -/
def cqWritten (s : State) (fn v : Nat) : Fn :=
  let x := getFn s fn
  let x1 : Fn := { x with cqCtrl := cqCtrlWord x v }
  if cqEnabled x then { x1 with cqBad := x.cqBad && bitOf v 31 }
  else if bitOf v 31 then { x1 with cqBad := !cqConfigOk s fn x1, cqTail := 0, cqHead := 0, cqPhase := true, cqStalled := false }
  else x1

include hf in
theorem exec_hgCqCtrlWrite : exec (.hgCqCtrlWrite fn v) s = .next (modFn fn (fun _ => cqWritten s fn v.toNat) s) := onFn_next hf _

theorem cqWritten_cqCtrl (fn v : Nat) : (cqWritten s fn v).cqCtrl = cqCtrlWord (getFn s fn) v := by
  unfold cqWritten
  dsimp only
  split
  · rfl
  · split <;> rfl

theorem cqEnabled_cqWritten (fn v : Nat) : cqEnabled (cqWritten s fn v) = bitOf v 31 := by
  have log2 := cqLog2_lt (getFn s fn) v
  have vector : bitsOf v 20 16 < 2 ^ 5 := Nat.mod_lt _ (by decide)
  unfold cqEnabled
  rw [cqWritten_cqCtrl, cqCtrlWord, bitsOf_single, Nat.add_assoc]
  exact hasBit_enable _ (by omega)

theorem cqSize_cqWritten (fn v : Nat) : cqSize (cqWritten s fn v) = 2 ^ cqLog2 (getFn s fn) v := by
  have log2 := cqLog2_lt (getFn s fn) v
  unfold cqSize
  rw [cqWritten_cqCtrl, cqCtrlWord, bitsOf_low, BitVec.toNat_ofNat]
  congr 1
  omega

theorem cqWritten_of_enabled {fn : Nat} (v : Nat) (on : cqEnabled (getFn s fn) = true) :
    cqSize (cqWritten s fn v) = cqSize (getFn s fn) ∧ (cqWritten s fn v).cqTail = (getFn s fn).cqTail := by
  refine ⟨?_, by simp [cqWritten, on]⟩
  rw [cqSize_cqWritten, cqLog2, if_pos on]
  rfl

theorem cqWritten_of_disabled {fn : Nat} (v : Nat) (off : cqEnabled (getFn s fn) = false) :
    cqSize (cqWritten s fn v) = 2 ^ (v % 32) ∧ (bitOf v 31 = true → (cqWritten s fn v).cqBad = !cqConfigOk s fn (cqWritten s fn v) ∧
      (cqWritten s fn v).cqTail = 0 ∧ (cqWritten s fn v).cqHead = 0) := by
  refine ⟨?_, fun enables => ?_⟩
  · rw [cqSize_cqWritten, cqLog2, if_neg (by rw [off]; decide), bitsOf_low]
    rfl
  · unfold cqWritten
    dsimp only
    rw [if_neg (by rw [off]; decide), if_pos enables]
    exact ⟨rfl, rfl, rfl⟩

/-! ### HG_SQ0_CTRL -/

def sq0Log2 (x : Fn) (v : Nat) : Nat := if sq0Enabled x then bitsOf x.sq0Ctrl.toNat 3 0 else bitsOf v 3 0

theorem sq0Log2_lt (x : Fn) (v : Nat) : sq0Log2 x v < 16 := by
  unfold sq0Log2
  split <;> exact Nat.mod_lt _ (by decide)

def sq0Written (s : State) (fn v : Nat) : Fn :=
  let x := getFn s fn
  let x1 : Fn := { x with sq0Ctrl := BitVec.ofNat 32 (2 ^ 31 * bitsOf v 31 31 + sq0Log2 x v) }
  if sq0Enabled x then { x1 with sq0Bad := x.sq0Bad && bitOf v 31 }
  else if bitOf v 31 then { x1 with sq0Bad := !sq0ConfigOk s fn x1, sq0 := ⟨sq0BaseOf x, sq0Log2 x v, 0, 0, false, false⟩ }
  else x1

include hf in
theorem exec_hgSq0CtrlWrite : exec (.hgSq0CtrlWrite fn v) s = .next (modFn fn (fun _ => sq0Written s fn v.toNat) s) := onFn_next hf _

theorem sq0Enabled_sq0Written (fn v : Nat) : sq0Enabled (sq0Written s fn v) = bitOf v 31 := by
  have log2 := sq0Log2_lt (getFn s fn) v
  have word : (sq0Written s fn v).sq0Ctrl = BitVec.ofNat 32 (2 ^ 31 * bitsOf v 31 31 + sq0Log2 (getFn s fn) v) := by
    unfold sq0Written
    dsimp only
    split
    · rfl
    · split <;> rfl
  unfold sq0Enabled
  rw [word, bitsOf_single]
  exact hasBit_enable _ (by omega)

theorem sq0Written_of_enabled {fn : Nat} (v : Nat) (on : sq0Enabled (getFn s fn) = true) : (sq0Written s fn v).sq0 = (getFn s fn).sq0 := by
  simp [sq0Written, on]

theorem sq0Written_of_disabled {fn v : Nat} (off : sq0Enabled (getFn s fn) = false) (enables : bitOf v 31 = true) :
    (sq0Written s fn v).sq0Bad = !sq0ConfigOk s fn (sq0Written s fn v) ∧
      (sq0Written s fn v).sq0 = ⟨sq0BaseOf (getFn s fn), v % 16, 0, 0, false, false⟩ := by
  have log2 : sq0Log2 (getFn s fn) v = v % 16 := by
    rw [sq0Log2, if_neg (by rw [off]; decide), bitsOf_low]
    rfl
  unfold sq0Written
  dsimp only
  rw [if_neg (by rw [off]; decide), if_pos enables]
  exact ⟨rfl, by rw [log2]⟩

/-! ### The doorbells -/

/-- A ring after its doorbell. -/
def rung (n : Nat) (x : SubQ) : SubQ := if n % 4096 < 2 ^ x.log2 then { x with tail := n % 4096, badTail := false } else { x with badTail := true }

theorem setTail_sq0 (fn n : Nat) (on : sq0Enabled (getFn s fn) = true) : (getFn (setTail fn 0 n s) fn).sq0 = rung n (getFn s fn).sq0 := by
  unfold setTail rung
  dsimp only
  rw [getFn_modFn, if_pos rfl, if_pos on]

theorem setTail_queue {fn q : Nat} (n : Nat) {x : SubQ} (other : q ≠ 0) (there : tabGet? q (getFn s fn).queues = some x) :
    tabGet? q (getFn (setTail fn q n s) fn).queues = some (rung n x) := by
  unfold setTail rung
  dsimp only
  rw [getFn_modFn, if_neg other, tabGet?_tabMap, there, Option.map_some, if_pos rfl]

theorem setTail_apartMem (fn q n : Nat) {u : State} {m : Memories} (apart : u = { s with mem := m }) :
    setTail fn q n u = { s with fns := (setTail fn q n u).fns, mem := m } := by
  rw [apart]
  rfl

theorem pushHeld_apartMem (h : Held) {u : State} {m : Memories} (apart : u = { s with mem := m }) :
    pushHeld h u = { s with mem := m, held := (pushHeld h u).held } := by
  rw [apart]
  rfl

theorem hostStores_eq (stores : List (Nat × List Byte)) (s : State) : forEach (fun (e : Nat × List Byte) => hostStore e.1 e.2) stores s =
    { s with mem := (forEach (fun (e : Nat × List Byte) => hostStore e.1 e.2) stores s).mem } := by
  induction stores generalizing s with
  | nil => rfl
  | cons e stores ih =>
    unfold forEach
    rw [ih]
    rfl

theorem getFn_hostStores (stores : List (Nat × List Byte)) (s : State) (f : Nat) :
    getFn (forEach (fun (e : Nat × List Byte) => hostStore e.1 e.2) stores s) f = getFn s f := by
  rw [hostStores_eq]
  rfl

/-- The head of the completion queue is set, and the stall lifted where two entries are free. -/
theorem setCqHead_inRange {fn q n : Nat} (there : (if q = 0 then sq0Enabled (getFn s fn) else (tabGet? q (getFn s fn).queues).isSome) = true)
    (inRange : n % 65536 < cqSize (getFn s fn)) :
    getFn (setCqHead fn q n s) fn = { getFn s fn with
      cqHead := n % 65536, cqStalled := ((getFn s fn).cqStalled && decide (cqFree (setCqHead fn q n s) fn < 2)) } := by
  have moved : setCqHead fn q n s = unstall fn (modFn fn (fun y => { y with cqHead := n % 65536 }) s) := if_pos ⟨there, inRange⟩
  have free : cqFree (setCqHead fn q n s) fn = cqFree (modFn fn (fun y => { y with cqHead := n % 65536 }) s) fn := by
    rw [moved]
    unfold unstall whenS
    split
    · simp [cqFree, cqSize, liveCount]
    · rfl
  rw [free, moved]
  unfold unstall whenS
  by_cases two : 2 ≤ cqFree (modFn fn (fun y => { y with cqHead := n % 65536 }) s) fn
  · rw [if_pos (decide_eq_true two), decide_eq_false (by omega), Bool.and_false]
    simp
  · rw [if_neg (by simpa using two), decide_eq_true (by omega), Bool.and_true]
    simp

theorem setCqHead_beyond {fn q n : Nat} (beyond : cqSize (getFn s fn) ≤ n % 65536) : setCqHead fn q n s = s :=
  if_neg fun h => absurd h.2 (by omega)

theorem setCqHead_eq (fn q n : Nat) : setCqHead fn q n s = { s with fns := (setCqHead fn q n s).fns } := by
  unfold setCqHead unstall whenS
  dsimp only
  repeat' split
  all_goals rfl

theorem getFn_setCqHead_ne {fn f : Nat} (q n : Nat) (other : f ≠ fn) : getFn (setCqHead fn q n s) f = getFn s f := by
  unfold setCqHead unstall whenS
  dsimp only
  repeat' split
  all_goals simp [getFn_modFn_ne _ _ other]

end

theorem onQueue_next {fn q : Nat} (hf : fn < 64) (hq : q < 16) (t : State) : onUnit (fnOk fn && decide (q < 16)) t = .next t :=
  onUnit_next (by simp [fnOk, hf, hq]) t

/-- Settles O25. -/
theorem queueRegistersMoveTheirRings : Obligations.QueueRegistersMoveTheirRings := by
  unfold Obligations.QueueRegistersMoveTheirRings
  refine ⟨fun s fn q n stores x hf hq sq0 queue => ⟨fun waits => ?tailWaits, fun free => ?tail, fun waits => ?headWaits, fun free => ?head⟩,
    fun s fn v hf => ⟨?cqCtrl, ?sq0Ctrl⟩⟩
  case tailWaits =>
    refine ⟨_, (onQueue_next hf hq _).trans (congrArg _ (if_pos waits)), ?_, getFn_hostStores stores s, rfl, ?_⟩
    · unfold pushHeld
      rw [hostStores_eq]
      simp
    · exact pushHeld_apartMem s _ (hostStores_eq stores s)
  case tail =>
    refine ⟨_, (onQueue_next hf hq _).trans (congrArg _ (if_neg (by rw [free]; decide))), ?_, fun f other => ?_, ?_, ?_⟩
    · by_cases zero : q = 0
      · obtain ⟨on, rfl⟩ := sq0 zero
        subst zero
        rw [if_pos rfl, setTail_sq0 _ fn n (by rw [getFn_hostStores]; exact on), getFn_hostStores]
        rfl
      · rw [if_neg zero, setTail_queue _ n zero (by rw [getFn_hostStores]; exact queue zero)]
        rfl
    · exact (getFn_modFn_ne _ _ other).trans (getFn_hostStores ..)
    · rfl
    · exact setTail_apartMem s fn q n (hostStores_eq stores s)
  case headWaits =>
    exact ⟨_, (onQueue_next hf hq _).trans (congrArg _ (if_pos waits)), by simp [pushHeld], rfl⟩
  case head =>
    have there : (if q = 0 then sq0Enabled (getFn s fn) else (tabGet? q (getFn s fn).queues).isSome) = true := by
      by_cases zero : q = 0
      · rw [if_pos zero]
        exact (sq0 zero).1
      · rw [if_neg zero, queue zero]
        rfl
    refine ⟨_, (onQueue_next hf hq _).trans (congrArg _ (if_neg (by rw [free]; decide))), fun inRange => ?_, setCqHead_beyond s,
      fun f other => getFn_setCqHead_ne s q n other, setCqHead_eq ..⟩
    have moved := setCqHead_inRange s there inRange
    exact ⟨by rw [moved], by rw [moved], by conv_lhs => rw [moved]⟩
  case cqCtrl =>
    obtain ⟨own, others, frame⟩ := modFn_leaves fn (fun _ => cqWritten s fn v.toNat) s
    refine ⟨_, exec_hgCqCtrlWrite hf s v, ?_, ?_, ?_, others, frame⟩ <;> rw [own]
    · exact cqEnabled_cqWritten ..
    · exact cqWritten_of_enabled s v.toNat
    · exact cqWritten_of_disabled s v.toNat
  case sq0Ctrl =>
    obtain ⟨own, others, frame⟩ := modFn_leaves fn (fun _ => sq0Written s fn v.toNat) s
    refine ⟨_, exec_hgSq0CtrlWrite hf s v, ?_, ?_, ?_, others, frame⟩ <;> rw [own]
    · exact sq0Enabled_sq0Written ..
    · exact sq0Written_of_enabled s v.toNat
    · exact sq0Written_of_disabled s

end Sys2Proof.Machine

/-! What follows the loss of a unit (15 R369; 01 R22) leaves alone: the capability table, the allocations, the edges, held accesses. -/

namespace Sys2Proof.Machine

/-! ### Writers of data -/

theorem lineVals_data {s0 : State} (f : Nat → Acc → (Nat × Bool) × Acc) (slots : List (Option Nat)) (a : Acc)
    (hf : ∀ n b, DataOnly s0 b.s → DataOnly s0 (f n b).2.s) (h : DataOnly s0 a.s) : DataOnly s0 (lineVals f slots a).2.s := by
  induction slots generalizing a with
  | nil => exact h
  | cons slot slots ih =>
    cases slot with
    | none => exact ih a h
    | some n => exact ih _ (hf n a h)

theorem wrLineGo_data {s0 : State} (d : Desc) (per fuel off : Nat) (vs : List (Nat × Bool)) (a : Acc) (h : DataOnly s0 a.s) :
    DataOnly s0 (wrLineGo d per fuel off vs a).s := by
  induction fuel generalizing off vs a with
  | zero => exact h
  | succ fuel ih =>
    unfold wrLineGo
    split
    · exact h
    · exact ih _ _ _ (wrBlk_data _ _ _ _ _ _ _ h)

theorem wrTensor_data {s0 : State} (d : Desc) (f : Nat → Acc → (Nat × Bool) × Acc) (a : Acc)
    (hf : ∀ n b, DataOnly s0 b.s → DataOnly s0 (f n b).2.s) (h : DataOnly s0 a.s) : DataOnly s0 (wrTensor d f a).s := by
  unfold wrTensor
  generalize dLines d = lines
  induction lines generalizing a with
  | nil => exact h
  | cons line lines ih => exact ih _ (wrLineGo_data _ _ _ _ _ _ (lineVals_data f _ a hf h))

theorem scramble_data {s0 : State} (d : Desc) (s : State) (h : DataOnly s0 s) : DataOnly s0 (scramble d s) :=
  wrTensor_data d _ _ (fun _ b hb => freshVal_data _ b.s hb) h

/-! ### The frame -/

/-- The state without the work that the loss of a unit can touch: data, live commands, runs and tiles, furrow operations, transfers to
peers, tests under way. -/
def apartFromWork (s : State) : State :=
  { s with out := [], fns := [], cmds := [], sharedPoison := [], ctrs := State.reset.ctrs, mem := Memories.reset, stks := [], runs := [], tiles := [],
           far := State.reset.far, hist := State.reset.hist, pm := PowerSt.reset, henua := State.reset.henua, freeCtr := 0, fops := [], dpt := Dpt.reset,
           test := { s.test with running := [] } }

theorem DataOnly.apartFromWork {s t : State} (h : DataOnly s t) : apartFromWork t = apartFromWork s := by
  unfold DataOnly at h
  rw [h]
  rfl

theorem WorkOnly.apartFromWork {s t : State} (h : WorkOnly s t) : apartFromWork t = apartFromWork s := by
  unfold WorkOnly at h
  rw [h]
  rfl

/-- What the frame leaves as it was. -/
theorem of_apartFromWork {s t : State} (e : apartFromWork t = apartFromWork s) :
    t.cap = s.cap ∧ t.held = s.held ∧ t.allocs = s.allocs ∧ t.edgesDown = s.edgesDown ∧ t.edgeTries = s.edgeTries ∧
      t.test.tileFails = s.test.tileFails ∧ t.board = s.board ∧ t.fuses = s.fuses := by
  have same {α : Type} (f : State → α) : f (apartFromWork t) = f (apartFromWork s) := congrArg f e
  exact ⟨same State.cap, same State.held, same State.allocs, same State.edgesDown, same State.edgeTries, same (·.test.tileFails), same State.board,
    same State.fuses⟩

section
variable (s : State)

theorem finishCmd_apartFromWork (h : Nat) (outs : List Nat) (value : Nat) : apartFromWork (finishCmd h outs value s) = apartFromWork s :=
  (finishCmd_work h outs value s (WorkOnly.refl s)).apartFromWork

theorem endRun_apartFromWork (r : Nat) (outs : List Nat) : apartFromWork (endRun r outs s) = apartFromWork s :=
  (endRun_work r outs s (WorkOnly.refl s)).apartFromWork

theorem schedule_apartFromWork : apartFromWork (schedule s) = apartFromWork s := (schedule_work s (WorkOnly.refl s)).apartFromWork

theorem fillTiles_apartFromWork : apartFromWork (fillTiles s) = apartFromWork s := (fillTiles_work s (WorkOnly.refl s)).apartFromWork

theorem scramble_apartFromWork (d : Desc) : apartFromWork (scramble d s) = apartFromWork s := (scramble_data d s (DataOnly.refl s)).apartFromWork

theorem clearTile_apartFromWork (t : Nat) : apartFromWork (clearTile t s) = apartFromWork s := (clearTile_work t s (WorkOnly.refl s)).apartFromWork

theorem withdraw_apartFromWork (o : WaitOwner) : apartFromWork (withdraw o s) = apartFromWork s :=
  (withdrawAll_work _ s (WorkOnly.refl s)).apartFromWork

theorem dropPeerWork_apartFromWork (h : Nat) : apartFromWork (dropPeerWork h s) = apartFromWork s := rfl

theorem scrambleDests_apartFromWork (c : Cmd) : apartFromWork (scrambleDests c s) = apartFromWork s := by
  unfold scrambleDests
  split
  · exact forEach_keeps apartFromWork (fun d u => scramble_apartFromWork u d) ..
  · rfl

/-! ### Furrow operations that stop -/

theorem settleFop_apartFromWork (i : Nat) : apartFromWork (settleFop i s) = apartFromWork s := by
  unfold settleFop
  split
  · rfl
  split
  · dsimp only
    split
    · exact finishCmd_apartFromWork ..
    split
    · split
      · exact endRun_apartFromWork ..
      · rfl
    · split
      · exact (signalCtr_work _ _ _ _ (WorkOnly.refl _)).apartFromWork
      · rfl
  · rfl

theorem scrambleFop_apartFromWork (i : Nat) : apartFromWork (scrambleFop i s) = apartFromWork s := by
  unfold scrambleFop
  split
  · split
    · rfl
    · exact forEach_keeps apartFromWork (fun d u => scramble_apartFromWork u d) ..
  · rfl

theorem modFop_apartFromWork (i : Nat) (g : FurrowOp → FurrowOp) : apartFromWork (modFop i g s) = apartFromWork s := by
  unfold modFop
  split <;> rfl

theorem stopFops_apartFromWork (p : FurrowOp → Bool) (outcome : Nat) : apartFromWork (stopFops p outcome s) = apartFromWork s :=
  calc apartFromWork (stopFops p outcome s)
    _ = apartFromWork (forEach (fun i => modFop i _) _ (forEach scrambleFop _ s)) :=
      forEach_keeps apartFromWork (fun i u => settleFop_apartFromWork u i) ..
    _ = apartFromWork (forEach scrambleFop _ s) := forEach_keeps apartFromWork (fun i u => modFop_apartFromWork u i _) ..
    _ = apartFromWork s := forEach_keeps apartFromWork (fun i u => scrambleFop_apartFromWork u i) ..

theorem checkNoFurrow_apartFromWork (k : Nat) : apartFromWork (checkNoFurrow k s) = apartFromWork s := by
  unfold checkNoFurrow
  split
  · rfl
  split
  · rfl
  · exact (stopFops_apartFromWork ..).trans (henuaEvent_data _ _ _ _ (DataOnly.refl _)).apartFromWork

/-! ### Commands and runs that lose their unit -/

/-- A command or run is ended by the loss of what it uses. -/
theorem dropped_apartFromWork (h : Nat) (st : Nat) (c : Cmd) :
    apartFromWork (finishCmd h [st] 0 (modCmd h (fun x => { x with targets := [] }) (dropPeerWork h (scrambleDests c s)))) = apartFromWork s :=
  (finishCmd_apartFromWork ..).trans ((dropPeerWork_apartFromWork _ h).trans (scrambleDests_apartFromWork ..))

theorem dropLost_apartFromWork : apartFromWork (dropLost s) = apartFromWork s := by
  refine forEach_keeps apartFromWork (fun h u => ?_) ..
  split
  · split
    · split
      · exact endRun_apartFromWork ..
      split
      · exact stopFops_apartFromWork ..
      · exact dropped_apartFromWork ..
    · rfl
  · rfl

theorem loseTransfer_apartFromWork (h : Nat) : apartFromWork (loseTransfer h s) = apartFromWork s := by
  unfold loseTransfer
  split
  · split
    · rfl
    split
    · exact endRun_apartFromWork ..
    · exact dropped_apartFromWork ..
  · rfl

theorem abandonTest_apartFromWork (u : UnitRef) : apartFromWork (abandonTest u s) = apartFromWork s := by
  have ended (l : List Nat) (t : State) : apartFromWork (forEach (fun h => finishCmd h [stDeviceFault] 0) l t) = apartFromWork t :=
    forEach_keeps apartFromWork (fun h u => finishCmd_apartFromWork u h _ _) ..
  unfold abandonTest
  dsimp only
  split
  · exact ended ..
  · exact ended ..

theorem claimTile_apartFromWork (r t : Nat) : apartFromWork (claimTile r t s) = apartFromWork s := by
  unfold claimTile
  split
  · split
    · exact (pauseRun_work _ _ (WorkOnly.refl s)).apartFromWork
    · rfl
  · rfl

theorem replaceRun_apartFromWork (r : Nat) : apartFromWork (replaceRun r s) = apartFromWork s := by
  unfold replaceRun
  split
  · rfl
  split
  · split
    · exact endRun_apartFromWork ..
    · refine (forEach_keeps apartFromWork (fun e u => ?_) ..).trans (modRun_work _ _ _ (WorkOnly.refl s)).apartFromWork
      split
      · rfl
      · exact claimTile_apartFromWork ..
  · rfl

theorem saveFrame_apartFromWork (t : Nat) : apartFromWork (saveFrame t s) = apartFromWork s := by
  unfold saveFrame
  split
  · rfl
  · exact (clearTile_apartFromWork ..).trans (modRun_work _ _ _ (WorkOnly.refl s)).apartFromWork

theorem noteRecompute_apartFromWork (c : Ctx) : apartFromWork (noteRecompute c s) = apartFromWork s := by
  unfold noteRecompute whenS
  split
  · exact (modRun_work _ _ _ (WorkOnly.refl s)).apartFromWork
  · rfl

theorem leaveLost_apartFromWork (t : Nat) : apartFromWork (leaveLost t s) = apartFromWork s := by
  unfold leaveLost
  dsimp only
  split
  · rfl
  split
  · exact (saveFrame_apartFromWork ..).trans (noteRecompute_apartFromWork ..)
  · exact clearTile_apartFromWork ..
  · exact (saveFrame_apartFromWork ..).trans (withdraw_apartFromWork ..)

theorem loseTile_apartFromWork (t : Nat) : apartFromWork (loseTile t s) = apartFromWork s := by
  unfold loseTile
  refine (fillTiles_apartFromWork _).trans ?_
  refine (forEach_keeps apartFromWork (fun r u => (checkPaused_work r u (WorkOnly.refl u)).apartFromWork) ..).trans ?_
  refine (forEach_keeps apartFromWork (fun r u => replaceRun_apartFromWork u r) ..).trans ?_
  exact (dropLost_apartFromWork _).trans ((leaveLost_apartFromWork ..).trans (abandonTest_apartFromWork ..))

theorem loseStack_apartFromWork (k : Nat) : apartFromWork (loseStack k s) = apartFromWork s := by
  unfold loseStack failFops
  refine (checkNoFurrow_apartFromWork ..).trans ((stopFops_apartFromWork ..).trans ?_)
  exact (dropLost_apartFromWork _).trans (abandonTest_apartFromWork ..)

theorem loseUnit_apartFromWork (u : UnitRef) : apartFromWork (loseUnit u s) = apartFromWork s := by
  cases u with
  | tile t => exact loseTile_apartFromWork s t
  | stack k => exact loseStack_apartFromWork s k
  | furrow b => exact checkNoFurrow_apartFromWork s (b / 512)
  | _ => exact dropLost_apartFromWork s

/-- A retirement changes, beside the work of the unit, what classes it. -/
theorem retireUnit_apartFromWork (check : Nat) (u : UnitRef) (tenant : Nat) :
    apartFromWork (retireUnit check u tenant s) = apartFromWork { s with cap := (retireCap check u tenant s).cap } := by
  unfold retireUnit
  split
  · rename_i retired
    rw [retireCap, if_pos retired]
  · refine (schedule_apartFromWork _).trans ((loseUnit_apartFromWork ..).trans ?_)
    conv_lhs => rw [retireCap_eq]
    rfl

end

/-- The capability table after a retirement: the unit's bits cleared, the module to be replaced. -/
theorem retireUnit_cap (check : Nat) (u : UnitRef) (tenant : Nat) (s : State) (fresh : (getSum s u).state ≠ 3) :
    ∃ gen, (retireUnit check u tenant s).cap = { clearUsable u s.cap with replace := true, degraded := true, gen := gen } := by
  obtain ⟨cap, -⟩ := of_apartFromWork (retireUnit_apartFromWork s check u tenant)
  rw [cap]
  dsimp only
  rw [retireCap, if_neg fresh, capChange_cap]
  have same : (modSum u (fun x => { x with state := 3 }) (recordFault 5 check u tenant 0 [] s)).cap = s.cap := by
    unfold modSum
    dsimp only
    rw [recordFault_eq]
  rw [same]
  split
  · exact ⟨_, rfl⟩
  · exact ⟨(clearUsable u s.cap).gen, rfl⟩

end Sys2Proof.Machine

/-! What stands while data moves and while work ends: whatever a `Still` projection looks at. Of the fault history that only a fault, a
retirement and FAULT_CLEAR change it (15 R367, R371), of a live command its tenant and whether it is silent (14 R333), of a function
its BAR4 size. -/

namespace Sys2Proof.Machine

/-- From `s` to `t` work has moved that no register, no command, no history and no event shows; of the power management only a wake. -/
def WorkMoves (s t : State) : Prop :=
  t = { s with out := t.out, tenants := t.tenants, sharedPoison := t.sharedPoison, ctrs := t.ctrs, mem := t.mem, stks := t.stks, fops := t.fops, runs := t.runs,
               tiles := t.tiles, far := t.far, dpt := t.dpt, test := t.test, freeCtr := t.freeCtr,
               pm := { s.pm with transition := t.pm.transition, waking := t.pm.waking, lastWake := t.pm.lastWake, wakes := t.pm.wakes, heldWake := t.pm.heldWake } }

/-- A projection that sees nothing of data and of the work that ends. -/
structure Still {β : Type} (p : State → β) : Prop where
  work : ∀ {s t : State}, WorkMoves s t → p t = p s
  event : ∀ (cls severity : Nat) (payload : List Nat) (s : State), p (henuaEvent cls severity payload s) = p s
  fn : ∀ (f : Nat) (g : Fn → Fn) (s : State), (∀ x, (g x).bar4Log2 = x.bar4Log2) → p (modFn f g s) = p s
  cmd : ∀ (h : Nat) (g : Cmd → Cmd) (s : State), (∀ c, (g c).tenant = c.tenant ∧ (g c).silent = c.silent) → p (modCmd h g s) = p s

namespace Still

variable {β : Type} {p : State → β} (still : Still p)
include still

section
variable (s : State)

theorem finishCmd (h : Nat) (outs : List Nat) (value : Nat) : p (finishCmd h outs value s) = p s :=
  still.cmd _ _ _ fun c => by
    unfold Cmd.ended
    split <;> exact ⟨rfl, rfl⟩

/-! ### Events and interrupts -/

theorem sendMsix (f v : Nat) : p (sendMsix f v s) = p s := by
  unfold Machine.sendMsix
  dsimp only
  split
  · rfl
  split
  · exact still.fn _ _ _ fun _ => rfl
  · exact still.work rfl

theorem vecEvent (f v : Nat) : p (vecEvent f v s) = p s := by
  unfold Machine.vecEvent
  dsimp only
  split
  · rfl
  split
  · exact (still.sendMsix _ f v).trans (still.fn _ _ _ fun _ => rfl)
  · exact still.fn _ _ _ fun _ => rfl

theorem setCause (f bit : Nat) : p (setCause f bit s) = p s := by
  unfold Machine.setCause
  dsimp only
  split
  · rfl
  · exact (whenS_keeps p (fun t => still.vecEvent t _ _) ..).trans (still.fn _ _ _ fun _ => rfl)

theorem freshVal (n : Nat) : p (freshVal n s).2 = p s := by
  induction n generalizing s with
  | zero => rfl
  | succ n ih => exact (ih _).trans (still.work (by exact rfl))

/-! ### Stack memory -/

theorem countCe (blk sym : Nat) : p (countCe blk sym s) = p s :=
  (whenS_keeps p (fun _ => (still.setCause _ 0 1).trans (still.event ..)) ..).trans (still.work (by exact rfl))

theorem countUe (blk : Nat) (repaired : Bool) : p (countUe blk repaired s) = p s :=
  (whenS_keeps p (fun _ => still.event ..) ..).trans (still.work (by exact rfl))

theorem countPoison (blk : Nat) : p (countPoison blk s) = p s := still.work rfl

theorem openRow (blk : Nat) : p (openRow blk s) = p s := still.work rfl

theorem storeBlk (blk : Nat) (data : List Byte) (poison : Bool) (source : Nat) : p (storeBlk blk data poison source s) = p s := still.work rfl

theorem poisonSharedPage (off : Nat) : p (poisonSharedPage off s) = p s := by
  unfold Machine.poisonSharedPage
  split
  · rfl
  · exact (still.setCause _ 0 1).trans ((still.event ..).trans (still.work (by exact rfl)))

theorem foundUe (blk : Nat) (data : List Byte) : p (foundUe blk data s).2 = p s := by
  unfold Machine.foundUe
  split
  · exact still.countUe ..
  · exact (still.poisonSharedPage ..).trans (still.countUe ..)
  · dsimp only
    split
    · refine (still.storeBlk ..).trans ((still.countUe ..).trans ((still.openRow ..).trans ?_))
      split
      · exact still.countCe ..
      · rfl
    · refine (still.poisonSharedPage ..).trans ((still.countUe ..).trans ?_)
      split
      · exact still.countUe ..
      · rfl

theorem decodeBlk (blk : Nat) : p (decodeBlk blk s).2 = p s := by
  unfold Machine.decodeBlk
  dsimp only
  split
  · exact still.openRow ..
  · exact (still.countCe ..).trans (still.openRow ..)
  · dsimp only
    split
    · exact (still.countCe ..).trans ((still.countPoison ..).trans (still.openRow ..))
    · exact (still.countPoison ..).trans (still.openRow ..)
  · exact (still.foundUe ..).trans (still.openRow ..)

theorem modifyBlk (blk : Nat) (data : List Byte) (mask : Nat) (poison : Bool) (source : Nat) : p (modifyBlk blk data mask poison source s) = p s :=
  (still.storeBlk ..).trans (still.decodeBlk ..)

theorem mergeDrop (blk : Nat) : p (mergeDrop blk s) = p s := still.work rfl

theorem flushEntry (e : MergeEntry) : p (flushEntry e s) = p s := by
  unfold Machine.flushEntry
  dsimp only
  split
  · exact (still.storeBlk ..).trans (still.mergeDrop ..)
  · exact (still.modifyBlk ..).trans (still.work (by exact rfl))

theorem flushBlk (blk : Nat) : p (flushBlk blk s) = p s := by
  unfold Machine.flushBlk
  split
  · exact still.flushEntry ..
  · rfl

theorem mergeWrite (blk : Nat) (data : List Byte) (mask source : Nat) : p (mergeWrite blk data mask source s) = p s := by
  have cancelled : p (cancelBacks blk s) = p s := still.work rfl
  unfold Machine.mergeWrite
  dsimp only
  split
  · split
    · exact (still.flushEntry ..).trans cancelled
    · exact (still.work (by exact rfl)).trans cancelled
  · refine (still.work (by exact rfl)).trans ?_
    split
    · split
      · exact (still.flushEntry ..).trans ((still.work (by exact rfl)).trans cancelled)
      · exact cancelled
    · exact cancelled

theorem readStack (blk : Nat) : p (readStack blk s).2 = p s := by
  unfold Machine.readStack
  split
  · exact (still.decodeBlk ..).trans (still.flushBlk ..)
  · rfl

theorem writeStack (blk : Nat) (data : List Byte) (mask : Nat) (poison : Bool) (source : Nat) : p (writeStack blk data mask poison source s) = p s := by
  unfold Machine.writeStack
  split
  · rfl
  split
  · exact (still.storeBlk ..).trans (still.mergeDrop ..)
  split
  · rfl
  split
  · exact (still.modifyBlk ..).trans (still.flushBlk ..)
  · exact still.mergeWrite ..

theorem furrowRead (blk : Nat) : p (furrowRead blk s).2 = p s := by
  unfold Machine.furrowRead
  dsimp only
  split
  · exact (still.storeBlk ..).trans (still.readStack ..)
  · exact still.readStack ..

/-! ### Blocks of any space -/

theorem setZ (space : Nat) (m : Mem) (z : List Nat) : p (setZ space m z s) = p s := by
  unfold Machine.setZ
  split <;> exact still.work rfl

theorem readBlk (source space inst off : Nat) : p (readBlk source space inst off s).2 = p s := by
  unfold Machine.readBlk
  split
  · rfl
  · split
    · rfl
    split <;> exact still.work rfl
  · split
    · rfl
    · dsimp only
      split
      · exact still.furrowRead ..
      · exact still.readStack ..
  · rfl

theorem hostWrite (fn addr : Nat) (bs : List Byte) : p (hostWrite fn addr bs s) = p s := still.work rfl

theorem hostBlk (fn off : Nat) (data : List Byte) (mask : Nat) (poison : Bool) : p (hostBlk fn off data mask poison s) = p s := by
  have emitted (o : Output) (t : State) : p (emit o t) = p t := still.work rfl
  unfold Machine.hostBlk
  dsimp only
  split
  · exact (emitted ..).trans (still.hostWrite ..)
  · exact still.hostWrite ..

theorem farWrite (off : Nat) (bs : List Byte) (l : List Nat) : p (farWrite off bs l s) = p s := still.work rfl

theorem writeBlk (fn space inst off : Nat) (data : List Byte) (mask : Nat) (poison : Bool) (source : Nat) :
    p (writeBlk fn space inst off data mask poison source s) = p s := by
  unfold Machine.writeBlk
  split
  · exact still.hostBlk ..
  · split
    · rfl
    · exact still.farWrite ..
  · split
    · rfl
    · exact still.writeStack ..
  · exact still.setZ ..

theorem readRaced (source space inst off : Nat) : p (readRaced source space inst off s).2 = p s := by
  unfold Machine.readRaced
  dsimp only
  split
  · exact (still.work (by exact rfl)).trans (still.readBlk ..)
  · exact still.readBlk ..

end

/-! ### Movers -/

omit still in
@[simp] theorem addOut_s (st : Nat) (c : Bool) (a : Acc) : (addOut st c a).s = a.s := by
  unfold addOut
  split <;> rfl

theorem rdBlk (space inst off : Nat) (a : Acc) : p (rdBlk space inst off a).2.s = p a.s := by
  unfold Machine.rdBlk
  split
  · rfl
  · dsimp only
    simp only [addOut_s]
    refine (still.readRaced ..).trans ?_
    split
    · exact still.work rfl
    · rfl

theorem putBlk (space inst off : Nat) (data : List Byte) (mask : Nat) (poison : Bool) (a : Acc) :
    p (putBlk space inst off data mask poison a).s = p a.s := by
  unfold Machine.putBlk
  rw [addOut_s]
  exact still.writeBlk ..

theorem wrBlk (space inst off : Nat) (data : List Byte) (mask : Nat) (poison : Bool) (a : Acc) : p (wrBlk space inst off data mask poison a).s = p a.s := by
  unfold Machine.wrBlk Acc.stop
  split
  · rfl
  split
  · rw [addOut_s]
  split
  · rw [addOut_s]
  split
  · exact (still.putBlk ..).trans (still.rdBlk ..)
  · exact still.putBlk ..

omit still in
theorem lineVals {f : Nat → Acc → (Nat × Bool) × Acc} (hf : ∀ n b, p (f n b).2.s = p b.s) (slots : List (Option Nat)) (a : Acc) :
    p (lineVals f slots a).2.s = p a.s := by
  induction slots generalizing a with
  | nil => rfl
  | cons slot slots ih =>
    cases slot with
    | none => exact ih a
    | some n => exact (ih _).trans (hf n a)

theorem wrLineGo (d : Desc) (per fuel off : Nat) (vs : List (Nat × Bool)) (a : Acc) : p (wrLineGo d per fuel off vs a).s = p a.s := by
  induction fuel generalizing off vs a with
  | zero => rfl
  | succ fuel ih =>
    unfold Machine.wrLineGo
    split
    · rfl
    · exact (ih _ _ _).trans (still.wrBlk ..)

theorem wrTensor (d : Desc) {f : Nat → Acc → (Nat × Bool) × Acc} (hf : ∀ n b, p (f n b).2.s = p b.s) (a : Acc) : p (wrTensor d f a).s = p a.s := by
  unfold Machine.wrTensor
  generalize dLines d = lines
  induction lines generalizing a with
  | nil => rfl
  | cons line lines ih => exact (ih _).trans ((still.wrLineGo ..).trans (lineVals hf ..))

section
variable (s : State)

theorem scramble (d : Desc) : p (scramble d s) = p s := still.wrTensor d (fun _ b => still.freshVal b.s _) _

theorem scrambleDests (c : Cmd) : p (scrambleDests c s) = p s := by
  unfold Machine.scrambleDests
  split
  · exact forEach_keeps p (fun d t => still.scramble t d) ..
  · rfl

theorem dropPeerWork (h : Nat) : p (dropPeerWork h s) = p s := still.work rfl

/-! ### Counters, runs and commands -/

theorem wakeSource (code : Nat) (idleToo : Bool) : p (wakeSource code idleToo s) = p s := by
  unfold Machine.wakeSource startWake
  dsimp only
  split
  · split
    · rfl
    split
    · exact still.work rfl
    split <;> exact still.work rfl
  · rfl

theorem tellOwner (r : Release) : p (tellOwner r s) = p s := by
  unfold Machine.tellOwner
  split
  · exact still.finishCmd ..
  · exact (still.wakeSource ..).trans (still.work (by exact rfl))

theorem ctrUpdate (c v : Nat) (ws : List Wait) : p (ctrUpdate c v ws s) = p s := by
  refine (whenS_keeps p (fun t => still.wakeSource t 8 false) ..).trans ?_
  exact (forEach_keeps p (fun r t => still.tellOwner t r) ..).trans (still.work (by exact rfl))

theorem signalCtr (tenant k n : Nat) : p (signalCtr tenant k n s) = p s := by
  unfold Machine.signalCtr signalPhys
  split
  · split
    · rfl
    · dsimp only
      split
      · exact (whenS_keeps p (fun t => still.fn _ _ _ (by exact fun _ => rfl)) ..).trans (still.ctrUpdate ..)
      · exact still.ctrUpdate ..
  · rfl

theorem withdrawAll (q : Wait → Bool) : p (withdrawAll q s) = p s :=
  (forEach_keeps p (fun c t => still.ctrUpdate t c _ _) ..).trans (still.work (by exact rfl))

theorem modRun (r : Nat) (g : Run → Run) : p (modRun r g s) = p s := by
  rw [modRun_eq]
  exact still.work rfl

theorem modFop (i : Nat) (g : FurrowOp → FurrowOp) : p (modFop i g s) = p s := by
  rw [modFop_eq]
  exact still.work rfl

theorem pauseDone (t : Nat) : p (pauseDone t s) = p s := by
  refine forEach_keeps p (fun h u => ?_) ..
  split
  · dsimp only
    split
    · exact (still.finishCmd ..).trans (still.cmd _ _ _ (by exact fun _ => ⟨rfl, rfl⟩))
    · exact still.cmd _ _ _ (by exact fun _ => ⟨rfl, rfl⟩)
  · rfl

theorem clearTile (t : Nat) : p (clearTile t s) = p s := still.work rfl

theorem endRun (r : Nat) (outs : List Nat) : p (endRun r outs s) = p s := by
  unfold Machine.endRun
  split
  · rfl
  split
  · rfl
  · refine (still.pauseDone ..).trans ((forEach_keeps p (fun t u => ?_) ..).trans ((still.withdrawAll ..).trans (still.modRun ..)))
    split
    · exact still.clearTile ..
    · rfl

theorem noteOutcome (h st : Nat) : p (noteOutcome h st s) = p s := still.cmd _ _ _ (by exact fun _ => ⟨rfl, rfl⟩)

/-- A command is told that it ends, its peer work dropped. -/
theorem dropped (h st : Nat) (c : Cmd) :
    p (Machine.finishCmd h [st] 0 (modCmd h (fun x => { x with targets := [] }) (Machine.dropPeerWork h (Machine.scrambleDests c s)))) = p s :=
  (still.finishCmd ..).trans ((still.cmd _ _ _ (by exact fun _ => ⟨rfl, rfl⟩)).trans ((still.dropPeerWork ..).trans (still.scrambleDests ..)))

theorem loseTransfer (h : Nat) : p (loseTransfer h s) = p s := by
  unfold Machine.loseTransfer
  split
  · split
    · rfl
    split
    · exact still.endRun ..
    · exact still.dropped ..
  · rfl

/-! ### Furrow operations that stop -/

theorem settleFop (i : Nat) : p (settleFop i s) = p s := by
  unfold Machine.settleFop
  split
  · rfl
  split
  · have gone : p { s with fops := tabDel i s.fops } = p s := still.work rfl
    dsimp only
    split
    · exact (still.finishCmd ..).trans gone
    split
    · split
      · exact (still.endRun ..).trans gone
      · exact gone
    · split
      · exact (still.signalCtr ..).trans gone
      · exact gone
  · rfl

theorem scrambleFop (i : Nat) : p (scrambleFop i s) = p s := by
  unfold Machine.scrambleFop
  split
  · split
    · rfl
    · exact forEach_keeps p (fun d t => still.scramble t d) ..
  · rfl

theorem stopFops (q : FurrowOp → Bool) (outcome : Nat) : p (stopFops q outcome s) = p s :=
  (forEach_keeps p (fun i t => still.settleFop t i) ..).trans
    ((forEach_keeps p (fun i t => still.modFop t i _) ..).trans (forEach_keeps p (fun i t => still.scrambleFop t i) ..))

theorem checkNoFurrow (k : Nat) : p (checkNoFurrow k s) = p s := by
  unfold Machine.checkNoFurrow
  split
  · exact still.work rfl
  split
  · rfl
  · exact (still.stopFops ..).trans ((still.event ..).trans (still.work (by exact rfl)))

/-! ### A cancellation -/

theorem cancelRun (r : Nat) : p (cancelRun r s) = p s := by
  unfold Machine.cancelRun
  split
  · rfl
  split
  · rfl
  · have stopped : p (forEach (fun t u => match (getTile u t).ctx with
        | some c => if c.run = r ∧ ((getTile u t).phase ≠ .body ∨ 0 < c.attempt ∨ 0 < c.moved) then Machine.clearTile t u else u
        | none => u) (List.range 32) (Machine.withdrawAll (waitOfRun s r) (Machine.modRun r (fun y => { y with cancelled := true }) s))) = p s := by
      refine (forEach_keeps p (fun t u => ?_) ..).trans ((still.withdrawAll ..).trans (still.modRun ..))
      split
      · split
        · exact still.clearTile ..
        · rfl
      · rfl
    dsimp only
    split
    · exact stopped
    · exact (still.endRun ..).trans stopped

theorem cancelCmd (h : Nat) : p (cancelCmd h s) = p s := by
  have told (g : Cmd → Cmd) (hg : ∀ c, (g c).tenant = c.tenant ∧ (g c).silent = c.silent) (t : State) : p (modCmd h g t) = p t := still.cmd _ _ _ hg
  unfold Machine.cancelCmd
  split
  · rfl
  split
  · rfl
  split
  · exact (told _ (by exact fun _ => ⟨rfl, rfl⟩) _).trans (still.work (by exact rfl))
  split
  · exact told _ (by exact fun _ => ⟨rfl, rfl⟩) _
  split
  · exact (still.finishCmd ..).trans (told _ (by exact fun _ => ⟨rfl, rfl⟩) _)
  split
  · exact still.stopFops ..
  split
  · split
    · exact (still.noteOutcome ..).trans (still.cancelRun ..)
    · exact still.finishCmd ..
  · exact (still.finishCmd ..).trans (still.withdrawAll ..)
  · exact (still.finishCmd ..).trans (still.withdrawAll ..)
  · exact still.noteOutcome ..
  · exact still.finishCmd ..
  · exact still.dropped ..

end

end Still

/-! ### The projections -/

/-- The fault history. -/
theorem hist_still : Still State.hist where
  work moves := by
    unfold WorkMoves at moves
    rw [moves]
  event cls severity payload s := by rw [henuaEvent_eq]
  fn _ _ _ _ := rfl
  cmd _ _ _ _ := rfl

end Sys2Proof.Machine

/-! Links in service (10 R242, R245; 15 R357): retries, retraining, and their loss. -/

namespace Sys2Proof.Machine

theorem hasBit_putBit_false {w : Nat} (v : BitVec w) (i : Nat) : hasBit (putBit v i false) i = false := by
  have small (n : Nat) (le : n ≤ v.toNat) : (BitVec.ofNat w n).toNat = n := by
    rw [BitVec.toNat_ofNat]
    exact Nat.mod_eq_of_lt (Nat.lt_of_le_of_lt le v.isLt)
  unfold hasBit putBit
  by_cases set : v.toNat.testBit i = true
  · rw [if_pos set, if_neg (by decide), small _ (Nat.sub_le ..)]
    have quotient : (v.toNat - 2 ^ i) / 2 ^ i = v.toNat / 2 ^ i - 1 := by simpa using Nat.sub_mul_div v.toNat (2 ^ i) 1
    rw [Nat.testBit_eq_decide_div_mod_eq] at set ⊢
    simp only [decide_eq_true_eq] at set
    rw [quotient]
    exact decide_eq_false (by omega)
  · rw [if_neg set, if_neg (by decide), small _ (Nat.le_refl _)]
    simpa using set

section
variable (s : State)

/-! ### Edges -/

theorem edgeTry_setEdgeTry_same (e : Nat × Nat) (n : Nat) : edgeTry (setEdgeTry e n s) e = n := by
  have absent (l : List ((Nat × Nat) × Nat)) : (l.filter fun x => x.1 != e).find? (fun x => x.1 == e) = none := by simp
  unfold edgeTry setEdgeTry
  dsimp only
  split
  · rename_i zero
    rw [absent, zero]
    rfl
  · rw [List.find?_append, absent]
    simp

theorem edgeTry_setEdgeTry_ne {e f : Nat × Nat} (n : Nat) (other : f ≠ e) : edgeTry (setEdgeTry e n s) f = edgeTry s f := by
  have rest (l : List ((Nat × Nat) × Nat)) : (l.filter fun x => x.1 != e).find? (fun x => x.1 == f) = l.find? fun x => x.1 == f := by
    rw [List.find?_filter]
    refine congrArg (fun p => List.find? p l) (funext fun x => ?_)
    by_cases same : x.1 = f
    · simp [same, other]
    · simp [same]
  unfold edgeTry setEdgeTry
  dsimp only
  split
  · rw [rest]
  · rw [List.find?_append, rest]
    simp [Ne.symm other]

theorem setEdgeTry_leaves (e : Nat × Nat) (n : Nat) : edgeTry (setEdgeTry e n s) e = n ∧
    (∀ f, f ≠ e → edgeTry (setEdgeTry e n s) f = edgeTry s f) ∧ setEdgeTry e n s = { s with edgeTries := (setEdgeTry e n s).edgeTries } :=
  ⟨edgeTry_setEdgeTry_same .., fun _ other => edgeTry_setEdgeTry_ne s n other, rfl⟩

/-- The edge has failed: its retries are forgotten, and what was in flight over it has ended. -/
def edgeFailed (a b : Nat) (inFlight : List Nat) (s : State) : State :=
  forEach loseTransfer inFlight (setEdgeTry (edgeKey a b) 0 { s with edgesDown := s.edgesDown ++ [edgeKey a b] })

theorem loseEdge_eq (a b : Nat) (inFlight : List Nat) :
    loseEdge a b inFlight s = retireUnit 1 (.edge a b) 0xFF (recordFault 0x0A 1 (.edge a b) 0xFF 0 [] (edgeFailed a b inFlight s)) := rfl

theorem edgeFailed_apartFromWork (a b : Nat) (inFlight : List Nat) : apartFromWork (edgeFailed a b inFlight s) =
    apartFromWork (setEdgeTry (edgeKey a b) 0 { s with edgesDown := s.edgesDown ++ [edgeKey a b] }) :=
  forEach_keeps apartFromWork (fun h u => loseTransfer_apartFromWork u h) ..

theorem edgeFailed_hist (a b : Nat) (inFlight : List Nat) : (edgeFailed a b inFlight s).hist = s.hist :=
  forEach_keeps State.hist (fun h u => hist_still.loseTransfer u h) ..

theorem getSum_recordFault (kind check : Nat) (u : UnitRef) (tenant detail : Nat) (bundle : List Byte) (v : UnitRef) :
    getSum (recordFault kind check u tenant detail bundle s) v = getSum s v := by
  unfold getSum recordFault
  dsimp only
  split
  · rw [hist_still.event]
    split <;> rfl
  · split <;> rfl

theorem loseEdge_edgesDown (a b : Nat) (inFlight : List Nat) : edgeKey a b ∈ (loseEdge a b inFlight s).edgesDown := by
  obtain ⟨-, -, -, down, -⟩ := of_apartFromWork (retireUnit_apartFromWork (recordFault 0x0A 1 (.edge a b) 0xFF 0 [] (edgeFailed a b inFlight s)) 1 (.edge a b) 0xFF)
  rw [loseEdge_eq, down]
  dsimp only
  rw [recordFault_eq]
  obtain ⟨-, -, -, failed, -⟩ := of_apartFromWork (edgeFailed_apartFromWork s a b inFlight)
  dsimp only
  rw [failed]
  exact List.mem_append_right _ (List.mem_singleton_self _)

theorem loseEdge_cap (a b : Nat) (inFlight : List Nat) (fresh : (getSum s (.edge a b)).state ≠ 3) :
    (loseEdge a b inFlight s).cap.replace = true ∧ (loseEdge a b inFlight s).cap.degraded = true := by
  have sum : getSum (edgeFailed a b inFlight s) (.edge a b) = getSum s (.edge a b) := by
    unfold getSum
    rw [edgeFailed_hist]
  obtain ⟨gen, cap⟩ := retireUnit_cap 1 (.edge a b) 0xFF (recordFault 0x0A 1 (.edge a b) 0xFF 0 [] (edgeFailed a b inFlight s))
    (by rwa [getSum_recordFault, sum])
  rw [loseEdge_eq, cap]
  exact ⟨rfl, rfl⟩

/-! ### What is in flight over a failed edge -/

theorem DataOnly.cmds {s t : State} (h : DataOnly s t) : t.cmds = s.cmds := by
  unfold DataOnly at h
  rw [h]

theorem scrambleDests_cmds (c : Cmd) : (scrambleDests c s).cmds = s.cmds := by
  unfold scrambleDests
  split
  · exact forEach_keeps State.cmds (fun d u => (scramble_data d u (DataOnly.refl u)).cmds) ..
  · rfl

end

theorem mem_addOutcomes_single (x : Nat) (old : List Nat) : x ∈ addOutcomes [x] old := by
  unfold addOutcomes
  rw [List.foldl_cons, List.foldl_nil]
  split
  · rename_i there
    exact List.contains_iff_mem.mp there
  · simp

/-- The command has ended with ST_DEVICE_FAULT. -/
def LostInFlight (t : State) (h : Nat) : Prop := ∃ y, getCmd? t h = some y ∧ y.stage = .done ∧ stDeviceFault ∈ y.outcomes

theorem LostInFlight.goes {t u : State} {h : Nat} (lost : LostInFlight t h) (go : CmdsGo t u) : LostInFlight u h := by
  obtain ⟨y, there, done, outcome⟩ := lost
  obtain ⟨z, thereNow, goes⟩ := go.get h y there
  exact ⟨z, thereNow, goes.done done, goes.outs _ outcome⟩

theorem loseTransfer_ends {s : State} {h : Nat} {x : Cmd} (there : getCmd? s h = some x) (running : x.stage = .running) (noRun : getRun? s h = none) :
    LostInFlight (loseTransfer h s) h := by
  have before : getCmd? (dropPeerWork h (scrambleDests x s)) h = some x := by
    show getCmd? (scrambleDests x s) h = some x
    rw [← there]
    unfold getCmd?
    rw [scrambleDests_cmds]
  have ends := ended_finishCmd [stDeviceFault] 0 (getCmd?_modCmd (fun c => { c with targets := [] }) rfl before) running
  unfold loseTransfer
  rw [there]
  dsimp only
  rw [if_neg (by simpa using running), noRun, if_neg (by decide)]
  exact ⟨_, ends, rfl, mem_addOutcomes_single ..⟩

theorem loseTransfer_goes {s0 s : State} (h : Nat) (go : CmdsGo s0 s) : CmdsGo s0 (loseTransfer h s) := by
  unfold loseTransfer
  split
  · split
    · exact go
    split
    · exact endRun_goes _ _ _ go
    · exact finishCmd_goes _ _ _ _ (modCmd_goes _ _ _ (dropPeerWork_goes _ _ (scrambleDests_goes _ _ go))
        fun c => ⟨⟨rfl, rfl, rfl, rfl, rfl⟩, fun _ there => there, id, id⟩)
  · exact go

theorem loseEdge_goes (a b : Nat) (inFlight : List Nat) (s : State) : CmdsGo s (loseEdge a b inFlight s) :=
  retireUnit_goes _ _ _ _ (recordFault_goes _ _ _ _ _ _ _ (forEach_goes _ _ _ (fun h _ go => loseTransfer_goes h go) (CmdsGo.refl s)))

theorem loseEdge_ends {s : State} {h : Nat} {x : Cmd} (a b : Nat) (there : getCmd? s h = some x) (running : x.stage = .running)
    (noRun : getRun? s h = none) : LostInFlight (loseEdge a b [h] s) h :=
  (loseTransfer_ends (s := setEdgeTry (edgeKey a b) 0 { s with edgesDown := s.edgesDown ++ [edgeKey a b] }) there running noRun).goes
    (retireUnit_goes _ _ _ _ (recordFault_goes _ _ _ _ _ _ _ (CmdsGo.refl _)))

section
variable (s : State)

/-! ### The events -/

/-- The stack after a retry of a frame of its link. -/
def linkRetried (ok : Bool) (y : Stack) : Stack :=
  let n := if ok then 0 else y.linkTries + 1
  if 8 ≤ n then { y with linkRetry := y.linkRetry + 1, linkTries := 0, linkRetrain := y.linkRetrain + 1, retraining := true }
  else { y with linkRetry := y.linkRetry + 1, linkTries := n }

theorem linkRetried_counts (ok : Bool) (y : Stack) : (linkRetried ok y).linkRetry = y.linkRetry + 1 := by
  unfold linkRetried
  cases ok with
  | true => rfl
  | false =>
    simp only [Bool.false_eq_true, if_false]
    split <;> rfl

theorem linkRetried_retrains (ok : Bool) {y : Stack} (idle : y.retraining = false) :
    (linkRetried ok y).retraining = true ↔ ok = false ∧ 7 ≤ y.linkTries := by
  unfold linkRetried
  cases ok with
  | true => simp [idle]
  | false =>
    simp only [Bool.false_eq_true, if_false, true_and]
    split
    · simp
      omega
    · simp only [idle, Bool.false_eq_true, false_iff]
      omega

theorem linkRetried_resets (y : Stack) : (linkRetried true y).linkTries = 0 := rfl

/-- The far tier after its link has fallen, before what touches it ends. -/
def farDown (n m : Nat) (s : State) : State :=
  let s1 := capChange 2 (fun c => { c with cxl := false, degraded := true })
    { s with far := { s.far with links := s.far.links.filter (· != n), linkErrors := s.far.linkErrors + BitVec.ofNat 64 m } }
  clearFar { s1 with allocs := tabMap (fun _ a => if a.space = 1 then { a with lost := true } else a) s1.allocs, era := s1.era + 1 }

theorem exec_farLinkDown {n m : Nat} (up : n ∈ s.far.links) (usable : s.cap.cxl = true) :
    exec (.farLinkDown n m) s = .next (schedule (dropLost (farDown n m s))) := by
  show execFarLinkDown s n m = _
  unfold execFarLinkDown
  rw [if_pos (List.contains_iff_mem.mpr up)]
  dsimp only
  rw [if_pos usable]
  rfl

theorem farDown_cap (n m : Nat) : (farDown n m s).cap.cxl = false ∧ (farDown n m s).cap.degraded = true := by
  show (capChange 2 _ _).cap.cxl = false ∧ (capChange 2 _ _).cap.degraded = true
  rw [capChange_cap]
  split <;> exact ⟨rfl, rfl⟩

theorem farDown_leaves (n m : Nat) : (farDown n m s).far =
      { s.far with links := s.far.links.filter (· != n), linkErrors := s.far.linkErrors + BitVec.ofNat 64 m } ∧
    (farDown n m s).mem = { s.mem with far := [], poisonFar := [] } ∧ (farDown n m s).era = s.era + 1 ∧ (farDown n m s).cmds = s.cmds ∧
    (farDown n m s).allocs = tabMap (fun _ a => if a.space = 1 then { a with lost := true } else a) s.allocs := by
  unfold farDown clearFar
  dsimp only
  rw [capChange_eq]
  exact ⟨rfl, rfl, rfl, rfl, rfl⟩

end

theorem edge_ok {a b : Nat} (ha : a < 4) (hb : b < 4) (other : a ≠ b) : edgeOk a b = true := decide_eq_true ⟨ha, hb, other⟩

/-- Settles O34. -/
theorem linksRetryRetrainOrFall : Obligations.LinksRetryRetrainOrFall := by
  unfold Obligations.LinksRetryRetrainOrFall
  intro s k a b hk ha hb other
  have edge (t : State) : onUnit (edgeOk a b) t = .next t := onUnit_next (edge_ok ha hb other) t
  have stack (t : State) : onUnit (stackOk k) t = .next t := onUnit_next (decide_eq_true hk) t
  refine ⟨fun ok usable idle => ?retry, fun ok up few => ?flit, fun retraining held l => ?stackBack, fun many l => ?edgeBack,
    fun u c held fresh which l => ?permanent, fun h x many there running noRun => ?inFlight, fun n m down => ?farAlready, fun n m up usable => ?farDown⟩
  case retry =>
    obtain ⟨own, others, frame⟩ := modStk_leaves k (linkRetried ok) s
    refine ⟨_, (stack _).trans (congrArg _ (if_neg (by simp [usable, idle]))), ?_, ?_, fun good => ?_, others, frame⟩
    · exact (congrArg Stack.linkRetry own).trans (linkRetried_counts ..)
    · exact (Eq.congr_left (congrArg Stack.retraining own)).trans (linkRetried_retrains ok idle)
    · subst good
      exact (congrArg Stack.linkTries own).trans (linkRetried_resets _)
  case flit =>
    exact ⟨_, (edge _).trans (congrArg _ (if_neg (by simpa using ⟨up, few⟩))), setEdgeTry_leaves ..⟩
  case stackBack =>
    obtain ⟨own, others, frame⟩ := modStk_leaves k (fun x => { x with retraining := false }) s
    exact ⟨_, (stack _).trans (congrArg _ ((if_pos retraining).trans (serveHeld_of_idle held))), own, others, frame⟩
  case edgeBack => exact ⟨_, (edge _).trans (congrArg _ (if_pos many)), setEdgeTry_leaves ..⟩
  case permanent =>
    rcases which with ⟨rfl, retraining, rfl⟩ | ⟨rfl, many, rfl⟩
    · obtain ⟨gen, cap⟩ := retireUnit_cap 14 (.stack k) 0xFF (modStk k (fun x => { x with retraining := false }) s) fresh
      obtain ⟨-, stillHeld, -⟩ := of_apartFromWork (retireUnit_apartFromWork (modStk k (fun x => { x with retraining := false }) s) 14 (.stack k) 0xFF)
      have failed : exec (.retrainingComplete (.stack k) false l) s = .next (retireUnit 14 (.stack k) 0xFF (modStk k (fun x => { x with retraining := false }) s)) :=
        (stack _).trans (congrArg _ ((if_pos retraining).trans (serveHeld_of_idle (stillHeld.trans held))))
      refine ⟨_, failed, ?_, by rw [cap], by rw [cap], retireUnit_goes _ _ _ _ (CmdsGo.refl s)⟩
      dsimp only
      rw [cap]
      exact hasBit_putBit_false ..
    · obtain ⟨replace, degraded⟩ := loseEdge_cap s a b l fresh
      exact ⟨_, (edge _).trans (congrArg _ (if_pos many)), loseEdge_edgesDown s a b l, replace, degraded, loseEdge_goes ..⟩
  case inFlight =>
    obtain ⟨y, lost⟩ := loseEdge_ends a b there running noRun
    exact ⟨_, y, (edge _).trans (congrArg _ (if_pos many)), lost⟩
  case farAlready =>
    show execFarLinkDown s n m = _
    unfold execFarLinkDown
    rw [if_neg (by simpa using down)]
  case farDown =>
    obtain ⟨cxl, degraded⟩ := farDown_cap s n m
    obtain ⟨far, mem, era, cmds, allocs⟩ := farDown_leaves s n m
    exact ⟨farDown n m s, exec_farLinkDown s up usable, cxl, degraded, far, mem, era, cmds, fun k => by rw [allocs, tabGet?_tabMap]⟩

end Sys2Proof.Machine

/-! Bytes, poison marks and code words read back (05 R105; 10 R225 to R236), and the accesses of the stack controllers. -/

namespace Sys2Proof.Machine

/-! ### Bytes of a memory -/

theorem tabGet?_putBytes_apart {a k : Nat} (bs : List Byte) (m : Mem) (apart : a < k ∨ k + bs.length ≤ a) :
    tabGet? a (putBytes k bs m) = tabGet? a m := by
  induction bs generalizing k m with
  | nil => rfl
  | cons b bs ih =>
    rw [List.length_cons] at apart
    unfold putBytes
    rw [ih _ (by omega), tabGet?_tabPut_ne (by omega)]

theorem getBytes_congr {d e : Nat → Byte} {k n : Nat} {m m' : Mem} (same : ∀ i, i < n → tabGetD (d (k + i)) (k + i) m' = tabGetD (e (k + i)) (k + i) m) :
    getBytes d k n m' = getBytes e k n m :=
  List.map_congr_left fun i hi => same i (List.mem_range.mp hi)

theorem getBytes_putBytes_apart (d : Nat → Byte) {k k' n : Nat} (bs : List Byte) (m : Mem) (apart : k' + n ≤ k ∨ k + bs.length ≤ k') :
    getBytes d k' n (putBytes k bs m) = getBytes d k' n m :=
  getBytes_congr fun i hi => by
    unfold tabGetD
    rw [tabGet?_putBytes_apart bs m (by omega)]

theorem tabGetD_putZ (a k : Nat) (b : Byte) (m : Mem) : tabGetD 0 a (putZ k b m) = if a = k then b else tabGetD 0 a m := by
  unfold putZ tabGetD
  by_cases same : a = k
  · subst same
    split
    · rename_i zero
      rw [tabGet?_tabDel_same, if_pos rfl, zero]
      rfl
    · rw [tabGet?_tabPut_same, if_pos rfl]
      rfl
  · rw [if_neg same]
    split
    · rw [tabGet?_tabDel_ne same]
    · rw [tabGet?_tabPut_ne same]

theorem tabGetD_putBytesZ (a k : Nat) (bs : List Byte) (m : Mem) :
    tabGetD 0 a (putBytesZ k bs m) = if k ≤ a ∧ a < k + bs.length then bs.getD (a - k) 0 else tabGetD 0 a m := by
  induction bs generalizing k m with
  | nil =>
    rw [if_neg (by simp)]
    rfl
  | cons b bs ih =>
    unfold putBytesZ
    rw [ih, tabGetD_putZ, List.length_cons]
    by_cases first : a = k
    · subst first
      rw [if_neg (by omega), if_pos rfl, if_pos (by omega), Nat.sub_self]
      rfl
    · by_cases inside : k ≤ a ∧ a < k + (bs.length + 1)
      · obtain ⟨i, hi⟩ : ∃ i, a - k = i + 1 := ⟨a - k - 1, by omega⟩
        rw [if_pos (by omega), if_pos inside, hi, List.getD_cons_succ]
        congr 1
        omega
      · rw [if_neg (by omega), if_neg first, if_neg inside]

theorem getBytes_putBytesZ (k : Nat) (bs : List Byte) (m : Mem) : getBytes (fun _ => 0) k bs.length (putBytesZ k bs m) = bs := by
  refine List.ext_getElem (by simp [getBytes]) fun i hi hi' => ?_
  have byte : tabGetD 0 (k + i) (putBytesZ k bs m) = bs[i] := by
    rw [tabGetD_putBytesZ, if_pos (by omega), Nat.add_sub_cancel_left]
    simp [hi']
  simpa [getBytes] using byte

theorem getBytes_putBytesZ_apart {k k' n : Nat} (bs : List Byte) (m : Mem) (apart : k' + n ≤ k ∨ k + bs.length ≤ k') :
    getBytes (fun _ => 0) k' n (putBytesZ k bs m) = getBytes (fun _ => 0) k' n m :=
  getBytes_congr fun i hi => by rw [tabGetD_putBytesZ, if_neg (by omega)]

/-! ### Blocks -/

theorem sliceB_block {data : List Byte} (whole : data.length = 64) : sliceB data 0 64 = data := by
  unfold sliceB
  rw [List.drop_zero, List.take_of_length_le (by omega)]
  dsimp only
  rw [whole]
  exact List.append_nil data

theorem mergeBytes_full {data : List Byte} (old : List Byte) (whole : data.length = 64) : mergeBytes fullMask data old = data := by
  refine List.ext_getElem (by simp [mergeBytes, whole]) fun i hi hi' => ?_
  have covered : fullMask.testBit i = true := by
    show (2 ^ 64 - 1).testBit i = true
    rw [Nat.testBit_two_pow_sub_one]
    exact decide_eq_true (by omega)
  simp [mergeBytes, covered, hi']

/-! ### Lists of blocks -/

theorem mem_setIns {x n : Nat} (l : List Nat) : x ∈ setIns n l ↔ x = n ∨ x ∈ l := by
  induction l with
  | nil => simp [setIns]
  | cons m l ih =>
    unfold setIns
    split
    · simp
    split
    · rename_i same
      simp [same]
    · rw [List.mem_cons, ih, List.mem_cons]
      tauto

theorem mem_setDel {x n : Nat} (l : List Nat) : x ∈ setDel n l ↔ x ≠ n ∧ x ∈ l := by simp [setDel, and_comm]

theorem contains_poisonAfter_same (blk : Nat) (poison : Bool) (l : List Nat) : (poisonAfter blk fullMask poison l).contains blk = poison := by
  unfold poisonAfter
  cases poison with
  | true => simp [mem_setIns]
  | false => simp [mem_setDel]

theorem contains_poisonAfter_ne {b blk : Nat} (mask : Nat) (poison : Bool) (l : List Nat) (other : b ≠ blk) :
    (poisonAfter blk mask poison l).contains b = l.contains b := by
  unfold poisonAfter
  split
  · simp [mem_setIns, other]
  split
  · simp [mem_setDel, other]
  · rfl

/-! ### Code words -/

theorem decodeWord_sound (data : List Byte) (poison : Bool) : decodeWord data poison 0 = ⟨data, if poison then 3 else 0, none⟩ := by
  have none : badSymbols 0 = [] := by simp [badSymbols]
  unfold decodeWord
  rw [none]

section
variable {s : State} {blk : Nat} {data : List Byte} (unarmed : (getStk s (stackOfBlk blk)).flipArmed = false) (whole : data.length = 64)
  (poison : Bool) (source : Nat)

include unarmed in
theorem storeBlk_flips : (storeBlk blk data poison source s).mem.flips = tabDel blk s.mem.flips := by
  show (if (getStk s (stackOfBlk blk)).flipArmed && _ then _ else tabDel blk s.mem.flips) = _
  rw [unarmed, Bool.false_and]
  rfl

include whole in
theorem storeBlk_stack : (storeBlk blk data poison source s).mem.stack = putBytes (64 * blk) data s.mem.stack := by
  show putBytes (64 * blk) (sliceB data 0 64) s.mem.stack = _
  rw [sliceB_block whole]

include unarmed whole in
/-- A word that is stored reads back. -/
theorem findWord_storeBlk : findWord (storeBlk blk data poison source s) blk = ⟨data, if poison then 3 else 0, none⟩ := by
  have bytes : getBytes (Config.unwrittenByte 2 s.era) (64 * blk) 64 (putBytes (64 * blk) data s.mem.stack) = data := by
    have written := getBytes_putBytes (Config.unwrittenByte 2 s.era) data (64 * blk) s.mem.stack
    rwa [whole] at written
  have there : (tabGet? (64 * blk) (putBytes (64 * blk) data s.mem.stack)).isSome = true := by
    match data, whole with
    | b :: bs, _ =>
      unfold putBytes
      rw [tabGet?_putBytes_apart _ _ (by omega), tabGet?_tabPut_same]
      rfl
  have marked : (storeBlk blk data poison source s).mem.poisonStack.contains blk = poison := by
    show (if poison then setIns blk s.mem.poisonStack else setDel blk s.mem.poisonStack).contains blk = poison
    cases poison with
    | true => simp [mem_setIns]
    | false => simp [mem_setDel]
  unfold findWord
  rw [storeBlk_flips unarmed, storeBlk_stack whole, if_pos there, marked, tabGetD, tabGet?_tabDel_same]
  show decodeWord (getBytes (Config.unwrittenByte 2 s.era) (64 * blk) 64 (putBytes (64 * blk) data s.mem.stack)) poison 0 = _
  rw [bytes, decodeWord_sound]

theorem getStk_storeBlk_ne {j : Nat} (other : j ≠ stackOfBlk blk) : getStk (storeBlk blk data poison source s) j = getStk s j := by
  unfold storeBlk openRow
  dsimp only
  rw [getStk_modStk_ne _ _ other, getStk_modStk_ne _ _ other]
  rfl

theorem storeBlk_merge : (getStk (storeBlk blk data poison source s) (stackOfBlk blk)).merge = (getStk s (stackOfBlk blk)).merge := by
  unfold storeBlk openRow
  dsimp only
  rw [getStk_modStk, getStk_modStk]
  rfl

theorem storeBlk_eq : storeBlk blk data poison source s =
    { s with mem := (storeBlk blk data poison source s).mem, stks := (storeBlk blk data poison source s).stks } := rfl

end

theorem mergeFind_mergeDrop (s : State) (blk : Nat) : mergeFind (mergeDrop blk s) blk = none := by
  unfold mergeFind mergeDrop
  rw [getStk_modStk]
  simp

theorem flushBlk_of_none {s : State} {blk : Nat} (none : mergeFind s blk = none) : flushBlk blk s = s := by
  unfold flushBlk
  rw [none]

theorem mergeFind_storeBlk (s : State) (blk : Nat) (data : List Byte) (poison : Bool) (source : Nat) :
    mergeFind (storeBlk blk data poison source s) blk = mergeFind s blk := by
  unfold mergeFind
  rw [storeBlk_merge]

theorem readStack_of_none {s : State} {blk : Nat} (usable : stackUsable s (stackOfBlk blk) = true) (none : mergeFind s blk = none) :
    readStack blk s = decodeBlk blk s := by
  unfold readStack
  rw [if_pos usable, flushBlk_of_none none]

theorem writeStack_whole {s : State} {blk : Nat} (data : List Byte) (poison : Bool) (source : Nat) (usable : stackUsable s (stackOfBlk blk) = true) :
    writeStack blk data fullMask poison source s = storeBlk blk data poison source (mergeDrop blk s) := by
  unfold writeStack
  rw [if_neg (by simp [usable]), if_pos rfl]

end Sys2Proof.Machine

namespace Sys2Proof.Machine

/-! ### Reads and writes of the stack controllers -/

theorem getStk_whenS {c : Bool} {f : State → State} (hf : ∀ t, (f t).stks = t.stks) (s : State) (k : Nat) : getStk (whenS c f s) k = getStk s k := by
  unfold whenS getStk
  split
  · rw [hf]
  · rfl

theorem henuaEvent_stks (cls severity : Nat) (payload : List Nat) (s : State) : (henuaEvent cls severity payload s).stks = s.stks := by
  rw [henuaEvent_eq]

theorem henuaEvent_mem (cls severity : Nat) (payload : List Nat) (s : State) : (henuaEvent cls severity payload s).mem = s.mem := by
  rw [henuaEvent_eq]

theorem setCause_stks (f bit : Nat) (s : State) : (setCause f bit s).stks = s.stks := by rw [setCause_eq]

theorem setCause_mem (f bit : Nat) (s : State) : (setCause f bit s).mem = s.mem := by rw [setCause_eq]

theorem whenS_mem {c : Bool} {f : State → State} (hf : ∀ t, (f t).mem = t.mem) (s : State) : (whenS c f s).mem = s.mem := by
  unfold whenS
  split
  · exact hf s
  · rfl

section
variable (blk : Nat) (s : State)

/-- A correction is counted and owes a write-back, in its own controller alone. -/
theorem countCe_counts (sym : Nat) : (getStk (countCe blk sym s) (stackOfBlk blk)).ceTotal = (getStk s (stackOfBlk blk)).ceTotal + 1 ∧
    (getStk (countCe blk sym s) (stackOfBlk blk)).poisonReads = (getStk s (stackOfBlk blk)).poisonReads ∧
    blk ∈ (getStk (countCe blk sym s) (stackOfBlk blk)).writeBacks := by
  unfold countCe
  dsimp only
  rw [getStk_whenS fun _ => (setCause_stks ..).trans (henuaEvent_stks ..), getStk_modStk]
  exact ⟨rfl, rfl, (mem_setIns _).mpr (.inl rfl)⟩

theorem getStk_countCe_ne (sym : Nat) {j : Nat} (other : j ≠ stackOfBlk blk) : getStk (countCe blk sym s) j = getStk s j := by
  unfold countCe
  dsimp only
  rw [getStk_whenS fun _ => (setCause_stks ..).trans (henuaEvent_stks ..), getStk_modStk_ne _ _ other]

theorem countCe_mem (sym : Nat) : (countCe blk sym s).mem = s.mem :=
  whenS_mem (fun _ => (setCause_mem ..).trans (henuaEvent_mem ..)) _

/-- An uncorrectable word is counted and owes its rewrite with poison. -/
theorem countUe_counts : (getStk (countUe blk false s) (stackOfBlk blk)).ueTotal = (getStk s (stackOfBlk blk)).ueTotal + 1 ∧
    blk ∈ (getStk (countUe blk false s) (stackOfBlk blk)).uePending := by
  unfold countUe
  dsimp only
  rw [getStk_whenS fun _ => henuaEvent_stks .., getStk_modStk]
  exact ⟨rfl, (mem_setIns _).mpr (.inl rfl)⟩

theorem getStk_countUe_ne (repaired : Bool) {j : Nat} (other : j ≠ stackOfBlk blk) : getStk (countUe blk repaired s) j = getStk s j := by
  unfold countUe
  dsimp only
  rw [getStk_whenS fun _ => henuaEvent_stks .., getStk_modStk_ne _ _ other]

theorem countUe_mem (repaired : Bool) : (countUe blk repaired s).mem = s.mem := whenS_mem (fun _ => henuaEvent_mem ..) _

theorem getStk_openRow : getStk (openRow blk s) (stackOfBlk blk) =
    { getStk s (stackOfBlk blk) with openRows := tabPut (blkBank blk) (blkRow blk) (getStk s (stackOfBlk blk)).openRows } := getStk_modStk ..

theorem getStk_openRow_ne {j : Nat} (other : j ≠ stackOfBlk blk) : getStk (openRow blk s) j = getStk s j := getStk_modStk_ne _ _ other

variable {blk s}

theorem decodeBlk_clean (clean : (findWord s blk).kind = 0) : decodeBlk blk s = (⟨(findWord s blk).data, false, false, false, false⟩, openRow blk s) := by
  unfold decodeBlk
  simp only [clean]

theorem decodeBlk_corrected (kind : (findWord s blk).kind = 1) :
    (decodeBlk blk s).2 = countCe blk ((findWord s blk).sym.getD 0) (openRow blk s) := by
  unfold decodeBlk
  simp only [kind]

theorem decodeBlk_poisoned (kind : (findWord s blk).kind = 3) : (decodeBlk blk s).1 = Rd.poisoned ∧
    ((decodeBlk blk s).2 = countPoison blk (openRow blk s) ∨ ∃ y, (decodeBlk blk s).2 = countCe blk y (countPoison blk (openRow blk s))) := by
  unfold decodeBlk
  simp only [kind, true_and]
  split
  · exact .inr ⟨_, rfl⟩
  · exact .inl rfl

theorem decodeBlk_uncorrectable (kind : (findWord s blk).kind = 2) (alone : (modOfBlk s blk).bind (mirrorOf s) = none) :
    (decodeBlk blk s).2 = countUe blk false (openRow blk s) := by
  unfold decodeBlk
  simp only [kind]
  unfold foundUe
  have still : (modOfBlk (openRow blk s) blk).bind (mirrorOf (openRow blk s)) = none := alone
  rw [still]

end

theorem countPoison_counts (blk : Nat) (s : State) : (getStk (countPoison blk (openRow blk s)) (stackOfBlk blk)).poisonReads =
    (getStk s (stackOfBlk blk)).poisonReads + 1 := by
  unfold countPoison
  rw [getStk_modStk, getStk_openRow]

theorem stackOfBlk_localBlk (k off : Nat) : stackOfBlk (localBlk k off) = k := by
  unfold stackOfBlk localBlk
  omega

theorem blkReady_usable {s : State} {blk : Nat} (ready : blkReady s blk = true) : stackUsable s (stackOfBlk blk) = true := by
  unfold blkReady at ready
  simp only [Bool.and_eq_true] at ready
  exact ready.1.1

theorem upset_zero (blk : Nat) (t : State) : upset blk 0 t = t := if_pos rfl

section
variable {s : State} {k off : Nat} (hk : k < 8) (ready : blkReady s (localBlk k off) = true)
include hk ready

theorem exec_stackWrite (data : List Byte) (mask : W64) (source : Nat) (free : accessWaits s (.write k off data mask source) = false) :
    exec (.stackWrite k off data mask source) s = .next (writeStack (localBlk k off) (sliceB data 0 64) mask.toNat false source s) := by
  show onUnit (stackOk k) (arrive _ s) = _
  rw [onUnit_next (show stackOk k = true from decide_eq_true hk)]
  unfold arrive
  rw [if_neg (by simp [free])]
  unfold serveAccess
  dsimp only
  rw [if_pos ready]

theorem exec_stackRead (free : accessWaits s (.read k off 0) = false) (none : mergeFind s (localBlk k off) = none) :
    exec (.stackRead k off 0) s = .next (decodeBlk (localBlk k off) s).2 := by
  show onUnit (stackOk k) (arrive _ s) = _
  rw [onUnit_next (show stackOk k = true from decide_eq_true hk)]
  unfold arrive
  rw [if_neg (by rw [free]; decide)]
  unfold serveAccess
  dsimp only
  rw [if_pos ready, upset_zero, readStack_of_none (blkReady_usable ready) none]

end

/-- Symbol errors that come with a read arise in the word before it. -/
theorem arrive_upset {s : State} {k off : Nat} (ready : blkReady s (localBlk k off) = true) (free : accessWaits s (.read k off 0) = false)
    (f : BitVec 576) : arrive (.read k off f) s = arrive (.read k off 0) (upset (localBlk k off) f s) := by
  have served (t : State) (g : BitVec 576) (readyThen : blkReady t (localBlk k off) = true) (freeThen : accessWaits t (.read k off g) = false) :
      arrive (.read k off g) t = (readStack (localBlk k off) (upset (localBlk k off) g t)).2 := by
    unfold arrive
    rw [if_neg (by simp [freeThen])]
    unfold serveAccess
    dsimp only
    rw [if_pos readyThen]
  have frame : ∃ m, upset (localBlk k off) f s = { s with mem := m } := by
    unfold upset
    split
    · exact ⟨s.mem, rfl⟩
    · exact ⟨_, rfl⟩
  obtain ⟨m, frame⟩ := frame
  rw [served s f ready free, served (upset (localBlk k off) f s) 0 (by rw [frame]; exact ready) (by rw [frame]; exact free),
    upset_zero]

/-- The entry of a first partial write. -/
def partialEntry (blk : Nat) (data : List Byte) (mask source : Nat) : MergeEntry := ⟨blk, mergeBytes mask data (rep 64 0), BitVec.ofNat 64 mask, source⟩

theorem mergeWrite_first {s : State} {blk : Nat} (data : List Byte) (mask source : Nat) (none : mergeFind s blk = none)
    (room : (getStk s (stackOfBlk blk)).merge.length < 64) : mergeWrite blk data mask source s =
      modStk (stackOfBlk blk) (fun y => { y with merge := y.merge ++ [partialEntry blk data mask source] }) (cancelBacks blk s) := by
  have still : mergeFind (cancelBacks blk s) blk = Option.none := by
    rw [← none]
    unfold mergeFind cancelBacks
    rw [getStk_modStk]
  have entries : (getStk (cancelBacks blk s) (stackOfBlk blk)).merge = (getStk s (stackOfBlk blk)).merge := by
    unfold cancelBacks
    rw [getStk_modStk]
  unfold mergeWrite
  dsimp only
  rw [still]
  dsimp only
  rw [entries]
  match list : (getStk s (stackOfBlk blk)).merge with
  | [] => rfl
  | e :: t =>
    rw [list, List.length_cons] at room
    dsimp only
    rw [if_neg (by omega)]
    rfl

theorem mergeBytes_masked {mask : Nat} {new : List Byte} (old : List Byte) {i : Nat} (inside : i < 64) (set : mask.testBit i = true) :
    (mergeBytes mask new old).getD i 0 = new.getD i 0 := by
  simp [mergeBytes, inside, set]

/-- Settles O31. -/
theorem stackAccessesStoreMergeAndCount : Obligations.StackAccessesStoreMergeAndCount := by
  unfold Obligations.StackAccessesStoreMergeAndCount
  refine ⟨fun s k off source data mask hk whole ready free => ⟨fun full unarmed => ?write, fun notFull notEmpty notFurrow fresh room => ?merge⟩,
    fun s k off hk ready fresh free => ⟨fun f _ => ?flips, fun clean => ?clean, fun kind => ?corrected, fun kind => ?poisoned, fun kind alone => ?uncorrectable⟩⟩
  case write =>
    have isFull : mask.toNat = fullMask := by rw [full]; rfl
    have own := stackOfBlk_localBlk k off
    have armedStill : (getStk (mergeDrop (localBlk k off) s) (stackOfBlk (localBlk k off))).flipArmed = false := by
      unfold mergeDrop
      rw [getStk_modStk, own]
      exact unarmed
    refine ⟨_, exec_stackWrite hk ready data mask source free, ?_⟩
    rw [isFull, sliceB_block whole, writeStack_whole _ _ _ (blkReady_usable ready)]
    refine ⟨findWord_storeBlk armedStill whole false source, ?_, fun a apart => ?_, fun j other => ?_, rfl⟩
    · rw [mergeFind_storeBlk, mergeFind_mergeDrop]
    · rw [storeBlk_stack whole, tabGet?_putBytes_apart _ _ (by omega)]
      rfl
    · rw [getStk_storeBlk_ne _ _ (by rwa [own])]
      exact getStk_modStk_ne _ _ (by rwa [own])
  case merge =>
    have own := stackOfBlk_localBlk k off
    have partial_ : writeStack (localBlk k off) (sliceB data 0 64) mask.toNat false source s =
        modStk k (fun y => { y with merge := y.merge ++ [partialEntry (localBlk k off) data mask.toNat source] }) (cancelBacks (localBlk k off) s) := by
      have isPart : mask.toNat ≠ fullMask := fun h => notFull (BitVec.eq_of_toNat_eq h)
      have isSome : mask.toNat ≠ 0 := fun h => notEmpty (BitVec.eq_of_toNat_eq h)
      unfold writeStack
      rw [if_neg (by simp [blkReady_usable ready]), if_neg isPart, if_neg isSome, if_neg (by simp [notFurrow]), sliceB_block whole,
        mergeWrite_first _ _ _ fresh (by rwa [own]), own]
    refine ⟨_, partialEntry (localBlk k off) data mask.toNat source, (exec_stackWrite hk ready data mask source free).trans (congrArg _ partial_),
      ?_, rfl, BitVec.eq_of_toNat_eq (by simp [partialEntry]), fun i inside set => mergeBytes_masked _ inside set, fun j other => ?_, rfl⟩
    · unfold cancelBacks
      rw [getStk_modStk, own, getStk_modStk]
    · unfold cancelBacks
      rw [getStk_modStk_ne _ _ other, getStk_modStk_ne _ _ (by rwa [own])]
  case flips =>
    have upsets : upset (localBlk k off) f s = { s with mem := { s.mem with
        flips := tabPut (localBlk k off) (tabGetD 0 (localBlk k off) s.mem.flips ^^^ f) s.mem.flips } } := if_neg ‹_›
    show onUnit (stackOk k) (arrive (.read k off f) s) = onUnit (stackOk k) (arrive (.read k off 0) _)
    rw [← upsets, arrive_upset ready free]
  all_goals
    have own := stackOfBlk_localBlk k off
    have reads := exec_stackRead hk ready free fresh
    have data : DataOnly s (decodeBlk (localBlk k off) s).2 := decodeBlk_data _ _ (DataOnly.refl s)
    generalize localBlk k off = b at *
    subst own
  case clean => rw [reads, decodeBlk_clean clean]
  case corrected =>
    rw [decodeBlk_corrected kind] at reads data
    obtain ⟨counts, -, owes⟩ := countCe_counts b (openRow b s) ((findWord s b).sym.getD 0)
    rw [getStk_openRow] at counts
    exact ⟨_, reads, counts, owes, countCe_mem .., fun j other => (getStk_countCe_ne b _ _ other).trans (getStk_openRow_ne b s other), data⟩
  case poisoned =>
    have counted := countPoison_counts b s
    have others (j : Nat) (other : j ≠ stackOfBlk b) : getStk (countPoison b (openRow b s)) j = getStk s j :=
      (getStk_modStk_ne _ _ other).trans (getStk_openRow_ne b s other)
    refine ⟨_, reads, ?_⟩
    obtain ⟨-, plain | ⟨y, corrected⟩⟩ := decodeBlk_poisoned kind
    · rw [plain] at data ⊢
      exact ⟨counted, rfl, others, data⟩
    · rw [corrected] at data ⊢
      obtain ⟨-, poison, -⟩ := countCe_counts b (countPoison b (openRow b s)) y
      exact ⟨poison.trans counted, countCe_mem .., fun j other => (getStk_countCe_ne b _ _ other).trans (others j other), data⟩
  case uncorrectable =>
    rw [decodeBlk_uncorrectable kind alone] at reads data
    obtain ⟨counts, owes⟩ := countUe_counts b (openRow b s)
    rw [getStk_openRow] at counts
    exact ⟨_, reads, counts, owes, countUe_mem .., fun j other => (getStk_countUe_ne b _ _ other).trans (getStk_openRow_ne b s other), data⟩

end Sys2Proof.Machine

/-! Blocks read back in every space (05 R105). -/

namespace Sys2Proof.Machine

section
variable (s : State) (fn inst off : Nat) {data : List Byte} (poison : Bool) (source : Nat) (whole : data.length = 64)
include whole

/-! ### Host memory -/

theorem writeBlk_host_mem : (writeBlk fn 0 inst off data fullMask false source s).mem = { s.mem with host := putBytes off data s.mem.host } := by
  show (hostWrite fn (off + maskLo fullMask) (sliceB (mergeBytes fullMask data (hostRead s off 64)) (maskLo fullMask) (maskLen fullMask)) s).mem = _
  have first : maskLo fullMask = 0 := by decide
  have length : maskLen fullMask = 64 := by decide
  rw [hostWrite_mem, first, length, mergeBytes_full _ whole, sliceB_block whole, Nat.add_zero]

theorem readBlk_host (o : Nat) : (readBlk source 0 inst o (writeBlk fn 0 inst off data fullMask false source s)).1 =
    ⟨getBytes (Config.unwrittenByte 0 0) o 64 (putBytes off data s.mem.host), false, false, false, false⟩ := by
  show (⟨getBytes (Config.unwrittenByte 0 0) o 64 (writeBlk fn 0 inst off data fullMask false source s).mem.host, false, false, false, false⟩ : Rd) = _
  rw [writeBlk_host_mem s fn inst off source whole]

/-! ### Far memory -/

theorem writeBlk_far (usable : s.cap.cxl = true) : writeBlk fn 1 inst off data fullMask poison source s =
    farWrite off data (poisonAfter (off / 64) fullMask poison s.mem.poisonFar) s := by
  show (if (!s.cap.cxl) = true then s else farWrite off (mergeBytes fullMask data _) _ s) = _
  rw [if_neg (by simp [usable]), mergeBytes_full _ whole]

/-! ### The zero-filled spaces -/

theorem writeBlk_zero {space : Nat} (zero : 3 ≤ space) : writeBlk fn space inst off data fullMask poison source s =
    setZ space (putBytesZ (zKey inst off) data (zMem s space).1) (poisonAfter (zKey inst off / 64) fullMask poison (zMem s space).2) s := by
  match space, zero with
  | n + 3, _ =>
    show setZ (n + 3) (putBytesZ (zKey inst off) (mergeBytes fullMask data _) (zMem s (n + 3)).1) _ s = _
    rw [mergeBytes_full _ whole]

end

theorem zMem_setZ (space : Nat) (m : Mem) (p : List Nat) (s : State) : zMem (setZ space m p s) space = (m, p) := by
  match space with
  | 0 | 1 | 2 | 3 | 4 | n + 5 => rfl

theorem readBlk_zero (source : Nat) {space : Nat} (inst off : Nat) (s : State) (zero : 3 ≤ space) : (readBlk source space inst off s).1 =
    ⟨getBytes (fun _ => 0) (zKey inst off) 64 (zMem s space).1, (zMem s space).2.contains (zKey inst off / 64), false, false, false⟩ := by
  match space, zero with
  | n + 3, _ => rfl

/-- What a reader receives of a far block. -/
def farRd (s : State) (off : Nat) : Rd :=
  if s.mem.poisonFar.contains (off / 64) || Config.expanderPoison s.freeCtr (farHome s.far off).1 ((farHome s.far off).2 / 64) then Rd.poisoned
  else ⟨getBytes (Config.unwrittenByte 1 s.era) off 64 s.mem.far, false, false, false, false⟩

theorem readBlk_far (source inst off : Nat) {s : State} (usable : s.cap.cxl = true) : (readBlk source 1 inst off s).1 = farRd s off := by
  show (if (!s.cap.cxl) = true then (_, s) else _ : Rd × State).1 = _
  rw [if_neg (by simp [usable])]
  unfold farRd
  split <;> rfl

section
variable (s : State) {off : Nat} {data : List Byte} (poison : Bool) (whole : data.length = 64)
include whole

theorem farRd_farWrite (sound : Config.expanderPoison s.freeCtr (farHome s.far off).1 ((farHome s.far off).2 / 64) = false) :
    (farRd (farWrite off data (poisonAfter (off / 64) fullMask poison s.mem.poisonFar) s) off).poison = poison ∧
    (poison = false → (farRd (farWrite off data (poisonAfter (off / 64) fullMask poison s.mem.poisonFar) s) off).data = data) := by
  have reads : farRd (farWrite off data (poisonAfter (off / 64) fullMask poison s.mem.poisonFar) s) off =
      if poison then Rd.poisoned else ⟨data, false, false, false, false⟩ := by
    have bytes : getBytes (Config.unwrittenByte 1 s.era) off 64 (putBytes off data s.mem.far) = data := whole ▸ getBytes_putBytes _ data off _
    show (if (poisonAfter (off / 64) fullMask poison s.mem.poisonFar).contains (off / 64) ||
      Config.expanderPoison s.freeCtr (farHome s.far off).1 ((farHome s.far off).2 / 64) then Rd.poisoned else
        ⟨getBytes (Config.unwrittenByte 1 s.era) off 64 (putBytes off data s.mem.far), false, false, false, false⟩) = _
    rw [contains_poisonAfter_same, sound, Bool.or_false, bytes]
  rw [reads]
  cases poison with
  | true => exact ⟨rfl, nofun⟩
  | false => exact ⟨rfl, fun _ => rfl⟩

theorem farRd_farWrite_apart {o : Nat} (ho : o % 64 = 0) (hoff : off % 64 = 0) (other : o ≠ off) :
    farRd (farWrite off data (poisonAfter (off / 64) fullMask poison s.mem.poisonFar) s) o = farRd s o := by
  show (if (poisonAfter (off / 64) fullMask poison s.mem.poisonFar).contains (o / 64) ||
    Config.expanderPoison s.freeCtr (farHome s.far o).1 ((farHome s.far o).2 / 64) then Rd.poisoned else
      ⟨getBytes (Config.unwrittenByte 1 s.era) o 64 (putBytes off data s.mem.far), false, false, false, false⟩) = _
  rw [contains_poisonAfter_ne _ _ _ (by omega), getBytes_putBytes_apart _ _ _ (by omega)]
  rfl

end

/-! ### Stack memory -/

theorem physBlk_writeStack (s : State) (b : Nat) (data : List Byte) (poison : Bool) (source : Nat) (usable : stackUsable s (stackOfBlk b) = true) (off : Nat) :
    physBlk (writeStack b data fullMask poison source s) off = physBlk s off := by
  rw [writeStack_whole _ _ _ usable]
  rfl

theorem furrowRead_fst (blk : Nat) (s : State) : (furrowRead blk s).1 = (readStack blk s).1 := rfl

theorem readBlk_stack (source inst off : Nat) {s : State} {b : Nat} (mapped : physBlk s off = some b) :
    (readBlk source 2 inst off s).1.poison = (readStack b s).1.poison ∧ (readBlk source 2 inst off s).1.data = (readStack b s).1.data := by
  have read : readBlk source 2 inst off s = match physBlk s off with
      | none => (Rd.poisoned, s)
      | some b =>
        let r := if source = 3 then furrowRead b s else readStack b s
        ({ r.1 with shared := r.1.shared || (tabGet? (off / 65536) s.sharedPoison).isSome }, r.2) := rfl
  rw [read, mapped]
  dsimp only
  split <;> exact ⟨rfl, rfl⟩

section
variable {s : State} {b : Nat} {data : List Byte} (unarmed : (getStk s (stackOfBlk b)).flipArmed = false) (whole : data.length = 64)
  (poison : Bool) (source : Nat) (usable : stackUsable s (stackOfBlk b) = true)
include unarmed whole usable

/-- A whole word written to a usable stack is what its next reader receives. -/
theorem readStack_writeStack : (readStack b (writeStack b data fullMask poison source s)).1.poison = poison ∧
    (poison = false → (readStack b (writeStack b data fullMask poison source s)).1.data = data) := by
  have unarmedStill : (getStk (mergeDrop b s) (stackOfBlk b)).flipArmed = false := by
    unfold mergeDrop
    rw [getStk_modStk]
    exact unarmed
  have word := findWord_storeBlk unarmedStill whole poison source
  have noEntry : mergeFind (storeBlk b data poison source (mergeDrop b s)) b = none := by rw [mergeFind_storeBlk, mergeFind_mergeDrop]
  rw [writeStack_whole _ _ _ usable, readStack_of_none (s := storeBlk b data poison source (mergeDrop b s)) usable noEntry]
  cases poison with
  | true =>
    obtain ⟨reads, -⟩ := decodeBlk_poisoned (congrArg Found.kind word)
    rw [reads]
    exact ⟨rfl, nofun⟩
  | false =>
    rw [decodeBlk_clean (congrArg Found.kind word)]
    exact ⟨rfl, fun _ => congrArg Found.data word⟩

end

/-- Two aligned blocks of one memory lie apart. -/
theorem zKey_apart {inst o off : Nat} (ho : o % 64 = 0) (hoff : off % 64 = 0) (other : o ≠ off) :
    zKey inst o / 64 ≠ zKey inst off / 64 ∧ (zKey inst o + 64 ≤ zKey inst off ∨ zKey inst off + 64 ≤ zKey inst o) := by
  unfold zKey
  omega

/-- Settles O30. -/
theorem blocksReadBackAsWritten : Obligations.BlocksReadBackAsWritten := by
  unfold Obligations.BlocksReadBackAsWritten
  intro s fn space inst off data poison source hspace _ aligned whole reachable unpoisoned unarmed expander
  have written (d : Nat → Byte) (k : Nat) (m : Mem) : getBytes d k 64 (putBytes k data m) = data := whole ▸ getBytes_putBytes d data k m
  have apart {o : Nat} (ho : o % 64 = 0) (other : o ≠ off) : o + 64 ≤ off ∨ off + data.length ≤ o := by omega
  match space, hspace with
  | 0, _ =>
    obtain rfl := unpoisoned rfl
    rw [readBlk_host s fn inst off source whole, written]
    refine ⟨rfl, fun _ => rfl, fun _ o _ ho other => ?_⟩
    rw [readBlk_host s fn inst off source whole, getBytes_putBytes_apart _ _ _ (apart ho other)]
    rfl
  | 1, _ =>
    have usable : s.cap.cxl = true := by simpa [unreachable] using reachable
    have usableStill (p : List Nat) : (farWrite off data p s).cap.cxl = true := usable
    simp only [writeBlk_far s fn inst off poison source whole usable, readBlk_far source inst _ (usableStill _), readBlk_far source inst _ usable]
    obtain ⟨marked, bytes⟩ := farRd_farWrite s poison whole (expander rfl s.freeCtr)
    exact ⟨marked, bytes, fun _ o _ ho other => farRd_farWrite_apart s poison whole ho aligned other⟩
  | 2, _ =>
    match mapped : physBlk s off with
    | none => simp [unreachable, mapped] at reachable
    | some b =>
      have usable : stackUsable s (stackOfBlk b) = true := by simpa [unreachable, mapped] using reachable
      have stack : writeBlk fn 2 inst off data fullMask poison source s = writeStack b data fullMask poison source s := by
        show (match physBlk s off with
          | none => s
          | some b => writeStack b data fullMask poison source s) = _
        rw [mapped]
      obtain ⟨mark, bytes⟩ := readBlk_stack source inst off (s := writeStack b data fullMask poison source s) ((physBlk_writeStack s b data poison source usable off).trans mapped)
      obtain ⟨marked, same⟩ := readStack_writeStack (unarmed b rfl mapped) whole poison source usable
      rw [stack, mark, bytes]
      exact ⟨marked, same, fun notStack => absurd rfl notStack⟩
  | n + 3, _ =>
    rw [writeBlk_zero s fn inst off poison source whole (by omega)]
    simp only [readBlk_zero source inst _ _ (show 3 ≤ n + 3 by omega), zMem_setZ]
    refine ⟨contains_poisonAfter_same .., fun _ => ?_, fun _ o _ ho other => ?_⟩
    · rw [← whole]
      exact getBytes_putBytesZ ..
    · obtain ⟨blocks, bytes⟩ := zKey_apart (inst := inst) ho aligned other
      rw [contains_poisonAfter_ne _ _ _ blocks, getBytes_putBytesZ_apart _ _ (by rwa [whole])]

end Sys2Proof.Machine

/-! Supply, resets and pins (14 R332; 19 R439 to R449). -/

namespace Sys2Proof.Machine

section
variable (s : State)

theorem next_congr {t u : State} (e : t = u) : (.next t : Res) = .next u := congrArg _ e

theorem packageReset_resetKept : resetKept s (packageReset s) := ⟨rfl, rfl, rfl, rfl, rfl, rfl, rfl, rfl, rfl⟩

/-- The pins and the residency counts may follow a reset. -/
theorem resetKept.board {s t : State} (kept : resetKept s t) (f : Board → Board) : resetKept s (modBoard f t) := by
  obtain ⟨frame, rest⟩ := kept
  exact ⟨congrArg (modBoard f) frame, rest⟩

theorem resetKept.residency {s t : State} (kept : resetKept s t) : resetKept s (startResidency t) := by
  obtain ⟨frame, rest⟩ := kept
  exact ⟨congrArg startResidency frame, rest⟩

theorem resetIfUp_of_up {s : State} (up : s.board.pgood = true) : resetIfUp s = packageReset s := if_pos up

theorem exec_perstNAssert {s : State} (high : s.board.perstN = true) :
    exec .perstNAssert s = .next (modBoard (fun b => { b with perstN := false }) (resetIfUp s)) := next_congr (if_pos high)

theorem restart_of_enabled {s : State} (enabled : s.board.pwrEn = true) : restart s = modBoard (fun b => { b with faultN := true }) s := if_pos enabled

theorem restart_of_disabled {s : State} (disabled : ¬s.board.pwrEn = true) : restart s = s := if_neg disabled

theorem busReset_up {s : State} (high : s.board.perstN = true) (up : s.board.pgood = true) : busReset s = startResidency (packageReset s) :=
  if_pos ⟨high, up⟩

theorem exec_inputCut {s : State} (power : s.board.power48 = true) (notCut : s.board.cut = false) :
    exec .inputCut s = .next (showFault (modBoard (fun b => { b with cut := true, band := false }) (railsDown (resetIfUp s)))) :=
  next_congr (if_pos ⟨power, notCut⟩)

end

/-- Settles O53. -/
theorem resetsKeepOnlyTheRecord : Obligations.ResetsKeepOnlyTheRecord := by
  unfold Obligations.ResetsKeepOnlyTheRecord
  intro s
  have kept := packageReset_resetKept s
  refine ⟨fun up => ⟨fun high => ⟨⟨_, exec_perstNAssert high, ?assert⟩, ⟨_, next_congr (busReset_up high up), resetKept.residency kept, high, up⟩,
    ⟨_, next_congr (busReset_up high up), resetKept.residency kept, high, up⟩⟩, ⟨_, rfl, ?low⟩, fun power notCut => ⟨_, exec_inputCut power notCut, ?cut⟩⟩,
    fun power => ⟨_, next_congr (if_pos power), rfl, rfl, rfl, rfl, rfl, rfl, rfl, rfl, rfl, rfl, rfl, rfl, rfl, rfl⟩, fun dark => ?dark, fun down => ?down,
    fun low => ?inReset, ?high, fun cut => ?recovery, fun power notCut => ?band⟩
  case assert =>
    rw [resetIfUp_of_up up]
    exact ⟨resetKept.board kept _, rfl, up⟩
  case low =>
    rw [resetIfUp_of_up (show (modBoard (fun b => { b with pwrEn := false }) s).board.pgood = true from up)]
    exact ⟨resetKept.board (packageReset_resetKept (modBoard (fun b => { b with pwrEn := false }) s)) _, rfl, rfl⟩
  case cut =>
    rw [resetIfUp_of_up up]
    exact ⟨resetKept.board (resetKept.board (resetKept.board kept _) _) _, rfl, rfl, rfl⟩
  case dark =>
    exact ⟨next_congr (if_neg (by simp [dark])), next_congr (if_neg (by simp [dark])), next_congr (if_neg (by simp [dark]))⟩
  case down => exact ⟨next_congr (if_neg (by simp [down])), next_congr (if_neg (by simp [down]))⟩
  case inReset =>
    exact ⟨next_congr (if_neg (by simp [low])), next_congr (if_neg (by simp [low])), next_congr (if_neg (by simp [low]))⟩
  case high =>
    by_cases fed : s.board.power48 = true ∧ s.board.cut = false
    · exact ⟨_, next_congr (if_pos fed), rfl, fun _ _ => rfl, rfl⟩
    · exact ⟨_, next_congr (if_neg fed), rfl, fun power notCut => absurd ⟨power, notCut⟩ fed, rfl⟩
  case recovery =>
    refine ⟨_, next_congr (if_pos cut), ?_⟩
    by_cases enabled : s.board.pwrEn = true
    · rw [restart_of_enabled (show (modBoard (fun b => { b with cut := false }) s).board.pwrEn = true from enabled)]
      exact ⟨rfl, fun _ => rfl, rfl⟩
    · rw [restart_of_disabled (show ¬(modBoard (fun b => { b with cut := false }) s).board.pwrEn = true from enabled)]
      exact ⟨rfl, fun e => absurd e enabled, rfl⟩
  case band =>
    refine ⟨_, next_congr (if_pos ⟨power, notCut⟩), by rw [henuaEvent_eq]; rfl, fun up => ?_, ?_⟩
    · rw [henuaEvent_evtSeq, if_pos (show (modBoard _ s).henua.up = true from up)]
      rfl
    · obtain ⟨events, seq, lost, out, event⟩ := henuaEvent_shape 0x05 1 [] (modBoard (fun b => { b with band := true }) s)
      rw [event]
      rfl

end Sys2Proof.Machine

/-! The Function Level Reset (14 R333). -/

namespace Sys2Proof.Machine

/-! ### Commands that will have no record -/

/-- Of each live command its tenant, and whether it is silent. -/
def silence (s : State) : List (Nat × Bool) := s.cmds.map fun c => (c.tenant, c.silent)

theorem silence_still : Still silence where
  work moves := by
    unfold WorkMoves at moves
    rw [moves]
    rfl
  event cls severity payload s := by
    rw [henuaEvent_eq]
    rfl
  fn _ _ _ _ := rfl
  cmd h g s same := by
    unfold silence modCmd
    rw [List.map_map]
    refine List.map_congr_left fun c _ => ?_
    obtain ⟨tenant, silent⟩ := same c
    by_cases named : c.handle = h <;> simp [named, tenant, silent]

/-- No command of the tenant will have a record. -/
def SilentFor (t : Nat) (l : List (Nat × Bool)) : Prop := ∀ e ∈ l, e.1 = t → e.2 = true

theorem silentFor_silence {t : Nat} {s : State} (silent : SilentFor t (silence s)) : ∀ c ∈ s.cmds, c.tenant = t → c.silent = true :=
  fun c there own => silent (c.tenant, c.silent) (List.mem_map_of_mem there) own

theorem bar4Log2_still (f : Nat) : Still fun s => (getFn s f).bar4Log2 where
  work moves := by
    unfold WorkMoves at moves
    rw [moves]
    rfl
  event cls severity payload s := by
    rw [henuaEvent_eq]
    rfl
  fn k g s same := by
    by_cases own : f = k
    · subst own
      rw [getFn_modFn, same]
    · rw [getFn_modFn_ne _ _ own]
  cmd _ _ _ _ := rfl

/-! ### One function -/

/-- The function's live commands are cancelled without records. -/
def cancelFn (f : Nat) (s : State) : State :=
  forEach cancelCmd (handlesOf (s.cmds.filter fun c => c.tenant == f)) { s with cmds := s.cmds.map fun c => if c.tenant = f then { c with silent := true } else c }

/-- What a reset leaves of a function's registers. -/
def keptFn (x : Fn) : Fn := { Fn.reset with switches := x.switches, late := x.late, bar4Log2 := x.bar4Log2 }

theorem resetFn_eq (f : Nat) (s : State) : resetFn f s = modFn f keptFn (cancelFn f s) := rfl

section
variable (f : Nat) (s : State)

theorem silence_resetFn : silence (resetFn f s) = (silence s).map fun e => (e.1, e.2 || e.1 == f) := by
  rw [resetFn_eq]
  show silence (cancelFn f s) = _
  unfold cancelFn
  rw [forEach_keeps silence fun h t => silence_still.cancelCmd t h]
  unfold silence
  rw [List.map_map, List.map_map]
  refine List.map_congr_left fun c _ => ?_
  by_cases own : c.tenant = f <;> simp [own]

theorem silentFor_resetFn : SilentFor f (silence (resetFn f s)) := by
  intro e there own
  rw [silence_resetFn] at there
  obtain ⟨x, -, rfl⟩ := List.mem_map.mp there
  simp only at own
  simp [own]

theorem SilentFor.resetFn {t : Nat} {s : State} (silent : SilentFor t (silence s)) : SilentFor t (silence (resetFn f s)) := by
  intro e there own
  rw [silence_resetFn] at there
  obtain ⟨x, before, rfl⟩ := List.mem_map.mp there
  simp [silent x before own]

theorem getFn_resetFn : ∃ x y, getFn (resetFn f s) f = { Fn.reset with switches := x, late := y, bar4Log2 := (getFn s f).bar4Log2 } := by
  have size : (getFn (cancelFn f s) f).bar4Log2 = (getFn s f).bar4Log2 := by
    unfold cancelFn
    rw [forEach_keeps (fun s => (getFn s f).bar4Log2) fun h t => (bar4Log2_still f).cancelCmd t h]
    rfl
  rw [resetFn_eq, getFn_modFn, keptFn, size]
  exact ⟨_, _, rfl⟩

theorem resetFn_idle {s : State} (idle : ∀ c ∈ s.cmds, c.tenant ≠ f) :
    resetFn f s = modFn f keptFn s := by
  have none : s.cmds.filter (fun c => c.tenant == f) = [] := List.filter_eq_nil_iff.mpr fun c there => by simpa using idle c there
  have same : (s.cmds.map fun c => if c.tenant = f then { c with silent := true } else c) = s.cmds :=
    (List.map_congr_left fun c there => if_neg (idle c there)).trans (List.map_id s.cmds)
  rw [resetFn_eq]
  unfold cancelFn
  rw [none, same]
  rfl

end

/-! ### All functions -/

theorem silentFor_resetAll (l : List Nat) (s : State) {t : Nat} (there : t ∈ l ∨ SilentFor t (silence s)) : SilentFor t (silence (forEach resetFn l s)) := by
  induction l generalizing s with
  | nil => exact there.resolve_left (List.not_mem_nil)
  | cons f l ih =>
    refine ih (resetFn f s) ?_
    rcases there with there | silent
    · rcases List.mem_cons.mp there with rfl | later
      · exact .inr (silentFor_resetFn t s)
      · exact .inl later
    · exact .inr (silent.resetFn f)

/-- Functions without live commands are reset one by one. -/
theorem resetAll_idle (l : List Nat) {s : State} (idle : ∀ c ∈ s.cmds, c.tenant ∉ l) : forEach resetFn l s = forEach (fun f => modFn f keptFn) l s := by
  induction l generalizing s with
  | nil => rfl
  | cons f l ih =>
    unfold forEach
    rw [resetFn_idle f fun c there own => idle c there (by simp [own])]
    exact ih fun c there later => idle c there (List.mem_cons_of_mem _ later)

/-- An update of several functions that is the same when repeated. -/
theorem getFn_forEach_modFn {g : Fn → Fn} (again : ∀ x, g (g x) = g x) (l : List Nat) (s : State) (f : Nat) :
    getFn (forEach (fun k => modFn k g) l s) f = if f ∈ l then g (getFn s f) else getFn s f := by
  induction l generalizing s with
  | nil => rfl
  | cons k l ih =>
    unfold forEach
    rw [ih]
    by_cases own : f = k
    · subst own
      rw [getFn_modFn, again, if_pos (List.mem_cons_self ..), ite_self]
    · simp [own, getFn_modFn_ne g s own]

theorem getStk_forEach_modStk {g : Stack → Stack} (again : ∀ x, g (g x) = g x) (l : List Nat) (s : State) (f : Nat) :
    getStk (forEach (fun k => modStk k g) l s) f = if f ∈ l then g (getStk s f) else getStk s f := by
  induction l generalizing s with
  | nil => rfl
  | cons k l ih =>
    unfold forEach
    rw [ih]
    by_cases own : f = k
    · subst own
      rw [getStk_modStk, again, if_pos (List.mem_cons_self ..), ite_self]
    · simp [own, getStk_modStk_ne g s own]

theorem tabGet?_of_not_mem_keys {α : Type} {k : Nat} {t : Tab α} (absent : k ∉ tabKeys (fun _ => true) t) : tabGet? k t = none := by
  induction t with
  | nil => rfl
  | cons e t ih =>
    obtain ⟨j, a⟩ := e
    simp only [tabKeys, List.filter_true, List.map_cons, List.mem_cons, not_or] at absent ih
    unfold tabGet?
    rw [if_neg (Ne.symm absent.1), ih absent.2]

/-- The registers of a stack controller that the reset of the physical function resets. -/
def resetStack (x : Stack) : Stack :=
  { x with stackLimit := 256, dieLimit := 16, hostWaitMax := 0, debtMax := 0, ceLeakMs := 0x3E8, ceThreshold := 0x40, ueFirst := none,
           ueMore := false, patrolPause := false, patrolHours := 24 }

def resetStacks (s : State) : State := forEach (fun k => modStk k resetStack) (tabKeys (fun _ => true) s.stks) s

def resetTiles (l : List Nat) (s : State) : State := forEach (fun t => modTile t fun x => { x with stepMax := 0 }) l s

def resetSize (x : Fn) : Fn := { x with bar4Log2 := 6 }

def resetSizes (s : State) : State := forEach (fun g => modFn g resetSize) (List.range 64) s

/-- The registers that only the physical function has, beside those of the stack controllers. -/
def pfRegisters (s : State) : State := modBoard (fun b => { b with vfEnable := false })
  (modDpt (fun d => { d with timeoutMs := 0x32, reorderMax := 0, ptpRxBase := 0, ptpRxCtrl := 0x4, ptpRxTail := 0, ptpRxHead := 0,
                             ptpTxBase := 0, ptpTxCtrl := 0x4, ptpTxTail := 0, ptpTxHead := 0 }) { s with margin := 0x5BCC0 })

section
variable (s : State)

theorem pfRegisters_leaves : (pfRegisters s).cmds = s.cmds ∧ (pfRegisters s).fns = s.fns ∧ (pfRegisters s).stks = s.stks := ⟨rfl, rfl, rfl⟩

theorem pfRegisters_reset : (pfRegisters s).margin = 0x5BCC0 ∧ (pfRegisters s).board.vfEnable = false ∧ (pfRegisters s).dpt.timeoutMs = 0x32 :=
  ⟨rfl, rfl, rfl⟩

theorem resetPfOnly_eq : resetPfOnly s = pfRegisters (resetSizes (resetTiles (tabKeys (fun _ => true) s.tiles) (resetStacks s))) := rfl

theorem resetStacks_leaves : (resetStacks s).cmds = s.cmds ∧ (resetStacks s).fns = s.fns :=
  ⟨forEach_keeps State.cmds (fun k u => modStk_cmds k _ u) .., forEach_keeps State.fns (fun k u => modStk_fns k _ u) ..⟩

theorem resetTiles_leaves (l : List Nat) : (resetTiles l s).cmds = s.cmds ∧ (resetTiles l s).fns = s.fns ∧ (resetTiles l s).stks = s.stks :=
  ⟨forEach_keeps State.cmds (fun k u => modTile_cmds k _ u) .., forEach_keeps State.fns (fun k u => modTile_fns k _ u) ..,
    forEach_keeps State.stks (fun k u => modTile_stks k _ u) ..⟩

theorem resetSizes_leaves : (resetSizes s).cmds = s.cmds ∧ (resetSizes s).stks = s.stks :=
  ⟨forEach_keeps State.cmds (fun k u => modFn_cmds k _ u) .., forEach_keeps State.stks (fun k u => modFn_stks k _ u) ..⟩

theorem resetPfOnly_cmds : (resetPfOnly s).cmds = s.cmds := by
  rw [resetPfOnly_eq, (pfRegisters_leaves _).1, (resetSizes_leaves _).1, (resetTiles_leaves ..).1, (resetStacks_leaves s).1]

theorem getFn_resetSizes {f : Nat} (hf : f < 64) : getFn (resetSizes s) f = resetSize (getFn s f) := by
  unfold resetSizes
  rw [getFn_forEach_modFn (g := resetSize) (fun _ => rfl), if_pos (List.mem_range.mpr hf)]

theorem getFn_congr {s t : State} (same : t.fns = s.fns) (f : Nat) : getFn t f = getFn s f := congrArg (tabGetD Fn.reset f) same

theorem getStk_congr {s t : State} (same : t.stks = s.stks) (k : Nat) : getStk t k = getStk s k := congrArg (tabGetD Stack.reset k) same

theorem getFn_resetPfOnly {f : Nat} (hf : f < 64) : getFn (resetPfOnly s) f = resetSize (getFn s f) := by
  obtain ⟨-, controllers⟩ := resetStacks_leaves s
  obtain ⟨-, tiles, -⟩ := resetTiles_leaves (resetStacks s) (tabKeys (fun _ => true) s.tiles)
  rw [resetPfOnly_eq, getFn_congr (pfRegisters_leaves _).2.1, getFn_resetSizes _ hf, getFn_congr tiles, getFn_congr controllers]

theorem getStk_resetStacks (k : Nat) : (getStk (resetStacks s) k).stackLimit = 256 ∧ (getStk (resetStacks s) k).dieLimit = 16 ∧
    (getStk (resetStacks s) k).patrolHours = 24 ∧ (getStk (resetStacks s) k).patrolPause = false := by
  unfold resetStacks
  rw [getStk_forEach_modStk (g := resetStack) (fun _ => rfl)]
  split
  · exact ⟨rfl, rfl, rfl, rfl⟩
  · rename_i absent
    have fresh : getStk s k = Stack.reset := by
      unfold getStk tabGetD
      rw [tabGet?_of_not_mem_keys absent]
      rfl
    rw [fresh]
    exact ⟨rfl, rfl, rfl, rfl⟩

theorem getStk_resetPfOnly (k : Nat) : getStk (resetPfOnly s) k = getStk (resetStacks s) k := by
  rw [resetPfOnly_eq, getStk_congr (pfRegisters_leaves _).2.2, getStk_congr (resetSizes_leaves _).2, getStk_congr (resetTiles_leaves ..).2.2]

end

theorem henuaEvent_leaves (cls severity : Nat) (payload : List Nat) (s : State) :
    (henuaEvent cls severity payload s).cmds = s.cmds ∧ (henuaEvent cls severity payload s).fns = s.fns ∧
      (henuaEvent cls severity payload s).stks = s.stks ∧ (henuaEvent cls severity payload s).margin = s.margin ∧
      (henuaEvent cls severity payload s).board = s.board ∧ (henuaEvent cls severity payload s).dpt = s.dpt := by
  rw [henuaEvent_eq]
  exact ⟨rfl, rfl, rfl, rfl, rfl, rfl⟩

theorem exec_functionLevelReset {fn : Nat} (hf : fn < 64) (s : State) : exec (.functionLevelReset fn) s =
    .next (schedule (henuaEvent 0x07 0 [fn] (if fn = 0 then resetPfOnly (forEach resetFn (List.range 64) s) else resetFn fn s))) := onFn_next hf _

/-- Settles O54. -/
theorem functionResetClearsTheFunction : Obligations.FunctionResetClearsTheFunction := by
  unfold Obligations.FunctionResetClearsTheFunction
  intro s fn pos hf
  constructor
  · have runs := exec_functionLevelReset hf s
    rw [if_neg (by omega)] at runs
    have counted := henuaEvent_evtSeq 0x07 0 [fn] (resetFn fn s)
    obtain ⟨events, seq, lost, out, event⟩ := henuaEvent_shape 0x07 0 [fn] (resetFn fn s)
    rw [event] at runs counted
    refine ⟨_, runs, silentFor_silence (s := resetFn fn s) (silentFor_resetFn fn s), getFn_resetFn fn s, fun idle => ?_⟩
    rw [resetFn_idle fn idle] at counted ⊢
    obtain ⟨own, others, -⟩ := modFn_leaves fn keptFn s
    exact ⟨own, others, fun up => counted.trans (if_pos up), rfl⟩
  · obtain ⟨u, same⟩ : ∃ u, u = forEach resetFn (List.range 64) s := ⟨_, rfl⟩
    have runs := exec_functionLevelReset (show 0 < 64 by decide) s
    rw [if_pos rfl, ← same] at runs
    have resets := pfRegisters_reset (resetSizes (resetTiles (tabKeys (fun _ => true) u.tiles) (resetStacks u)))
    rw [← resetPfOnly_eq] at resets
    obtain ⟨margin, functions, timeout⟩ := resets
    obtain ⟨cmds, fns, stks, same_margin, board, dpt⟩ := henuaEvent_leaves 0x07 0 [0] (resetPfOnly u)
    refine ⟨_, runs, fun c there known => ?_, by rw [same_margin, margin], by rw [board, functions], by rw [dpt, timeout], fun idle f hf => ?_, fun k => ?_⟩
    · rw [cmds, resetPfOnly_cmds] at there
      have silent := silentFor_resetAll _ s (.inl (List.mem_range.mpr known))
      rw [← same] at silent
      exact silentFor_silence silent c there rfl
    · have unused (c : Cmd) (there : c ∈ s.cmds) : c.tenant ∉ List.range 64 := fun known => absurd (List.mem_range.mp known) (Nat.not_lt.mpr (idle c there))
      have registers : getFn u f = keptFn (getFn s f) := by
        rw [same, resetAll_idle _ unused, getFn_forEach_modFn (g := keptFn) (fun _ => rfl), if_pos (List.mem_range.mpr hf)]
      rw [getFn_congr fns, getFn_resetPfOnly u hf, registers]
      rfl
    · rw [getStk_congr stks, getStk_resetPfOnly]
      exact getStk_resetStacks u k

end Sys2Proof.Machine

/-! What the completion of one command leaves (08 R182, R183): its record alone, over the state that its effect leaves. -/

namespace Sys2Proof.Machine

/-! ### The record -/

/-- From `s` to `t` of all function registers only those of `f` differ, and of these no submission queue. -/
def RingsLeft (f : Nat) (s t : State) : Prop :=
  (∀ k, k ≠ f → getFn t k = getFn s k) ∧ (getFn t f).queues = (getFn s f).queues ∧ (getFn t f).sq0 = (getFn s f).sq0

section
variable {f : Nat} {s t u : State}

theorem RingsLeft.refl (f : Nat) (s : State) : RingsLeft f s s := ⟨fun _ _ => rfl, rfl, rfl⟩

theorem RingsLeft.trans (a : RingsLeft f s t) (b : RingsLeft f t u) : RingsLeft f s u :=
  ⟨fun k n => (b.1 k n).trans (a.1 k n), b.2.1.trans a.2.1, b.2.2.trans a.2.2⟩

theorem RingsLeft.of_fns (e : t.fns = s.fns) : RingsLeft f s t := by
  have same (k : Nat) : getFn t k = getFn s k := congrArg (tabGetD Fn.reset k) e
  exact ⟨fun k _ => same k, by rw [same], by rw [same]⟩

theorem modFn_ringsLeft (s : State) {g : Fn → Fn} (keep : ∀ x, (g x).queues = x.queues ∧ (g x).sq0 = x.sq0) : RingsLeft f s (modFn f g s) :=
  ⟨fun _ n => getFn_modFn_ne _ s n, by rw [getFn_modFn, (keep _).1], by rw [getFn_modFn, (keep _).2]⟩

theorem sendMsix_ringsLeft (f v : Nat) (s : State) : RingsLeft f s (sendMsix f v s) := by
  unfold sendMsix
  dsimp only
  split
  · exact .refl f s
  split
  · refine modFn_ringsLeft s ?_
    exact fun _ => ⟨rfl, rfl⟩
  · exact .of_fns rfl

theorem vecEvent_ringsLeft (f v : Nat) (s : State) : RingsLeft f s (vecEvent f v s) := by
  unfold vecEvent
  dsimp only
  split
  · exact .refl f s
  split
  · refine .trans (modFn_ringsLeft s ?_) (sendMsix_ringsLeft f v _)
    exact fun _ => ⟨rfl, rfl⟩
  · refine modFn_ringsLeft s ?_
    exact fun _ => ⟨rfl, rfl⟩

theorem whenS_ringsLeft {g : State → State} (b : Bool) (hg : RingsLeft f s (g s)) : RingsLeft f s (whenS b g s) := by
  unfold whenS
  split
  · exact hg
  · exact .refl f s

end

section
variable (c : Cmd) (late : Bool) (outs : List Nat) (s : State)

theorem completionRecord_ringsLeft : RingsLeft c.tenant s (completionRecord c late outs s) := by
  unfold completionRecord writeRecord
  dsimp only
  split
  · exact .refl _ s
  · refine .trans (.of_fns (hostWrite_fns _ _ _ s)) (modFn_ringsLeft _ ?_)
    exact fun _ => ⟨rfl, rfl⟩

theorem completeWith_ringsLeft : RingsLeft c.tenant s (completeWith c late outs s) := by
  refine (completionRecord_ringsLeft c late outs s).trans (.trans (whenS_ringsLeft late (modFn_ringsLeft _ ?_)) (whenS_ringsLeft _ ?_))
  · exact fun _ => ⟨rfl, rfl⟩
  · exact vecEvent_ringsLeft c.tenant _ _

theorem hostRead_modFn (f : Nat) (g : Fn → Fn) (s : State) (a n : Nat) : hostRead (modFn f g s) a n = hostRead s a n := rfl

theorem hostRead_hostWrite_apart {a k n : Nat} (fn : Nat) (bs : List Byte) (s : State) (apart : a + n ≤ k ∨ k + bs.length ≤ a) :
    hostRead (hostWrite fn k bs s) a n = hostRead s a n := by
  unfold hostRead
  rw [hostWrite_mem]
  exact getBytes_putBytes_apart _ _ _ apart

/-- Host memory outside the 32 bytes of the record reads as before. -/
theorem completeWith_hostRead {a : Nat}
    (apart : a < cqBaseOf (getFn s c.tenant) + 32 * (getFn s c.tenant).cqTail ∨
      cqBaseOf (getFn s c.tenant) + 32 * (getFn s c.tenant).cqTail + 32 ≤ a) :
    hostRead (completeWith c late outs s) a 1 = hostRead s a 1 := by
  have read : hostRead (completeWith c late outs s) a 1 = hostRead (completionRecord c late outs s) a 1 := by
    unfold hostRead
    rw [completeWith_keeps c late outs s (·.mem) (vecEvent_mem c.tenant) fun _ => rfl]
  rw [read]
  unfold completionRecord writeRecord
  dsimp only
  split
  · rfl
  · rw [hostRead_modFn, hostRead_hostWrite_apart]
    rw [recordBytes_length]
    omega

end

/-- A command leaves the live ones and its record is written: all that changes is what a record touches. -/
theorem completeWith_recorded (c : Cmd) (late : Bool) (outs : List Nat) (u : State) :
    Recorded u (completeWith c late outs (dropCmd c.handle u)) c := by
  have rings : RingsLeft c.tenant u _ := completeWith_ringsLeft c late outs (dropCmd c.handle u)
  exact ⟨eq_of_apartFromRecord (completeWith_apartFromRecord c late outs (dropCmd c.handle u)), rings.1, rings.2.1, rings.2.2,
    fun _ apart => completeWith_hostRead c late outs (dropCmd c.handle u) apart⟩

/-! ### The row -/

section
variable {s : State} {h op : Nat} {c : Cmd}

theorem finalOutcomes_of_completing (ready : Completing s h op c) : finalOutcomes s c = [] := by
  obtain ⟨-, -, -, none, inTime, -, -⟩ := ready
  exact (if_neg (Nat.not_lt.mpr inTime)).trans none

/-- A command without outcomes that signals nothing completes by its effect and its record. -/
theorem exec_completing (ready : Completing s h op c) (notPower : op ≠ 0x0703) :
    ∃ t, exec (.commandCompletion h) s = .next t ∧ Recorded (completed c s) t c := by
  have noOuts := finalOutcomes_of_completing ready
  obtain ⟨live, may, opcode, -, -, unsigned, loud⟩ := ready
  refine ⟨_, exec_commandCompletion live may, ?_⟩
  rw [if_neg (opcode ▸ notPower), completeCmd_recorded s unsigned loud, noOuts]
  exact completeWith_recorded c _ _ _

end

end Sys2Proof.Machine

/-! Objects that commands make and end (06; 07; 08 R186, R194, R195; 11 R274): descriptors, adapter slots, bundles; and a
placement that the statement O13 does not reach. -/

namespace Sys2Proof.Machine

/-! ### Rules -/

section
variable {s : State} {h op : Nat} {c : Cmd}

/-- A command ends with what its data operation met, where no poisoned shared page was touched. -/
theorem finishAcc_endsAs {value : Nat} {a : Acc} (run : Running s h op c) (cmds : a.s.cmds = s.cmds) (clean : stSharedPoisoned ∉ a.outs) :
    EndsAs s (finishAcc h value a) c value a := by
  obtain ⟨live, running, -, -⟩ := run
  obtain rfl : c.handle = h := getCmd?_handle live
  have untouched : scrambleTouched c.handle a = a.s := by
    unfold scrambleTouched
    rw [if_neg (by simpa using clean)]
  have there (k : Nat) : getCmd? a.s k = getCmd? s k := getCmd?_of_cmds_eq cmds k
  unfold finishAcc
  rw [untouched]
  exact ⟨ended_finishCmd _ _ ((there _).trans live) running, (onlyCmd_finishCmd a.s c.handle a.outs value).1,
    fun k other => ((onlyCmd_finishCmd a.s c.handle a.outs value).2 k other).trans (there k)⟩

theorem dropMover_of_idle {s : State} (idle : s.held = []) (id : Nat) : dropMover id s = s := by
  unfold dropMover
  rw [idle, List.filter_nil, ← idle]

theorem viaGap_of_free {s : State} {blks : List Nat} (idle : s.held = []) (free : blksWait s blks = false) (id : Nat) (f : State → State) :
    viaGap id blks f s = f s := by
  unfold viaGap
  dsimp only
  rw [dropMover_of_idle idle, if_neg (by simp [free])]

theorem serve_of_served (served : Served s c) (f : State → State) : serve c f s = f s := by
  obtain ⟨budget, untested, idle, free⟩ := served
  unfold serve
  dsimp only
  rw [if_neg (by simp [budget, untested])]
  exact viaGap_of_free idle free ..

/-- The command ends over a state that has the same live commands. -/
theorem finishCmd_ends {u : State} {value : Nat} (run : Running s h op c) (cmds : u.cmds = s.cmds) :
    Ended (finishCmd h [] value u) h c [] value ∧ (∀ k, k ≠ h → getCmd? (finishCmd h [] value u) k = getCmd? s k) ∧
      finishCmd h [] value u = { u with cmds := (finishCmd h [] value u).cmds } := by
  obtain ⟨live, running, -, -⟩ := run
  have there (k : Nat) : getCmd? u k = getCmd? s k := getCmd?_of_cmds_eq cmds k
  have only := onlyCmd_finishCmd u h [] value
  exact ⟨ended_finishCmd _ _ ((there _).trans live) running, fun k other => (only.2 k other).trans (there k), only.1⟩

end

theorem mem_emptySlots (ds : List (Nat × Nat)) (s : State) (a : Nat × Adapter) :
    a ∈ (emptySlots ds s).adapters ↔ a ∈ s.adapters ∧ (a.2.tenant, a.2.source) ∉ ds := by
  unfold emptySlots
  simp [List.mem_filter]

/-! ### Descriptors -/

theorem mem_pair_singleton (t d x y : Nat) : ((x, y) ∉ [(t, d)]) ↔ ¬(x = t ∧ y = d) := by simp

theorem getTen?_congr {s t : State} (e : t.tenants = s.tenants) (k : Nat) : getTen? t k = getTen? s k := congrArg (tabGet? k) e

/-- Settles O12. Both completions go by `exec_completing`: the record is written over the state that `bornDesc` or `dropDescs` leaves. -/
theorem descriptorsComeAndGo : Obligations.DescriptorsComeAndGo := by
  unfold Obligations.DescriptorsComeAndGo
  intro s h c
  refine ⟨fun run => ?create, fun d a x ready desc alloc tenant => ?born, fun run free => ?destroy, fun x ready tenant => ?gone⟩
  case create =>
    exact ⟨_, runCmd_next run _, ended_finishCmd [] 0 run.1 run.2.1, onlyCmd_finishCmd ..⟩
  case born =>
    obtain ⟨t, row, recorded⟩ := exec_completing ready (by decide)
    have effect : completed c s = modTen c.tenant (fun t => { t with descs := tabPut (lo32 (pk c.pkt 2)) ⟨d, namedAlloc c, a.dying⟩ t.descs }) s := by
      simp only [completed, ready.2.2.1]
      unfold bornDesc
      rw [desc, alloc]
    rw [effect] at recorded
    refine ⟨_, t, row, recorded, modTen_eq .., ?_, fun k other => getTen?_modTen_ne _ _ other⟩
    exact getTen?_modTen _ tenant
  case destroy =>
    refine ⟨finishCmd h [] 0 (emptySlots [(c.tenant, cmdParam c 2)] s), ?_, ?_⟩
    · show execDescDestroy h s = _
      unfold execDescDestroy
      rw [runCmd_next run]
      exact next_congr (if_neg (Bool.eq_false_iff.mp free))
    · obtain ⟨ended, others, frame⟩ := finishCmd_ends (value := 0) run (u := emptySlots [(c.tenant, cmdParam c 2)] s) rfl
      exact ⟨ended, others, fun a => (mem_emptySlots _ s a).trans (and_congr_right' (mem_pair_singleton ..)), frame⟩
  case gone =>
    obtain ⟨t, row, recorded⟩ := exec_completing ready (by decide)
    have effect : completed c s = emptySlots [(c.tenant, pk c.pkt 2)] (modTen c.tenant (fun t => { t with descs := tabDel (pk c.pkt 2) t.descs }) s) := by
      simp only [completed, ready.2.2.1]
      rfl
    rw [effect] at recorded
    refine ⟨_, t, row, recorded, ?_, fun k other => ?_, fun a => ?_, ?_⟩
    · exact getTen?_modTen _ tenant
    · exact getTen?_modTen_ne _ _ other
    · refine (mem_emptySlots _ _ a).trans (and_congr ?_ (mem_pair_singleton ..))
      rw [modTen_adapters]
    · rw [modTen_eq]
      rfl

/-! ### Adapter slots -/

theorem adapterLoad_data {col src : Desc} {r k : Nat} (s : State) :
    DataOnly s (wrPieces src (fun e a =>
        if e < r * k then (none, a)
        else
          let sc := rdEl col ((e - r * k) / (512 * r) * 512 + (e - r * k) % 512) a
          let b := rdEl src e sc.2
          (some (encB16 (dec32 (fmul (widen 4 b.1.1) (frecip sc.1.1))), b.1.2 || sc.1.2), b.2)) (dPieces src) (Acc.start 1 s)).s := by
  refine wrPieces_data _ _ _ _ (fun e a data => ?_) (DataOnly.refl s)
  dsimp only
  split
  · exact data
  · exact rdEl_data _ _ _ (rdEl_data _ _ _ data)

theorem mem_adapters_evicted (l : Tab Adapter) (slot t : Nat) (e : Nat × Adapter) :
    e ∈ l.filter (fun e => !(e.1 == slot && e.2.tenant == t)) ↔ e ∈ l ∧ ¬(e.1 = slot ∧ e.2.tenant = t) := by
  rw [List.mem_filter, Bool.not_eq_true', Bool.and_eq_false_iff, beq_eq_false_iff_ne, beq_eq_false_iff_ne, not_and_or]

/-- Settles O16. -/
theorem adapterSlotsComeAndGo : Obligations.AdapterSlotsComeAndGo := by
  unfold Obligations.AdapterSlotsComeAndGo
  intro s h c
  refine ⟨fun src col r k a run served esrc ecol er ek ea clean => ?load, fun run => ?evict⟩
  case load =>
    subst esrc ecol er ek
    have data : DataOnly s a.s := ea ▸ adapterLoad_data s
    have adapters : a.s.adapters = s.adapters := by rw [data]
    obtain ⟨slot, eslot⟩ : ∃ slot : Adapter, slot = ⟨c.tenant, cmdParam c 1 / 2 ^ 16 % 256,
      dCount (cmdDesc s c (lo32 (cmdParam c 0))) / (cmdParam c 1 / 2 ^ 16 % 256) - dCount (cmdDesc s c (hi32 (cmdParam c 0))),
      dCount (cmdDesc s c (hi32 (cmdParam c 0))), cmdParam c 0 % 2 ^ 32, true⟩ := ⟨_, rfl⟩
    rw [← eslot]
    refine ⟨finishAcc h 0 { a with s := { a.s with adapters := tabPut (cmdParam c 1 % 2 ^ 14) slot a.s.adapters } }, ?_, ?_⟩
    · show execAdapterLoad h s = _
      unfold execAdapterLoad
      rw [runCmd_next run, serve_of_served served]
      dsimp only
      rw [bitsOf_pk_low, show bitsOf (pk c.pkt 1) 23 16 = cmdParam c 1 / 2 ^ 16 % 256 from rfl, ea, eslot]
      rfl
    · rw [← adapters]
      exact finishAcc_endsAs run data.cmds clean
  case evict =>
    obtain ⟨ended, others, frame⟩ := finishCmd_ends (value := 0) run
      (u := { s with adapters := s.adapters.filter fun e => !(e.1 == bitsOf (pk c.pkt 1) 13 0 && e.2.tenant == c.tenant) }) rfl
    refine ⟨_, ?_, ended, fun e => ?_, frame⟩
    rotate_left
    · rw [finishCmd_adapters, bitsOf_pk_low]
      exact mem_adapters_evicted ..
    show execAdapterEvict h s = _
    unfold execAdapterEvict
    rw [runCmd_next run]

/-! ### Bundles -/

/-- Settles O17. -/
theorem bundlesComeRunAndGo : Obligations.BundlesComeRunAndGo := by
  unfold Obligations.BundlesComeRunAndGo
  refine ⟨fun s h c => ⟨fun d run ed => ?load, fun run idle => ?unload, fun ready => ?gone⟩, fun s h c x run there ended landed => ?run⟩
  case load =>
    obtain ⟨b, eb⟩ : ∃ b, b = parseBundle c.tenant d (imageBytes s d (min (dCount d) (256 + 16 * 256))) := ⟨_, rfl⟩
    refine ⟨finishCmd h [] b.abi { s with bundles := tabPut h b s.bundles }, b, ?_, ?_, ?_, eb, fun k other => ?_, ?_⟩
    · show execBundleLoad h s = _
      unfold execBundleLoad
      rw [runCmd_next run, eb, ed]
      rfl
    · exact ended_finishCmd [] _ run.1 run.2.1
    · exact tabGet?_tabPut_same ..
    · exact tabGet?_tabPut_ne other ..
    · rfl
  case unload =>
    refine ⟨_, ?_, ended_finishCmd [] 0 run.1 run.2.1, onlyCmd_finishCmd ..⟩
    show execBundleUnload h s = _
    unfold execBundleUnload
    rw [runCmd_next run]
    exact next_congr (if_neg (Bool.eq_false_iff.mp idle))
  case gone =>
    obtain ⟨t, row, recorded⟩ := exec_completing ready (by decide)
    have effect : completed c s = { s with bundles := tabDel (pk c.pkt 0) s.bundles } := by simp only [completed, ready.2.2.1]
    rw [effect] at recorded
    have bundles : t.bundles = tabDel (pk c.pkt 0) s.bundles := by rw [recorded.1]
    refine ⟨_, t, row, recorded, ?_, fun k other => ?_, ?_⟩ <;> rw [bundles]
    · exact tabGet?_tabDel_same ..
    · exact tabGet?_tabDel_ne other ..
  case run =>
    refine ⟨finishCmd h x.outcomes x.recomputes { s with runs := tabDel h s.runs }, ?_, ?_⟩
    · show execBundleRun h s = _
      unfold execBundleRun
      rw [runCmd_next run, there]
      dsimp only
      rw [if_pos ended, if_neg (Bool.eq_false_iff.mp landed)]
    · exact ⟨ended_finishCmd _ _ run.1 run.2.1, fun k other => tabGet?_tabDel_ne other .., tabGet?_tabDel_same .., rfl⟩

/-! ### A placement that the statement does not reach -/

/-- An ALLOC of one byte in space 6, which admission lets no command name. -/
def allocSpace6 : Cmd :=
  { handle := 7, order := 0, tenant := 0, sq := 0, pkt := ⟨0x0201, 0, 0, 0, 0, 0, 0, [1, 6], 0⟩, admitTime := 0, stage := .running,
    outcomes := [], value := 0, desc := none, binds := [], targets := [], rivals := [], silent := false }

/-- Tenant 0 may take 64 KiB of scalar data, and another tenant holds all of space 6. -/
def space6Taken : State :=
  { State.reset with
    cmds := [allocSpace6]
    tenants := [(0, ⟨{ tenant0Profile with resSdata := 65536 }, false, false, [], [], 0, 0⟩)]
    allocs := [(5, ⟨1, 6, 0, 0, 0x80000, none, false, none, false, false⟩)] }

theorem placeAlloc_space6Taken : placeAlloc space6Taken allocSpace6 6 0 65536 = some (0x30000, space6Taken) := by
  show (highFit [] sdataRun 0x40000 4096 65536).map (fun a => (a, space6Taken)) = _
  rw [show highFit [] sdataRun 0x40000 4096 65536 = some 0x30000 by decide]
  rfl

/-- Refutes O13: the statement lets ALLOC name spaces 6 to 15, which admission refuses; `placeAlloc` holds these against the
allocations of space 5, so that the new one overlaps one of its own space. -/
theorem not_allocationsTakeAndFreeRoom : ¬ Obligations.AllocationsTakeAndFreeRoom := by
  unfold Obligations.AllocationsTakeAndFreeRoom
  rintro ⟨takes, -⟩
  have run : Running space6Taken 7 0x0201 allocSpace6 := ⟨rfl, rfl, rfl, rfl⟩
  obtain ⟨t, a, -, -, -, -, space, inst, base, len, -, apart, -⟩ :=
    takes space6Taken space6Taken 7 0x30000 allocSpace6 run (fun _ => rfl) (by decide) placeAlloc_space6Taken
  have clear := apart (by rw [space]; decide) (5, ⟨1, 6, 0, 0, 0x80000, none, false, none, false, false⟩) (List.mem_singleton.mpr rfl)
    (space.symm ▸ rfl) (inst.symm ▸ rfl) (by decide)
  rw [base, len] at clear
  exact absurd clear (by decide)

end Sys2Proof.Machine

/-! Cancelling (08 R191) and pausing (12 R296): what a command that has not been dispatched becomes, and what a run does. -/

namespace Sys2Proof.Machine

/-! ### A command that is cancelled -/

/-- The command at `h` has ended with ST_CANCELLED. -/
def CancelledAt (s : State) (h : Nat) : Prop := ∃ y, getCmd? s h = some y ∧ y.stage = .done ∧ stCancelled ∈ y.outcomes

section
variable {s t : State} {h : Nat} {c : Cmd}

theorem CancelledAt.goes (there : CancelledAt s h) (go : CmdsGo s t) : CancelledAt t h := by
  obtain ⟨y, live, done, cancelled⟩ := there
  obtain ⟨z, live', goes⟩ := go.get h y live
  exact ⟨z, live', goes.done done, goes.outs _ cancelled⟩

theorem mem_addOutcomes_one (x : Nat) (l : List Nat) : x ∈ addOutcomes [x] l := by
  unfold addOutcomes
  rw [List.foldl_cons, List.foldl_nil]
  split
  · next there => simpa using there
  · exact List.mem_append_right _ (List.mem_singleton.mpr rfl)

/-- A command that has not ended ends with ST_CANCELLED. -/
theorem finishCmd_cancelled {value : Nat} (live : getCmd? s h = some c) (undone : c.stage ≠ .done) : CancelledAt (finishCmd h [stCancelled] value s) h := by
  refine ⟨_, getCmd?_modCmd _ (Cmd.ended_handle _ _ c) live, ?_⟩
  unfold Cmd.ended
  rw [if_neg undone]
  exact ⟨rfl, mem_addOutcomes_one ..⟩

/-- A command not dispatched is cancelled on the spot. -/
theorem cancelCmd_admitted (live : getCmd? s h = some c) (admitted : c.stage = .admitted) :
    cancelCmd h s = finishCmd h [stCancelled] 0 (modCmd h (fun x => { x with targets := [] }) s) := by
  unfold cancelCmd
  rw [live]
  dsimp only
  rw [if_neg (by simp [cancellable, admitted]), if_neg (by simp [admitted]), if_neg (by simp [admitted]), if_pos admitted]

/-- The record of a command that was done, but for a TENANT_CREATE's. -/
theorem cancelCmd_done (live : getCmd? s h = some c) (done : c.stage = .done) (cancel : cancellable c = true) (kept : ¬(c.pkt.opcode = 0x0101 ∧ c.outcomes = [])) :
    cancelCmd h s = modCmd h (fun x => { x with targets := [], outcomes := addOutcomes [stCancelled] x.outcomes }) s := by
  unfold cancelCmd
  rw [live]
  dsimp only
  rw [if_neg (by simp [cancel]), if_neg (fun e => kept ⟨e.1, e.2.2⟩), if_pos done]

/-- The work of a TENANT_CREATE that was done is undone. -/
theorem cancelCmd_create (live : getCmd? s h = some c) (done : c.stage = .done) (cancel : cancellable c = true) (create : c.pkt.opcode = 0x0101)
    (clean : c.outcomes = []) :
    cancelCmd h s = modCmd h (fun x => { x with outcomes := addOutcomes [stCancelled] x.outcomes }) { s with tenants := tabDel (pk c.pkt 1) s.tenants } := by
  unfold cancelCmd
  rw [live]
  dsimp only
  rw [if_neg (by simp [cancel]), if_pos ⟨create, done, clean⟩]

theorem cancelCmd_cancels_admitted (live : getCmd? s h = some c) (admitted : c.stage = .admitted) : CancelledAt (cancelCmd h s) h := by
  rw [cancelCmd_admitted live admitted]
  refine finishCmd_cancelled (c := { c with targets := [] }) (getCmd?_modCmd _ rfl live) ?_
  rw [admitted]
  decide

theorem cancelCmd_cancels_done (live : getCmd? s h = some c) (done : c.stage = .done) (cancel : cancellable c = true) : CancelledAt (cancelCmd h s) h := by
  by_cases create : c.pkt.opcode = 0x0101 ∧ c.outcomes = []
  · rw [cancelCmd_create live done cancel create.1 create.2]
    refine ⟨_, getCmd?_modCmd _ ?_ (c := c) live, done, mem_addOutcomes_one ..⟩
    rfl
  · rw [cancelCmd_done live done cancel create]
    refine ⟨_, getCmd?_modCmd _ ?_ live, done, mem_addOutcomes_one ..⟩
    rfl

/-- The cancelling of a command that is admitted, or ended as cancelled, touches no other. -/
theorem cancelCmd_ne {k : Nat} (live : getCmd? s h = some c) (ready : c.stage = .admitted ∨ c.stage = .done ∧ stCancelled ∈ c.outcomes) (other : k ≠ h) :
    getCmd? (cancelCmd h s) k = getCmd? s k := by
  obtain admitted | ⟨done, cancelled⟩ := ready
  · rw [cancelCmd_admitted live admitted]
    refine ((onlyCmd_finishCmd _ h _ _).2 k other).trans (getCmd?_modCmd_ne _ ?_ other)
    exact fun _ => rfl
  · by_cases cancel : cancellable c = true
    · rw [cancelCmd_done live done cancel (fun e => by simp [e.2] at cancelled)]
      refine getCmd?_modCmd_ne _ ?_ other
      exact fun _ => rfl
    · unfold cancelCmd
      rw [live]
      dsimp only
      rw [if_pos (by simpa using cancel)]

end

/-! ### A list of them -/

theorem forEach_append {α : Type} (f : α → State → State) (l m : List α) (s : State) : forEach f (l ++ m) s = forEach f m (forEach f l s) := by
  induction l generalizing s with
  | nil => rfl
  | cons a l ih => exact ih (f a s)

theorem forEach_cancelCmd_goes (l : List Nat) (s : State) : CmdsGo s (forEach cancelCmd l s) :=
  forEach_goes _ _ _ (fun h t go => cancelCmd_goes h t go) (CmdsGo.refl s)

/-- Of the commands that are cancelled in turn, one that was not dispatched ends with ST_CANCELLED; TENANT_DESTROY, which no
cancel reaches once it has ended, is left out. -/
theorem forEach_cancelCmd_cancels {x : Cmd} {l : List Nat} {s : State} (live : getCmd? s x.handle = some x) (idle : x.stage ≠ .running)
    (op : x.pkt.opcode ≠ 0x0102) (mem : x.handle ∈ l) : CancelledAt (forEach cancelCmd l s) x.handle := by
  obtain ⟨before, after, rfl⟩ := List.append_of_mem mem
  have split : forEach cancelCmd (before ++ x.handle :: after) s =
      forEach cancelCmd after (cancelCmd x.handle (forEach cancelCmd before s)) := forEach_append ..
  rw [split]
  refine CancelledAt.goes ?_ (forEach_cancelCmd_goes after _)
  obtain ⟨y, live', goes⟩ := (forEach_cancelCmd_goes before s).get _ x live
  have cancel : cancellable y = true := by simp [cancellable, goes.same.2.2.2.2, op]
  cases stage : y.stage with
  | admitted => exact cancelCmd_cancels_admitted live' stage
  | running => exact absurd (goes.starts stage) idle
  | done => exact cancelCmd_cancels_done live' stage cancel

/-- Commands that are all not dispatched, or ended as cancelled, end with ST_CANCELLED, and no other command changes. -/
theorem forEach_cancelCmd_waiting (l : List Nat) (s : State)
    (ready : ∀ h ∈ l, ∃ c, getCmd? s h = some c ∧ (c.stage = .admitted ∨ c.stage = .done ∧ stCancelled ∈ c.outcomes)) :
    (∀ h ∈ l, CancelledAt (forEach cancelCmd l s) h) ∧ ∀ k, k ∉ l → getCmd? (forEach cancelCmd l s) k = getCmd? s k := by
  induction l generalizing s with
  | nil => exact ⟨fun _ m => absurd m (List.not_mem_nil), fun _ _ => rfl⟩
  | cons h l ih =>
    obtain ⟨c, live, stage⟩ := ready h List.mem_cons_self
    have here : CancelledAt (cancelCmd h s) h := by
      obtain admitted | ended := stage
      · exact cancelCmd_cancels_admitted live admitted
      · exact CancelledAt.goes ⟨c, live, ended⟩ (cancelCmd_goes h s (CmdsGo.refl s))
    have next : ∀ k ∈ l, ∃ c, getCmd? (cancelCmd h s) k = some c ∧ (c.stage = .admitted ∨ c.stage = .done ∧ stCancelled ∈ c.outcomes) := by
      intro k mem
      by_cases same : k = h
      · obtain ⟨y, live', ended⟩ := here
        exact ⟨y, same ▸ live', .inr ended⟩
      · rw [cancelCmd_ne live stage same]
        exact ready k (List.mem_cons_of_mem h mem)
    obtain ⟨cancelled, others⟩ := ih (cancelCmd h s) next
    refine ⟨fun k mem => ?_, fun k out => ?_⟩
    · obtain rfl | mem := List.mem_cons.mp mem
      · exact here.goes (forEach_cancelCmd_goes l _)
      · exact cancelled k mem
    · rw [List.mem_cons, not_or] at out
      exact (others k out.2).trans (cancelCmd_ne live stage out.1)

/-! ### CMD_CANCEL -/

/-- The commands that a CMD_CANCEL reaches. -/
def cancelled (s : State) (c : Cmd) : List Cmd :=
  s.cmds.filter fun z => z.tenant == c.tenant && z.pkt.tag == cmdParam c 0 && decide (z.order < c.order) && cancellable z

/-- The work of a CMD_CANCEL before the scheduler runs. -/
def cancelWork (h : Nat) (c : Cmd) (s : State) : State :=
  finishCmd h [] (handlesOf (cancelled s c)).length
    (modCmd h (fun x => { x with targets := handlesOf (cancelled s c) }) (forEach cancelCmd (handlesOf (cancelled s c)) s))

theorem exec_cmdCancel {s : State} {h : Nat} {c : Cmd} (run : Running s h 0x0106 c) : exec (.cmdCancel h) s = .next (schedule (cancelWork h c s)) := by
  show execCmdCancel h s = _
  unfold execCmdCancel
  rw [runCmd_next run]
  rfl

theorem modCmd_targets_goes (h : Nat) (l : List Nat) (s : State) : CmdsGo s (modCmd h (fun x => { x with targets := l }) s) :=
  modCmd_goes _ _ _ (CmdsGo.refl s) fun _ => ⟨⟨rfl, rfl, rfl, rfl, rfl⟩, fun _ m => m, id, id⟩

theorem cancelWork_goes (h : Nat) (c : Cmd) (s : State) : CmdsGo (forEach cancelCmd (handlesOf (cancelled s c)) s) (cancelWork h c s) :=
  (modCmd_targets_goes _ _ _).trans (finishCmd_goes _ _ _ _ (CmdsGo.refl _))

theorem mem_of_getCmd? {s : State} {h : Nat} {c : Cmd} (live : getCmd? s h = some c) : c ∈ s.cmds := List.mem_of_find?_eq_some live

/-- Settles O9. At a waiting command's turn it is admitted or has ended, and every branch for these adds ST_CANCELLED; where none
of them has been dispatched, each turn changes that one command, so CMD_CANCEL itself is as it was. -/
theorem cancelEndsWaitingCommands : Obligations.CancelEndsWaitingCommands := by
  unfold Obligations.CancelEndsWaitingCommands
  intro s h c run
  have goes := cancelWork_goes h c s
  have swept := forEach_cancelCmd_goes (handlesOf (cancelled s c)) s
  refine ⟨cancelWork h c s, exec_cmdCancel run, ?done, swept.trans goes, fun x live tenant tag order stage op => ?each, fun l el waiting => ?all⟩
  case done =>
    obtain ⟨d, live, -⟩ := (swept.trans (modCmd_targets_goes h _ _)).get h c run.1
    exact done_finishCmd _ _ live
  case each =>
    refine CancelledAt.goes (forEach_cancelCmd_cancels live (by rw [stage]; decide) op ?_) goes
    refine List.mem_map_of_mem (List.mem_filter.mpr ⟨mem_of_getCmd? live, ?_⟩)
    simp [tenant, tag, order, cancellable, op]
  case all =>
    obtain rfl : l = cancelled s c := el
    have ready : ∀ k ∈ handlesOf (cancelled s c), ∃ z, getCmd? s k = some z ∧ (z.stage = .admitted ∨ z.stage = .done ∧ stCancelled ∈ z.outcomes) := by
      intro k mem
      obtain ⟨z, inside, rfl⟩ := List.mem_map.mp mem
      exact ⟨z, (waiting z inside).2, .inl (waiting z inside).1⟩
    obtain ⟨ended, others⟩ := forEach_cancelCmd_waiting _ s ready
    refine ⟨fun z mem => (ended _ (List.mem_map_of_mem mem)).goes goes, ?_⟩
    have itself : h ∉ handlesOf (cancelled s c) := by
      intro mem
      obtain ⟨z, inside, rfl⟩ := List.mem_map.mp mem
      obtain rfl : z = c := Option.some.inj ((waiting z inside).2.symm.trans run.1)
      have := (List.mem_filter.mp inside).2
      simp at this
    have live := (others h itself).trans run.1
    have told := ended_finishCmd [] (handlesOf (cancelled s c)).length
      (getCmd?_modCmd (fun x : Cmd => { x with targets := handlesOf (cancelled s c) }) rfl live) run.2.1
    rw [show (cancelled s c).length = (handlesOf (cancelled s c)).length from (List.length_map _).symm]
    exact told

end Sys2Proof.Machine

/-! TENANT_PAUSE and TENANT_RESUME (12 R296; 17 R400): what a pause makes of the tenant's runs. -/

namespace Sys2Proof.Machine

/-! ### The runs of a tenant -/

/-- The tenant and the state of a run. -/
def runMark (r : Nat) (s : State) : Option (Nat × RunState) := (getRun? s r).map fun y => (y.tenant, y.state)

section
variable {s : State} {r q : Nat}

theorem getRun?_modRun {x : Run} (g : Run → Run) (there : getRun? s r = some x) : getRun? (modRun r g s) r = some (g x) := by
  unfold getRun? at there
  unfold getRun? modRun
  rw [there]
  exact tabGet?_tabPut_same ..

theorem getRun?_modRun_ne (g : Run → Run) (s : State) (other : r ≠ q) : getRun? (modRun q g s) r = getRun? s r := by
  unfold getRun? modRun
  split
  · exact tabGet?_tabPut_ne other ..
  · rfl

theorem modRun_absent {g : Run → Run} (absent : getRun? s r = none) : modRun r g s = s := by
  unfold getRun? at absent
  unfold modRun
  rw [absent]

/-- What changes neither tenant nor state of a run leaves every mark. -/
theorem runMark_modRun {g : Run → Run} (keep : ∀ x, (g x).tenant = x.tenant ∧ (g x).state = x.state) (s : State) : runMark r (modRun q g s) = runMark r s := by
  unfold runMark
  by_cases same : r = q
  · subst same
    cases there : getRun? s r with
    | none => rw [modRun_absent there, there]
    | some x => simp only [getRun?_modRun g there, Option.map_some, keep x]
  · rw [getRun?_modRun_ne g s same]

theorem runMark_of_runs {t : State} (e : t.runs = s.runs) (r : Nat) : runMark r t = runMark r s := by
  unfold runMark getRun?
  rw [e]

theorem wakeSource_runs (code : Nat) (idleToo : Bool) (s : State) : (wakeSource code idleToo s).runs = s.runs := by
  unfold wakeSource startWake
  dsimp only
  split
  · split
    · rfl
    split
    · rfl
    split <;> rfl
  · rfl

theorem tellOwner_runs (x : Release) (s : State) : (tellOwner x s).runs = s.runs := by
  unfold tellOwner
  split
  · rfl
  · exact wakeSource_runs ..

theorem ctrUpdate_runs (k v : Nat) (ws : List Wait) (s : State) : (ctrUpdate k v ws s).runs = s.runs := by
  refine (whenS_keeps State.runs (wakeSource_runs 8 false) ..).trans ?_
  exact forEach_keeps State.runs tellOwner_runs ..

theorem withdrawAll_runs (p : Wait → Bool) (s : State) : (withdrawAll p s).runs = s.runs :=
  forEach_keeps State.runs (fun k t => ctrUpdate_runs k _ _ t) ..

theorem pauseDone_runs (t : Nat) (s : State) : (pauseDone t s).runs = s.runs := by
  refine forEach_keeps State.runs (fun h u => ?_) ..
  split
  · dsimp only
    split <;> rfl
  · rfl

/-! ### A run that is paused -/

theorem saveBasins_runMark (s : State) : runMark r (saveBasins q s) = runMark r s := by
  unfold saveBasins
  split
  · rfl
  · refine (runMark_modRun ?_ _).trans (forEach_keeps (runMark r) (fun _ t => runMark_modRun ?_ t) ..) <;> exact fun _ => ⟨rfl, rfl⟩

/-- A run of the tenant that gives up its tiles or has done so. -/
def Pausing (T r : Nat) (s : State) : Prop := runMark r s = some (T, .pausing) ∨ runMark r s = some (T, .paused)

theorem Pausing.of_mark {T : Nat} {t : State} (pausing : Pausing T r s) (e : runMark r t = runMark r s) : Pausing T r t :=
  pausing.imp (e.trans ·) (e.trans ·)

/-- Pausing one run, when its last tile is free, leaves every other run's mark. -/
theorem checkPaused_mark_ne (other : r ≠ q) (s : State) : runMark r (checkPaused q s) = runMark r s := by
  unfold checkPaused
  split
  · rfl
  split
  · refine (runMark_of_runs (pauseDone_runs ..) r).trans ((runMark_of_runs (modFn_runs ..) r).trans ?_)
    refine Eq.trans ?_ (saveBasins_runMark (q := q) s)
    unfold runMark
    rw [getRun?_modRun_ne _ _ other]
  · rfl

theorem checkPaused_pausing {T : Nat} (pausing : Pausing T r s) : Pausing T r (checkPaused r s) := by
  unfold checkPaused
  split
  · exact pausing
  next x there =>
    split
    · have tenant : x.tenant = T := by
        have mark : runMark r s = some (x.tenant, x.state) := by
          unfold runMark
          rw [there]
          rfl
        obtain e | e := pausing <;> exact congrArg Prod.fst (Option.some.inj (mark.symm.trans e))
      refine .inr ((runMark_of_runs (pauseDone_runs ..) r).trans ((runMark_of_runs (modFn_runs ..) r).trans ?_))
      have saved : runMark r (saveBasins r s) = some (x.tenant, x.state) := by
        rw [saveBasins_runMark]
        unfold runMark
        rw [there]
        rfl
      unfold runMark at saved
      obtain ⟨y, live, mark⟩ := Option.map_eq_some_iff.mp saved
      unfold runMark
      rw [getRun?_modRun _ live]
      exact congrArg (fun t => some (t, RunState.paused)) ((congrArg Prod.fst mark).trans tenant)
    · exact pausing

/-- The tiles of a run that stop at once. -/
theorem stopTiles_runs (r : Nat) (s : State) :
    (forEach (fun t u =>
      if ((getTile u t).ctx.map (·.run)) = some r then
        match (getTile u t).phase with
        | .head => modTile t (fun y => { y with phase := .saving }) u
        | .stopped => clearTile t u
        | _ => u
      else u) (List.range 32) s).runs = s.runs := by
  refine forEach_keeps State.runs (fun t u => ?_) ..
  split
  · split <;> rfl
  · rfl

theorem pauseRun_mark_ne (other : r ≠ q) (s : State) : runMark r (pauseRun q s) = runMark r s := by
  unfold pauseRun
  split
  · rfl
  split
  · rfl
  · refine (checkPaused_mark_ne other _).trans ((runMark_of_runs (withdrawAll_runs ..) r).trans ((runMark_of_runs (stopTiles_runs ..) r).trans ?_))
    unfold runMark
    rw [getRun?_modRun_ne _ _ other]

theorem pauseRun_running {x : Run} (there : getRun? s r = some x) (running : x.state = .running) : Pausing x.tenant r (pauseRun r s) := by
  unfold pauseRun
  rw [there]
  dsimp only
  rw [if_neg (by simp [running])]
  refine checkPaused_pausing (.inl ((runMark_of_runs (withdrawAll_runs ..) r).trans ((runMark_of_runs (stopTiles_runs ..) r).trans ?_)))
  unfold runMark
  rw [getRun?_modRun _ there]
  rfl

theorem pauseRun_idle {x : Run} (there : getRun? s r = some x) (idle : x.state ≠ .running) : pauseRun r s = s := by
  unfold pauseRun
  rw [there]
  exact if_pos idle

/-- A run that is pausing or paused stays so while any run is paused. -/
theorem Pausing.pauseRun {T : Nat} (pausing : Pausing T r s) (q : Nat) : Pausing T r (pauseRun q s) := by
  by_cases same : r = q
  · subst same
    have there : ∃ y, getRun? s r = some y ∧ y.state ≠ .running := by
      obtain e | e := pausing <;> obtain ⟨y, live, mark⟩ := Option.map_eq_some_iff.mp e <;>
        exact ⟨y, live, fun running => absurd ((congrArg Prod.snd mark).symm.trans running) (by rintro ⟨⟩)⟩
    obtain ⟨y, live, idle⟩ := there
    rw [pauseRun_idle live idle]
    exact pausing
  · exact pausing.of_mark (pauseRun_mark_ne same s)

theorem pauseRun_active {x : Run} (there : getRun? s r = some x) (active : x.state = .running ∨ x.state = .pausing) : Pausing x.tenant r (pauseRun r s) := by
  obtain running | pausing := active
  · exact pauseRun_running there running
  · rw [pauseRun_idle there (by rw [pausing]; decide)]
    refine .inl ?_
    unfold runMark
    rw [there, Option.map_some, pausing]

/-- Of runs paused in turn, one that held tiles gives them up. -/
theorem forEach_pauseRun {x : Run} {l : List Nat} {s : State} (there : getRun? s r = some x) (active : x.state = .running ∨ x.state = .pausing)
    (mem : r ∈ l) : Pausing x.tenant r (forEach pauseRun l s) := by
  have kept (m : List Nat) (t : State) (pausing : Pausing x.tenant r t) : Pausing x.tenant r (forEach pauseRun m t) := by
    induction m generalizing t with
    | nil => exact pausing
    | cons q m ih => exact ih _ (pausing.pauseRun q)
  have reached (m : List Nat) (t : State) (mark : runMark r t = some (x.tenant, x.state)) (mem : r ∈ m) : Pausing x.tenant r (forEach pauseRun m t) := by
    induction m generalizing t with
    | nil => exact absurd mem List.not_mem_nil
    | cons q m ih =>
      by_cases same : r = q
      · subst same
        obtain ⟨y, live, e⟩ := Option.map_eq_some_iff.mp mark
        have state : y.state = x.state := congrArg Prod.snd e
        have := pauseRun_active live (state ▸ active)
        rw [show y.tenant = x.tenant from congrArg Prod.fst e] at this
        exact kept m _ this
      · exact ih _ ((pauseRun_mark_ne same t).trans mark) ((List.mem_cons.mp mem).resolve_left same)
  refine reached l s ?_ mem
  unfold runMark
  rw [there]
  rfl

end

/-! ### The commands -/

theorem mem_of_tabGet? {α : Type} {k : Nat} {x : α} {t : Tab α} (there : tabGet? k t = some x) : (k, x) ∈ t := by
  induction t with
  | nil => exact absurd there (by simp [tabGet?])
  | cons e t ih =>
    obtain ⟨j, y⟩ := e
    unfold tabGet? at there
    split at there
    next same =>
      subst same
      exact Option.some.inj there ▸ List.mem_cons_self
    next => exact List.mem_cons_of_mem _ (ih there)

theorem activeRuns_eq_nil {s : State} {T : Nat} (idle : ∀ r ∈ s.runs, r.2.tenant = T → r.2.state ≠ .running ∧ r.2.state ≠ .pausing) : activeRuns s T = [] := by
  unfold activeRuns
  rw [List.map_eq_nil_iff, List.filter_eq_nil_iff]
  intro e mem active
  rw [Bool.and_eq_true, Bool.or_eq_true] at active
  obtain ⟨running, pausing⟩ := idle e mem (by simpa using active.1)
  obtain state | state := active.2
  · exact running (by simpa using state)
  · exact pausing (by simpa using state)

theorem mem_activeRuns {s : State} {T r : Nat} {x : Run} (mem : (r, x) ∈ s.runs) (tenant : x.tenant = T) (active : x.state = .running ∨ x.state = .pausing) :
    r ∈ activeRuns s T := by
  refine List.mem_map.mpr ⟨(r, x), List.mem_filter.mpr ⟨mem, ?_⟩, rfl⟩
  obtain state | state := active <;> simp [tenant, state]

/-- TENANT_PAUSE has taken hold of its tenant. -/
def paused (h T : Nat) (s : State) : State :=
  pauseDone T (forEach pauseRun (activeRuns s T) (modCmd h (fun x => { x with targets := activeRuns s T }) (modTen T (fun x => { x with held := true }) s)))

theorem exec_tenantPause {s : State} {h : Nat} {c : Cmd} (run : Running s h 0x0107 c) : exec (.tenantPause h) s = .next
    (if (activeRuns s (cmdParam c 1)).isEmpty then finishCmd h [] c.admitTime (modTen (cmdParam c 1) (fun x => { x with held := true }) s)
      else schedule (paused h (cmdParam c 1) s)) := by
  show execTenantPause h s = _
  unfold execTenantPause
  rw [runCmd_next run]
  rfl

theorem paused_work (h T : Nat) (s : State) : WorkOnly (modCmd h (fun x => { x with targets := activeRuns s T }) (modTen T (fun x => { x with held := true }) s)) (paused h T s) :=
  pauseDone_work _ _ (forEach_work _ _ _ (fun r t work => pauseRun_work r t work) (WorkOnly.refl _))

theorem paused_goes (h T : Nat) (s : State) : CmdsGo s (paused h T s) := by
  refine pauseDone_goes _ _ (forEach_goes _ _ _ (fun r t go => pauseRun_goes r t go) ?_)
  exact (CmdsGo.of_cmds_eq (modTen_cmds ..)).trans (modCmd_targets_goes ..)

theorem paused_tenants (h T : Nat) (s : State) : (paused h T s).tenants = (modTen T (fun x => { x with held := true }) s).tenants := by
  rw [paused_work h T s]
  rfl

/-- The waking of the module touches the power management alone. -/
theorem wakeSource_pm {code : Nat} (known : code ≤ 7) (idleToo : Bool) (s : State) : wakeSource code idleToo s = { s with pm := (wakeSource code idleToo s).pm } := by
  unfold wakeSource startWake
  dsimp only
  rw [if_pos known]
  split
  · split
    · rfl
    split <;> rfl
  · rfl

/-- TENANT_RESUME has lifted the hold, and the module may wake. -/
def resumed (h T : Nat) (s : State) : State :=
  let t := finishCmd h [] 0 (modTen T (fun x => { x with held := false }) s)
  whenS ((getTen s T).held && t.runs.any fun e => e.2.tenant == T && e.2.state == .paused && runReady t e.2) (wakeSource 7 true) t

theorem exec_tenantResume {s : State} {h : Nat} {c : Cmd} (run : Running s h 0x0108 c) :
    exec (.tenantResume h) s = .next (schedule (resumed h (cmdParam c 1) s)) := by
  show execTenantResume h s = _
  unfold execTenantResume
  rw [runCmd_next run]
  rfl

theorem resumed_eq (h T : Nat) (s : State) :
    resumed h T s = { finishCmd h [] 0 (modTen T (fun x => { x with held := false }) s) with pm := (resumed h T s).pm } := by
  unfold resumed whenS
  dsimp only
  split
  · exact wakeSource_pm (by decide) _ _
  · rfl

/-- Settles O11. A run that held tiles is in the list that the pause goes through, and once it is pausing it stays so. -/
theorem pauseHoldsAndResumeLifts : Obligations.PauseHoldsAndResumeLifts := by
  unfold Obligations.PauseHoldsAndResumeLifts
  intro s h c x tenant
  refine ⟨fun run idle => ?atOnce, fun run active => ?waits, fun run => ?resume⟩
  case atOnce =>
    have live : getCmd? (modTen (cmdParam c 1) (fun x => { x with held := true }) s) h = some c := (getCmd?_of_cmds_eq (modTen_cmds ..) h).trans run.1
    refine ⟨_, (exec_tenantPause run).trans (next_congr (if_pos ?_)), ended_finishCmd [] _ live run.2.1, getTen?_modTen _ tenant,
      fun k other => getTen?_modTen_ne _ s other, ?_⟩
    · rw [activeRuns_eq_nil idle]
      rfl
    · show finishCmd h [] c.admitTime (modTen (cmdParam c 1) _ s) = _
      rw [modTen_eq]
      rfl
  case waits =>
    obtain ⟨e, mem, own, state⟩ := active
    have some_ : ¬(activeRuns s (cmdParam c 1)).isEmpty = true := by
      rw [List.isEmpty_iff]
      exact List.ne_nil_of_mem (mem_activeRuns (r := e.1) mem own state)
    refine ⟨paused h (cmdParam c 1) s, (exec_tenantPause run).trans (next_congr (if_neg some_)), paused_goes .., ?_, fun k other => ?_, fun r y there own state => ?_⟩
    · exact (getTen?_congr (paused_tenants ..) _).trans (getTen?_modTen _ tenant)
    · exact (getTen?_congr (paused_tenants ..) _).trans (getTen?_modTen_ne _ s other)
    · have start : getRun? (modCmd h (fun x => { x with targets := activeRuns s (cmdParam c 1) }) (modTen (cmdParam c 1) (fun x => { x with held := true }) s)) r = some y :=
        (congrArg (tabGet? r) (modTen_runs ..)).trans there
      have pausing := (forEach_pauseRun start state (mem_activeRuns (mem_of_tabGet? there) own state)).of_mark (runMark_of_runs (pauseDone_runs (cmdParam c 1) _) r)
      obtain mark | mark := pausing
      · obtain ⟨z, live, e⟩ := Option.map_eq_some_iff.mp mark
        exact ⟨z, live, congrArg Prod.fst e, .inl (congrArg Prod.snd e)⟩
      · obtain ⟨z, live, e⟩ := Option.map_eq_some_iff.mp mark
        exact ⟨z, live, congrArg Prod.fst e, .inr (congrArg Prod.snd e)⟩
  case resume =>
    have live : getCmd? (modTen (cmdParam c 1) (fun x => { x with held := false }) s) h = some c := (getCmd?_of_cmds_eq (modTen_cmds ..) h).trans run.1
    refine ⟨resumed h (cmdParam c 1) s, exec_tenantResume run, ?_, fun k other => ?_, ?_, fun k other => ?_, ?_⟩ <;> rw [resumed_eq]
    · exact ended_finishCmd [] 0 live run.2.1
    · exact ((onlyCmd_finishCmd _ h [] 0).2 k other).trans (getCmd?_of_cmds_eq (modTen_cmds ..) k)
    · exact getTen?_modTen _ tenant
    · exact getTen?_modTen_ne _ s other
    · rw [modTen_eq]
      rfl

end Sys2Proof.Machine

/-! Tenants come and go (12 R281 to R287; 08 R192). -/

namespace Sys2Proof.Machine

/-! ### Room for the context area -/

theorem mapRange_granules {mode stack n g : Nat} {context : Bool} {s u : State} (mapped : mapRange mode stack context n g s = some u) :
    u = { s with granules := u.granules } := by
  induction n generalizing g s with
  | zero => exact Option.some.inj mapped ▸ rfl
  | succ n ih =>
    unfold mapRange at mapped
    split at mapped
    · split at mapped
      · have mapped' := ih mapped
        exact mapped'
      · exact absurd mapped (by simp)
    · split at mapped
      · have mapped' := ih mapped
        exact mapped'
      · exact absurd mapped (by simp)

theorem placeContext_granules {s u : State} {len base : Nat} (placed : placeContext s len = some (base, u)) : u = { s with granules := u.granules } := by
  unfold placeContext at placed
  split at placed
  · exact absurd placed (by simp)
  · obtain ⟨t, mapped, e⟩ := Option.map_eq_some_iff.mp placed
    obtain ⟨-, rfl⟩ := Prod.mk.inj e
    exact mapRange_granules mapped

/-! ### TENANT_CREATE -/

section
variable (base n k : Nat) (s : State)

theorem ctrVal_zeroCounters : ctrVal (zeroCounters base n s) k = if base ≤ k ∧ k < base + n then 0 else ctrVal s k := by
  unfold ctrVal zeroCounters tabGetD
  dsimp only
  rw [tabGet?_filter fun k => !decide (base ≤ k ∧ k < base + n)]
  by_cases inside : base ≤ k ∧ k < base + n
  · rw [if_neg (by simp [inside]), if_pos inside]
    rfl
  · rw [if_pos (by rw [decide_eq_false inside]; rfl), if_neg inside]

end

/-- What TENANT_CREATE leaves, its context area placed. -/
def created (h T : Nat) (p : Profile) (base : Nat) (u : State) : State := finishCmd h [] 0 (addTenant T p base u)

section
variable (h T : Nat) (p : Profile) (base : Nat) (u : State)

theorem getTen?_created : getTen? (created h T p base u) T = some ⟨p, false, false, [], [], 0, base⟩ := tabGet?_tabPut_same ..

theorem getTen?_created_ne {k : Nat} (other : k ≠ T) : getTen? (created h T p base u) k = getTen? u k := tabGet?_tabPut_ne other ..

theorem ctrVal_created (k : Nat) : ctrVal (created h T p base u) k = if p.ctrBase ≤ k ∧ k < p.ctrBase + p.ctrCount then 0 else ctrVal u k :=
  ctrVal_zeroCounters p.ctrBase p.ctrCount k { u with tenants := tabPut T ⟨p, false, false, [], [], 0, base⟩ u.tenants }

/-- The tenant with zero counters, its rings not checked yet. -/
def unchecked : State := zeroCounters p.ctrBase p.ctrCount { u with tenants := tabPut T ⟨p, false, false, [], [], 0, base⟩ u.tenants }

theorem getFn_created_ne {f : Nat} (other : f ≠ T) : getFn (created h T p base u) f = getFn u f := by
  show getFn (checkRings T (unchecked T p base u)) f = getFn (unchecked T p base u) f
  exact getFn_modFn_ne _ _ other

theorem getFn_created : getFn (created h T p base u) T =
    { getFn u T with cqBad := (getFn (created h T p base u) T).cqBad, sq0Bad := (getFn (created h T p base u) T).sq0Bad } := by
  have rings : getFn (created h T p base u) T = getFn (checkRings T (unchecked T p base u)) T := rfl
  have fns : getFn u T = getFn (unchecked T p base u) T := rfl
  rw [rings, fns]
  unfold checkRings
  rw [getFn_modFn]

theorem created_eq : created h T p base u = { u with cmds := (created h T p base u).cmds, tenants := (created h T p base u).tenants,
                                                     ctrs := (created h T p base u).ctrs, fns := (created h T p base u).fns } := rfl

end

theorem exec_tenantCreate {s u : State} {h base : Nat} {c : Cmd} {p : Profile} (ep : p = parseProfile (hostRead s (cmdParam c 0) 128))
    (run : Running s h 0x0101 c) (free : getTen? s (cmdParam c 1) = none)
    (undestroyed : ∀ x ∈ s.cmds, x.pkt.opcode = 0x0102 → cmdParam x 1 ≠ cmdParam c 1)
    (sound : profileOk (hostRead s (cmdParam c 0) 128) = true) (clear : rangesClear s p = true) (sums : sumsOk s p = true) (quota : contextLen p ≤ p.stackQuota)
    (placed : placeContext (hostFetch c.tenant (cmdParam c 0) 128 s) (contextLen p) = some (base, u)) :
    exec (.tenantCreate h) s = .next (created h (cmdParam c 1) p base u) := by
  show execTenantCreate h s = _
  unfold execTenantCreate
  rw [runCmd_next run]
  dsimp only
  have absent : ¬((getTen? (hostFetch c.tenant (pk c.pkt 0) 128 s) (pk c.pkt 1)).isSome = true ∨
      (hostFetch c.tenant (pk c.pkt 0) 128 s).cmds.any (fun x => x.pkt.opcode == 0x0102 && pk x.pkt 1 == pk c.pkt 1) = true) := by
    rintro (there | destroyed)
    · exact absurd (show (getTen? s (cmdParam c 1)).isSome = true from there) (by rw [free]; decide)
    · obtain ⟨x, mem, same⟩ := List.any_eq_true.mp destroyed
      rw [Bool.and_eq_true, beq_iff_eq, beq_iff_eq] at same
      exact undestroyed x mem same.1 same.2
  have fits : ¬(!rangesClear (hostFetch c.tenant (pk c.pkt 0) 128 s) p || !sumsOk (hostFetch c.tenant (pk c.pkt 0) 128 s) p ||
      decide (p.stackQuota < contextLen p)) = true := by
    rw [show rangesClear (hostFetch c.tenant (pk c.pkt 0) 128 s) p = true from clear, show sumsOk (hostFetch c.tenant (pk c.pkt 0) 128 s) p = true from sums]
    simpa using quota
  have profile : parseProfile (hostRead s (pk c.pkt 0) 128) = p := ep.symm
  rw [if_neg absent, if_neg (by rw [show profileOk (hostRead s (pk c.pkt 0) 128) = true from sound]; decide), profile, if_neg fits,
    show placeContext (hostFetch c.tenant (pk c.pkt 0) 128 s) (contextLen p) = some (base, u) from placed]
  rfl

theorem tenantIs_completed {s t : State} {h T : Nat} {c : Cmd} (recorded : Recorded s t c) (handle : c.handle = h) (there : (getTen? s T).isSome = true)
    (alone : ∀ x ∈ s.cmds, x.handle ≠ h → x.pkt.opcode = 0x0101 → cmdParam x 1 ≠ T) : tenantIs t T = true := by
  have tenants : t.tenants = s.tenants := by rw [recorded.1]
  have cmds : t.cmds = s.cmds.filter fun x => x.handle != c.handle := by rw [recorded.1]
  unfold tenantIs
  rw [tenants, cmds, Bool.and_eq_true]
  refine ⟨there, ?_⟩
  rw [Bool.not_eq_true', List.any_eq_false]
  intro x mem same
  rw [Bool.and_eq_true, beq_iff_eq, beq_iff_eq] at same
  rw [List.mem_filter, bne_iff_ne, handle] at mem
  exact alone x mem.1 mem.2 same.1 same.2

theorem tenantIs_creating {s : State} {h T : Nat} {c : Cmd} (live : getCmd? s h = some c) (op : c.pkt.opcode = 0x0101) (eT : cmdParam c 1 = T) : tenantIs s T = false := by
  unfold tenantIs
  rw [Bool.and_eq_false_iff, Bool.not_eq_false', List.any_eq_true]
  exact .inr ⟨c, mem_of_getCmd? live, by rw [Bool.and_eq_true, beq_iff_eq, beq_iff_eq]; exact ⟨op, eT⟩⟩

/-! ### TENANT_DESTROY -/

/-- Every live command of the tenant is cancelled, and the command waits for them. -/
def destroying (h T : Nat) (s : State) : State :=
  modCmd h (fun x => { x with value := (liveOf s T).length, targets := liveOf s T }) (forEach cancelCmd (liveOf s T) s)

theorem exec_tenantDestroy {s : State} {h : Nat} {c : Cmd} (run : Running s h 0x0102 c) : exec (.tenantDestroy h) s = .next
    (if !(liveOf s (cmdParam c 1)).isEmpty then schedule (destroying h (cmdParam c 1) s)
      else if s.fops.any (fun o => o.2.tenant == cmdParam c 1) then s else finishCmd h [] c.value s) := by
  show execTenantDestroy h s = _
  unfold execTenantDestroy
  rw [runCmd_next run]
  rfl

theorem destroying_modCmd_goes (h T : Nat) (s : State) : CmdsGo (forEach cancelCmd (liveOf s T) s) (destroying h T s) :=
  modCmd_goes _ _ _ (CmdsGo.refl _) fun _ => ⟨⟨rfl, rfl, rfl, rfl, rfl⟩, fun _ m => m, id, id⟩

theorem mem_liveOf {s : State} {T : Nat} {x : Cmd} (mem : x ∈ s.cmds) (own : x.tenant = T) : x.handle ∈ liveOf s T :=
  List.mem_map_of_mem (List.mem_filter.mpr ⟨mem, by simpa using own⟩)

theorem liveOf_eq_nil {s : State} {T : Nat} (none_ : ∀ x ∈ s.cmds, x.tenant ≠ T) : liveOf s T = [] := by
  unfold liveOf handlesOf
  rw [List.map_eq_nil_iff, List.filter_eq_nil_iff]
  intro x mem own
  exact none_ x mem (by simpa using own)

section
variable (T : Nat) (s : State)

theorem freeTenant_eq : freeTenant T s =
    { s with tenants := (freeTenant T s).tenants, allocs := (freeTenant T s).allocs, bundles := (freeTenant T s).bundles, runs := (freeTenant T s).runs,
             adapters := (freeTenant T s).adapters, granules := (freeTenant T s).granules, fns := (freeTenant T s).fns } := rfl

theorem mem_filter_tenant_ne {α : Type} (tenant : α → Nat) (l : Tab α) (e : Nat × α) :
    e ∈ l.filter (fun e => tenant e.2 != T) ↔ e ∈ l ∧ tenant e.2 ≠ T := by
  rw [List.mem_filter, bne_iff_ne]

theorem mem_freeTenant_allocs (e : Nat × Alloc) : e ∈ (freeTenant T s).allocs ↔ e ∈ s.allocs ∧ e.2.tenant ≠ T :=
  mem_filter_tenant_ne T Alloc.tenant s.allocs e

theorem mem_freeTenant_bundles (e : Nat × Bundle) : e ∈ (freeTenant T s).bundles ↔ e ∈ s.bundles ∧ e.2.tenant ≠ T :=
  mem_filter_tenant_ne T Bundle.tenant s.bundles e

theorem mem_freeTenant_runs (e : Nat × Run) : e ∈ (freeTenant T s).runs ↔ e ∈ s.runs ∧ e.2.tenant ≠ T :=
  mem_filter_tenant_ne T Run.tenant s.runs e

theorem mem_freeTenant_adapters (e : Nat × Adapter) : e ∈ (freeTenant T s).adapters ↔ e ∈ s.adapters ∧ e.2.tenant ≠ T :=
  mem_filter_tenant_ne T Adapter.tenant s.adapters e

theorem getFn_freeTenant : getFn (freeTenant T s) T = { getFn s T with queues := [], sq0 := { (getFn s T).sq0 with head := (getFn s T).sq0.tail } } :=
  getFn_modFn ..

theorem getFn_freeTenant_ne {f : Nat} (other : f ≠ T) : getFn (freeTenant T s) f = getFn s f := getFn_modFn_ne _ _ other

end

/-! ### The statement -/

/-- Settles O10. -/
theorem tenantsComeAndGo : Obligations.TenantsComeAndGo := by
  unfold Obligations.TenantsComeAndGo
  refine ⟨fun s u h base c p ep => ⟨fun run free undestroyed sound clear sums quota placed => ?create, fun ready there alone => ?born⟩,
    fun s h T c eT => ⟨fun run some_ => ?cancel, fun run none_ landed => ?ends, fun ready => ?gone⟩⟩
  case create =>
    have row := exec_tenantCreate ep run free undestroyed sound clear sums quota placed
    have frame := placeContext_granules placed
    have tenants : u.tenants = s.tenants := by rw [frame]; rfl
    have cmds : u.cmds = s.cmds := by rw [frame]; rfl
    have fns (f : Nat) : getFn u f = getFn s f := by rw [frame]; rfl
    have ctrs : u.ctrs = s.ctrs := by rw [frame]; rfl
    have value (k : Nat) : ctrVal u k = ctrVal s k := congrArg (fun x : Counters => tabGetD 0 k x.vals) ctrs
    refine ⟨_, row, (finishCmd_ends (value := 0) run (u := addTenant (cmdParam c 1) p base u) cmds).1, getTen?_created .., fun k other => ?_, fun k low high => ?_,
      fun k outside => ?_, ?_, fun f other => ?_, ?_, ?_⟩
    · exact (getTen?_created_ne h _ p base u other).trans (getTen?_congr tenants k)
    · rw [ctrVal_created, if_pos ⟨low, high⟩]
    · rw [ctrVal_created, if_neg (by omega), value]
    · have waits : (created h (cmdParam c 1) p base u).ctrs.waits = u.ctrs.waits := rfl
      rw [waits, ctrs]
    · rw [getFn_created_ne h _ p base u other, fns]
    · rw [← fns]
      exact getFn_created ..
    · rw [created_eq, frame]
      rfl
  case born =>
    obtain ⟨t, row, recorded⟩ := exec_completing ready (by decide)
    have effect : completed c s = s := by simp only [completed, ready.2.2.1]
    rw [effect] at recorded
    exact ⟨t, row, recorded, tenantIs_creating ready.1 ready.2.2.1 rfl, tenantIs_completed recorded (getCmd?_handle ready.1) there alone⟩
  case cancel =>
    subst eT
    obtain ⟨x, mem, own⟩ := some_
    have some_ : (!(liveOf s (cmdParam c 1)).isEmpty) = true := by
      rw [Bool.not_eq_true', List.isEmpty_eq_false_iff]
      exact List.ne_nil_of_mem (mem_liveOf mem own)
    have swept := forEach_cancelCmd_goes (liveOf s (cmdParam c 1)) s
    obtain ⟨d, live, -⟩ := swept.get h c run.1
    refine ⟨destroying h (cmdParam c 1) s, { d with value := (liveOf s (cmdParam c 1)).length, targets := liveOf s (cmdParam c 1) },
      (exec_tenantDestroy run).trans (next_congr (if_pos some_)), swept.trans (destroying_modCmd_goes ..), ?_, rfl, rfl, fun x live own stage op => ?_⟩
    · refine getCmd?_modCmd _ ?_ live
      rfl
    · exact CancelledAt.goes (forEach_cancelCmd_cancels live (by rw [stage]; decide) op (mem_liveOf (mem_of_getCmd? live) own)) (destroying_modCmd_goes ..)
  case ends =>
    subst eT
    refine ⟨_, (exec_tenantDestroy run).trans (next_congr ?_), ended_finishCmd [] _ run.1 run.2.1, onlyCmd_finishCmd ..⟩
    rw [liveOf_eq_nil none_, if_neg (by decide), if_neg]
    rw [List.any_eq_true]
    rintro ⟨o, mem, own⟩
    exact landed o mem (by simpa using own)
  case gone =>
    subst eT
    obtain ⟨t, row, recorded⟩ := exec_completing ready (by decide)
    have effect : completed c s = schedule (freeTenant (cmdParam c 1) s) := by
      simp only [completed, ready.2.2.1]
      rfl
    rw [effect] at recorded
    refine ⟨freeTenant (cmdParam c 1) s, t, row, recorded, tabGet?_tabDel_same .., fun k other => tabGet?_tabDel_ne other .., mem_freeTenant_allocs _ s,
      mem_freeTenant_bundles _ s, mem_freeTenant_runs _ s, mem_freeTenant_adapters _ s, ?_, ?_, fun f other => getFn_freeTenant_ne _ s other, freeTenant_eq ..⟩ <;>
      rw [getFn_freeTenant]

end Sys2Proof.Machine

/-! What stands while runs pause, tests end and an orderly stop takes hold (12 R293; 16 R392; 17 R416): whatever a `Still` projection
looks at. -/

namespace Sys2Proof.Machine

namespace Still

variable {β : Type} {p : State → β} (still : Still p)
include still

section
variable (s : State)

theorem modTile (t : Nat) (g : Tile → Tile) : p (modTile t g s) = p s := still.work rfl

theorem modTest (g : SelfTest → SelfTest) : p (modTest g s) = p s := still.work rfl

theorem countSwitch (tenant since : Nat) : p (countSwitch tenant since s) = p s := still.fn _ _ _ (by exact fun _ => rfl)

theorem saveBasins (r : Nat) : p (saveBasins r s) = p s := by
  unfold Machine.saveBasins
  split
  · rfl
  · exact (still.modRun ..).trans (forEach_keeps p (fun _ t => still.modRun t _ _) ..)

theorem checkPaused (r : Nat) : p (checkPaused r s) = p s := by
  unfold Machine.checkPaused
  split
  · rfl
  split
  · exact (still.pauseDone ..).trans ((still.countSwitch ..).trans ((still.modRun ..).trans (still.saveBasins ..)))
  · rfl

theorem pauseRun (r : Nat) : p (pauseRun r s) = p s := by
  unfold Machine.pauseRun
  split
  · rfl
  split
  · rfl
  · refine (still.checkPaused ..).trans ((still.withdrawAll ..).trans ((forEach_keeps p (fun t u => ?_) ..).trans (still.modRun ..)))
    split
    · split
      · exact still.modTile ..
      · exact still.clearTile ..
      · rfl
    · rfl

theorem stopCmd (h : Nat) : p (stopCmd h s) = p s := by
  have held : p (modCmd h (fun x => { x with stage := .admitted }) s) = p s := still.cmd _ _ _ (by exact fun _ => ⟨rfl, rfl⟩)
  unfold Machine.stopCmd
  split
  · rfl
  split
  · rfl
  split
  · exact (still.finishCmd ..).trans (still.scrambleDests ..)
  · exact (still.finishCmd ..).trans (still.scrambleDests ..)
  · exact (still.finishCmd ..).trans (still.scrambleDests ..)
  · exact (still.finishCmd ..).trans (still.dropPeerWork ..)
  · split
    · rfl
    · exact held
  · rfl
  · rfl
  · rfl
  · exact held

theorem abandonTest (u : UnitRef) : p (abandonTest u s) = p s := by
  have ended : p (forEach (fun h => Machine.finishCmd h [stDeviceFault] 0) ((s.test.running.filter fun x => x.unit == u).flatMap (·.cmds))
      (Machine.modTest (fun y => { y with running := y.running.filter fun x => x.unit != u }) s)) = p s :=
    (forEach_keeps p (fun h t => still.finishCmd t h _ _) ..).trans (still.modTest ..)
  unfold Machine.abandonTest
  dsimp only
  split
  · exact (still.modTile ..).trans ended
  · exact ended

theorem wakeForHeld : p (wakeForHeld s) = p s := by
  unfold Machine.wakeForHeld
  split
  · exact still.wakeSource ..
  · rfl

theorem thermalEvent (payload : List Nat) : p (thermalEvent payload s) = p s := (still.setCause ..).trans (still.event ..)

theorem flushAll : p (flushAll s) = p s :=
  forEach_keeps p (fun _ _ => forEach_keeps p (fun (e : MergeEntry) t => still.flushBlk t e.blk) ..) ..

end

end Still

/-- What an orderly stop goes by: its blocks, whether it is in force, and the levels. -/
def stopPart (s : State) : BitVec 14 × Bool × Tab Nat := (s.pm.stop, s.pm.stopHold, s.pm.level)

theorem stopPart_still : Still stopPart where
  work moves := by
    unfold WorkMoves at moves
    rw [moves]
    rfl
  event cls severity payload s := by
    rw [henuaEvent_eq]
    rfl
  fn _ _ _ _ := rfl
  cmd _ _ _ _ := rfl

end Sys2Proof.Machine

/-! An orderly stop and two live commands of one handle (17 R416). -/

namespace Sys2Proof.Machine

/-- An ATTEND of tenant 0 with handle 1 at a stage. -/
def attend1 (stage : Stage) : Cmd :=
  { handle := 1, order := 0, tenant := 0, sq := 0, pkt := ⟨0x0404, 0, 0, 0, 0, 0, 0, [], 0⟩, admitTime := 0, stage := stage, outcomes := [],
    value := 0, desc := none, binds := [], targets := [], rivals := [], silent := false }

/-- A module in service with two live commands of one handle, one dispatched and one that has ended. -/
def twoOfOneHandle : State :=
  { State.reset with
    board := { State.reset.board with pgood := true }
    cmds := [attend1 .running, attend1 .done] }

/-- The stages of the live commands after a step. -/
def stagesAfter : Res → List Stage
  | .next t => t.cmds.map (·.stage)
  | _ => []

/-- The stop sends both back to wait, the one that has ended as well. -/
theorem stagesAfter_stop : stagesAfter (exec (.sensorUpdate [(0, 880)]) twoOfOneHandle) = [.admitted, .admitted] := by decide +kernel

/-- What `CmdsGo` says of the commands that have ended. -/
theorem CmdsGo.second_done {s t : State} {a b c d : Cmd} (go : CmdsGo s t) (before : s.cmds = [a, b]) (after : t.cmds = [c, d]) (done : b.stage = .done) :
    d.stage = .done := by
  unfold CmdsGo at go
  rw [before, after] at go
  obtain _ | ⟨-, _ | ⟨goes, -⟩⟩ := go
  exact goes.done done

/-- Refutes O51: the statement is over every state, and says of a stop that every live command goes on. `stopCmd` goes by the
handle, so where two live commands have one handle, which admission never gives, one that has ended is made to wait again. -/
theorem not_temperatureAndPowerAreHeld : ¬ Obligations.TemperatureAndPowerAreHeld := by
  unfold Obligations.TemperatureAndPowerAreHeld
  intro holds
  obtain ⟨-, reading, -⟩ := holds twoOfOneHandle
  obtain ⟨-, stops⟩ := reading 0 0 3 880 880 (by decide) rfl rfl rfl rfl rfl rfl (by decide +kernel) (by decide +kernel) rfl rfl (by decide)
  obtain ⟨t, row, -, -, -, go⟩ := stops (by decide)
  have stages := stagesAfter_stop
  rw [row] at stages
  have stages : t.cmds.map (·.stage) = [.admitted, .admitted] := stages
  obtain ⟨c, l, cmds, -, rest⟩ := List.map_eq_cons_iff.mp stages
  obtain ⟨d, m, rfl, waits, none_⟩ := List.map_eq_cons_iff.mp rest
  obtain rfl := List.map_eq_nil_iff.mp none_
  exact absurd (waits.symm.trans (go.second_done rfl cmds rfl)) (by decide)

end Sys2Proof.Machine

/-! The window BAR4 (14 R339 to R341; 17 R416). -/

namespace Sys2Proof.Machine

theorem exec_bar4Read {fn : Nat} (there : fn < 64) (off len : Nat) (s : State) :
    exec (.bar4Read fn off len) s = .next (arrive (.winRead fn off (bar4Start (getFn s fn) + off) len) s) := onUnit_next (by simpa [fnOk] using there) _

theorem exec_bar4Write {fn : Nat} (there : fn < 64) (off : Nat) (bytes : List (Option Byte)) (s : State) :
    exec (.bar4Write fn off bytes) s = .next (arrive (.winWrite fn (bar4Start (getFn s fn) + off) bytes) s) := onUnit_next (by simpa [fnOk] using there) _

/-! ### Accesses that wait -/

section
variable (s : State)

theorem forEach_modStk_eq (g : Stack → Stack) (l : List Nat) : forEach (fun k => modStk k g) l s = { s with stks := (forEach (fun k => modStk k g) l s).stks } := by
  induction l generalizing s with
  | nil => rfl
  | cons k l ih =>
    have rest := ih (modStk k g s)
    exact rest

/-- An access that waits is added to those held; its controllers count it, and it may wake the module. -/
theorem holdAccess_frame (a : StackAccess) : ∃ h stks pm, h.acc = a ∧ holdAccess a s = { s with held := s.held ++ [h], stks := stks, pm := pm } := by
  have counted : ∃ stks, pushHeld ⟨a, now s, heldBySlice s a⟩ (forEach (fun k => modStk k fun x => { x with hostWait := x.hostWait + 1 }) (heldBySlice s a) s) =
      { s with held := s.held ++ [⟨a, now s, heldBySlice s a⟩], stks := stks } := by
    refine ⟨(forEach (fun k => modStk k fun x => { x with hostWait := x.hostWait + 1 }) (heldBySlice s a) s).stks, ?_⟩
    rw [forEach_modStk_eq]
    rfl
  obtain ⟨stks, counted⟩ := counted
  unfold holdAccess
  dsimp only
  rw [counted]
  split
  · exact ⟨_, stks, _, rfl, wakeSource_pm (by decide) _ _⟩
  · exact ⟨_, stks, _, rfl, wakeSource_pm (by decide) _ _⟩
  · exact ⟨_, stks, s.pm, rfl, rfl⟩

/-- An access that must wait waits as it arrived. -/
theorem arrive_waits {a : StackAccess} (waits : accessWaits s a = true) : ∃ t, arrive a s = t ∧ t.held.map (·.acc) = s.held.map (·.acc) ++ [a] ∧
    t.out = s.out ∧ t.mem = s.mem ∧ t = { s with held := t.held, stks := t.stks, pm := t.pm } := by
  obtain ⟨h, stks, pm, acc, e⟩ := holdAccess_frame s a
  refine ⟨_, if_pos waits, ?_⟩
  rw [e]
  exact ⟨by rw [List.map_append, List.map_singleton, acc], rfl, rfl, rfl⟩

theorem arrive_served {a : StackAccess} (free : accessWaits s a = false) : arrive a s = serveAccess a s := if_neg (by simp [free])

theorem not_waits_of_stop (stop : s.pm.stopHold = true) : (∀ fn off start len, accessWaits s (.winRead fn off start len) = false) ∧
    ∀ fn start bytes, accessWaits s (.winWrite fn start bytes) = false :=
  ⟨fun _ _ _ _ => by simp [accessWaits, stop], fun _ _ _ => by simp [accessWaits, stop]⟩

theorem winRead_waits {fn off start len : Nat} (go : s.pm.stopHold = false)
    (waits : behindWrite s.held fn = true ∨ powerEff s = .hold ∨ blksWait s (accessPhys s (.winRead fn off start len)) = true) :
    accessWaits s (.winRead fn off start len) = true := by
  unfold accessWaits
  dsimp only
  rw [go]
  obtain e | e | e := waits <;> simp [e]

theorem winWrite_waits {fn start : Nat} {bytes : List (Option Byte)} (go : s.pm.stopHold = false)
    (waits : behindWrite s.held fn = true ∨ powerEff s = .hold ∨ blksWait s (accessPhys s (.winWrite fn start bytes)) = true) :
    accessWaits s (.winWrite fn start bytes) = true := by
  unfold accessWaits
  dsimp only
  rw [go]
  obtain e | e | e := waits <;> simp [e]

end

/-! ### Accesses outside the window -/

/-- From `s` to `t` at most violations of function `fn` have been latched. -/
def ViolationsOnly (fn : Nat) (s t : State) : Prop :=
  t = { s with fns := t.fns } ∧ (∀ f, f ≠ fn → getFn t f = getFn s f) ∧ ((getFn s fn).bar4Viol = true → (getFn t fn).bar4Viol = true)

section
variable {fn : Nat} {s t u : State}

theorem ViolationsOnly.refl (fn : Nat) (s : State) : ViolationsOnly fn s s := ⟨rfl, fun _ _ => rfl, id⟩

theorem ViolationsOnly.trans (a : ViolationsOnly fn s t) (b : ViolationsOnly fn t u) : ViolationsOnly fn s u := by
  refine ⟨?_, fun f other => (b.2.1 f other).trans (a.2.1 f other), fun set => b.2.2 (a.2.2 set)⟩
  rw [b.1, a.1]

theorem violate_latches (fn off : Nat) (write : Bool) (s : State) : (getFn (violate fn off write s) fn).bar4Viol = true := by
  unfold violate
  rw [getFn_modFn]

theorem violate_violations (fn off : Nat) (write : Bool) (s : State) : ViolationsOnly fn s (violate fn off write s) :=
  ⟨rfl, fun _ other => getFn_modFn_ne _ s other, fun _ => violate_latches ..⟩

/-- The window does not depend on what is latched. -/
theorem ViolationsOnly.windowBlk (only : ViolationsOnly fn s t) (f : Nat) (write : Bool) (o : Nat) : windowBlk t f write o = windowBlk s f write o := by
  rw [only.1]
  rfl

/-- A read that meets no block of the window is answered by 0xFF throughout. -/
theorem bar4Blks_outside {l : List Nat} {s : State} (outside : ∀ x ∈ l, windowBlk s fn false x = false) :
    (bar4Blks fn l s).1 = (rep (64 * l.length) 0xFF, false) ∧ ViolationsOnly fn s (bar4Blks fn l s).2 ∧
      (l ≠ [] → (getFn (bar4Blks fn l s).2 fn).bar4Viol = true) := by
  induction l generalizing s with
  | nil => exact ⟨rfl, .refl fn s, fun some_ => absurd rfl some_⟩
  | cons o l ih =>
    have step : bar4Blks fn (o :: l) s =
        ((rep 64 0xFF ++ (bar4Blks fn l (violate fn o false s)).1.1, (bar4Blks fn l (violate fn o false s)).1.2), (bar4Blks fn l (violate fn o false s)).2) := by
      conv_lhs => unfold bar4Blks
      rw [outside o List.mem_cons_self]
      rfl
    have latched := violate_violations fn o false s
    obtain ⟨bytes, only, -⟩ := ih fun x mem => (latched.windowBlk fn false x).trans (outside x (List.mem_cons_of_mem o mem))
    rw [step, bytes]
    refine ⟨?_, latched.trans only, fun _ => only.2.2 (violate_latches ..)⟩
    unfold rep
    rw [List.replicate_append_replicate, List.length_cons, Nat.mul_add, Nat.add_comm]

theorem sliceB_rep {at_ len n : Nat} (b : Byte) (inside : at_ + len ≤ n) : sliceB (rep n b) at_ len = rep len b := by
  unfold sliceB rep
  dsimp only
  rw [List.drop_replicate, List.take_replicate, List.length_replicate, Nat.min_eq_left (by omega), Nat.sub_self, List.replicate_zero, List.append_nil]

theorem length_accessBlks (o len : Nat) : (accessBlks o len).length = (o + len + 63) / 64 - o / 64 := by
  unfold accessBlks
  rw [List.length_map, List.length_range]

/-! ### Writes by blocks -/

/-- The byte of a write that falls on byte `i` of the block at `o`. -/
def winSlot (start : Nat) (bytes : List (Option Byte)) (o i : Nat) : Option Byte :=
  if start ≤ o + i then ((bytes[o + i - start]?).getD none) else none

/-- The bytes of the block that the write gives. -/
def winMask (start : Nat) (bytes : List (Option Byte)) (o : Nat) : Nat :=
  ((List.range 64).map fun i => if (winSlot start bytes o i).isSome then 2 ^ i else 0).sum

theorem bar4Blk_eq (fn start : Nat) (bytes : List (Option Byte)) (o : Nat) (s : State) : bar4Blk fn start bytes o s =
    if winMask start bytes o = 0 then s
    else if windowBlk s fn true o ∧ unreachable s 2 o = false then
      repairShared fn o (winMask start bytes o) (writeBlk fn 2 0 o ((List.range 64).map fun i => (winSlot start bytes o i).getD 0) (winMask start bytes o) false 0 s)
    else violate fn o true s := rfl

theorem winMask_ne_zero {start o i : Nat} {bytes : List (Option Byte)} {y : Byte} (small : i < 64) (there : winSlot start bytes o i = some y) :
    winMask start bytes o ≠ 0 := by
  intro zero
  have all := List.sum_eq_zero_iff.mp zero _ (List.mem_map_of_mem (List.mem_range.mpr small))
  rw [there] at all
  exact absurd all (Nat.two_pow_pos i).ne'

theorem bar4Blk_outside {start o : Nat} {bytes : List (Option Byte)} {s : State} (outside : windowBlk s fn true o = false) :
    ViolationsOnly fn s (bar4Blk fn start bytes o s) ∧ (winMask start bytes o ≠ 0 → (getFn (bar4Blk fn start bytes o s) fn).bar4Viol = true) := by
  rw [bar4Blk_eq]
  by_cases none_ : winMask start bytes o = 0
  · rw [if_pos none_]
    exact ⟨.refl fn s, fun some_ => absurd none_ some_⟩
  · rw [if_neg none_, if_neg (by simp [outside])]
    exact ⟨violate_violations .., fun _ => violate_latches ..⟩

theorem forEach_bar4Blk_outside {start : Nat} {bytes : List (Option Byte)} {l : List Nat} {s : State} (outside : ∀ x ∈ l, windowBlk s fn true x = false) :
    ViolationsOnly fn s (forEach (bar4Blk fn start bytes) l s) ∧
      ((∃ o ∈ l, winMask start bytes o ≠ 0) → (getFn (forEach (bar4Blk fn start bytes) l s) fn).bar4Viol = true) := by
  induction l generalizing s with
  | nil => exact ⟨.refl fn s, fun ⟨_, mem, _⟩ => absurd mem List.not_mem_nil⟩
  | cons o l ih =>
    obtain ⟨first, latched⟩ := bar4Blk_outside (start := start) (bytes := bytes) (outside o List.mem_cons_self)
    obtain ⟨rest, latches⟩ := ih (s := bar4Blk fn start bytes o s) fun x mem => (first.windowBlk fn true x).trans (outside x (List.mem_cons_of_mem o mem))
    refine ⟨first.trans rest, fun ⟨x, mem, given⟩ => ?_⟩
    obtain rfl | mem := List.mem_cons.mp mem
    · exact rest.2.2 (latched given)
    · exact latches ⟨x, mem, given⟩

/-- A byte that is written falls on some block of the access. -/
theorem winMask_of_mem {start : Nat} {bytes : List (Option Byte)} {y : Byte} (mem : some y ∈ bytes) :
    ∃ o ∈ accessBlks start bytes.length, winMask start bytes o ≠ 0 := by
  obtain ⟨j, small, at_⟩ := List.mem_iff_getElem.mp mem
  refine ⟨(start + j) / 64 * 64, ?_, winMask_ne_zero (i := (start + j) % 64) (Nat.mod_lt _ (by decide)) (y := y) ?_⟩
  · refine List.mem_map.mpr ⟨(start + j) / 64 - start / 64, List.mem_range.mpr (by omega), ?_⟩
    omega
  · have place : (start + j) / 64 * 64 + (start + j) % 64 = start + j := by omega
    unfold winSlot
    rw [place, if_pos (by omega), Nat.add_sub_cancel_left, List.getElem?_eq_getElem small, at_]
    rfl

/-! ### One block of the window -/

theorem forEach_singleton {α : Type} (f : α → State → State) (a : α) (s : State) : forEach f [a] s = f a s := rfl

theorem accessBlks_one {o : Nat} (aligned : o % 64 = 0) : accessBlks o 64 = [o] := by
  unfold accessBlks
  rw [show (o + 64 + 63) / 64 - o / 64 = 1 by omega]
  show [(o / 64 + 0) * 64] = [o]
  rw [show (o / 64 + 0) * 64 = o by omega]

theorem bar4Blks_one {o : Nat} {s : State} (mine : windowBlk s fn false o = true) (quiet : racing s 2 o = false) :
    bar4Blks fn [o] s = (((if (readBlk 0 2 0 o s).1.poison then rep 64 0xFF else (readBlk 0 2 0 o s).1.data) ++ [], (readBlk 0 2 0 o s).1.poison || false), (readBlk 0 2 0 o s).2) := by
  have read : readRaced 0 2 0 o s = readBlk 0 2 0 o s := if_neg (by simp [quiet])
  unfold bar4Blks
  rw [if_pos mine, read]
  rfl

theorem winSlot_whole {o i : Nat} {data : List Byte} (whole : data.length = 64) (small : i < 64) : winSlot o (data.map some) o i = some (data.getD i 0) := by
  unfold winSlot
  rw [if_pos (by omega), Nat.add_sub_cancel_left, List.getElem?_map, List.getElem?_eq_getElem (by omega), List.getD_eq_getElem _ _ (by omega)]
  rfl

theorem winMask_whole {o : Nat} {data : List Byte} (whole : data.length = 64) : winMask o (data.map some) o = fullMask := by
  have all : (List.range 64).map (fun i => if (winSlot o (data.map some) o i).isSome then 2 ^ i else 0) = (List.range 64).map fun i => 2 ^ i :=
    List.map_congr_left fun i mem => by rw [winSlot_whole whole (List.mem_range.mp mem)]; rfl
  unfold winMask
  rw [all]
  decide

theorem winBytes_whole {o : Nat} {data : List Byte} (whole : data.length = 64) : ((List.range 64).map fun i => (winSlot o (data.map some) o i).getD 0) = data := by
  have all : ((List.range 64).map fun i => (winSlot o (data.map some) o i).getD 0) = (List.range 64).map fun i => data.getD i 0 :=
    List.map_congr_left fun i mem => by rw [winSlot_whole whole (List.mem_range.mp mem)]; rfl
  rw [all]
  refine List.ext_getElem (by simp [whole]) fun i _ small => ?_
  rw [List.getElem_map, List.getElem_range, List.getD_eq_getElem]

/-- A whole block of the window is written. -/
theorem bar4Blk_whole {o b : Nat} {data : List Byte} {s : State} (whole : data.length = 64) (mine : windowBlk s fn true o = true)
    (reach : unreachable s 2 o = false) (mapped : physBlk s o = some b) (unshared : tabGet? (o / 65536) s.sharedPoison = none) :
    bar4Blk fn o (data.map some) o s = storeBlk b data false 0 (mergeDrop b s) := by
  have usable : stackUsable s (stackOfBlk b) = true := by
    unfold unreachable at reach
    rw [mapped] at reach
    simpa using reach
  have written : writeBlk fn 2 0 o data fullMask false 0 s = storeBlk b data false 0 (mergeDrop b s) := by
    have onBlock : writeBlk fn 2 0 o data fullMask false 0 s = match physBlk s o with
        | none => s
        | some b => writeStack b data fullMask false 0 s := rfl
    rw [onBlock, mapped]
    exact writeStack_whole _ _ _ usable
  rw [bar4Blk_eq, winMask_whole whole, winBytes_whole whole, if_neg (by decide), if_pos ⟨mine, reach⟩, written]
  unfold repairShared
  dsimp only
  rw [show (storeBlk b data false 0 (mergeDrop b s)).sharedPoison = s.sharedPoison from rfl, unshared]

theorem mergeDrop_flipArmed (b k : Nat) (s : State) : (getStk (mergeDrop b s) k).flipArmed = (getStk s k).flipArmed := by
  unfold mergeDrop
  by_cases same : k = stackOfBlk b
  · rw [same, getStk_modStk]
  · rw [getStk_modStk_ne _ _ same]

end

/-! ### The statement -/

/-- Settles O35. Blocks are met one by one; what one latches does not change whether the next lies in the window. -/
theorem windowReachesOwnBlocksOnly : Obligations.WindowReachesOwnBlocksOnly := by
  unfold Obligations.WindowReachesOwnBlocksOnly
  intro s fn off o small place
  have reads (len : Nat) : exec (.bar4Read fn off len) s = .next (arrive (.winRead fn off o len) s) := place ▸ exec_bar4Read small off len s
  have writes (bytes : List (Option Byte)) : exec (.bar4Write fn off bytes) s = .next (arrive (.winWrite fn o bytes) s) := place ▸ exec_bar4Write small off bytes s
  refine ⟨fun stop => ⟨fun len => ?stopRead, fun bytes => ?stopWrite⟩, fun len go waits => ?readWaits, fun bytes go waits => ?writeWaits,
    fun go => ⟨fun len free outside some_ => ?readOutside, fun aligned free mine quiet => ?readBlock, fun bytes free outside => ?writeOutside,
      fun data b whole aligned free mine reach mapped unarmed unshared => ?writeBlock⟩⟩
  case stopRead =>
    rw [reads, arrive_served s ((not_waits_of_stop s stop).1 ..)]
    exact next_congr (if_pos stop)
  case stopWrite =>
    rw [writes, arrive_served s ((not_waits_of_stop s stop).2 ..)]
    exact next_congr (if_pos stop)
  case readWaits =>
    obtain ⟨t, e, held, out, -, frame⟩ := arrive_waits s (winRead_waits s go waits)
    exact ⟨t, (reads len).trans (next_congr e), held, out, frame⟩
  case writeWaits =>
    obtain ⟨t, e, held, -, mem, frame⟩ := arrive_waits s (winWrite_waits s go waits)
    exact ⟨t, (writes bytes).trans (next_congr e), held, mem, frame⟩
  case readOutside =>
    obtain ⟨bytes, ⟨frame, others, -⟩, latched⟩ := bar4Blks_outside outside
    have answer : arrive (.winRead fn off o len) s = emit (.bar4Data fn off (rep len 0xFF) false) (bar4Blks fn (accessBlks o len) s).2 := by
      rw [arrive_served s free]
      unfold serveAccess
      dsimp only
      rw [if_neg (by simp [go]), bytes, sliceB_rep _ (by rw [length_accessBlks]; omega)]
    refine ⟨_, (reads len).trans (next_congr answer), ?_, latched ?_, others, ?_⟩
    · rw [frame]
      rfl
    · exact List.ne_nil_of_length_pos (by rw [length_accessBlks]; omega)
    · rw [frame]
      rfl
  case readBlock =>
    refine ⟨_, (reads 64).trans (next_congr ?_), rfl⟩
    rw [arrive_served s free]
    unfold serveAccess
    dsimp only
    rw [if_neg (by simp [go]), accessBlks_one aligned, bar4Blks_one mine quiet, aligned, Bool.or_false, List.append_nil]
    cases poison : (readBlk 0 2 0 o s).1.poison with
    | true => rw [if_pos rfl, if_pos rfl, sliceB_rep _ (by decide)]; rfl
    | false => rw [if_neg (by decide), if_neg (by decide)]; rfl
  case writeOutside =>
    obtain ⟨⟨frame, others, -⟩, latched⟩ := forEach_bar4Blk_outside (start := o) (bytes := bytes) outside
    have served : arrive (.winWrite fn o bytes) s = forEach (bar4Blk fn o bytes) (accessBlks o bytes.length) s := by
      rw [arrive_served s free]
      exact if_neg (by simp [go])
    exact ⟨_, (writes bytes).trans (next_congr served), frame, fun ⟨_, mem⟩ => latched (winMask_of_mem mem), others⟩
  case writeBlock =>
    have served : arrive (.winWrite fn o (data.map some)) s = storeBlk b data false 0 (mergeDrop b s) := by
      rw [arrive_served s free]
      unfold serveAccess
      dsimp only
      rw [if_neg (by simp [go]), List.length_map, whole, accessBlks_one aligned, forEach_singleton]
      exact bar4Blk_whole whole mine reach mapped unshared
    refine ⟨_, (writes _).trans (next_congr served), ?_, fun a apart => ?_, rfl⟩
    · exact findWord_storeBlk ((mergeDrop_flipArmed b _ s).trans unarmed) whole false 0
    · rw [storeBlk_stack whole, tabGet?_putBytes_apart _ _ (by rw [whole]; exact apart)]
      rfl

end Sys2Proof.Machine

/-! Slices of furrow operations and the refreshes that they hold back (04 R91 to R97). -/

namespace Sys2Proof.Machine

/-! ### A furrow operation and its table -/

section
variable {s : State} {i j : Nat} {o : FurrowOp}

theorem getFop?_modFop (g : FurrowOp → FurrowOp) (there : getFop? s i = some o) : getFop? (modFop i g s) i = some (g o) := by
  unfold getFop? at there
  unfold getFop? modFop
  rw [there]
  exact tabGet?_tabPut_same ..

theorem getFop?_modFop_ne (g : FurrowOp → FurrowOp) (s : State) (other : j ≠ i) : getFop? (modFop i g s) j = getFop? s j := by
  unfold getFop? modFop
  split
  · exact tabGet?_tabPut_ne other ..
  · rfl

theorem getFop?_congr {t : State} (e : t.fops = s.fops) (i : Nat) : getFop? t i = getFop? s i := congrArg (tabGet? i) e

end

/-! ### What leaves the slices of every stack -/

/-- The slices of stack `k`. -/
def slicesOf (k : Nat) (s : State) : List Slice := (getStk s k).slices

section
variable (k : Nat) (s : State)

theorem slicesOf_modStk {g : Stack → Stack} (keep : ∀ x, (g x).slices = x.slices) (j : Nat) : slicesOf k (modStk j g s) = slicesOf k s := by
  unfold slicesOf
  by_cases same : k = j
  · rw [same, getStk_modStk, keep]
  · rw [getStk_modStk_ne _ _ same]

theorem slicesOf_of_stks {s t : State} (e : t.stks = s.stks) : slicesOf k t = slicesOf k s := by
  unfold slicesOf getStk
  rw [e]

theorem slicesOf_countCe (blk sym : Nat) : slicesOf k (countCe blk sym s) = slicesOf k s := by
  refine (whenS_keeps (slicesOf k) (fun t => ?_) ..).trans (slicesOf_modStk k s ?_ _)
  · exact (slicesOf_of_stks k (setCause_stks ..)).trans (slicesOf_of_stks k (henuaEvent_stks ..))
  · exact fun _ => rfl

theorem slicesOf_countUe (blk : Nat) (repaired : Bool) : slicesOf k (countUe blk repaired s) = slicesOf k s := by
  refine (whenS_keeps (slicesOf k) (fun t => slicesOf_of_stks k (henuaEvent_stks ..)) ..).trans (slicesOf_modStk k s ?_ _)
  exact fun _ => rfl

theorem slicesOf_countPoison (blk : Nat) : slicesOf k (countPoison blk s) = slicesOf k s := by
  refine slicesOf_modStk k s ?_ _
  exact fun _ => rfl

theorem slicesOf_openRow (blk : Nat) : slicesOf k (openRow blk s) = slicesOf k s := by
  refine slicesOf_modStk k s ?_ _
  exact fun _ => rfl

theorem slicesOf_mergeDrop (blk : Nat) : slicesOf k (mergeDrop blk s) = slicesOf k s := by
  refine slicesOf_modStk k s ?_ _
  exact fun _ => rfl

theorem slicesOf_storeBlk (blk : Nat) (data : List Byte) (poison : Bool) (source : Nat) : slicesOf k (storeBlk blk data poison source s) = slicesOf k s := by
  unfold storeBlk
  dsimp only
  refine (slicesOf_modStk k _ ?_ _).trans ((slicesOf_openRow ..).trans (slicesOf_of_stks k rfl))
  exact fun _ => rfl

theorem slicesOf_poisonSharedPage (off : Nat) : slicesOf k (poisonSharedPage off s) = slicesOf k s := by
  unfold poisonSharedPage
  split
  · rfl
  · exact (slicesOf_of_stks k (setCause_stks ..)).trans (slicesOf_of_stks k (henuaEvent_stks ..))

theorem slicesOf_foundUe (blk : Nat) (data : List Byte) : slicesOf k (foundUe blk data s).2 = slicesOf k s := by
  unfold foundUe
  split
  · exact slicesOf_countUe ..
  · exact (slicesOf_poisonSharedPage ..).trans (slicesOf_countUe ..)
  · dsimp only
    split
    · refine (slicesOf_storeBlk ..).trans ((slicesOf_countUe ..).trans ((slicesOf_openRow ..).trans ?_))
      split
      · exact slicesOf_countCe ..
      · rfl
    · refine (slicesOf_poisonSharedPage ..).trans ((slicesOf_countUe ..).trans ?_)
      split
      · exact slicesOf_countUe ..
      · rfl

theorem slicesOf_decodeBlk (blk : Nat) : slicesOf k (decodeBlk blk s).2 = slicesOf k s := by
  unfold decodeBlk
  dsimp only
  split
  · exact slicesOf_openRow ..
  · exact (slicesOf_countCe ..).trans (slicesOf_openRow ..)
  · dsimp only
    split
    · exact (slicesOf_countCe ..).trans ((slicesOf_countPoison ..).trans (slicesOf_openRow ..))
    · exact (slicesOf_countPoison ..).trans (slicesOf_openRow ..)
  · exact (slicesOf_foundUe ..).trans (slicesOf_openRow ..)

theorem slicesOf_flushEntry (e : MergeEntry) : slicesOf k (flushEntry e s) = slicesOf k s := by
  unfold flushEntry
  dsimp only
  split
  · exact (slicesOf_storeBlk ..).trans (slicesOf_mergeDrop ..)
  · refine (slicesOf_storeBlk ..).trans ((slicesOf_decodeBlk ..).trans ((slicesOf_modStk k _ ?_ _).trans (slicesOf_mergeDrop ..)))
    exact fun _ => rfl

/-! ### The refreshes that are paid -/

theorem payBank_eq (d b : Nat) : payBank k d b s = { s with stks := (payBank k d b s).stks } := rfl

theorem slicesOf_payBank (j d b : Nat) : slicesOf k (payBank j d b s) = slicesOf k s := by
  refine slicesOf_modStk k s ?_ _
  exact fun _ => rfl

theorem payForced_eq (d p : Nat) : payForced k d p s = { s with stks := (payForced k d p s).stks } := by
  unfold payForced whenS
  simp only [forEach]
  split <;> split <;> rfl

theorem slicesOf_payForced (j d p : Nat) : slicesOf k (payForced j d p s) = slicesOf k s :=
  forEach_keeps (slicesOf k) (fun b t => whenS_keeps (slicesOf k) (fun u => slicesOf_payBank k u j d b) _ t) ..

theorem getStk_payBank_ne {j : Nat} (other : j ≠ k) (d b : Nat) : getStk (payBank k d b s) j = getStk s j := getStk_modStk_ne _ s other

theorem getStk_payForced_ne {j : Nat} (other : j ≠ k) (d p : Nat) : getStk (payForced k d p s) j = getStk s j :=
  forEach_keeps (getStk · j) (fun b t => whenS_keeps (getStk · j) (fun u => getStk_payBank_ne k u other d b) _ t) ..

theorem refreshPair_eq (d p : Nat) : refreshPair k d p s = { s with stks := (refreshPair k d p s).stks } := by
  unfold refreshPair whenS
  simp only [forEach]
  split <;> rfl

theorem slicesOf_refreshPair (j d p : Nat) : slicesOf k (refreshPair j d p s) = slicesOf k s :=
  whenS_keeps (slicesOf k) (fun t => forEach_keeps (slicesOf k) (fun b u => slicesOf_payBank k u j d b) _ t) ..

theorem getStk_refreshPair_ne {j : Nat} (other : j ≠ k) (d p : Nat) : getStk (refreshPair k d p s) j = getStk s j :=
  whenS_keeps (getStk · j) (fun t => forEach_keeps (getStk · j) (fun b u => getStk_payBank_ne k u other d b) _ t) ..

/-! ### Debts -/

/-- What bank `b` of stack `k` owes. -/
def debtOf (k b : Nat) (s : State) : Nat := tabGetD 0 b (getStk s k).debt

variable {k} in
theorem debtOf_payBank (d b x : Nat) : debtOf k x (payBank k d b s) = if x = 64 * d + b then debtOf k x s - 1 else debtOf k x s := by
  unfold debtOf payBank
  rw [getStk_modStk]
  dsimp only
  by_cases same : x = 64 * d + b
  · subst same
    rw [if_pos rfl]
    split
    · next small =>
      rw [tabGetD, tabGet?_tabDel_same]
      exact (Nat.sub_eq_zero_of_le small).symm
    · rw [tabGetD, tabGet?_tabPut_same]
      rfl
  · rw [if_neg same]
    split
    · rw [tabGetD, tabGet?_tabDel_ne same]
      rfl
    · rw [tabGetD, tabGet?_tabPut_ne same]
      rfl

theorem debtOf_forced (owed d b x : Nat) : debtOf k x (whenS (decide (4 ≤ owed)) (payBank k d b) s) =
    if x = 64 * d + b ∧ 4 ≤ owed then debtOf k x s - 1 else debtOf k x s := by
  unfold whenS
  by_cases forced : 4 ≤ owed
  · rw [if_pos (decide_eq_true forced), debtOf_payBank]
    by_cases same : x = 64 * d + b
    · rw [if_pos same, if_pos ⟨same, forced⟩]
    · rw [if_neg same, if_neg fun e => same e.1]
  · rw [if_neg (by simp [forced]), if_neg fun e => forced e.2]

/-- A bank of the pair that owes four pays one. -/
theorem debtOf_payForced (d p x : Nat) : debtOf k x (payForced k d p s) =
    if x / 2 = 32 * d + p ∧ 4 ≤ debtOf k x s then debtOf k x s - 1 else debtOf k x s := by
  have two : payForced k d p s = whenS (decide (4 ≤ debtOf k (64 * d + (2 * p + 1)) s)) (payBank k d (2 * p + 1))
      (whenS (decide (4 ≤ debtOf k (64 * d + 2 * p) s)) (payBank k d (2 * p)) s) := rfl
  rw [two, debtOf_forced, debtOf_forced]
  by_cases first : x = 64 * d + 2 * p
  · rw [if_neg fun e => by omega, ← first]
    by_cases forced : 4 ≤ debtOf k x s
    · rw [if_pos ⟨rfl, forced⟩, if_pos ⟨by omega, forced⟩]
    · rw [if_neg fun e => forced e.2, if_neg fun e => forced e.2]
  · have inner : ¬(x = 64 * d + 2 * p ∧ 4 ≤ debtOf k (64 * d + 2 * p) s) := fun e => first e.1
    rw [if_neg inner]
    by_cases second : x = 64 * d + (2 * p + 1)
    · rw [← second]
      by_cases forced : 4 ≤ debtOf k x s
      · rw [if_pos ⟨rfl, forced⟩, if_pos ⟨by omega, forced⟩]
      · rw [if_neg fun e => forced e.2, if_neg fun e => forced e.2]
    · rw [if_neg fun e => second e.1, if_neg fun e => by omega]

/-- Both banks of the pair pay one, where one is owed. -/
theorem debtOf_refreshPair (d p x : Nat) : debtOf k x (refreshPair k d p s) = if x / 2 = 32 * d + p then debtOf k x s - 1 else debtOf k x s := by
  have paid : debtOf k x (payBank k d (2 * p + 1) (payBank k d (2 * p) s)) = if x / 2 = 32 * d + p then debtOf k x s - 1 else debtOf k x s := by
    rw [debtOf_payBank, debtOf_payBank]
    by_cases first : x = 64 * d + 2 * p
    · rw [if_neg (by omega), if_pos first, if_pos (by omega)]
    · rw [if_neg first]
      by_cases second : x = 64 * d + (2 * p + 1)
      · rw [if_pos second, if_pos (by omega)]
      · rw [if_neg second, if_neg (by omega)]
  have row : refreshPair k d p s = whenS (decide (0 < debtOf k (64 * d + 2 * p) s) || (decide (0 < debtOf k (64 * d + (2 * p + 1)) s) || false))
      (fun t => payBank k d (2 * p + 1) (payBank k d (2 * p) t)) s := rfl
  rw [row]
  unfold whenS
  split
  · exact paid
  · next none_ =>
    rw [Bool.or_false, Bool.or_eq_true, decide_eq_true_eq, decide_eq_true_eq, not_or] at none_
    split
    · next pair =>
      have zero : debtOf k x s = 0 := by
        obtain e | e : x = 64 * d + 2 * p ∨ x = 64 * d + (2 * p + 1) := by omega
        · rw [e]; omega
        · rw [e]; omega
      rw [zero]
    · rfl

/-- What stands in a stack beside slices, debts and open rows. -/
theorem flipArmed_payForced (d p : Nat) : (getStk (payForced k d p s) k).flipArmed = (getStk s k).flipArmed := by
  have one (b : Nat) (t : State) : (getStk (payBank k d b t) k).flipArmed = (getStk t k).flipArmed := by
    unfold payBank
    rw [getStk_modStk]
  exact forEach_keeps (fun t => (getStk t k).flipArmed) (fun b t => whenS_keeps (fun t => (getStk t k).flipArmed) (one b) _ t) ..

theorem retraining_payForced (d p : Nat) : (getStk (payForced k d p s) k).retraining = (getStk s k).retraining := by
  have one (b : Nat) (t : State) : (getStk (payBank k d b t) k).retraining = (getStk t k).retraining := by
    unfold payBank
    rw [getStk_modStk]
  exact forEach_keeps (fun t => (getStk t k).retraining) (fun b t => whenS_keeps (fun t => (getStk t k).retraining) (one b) _ t) ..

end

/-! ### The end of a slice -/

/-- A slice of the pair is over and counted, before its gap. -/
def sliceGone (k d p : Nat) (s : State) : State :=
  modStk k (fun x => { x with slices := x.slices.filter (fun y => !(y.d == d && y.p == p)), slicesDone := x.slicesDone + 1 }) s

theorem exec_sliceEnd {k d p : Nat} (hk : k < 8) (hd : d < 16) (hp : p < 32) {s : State} {x : Slice}
    (there : (getStk s k).slices.find? (fun x => x.d == d && x.p == p) = some x) : exec (.sliceEnd k d p) s = .next (settleFop x.id (closeSlice k d p s)) := by
  show execSliceEnd k d p s = _
  unfold execSliceEnd
  rw [there]
  exact onUnit_next (by simp [stackOk, dieOk, pairOk, hk, hd, hp]) _

section
variable {k d p : Nat} {s : State}

/-- With nothing held the gap serves nothing. -/
theorem closeSlice_idle (idle : s.held = []) : closeSlice k d p s = refreshPair k d p (payForced k d p (sliceGone k d p s)) := by
  have held : (payForced k d p (sliceGone k d p s)).held = [] := by
    rw [payForced_eq]
    exact idle
  have same : { payForced k d p (sliceGone k d p s) with held := [] } = payForced k d p (sliceGone k d p s) := by rw [← held]
  have row : closeSlice k d p s = refreshPair k d p (serveGapGo k d p (payForced k d p (sliceGone k d p s)).held []
    { payForced k d p (sliceGone k d p s) with held := [] }) := rfl
  rw [row, same, held]
  rfl

theorem slicesOf_sliceGone : slicesOf k (sliceGone k d p s) = (getStk s k).slices.filter fun y => !(y.d == d && y.p == p) := by
  unfold slicesOf sliceGone
  rw [getStk_modStk]

theorem debtOf_sliceGone (x : Nat) : debtOf k x (sliceGone k d p s) = debtOf k x s := by
  unfold debtOf sliceGone
  rw [getStk_modStk]

theorem slicesDone_refreshed : (getStk (refreshPair k d p (payForced k d p (sliceGone k d p s))) k).slicesDone = (getStk s k).slicesDone + 1 := by
  have one (b : Nat) (t : State) : (getStk (payBank k d b t) k).slicesDone = (getStk t k).slicesDone := by
    unfold payBank
    rw [getStk_modStk]
  refine (whenS_keeps (fun t => (getStk t k).slicesDone) (fun t => forEach_keeps (fun t => (getStk t k).slicesDone) one _ t) ..).trans
    ((forEach_keeps (fun t => (getStk t k).slicesDone) (fun b t => whenS_keeps (fun t => (getStk t k).slicesDone) (one b) _ t) ..).trans ?_)
  unfold sliceGone
  rw [getStk_modStk]

theorem closeSlice_idle_frame (idle : s.held = []) : closeSlice k d p s = { s with stks := (closeSlice k d p s).stks } := by
  rw [closeSlice_idle idle, refreshPair_eq, payForced_eq]
  rfl

theorem closeSlice_idle_others (idle : s.held = []) {j : Nat} (other : j ≠ k) : getStk (closeSlice k d p s) j = getStk s j := by
  rw [closeSlice_idle idle, getStk_refreshPair_ne k _ other, getStk_payForced_ne k _ other]
  exact getStk_modStk_ne _ s other

theorem closeSlice_idle_slices (idle : s.held = []) (y : Slice) :
    y ∈ (getStk (closeSlice k d p s) k).slices ↔ y ∈ (getStk s k).slices ∧ ¬(y.d = d ∧ y.p = p) := by
  have e : (getStk (closeSlice k d p s) k).slices = (getStk s k).slices.filter fun y => !(y.d == d && y.p == p) := by
    rw [closeSlice_idle idle]
    exact (slicesOf_refreshPair ..).trans ((slicesOf_payForced ..).trans slicesOf_sliceGone)
  rw [e, List.mem_filter, Bool.not_eq_true', Bool.and_eq_false_iff, beq_eq_false_iff_ne, beq_eq_false_iff_ne, not_and_or]

theorem closeSlice_idle_debt (idle : s.held = []) (x : Nat) : debtOf k x (closeSlice k d p s) =
    if x / 2 = 32 * d + p then (if 4 ≤ debtOf k x s then debtOf k x s - 1 else debtOf k x s) - 1 else debtOf k x s := by
  rw [closeSlice_idle idle, debtOf_refreshPair, debtOf_payForced, debtOf_sliceGone]
  by_cases pair : x / 2 = 32 * d + p
  · simp only [pair, true_and, if_true]
  · simp only [pair, false_and, if_false]

/-- An operation that goes on does not end with a slice. -/
theorem settleFop_open {t : State} {i : Nat} {o : FurrowOp} (there : getFop? t i = some o) (computed : o.computed = false) (stopped : o.stopped = false) :
    settleFop i t = t := by
  unfold settleFop
  rw [there]
  dsimp only
  rw [if_neg (by simp [computed, stopped])]

theorem settleFop_absent {t : State} {i : Nat} (absent : getFop? t i = none) : settleFop i t = t := by
  unfold settleFop
  rw [absent]

/-- The operation of a command ends with its last slice. -/
theorem settleFop_command {t : State} {i h : Nat} {o : FurrowOp} (there : getFop? t i = some o) (over_ : o.computed = true ∨ o.stopped = true)
    (source : o.source = some h) (unsliced : fopSliced t i = false) :
    settleFop i t = finishCmd h o.outcomes o.refused { t with fops := tabDel i t.fops } := by
  unfold settleFop
  rw [there]
  dsimp only
  rw [if_pos (by simpa [unsliced] using over_), source]

end

end Sys2Proof.Machine

/-! The start of a slice, the write that it held, the refreshes that fall due (04 R91 to R97, R100). -/

namespace Sys2Proof.Machine

/-! ### Data and furrow operations -/

/-- From `s` to `t` data has moved, and furrow operations have. -/
def FopsData (s t : State) : Prop := DataOnly { s with fops := t.fops } t

section
variable {s t u : State}

theorem DataOnly.setFops (data : DataOnly s t) (f : Tab FurrowOp) : DataOnly { s with fops := f } { t with fops := f } := by
  unfold DataOnly at *
  rw [data]

theorem FopsData.of_data (data : DataOnly s t) : FopsData s t := by
  have fops : t.fops = s.fops := by rw [data]
  unfold FopsData
  rw [fops]
  exact data

theorem FopsData.setFops (moved : FopsData s t) (f : Tab FurrowOp) : FopsData s { t with fops := f } := DataOnly.setFops moved f

theorem FopsData.trans_data (moved : FopsData s t) (data : DataOnly t u) : FopsData s u := by
  have fops : u.fops = t.fops := by rw [data]
  unfold FopsData
  rw [fops]
  exact DataOnly.trans moved data

theorem FopsData.modFop (moved : FopsData s t) (i : Nat) (g : FurrowOp → FurrowOp) : FopsData s (modFop i g t) := by
  rw [modFop_eq]
  exact moved.setFops _

end

/-! ### The start of a slice -/

section
variable (k d p id w : Nat) (o : FurrowOp) (s : State)

/-- The pair is ready for its slice: a forced refresh is paid and its merge entries are flushed. -/
def pairReady : State := flushPair k d p (payForced k d p s)

theorem pairReady_data : DataOnly s (pairReady k d p s) := by
  refine DataOnly.trans (t := payForced k d p s) ?_ (forEach_data (fun e t data => flushEntry_data e t data) _ _ (DataOnly.refl _))
  rw [payForced_eq]
  rfl

theorem slicesOf_pairReady : slicesOf k (pairReady k d p s) = slicesOf k s :=
  (forEach_keeps (slicesOf k) (fun e t => slicesOf_flushEntry k t e) ..).trans (slicesOf_payForced ..)

/-- The slice is entered, before its unit holds anything. -/
def sliceEntered : State :=
  modFop id (fun x => { x with touched := if x.touched.contains (k, d, p) then x.touched else x.touched ++ [(k, d, p)] })
    (modStk k (fun x => { x with slices := x.slices ++ [⟨d, p, id, w, []⟩], lastServed := tabPut id (32 * d + p) x.lastServed,
                                 subst := if w = 32 * d + p then x.subst else x.subst + 1 }) (pairReady k d p s))

theorem openSlice_eq : openSlice k d p id w o s = loadUnit k w o.params (sliceEntered k d p id w s) := rfl

theorem slicesOf_sliceEntered : slicesOf k (sliceEntered k d p id w s) = slicesOf k s ++ [⟨d, p, id, w, []⟩] := by
  unfold sliceEntered
  refine (slicesOf_of_stks k (by exact modFop_stks ..)).trans ?_
  rw [← slicesOf_pairReady k d p s]
  unfold slicesOf
  rw [getStk_modStk]

theorem loadUnit_frame (q : FopParams) (t : State) : loadUnit k w q t = { t with stks := (loadUnit k w q t).stks, freeCtr := (loadUnit k w q t).freeCtr } := rfl

theorem slicesOf_loadUnit (q : FopParams) (t : State) : slicesOf k (loadUnit k w q t) = slicesOf k t := by
  unfold loadUnit
  dsimp only
  refine (slicesOf_modStk k _ ?_ _).trans (slicesOf_of_stks k rfl)
  exact fun _ => rfl

theorem units_loadUnit (q : FopParams) (t : State) : ∃ r, tabGet? w (getStk (loadUnit k w q t) k).units = some r := by
  unfold loadUnit
  dsimp only
  rw [getStk_modStk]
  exact ⟨_, tabGet?_tabPut_same ..⟩

theorem slicesOf_openSlice : slicesOf k (openSlice k d p id w o s) = slicesOf k s ++ [⟨d, p, id, w, []⟩] :=
  (slicesOf_loadUnit ..).trans (slicesOf_sliceEntered ..)

theorem units_openSlice : ∃ r, tabGet? w (getStk (openSlice k d p id w o s) k).units = some r := units_loadUnit ..

theorem openSlice_fops (i : Nat) : getFop? (openSlice k d p id w o s) i = getFop? (sliceEntered k d p id w s) i := rfl

theorem getFop?_openSlice (there : getFop? s id = some o) : getFop? (openSlice k d p id w o s) id =
    some { o with touched := if o.touched.contains (k, d, p) then o.touched else o.touched ++ [(k, d, p)] } := by
  have same : getFop? (pairReady k d p s) id = some o := (getFop?_congr (by rw [pairReady_data k d p s]) id).trans there
  rw [openSlice_fops]
  unfold sliceEntered
  exact getFop?_modFop _ same

theorem getFop?_openSlice_ne {i : Nat} (other : i ≠ id) : getFop? (openSlice k d p id w o s) i = getFop? s i := by
  rw [openSlice_fops]
  unfold sliceEntered
  rw [getFop?_modFop_ne _ _ other]
  exact getFop?_congr (by rw [modStk_fops, pairReady_data k d p s]) i

theorem openSlice_data : FopsData s (openSlice k d p id w o s) :=
  FopsData.trans_data ((FopsData.of_data (modStk_data _ _ _ (pairReady_data k d p s))).modFop _ _) rfl

/-- A failed check that is recomputed is counted and noted (04 R100). -/
def recomputed : State :=
  recordFault 1 11 (.furrow (512 * k + w)) o.tenant 0 [] (modFop id (fun x => { x with outcomes := addOutcomes [stRecomputed] x.outcomes })
    (modStk k (fun x => { x with recompute := x.recompute + 1 }) s))

variable {k d p id w o s}

theorem exec_furrowSliceStart (hk : k < 8) (hd : d < 16) (hp : p < 32) (there : getFop? s id = some o) (worker : workerOf s k d p = some w)
    (usable : stackUsable s k = true) (turn : turnOk s k id (32 * d + p) w = true) :
    exec (.furrowSliceStart k d p id 0) s = .next (openSlice k d p id w o s) ∧
      exec (.furrowSliceStart k d p id 1) s = .next (recomputed k id w o (openSlice k d p id w o s)) := by
  have unit : (stackOk k && dieOk d && pairOk p) = true := by simp [stackOk, dieOk, pairOk, hk, hd, hp]
  have turns : (stackUsable s k && turnOk s k id (32 * d + p) w) = true := by rw [usable, turn]; rfl
  constructor
  · show execFurrowSliceStart k d p id 0 s = _
    unfold execFurrowSliceStart
    dsimp only
    rw [there, worker, unit]
    dsimp only
    rw [if_pos turns]
    rfl
  · show execFurrowSliceStart k d p id 1 s = _
    unfold execFurrowSliceStart
    dsimp only
    rw [there, worker, unit]
    dsimp only
    rw [if_pos turns]
    rfl

theorem recomputed_data {t : State} (moved : FopsData s t) : FopsData s (recomputed k id w o t) :=
  ((moved.trans_data (modStk_data _ _ _ (DataOnly.refl t))).modFop _ _).trans_data (recordFault_data _ _ _ _ _ _ _ (DataOnly.refl _))

theorem recomputed_stks (t : State) : (recomputed k id w o t).stks = (modStk k (fun x => { x with recompute := x.recompute + 1 }) t).stks := by
  unfold recomputed
  rw [recordFault_eq]
  exact modFop_stks ..

theorem getStk_recomputed (t : State) : getStk (recomputed k id w o t) k = { getStk t k with recompute := (getStk t k).recompute + 1 } :=
  (congrArg (tabGetD Stack.reset k) (recomputed_stks t)).trans (getStk_modStk ..)

theorem recomputed_fops (t : State) (i : Nat) : getFop? (recomputed k id w o t) i =
    getFop? (modFop id (fun x => { x with outcomes := addOutcomes [stRecomputed] x.outcomes }) (modStk k (fun x => { x with recompute := x.recompute + 1 }) t)) i := by
  unfold recomputed
  rw [recordFault_eq]
  rfl

theorem getFop?_recomputed {t : State} {y : FurrowOp} (there : getFop? t id = some y) :
    getFop? (recomputed k id w o t) id = some { y with outcomes := addOutcomes [stRecomputed] y.outcomes } := by
  rw [recomputed_fops]
  exact getFop?_modFop _ there

theorem getFop?_recomputed_ne {t : State} {i : Nat} (other : i ≠ id) : getFop? (recomputed k id w o t) i = getFop? t i := by
  rw [recomputed_fops, getFop?_modFop_ne _ _ other]
  rfl

theorem touched_mem (l : List (Nat × Nat × Nat)) : (k, d, p) ∈ (if l.contains (k, d, p) then l else l ++ [(k, d, p)]) := by
  split
  · next there => simpa using there
  · exact List.mem_append_right _ (List.mem_singleton.mpr rfl)

end

/-! ### The write that a slice held -/

section
variable {k d p : Nat} {s : State}

/-- The longest hold of a write is kept in the controllers that held it. -/
def holdKept (h : Held) (s : State) : State :=
  forEach (fun k => modStk k fun x => { x with hostWaitMax := BitVec.ofNat 16 (max x.hostWaitMax.toNat (min 65535 ((now s - h.since) / 2))) }) h.slices s

theorem holdKept_eq (h : Held) (s : State) : holdKept h s = { s with stks := (holdKept h s).stks } := forEach_modStk_eq ..

/-- Of a stack, what `f` reads, where `f` reads nothing of the count of holds, stays. -/
theorem getStk_holdKept {β : Type} (f : Stack → β) (keep : ∀ x v, f { x with hostWaitMax := v } = f x) (h : Held) (s : State) (k : Nat) :
    f (getStk (holdKept h s) k) = f (getStk s k) := by
  refine forEach_keeps (fun t => f (getStk t k)) (fun j t => ?_) ..
  by_cases same : k = j
  · subst same
    rw [getStk_modStk, keep]
  · rw [getStk_modStk_ne _ _ same]

/-- In the gap the single waiting access is offered. -/
theorem closeSlice_one {h : Held} (held : s.held = [h]) : closeSlice k d p s =
    refreshPair k d p (offerHeld h { payForced k d p (sliceGone k d p s) with held := [] }) := by
  have same : (payForced k d p (sliceGone k d p s)).held = [h] := by
    rw [payForced_eq]
    exact held
  have row : closeSlice k d p s = refreshPair k d p (serveGapGo k d p (payForced k d p (sliceGone k d p s)).held []
    { payForced k d p (sliceGone k d p s) with held := [] }) := rfl
  rw [row, same]
  rfl

theorem offerHeld_served {h : Held} {t : State} (free : accessWaits t h.acc = false) : offerHeld h t = serveAccess h.acc (holdKept h t) := by
  unfold offerHeld
  rw [if_neg (by simp [free])]
  rfl

/-- A write of a whole word into a stack without slices, not retraining, with nothing held, does not wait. -/
theorem write_free {t : State} {off source : Nat} {data : List Byte} {mask : W64} (idle : t.held = []) (closed : (getStk t k).slices = [])
    (trained : (getStk t k).retraining = false) : accessWaits t (.write k off data mask source) = false := by
  have here : stackOfBlk (localBlk k off) = k := stackOfBlk_localBlk k off
  have unheld : blkHeld t (localBlk k off) = false := by
    unfold blkHeld
    dsimp only
    rw [here, closed, trained]
    rfl
  have alone : behindPair t [localBlk k off] = false := by
    unfold behindPair
    rw [idle]
    rfl
  show (behindSource t source || blksWait t [localBlk k off]) = false
  have source_ : behindSource t source = false := by
    unfold behindSource
    rw [idle]
    rfl
  rw [source_, Bool.false_or]
  unfold blksWait
  rw [List.any_cons, List.any_nil, unheld, alone, Bool.or_false, Bool.or_false, Bool.and_false]

theorem serveAccess_write {t : State} {off source : Nat} {data : List Byte} (ready : blkReady t (localBlk k off) = true) (whole : data.length = 64) :
    serveAccess (.write k off data (BitVec.allOnes 64) source) t = storeBlk (localBlk k off) data false source (mergeDrop (localBlk k off) t) := by
  unfold serveAccess
  dsimp only
  rw [if_pos ready, sliceB_block whole, show (BitVec.allOnes 64).toNat = fullMask by decide]
  exact writeStack_whole _ _ _ (blkReady_usable ready)

theorem findWord_refreshPair (t : State) (b : Nat) : findWord (refreshPair k d p t) b = findWord t b := by
  rw [refreshPair_eq]
  rfl

end

/-! ### The gap of a held write -/

section
variable {k d p off source : Nat} {s : State} {h : Held} {data : List Byte}

/-- The gap as it opens: the slice is gone, forced refreshes are paid, what was held is being offered. -/
def gapOpen (k d p : Nat) (s : State) : State := { payForced k d p (sliceGone k d p s) with held := [] }

theorem gapOpen_eq (k d p : Nat) (s : State) : gapOpen k d p s = { s with stks := (gapOpen k d p s).stks, held := [] } := by
  unfold gapOpen
  rw [payForced_eq]
  rfl

theorem getStk_gapOpen (k d p : Nat) (s : State) : (getStk (gapOpen k d p s) k).slices = (getStk s k).slices.filter (fun y => !(y.d == d && y.p == p)) ∧
    (getStk (gapOpen k d p s) k).retraining = (getStk s k).retraining ∧ (getStk (gapOpen k d p s) k).flipArmed = (getStk s k).flipArmed := by
  refine ⟨(slicesOf_payForced k (sliceGone k d p s) k d p).trans slicesOf_sliceGone, (retraining_payForced k _ d p).trans ?_, (flipArmed_payForced k _ d p).trans ?_⟩ <;>
    unfold sliceGone <;> rw [getStk_modStk]

/-- The word that a held write of a whole block leaves, the slice being the only one of its stack. -/
theorem closeSlice_lands (held : s.held = [h]) (write : h.acc = .write k off data (BitVec.allOnes 64) source) (whole : data.length = 64)
    (only : ∀ y ∈ (getStk s k).slices, y.d = d ∧ y.p = p) (trained : (getStk s k).retraining = false) (usable : stackUsable s k = true)
    (power : s.pm.state ≠ .hold) : closeSlice k d p s = refreshPair k d p
      (storeBlk (localBlk k off) data false source (mergeDrop (localBlk k off) (holdKept h (gapOpen k d p s)))) := by
  obtain ⟨slices, retraining, -⟩ := getStk_gapOpen k d p s
  have closed : (getStk (gapOpen k d p s) k).slices = [] := by
    rw [slices, List.filter_eq_nil_iff]
    intro y mem
    simp [only y mem]
  have free : accessWaits (gapOpen k d p s) h.acc = false := by
    rw [write]
    exact write_free rfl closed (retraining.trans trained)
  have ready : blkReady (holdKept h (gapOpen k d p s)) (localBlk k off) = true := by
    have unheld : blkHeld (holdKept h (gapOpen k d p s)) (localBlk k off) = false := by
      unfold blkHeld
      dsimp only
      rw [stackOfBlk_localBlk, getStk_holdKept (fun x => x.slices) (by exact fun _ _ => rfl), getStk_holdKept (fun x => x.retraining) (by exact fun _ _ => rfl), closed, retraining, trained]
      rfl
    have serving : stackUsable (holdKept h (gapOpen k d p s)) k = true := by
      rw [holdKept_eq, gapOpen_eq]
      exact usable
    have awake : (holdKept h (gapOpen k d p s)).pm.state = s.pm.state := by rw [holdKept_eq, gapOpen_eq]
    unfold blkReady
    rw [stackOfBlk_localBlk, serving, unheld, awake]
    simpa using power
  rw [closeSlice_one held]
  congr 1
  refine (offerHeld_served free).trans ?_
  rw [write]
  exact serveAccess_write ready whole

theorem findWord_lands (whole : data.length = 64) (unarmed : (getStk s k).flipArmed = false) :
    findWord (refreshPair k d p (storeBlk (localBlk k off) data false source (mergeDrop (localBlk k off) (holdKept h (gapOpen k d p s))))) (localBlk k off) = ⟨data, 0, none⟩ := by
  rw [findWord_refreshPair]
  refine findWord_storeBlk ?_ whole false source
  rw [mergeDrop_flipArmed, stackOfBlk_localBlk, getStk_holdKept (fun x => x.flipArmed) (by exact fun _ _ => rfl)]
  exact (getStk_gapOpen k d p s).2.2.trans unarmed

/-- From `s` to `t` stack memory has moved, and nothing is held. -/
def StacksMoved (s t : State) : Prop := t = { s with stks := t.stks, mem := t.mem, held := [] }

theorem StacksMoved.trans {s t u : State} (moved : StacksMoved s t) (e : u = { t with stks := u.stks, mem := u.mem }) : StacksMoved s u := by
  unfold StacksMoved at *
  rw [e, moved]

theorem lands_frame : StacksMoved s
    (refreshPair k d p (storeBlk (localBlk k off) data false source (mergeDrop (localBlk k off) (holdKept h (gapOpen k d p s))))) := by
  have opened : StacksMoved s (gapOpen k d p s) := by
    unfold StacksMoved
    rw [gapOpen_eq]
  have kept : StacksMoved s (holdKept h (gapOpen k d p s)) := opened.trans (by rw [holdKept_eq])
  have dropped : StacksMoved s (mergeDrop (localBlk k off) (holdKept h (gapOpen k d p s))) := kept.trans rfl
  have stored : StacksMoved s (storeBlk (localBlk k off) data false source (mergeDrop (localBlk k off) (holdKept h (gapOpen k d p s)))) := dropped.trans rfl
  exact stored.trans (by rw [refreshPair_eq])

end

/-! ### A refresh that falls due -/

section
variable {k d b : Nat} {s : State}

theorem exec_refreshDue_inside (hk : k < 8) (hd : d < 16) (hb : b < 64) {y : Slice}
    (there : (getStk s k).slices.find? (fun y => y.d == d && y.p == b / 2) = some y) : exec (.refreshDue k d b) s = .next
      (if y.due.contains b then s
        else oweRefresh k d b (modStk k (fun x => { x with slices := x.slices.map fun z => if z.d == d && z.p == b / 2 then { z with due := b :: z.due } else z }) s)) := by
  show execRefreshDue k d b s = _
  unfold execRefreshDue
  dsimp only
  rw [there]
  exact onUnit_next (by simp [stackOk, dieOk, bankOk, hk, hd, hb]) _

theorem exec_refreshDue_outside (hk : k < 8) (hd : d < 16) (hb : b < 64) (none_ : ∀ x ∈ (getStk s k).slices, ¬(x.d = d ∧ x.p = b / 2)) :
    exec (.refreshDue k d b) s = .next
      (if (s.held.any fun h => (accessPhys s h.acc).any fun x => stackOfBlk x == k && blkBank x == 64 * d + b) then oweRefresh k d b s
        else modStk k (fun x => { x with openRows := tabDel (64 * d + b) x.openRows }) s) := by
  have absent : (getStk s k).slices.find? (fun y => y.d == d && y.p == b / 2) = none :=
    List.find?_eq_none.mpr fun x mem => by simpa using none_ x mem
  show execRefreshDue k d b s = _
  unfold execRefreshDue
  dsimp only
  rw [absent]
  exact onUnit_next (by simp [stackOk, dieOk, bankOk, hk, hd, hb]) _

theorem getStk_oweRefresh (t : State) : getStk (oweRefresh k d b t) k =
    { getStk t k with debt := tabPut (64 * d + b) (min 4 (tabGetD 0 (64 * d + b) (getStk t k).debt + 1)) (getStk t k).debt,
                      debtMax := max (getStk t k).debtMax (min 4 (tabGetD 0 (64 * d + b) (getStk t k).debt + 1)) } := getStk_modStk ..

theorem getStk_oweRefresh_ne {j : Nat} (other : j ≠ k) (t : State) : getStk (oweRefresh k d b t) j = getStk t j := getStk_modStk_ne _ t other

end

/-! ### The statement -/

/-- Settles O33. -/
theorem slicesOpenCloseAndOwe : Obligations.SlicesOpenCloseAndOwe := by
  unfold Obligations.SlicesOpenCloseAndOwe
  intro s k d p id hk hd hp
  refine ⟨fun o w n there worker usable turn few => ?start, fun x o idle slice there computed stopped => ?goesOn,
    fun x o h idle slice there ended source unsliced => ?ends, fun x h off source data held write whole only die pair trained usable power unarmed ed ep absent => ?lands,
    fun b y n hb there en => ⟨fun due => ?owedAlready, fun due => ?owed⟩, fun b n hb none_ en => ⟨fun idle => ?made, fun waits => ?dense⟩⟩
  case start =>
    obtain ⟨clean, failed⟩ := exec_furrowSliceStart hk hd hp there worker usable turn
    obtain rfl | rfl : n = 0 ∨ n = 1 := by omega
    · exact ⟨_, _, clean, slicesOf_openSlice .., units_openSlice .., getFop?_openSlice _ _ _ _ _ _ _ there, touched_mem _, rfl, by rintro ⟨⟩,
        fun i other => getFop?_openSlice_ne _ _ _ _ _ _ _ other, openSlice_data ..⟩
    · refine ⟨_, _, failed, ?_, ?_, getFop?_recomputed (getFop?_openSlice _ _ _ _ _ _ _ there), touched_mem _, rfl, fun _ => ?_,
        fun i other => ?_, recomputed_data (openSlice_data ..)⟩
      · rw [getStk_recomputed]
        show slicesOf k (openSlice k d p id w o s) = _
        exact slicesOf_openSlice ..
      · rw [getStk_recomputed]
        exact units_openSlice k d p id w o s
      · exact mem_addOutcomes_one ..
      · exact (getFop?_recomputed_ne other).trans (getFop?_openSlice_ne _ _ _ _ _ _ _ other)
  case goesOn =>
    have same : getFop? (closeSlice k d p s) x.id = some o := (getFop?_congr (by rw [closeSlice_idle_frame idle]) x.id).trans there
    have done : (getStk (closeSlice k d p s) k).slicesDone = (getStk s k).slicesDone + 1 := by
      rw [closeSlice_idle idle]
      exact slicesDone_refreshed
    refine ⟨closeSlice k d p s, (exec_sliceEnd hk hd hp slice).trans (next_congr (settleFop_open same computed stopped)), closeSlice_idle_slices idle, done,
      fun b n pair en => ?_, fun b other => ?_, fun j other => closeSlice_idle_others idle other, closeSlice_idle_frame idle⟩
    · subst en
      exact (closeSlice_idle_debt idle b).trans (if_pos pair)
    · exact (closeSlice_idle_debt idle b).trans (if_neg other)
  case ends =>
    have same : getFop? (closeSlice k d p s) x.id = some o := (getFop?_congr (by rw [closeSlice_idle_frame idle]) x.id).trans there
    have fops : (closeSlice k d p s).fops = s.fops := by rw [closeSlice_idle_frame idle]
    have cmds : (closeSlice k d p s).cmds = s.cmds := by rw [closeSlice_idle_frame idle]
    refine ⟨_, (exec_sliceEnd hk hd hp slice).trans (next_congr (settleFop_command same ended source unsliced)), tabGet?_tabDel_same .., fun i other => ?_,
      fun c live running => ?_, fun j other => ?_, ?_⟩
    · exact (tabGet?_tabDel_ne other ..).trans (getFop?_congr fops i)
    · exact ended_finishCmd _ _ ((getCmd?_of_cmds_eq (s := s) (t := { closeSlice k d p s with fops := tabDel x.id (closeSlice k d p s).fops }) cmds h).trans live) running
    · refine Eq.trans (getStk_congr ?_ j) (closeSlice_idle_others (d := d) (p := p) idle other)
      rfl
    · rw [closeSlice_idle_frame idle]
      rfl
  case lands =>
    subst ed ep
    have slice : (getStk s k).slices.find? (fun y => y.d == x.d && y.p == x.p) = some x := by
      rw [only]
      exact List.find?_cons_of_pos (by simp)
    have alone : ∀ y ∈ (getStk s k).slices, y.d = x.d ∧ y.p = x.p := by
      rw [only]
      intro y mem
      obtain rfl := List.mem_singleton.mp mem
      exact ⟨rfl, rfl⟩
    have gap := closeSlice_lands held write whole alone trained usable power
    have frame : StacksMoved s (closeSlice k x.d x.p s) := by
      rw [gap]
      exact lands_frame
    have gone : getFop? (closeSlice k x.d x.p s) x.id = none := (getFop?_congr (by rw [frame]) x.id).trans absent
    have nothing : (closeSlice k x.d x.p s).held = [] := by rw [frame]
    refine ⟨closeSlice k x.d x.p s, (exec_sliceEnd hk hd hp slice).trans (next_congr (settleFop_absent gone)), nothing, ?_, ?_⟩
    · rw [gap]
      exact findWord_lands whole unarmed
    · rw [nothing]
      exact frame
  case owedAlready =>
    rw [exec_refreshDue_inside hk hd hb there]
    exact next_congr (if_pos (by simpa using due))
  case owed =>
    subst en
    refine ⟨_, (exec_refreshDue_inside hk hd hb there).trans (next_congr (if_neg (by simpa using due))), ?_, fun j other => ?_, rfl⟩
    · rw [getStk_oweRefresh, getStk_modStk]
      have same : (fun z : Slice => if z.d == d && z.p == b / 2 then { z with due := b :: z.due } else z) =
          fun z => if z.d = d ∧ z.p = b / 2 then { z with due := b :: z.due } else z := by
        funext z
        simp only [Bool.and_eq_true, beq_iff_eq]
      rw [same]
    · rw [getStk_oweRefresh_ne other]
      exact getStk_modStk_ne _ s other
  case made =>
    rw [exec_refreshDue_outside hk hd hb none_, idle]
    rfl
  case dense =>
    subst en
    obtain ⟨h, mem, x, inside, stack, bank⟩ := waits
    have waits : (s.held.any fun h => (accessPhys s h.acc).any fun x => stackOfBlk x == k && blkBank x == 64 * d + b) = true :=
      List.any_eq_true.mpr ⟨h, mem, List.any_eq_true.mpr ⟨x, inside, by simp [stack, bank]⟩⟩
    exact ⟨_, (exec_refreshDue_outside hk hd hb none_).trans (next_congr (if_pos waits)), getStk_oweRefresh s, fun j other => getStk_oweRefresh_ne other s, rfl⟩

end Sys2Proof.Machine

/-! Serving commands (11): pages by their list, rows of a sequence table, each in order; they move data only. -/

namespace Sys2Proof.Machine

/-! ### What ATTEND and VERIFY move -/

section
variable {s0 : State}

theorem visGo_data (r : SeqRow) (l n k : Nat) (a : Acc) (data : DataOnly s0 a.s) : DataOnly s0 (visGo r l n k a).2.s := by
  induction n generalizing k a with
  | zero => exact data
  | succ n ih =>
    have rest := ih (k + 1) (entryAt r k l a).2 (entryAt_data r k l a data)
    unfold visGo
    dsimp only
    split
    · exact rest
    · exact rest

theorem kvRows_data (d : PageDir) (h : Nat) (v : Bool) (l : List Vis) (a : Acc) (data : DataOnly s0 a.s) : DataOnly s0 (kvRows d h v l a).2.s := by
  induction l generalizing a with
  | nil => exact data
  | cons x l ih => exact ih _ (rdEls_data _ _ _ _ data)

theorem scorePages_data (d : PageDir) (decay : Nat) (vis : List Vis) (ps : List (List Nat)) (poison : Bool) (l : List Nat) (a : Acc) (data : DataOnly s0 a.s) :
    DataOnly s0 (scorePages d decay vis ps poison l a).s := by
  induction l generalizing a with
  | nil => exact data
  | cons k l ih =>
    unfold scorePages
    dsimp only
    split
    · exact ih a data
    · exact ih _ (putScore_data _ _ _ _ _ (getScore_data _ _ _ data))

theorem attendHeads_data (r : SeqRow) (vis : List Vis) (q : List PV) (n h : Nat) (a : Acc) (data : DataOnly s0 a.s) :
    DataOnly s0 (attendHeads r vis q n h a).2.s := by
  induction n generalizing h a with
  | zero => exact data
  | succ n ih => exact ih _ _ (scorePages_data _ _ _ _ _ _ _ (kvRows_data _ _ _ _ _ (kvRows_data _ _ _ _ _ data)))

theorem wrRow_data (d : Desc) (i n : Nat) (f : Nat → PV) (a : Acc) (data : DataOnly s0 a.s) : DataOnly s0 (wrRow d i n f a).s :=
  wrPieces_data _ _ _ _ (fun _ _ moved => moved) data

theorem attendRow_data (tenant : Nat) (qd od : Desc) (layer i : Nat) (r : SeqRow) (x : Nat × Acc) (data : DataOnly s0 x.2.s) :
    DataOnly s0 (attendRow tenant [] qd od layer i r x).2.s := by
  have seen (n k : Nat) : DataOnly s0 (visible r layer (rdEls qd n k x.2).2).2.s := visGo_data _ _ _ _ _ (rdEls_data _ _ _ _ data)
  unfold attendRow
  dsimp only
  split
  · exact addOut_data _ _ _ data
  split
  · exact Acc.stop_data _ _ (wrRow_data _ _ _ _ _ (freshVal_data _ _ (seen ..)))
  · exact wrRow_data _ _ _ _ _ (attendHeads_data _ _ _ _ _ _ (seen ..))

theorem copyPos_data (r : SeqRow) (src dst : Nat) (a : Acc) (data : DataOnly s0 a.s) : DataOnly s0 (copyPos r src dst a).s := by
  unfold copyPos
  dsimp only
  split
  · exact data
  · refine DataOnly.foldlS _ _ _ data fun b l moved => ?_
    have entries := entryAt_data r (dst / 256) l _ (entryAt_data r (src / 256) l b moved)
    split
    · exact DataOnly.foldlS _ _ _ entries fun _ _ moved => DataOnly.foldlS _ _ _ moved fun _ _ moved => headgateCopy_data _ _ _ _ _ _ moved
    · exact entries

theorem copyPath_data (r : SeqRow) (L : Nat) (path : List Nat) (j : Nat) (a : Acc) (data : DataOnly s0 a.s) : DataOnly s0 (copyPath r L path j a).s := by
  induction path generalizing j a with
  | nil => exact data
  | cons p path ih =>
    refine ih _ _ ?_
    split
    · exact data
    · exact copyPos_data _ _ _ _ data

theorem releaseTail_data (r : SeqRow) (lo hi : Nat) (x : Nat × Acc) (data : DataOnly s0 x.2.s) : DataOnly s0 (releaseTail r lo hi x).2.s := by
  refine DataOnly.foldlA _ _ _ data fun y l moved => DataOnly.foldlA _ _ _ moved fun z k moved => ?_
  dsimp only
  split
  · exact moved
  split
  · exact setEntry_data _ _ _ _ _ (releaseRef_data _ _ _ (entryAt_data _ _ _ _ moved))
  · exact entryAt_data _ _ _ _ moved

theorem verifyRow_data (tenant : Nat) (seq cand dec : Desc) (n : Nat) (sampling tree : Bool) (i : Nat) (r : SeqRow) (x : Nat × Acc) (data : DataOnly s0 x.2.s) :
    DataOnly s0 (verifyRow tenant [] seq cand dec n sampling tree i r x).2.s := by
  unfold verifyRow
  dsimp only
  split
  · exact wrBytes_data _ _ _ _ _ _ data
  · have read : DataOnly s0 (rdEls cand (32 * (n + 1)) (i * dSize cand 0) x.2).2.s := rdEls_data _ _ _ _ data
    with_reducible refine wrBytes_data _ _ _ _ _ _ (wrBytes_data _ _ _ _ _ _ (releaseTail_data _ _ _ _ ?_))
    split
    · exact copyPath_data _ _ _ _ _ read
    · exact read

/-! ### Page lists -/

theorem pagesGo_data {f : Nat → Nat → Nat × Acc → Bool × (Nat × Acc)} (l : Desc) (hf : ∀ i e r, DataOnly s0 r.2.s → DataOnly s0 (f i e r).2.2.s)
    (n i : Nat) (r : Nat × Acc) (data : DataOnly s0 r.2.s) : DataOnly s0 (pagesGo f l n i r).2.s := by
  induction n generalizing i r with
  | zero => exact data
  | succ n ih =>
    have moved := hf i (rdEl l i r.2).1.1 (r.1, (rdEl l i r.2).2) (rdEl_data l i r.2 data)
    unfold pagesGo
    dsimp only
    split
    · exact ih _ _ moved
    · exact moved

end

/-- Where an entry counts at most one, a list counts at most its length. -/
theorem pagesGo_count {f : Nat → Nat → Nat × Acc → Bool × (Nat × Acc)} (l : Desc) (hf : ∀ i e r, (f i e r).2.1 ≤ r.1 + 1) (n i : Nat) (r : Nat × Acc) :
    (pagesGo f l n i r).1 ≤ r.1 + n := by
  induction n generalizing i r with
  | zero => exact Nat.le_refl _
  | succ n ih =>
    have one := hf i (rdEl l i r.2).1.1 (r.1, (rdEl l i r.2).2)
    unfold pagesGo
    dsimp only at one ⊢
    split
    · exact (ih _ _).trans (by omega)
    · omega

section
variable (d : PageDir) (l from_ : Desc) (i e : Nat) (r : Nat × Acc)

theorem shareOne_count : (shareOne d i e r).2.1 ≤ r.1 + 1 := by
  unfold shareOne
  split
  · dsimp only
    split
    · exact Nat.le_refl _
    · exact Nat.le_succ _
  · exact Nat.le_succ _

theorem releaseOne_count : (releaseOne d l i e r).2.1 ≤ r.1 + 1 := by
  unfold releaseOne
  dsimp only
  split
  · exact Nat.add_le_add_left (by unfold b2n; split <;> decide) _
  · split
    · exact Nat.le_succ _
    · exact Nat.le_succ _
  · exact Nat.le_succ _

theorem takePage_count (score : PV) (go : Nat → Acc → Acc) : (takePage d from_ score r go).2.1 ≤ r.1 + 1 := by
  unfold takePage
  dsimp only
  split
  · exact Nat.le_succ _
  · exact Nat.le_refl _

theorem cowOne_count : (cowOne d l from_ i e r).2.1 ≤ r.1 + 1 := by
  unfold cowOne
  split
  · dsimp only
    split
    · exact takePage_count ..
    · exact Nat.le_succ _
  · exact takePage_count ..
  · split
    · exact takePage_count ..
    · exact Nat.le_succ _

end

/-! ### Page commands -/

section
variable {s : State} {h op : Nat} {c : Cmd}

/-- A page command over a sound directory goes through its list; over no such directory it ends with ST_WINDOW_VIOLATION. -/
theorem pageCmd_of_served (served : Served s c) (f : PageDir → Desc → Nat → Nat → Nat × Acc → Bool × (Nat × Acc)) {r : Option PageDir × Acc}
    (er : r = readDir c.tenant (cmdDesc s c (lo32 (cmdParam c 0))) (Acc.held c.tenant 1 s)) :
    (∀ d, r.1 = some d → pageCmd c f s = finishAcc c.handle (pagesGo (f d (cmdDesc s c (hi32 (cmdParam c 0)))) (cmdDesc s c (hi32 (cmdParam c 0)))
        (lo32 (cmdParam c 1)) 0 (0, r.2)).1 (pagesGo (f d (cmdDesc s c (hi32 (cmdParam c 0)))) (cmdDesc s c (hi32 (cmdParam c 0))) (lo32 (cmdParam c 1)) 0 (0, r.2)).2) ∧
      (r.1 = none → pageCmd c f s = finishAcc c.handle 0 (addOut stWindow true r.2)) := by
  have row : pageCmd c f s = match r.1 with
      | none => finishAcc c.handle 0 (addOut stWindow true r.2)
      | some d => finishAcc c.handle (pagesGo (f d (cmdDesc s c (hi32 (cmdParam c 0)))) (cmdDesc s c (hi32 (cmdParam c 0)))
        (lo32 (cmdParam c 1)) 0 (0, r.2)).1 (pagesGo (f d (cmdDesc s c (hi32 (cmdParam c 0)))) (cmdDesc s c (hi32 (cmdParam c 0))) (lo32 (cmdParam c 1)) 0 (0, r.2)).2 := by
    subst er
    exact serve_of_served served _
  rw [row]
  constructor
  · intro d some_
    rw [some_]
  · intro none_
    rw [none_]

theorem notShared_addOut {a : Acc} (clean : stSharedPoisoned ∉ a.outs) : stSharedPoisoned ∉ (addOut stWindow true a).outs := by
  unfold addOut
  split
  · rw [List.mem_append, List.mem_singleton]
    rintro (there | same)
    · exact clean there
    · exact absurd same (by decide)
  · exact clean

/-- The page commands end as their lists go. -/
theorem pageCmd_ends (run : Running s h op c) (served : Served s c) (f : PageDir → Desc → Nat → Nat → Nat × Acc → Bool × (Nat × Acc))
    (data : ∀ d l i e r, DataOnly s r.2.s → DataOnly s (f d l i e r).2.2.s) (count : ∀ d l i e r, (f d l i e r).2.1 ≤ r.1 + 1) {dir l : Desc}
    (edir : dir = cmdDesc s c (lo32 (cmdParam c 0))) (el : l = cmdDesc s c (hi32 (cmdParam c 0))) :
    (∀ d x, (readDir c.tenant dir (Acc.held c.tenant 1 s)).1 = some d →
      x = pagesGo (f d l) l (cmdParam c 1 % 2 ^ 32) 0 (0, (readDir c.tenant dir (Acc.held c.tenant 1 s)).2) → stSharedPoisoned ∉ x.2.outs →
      x.1 ≤ cmdParam c 1 % 2 ^ 32 ∧ ∃ t, pageCmd c f s = t ∧ EndsAs s t c x.1 x.2) ∧
    ((readDir c.tenant dir (Acc.held c.tenant 1 s)).1 = none → stSharedPoisoned ∉ (readDir c.tenant dir (Acc.held c.tenant 1 s)).2.outs →
      ∃ t, pageCmd c f s = t ∧ EndsAs s t c 0 (addOut stWindow true (readDir c.tenant dir (Acc.held c.tenant 1 s)).2)) := by
  subst edir el
  obtain ⟨some_, none_⟩ := pageCmd_of_served served f rfl
  have read : DataOnly s (readDir c.tenant (cmdDesc s c (lo32 (cmdParam c 0))) (Acc.held c.tenant 1 s)).2.s := readDir_data _ _ _ (DataOnly.refl s)
  have run : Running s c.handle op c := (getCmd?_handle run.1).symm ▸ run
  refine ⟨fun d x sound ex clean => ⟨?_, _, some_ d sound, ?_⟩, fun bad clean => ⟨_, none_ bad, ?_⟩⟩
  · subst ex
    exact (pagesGo_count _ (fun i e r => count d _ i e r) _ _ _).trans (Nat.le_of_eq (Nat.zero_add _))
  · subst ex
    exact finishAcc_endsAs run (pagesGo_data _ (fun i e r moved => data d _ i e r moved) _ _ _ read).cmds clean
  · exact finishAcc_endsAs run (addOut_data _ _ _ read).cmds (notShared_addOut clean)

theorem exec_pageShare (run : Running s h 0x0401 c) : exec (.pageShare h) s = .next (pageCmd c (fun d _ => shareOne d) s) := by
  show execPageShare h s = _
  unfold execPageShare
  rw [runCmd_next run]

theorem exec_pageRelease (run : Running s h 0x0402 c) : exec (.pageRelease h) s = .next (pageCmd c releaseOne s) := by
  show execPageRelease h s = _
  unfold execPageRelease
  rw [runCmd_next run]

theorem exec_pageCow (run : Running s h 0x0403 c) :
    exec (.pageCow h) s = .next (pageCmd c (fun d l => cowOne d l (cmdDesc s c (lo32 (cmdParam c 2)))) s) := by
  show execPageCow h s = _
  unfold execPageCow
  rw [runCmd_next run]
  rfl

/-! ### Commands over a sequence table -/

theorem exec_attend (run : Running s h 0x0404 c) (served : Served s c) (steps : List StepFails) : exec (.attend h steps) s = .next
    (if !anyTile s then finishCmd h [stDeviceFault] 0 s
      else if dCount (cmdDesc s c (lo32 (cmdParam c 0))) < 64 * bitsOf (cmdParam c 1) 63 48 then finishAcc h 0 (addOut stWindow true (Acc.held c.tenant 1 s))
      else finishAcc h 0 (rowsGo c.tenant (cmdDesc s c (lo32 (cmdParam c 0))) (attendRow c.tenant steps (cmdDesc s c (hi32 (cmdParam c 0)))
        (cmdDesc s c (lo32 (cmdParam c 1))) (bitsOf (cmdParam c 1) 47 32)) (bitsOf (cmdParam c 1) 63 48) 0 (0, Acc.held c.tenant 1 s)).2) := by
  show execAttend h s steps = _
  unfold execAttend
  rw [runCmd_next run, serve_of_served served]
  rfl

theorem exec_verify (run : Running s h 0x0405 c) (served : Served s c) (steps : List StepFails) {x : Nat × Acc}
    (ex : x = rowsGo c.tenant (cmdDesc s c (lo32 (cmdParam c 0))) (verifyRow c.tenant steps (cmdDesc s c (lo32 (cmdParam c 0)))
      (cmdDesc s c (hi32 (cmdParam c 0))) (cmdDesc s c (lo32 (cmdParam c 1))) (bitsOf (cmdParam c 2) 15 8) (bitOf (cmdParam c 2) 0) (bitOf (cmdParam c 2) 1))
      (bitsOf (cmdParam c 2) 31 16) 0 (0, Acc.held c.tenant 1 s)) : exec (.verify h steps) s = .next
    (if !anyTile s then finishCmd h [stDeviceFault] 0 s
      else if dCount (cmdDesc s c (lo32 (cmdParam c 0))) < 64 * bitsOf (cmdParam c 2) 31 16 then finishAcc h 0 (addOut stWindow true (Acc.held c.tenant 1 s))
      else finishAcc h x.1 x.2) := by
  subst ex
  show execVerify h s steps = _
  unfold execVerify
  rw [runCmd_next run, serve_of_served served]
  rfl

theorem exec_evict (run : Running s h 0x0406 c) (served : Served s c) {x : Nat × Acc}
    (ex : x = rowsGo c.tenant (cmdDesc s c (lo32 (cmdParam c 0))) (evictRow (cmdDesc s c (lo32 (cmdParam c 0))) (lo32 (cmdParam c 1)) (bitOf (cmdParam c 1) 32))
      (dCount (cmdDesc s c (lo32 (cmdParam c 0))) / 64) 0 (0, Acc.held c.tenant 1 s)) : exec (.evict h) s = .next
    (if !bitOf (cmdParam c 1) 32 && farMismatch c (cmdDesc s c (lo32 (cmdParam c 0))) (dCount (cmdDesc s c (lo32 (cmdParam c 0))) / 64) (Acc.held c.tenant 1 s)
      then finishAcc h 0 (addOut stWindow true (Acc.held c.tenant 1 s)) else finishAcc h x.1 x.2) := by
  subst ex
  show execEvict h s = _
  unfold execEvict
  rw [runCmd_next run, serve_of_served served]
  rfl

end

/-! ### The statement -/

/-- Settles O15. -/
theorem servingCommandsMoveDataOnly : Obligations.ServingCommandsMoveDataOnly := by
  unfold Obligations.ServingCommandsMoveDataOnly
  refine ⟨fun s h op i c dir l f mem run served edir el share release cow => ?pages, fun s h c seq served eseq =>
    ⟨fun x run some_ rows ex clean => ?attend, fun steps run none_ => ?attendNone, fun x run some_ rows ex clean => ?verify,
      fun steps run none_ => ?verifyNone, fun x drop run edrop near ex clean => ?evict⟩⟩
  case pages =>
    simp only [List.mem_cons, List.not_mem_nil, or_false, Prod.mk.injEq] at mem
    obtain ⟨rfl, rfl⟩ | ⟨rfl, rfl⟩ | ⟨rfl, rfl⟩ := mem
    · obtain rfl := share rfl
      rw [exec_pageShare run]
      simpa only [Host.Outcome.next.injEq] using pageCmd_ends run served (fun d _ => shareOne d) (fun d _ i e r data => shareOne_data d i e r data)
        (fun d _ i e r => shareOne_count d i e r) edir el
    · obtain rfl := release rfl
      rw [exec_pageRelease run, el]
      simpa only [Host.Outcome.next.injEq] using pageCmd_ends run served releaseOne (fun d l i e r data => releaseOne_data d l i e r data)
        (fun d l i e r => releaseOne_count d l i e r) edir rfl
    · obtain rfl := cow rfl
      rw [exec_pageCow run, el]
      simpa only [Host.Outcome.next.injEq] using pageCmd_ends run served (fun d l => cowOne d l (cmdDesc s c (lo32 (cmdParam c 2))))
        (fun d l i e r data => cowOne_data d l _ i e r data) (fun d l i e r => cowOne_count d l _ i e r) edir rfl
  case attend =>
    subst eseq ex
    refine ⟨_, (exec_attend run served []).trans (next_congr ((if_neg (by simp [some_])).trans (if_neg (Nat.not_lt.mpr rows)))), ?_⟩
    exact finishAcc_endsAs run (rowsGo_data _ _ _ _ _ _ (fun _ _ _ data => attendRow_data _ _ _ _ _ _ _ data) (DataOnly.refl s)).cmds clean
  case attendNone =>
    exact ⟨_, (exec_attend run served steps).trans (next_congr (if_pos (by simp [none_]))), ended_finishCmd _ 0 run.1 run.2.1, onlyCmd_finishCmd ..⟩
  case verify =>
    subst eseq
    refine ⟨_, (exec_verify run served [] ex).trans (next_congr ((if_neg (by simp [some_])).trans (if_neg (Nat.not_lt.mpr rows)))), ?_⟩
    subst ex
    exact finishAcc_endsAs run (rowsGo_data _ _ _ _ _ _ (fun _ _ _ data => verifyRow_data _ _ _ _ _ _ _ _ _ _ data) (DataOnly.refl s)).cmds clean
  case verifyNone =>
    exact ⟨_, (exec_verify run served steps rfl).trans (next_congr (if_pos (by simp [none_]))), ended_finishCmd _ 0 run.1 run.2.1, onlyCmd_finishCmd ..⟩
  case evict =>
    subst eseq edrop
    have near : ¬(!bitOf (cmdParam c 1) 32 && farMismatch c (cmdDesc s c (lo32 (cmdParam c 0))) (dCount (cmdDesc s c (lo32 (cmdParam c 0))) / 64)
        (Acc.held c.tenant 1 s)) = true := by
      rw [Bool.and_eq_true, Bool.not_eq_true']
      rintro ⟨keep, mismatch⟩
      exact absurd mismatch (by rw [near keep]; decide)
    refine ⟨_, (exec_evict run served ex).trans (next_congr (if_neg near)), ?_⟩
    subst ex
    exact finishAcc_endsAs run (rowsGo_data _ _ _ _ _ _ (fun _ _ _ data => evictRow_data _ _ _ _ _ _ data) (DataOnly.refl s)).cmds clean

end Sys2Proof.Machine

/-! Furrow operations reach the stacks and write once (04 R76 to R91; 08 R194). -/

namespace Sys2Proof.Machine

/-! ### Writers without rivals -/

section
variable {s : State}

/-- With nobody writing beside, the destinations are met by none. -/
theorem meet_nobody (ds : List Desc) (s : State) : forEach (fun d => forEach (freeMeet d) []) ds s = s := by
  induction ds with
  | nil => rfl
  | cons d ds ih => exact ih

theorem tabMap_id {α : Type} (t : Tab α) : tabMap (fun _ x => x) t = t := List.map_id' t

theorem meetRivals_of_none {fop : Option Nat} {atomic : Bool} (ds : List Desc)
    (cmds : ∀ x ∈ s.cmds, x.stage = .admitted ∨ (fop.bind (getFop? s)).bind (·.source) = some x.handle ∨ (x.pkt.opcode ≠ 0x0205 ∧ sluiceBound x.pkt = false))
    (fops : ∀ e ∈ s.fops, some e.1 = fop) : meetRivals none fop atomic [] ds s = s := by
  have others : (s.cmds.filter fun x => some x.handle != (fop.bind (getFop? s)).bind (·.source) && x.stage != Stage.admitted &&
      (x.pkt.opcode == 0x0205 || sluiceBound x.pkt)) = [] := by
    refine List.filter_eq_nil_iff.mpr fun x mem => ?_
    obtain e | e | ⟨e, f⟩ := cmds x mem
    · simp [e]
    · simp [e]
    · simp [e, f]
  have none_ : (s.fops.filter fun e => some e.1 != fop && (e.2.source.isNone || e.2.source != (none : Option Cmd).map (·.handle)) &&
      !(atomic && e.2.params.op / 16 == 3)) = [] := by
    refine List.filter_eq_nil_iff.mpr fun e mem => ?_
    simp [fops e mem]
  unfold meetRivals
  dsimp only
  rw [others, none_]
  simp only [List.flatMap_nil, List.append_nil, List.any_nil, Bool.false_and, Bool.false_eq_true, if_false, meet_nobody, List.map_id', tabMap_id]

end

section
variable {s0 : State}

theorem fillPartGo_data (p : FopParams) (a : Acc) (data : DataOnly s0 a.s) : DataOnly s0 (fillPartGo p a).s :=
  wrPieces_data _ _ _ _ (fun _ _ moved => moved) (wrPieces_data _ _ _ { a with source := 3 } (fun _ _ moved => moved) data)

theorem DataOnly.fops {s t : State} (data : DataOnly s t) : t.fops = s.fops := by
  unfold DataOnly at data
  rw [data]

end

/-! ### A furrow operation is handed over -/

section
variable {s : State} {o : FurrowOp}

theorem startFop_served (served : isFill s o = true ∨ ∀ k ∈ fopStacks s o.params, (getStk s k).noFurrow = false) :
    startFop o s = { s with fops := tabPut s.nextFop o s.fops, nextFop := s.nextFop + 1 } := by
  unfold startFop
  refine if_neg fun e => ?_
  obtain ⟨fill, lost⟩ := Bool.and_eq_true_iff.mp e
  obtain f | f := served
  · simp [f] at fill
  · obtain ⟨k, mem, no⟩ := List.any_eq_true.mp lost
    rw [f k mem] at no
    cases no

theorem exec_furrow {h : Nat} {c : Cmd} (run : Running s h 0x0210 c) (new : ∀ o ∈ s.fops, o.2.source ≠ some h) :
    exec (.furrow h) s = .next (startFop (newFop (fopOfPacket (undying c.tenant s) c.tenant c.pkt) c.tenant (some h) none false s) s) := by
  show execFurrow h s = _
  unfold execFurrow
  rw [runCmd_next run]
  exact next_congr (if_neg (by simpa using new))

end

/-! ### A furrow operation is carried out -/

/-- The operation `o` is computed: what it counted and met is noted. -/
def FurrowOp.done (r : Nat × Acc) (o : FurrowOp) : FurrowOp :=
  { o with computed := true, refused := o.refused + r.1, outcomes := addOutcomes r.2.outs o.outcomes }

section
variable {s : State} {id op : Nat} {o : FurrowOp}

theorem runFop_alone (there : getFop? s id = some o) (code : o.params.op = op) (computed : o.computed = false) (stopped : o.stopped = false)
    (begun : fopBegun s o = true) (rivals : o.rivals = []) (fops : ∀ e ∈ s.fops, e.1 = id)
    (cmds : ∀ x ∈ s.cmds, x.stage = .admitted ∨ o.source = some x.handle ∨ (x.pkt.opcode ≠ 0x0205 ∧ sluiceBound x.pkt = false)) {r : Nat × Acc}
    (hr : r = if isFill s o then (0, fillPartGo o.params { Acc.on o.tenant 3 s with mark := o.marked })
      else fopGo o.params { Acc.on o.tenant 3 s with mark := o.marked })
    (data : DataOnly s r.2.s) (clean : stSharedPoisoned ∉ r.2.outs) : runFop id op s = .next (settleFop id (modFop id (FurrowOp.done r) r.2.s)) := by
  have alone : meetRivals none (some id) (op / 16 == 3) [] (o.params.dst.toList ++ o.params.result.toList) r.2.s = r.2.s := by
    refine meetRivals_of_none _ (fun x mem => ?_) fun e mem => ?_
    · rw [show (some id).bind (getFop? r.2.s) = some o from (getFop?_congr data.fops id).trans there]
      exact cmds x (data.cmds ▸ mem)
    · rw [fops e (data.fops ▸ mem)]
  unfold runFop
  rw [there]
  dsimp only
  rw [if_pos ⟨code, computed, stopped, begun⟩, ← hr, rivals, alone, whenS, if_neg (by simpa using clean)]
  rfl

theorem furrowRow_runs {i : Instr} (mem : (op, i) ∈ furrowRow id) : exec i s = runFop id op s := by
  simp only [furrowRow, List.mem_cons, List.not_mem_nil, or_false, Prod.mk.injEq] at mem
  obtain ⟨rfl, rfl⟩ | ⟨rfl, rfl⟩ | ⟨rfl, rfl⟩ | ⟨rfl, rfl⟩ | ⟨rfl, rfl⟩ | ⟨rfl, rfl⟩ | ⟨rfl, rfl⟩ | ⟨rfl, rfl⟩ | ⟨rfl, rfl⟩ | ⟨rfl, rfl⟩ | ⟨rfl, rfl⟩ := mem
  all_goals rfl

theorem runFop_data {a : Acc} (data : DataOnly s a.s) : DataOnly s (if isFill s o then (0, fillPartGo o.params a) else fopGo o.params a).2.s := by
  split
  · exact fillPartGo_data _ _ data
  · exact fopGo_data _ _ data

end

/-- Settles O21. -/
theorem furrowOperationsReachTheStacksAndWriteOnce : Obligations.FurrowOperationsReachTheStacksAndWriteOnce := by
  unfold Obligations.FurrowOperationsReachTheStacksAndWriteOnce
  refine ⟨fun s h c run new served => ?_, fun s id op i o r mem there code computed stopped begun rivals fops cmds hr clean => ?_⟩
  · refine ⟨_, (exec_furrow run new).trans (next_congr (startFop_served (.inr served))), ?_, fun k other => ?_, rfl⟩
    · exact tabGet?_tabPut_same ..
    · exact tabGet?_tabPut_ne other ..
  · have data : DataOnly s r.2.s := hr ▸ runFop_data (DataOnly.refl s)
    have op_there : getFop? (modFop id (FurrowOp.done r) r.2.s) id = some (o.done r) := getFop?_modFop _ ((getFop?_congr data.fops id).trans there)
    refine ⟨modFop id (FurrowOp.done r) r.2.s, (furrowRow_runs mem).trans (runFop_alone there code computed stopped begun rivals fops cmds hr data clean),
      op_there, modFop_eq .., fun h c unsliced source live running => ?_⟩
    have live' : getCmd? { modFop id (FurrowOp.done r) r.2.s with fops := tabDel id (modFop id (FurrowOp.done r) r.2.s).fops } h = some c := by
      refine (getCmd?_of_cmds_eq ?_ h).trans live
      rw [modFop_eq]
      exact data.cmds
    rw [settleFop_command op_there (.inl rfl) source unsliced]
    exact ⟨ended_finishCmd _ _ live' running, tabGet?_tabDel_same ..⟩

end Sys2Proof.Machine

/-! What writers leave of the zero-filled spaces (05 R105): a block that is written changes its own bytes alone, and a
block of another space none. -/

namespace Sys2Proof.Machine

/-- The bytes of basin, scratchpad and scalar data. -/
def zeroMems (s : State) : Mem × Mem × Mem := (s.mem.basin, s.mem.scratch, s.mem.sdata)

theorem zeroMems_of_mem {s t : State} (e : t.mem = s.mem) : zeroMems t = zeroMems s := by
  unfold zeroMems
  rw [e]

/-! ### Stack memory -/

section
variable (s : State) (blk : Nat)

theorem zeroMems_countCe (sym : Nat) : zeroMems (countCe blk sym s) = zeroMems s :=
  (whenS_keeps zeroMems (fun _ => zeroMems_of_mem ((setCause_mem ..).trans (henuaEvent_mem ..))) ..).trans rfl

theorem zeroMems_countUe (repaired : Bool) : zeroMems (countUe blk repaired s) = zeroMems s :=
  (whenS_keeps zeroMems (fun _ => zeroMems_of_mem (henuaEvent_mem ..)) ..).trans rfl

theorem zeroMems_storeBlk (data : List Byte) (poison : Bool) (source : Nat) : zeroMems (storeBlk blk data poison source s) = zeroMems s := rfl

theorem zeroMems_poisonSharedPage (off : Nat) : zeroMems (poisonSharedPage off s) = zeroMems s := by
  unfold poisonSharedPage
  split
  · rfl
  · exact zeroMems_of_mem ((setCause_mem ..).trans (henuaEvent_mem ..))

theorem zeroMems_foundUe (data : List Byte) : zeroMems (foundUe blk data s).2 = zeroMems s := by
  unfold foundUe
  split
  · exact zeroMems_countUe ..
  · exact (zeroMems_poisonSharedPage ..).trans (zeroMems_countUe ..)
  · dsimp only
    split
    · refine (zeroMems_storeBlk ..).trans ((zeroMems_countUe ..).trans (?_ : zeroMems (openRow _ _) = _))
      split
      · exact zeroMems_countCe ..
      · rfl
    · refine (zeroMems_poisonSharedPage ..).trans ((zeroMems_countUe ..).trans ?_)
      split
      · exact zeroMems_countUe ..
      · rfl

theorem zeroMems_decodeBlk : zeroMems (decodeBlk blk s).2 = zeroMems s := by
  unfold decodeBlk
  dsimp only
  split
  · rfl
  · exact zeroMems_countCe ..
  · dsimp only
    split
    · exact zeroMems_countCe ..
    · rfl
  · exact zeroMems_foundUe ..

theorem zeroMems_modifyBlk (data : List Byte) (mask : Nat) (poison : Bool) (source : Nat) :
    zeroMems (modifyBlk blk data mask poison source s) = zeroMems s := by
  unfold modifyBlk
  exact (zeroMems_storeBlk ..).trans (zeroMems_decodeBlk ..)

theorem zeroMems_flushEntry (e : MergeEntry) : zeroMems (flushEntry e s) = zeroMems s := by
  unfold flushEntry
  dsimp only
  split
  · rfl
  · exact zeroMems_modifyBlk ..

theorem zeroMems_flushBlk : zeroMems (flushBlk blk s) = zeroMems s := by
  unfold flushBlk
  split
  · exact zeroMems_flushEntry ..
  · rfl

theorem zeroMems_mergeWrite (data : List Byte) (mask source : Nat) : zeroMems (mergeWrite blk data mask source s) = zeroMems s := by
  unfold mergeWrite
  dsimp only
  split
  · split
    · exact zeroMems_flushEntry ..
    · rfl
  · split
    · split
      · exact zeroMems_flushEntry ..
      · rfl
    · rfl

theorem zeroMems_readStack : zeroMems (readStack blk s).2 = zeroMems s := by
  unfold readStack
  split
  · exact (zeroMems_decodeBlk ..).trans (zeroMems_flushBlk ..)
  · rfl

theorem zeroMems_furrowRead : zeroMems (furrowRead blk s).2 = zeroMems s := by
  unfold furrowRead
  dsimp only
  split
  · exact zeroMems_readStack ..
  · exact zeroMems_readStack ..

theorem zeroMems_writeStack (data : List Byte) (mask : Nat) (poison : Bool) (source : Nat) :
    zeroMems (writeStack blk data mask poison source s) = zeroMems s := by
  unfold writeStack
  split
  · rfl
  split
  · rfl
  split
  · rfl
  split
  · exact (zeroMems_modifyBlk ..).trans (zeroMems_flushBlk ..)
  · exact zeroMems_mergeWrite ..

end

/-! ### Blocks of every space -/

theorem zeroMems_readBlk (source space inst off : Nat) (s : State) : zeroMems (readBlk source space inst off s).2 = zeroMems s := by
  unfold readBlk
  split
  · rfl
  · split
    · rfl
    split
    · rfl
    · rfl
  · split
    · rfl
    · dsimp only
      split
      · exact zeroMems_furrowRead ..
      · exact zeroMems_readStack ..
  · rfl

theorem zeroMems_farWrite (off : Nat) (bs : List Byte) (p : List Nat) (s : State) : zeroMems (farWrite off bs p s) = zeroMems s := rfl

theorem zeroMems_writeBlk {space : Nat} (low : space < 3) (fn inst off : Nat) (data : List Byte) (mask : Nat) (poison : Bool) (source : Nat) (s : State) :
    zeroMems (writeBlk fn space inst off data mask poison source s) = zeroMems s := by
  match space, low with
  | 0, _ =>
    show zeroMems (hostBlk fn off data mask poison s) = _
    unfold hostBlk
    dsimp only
    split
    · rfl
    · rfl
  | 1, _ =>
    show zeroMems (if (!s.cap.cxl) = true then s else farWrite off (mergeBytes mask data _) _ s) = _
    split
    · rfl
    · exact zeroMems_farWrite ..
  | 2, _ =>
    show zeroMems (match physBlk s off with
      | none => s
      | some b => writeStack b data mask poison source s) = _
    split
    · rfl
    · exact zeroMems_writeStack ..

/-- A byte of a zero-filled space is a matter of these memories. -/
theorem zByte_congr {s t : State} (e : zeroMems t = zeroMems s) (space inst off : Nat) : zByte t space inst off = zByte s space inst off := by
  unfold zeroMems at e
  obtain ⟨basin, scratch, sdata⟩ : t.mem.basin = s.mem.basin ∧ t.mem.scratch = s.mem.scratch ∧ t.mem.sdata = s.mem.sdata := by simpa using e
  unfold zByte zMem
  match space with
  | 0 | 1 | 2 | 5 | n + 6 => exact congrArg (tabGetD 0 (zKey inst off)) sdata
  | 3 => exact congrArg (tabGetD 0 (zKey inst off)) basin
  | 4 => exact congrArg (tabGetD 0 (zKey inst off)) scratch

theorem zMem_setZ_ne {sp space : Nat} (m : Mem) (p : List Nat) (s : State) (hsp : 3 ≤ sp ∧ sp ≤ 5) (hspace : 3 ≤ space ∧ space ≤ 5) (other : space ≠ sp) :
    zMem (setZ sp m p s) space = zMem s space := by
  obtain ⟨a, b⟩ := hsp
  obtain ⟨c, d⟩ := hspace
  interval_cases sp <;> interval_cases space <;> first | rfl | exact absurd rfl other

theorem mergeBytes_length (mask : Nat) (new old : List Byte) : (mergeBytes mask new old).length = 64 := by simp [mergeBytes]

/-- A block of a zero-filled space that is written changes no byte of another block. -/
theorem zByte_writeBlk {sp i o space inst off : Nat} (fn : Nat) (data : List Byte) (mask : Nat) (poison : Bool) (source : Nat) (s : State) (hsp : sp ≤ 5)
    (hspace : 3 ≤ space ∧ space ≤ 5) (apart : ¬(sp = space ∧ i = inst ∧ o / 64 = off / 64)) (hoff : off < 2 ^ 48) (aligned : o % 64 = 0) (ho : o < 2 ^ 48) :
    zByte (writeBlk fn sp i o data mask poison source s) space inst off = zByte s space inst off := by
  by_cases low : sp < 3
  · exact zByte_congr (zeroMems_writeBlk low ..) ..
  · match sp, low with
    | n + 3, _ =>
      show zByte (setZ (n + 3) (putBytesZ (zKey i o) (mergeBytes mask data _) (zMem s (n + 3)).1) _ s) space inst off = _
      unfold zByte
      by_cases same : space = n + 3
      · subst same
        rw [zMem_setZ, tabGetD_putBytesZ, mergeBytes_length, if_neg]
        unfold zKey
        omega
      · rw [zMem_setZ_ne _ _ s ⟨by omega, hsp⟩ hspace same]

end Sys2Proof.Machine

/-! Data movers: FILL, COPY and COPY_INDEXED (08 R194; 06 R139 to R147), and what they leave of the zero-filled spaces. -/

namespace Sys2Proof.Machine

/-! ### Reads and writes of a data operation beside the zero-filled spaces -/

section
variable {space inst off : Nat} {d : Desc} {f : SlotFn}

theorem zeroMems_readRaced (source sp i o : Nat) (s : State) : zeroMems (readRaced source sp i o s).2 = zeroMems s := by
  unfold readRaced
  dsimp only
  split
  · exact zeroMems_readBlk ..
  · exact zeroMems_readBlk ..

theorem zeroMems_rdBlk (sp i o : Nat) (a : Acc) : zeroMems (rdBlk sp i o a).2.s = zeroMems a.s := by
  unfold rdBlk
  split
  · rfl
  · simp only [Still.addOut_s]
    refine (zeroMems_readRaced ..).trans ?_
    split
    · rfl
    · rfl

theorem zeroMems_rdBytesGo (sp i fuel o len : Nat) (a : Acc) : zeroMems (rdBytesGo sp i fuel o len a).2.s = zeroMems a.s := by
  induction fuel generalizing o len a with
  | zero => rfl
  | succ fuel ih =>
    unfold rdBytesGo
    split
    · rfl
    · exact (ih ..).trans (zeroMems_rdBlk ..)

theorem zeroMems_rdEl (d : Desc) (n : Nat) (a : Acc) : zeroMems (rdEl d n a).2.s = zeroMems a.s := zeroMems_rdBytesGo ..

theorem zeroMems_slotVals (hf : ∀ n a, zeroMems (f n a).2.s = zeroMems a.s) (l : List (Option Nat)) (a : Acc) :
    zeroMems (slotVals d f l a).2.s = zeroMems a.s := by
  induction l generalizing a with
  | nil => rfl
  | cons x l ih =>
    cases x with
    | none => exact ih a
    | some n =>
      unfold slotVals
      dsimp only
      split
      · exact (ih _).trans (hf n a)
      · refine (ih _).trans ?_
        split
        · exact (zeroMems_rdEl ..).trans (hf n a)
        · exact hf n a

variable (hspace : 3 ≤ space ∧ space ≤ 5) (hoff : off < 2 ^ 48)
include hspace hoff

theorem zByte_putBlk {sp i o : Nat} (hsp : sp ≤ 5) (aligned : o % 64 = 0) (ho : o < 2 ^ 48) (apart : ¬(sp = space ∧ i = inst ∧ o / 64 = off / 64))
    (data : List Byte) (mask : Nat) (poison : Bool) (a : Acc) : zByte (putBlk sp i o data mask poison a).s space inst off = zByte a.s space inst off := by
  unfold putBlk
  rw [Still.addOut_s]
  exact zByte_writeBlk _ _ _ _ _ _ hsp hspace apart hoff aligned ho

theorem zByte_wrBlk {sp i o : Nat} (hsp : sp ≤ 5) (aligned : o % 64 = 0) (ho : o < 2 ^ 48) (apart : ¬(sp = space ∧ i = inst ∧ o / 64 = off / 64))
    (data : List Byte) (mask : Nat) (poison : Bool) (a : Acc) : zByte (wrBlk sp i o data mask poison a).s space inst off = zByte a.s space inst off := by
  unfold wrBlk
  split
  · rfl
  split
  · unfold Acc.stop
    rw [Still.addOut_s]
  split
  · rw [Still.addOut_s]
  split
  · exact (zByte_putBlk hspace hoff hsp aligned ho apart ..).trans (zByte_congr (zeroMems_rdBlk ..) ..)
  · exact zByte_putBlk hspace hoff hsp aligned ho apart ..

/-- Pieces that lie elsewhere leave the byte. -/
theorem zByte_wrPieces (hd : d.space ≤ 5) (hf : ∀ n a, zeroMems (f n a).2.s = zeroMems a.s) {ps : List Line}
    (apart : ∀ l ∈ ps, ¬(d.space = space ∧ d.inst = inst ∧ l.addr / 64 = off / 64)) (aligned : ∀ l ∈ ps, l.addr % 64 = 0 ∧ l.addr < 2 ^ 48) (a : Acc) :
    zByte (wrPieces d f ps a).s space inst off = zByte a.s space inst off := by
  induction ps generalizing a with
  | nil => rfl
  | cons l ps ih =>
    obtain ⟨whole, inside⟩ := aligned l List.mem_cons_self
    refine (ih (fun x mem => apart x (List.mem_cons_of_mem _ mem)) (fun x mem => aligned x (List.mem_cons_of_mem _ mem)) _).trans ?_
    have vals : zByte (slotVals d f l.slots a).2.s space inst off = zByte a.s space inst off := zByte_congr (zeroMems_slotVals hf ..) ..
    unfold wrPiece
    dsimp only
    split
    · exact vals
    · exact (zByte_wrBlk hspace hoff hd whole inside (apart l List.mem_cons_self) ..).trans vals

end

/-! ### A mover that works alone -/

section
variable {s : State} {h op : Nat} {c : Cmd}

theorem meetRivals_alone {u : State} (alone : Alone s c) (cmds : u.cmds = s.cmds) (fops : u.fops = s.fops) (ds : List Desc) :
    meetRivals (some c) none false c.rivals ds u = u := by
  obtain ⟨none_, noFop, others⟩ := alone
  have nobody : unordered u c = [] := by
    unfold unordered
    refine List.filter_eq_nil_iff.mpr fun x mem => ?_
    by_cases own : x.handle = c.handle
    · simp [own]
    · simp [others x (cmds ▸ mem) own]
  unfold meetRivals
  dsimp only
  rw [nobody, fops, noFop, none_]
  simp only [List.filter_nil, List.flatMap_nil, List.append_nil, List.any_nil, Bool.false_and, Bool.false_eq_true, if_false, meet_nobody, List.map_id', tabMap_id]

theorem finishMove_alone {a : Acc} (alone : Alone s c) (data : DataOnly s a.s) (ds : List Desc) (value : Nat) :
    finishMove c ds value a = finishAcc c.handle value a := by
  unfold finishMove
  rw [meetRivals_alone alone data.cmds data.fops]

theorem finishMove_endsAs {a : Acc} (run : Running s h op c) (alone : Alone s c) (data : DataOnly s a.s) (clean : stSharedPoisoned ∉ a.outs)
    (ds : List Desc) (value : Nat) : EndsAs s (finishMove c ds value a) c value a := by
  obtain rfl : c.handle = h := getCmd?_handle run.1
  rw [finishMove_alone alone data]
  exact finishAcc_endsAs run data.cmds clean

end

/-! ### FILL -/

section
variable {s : State} {h : Nat} {c : Cmd} {d : Desc}

theorem exec_fill (run : Running s h 0x0205 c) (alone : Alone s c) (hd : d = cmdDesc s c (lo32 (cmdParam c 0))) : exec (.fill h) s = .next
    (if d.space = 2 then fillStack c d s
     else if onTest s [d] then s
     else if (dPieces d).isEmpty ∨ (List.range 4).any (fun i => sluiceUsable s (4 * (if d.space = 3 then d.inst else dieOfTile d.inst) + i)) then
       finishMove c [d] (64 * (dPieces d).length) (wrPieces d (patternSlots (cmdParam c 4) (cmdParam c 5) d) (dPieces d) (Acc.on c.tenant 1 s))
     else finishCmd h [stDeviceFault] 0 (scramble d s)) := by
  subst hd
  show execFill h s = _
  unfold execFill
  rw [runCmd_next run]
  exact next_congr (if_neg (by simp [alone.2.1]))

/-- The FOP_FILL of the blocks without padding. -/
def fillFop (c : Cmd) (d : Desc) (a : Acc) : FurrowOp :=
  { newFop (fillParams c d) c.tenant (some c.handle) none false a.s with outcomes := a.outs, refused := 64 * (dPieces d).length, rivals := c.rivals }

theorem fillStack_free {a : Acc} {ps : List Line} (idle : s.held = []) (hps : ps = (dPieces d).filter fun l => !wholePiece l)
    (free : blksWait s (ps.filterMap fun l => physBlk s l.addr) = false)
    (ha : a = wrPieces d (patternSlots (cmdParam c 4) (cmdParam c 5) d) ps (Acc.on c.tenant 1 s)) :
    fillStack c d s = if ps.length = (dPieces d).length then finishMove c [d] (64 * (dPieces d).length) a else startFop (fillFop c d a) a.s := by
  subst ha hps
  unfold fillStack
  dsimp only
  rw [viaGap_of_free idle free]
  rfl

theorem isFill_fillFop {u : State} (run : Running s h 0x0205 c) (cmds : u.cmds = s.cmds) (a : Acc) : isFill u (fillFop c d a) = true := by
  obtain ⟨live, -, code, -⟩ := run
  obtain rfl : c.handle = h := getCmd?_handle live
  unfold isFill
  rw [show (fillFop c d a).source.bind (getCmd? u) = some c from (getCmd?_of_cmds_eq cmds _).trans live]
  simp [code]

end

/-! ### COPY and COPY_INDEXED -/

section
variable {s : State} {h : Nat} {c : Cmd} {a b ix : Desc} {op : Nat}

/-- The engine that a copy in its turn joins. -/
theorem copyEngine_eq (s : State) (c : Cmd) :
    (if (((sluiceQueueOf s c.handle).map (· / 8)).map (sluiceUsable s)).getD false then (sluiceQueueOf s c.handle).map (· / 8) else sluiceFor s c) = copyEngine s c := by
  unfold copyEngine
  cases sluiceQueueOf s c.handle <;> rfl

theorem onSluice_goes {e : Nat} (goes : CopyGoes s c a b ix) (engine : copyEngine s c = some e) (move : Nat → Acc → Nat × Acc) :
    onSluice c a b ix move s = finishMove c [b] (move e (Acc.on c.tenant 1 s)).1 (move e (Acc.on c.tenant 1 s)).2 := by
  obtain ⟨turn, untested, full, full', idle, free, -⟩ := goes
  unfold onSluice
  rw [if_neg (by simp [turn, untested]), if_neg (by simp [full, full'])]
  dsimp only
  rw [copyEngine_eq, engine]
  exact viaGap_of_free idle free ..

theorem onSluice_lost (turn : sluiceTurn s c.handle = true) (untested : onTest s [a, b, ix] = false) (full : dEmpty a = false) (full' : dEmpty b = false)
    (engine : copyEngine s c = none) (move : Nat → Acc → Nat × Acc) : onSluice c a b ix move s = finishCmd c.handle [stDeviceFault] 0 (scramble b s) := by
  unfold onSluice
  rw [if_neg (by simp [turn, untested]), if_neg (by simp [full, full'])]
  dsimp only
  rw [copyEngine_eq, engine]

/-- What a COPY does on its engine. -/
def copyMove (c : Cmd) (a b : Desc) (perm : Nat) (crc : CrcOutcome) (e : Nat) (x : Acc) : Nat × Acc :=
  if footprintsMeet a b then
    let r := sluiceMove e c.tenant a b (permuted a b perm) (freeSlots b) (dPieces b) crc x
    (r.1, freeEnd copyEnds r.2)
  else sluiceMove e c.tenant a b (permuted a b perm) (fun n y => let r := rdEl a (permuted a b perm n) y; (some r.1, r.2)) (dPieces b) crc x

theorem exec_copy {crc : CrcOutcome} (run : Running s h 0x0206 c) (ha : a = cmdDesc s c (lo32 (cmdParam c 0))) (hb : b = cmdDesc s c (hi32 (cmdParam c 0))) :
    exec (.copy h crc) s = .next
      (if (cmdParam c 1).testBit 24 ∧ onTest s [b] = true then s
       else if (cmdParam c 1).testBit 24 then finishMove c [b] (transposeInPlace b (Acc.on c.tenant 1 s)).1 (transposeInPlace b (Acc.on c.tenant 1 s)).2
       else if a = b ∧ (List.range 6).all (fun k => permAt (bitsOf (cmdParam c 1) 17 0) k == k) then (if sluiceTurn s h then finishCmd h [] 0 s else s)
       else onSluice c a b default (copyMove c a b (bitsOf (cmdParam c 1) 17 0) crc) s) := by
  subst ha hb
  show execCopy h crc s = _
  unfold execCopy
  rw [runCmd_next run]
  rfl

theorem noPerm_iff (perm : Nat) : (List.range 6).all (fun k => permAt perm k == k) = true ↔ noPerm perm := by
  simp only [List.all_eq_true, List.mem_range, beq_iff_eq, noPerm]

/-- What a COPY_INDEXED does on its engine. -/
def indexedMove (c : Cmd) (a b ix : Desc) (scatter : Bool) (crc : CrcOutcome) (e : Nat) (x : Acc) : Nat × Acc :=
  let l := indexList ix (itemCount (if scatter then b else a)) x
  let from_ := indexedFrom scatter l.1 (itemSize b)
  let f : SlotFn := fun n y =>
    match from_ n with
    | none => (none, y)
    | some m => if footprintsMeet a b then freeSlots b n y else let r := rdEl a m y; (some r.1, r.2)
  let r := sluiceMove e c.tenant a b (fun n => (from_ n).getD 0) f (indexedPieces b from_) crc l.2
  (dCount ix, if footprintsMeet a b then freeEnd copyEnds r.2 else r.2)

theorem exec_copyIndexed {crc : CrcOutcome} (run : Running s h 0x0207 c) (ha : a = cmdDesc s c (lo32 (cmdParam c 0)))
    (hb : b = cmdDesc s c (hi32 (cmdParam c 0))) (hix : ix = cmdDesc s c (lo32 (cmdParam c 1))) :
    exec (.copyIndexed h crc) s = .next
      (if dEmpty ix then (if sluiceTurn s h then finishCmd h [] 0 s else s)
       else onSluice c a b ix (indexedMove c a b ix ((cmdParam c 1).testBit 32) crc) s) := by
  subst ha hb hix
  show execCopyIndexed h crc s = _
  unfold execCopyIndexed
  rw [runCmd_next run]
  rfl

end

/-! ### What the movers leave -/

section
variable {s s0 : State} {h : Nat} {c : Cmd} {a b ix : Desc} {op : Nat}

theorem scrambleTouched_data {x : Acc} (data : DataOnly s0 x.s) : DataOnly s0 (scrambleTouched h x) := by
  unfold scrambleTouched
  split
  · exact forEach_data (fun d t moved => scramble_data d t moved) _ _ data
  · exact data

theorem DataOnly.with_cmds {t : State} (data : DataOnly s t) (l : List Cmd) : DataOnly { s with cmds := l } { t with cmds := l } := by
  unfold DataOnly at *
  rw [data]

theorem copySlots_data {g : Nat → Nat} (n : Nat) (y : Acc) (data : DataOnly s0 y.s) :
    DataOnly s0 ((fun n y => let r := rdEl a (g n) y; (some r.1, r.2) : SlotFn) n y).2.s := rdEl_data _ _ _ data

theorem indexedSlots_data {from_ : Nat → Option Nat} (n : Nat) (y : Acc) (data : DataOnly s0 y.s) :
    DataOnly s0 ((fun n y => match from_ n with
        | none => (none, y)
        | some m => let r := rdEl a m y; (some r.1, r.2) : SlotFn) n y).2.s := by
  dsimp only
  split
  · exact data
  · exact rdEl_data _ _ _ data

/-- The status of an operation whose operands the device does not check. -/
theorem freeEnd_outs (ends : List Nat) (x : Acc) : (freeEnd ends x).outs = [] ∨ ∃ st ∈ ends, (freeEnd ends x).outs = [st] := by
  unfold freeEnd
  dsimp only
  match here : ends[Config.freeStatus x.s.freeCtr % (ends.length + 1)]? with
  | none => exact .inl rfl
  | some st => exact .inr ⟨st, List.mem_of_getElem? here, rfl⟩

/-- What a COPY does over overlapping operands. -/
def overlapped (c : Cmd) (b : Desc) (s : State) : Acc := freeEnd copyEnds (wrPieces b (freeSlots b) (dPieces b) (Acc.on c.tenant 1 s))

theorem overlapped_data : DataOnly s (overlapped c b s).s :=
  freeEnd_data _ _ (wrPieces_data _ _ _ (Acc.on c.tenant 1 s) (fun n y moved => freeSlots_data b n y moved) (DataOnly.refl s))

/-- A mover whose operands overlap ends with some status and has moved data only. -/
theorem finishMove_ended {x : Acc} (run : Running s h op c) (alone : Alone s c) (data : DataOnly s x.s) (ds : List Desc) (value : Nat) :
    Ended (finishMove c ds value x) h c x.outs value ∧ DataOnly { s with cmds := (finishMove c ds value x).cmds } (finishMove c ds value x) := by
  obtain ⟨live, running, -, -⟩ := run
  obtain rfl : c.handle = h := getCmd?_handle live
  have touched : DataOnly s (scrambleTouched c.handle x) := scrambleTouched_data data
  rw [finishMove_alone alone data]
  unfold finishAcc
  exact ⟨ended_finishCmd _ _ ((getCmd?_of_cmds_eq touched.cmds _).trans live) running, touched.with_cmds _⟩

theorem clean_addOut {st : Nat} {x : Acc} (other : stSharedPoisoned ≠ st) (clean : stSharedPoisoned ∉ x.outs) : stSharedPoisoned ∉ (addOut st true x).outs := by
  unfold addOut
  split
  · simp [clean, other]
  · exact clean

end

/-! ### The statement -/

theorem fill_ends {s : State} {h : Nat} {c : Cmd} {d : Desc} (run : Running s h 0x0205 c) (hd : d = cmdDesc s c (lo32 (cmdParam c 0))) (alone : Alone s c)
    {a : Acc} (near : d.space ≠ 2) (untested : onTest s [d] = false)
    (engine : ∃ i, i < 4 ∧ sluiceUsable s (4 * (if d.space = 3 then d.inst else dieOfTile d.inst) + i) = true)
    (ha : a = wrPieces d (patternSlots (cmdParam c 4) (cmdParam c 5) d) (dPieces d) (Acc.on c.tenant 1 s)) (clean : stSharedPoisoned ∉ a.outs) :
    ∃ t, exec (.fill h) s = .next t ∧ EndsAs s t c (64 * (dPieces d).length) a := by
  have data : DataOnly s a.s := ha ▸ wrPieces_data _ _ _ (Acc.on c.tenant 1 s) (fun _ _ moved => moved) (DataOnly.refl s)
  obtain ⟨i, four, usable⟩ := engine
  have some_ : (List.range 4).any (fun i => sluiceUsable s (4 * (if d.space = 3 then d.inst else dieOfTile d.inst) + i)) = true :=
    List.any_eq_true.mpr ⟨i, List.mem_range.mpr four, usable⟩
  refine ⟨_, (exec_fill run alone hd).trans (next_congr ((if_neg near).trans ((if_neg (by simp [untested])).trans (if_pos (.inr some_))))), ?_⟩
  rw [← ha]
  exact finishMove_endsAs run alone data clean _ _

theorem fill_stack {s : State} {h : Nat} {c : Cmd} {d : Desc} (run : Running s h 0x0205 c) (hd : d = cmdDesc s c (lo32 (cmdParam c 0))) (alone : Alone s c)
    (idle : s.held = []) {a : Acc} {ps : List Line} (stack : d.space = 2) (hps : ps = (dPieces d).filter fun l => !wholePiece l)
    (free : blksWait s (ps.filterMap fun l => physBlk s l.addr) = false)
    (ha : a = wrPieces d (patternSlots (cmdParam c 4) (cmdParam c 5) d) ps (Acc.on c.tenant 1 s)) (clean : stSharedPoisoned ∉ a.outs) :
    (ps.length = (dPieces d).length → ∃ t, exec (.fill h) s = .next t ∧ EndsAs s t c (64 * (dPieces d).length) a) ∧
    (ps.length ≠ (dPieces d).length → ∃ t o, exec (.fill h) s = .next t ∧ getFop? t s.nextFop = some o ∧ o.params = fillParams c d ∧ o.source = some h ∧
      o.tenant = c.tenant ∧ o.computed = false ∧ o.stopped = false ∧ o.outcomes = a.outs ∧ o.refused = 64 * (dPieces d).length ∧
      t = { a.s with fops := t.fops, nextFop := s.nextFop + 1 }) := by
  have data : DataOnly s a.s := ha ▸ wrPieces_data _ _ _ (Acc.on c.tenant 1 s) (fun _ _ moved => moved) (DataOnly.refl s)
  have next : a.s.nextFop = s.nextFop := by rw [show a.s = _ from data]
  have row : exec (.fill h) s = .next (fillStack c d s) := (exec_fill run alone hd).trans (next_congr (if_pos stack))
  rw [row, fillStack_free idle hps free ha]
  refine ⟨fun all => ⟨_, next_congr (if_pos all), finishMove_endsAs run alone data clean _ _⟩, fun some_ => ?_⟩
  refine ⟨_, fillFop c d a, (next_congr (if_neg some_)).trans (next_congr (startFop_served (.inl (isFill_fillFop run data.cmds a)))), ?_, rfl,
    congrArg some (getCmd?_handle run.1), rfl, rfl, rfl, rfl, rfl, ?_⟩
  · rw [← next]
    exact tabGet?_tabPut_same ..
  · rw [← next]

/-- A COPY that is no in-place transpose and changes something goes to its engine. -/
theorem exec_copy_moves {s : State} {h : Nat} {c : Cmd} {a b : Desc} {crc : CrcOutcome} (run : Running s h 0x0206 c)
    (ha : a = cmdDesc s c (lo32 (cmdParam c 0))) (hb : b = cmdDesc s c (hi32 (cmdParam c 0))) (plain : (cmdParam c 1).testBit 24 = false)
    (moves : ¬(a = b ∧ noPerm (cmdParam c 1 % 2 ^ 18))) :
    exec (.copy h crc) s = .next (onSluice c a b default (copyMove c a b (cmdParam c 1 % 2 ^ 18) crc) s) := by
  have low : bitsOf (cmdParam c 1) 17 0 = cmdParam c 1 % 2 ^ 18 := bitsOf_low ..
  refine (exec_copy run ha hb).trans (next_congr ?_)
  rw [if_neg (by simp [plain]), if_neg (by simp [plain]), low, if_neg fun e => moves ⟨e.1, (noPerm_iff _).mp e.2⟩]

/-- Settles O14. -/
theorem dataMoversMoveDataOnly : Obligations.DataMoversMoveDataOnly := by
  unfold Obligations.DataMoversMoveDataOnly
  refine ⟨fun s h c d run hd alone idle => ⟨fun a near untested engine ha clean => fill_ends run hd alone near untested engine ha clean,
      fun a ps stack hps free ha clean => fill_stack run hd alone idle stack hps free ha clean⟩,
    fun s h perm c a b run ha hb hperm => ?copy, fun s h c a b ix run ha hb hix => ?indexed,
    fun d f ps s fn source hd hf space inst off lo hi apart inside aligned =>
      zByte_wrPieces ⟨lo, hi⟩ inside hd (fun n a => ?slots) apart aligned _⟩
  case slots =>
    obtain ⟨basin, scratch, sdata⟩ := hf n a
    unfold zeroMems
    rw [basin, scratch, sdata]
  case copy =>
    subst hperm
    obtain rfl : c.handle = h := getCmd?_handle run.1
    refine ⟨fun e x plain moves goes engine apart hx clean => ?clean_, fun e plain moves goes engine meet => ?meet, fun crc x inPlace untested alone hx clean => ?inPlace,
      fun crc plain same noPerm_ turn => ?same, fun crc plain moves turn untested full full' engine => ?lost⟩
    case clean_ =>
      have data : DataOnly s x.s := hx ▸ wrPieces_data _ _ _ (Acc.on c.tenant 1 s) copySlots_data (DataOnly.refl s)
      have alone : Alone s c := goes.2.2.2.2.2.2
      refine ⟨⟨_, (exec_copy_moves run ha hb plain moves).trans (next_congr (onSluice_goes goes engine _)), ?_⟩,
        ⟨_, (exec_copy_moves run ha hb plain moves).trans (next_congr (onSluice_goes goes engine _)), ?_⟩⟩
      · have move : copyMove c a b (cmdParam c 1 % 2 ^ 18) .clean e (Acc.on c.tenant 1 s) = (64 * (dPieces b).length, x) := by
          subst hx
          exact if_neg (by simp [apart])
        rw [move]
        exact finishMove_endsAs run alone data clean _ _
      · have move : copyMove c a b (cmdParam c 1 % 2 ^ 18) .retried e (Acc.on c.tenant 1 s) =
            (64 * (dPieces b).length, addOut stRecomputed true { x with s := recordFault 1 12 (.sluice e) c.tenant 0 [] x.s }) := by
          subst hx
          exact if_neg (by simp [apart])
        rw [move]
        refine finishMove_endsAs run alone ?_ ?_ _ _
        · rw [Still.addOut_s]
          show DataOnly s (recordFault 1 12 (.sluice e) c.tenant 0 [] x.s)
          exact recordFault_data _ _ _ _ _ _ _ data
        · exact clean_addOut (by decide) clean
    case meet =>
      have alone : Alone s c := goes.2.2.2.2.2.2
      have move : copyMove c a b (cmdParam c 1 % 2 ^ 18) .clean e (Acc.on c.tenant 1 s) = (64 * (dPieces b).length, overlapped c b s) := if_pos meet
      obtain ⟨ended, moved⟩ := finishMove_ended run alone overlapped_data [b] (64 * (dPieces b).length)
      refine ⟨_, (overlapped c b s).outs, (exec_copy_moves run ha hb plain moves).trans (next_congr (onSluice_goes goes engine _)), ?_⟩
      rw [move]
      exact ⟨ended, freeEnd_outs .., moved⟩
    case inPlace =>
      subst hx
      have data : DataOnly s (transposeInPlace b (Acc.on c.tenant 1 s)).2.s := transposeInPlace_data b (Acc.on c.tenant 1 s) (DataOnly.refl s)
      refine ⟨_, (exec_copy run ha hb).trans (next_congr ((if_neg (by simp [untested])).trans (if_pos inPlace))), ?_⟩
      exact finishMove_endsAs run alone data clean _ _
    case same =>
      have low : bitsOf (cmdParam c 1) 17 0 = cmdParam c 1 % 2 ^ 18 := bitsOf_low ..
      refine ⟨_, (exec_copy run ha hb).trans (next_congr ((if_neg (by simp [plain])).trans ((if_neg (by simp [plain])).trans
        ((if_pos ⟨same, ?_⟩).trans (if_pos turn))))), ended_finishCmd _ 0 run.1 run.2.1, onlyCmd_finishCmd ..⟩
      rw [low]
      exact (noPerm_iff _).mpr noPerm_
    case lost =>
      have data : DataOnly s (scramble b s) := scramble_data _ _ (DataOnly.refl s)
      refine ⟨_, (exec_copy_moves run ha hb plain moves).trans (next_congr (onSluice_lost turn untested full full' engine _)),
        ended_finishCmd _ 0 ((getCmd?_of_cmds_eq data.cmds _).trans run.1) run.2.1, (onlyCmd_finishCmd ..).1⟩
  case indexed =>
    obtain rfl : c.handle = h := getCmd?_handle run.1
    refine ⟨fun e x l from_ some_ goes engine apart hl hfrom hx clean => ?_, fun crc none_ turn => ?_⟩
    · have alone : Alone s c := goes.2.2.2.2.2.2
      have read : DataOnly s l.2.s := hl ▸ indexList_data _ _ (Acc.on c.tenant 1 s) (DataOnly.refl s)
      have data : DataOnly s x.s := hx ▸ wrPieces_data _ _ _ l.2 indexedSlots_data read
      have move : indexedMove c a b ix ((cmdParam c 1).testBit 32) .clean e (Acc.on c.tenant 1 s) = (dCount ix, x) := by
        subst hx hfrom hl
        unfold indexedMove
        simp only [apart, Bool.false_eq_true, if_false]
        rfl
      refine ⟨_, (exec_copyIndexed run ha hb hix).trans (next_congr ((if_neg (by simp [some_])).trans (onSluice_goes goes engine _))), ?_⟩
      rw [move]
      exact finishMove_endsAs run alone data clean _ _
    · exact ⟨_, (exec_copyIndexed run ha hb hix).trans (next_congr ((if_pos none_).trans (if_pos turn))), ended_finishCmd _ 0 run.1 run.2.1, onlyCmd_finishCmd ..⟩

end Sys2Proof.Machine

/-! FAULT_HISTORY, ATTEST, MARGIN and FLIP_MASK (15 R373; 16 R387 to R390; 18 R430; 10 R239): the lengths of what they write,
and where it goes. -/

namespace Sys2Proof.Machine

/-! ### Lengths -/

theorem sliceB_length (bs : List Byte) (at_ len : Nat) : (sliceB bs at_ len).length = len := by
  simp only [sliceB, rep, List.length_append, List.length_take, List.length_drop, List.length_replicate]
  omega

theorem rep_length (n : Nat) (b : Byte) : (rep n b).length = n := List.length_replicate

theorem hostRead_length (s : State) (a n : Nat) : (hostRead s a n).length = n := by simp [hostRead, getBytes]

theorem flatMap_length_of {α : Type} {n : Nat} {f : α → List Byte} (each : ∀ x, (f x).length = n) (l : List α) : (l.flatMap f).length = n * l.length := by
  simp only [List.length_flatMap, each, List.map_const', List.sum_replicate, smul_eq_mul, mul_comm]

theorem le_roundUp (n : Nat) {k : Nat} (pos : 0 < k) : n ≤ roundUp n k := by
  unfold roundUp ceilDiv
  have := Nat.div_add_mod (n + k - 1) k
  have := Nat.mod_lt (n + k - 1) pos
  rw [mul_comm]
  omega

theorem sumBytes_length (s : State) (x : UnitSum) : (sumBytes s x).length = 16 := by simp [sumBytes, toLE_length]

theorem recBytes_length (r : FaultRec) : (recBytes r).length = 64 := by simp [recBytes, toLE_length, sliceB_length, rep_length]

theorem entryBytes_length (lane st use : Nat) (m : LaneMargin) (replaces : Nat) : (entryBytes lane st use m replaces).length = 16 := by
  simp [entryBytes, toLE_length]

theorem marginHeader_length (kind link lanes time : Nat) : (marginHeader kind link lanes time).length = 64 := by
  simp [marginHeader, toLE_length, rep_length]

/-! ### SHA3 gives 32 bytes -/

theorem sha3Lanes_length (f : Nat → Nat → W64) : (sha3Lanes f).length = 25 := rfl

theorem sha3Permute_length (a : List W64) : (sha3Permute a).length = 25 := by
  unfold sha3Permute
  rw [List.range_succ, List.foldl_append]
  exact sha3Lanes_length _

theorem sha3_length (m : List Byte) : (sha3 m).length = 32 := by
  unfold sha3
  dsimp only
  have lanes : ∀ (l : List Nat) (a : List W64), a.length = 25 →
      (l.foldl (fun s i => sha3Block s (((sha3Fill m).drop (136 * i)).take 136)) a).length = 25 := by
    intro l
    induction l with
    | nil => exact fun a h => h
    | cons i l ih => exact fun a _ => ih _ (sha3Permute_length _)
  rw [flatMap_length_of (f := fun w : W64 => toLE 8 w.toNat) (n := 8) (fun w => toLE_length 8 w.toNat), List.length_take, lanes _ _ (sha3Lanes_length _)]
  rfl

/-! ### The fault history -/

section
variable (s : State)

/-- Header and padded summaries of the history. -/
def historyHead : List Byte :=
  toLE 2 1 ++ toLE 2 s.hist.sums.length ++ toLE 4 (allRecords s).length ++ toLE 8 s.henua.operating.toNat ++ toLE 4 s.hist.resets ++ rep 44 0 ++
    s.hist.sums.flatMap (sumBytes s) ++ rep (roundUp (s.hist.sums.flatMap (sumBytes s)).length 64 - (s.hist.sums.flatMap (sumBytes s)).length) 0

theorem historyBytes_eq : historyBytes s = historyHead s ++ (allRecords s).reverse.flatMap recBytes := rfl

theorem sums_length : (s.hist.sums.flatMap (sumBytes s)).length = 16 * s.hist.sums.length := flatMap_length_of (sumBytes_length s) _

theorem historyHead_length : (historyHead s).length = 64 + roundUp (16 * s.hist.sums.length) 64 := by
  have padded := le_roundUp (16 * s.hist.sums.length) (k := 64) (by decide)
  simp only [historyHead, List.length_append, toLE_length, rep_length, sums_length]
  omega

theorem historyBytes_length : (historyBytes s).length = 64 + roundUp (16 * s.hist.sums.length) 64 + 64 * (allRecords s).length := by
  rw [historyBytes_eq, List.length_append, historyHead_length, flatMap_length_of recBytes_length, List.length_reverse]

theorem historyBytes_take : (historyBytes s).take 20 =
    toLE 2 1 ++ toLE 2 s.hist.sums.length ++ toLE 4 (allRecords s).length ++ toLE 8 s.henua.operating.toNat ++ toLE 4 s.hist.resets := by
  unfold historyBytes
  dsimp only
  rw [List.append_assoc _ (rep _ _), List.append_assoc _ (s.hist.sums.flatMap _), List.append_assoc _ (rep 44 0)]
  exact List.take_left' (by simp only [List.length_append, toLE_length])

theorem historyBytes_drop : (historyBytes s).drop (64 + roundUp (16 * s.hist.sums.length) 64) = (allRecords s).reverse.flatMap recBytes := by
  rw [historyBytes_eq, ← historyHead_length, List.drop_left]

/-! ### Reports -/

/-- What stands in a report before the nonce. -/
def reportLead (flag tenant : Nat) : List Byte :=
  toLE 2 1 ++ toLE 2 (b2n (decide (256 < (attestBundles s tenant).length)) + 2 * flag) ++ toLE 1 tenant ++ toLE 1 0 ++
    toLE 2 ((attestBundles s tenant).drop ((attestBundles s tenant).length - 256)).length ++ toLE 8 (now s)

/-- The image, the fuses and the module's other words in a report. -/
def reportState (im : Image) : List Byte :=
  toLE 8 s.dpt.incarnation.toNat ++ toLE 8 Config.serial.toNat ++ sliceB im.digest 0 32 ++ sha3 (sliceB im.header 0 2048) ++
    toLE 2 im.major ++ toLE 2 im.minor ++ toLE 2 im.abi ++ toLE 1 im.svn ++ toLE 1 im.keySlot ++ toLE 1 s.fuses.rollback ++
    toLE 1 (slotBits s (·.programmed)) ++ toLE 1 (slotBits s (·.revoked)) ++ toLE 1 (gradeCode s) ++ toLE 4 Config.romVersion.toNat ++ rep 368 0

/-- A bundle in a report. -/
def reportBundle (e : Nat × Bundle) : List Byte := sliceB e.2.digest 0 32 ++ toLE 8 e.1 ++ toLE 2 e.2.abi ++ rep 6 0

theorem reportBody_eq (flag tenant : Nat) (nonce : List Byte) : reportBody s flag tenant nonce =
    reportLead s flag tenant ++ (sliceB nonce 0 32 ++ (reportState s (s.henua.image.getD ⟨0, 0, 0, 0, 0, [], []⟩) ++
      ((attestBundles s tenant).drop ((attestBundles s tenant).length - 256)).flatMap reportBundle)) := by
  have bundles (l : List (Nat × Bundle)) : l.flatMap reportBundle =
      l.flatMap fun e => sliceB e.2.digest 0 32 ++ toLE 8 e.1 ++ toLE 2 e.2.abi ++ rep 6 0 := rfl
  unfold reportBody reportLead reportState
  rw [bundles]
  dsimp only
  simp only [List.append_assoc]

theorem reportLead_length (flag tenant : Nat) : (reportLead s flag tenant).length = 16 := by
  simp only [reportLead, List.length_append, toLE_length]

theorem reportState_length (im : Image) : (reportState s im).length = 464 := by
  simp only [reportState, List.length_append, toLE_length, sliceB_length, rep_length, sha3_length]

theorem reportBundle_length (e : Nat × Bundle) : (reportBundle e).length = 48 := by
  simp only [reportBundle, List.length_append, toLE_length, sliceB_length, rep_length]

theorem reportBody_length (flag tenant : Nat) (nonce : List Byte) :
    (reportBody s flag tenant nonce).length = 512 + 48 * min 256 (attestBundles s tenant).length := by
  rw [reportBody_eq, List.length_append, List.length_append, List.length_append, reportLead_length, sliceB_length, reportState_length,
    flatMap_length_of reportBundle_length, List.length_drop]
  omega

theorem report_length (flag tenant : Nat) (nonce : List Byte) :
    (report s flag tenant nonce).length = 3840 + 48 * min 256 (attestBundles s tenant).length := by
  simp only [report, List.length_append, List.length_map, List.length_range, reportBody_length, rep_length]
  omega

/-- The nonce stands in the report. -/
theorem report_nonce (flag tenant : Nat) {nonce : List Byte} (whole : nonce.length = 32) : sliceB (report s flag tenant nonce) 16 32 = nonce := by
  have same : sliceB nonce 0 32 = nonce := by simp [sliceB, rep, whole]
  have place (x y z : List Byte) (hx : x.length = 16) : sliceB (x ++ (nonce ++ y) ++ z) 16 32 = nonce := by
    simp [sliceB, rep, hx, whole]
  unfold report
  dsimp only
  rw [reportBody_eq, same, List.append_assoc _ _ (rep 19 0)]
  exact place _ _ _ (reportLead_length ..)

end

/-! ### Buffers in host memory -/

section
variable {s : State}

/-- Bytes put into host memory, and none else. -/
theorem hostPut_of_host {t : State} {a : Nat} {bs : List Byte} (after : t.mem.host = putBytes a bs s.mem.host) : hostPut s t a bs := by
  unfold hostPut hostRead
  rw [after]
  exact ⟨getBytes_putBytes .., fun b apart => getBytes_putBytes_apart _ _ _ (by omega)⟩

theorem freshVal_frame (n : Nat) (s : State) : (freshVal n s).2 = { s with freeCtr := (freshVal n s).2.freeCtr } := by
  induction n generalizing s with
  | zero => rfl
  | succ n ih => exact (ih (freshByte s).2).trans rfl

theorem unmeasured_frame (lane use replaces : Nat) (s : State) :
    (unmeasured lane use replaces s).2 = { s with freeCtr := (unmeasured lane use replaces s).2.freeCtr } := freshVal_frame ..

theorem groupEntries_frame (x : Stack) (group : Nat) (ms : List LaneMargin) (swept l : List Nat) (s : State) :
    (groupEntries x group ms swept l s).2 = { s with freeCtr := (groupEntries x group ms swept l s).2.freeCtr } := by
  induction l generalizing s with
  | nil => rfl
  | cons i l ih =>
    unfold groupEntries
    dsimp only
    split
    · exact ih s
    · rw [ih, unmeasured_frame]

theorem groupEntries_length (x : Stack) (group : Nat) (ms : List LaneMargin) (swept l : List Nat) (s : State) :
    (groupEntries x group ms swept l s).1.length = 16 * l.length := by
  induction l generalizing s with
  | nil => rfl
  | cons i l ih =>
    unfold groupEntries
    dsimp only
    rw [List.length_append, ih, List.length_cons]
    split
    · rw [entryBytes_length]
      omega
    · rw [unmeasured, entryBytes_length]
      omega

theorem marginLane_length (kind link lane : Nat) (ms : List LaneMargin) : (marginLane kind link lane ms s).1.length = 16 := by
  unfold marginLane
  split
  · exact entryBytes_length ..
  · exact entryBytes_length ..

theorem marginLane_frame (kind link lane : Nat) (ms : List LaneMargin) :
    (marginLane kind link lane ms s).2 = { s with freeCtr := (marginLane kind link lane ms s).2.freeCtr } := by
  unfold marginLane
  split
  · rfl
  · exact unmeasured_frame ..

/-- The failing lanes of a group with the spares that they take. -/
def takenSpares (x : Stack) (group : Nat) (ms : List LaneMargin) : List (Nat × Nat) :=
  (if idleSpares x group = [] then [] else (sweptLanes x group).filter fun l => !marginOk (ms.getD (l - 34 * group) ⟨0, 0, 0, 0⟩)).zip (idleSpares x group)

theorem takenSpares_eq (x : Stack) (group : Nat) (ms : List LaneMargin) : takenSpares x group ms =
    ((if (idleSpares x group).isEmpty then [] else sweptLanes x group).filter fun l => !marginOk (ms.getD (l - 34 * group) ⟨0, 0, 0, 0⟩)).zip
      (idleSpares x group) := by
  unfold takenSpares
  by_cases none_ : idleSpares x group = []
  · simp [none_]
  · simp [none_]

theorem marginGroup_length (k group : Nat) (ms : List LaneMargin) : (marginGroup k group ms s).1.length = 544 := groupEntries_length ..

def addSpares (l : List (Nat × Nat)) (x : Stack) : Stack := { x with spares := x.spares ++ l }

/-- They take them. -/
def takeSpares (group : Nat) (ms : List LaneMargin) (x : Stack) : Stack := addSpares (takenSpares x group ms) x

theorem marginGroup_frame (k group : Nat) (ms : List LaneMargin) : (marginGroup k group ms s).2 =
    { modStk k (takeSpares group ms) s with freeCtr := (marginGroup k group ms s).2.freeCtr } := by
  have takes : modStk k (takeSpares group ms) s = modStk k (addSpares
      (((if (idleSpares (getStk s k) group).isEmpty then [] else sweptLanes (getStk s k) group).filter
        fun l => !marginOk (ms.getD (l - 34 * group) ⟨0, 0, 0, 0⟩)).zip (idleSpares (getStk s k) group))) s := by
    unfold modStk tabMod takeSpares getStk
    rw [takenSpares_eq]
  rw [takes]
  exact groupEntries_frame ..

end

/-! ### The rows -/

section
variable {s : State} {h : Nat} {c : Cmd}

/-- A flip mask is loaded and armed, or disarmed by zeros. -/
def loadFlip (m : Nat) (x : Stack) : Stack := { x with flipMask := BitVec.ofNat 576 m, flipArmed := m != 0, flipFired := false }

theorem loadFlip_loaded {t : State} {k m : Nat} (stks : t.stks = (modStk k (loadFlip m) s).stks) {P : Prop} (frame : P) :
    (getStk t k).flipMask = BitVec.ofNat 576 m ∧ ((getStk t k).flipArmed = true ↔ m ≠ 0) ∧ (getStk t k).flipFired = false ∧
      (∀ j, j ≠ k → getStk t j = getStk s j) ∧ P := by
  have loaded : getStk t k = loadFlip m (getStk s k) := (getStk_congr stks k).trans (getStk_modStk ..)
  rw [loaded]
  exact ⟨rfl, bne_iff_ne, rfl, fun j other => (getStk_congr stks j).trans (getStk_modStk_ne _ _ other), frame⟩

theorem exec_flipMask (run : Running s h 0x0707 c) : exec (.flipMask h) s = .next
    (if stackUsable s (cmdParam c 0 % 2 ^ 3) then
      finishCmd h [] 0 (modStk (cmdParam c 0 % 2 ^ 3) (loadFlip (leNat (hostRead s (cmdParam c 1) 72))) (hostFetch c.tenant (cmdParam c 1) 72 s))
    else finishCmd h [stDeviceFault] 0 (hostFetch c.tenant (cmdParam c 1) 72 s)) := by
  rw [← bitsOf_low (cmdParam c 0) 2]
  show execFlipMask h s = _
  unfold execFlipMask
  rw [runCmd_next run]
  rfl

theorem exec_faultHistory (run : Running s h 0x0704 c) : exec (.faultHistory h) s = .next
    (finishCmd h [] ((historyBytes s).take (cmdParam c 1)).length (hostWrite c.tenant (cmdParam c 0) ((historyBytes s).take (cmdParam c 1)) s)) := by
  show execFaultHistory h s = _
  unfold execFaultHistory
  rw [runCmd_next run]
  rfl

theorem exec_attest (run : Running s h 0x0708 c) : exec (.attest h) s = .next
    (finishCmd h [] (report s 0 c.tenant (hostRead s (cmdParam c 0) 32)).length
      (hostWrite c.tenant (cmdParam c 1) (report s 0 c.tenant (hostRead s (cmdParam c 0) 32)) (hostFetch c.tenant (cmdParam c 0) 32 s))) := by
  show execAttest h s = _
  unfold execAttest
  rw [runCmd_next run]
  rfl

/-- What a MARGIN measures, as the entries of its buffer. -/
def margined (kind link lane : Nat) (lanes : List LaneMargin) (s : State) : List Byte × State :=
  if kind = 1 then marginGroup link lane lanes s else marginLane kind link lane lanes s

theorem margined_length (kind link lane : Nat) (lanes : List LaneMargin) (s : State) :
    (margined kind link lane lanes s).1.length = 16 * if kind = 1 then 34 else 1 := by
  unfold margined
  split
  · exact marginGroup_length ..
  · exact marginLane_length ..

/-- The stacks after a MARGIN: a failing lane takes a spare. -/
def marginedStks (kind link lane : Nat) (lanes : List LaneMargin) (s : State) : Tab Stack :=
  if kind = 1 then (modStk link (takeSpares lane lanes) s).stks else s.stks

theorem margined_frame (kind link lane : Nat) (lanes : List LaneMargin) (s : State) : (margined kind link lane lanes s).2 =
    { s with stks := marginedStks kind link lane lanes s, freeCtr := (margined kind link lane lanes s).2.freeCtr } := by
  unfold margined marginedStks
  split
  · exact marginGroup_frame ..
  · exact marginLane_frame ..

theorem margined_cmds (kind link lane : Nat) (lanes : List LaneMargin) (s : State) : (margined kind link lane lanes s).2.cmds = s.cmds := by
  rw [margined_frame]

theorem margined_mem (kind link lane : Nat) (lanes : List LaneMargin) (s : State) : (margined kind link lane lanes s).2.mem = s.mem := by
  rw [margined_frame]

theorem margined_stks (kind link lane : Nat) (lanes : List LaneMargin) (s : State) :
    (margined kind link lane lanes s).2.stks = marginedStks kind link lane lanes s := by
  rw [margined_frame]

/-- What a MARGIN leaves alone. -/
theorem margin_frame {u : State} {stks : Tab Stack} (e : u = { s with stks := stks, freeCtr := u.freeCtr }) (outs : List Nat) (value fn a : Nat) (bs : List Byte) :
    finishCmd h outs value (hostWrite fn a bs u) = { s with
      cmds := (finishCmd h outs value (hostWrite fn a bs u)).cmds, out := (finishCmd h outs value (hostWrite fn a bs u)).out,
      mem := { s.mem with host := (finishCmd h outs value (hostWrite fn a bs u)).mem.host },
      stks := (finishCmd h outs value (hostWrite fn a bs u)).stks, freeCtr := (finishCmd h outs value (hostWrite fn a bs u)).freeCtr } := by
  rw [e]
  rfl

theorem exec_margin {kind link lane : Nat} {lanes : List LaneMargin} (run : Running s h 0x0702 c) (hkind : kind = cmdParam c 0 % 2 ^ 4)
    (hlink : link = cmdParam c 0 / 2 ^ 8 % 2 ^ 8) (hlane : lane = cmdParam c 0 / 2 ^ 16 % 2 ^ 8) : exec (.margin h lanes) s = .next
    (if !marginLink s kind link then finishCmd h [stDeviceFault] 0 s
     else if marginWaits s c then s
     else finishCmd h [] (marginHeader kind link (if kind = 1 then 34 else 1) (now s) ++ (margined kind link lane lanes s).1).length
       (hostWrite c.tenant (cmdParam c 1) (marginHeader kind link (if kind = 1 then 34 else 1) (now s) ++ (margined kind link lane lanes s).1)
         (margined kind link lane lanes s).2)) := by
  have low : kind = bitsOf (cmdParam c 0) 3 0 := hkind.trans (bitsOf_low ..).symm
  subst low hlink hlane
  show execMargin h lanes s = _
  unfold execMargin
  rw [runCmd_next run]
  rfl

end

/-- Settles O48. -/
theorem diagnosticsWriteTheirBuffers : Obligations.DiagnosticsWriteTheirBuffers := by
  unfold Obligations.DiagnosticsWriteTheirBuffers
  intro s h c
  refine ⟨⟨historyBytes_take s, historyBytes_length s, historyBytes_drop s⟩, fun run => ?history, fun r run hr => ?attest, fun k run hk => ?flip,
    fun kind link lane lanes run hkind hlink hlane => ?margin⟩
  case history =>
    refine ⟨_, exec_faultHistory run, ?_, hostPut_of_host rfl, rfl⟩
    rw [← List.length_take]
    exact ended_finishCmd _ _ run.1 run.2.1
  case attest =>
    have length : r.length = 3840 + 48 * min 256 (attestBundles s c.tenant).length := hr ▸ report_length ..
    have nonce : sliceB r 16 32 = hostRead s (cmdParam c 0) 32 := hr ▸ report_nonce _ _ _ (hostRead_length ..)
    have row := exec_attest run
    rw [← hr] at row
    rw [← length]
    exact ⟨_, row, ended_finishCmd _ _ run.1 run.2.1, hostPut_of_host rfl, rfl, nonce, rfl⟩
  case flip =>
    subst hk
    rw [exec_flipMask run]
    refine ⟨fun usable => ⟨_, next_congr (if_pos usable), ended_finishCmd _ _ run.1 run.2.1, ?_⟩,
      fun lost => ⟨_, next_congr (if_neg (by rw [lost]; decide)), ended_finishCmd _ _ run.1 run.2.1, rfl⟩⟩
    exact loadFlip_loaded (s := s) (m := leNat (hostRead s (cmdParam c 1) 72)) rfl rfl
  case margin =>
    rw [exec_margin run hkind hlink hlane]
    refine ⟨fun lost => ⟨_, next_congr (if_pos (by simp [lost])), ended_finishCmd _ _ run.1 run.2.1, onlyCmd_finishCmd ..⟩,
      fun up waits => next_congr ((if_neg (by simp [up])).trans (if_pos waits)), fun n up goes hn => ?_⟩
    subst hn
    refine ⟨_, marginHeader kind link (if kind = 1 then 34 else 1) (now s) ++ (margined kind link lane lanes s).1,
      next_congr ((if_neg (by simp [up])).trans (if_neg (by simp [goes]))), ?_, List.take_left' (marginHeader_length ..), ?_, ?_⟩
    · rw [List.length_append, marginHeader_length, margined_length]
    · exact ended_finishCmd _ _ ((getCmd?_of_cmds_eq (margined_cmds ..) h).trans run.1) run.2.1
    refine ⟨hostPut_of_host (congrArg (fun m : Memories => putBytes _ _ m.host) (margined_mem ..)), fun other => ?_, fun same => ?_, ?_⟩
    · refine ⟨(margined_stks ..).trans (if_neg other), fun lit => ?_⟩
      refine (List.drop_left' (marginHeader_length ..)).trans ?_
      rw [margined, if_neg other, marginLane, if_pos lit]
    · have stks : (margined kind link lane lanes s).2.stks = (modStk link (takeSpares lane lanes) s).stks := (margined_stks ..).trans (if_pos same)
      refine ⟨fun j other => (getStk_congr stks j).trans (getStk_modStk_ne _ _ other), ((getStk_congr stks link).trans (getStk_modStk ..)).trans ?_⟩
      rfl
    · exact margin_frame (margined_frame ..) ..

end Sys2Proof.Machine

/-! A logic self-test and a SELFTEST command that has ended before it (16 R386). -/

namespace Sys2Proof.Machine

/-! ### The scheduler without runs -/

section
variable {s : State} (idle : s.runs = [])
include idle

theorem fillTiles_idle : fillTiles s = s := by
  unfold fillTiles
  rw [idle]
  rfl

theorem schedule_idle : schedule s = s := by
  have none_ : candidates s = [] := by
    unfold candidates
    rw [idle]
    rfl
  unfold schedule
  rw [none_]
  split
  · rfl
  · rfl

end

/-! ### The counterexample -/

/-- A SELFTEST of tenant 0 with handle 1 that has ended with VALUE 5. -/
def endedSelftest : Cmd :=
  { handle := 1, order := 0, tenant := 0, sq := 0, pkt := ⟨0x0701, 0, 0, 0, 0, 0, 0, [], 0⟩, admitTime := 0, stage := .done, outcomes := [],
    value := 5, desc := none, binds := [], targets := [], rivals := [], silent := false }

/-- A module in which a test of tile 0 runs for that command. -/
def testAfterEnd : State :=
  { State.reset with
    cmds := [endedSelftest]
    tiles := tabPut 0 { getTile State.reset 0 with underTest := true } State.reset.tiles
    test := { State.reset.test with running := [⟨.tile 0, [1], false, 0⟩] } }

/-- The VALUEs of the live commands after a step. -/
def valuesAfter : Res → List Nat
  | .next t => t.cmds.map (·.value)
  | _ => []

/-- The test passes, and the command that has ended keeps its VALUE. -/
theorem valuesAfter_pass : valuesAfter (exec (.selftestComplete (.tile 0) [] []) testAfterEnd) = [5] := by decide +kernel

/-- Refutes O50: the statement is over every state, those included that no history gives, and says that a test that passes ends each of its commands with VALUE 0; a
command that has ended already stays as it is, with its VALUE. -/
theorem not_testsRotateAndSettle : ¬ Obligations.TestsRotateAndSettle := by
  unfold Obligations.TestsRotateAndSettle
  intro holds
  obtain ⟨-, -, -, settles⟩ := holds testAfterEnd
  obtain ⟨passes, -⟩ := settles 0 ⟨.tile 0, [1], false, 0⟩ (by decide) rfl rfl
  obtain ⟨u, row, -, -, -, -, -, ends, -, frame⟩ := passes [] rfl
  have ended : Ended u 1 endedSelftest [] 0 := ends 1 endedSelftest (List.mem_singleton.mpr rfl) rfl (by decide)
  have runs : u.runs = [] := by rw [frame]; rfl
  have values := valuesAfter_pass
  rw [row, fillTiles_idle runs, schedule_idle runs] at values
  have values : u.cmds.map (·.value) = [5] := values
  obtain ⟨c, l, cmds, five, rest⟩ := List.map_eq_cons_iff.mp values
  obtain rfl := List.map_eq_nil_iff.mp rest
  have zero : c.value = 0 := by
    have mem := mem_of_getCmd? ended
    rw [cmds, List.mem_singleton] at mem
    rw [← mem]
  omega

end Sys2Proof.Machine

/-! The power state: requests, wakes and what it decides (17 R394 to R408). -/

namespace Sys2Proof.Machine

/-! ### Small rules -/

section
variable {s : State}

/-- Outside an entry the state in force is the present one. -/
theorem powerEff_steady (steady : s.pm.transition = false) : powerEff s = s.pm.state := by
  unfold powerEff
  rw [steady]
  rfl

theorem modPm_eq (g : PowerSt → PowerSt) (s : State) : modPm g s = { s with pm := g s.pm } := rfl

/-- The wake that a wake source begins from Idle or Hold. -/
def woken (code : Nat) (s : State) : State :=
  { s with pm := { s.pm with waking := true, transition := true, lastWake := code, wakes := s.pm.wakes + 1, heldWake := none } }

theorem wakeSource_asleep {code : Nat} (small : code ≤ 7) (free : s.pm.stopHold = false) (awake : s.pm.waking = false) (steady : s.pm.transition = false)
    (low : s.pm.state = .idle ∨ s.pm.state = .hold) : wakeSource code true s = woken code s := by
  unfold wakeSource startWake
  dsimp only
  rw [powerEff_steady steady, if_pos (by simpa using low.symm), if_neg (by simp [awake]), if_neg (by simp [free, steady]), if_pos small]
  rfl

theorem wakeSource_up (code : Nat) (steady : s.pm.transition = false) (up : s.pm.state = .run ∨ s.pm.state = .trim) : wakeSource code true s = s := by
  unfold wakeSource
  dsimp only
  rw [powerEff_steady steady, if_neg]
  rcases up with e | e <;> simp [e]

theorem flushAll_data {s0 : State} (s : State) (data : DataOnly s0 s) : DataOnly s0 (flushAll s) :=
  forEach_data (fun _ _ moved => forEach_data (fun e t moved => flushBlk_data e.blk t moved) _ _ moved) _ _ data

theorem WorkOnly.of_data {t : State} (data : DataOnly s t) : WorkOnly s t := by
  unfold DataOnly at data
  unfold WorkOnly
  rw [data]

theorem holdWake_eq (c : Bool) (s : State) : holdWake c s = { s with pm := (holdWake c s).pm } := by
  unfold holdWake whenS
  split
  · rfl
  · rfl

theorem holdWake_state (c : Bool) (s : State) : (holdWake c s).pm.state = s.pm.state ∧ (holdWake c s).pm.transition = s.pm.transition := by
  unfold holdWake whenS
  split
  · exact ⟨rfl, rfl⟩
  · exact ⟨rfl, rfl⟩

end

/-! ### POWER_STATE -/

section
variable {s : State} {h n : Nat} {c : Cmd}

/-- The entry that `target` asks for has begun. -/
def entering (target : Power) (s : State) : State := { s with pm := { s.pm with transition := true, target := target } }

theorem beginEntry_idle : beginEntry .idle s = entering .idle s := rfl

theorem beginEntry_hold (stopped : ∀ r ∈ s.runs, r.2.state ≠ .running) : beginEntry .hold s = entering .hold s := by
  have none_ : s.runs.filter (fun e => e.2.state == .running) = [] := List.filter_eq_nil_iff.mpr fun r mem => by simpa using stopped r mem
  unfold beginEntry
  rw [if_pos rfl, none_]
  rfl

theorem exec_powerState (run : Running s h 0x0703 c) (hn : n = cmdParam c 0 % 2 ^ 3) (free : s.pm.stopHold = false) (awake : s.pm.waking = false)
    (steady : s.pm.transition = false) : exec (.powerState h) s = .next
    (if s.pm.state = powerOf n then finishCmd h [] c.admitTime s
     else
      match powerOf n with
      | .run => if s.pm.state == .idle || s.pm.state == .hold then wakeSource (if c.silent then 6 else 1) true s
          else schedule (finishCmd h [] (now s) (modPm (fun q => { q with state := .run }) s))
      | .trim => if s.pm.state == .idle || s.pm.state == .hold then wakeSource (if c.silent then 6 else 1) true s
          else schedule (finishCmd h [] (now s) (modPm (fun q => { q with state := .trim }) s))
      | .idle => if s.pm.state = .hold then s
          else if idleReady (beginEntry .idle s) then finishCmd h [] (now s) (enterIdle (beginEntry .idle s)) else beginEntry .idle s
      | .hold => if holdBlocked s then schedule (finishCmd h [stWindow] 0 (modPm (fun q => { q with transition := false, target := q.state }) s))
          else if holdReady (beginEntry .hold s) then finishCmd h [] (now s) (enterHold (beginEntry .hold s)) else beginEntry .hold s) := by
  have low : n = bitsOf (cmdParam c 0) 2 0 := hn.trans (bitsOf_low ..).symm
  subst low
  show execPowerState h s = _
  unfold execPowerState
  rw [runCmd_next run]
  dsimp only
  simp only [free, awake, steady, Bool.false_eq_true, false_and, if_false, and_true, Bool.not_false, Bool.and_true]
  rfl

/-- Requests of Run and Trim from Idle and Hold. -/
theorem exec_powerState_wakes (run : Running s h 0x0703 c) (hn : n = cmdParam c 0 % 2 ^ 3) (free : s.pm.stopHold = false) (awake : s.pm.waking = false)
    (steady : s.pm.transition = false) (low : s.pm.state = .idle ∨ s.pm.state = .hold) (up : powerOf n = .run ∨ powerOf n = .trim) :
    exec (.powerState h) s = .next (woken (if c.silent then 6 else 1) s) := by
  have code : (if c.silent then 6 else 1) ≤ 7 := by split <;> decide
  have other : s.pm.state ≠ powerOf n := by
    rcases low with e | e <;> rcases up with f | f <;> simp [e, f]
  have asleep : (s.pm.state == .idle || s.pm.state == .hold) = true := by simpa using low
  rw [exec_powerState run hn free awake steady, if_neg other, ← wakeSource_asleep code free awake steady low]
  rcases up with f | f
  · rw [f]
    exact next_congr (if_pos asleep)
  · rw [f]
    exact next_congr (if_pos asleep)

theorem exec_powerState_switch (run : Running s h 0x0703 c) (hn : n = cmdParam c 0 % 2 ^ 3) (free : s.pm.stopHold = false) (awake : s.pm.waking = false)
    (steady : s.pm.transition = false) (switch : (s.pm.state = .run ∧ powerOf n = .trim) ∨ (s.pm.state = .trim ∧ powerOf n = .run)) :
    exec (.powerState h) s = .next (schedule (finishCmd h [] (now s) { s with pm := { s.pm with state := powerOf n } })) := by
  rw [exec_powerState run hn free awake steady]
  obtain ⟨e, f⟩ | ⟨e, f⟩ := switch
  · rw [if_neg (by simp [e, f]), f]
    exact next_congr (if_neg (by simp [e]))
  · rw [if_neg (by simp [e, f]), f]
    exact next_congr (if_neg (by simp [e]))

theorem exec_powerState_idle (run : Running s h 0x0703 c) (hn : n = cmdParam c 0 % 2 ^ 3) (free : s.pm.stopHold = false) (awake : s.pm.waking = false)
    (steady : s.pm.transition = false) (up : s.pm.state = .run ∨ s.pm.state = .trim) (idle : powerOf n = .idle) : exec (.powerState h) s = .next
    (if idleReady s then finishCmd h [] (now s) (enterIdle (entering .idle s)) else entering .idle s) := by
  have other : s.pm.state ≠ .hold ∧ s.pm.state ≠ .idle := by rcases up with e | e <;> simp [e]
  rw [exec_powerState run hn free awake steady, idle, if_neg other.2]
  exact next_congr (if_neg other.1)

theorem exec_powerState_hold (run : Running s h 0x0703 c) (hn : n = cmdParam c 0 % 2 ^ 3) (free : s.pm.stopHold = false) (awake : s.pm.waking = false)
    (steady : s.pm.transition = false) (other : s.pm.state ≠ .hold) (hold : powerOf n = .hold) : exec (.powerState h) s = .next
    (if holdBlocked s then schedule (finishCmd h [stWindow] 0 (modPm (fun q => { q with transition := false, target := q.state }) s))
     else if holdReady (beginEntry .hold s) then finishCmd h [] (now s) (enterHold (beginEntry .hold s)) else beginEntry .hold s) := by
  rw [exec_powerState run hn free awake steady, hold, if_neg other]

theorem enterIdle_eq (s : State) : enterIdle s = { s with pm := (enterIdle s).pm } := holdWake_eq ..

theorem enterIdle_state (s : State) : (enterIdle s).pm.state = .idle ∧ (enterIdle s).pm.transition = false := holdWake_state ..

/-- The power management in Hold. -/
def inHold (p : PowerSt) : PowerSt := { p with state := .hold, target := .hold, transition := false, saved := true }

theorem enterHold_wakes (s : State) : ∃ b, enterHold s = holdWake b (modPm inHold (flushAll s)) := ⟨_, rfl⟩

theorem holdWake_inHold (b : Bool) (u : State) : holdWake b (modPm inHold u) = { u with pm := (holdWake b (modPm inHold u)).pm } := holdWake_eq ..

theorem enterHold_state (s : State) : (enterHold s).pm.state = .hold ∧ (enterHold s).pm.transition = false := by
  obtain ⟨b, e⟩ := enterHold_wakes s
  rw [e]
  exact holdWake_state b (modPm inHold (flushAll s))

theorem enterHold_work (s : State) : WorkOnly s (enterHold s) := by
  have flushed : WorkOnly s (flushAll s) := WorkOnly.of_data (flushAll_data s (DataOnly.refl s))
  obtain ⟨b, e⟩ := enterHold_wakes s
  rw [e, holdWake_inHold]
  exact WorkOnly.mk' flushed

theorem enterHold_cmds (s : State) : (enterHold s).cmds = s.cmds := by
  obtain ⟨b, e⟩ := enterHold_wakes s
  have keeps (u : State) : (holdWake b (modPm inHold u)).cmds = u.cmds := by rw [holdWake_inHold]
  rw [e, keeps]
  exact (flushAll_data s (DataOnly.refl s)).cmds

theorem enters_hold (run : Running s h 0x0703 c) (hn : n = cmdParam c 0 % 2 ^ 3) (free : s.pm.stopHold = false) (awake : s.pm.waking = false)
    (steady : s.pm.transition = false) (other : s.pm.state ≠ .hold) (hold : powerOf n = .hold) (open_ : holdBlocked s = false)
    (stopped : ∀ r ∈ s.runs, r.2.state ≠ .running) (ready : holdReady s = true) :
    ∃ t, exec (.powerState h) s = .next t ∧ Ended t h c [] (now s) ∧ t.pm.state = .hold ∧ t.pm.transition = false ∧ WorkOnly s t := by
  have work : WorkOnly s (enterHold (entering .hold s)) := (show WorkOnly s (entering .hold s) from rfl).trans (enterHold_work _)
  have cmds : (enterHold (entering .hold s)).cmds = s.cmds := enterHold_cmds _
  obtain ⟨state, steady'⟩ := enterHold_state (entering .hold s)
  have row : exec (.powerState h) s = .next (finishCmd h [] (now s) (enterHold (entering .hold s))) := by
    rw [exec_powerState_hold run hn free awake steady other hold, if_neg (by simp [open_]), beginEntry_hold stopped]
    exact next_congr (if_pos ready)
  generalize enterHold (entering .hold s) = u at *
  exact ⟨_, row, ended_finishCmd _ _ ((getCmd?_of_cmds_eq cmds h).trans run.1) run.2.1, state, steady', finishCmd_work _ _ _ _ work⟩

end

/-! ### Wakes -/

section
variable {s : State}

/-- Run is entered, before the commands that asked for it end. -/
def runEntered (s : State) : State :=
  { s with pm := { s.pm with state := .run, target := .run, transition := false, waking := false, saved := false, stopLoss := false } }

theorem enterRun_eq (s : State) : enterRun s = { runEntered s with cmds := (enterRun s).cmds } := by
  unfold enterRun
  dsimp only
  generalize (List.map _ _ : List Nat) = hs
  show forEach (fun h => finishCmd h [] (now s)) hs (runEntered s) = { runEntered s with cmds := (forEach (fun h => finishCmd h [] (now s)) hs (runEntered s)).cmds }
  generalize runEntered s = u
  induction hs generalizing u with
  | nil => rfl
  | cons h hs ih =>
    show forEach _ hs (finishCmd h [] (now s) u) = _
    rw [ih]
    rfl

/-- Commands that end in turn with one VALUE: one that is named and runs has ended with it. -/
theorem ended_forEach_finishCmd {hs : List Nat} {u : State} {h value : Nat} {c : Cmd} (live : getCmd? u h = some c) (running : c.stage = .running)
    (named : h ∈ hs) : Ended (forEach (fun h => finishCmd h [] value) hs u) h c [] value := by
  have stays (d : Cmd) (done : d.stage = .done) : ∀ (hs : List Nat) (u : State), getCmd? u h = some d →
      getCmd? (forEach (fun h => finishCmd h [] value) hs u) h = some d := by
    intro hs
    induction hs with
    | nil => exact fun _ there => there
    | cons k hs ih =>
      refine fun u there => ih (finishCmd k [] value u) ?_
      by_cases same : h = k
      · subst same
        rw [finishCmd, getCmd?_modCmd _ (Cmd.ended_handle _ _ _) there, Cmd.ended, if_pos done]
      · exact ((onlyCmd_finishCmd u k [] value).2 h same).trans there
  induction hs generalizing u with
  | nil => exact absurd named (by simp)
  | cons k hs ih =>
    by_cases same : h = k
    · subst same
      exact stays _ rfl hs (finishCmd h [] value u) (ended_finishCmd [] value live running)
    · exact ih (((onlyCmd_finishCmd u k [] value).2 h same).trans live) ((List.mem_cons.mp named).resolve_left same)

theorem enterRun_ends {h : Nat} {c : Cmd} (live : getCmd? s h = some c) (code : c.pkt.opcode = 0x0703) (running : c.stage = .running)
    (asks : cmdParam c 0 % 2 ^ 3 = 0) : Ended (enterRun s) h c [] (now s) := by
  obtain rfl : c.handle = h := getCmd?_handle live
  refine ended_forEach_finishCmd live running (List.mem_map.mpr ⟨c, List.mem_filter.mpr ⟨mem_of_getCmd? live, ?_⟩, rfl⟩)
  have low : bitsOf (pk c.pkt 0) 2 0 = 0 := (bitsOf_low ..).trans asks
  simp [code, running, low]

theorem enterRun_goes {s0 : State} (goes : CmdsGo s0 s) : CmdsGo s0 (enterRun s) :=
  forEach_goes _ _ _ (fun h t goes => finishCmd_goes h [] _ t goes) goes

end

/-! ### The end of a wake -/

section
variable {s : State}

theorem exec_wakeComplete {failed : List Nat} {l : List (Nat × List Nat)} (known : failed.all stackOk = true)
    (lanes : (l.all fun e : Nat × List Nat => stackOk e.1 && e.2.all laneOk) = true) : exec (.wakeComplete failed l) s = .next
    (if s.pm.waking then fillTiles (schedule (serveHeld (if s.pm.state = .hold then
        forEach (fun k => retireUnit 14 (.stack k) 0xFF) failed (forEach (trainLink l) ((l.map (·.1)).foldl (fun l k => setIns k l) [] |>.filter
          (stackUsable (enterRun (if s.pm.state = .hold then lossEvents (wakeMemories s) else s)))) (enterRun (if s.pm.state = .hold then lossEvents (wakeMemories s) else s)))
        else enterRun (if s.pm.state = .hold then lossEvents (wakeMemories s) else s)))) else s) := by
  show execWakeComplete failed s l = _
  exact onUnit_next (by rw [known, lanes]; rfl) _

theorem serveHeld_idle {u : State} (idle : u.held = []) : serveHeld u = u := by
  unfold serveHeld
  rw [idle]
  show { u with held := [] } = u
  rw [← idle]

/-- The memories that a wake begins with: those of the compute dies are clear after Hold. -/
def wokenMemories (s : State) : State := if s.pm.state = .hold then wakeMemories s else s

theorem lossEvents_none (sound : s.pm.stopLoss = false) : lossEvents (wakeMemories s) = wakeMemories s := by
  unfold lossEvents
  exact if_neg (by rw [show (wakeMemories s).pm.stopLoss = s.pm.stopLoss from rfl, sound]; decide)

theorem wakeMemories_mem (sound : s.pm.stopLoss = false) : (wakeMemories s).mem =
    { s.mem with basin := [], scratch := [], sdata := [], poisonBasin := [], poisonScratch := [], poisonSdata := [] } := by
  unfold wakeMemories
  simp only [sound, Bool.false_eq_true, if_false]
  rfl

theorem wakeMemories_imem (k : Nat) : (getTile (wakeMemories s) k).imem = none := by
  unfold getTile wakeMemories
  dsimp only
  unfold tabGetD
  rw [tabGet?_tabMap]
  cases tabGet? k s.tiles with
  | none => rfl
  | some x => rfl

theorem wakeMemories_frame : wakeMemories s = { s with mem := (wakeMemories s).mem, tiles := (wakeMemories s).tiles } := rfl

theorem exec_wakeComplete_up {failed : List Nat} {l : List (Nat × List Nat)} (known : failed.all stackOk = true)
    (lanes : (l.all fun e : Nat × List Nat => stackOk e.1 && e.2.all laneOk) = true) (waking : s.pm.waking = true) (idle : s.held = [])
    (sound : s.pm.stopLoss = false) (clean : s.pm.state = .hold → failed = [] ∧ l = []) :
    exec (.wakeComplete failed l) s = .next (fillTiles (schedule (enterRun (wokenMemories s)))) := by
  have held : (enterRun (wokenMemories s)).held = [] := by
    rw [enterRun_eq]
    unfold wokenMemories
    split
    · exact idle
    · exact idle
  rw [exec_wakeComplete known lanes, if_pos waking]
  refine next_congr (congrArg (fun u => fillTiles (schedule u)) ((congrArg serveHeld ?_).trans (serveHeld_idle held)))
  unfold wokenMemories
  by_cases hold : s.pm.state = .hold
  · obtain ⟨rfl, rfl⟩ := clean hold
    simp only [hold, if_true, lossEvents_none sound]
    rfl
  · simp only [hold, if_false]

end

/-- Settles O49. -/
theorem powerStatesChangeAsAsked : Obligations.PowerStatesChangeAsAsked := by
  unfold Obligations.PowerStatesChangeAsAsked
  refine ⟨fun s free => ⟨fun h n c run hn awake steady => ?request, fun e => ?ignored, fun valid steady awake low => ?wakeN,
    fun failed l known lanes => ⟨fun idle => ?unasked, fun waking idle sound clean => ?wake⟩⟩, fun s t => ?decides⟩
  case request =>
    refine ⟨fun same => ?_, fun switch => ?_, fun up idle => ⟨fun ready => ?_, fun waits => ?_⟩, fun other hold blocked => ?_,
      fun other hold open_ stopped ready => ?_, fun other hold open_ stopped waits => ?_, fun low up => exec_powerState_wakes run hn free awake steady low up⟩
    · exact ⟨_, (exec_powerState run hn free awake steady).trans (next_congr (if_pos same.symm)), ended_finishCmd _ _ run.1 run.2.1, onlyCmd_finishCmd ..⟩
    · exact ⟨_, exec_powerState_switch run hn free awake steady switch, ended_finishCmd _ _ run.1 run.2.1, rfl⟩
    · refine ⟨_, (exec_powerState_idle run hn free awake steady up idle).trans (next_congr (if_pos ready)), ?_, (enterIdle_state _).1, (enterIdle_state _).2, ?_⟩
      · rw [enterIdle_eq]
        exact ended_finishCmd _ _ run.1 run.2.1
      · rw [enterIdle_eq]
        rfl
    · exact (exec_powerState_idle run hn free awake steady up idle).trans (next_congr (if_neg (by simp [waits])))
    · exact ⟨_, (exec_powerState_hold run hn free awake steady other hold).trans (next_congr (if_pos blocked)), ended_finishCmd _ _ run.1 run.2.1, rfl, rfl, rfl⟩
    · exact enters_hold run hn free awake steady other hold open_ stopped ready
    · rw [exec_powerState_hold run hn free awake steady other hold, if_neg (by simp [open_]), beginEntry_hold stopped]
      exact next_congr (if_neg (Bool.not_eq_true _ ▸ waits))
  case ignored =>
    show Host.Outcome.next (if s.cap.valid then wakeSource 5 true s else s) = .next s
    obtain invalid | ⟨steady, up⟩ := e
    · exact next_congr (if_neg (by simp [invalid]))
    · rw [wakeSource_up 5 steady up, ite_self]
  case wakeN =>
    show Host.Outcome.next (if s.cap.valid then wakeSource 5 true s else s) = .next (woken 5 s)
    exact next_congr ((if_pos valid).trans (wakeSource_asleep (by decide) free awake steady low))
  case unasked => exact (exec_wakeComplete known lanes).trans (next_congr (if_neg (by simp [idle])))
  case wake =>
    have cmds : (wokenMemories s).cmds = s.cmds := by
      unfold wokenMemories
      split
      · rfl
      · rfl
    have ends (h : Nat) (c : Cmd) (live : getCmd? s h = some c) (code : c.pkt.opcode = 0x0703) (running : c.stage = .running)
        (asks : cmdParam c 0 % 2 ^ 3 = 0) : Ended (enterRun (wokenMemories s)) h c [] (now s) := by
      have time : now (wokenMemories s) = now s := by
        unfold wokenMemories
        split
        · rfl
        · rfl
      rw [← time]
      exact enterRun_ends ((getCmd?_of_cmds_eq cmds h).trans live) code running asks
    refine ⟨enterRun (wokenMemories s), exec_wakeComplete_up known lanes waking idle sound clean, ?_, fun up => ?_, fun hold => ?_, ends,
      enterRun_goes (CmdsGo.of_cmds_eq cmds), ?_⟩
    · rw [enterRun_eq]
      unfold wokenMemories
      split
      · rfl
      · rfl
    · rw [enterRun_eq, wokenMemories, if_neg up]
      exact ⟨rfl, rfl⟩
    · rw [enterRun_eq, wokenMemories, if_pos hold]
      exact ⟨wakeMemories_mem sound, wakeMemories_imem⟩
    · rw [enterRun_eq]
      unfold wokenMemories
      split
      · rfl
      · rfl
  case decides =>
    refine ⟨fun good present => ⟨fun run => ?_, fun idle => ?_, fun hold => ?_⟩, fun off => ?_, Iff.rfl, rfl⟩
    · have lit : tileDark s t = false := by simp [tileDark, good, present, run]
      have open_ : tileGated s t = false := by simp [tileGated, run]
      unfold tileLogic tileSram
      simp [lit, open_, run]
    · have lit : tileDark s t = false := by simp [tileDark, good, present, idle]
      unfold tileLogic tileSram
      simp [lit, idle]
    · have dark : tileDark s t = true := by simp [tileDark, hold]
      unfold tileLogic tileSram dieLogic ioLogic
      simp [dark, good, hold]
    · have dark : tileDark s t = true := by simp [tileDark, off]
      have silent (x : Transmitter) : transmits s x = false := by cases x <;> simp [transmits, off]
      unfold tileLogic tileSram dieLogic ioLogic leg
      simp [dark, off, silent]

end Sys2Proof.Machine

/-! PORT_CONFIG and a MARGIN of the same handle (13 R304; 16 R392). -/

namespace Sys2Proof.Machine

/-- A running command of tenant 0 with handle 1. -/
def running1 (opcode : Nat) (p : List Nat) : Cmd :=
  { handle := 1, order := 0, tenant := 0, sq := 0, pkt := ⟨opcode, 0, 0, 0, 0, 0, 0, p, 0⟩, admitTime := 0, stage := .running, outcomes := [],
    value := 0, desc := none, binds := [], targets := [], rivals := [], silent := false }

/-- A sound addressing entry: FAMILY 6 and an MTU of 1,500. -/
def soundEntry : List Byte := rep 8 0 ++ [6, 0, 0xDC, 0x05] ++ rep 52 0

/-- A module with a PORT_CONFIG of port 0 and a MARGIN of its first lane in progress, both of handle 1; the link of that lane is
up. -/
def portAndMargin : State :=
  { State.reset with
    cap := { Cap.reset with ethUsable := 1 }
    mem := { Memories.reset with host := putBytes 0 soundEntry [] }
    dpt := { State.reset.dpt with ports := [(0, { Port.reset with linkUp := 1 })] }
    cmds := [running1 0x0601 [0, 0], running1 0x0702 [3]] }

/-- The outcomes of the live commands after a step. -/
def outcomesAfter : Res → List (List Nat)
  | .next t => t.cmds.map (·.outcomes)
  | _ => []

/-- The MARGIN ends with its lane's link, and with it what has its handle. -/
theorem outcomesAfter_portConfig : outcomesAfter (exec (.portConfig 1) portAndMargin) = [[stDeviceFault], [stDeviceFault]] := by decide +kernel

/-- Refutes O47: the statement is over every state, those included that no history gives, and says that a sound PORT_CONFIG ends
without an outcome. It takes the links of the port down, which ends a MARGIN of their lanes by its handle; where two live commands
have one handle, PORT_CONFIG has ended with ST_DEVICE_FAULT before it ends by itself. -/
theorem not_portsKeepTheirConfiguration : ¬ Obligations.PortsKeepTheirConfiguration := by
  unfold Obligations.PortsKeepTheirConfiguration
  intro holds
  obtain ⟨config, -⟩ := holds portAndMargin
  obtain ⟨-, -, sound⟩ := config 1 (running1 0x0601 [0, 0]) 0 0 _ ⟨rfl, rfl, rfl, rfl⟩ rfl rfl rfl
  have entries : ∀ i, i < modePorts 0 → entryOk (sliceB (hostRead portAndMargin (cmdParam (running1 0x0601 [0, 0]) 1) 256) (64 * i) 64) = true := by
    decide +kernel
  obtain ⟨t, row, ended, -⟩ := sound false (by decide +kernel) entries ⟨nofun, fun e => absurd e.1 (by decide)⟩
  have outcomes := outcomesAfter_portConfig
  rw [row] at outcomes
  have outcomes : t.cmds.map (·.outcomes) = [[stDeviceFault], [stDeviceFault]] := outcomes
  have mem := List.mem_map_of_mem (f := (·.outcomes)) (mem_of_getCmd? ended)
  rw [outcomes] at mem
  exact absurd mem (by decide)

end Sys2Proof.Machine

/-! The management writes over I3C (18 R436, R437). -/

namespace Sys2Proof.Machine

section
variable {s : State}

/-- Over I3C no signature is needed and no sequence is accepted. -/
theorem signedCmd_i3c (up : s.henua.up = true) (code : Nat) (a : Option MgmtAuth) (ps : List Nat) {ok needsValid : Bool} (f : State → State) :
    signedCmd code .i3c a ps ok needsValid f s = .next
      (if ok then (if needsValid && !s.cap.valid then answer code stEngineAbsent [] s else f s) else answer code stBadDescriptor [] s) := by
  unfold signedCmd onHenua
  rw [if_pos up]
  cases ok <;> rfl

theorem signedCmd_goes (up : s.henua.up = true) (code : Nat) (a : Option MgmtAuth) (ps : List Nat) {ok : Bool} (f : State → State) (sound : ok = true) :
    signedCmd code .i3c a ps ok false f s = .next (f s) := by
  rw [signedCmd_i3c up, if_pos sound]
  rfl

theorem signedCmd_valid (up : s.henua.up = true) (code : Nat) (a : Option MgmtAuth) (ps : List Nat) {ok : Bool} (f : State → State) (sound : ok = true)
    (valid : s.cap.valid = true) : signedCmd code .i3c a ps ok true f s = .next (f s) := by
  rw [signedCmd_i3c up, if_pos sound]
  exact next_congr (if_neg (by simp [valid]))

/-! ### Fault clear -/

/-- What the history keeps when the records and summaries of a unit go. -/
def cleared (cls unit : Nat) (h : FaultHist) : FaultHist :=
  { h with sums := h.sums.filter fun x => !(x.cls == cls && x.unit == unit),
           flash := h.flash.filter fun r => !(r.cls == cls && r.unit == unit),
           pendingFlash := h.pendingFlash.filter fun r => !(r.cls == cls && r.unit == unit) }

theorem capChange_hist (severity : Nat) (g : Cap → Cap) (s : State) : (capChange severity g s).hist = s.hist := by rw [capChange_eq]

theorem resumeUnit_hist (u : UnitRef) (s : State) : (resumeUnit u s).hist = s.hist := by
  unfold resumeUnit
  split
  · exact capChange_hist ..
  · exact hist_still.checkNoFurrow ..
  · rfl

theorem forgetUnit_hist (x : UnitSum) (s : State) : (forgetUnit x s).hist = s.hist := by
  unfold forgetUnit
  split
  · split
    · exact capChange_hist ..
    · rfl
  · split
    · exact resumeUnit_hist ..
    · rfl
  · rfl

theorem resumeUnit_goes {s0 : State} (u : UnitRef) (s : State) (goes : CmdsGo s0 s) : CmdsGo s0 (resumeUnit u s) := by
  unfold resumeUnit
  split
  · exact capChange_goes _ _ _ goes
  · exact checkNoFurrow_goes _ _ (CmdsGo.mk' goes)
  · exact goes

theorem forgetUnit_goes {s0 : State} (x : UnitSum) (s : State) (goes : CmdsGo s0 s) : CmdsGo s0 (forgetUnit x s) := by
  unfold forgetUnit
  split
  · split
    · exact capChange_goes _ _ _ goes
    · exact goes
  · split
    · exact resumeUnit_goes _ _ goes
    · exact goes
  · exact goes

theorem exec_faultClear {cls unit : Nat} (up : s.henua.up = true) (a : Option MgmtAuth) (known : ((unitOf cls unit).map UnitRef.ok).getD false = true)
    (some_ : ¬(cls = 0xFF ∧ unit = 0xFFFF)) : exec (.faultClear .i3c a cls unit) s = .next (answer 0x06 stOk [] (henuaEvent 0x0B 0 [0x06, cls, unit]
      (forEach forgetUnit (s.hist.sums.filter fun x => x.cls == cls && x.unit == unit) { s with hist := cleared cls unit s.hist }))) := by
  show execFaultClear .i3c a cls unit s = _
  unfold execFaultClear
  dsimp only
  rw [signedCmd_goes up _ _ _ _ (by rw [known]; exact Bool.or_true _)]
  simp only [some_, decide_false, Bool.false_or]
  rfl

theorem exec_faultClear_fuses {p : MgmtPath} {a : Option MgmtAuth} {cls unit : Nat} {t : State} (e : exec (.faultClear p a cls unit) s = .next t) :
    t.fuses = s.fuses :=
  (execFaultClear_kept (cf := false) (ff := true) p a cls unit s (Kept.refl _ _ s) t e).fuses rfl

/-! ### Counters -/

theorem pokePhys_tenants (c v : Nat) (s : State) : (pokePhys c v s).tenants = s.tenants := by
  unfold pokePhys
  rw [ctrUpdate_work _ _ _ _ (WorkOnly.refl _)]

theorem pokePhys_mem (c v : Nat) (s : State) : (pokePhys c v s).mem = s.mem := by
  unfold pokePhys
  exact ctrUpdate_mem ..

theorem handSet_sound {c : Nat} (sound : s.ctrs.broken.contains c = false) (issuer t k v : Nat) : handSet issuer t k c v s =
    ((ctrVal s c).toNat, henuaEvent 0x04 1 [issuer, t, k, (ctrVal s c).toNat, v, now s] (modTen t (fun x => { x with poked := x.poked + 1 }) (pokePhys c v s))) := by
  have read : readCtr c s = ((ctrVal s c).toNat, s) := if_neg (by simp only [sound]; decide)
  unfold handSet
  rw [read]

theorem exec_henuaCounterPoke {tenant ctr k : Nat} (up : s.henua.up = true) (a : Option MgmtAuth) (value : Nat) (ht : tenant < 64) (hc : ctr < 65536)
    (valid : s.cap.valid = true) (named : namedCtr s tenant ctr = some k) : exec (.henuaCounterPoke .i3c a tenant ctr value) s = .next
      (schedule (answer 0x0B stOk (toLE 8 (handSet 1 tenant ctr k value s).1) (handSet 1 tenant ctr k value s).2)) := by
  show execHenuaCounterPoke .i3c a tenant ctr value s = _
  unfold execHenuaCounterPoke
  rw [signedCmd_valid up _ _ _ _ (decide_eq_true ⟨ht, hc⟩) valid, named]

/-! ### Keys -/

theorem keySlot_congr {s t : State} (e : t.fuses = s.fuses) (k : Nat) : keySlot t k = keySlot s k := by
  unfold keySlot
  rw [e]

/-- A key slot has been burnt, and nothing else has changed but events and outputs. -/
theorem burnt_slot {t : State} {code k : Nat} {payload : List Nat} {data : List Byte} {g : KeySlot → KeySlot}
    (e : t = answer code stOk data (henuaEvent 0x0B 0 payload (putKey k g s))) :
    keySlot t k = g (keySlot s k) ∧ (∀ j, j ≠ k → keySlot t j = keySlot s j) ∧ t.fuses.rollback = s.fuses.rollback ∧
      t = { s with fuses := t.fuses, henua := t.henua, out := t.out } := by
  have fuses : t.fuses = (putKey k g s).fuses := by
    rw [e]
    exact henuaEvent_fuses ..
  refine ⟨(keySlot_congr fuses k).trans (keySlot_putKey_same ..), fun j other => (keySlot_congr fuses j).trans (keySlot_putKey_ne other ..), ?_, ?_⟩
  · rw [fuses]
    rfl
  · rw [e, henuaEvent_eq]
    rfl

theorem exec_ownerKeyProgram (up : s.henua.up = true) (p : MgmtPath) (slot : Nat) (hash : List Byte) : exec (.ownerKeyProgram p slot hash) s = .next
    (if ¬(slot = 4 ∨ slot = 5) ∨ hash.length ≠ 32 then answer 0x0C stBadDescriptor [] s
     else if p = .ethernet then answer 0x0C stWindow [] s
     else if (keySlot s slot).programmed then answer 0x0C stBadDescriptor [] s
     else answer 0x0C stOk [] (henuaEvent 0x0B 0 [0x0C, slot, 0, 1] (putKey slot (fun k => { k with hash := hash, programmed := true }) s))) := by
  show execOwnerKeyProgram p slot hash s = _
  unfold execOwnerKeyProgram onHenua
  rw [if_pos up]

/-! ### The other rows -/

theorem exec_writeReg {off : Nat} (up : s.henua.up = true) (a : Option MgmtAuth) (v : W32) (writable : rwMgmt off = true) :
    exec (.writeReg .i3c a off v) s = .next (answer 0x03 stOk [] (writeMgmt off v.toNat s)) := by
  show execWriteReg .i3c a off v s = _
  unfold execWriteReg
  exact signedCmd_goes up _ _ _ _ writable

theorem exec_mgmtNetConfig {record : List Byte} (up : s.henua.up = true) (a : Option MgmtAuth) (whole : record.length = 64) (sound : entryOk record = true) :
    exec (.mgmtNetConfig .i3c a record) s = .next (answer 0x0F stOk [] (modHenua (fun h => { h with netConfig := record }) s)) := by
  show execMgmtNetConfig .i3c a record s = _
  unfold execMgmtNetConfig
  exact signedCmd_goes up _ _ _ _ (by rw [whole, sound]; rfl)

theorem exec_henuaPowerState {st : Nat} (up : s.henua.up = true) (a : Option MgmtAuth) (small : st < 4) (valid : s.cap.valid = true) :
    exec (.henuaPowerState .i3c a st) s = .next { s with cmds := s.cmds ++ [henuaCmd st s], nextOrder := s.nextOrder + 1 } := by
  show execHenuaPowerState .i3c a st s = _
  unfold execHenuaPowerState
  exact signedCmd_valid up _ _ _ _ (decide_eq_true small) valid

theorem exec_keyRevoke {slot : Nat} (up : s.henua.up = true) (a : Option MgmtAuth) (small : slot < 6) : exec (.keyRevoke .i3c a slot) s = .next
    (if !otherKey s slot then answer 0x0D stBadDescriptor [] s
     else answer 0x0D stOk [] (henuaEvent 0x0B 0 [0x0D, slot, b2n (keySlot s slot).revoked, 1] (putKey slot (fun k => { k with revoked := true }) s))) := by
  show execKeyRevoke .i3c a slot s = _
  unfold execKeyRevoke
  exact signedCmd_goes up _ _ _ _ (decide_eq_true small)

theorem exec_rollbackCommit {im : Image} (up : s.henua.up = true) (a : Option MgmtAuth) (valid : s.cap.valid = true) (running : s.henua.image = some im)
    (low : im.svn ≤ 64) : exec (.rollbackCommit .i3c a) s = .next
    (if s.fuses.rollback < im.svn then
      answer 0x0E stOk [] (henuaEvent 0x0B 0 [0x0E, s.fuses.rollback, im.svn] { s with fuses := { s.fuses with rollback := im.svn } })
     else answer 0x0E stOk [] s) := by
  show execRollbackCommit .i3c a s = _
  unfold execRollbackCommit
  rw [signedCmd_valid up _ _ _ _ rfl valid, running]
  simp only [Option.map_some, Option.getD_some, Nat.min_eq_right low]

end

/-- Settles O59. -/
theorem managementWritesTakeEffect : Obligations.ManagementWritesTakeEffect := by
  unfold Obligations.ManagementWritesTakeEffect
  intro s a up
  refine ⟨fun v => ?limit, fun v => ?events, fun record whole sound => ?net, fun st small valid => ?power,
    fun tenant ctr value k x ht hc valid named there sound => ?poke, fun cls unit known some_ => ?clear, fun slot hash owner whole empty => ?program,
    fun p slot hash bad => ?refused, fun slot small => ⟨fun other => ?revoke, fun alone => ?last⟩, fun im valid running low => ?commit⟩
  case limit => exact exec_writeReg up a v rfl
  case events => exact exec_writeReg up a v rfl
  case net => exact exec_mgmtNetConfig up a whole sound
  case power => exact ⟨henuaCmd st s, exec_henuaPowerState up a small valid, rfl, rfl, rfl, rfl, rfl, rfl⟩
  case poke =>
    have poked := handSet_oneUpdate 1 tenant ctr k value s
    have set_ := handSet_sound sound 1 tenant ctr value
    refine ⟨_, exec_henuaCounterPoke up a value ht hc valid named, poked.val, poked.others, ?_, ?_, ?_⟩
    · rw [set_]
      have counted := getTen?_modTen (fun x : Tenant => { x with poked := x.poked + 1 }) ((getTen?_congr (pokePhys_tenants k value s) tenant).trans there)
      refine (getTen?_congr ?_ tenant).trans counted
      show (henuaEvent ..).tenants = _
      rw [henuaEvent_eq]
    · rw [set_]
      exact List.mem_append_right _ (List.mem_singleton.mpr rfl)
    · rw [set_]
      exact (henuaEvent_mem ..).trans ((modTen_mem ..).trans (pokePhys_mem ..))
  case clear =>
    have hist : (forEach forgetUnit (s.hist.sums.filter fun x => x.cls == cls && x.unit == unit) { s with hist := cleared cls unit s.hist }).hist =
        cleared cls unit s.hist := forEach_keeps State.hist (fun x u => forgetUnit_hist x u) ..
    have same (u : State) : (answer 0x06 stOk [] (henuaEvent 0x0B 0 [0x06, cls, unit] u)).hist = u.hist := by
      show (henuaEvent ..).hist = _
      rw [henuaEvent_eq]
    have goes : CmdsGo s (forEach forgetUnit (s.hist.sums.filter fun x => x.cls == cls && x.unit == unit) { s with hist := cleared cls unit s.hist }) :=
      forEach_goes _ _ _ (fun x u goes => forgetUnit_goes x u goes) (CmdsGo.mk' (CmdsGo.refl s))
    have row := exec_faultClear up a known some_
    have fuses := exec_faultClear_fuses row
    generalize forEach forgetUnit _ _ = u at *
    refine ⟨_, row, ?_⟩
    rw [same, hist]
    refine ⟨fun x => ?_, fun r => ?_, fun r => ?_, rfl, fuses, henuaEvent_goes _ _ _ _ goes⟩
    all_goals simp only [cleared, List.mem_filter, Bool.not_eq_true', Bool.and_eq_false_iff, beq_eq_false_iff_ne, not_and_or, ne_eq]
  case program =>
    have row := exec_ownerKeyProgram up .i3c slot hash
    rw [if_neg (by simp [owner, whole]), if_neg (by decide), if_neg (by simp [empty])] at row
    exact ⟨_, row, burnt_slot rfl⟩
  case refused =>
    rw [exec_ownerKeyProgram up]
    by_cases shape : ¬(slot = 4 ∨ slot = 5) ∨ hash.length ≠ 32
    · exact ⟨stBadDescriptor, next_congr (if_pos shape), by decide⟩
    · rw [if_neg shape]
      by_cases ether : p = .ethernet
      · exact ⟨stWindow, next_congr (if_pos ether), by decide⟩
      · rw [if_neg ether]
        have filled : (keySlot s slot).programmed = true := by
          obtain e | e | e := bad
          · exact absurd e ether
          · exact absurd (not_or.mp shape).1 (by simpa using e)
          · exact e
        exact ⟨stBadDescriptor, next_congr (if_pos filled), by decide⟩
  case revoke => exact ⟨_, (exec_keyRevoke up a small).trans (next_congr (if_neg (by simp [other]))), burnt_slot rfl⟩
  case last => exact (exec_keyRevoke up a small).trans (next_congr (if_pos (by simp [alone])))
  case commit =>
    rw [exec_rollbackCommit up a valid running low]
    by_cases higher : s.fuses.rollback < im.svn
    · refine ⟨_, next_congr (if_pos higher), ?_, ?_⟩
      · rw [henuaEvent_eq, Nat.max_eq_right higher.le]
        rfl
      · rw [henuaEvent_eq]
        rfl
    · refine ⟨_, next_congr (if_neg higher), ?_, rfl⟩
      rw [Nat.max_eq_left (not_lt.mp higher)]
      rfl

end Sys2Proof.Machine

/-! What stands while units are lost and runs are placed again (15 R369; 12 R291, R298): whatever a `Still` projection looks at. -/

namespace Sys2Proof.Machine

namespace Still

variable {β : Type} {p : State → β} (still : Still p)
include still

section
variable (s : State)

/-! ### Runs on tiles -/

theorem arriveWait (w : Wait) : p (arriveWait w s) = p s := still.ctrUpdate ..

theorem registerHead (t : Nat) (c : Ctx) (w : Nat × Bool × Nat) : p (registerHead t c w s) = p s := by
  unfold Machine.registerHead
  split
  · exact still.endRun ..
  · exact (still.arriveWait ..).trans (still.modTile ..)

theorem tileAreaLoad (t n : Nat) (m : Mem) (l : List Nat) : p (tileAreaLoad t n m l s) = p s := still.work rfl

theorem loadCtx (r i t : Nat) : p (loadCtx r i t s) = p s := by
  unfold Machine.loadCtx
  split
  · rfl
  split
  · rfl
  · have cleared (g : Run → Run) : p (Machine.modRun r g (Machine.clearTile t s)) = p s := (still.modRun ..).trans (still.clearTile ..)
    dsimp only
    split
    · split
      · refine (still.modTile ..).trans ?_
        split
        · exact (still.tileAreaLoad ..).trans (cleared _)
        · exact cleared _
      · refine (still.registerHead ..).trans ((still.modTile ..).trans ?_)
        split
        · exact (still.tileAreaLoad ..).trans (cleared _)
        · exact cleared _
    · refine (still.modTile ..).trans ?_
      split
      · exact (still.tileAreaLoad ..).trans (cleared _)
      · exact cleared _

theorem fillTiles : p (fillTiles s) = p s := by
  refine forEach_keeps p (fun r u => forEach_keeps p (fun t v => ?_) ..) ..
  split
  · split
    · split
      · exact still.loadCtx ..
      · rfl
    · rfl
  · rfl

theorem startRun (r : Nat) (place basin : Tab Nat) : p (startRun r place basin s) = p s := by
  unfold Machine.startRun
  split
  · rfl
  split
  · exact still.endRun ..
  · exact (still.fillTiles _).trans (still.modRun ..)

theorem pauseThem (r : Nat) (l : List Nat) : p (forEach (fun y => whenS (mayPause s r y) (Machine.pauseRun y)) l s) = p s :=
  forEach_keeps p (fun y _ => whenS_keeps p (fun v => still.pauseRun v y) ..) ..

theorem tryRun (r : Nat) (a : State × List Nat) : p (tryRun r a).1 = p a.1 := by
  unfold Machine.tryRun
  split
  · rfl
  dsimp only
  split
  · rfl
  split
  · exact still.endRun ..
  split
  · rfl
  split
  · dsimp only
    split
    · exact (still.startRun ..).trans (still.pauseThem ..)
    split
    · exact (still.modRun ..).trans (still.pauseThem ..)
    · exact still.pauseThem ..
  · exact still.pauseThem ..

theorem schedule : p (schedule s) = p s := by
  have each (l : List Nat) (a : State × List Nat) : p (l.foldl (fun b r => Machine.tryRun r b) a).1 = p a.1 := by
    induction l generalizing a with
    | nil => rfl
    | cons r l ih => exact (ih _).trans (still.tryRun r a)
  unfold Machine.schedule
  split
  · exact each ..
  · rfl

/-! ### A unit is lost -/

theorem dropLost : p (dropLost s) = p s := by
  refine forEach_keeps p (fun h u => ?_) ..
  split
  · split
    · split
      · exact still.endRun ..
      split
      · exact still.stopFops ..
      · exact still.dropped ..
    · rfl
  · rfl

theorem claimTile (r t : Nat) : p (claimTile r t s) = p s := by
  unfold Machine.claimTile
  split
  · split
    · exact still.pauseRun ..
    · rfl
  · rfl

theorem replaceRun (r : Nat) : p (replaceRun r s) = p s := by
  unfold Machine.replaceRun
  split
  · rfl
  split
  · split
    · exact still.endRun ..
    · refine (forEach_keeps p (fun e u => ?_) ..).trans (still.modRun ..)
      split
      · rfl
      · exact still.claimTile ..
  · rfl

theorem saveFrame (t : Nat) : p (saveFrame t s) = p s := by
  unfold Machine.saveFrame
  split
  · rfl
  · exact (still.clearTile ..).trans (still.modRun ..)

theorem noteRecompute (c : Ctx) : p (noteRecompute c s) = p s := whenS_keeps p (fun u => still.modRun u _ _) ..

theorem leaveLost (t : Nat) : p (leaveLost t s) = p s := by
  unfold Machine.leaveLost
  dsimp only
  split
  · rfl
  split
  · exact (still.saveFrame ..).trans ((still.modTile ..).trans (still.noteRecompute ..))
  · exact still.clearTile ..
  · exact (still.saveFrame ..).trans (still.withdrawAll ..)

theorem loseTile (t : Nat) : p (loseTile t s) = p s := by
  unfold Machine.loseTile
  refine (still.fillTiles _).trans ?_
  refine (forEach_keeps p (fun r u => still.checkPaused u r) ..).trans ?_
  refine (forEach_keeps p (fun r u => still.replaceRun u r) ..).trans ?_
  exact (still.dropLost _).trans ((still.leaveLost ..).trans (still.abandonTest ..))

theorem loseStack (k : Nat) : p (loseStack k s) = p s := by
  unfold Machine.loseStack failFops
  refine (still.checkNoFurrow ..).trans ((still.stopFops ..).trans ?_)
  exact (still.dropLost _).trans ((still.abandonTest ..).trans (still.work rfl))

theorem loseUnit (u : UnitRef) : p (loseUnit u s) = p s := by
  cases u with
  | tile t => exact still.loseTile s t
  | stack k => exact still.loseStack s k
  | furrow b => exact still.checkNoFurrow s (b / 512)
  | _ => exact still.dropLost s

/-- A retirement shows in what classes the unit alone. -/
theorem retireUnit (check : Nat) (u : UnitRef) (tenant : Nat) : p (retireUnit check u tenant s) = p (retireCap check u tenant s) := by
  unfold Machine.retireUnit
  split
  · rename_i retired
    rw [retireCap, if_pos retired]
  · exact (still.schedule _).trans (still.loseUnit ..)

end

end Still

end Sys2Proof.Machine

/-! The start-up (19 R447): what its steps set, and what the units that it settles leave (16 R380; 15 R369; 01 R15). -/

namespace Sys2Proof.Machine

/-! ### Bit vectors and lists of units -/

/-- Adding a power of two whose bit is clear sets that bit alone. -/
theorem testBit_add_two_pow {n i : Nat} (clear : n.testBit i = false) (j : Nat) : (n + 2 ^ i).testBit j = (decide (j = i) || n.testBit j) := by
  obtain lower | rfl | higher := Nat.lt_trichotomy j i
  · rw [Nat.add_comm, Nat.testBit_two_pow_add_gt lower, decide_eq_false (by omega), Bool.false_or]
  · rw [Nat.add_comm, Nat.testBit_two_pow_add_eq, clear]
    simp
  · have even : n / 2 ^ i % 2 = 0 := by
      rw [Nat.testBit_eq_decide_div_mod_eq, decide_eq_false_iff_not] at clear
      omega
    have high : (n + 2 ^ i) / 2 ^ (i + 1) = n / 2 ^ (i + 1) := by
      rw [Nat.pow_succ, ← Nat.div_div_eq_div_mul, ← Nat.div_div_eq_div_mul, Nat.add_div_right n (Nat.two_pow_pos i)]
      omega
    have shifted (m : Nat) : m.testBit j = (m / 2 ^ (i + 1)).testBit (j - (i + 1)) := by
      rw [Nat.testBit_div_two_pow, show j - (i + 1) + (i + 1) = j by omega]
    rw [shifted, shifted n, high, decide_eq_false (by omega), Bool.false_or]

theorem hasBit_putBit_false_ne {w : Nat} (v : BitVec w) {i j : Nat} (other : j ≠ i) : hasBit (putBit v i false) j = hasBit v j := by
  by_cases set : v.toNat.testBit i = true
  · have le : 2 ^ i ≤ v.toNat := Nat.ge_two_pow_of_testBit set
    have value : (putBit v i false).toNat = v.toNat - 2 ^ i := by
      unfold putBit
      rw [if_pos set, if_neg (by decide), BitVec.toNat_ofNat]
      exact Nat.mod_eq_of_lt (Nat.lt_of_le_of_lt (Nat.sub_le ..) v.isLt)
    have clear : (v.toNat - 2 ^ i).testBit i = false := by
      have cleared := hasBit_putBit_false v i
      unfold hasBit at cleared
      rwa [value] at cleared
    have split := testBit_add_two_pow clear j
    rw [Nat.sub_add_cancel le, decide_eq_false other, Bool.false_or] at split
    unfold hasBit
    rw [value, split]
  · unfold putBit hasBit
    rw [if_neg set, if_neg (by decide), BitVec.ofNat_toNat, BitVec.setWidth_eq]

theorem nodup_setIns {n : Nat} {l : List Nat} (sorted : l.Pairwise (· < ·)) : (setIns n l).Pairwise (· < ·) := by
  induction l with
  | nil => exact List.pairwise_singleton ..
  | cons m l ih =>
    rw [List.pairwise_cons] at sorted
    obtain ⟨above, rest⟩ := sorted
    unfold setIns
    split
    · rename_i lt
      exact .cons (by simpa [lt] using fun a mem => Nat.lt_trans lt (above a mem)) (.cons above rest)
    split
    · exact .cons above rest
    · refine .cons (fun a mem => ?_) (ih rest)
      obtain rfl | mem := (mem_setIns l).mp mem
      · omega
      · exact above a mem

/-- A list of numbers, sorted, each once. -/
def sortedSet (l : List Nat) : List Nat := l.foldl (fun a n => setIns n a) []

theorem sortedSet_spec (l : List Nat) : (sortedSet l).Pairwise (· < ·) ∧ ∀ x, x ∈ sortedSet l ↔ x ∈ l := by
  have each (l a : List Nat) (sorted : a.Pairwise (· < ·)) : (l.foldl (fun a n => setIns n a) a).Pairwise (· < ·) ∧
      ∀ x, x ∈ l.foldl (fun a n => setIns n a) a ↔ x ∈ a ∨ x ∈ l := by
    induction l generalizing a with
    | nil => exact ⟨sorted, by simp⟩
    | cons n l ih =>
      obtain ⟨after, mem⟩ := ih _ (nodup_setIns (n := n) sorted)
      refine ⟨after, fun x => (mem x).trans ?_⟩
      rw [mem_setIns, List.mem_cons]
      tauto
  obtain ⟨sorted, mem⟩ := each l [] .nil
  exact ⟨sorted, fun x => (mem x).trans (by simp)⟩

theorem testBit_sum_two_pow {l : List Nat} (sorted : l.Pairwise (· < ·)) (j : Nat) : ((l.map fun n => 2 ^ n).sum).testBit j = decide (j ∈ l) := by
  induction l generalizing j with
  | nil => simp
  | cons n l ih =>
    rw [List.pairwise_cons] at sorted
    obtain ⟨above, rest⟩ := sorted
    have absent : n ∉ l := fun mem => Nat.lt_irrefl n (above n mem)
    have clear : ((l.map fun n => 2 ^ n).sum).testBit n = false := (ih rest n).trans (decide_eq_false absent)
    rw [List.map_cons, List.sum_cons, Nat.add_comm, testBit_add_two_pow clear, ih rest]
    simp

theorem hasBit_bitsSet {w n : Nat} (small : n < w) (l : List Nat) : hasBit (BitVec.ofNat w (bitsSet l)) n = true ↔ n ∈ l := by
  obtain ⟨sorted, mem⟩ := sortedSet_spec l
  unfold hasBit
  rw [BitVec.toNat_ofNat, Nat.testBit_mod_two_pow, decide_eq_true small, Bool.true_and]
  show ((sortedSet l).map fun n => 2 ^ n).sum.testBit n = true ↔ _
  rw [testBit_sum_two_pow sorted, decide_eq_true_eq, mem]

/-! ### The board and the push while units are settled -/

theorem board_still : Still State.board where
  work moves := by
    unfold WorkMoves at moves
    rw [moves]
  event cls severity payload s := by rw [henuaEvent_eq]
  fn _ _ _ _ := rfl
  cmd _ _ _ _ := rfl

/-- What a push of firmware goes by. -/
def pushPart (s : State) : Nat × Bool × Nat := (s.henua.bstate, s.henua.goHeld, s.henua.source)

theorem pushPart_still : Still pushPart where
  work moves := by
    unfold WorkMoves at moves
    rw [moves]
    rfl
  event cls severity payload s := by
    unfold pushPart
    rw [henuaEvent_henua]
  fn _ _ _ _ := rfl
  cmd _ _ _ _ := rfl

section
variable (s : State)

theorem recordFault_pushPart (kind check : Nat) (u : UnitRef) (tenant detail : Nat) (bundle : List Byte) :
    pushPart (recordFault kind check u tenant detail bundle s) = pushPart s := by
  unfold recordFault
  dsimp only
  split
  · refine (pushPart_still.event ..).trans ?_
    split <;> rfl
  · split <;> rfl

theorem setCauseAll_pushPart (bit : Nat) : pushPart (setCauseAll bit s) = pushPart s := by
  rw [setCauseAll_eq]
  rfl

theorem capChange_pushPart (severity : Nat) (g : Cap → Cap) : pushPart (capChange severity g s) = pushPart s := by
  unfold capChange
  dsimp only
  split
  · exact (setCauseAll_pushPart ..).trans ((pushPart_still.event ..).trans rfl)
  · rfl

theorem retireUnit_pushPart (check : Nat) (u : UnitRef) (tenant : Nat) : pushPart (retireUnit check u tenant s) = pushPart s := by
  refine (pushPart_still.retireUnit ..).trans ?_
  unfold retireCap
  split
  · rfl
  · exact (capChange_pushPart ..).trans ((rfl : pushPart (modSum u _ _) = _).trans (recordFault_pushPart ..))

theorem retireUnit_board (check : Nat) (u : UnitRef) (tenant : Nat) : (retireUnit check u tenant s).board = s.board := by
  refine (board_still.retireUnit ..).trans ?_
  rw [retireCap_eq]

theorem capChange_board (severity : Nat) (g : Cap → Cap) : (capChange severity g s).board = s.board := by rw [capChange_eq]

theorem recordFault_board (kind check : Nat) (u : UnitRef) (tenant detail : Nat) (bundle : List Byte) :
    (recordFault kind check u tenant detail bundle s).board = s.board := by rw [recordFault_eq]

theorem markSuspect_board (u : UnitRef) : (markSuspect u s).board = s.board := by
  unfold markSuspect
  split
  · split
    · rfl
    · exact capChange_board ..
  · split
    · rfl
    · exact capChange_board ..
  · exact board_still.checkNoFurrow ..
  · rfl

theorem faultEvent_board (kind check : Nat) (u : UnitRef) (tenant detail : Nat) (bundle : List Byte) :
    (faultEvent kind check u tenant detail bundle s).board = s.board := by
  unfold faultEvent
  split
  · rfl
  · have follows (t : State) : (if 2 < recentEvents t (getSum t u) then retireUnit check u tenant t else markSuspect u t).board = t.board := by
      split
      · exact retireUnit_board ..
      · exact markSuspect_board ..
    exact (follows _).trans (recordFault_board ..)

theorem resumeUnit_board (u : UnitRef) : (resumeUnit u s).board = s.board := by
  unfold resumeUnit
  split
  · exact capChange_board ..
  · exact board_still.checkNoFurrow ..
  · rfl

theorem normalUnit_board (u : UnitRef) : (normalUnit u s).board = s.board := by
  unfold normalUnit
  dsimp only
  split
  · exact (capChange_board ..).trans (recordFault_board ..)
  · exact recordFault_board ..

theorem passUnit_board (u : UnitRef) : (passUnit u s).board = s.board := by
  unfold passUnit
  dsimp only
  split
  · rfl
  · have passed (b : Bool) (g : UnitSum → UnitSum) : (whenS b (resumeUnit u) (modSum u g s)).board = s.board :=
      (whenS_keeps State.board (fun t => resumeUnit_board t u) ..).trans rfl
    split
    · exact (normalUnit_board ..).trans (passed ..)
    · exact passed ..

theorem settleUnit_board (u : UnitRef) (first again : Bool) : (settleUnit u first again s).board = s.board := by
  unfold settleUnit
  split
  · exact retireUnit_board ..
  split
  · exact faultEvent_board ..
  · exact passUnit_board ..

theorem bootOutcomes_board (first repeats : List Nat) (mk : Nat → UnitRef) (l : List Nat) :
    (forEach (bootOutcome first repeats mk) l s).board = s.board :=
  forEach_keeps State.board (fun _ _ => whenS_keeps State.board (fun u => settleUnit_board u _ _ _) ..) ..

/-! ### Boot self-test -/

theorem board_modBoard_modTest (f : Board → Board) (g : SelfTest → SelfTest) : (modBoard f (modTest g s)).board = f s.board := rfl

theorem bootSelftestEnd_spec (first repeats : BootFails) (turn : s.board.step = 4) : ∃ t, exec (.bootSelftestEnd first repeats) s = .next t ∧
    t.board = { s.board with step := 5 } ∧ t.test.bootDone = true ∧
    (∀ n, n < 32 → (hasBit t.test.bootTiles n = true ↔ n ∈ first.tiles ∧ bootTested { s with hist := { s.hist with sums := bootSums s } } (.tile n) = true)) ∧
    (∀ n, n < 20 → (hasBit t.test.bootSluices n = true ↔
      n ∈ first.sluices ∧ bootTested { s with hist := { s.hist with sums := bootSums s } } (.sluice n) = true)) := by
  refine ⟨_, next_congr (if_pos turn), ?_, rfl, fun n small => ?_, fun n small => ?_⟩
  · rw [board_modBoard_modTest, bootOutcomes_board, bootOutcomes_board, bootOutcomes_board]
  · refine (hasBit_bitsSet small _).trans ?_
    simp [small]
  · refine (hasBit_bitsSet small _).trans ?_
    simp [small]

end

end Sys2Proof.Machine

/-! Link training and the inventory (19 R447; 10 R241, R244; 01 R15), and the start-up as a whole. -/

namespace Sys2Proof.Machine

/-! ### Link training -/

section
variable (failing : List (Nat × List Nat))

/-- Groups of a stack's link with failing lanes. -/
def failingGroups (k : Nat) : List Nat := sortedSet ((failingOf failing k).map (· / 34))

/-- Some group of the stack's link needs more than two spares. -/
def linkLost (k : Nat) : Bool := (failingGroups failing k).any fun g => decide (2 < groupFails (failingOf failing k) g)

/-- The spares that a stack's failing data lanes take. -/
def linkSpares (k : Nat) : List (Nat × Nat) := (failingGroups failing k).flatMap (assignSpares (failingOf failing k))

theorem trainLink_eq (k : Nat) (s : State) : trainLink failing k s =
    if linkLost failing k then retireUnit 14 (.stack k) 0xFF s else modStk k (fun x => { x with spares := linkSpares failing k }) s := rfl

theorem linkLost_of_fails {k g : Nat} (fails : 2 < groupFails (failingOf failing k) g) : linkLost failing k = true := by
  unfold linkLost failingGroups
  rw [List.any_eq_true]
  refine ⟨g, ((sortedSet_spec _).2 g).mpr ?_, decide_eq_true fails⟩
  unfold groupFails at fails
  obtain ⟨l, mem⟩ := List.exists_mem_of_length_pos (show 0 < ((sortedSet (failingOf failing k)).filter fun l => l / 34 == g).length by
    exact Nat.lt_trans (by decide) fails)
  rw [List.mem_filter] at mem
  obtain ⟨there, group⟩ := mem
  exact List.mem_map.mpr ⟨l, ((sortedSet_spec _).2 l).mp there, by simpa using group⟩

theorem linkLost_of_spared (k : Nat) (spared : ∀ g, groupFails (failingOf failing k) g ≤ 2) : linkLost failing k = false := by
  unfold linkLost
  rw [List.any_eq_false]
  intro g _
  have := spared g
  simpa using this

theorem trainLink_board (k : Nat) (s : State) : (trainLink failing k s).board = s.board := by
  rw [trainLink_eq]
  split
  · exact retireUnit_board ..
  · rfl

theorem trainLink_pushPart (k : Nat) (s : State) : pushPart (trainLink failing k s) = pushPart s := by
  rw [trainLink_eq]
  split
  · exact retireUnit_pushPart ..
  · rfl

/-- Links that spares mend take them. -/
theorem getStk_trainLinks (mended : ∀ k, linkLost failing k = false) {k : Nat} (l : List Nat) (s : State) :
    (getStk (forEach (trainLink failing) l s) k).spares = if k ∈ l then linkSpares failing k else (getStk s k).spares := by
  induction l generalizing s with
  | nil => rfl
  | cons j l ih =>
    show (getStk (forEach (trainLink failing) l (trainLink failing j s)) k).spares = _
    rw [ih, trainLink_eq, mended j]
    by_cases later : k ∈ l
    · rw [if_pos later, if_pos (List.mem_cons_of_mem _ later)]
    · rw [if_neg later]
      by_cases same : k = j
      · subst same
        rw [if_pos List.mem_cons_self]
        simp
      · rw [if_neg (fun mem => (List.mem_cons.mp mem).elim same later), if_neg Bool.false_ne_true, getStk_modStk_ne _ _ same]

end

/-! ### Stacks that training loses -/

section
variable (s : State)

theorem getSum_code (u : UnitRef) : (getSum s u).cls = (unitCode u).1 ∧ (getSum s u).unit = (unitCode u).2 := by
  unfold getSum
  cases found : s.hist.sums.find? fun x => x.cls == (unitCode u).1 && x.unit == (unitCode u).2 with
  | none => exact ⟨rfl, rfl⟩
  | some x => simpa using List.find?_some found

theorem getSum_modSum_ne {u v : UnitRef} (g : UnitSum → UnitSum) (keep : ∀ x, (g x).cls = x.cls ∧ (g x).unit = x.unit)
    (other : unitCode v ≠ unitCode u) : getSum (modSum u g s) v = getSum s v := by
  obtain ⟨cls, unit⟩ := keep (getSum s u)
  obtain ⟨code1, code2⟩ := getSum_code s u
  have apart : ¬((g (getSum s u)).cls = (unitCode v).1 ∧ (g (getSum s u)).unit = (unitCode v).2) := fun ⟨e1, e2⟩ =>
    other (Prod.ext (e1.symm.trans (cls.trans code1)) (e2.symm.trans (unit.trans code2)))
  have rest : (s.hist.sums.filter fun y => !(y.cls == (g (getSum s u)).cls && y.unit == (g (getSum s u)).unit)).find?
      (fun x => x.cls == (unitCode v).1 && x.unit == (unitCode v).2) = s.hist.sums.find? fun x => x.cls == (unitCode v).1 && x.unit == (unitCode v).2 := by
    rw [List.find?_filter]
    refine congrArg (fun p => List.find? p s.hist.sums) (funext fun x => ?_)
    by_cases same : x.cls = (unitCode v).1 ∧ x.unit = (unitCode v).2
    · obtain ⟨e1, e2⟩ := same
      have kept : ((unitCode v).1 == (g (getSum s u)).cls && (unitCode v).2 == (g (getSum s u)).unit) = false := by
        simpa using fun (e1 : (unitCode v).1 = _) (e2 : (unitCode v).2 = _) => apart ⟨e1.symm, e2.symm⟩
      rw [e1, e2, kept]
      simp
    · have missed : (x.cls == (unitCode v).1 && x.unit == (unitCode v).2) = false := by simpa using same
      simp [missed]
  unfold getSum modSum
  dsimp only
  refine congrArg (Option.getD · _) ?_
  split
  · exact rest
  · rw [List.find?_append, rest, List.find?_singleton, if_neg (by simpa using apart), Option.or_none]

/-- A stack whose summary says retired is not usable. -/
def lostUnusable (k : Nat) (s : State) : Prop := (getSum s (.stack k)).state = 3 → hasBit s.cap.stackUsable k = false

theorem retireUnit_getSum_ne (check : Nat) {u v : UnitRef} (tenant : Nat) (other : unitCode v ≠ unitCode u) :
    getSum (retireUnit check u tenant s) v = getSum s v := by
  have hist : (retireUnit check u tenant s).hist = (retireCap check u tenant s).hist := hist_still.retireUnit ..
  have ofHist : getSum (retireUnit check u tenant s) v = getSum (retireCap check u tenant s) v := by
    unfold getSum
    rw [hist]
  rw [ofHist]
  unfold retireCap
  split
  · rfl
  · have kept (t : State) (g : Cap → Cap) : getSum (capChange 2 g t) v = getSum t v := by
      unfold getSum
      rw [capChange_hist]
    rw [kept, getSum_modSum_ne _ _ (by exact fun _ => ⟨rfl, rfl⟩) other, getSum_recordFault]

theorem retireUnit_stackUsable {j : Nat} (check tenant k : Nat) (fresh : (getSum s (.stack j)).state ≠ 3) :
    hasBit (retireUnit check (.stack j) tenant s).cap.stackUsable k = (decide (k ≠ j) && hasBit s.cap.stackUsable k) := by
  obtain ⟨gen, cap⟩ := retireUnit_cap check (.stack j) tenant s fresh
  rw [cap]
  show hasBit (putBit s.cap.stackUsable j false) k = _
  by_cases same : k = j
  · subst same
    rw [hasBit_putBit_false]
    simp
  · rw [hasBit_putBit_false_ne _ same, decide_eq_true same, Bool.true_and]

theorem retireUnit_retired {check tenant : Nat} {u : UnitRef} (retired : (getSum s u).state = 3) : retireUnit check u tenant s = s := if_pos retired

end

section
variable {failing : List (Nat × List Nat)} {k : Nat} {s : State}

theorem trainLink_unusable (j : Nat) (unusable : hasBit s.cap.stackUsable k = false) : hasBit (trainLink failing j s).cap.stackUsable k = false := by
  rw [trainLink_eq]
  split
  · by_cases retired : (getSum s (.stack j)).state = 3
    · rwa [retireUnit_retired s retired]
    · rw [retireUnit_stackUsable s 14 0xFF k retired, unusable, Bool.and_false]
  · exact unusable

theorem trainLink_lost (lost : linkLost failing k = true) (sound : lostUnusable k s) : hasBit (trainLink failing k s).cap.stackUsable k = false := by
  rw [trainLink_eq, if_pos lost]
  by_cases retired : (getSum s (.stack k)).state = 3
  · rw [retireUnit_retired s retired]
    exact sound retired
  · rw [retireUnit_stackUsable s 14 0xFF k retired]
    simp

theorem trainLink_lostUnusable {j : Nat} (other : k ≠ j) (sound : lostUnusable k s) : lostUnusable k (trainLink failing j s) := by
  intro retired
  refine trainLink_unusable j (sound ?_)
  rw [trainLink_eq] at retired
  split at retired
  · rwa [retireUnit_getSum_ne s 14 0xFF (by simpa [unitCode] using other)] at retired
  · exact retired

theorem trainLinks_unusable (l : List Nat) (unusable : hasBit s.cap.stackUsable k = false) :
    hasBit (forEach (trainLink failing) l s).cap.stackUsable k = false := by
  induction l generalizing s with
  | nil => exact unusable
  | cons j l ih => exact ih (trainLink_unusable j unusable)

theorem trainLinks_lost {l : List Nat} (mem : k ∈ l) (lost : linkLost failing k = true) (sound : lostUnusable k s) :
    hasBit (forEach (trainLink failing) l s).cap.stackUsable k = false := by
  induction l generalizing s with
  | nil => exact absurd mem (List.not_mem_nil)
  | cons j l ih =>
    by_cases same : k = j
    · subst same
      exact trainLinks_unusable l (trainLink_lost lost sound)
    · exact ih ((List.mem_cons.mp mem).resolve_left same) (trainLink_lostUnusable same sound)

/-- A GO that was held takes effect; otherwise the controller waits for one. -/
def admitPush (h : Henua) : Henua := if h.goHeld then startPush h.source h else { h with bstate := 1 }

theorem admitPush_state (h : Henua) : (admitPush h).bstate = (if h.goHeld then 2 else 1) ∧ (admitPush h).goHeld = false := by
  unfold admitPush
  by_cases held : h.goHeld = true
  · rw [if_pos held, if_pos held]
    exact ⟨rfl, rfl⟩
  · rw [if_neg held, if_neg held]
    exact ⟨rfl, eq_false_of_ne_true held⟩

/-- Once the links are trained the push may begin. -/
theorem stackLinkTrainingEnd_spec (named : (failing.all fun e : Nat × List Nat => stackOk e.1 && e.2.all laneOk) = true) (turn : s.board.step = 5) :
    ∃ t, exec (.stackLinkTrainingEnd failing) s = .next t ∧ t.board = { s.board with step := 6 } ∧
        t.henua.bstate = (if s.henua.goHeld then 2 else 1) ∧ t.henua.goHeld = false ∧
        ((∀ k g, groupFails (failingOf failing k) g ≤ 2) → ∀ k, k < 8 → (getSum s (.stack k)).state ≠ 3 → (getStk t k).spares = linkSpares failing k) ∧
        (∀ k g, k < 8 → (getSum s (.stack k)).state ≠ 3 → 2 < groupFails (failingOf failing k) g → hasBit t.cap.stackUsable k = false) := by
  have listed {j : Nat} (small : j < 8) (present : (getSum s (.stack j)).state ≠ 3) :
      j ∈ (List.range 8).filter fun k => (getSum s (.stack k)).state != 3 := by simp [small, present]
  generalize el : ((List.range 8).filter fun k => (getSum s (.stack k)).state != 3) = l at listed
  have board : (forEach (trainLink failing) l s).board = s.board := forEach_keeps State.board (fun k t => trainLink_board failing k t) ..
  have push : pushPart (forEach (trainLink failing) l s) = pushPart s := forEach_keeps pushPart (fun k t => trainLink_pushPart failing k t) ..
  have ran : exec (.stackLinkTrainingEnd failing) s = .next (modHenua admitPush
      (modBoard (fun b => { b with step := 6 }) (forEach (trainLink failing) l s))) := by
    subst el
    exact (onUnit_next named _).trans (next_congr (if_pos turn))
  obtain ⟨state, idle⟩ := admitPush_state (forEach (trainLink failing) l s).henua
  refine ⟨_, ran, congrArg (fun b : Board => { b with step := 6 }) board, ?_, ?_, fun spared k small present => ?_, fun k g small present fails => ?_⟩
  · refine state.trans ?_
    rw [show (forEach (trainLink failing) l s).henua.goHeld = s.henua.goHeld from congrArg (·.2.1) push]
  · exact idle
  · refine (getStk_trainLinks failing (fun k => linkLost_of_spared failing k (spared k)) l s).trans (if_pos (listed small present))
  · exact trainLinks_lost (listed small present) (linkLost_of_fails failing fails) fun retired => absurd retired present

end

end Sys2Proof.Machine

/-! The inventory (19 R447; 01 R15, R16): the table, tenant 0, and clear tiles; and the start-up as a whole. -/

namespace Sys2Proof.Machine

/-! ### Writers leave the far tier's expanders and registers alone (10 R243) -/

section
variable (s : State) (blk : Nat)

theorem far_countCe (sym : Nat) : (countCe blk sym s).far = s.far := by
  refine (whenS_keeps State.far (fun t => ?_) ..).trans rfl
  rw [setCause_eq, henuaEvent_eq]

theorem far_countUe (repaired : Bool) : (countUe blk repaired s).far = s.far := by
  refine (whenS_keeps State.far (fun t => ?_) ..).trans rfl
  rw [henuaEvent_eq]

theorem far_poisonSharedPage (off : Nat) : (poisonSharedPage off s).far = s.far := by
  unfold poisonSharedPage
  split
  · rfl
  · rw [setCause_eq, henuaEvent_eq]

theorem far_storeBlk (data : List Byte) (poison : Bool) (source : Nat) : (storeBlk blk data poison source s).far = s.far := rfl

theorem far_foundUe (data : List Byte) : (foundUe blk data s).2.far = s.far := by
  unfold foundUe
  split
  · exact far_countUe ..
  · exact (far_poisonSharedPage ..).trans (far_countUe ..)
  · dsimp only
    split
    · refine (far_storeBlk ..).trans ((far_countUe ..).trans (?_ : (openRow _ _).far = _))
      split
      · exact far_countCe ..
      · rfl
    · refine (far_poisonSharedPage ..).trans ((far_countUe ..).trans ?_)
      split
      · exact far_countUe ..
      · rfl

theorem far_decodeBlk : (decodeBlk blk s).2.far = s.far := by
  unfold decodeBlk
  dsimp only
  split
  · rfl
  · exact far_countCe ..
  · dsimp only
    split
    · exact far_countCe ..
    · rfl
  · exact far_foundUe ..

theorem far_modifyBlk (data : List Byte) (mask : Nat) (poison : Bool) (source : Nat) : (modifyBlk blk data mask poison source s).far = s.far := by
  unfold modifyBlk
  exact (far_storeBlk ..).trans (far_decodeBlk ..)

theorem far_flushEntry (e : MergeEntry) : (flushEntry e s).far = s.far := by
  unfold flushEntry
  dsimp only
  split
  · rfl
  · exact far_modifyBlk ..

theorem far_flushBlk : (flushBlk blk s).far = s.far := by
  unfold flushBlk
  split
  · exact far_flushEntry ..
  · rfl

theorem far_mergeWrite (data : List Byte) (mask source : Nat) : (mergeWrite blk data mask source s).far = s.far := by
  unfold mergeWrite
  dsimp only
  split
  · split
    · exact far_flushEntry ..
    · rfl
  · split
    · split
      · exact far_flushEntry ..
      · rfl
    · rfl

theorem far_writeStack (data : List Byte) (mask : Nat) (poison : Bool) (source : Nat) : (writeStack blk data mask poison source s).far = s.far := by
  unfold writeStack
  split
  · rfl
  split
  · rfl
  split
  · rfl
  split
  · exact (far_modifyBlk ..).trans (far_flushBlk ..)
  · exact far_mergeWrite ..

theorem far_setZ (space : Nat) (m : Mem) (z : List Nat) : (setZ space m z s).far = s.far := by
  unfold setZ
  split <;> rfl

theorem far_farWrite (off : Nat) (bs : List Byte) (p : List Nat) : (farWrite off bs p s).far = s.far := rfl

theorem far_writeBlk (fn space inst off : Nat) (data : List Byte) (mask : Nat) (poison : Bool) (source : Nat) :
    (writeBlk fn space inst off data mask poison source s).far = s.far := by
  unfold writeBlk
  split
  · unfold hostBlk
    dsimp only
    split <;> rfl
  · split
    · rfl
    · exact far_farWrite ..
  · split
    · rfl
    · exact far_writeStack ..
  · exact far_setZ ..

theorem far_freshVal (n : Nat) : (freshVal n s).2.far = s.far := by
  rw [freshVal_frame]

end

/-- A mover that is no furrow unit's and has left the far tier's registers as they were. -/
def FarStands (f : Far) (a : Acc) : Prop := a.s.far = f ∧ a.source ≠ 3

section
variable {f : Far} {a : Acc}

theorem FarStands.addOut (stands : FarStands f a) (st : Nat) (c : Bool) : FarStands f (addOut st c a) := by
  unfold Machine.addOut
  split <;> exact stands

theorem FarStands.wrBlk (stands : FarStands f a) (space inst off : Nat) (data : List Byte) (mask : Nat) (poison : Bool) :
    FarStands f (wrBlk space inst off data mask poison a) := by
  have put : FarStands f (putBlk space inst off data mask poison a) :=
    FarStands.addOut (a := { a with s := _, cache := _ }) ⟨(far_writeBlk ..).trans stands.1, stands.2⟩ _ _
  unfold Machine.wrBlk Acc.stop
  split
  · exact stands
  split
  · exact stands.addOut ..
  split
  · exact stands.addOut ..
  split
  · rename_i furrow
    exact absurd furrow.1 stands.2
  · exact put

theorem FarStands.wrLineGo (stands : FarStands f a) (d : Desc) (per fuel off : Nat) (vs : List (Nat × Bool)) :
    FarStands f (wrLineGo d per fuel off vs a) := by
  induction fuel generalizing off vs a with
  | zero => exact stands
  | succ fuel ih =>
    unfold Machine.wrLineGo
    split
    · exact stands
    · exact ih (stands.wrBlk ..) _ _

theorem FarStands.lineVals {g : Nat → Acc → (Nat × Bool) × Acc} (hg : ∀ n b, FarStands f b → FarStands f (g n b).2) (stands : FarStands f a)
    (slots : List (Option Nat)) : FarStands f (lineVals g slots a).2 := by
  induction slots generalizing a with
  | nil => exact stands
  | cons slot slots ih =>
    cases slot with
    | none => exact ih stands
    | some n => exact ih (hg n _ stands)

theorem FarStands.wrTensor {g : Nat → Acc → (Nat × Bool) × Acc} (hg : ∀ n b, FarStands f b → FarStands f (g n b).2) (stands : FarStands f a) (d : Desc) :
    FarStands f (wrTensor d g a) := by
  unfold Machine.wrTensor
  generalize dLines d = lines
  induction lines generalizing a with
  | nil => exact stands
  | cons line lines ih => exact ih ((FarStands.lineVals hg stands _).wrLineGo ..)

theorem far_scramble (d : Desc) (s : State) : (scramble d s).far = s.far := by
  obtain ⟨far, -⟩ := FarStands.wrTensor (f := s.far) (a := Acc.start 1 s) (d := d)
    (g := fun _ a => let v := freshVal (elBytes d.fmt 1) a.s
      ((v.1 % 2 ^ fmtBits d.fmt, false), { a with s := v.2 })) (fun _ b stands => ⟨(far_freshVal ..).trans stands.1, stands.2⟩) ⟨rfl, show 1 ≠ 3 by decide⟩
  exact far

end

/-! ### Furrow operations that no unit can serve -/

/-- Instruction memory, peers and the far tier's registers. -/
def imemDptFar (k : Nat) (s : State) : Option Code × Dpt × Far := ((getTile s k).imem, s.dpt, s.far)

section
variable (k : Nat) (s : State)

theorem imemDptFar_modTile (t : Nat) (g : Tile → Tile) (keep : ∀ x, (g x).imem = x.imem) : imemDptFar k (modTile t g s) = imemDptFar k s := by
  unfold imemDptFar
  by_cases same : k = t
  · subst same
    rw [getTile_modTile, keep]
    rfl
  · rw [getTile_modTile_ne _ _ same]
    rfl

theorem imemDptFar_wakeSource (code : Nat) (idleToo : Bool) : imemDptFar k (wakeSource code idleToo s) = imemDptFar k s := by
  unfold wakeSource startWake
  dsimp only
  split
  · split
    · rfl
    split
    · rfl
    split <;> rfl
  · rfl

theorem imemDptFar_tellOwner (x : Release) : imemDptFar k (tellOwner x s) = imemDptFar k s := by
  unfold tellOwner
  split
  · rfl
  · exact (imemDptFar_wakeSource ..).trans (imemDptFar_modTile _ _ _ _ (by exact fun _ => rfl))

theorem imemDptFar_ctrUpdate (c v : Nat) (ws : List Wait) : imemDptFar k (ctrUpdate c v ws s) = imemDptFar k s := by
  refine (whenS_keeps (imemDptFar k) (fun t => imemDptFar_wakeSource k t 8 false) ..).trans ?_
  exact forEach_keeps (imemDptFar k) (fun x t => imemDptFar_tellOwner k t x) ..

theorem imemDptFar_signalCtr (tenant c n : Nat) : imemDptFar k (signalCtr tenant c n s) = imemDptFar k s := by
  unfold signalCtr signalPhys
  split
  · split
    · rfl
    dsimp only
    split
    · exact (whenS_keeps (imemDptFar k) (by exact fun _ => rfl) ..).trans (imemDptFar_ctrUpdate ..)
    · exact imemDptFar_ctrUpdate ..
  · rfl

theorem imemDptFar_withdrawAll (p : Wait → Bool) : imemDptFar k (withdrawAll p s) = imemDptFar k s :=
  forEach_keeps (imemDptFar k) (fun c t => imemDptFar_ctrUpdate k t c _ _) ..

theorem imemDptFar_pauseDone (t : Nat) : imemDptFar k (pauseDone t s) = imemDptFar k s := by
  refine forEach_keeps (imemDptFar k) (fun h u => ?_) ..
  split
  · dsimp only
    split <;> rfl
  · rfl

theorem imemDptFar_modRun (r : Nat) (g : Run → Run) : imemDptFar k (modRun r g s) = imemDptFar k s := by
  rw [modRun_eq]
  rfl

theorem imemDptFar_endRun (r : Nat) (outs : List Nat) : imemDptFar k (endRun r outs s) = imemDptFar k s := by
  unfold endRun
  split
  · rfl
  split
  · rfl
  · refine (imemDptFar_pauseDone ..).trans ((forEach_keeps (imemDptFar k) (fun t u => ?_) ..).trans ((imemDptFar_withdrawAll ..).trans (imemDptFar_modRun ..)))
    split
    · exact imemDptFar_modTile _ _ _ _ (by exact fun _ => rfl)
    · rfl

theorem imemDptFar_settleFop (i : Nat) : imemDptFar k (settleFop i s) = imemDptFar k s := by
  unfold settleFop
  split
  · rfl
  split
  · dsimp only
    split
    · rfl
    split
    · split
      · exact imemDptFar_endRun ..
      · rfl
    · split
      · exact imemDptFar_signalCtr ..
      · rfl
  · rfl

theorem imemDptFar_scramble (d : Desc) : imemDptFar k (scramble d s) = imemDptFar k s := by
  have data := scramble_data d s (DataOnly.refl s)
  unfold DataOnly at data
  unfold imemDptFar
  rw [far_scramble, getTile, getTile]
  rw [data]

theorem imemDptFar_stopFops (p : FurrowOp → Bool) (outcome : Nat) : imemDptFar k (stopFops p outcome s) = imemDptFar k s := by
  refine (forEach_keeps (imemDptFar k) (fun i t => imemDptFar_settleFop k t i) ..).trans ?_
  refine (forEach_keeps (imemDptFar k) (fun i t => ?_) ..).trans (forEach_keeps (imemDptFar k) (fun i t => ?_) ..)
  · rw [modFop_eq]
    rfl
  · unfold scrambleFop
    split
    · split
      · rfl
      · exact forEach_keeps (imemDptFar k) (fun d u => imemDptFar_scramble k u d) ..
    · rfl

theorem imemDptFar_checkNoFurrow (j : Nat) : imemDptFar k (checkNoFurrow j s) = imemDptFar k s := by
  unfold checkNoFurrow
  split
  · rfl
  split
  · rfl
  · refine (imemDptFar_stopFops ..).trans ?_
    rw [henuaEvent_eq]
    rfl

/-- Without furrow operations nothing stops. -/
theorem checkNoFurrow_none (j : Nat) {s : State} (none_ : s.fops = []) : (checkNoFurrow j s).fops = [] ∧ (checkNoFurrow j s).mem = s.mem := by
  have stopped (p : FurrowOp → Bool) (outcome : Nat) (t : State) (e : t.fops = []) : stopFops p outcome t = t := by
    unfold stopFops
    rw [e]
    rfl
  unfold checkNoFurrow
  split
  · exact ⟨none_, rfl⟩
  split
  · exact ⟨none_, rfl⟩
  · have event (cls severity : Nat) (payload : List Nat) (t : State) : (henuaEvent cls severity payload t).fops = t.fops := by rw [henuaEvent_eq]
    unfold failUnserved
    rw [stopped _ _ _ ((event ..).trans (by exact none_))]
    exact ⟨(event ..).trans none_, henuaEvent_mem ..⟩

end

end Sys2Proof.Machine

/-! The inventory (19 R447; 01 R15, R16): the table, tenant 0, and clear tiles; and the start-up as a whole. -/

namespace Sys2Proof.Machine

/-! ### The table -/

theorem unitOf_tile {cls unit k : Nat} : unitOf cls unit = some (.tile k) ↔ cls = 1 ∧ unit = k := by
  unfold unitOf
  split <;> simp_all

/-- A summary takes a tile out of the table when it says retired. -/
def retiresTile (k : Nat) (y : UnitSum) : Prop := y.cls = 1 ∧ y.unit = k ∧ y.state = 3

theorem suspectCap_tileUsable (u : UnitRef) (c : Cap) : (suspectCap u c).tileUsable = c.tileUsable := by
  cases u <;> rfl

theorem clearUsable_tileUsable (u : UnitRef) (c : Cap) (k : Nat) :
    hasBit (clearUsable u c).tileUsable k = true ↔ hasBit c.tileUsable k = true ∧ u ≠ .tile k := by
  by_cases same : u = .tile k
  · subst same
    simp [clearUsable, hasBit_putBit_false]
  · cases u with
    | tile t =>
      have other : k ≠ t := fun e => same (by rw [e])
      simp [clearUsable, hasBit_putBit_false_ne _ other, Ne.symm other]
    | _ => simp [clearUsable]

theorem sumCap_tileUsable (c : Cap) (x : UnitSum) (k : Nat) :
    hasBit (sumCap c x).tileUsable k = true ↔ hasBit c.tileUsable k = true ∧ ¬retiresTile k x := by
  unfold sumCap retiresTile
  split
  · rename_i u eu
    split
    · rename_i retired
      show hasBit (clearUsable u c).tileUsable k = true ↔ _
      rw [clearUsable_tileUsable]
      have names : u = .tile k ↔ x.cls = 1 ∧ x.unit = k := by rw [← unitOf_tile, eu, Option.some_inj]
      rw [ne_eq, names]
      simp [retired]
    · rename_i kept
      split
      · simp [suspectCap_tileUsable, kept]
      · simp [kept]
  · rename_i nobody
    have other : ¬(x.cls = 1 ∧ x.unit = k) := fun e => by
      rw [unitOf_tile.mpr e] at nobody
      exact absurd nobody (by simp)
    simp only [iff_self_and]
    exact fun _ e => other ⟨e.1, e.2.1⟩

theorem sumCaps_tileUsable (c : Cap) (l : List UnitSum) (k : Nat) :
    hasBit (l.foldl sumCap c).tileUsable k = true ↔ hasBit c.tileUsable k = true ∧ ∀ y ∈ l, ¬retiresTile k y := by
  induction l generalizing c with
  | nil => simp
  | cons x l ih =>
    rw [List.foldl_cons, ih, sumCap_tileUsable]
    simp [and_assoc]

theorem sumCap_valid_gen (c : Cap) (x : UnitSum) : (sumCap c x).valid = c.valid ∧ (sumCap c x).gen = c.gen := by
  have cleared (u : UnitRef) : (clearUsable u c).valid = c.valid ∧ (clearUsable u c).gen = c.gen := by cases u <;> exact ⟨rfl, rfl⟩
  have suspected (u : UnitRef) : (suspectCap u c).valid = c.valid ∧ (suspectCap u c).gen = c.gen := by cases u <;> exact ⟨rfl, rfl⟩
  unfold sumCap
  split
  · split
    · exact cleared _
    split
    · exact suspected _
    · exact ⟨rfl, rfl⟩
  · exact ⟨rfl, rfl⟩

theorem sumCaps_valid_gen (c : Cap) (l : List UnitSum) : (l.foldl sumCap c).valid = c.valid ∧ (l.foldl sumCap c).gen = c.gen := by
  induction l generalizing c with
  | nil => exact ⟨rfl, rfl⟩
  | cons x l ih =>
    obtain ⟨valid, gen⟩ := ih (sumCap c x)
    obtain ⟨valid', gen'⟩ := sumCap_valid_gen c x
    exact ⟨valid.trans valid', gen.trans gen'⟩

/-! ### The state that the inventory makes -/

/-- The table written, the tile memories clear, the far tier mapped. -/
def inventoried (l : List Nat) (s : State) : State :=
  let s1 : State := { clearTileMem [] [] [] s with cap := bootCap s, far := mapFar l, edgesDown := bootEdges s }
  modDpt (fun d => { d with incarnation := Config.incarnation s.era }) (modBoard (fun b => { b with step := 8 })
    { s1 with cap := { s1.cap with degraded := degradedNow s1 } })

/-- Tenant 0 with its context area. -/
def withTenant0 (s : State) : State :=
  match placeContext s (contextLen tenant0Profile) with
  | some (base, u) => addTenant 0 tenant0Profile base u
  | none => addTenant 0 tenant0Profile 0 s

theorem exec_inventoryComplete {s : State} {l : List Nat} (turn : s.board.step = 7 ∧ s.cap.valid = false) : exec (.inventoryComplete l) s =
    .next (setCauseAll 0 (henuaEvent 0x02 0
      (capStateWord (withTenant0 (inventoried l s)).cap :: changedRegs (capRegs s) (capRegs (withTenant0 (inventoried l s))))
      (forEach checkNoFurrow (List.range 8) (withTenant0 (inventoried l s))))) := by
  show execInventoryComplete l s = _
  unfold execInventoryComplete withTenant0 inventoried
  refine next_congr ((if_pos turn).trans ?_)
  generalize contextLen tenant0Profile = len
  rfl

theorem addTenant_eq (t : Nat) (p : Profile) (base : Nat) (s : State) : addTenant t p base s =
    { s with tenants := tabPut t ⟨p, false, false, [], [], 0, base⟩ s.tenants, ctrs := (addTenant t p base s).ctrs, fns := (addTenant t p base s).fns } := rfl

/-- Beside the tenant, its counters and rings, only the granules of its context area change. -/
theorem withTenant0_eq (s : State) : ∃ base, withTenant0 s = { s with
    tenants := tabPut 0 ⟨tenant0Profile, false, false, [], [], 0, base⟩ s.tenants, granules := (withTenant0 s).granules,
    ctrs := (withTenant0 s).ctrs, fns := (withTenant0 s).fns } := by
  unfold withTenant0
  split
  · rename_i base u placed
    rw [placeContext_granules placed]
    exact ⟨base, rfl⟩
  · exact ⟨0, rfl⟩

theorem checkNoFurrows_none (l : List Nat) {s : State} (none_ : s.fops = []) : (forEach checkNoFurrow l s).mem = s.mem := by
  induction l generalizing s with
  | nil => rfl
  | cons j l ih =>
    obtain ⟨fops, mem⟩ := checkNoFurrow_none j none_
    exact (ih fops).trans mem

theorem clearTileMem_imem (k : Nat) (s : State) : (getTile (clearTileMem [] [] [] s) k).imem = none := by
  unfold getTile tabGetD clearTileMem
  dsimp only
  rw [tabGet?_tabMap]
  cases tabGet? k s.tiles <;> rfl

theorem inventoryComplete_spec {s : State} {l : List Nat} (turn : s.board.step = 7 ∧ s.cap.valid = false) : ∃ t x, exec (.inventoryComplete l) s = .next t ∧
    t.board = { s.board with step := 8 } ∧ t.cap.valid = true ∧ t.cap.gen = 2 ∧ t.cap.degraded = degradedNow t ∧ t.far = mapFar l ∧
    t.dpt.incarnation = Config.incarnation s.era ∧ getTen? t 0 = some x ∧ x.profile = tenant0Profile ∧ x.held = false ∧
    (s.fops = [] → t.mem.basin = [] ∧ t.mem.scratch = [] ∧ t.mem.sdata = []) ∧ (∀ k, (getTile t k).imem = none) ∧
    (∀ k, k < 32 → (tileUsable t k = true ↔ tilePresent s k = true ∧ ∀ y ∈ s.hist.sums, ¬(y.cls = 1 ∧ y.unit = k ∧ y.state = 3))) := by
  obtain ⟨base, made⟩ := withTenant0_eq (inventoried l s)
  generalize eu : withTenant0 (inventoried l s) = u at made
  generalize ev : forEach checkNoFurrow (List.range 8) u = v
  have ran := exec_inventoryComplete (l := l) turn
  rw [eu, ev, setCauseAll_eq, henuaEvent_eq] at ran
  have apart : apartFromWork v = apartFromWork u := ev ▸ forEach_keeps apartFromWork (fun k t => checkNoFurrow_apartFromWork t k) ..
  obtain ⟨cap, -, -, -, -, -, board, fuses⟩ := of_apartFromWork apart
  have tenants : v.tenants = u.tenants := (congrArg State.tenants apart : (apartFromWork v).tenants = (apartFromWork u).tenants)
  have stands (k : Nat) : imemDptFar k v = imemDptFar k u := ev ▸ forEach_keeps (imemDptFar k) (fun j t => imemDptFar_checkNoFurrow k t j) ..
  have dpt : v.dpt = u.dpt := congrArg (·.2.1) (stands 0)
  have far : v.far = u.far := congrArg (·.2.2) (stands 0)
  obtain ⟨valid, gen⟩ := sumCaps_valid_gen (fullCap s) s.hist.sums
  have ucap : u.cap = (inventoried l s).cap := by rw [made]
  refine ⟨_, ⟨tenant0Profile, false, false, [], [], 0, base⟩, ran, ?_, ?_, ?_, ?_, ?_, ?_, ?_, rfl, rfl, ?_, ?_, ?_⟩
  · rw [board, made]
    rfl
  · show v.cap.valid = true
    rw [cap, ucap]
    exact valid
  · show v.cap.gen = 2
    rw [cap, ucap]
    exact gen
  · show v.cap.degraded = degradedNow { v with fns := _, out := _, henua := _ }
    unfold degradedNow
    dsimp only
    rw [cap, fuses, made]
    rfl
  · show v.far = _
    rw [far, made]
    rfl
  · show v.dpt.incarnation = _
    rw [dpt, made]
    rfl
  · show tabGet? 0 v.tenants = _
    rw [tenants, made]
    exact tabGet?_tabPut_same ..
  · intro idle
    have mem : v.mem = u.mem := ev ▸ checkNoFurrows_none _ (by rw [made]; exact idle)
    show v.mem.basin = [] ∧ v.mem.scratch = [] ∧ v.mem.sdata = []
    rw [mem, made]
    exact ⟨rfl, rfl, rfl⟩
  · intro k
    have imem : (getTile v k).imem = (getTile u k).imem := congrArg (·.1) (stands k)
    refine imem.trans ?_
    rw [made]
    exact clearTileMem_imem k s
  · intro k _
    show hasBit v.cap.tileUsable k = true ↔ _
    rw [cap, ucap]
    exact sumCaps_tileUsable (fullCap s) s.hist.sums k

/-- Settles O52: each command of the start-up is one condition on the board; boot self-test and link training keep the board while
their units are settled, and the inventory ends furrow operations alone. -/
theorem startUpGoesStepByStep : Obligations.StartUpGoesStepByStep := by
  unfold Obligations.StartUpGoesStepByStep
  intro s
  refine ⟨fun slot iso => ⟨fun on => ?_, fun off => ?_⟩, ?_, ?_, ?_, fun first repeats => ⟨fun early => ?_, bootSelftestEnd_spec s first repeats⟩,
    fun failing named => ⟨fun early => ?_, stackLinkTrainingEnd_spec named⟩,
    fun l => ⟨fun early => ?_, fun turn fresh => inventoryComplete_spec ⟨turn, fresh⟩⟩, rfl, fun flit w r => rfl⟩
  · exact next_congr (if_pos on)
  · refine next_congr ((if_neg (by rw [off]; exact Bool.false_ne_true)).trans rfl)
  · rfl
  · rfl
  · rfl
  · exact next_congr (if_neg early)
  · exact (onUnit_next named _).trans (next_congr (if_neg early))
  · exact next_congr (if_neg fun turn => early.elim (fun e => e turn.1) (fun e => Bool.false_ne_true (turn.2.symm.trans e)))

end Sys2Proof.Machine

/-! The rules of the peer transport (13 R308 to R310, R319 to R323): what a packet that leaves, a transfer or collective that ends, and a
peer that is lost change of the state. -/

namespace Sys2Proof.Machine

section
variable (s : State)

/-! ### Peers and paths -/

theorem modPeer_eq (m : Nat) (g : Peer → Peer) : modPeer m g s = { s with dpt := { s.dpt with peers := (modPeer m g s).dpt.peers } } := by
  unfold modPeer
  split <;> rfl

variable {s} in
theorem modPeer_there {m : Nat} {p : Peer} (there : getPeer? s m = some p) (g : Peer → Peer) :
    modPeer m g s = { s with dpt := { s.dpt with peers := tabPut m (g p) s.dpt.peers } } := by
  unfold modPeer
  rw [there]
  rfl

variable {s} in
theorem modPeer_absent {m : Nat} (absent : getPeer? s m = none) (g : Peer → Peer) : modPeer m g s = s := by
  unfold modPeer
  rw [absent]

theorem getPeer?_modPeer (m : Nat) (g : Peer → Peer) : getPeer? (modPeer m g s) m = (getPeer? s m).map g := by
  cases there : getPeer? s m with
  | none => rw [modPeer_absent there, there]; rfl
  | some p =>
    rw [modPeer_there there]
    exact tabGet?_tabPut_same ..

theorem getPeer?_modPeer_ne {m n : Nat} (g : Peer → Peer) (other : n ≠ m) : getPeer? (modPeer m g s) n = getPeer? s n := by
  cases there : getPeer? s m with
  | none => rw [modPeer_absent there]
  | some p =>
    rw [modPeer_there there]
    exact tabGet?_tabPut_ne other ..

theorem getPeer?_congr {s t : State} (e : t.dpt.peers = s.dpt.peers) (m : Nat) : getPeer? t m = getPeer? s m := congrArg (tabGet? m) e

/-! ### A packet leaves -/

/-- Ports whose links and records are the same carry the same paths. -/
theorem portOfPath_modPort (q m k : Nat) (g : Port → Port) (keep : ∀ p, (g p).linkUp = p.linkUp) : portOfPath (modPort q g s) m k = portOfPath s m k := by
  have links (p : Nat) : (getPort (modPort q g s) p).linkUp = (getPort s p).linkUp := by
    by_cases same : p = q
    · subst same
      rw [getPort_modPort, keep]
    · rw [getPort_modPort_ne _ _ same]
  unfold portOfPath upPorts
  simp only [links]

theorem countTx_eq (m k n : Nat) : countTx m k n s = { s with dpt := { s.dpt with ports := (countTx m k n s).dpt.ports } } := by
  unfold countTx
  split <;> rfl

theorem portOfPath_countTx (m k n m' k' : Nat) : portOfPath (countTx m k n s) m' k' = portOfPath s m' k' := by
  unfold countTx
  split
  · exact portOfPath_modPort _ _ _ _ _ (by exact fun _ => rfl)
  · rfl

section
variable (m k ty : Nat) (addr : List Byte) (hd : DptHdr) (b : DptBody)

/-- The packet that leaves. -/
def packetOf : DptWire := ⟨m, k, srcPortOf m k, addr, true, hdrBytes ty { hd with path := k, length := bodyLen b }, b⟩

theorem wireOut_eq : wireOut m k ty addr hd b s =
    { s with out := (wireOut m k ty addr hd b s).out, dpt := { s.dpt with ports := (wireOut m k ty addr hd b s).dpt.ports } } := by
  unfold wireOut
  split
  · rfl
  · rw [countTx_eq]
    rfl

theorem wireOut_out : (wireOut m k ty addr hd b s).out = if (portOfPath s m k).isNone then s.out else s.out ++ [.dpt (packetOf m k ty addr hd b)] := by
  unfold wireOut
  split
  · rfl
  · rw [countTx_eq]
    rfl

theorem portOfPath_wireOut (m' k' : Nat) : portOfPath (wireOut m k ty addr hd b s) m' k' = portOfPath s m' k' := by
  unfold wireOut
  split
  · rfl
  · exact portOfPath_countTx ..

end

end

/-! ### Transfers and collectives end -/

theorem DataOnly.dpt {s t : State} (data : DataOnly s t) : t.dpt = s.dpt := by
  unfold DataOnly at data
  rw [data]

theorem WorkOnly.dpt {s t : State} (work : WorkOnly s t) : t.dpt = s.dpt := by
  unfold WorkOnly at work
  rw [work]

theorem isSome_getPeer?_tabMap {s t : State} {f : Nat → Peer → Peer} (e : t.dpt.peers = tabMap f s.dpt.peers) (m : Nat) :
    (getPeer? t m).isSome = (getPeer? s m).isSome := by
  unfold getPeer?
  rw [e, tabGet?_tabMap, Option.isSome_map]

/-- What a lost peer leaves of the transport: its open transfers, the packets that wait, and the record of losses. -/
def lossPart (s : State) : List Inbound × List Buffered × List ((Nat × Nat) × Nat) × W64 × List (Nat × Nat) :=
  (s.dpt.inbound, s.dpt.reorder, s.dpt.rxNext, s.dpt.peersLost, s.dpt.lostIncarnations)

/-- The members joined, by group. -/
def joinedPart (s : State) : List (Nat × List Nat) := s.dpt.groups.map fun e => (e.1, e.2.joined)

section
variable (s : State)

theorem finishRemote_dpt (r : Remote) (outs : List Nat) : (finishRemote r outs s).dpt = { s.dpt with
    remotes := s.dpt.remotes.filter (fun x => x != r),
    peers := tabMap (fun _ p => { p with txq := p.txq.filter fun x => !(x.handle == r.handle && x.hd.queue == r.queue && x.ty != 4) }) s.dpt.peers } := by
  unfold finishRemote
  dsimp only
  split
  · split
    · exact (endRun_work _ _ _ (WorkOnly.refl _)).dpt
    · exact (modRun_work _ _ _ (WorkOnly.refl _)).dpt
  · rfl

theorem finishColl_dpt (k : Coll) (outs : List Nat) : (finishColl k outs s).dpt = { s.dpt with
    colls := s.dpt.colls.filter (fun x => x.handle != k.handle),
    peers := tabMap (fun _ p => { p with txq := p.txq.filter fun x => x.handle != k.handle }) s.dpt.peers } := rfl

theorem scrambleColl_data (k : Coll) : DataOnly s (scrambleColl k s) := by
  unfold scrambleColl
  split
  · exact scramble_data _ _ (DataOnly.refl s)
  · exact DataOnly.refl s

theorem scrambleInbound_data (x : Inbound) : DataOnly s (scrambleInbound x s) := by
  unfold scrambleInbound
  split
  · exact DataOnly.refl s
  · refine wrPieces_data _ _ _ _ (fun n a data => ?_) (DataOnly.refl s)
    split
    · exact freeSlots_data _ _ _ data
    · exact data

theorem finishRemotes_dpt (outs : List Nat) (l : List Remote) : (forEach (fun r u => finishRemote r outs u) l s).dpt = { s.dpt with
    remotes := (forEach (fun r u => finishRemote r outs u) l s).dpt.remotes,
    peers := (forEach (fun r u => finishRemote r outs u) l s).dpt.peers } := by
  induction l generalizing s with
  | nil => rfl
  | cons r l ih =>
    refine (ih (finishRemote r outs s)).trans ?_
    rw [finishRemote_dpt]
    rfl

theorem mem_finishRemotes (outs : List Nat) (l : List Remote) (x : Remote) :
    x ∈ (forEach (fun r u => finishRemote r outs u) l s).dpt.remotes ↔ x ∈ s.dpt.remotes ∧ x ∉ l := by
  induction l generalizing s with
  | nil => simp [forEach]
  | cons r l ih =>
    show x ∈ (forEach _ l (finishRemote r outs s)).dpt.remotes ↔ _
    rw [ih, finishRemote_dpt, List.mem_filter, List.mem_cons]
    simp only [bne_iff_ne, ne_eq, not_or, and_assoc]

theorem finishRemotes_isSome (outs : List Nat) (l : List Remote) (m : Nat) :
    (getPeer? (forEach (fun r u => finishRemote r outs u) l s) m).isSome = (getPeer? s m).isSome :=
  forEach_keeps (fun t => (getPeer? t m).isSome) (fun r t => isSome_getPeer?_tabMap (by rw [finishRemote_dpt]) m) ..

/-! ### A peer goes -/

theorem scrambleInbounds_data (l : List Inbound) : DataOnly s (forEach scrambleInbound l s) :=
  forEach_data (fun x t data => DataOnly.trans data (scrambleInbound_data t x)) l s (DataOnly.refl s)

/-- The state whose transfers of peer `m` are over. -/
def withoutInbound (m : Nat) (s : State) : State :=
  modDpt (fun d => { d with inbound := d.inbound.filter fun x => x.peer != m }) (forEach scrambleInbound (s.dpt.inbound.filter fun x => x.peer == m) s)

theorem withoutInbound_dpt (m : Nat) : (withoutInbound m s).dpt = { s.dpt with inbound := s.dpt.inbound.filter fun x => x.peer != m } := by
  unfold withoutInbound
  exact congrArg (fun d : Dpt => { d with inbound := d.inbound.filter fun x => x.peer != m }) (scrambleInbounds_data s _).dpt

theorem withoutInbound_goes (m : Nat) : CmdsGo s (withoutInbound m s) := CmdsGo.of_cmds_eq (scrambleInbounds_data s _).cmds

theorem removePeer_eq (m : Nat) : removePeer m s =
    modDpt (fun d => { d with peers := tabDel m d.peers, reorder := d.reorder.filter (fun b => b.hd.src != m), rxNext := d.rxNext.filter fun e => e.1.1 != m })
      (forEach (fun r u => finishRemote r [stPeerUnreachable] u) (s.dpt.remotes.filter fun r => r.peer == m) (withoutInbound m s)) := by
  unfold removePeer withoutInbound
  dsimp only

theorem removePeer_dpt (m : Nat) : (removePeer m s).dpt = { s.dpt with
    inbound := s.dpt.inbound.filter fun x => x.peer != m, reorder := s.dpt.reorder.filter fun b => b.hd.src != m,
    rxNext := s.dpt.rxNext.filter fun e => e.1.1 != m, remotes := (removePeer m s).dpt.remotes, peers := (removePeer m s).dpt.peers } := by
  have finished := finishRemotes_dpt (withoutInbound m s) [stPeerUnreachable] (s.dpt.remotes.filter fun r => r.peer == m)
  rw [withoutInbound_dpt] at finished
  rw [removePeer_eq]
  exact congrArg (fun d : Dpt => { d with
    peers := tabDel m d.peers, reorder := d.reorder.filter (fun b => b.hd.src != m), rxNext := d.rxNext.filter fun e => e.1.1 != m }) finished

theorem getPeer?_removePeer (m : Nat) : getPeer? (removePeer m s) m = none := by
  rw [removePeer_eq]
  exact tabGet?_tabDel_same ..

theorem getPeer?_removePeer_ne {m n : Nat} (other : n ≠ m) : (getPeer? (removePeer m s) n).isSome = (getPeer? s n).isSome := by
  rw [removePeer_eq]
  refine (congrArg Option.isSome (tabGet?_tabDel_ne other _)).trans ((finishRemotes_isSome ..).trans ?_)
  unfold getPeer?
  rw [withoutInbound_dpt]

theorem mem_removePeer_remotes (m : Nat) (x : Remote) : x ∈ (removePeer m s).dpt.remotes ↔ x ∈ s.dpt.remotes ∧ x.peer ≠ m := by
  rw [removePeer_eq]
  refine (mem_finishRemotes ..).trans ?_
  rw [withoutInbound_dpt]
  simp only [List.mem_filter, beq_iff_eq]
  tauto

theorem removePeer_goes (m : Nat) : CmdsGo s (removePeer m s) := by
  rw [removePeer_eq]
  exact CmdsGo.mk' (forEach_goes _ _ _ (fun r t goes => finishRemote_goes _ _ _ goes) (withoutInbound_goes s m))

/-! ### A group's epoch, and a member that is lost -/

/-- The group's epoch is over: counting restarts, and hellos that came early are forgotten. -/
def nextEpoch (g : Nat) (s : State) : State :=
  modDpt (fun d => { d with groups := tabMap (fun n x => if n = g then { x with epoch := x.epoch + 1, calls := [] } else x) d.groups,
                            earlyHellos := d.earlyHellos.filter fun e => match e.2 with
                              | .collHello n _ _ _ _ _ _ => n != g
                              | _ => true }) s

theorem advanceEpoch_eq (g : Nat) : advanceEpoch g s =
    forEach (fun k u => finishColl k [stPeerUnreachable] (scrambleColl k u)) (s.dpt.colls.filter fun k => k.group == g) (nextEpoch g s) := rfl

theorem advanceEpoch_idle {g : Nat} (idle : s.dpt.colls = []) : advanceEpoch g s = nextEpoch g s := by
  rw [advanceEpoch_eq, idle]
  rfl

theorem dropColl_dpt (k : Coll) : (finishColl k [stPeerUnreachable] (scrambleColl k s)).dpt = { s.dpt with
    colls := s.dpt.colls.filter (fun x => x.handle != k.handle),
    peers := tabMap (fun _ p => { p with txq := p.txq.filter fun x => x.handle != k.handle }) s.dpt.peers } := by
  rw [finishColl_dpt, (scrambleColl_data s k).dpt]

/-- A member's loss and an epoch's end leave the rest of the transport. -/
def memberRest (s : State) : List Inbound × List Buffered × List ((Nat × Nat) × Nat) × List Remote × W64 × List (Nat × Nat) :=
  (s.dpt.inbound, s.dpt.reorder, s.dpt.rxNext, s.dpt.remotes, s.dpt.peersLost, s.dpt.lostIncarnations)

theorem advanceEpoch_keeps {β : Type} (p : Dpt → β) (drop : ∀ (d : Dpt) c q, p { d with colls := c, peers := q } = p d) (g : Nat) :
    p (advanceEpoch g s).dpt = p (nextEpoch g s).dpt := by
  rw [advanceEpoch_eq]
  refine forEach_keeps (fun t : State => p t.dpt) (fun k t => ?_) ..
  show p (finishColl k _ (scrambleColl k t)).dpt = p t.dpt
  rw [dropColl_dpt, drop]

theorem advanceEpoch_groups (g : Nat) : (advanceEpoch g s).dpt.groups =
    tabMap (fun n x => if n = g then { x with epoch := x.epoch + 1, calls := [] } else x) s.dpt.groups :=
  advanceEpoch_keeps s Dpt.groups (fun _ _ _ => rfl) g

theorem advanceEpoch_memberRest (g : Nat) : memberRest (advanceEpoch g s) = memberRest s :=
  advanceEpoch_keeps s (fun d => (d.inbound, d.reorder, d.rxNext, d.remotes, d.peersLost, d.lostIncarnations)) (fun _ _ _ => rfl) g

theorem advanceEpoch_isSome (g m : Nat) : (getPeer? (advanceEpoch g s) m).isSome = (getPeer? s m).isSome := by
  rw [advanceEpoch_eq]
  refine (forEach_keeps (fun t => (getPeer? t m).isSome) (fun k t => ?_) ..).trans rfl
  exact isSome_getPeer?_tabMap (by rw [dropColl_dpt]) m

theorem advanceEpoch_goes (g : Nat) : CmdsGo s (advanceEpoch g s) := by
  rw [advanceEpoch_eq]
  refine forEach_goes _ _ _ (fun k t goes => ?_) (CmdsGo.mk' (CmdsGo.refl s))
  have scrambled : CmdsGo s (scrambleColl k t) := goes.trans (CmdsGo.of_cmds_eq (scrambleColl_data t k).cmds)
  exact finishCmd_goes _ _ _ _ (CmdsGo.mk' scrambled)

/-- The member gone from a group's list. -/
def withoutMember (g m : Nat) (s : State) : State :=
  modDpt (fun d => { d with groups := tabMap (fun n x => if n = g then { x with joined := x.joined.filter (· != m) } else x) d.groups }) s

theorem dropMember_dpt (g m : Nat) : (dropMember g m s).dpt = (advanceEpoch g (withoutMember g m s)).dpt := by
  unfold dropMember
  dsimp only
  rw [setCause_eq]
  dsimp only
  rw [henuaEvent_eq]
  rfl

theorem dropMember_memberRest (g m : Nat) : memberRest (dropMember g m s) = memberRest s := by
  unfold memberRest
  rw [dropMember_dpt]
  exact advanceEpoch_memberRest (withoutMember g m s) g

theorem dropMember_isSome (g m n : Nat) : (getPeer? (dropMember g m s) n).isSome = (getPeer? s n).isSome := by
  unfold getPeer?
  rw [dropMember_dpt]
  exact advanceEpoch_isSome (withoutMember g m s) g n

theorem dropMember_goes (g m : Nat) : CmdsGo s (dropMember g m s) := by
  have dropped : CmdsGo s (advanceEpoch g (withoutMember g m s)) := (CmdsGo.mk' (CmdsGo.refl s)).trans (advanceEpoch_goes _ g)
  exact setCause_goes _ _ _ (henuaEvent_goes _ _ _ _ dropped)

theorem dropMember_joined (g m : Nat) : joinedPart (dropMember g m s) =
    (joinedPart s).map fun e => (e.1, if e.1 = g then e.2.filter (· != m) else e.2) := by
  unfold joinedPart
  rw [dropMember_dpt, advanceEpoch_groups]
  unfold withoutMember modDpt tabMap
  simp only [List.map_map]
  refine List.map_congr_left fun e _ => ?_
  simp only [Function.comp]
  split <;> rfl

end

end Sys2Proof.Machine

/-! Groups (13 R313 to R316, R322, R323): they form, lose members, and are left. -/

namespace Sys2Proof.Machine

/-! ### GROUP_JOIN -/

section
variable (s : State)

/-- Packets have left: outputs are added, ports count, and paths stay. -/
structure SentFrom (s t : State) : Prop where
  frame : t = { s with out := t.out, dpt := { s.dpt with ports := t.dpt.ports } }
  out : ∀ o ∈ s.out, o ∈ t.out
  paths : ∀ m k, portOfPath t m k = portOfPath s m k

theorem SentFrom.refl : SentFrom s s := ⟨rfl, fun _ mem => mem, fun _ _ => rfl⟩

variable {s} in
theorem SentFrom.trans {t u : State} (a : SentFrom s t) (b : SentFrom t u) : SentFrom s u where
  frame := by
    have first := a.frame
    have second := b.frame
    rw [first] at second
    exact second
  out o mem := b.out o (a.out o mem)
  paths m k := (b.paths m k).trans (a.paths m k)

theorem wireOut_sent (m k ty : Nat) (addr : List Byte) (hd : DptHdr) (b : DptBody) : SentFrom s (wireOut m k ty addr hd b s) where
  frame := wireOut_eq ..
  out o mem := by
    rw [wireOut_out]
    split
    · exact mem
    · exact List.mem_append_left _ mem
  paths m' k' := portOfPath_wireOut ..

/-- One advertisement of a join. -/
def joinAdvert (g : Nat) (x : Group) (m : Nat × List Byte) (u : State) : State :=
  whenS (m.1 != s.dpt.moduleNumber) (sendAdvert m.1 (contactOf m.2) (advertOf u g x)) u

theorem joinAdvert_sent (g : Nat) (x : Group) (m : Nat × List Byte) (u : State) : SentFrom u (joinAdvert s g x m u) := by
  unfold joinAdvert whenS
  split
  · exact wireOut_sent ..
  · exact SentFrom.refl u

theorem joinAdverts_sent (g : Nat) (x : Group) (l : List (Nat × List Byte)) (u : State) : SentFrom u (forEach (joinAdvert s g x) l u) := by
  induction l generalizing u with
  | nil => exact SentFrom.refl u
  | cons m l ih => exact (joinAdvert_sent s g x m u).trans (ih _)

/-- An advertisement of group `g` to this address has left. -/
def Advertised (t : State) (m : Nat × List Byte) (g : Nat) : Prop :=
  ∃ w a, Output.dpt w ∈ t.out ∧ w.peer = m.1 ∧ w.addr = contactOf m.2 ∧ w.body = .ctl (.advert a) ∧ a.group = g

theorem joinAdverts_advertised (g : Nat) (x : Group) {m : Nat × List Byte} (other : m.1 ≠ s.dpt.moduleNumber) {l : List (Nat × List Byte)} (mem : m ∈ l)
    {u : State} (path : portOfPath u m.1 0 ≠ none) : Advertised (forEach (joinAdvert s g x) l u) m g := by
  induction l generalizing u with
  | nil => exact absurd mem List.not_mem_nil
  | cons e l ih =>
    obtain rfl | later := List.mem_cons.mp mem
    · have sent := joinAdverts_sent s g x l (joinAdvert s g x m u)
      refine ⟨_, _, sent.out (.dpt (packetOf m.1 0 5 (contactOf m.2) (baseHdr u m.1) (.ctl (.advert (advertOf u g x))))) ?_, rfl, rfl, rfl, rfl⟩
      unfold joinAdvert whenS
      rw [if_pos (by simpa using other)]
      unfold sendAdvert
      rw [wireOut_out, if_neg (by simpa using path)]
      exact List.mem_append_right _ (List.mem_singleton_self _)
    · exact ih later (by rwa [(joinAdvert_sent s g x e u).paths])

end

section
variable {s : State} {h : Nat} {c : Cmd}

/-- The group of a command's packet. -/
def groupOf (c : Cmd) : Nat := bitsOf (pk c.pkt 0) 31 16

theorem groupOf_eq (c : Cmd) : groupOf c = cmdParam c 0 / 2 ^ 16 % 2 ^ 16 := rfl

/-- A module number lies in the lowest 12 bits. -/
theorem moduleOf_eq (v : Nat) : bitsOf v 11 0 = v % 2 ^ 12 := bitsOf_low v 11

/-- The list that GROUP_JOIN reads. -/
def joinList (s : State) (c : Cmd) : List Byte := hostRead s (pk c.pkt 1) (32 * pk c.pkt 2)

/-- GROUP_JOIN has read its list. -/
def listRead (c : Cmd) (s : State) : State := hostFetch c.tenant (pk c.pkt 1) (32 * pk c.pkt 2) s

/-- The group that a join makes. -/
def freshGroup (s : State) (h : Nat) (c : Cmd) : Group := ⟨parseMembers (joinList s c) (pk c.pkt 2), [s.dpt.moduleNumber], false, 0, [], some h⟩

theorem notJoining (fresh : ∀ e ∈ s.dpt.groups, e.2.join ≠ some h) : (s.dpt.groups.any fun e => e.2.join == some h) = false := by
  simpa using fresh

theorem exec_groupJoin (run : Running s h 0x0602 c) (fresh : ∀ e ∈ s.dpt.groups, e.2.join ≠ some h) (sound : membersOk s (joinList s c) (pk c.pkt 2) = true)
    (mine : s.dpt.moduleNumber = bitsOf (pk c.pkt 0) 11 0) (free : tabGet? (groupOf c) s.dpt.groups = none) :
    exec (.groupJoin h) s = .next (forEach (joinAdvert s (groupOf c) (freshGroup s h c)) (freshGroup s h c).members
      (modDpt (fun d => { d with groups := tabPut (groupOf c) (freshGroup s h c) d.groups }) (listRead c s))) := by
  show execGroupJoin h s = _
  unfold execGroupJoin
  rw [runCmd_next run]
  unfold groupOf at free
  dsimp only
  rw [if_neg (by rw [notJoining fresh]; exact Bool.false_ne_true)]
  have accepted : ¬((!membersOk (listRead c s) (joinList s c) (pk c.pkt 2) || s.dpt.moduleNumber != bitsOf (pk c.pkt 0) 11 0) = true) := by
    have same : membersOk (listRead c s) (joinList s c) (pk c.pkt 2) = membersOk s (joinList s c) (pk c.pkt 2) := rfl
    simp [same, sound, mine]
  refine next_congr ((if_neg accepted).trans ?_)
  have old : tabGet? (bitsOf (pk c.pkt 0) 31 16) (listRead c s).dpt.groups = none := free
  have nobody (f : Nat → State → State) (t : State) : forEach f [] t = t := rfl
  unfold listRead at old
  rw [old]
  simp only [Option.isSome_none, whenS, Bool.false_eq_true, if_false, Option.bind_none, Option.toList_none, nobody, old, Option.map_none, Option.getD_none]
  rfl

theorem groupJoin_forms (run : Running s h 0x0602 c) (fresh : ∀ e ∈ s.dpt.groups, e.2.join ≠ some h) (sound : membersOk s (joinList s c) (pk c.pkt 2) = true)
    (mine : s.dpt.moduleNumber = bitsOf (pk c.pkt 0) 11 0) (free : tabGet? (groupOf c) s.dpt.groups = none) :
    ∃ t, exec (.groupJoin h) s = .next t ∧ tabGet? (groupOf c) t.dpt.groups = some (freshGroup s h c) ∧
      (∀ k, k ≠ groupOf c → tabGet? k t.dpt.groups = tabGet? k s.dpt.groups) ∧
      (∀ m ∈ (freshGroup s h c).members, m.1 ≠ s.dpt.moduleNumber → portOfPath s m.1 0 ≠ none → Advertised t m (groupOf c)) ∧
      t = { s with out := t.out, dpt := { s.dpt with groups := t.dpt.groups, ports := t.dpt.ports } } := by
  have sent := joinAdverts_sent s (groupOf c) (freshGroup s h c) (freshGroup s h c).members
    (modDpt (fun d => { d with groups := tabPut (groupOf c) (freshGroup s h c) d.groups }) (listRead c s))
  have groups := congrArg (fun u : State => u.dpt.groups) sent.frame
  refine ⟨_, exec_groupJoin run fresh sound mine free, ?_, fun k other => ?_, fun m mem other path => ?_, ?_⟩
  · rw [groups]
    exact tabGet?_tabPut_same ..
  · rw [groups]
    exact tabGet?_tabPut_ne other ..
  · exact joinAdverts_advertised s _ _ other mem path
  · rw [sent.frame]
    rfl

theorem groupJoin_refused (run : Running s h 0x0602 c) (fresh : ∀ e ∈ s.dpt.groups, e.2.join ≠ some h)
    (bad : membersOk s (joinList s c) (pk c.pkt 2) = false ∨ s.dpt.moduleNumber ≠ bitsOf (pk c.pkt 0) 11 0) :
    exec (.groupJoin h) s = .next (finishCmd h [stWindow] 0 (listRead c s)) := by
  show execGroupJoin h s = _
  unfold execGroupJoin
  rw [runCmd_next run]
  dsimp only
  rw [if_neg (by rw [notJoining fresh]; exact Bool.false_ne_true)]
  refine next_congr (if_pos ?_)
  have same : membersOk (listRead c s) (joinList s c) (pk c.pkt 2) = membersOk s (joinList s c) (pk c.pkt 2) := rfl
  show (!membersOk (listRead c s) (joinList s c) (pk c.pkt 2) || s.dpt.moduleNumber != bitsOf (pk c.pkt 0) 11 0) = true
  rw [same]
  simpa using bad

/-! ### The join's time-out -/

/-- Peers that go take no group with them, and no command. -/
theorem removePeers_frame (l : List Nat) (s : State) : (forEach removePeer l s).dpt.groups = s.dpt.groups ∧ CmdsGo s (forEach removePeer l s) :=
  ⟨forEach_keeps (fun t : State => t.dpt.groups) (fun m t => by rw [removePeer_dpt]) .., forEach_goes _ _ _ (fun m t goes => goes.trans (removePeer_goes t m)) (CmdsGo.refl s)⟩

theorem removeGroup_frame (g : Nat) (s : State) : tabGet? g (removeGroup g s).dpt.groups = none ∧ CmdsGo s (removeGroup g s) := by
  unfold removeGroup prunePeers
  dsimp only
  generalize el : List.map _ _ = l
  obtain ⟨groups, goes⟩ := removePeers_frame l (modDpt (fun d => { d with groups := tabDel g d.groups }) (advanceEpoch g s))
  refine ⟨?_, ?_⟩
  · rw [groups]
    exact tabGet?_tabDel_same ..
  · exact (advanceEpoch_goes s g).trans ((CmdsGo.mk' (CmdsGo.refl _)).trans goes)

/-- With no transfer open, peers that go change data and the transport alone. -/
theorem removePeer_idle {s : State} (idle : s.dpt.remotes = []) (m : Nat) : (removePeer m s).cmds = s.cmds ∧ (removePeer m s).dpt.remotes = [] := by
  rw [removePeer_eq, idle]
  refine ⟨(scrambleInbounds_data s _).cmds, ?_⟩
  show (withoutInbound m s).dpt.remotes = []
  rw [withoutInbound_dpt]
  exact idle

theorem removePeers_idle (l : List Nat) {s : State} (idle : s.dpt.remotes = []) : (forEach removePeer l s).cmds = s.cmds := by
  induction l generalizing s with
  | nil => rfl
  | cons m l ih =>
    obtain ⟨cmds, rest⟩ := removePeer_idle idle m
    exact (ih rest).trans cmds

theorem removeGroup_idle {g : Nat} (colls : s.dpt.colls = []) (remotes : s.dpt.remotes = []) : (removeGroup g s).cmds = s.cmds := by
  unfold removeGroup prunePeers
  rw [advanceEpoch_idle s colls]
  exact (removePeers_idle _ (by exact remotes)).trans rfl

theorem exec_joinTimeout {g : Nat} {x : Group} (joining : s.dpt.groups.find? (fun e => e.2.join == some h) = some (g, x)) :
    exec (.joinTimeout h) s = .next (completeJoin g s) := by
  show execJoinTimeout h s = _
  unfold execJoinTimeout
  rw [joining]

theorem completeJoin_eq {g : Nat} {x : Group} (there : tabGet? g s.dpt.groups = some x) (join : x.join = some h) : completeJoin g s =
    if !spreadOk (majorsOf s x) then finishCmd h [stVersionMismatch] x.joined.length (removeGroup g s)
    else finishCmd h (if x.joined.length < x.members.length then [stPeerUnreachable] else []) x.joined.length
      (modDpt (fun d => { d with groups := tabPut g { x with formed := true, join := none } d.groups }) s) := by
  unfold completeJoin
  rw [there]
  dsimp only
  rw [join]

/-! ### GROUP_LEAVE -/

/-- The other members are told that this module leaves, and a join that waits ends. -/
def leaveTold (c : Cmd) (x : Group) (s : State) : State :=
  forEach (fun (h' : Nat) u => finishCmd h' [stPeerUnreachable] x.joined.length u) x.join.toList
    (forEach (fun m u => whenS (m != s.dpt.moduleNumber) (sendCtl m (.leave (groupOf c))) u) x.joined s)

theorem leaveTold_goes (c : Cmd) (x : Group) (s : State) : CmdsGo s (leaveTold c x s) :=
  forEach_goes _ _ _ (fun _ _ goes => finishCmd_goes _ _ _ _ goes)
    (forEach_goes _ _ _ (fun _ _ goes => whenS_goes _ _ _ (fun _ goes => sendCtl_goes _ _ _ goes) goes) (CmdsGo.refl s))

theorem groupLeave_spec (run : Running s h 0x0603 c) : ∃ t, exec (.groupLeave h) s = .next t ∧ Done t h ∧ CmdsGo s t ∧ tabGet? (groupOf c) t.dpt.groups = none := by
  obtain ⟨live, -, -, -⟩ := id run
  have ran : exec (.groupLeave h) s = .next (match tabGet? (groupOf c) s.dpt.groups with
      | none => finishCmd h [] 0 s
      | some x => schedule (finishCmd h [] 0 (removeGroup (groupOf c) (leaveTold c x s)))) := by
    show execGroupLeave h s = _
    unfold execGroupLeave
    rw [runCmd_next run]
    rfl
  cases there : tabGet? (groupOf c) s.dpt.groups with
  | none =>
    rw [there] at ran
    exact ⟨_, ran, done_finishCmd _ _ live, finishCmd_goes _ _ _ _ (CmdsGo.refl s), there⟩
  | some x =>
    rw [there] at ran
    have told := leaveTold_goes c x s
    obtain ⟨groups, gone⟩ := removeGroup_frame (groupOf c) (leaveTold c x s)
    obtain ⟨c', live', -⟩ := (told.trans gone).get h c live
    have finished := finishCmd_goes h [] 0 _ (told.trans gone)
    refine ⟨_, ran, (done_finishCmd _ _ live').goes (schedule_goes _ (CmdsGo.refl _)), schedule_goes _ finished, ?_⟩
    rw [(schedule_work _ (WorkOnly.refl _)).dpt]
    exact groups

/-! ### A peer is lost -/

theorem mem_dropMembers {m : Nat} (gs : List Nat) {s : State} {e : Nat × List Nat} (mem : e ∈ joinedPart (forEach (fun g u => dropMember g m u) gs s))
    (joined : m ∈ e.2) : e ∈ joinedPart s ∧ e.1 ∉ gs := by
  induction gs generalizing s with
  | nil => exact ⟨mem, List.not_mem_nil⟩
  | cons g gs ih =>
    obtain ⟨before, rest⟩ := ih mem
    rw [dropMember_joined, List.mem_map] at before
    obtain ⟨a, memA, rfl⟩ := before
    dsimp only at joined rest
    by_cases dropped : a.1 = g
    · rw [if_pos dropped] at joined
      simp at joined
    · rw [if_neg dropped]
      exact ⟨memA, fun mem => (List.mem_cons.mp mem).elim dropped rest⟩

/-- The loss is counted, and the peer's incarnation remembered. -/
def countLoss (m : Nat) (p : Peer) (s : State) : State :=
  modDpt (fun d => { d with peersLost := d.peersLost + 1,
                            lostIncarnations := (d.lostIncarnations.filter (· != (m, p.incarnation))) ++ [(m, p.incarnation)] }) s

/-- Groups that a module has joined. -/
def groupsWith (s : State) (m : Nat) : List Nat := (s.dpt.groups.filter fun e => e.2.joined.contains m).map (·.1)

theorem losePeer_eq {m : Nat} {p : Peer} (there : getPeer? s m = some p) :
    losePeer m s = schedule (forEach (fun g u => dropMember g m u) (groupsWith s m) (removePeer m (countLoss m p s))) := by
  unfold losePeer
  rw [there]
  rfl

/-- What is left when the work of a lost peer has ended. -/
def peerLost (m : Nat) (p : Peer) (s : State) : State :=
  forEach (fun g u => dropMember g m u) (groupsWith s m) (removePeer m (countLoss m p s))

theorem peerLost_spec (m : Nat) (p : Peer) (s : State) : getPeer? (peerLost m p s) m = none ∧ (peerLost m p s).dpt.peersLost = s.dpt.peersLost + 1 ∧
    (m, p.incarnation) ∈ (peerLost m p s).dpt.lostIncarnations ∧ (∀ e ∈ (peerLost m p s).dpt.groups, m ∉ e.2.joined) ∧
    (∀ r ∈ (peerLost m p s).dpt.remotes, r.peer ≠ m) ∧ (∀ x ∈ (peerLost m p s).dpt.inbound, x.peer ≠ m) ∧
    (∀ b ∈ (peerLost m p s).dpt.reorder, b.hd.src ≠ m) ∧ CmdsGo s (peerLost m p s) := by
  have removed := removePeer_dpt (countLoss m p s) m
  have rest : memberRest (peerLost m p s) = memberRest (removePeer m (countLoss m p s)) := forEach_keeps memberRest (fun g t => dropMember_memberRest t g m) ..
  unfold memberRest at rest
  simp only [Prod.mk.injEq] at rest
  obtain ⟨inbound, reorder, -, remotes, lost, incarnations⟩ := rest
  refine ⟨?_, ?_, ?_, fun e mem joined => ?_, fun r mem => ?_, fun x mem => ?_, fun b mem => ?_, ?_⟩
  · have isSome : (getPeer? (peerLost m p s) m).isSome = (getPeer? (removePeer m (countLoss m p s)) m).isSome :=
      forEach_keeps (fun t => (getPeer? t m).isSome) (fun g t => dropMember_isSome t g m m) ..
    rw [getPeer?_removePeer] at isSome
    simpa using isSome
  · rw [lost, removed]
    rfl
  · rw [incarnations, removed]
    exact List.mem_append_right _ (List.mem_singleton_self _)
  · obtain ⟨before, apart⟩ := mem_dropMembers (groupsWith s m) (List.mem_map_of_mem (f := fun e => (e.1, e.2.joined)) mem) joined
    unfold joinedPart at before
    rw [removed] at before
    obtain ⟨a, memA, ea⟩ := List.mem_map.mp before
    obtain ⟨key, members⟩ := Prod.mk.inj ea
    refine apart (List.mem_map.mpr ⟨a, List.mem_filter.mpr ⟨memA, ?_⟩, key⟩)
    rw [members]
    simpa using joined
  · rw [remotes] at mem
    exact ((mem_removePeer_remotes _ m r).mp mem).2
  · rw [inbound, removed] at mem
    simpa using (List.mem_filter.mp mem).2
  · rw [reorder, removed] at mem
    simpa using (List.mem_filter.mp mem).2
  · exact forEach_goes _ _ _ (fun g t goes => goes.trans (dropMember_goes t g m)) ((CmdsGo.mk' (CmdsGo.refl s)).trans (removePeer_goes _ m))

end

/-- Settles O45: a join, its end, a leave and a loss each change the transport as their frames say. -/
theorem groupsFormLoseAndLeave : Obligations.GroupsFormLoseAndLeave := by
  unfold Obligations.GroupsFormLoseAndLeave
  intro s h c
  refine ⟨?_, ?_, ?_, ?_, ?_⟩
  · rintro g n run rfl rfl fresh sound mine free
    obtain ⟨t, ran, made, others, sent, frame⟩ := groupJoin_forms run fresh sound (mine.trans (moduleOf_eq _).symm) free
    exact ⟨t, freshGroup s h c, ran, made, rfl, rfl, rfl, rfl, others, sent, frame⟩
  · rintro g n run rfl rfl fresh bad
    exact ⟨_, groupJoin_refused run fresh (by rw [moduleOf_eq]; exact bad), ended_finishCmd _ _ run.1 run.2.1, rfl⟩
  · rintro g x joining there live running
    have join : x.join = some h := by simpa using List.find?_some joining
    refine ⟨fun close => ?_, fun far colls remotes => ?_⟩
    · refine ⟨_, (exec_joinTimeout joining).trans (next_congr ((completeJoin_eq there join).trans (if_neg (by rw [close]; decide)))), ?_, ?_, ?_, rfl⟩
      · exact ended_finishCmd _ _ live running
      · exact tabGet?_tabPut_same ..
      · exact fun k other => tabGet?_tabPut_ne other ..
    · refine ⟨_, (exec_joinTimeout joining).trans (next_congr ((completeJoin_eq there join).trans (if_pos (by rw [far]; rfl)))), ?_, ?_⟩
      · exact ended_finishCmd _ _ ((getCmd?_of_cmds_eq (removeGroup_idle colls remotes) h).trans live) running
      · exact (removeGroup_frame g s).1
  · rintro g run rfl
    exact groupLeave_spec run
  · intro m p there
    exact ⟨peerLost m p s, next_congr (losePeer_eq there), peerLost_spec m p s⟩

end Sys2Proof.Machine

/-! Packets to a peer and from it (13 R308 to R310): they move that peer's paths and credit, port counts and outputs alone. -/

namespace Sys2Proof.Machine

/-- From `s` to `t` packets went to or came from peer `m`: its record, the ports' counts, outputs and free values may differ. -/
structure Talked (m : Nat) (s t : State) : Prop where
  frame : t = { s with dpt := { s.dpt with peers := t.dpt.peers, ports := t.dpt.ports }, out := t.out, freeCtr := t.freeCtr }
  others : peersBut s t m
  known : (getPeer? t m).isSome = (getPeer? s m).isSome

section
variable {m : Nat} {s t u : State}

theorem Talked.refl : Talked m s s := ⟨rfl, fun _ _ => rfl, rfl⟩

theorem Talked.trans (a : Talked m s t) (b : Talked m t u) : Talked m s u where
  frame := by
    have first := a.frame
    have second := b.frame
    rw [first] at second
    exact second
  others n other := (b.others n other).trans (a.others n other)
  known := b.known.trans a.known

theorem modPeer_talked (m : Nat) (g : Peer → Peer) (s : State) : Talked m s (modPeer m g s) where
  frame := by
    conv_lhs => rw [modPeer_eq]
    cases there : getPeer? s m with
    | none => rw [modPeer_absent there]
    | some p => rw [modPeer_there there]
  others _ other := getPeer?_modPeer_ne s g other
  known := by rw [getPeer?_modPeer, Option.isSome_map]

theorem wireOut_talked (m k ty : Nat) (addr : List Byte) (hd : DptHdr) (b : DptBody) (s : State) : Talked m s (wireOut m k ty addr hd b s) := by
  have frame := wireOut_eq s m k ty addr hd b
  generalize wireOut m k ty addr hd b s = t at frame
  rw [frame]
  exact ⟨rfl, fun _ _ => rfl, rfl⟩

theorem modPath_talked (m k : Nat) (g : PathSt → PathSt) (s : State) : Talked m s (modPath m k g s) := modPeer_talked ..

theorem sendOn_talked (m k ty : Nat) (hd : DptHdr) (b : DptBody) (s : State) : Talked m s (sendOn m k ty hd b s) := by
  unfold sendOn
  split
  · exact Talked.refl
  · exact (modPath_talked ..).trans (wireOut_talked ..)

theorem sendCtl_talked (m : Nat) (b : DptCtl) (s : State) : Talked m s (sendCtl m b s) := sendOn_talked ..

theorem grantPool_talked (m : Nat) (s : State) : Talked m s (grantPool m s).2 := by
  have counted : Talked m s { s with freeCtr := s.freeCtr + 1 } := ⟨rfl, fun _ _ => rfl, rfl⟩
  exact counted.trans (modPeer_talked ..)

theorem sendAck_talked (m k : Nat) (s : State) : Talked m s (sendAck m k s) := by
  refine (grantPool_talked m s).trans ?_
  unfold sendAck
  dsimp only
  split
  · exact Talked.refl
  · exact (modPeer_talked ..).trans ((modPath_talked ..).trans (wireOut_talked ..))

theorem recvPsn_talked (m k psn : Nat) (s : State) : Talked m s (recvPsn m k psn s) := by
  have noted := modPath_talked m k (fun x =>
    let ahead := (psn + m32 - x.rxCumulative) % m32
    let l := if 0 < ahead ∧ ahead < 2 ^ 31 ∧ !x.rxAbove.contains psn then psn :: x.rxAbove else x.rxAbove
    let r := advance (l.length + 1) x.rxCumulative l
    { x with rxCumulative := r.1, rxAbove := r.2, sinceAck := x.sinceAck + 1 }) s
  refine noted.trans ?_
  unfold recvPsn
  dsimp only
  split
  · split
    · exact sendAck_talked ..
    · exact Talked.refl
  · exact Talked.refl

theorem arrived_talked (s : State) (hd : DptHdr) : Talked hd.src s (arrived s hd) := recvPsn_talked ..

/-- What packets leave. -/
theorem Talked.cmds (talked : Talked m s t) : t.cmds = s.cmds := by rw [talked.frame]

theorem Talked.mem (talked : Talked m s t) : t.mem = s.mem := by rw [talked.frame]

theorem Talked.groups (talked : Talked m s t) : t.dpt.groups = s.dpt.groups := by rw [talked.frame]

theorem Talked.remotes (talked : Talked m s t) : t.dpt.remotes = s.dpt.remotes := by rw [talked.frame]

theorem Talked.colls (talked : Talked m s t) : t.dpt.colls = s.dpt.colls := by rw [talked.frame]

theorem Talked.isSome (talked : Talked m s t) (n : Nat) : (getPeer? t n).isSome = (getPeer? s n).isSome := by
  by_cases same : n = m
  · subst same
    exact talked.known
  · rw [talked.others n same]

/-! ### A packet of a peer -/

theorem heardFrom_peer {hd : DptHdr} (peer : fromPeer s hd) : heardFrom hd.src hd.incarnation s = (true, s) := by
  obtain ⟨⟨p, there, same⟩, -⟩ := peer
  unfold heardFrom
  rw [there]
  exact if_pos same

theorem heardFrom_nobody {hd : DptHdr} (absent : getPeer? s hd.src = none) : heardFrom hd.src hd.incarnation s = (false, s) := by
  unfold heardFrom
  rw [absent]

/-! ### Transfers open -/

/-- The transfer is asked for. -/
def ask (r : Remote) (s : State) : State :=
  modDpt (fun d => { d with remotes := d.remotes.map fun x => if x = r then { x with asked := true } else x }) s

/-- The open message that asks for it. -/
def askFor (r : Remote) (s : State) : State := sendCtl r.peer (.openReq r.queue r.tenant r.dst r.src.fmt (dCount r.src)) (ask r s)

theorem askFor_remotes (r : Remote) (s : State) : (askFor r s).dpt.remotes = s.dpt.remotes.map fun x => if x = r then { x with asked := true } else x :=
  (sendCtl_talked ..).remotes

theorem askFor_isSome (r : Remote) (s : State) (n : Nat) : (getPeer? (askFor r s) n).isSome = (getPeer? s n).isSome := (sendCtl_talked ..).isSome n

theorem finishRemote_isSome (r : Remote) (outs : List Nat) (s : State) (n : Nat) : (getPeer? (finishRemote r outs s) n).isSome = (getPeer? s n).isSome :=
  isSome_getPeer?_tabMap (by rw [finishRemote_dpt]) n

section
variable {r x : Remote} {l : List Remote} {seen : List (Nat × Nat)}

theorem kickGo_cons : kickGo seen (x :: l) s =
    if seen.contains (x.peer, x.queue) then kickGo seen l s
    else if x.asked then kickGo ((x.peer, x.queue) :: seen) l s
    else if (getPeer? s x.peer).isNone then kickGo seen l (finishRemote x [stPeerUnreachable] s)
    else kickGo ((x.peer, x.queue) :: seen) l (askFor x s) := rfl

/-- The last transfer in line: it waits, or it is asked for; where no other is of its queue, it is asked for. -/
theorem kickGo_last (mem : r ∈ s.dpt.remotes) (other : r ∉ l) (peer : (getPeer? s r.peer).isSome = true) (idle : r.asked = false) :
    (r ∈ (kickGo seen (l ++ [r]) s).dpt.remotes ∧ ((r.peer, r.queue) ∈ seen ∨ ∃ x ∈ l, x.peer = r.peer ∧ x.queue = r.queue)) ∨
      { r with asked := true } ∈ (kickGo seen (l ++ [r]) s).dpt.remotes := by
  induction l generalizing s seen with
  | nil =>
    show _ ∨ _ ∈ (kickGo seen [r] s).dpt.remotes
    by_cases waits : seen.contains (r.peer, r.queue) = true
    · refine .inl ⟨?_, .inl (by simpa using waits)⟩
      show r ∈ (kickGo seen [r] s).dpt.remotes
      rw [kickGo_cons, if_pos waits]
      exact mem
    · refine .inr ?_
      rw [kickGo_cons, if_neg waits, if_neg (by rw [idle]; decide), if_neg (by rw [Option.isNone_iff_eq_none, ← Option.not_isSome_iff_eq_none]; exact not_not.mpr peer)]
      show _ ∈ (askFor r s).dpt.remotes
      rw [askFor_remotes]
      exact List.mem_map.mpr ⟨r, mem, if_pos rfl⟩
  | cons x l ih =>
    have apart : r ≠ x := fun e => other (e ▸ List.mem_cons_self)
    have later : r ∉ l := fun e => other (List.mem_cons_of_mem _ e)
    have shorter (s' : State) (seen' : List (Nat × Nat)) (mem' : r ∈ s'.dpt.remotes) (peer' : (getPeer? s' r.peer).isSome = true)
        (from_ : (r.peer, r.queue) ∈ seen' → (r.peer, r.queue) ∈ seen ∨ x.peer = r.peer ∧ x.queue = r.queue) :
        (r ∈ (kickGo seen' (l ++ [r]) s').dpt.remotes ∧ ((r.peer, r.queue) ∈ seen ∨ ∃ y ∈ x :: l, y.peer = r.peer ∧ y.queue = r.queue)) ∨
          { r with asked := true } ∈ (kickGo seen' (l ++ [r]) s').dpt.remotes := by
      refine (ih mem' later peer').imp_left fun ⟨there, why⟩ => ⟨there, ?_⟩
      obtain before | ⟨y, memY, same⟩ := why
      · exact (from_ before).imp_right fun same => ⟨x, List.mem_cons_self, same⟩
      · exact .inr ⟨y, List.mem_cons_of_mem _ memY, same⟩
    have added (before : (r.peer, r.queue) ∈ (x.peer, x.queue) :: seen) : (r.peer, r.queue) ∈ seen ∨ x.peer = r.peer ∧ x.queue = r.queue := by
      obtain same | before := List.mem_cons.mp before
      · obtain ⟨e1, e2⟩ := Prod.mk.inj same
        exact .inr ⟨e1.symm, e2.symm⟩
      · exact .inl before
    rw [List.cons_append, kickGo_cons]
    split
    · exact shorter s seen mem peer .inl
    split
    · exact shorter s _ mem peer added
    split
    · refine shorter _ seen ?_ (by rwa [finishRemote_isSome]) .inl
      rw [finishRemote_dpt]
      exact List.mem_filter.mpr ⟨mem, by simpa using apart⟩
    · refine shorter _ _ ?_ (by rwa [askFor_isSome]) added
      rw [askFor_remotes]
      exact List.mem_map.mpr ⟨r, mem, if_neg apart⟩

end

end

end Sys2Proof.Machine

/-! Remote copies, collectives and control messages (13 R315, R317, R318, R320). -/

namespace Sys2Proof.Machine

section
variable {s : State} {h : Nat} {c : Cmd}

/-! ### REMOTE_COPY -/

/-- The transfer that a REMOTE_COPY asks for. -/
def copyOf (s : State) (h : Nat) (c : Cmd) : Remote :=
  ⟨h, false, bitsOf (pk c.pkt 1) 11 0, 16 * c.tenant + c.sq, c.tenant, cmdDesc s c (lo32 (pk c.pkt 0)), [], hi32 (pk c.pkt 0), bitsOf (pk c.pkt 1) 31 16,
    bitsOf (pk c.pkt 1) 47 32, false, false, none, false⟩

theorem noCopyYet (fresh : ∀ r ∈ s.dpt.remotes, r.handle ≠ h) : ¬((s.dpt.remotes.any fun r => r.handle == h && !r.tile) = true) := by
  simpa using fun r mem e => absurd e (fresh r mem)

theorem exec_remoteCopy_alone (run : Running s h 0x0604 c) (fresh : ∀ r ∈ s.dpt.remotes, r.handle ≠ h)
    (absent : getPeer? s (bitsOf (pk c.pkt 1) 11 0) = none) : exec (.remoteCopy h) s = .next (finishCmd h [stPeerUnreachable] 0 s) := by
  show execRemoteCopy h s = _
  unfold execRemoteCopy
  rw [runCmd_next run]
  exact next_congr ((if_neg (noCopyYet fresh)).trans (if_pos (by rw [absent]; rfl)))

theorem exec_remoteCopy (run : Running s h 0x0604 c) (fresh : ∀ r ∈ s.dpt.remotes, r.handle ≠ h)
    (peer : (getPeer? s (bitsOf (pk c.pkt 1) 11 0)).isSome = true) (first : ∀ x ∈ s.cmds, x.pkt.opcode = 0x0604 → c.order ≤ x.order) :
    exec (.remoteCopy h) s = .next (kick (modDpt (fun d => { d with remotes := d.remotes ++ [copyOf s h c] }) s)) := by
  have noEarlier : ¬((s.cmds.any fun x => x.pkt.opcode == 0x0604 && x.tenant == c.tenant && x.sq == c.sq && decide (x.order < c.order) && x.stage != .done &&
        bitsOf (pk x.pkt 1) 11 0 == bitsOf (pk c.pkt 1) 11 0 && !s.dpt.remotes.any fun r => r.handle == x.handle && !r.tile) = true) := by
    rw [List.any_eq_true]
    rintro ⟨x, mem, sat⟩
    simp only [Bool.and_eq_true, beq_iff_eq, decide_eq_true_eq] at sat
    obtain ⟨⟨⟨⟨⟨⟨op, -⟩, -⟩, earlier⟩, -⟩, -⟩, -⟩ := sat
    exact absurd earlier (Nat.not_lt.mpr (first x mem op))
  show execRemoteCopy h s = _
  unfold execRemoteCopy
  rw [runCmd_next run]
  refine next_congr ((if_neg (noCopyYet fresh)).trans ((if_neg ?_).trans (if_neg noEarlier)))
  rw [Option.isNone_iff_eq_none, ← Option.not_isSome_iff_eq_none]
  exact not_not.mpr peer

theorem remoteCopy_waits (run : Running s h 0x0604 c) (fresh : ∀ r ∈ s.dpt.remotes, r.handle ≠ h)
    (peer : (getPeer? s (bitsOf (pk c.pkt 1) 11 0)).isSome = true) (first : ∀ x ∈ s.cmds, x.pkt.opcode = 0x0604 → c.order ≤ x.order) :
    ∃ t b, exec (.remoteCopy h) s = .next t ∧ { copyOf s h c with asked := b } ∈ t.dpt.remotes ∧ CmdsGo s t ∧
      ((∀ x ∈ s.dpt.remotes, x.peer ≠ bitsOf (pk c.pkt 1) 11 0 ∨ x.queue ≠ 16 * c.tenant + c.sq) → b = true) := by
  have goes : CmdsGo s (kick (modDpt (fun d => { d with remotes := d.remotes ++ [copyOf s h c] }) s)) := kick_goes _ (CmdsGo.mk' (CmdsGo.refl s))
  have other : copyOf s h c ∉ s.dpt.remotes := fun mem => fresh _ mem rfl
  have last := kickGo_last (s := modDpt (fun d => { d with remotes := d.remotes ++ [copyOf s h c] }) s) (seen := [])
    (List.mem_append_right _ (List.mem_singleton_self _)) other peer rfl
  obtain ⟨waits, why⟩ | asked := last
  · refine ⟨_, false, exec_remoteCopy run fresh peer first, waits, goes, fun alone => ?_⟩
    obtain ⟨x, mem, samePeer, sameQueue⟩ := why.resolve_left List.not_mem_nil
    exact ((alone x mem).elim (fun e => e samePeer) (fun e => e sameQueue)).elim
  · exact ⟨_, true, exec_remoteCopy run fresh peer first, asked, goes, fun _ => rfl⟩

/-! ### COLLECTIVE -/

theorem noCollYet (fresh : ∀ k ∈ s.dpt.colls, k.handle ≠ h) : ¬((s.dpt.colls.any fun k => k.handle == h) = true) := by simpa using fresh

theorem exec_collective_incomplete (run : Running s h 0x0605 c) (fresh : ∀ k ∈ s.dpt.colls, k.handle ≠ h)
    (incomplete : ∀ g, tabGet? (bitsOf (pk c.pkt 1) 31 16) s.dpt.groups = some g → g.joined.length < g.members.length ∨ g.formed = false) :
    exec (.collective h) s = .next (finishCmd h [stPeerUnreachable] 0 s) := by
  show execCollective h s = _
  unfold execCollective
  rw [runCmd_next run]
  refine next_congr ((if_neg (noCollYet fresh)).trans ?_)
  split
  · rfl
  · rename_i g there
    exact if_pos (incomplete g there)

/-- Messages to the members of a list, this module left out. -/
def tellOthers (me : Nat) (b : DptCtl) (l : List Nat) (s : State) : State := forEach (fun m u => whenS (m != me) (sendCtl m b) u) l s

/-- From `s` to `t` packets have left, to whichever peer. -/
def PacketsLeft (s t : State) : Prop := t = { s with dpt := { s.dpt with peers := t.dpt.peers, ports := t.dpt.ports }, out := t.out }

theorem PacketsLeft.trans {s t u : State} (a : PacketsLeft s t) (b : PacketsLeft t u) : PacketsLeft s u := by
  unfold PacketsLeft at *
  rw [a] at b
  exact b

section
variable {s t : State} (left : PacketsLeft s t)
include left

theorem PacketsLeft.cmds : t.cmds = s.cmds := by
  unfold PacketsLeft at left
  rw [left]

theorem PacketsLeft.groups : t.dpt.groups = s.dpt.groups := by
  unfold PacketsLeft at left
  rw [left]

theorem PacketsLeft.colls : t.dpt.colls = s.dpt.colls := by
  unfold PacketsLeft at left
  rw [left]

end

theorem modPeer_left (m : Nat) (g : Peer → Peer) (s : State) : PacketsLeft s (modPeer m g s) := by
  have frame := modPeer_eq s m g
  generalize modPeer m g s = t at frame
  rw [frame]
  exact rfl

theorem wireOut_left (m k ty : Nat) (addr : List Byte) (hd : DptHdr) (b : DptBody) (s : State) : PacketsLeft s (wireOut m k ty addr hd b s) := by
  have frame := wireOut_eq s m k ty addr hd b
  generalize wireOut m k ty addr hd b s = t at frame
  rw [frame]
  exact rfl

theorem sendOn_left (m k ty : Nat) (hd : DptHdr) (b : DptBody) (s : State) : PacketsLeft s (sendOn m k ty hd b s) := by
  unfold sendOn
  split
  · exact rfl
  · exact (modPeer_left ..).trans (wireOut_left ..)

theorem tellOthers_left (me : Nat) (b : DptCtl) (l : List Nat) (s : State) : PacketsLeft s (tellOthers me b l s) := by
  induction l generalizing s with
  | nil => exact rfl
  | cons m l ih =>
    refine PacketsLeft.trans ?_ (ih _)
    dsimp only [whenS]
    split
    · exact sendOn_left ..
    · exact rfl

/-- The group counts one call more of the tenant. -/
def calledOnce (g : Group) (t : Nat) : Group := { g with calls := tabPut t (tabGetD 0 t g.calls + 1) g.calls }

/-- The collective that a COLLECTIVE begins. -/
def collOf (s : State) (h : Nat) (c : Cmd) (g : Group) : Coll :=
  ⟨h, bitsOf (pk c.pkt 1) 31 16, c.tenant, tabGetD 0 c.tenant g.calls, [s.dpt.moduleNumber], []⟩

/-- The collective is open and waits for the members' hellos. -/
def collOpen (s : State) (h : Nat) (c : Cmd) (g : Group) : State :=
  modDpt (fun d => { d with groups := tabPut (bitsOf (pk c.pkt 1) 31 16) (calledOnce g c.tenant) d.groups, colls := d.colls ++ [collOf s h c g] }) s

/-- This module's hello to the members. -/
def helloOf (s : State) (c : Cmd) (g : Group) : DptCtl :=
  .collHello (bitsOf (pk c.pkt 1) 31 16) c.tenant (tabGetD 0 c.tenant g.calls) (collKind c) (collRed c) (cmdDesc s c (lo32 (pk c.pkt 0))).fmt
    (dCount (cmdDesc s c (lo32 (pk c.pkt 0))))

/-- Without early hellos there is none to serve. -/
theorem serveEarly_none {u : State} (none_ : u.dpt.earlyHellos = []) (mine : Nat × DptCtl → Bool) (serve : Nat × DptCtl → State → State) :
    forEach serve (u.dpt.earlyHellos.filter mine) (modDpt (fun d => { d with earlyHellos := d.earlyHellos.filter fun e => !mine e }) u) = u := by
  have same : ({ u with dpt := { u.dpt with earlyHellos := [] } } : State) = u := by rw [← none_]
  unfold modDpt
  dsimp only
  rw [none_]
  exact same

theorem exec_collective {g : Group} (run : Running s h 0x0605 c) (fresh : ∀ k ∈ s.dpt.colls, k.handle ≠ h)
    (there : tabGet? (bitsOf (pk c.pkt 1) 31 16) s.dpt.groups = some g) (complete : g.members.length ≤ g.joined.length) (formed : g.formed = true)
    (early : s.dpt.earlyHellos = []) (first : ∀ x ∈ s.cmds, x.pkt.opcode = 0x0605 → c.order ≤ x.order) :
    exec (.collective h) s = .next (tellOthers s.dpt.moduleNumber (helloOf s c g) (ranks g) (collOpen s h c g)) := by
  have noEarlier : ¬((s.cmds.any fun x => x.pkt.opcode == 0x0605 && x.tenant == c.tenant && decide (x.order < c.order) && x.stage != .done &&
      bitsOf (pk x.pkt 1) 31 16 == bitsOf (pk c.pkt 1) 31 16 && !s.dpt.colls.any fun k => k.handle == x.handle) = true) := by
    rw [List.any_eq_true]
    rintro ⟨x, mem, sat⟩
    simp only [Bool.and_eq_true, beq_iff_eq, decide_eq_true_eq] at sat
    obtain ⟨⟨⟨⟨⟨op, -⟩, earlier⟩, -⟩, -⟩, -⟩ := sat
    exact absurd earlier (Nat.not_lt.mpr (first x mem op))
  have left := tellOthers_left s.dpt.moduleNumber (helloOf s c g) (ranks g) (collOpen s h c g)
  have hellos : (tellOthers s.dpt.moduleNumber (helloOf s c g) (ranks g) (collOpen s h c g)).dpt.earlyHellos = [] := by
    unfold PacketsLeft at left
    rw [left]
    exact early
  show execCollective h s = _
  unfold execCollective
  rw [runCmd_next run]
  refine next_congr ((if_neg (noCollYet fresh)).trans ?_)
  rw [there]
  exact (if_neg (by rw [formed]; simpa using complete)).trans ((if_neg noEarlier).trans (serveEarly_none hellos _ _))

/-! ### Control messages -/

/-- The lookups of tenants and descriptors see nothing of the transport. -/
theorem Talked.openOk {m : Nat} {t : State} (talked : Talked m s t) (T id fmt n : Nat) : openOk t T id fmt n = openOk s T id fmt n := by
  unfold Machine.openOk rxDesc liveDesc getTen getTen?
  rw [talked.frame]

theorem openOk_iff (T id fmt n : Nat) : openOk s T id fmt n = true ↔ (getTen? s T).isSome = true ∧
    ∃ x, liveDesc s T id = some x ∧ x.write = true ∧ (x.space = 2 ∨ x.space = 3 ∨ x.space = 4) ∧ x.layout = 0 ∧ x.fmt = fmt ∧ dCount x = n := by
  unfold openOk rxDesc
  cases there : liveDesc s T id with
  | none => simp
  | some d =>
    by_cases open_ : d.write = true ∧ (d.space = 2 ∨ d.space = 3 ∨ d.space = 4) ∧ d.layout = 0
    · obtain ⟨write, space, layout⟩ := open_
      have writable : (d.write && [2, 3, 4].contains d.space && d.layout == 0) = true := by simp [write, space, layout]
      simp only [writable, if_true]
      simp [write, space, layout]
    · have closed : (d.write && [2, 3, 4].contains d.space && d.layout == 0) = false := by
        simpa [and_assoc] using open_
      refine ⟨fun ok => absurd ok (by simp only [closed, Bool.false_eq_true, if_false, Bool.and_false]; exact not_false), fun ⟨_, x, e, write, space, layout, _⟩ => ?_⟩
      obtain rfl := Option.some.inj e
      exact absurd ⟨write, space, layout⟩ open_

section
variable {hd : DptHdr}

theorem received {f : State → State} (peer : fromPeer s hd) : (let r := heardFrom hd.src hd.incarnation s
    if r.1 && hd.dst == s.dpt.moduleNumber then f (recvPsn hd.src hd.path hd.psn r.2) else r.2) = f (arrived s hd) := by
  dsimp only
  rw [heardFrom_peer peer]
  exact if_pos (by simpa using peer.2)

theorem exec_openReq (peer : fromPeer s hd) (q T d f n : Nat) : exec (.dptControlReceived hd.src hd.incarnation (hd.short, .openReq q T d f n)) s =
    .next (schedule (sendCtl hd.src (.openReply q (openOk s T d f n)) (if openOk s T d f n then noteInbound hd.src q T d (arrived s hd) else arrived s hd))) := by
  rw [← (arrived_talked s hd).openOk T d f n]
  exact next_congr (received (f := fun u =>
    schedule (sendCtl hd.src (.openReply q (openOk u T d f n)) (if openOk u T d f n then noteInbound hd.src q T d u else u))) peer)

theorem remoteOn_arrived (q : Nat) : remoteOn (arrived s hd) hd.src q = remoteOn s hd.src q := by
  unfold remoteOn
  rw [(arrived_talked s hd).remotes]

theorem exec_openReply {r : Remote} {q : Nat} (peer : fromPeer s hd) (there : remoteOn s hd.src q = some r) (asked : r.asked = true) (fresh : r.opened = false)
    (ok : Bool) : exec (.dptControlReceived hd.src hd.incarnation (hd.short, .openReply q ok)) s =
      .next (schedule (if ok then sendCopy r (arrived s hd) else kick (finishRemote r [stWindow] (arrived s hd)))) := by
  refine next_congr ((received (f := fun u => schedule (match remoteOn u hd.src q with
    | some x => if x.asked ∧ x.opened = false then (if ok then sendCopy x u else kick (finishRemote x [stWindow] u)) else u
    | none => u)) peer).trans (congrArg schedule ?_))
  rw [remoteOn_arrived, there]
  exact if_pos ⟨asked, fresh⟩

theorem exec_windowRefused {r : Remote} {q : Nat} (peer : fromPeer s hd) (there : remoteOn s hd.src q = some r) (open_ : r.opened = true) :
    exec (.dptControlReceived hd.src hd.incarnation (hd.short, .windowRefused q)) s = .next (schedule (kick (finishRemote r [stWindow] (arrived s hd)))) := by
  refine next_congr ((received (f := fun u => schedule (match remoteOn u hd.src q with
    | some x => if x.opened then kick (finishRemote x [stWindow] u) else u
    | none => u)) peer).trans (congrArg schedule ?_))
  rw [remoteOn_arrived, there]
  exact if_pos open_

/-- The only transfer, of a command, is refused. -/
theorem refused_spec {r : Remote} (only : s.dpt.remotes = [r]) (handle : r.handle = h) (tile : r.tile = false) (clean : r.poisoned = false)
    (live : getCmd? s h = some c) (running : c.stage = .running) :
    Ended (kick (finishRemote r [stWindow] (arrived s hd))) h c [stWindow] 0 ∧ (kick (finishRemote r [stWindow] (arrived s hd))).dpt.remotes = [] ∧
      (kick (finishRemote r [stWindow] (arrived s hd))).mem = s.mem := by
  have talked := arrived_talked s hd
  have gone : (finishRemote r [stWindow] (arrived s hd)).dpt.remotes = [] := by
    rw [finishRemote_dpt, talked.remotes, only]
    simp
  have idle : kick (finishRemote r [stWindow] (arrived s hd)) = finishRemote r [stWindow] (arrived s hd) := by
    unfold kick
    rw [gone]
    rfl
  have finished : ∃ d, finishRemote r [stWindow] (arrived s hd) = finishCmd h [stWindow] 0 { arrived s hd with dpt := d } := by
    unfold finishRemote
    dsimp only
    rw [tile, clean, handle]
    exact ⟨_, rfl⟩
  obtain ⟨d, finished⟩ := finished
  rw [idle]
  refine ⟨?_, gone, ?_⟩
  · rw [finished]
    exact ended_finishCmd _ _ ((getCmd?_of_cmds_eq talked.cmds h).trans live) running
  · rw [finished]
    exact talked.mem

/-! ### Members come and go -/

/-- A member of group `g` leaves. -/
def memberLeaves (g m : Nat) (u : State) : State :=
  prunePeers (whenS (((tabGet? g u.dpt.groups).map fun x => x.joined.contains m).getD false)
    (fun v => dropMember g m (modDpt (fun d => { d with peersLost := d.peersLost + 1 }) v)) u)

theorem exec_leave (peer : fromPeer s hd) (g : Nat) : exec (.dptControlReceived hd.src hd.incarnation (hd.short, .leave g)) s =
    .next (schedule (memberLeaves g hd.src (arrived s hd))) := by
  show controlReceived (hd.short.full hd.src hd.incarnation) (.leave g) s = _
  unfold controlReceived
  exact next_congr (received (f := fun u => schedule (memberLeaves g hd.src u)) peer)

theorem prunePeers_frame (s : State) : (prunePeers s).dpt.groups = s.dpt.groups ∧ (prunePeers s).dpt.peersLost = s.dpt.peersLost ∧ CmdsGo s (prunePeers s) := by
  unfold prunePeers
  obtain ⟨groups, goes⟩ := removePeers_frame ((s.dpt.peers.filter fun e => !s.dpt.groups.any fun g => g.2.joined.contains e.1).map (·.1)) s
  exact ⟨groups, forEach_keeps (fun t : State => t.dpt.peersLost) (fun m t => by rw [removePeer_dpt]) .., goes⟩

theorem dropMember_group (g m : Nat) {x : Group} (there : tabGet? g s.dpt.groups = some x) :
    ∃ y, tabGet? g (dropMember g m s).dpt.groups = some y ∧ y.joined = x.joined.filter (· != m) := by
  have mapped : tabGet? g (dropMember g m s).dpt.groups =
      some { x with joined := x.joined.filter (· != m), epoch := x.epoch + 1, calls := [] } := by
    rw [dropMember_dpt, advanceEpoch_groups]
    unfold withoutMember modDpt
    dsimp only
    rw [tabGet?_tabMap, tabGet?_tabMap, there]
    simp
  exact ⟨_, mapped, rfl⟩

theorem memberLeaves_spec {g m : Nat} {x : Group} (there : tabGet? g s.dpt.groups = some x) (joined : m ∈ x.joined) :
    ∃ y, tabGet? g (memberLeaves g m s).dpt.groups = some y ∧ m ∉ y.joined ∧ (memberLeaves g m s).dpt.peersLost = s.dpt.peersLost + 1 ∧
      CmdsGo s (memberLeaves g m s) := by
  have left : memberLeaves g m s = prunePeers (dropMember g m (modDpt (fun d => { d with peersLost := d.peersLost + 1 }) s)) := by
    unfold memberLeaves whenS
    rw [there]
    exact congrArg prunePeers (if_pos (by simpa using joined))
  obtain ⟨groups, lost, goes⟩ := prunePeers_frame (dropMember g m (modDpt (fun d => { d with peersLost := d.peersLost + 1 }) s))
  obtain ⟨y, got, members⟩ := dropMember_group (s := modDpt (fun d => { d with peersLost := d.peersLost + 1 }) s) g m there
  rw [left]
  refine ⟨y, by rw [groups]; exact got, by simp [members], ?_, ?_⟩
  · have rest := dropMember_memberRest (modDpt (fun d => { d with peersLost := d.peersLost + 1 }) s) g m
    unfold memberRest at rest
    simp only [Prod.mk.injEq] at rest
    obtain ⟨-, -, -, -, counted, -⟩ := rest
    rw [lost, counted]
    rfl
  · exact ((CmdsGo.mk' (CmdsGo.refl s)).trans (dropMember_goes _ g m)).trans goes

/-- The address at which the list has a member. -/
def memberAddr (g : Group) (m : Nat) : List Byte := ((g.members.find? fun e => e.1 == m).map fun e => contactOf e.2).getD []

/-- The member has joined: it is a peer from now on. -/
def memberJoined (m : Nat) (a : Advert) (g : Group) (s : State) : State :=
  modDpt (fun d => { d with peers := if (tabGet? m d.peers).isSome then d.peers else tabPut m (newPeer a) d.peers,
                            lostIncarnations := d.lostIncarnations.filter (· != (m, a.incarnation % m32)),
                            groups := tabPut a.group { g with joined := setIns m g.joined } d.groups })
    (sendAdvert m (memberAddr g m) (advertOf s a.group g) s)

theorem recvAdvert_joins {m : Nat} {a : Advert} {g : Group} (there : tabGet? a.group s.dpt.groups = some g) (absent : getPeer? s m = none)
    (other : m ≠ s.dpt.moduleNumber) (member : ∃ x ∈ g.members, x.1 = m) (fresh : m ∉ g.joined) (agrees : listDigest g = a.digest)
    (forming : g.formed = false) (join : g.join = none) (idle : s.dpt.colls = []) : recvAdvert m a s = nextEpoch a.group (memberJoined m a g s) := by
  have listed : (g.members.any fun x => x.1 == m) = true := by simpa using member
  have sent : (sendAdvert m (memberAddr g m) (advertOf s a.group g) s).dpt.colls = s.dpt.colls := (wireOut_talked ..).colls
  have joined : advanceEpoch a.group (memberJoined m a g s) = nextEpoch a.group (memberJoined m a g s) := advanceEpoch_idle _ (sent.trans idle)
  have now_ : tabGet? a.group (nextEpoch a.group (memberJoined m a g s)).dpt.groups =
      some { g with joined := setIns m g.joined, epoch := g.epoch + 1, calls := [] } := by
    unfold nextEpoch memberJoined modDpt
    dsimp only
    rw [tabGet?_tabMap, tabGet?_tabPut_same]
    simp
  unfold recvAdvert
  rw [there]
  dsimp only
  rw [absent, if_neg (by simp [listed, other])]
  dsimp only
  rw [there]
  dsimp only
  rw [if_neg (by simp [fresh, agrees, forming])]
  refine Eq.trans ?_ joined
  show (match tabGet? a.group (advanceEpoch a.group (memberJoined m a g s)).dpt.groups with
    | some x => if x.join.isSome ∧ x.joined.length = x.members.length then completeJoin a.group (advanceEpoch a.group (memberJoined m a g s))
        else advanceEpoch a.group (memberJoined m a g s)
    | none => advanceEpoch a.group (memberJoined m a g s)) = _
  rw [joined, now_]
  exact if_neg (by simp [join])

end

end

theorem memberJoined_spec {s : State} {m : Nat} {a : Advert} {g : Group} (absent : getPeer? s m = none) :
    (tabGet? a.group (nextEpoch a.group (memberJoined m a g s)).dpt.groups).map (·.joined) = some (setIns m g.joined) ∧
    (∃ p, getPeer? (nextEpoch a.group (memberJoined m a g s)) m = some p ∧ p.incarnation = a.incarnation % 2 ^ 32) ∧
    (∀ k, k ≠ a.group → tabGet? k (nextEpoch a.group (memberJoined m a g s)).dpt.groups = tabGet? k s.dpt.groups) ∧
    peersBut s (nextEpoch a.group (memberJoined m a g s)) m ∧ (nextEpoch a.group (memberJoined m a g s)).cmds = s.cmds := by
  have sent : SentFrom s (sendAdvert m (memberAddr g m) (advertOf s a.group g) s) := wireOut_sent ..
  have peers : (nextEpoch a.group (memberJoined m a g s)).dpt.peers = tabPut m (newPeer a) s.dpt.peers := by
    unfold nextEpoch memberJoined modDpt
    dsimp only
    rw [sent.frame]
    exact if_neg (by unfold getPeer? at absent; simp [absent])
  refine ⟨?_, ⟨newPeer a, ?_, rfl⟩, fun k other => ?_, fun n other => ?_, ?_⟩
  · unfold nextEpoch memberJoined modDpt
    dsimp only
    rw [tabGet?_tabMap, tabGet?_tabPut_same]
    simp
  · unfold getPeer?
    rw [peers, tabGet?_tabPut_same]
  · unfold nextEpoch memberJoined modDpt
    dsimp only
    rw [tabGet?_tabMap, tabGet?_tabPut_ne other, sent.frame]
    simp [other]
  · unfold getPeer?
    rw [peers, tabGet?_tabPut_ne other]
  · show (sendAdvert m (memberAddr g m) (advertOf s a.group g) s).cmds = s.cmds
    rw [sent.frame]

/-- Settles O46: each command and message is one branch of its row, and what it sends moves the transport alone. -/
theorem peerCommandsOpenAndAnswer : Obligations.PeerCommandsOpenAndAnswer := by
  unfold Obligations.PeerCommandsOpenAndAnswer
  intro s h c
  refine ⟨?_, ?_, ?_, ?_, ?_, ?_, ?_, ?_⟩
  · rintro m run rfl fresh
    rw [show cmdParam c 1 % 2 ^ 12 = bitsOf (pk c.pkt 1) 11 0 from (moduleOf_eq _).symm]
    refine ⟨fun absent => ?_, fun peer first => ?_⟩
    · exact ⟨_, exec_remoteCopy_alone run fresh absent, ended_finishCmd _ _ run.1 run.2.1, onlyCmd_finishCmd ..⟩
    · obtain ⟨t, b, ran, mem, goes, alone⟩ := remoteCopy_waits run fresh peer first
      exact ⟨t, _, ran, mem, rfl, rfl, rfl, rfl, rfl, rfl, goes, alone⟩
  · rintro n run rfl fresh
    refine ⟨fun incomplete => ?_, fun g there complete formed early first => ?_⟩
    · exact ⟨_, exec_collective_incomplete run fresh incomplete, ended_finishCmd _ _ run.1 run.2.1, onlyCmd_finishCmd ..⟩
    · have left := tellOthers_left s.dpt.moduleNumber (helloOf s c g) (ranks g) (collOpen s h c g)
      have ran := exec_collective run fresh there complete formed early first
      generalize tellOthers s.dpt.moduleNumber (helloOf s c g) (ranks g) (collOpen s h c g) = t at left ran
      refine ⟨t, ran, left.colls, ?_, left.cmds, ?_⟩
      · rw [left.groups]
        exact tabGet?_tabPut_same ..
      · unfold PacketsLeft at left
        rw [left]
        rfl
  · intro hd q T d f n peer
    exact ⟨openOk s T d f n, exec_openReq peer q T d f n, openOk_iff T d f n⟩
  · intro hd q r msg peer only source queue handle tile clean live running why
    have there : remoteOn s hd.src q = some r := by
      unfold remoteOn
      rw [only, List.find?_singleton, if_pos (by simp [source, queue])]
    obtain ⟨rfl, asked, fresh⟩ | ⟨rfl, open_⟩ := why
    · exact ⟨_, exec_openReply peer there asked fresh false, refused_spec only handle tile clean live running⟩
    · exact ⟨_, exec_windowRefused peer there open_, refused_spec only handle tile clean live running⟩
  · intro hd q r peer there asked fresh
    exact exec_openReply peer there asked fresh true
  · intro hd a g there absent other mine member fresh agrees forming join idle
    have joins := recvAdvert_joins (a := { a with incarnation := hd.incarnation }) there absent other member fresh agrees forming join idle
    refine ⟨_, ?_, memberJoined_spec (a := { a with incarnation := hd.incarnation }) (g := g) absent⟩
    rw [← joins]
    exact next_congr (if_pos mine)
  · intro hd g x peer there joined
    have talked := arrived_talked s hd
    obtain ⟨y, got, gone, lost, goes⟩ := memberLeaves_spec (s := arrived s hd) (by rw [talked.groups]; exact there) joined
    refine ⟨_, y, exec_leave peer g, got, gone, ?_, (CmdsGo.of_cmds_eq talked.cmds).trans goes⟩
    rw [lost, talked.frame]
  · intro hd peer
    refine ⟨next_congr (received (f := schedule) peer), fun g t k kind red fmt n idle there => ?_⟩
    have talked := arrived_talked s hd
    have kept : recvHello hd.src (.collHello g t k kind red fmt n) (arrived s hd) =
        modDpt (fun d => { d with earlyHellos := d.earlyHellos ++ [(hd.src, .collHello g t k kind red fmt n)] }) (arrived s hd) := by
      unfold recvHello
      dsimp only
      rw [talked.colls, idle, talked.groups]
      exact if_pos there
    refine ⟨_, next_congr ((received (f := fun u => schedule (recvHello hd.src (.collHello g t k kind red fmt n) u)) peer).trans (congrArg schedule kept)),
      rfl, rfl⟩

end Sys2Proof.Machine

/-! Data and signals of a peer (13 R310, R311, R319; 09 R213): packets wait in the reorder buffer and leave it in their queue's order. -/

namespace Sys2Proof.Machine

/-! ### Signals -/

section
variable {s t : State}

theorem signalPhys_broken {k : Nat} (broken : s.ctrs.broken.contains k = true) (n : Nat) : signalPhys k n s = s := by
  unfold signalPhys
  exact if_pos broken

theorem signalPhys_mem_eq (k n : Nat) (s : State) : (signalPhys k n s).mem = s.mem := by
  by_cases broken : s.ctrs.broken.contains k = true
  · rw [signalPhys_broken broken]
  · exact signalPhys_mem n (eq_false_of_ne_true broken)

/-- A signal moves the counters by the counters alone. -/
theorem signalPhys_ctrs_congr (e : t.ctrs = s.ctrs) (k n : Nat) : (signalPhys k n t).ctrs = (signalPhys k n s).ctrs := by
  by_cases broken : s.ctrs.broken.contains k = true
  · rw [signalPhys_broken broken, signalPhys_broken (e ▸ broken), e]
  · have whole := eq_false_of_ne_true broken
    rw [signalPhys_keeps State.ctrs modFn_ctrs n whole, signalPhys_keeps State.ctrs modFn_ctrs n (e ▸ whole), ctrUpdate_ctrs, ctrUpdate_ctrs]
    unfold signalSum ctrVal
    rw [e]

theorem signalCtr_ctrs_congr (e : t.ctrs = s.ctrs) (eTenants : t.tenants = s.tenants) (T k n : Nat) : (signalCtr T k n t).ctrs = (signalCtr T k n s).ctrs := by
  have same : physCtr t T k = physCtr s T k := by
    unfold physCtr
    rw [eTenants]
  unfold signalCtr
  rw [same]
  split
  · exact signalPhys_ctrs_congr e ..
  · exact e

theorem landSignal_ctrs (hd : DptHdr) (s : State) : (landSignal hd s).2.ctrs = (if hd.last then signalCtr hd.tenant hd.counter hd.signalN s else s).ctrs := by
  unfold landSignal signalCtr
  split
  · cases physCtr s hd.tenant hd.counter <;> rfl
  · rfl

theorem landSignal_work (hd : DptHdr) (s : State) : WorkOnly s (landSignal hd s).2 := by
  unfold landSignal
  split
  · split
    · exact signalPhys_work _ _ _ (WorkOnly.refl s)
    · exact WorkOnly.refl s
  · exact WorkOnly.refl s

theorem landSignal_mem (hd : DptHdr) (s : State) : (landSignal hd s).2.mem = s.mem := by
  unfold landSignal
  split
  · split
    · exact signalPhys_mem_eq ..
    · rfl
  · rfl

theorem landWrite_data (b : Buffered) (s : State) : DataOnly s (landWrite b s).2 := by
  unfold landWrite
  split
  · exact DataOnly.refl s
  split
  · exact DataOnly.refl s
  dsimp only
  split
  · exact DataOnly.refl s
  · refine wrPieces_data _ _ _ _ (fun n a data => ?_) (DataOnly.refl s)
    split <;> exact data

theorem DataOnly.ctrs (data : DataOnly s t) : t.ctrs = s.ctrs := by
  unfold DataOnly at data
  rw [data]

theorem landWrite_empty {b : Buffered} (empty : b.payload = []) (s : State) : landWrite b s = (true, s) := by
  unfold landWrite
  rw [empty]
  rfl

/-! ### A packet leaves the buffer -/

/-- The packet's data has landed, and how far is noted. -/
def dataLanded (b : Buffered) (s : State) : State := noteLanded b (landWrite b s).2

/-- Its signal has been applied, unless its data found no home. -/
def signalLanded (b : Buffered) (s : State) : Bool × State := if (landWrite b s).1 then landSignal b.hd (dataLanded b s) else (true, dataLanded b s)

/-- The packet is out of the buffer and its queue's order moves on. -/
def leftBuffer (b : Buffered) (s : State) : State :=
  setNextQsn b.hd.src b.hd.queue ((b.hd.qsn + 1) % m32) (modDpt (fun d => { d with reorder := d.reorder.filter (fun x => x != b) }) (signalLanded b s).2)

theorem releasePkt_eq (b : Buffered) (s : State) : releasePkt b s =
    sendAck b.hd.src b.hd.path (whenS (!((landWrite b s).1 && (signalLanded b s).1)) (sendCtl b.hd.src (.windowRefused b.hd.queue))
      (modPeer b.hd.src (fun p => { p with owed := p.owed + (if b.payload.isEmpty then 0 else 1) }) (leftBuffer b s))) := rfl

theorem releasePkt_talked (b : Buffered) (s : State) : Talked b.hd.src (leftBuffer b s) (releasePkt b s) := by
  have refused (c : Bool) (t : State) : Talked b.hd.src t (whenS c (sendCtl b.hd.src (.windowRefused b.hd.queue)) t) := by
    unfold whenS
    split
    · exact sendCtl_talked ..
    · exact Talked.refl
  rw [releasePkt_eq]
  exact (modPeer_talked ..).trans ((refused ..).trans (sendAck_talked ..))

theorem dataLanded_eq (b : Buffered) (s : State) : dataLanded b s = { (landWrite b s).2 with dpt := (dataLanded b s).dpt } := rfl

theorem dataLanded_ctrs (b : Buffered) (s : State) : (dataLanded b s).ctrs = (landWrite b s).2.ctrs := by rw [dataLanded_eq]

theorem dataLanded_tenants (b : Buffered) (s : State) : (dataLanded b s).tenants = (landWrite b s).2.tenants := by rw [dataLanded_eq]

/-- Where a packet lands, only how far its transfer has come changes of the transport. -/
theorem dataLanded_dpt (b : Buffered) (s : State) : (dataLanded b s).dpt = { s.dpt with inbound := (dataLanded b s).dpt.inbound } := by
  unfold dataLanded noteLanded modDpt
  dsimp only
  rw [(landWrite_data b s).dpt]

theorem signalLanded_dpt (b : Buffered) (s : State) : (signalLanded b s).2.dpt = (dataLanded b s).dpt := by
  unfold signalLanded
  split
  · exact (landSignal_work ..).dpt
  · rfl

theorem leftBuffer_dpt (b : Buffered) (s : State) : (leftBuffer b s).dpt = { s.dpt with
    inbound := (leftBuffer b s).dpt.inbound, reorder := s.dpt.reorder.filter (fun x => x != b),
    rxNext := (s.dpt.rxNext.filter fun e => e.1 != (b.hd.src, b.hd.queue)) ++ [((b.hd.src, b.hd.queue), (b.hd.qsn + 1) % m32)] } := by
  unfold leftBuffer setNextQsn modDpt
  dsimp only
  rw [signalLanded_dpt, dataLanded_dpt]

theorem leftBuffer_eq (b : Buffered) (s : State) : leftBuffer b s = { (signalLanded b s).2 with dpt := (leftBuffer b s).dpt } := rfl

theorem nextQsn_leftBuffer (b : Buffered) (s : State) : nextQsn (leftBuffer b s) b.hd.src b.hd.queue = (b.hd.qsn + 1) % 2 ^ 32 := by
  unfold nextQsn
  rw [leftBuffer_dpt]
  dsimp only
  have none_ : (s.dpt.rxNext.filter fun e => e.1 != (b.hd.src, b.hd.queue)).find? (fun e => e.1 == (b.hd.src, b.hd.queue)) = none := by simp
  rw [List.find?_append, none_, Option.none_or, List.find?_singleton, if_pos (by simp)]
  rfl

theorem nextQsn_releasePkt (b : Buffered) (s : State) : nextQsn (releasePkt b s) b.hd.src b.hd.queue = (b.hd.qsn + 1) % 2 ^ 32 := by
  refine Eq.trans ?_ (nextQsn_leftBuffer b s)
  unfold nextQsn
  rw [(releasePkt_talked b s).frame]

theorem mem_releasePkt_reorder (b x : Buffered) (s : State) : x ∈ (releasePkt b s).dpt.reorder ↔ x ∈ s.dpt.reorder ∧ x ≠ b := by
  have reorder : (releasePkt b s).dpt.reorder = s.dpt.reorder.filter (fun x => x != b) := by
    rw [(releasePkt_talked b s).frame, leftBuffer_dpt]
  rw [reorder, List.mem_filter, bne_iff_ne]

theorem releasePkt_mem (b : Buffered) (s : State) : (releasePkt b s).mem = (landWrite b s).2.mem := by
  refine (releasePkt_talked b s).mem.trans ?_
  show (signalLanded b s).2.mem = _
  unfold signalLanded
  split
  · exact landSignal_mem ..
  · rfl

theorem releasePkt_ctrs {b : Buffered} {s : State} (landed : (landWrite b s).1 = true) : (releasePkt b s).ctrs =
    (if b.hd.last then signalCtr b.hd.tenant b.hd.counter b.hd.signalN (landWrite b s).2 else s).ctrs := by
  have same : (releasePkt b s).ctrs = (landSignal b.hd (dataLanded b s)).2.ctrs := by
    rw [(releasePkt_talked b s).frame]
    show (signalLanded b s).2.ctrs = _
    unfold signalLanded
    rw [if_pos landed]
  rw [same, landSignal_ctrs]
  cases b.hd.last with
  | true => exact signalCtr_ctrs_congr (dataLanded_ctrs b s) (dataLanded_tenants b s) ..
  | false => exact (dataLanded_ctrs b s).trans (landWrite_data b s).ctrs

/-- The state without the transport and without what work may change. -/
def apartFromPeerWork (s : State) : State :=
  { s with out := [], fns := [], cmds := [], sharedPoison := [], ctrs := State.reset.ctrs, mem := Memories.reset, stks := [], runs := [], tiles := [],
           far := State.reset.far, hist := State.reset.hist, pm := PowerSt.reset, henua := State.reset.henua, freeCtr := 0, dpt := Dpt.reset }

theorem workOnly_of_apart {s t : State} (e : apartFromPeerWork t = apartFromPeerWork s) : WorkOnly { s with dpt := t.dpt } t := by
  have restored := congrArg (fun x : State => { x with
    out := t.out, fns := t.fns, cmds := t.cmds, sharedPoison := t.sharedPoison, ctrs := t.ctrs, mem := t.mem, stks := t.stks, runs := t.runs,
    tiles := t.tiles, far := t.far, hist := t.hist, pm := t.pm, henua := t.henua, freeCtr := t.freeCtr, dpt := t.dpt }) e
  exact restored

theorem WorkOnly.apartFromPeerWork {s t : State} (work : WorkOnly s t) : apartFromPeerWork t = apartFromPeerWork s := by
  unfold WorkOnly at work
  rw [work]
  rfl

theorem DataOnly.apartFromPeerWork {s t : State} (data : DataOnly s t) : Machine.apartFromPeerWork t = Machine.apartFromPeerWork s := by
  unfold DataOnly at data
  rw [data]
  rfl

theorem Talked.apartFromPeerWork {m : Nat} {s t : State} (talked : Talked m s t) : Machine.apartFromPeerWork t = Machine.apartFromPeerWork s := by
  rw [talked.frame]
  rfl

theorem releasePkt_work (b : Buffered) (s : State) : WorkOnly { s with dpt := (releasePkt b s).dpt } (releasePkt b s) := by
  have signalled : apartFromPeerWork (signalLanded b s).2 = apartFromPeerWork (dataLanded b s) := by
    unfold signalLanded
    split
    · exact (landSignal_work ..).apartFromPeerWork
    · rfl
  have left : apartFromPeerWork (leftBuffer b s) = apartFromPeerWork (signalLanded b s).2 := by
    rw [leftBuffer_eq]
    rfl
  have landed : apartFromPeerWork (dataLanded b s) = apartFromPeerWork (landWrite b s).2 := by
    rw [dataLanded_eq]
    rfl
  exact workOnly_of_apart ((releasePkt_talked b s).apartFromPeerWork.trans (left.trans (signalled.trans (landed.trans (landWrite_data b s).apartFromPeerWork))))

end

/-! ### Arrivals -/

section
variable {s : State} {hd : DptHdr} {payload : List Byte}

theorem forUs_iff (dst : hd.dst = s.dpt.moduleNumber) : forUs s hd payload = true ↔ wellSized hd payload := by
  unfold forUs wellSized
  simp [dst]

theorem duplicate_arrived (s : State) (hd : DptHdr) : duplicate (arrived s hd) hd = duplicate s hd := by
  unfold duplicate nextQsn
  rw [(arrived_talked s hd).frame]

theorem exec_write (hd : DptHdr) (payload : List Byte) (s : State) : exec (.dptWriteReceived hd payload) s = .next (
    if (heardFrom hd.src hd.incarnation s).1 && forUs s hd payload then
      if duplicate (recvPsn hd.src hd.path hd.psn (heardFrom hd.src hd.incarnation s).2) hd then recvPsn hd.src hd.path hd.psn (heardFrom hd.src hd.incarnation s).2
      else whenS (!payload.isEmpty) (wakeSource 4 false) (bufferPkt hd payload (recvPsn hd.src hd.path hd.psn (heardFrom hd.src hd.incarnation s).2))
    else (heardFrom hd.src hd.incarnation s).2) := rfl

theorem exec_write_peer (peer : fromPeer s hd) : exec (.dptWriteReceived hd payload) s = .next (
    if forUs s hd payload then
      if duplicate s hd then arrived s hd else whenS (!payload.isEmpty) (wakeSource 4 false) (bufferPkt hd payload (arrived s hd))
    else s) := by
  rw [exec_write, heardFrom_peer peer, Bool.true_and, ← duplicate_arrived s hd]
  rfl

theorem exec_signal_peer (peer : fromPeer s hd) (empty : hd.length = 0) : exec (.dptSignalReceived hd) s = .next (
    if duplicate s hd then arrived s hd
    else if hd.qsn = nextQsn s hd.src hd.queue then schedule (releasePkt ⟨hd, []⟩ (arrived s hd)) else bufferPkt hd [] (arrived s hd)) := by
  have sized : forUs s hd [] = true := (forUs_iff peer.2).mpr ⟨empty.symm, by rw [empty]⟩
  have ran : exec (.dptSignalReceived hd) s = .next (
      if (heardFrom hd.src hd.incarnation s).1 && forUs s hd [] then
        if duplicate (recvPsn hd.src hd.path hd.psn (heardFrom hd.src hd.incarnation s).2) hd then recvPsn hd.src hd.path hd.psn (heardFrom hd.src hd.incarnation s).2
        else if hd.qsn = nextQsn (recvPsn hd.src hd.path hd.psn (heardFrom hd.src hd.incarnation s).2) hd.src hd.queue then
          schedule (releasePkt ⟨hd, []⟩ (recvPsn hd.src hd.path hd.psn (heardFrom hd.src hd.incarnation s).2))
        else bufferPkt hd [] (recvPsn hd.src hd.path hd.psn (heardFrom hd.src hd.incarnation s).2)
      else (heardFrom hd.src hd.incarnation s).2) := rfl
  have order : nextQsn (arrived s hd) hd.src hd.queue = nextQsn s hd.src hd.queue := by
    unfold nextQsn
    rw [(arrived_talked s hd).frame]
  rw [ran, heardFrom_peer peer, Bool.true_and, if_pos sized, ← duplicate_arrived s hd, ← order]
  rfl

end

end Sys2Proof.Machine

/-! Data of collectives (13 R321), and the packets of a peer as a whole (13 R310, R311). -/

namespace Sys2Proof.Machine

/-! ### The reorder buffer -/

section
variable {s : State} {src queue : Nat} {b : Buffered}

/-- The packet that is next in its queue's order. -/
def nextPkt (s : State) (src queue : Nat) : Option Buffered :=
  s.dpt.reorder.find? fun b => b.hd.src == src && b.hd.queue == queue && b.hd.qsn == nextQsn s src queue

theorem nextPkt_queue (next : nextPkt s src queue = some b) : b.hd.src = src ∧ b.hd.queue = queue := by
  have found := List.find?_some next
  simp only [Bool.and_eq_true, beq_iff_eq] at found
  exact found.1

theorem exec_reorderRelease (next : nextPkt s src queue = some b)
    (ready : b.payload = [] ∨ (powerEff s ≠ .hold ∧ onTest s (rxDesc s b.hd.tenant b.hd.desc).toList = false ∧ blksWait s (landPhys s b) = false))
    (idle : s.held = []) : exec (.reorderRelease src queue) s = .next (schedule (releasePkt b s)) := by
  have awake : ¬(powerEff s = .hold ∧ b.payload.isEmpty = false) := fun ⟨hold, data⟩ =>
    ready.elim (fun empty => by rw [empty] at data; exact absurd data (by decide)) fun ⟨up, _, _⟩ => up hold
  have untested : ¬((!b.payload.isEmpty && onTest s (rxDesc s b.hd.tenant b.hd.desc).toList) = true) := by
    obtain empty | ⟨-, test, -⟩ := ready
    · rw [empty]
      exact Bool.false_ne_true
    · rw [test, Bool.and_false]
      exact Bool.false_ne_true
  have free : blksWait s (if b.payload.isEmpty then [] else landPhys s b) = false := by
    obtain empty | ⟨-, -, free⟩ := ready
    · rw [empty]
      rfl
    · split
      · rfl
      · exact free
  show execReorderRelease src queue s = _
  unfold execReorderRelease
  unfold nextPkt at next
  rw [next]
  exact next_congr ((if_neg awake).trans ((if_neg untested).trans (viaGap_of_free idle free _ _)))

theorem bufferPkt_spec (hd : DptHdr) (payload : List Byte) (s : State) : (bufferPkt hd payload s).dpt.reorder = s.dpt.reorder ++ [⟨hd, payload⟩] ∧
    s.dpt.reorderMax ≤ (bufferPkt hd payload s).dpt.reorderMax ∧ occupancy (bufferPkt hd payload s) ≤ (bufferPkt hd payload s).dpt.reorderMax ∧
    (bufferPkt hd payload s).dpt.peers = s.dpt.peers ∧ bufferPkt hd payload s = { s with dpt := (bufferPkt hd payload s).dpt } :=
  ⟨rfl, Nat.le_max_left .., Nat.le_max_right .., rfl, rfl⟩

theorem wakeIf_pm (c : Bool) (s : State) : ∃ pm, whenS c (wakeSource 4 false) s = { s with pm := pm } := by
  unfold whenS
  split
  · exact ⟨_, wakeSource_pm (by decide) false s⟩
  · exact ⟨s.pm, rfl⟩

end

/-! ### Packets that wait to go out stay -/

/-- What waits to go to a peer. -/
def waitingFor (m : Nat) (s : State) : Option (List TxItem) := (getPeer? s m).map (·.txq)

section
variable (m : Nat) (s : State)

theorem waitingFor_modPeer (g : Peer → Peer) (keep : ∀ p, (g p).txq = p.txq) : waitingFor m (modPeer m g s) = waitingFor m s := by
  unfold waitingFor
  rw [getPeer?_modPeer]
  cases getPeer? s m with
  | none => rfl
  | some p => exact congrArg some (keep p)

theorem waitingFor_of_peers {s t : State} (e : t.dpt.peers = s.dpt.peers) : waitingFor m t = waitingFor m s := by
  unfold waitingFor
  rw [getPeer?_congr e]

theorem waitingFor_wireOut (k ty : Nat) (addr : List Byte) (hd : DptHdr) (b : DptBody) : waitingFor m (wireOut m k ty addr hd b s) = waitingFor m s :=
  waitingFor_of_peers m (by rw [wireOut_eq])

theorem waitingFor_modPath (k : Nat) (g : PathSt → PathSt) : waitingFor m (modPath m k g s) = waitingFor m s :=
  waitingFor_modPeer m s _ (by exact fun _ => rfl)

theorem waitingFor_sendAck (k : Nat) : waitingFor m (sendAck m k s) = waitingFor m s := by
  have granted : waitingFor m (grantPool m s).2 = waitingFor m s :=
    (waitingFor_modPeer m _ _ (by exact fun _ => rfl)).trans (waitingFor_of_peers m rfl)
  unfold sendAck
  dsimp only
  split
  · exact granted
  · exact (waitingFor_wireOut ..).trans ((waitingFor_modPath ..).trans ((waitingFor_modPeer m _ _ (by exact fun _ => rfl)).trans granted))

theorem waitingFor_arrived (hd : DptHdr) : waitingFor hd.src (arrived s hd) = waitingFor hd.src s := by
  unfold arrived recvPsn
  dsimp only
  split
  · split
    · exact (waitingFor_sendAck ..).trans (waitingFor_modPath ..)
    · exact waitingFor_modPath ..
  · exact waitingFor_modPath ..

end

/-! ### Data of a collective -/

section
variable {s : State} {hd : DptHdr} {payload : List Byte}

/-- The collective that a packet is of. -/
def collFor (s : State) (hd : DptHdr) : Option Coll := s.dpt.colls.find? fun k => k.group == hd.desc && k.tenant == hd.tenant && k.call == hd.queue

/-- A credit unit is owed to the sender. -/
def owe (hd : DptHdr) (u : State) : State := modPeer hd.src (fun p => { p with owed := p.owed + 1 }) u

/-- The packet's credit unit is owed, once. -/
def oweOnce (k : Coll) (hd : DptHdr) (u : State) : State := if collHas u k hd then u else owe hd u

theorem owe_talked (hd : DptHdr) (u : State) : Talked hd.src u (owe hd u) := modPeer_talked ..

theorem oweOnce_talked (k : Coll) (hd : DptHdr) (u : State) : Talked hd.src u (oweOnce k hd u) := by
  unfold oweOnce
  split
  · exact Talked.refl
  · exact owe_talked ..

/-- The values that a packet carries for a contribution. -/
def collVals (s : State) (hd : DptHdr) (payload : List Byte) (c : Cmd) (g : Group) : List PV :=
  let d := cmdDesc s c (lo32 (pk c.pkt 0))
  ((unpackVals (fmtBits d.fmt) payload.length payload).take (partLen c g.members.length (dCount d) - hd.offset * 8 / fmtBits d.fmt)).zipIdx.map
    fun e => (e.1, hd.poisonValid && hd.poison.testBit (e.2 * fmtBits d.fmt / 512))

theorem exec_collData (hd : DptHdr) (payload : List Byte) (s : State) : exec (.dptCollectiveDataReceived hd payload) s = .next (
    let r := heardFrom hd.src hd.incarnation s
    if r.1 && hd.dst == s.dpt.moduleNumber then
      let s0 := recvPsn hd.src hd.path hd.psn r.2
      if !forUs s0 hd payload then s0
      else match collFor s0 hd with
        | none => if hd.retx then s0 else owe hd s0
        | some k => match getCmd? (oweOnce k hd s0) k.handle, tabGet? k.group (oweOnce k hd s0).dpt.groups with
          | some c, some g => schedule (settleColl k.handle (modColl k.handle (addPart (rankIn g hd.src)
              (hd.offset * 8 / fmtBits (cmdDesc (oweOnce k hd s0) c (lo32 (pk c.pkt 0))).fmt) (collVals (oweOnce k hd s0) hd payload c g)) (oweOnce k hd s0)))
          | _, _ => oweOnce k hd s0
    else r.2) := rfl

theorem exec_collData_nobody (absent : getPeer? s hd.src = none) : exec (.dptCollectiveDataReceived hd payload) s = .next s := by
  rw [exec_collData, heardFrom_nobody absent]
  rfl

theorem forUs_arrived (s : State) (hd : DptHdr) (payload : List Byte) : forUs (arrived s hd) hd payload = forUs s hd payload := by
  unfold forUs
  rw [(arrived_talked s hd).frame]

theorem exec_collData_missized (peer : fromPeer s hd) (sized : ¬wellSized hd payload) :
    exec (.dptCollectiveDataReceived hd payload) s = .next (arrived s hd) := by
  have refused : forUs (arrived s hd) hd payload = false := by
    rw [forUs_arrived]
    exact eq_false_of_ne_true fun e => sized ((forUs_iff peer.2).mp e)
  rw [exec_collData]
  exact next_congr ((received (f := fun s0 => if !forUs s0 hd payload then s0 else _) peer).trans (if_pos (by rw [refused]; rfl)))

theorem exec_collData_sized (peer : fromPeer s hd) (sized : wellSized hd payload) : exec (.dptCollectiveDataReceived hd payload) s = .next (
    match collFor s hd with
    | none => if hd.retx then arrived s hd else owe hd (arrived s hd)
    | some k => match getCmd? (oweOnce k hd (arrived s hd)) k.handle, tabGet? k.group (oweOnce k hd (arrived s hd)).dpt.groups with
      | some c, some g => schedule (settleColl k.handle (modColl k.handle (addPart (rankIn g hd.src)
          (hd.offset * 8 / fmtBits (cmdDesc (oweOnce k hd (arrived s hd)) c (lo32 (pk c.pkt 0))).fmt)
          (collVals (oweOnce k hd (arrived s hd)) hd payload c g)) (oweOnce k hd (arrived s hd))))
      | _, _ => oweOnce k hd (arrived s hd)) := by
  have accepted : forUs (arrived s hd) hd payload = true := by
    rw [forUs_arrived]
    exact (forUs_iff peer.2).mpr sized
  have same : collFor (arrived s hd) hd = collFor s hd := by
    unfold collFor
    rw [(arrived_talked s hd).colls]
  rw [exec_collData, heardFrom_peer peer, ← same]
  exact next_congr ((if_pos (by simpa using peer.2)).trans (if_neg (by show ¬((!forUs (arrived s hd) hd payload) = true); rw [accepted]; decide)))

theorem Talked.loose {m : Nat} {t : State} (talked : Talked m s t) : t = { s with dpt := t.dpt, out := t.out, freeCtr := t.freeCtr } := by
  rw [talked.frame]

theorem Talked.then_dpt {m : Nat} {t u : State} (talked : Talked m s t) (more : u = { t with dpt := u.dpt }) :
    u = { s with dpt := u.dpt, out := u.out, freeCtr := u.freeCtr } := by
  rw [talked.loose] at more
  rw [more]

theorem Talked.cmdDesc {m : Nat} {t : State} (talked : Talked m s t) (c : Cmd) (id : Nat) : cmdDesc t c id = cmdDesc s c id := by
  unfold Machine.cmdDesc getTen
  rw [talked.frame]

theorem oweOnce_arrived (k : Coll) (s : State) (hd : DptHdr) : Talked hd.src s (oweOnce k hd (arrived s hd)) :=
  (arrived_talked s hd).trans (oweOnce_talked ..)

theorem exec_collData_added {k : Coll} {c : Cmd} {g : Group} (peer : fromPeer s hd) (sized : wellSized hd payload) (there : collFor s hd = some k)
    (live : getCmd? s k.handle = some c) (group : tabGet? k.group s.dpt.groups = some g) : exec (.dptCollectiveDataReceived hd payload) s =
      .next (schedule (settleColl k.handle (modColl k.handle (addPart (rankIn g hd.src) (hd.offset * 8 / fmtBits (cmdDesc s c (lo32 (pk c.pkt 0))).fmt)
        (collVals s hd payload c g)) (oweOnce k hd (arrived s hd))))) := by
  have talked := oweOnce_arrived k s hd
  have vals : collVals (oweOnce k hd (arrived s hd)) hd payload c g = collVals s hd payload c g := by
    unfold collVals
    rw [talked.cmdDesc]
  rw [exec_collData_sized peer sized, there]
  dsimp only
  rw [getCmd?_of_cmds_eq talked.cmds, live, talked.groups, group]
  dsimp only
  rw [talked.cmdDesc, vals]

end

/-- Without a collective the packet is noted, and at most its credit unit is owed. -/
theorem exec_collData_stray {s : State} {hd : DptHdr} {payload : List Byte} (peer : fromPeer s hd) (idle : s.dpt.colls = []) :
    ∃ t, exec (.dptCollectiveDataReceived hd payload) s = .next t ∧ Talked hd.src s t ∧ waitingFor hd.src t = waitingFor hd.src s := by
  by_cases sized : wellSized hd payload
  · have nothing : collFor s hd = none := by
      unfold collFor
      rw [idle]
      rfl
    refine ⟨_, exec_collData_sized peer sized, ?_, ?_⟩
    · rw [nothing]
      dsimp only
      split
      · exact arrived_talked s hd
      · exact (arrived_talked s hd).trans (owe_talked ..)
    · rw [nothing]
      dsimp only
      split
      · exact waitingFor_arrived s hd
      · exact (waitingFor_modPeer _ _ _ (by exact fun _ => rfl)).trans (waitingFor_arrived s hd)
  · exact ⟨_, exec_collData_missized peer sized, arrived_talked s hd, waitingFor_arrived s hd⟩

theorem modColl_colls (h : Nat) (f : Coll → Coll) (s : State) : (modColl h f s).dpt.colls = s.dpt.colls.map fun x => if x.handle == h then f x else x := rfl

/-- Settles O43: an arrival moves its peer's path alone; what leaves the buffer lands through one function. -/
theorem peerPacketsLandInOrder : Obligations.PeerPacketsLandInOrder := by
  unfold Obligations.PeerPacketsLandInOrder
  intro s hd payload
  have talked := arrived_talked s hd
  refine ⟨?_, fun absent => ?_, fun peer missized => ?_, fun peer dup => ?_, fun peer sized fresh => ?_, fun peer empty fresh early => ?_,
    fun peer empty fresh inTurn => ?_, ?_, ?_, fun peer idle => ?_⟩
  · have frame := talked.frame
    exact ⟨by rw [frame], by rw [frame], by rw [frame], by rw [frame], by rw [frame], talked.others, talked.loose⟩
  · have nobody := heardFrom_nobody absent
    refine ⟨?_, ?_, exec_collData_nobody absent⟩
    · rw [exec_write, nobody]
      rfl
    · show (Host.Outcome.next (if (heardFrom hd.src hd.incarnation s).1 && _ then _ else (heardFrom hd.src hd.incarnation s).2) : Res) = _
      rw [nobody]
      rfl
  · refine ⟨?_, exec_collData_missized peer missized⟩
    rw [exec_write_peer peer]
    exact next_congr (if_neg fun e => missized ((forUs_iff peer.2).mp e))
  · refine ⟨fun sized => ?_, fun empty => ?_⟩
    · rw [exec_write_peer peer]
      exact next_congr ((if_pos ((forUs_iff peer.2).mpr sized)).trans (if_pos dup))
    · rw [exec_signal_peer peer empty]
      exact next_congr (if_pos dup)
  · obtain ⟨pm, woken⟩ := wakeIf_pm (!payload.isEmpty) (bufferPkt hd payload (arrived s hd))
    obtain ⟨reorder, max, fits, peers, frame⟩ := bufferPkt_spec hd payload (arrived s hd)
    refine ⟨{ bufferPkt hd payload (arrived s hd) with pm := pm }, ?_, ?_, ?_, fits, peers, ?_⟩
    · rw [exec_write_peer peer]
      exact next_congr ((if_pos ((forUs_iff peer.2).mpr sized)).trans ((if_neg (by rw [fresh]; decide)).trans woken))
    · rw [show ({ bufferPkt hd payload (arrived s hd) with pm := pm } : State).dpt.reorder = (bufferPkt hd payload (arrived s hd)).dpt.reorder from rfl, reorder,
        talked.frame]
    · refine Nat.le_trans (Nat.le_of_eq ?_) max
      rw [talked.frame]
    · rw [talked.then_dpt frame]
  · refine ⟨bufferPkt hd [] (arrived s hd), ?_, ?_, ?_⟩
    · rw [exec_signal_peer peer empty]
      exact next_congr ((if_neg (by rw [fresh]; decide)).trans (if_neg early))
    · rw [(bufferPkt_spec hd [] (arrived s hd)).1, talked.frame]
    · exact talked.then_dpt rfl
  · refine ⟨releasePkt ⟨hd, []⟩ (arrived s hd), ?_, nextQsn_releasePkt ⟨hd, []⟩ (arrived s hd), ?_, ?_⟩
    · rw [exec_signal_peer peer empty]
      exact next_congr ((if_neg (by rw [fresh]; decide)).trans (if_pos inTurn))
    · rw [releasePkt_mem, landWrite_empty rfl, talked.mem]
    · rw [releasePkt_ctrs (by rw [landWrite_empty rfl]), landWrite_empty rfl]
      cases hd.last with
      | true => exact signalCtr_ctrs_congr (by rw [talked.frame]) (by rw [talked.frame]) ..
      | false => exact (show (arrived s hd).ctrs = s.ctrs by rw [talked.frame])
  · intro src queue b next ready idle
    obtain ⟨rfl, rfl⟩ := nextPkt_queue next
    exact ⟨releasePkt b s, exec_reorderRelease next ready idle, nextQsn_releasePkt b s, fun x => mem_releasePkt_reorder b x s, releasePkt_mem b s,
      fun landed => releasePkt_ctrs landed, releasePkt_work b s⟩
  · rintro k c g d start l peer sized there live group rfl rfl rfl
    refine ⟨_, exec_collData_added peer sized there live group, ?_, ?_⟩
    · rw [modColl_colls, (oweOnce_arrived k s hd).colls]
      rfl
    · exact (oweOnce_arrived k s hd).then_dpt rfl
  · obtain ⟨t, ran, moved, kept⟩ := exec_collData_stray (payload := payload) peer idle
    obtain ⟨p, there, -⟩ := peer.1
    unfold waitingFor at kept
    rw [there] at kept
    obtain ⟨q, got, txq⟩ := Option.map_eq_some_iff.mp kept
    exact ⟨t, p, q, ran, there, got, txq, moved.colls.trans idle, moved.loose⟩

end Sys2Proof.Machine

/-! Step heads and step boundaries (07 R154 to R157; 12 R293, R295): the wait of a head that arrives at the counter store, what a
release tells a tile, and the rows STEP_HEAD_WAIT, COMMIT, TILE_FRAME_SAVE_COMPLETE and RUN_RESUME. -/

namespace Sys2Proof.Machine

/-! ### Releases of one update, with a wait that has just arrived (09 R207 to R209) -/

section
variable {c v : Nat} {w : Wait} {ws : List Wait}

theorem mem_of_releaseGe {r : Release} (mem : r ∈ (releaseGe c v ws).1) : r.1 ∈ ws := by
  induction ws with
  | nil => exact absurd mem List.not_mem_nil
  | cons x t ih =>
    simp only [releaseGe] at mem
    split at mem
    · obtain rfl | later := List.mem_cons.mp mem
      · exact List.mem_cons_self
      · exact List.mem_cons_of_mem _ (ih later)
    · exact List.mem_cons_of_mem _ (ih mem)

theorem mem_of_releaseGe_rest {x : Wait} (mem : x ∈ (releaseGe c v ws).2) : x ∈ ws := by
  rw [releaseGe_waits] at mem
  exact List.mem_of_mem_filter mem

theorem mem_of_releaseTake {b : Bool} {r : Release} (mem : r ∈ (releaseTake c b v ws).1) : r.1 ∈ ws := by
  induction ws generalizing v b with
  | nil => exact absurd mem List.not_mem_nil
  | cons x t ih =>
    simp only [releaseTake] at mem
    split at mem
    · split at mem
      · obtain rfl | later := List.mem_cons.mp mem
        · exact List.mem_cons_self
        · exact List.mem_cons_of_mem _ (ih later)
      · exact List.mem_cons_of_mem _ (ih mem)
    · exact List.mem_cons_of_mem _ (ih mem)

theorem releaseGe_append_met (on : w.ctr = c) (ge : w.take = false) (met : w.amount ≤ v) :
    releaseGe c v (ws ++ [w]) = ((releaseGe c v ws).1 ++ [(w, v)], (releaseGe c v ws).2) := by
  induction ws with
  | nil => simp [releaseGe, on, ge, met]
  | cons x t ih =>
    simp only [List.cons_append, releaseGe, ih]
    split
    · rfl
    · rfl

theorem releaseGe_append_unmet (unmet : ¬(w.ctr = c ∧ w.take = false ∧ w.amount ≤ v)) :
    releaseGe c v (ws ++ [w]) = ((releaseGe c v ws).1, (releaseGe c v ws).2 ++ [w]) := by
  induction ws with
  | nil =>
    simp only [List.nil_append, releaseGe]
    rw [if_neg unmet]
  | cons x t ih =>
    simp only [List.cons_append, releaseGe, ih]
    split
    · rfl
    · rfl

theorem releaseTake_append_other (b : Bool) (other : ¬(w.ctr = c ∧ w.take = true)) :
    releaseTake c b v (ws ++ [w]) = ((releaseTake c b v ws).1, (releaseTake c b v ws).2.1 ++ [w], (releaseTake c b v ws).2.2) := by
  induction ws generalizing v b with
  | nil =>
    simp only [List.nil_append, releaseTake]
    rw [if_neg other]
  | cons x t ih =>
    simp only [List.cons_append, releaseTake]
    split
    · split
      · simp only [ih]
      · simp only [ih]
        rfl
    · simp only [ih]
      rfl

theorem releaseTake_append_first (on : w.ctr = c) (take : w.take = true) (first : ∀ x ∈ ws, ¬(x.ctr = c ∧ x.take = true)) :
    releaseTake c false v (ws ++ [w]) = if w.amount ≤ v then ([(w, v - w.amount)], ws, v - w.amount) else ([], ws ++ [w], v) := by
  induction ws with
  | nil =>
    by_cases met : w.amount ≤ v
    · simp [releaseTake, on, take, met]
    · simp [releaseTake, on, take, met]
  | cons x t ih =>
    have rest := ih fun y mem => first y (List.mem_cons_of_mem _ mem)
    simp only [List.cons_append, releaseTake]
    rw [if_neg (first x List.mem_cons_self), rest]
    split
    · rfl
    · rfl

theorem headTaker_eq_none : headTaker c ws = none ↔ ∀ x ∈ ws, ¬(x.ctr = c ∧ x.take = true) := by
  simp [headTaker]

/-- A wait that arrives met is released once, among waits that stood before it; one that arrives unmet stays. -/
theorem settle_append (on : w.ctr = c) (first : w.take = true → headTaker c ws = none) :
    (w.amount ≤ v → ∃ before after value, (settle c v (ws ++ [w])).1 = before ++ (w, value) :: after ∧
      (∀ r ∈ before ++ after, r.1 ∈ ws) ∧ (w.take = true → (settle c v (ws ++ [w])).2.2 = v - w.amount)) ∧
    (v < w.amount → (∀ r ∈ (settle c v (ws ++ [w])).1, r.1 ∈ ws) ∧ w ∈ (settle c v (ws ++ [w])).2.1) := by
  cases take : w.take with
  | false =>
    have other : ¬(w.ctr = c ∧ w.take = true) := by simp [take]
    refine ⟨fun met => ?_, fun unmet => ?_⟩
    · unfold settle
      rw [releaseGe_append_met on take met]
      dsimp only
      refine ⟨(releaseGe c v ws).1, (releaseTake c false v (releaseGe c v ws).2).1 ++
        (releaseGe c (releaseTake c false v (releaseGe c v ws).2).2.2 (releaseTake c false v (releaseGe c v ws).2).2.1).1, v, by simp, fun r mem => ?_, fun no => absurd no (by simp)⟩
      obtain early | late := List.mem_append.mp mem
      · exact mem_of_releaseGe early
      obtain taken | last := List.mem_append.mp late
      · exact mem_of_releaseGe_rest (mem_of_releaseTake taken)
      · exact mem_of_releaseGe_rest (releaseTake_mem _ _ _ _ _ (mem_of_releaseGe last))
    · have low : ∀ x, x ≤ v → ¬(w.ctr = c ∧ w.take = false ∧ w.amount ≤ x) := fun x le => by omega
      unfold settle
      rw [releaseGe_append_unmet (low v (Nat.le_refl v))]
      dsimp only
      rw [releaseTake_append_other _ other]
      dsimp only
      rw [releaseGe_append_unmet (low _ (releaseTake_le ..))]
      refine ⟨fun r mem => ?_, List.mem_append_right _ (List.mem_singleton.mpr rfl)⟩
      obtain early | last := List.mem_append.mp mem
      · obtain ge | taken := List.mem_append.mp early
        · exact mem_of_releaseGe ge
        · exact mem_of_releaseGe_rest (mem_of_releaseTake taken)
      · exact mem_of_releaseGe_rest (releaseTake_mem _ _ _ _ _ (mem_of_releaseGe last))
  | true =>
    have notGe : ∀ x, ¬(w.ctr = c ∧ w.take = false ∧ w.amount ≤ x) := fun x h => by simp [take] at h
    have alone : ∀ x ∈ (releaseGe c v ws).2, ¬(x.ctr = c ∧ x.take = true) :=
      fun x mem => headTaker_eq_none.mp (first take) x (mem_of_releaseGe_rest mem)
    refine ⟨fun met => ?_, fun unmet => ?_⟩
    · unfold settle
      rw [releaseGe_append_unmet (notGe v)]
      dsimp only
      rw [releaseTake_append_first on take alone, if_pos met]
      refine ⟨(releaseGe c v ws).1, _, v - w.amount, by rw [List.append_assoc]; rfl, fun r mem => ?_, fun _ => rfl⟩
      obtain early | last := List.mem_append.mp mem
      · exact mem_of_releaseGe early
      · exact mem_of_releaseGe_rest (mem_of_releaseGe last)
    · unfold settle
      rw [releaseGe_append_unmet (notGe v)]
      dsimp only
      rw [releaseTake_append_first on take alone, if_neg (Nat.not_le.mpr unmet)]
      dsimp only
      rw [releaseGe_append_unmet (notGe v)]
      refine ⟨fun r mem => ?_, List.mem_append_right _ (List.mem_singleton.mpr rfl)⟩
      obtain early | last := List.mem_append.mp mem
      · obtain ge | none_ := List.mem_append.mp early
        · exact mem_of_releaseGe ge
        · exact absurd none_ List.not_mem_nil
      · exact mem_of_releaseGe_rest (mem_of_releaseGe last)

end

/-! ### What a release tells a tile (09 R212) -/

/-- A step head goes on: one more wait of it is done. -/
def headGoesOn (x : Tile) : Tile := { x with ctx := x.ctx.map fun c => { c with headDone := c.headDone + 1, headWait := none } }

theorem wakeSource_tiles (code : Nat) (idle : Bool) (s : State) : (wakeSource code idle s).tiles = s.tiles := by
  rw [wakeSource_eq]

theorem tellOwner_tile {r : Release} {k : Nat} (own : r.1.owner = .tile k) (s : State) : getTile (tellOwner r s) k = headGoesOn (getTile s k) := by
  unfold tellOwner
  rw [own]
  show getTile (wakeSource 8 true _) k = _
  rw [getTile, wakeSource_tiles]
  exact getTile_modTile ..

theorem tellOwner_tile_ne {r : Release} {k : Nat} (other : r.1.owner ≠ .tile k) (s : State) : getTile (tellOwner r s) k = getTile s k := by
  unfold tellOwner
  split
  case h_1 => rfl
  case h_2 j own =>
    have apart : k ≠ j := fun e => other (own.trans (congrArg _ e.symm))
    rw [getTile, wakeSource_tiles]
    exact getTile_modTile_ne _ _ apart

theorem tellOwners_tile_ne {l : List Release} {k : Nat} (other : ∀ r ∈ l, r.1.owner ≠ .tile k) (s : State) :
    getTile (forEach tellOwner l s) k = getTile s k := by
  induction l generalizing s with
  | nil => rfl
  | cons r l ih =>
    exact (ih (fun x mem => other x (List.mem_cons_of_mem _ mem)) _).trans (tellOwner_tile_ne (other r List.mem_cons_self) s)

/-- A wake source that a watch of Hold may be leaves the tiles. -/
theorem getTile_ctrUpdate (c v : Nat) (ws : List Wait) (s : State) (k : Nat) : ∃ u, getTile u k = getTile s k ∧
    getTile (ctrUpdate c v ws s) k = getTile (forEach tellOwner (settle c v ws).1 u) k :=
  ⟨{ s with ctrs := updatedCtrs c v ws s.ctrs }, rfl, whenS_keeps (fun u => getTile u k) (fun _ => congrArg (tabGetD Tile.reset k) (wakeSource_tiles ..)) _ _⟩

section
variable {s : State} {k : Nat} {w : Wait} (own : w.owner = .tile k) (fresh : ∀ x ∈ s.ctrs.waits, x.owner ≠ .tile k)
  (first : w.take = true → headTaker w.ctr s.ctrs.waits = none)

section
include own fresh first

/-- A tile's wait that its counter meets as it arrives is released at once, and told so once. -/
theorem arriveWait_met (met : w.amount ≤ (ctrVal s w.ctr).toNat) : getTile (arriveWait w s) k = headGoesOn (getTile s k) ∧
    (w.take = true → (ctrVal (arriveWait w s) w.ctr).toNat = (ctrVal s w.ctr).toNat - w.amount) := by
  obtain ⟨before, after, value, releases, others, left⟩ := (settle_append (v := (ctrVal s w.ctr).toNat) rfl first).1 met
  refine ⟨?_, fun take => (arriveWait_oneUpdate w s).val.trans (left take)⟩
  obtain ⟨u, same, e⟩ := getTile_ctrUpdate w.ctr (ctrVal s w.ctr).toNat (s.ctrs.waits ++ [w]) s k
  have elsewhere : ∀ r ∈ before ++ after, r.1.owner ≠ .tile k := fun r mem => fresh r.1 (others r mem)
  unfold arriveWait
  rw [e, releases, forEach_append]
  refine (tellOwners_tile_ne (fun r mem => elsewhere r (List.mem_append_right _ mem)) _).trans ?_
  rw [tellOwner_tile (r := (w, value)) own, tellOwners_tile_ne (fun r mem => elsewhere r (List.mem_append_left _ mem)), same]

end

include fresh first

/-- One that its counter does not meet is registered. -/
theorem arriveWait_unmet (unmet : (ctrVal s w.ctr).toNat < w.amount) : getTile (arriveWait w s) k = getTile s k ∧
    w ∈ (arriveWait w s).ctrs.waits := by
  obtain ⟨others, stays⟩ := (settle_append (v := (ctrVal s w.ctr).toNat) rfl first).2 unmet
  refine ⟨?_, (arriveWait_oneUpdate w s).waits ▸ stays⟩
  obtain ⟨u, same, e⟩ := getTile_ctrUpdate w.ctr (ctrVal s w.ctr).toNat (s.ctrs.waits ++ [w]) s k
  unfold arriveWait
  rw [e, tellOwners_tile_ne (fun r mem => fresh r.1 (others r mem)), same]

end

/-! ### STEP_HEAD_WAIT (07 R154) -/

section
variable {s : State} {t : Nat} {c : Ctx} {take : Bool} {slot amount : Nat} {w : Nat × Bool × Nat}

/-- The wait of a head, as it stands at its counter. -/
def waitOfHead (t : Nat) (w : Nat × Bool × Nat) : Wait := ⟨w.1, w.2.1, w.2.2, .tile t⟩

/-- The tile's head has asked for the wait `w`. -/
def headAsks (t : Nat) (w : Nat × Bool × Nat) (s : State) : State :=
  modTile t (fun x => { x with ctx := x.ctx.map fun y => { y with headWait := some w } }) s

theorem exec_stepHeadWait (ht : t < 32) (hc : (getTile s t).ctx = some c) (head : (getTile s t).phase = .head) (quiet : (getTile s t).qLoad = [])
    (free : c.headWait = none) (on : headWaitOn s c take slot amount = some w) (sound : waitAmountOk take amount = true)
    (whole : s.ctrs.broken.contains w.1 = false) :
    exec (.stepHeadWait t take slot amount) s = .next (schedule (arriveWait (waitOfHead t w) (headAsks t w s))) := by
  have there : tileOk t = true := decide_eq_true ht
  show execStepHeadWait t take slot amount s = _
  unfold execStepHeadWait
  rw [onUnit_next there]
  unfold headWait
  dsimp only
  rw [hc]
  dsimp only
  rw [if_neg (by simp [quiet]), head]
  dsimp only
  rw [if_neg (by simp [free]), if_neg (by simp [sound]), on]
  dsimp only
  unfold registerHead
  rw [if_neg (by rw [whole]; decide)]
  rfl

theorem headWaitOn_take (on : headWaitOn s c take slot amount = some w) : w.2.1 = take := by
  unfold headWaitOn at on
  split at on
  · nomatch on
  dsimp only at on
  split at on
  · obtain ⟨k, -, rfl⟩ := Option.map_eq_some_iff.mp on
    rfl
  · nomatch on

/-- A head's wait that is sound arrives at its counter, and is met there at once or registered. -/
theorem stepHeadWait_arrives (ht : t < 32) (hc : (getTile s t).ctx = some c) (head : (getTile s t).phase = .head) (quiet : (getTile s t).qLoad = [])
    (free : c.headWait = none) (on : headWaitOn s c take slot amount = some w) (sound : waitAmountOk take amount = true)
    (whole : s.ctrs.broken.contains w.1 = false) (fresh : ∀ x ∈ s.ctrs.waits, x.owner ≠ .tile t)
    (first : take = true → headTaker w.1 s.ctrs.waits = none) :
    ∃ u, exec (.stepHeadWait t take slot amount) s = .next (schedule u) ∧ (∀ j, j ≠ w.1 → ctrVal u j = ctrVal s j) ∧ u.mem = s.mem ∧
      (w.2.2 ≤ (ctrVal s w.1).toNat → (getTile u t).ctx = some { c with headDone := c.headDone + 1, headWait := none } ∧
        (take = true → (ctrVal u w.1).toNat = (ctrVal s w.1).toNat - w.2.2)) ∧
      ((ctrVal s w.1).toNat < w.2.2 → (getTile u t).ctx = some { c with headWait := some w } ∧ ⟨w.1, take, w.2.2, .tile t⟩ ∈ u.ctrs.waits) := by
  obtain rfl := headWaitOn_take on
  have asked : (getTile (headAsks t w s) t).ctx = some { c with headWait := some w } := by
    unfold headAsks
    rw [getTile_modTile, hc]
    rfl
  refine ⟨_, exec_stepHeadWait ht hc head quiet free on sound whole, (arriveWait_oneUpdate (waitOfHead t w) (headAsks t w s)).others,
    ctrUpdate_mem .., fun met => ?_, fun unmet => ?_⟩
  · obtain ⟨told, left⟩ := arriveWait_met (s := headAsks t w s) (w := waitOfHead t w) rfl fresh first met
    refine ⟨?_, left⟩
    rw [told]
    unfold headGoesOn
    rw [asked]
    rfl
  · obtain ⟨same, stays⟩ := arriveWait_unmet (s := headAsks t w s) (w := waitOfHead t w) fresh first unmet
    exact ⟨(congrArg Tile.ctx same).trans asked, stays⟩

end

/-! ### TILE_FRAME_SAVE_COMPLETE (12 R293) -/

section
variable {s : State} {t : Nat} {c : Ctx} {x : Run}

theorem withOverlay_run (y : Tile) (c : Ctx) : (withOverlay y c).run = c.run := by
  unfold withOverlay
  split
  · split <;> rfl
  · rfl

theorem withOverlay_logical (y : Tile) (c : Ctx) : (withOverlay y c).logical = c.logical := by
  unfold withOverlay
  split
  · split <;> rfl
  · rfl

/-- The run with the frame of the logical tile on `t`. -/
def framed (s : State) (t : Nat) (c : Ctx) (n : Nat) (y : Run) : Run :=
  { y with frames := tabPut c.logical (withOverlay (getTile s t) c) y.frames, frameBytes := tabPut c.logical (tileAreaSave s t n).1 y.frameBytes,
           framePoison := tabPut c.logical (tileAreaSave s t n).2 y.framePoison }

theorem saveFrame_eq (hc : (getTile s t).ctx = some c) (there : getRun? s c.run = some x) :
    saveFrame t s = clearTile t (modRun c.run (framed s t c (bundleOfRun s x).scratchBytes) s) := by
  unfold saveFrame
  rw [hc]
  dsimp only [Option.map_some]
  rw [withOverlay_run, withOverlay_logical, there]
  rfl

theorem exec_tileFrameSaveComplete (ht : t < 32) (hc : (getTile s t).ctx = some c) (saving : (getTile s t).phase = .saving) :
    exec (.tileFrameSaveComplete t) s = .next (fillTiles (schedule (beginTest t (checkPaused c.run (saveFrame t s))))) := by
  have there : tileOk t = true := decide_eq_true ht
  show execTileFrameSaveComplete t s = _
  unfold execTileFrameSaveComplete
  rw [onUnit_next there, hc]
  exact next_congr (if_pos saving)

theorem tileFrameSaveComplete_frees (ht : t < 32) (hc : (getTile s t).ctx = some c) (saving : (getTile s t).phase = .saving)
    (there : getRun? s c.run = some x) : ∃ u y,
    exec (.tileFrameSaveComplete t) s = .next (fillTiles (schedule (beginTest t (checkPaused c.run u)))) ∧
    (getTile u t).ctx = none ∧ (getTile u t).phase = .idle ∧ getRun? u c.run = some y ∧ tabGet? c.logical y.frames = some (withOverlay (getTile s t) c) ∧
    tabGet? c.logical y.frameBytes = some (tileAreaSave s t (bundleOfRun s x).scratchBytes).1 ∧
    tabGet? c.logical y.framePoison = some (tileAreaSave s t (bundleOfRun s x).scratchBytes).2 ∧
    y.state = x.state ∧ y.place = x.place ∧ (∀ k, k ≠ t → getTile u k = getTile s k) ∧ u = { s with tiles := u.tiles, runs := u.runs } := by
  refine ⟨_, framed s t c (bundleOfRun s x).scratchBytes x, exec_tileFrameSaveComplete ht hc saving, ?_⟩
  rw [saveFrame_eq hc there]
  refine ⟨congrArg Tile.ctx (getTile_modTile ..), congrArg Tile.phase (getTile_modTile ..), getRun?_modRun (framed s t c _) there,
    tabGet?_tabPut_same .., tabGet?_tabPut_same .., tabGet?_tabPut_same .., rfl, rfl, fun k other => ?_, ?_⟩
  · exact (getTile_modTile_ne _ _ other).trans (congrArg (tabGetD Tile.reset k) (modRun_tiles ..))
  · rw [modRun_eq]
    rfl

end

/-! ### RUN_RESUME (12 R295) -/

section
variable {s : State} {run : Nat} {p bs : Tab Nat}

/-- The run as it goes on. -/
def resumedRun (p : Tab Nat) (x : Run) : Run := { x with state := .running, place := p, resuming := false }

/-- What a resume leaves before the free tiles are filled. -/
def resumedState (run : Nat) (p bs : Tab Nat) (s : State) : State :=
  countSwitch (runTenant s run) (match getRun? s run with
    | some x => if x.resuming then x.decidedAt else now s
    | none => now s) (loadBasins run bs (modRun run (resumedRun p) s))

theorem exec_runResume (plan : resumePlan s run = some (p, bs)) : exec (.runResume run true []) s = .next (schedule (endRun run [stDeviceFault] s)) ∧
    exec (.runResume run false []) s = .next (schedule (fillTiles (resumedState run p bs s))) := by
  constructor
  · show execRunResume run true [] s = _
    unfold execRunResume
    rw [plan]
    rfl
  · show execRunResume run false [] s = _
    unfold execRunResume
    rw [plan]
    rfl

theorem run_of_resumePlan (plan : resumePlan s run = some (p, bs)) : ∃ x, getRun? s run = some x := by
  unfold resumePlan at plan
  split at plan
  · nomatch plan
  · exact ⟨_, ‹_›⟩

/-- The run with its basin areas at these places. -/
def basinsBack (bs : Tab Nat) (y : Run) : Run :=
  { y with basinAt := bs, frameBytes := y.frameBytes.filter (fun e => decide (e.1 < 32)), framePoison := y.framePoison.filter (fun e => decide (e.1 < 32)) }

theorem forEach_memOnly {α : Type} {f : α → State → State} (hf : ∀ a u, ∃ m, f a u = { u with mem := m }) (l : List α) (s : State) :
    ∃ m, forEach f l s = { s with mem := m } := by
  induction l generalizing s with
  | nil => exact ⟨s.mem, rfl⟩
  | cons a l ih =>
    obtain ⟨m, first⟩ := hf a s
    obtain ⟨n, rest⟩ := ih (f a s)
    exact ⟨n, rest.trans (by rw [first])⟩

theorem setArea_memOnly (space inst lo hi : Nat) (cells : List (Nat × Byte)) (poison : List Nat) (s : State) :
    ∃ m, setArea space inst lo hi cells poison s = { s with mem := m } := by
  unfold setArea setZ
  dsimp only
  split <;> exact ⟨_, rfl⟩

/-- The areas that basin frames are written back to change memory alone. -/
theorem loadBasins_eq {x : Run} (there : getRun? s run = some x) : ∃ m, loadBasins run bs s = modRun run (basinsBack bs) { s with mem := m } := by
  unfold loadBasins
  rw [there]
  dsimp only
  refine Exists.imp (fun m => congrArg _) (forEach_memOnly (fun e u => ?_) bs s)
  split
  · exact setArea_memOnly ..
  · exact ⟨u.mem, rfl⟩

theorem runResume_goes (plan : resumePlan s run = some (p, bs)) : ∃ u y, exec (.runResume run false []) s = .next (schedule (fillTiles u)) ∧
    getRun? u run = some y ∧ y.state = .running ∧ y.place = p ∧ y.basinAt = bs ∧ y.resuming = false ∧ (∀ k, k ≠ run → getRun? u k = getRun? s k) ∧
    u = { s with runs := u.runs, fns := u.fns, mem := u.mem } := by
  obtain ⟨x, there⟩ := run_of_resumePlan plan
  have goes : getRun? (modRun run (resumedRun p) s) run = some (resumedRun p x) := getRun?_modRun _ there
  obtain ⟨m, eq⟩ := loadBasins_eq (bs := bs) goes
  refine ⟨_, basinsBack bs (resumedRun p x), (exec_runResume plan).2, ?_⟩
  unfold resumedState
  rw [eq]
  refine ⟨(getRun?_modRun _ (show getRun? { modRun run (resumedRun p) s with mem := m } run = some (resumedRun p x) from goes)), rfl, rfl, rfl, rfl, fun k other => ?_, ?_⟩
  · exact (getRun?_modRun_ne _ _ other).trans (getRun?_modRun_ne _ _ other)
  · rw [modRun_eq, modRun_eq]
    rfl

end

end Sys2Proof.Machine

/-! COMMIT (07 R154 to R156): what a step without effects leaves at its boundary, the last one of a logical tile, and the pause of
its run. -/

namespace Sys2Proof.Machine

/-! ### What stands while a run ends or is paused -/

section
variable {s : State} {t r : Nat}

theorem forEach_holds {α : Type} {P : State → Prop} {f : α → State → State} (hf : ∀ a u, P u → P (f a u)) (l : List α) {u : State} (hu : P u) :
    P (forEach f l u) := by
  induction l generalizing u with
  | nil => exact hu
  | cons a l ih => exact ih (hf a u hu)

theorem pauseDone_tiles (T : Nat) (s : State) : (pauseDone T s).tiles = s.tiles := by
  refine forEach_keeps State.tiles (fun h u => ?_) ..
  split
  · dsimp only
    split <;> rfl
  · rfl

theorem pauseDone_mem (T : Nat) (s : State) : (pauseDone T s).mem = s.mem := by
  refine forEach_keeps State.mem (fun h u => ?_) ..
  split
  · dsimp only
    split <;> rfl
  · rfl

theorem withdrawAll_mem (q : Wait → Bool) (s : State) : (withdrawAll q s).mem = s.mem :=
  forEach_keeps State.mem (fun k t => ctrUpdate_mem k _ _ t) ..

/-- A tile that no logical tile is on has no head to go on. -/
theorem headGoesOn_free {x : Tile} (free : x.ctx = none) : headGoesOn x = x := by
  unfold headGoesOn
  rw [free]
  exact congrArg (fun c => { x with ctx := c }) free.symm

theorem tellOwner_free (a : Release) (free : (getTile s t).ctx = none) : getTile (tellOwner a s) t = getTile s t := by
  by_cases own : a.1.owner = .tile t
  · rw [tellOwner_tile own, headGoesOn_free free]
  · exact tellOwner_tile_ne own s

theorem withdrawAll_free (q : Wait → Bool) (free : (getTile s t).ctx = none) : getTile (withdrawAll q s) t = getTile s t := by
  refine forEach_holds (P := fun u => getTile u t = getTile s t) (fun k u same => ?_) _ rfl
  obtain ⟨v, e, upd⟩ := getTile_ctrUpdate k (ctrVal u k).toNat u.ctrs.waits u t
  rw [upd]
  refine forEach_holds (P := fun u => getTile u t = getTile s t) (fun a w same => ?_) _ (e.trans same)
  rw [tellOwner_free a ((congrArg Tile.ctx same).trans free), same]

/-- The end of a run leaves a tile that no logical tile is on. -/
theorem endRun_free (outs : List Nat) (free : (getTile s t).ctx = none) : getTile (endRun r outs s) t = getTile s t := by
  unfold endRun
  split
  · rfl
  split
  · rfl
  · rw [getTile, pauseDone_tiles]
    refine forEach_holds (P := fun u => getTile u t = getTile s t) (fun k u same => ?_) _ ?_
    · split
      next held =>
        have apart : t ≠ k := by
          rintro rfl
          rw [same, free] at held
          nomatch held
        exact (getTile_modTile_ne _ _ apart).trans same
      · exact same
    · have same (g : Run → Run) : getTile (modRun r g s) t = getTile s t := congrArg (tabGetD Tile.reset t) (modRun_tiles ..)
      exact (withdrawAll_free _ ((congrArg Tile.ctx (same _)).trans free)).trans (same _)

theorem endRun_mem (outs : List Nat) : (endRun r outs s).mem = s.mem := by
  unfold endRun
  split
  · rfl
  split
  · rfl
  · rw [pauseDone_mem]
    refine (forEach_keeps State.mem (fun k u => ?_) ..).trans ((withdrawAll_mem ..).trans (modRun_mem ..))
    split <;> rfl

theorem saveBasins_tiles : (saveBasins r s).tiles = s.tiles := by
  unfold saveBasins
  split
  · rfl
  · exact (modRun_tiles ..).trans (forEach_keeps State.tiles (fun _ u => modRun_tiles ..) ..)

theorem saveBasins_mem : (saveBasins r s).mem = s.mem := by
  unfold saveBasins
  split
  · rfl
  · exact (modRun_mem ..).trans (forEach_keeps State.mem (fun _ u => modRun_mem ..) ..)

theorem checkPaused_tiles : (checkPaused r s).tiles = s.tiles := by
  unfold checkPaused
  split
  · rfl
  split
  · exact (pauseDone_tiles ..).trans ((modFn_tiles ..).trans ((modRun_tiles ..).trans saveBasins_tiles))
  · rfl

theorem checkPaused_mem : (checkPaused r s).mem = s.mem := by
  unfold checkPaused
  split
  · rfl
  split
  · exact (pauseDone_mem ..).trans ((modFn_mem ..).trans ((modRun_mem ..).trans saveBasins_mem))
  · rfl

/-- The logical tiles of a run that have made their last commit. -/
def runFinished (r : Nat) (s : State) : Option (List Nat) := (getRun? s r).map (·.finished)

theorem runFinished_of_runs {u : State} (e : u.runs = s.runs) : runFinished r u = runFinished r s := by
  unfold runFinished getRun?
  rw [e]

theorem runFinished_modRun {q : Nat} {g : Run → Run} (keep : ∀ x, (g x).finished = x.finished) (s : State) :
    runFinished r (modRun q g s) = runFinished r s := by
  unfold runFinished
  by_cases same : r = q
  · subst same
    cases there : getRun? s r with
    | none => rw [modRun_absent there, there]
    | some x =>
      rw [getRun?_modRun g there]
      exact congrArg some (keep x)
  · rw [getRun?_modRun_ne g s same]

theorem endRun_finished (q : Nat) (outs : List Nat) (s : State) : runFinished r (endRun q outs s) = runFinished r s := by
  unfold endRun
  split
  · rfl
  split
  · rfl
  · refine (runFinished_of_runs (pauseDone_runs ..)).trans ?_
    refine (runFinished_of_runs (forEach_keeps State.runs (fun k u => ?_) ..)).trans ?_
    · split <;> rfl
    · refine (runFinished_of_runs (withdrawAll_runs ..)).trans (runFinished_modRun ?_ s)
      exact fun _ => rfl

theorem saveBasins_finished (q : Nat) (s : State) : runFinished r (saveBasins q s) = runFinished r s := by
  unfold saveBasins
  split
  · rfl
  · refine (runFinished_modRun ?_ _).trans (forEach_keeps (runFinished r) (fun _ u => runFinished_modRun ?_ u) ..)
    · exact fun _ => rfl
    · exact fun _ => rfl

theorem checkPaused_finished (q : Nat) (s : State) : runFinished r (checkPaused q s) = runFinished r s := by
  unfold checkPaused
  split
  · rfl
  split
  · refine (runFinished_of_runs (pauseDone_runs ..)).trans ((runFinished_of_runs (modFn_runs ..)).trans ?_)
    refine (runFinished_modRun ?_ _).trans (saveBasins_finished ..)
    exact fun _ => rfl
  · rfl

end

/-! ### The boundary that a commit brings (07 R156) -/

section
variable {s : State} {t m : Nat} {c : Ctx} {x : Run}

/-- The step queued no effect, met no poison and left neither statistics nor counts. -/
def Quiet (x : Tile) : Prop := x.outbound = [] ∧ x.poisoned = false ∧ x.statsPend = [] ∧ x.qPend = []

/-- The tile and its run's outcomes at the boundary of a step without effects. -/
def atHead (t m : Nat) (c : Ctx) (s : State) : State :=
  let u := modTile t (addConflicts m) (dropMover (commitMover t) s)
  stepHistory t c false (modTile t (boundary (turned u c)) (landStats t u))

theorem exec_commit (ht : t < 32) (hb : bodyCtx s t = some c) (committing : (getTile s t).committing = true) (complete : allComplete (getTile s t) = true)
    (quiet : Quiet (getTile s t)) (there : getRun? s c.run = some x) (goes : x.cancelled = false) :
    exec (.commit t m) s = .next (schedule (fillTiles (if (getTile s t).lastStep then finishLogical t c (atHead t m c s) else
      atBoundary t ((getTile (atHead t m c s) t).ctx.getD c) (atHead t m c s)))) := by
  obtain ⟨noEffect, clean, -, -⟩ := quiet
  have tileThere : tileOk t = true := decide_eq_true ht
  have none_ : storePhys s t c = [] := by
    unfold storePhys
    rw [noEffect]
    rfl
  have d : (getTile (modTile t (addConflicts m) (dropMover (commitMover t) s)) t).ctx = some c := by
    rw [getTile_modTile]
    exact ctx_of_bodyCtx hb
  show execCommit t s m = _
  unfold execCommit
  dsimp only
  rw [onUnit_next tileThere, hb]
  dsimp only
  rw [if_neg (by simp [committing, complete]), there, if_neg (by simp [goes]), none_, noEffect, clean]
  unfold viaGap
  dsimp only
  rw [if_neg (by simp [blksWait])]
  unfold releaseAll
  rw [d]
  dsimp only
  rw [if_neg (by simp)]
  rfl

theorem stepHistory_quiet (calm : c.attempt = 0) (home : c.moved = 0) (u : State) : stepHistory t c false u = noteRun c.run [] u := by
  unfold stepHistory
  simp [whenS, calm, home]

theorem landStats_none (u : State) (none_ : (getTile u t).statsPend = []) : (landStats t u).mem = u.mem ∧ (landStats t u).runs = u.runs ∧
    (landStats t u).test = u.test ∧ (getTile (landStats t u) t).stepCount = (getTile u t).stepCount ∧
    (getTile (landStats t u) t).conflict = (getTile u t).conflict := by
  unfold landStats
  dsimp only
  rw [none_, getTile_modTile]
  exact ⟨rfl, rfl, rfl, rfl, rfl⟩

/-- The logical tile's context at the boundary of its step. -/
def headCtx (c : Ctx) (x : Run) : Ctx :=
  { c with headDone := 0, headIssued := 0, headWait := none, attempt := 0, moved := 0, lastFail := none, turnout := x.place }

/-- The tile stands at a step head, its step counted, with no event and no V register left. -/
structure StepMade (s u : State) (t m : Nat) : Prop where
  count : (getTile u t).stepCount = (getTile s t).stepCount + 1
  ev : (getTile u t).ev = []
  v : (getTile u t).v = []
  conflict : (getTile u t).conflict = (getTile s t).conflict + BitVec.ofNat 64 m
  mem : u.mem = s.mem

theorem getRun?_of_runs {u v : State} (e : u.runs = v.runs) (r : Nat) : getRun? u r = getRun? v r := congrArg (tabGet? r) e

/-- Without outcomes to note a run stays as it is. -/
theorem getRun?_noteRun_nil (r k : Nat) (u : State) : getRun? (noteRun r [] u) k = getRun? u k := by
  unfold noteRun
  by_cases same : k = r
  · subst same
    cases run : getRun? u k with
    | none => rw [modRun_absent run, run]
    | some y =>
      rw [getRun?_modRun _ run]
      rfl
  · exact getRun?_modRun_ne _ _ same

section
variable (quiet : Quiet (getTile s t)) (calm : c.attempt = 0) (home : c.moved = 0)
include quiet calm home

theorem atHead_rest : (∀ k, getRun? (atHead t m c s) k = getRun? s k) ∧ (atHead t m c s).mem = s.mem ∧ (atHead t m c s).test = s.test := by
  obtain ⟨-, -, noStats, -⟩ := quiet
  obtain ⟨mem, runs, test, -⟩ := landStats_none (t := t) (modTile t (addConflicts m) (dropMover (commitMover t) s)) (by rw [getTile_modTile]; exact noStats)
  unfold atHead
  dsimp only
  rw [stepHistory_quiet calm home]
  refine ⟨fun k => (getRun?_noteRun_nil ..).trans (getRun?_of_runs runs k), ?_, ?_⟩
  · exact (noteRun_mem ..).trans mem
  · unfold noteRun
    rw [modRun_eq]
    exact test

theorem atHead_tile (there : getRun? s c.run = some x) : (getTile (atHead t m c s) t).ctx = some (headCtx c x) ∧
    (getTile (atHead t m c s) t).phase = .head ∧ StepMade s (atHead t m c s) t m := by
  obtain ⟨-, mem, -⟩ := atHead_rest (m := m) quiet calm home
  obtain ⟨-, -, noStats, -⟩ := quiet
  obtain ⟨-, -, -, count, conflict⟩ :=
    landStats_none (t := t) (modTile t (addConflicts m) (dropMover (commitMover t) s)) (by rw [getTile_modTile]; exact noStats)
  have tile : getTile (atHead t m c s) t = boundary (turned s c) (getTile (landStats t (modTile t (addConflicts m) (dropMover (commitMover t) s))) t) := by
    unfold atHead
    dsimp only
    rw [stepHistory_quiet calm home, getTile_noteRun, getTile_modTile]
    rfl
  rw [getTile_modTile] at count conflict
  refine ⟨?_, by rw [tile]; rfl, by rw [tile]; exact congrArg (· + 1) count, by rw [tile]; rfl, by rw [tile]; rfl, by rw [tile]; exact conflict, mem⟩
  rw [tile]
  unfold boundary turned headCtx
  rw [there]
  rfl

end

/-! ### The last commit of a logical tile, and a boundary that keeps it on its tile -/

theorem StepMade.of_tile {u v : State} (made : StepMade s u t m) (tile : getTile v t = getTile u t) (mem : v.mem = u.mem) : StepMade s v t m :=
  ⟨tile ▸ made.count, tile ▸ made.ev, tile ▸ made.v, tile ▸ made.conflict, mem.trans made.mem⟩

/-- The run after the last commit of the context's logical tile. -/
def lastMade (c : Ctx) (x : Run) : Run := { x with finished := setIns c.logical x.finished }

theorem finishLogical_leaves {u : State} {y : Run} (there : getRun? u c.run = some y) (made : StepMade s u t m) :
    StepMade s (finishLogical t c u) t m ∧ (getTile (finishLogical t c u) t).ctx = none ∧
    ∃ z, getRun? (finishLogical t c u) c.run = some z ∧ c.logical ∈ z.finished := by
  have live : getRun? (modRun c.run (lastMade c) (clearTile t u)) c.run = some (lastMade c y) := getRun?_modRun _ there
  have tile : getTile (modRun c.run (lastMade c) (clearTile t u)) t = getTile (clearTile t u) t := congrArg (tabGetD Tile.reset t) (modRun_tiles ..)
  have mem : (modRun c.run (lastMade c) (clearTile t u)).mem = u.mem := modRun_mem ..
  have made' : StepMade s (modRun c.run (lastMade c) (clearTile t u)) t m := by
    refine ⟨?_, ?_, ?_, ?_, mem.trans made.mem⟩ <;> rw [tile]
    · exact (congrArg Tile.stepCount (getTile_modTile ..)).trans made.count
    · exact congrArg Tile.ev (getTile_modTile ..)
    · exact congrArg Tile.v (getTile_modTile ..)
    · exact (congrArg Tile.conflict (getTile_modTile ..)).trans made.conflict
  have free : (getTile (modRun c.run (lastMade c) (clearTile t u)) t).ctx = none := by
    rw [tile]
    exact congrArg Tile.ctx (getTile_modTile ..)
  have has : runFinished c.run (modRun c.run (lastMade c) (clearTile t u)) = some (setIns c.logical y.finished) := by
    unfold runFinished
    rw [live]
    rfl
  have ends {v : State} (tile' : getTile v t = getTile (modRun c.run (lastMade c) (clearTile t u)) t)
      (mem' : v.mem = (modRun c.run (lastMade c) (clearTile t u)).mem)
      (fin : runFinished c.run v = runFinished c.run (modRun c.run (lastMade c) (clearTile t u))) :
      StepMade s v t m ∧ (getTile v t).ctx = none ∧ ∃ z, getRun? v c.run = some z ∧ c.logical ∈ z.finished := by
    refine ⟨made'.of_tile tile' mem', (congrArg Tile.ctx tile').trans free, ?_⟩
    obtain ⟨z, live', e⟩ := Option.map_eq_some_iff.mp (fin.trans has)
    exact ⟨z, live', e ▸ (mem_setIns ..).mpr (.inl rfl)⟩
  unfold finishLogical
  dsimp only
  rw [show getRun? (modRun c.run (fun x => { x with finished := setIns c.logical x.finished }) (clearTile t u)) c.run = some (lastMade c y) from live]
  dsimp only
  split
  · exact ends (endRun_free [] free) (endRun_mem []) (endRun_finished ..)
  · refine ends ((whenS_keeps (getTile · t) (fun u => congrArg (tabGetD Tile.reset t) (modFn_tiles ..)) ..).trans (congrArg (tabGetD Tile.reset t) checkPaused_tiles))
      ((whenS_keeps State.mem (fun u => modFn_mem ..) ..).trans checkPaused_mem) 
      ((whenS_keeps (runFinished c.run) (fun u => runFinished_of_runs (modFn_runs ..)) ..).trans (checkPaused_finished ..))

/-- A run that is being paused saves the tile's frame at the boundary; a logical tile that keeps its tile stands at the next head. -/
theorem atBoundary_stays {u : State} {d : Ctx} {y : Run} (there : getRun? u d.run = some y) (head : (getTile u t).phase = .head) (hd : (getTile u t).ctx = some d)
    (made : StepMade s u t m)
    (keeps : y.state = .pausing ∨ (tabGetD t d.logical y.place = t ∧ d.home = none ∧ testOf? u (.tile t) = none ∧ nextOnTile y t d.logical = none)) :
    StepMade s (atBoundary t d u) t m ∧ (getTile (atBoundary t d u) t).phase = (if y.state = .pausing then .saving else .head) ∧
    (getTile (atBoundary t d u) t).ctx = some d := by
  unfold atBoundary
  rw [there]
  dsimp only
  by_cases pausing : y.state = .pausing
  · rw [if_pos pausing, if_pos pausing]
    refine ⟨⟨?_, ?_, ?_, ?_, made.mem⟩, ?_, ?_⟩ <;> rw [getTile_modTile]
    · exact made.count
    · exact made.ev
    · exact made.v
    · exact made.conflict
    · exact hd
  · obtain ⟨own, noHome, noTest, alone⟩ := keeps.resolve_left pausing
    have untested : beginTest t u = u := by
      unfold beginTest
      rw [if_pos (.inl (by rw [noTest]; rfl))]
    have unshared : nextShared t d u = u := by
      unfold nextShared
      rw [there]
      dsimp only [Option.bind_some]
      rw [alone]
    rw [if_neg pausing, if_neg (by simp [own]), noHome]
    dsimp only
    rw [untested, unshared, if_neg pausing]
    exact ⟨made, head, hd⟩

end

/-! ### The statement -/

/-- Settles O41. A head's wait is `stepHeadWait_arrives`; a commit leaves `atHead`, and then its logical tile leaves or stays; the frame
saved and the run resumed are `tileFrameSaveComplete_frees` and `runResume_goes`. -/
theorem stepsEndAtTheirBoundary : Obligations.StepsEndAtTheirBoundary := by
  unfold Obligations.StepsEndAtTheirBoundary
  intro s t c ht hc
  refine ⟨fun take slot amount w head quiet free on sound whole fresh first =>
      stepHeadWait_arrives ht hc head quiet free on sound whole fresh first,
    fun x m body committing complete noEffect clean noStats noCounts calm home there goes keeps => ?commit,
    fun x n saving there hn => hn ▸ tileFrameSaveComplete_frees ht hc saving there,
    fun run p bs plan => ⟨(exec_runResume plan).1, runResume_goes plan⟩⟩
  have hb : bodyCtx s t = some c := by
    unfold bodyCtx
    rw [if_pos body, hc]
  have quiet : Quiet (getTile s t) := ⟨noEffect, clean, noStats, noCounts⟩
  obtain ⟨runs, -, test⟩ := atHead_rest (m := m) quiet calm home
  obtain ⟨ctx, head, made⟩ := atHead_tile (m := m) quiet calm home there
  refine ⟨_, exec_commit ht hb committing complete quiet there goes, ?_⟩
  cases last : (getTile s t).lastStep with
  | true =>
    obtain ⟨left, free, finished⟩ := finishLogical_leaves ((runs c.run).trans there) made
    exact ⟨left.count, left.ev, left.v, left.conflict, left.mem, fun _ => ⟨free, finished⟩, fun no => absurd no.symm Bool.false_ne_true⟩
  | false =>
    obtain ⟨stays, phase, same⟩ := atBoundary_stays (d := headCtx c x) ((runs c.run).trans there) head ctx made
      ((keeps.resolve_left (by simp [last])).imp_right fun ⟨own, noHome, noTest, alone⟩ =>
        ⟨own, noHome, by unfold testOf? at noTest ⊢; rw [test]; exact noTest, alone⟩)
    rw [ctx]
    exact ⟨stays.count, stays.ev, stays.v, stays.conflict, stays.mem, fun no => absurd no Bool.false_ne_true, fun _ => ⟨phase, same⟩⟩

end Sys2Proof.Machine

/-! A tile's own memories (02 R38; 12 R288): what a unit's operation reads is what it would read first, what it writes changes
memory alone, and what `finishT` leaves of an operation that kept to the tenant's windows (07 R161; 15 R361). -/

namespace Sys2Proof.Machine

/-! ### Reads of a zero-filled memory -/

theorem addOut_false (st : Nat) (a : Acc) : addOut st false a = a := rfl

/-- A block of a zero-filled memory, with whether it is poisoned. -/
def zBlk (s : State) (sp i o : Nat) : List Byte × Bool :=
  (getBytes (fun _ => 0) (zKey i o) 64 (zMem s sp).1, (zMem s sp).2.contains (zKey i o / 64))

/-- The mover writes what it is given, and has not ended. -/
def Plain (a : Acc) : Prop := a.ended = false ∧ a.mark = false

/-- A mover has read blocks of memory `sp`, the one of unit `i`, alone, and keeps of them what they hold. -/
structure Reading (sp i : Nat) (s : State) (a : Acc) : Prop where
  state : a.s = s
  outs : ∀ o ∈ a.outs, o = stDataPoisoned
  cache : ∀ o x, o % 64 = 0 → tabGet? (cacheKey sp i o) a.cache = some x → x = zBlk s sp i o
  plain : Plain a

section
variable {sp i : Nat} {s : State} {a : Acc}

theorem Reading.start (sp i : Nat) (s : State) : Reading sp i s (Acc.start 1 s) where
  state := rfl
  outs _ mem := absurd mem List.not_mem_nil
  cache _ _ _ mem := nomatch mem
  plain := ⟨rfl, rfl⟩

variable (zero : 3 ≤ sp)
include zero

theorem readRaced_zero (source i o : Nat) (s : State) :
    readRaced source sp i o s = (⟨(zBlk s sp i o).1, (zBlk s sp i o).2, false, false, false⟩, s) := by
  obtain ⟨n, rfl⟩ : ∃ n, sp = n + 3 := ⟨sp - 3, by omega⟩
  exact if_neg fun raced => by simp [racing] at raced

theorem Reading.rdBlk (reads : Reading sp i s a) {o : Nat} (aligned : o % 64 = 0) :
    (rdBlk sp i o a).1 = zBlk s sp i o ∧ Reading sp i s (rdBlk sp i o a).2 := by
  unfold Machine.rdBlk
  split
  next x cached => exact ⟨reads.cache o x aligned cached, reads⟩
  · dsimp only
    rw [if_neg (by omega), readRaced_zero zero, reads.state]
    simp only [addOut_false, Bool.not_false, Bool.and_true]
    have put : Reading sp i s { a with s := s, cache := tabPut (cacheKey sp i o) ((zBlk s sp i o).1, (zBlk s sp i o).2) a.cache } := by
      refine ⟨rfl, reads.outs, fun k x whole cached => ?_, reads.plain⟩
      by_cases same : cacheKey sp i k = cacheKey sp i o
      · have e : k = o := by
          unfold cacheKey at same
          omega
        subst e
        rw [tabGet?_tabPut_same] at cached
        exact (Option.some.inj cached).symm
      · rw [tabGet?_tabPut_ne same] at cached
        exact reads.cache k x whole cached
    refine ⟨by simp, ?_⟩
    unfold addOut
    split
    · exact ⟨put.state, fun x mem => (List.mem_append.mp mem).elim (put.outs x) List.mem_singleton.mp, put.cache, put.plain⟩
    · exact put

/-- What a read of the memory gives does not depend on what was read before. -/
theorem rdBytesGo_reading (fuel off len : Nat) : ∃ v, ∀ a, Reading sp i s a →
    (rdBytesGo sp i fuel off len a).1 = v ∧ Reading sp i s (rdBytesGo sp i fuel off len a).2 := by
  induction fuel generalizing off len with
  | zero => exact ⟨_, fun a reads => ⟨rfl, reads⟩⟩
  | succ fuel ih =>
    unfold rdBytesGo
    by_cases none_ : len = 0
    · exact ⟨_, fun a reads => by
        rw [if_pos none_]
        exact ⟨rfl, reads⟩⟩
    · obtain ⟨v, rest⟩ := ih (off + min len (64 - off % 64)) (len - min len (64 - off % 64))
      refine ⟨(sliceB (zBlk s sp i (off / 64 * 64)).1 (off % 64) (min len (64 - off % 64)) ++ v.1, (zBlk s sp i (off / 64 * 64)).2 || v.2), fun a reads => ?_⟩
      obtain ⟨blk, reads'⟩ := reads.rdBlk zero (o := off / 64 * 64) (by omega)
      obtain ⟨tail, reads''⟩ := rest _ reads'
      rw [if_neg none_]
      dsimp only
      rw [blk, tail]
      exact ⟨rfl, reads''⟩

theorem Reading.rdBytes (reads : Reading sp i s a) (off len : Nat) :
    (rdBytes sp i off len a).1 = (rdBytes sp i off len (Acc.start 1 s)).1 ∧ Reading sp i s (rdBytes sp i off len a).2 := by
  obtain ⟨v, read⟩ := rdBytesGo_reading (s := s) (i := i) zero (len / 64 + 2) off len
  exact ⟨(read a reads).1.trans (read _ (.start sp i s)).1.symm, (read a reads).2⟩

end

/-! ### Writes of a zero-filled memory -/

/-- From `a` to `b` a mover has written memory alone. -/
structure Wrote (a b : Acc) : Prop where
  outs : b.outs = a.outs
  plain : Plain b
  state : ∃ m, b.s = { a.s with mem := m }

theorem Wrote.trans {a b c : Acc} (p : Wrote a b) (q : Wrote b c) : Wrote a c := by
  obtain ⟨m, hm⟩ := p.state
  obtain ⟨n, hn⟩ := q.state
  exact ⟨q.outs.trans p.outs, q.plain, n, by rw [hn, hm]⟩

theorem Wrote.refl {a : Acc} (plain : Plain a) : Wrote a a := ⟨rfl, plain, a.s.mem, rfl⟩

section
variable {sp i : Nat} {a b : Acc} (zero : 3 ≤ sp)
include zero

theorem writeBlk_memOnly (fn i o : Nat) (data : List Byte) (mask : Nat) (poison : Bool) (source : Nat) (s : State) :
    (∃ m, writeBlk fn sp i o data mask poison source s = { s with mem := m }) ∧
    writeBlk fn sp i o data mask poison source s = writeBlk 0 sp i o data mask poison 1 s := by
  obtain ⟨n, rfl⟩ : ∃ n, sp = n + 3 := ⟨sp - 3, by omega⟩
  refine ⟨?_, rfl⟩
  show ∃ m, setZ (n + 3) _ _ s = _
  unfold setZ
  split <;> exact ⟨_, rfl⟩

theorem wrBlk_plain (plain : Plain a) (o : Nat) (data : List Byte) (mask : Nat) (poison : Bool) : wrBlk sp i o data mask poison a =
    { a with s := writeBlk 0 sp i o data mask poison 1 a.s, cache := tabDel (cacheKey sp i o) a.cache } := by
  obtain ⟨goes, unmarked⟩ := plain
  have other : (sp == 2) = false := by simp; omega
  have lands : unreachable a.s sp o = false := by
    obtain ⟨n, rfl⟩ : ∃ n, sp = n + 3 := ⟨sp - 3, by omega⟩
    rfl
  unfold wrBlk outside markedBlk
  rw [other, if_neg (by simp [goes]), if_neg (by simp), if_neg (by simp), if_neg (by omega)]
  unfold putBlk
  rw [lands, addOut_false, unmarked, Bool.or_false, (writeBlk_memOnly zero ..).2]

theorem wrBlk_wrote (plain : Plain a) (o : Nat) (data : List Byte) (mask : Nat) (poison : Bool) : Wrote a (wrBlk sp i o data mask poison a) := by
  rw [wrBlk_plain zero plain]
  exact ⟨rfl, plain, (writeBlk_memOnly zero ..).1⟩

/-- What a write leaves is a matter of the state alone. -/
theorem wrBlk_state (pa : Plain a) (pb : Plain b) (e : a.s = b.s) (o : Nat) (data : List Byte) (mask : Nat) (poison : Bool) :
    (wrBlk sp i o data mask poison a).s = (wrBlk sp i o data mask poison b).s := by
  rw [wrBlk_plain zero pa, wrBlk_plain zero pb, e]

theorem wrBytesGo_wrote (fuel : Nat) {a : Acc} (plain : Plain a) (off : Nat) (bs : List Byte) (p : Bool) :
    Wrote a (wrBytesGo sp i fuel off bs p a) := by
  induction fuel generalizing off bs a with
  | zero => exact .refl plain
  | succ fuel ih =>
    unfold wrBytesGo
    split
    · exact .refl plain
    · have first := wrBlk_wrote (i := i) zero plain (off / 64 * 64) (rep (off % 64) 0 ++ bs.take (min bs.length (64 - off % 64)))
        ((2 ^ min bs.length (64 - off % 64) - 1) * 2 ^ (off % 64)) p
      exact first.trans (ih first.plain ..)

theorem wrBytesGo_state (fuel : Nat) {a b : Acc} (pa : Plain a) (pb : Plain b) (e : a.s = b.s) (off : Nat) (bs : List Byte) (p : Bool) :
    (wrBytesGo sp i fuel off bs p a).s = (wrBytesGo sp i fuel off bs p b).s := by
  induction fuel generalizing off bs a b with
  | zero => exact e
  | succ fuel ih =>
    unfold wrBytesGo
    split
    · exact e
    · exact ih (wrBlk_wrote zero pa ..).plain (wrBlk_wrote zero pb ..).plain (wrBlk_state zero pa pb e ..) ..

theorem wrBytes_wrote (plain : Plain a) (off : Nat) (bs : List Byte) (p : Bool) : Wrote a (wrBytes sp i off bs p a) := wrBytesGo_wrote zero _ plain ..

theorem wrBytes_state (pa : Plain a) (pb : Plain b) (e : a.s = b.s) (off : Nat) (bs : List Byte) (p : Bool) :
    (wrBytes sp i off bs p a).s = (wrBytes sp i off bs p b).s := wrBytesGo_state zero _ pa pb e ..

end

/-! ### A unit's operation on a tile -/

/-- The operation of tile `t` for context `c` has kept to the tenant's windows, no check of it has failed, and memory stands at `m`. -/
structure TAt (s : State) (t : Nat) (c : Ctx) (m : Memories) (x : TAcc) : Prop where
  who : x.t = t ∧ x.run = c.run ∧ x.tenant = runTenant s c.run
  good : x.bad = false ∧ x.fail = none
  state : x.a.s = { s with mem := m }
  outs : stSharedPoisoned ∉ x.a.outs
  plain : Plain x.a

/-- The operation has only read memory `sp` of its tile. -/
structure TReads (sp : Nat) (s : State) (t : Nat) (c : Ctx) (x : TAcc) : Prop where
  who : x.t = t ∧ x.run = c.run ∧ x.tenant = runTenant s c.run
  good : x.bad = false ∧ x.fail = none
  acc : Reading sp t s x.a

section
variable {sp : Nat} {s : State} {t : Nat} {c : Ctx} {m : Memories} {x : TAcc}

theorem TReads.start (sp : Nat) (s : State) (t : Nat) (c : Ctx) : TReads sp s t c (TAcc.start s t c) :=
  ⟨⟨rfl, rfl, rfl⟩, ⟨rfl, rfl⟩, .start sp t s⟩

theorem TReads.at (reads : TReads sp s t c x) : TAt s t c s.mem x :=
  ⟨reads.who, reads.good, reads.acc.state, fun met => absurd (reads.acc.outs _ met) (by decide), reads.acc.plain⟩

/-- A read that the tenant may make gives what it would give first. -/
theorem TReads.tRead (reads : TReads sp s t c x) (zero : 3 ≤ sp) {off len : Nat} (mine : tileMine s t c sp off len) :
    (tRead sp off len x).1 = tileBytes s t c sp off len ∧ TReads sp s t c (tRead sp off len x).2 := by
  obtain ⟨⟨rfl, run, tenant⟩, good, acc⟩ := reads
  obtain ⟨value, acc'⟩ := acc.rdBytes zero off len
  have first : tileBytes s x.t c sp off len = (rdBytes sp x.t off len (Acc.start 1 s)).1.1 := by
    unfold tileBytes Machine.tRead
    exact congrArg Prod.fst (if_pos mine)
  have inside : memMine x.a.s x.tenant sp x.t off len = true := by
    rw [acc.state, tenant]
    exact mine
  unfold Machine.tRead
  rw [if_pos inside, first]
  exact ⟨congrArg Prod.fst value, ⟨rfl, run, tenant⟩, good, acc'⟩

/-- A write that the tenant may make changes memory as it would by itself. -/
theorem TAt.tWrite (at_ : TAt s t c m x) (zero : 3 ≤ sp) {off : Nat} {bs : List Byte} (p : Bool) (mine : tileMine s t c sp off bs.length) :
    TAt s t c (wrBytes sp t off bs p (Acc.start 1 { s with mem := m })).s.mem (tWrite sp off bs p x) := by
  obtain ⟨⟨rfl, run, tenant⟩, good, state, outs, plain⟩ := at_
  have wrote := wrBytes_wrote (i := x.t) zero plain off bs p
  have same := wrBytes_state (i := x.t) zero plain (b := Acc.start 1 { s with mem := m }) ⟨rfl, rfl⟩ state off bs p
  obtain ⟨n, moved⟩ := wrote.state
  have inside : memMine x.a.s x.tenant sp x.t off bs.length = true := by
    rw [state, tenant]
    exact mine
  unfold Machine.tWrite
  rw [if_pos inside]
  refine ⟨⟨rfl, run, tenant⟩, good, ?_, wrote.outs.symm ▸ outs, wrote.plain⟩
  show (wrBytes sp x.t off bs p x.a).s = _
  rw [← same, moved, state]

/-- The machine as a unit's operation leaves it, before the unit's own books: memory at `m`, poison that it met marked (10 R235). -/
def unitRan (t : Nat) (c : Ctx) (m : Memories) (poison : Bool) (outs : List Nat) (s : State) : State :=
  noteRun c.run outs (modTile t (fun y => { y with poisoned := y.poisoned || poison }) { s with mem := m })

theorem TAt.finishT (at_ : TAt s t c m x) (k : State → State) : ∃ poison outs, Machine.finishT x k = k (unitRan t c m poison outs s) := by
  obtain ⟨⟨rfl, run, -⟩, ⟨inside, passed⟩, state, outs, -⟩ := at_
  have clean : x.a.outs.contains stSharedPoisoned = false :=
    Bool.eq_false_iff.mpr fun met => outs (List.contains_iff_mem.mp met)
  unfold Machine.finishT
  dsimp only
  rw [inside, clean, passed, state, run]
  exact ⟨_, _, rfl⟩

section
variable (m : Memories) (poison : Bool) (outs : List Nat)

theorem unitRan_tile : getTile (unitRan t c m poison outs s) t = { getTile s t with poisoned := (getTile s t).poisoned || poison } := by
  unfold unitRan
  rw [getTile_noteRun, getTile_modTile]
  rfl

theorem unitRan_tile_ne {k : Nat} (other : k ≠ t) : getTile (unitRan t c m poison outs s) k = getTile s k := by
  unfold unitRan
  rw [getTile_noteRun, getTile_modTile_ne _ _ other]
  rfl

theorem unitRan_mem : (unitRan t c m poison outs s).mem = m := noteRun_mem ..

theorem unitRan_work {s0 : State} (work : WorkOnly s0 s) : WorkOnly s0 (unitRan t c m poison outs s) := by
  have moved : WorkOnly s0 { s with mem := m } := by
    rw [work]
    rfl
  exact noteRun_work _ _ (modTile_work _ _ _ moved)

/-- The unit's own books change its tile alone. -/
theorem unitRan_books {s0 : State} (work : WorkOnly s0 s) (others : ∀ k, k ≠ t → getTile s k = getTile s0 k) (g : Tile → Tile) :
    TileWork s0 (modTile t g (unitRan t c m poison outs s)) t :=
  ⟨modTile_work _ _ _ (unitRan_work _ _ _ work),
    fun k other => (getTile_modTile_ne _ _ other).trans ((unitRan_tile_ne _ _ _ other).trans (others k other))⟩

end

end

end Sys2Proof.Machine

/-! The channel unit (02 R40 to R44; 03 R55 to R60): vector operations, reductions, SOFTMAX, NORMALISATION and QUANTISE of a unit
whose operands lie in the tenant's memory and whose checks all pass. -/

namespace Sys2Proof.Machine

section
variable {s : State} {t : Nat} {c : Ctx} {m : Memories} {x : TAcc}

/-! ### Vectors -/

/-- A vector read that the tenant may make gives the vector as the operation finds it. -/
theorem TReads.rdVec (reads : TReads 4 s t c x) {bf16 : Bool} {off n : Nat} (mine : tileMine s t c 4 off (n * vecB bf16)) :
    (Machine.rdVec bf16 off n x).1 = tileVec s t c bf16 off n ∧ TReads 4 s t c (Machine.rdVec bf16 off n x).2 := by
  obtain ⟨value, rest⟩ := TReads.tRead reads (by decide) mine
  refine ⟨?_, rest⟩
  show (unpackBytes (if bf16 then 16 else 32) (Machine.tRead 4 off (n * vecB bf16) x).1).map _ = _
  rw [value]
  rfl

/-- An operand that the function does not read is empty. -/
theorem TReads.rdVecIf (reads : TReads 4 s t c x) {p : Prop} [Decidable p] {bf16 : Bool} {off n : Nat} (mine : p → tileMine s t c 4 off (n * vecB bf16)) :
    (if p then Machine.rdVec bf16 off n x else ([], x)).1 = (if p then tileVec s t c bf16 off n else []) ∧
    TReads 4 s t c (if p then Machine.rdVec bf16 off n x else ([], x)).2 := by
  by_cases used : p
  · rw [if_pos used, if_pos used]
    exact TReads.rdVec reads (mine used)
  · rw [if_neg used, if_neg used]
    exact ⟨rfl, reads⟩

theorem packVals_cons {bits : Nat} (wide : bits ≠ 4) (v : Nat) (l : List Nat) : packVals bits (v :: l) = toLE (bits / 8) v ++ packVals bits l := by
  cases l
  · exact if_neg wide
  · exact if_neg wide

theorem length_packVals {bits : Nat} (wide : bits ≠ 4) (l : List Nat) : (packVals bits l).length = l.length * (bits / 8) := by
  induction l with
  | nil => exact (Nat.zero_mul _).symm
  | cons v l ih => rw [packVals_cons wide, List.length_append, toLE_length, ih, List.length_cons, Nat.add_mul, Nat.one_mul, Nat.add_comm]

theorem length_packVec (bf16 : Bool) (y : List Nat) : (packVec bf16 y).length = y.length := by
  unfold packVec
  split
  · exact List.length_map ..
  · rfl

theorem TAt.noteFail_none (at_ : TAt s t c m x) : TAt s t c m (noteFail none x) := by
  obtain ⟨who, ⟨inside, passed⟩, state, outs, plain⟩ := at_
  refine ⟨who, ⟨inside, ?_⟩, state, outs, plain⟩
  show x.fail.or none = none
  rw [passed]
  rfl

/-- The memory with a vector result. -/
def vecPut (bo : Bool) (t dst : Nat) (y : List Nat) (s : State) : Memories := (tilePut 4 t dst (packVals (8 * vecB bo) (packVec bo y)) s).mem

theorem TAt.wrVec (at_ : TAt s t c s.mem x) {bo : Bool} {bounds : Bounds} {dst : Nat} {y : List Nat} (mine : tileMine s t c 4 dst (y.length * vecB bo))
    (inside : vecInside bounds bo y) : TAt s t c (vecPut bo t dst y s) (wrVec bo bounds dst y x) := by
  have bits : (if bo then 16 else 32) = 8 * vecB bo := by cases bo <;> rfl
  have size : (packVals (8 * vecB bo) (packVec bo y)).length = y.length * vecB bo := by
    rw [length_packVals (by cases bo <;> decide), length_packVec]
    cases bo <;> rfl
  unfold Machine.wrVec
  dsimp only
  rw [show boundsFail bounds 0 ((packVec bo y).map fun v => (v, if bo then decB16 v else dec32 v)) = none from inside, bits]
  exact (at_.tWrite (sp := 4) (by decide) false (size.symm ▸ mine)).noteFail_none

/-! ### The unit's books -/

theorem TileWork.modTile {u : State} (work : TileWork s u t) (g : Tile → Tile) : TileWork s (modTile t g u) t :=
  ⟨modTile_work _ _ _ work.1, fun k other => (getTile_modTile_ne _ _ other).trans (work.2 k other)⟩

/-- The front operation of the channel slot's queue has been executed. -/
theorem TAt.channelDone (at_ : TAt s t c m x) : (getTile (Machine.finishT x (doneChannel t)) t).qChannel = markFront (getTile s t).qChannel ∧
    (Machine.finishT x (doneChannel t)).mem = m ∧ TileWork s (Machine.finishT x (doneChannel t)) t := by
  obtain ⟨poison, outs, e⟩ := at_.finishT (doneChannel t)
  rw [e]
  refine ⟨?_, unitRan_mem .., unitRan_books _ _ _ (.refl s) (fun _ _ => rfl) _⟩
  unfold doneChannel
  rw [getTile_modTile, unitRan_tile]

end

/-! ### CHANNEL_OP, CHANNEL_REDUCTION, SOFTMAX, NORMALISATION -/

section
variable {s : State} {t : Nat} {c : Ctx} (ht : t < 32) (hb : bodyCtx s t = some c)
include ht hb

theorem channelOp_executes {f : VFn} {a b d dst n : Nat} {bi bo : Bool} {bounds : Bounds} {e : Option Nat} {r : List Nat}
    (front : frontOp (getTile s t).qChannel = some (.vec f a b d dst n bi bo bounds e))
    (hr : r = (List.range n).map fun i => vfn f ((tileVec s t c bi a n).getD i 0) (if 2 ≤ arity f then (tileVec s t c bi b n).getD i 0 else 0)
      (if 3 ≤ arity f then (tileVec s t c bi d n).getD i 0 else 0))
    (ma : tileMine s t c 4 a (n * vecB bi)) (mb : 2 ≤ arity f → tileMine s t c 4 b (n * vecB bi)) (md : 3 ≤ arity f → tileMine s t c 4 d (n * vecB bi))
    (mdst : tileMine s t c 4 dst (n * vecB bo)) (sound : firstBad f 0 ((tileVec s t c bi a n).zip r) = none) (inside : vecInside bounds bo r) :
    ∃ u, exec (.channelOp t) s = .next u ∧ (getTile u t).qChannel = markFront (getTile s t).qChannel ∧ vecResult s u t dst bo r ∧ TileWork s u t := by
  have there : tileOk t = true := decide_eq_true ht
  obtain ⟨va, reads⟩ := (TReads.start 4 s t c).rdVec ma
  obtain ⟨vb, reads⟩ := reads.rdVecIf mb
  obtain ⟨vd, reads⟩ := reads.rdVecIf md
  have size : r.length = n := by rw [hr, List.length_map, List.length_range]
  have none_ (p : Prop) [Decidable p] (l : List Nat) (i : Nat) : (if p then l else []).getD i 0 = if p then l.getD i 0 else 0 := by split <;> rfl
  have done := ((reads.at.noteFail_none).wrVec (size.symm ▸ mdst) inside).channelDone
  refine ⟨_, ?_, done⟩
  show execChannelOp t s = _
  unfold execChannelOp
  rw [onUnit_next there, hb, front]
  dsimp only
  rw [vd, vb, va]
  simp only [none_]
  rw [← hr, sound]

theorem channelReduction_executes {f : RFn} {src n v : Nat} {bi : Bool} {e : Option Nat}
    (front : frontOp (getTile s t).qChannel = some (.reduce f src n v bi e)) (mine : tileMine s t c 4 src (n * vecB bi)) :
    ∃ u, exec (.channelReduction t) s = .next u ∧ (getTile u t).qChannel = markFront (getTile s t).qChannel ∧
      tabGet? (v % 8) (getTile u t).v = some (BitVec.ofNat 32 (rfn f (tileVec s t c bi src n))) ∧ u.mem = s.mem ∧ TileWork s u t := by
  have there : tileOk t = true := decide_eq_true ht
  obtain ⟨vec, reads⟩ := (TReads.start 4 s t c).rdVec mine
  obtain ⟨poison, outs, done⟩ := reads.at.finishT (fun u => doneChannel t (modTile t (fun y =>
    { y with v := tabPut (v % 8) (BitVec.ofNat 32 (rfn f (tileVec s t c bi src n))) y.v }) u))
  refine ⟨doneChannel t (modTile t (fun y => { y with v := tabPut (v % 8) (BitVec.ofNat 32 (rfn f (tileVec s t c bi src n))) y.v })
    (unitRan t c s.mem poison outs s)), ?_, ?_, ?_, unitRan_mem .., TileWork.modTile (unitRan_books _ _ _ (.refl s) (fun _ _ => rfl) _) _⟩
  · show execChannelReduction t s = _
    unfold execChannelReduction
    rw [onUnit_next there, hb, front]
    dsimp only
    rw [vec, done]
  · unfold doneChannel
    rw [getTile_modTile, getTile_modTile, unitRan_tile]
  · unfold doneChannel
    rw [getTile_modTile, getTile_modTile]
    exact tabGet?_tabPut_same ..

theorem softmax_executes {src dst n : Nat} {bi bo : Bool} {bounds : Bounds} {e : Option Nat} {y : List Nat}
    (front : frontOp (getTile s t).qChannel = some (.softmax src dst n bi bo bounds e)) (hy : y = softmaxF (tileVec s t c bi src n))
    (msrc : tileMine s t c 4 src (n * vecB bi)) (mdst : tileMine s t c 4 dst (y.length * vecB bo)) (sound : softmaxFail (tileVec s t c bi src n) y = none)
    (inside : vecInside bounds bo y) :
    ∃ u, exec (.softmax t) s = .next u ∧ (getTile u t).qChannel = markFront (getTile s t).qChannel ∧ vecResult s u t dst bo y ∧ TileWork s u t := by
  have there : tileOk t = true := decide_eq_true ht
  obtain ⟨vec, reads⟩ := (TReads.start 4 s t c).rdVec msrc
  refine ⟨_, ?_, (reads.at.noteFail_none.wrVec mdst inside).channelDone⟩
  show execSoftmax t s = _
  unfold execSoftmax
  rw [onUnit_next there, hb, front]
  dsimp only
  rw [vec, ← hy, sound]

theorem rms_executes {src dst n g : Nat} {eps : W32} {bi bo : Bool} {bounds : Bounds} {e : Option Nat} {y : List Nat}
    (front : frontOp (getTile s t).qChannel = some (.rms src dst n eps g bi bo bounds e))
    (hy : y = rmsF eps.toNat (tileVec s t c bi src n) (tileVec s t c bi g n)) (msrc : tileMine s t c 4 src (n * vecB bi))
    (mg : tileMine s t c 4 g (n * vecB bi)) (mdst : tileMine s t c 4 dst (y.length * vecB bo)) (inside : vecInside bounds bo y) :
    ∃ u, exec (.normalisation t) s = .next u ∧ (getTile u t).qChannel = markFront (getTile s t).qChannel ∧ vecResult s u t dst bo y ∧ TileWork s u t := by
  have there : tileOk t = true := decide_eq_true ht
  obtain ⟨vec, reads⟩ := (TReads.start 4 s t c).rdVec msrc
  obtain ⟨gain, reads⟩ := reads.rdVec mg
  refine ⟨_, ?_, (reads.at.wrVec mdst inside).channelDone⟩
  show execNormalisation t s = _
  unfold execNormalisation
  rw [onUnit_next there, hb, front]
  dsimp only
  rw [gain, vec, ← hy]

theorem layer_executes {src dst n g b : Nat} {eps : W32} {bi bo : Bool} {bounds : Bounds} {e : Option Nat} {y : List Nat}
    (front : frontOp (getTile s t).qChannel = some (.layer src dst n eps g b bi bo bounds e))
    (hy : y = layerF eps.toNat (tileVec s t c bi src n) (tileVec s t c bi g n) (tileVec s t c bi b n)) (msrc : tileMine s t c 4 src (n * vecB bi))
    (mg : tileMine s t c 4 g (n * vecB bi)) (mb : tileMine s t c 4 b (n * vecB bi)) (mdst : tileMine s t c 4 dst (y.length * vecB bo))
    (inside : vecInside bounds bo y) :
    ∃ u, exec (.normalisation t) s = .next u ∧ (getTile u t).qChannel = markFront (getTile s t).qChannel ∧ vecResult s u t dst bo y ∧ TileWork s u t := by
  have there : tileOk t = true := decide_eq_true ht
  obtain ⟨vec, reads⟩ := (TReads.start 4 s t c).rdVec msrc
  obtain ⟨gain, reads⟩ := reads.rdVec mg
  obtain ⟨bias, reads⟩ := reads.rdVec mb
  refine ⟨_, ?_, (reads.at.wrVec mdst inside).channelDone⟩
  show execNormalisation t s = _
  unfold execNormalisation
  rw [onUnit_next there, hb, front]
  dsimp only
  rw [bias, gain, vec, ← hy]

end

/-! ### Reads and writes one after the other -/

section
variable {s v : State} {t : Nat} {c : Ctx} {m : Memories} {x : TAcc}

theorem addOut_ended (st : Nat) (b : Bool) (a : Acc) : (addOut st b a).ended = a.ended := by
  unfold addOut
  split <;> rfl

theorem addOut_mark (st : Nat) (b : Bool) (a : Acc) : (addOut st b a).mark = a.mark := by
  unfold addOut
  split <;> rfl

theorem rdBlk_plain {a : Acc} (plain : Plain a) (sp i o : Nat) : Plain (rdBlk sp i o a).2 := by
  unfold rdBlk
  split
  · exact plain
  · unfold Plain
    simp only [addOut_ended, addOut_mark]
    exact plain

theorem rdBytesGo_plain {a : Acc} (plain : Plain a) (sp i fuel off len : Nat) : Plain (rdBytesGo sp i fuel off len a).2 := by
  induction fuel generalizing off len a with
  | zero => exact plain
  | succ fuel ih =>
    unfold rdBytesGo
    split
    · exact plain
    · exact ih (rdBlk_plain plain ..) ..

/-- A read of the scratchpad after writes. -/
theorem TAt.tRead (at_ : TAt s t c m x) {off len : Nat} (mine : tileMine s t c 4 off len) : TAt s t c m (Machine.tRead 4 off len x).2 := by
  obtain ⟨⟨rfl, run, tenant⟩, good, state, outs, plain⟩ := at_
  have inside : memMine x.a.s x.tenant 4 x.t off len = true := by
    rw [state, tenant]
    exact mine
  obtain ⟨same, met⟩ := rdBytesGo_scratch_onlyRead x.t (len / 64 + 2) off len x.a
  unfold Machine.tRead
  rw [if_pos inside]
  exact ⟨⟨rfl, run, tenant⟩, good, same.trans state, fun mem => (met _ mem).elim outs fun e => absurd e (by decide), rdBytesGo_plain plain ..⟩

theorem tilePut_memOnly {sp : Nat} (zero : 3 ≤ sp) (t off : Nat) (bs : List Byte) (v : State) :
    tilePut sp t off bs v = { v with mem := (tilePut sp t off bs v).mem } := by
  obtain ⟨m, e⟩ := (wrBytes_wrote (i := t) zero (a := Acc.start 1 v) ⟨rfl, rfl⟩ off bs false).state
  unfold tilePut
  rw [e]
  rfl

/-- A write after writes, on the memory that they left. -/
theorem TAt.put (at_ : TAt s t c v.mem x) (hv : v = { s with mem := v.mem }) {off : Nat} {bs : List Byte} (mine : tileMine s t c 4 off bs.length) :
    TAt s t c (tilePut 4 t off bs v).mem (Machine.tWrite 4 off bs false x) ∧ tilePut 4 t off bs v = { s with mem := (tilePut 4 t off bs v).mem } := by
  refine ⟨?_, (tilePut_memOnly (by decide) ..).trans (by rw [hv])⟩
  have written := at_.tWrite (sp := 4) (by decide) false mine
  rwa [← hv] at written

end

/-! ### QUANTISE (03 R55 to R60, R67 to R70) -/

/-- What the unit keeps of a quantiser for the commit: its counts, and its statistics record. -/
def quantBooks (t : Nat) (r : List Nat × Option (Nat × List Byte)) (u : State) : State :=
  doneChannel t (pendCounts t r.1 (modTile t (fun y => { y with statsPend := match r.2 with
    | some e => y.statsPend.filter (fun z => z.1 != e.1) ++ [e]
    | none => y.statsPend }) u))

theorem quantBooks_mem (t : Nat) (r : List Nat × Option (Nat × List Byte)) (u : State) : (quantBooks t r u).mem = u.mem := rfl

section
variable {s : State} {t : Nat} {c : Ctx} {m : Memories} {x : TAcc}

theorem TAt.quantDone (at_ : TAt s t c m x) (r : List Nat × Option (Nat × List Byte)) :
    (getTile (Machine.finishT x (quantBooks t r)) t).qChannel = markFront (getTile s t).qChannel ∧ (Machine.finishT x (quantBooks t r)).mem = m ∧
    (getTile (Machine.finishT x (quantBooks t r)) t).qPend = addCounts (getTile s t).qPend r.1 ∧
    (r.2 = none → (getTile (Machine.finishT x (quantBooks t r)) t).statsPend = (getTile s t).statsPend) ∧
    (∀ e, r.2 = some e → e ∈ (getTile (Machine.finishT x (quantBooks t r)) t).statsPend) ∧ TileWork s (Machine.finishT x (quantBooks t r)) t := by
  obtain ⟨poison, outs, e⟩ := at_.finishT (quantBooks t r)
  have tile : getTile (quantBooks t r (unitRan t c m poison outs s)) t = { getTile s t with
      poisoned := (getTile s t).poisoned || poison, qChannel := markFront (getTile s t).qChannel, qPend := addCounts (getTile s t).qPend r.1,
      statsPend := match r.2 with
        | some e => (getTile s t).statsPend.filter (fun z => z.1 != e.1) ++ [e]
        | none => (getTile s t).statsPend } := by
    unfold quantBooks doneChannel pendCounts
    rw [getTile_modTile, getTile_modTile, getTile_modTile, unitRan_tile]
  rw [e, tile]
  refine ⟨rfl, (quantBooks_mem ..).trans (unitRan_mem ..), rfl, fun none_ => by rw [none_], fun e some_ => ?_, TileWork.modTile (TileWork.modTile (unitRan_books _ _ _ (.refl s) (fun _ _ => rfl) _) _) _⟩
  rw [some_]
  exact List.mem_append_right _ (List.mem_singleton.mpr rfl)

theorem quantRows_reads (q : QuantOp) (l : List Nat) (mine : ∀ i ∈ l, tileMine s t c 4 (q.src + i * q.k * vecB q.srcBf16) (q.k * vecB q.srcBf16))
    (reads : TReads 4 s t c x) : (quantRows q l x).1 = (l.map fun i => tileVec s t c q.srcBf16 (q.src + i * q.k * vecB q.srcBf16) q.k) ∧
    TReads 4 s t c (quantRows q l x).2 := by
  induction l generalizing x with
  | nil => exact ⟨rfl, reads⟩
  | cons i l ih =>
    obtain ⟨row, reads'⟩ := reads.rdVec (mine i List.mem_cons_self)
    obtain ⟨rows, reads''⟩ := ih (fun j mem => mine j (List.mem_cons_of_mem _ mem)) reads'
    exact ⟨congrArg₂ List.cons row rows, reads''⟩

/-- The record that an observation leaves, and its read of an earlier one. -/
theorem observeBytes_at (at_ : TAt s t c m x) {o : Observe} {k : Nat} (mine : tileMine s t c 4 o.addr (0xC0 + 4 * k)) (z : Stats) :
    TAt s t c m (observeBytes o k z x).2 ∧ (o.accumulate = false → (observeBytes o k z x).1 = statsBytes z) := by
  unfold observeBytes
  split
  next again =>
    refine ⟨?_, fun no => absurd (again.symm.trans no) (by decide)⟩
    split
    · exact at_
    · exact at_.tRead mine
  · exact ⟨at_, fun _ => rfl⟩

/-- What the quantiser hands on when its rows are written: the counts, and the record of an observation. -/
def quantEnd (q : QuantOp) (counts : List Nat) (z : Observe → Stats) (x : TAcc) : (List Nat × Option (Nat × List Byte)) × TAcc :=
  match q.observe with
  | none => ((counts, none), x)
  | some o => let r := observeBytes o q.k (z o) x; ((counts, some (o.addr, r.1)), r.2)

section
variable {q : QuantOp} {xs : List (List Nat)} {rows : List QRow} {codes scales outs : List Byte}

theorem quantGo_at (sound : (q.static.map fun w => goodScale w.toNat).getD true = true) (map_ : outliersOk q.k q.outliers = true)
    (hx : xs = ((List.range q.rows).map fun i => tileVec s t c q.srcBf16 (q.src + i * q.k * vecB q.srcBf16) q.k))
    (hr : rows = xs.map (quantRow q.fmt q.outliers (q.static.map (·.toNat)))) (hc : codes = packVals (fmtBits q.fmt) (rows.flatMap (·.codes)))
    (hs : scales = packVals 32 (rows.map (·.scale))) (ho : outs = packVals 16 (rows.flatMap (·.outs)))
    (inside : codesFail q.bounds q.fmt (rows.flatMap (·.codes)) = none)
    (msrc : ∀ i, i < q.rows → tileMine s t c 4 (q.src + i * q.k * vecB q.srcBf16) (q.k * vecB q.srcBf16)) (mc : tileMine s t c 4 q.codes codes.length)
    (ms : tileMine s t c 4 q.scales scales.length) (mo : tileMine s t c 4 q.outVals outs.length)
    (mstat : ∀ o, q.observe = some o → tileMine s t c 4 o.addr (0xC0 + 4 * q.k)) :
    TAt s t c (tilePut 4 t q.outVals outs (tilePut 4 t q.scales scales (tilePut 4 t q.codes codes s))).mem (quantGo q (TAcc.start s t c)).2 ∧
    (quantGo q (TAcc.start s t c)).1.1 = rows.foldl (fun a r => addCounts a r.counts) [] ∧
    (q.observe = none → (quantGo q (TAcc.start s t c)).1.2 = none) ∧
    (∀ o, q.observe = some o → ∃ b, (quantGo q (TAcc.start s t c)).1.2 = some (o.addr, b) ∧
      (o.accumulate = false → b = statsBytes (statsOf o.tag q.k q.outliers xs rows))) := by
  obtain ⟨read, reads⟩ := quantRows_reads q (List.range q.rows) (fun i mem => msrc i (List.mem_range.mp mem)) (TReads.start 4 s t c)
  obtain ⟨at1, e1⟩ := TAt.put (v := s) reads.at rfl mc
  obtain ⟨at2, e2⟩ := TAt.put at1 e1 ms
  obtain ⟨at3, -⟩ := TAt.put at2 e2 mo
  have tame : (!((q.static.map (·.toNat)).map goodScale).getD true || !outliersOk q.k q.outliers) = false := by
    rw [Option.map_map]
    simp only [map_, Bool.not_true, Bool.or_false, Bool.not_eq_false']
    exact sound
  have go : quantGo q (TAcc.start s t c) = quantEnd q (rows.foldl (fun a r => addCounts a r.counts) []) (fun o => statsOf o.tag q.k q.outliers xs rows)
      (noteFail none (tWrite 4 q.outVals outs false (tWrite 4 q.scales scales false (tWrite 4 q.codes codes false
        (quantRows q (List.range q.rows) (TAcc.start s t c)).2)))) := by
    unfold quantGo
    dsimp only
    rw [read, ← hx, ← hr, tame]
    simp only [Bool.false_eq_true, if_false]
    rw [← hc, ← hs, ← ho, inside, List.take_left, List.drop_left]
    rfl
  rw [go]
  have done := at3.noteFail_none
  unfold quantEnd
  split
  next none_ => exact ⟨done, rfl, fun _ => rfl, fun o some_ => absurd (none_.symm.trans some_) (by simp)⟩
  next o some_ =>
    obtain ⟨at4, plain⟩ := observeBytes_at done (mstat o some_) (statsOf o.tag q.k q.outliers xs rows)
    refine ⟨at4, rfl, fun none_ => absurd (some_.symm.trans none_) (by simp), fun o' some' => ?_⟩
    obtain rfl := Option.some.inj (some_.symm.trans some')
    exact ⟨_, rfl, plain⟩

end

/-- Columns that have a stated result take no free value. -/
theorem quantCols_stated (q : WQuantOp) (rows : List (List Nat)) (f : Nat → Nat × List Nat × List Nat) (l : List Nat)
    (stated : ∀ n ∈ l, quantCol q.fmt q.outliers (column rows n) = some (f n)) (u : State) : quantCols q rows l u = (l.map f, u) := by
  induction l with
  | nil => rfl
  | cons n l ih =>
    have rest := ih fun k mem => stated k (List.mem_cons_of_mem _ mem)
    unfold quantCols
    rw [stated n List.mem_cons_self]
    dsimp only
    rw [rest]
    rfl

theorem map_getD_range {α : Type} (l : List α) (d : α) : ((List.range l.length).map fun n => l.getD n d) = l := by
  refine List.ext_getElem (by simp) fun i hi hi' => ?_
  simp [hi']

section
variable {q : WQuantOp} {cols : List (Nat × List Nat × List Nat)} {codes : List Nat}

theorem wquantGo_at (size : cols.length = q.n)
    (stated : ∀ n, n < q.n → quantCol q.fmt q.outliers (column (pieces q.n q.k (tileVec s t c q.srcBf16 q.src (q.k * q.n))) n) = some (cols.getD n (0, [], [])))
    (hc : codes = ((List.range q.k).flatMap fun i => cols.map fun z => z.2.1.getD i 0)) (inside : codesFail q.bounds q.fmt codes = none)
    (msrc : tileMine s t c 4 q.src (q.k * q.n * vecB q.srcBf16)) (mc : tileMine s t c 4 q.codes (packVals (fmtBits q.fmt) codes).length)
    (ms : tileMine s t c 4 q.scales (packVals 32 (cols.map (·.1))).length) :
    TAt s t c (tilePut 4 t q.scales (packVals 32 (cols.map (·.1))) (tilePut 4 t q.codes (packVals (fmtBits q.fmt) codes) s)).mem (wquantGo q (TAcc.start s t c)).2 ∧
    (wquantGo q (TAcc.start s t c)).1 = cols.foldl (fun a z => addCounts a z.2.2) [] := by
  obtain ⟨read, reads⟩ := (TReads.start 4 s t c).rdVec msrc
  obtain ⟨at1, e1⟩ := TAt.put (v := s) reads.at rfl mc
  obtain ⟨at2, -⟩ := TAt.put at1 e1 ms
  have all : ((List.range q.n).map fun n => cols.getD n (0, [], [])) = cols := size ▸ map_getD_range cols _
  have go : wquantGo q (TAcc.start s t c) = (cols.foldl (fun a z => addCounts a z.2.2) [], noteFail none
      (tWrite 4 q.scales (packVals 32 (cols.map (·.1))) false (tWrite 4 q.codes (packVals (fmtBits q.fmt) codes) false
        (rdVec q.srcBf16 q.src (q.k * q.n) (TAcc.start s t c)).2))) := by
    unfold wquantGo
    dsimp only
    rw [read, quantCols_stated q _ _ _ (fun n mem => stated n (List.mem_range.mp mem)), all]
    dsimp only
    rw [← hc, inside]
  rw [go]
  exact ⟨at2.noteFail_none, rfl⟩

end

end

/-! ### The statement -/

theorem exec_quantise {s : State} {t : Nat} {c : Ctx} {q : QuantOp} (ht : t < 32) (hb : bodyCtx s t = some c)
    (front : frontOp (getTile s t).qChannel = some (.quant q)) : exec (.quantise t) s = .next (finishT (quantGo q (TAcc.start s t c)).2
      (quantBooks t (quantGo q (TAcc.start s t c)).1)) := by
  have there : tileOk t = true := decide_eq_true ht
  show execQuantise t s = _
  unfold execQuantise
  rw [onUnit_next there, hb, front]
  rfl

theorem exec_quantise_weights {s : State} {t : Nat} {c : Ctx} {q : WQuantOp} (ht : t < 32) (hb : bodyCtx s t = some c)
    (front : frontOp (getTile s t).qChannel = some (.wquant q)) : exec (.quantise t) s = .next (finishT (wquantGo q (TAcc.start s t c)).2
      (fun u => doneChannel t (pendCounts t (wquantGo q (TAcc.start s t c)).1 u))) := by
  have there : tileOk t = true := decide_eq_true ht
  show execQuantise t s = _
  unfold execQuantise
  rw [onUnit_next there, hb, front]

/-- Settles O37. Every operand is read as the operation finds it (`TReads`), every result lands in the tenant's memory (`TAt`), and the
unit's books are the only other change of its tile. -/
theorem channelRowsExecuteTheirOperation : Obligations.ChannelRowsExecuteTheirOperation := by
  unfold Obligations.ChannelRowsExecuteTheirOperation
  intro s t c ht hb
  refine ⟨fun f a b d dst n bi bo bounds e r front hr ma mb md mdst sound inside =>
      channelOp_executes ht hb front hr ma mb md mdst sound inside,
    fun f src n v bi e front mine => channelReduction_executes ht hb front mine,
    fun src dst n bi bo bounds e y front hy msrc mdst sound inside => softmax_executes ht hb front hy msrc mdst sound inside,
    fun src dst n eps g bi bo bounds e y front hy msrc mg mdst inside => rms_executes ht hb front hy msrc mg mdst inside,
    fun src dst n eps g b bi bo bounds e y front hy msrc mg mb mdst inside => layer_executes ht hb front hy msrc mg mb mdst inside,
    fun q xs rows codes scales outs front sound map_ hx hr hc hs ho inside msrc mc ms mo mstat => ?rows,
    fun q cols codes front size stated hc inside msrc mc ms => ?weights⟩
  case rows =>
    obtain ⟨at_, counts, noRecord, record⟩ := quantGo_at sound map_ hx hr hc hs ho inside msrc mc ms mo mstat
    obtain ⟨queue, mem, pend, kept, waits, work⟩ := at_.quantDone (quantGo q (TAcc.start s t c)).1
    refine ⟨_, exec_quantise ht hb front, queue, mem, pend.trans (by rw [counts]), fun none_ => kept (noRecord none_), fun o some_ => ?_, work⟩
    obtain ⟨b, kept', plain⟩ := record o some_
    exact ⟨b, waits _ kept', plain⟩
  case weights =>
    obtain ⟨at_, counts⟩ := wquantGo_at size stated hc inside msrc mc ms
    obtain ⟨poison, outs, done⟩ := at_.finishT (fun u => doneChannel t (pendCounts t (wquantGo q (TAcc.start s t c)).1 u))
    refine ⟨_, (exec_quantise_weights ht hb front).trans (congrArg _ done), ?_, ?_, ?_, TileWork.modTile (unitRan_books _ _ _ (.refl s) (fun _ _ => rfl) _) _⟩
    · unfold doneChannel pendCounts
      rw [getTile_modTile, getTile_modTile, unitRan_tile]
    · exact (modTile_mem ..).trans ((modTile_mem ..).trans (unitRan_mem ..))
    · unfold doneChannel pendCounts
      rw [getTile_modTile, getTile_modTile, unitRan_tile, counts]

end Sys2Proof.Machine

/-! Load and store transfers (07 R150, R152, R155, R159; 06 R138, R148): the bytes that a write leaves, what a load lands, and the
effects that wait for the commit. -/

namespace Sys2Proof.Machine

/-! ### The bytes of a write -/

theorem zByte_of_mem {s u : State} (e : u.mem = s.mem) (sp i o : Nat) : zByte u sp i o = zByte s sp i o := by
  unfold zByte zMem
  rw [e]

/-- The mask of `n` bytes of a block from the byte `r` on. -/
theorem testBit_span (n r j : Nat) : ((2 ^ n - 1) * 2 ^ r).testBit j = decide (r ≤ j ∧ j < r + n) := by
  rw [Nat.testBit_mul_two_pow, Nat.testBit_two_pow_sub_one, ← Bool.decide_and]
  exact decide_eq_decide.mpr (by omega)

section
variable {sp i : Nat} (zero : 3 ≤ sp)
include zero

theorem zByte_span {r n b o : Nat} (aligned : b % 64 = 0) (fits : r + n ≤ 64) (data : List Byte) (p : Bool) (s : State) :
    zByte (writeBlk 0 sp i b data ((2 ^ n - 1) * 2 ^ r) p 1 s) sp i o =
      if b + r ≤ o ∧ o < b + r + n then data.getD (o - b) 0 else zByte s sp i o := by
  obtain ⟨k, rfl⟩ : ∃ k, sp = k + 3 := ⟨sp - 3, by omega⟩
  show zByte (setZ (k + 3) (putBytesZ (zKey i b) (mergeBytes _ data (getBytes (fun _ => 0) (zKey i b) 64 (zMem s (k + 3)).1)) (zMem s (k + 3)).1) _ s) (k + 3) i o = _
  unfold zByte
  rw [zMem_setZ, tabGetD_putBytesZ, mergeBytes_length]
  have key : ∀ x, zKey i x = i * 2 ^ 48 + x := fun _ => rfl
  by_cases inside : b ≤ o ∧ o < b + 64
  · have at_ : zKey i o - zKey i b = o - b := by rw [key, key]; omega
    have place : zKey i b + (o - b) = zKey i o := by rw [key, key]; omega
    rw [if_pos (by rw [key, key]; omega), at_]
    have byte : (mergeBytes ((2 ^ n - 1) * 2 ^ r) data (getBytes (fun _ => 0) (zKey i b) 64 (zMem s (k + 3)).1)).getD (o - b) 0 =
        if r ≤ o - b ∧ o - b < r + n then data.getD (o - b) 0 else tabGetD 0 (zKey i o) (zMem s (k + 3)).1 := by
      have less : o - b < 64 := by omega
      simp only [mergeBytes, testBit_span, decide_eq_true_eq]
      rw [List.getD_eq_getElem?_getD, List.getElem?_map, List.getElem?_range less]
      simp only [Option.map_some, Option.getD_some]
      split
      · rfl
      · simp only [getBytes]
        rw [List.getD_eq_getElem?_getD, List.getElem?_map, List.getElem?_range less]
        simp only [Option.map_some, Option.getD_some]
        rw [place]
    rw [byte]
    by_cases covered : r ≤ o - b ∧ o - b < r + n
    · rw [if_pos covered, if_pos (by omega)]
    · rw [if_neg covered, if_neg (by omega)]
  · rw [if_neg (by rw [key, key]; omega), if_neg (by omega)]

/-- Bytes written read back; every other byte of the memory stays. -/
theorem zByte_wrBytesGo (fuel : Nat) {a : Acc} (plain : Plain a) {off : Nat} {bs : List Byte} (enough : bs.length = 0 ∨ bs.length + off % 64 ≤ 64 * fuel) (p : Bool) (o : Nat) :
    zByte (wrBytesGo sp i fuel off bs p a).s sp i o = if off ≤ o ∧ o < off + bs.length then bs.getD (o - off) 0 else zByte a.s sp i o := by
  induction fuel generalizing off bs a with
  | zero =>
    have empty : bs.length = 0 := by omega
    rw [if_neg (by omega)]
    rfl
  | succ fuel ih =>
    unfold wrBytesGo
    by_cases none_ : bs = []
    · subst none_
      rw [if_pos List.isEmpty_nil, if_neg (by simp)]
    · have some_ : 0 < bs.length := List.length_pos_iff.mpr none_
      rw [if_neg (by simpa using none_)]
      dsimp only
      generalize hn : min bs.length (64 - off % 64) = n
      have wrote := wrBlk_wrote (i := i) zero plain (off / 64 * 64) (rep (off % 64) 0 ++ bs.take n) ((2 ^ n - 1) * 2 ^ (off % 64)) p
      rw [ih wrote.plain (by rw [List.length_drop]; omega), List.length_drop, wrBlk_plain zero plain]
      dsimp only
      rw [zByte_span zero (by omega) (by omega)]
      have start : off / 64 * 64 + off % 64 = off := by omega
      rw [start]
      by_cases later : off + n ≤ o ∧ o < off + n + (bs.length - n)
      · rw [if_pos later, if_pos (by omega), List.getD_eq_getElem?_getD, List.getElem?_drop, ← List.getD_eq_getElem?_getD]
        exact congrArg (bs.getD · 0) (by omega)
      · rw [if_neg later]
        by_cases first : off ≤ o ∧ o < off + n
        · rw [if_pos first, if_pos (by omega), List.getD_eq_getElem?_getD, List.getElem?_append_right (by simp [rep]; omega), List.getElem?_take, if_pos (by simp [rep]; omega),
            ← List.getD_eq_getElem?_getD]
          exact congrArg (bs.getD · 0) (by simp [rep]; omega)
        · rw [if_neg first, if_neg (by omega)]

theorem zByte_wrBytes {a : Acc} (plain : Plain a) (off : Nat) (bs : List Byte) (p : Bool) (o : Nat) :
    zByte (wrBytes sp i off bs p a).s sp i o = if off ≤ o ∧ o < off + bs.length then bs.getD (o - off) 0 else zByte a.s sp i o :=
  zByte_wrBytesGo zero _ plain (.inr (by omega)) p o

end

/-! ### What a load brings -/

section
variable {s v : State} {t : Nat} {c : Ctx} {m : Memories} {x : TAcc} {sp : Nat}

theorem tileMine_fits {off len : Nat} (mine : tileMine s t c sp off len) : off + len ≤ (if sp = 4 then scratchEnd else 0x40000) := by
  unfold tileMine memMine at mine
  simp only [Bool.and_eq_true, decide_eq_true_eq] at mine
  exact mine.1.1

/-- A part of a range that the tenant may reach. -/
theorem tileMine_part {off len a n : Nat} (mine : tileMine s t c sp off len) (lo : off ≤ a) (hi : a + n ≤ off + len) : tileMine s t c sp a n := by
  unfold tileMine memMine at mine ⊢
  simp only [Bool.and_eq_true, decide_eq_true_eq, List.all_eq_true, Bool.or_eq_true, List.any_eq_true, beq_iff_eq, Bool.not_eq_true',
    Bool.and_eq_false_iff, decide_eq_false_iff_not, beq_eq_false_iff_ne] at mine ⊢
  obtain ⟨⟨fits, alone⟩, reached⟩ := mine
  refine ⟨⟨by omega, fun e he => (alone e he).imp_left fun apart => ?_⟩, ?_⟩
  · obtain ((other | other) | above) | below := apart
    · exact .inl (.inl (.inl other))
    · exact .inl (.inl (.inr other))
    · exact .inl (.inr (by omega))
    · exact .inr (by omega)
  · obtain (own | low) | ⟨e, he, same, inside⟩ := reached
    · exact .inl (.inl own)
    · exact .inl (.inr (by omega))
    · exact .inr ⟨e, he, same, by omega⟩

/-- Packed bytes land one by one, each poisoned or not. -/
theorem TAt.wrPvGo (zero : 3 ≤ sp) (fuel : Nat) {off : Nat} {l : List (Byte × Bool)} (enough : l.length < fuel) (mine : tileMine s t c sp off l.length)
    (at_ : TAt s t c m x) : ∃ n, TAt s t c n (Machine.wrPvGo sp fuel off l x) ∧ ∀ o, zByte { s with mem := n } sp t o =
      if off ≤ o ∧ o < off + l.length then ((l[o - off]?).map (·.1)).getD 0 else zByte { s with mem := m } sp t o := by
  induction fuel generalizing off l x m with
  | zero => omega
  | succ fuel ih =>
    unfold Machine.wrPvGo
    by_cases none_ : l = []
    · subst none_
      rw [if_pos List.isEmpty_nil]
      exact ⟨m, at_, fun o => by rw [if_neg (by simp)]⟩
    · have some_ : 0 < l.length := List.length_pos_iff.mpr none_
      rw [if_neg (by simpa using none_)]
      dsimp only
      generalize hn : min l.length (64 - off % 64) = n
      have size : ((l.take n).map (·.1)).length = n := by rw [List.length_map, List.length_take]; omega
      have written := at_.tWrite (sp := sp) zero (off := off) (bs := (l.take n).map (·.1)) ((l.take n).any (·.2))
        (tileMine_part mine (Nat.le_refl off) (by rw [size]; omega))
      obtain ⟨m', at', bytes⟩ := ih (off := off + n) (l := l.drop n) (by rw [List.length_drop]; omega) (tileMine_part mine (Nat.le_add_right ..) (by rw [List.length_drop]; omega)) written
      refine ⟨m', at', fun o => ?_⟩
      have first : zByte { s with mem := (wrBytes sp t off ((l.take n).map (·.1)) ((l.take n).any (·.2)) (Acc.start 1 { s with mem := m })).s.mem } sp t o =
          if off ≤ o ∧ o < off + n then ((l[o - off]?).map (·.1)).getD 0 else zByte { s with mem := m } sp t o := by
        refine (zByte_of_mem rfl sp t o).trans ((zByte_wrBytes zero ⟨rfl, rfl⟩ ..).trans ?_)
        rw [size]
        split
        · rw [List.getD_eq_getElem?_getD, List.getElem?_map, List.getElem?_take, if_pos (by omega)]
        · rfl
      rw [bytes, first, List.length_drop]
      by_cases later : off + n ≤ o ∧ o < off + n + (l.length - n)
      · rw [if_pos later, if_pos (by omega), List.getElem?_drop]
        exact congrArg (fun k : Nat => ((l[k]?).map Prod.fst).getD 0) (by omega)
      · rw [if_neg later]
        by_cases early : off ≤ o ∧ o < off + n
        · rw [if_pos early, if_pos (by omega)]
        · rw [if_neg early, if_neg (by omega)]

/-- What a load brings lands in the tile. -/
theorem TAt.wrPv (zero : 3 ≤ sp) {off : Nat} {l : List (Byte × Bool)} (mine : tileMine s t c sp off l.length) (at_ : TAt s t c m x) :
    ∃ n, TAt s t c n (Machine.wrPv sp off l x) ∧ ∀ i, i < l.length → zByte { s with mem := n } sp t (off + i) = ((l[i]?).map (·.1)).getD 0 := by
  have inside : memMine x.a.s x.tenant sp x.t off l.length = true := by
    obtain ⟨⟨rfl, -, tenant⟩, -, state, -⟩ := at_
    rw [state, tenant]
    exact mine
  obtain ⟨n, at', bytes⟩ := at_.wrPvGo zero (l.length + 1) (Nat.lt_succ_self _) mine
  unfold Machine.wrPv
  rw [if_pos inside]
  exact ⟨n, at', fun i hi => by rw [bytes, if_pos (by omega), Nat.add_sub_cancel_left]⟩

end

/-! ### Reads of a descriptor -/

section
variable {a : Acc} {s : State}

theorem rdEls_plain (d : Desc) (k n : Nat) (plain : Plain a) : Plain (rdEls d k n a).2 := by
  induction k generalizing n a with
  | zero => exact plain
  | succ k ih => exact ih (n + 1) (rdBytesGo_plain plain ..)

theorem rdLines_plain (d : Desc) (l : List Line) (plain : Plain a) : Plain (rdLines d l a).2 := by
  induction l generalizing a with
  | nil => exact plain
  | cons x l ih => exact ih (rdBytesGo_plain plain ..)

theorem rdLines_data (d : Desc) (l : List Line) (data : DataOnly s a.s) : DataOnly s (rdLines d l a).2.s := by
  induction l generalizing a with
  | nil => exact data
  | cons x l ih => exact ih (rdBytes_data _ _ _ _ _ data)

theorem loadBytes_reads (d : Desc) (plain : Plain a) (data : DataOnly s a.s) : Plain (loadBytes d a).2 ∧ DataOnly s (loadBytes d a).2.s := by
  unfold loadBytes
  split
  · exact ⟨rdLines_plain _ _ plain, rdLines_data _ _ data⟩
  · exact ⟨rdEls_plain _ _ _ plain, rdEls_data _ _ _ _ data⟩

theorem DataOnly.work {u : State} (data : DataOnly s u) : WorkOnly s u := by
  unfold DataOnly at data
  rw [data]
  rfl

end

/-! ### LOAD_TRANSFER (07 R150) -/

section
variable {s : State} {t : Nat} {c : Ctx} {d : Desc} {src : Desc} {sd : Bool} {addr : Nat} {e : Option Nat}

/-- The load as its unit makes it: what was read stands in `loadBytes`, and lands at `addr`. -/
def loadAcc (s : State) (t : Nat) (c : Ctx) (d : Desc) : TAcc :=
  { TAcc.start s t c with a := (loadBytes d (Acc.start 1 s)).2, poison := (loadBytes d (Acc.start 1 s)).1.any (·.2) }

theorem exec_loadTransfer (ht : t < 32) (hb : bodyCtx s t = some c) (front : frontOp (getTile s t).qLoad = some (.xfer src sd addr e))
    (turn : turnDesc t c src = some d) (inner : 2 ≤ d.space) (may : streamOk s c.run t false d = true) (idle : s.held = [])
    (free : blksWait s (descPhys s d) = false) : exec (.loadTransfer t none) s = .next
      (finishT (wrPv (if sd then 5 else 4) addr (loadBytes d (Acc.start 1 s)).1 (loadAcc s t c d)) (doneLoad t)) := by
  have there : tileOk t = true := decide_eq_true ht
  show execLoadTransfer t none s = _
  unfold execLoadTransfer
  rw [onUnit_next there, hb, front]
  dsimp only
  rw [turn]
  dsimp only
  rw [if_neg (by simp [inner, may]), viaGap_of_free idle free]
  rfl

theorem loadTransfer_lands {l : List (Byte × Bool)} {sp : Nat} (ht : t < 32) (hb : bodyCtx s t = some c)
    (front : frontOp (getTile s t).qLoad = some (.xfer src sd addr e)) (turn : turnDesc t c src = some d) (inner : 2 ≤ d.space)
    (may : streamOk s c.run t false d = true) (hsp : sp = if sd then 5 else 4) (idle : s.held = []) (free : blksWait s (descPhys s d) = false)
    (clean : stSharedPoisoned ∉ (loadBytes d (Acc.start 1 s)).2.outs) (hl : l = (loadBytes d (Acc.start 1 s)).1) (mine : tileMine s t c sp addr l.length) :
    ∃ u, exec (.loadTransfer t none) s = .next u ∧ (getTile u t).qLoad = markFront (getTile s t).qLoad ∧
      (∀ i, i < l.length → zByte u sp t (addr + i) = ((l[i]?).map (·.1)).getD 0) ∧ TileWork s u t := by
  have zero : 3 ≤ sp := by rw [hsp]; split <;> omega
  subst hl
  have load := exec_loadTransfer ht hb front turn inner may idle free
  rw [← hsp] at load
  obtain ⟨plain, data⟩ := loadBytes_reads (s := s) (a := Acc.start 1 s) d ⟨rfl, rfl⟩ (.refl s)
  unfold loadAcc at load
  generalize hr : loadBytes d (Acc.start 1 s) = r at *
  obtain ⟨l, a⟩ := r
  dsimp only at *
  have allocs : a.s.allocs = s.allocs := by rw [data]
  have runs : a.s.runs = s.runs := by rw [data]
  have tiles : a.s.tiles = s.tiles := by rw [data]
  have tenant : runTenant s c.run = runTenant a.s c.run := by unfold runTenant getRun?; rw [runs]
  have mine' : tileMine a.s t c sp addr l.length := by
    unfold tileMine memMine at mine ⊢
    rw [allocs, ← tenant]
    exact mine
  have at_ : TAt a.s t c a.s.mem { TAcc.start s t c with a := a, poison := l.any (·.2) } := ⟨⟨rfl, rfl, tenant⟩, ⟨rfl, rfl⟩, rfl, clean, plain⟩
  obtain ⟨n, landed, bytes⟩ := at_.wrPv zero mine'
  obtain ⟨poison, outs, done⟩ := landed.finishT (doneLoad t)
  have others : ∀ k, getTile a.s k = getTile s k := fun k => congrArg (tabGetD Tile.reset k) tiles
  refine ⟨_, load.trans (congrArg _ done), ?_, fun i hi => ?_, unitRan_books _ _ _ data.work (fun k _ => others k) _⟩
  · unfold doneLoad
    rw [getTile_modTile, unitRan_tile, others]
  · exact (zByte_of_mem (unitRan_mem ..) sp t _).trans (bytes i hi)

end

/-! ### CODE_OVERLAY_TRANSFER (07 R159) -/

theorem codeOverlay_lands {s : State} {t : Nat} {c : Ctx} {n : Nat} {b : Bool} {q : List (LoadOp × Bool)} (ht : t < 32) (hc : (getTile s t).ctx = some c)
    (head : (getTile s t).phase = .head) (front : (getTile s t).qLoad = (.overlay n, b) :: q) (due : b = false) :
    ∃ u, exec (.codeOverlayTransfer t) s = .next u ∧ getTile u t = landOverlay n { getTile s t with qLoad := q } ∧
      (getTile u t).ctx = some { c with overlays := c.overlays ++ [n] } ∧ (∀ k, k ≠ t → getTile u k = getTile s k) ∧ u = { s with tiles := u.tiles } := by
  subst due
  have there : tileOk t = true := decide_eq_true ht
  have tile : getTile (modTile t (fun y => landOverlay n { y with qLoad := y.qLoad.drop 1 }) s) t = landOverlay n { getTile s t with qLoad := q } := by
    rw [getTile_modTile, front]
    rfl
  refine ⟨_, ?_, tile, ?_, fun k other => getTile_modTile_ne _ _ other, rfl⟩
  · show execCodeOverlayTransfer t s = _
    unfold execCodeOverlayTransfer
    dsimp only
    rw [onUnit_next there, front]
    exact next_congr (if_pos head)
  · rw [tile]
    unfold landOverlay
    dsimp only
    rw [hc]
    rfl

/-! ### STORE_TRANSFER (07 R152, R155) -/

section
variable {s : State} {t : Nat} {c : Ctx}

theorem queueOut_room {e : Effect} (room : (getTile s t).outbound.length < 256) :
    queueOut t e s = modTile t (fun y => { y with outbound := y.outbound ++ [e], qStore := y.qStore.drop 1 }) s :=
  if_neg (Nat.not_le.mpr room)

/-- An operation of the store queue that is none of the tile's own stores waits for the commit. -/
theorem storeTransfer_waits {o : StoreOp} {q : List (StoreOp × Bool)} {e : Effect} (ht : t < 32) (hb : bodyCtx s t = some c)
    (front : (getTile s t).qStore = (o, false) :: q) (room : (getTile s t).outbound.length < 256)
    (effect : (∃ dst addr ev, o = .xfer dst addr ev ∧ ownStore t c dst = false ∧ e = .store dst addr ev) ∨ (∃ p, o = .furrow p ∧ e = .furrow p) ∨
      (∃ n p x a, o = .adapter n p ∧ getRun? s c.run = some x ∧ x.adapters.find? (fun a => a.entry == n) = some a ∧ e = .furrow { p with srcA := some a.src }) ∨
      (∃ m r a len k n, o = .peer m r a len k n ∧ e = .peer m r a len k n)) :
    ∃ u, exec (.storeTransfer t) s = .next u ∧ getTile u t = { getTile s t with outbound := (getTile s t).outbound ++ [e], qStore := q } ∧
      (∀ k, k ≠ t → getTile u k = getTile s k) ∧ u = { s with tiles := u.tiles } := by
  have there : tileOk t = true := decide_eq_true ht
  have next : exec (.storeTransfer t) s = .next (queueOut t e s) := by
    show execStoreTransfer t s = _
    unfold execStoreTransfer
    rw [onUnit_next there, hb, front]
    obtain ⟨dst, addr, ev, rfl, out, rfl⟩ | ⟨p, rfl, rfl⟩ | ⟨n, p, x, a, rfl, run, found, rfl⟩ | ⟨m, r, a, len, k, n, rfl, rfl⟩ := effect
    · exact next_congr (if_neg (by simp [out]))
    · rfl
    · show Host.Outcome.next (match (getRun? s c.run).bind fun x => x.adapters.find? fun a => a.entry == n with
        | some a => queueOut t (.furrow { p with srcA := some a.src }) s
        | none => _) = _
      rw [run]
      dsimp only [Option.bind_some]
      rw [found]
    · rfl
  refine ⟨_, next.trans (congrArg _ (queueOut_room room)), ?_, fun k other => getTile_modTile_ne _ _ other, rfl⟩
  rw [getTile_modTile, front]
  rfl

end

/-! ### Tensors written to the tile's own memory -/

section
variable {d : Desc} {f : Nat → Acc → (Nat × Bool) × Acc} {g : Nat → Nat × Bool} (zero : 3 ≤ d.space) (given : ∀ n b, f n b = (g n, b))

section
include given

/-- The values of a line that does not depend on what is written. -/
theorem lineVals_given (l : List (Option Nat)) (a : Acc) : lineVals f l a = (l.map fun x => (x.map g).getD (0, false), a) := by
  induction l generalizing a with
  | nil => rfl
  | cons x l ih =>
    cases x with
    | none =>
      unfold lineVals
      rw [ih]
      rfl
    | some n =>
      unfold lineVals
      rw [given]
      dsimp only
      rw [ih]
      rfl

end

section
include zero

theorem wrLineGo_wrote (per fuel : Nat) {a : Acc} (plain : Plain a) (off : Nat) (vs : List (Nat × Bool)) : Wrote a (wrLineGo d per fuel off vs a) := by
  induction fuel generalizing off vs a with
  | zero => exact .refl plain
  | succ fuel ih =>
    unfold wrLineGo
    split
    · exact .refl plain
    · have first := wrBlk_wrote (i := d.inst) zero plain off (packVals (fmtBits d.fmt) ((vs.take per).map (·.1))) fullMask ((vs.take per).any (·.2))
      exact first.trans (ih first.plain ..)

theorem wrLineGo_state (per fuel : Nat) {a b : Acc} (pa : Plain a) (pb : Plain b) (e : a.s = b.s) (off : Nat) (vs : List (Nat × Bool)) :
    (wrLineGo d per fuel off vs a).s = (wrLineGo d per fuel off vs b).s := by
  induction fuel generalizing off vs a b with
  | zero => exact e
  | succ fuel ih =>
    unfold wrLineGo
    split
    · exact e
    · exact ih (wrBlk_wrote zero pa ..).plain (wrBlk_wrote zero pb ..).plain (wrBlk_state zero pa pb e ..) ..

end

include zero given

theorem wrLines_wrote (l : List Line) {a : Acc} (plain : Plain a) : Wrote a (wrLines d f l a) := by
  induction l generalizing a with
  | nil => exact .refl plain
  | cons x l ih =>
    unfold wrLines
    rw [lineVals_given given]
    have first := wrLineGo_wrote zero (512 / fmtBits d.fmt) x.slots.length plain x.addr (x.slots.map fun x => (x.map g).getD (0, false))
    exact first.trans (ih first.plain)

theorem wrLines_state (l : List Line) {a b : Acc} (pa : Plain a) (pb : Plain b) (e : a.s = b.s) : (wrLines d f l a).s = (wrLines d f l b).s := by
  induction l generalizing a b with
  | nil => exact e
  | cons x l ih =>
    unfold wrLines
    rw [lineVals_given given, lineVals_given given]
    exact ih (wrLineGo_wrote zero _ _ pa ..).plain (wrLineGo_wrote zero _ _ pb ..).plain (wrLineGo_state zero _ _ pa pb e ..)

end

section
variable {s : State} {t : Nat} {c : Ctx} {m : Memories} {x : TAcc} {d : Desc} {f : Nat → Acc → (Nat × Bool) × Acc} {g : Nat → Nat × Bool}

/-- A tensor that the operation writes to its own memory lands as it would by itself. -/
theorem TAt.wrTensor (at_ : TAt s t c m x) (zero : 3 ≤ d.space) (given : ∀ n b, f n b = (g n, b)) :
    TAt s t c (Machine.wrTensor d f (Acc.start 1 { s with mem := m })).s.mem { x with a := Machine.wrTensor d f x.a } := by
  obtain ⟨who, good, state, outs, plain⟩ := at_
  have wrote := wrLines_wrote zero given (dLines d) plain
  have same := wrLines_state zero given (dLines d) plain (b := Acc.start 1 { s with mem := m }) ⟨rfl, rfl⟩ state
  obtain ⟨n, moved⟩ := wrote.state
  refine ⟨who, good, ?_, wrote.outs.symm ▸ outs, wrote.plain⟩
  show (wrLines d f (dLines d) x.a).s = { s with mem := (wrLines d f (dLines d) _).s.mem }
  rw [← same, moved, state]

end

/-! ### A store into the tile's own memory (07 R152) -/

section
variable {s : State} {t : Nat} {c : Ctx}

theorem Reading.rdEls {sp i : Nat} {a : Acc} (reads : Reading sp i s a) (zero : 3 ≤ sp) {d : Desc} (space : d.space = sp) (inst : d.inst = i) (k n : Nat) :
    Reading sp i s (Machine.rdEls d k n a).2 := by
  induction k generalizing n a with
  | zero => exact reads
  | succ k ih =>
    refine ih ?_ (n + 1)
    unfold rdEl
    rw [space, inst]
    exact (reads.rdBytes zero ..).2

theorem rdPv_reads {fmt off n : Nat} (mine : tileMine s t c 4 off (elBytes fmt n)) : TReads 4 s t c (rdPv 4 fmt off n (TAcc.start s t c)).2 := by
  have read := (Reading.start 4 t s).rdEls (by decide) (d := ⟨4, t, 1, fmt, off, [n], [], false, 0⟩) rfl rfl n 0
  unfold rdPv
  rw [if_pos (show memMine (TAcc.start s t c).a.s (TAcc.start s t c).tenant 4 (TAcc.start s t c).t off (elBytes fmt n) = true from mine)]
  exact ⟨⟨rfl, rfl, rfl⟩, ⟨rfl, rfl⟩, read⟩

theorem exec_ownStore {dst : Desc} {addr : Nat} {ev : Option Nat} (ht : t < 32) (hb : bodyCtx s t = some c)
    (front : frontOp (getTile s t).qStore = some (.xfer dst addr ev)) (own : ownStore t c dst = true)
    (may : streamOk s c.run t true { dst with inst := t } = true) : exec (.storeTransfer t) s = .next (finishT
      { (rdPv 4 dst.fmt addr (dCount dst) (TAcc.start s t c)).2 with
        a := wrList { dst with inst := t } (rdPv 4 dst.fmt addr (dCount dst) (TAcc.start s t c)).1 false (rdPv 4 dst.fmt addr (dCount dst) (TAcc.start s t c)).2.a }
      (modTile t fun y => { y with qStore := markFront y.qStore })) := by
  have there : tileOk t = true := decide_eq_true ht
  show execStoreTransfer t s = _
  unfold execStoreTransfer
  rw [onUnit_next there, hb, front]
  exact next_congr ((if_pos own).trans (if_pos may))

theorem ownStore_lands {dst : Desc} {addr : Nat} {ev : Option Nat} (ht : t < 32) (hb : bodyCtx s t = some c)
    (front : frontOp (getTile s t).qStore = some (.xfer dst addr ev)) (own : ownStore t c dst = true)
    (may : streamOk s c.run t true { dst with inst := t } = true) (mine : tileMine s t c 4 addr (elBytes dst.fmt (dCount dst))) :
    ∃ u, exec (.storeTransfer t) s = .next u ∧ (getTile u t).qStore = markFront (getTile s t).qStore ∧
      u.mem = (wrList { dst with inst := t } (rdPv 4 dst.fmt addr (dCount dst) (TAcc.start s t c)).1 false (Acc.start 1 s)).s.mem ∧ TileWork s u t := by
  have zero : 3 ≤ dst.space := by
    unfold ownStore at own
    simp only [Bool.or_eq_true, Bool.and_eq_true, beq_iff_eq] at own
    omega
  have stored := (rdPv_reads mine).at.wrTensor (d := { dst with inst := t }) (f := fun n b =>
      (((((rdPv 4 dst.fmt addr (dCount dst) (TAcc.start s t c)).1.getD n (0, false)).1,
        false || ((rdPv 4 dst.fmt addr (dCount dst) (TAcc.start s t c)).1.getD n (0, false)).2), b))) zero (fun _ _ => rfl)
  obtain ⟨poison, outs, done⟩ := stored.finishT (modTile t fun y => { y with qStore := markFront y.qStore })
  refine ⟨_, (exec_ownStore ht hb front own may).trans (congrArg _ done), ?_, ?_, unitRan_books _ _ _ (.refl s) (fun _ _ => rfl) _⟩
  · rw [getTile_modTile, unitRan_tile]
  · exact (modTile_mem ..).trans (unitRan_mem ..)

end

/-! ### The statement -/

/-- Settles O42. A load lands byte by byte (`TAt.wrPv`), an overlay and a queued effect are moved, and an own store writes the tensor
that its unit reads. -/
theorem transfersLandOrWaitForTheCommit : Obligations.TransfersLandOrWaitForTheCommit := by
  unfold Obligations.TransfersLandOrWaitForTheCommit
  intro s t c ht hc
  have inBody (body : (getTile s t).phase = .body) : bodyCtx s t = some c := by
    unfold bodyCtx
    rw [if_pos body, hc]
  exact ⟨fun src sd addr e d l sp body front turn inner may hsp idle free clean hl _ mine =>
      loadTransfer_lands ht (inBody body) front turn inner may hsp idle free clean hl mine,
    fun n q b head front due => codeOverlay_lands ht hc head front due,
    fun o q e body front room effect => storeTransfer_waits ht (inBody body) front room effect,
    fun dst addr ev body front own may mine => ownStore_lands ht (inBody body) front own may mine⟩

end Sys2Proof.Machine

/-! Tile programs (07 R149 to R161; 15 R361): long words with their scalar operation, waits, unit operations that end, and the first
failure of a step. -/

namespace Sys2Proof.Machine

/-! ### The scalar operation of a word (07 R149, R153) -/

section
variable {s : State} {t : Nat} {c : Ctx} {o : ScalarOp} {m : W32}

/-- The tile's context alone is new, and its own operation did not fail. -/
theorem TReads.setCtx {sp : Nat} {x : TAcc} (reads : TReads sp s t c x) (d : Ctx) :
    TAt (setCtx t d s) t c s.mem { x with a := { x.a with s := Machine.setCtx t d x.a.s } } := by
  obtain ⟨who, good, acc⟩ := reads
  refine ⟨who, good, ?_, fun met => absurd (acc.outs _ met) (by decide), acc.plain⟩
  show Machine.setCtx t d x.a.s = _
  rw [acc.state]
  rfl

theorem scalarCtx_value (noLoad : ∀ rd ra off, o ≠ .load rd ra off) (noV : vOf o = none) (m n : W32) (c : Ctx) : scalarCtx o m c = scalarCtx o n c := by
  cases o with
  | load rd ra off => exact absurd rfl (noLoad rd ra off)
  | readV rd v => nomatch noV
  | branchV k i v rb target => nomatch noV
  | _ => rfl

theorem readV_defined {v : Nat} (defined : tabGet? (v % 8) (getTile s t).v = some m) : readV t v s = (m, s) := by
  unfold readV
  rw [defined]

/-- A scalar operation that stores nothing changes the context alone. -/
theorem runScalar_at (noStore : ∀ rs ra off, o ≠ .store rs ra off)
    (load : ∀ rd ra off, o = .load rd ra off → tileMine s t c 5 (((gReg c ra).toNat + off) % 2 ^ 32) 4 ∧
      m = BitVec.ofNat 32 (leNat (tileBytes s t c 5 (((gReg c ra).toNat + off) % 2 ^ 32) 4)))
    (reg : ∀ v, vOf o = some v → tabGet? (v % 8) (getTile s t).v = some m) :
    TAt (setCtx t (scalarCtx o m c) s) t c s.mem (runScalar t c o s) := by
  have plain (noLoad : ∀ rd ra off, o ≠ .load rd ra off) (e : runScalar t c o s =
      (let v := match vOf o with
        | some k => readV t k s
        | none => ((0 : W32), s)
      { TAcc.start s t c with a := { Acc.start 1 s with s := setCtx t (scalarCtx o v.1 c) v.2 } })) :
      TAt (setCtx t (scalarCtx o m c) s) t c s.mem (runScalar t c o s) := by
    rw [e]
    dsimp only
    split
    next k v =>
      rw [readV_defined (reg k v)]
      exact (TReads.start 5 s t c).setCtx _
    next none_ =>
      rw [scalarCtx_value noLoad none_ m 0]
      exact (TReads.start 5 s t c).setCtx _
  cases o with
  | load rd ra off =>
    obtain ⟨mine, value⟩ := load rd ra off rfl
    obtain ⟨bytes, reads⟩ := (TReads.start 5 s t c).tRead (by decide) mine
    rw [value, ← bytes]
    exact reads.setCtx _
  | store rs ra off => exact absurd rfl (noStore rs ra off)
  | _ => exact plain (by simp) rfl

/-- A scalar store writes its word. -/
theorem runScalar_store {rs ra off : Nat} (mine : tileMine s t c 5 (((gReg c ra).toNat + off) % 2 ^ 32) 4) :
    TAt (setCtx t c s) t c (tilePut 5 t (((gReg c ra).toNat + off) % 2 ^ 32) (toLE 4 (gReg c rs).toNat) s).mem (runScalar t c (.store rs ra off) s) := by
  have written := (TReads.start 5 s t c).at.tWrite (sp := 5) (by decide) (bs := toLE 4 (gReg c rs).toNat) false (by rw [toLE_length]; exact mine)
  obtain ⟨who, good, state, outs, plain⟩ := written
  refine ⟨who, good, ?_, outs, plain⟩
  exact (congrArg (setCtx t c) state).trans rfl

end

/-! ### A word issues (07 R150, R151, R154) -/

theorem enqueue_aside (w : LongWord) (x : Tile) (k : Option Ctx) (p : Bool) :
    enqueue w { x with ctx := k, poisoned := p } = { enqueue w x with ctx := k, poisoned := p } := by
  unfold enqueue
  split <;> rfl

theorem enqueue_wordIssued (w : LongWord) (x : Tile) : (enqueue w x).wordIssued = x.wordIssued + 1 := by
  unfold enqueue
  split <;> rfl

theorem enqueue_phase (w : LongWord) (x : Tile) : (enqueue w x).phase = x.phase := by
  unfold enqueue
  split <;> rfl

section
variable {s : State} {t : Nat} {c : Ctx} {w : LongWord}

/-- What a word's scalar operation does, beside the program counter's move. -/
def wordScalar (t : Nat) (c : Ctx) (w : LongWord) (s : State) : TAcc :=
  match w.scalar with
  | some o => runScalar t { c with pc := c.pc + 1 } o s
  | none => { TAcc.start s t c with a := Acc.start 1 (setCtx t { c with pc := c.pc + 1 } s) }

theorem issueWord_issues (idle : (getTile s t).committing = false) (ready : wordWaits (getTile s t) w = false) (sound : wordTraps (getTile s t) c w = false) :
    issueWord t c w none s = finishT (wordScalar t c w s) (modTile t (enqueue w)) := by
  unfold issueWord
  dsimp only
  rw [if_neg (by simp [idle]), if_neg (by simp [ready]), ite_self]
  dsimp only
  rw [if_neg (by simp [sound])]
  rfl

/-- The tile after a word: its queues as the word leaves them, and its context. -/
theorem TAt.issued {d : Ctx} {m : Memories} {x : TAcc} (at_ : TAt (setCtx t d s) t c m x) : ∃ u poison, Machine.finishT x (modTile t (enqueue w)) = u ∧
    getTile u t = { enqueue w (getTile s t) with ctx := some d, poisoned := poison } ∧ u.mem = m ∧ TileWork s u t := by
  obtain ⟨poison, outs, done⟩ := at_.finishT (modTile t (enqueue w))
  have work : WorkOnly s (setCtx t d s) := modTile_work _ _ _ (.refl s)
  refine ⟨_, (getTile s t).poisoned || poison, done, ?_, (modTile_mem ..).trans (unitRan_mem ..),
    unitRan_books _ _ _ work (fun k other => getTile_modTile_ne _ _ other) _⟩
  rw [getTile_modTile, unitRan_tile, setCtx, getTile_modTile]
  exact enqueue_aside w (getTile s t) (some d) _

/-- What the scalar slot of a word that stores nothing leaves in the context. -/
def wordCtx (w : LongWord) (m : W32) (c : Ctx) : Ctx := (w.scalar.map fun o => scalarCtx o m c).getD c

theorem wordScalar_at {m : W32} (noStore : ∀ rs ra off, w.scalar ≠ some (.store rs ra off))
    (load : ∀ rd ra off a, w.scalar = some (.load rd ra off) → a = ((gReg c ra).toNat + off) % 2 ^ 32 →
      tileMine s t c 5 a 4 ∧ m = BitVec.ofNat 32 (leNat (tileBytes s t c 5 a 4)))
    (reg : ∀ o v, w.scalar = some o → vOf o = some v → tabGet? (v % 8) (getTile s t).v = some m) :
    TAt (setCtx t (wordCtx w m { c with pc := c.pc + 1 }) s) t c s.mem (wordScalar t c w s) := by
  unfold wordScalar wordCtx
  cases slot : w.scalar with
  | none => exact ⟨⟨rfl, rfl, rfl⟩, ⟨rfl, rfl⟩, rfl, List.not_mem_nil, rfl, rfl⟩
  | some o =>
    have at_ := runScalar_at (s := s) (t := t) (c := { c with pc := c.pc + 1 }) (o := o) (m := m) (fun rs ra off e => noStore rs ra off (slot.trans (congrArg some e)))
      (fun rd ra off e => load rd ra off _ (slot.trans (congrArg some e)) rfl) (fun v => reg o v slot)
    exact ⟨at_.who, at_.good, at_.state, at_.outs, at_.plain⟩

theorem wordWaits_scalarOnly (unit_ : unitWord w = false) (noV : ∀ o, w.scalar = some o → vOf o = none) (x : Tile) :
    wordWaits x { w with sync := none } = false := by
  simp only [unitWord, Bool.or_eq_false_iff, Option.isSome_eq_false_iff, Option.isNone_iff_eq_none] at unit_
  obtain ⟨⟨⟨⟨main, lateral⟩, channel⟩, load⟩, store⟩ := unit_
  have noReg : w.scalar.bind vOf = none := by
    cases slot : w.scalar with
    | none => rfl
    | some o => exact noV o slot
  simp [wordWaits, queuesOk, reduceWaits, eventWaits, main, lateral, channel, load, store, noReg]

variable (ht : t < 32) (hc : (getTile s t).ctx = some c)
include ht hc

theorem exec_longWordIssue_body (body : (getTile s t).phase = .body) : exec (.longWordIssue t w none) s = .next (issueWord t c w none s) := by
  have there : tileOk t = true := decide_eq_true ht
  show execLongWordIssue t w none s = _
  unfold execLongWordIssue
  dsimp only
  rw [onUnit_next there, hc]
  dsimp only
  rw [body]

/-- A word that waits is kept. -/
theorem longWordIssue_waits (idle : (getTile s t).committing = false) (body : (getTile s t).phase = .body) (waits : wordWaits (getTile s t) w = true) :
    exec (.longWordIssue t w none) s = .next (modTile t (fun y => { y with waiting := some w }) s) := by
  rw [exec_longWordIssue_body ht hc body]
  unfold issueWord
  dsimp only
  rw [if_neg (by simp [idle]), if_pos waits]

section
variable (idle : (getTile s t).committing = false) (body : (getTile s t).phase = .body) (ready : wordWaits (getTile s t) w = false)
  (sound : wordTraps (getTile s t) c w = false)
include idle body ready sound

theorem longWordIssue_issues {m : W32} (noStore : ∀ rs ra off, w.scalar ≠ some (.store rs ra off))
    (load : ∀ rd ra off a, w.scalar = some (.load rd ra off) → a = ((gReg c ra).toNat + off) % 2 ^ 32 →
      tileMine s t c 5 a 4 ∧ m = BitVec.ofNat 32 (leNat (tileBytes s t c 5 a 4)))
    (reg : ∀ o v, w.scalar = some o → vOf o = some v → tabGet? (v % 8) (getTile s t).v = some m) :
    ∃ u poison, exec (.longWordIssue t w none) s = .next u ∧
      getTile u t = { enqueue w (getTile s t) with ctx := some (wordCtx w m { c with pc := c.pc + 1 }), poisoned := poison } ∧ u.mem = s.mem ∧ TileWork s u t := by
  obtain ⟨u, poison, done, rest⟩ := (wordScalar_at noStore load reg).issued (w := w)
  exact ⟨u, poison, (exec_longWordIssue_body ht hc body).trans (congrArg _ ((issueWord_issues idle ready sound).trans done)), rest⟩

theorem longWordIssue_stores {rs ra off a : Nat} (slot : w.scalar = some (.store rs ra off)) (ha : a = ((gReg c ra).toNat + off) % 2 ^ 32)
    (mine : tileMine s t c 5 a 4) :
    ∃ u, exec (.longWordIssue t w none) s = .next u ∧ (getTile u t).ctx = some { c with pc := c.pc + 1 } ∧
      u.mem = (tilePut 5 t a (toLE 4 (gReg c rs).toNat) s).mem ∧ TileWork s u t := by
  subst ha
  have at_ := runScalar_store (s := s) (t := t) (c := { c with pc := c.pc + 1 }) (rs := rs) (ra := ra) (off := off) mine
  have at' : TAt (setCtx t { c with pc := c.pc + 1 } s) t c (tilePut 5 t (((gReg c ra).toNat + off) % 2 ^ 32) (toLE 4 (gReg c rs).toNat) s).mem (wordScalar t c w s) := by
    unfold wordScalar
    rw [slot]
    exact ⟨at_.who, at_.good, at_.state, at_.outs, at_.plain⟩
  obtain ⟨u, poison, done, tile, rest⟩ := at'.issued (w := w)
  exact ⟨u, (exec_longWordIssue_body ht hc body).trans (congrArg _ ((issueWord_issues idle ready sound).trans done)), by rw [tile], rest⟩

end

/-! ### Words of a step head (07 R154; 17 R397) -/

section
variable (head : (getTile s t).phase = .head) (quiet : (getTile s t).qLoad = []) (awake : runsAwake s c)
include head quiet awake

/-- A word without a counter wait begins the body. -/
theorem longWordIssue_begins (noWait : ∀ a b n, w.sync ≠ some (.ctrWait a b n)) (free : c.headWait = none) :
    exec (.longWordIssue t w none) s = exec (.longWordIssue t w none) (beginBody t (turned s c) s) := by
  obtain ⟨⟨x, run, live, running⟩, notIdle, notHold⟩ := awake
  have there : tileOk t = true := decide_eq_true ht
  have tile : getTile (beginBody t (turned s c) s) t = _ := getTile_modTile ..
  rw [exec_longWordIssue_body (s := beginBody t (turned s c) s) (c := turned s c) ht (by rw [tile]) (by rw [tile])]
  show execLongWordIssue t w none s = _
  unfold execLongWordIssue
  dsimp only
  rw [onUnit_next there, hc]
  dsimp only
  rw [head]
  dsimp only
  rw [quiet, run]
  split
  next a b n sync => exact absurd sync (noWait a b n)
  · rw [if_neg (by simp [free, live, running]), if_neg (by simp [notIdle, notHold])]

/-- The context of a head whose counter wait has been released. -/
def headIssues (s : State) (c : Ctx) : Ctx := { turned s c with headIssued := c.headIssued + 1 }

theorem exec_longWordIssue_released {take : Bool} {slot n : Nat} (sync : w.sync = some (.ctrWait take slot n)) (released : c.headIssued < c.headDone) :
    exec (.longWordIssue t w none) s = .next (issueHead t c w none s) := by
  obtain ⟨⟨x, run, live, running⟩, notIdle, notHold⟩ := awake
  have there : tileOk t = true := decide_eq_true ht
  show execLongWordIssue t w none s = _
  unfold execLongWordIssue
  dsimp only
  rw [onUnit_next there, hc]
  dsimp only
  rw [head]
  dsimp only
  rw [sync, quiet, run]
  dsimp only
  rw [if_neg (by omega), if_neg (by simp [live, running]), if_neg (by simp [notIdle, notHold])]

/-- One with a unit operation begins the body. -/
theorem longWordIssue_released_unit {take : Bool} {slot n : Nat} (sync : w.sync = some (.ctrWait take slot n)) (released : c.headIssued < c.headDone)
    (unit_ : unitWord w = true) :
    exec (.longWordIssue t w none) s = exec (.longWordIssue t { w with sync := none } none) (beginBody t (headIssues s c) s) := by
  have tile : getTile (beginBody t (headIssues s c) s) t = _ := getTile_modTile ..
  rw [exec_longWordIssue_released ht hc head quiet awake sync released,
    exec_longWordIssue_body (s := beginBody t (headIssues s c) s) (c := headIssues s c) ht (by rw [tile]) (by rw [tile])]
  unfold issueHead
  dsimp only
  rw [if_pos (by simp [unit_])]
  rfl

/-- One without does its scalar operation in the head. -/
theorem longWordIssue_released_scalar {take : Bool} {slot n : Nat} (idle : (getTile s t).committing = false) (sync : w.sync = some (.ctrWait take slot n))
    (released : c.headIssued < c.headDone) (unit_ : unitWord w = false) (sound : wordTraps (getTile s t) (headIssues s c) { w with sync := none } = false)
    (noMem : ∀ o, w.scalar = some o → sAddr (headIssues s c) o = none ∧ vOf o = none) :
    ∃ u, exec (.longWordIssue t w none) s = .next u ∧ (getTile u t).phase = .head ∧ u.mem = s.mem ∧
      (getTile u t).ctx = some (wordCtx w 0 { headIssues s c with pc := c.pc + 1 }) ∧ (getTile u t).wordIssued = (getTile s t).wordIssued + 1 ∧ TileWork s u t := by
  have ready := wordWaits_scalarOnly unit_ (fun o slot => (noMem o slot).2) (getTile s t)
  have at_ := wordScalar_at (s := s) (t := t) (c := headIssues s c) (w := { w with sync := none }) (m := 0)
    (fun rs ra off slot => nomatch (noMem _ slot).1) (fun rd ra off a slot => nomatch (noMem _ slot).1)
    (fun o v slot some_ => nomatch (noMem o slot).2.symm.trans some_)
  obtain ⟨u, poison, done, tile, mem, work⟩ := at_.issued (w := { w with sync := none })
  refine ⟨u, ?_, ?_, mem, by rw [tile]; rfl, by rw [tile]; exact enqueue_wordIssued .., work⟩
  · rw [exec_longWordIssue_released ht hc head quiet awake sync released]
    unfold issueHead
    dsimp only
    rw [if_neg (by simp only [unit_, Bool.false_or, Option.isSome_none]; exact Bool.eq_false_iff.mp sound)]
    exact congrArg _ ((issueWord_issues idle ready sound).trans done)
  · rw [tile]
    exact (enqueue_phase ..).trans head

end

end

end Sys2Proof.Machine

/-! Tile programs, the rest: EVENT_WAIT, UNIT_OP_COMPLETE, and the first trap, time-out or detection of a step (07 R152, R158, R161; 15
R346, R361). -/

namespace Sys2Proof.Machine

section
variable {s : State} {t : Nat} {c : Ctx} (ht : t < 32) (hb : bodyCtx s t = some c)
include ht hb

/-! ### EVENT_WAIT and UNIT_OP_COMPLETE (07 R152) -/

theorem eventWait_takes {ev n : Nat} (idle : (getTile s t).committing = false) (hev : ev < 16) : ∃ u, exec (.eventWait t ev n) s = .next u ∧
    getTile u t = (if n ≤ evCount (getTile s t) ev then { getTile s t with ev := tabPut ev (evCount (getTile s t) ev - n) (getTile s t).ev, waiting := none }
      else { getTile s t with waiting := some ⟨none, none, none, none, none, none, some (.evWait ev n)⟩ }) ∧
    (∀ k, k ≠ t → getTile u k = getTile s k) ∧ u = { s with tiles := u.tiles } := by
  have there : (tileOk t && decide (ev < 16)) = true := by simp [tileOk, ht, hev]
  have small : ev % 16 = ev := Nat.mod_eq_of_lt hev
  have next (u : State) (h : (if n ≤ evCount (getTile s t) ev then modTile t (fun x => takeEv ev n { x with waiting := none }) s
      else modTile t (fun x => { x with waiting := some ⟨none, none, none, none, none, none, some (.evWait ev n)⟩ }) s) = u) :
      exec (.eventWait t ev n) s = .next u := by
    show execEventWait t ev n s = _
    unfold execEventWait
    rw [onUnit_next there, hb]
    exact next_congr ((if_pos ⟨rfl, idle⟩).trans h)
  by_cases met : n ≤ evCount (getTile s t) ev
  · refine ⟨_, next _ (if_pos met), ?_, fun k other => getTile_modTile_ne _ _ other, rfl⟩
    rw [getTile_modTile, if_pos met]
    unfold takeEv
    rw [small]
    rfl
  · refine ⟨_, next _ (if_neg met), ?_, fun k other => getTile_modTile_ne _ _ other, rfl⟩
    rw [getTile_modTile, if_neg met]

theorem exec_unitOpComplete {un : TileUnit} {m : Nat} : exec (.unitOpComplete t un m none) s = .next (modTile t (fun x => addConflicts m (completeOp un x)) s) := by
  have there : tileOk t = true := decide_eq_true ht
  show execUnitOpComplete t un s m none = _
  unfold execUnitOpComplete
  dsimp only
  rw [onUnit_next there, hb]

end

/-- An operation that has ended leaves its queue, and its event is posted. -/
theorem completeOp_ends {x y z : Tile} {un : TileUnit} {e : Option Nat}
    (ended : (∃ o q, un = .channel ∧ x.qChannel = (o, true) :: q ∧ y = { x with qChannel := q } ∧ e = chanEvent o) ∨
      (∃ o q, un = .main ∧ mainEnded (verdictsIn x) x.qMain = some (o, q) ∧ e = mainEvent o ∧
        y = { x with qMain := q, passCount := if isPass o = true then x.passCount + 1 else x.passCount }) ∨
      (∃ a r l v q, un = .lateral ∧ x.qLateral = (.load a r l v, true) :: q ∧ y = { x with qLateral := q } ∧ e = v) ∨
      (∃ k v q, un = .lateral ∧ x.qLateral = (.extra k v, true) :: q ∧ y = { x with qLateral := q, passCount := x.passCount + 1 } ∧ e = v) ∨
      (∃ d b a v q, un = .load ∧ x.qLoad = (.xfer d b a v, true) :: q ∧ y = { x with qLoad := q } ∧ e = v) ∨
      (∃ d a v q, un = .store ∧ x.qStore = (.xfer d a v, true) :: q ∧ y = { x with qStore := q } ∧ e = v))
    (posted : z = postOpt e y) : completeOp un x = z := by
  subst posted
  unfold completeOp
  obtain ⟨o, q, rfl, front, rfl, rfl⟩ | ⟨o, q, rfl, front, rfl, rfl⟩ | ⟨a, r, l, v, q, rfl, front, rfl, rfl⟩ | ⟨k, v, q, rfl, front, rfl, rfl⟩ |
    ⟨d, b, a, v, q, rfl, front, rfl, rfl⟩ | ⟨d, a, v, q, rfl, front, rfl, rfl⟩ := ended
  all_goals
    dsimp only
    rw [front]
  all_goals rfl

/-! ### The first failure of a step (15 R361) -/

/-- The tile of `v` differs from that of `s` at most in its step times and its last detection. -/
structure Attempted (s v : State) (t : Nat) : Prop where
  tile : ∃ a m l, getTile v t = { getTile s t with stepAclk := a, stepMax := m, lastDetect := l }
  others : ∀ k, k ≠ t → getTile v k = getTile s k
  rest : v = { s with tiles := v.tiles }

section
variable {s v : State} {t : Nat} {c : Ctx} {f : Failure}

theorem Attempted.refl (s : State) (t : Nat) : Attempted s s t := ⟨⟨_, _, _, rfl⟩, fun _ _ => rfl, rfl⟩

/-- Only range and invariant failures are met again at their element (15 R363). -/
theorem sameRange_other (h : f.check ≠ 6 ∧ f.check ≠ 7) (g : Option Failure) : sameRange f g = false := by
  unfold sameRange
  split
  · simp [h.1, h.2]
  · rfl

/-- A failed attempt is noted as the tile's last detection, unless it is a trap. -/
def noteDetect (t : Nat) (f : Failure) (v : State) : State :=
  if f.check == 0 then v else modTile t (fun x => { x with lastDetect := some (now v) }) v

theorem noteDetect_attempted (v : State) (t : Nat) (f : Failure) : Attempted v (noteDetect t f v) t := by
  unfold noteDetect
  split
  · exact .refl v t
  · exact ⟨⟨_, _, _, getTile_modTile ..⟩, fun k other => getTile_modTile_ne _ _ other, rfl⟩

theorem failStep_first (hb : bodyCtx v t = some c) (fresh : c.attempt = 0) (other : f.check ≠ 6 ∧ f.check ≠ 7) (trap : f.check = 0 → c.moved ≠ 3)
    (calm : f.check ≠ 0 → recentDetect v t = false) : failStep t f v = restartStep t f (noteRecompute c (noteDetect t f v)) := by
  have hc := ctx_of_bodyCtx hb
  have body : (getTile v t).phase = .body := by
    by_contra no
    unfold bodyCtx at hb
    rw [if_neg no] at hb
    nomatch hb
  have noted : (if (f.check == 0) = true then v else modTile t (fun x => { x with lastDetect := some (now v) })
      (whenS (recentDetect v t) (faultEvent 2 f.check (.tile t) (runTenant v c.run) f.detail (runDigest v c.run)) v)) = noteDetect t f v := by
    unfold noteDetect
    by_cases zero : f.check = 0
    · simp [zero]
    · rw [if_neg (by simp [zero]), if_neg (by simp [zero]), calm zero]
      rfl
  obtain ⟨a, m, l, tile⟩ := (noteDetect_attempted v t f).tile
  unfold failStep
  rw [hc]
  dsimp only
  rw [if_neg (by simp [body]), if_pos fresh, noted, if_neg (by simp [sameRange_other other]), if_neg (by simpa using fun moved zero => trap zero moved), tile]
  dsimp only
  rw [if_pos (by simp [hc])]

/-- The tile back at the boundary of its step, the recomputation counted. -/
theorem restartStep_first {v : State} (attempted : Attempted s v t) (hc : (getTile s t).ctx = some c) (fresh : c.attempt = 0) :
    ∃ w, w = restartStep t f (noteRecompute c v) ∧
    (getTile w t).ctx = some { boundaryCtx (getTile s t) c with attempt := 1, lastFail := some f } ∧
    (getTile w t).qMain = [] ∧ (getTile w t).qLateral = [] ∧ (getTile w t).qChannel = [] ∧ (getTile w t).qLoad = [] ∧ (getTile w t).qStore = [] ∧
    (getTile w t).outbound = [] ∧ (getTile w t).committing = false ∧ (getTile w t).stepRecomputed = (getTile s t).stepRecomputed + 1 ∧
    (getTile w t).stepMax = (getTile v t).stepMax ∧ (∀ k, k ≠ t → getTile w k = getTile s k) ∧ (∀ k, k ≠ c.run → getRun? w k = getRun? s k) ∧
    (∀ x, getRun? s c.run = some x → getRun? w c.run = some (if c.moved = 0 then
      { x with recomputes := x.recomputes + 1, outcomes := addOutcomes [stRecomputed] x.outcomes } else x)) ∧
    w = { s with tiles := w.tiles, runs := w.runs } := by
  obtain ⟨⟨a, m, l, tile⟩, others, rest⟩ := attempted
  have runs : v.runs = s.runs := by rw [rest]
  have noted : noteRecompute c v = { v with runs := (noteRecompute c v).runs } := by
    unfold noteRecompute whenS
    split
    · exact modRun_eq ..
    · rfl
  have same (k : Nat) : getTile (noteRecompute c v) k = getTile v k := by rw [noted]; rfl
  have tile' : getTile (restartStep t f (noteRecompute c v)) t = _ := getTile_modTile ..
  rw [same, tile] at tile'
  have first : (c.attempt == 0 && c.moved == 0) = decide (c.moved = 0) := by
    rw [fresh]
    exact beq_eq_decide ..
  refine ⟨_, rfl, ?_, by rw [tile'], by rw [tile'], by rw [tile'], by rw [tile'], by rw [tile'], by rw [tile'], by rw [tile'], by rw [tile'], by rw [tile', tile],
    fun k other => ?_, fun k other => ?_, fun x run => ?_, ?_⟩
  · rw [tile']
    dsimp only
    rw [hc]
    dsimp only [Option.map_some]
    rw [fresh]
    rfl
  · exact (getTile_modTile_ne _ _ other).trans ((same k).trans (others k other))
  · refine Eq.trans ?_ (getRun?_of_runs runs k)
    show getRun? (noteRecompute c v) k = _
    unfold noteRecompute whenS
    split
    · exact getRun?_modRun_ne _ _ other
    · rfl
  · show getRun? (noteRecompute c v) c.run = _
    have run' : getRun? v c.run = some x := (getRun?_of_runs runs _).trans run
    unfold noteRecompute whenS
    rw [first]
    by_cases home : c.moved = 0
    · rw [if_pos (decide_eq_true home), if_pos home]
      exact getRun?_modRun _ run'
    · rw [if_neg (by simp [home]), if_neg home]
      exact run'
  · show modTile t _ (noteRecompute c v) = _
    rw [noted, rest]
    rfl

end

/-! ### TILE_TRAP, STEP_TIME_LIMIT and a detection (07 R158, R161; 15 R346) -/

/-- The step-time counter at its limit. -/
def atLimit (t : Nat) (s : State) : State := modTile t (fun x => stepMaxed { x with stepAclk := stepLimit }) s

section
variable {s : State} {t : Nat} {c : Ctx}

theorem atLimit_tile (s : State) (t : Nat) : getTile (atLimit t s) t = stepMaxed { getTile s t with stepAclk := stepLimit } := getTile_modTile ..

theorem atLimit_attempted (s : State) (t : Nat) : Attempted s (atLimit t s) t :=
  ⟨⟨_, _, _, atLimit_tile s t⟩, fun _ other => getTile_modTile_ne _ _ other, rfl⟩

theorem Attempted.trans {u v : State} (p : Attempted s u t) (q : Attempted u v t) : Attempted s v t := by
  obtain ⟨⟨a, m, l, tile⟩, others, rest⟩ := p
  obtain ⟨⟨a', m', l', tile'⟩, others', rest'⟩ := q
  exact ⟨⟨a', m', l', by rw [tile', tile]⟩, fun k other => (others' k other).trans (others k other), by rw [rest', rest]⟩

theorem bodyCtx_atLimit (hb : bodyCtx s t = some c) : bodyCtx (atLimit t s) t = some c := by
  unfold bodyCtx at hb ⊢
  rw [atLimit_tile]
  exact hb

theorem recentDetect_atLimit : recentDetect (atLimit t s) t = recentDetect s t := by
  unfold recentDetect
  rw [atLimit_tile]
  rfl

theorem stepMax_limit (x : Tile) : 141000 ≤ (stepMaxed { x with stepAclk := stepLimit }).stepMax.toNat := by
  unfold stepMaxed stepLimit
  dsimp only
  split
  · decide
  · omega

section
variable (ht : t < 32)
include ht

theorem exec_tileTrap : exec (.tileTrap t) s = .next (schedule (failStep t ⟨0, 0, 0, 0⟩ s)) := onUnit_next (decide_eq_true ht) _

theorem exec_stepTimeLimit (body : (getTile s t).phase = .body) :
    exec (.stepTimeLimit t) s = .next (schedule (failStep t ⟨9, 0, 0, 0⟩ (atLimit t s))) :=
  (onUnit_next (decide_eq_true ht) _).trans (next_congr (if_pos body))

theorem exec_unitOpComplete_found {un : TileUnit} {m : Nat} {d : Detection} (hb : bodyCtx s t = some c) (fresh : c.attempt = 0) :
    exec (.unitOpComplete t un m (some d)) s = .next (schedule (failStep t (detectedFailure d) s)) := by
  have there : tileOk t = true := decide_eq_true ht
  show execUnitOpComplete t un s m (some d) = _
  unfold execUnitOpComplete
  dsimp only
  rw [onUnit_next there, hb]
  cases d with
  | parity p =>
    have unmet : parityStored s t p = false := by
      unfold parityStored
      rw [ctx_of_bodyCtx hb]
      simp [fresh]
    exact next_congr (if_neg (by simp [unmet]))
  | residue => rfl
  | sequencer => rfl

end

theorem detectedFailure_check (d : Detection) : (detectedFailure d).check ≠ 0 ∧ (detectedFailure d).check ≠ 6 ∧ (detectedFailure d).check ≠ 7 := by
  cases d <;> simp [detectedFailure]

/-- The step's failed attempt, from the state in which it failed. -/
theorem restarts {v : State} {f : Failure} {i : Instr} (before : Attempted s v t) (hb : bodyCtx v t = some c) (hc : (getTile s t).ctx = some c)
    (fresh : c.attempt = 0) (other : f.check ≠ 6 ∧ f.check ≠ 7) (trap : f.check = 0 → c.moved ≠ 3) (calm : f.check ≠ 0 → recentDetect v t = false)
    (next : exec i s = .next (schedule (failStep t f v))) (limit : i = .stepTimeLimit t → 141000 ≤ (getTile v t).stepMax.toNat) :
    ∃ u, exec i s = .next (schedule u) ∧ (getTile u t).ctx = some { boundaryCtx (getTile s t) c with attempt := 1, lastFail := some f } ∧
    (getTile u t).qMain = [] ∧ (getTile u t).qLateral = [] ∧ (getTile u t).qChannel = [] ∧ (getTile u t).qLoad = [] ∧ (getTile u t).qStore = [] ∧
    (getTile u t).outbound = [] ∧ (getTile u t).committing = false ∧ (getTile u t).stepRecomputed = (getTile s t).stepRecomputed + 1 ∧
    (i = .stepTimeLimit t → 141000 ≤ (getTile u t).stepMax.toNat) ∧
    (∀ k, k ≠ t → getTile u k = getTile s k) ∧ (∀ k, k ≠ c.run → getRun? u k = getRun? s k) ∧
    (∀ x, getRun? s c.run = some x → getRun? u c.run = some (if c.moved = 0 then
      { x with recomputes := x.recomputes + 1, outcomes := addOutcomes [stRecomputed] x.outcomes } else x)) ∧
    u = { s with tiles := u.tiles, runs := u.runs } := by
  obtain ⟨w, hw, ctx, q1, q2, q3, q4, q5, out, committing, again, most, rest⟩ :=
    restartStep_first (f := f) (before.trans (noteDetect_attempted v t f)) hc fresh
  have kept : (getTile (noteDetect t f v) t).stepMax = (getTile v t).stepMax := by
    unfold noteDetect
    split
    · rfl
    · rw [getTile_modTile]
  refine ⟨w, ?_, ctx, q1, q2, q3, q4, q5, out, committing, again, fun e => ?_, rest⟩
  · rw [next, failStep_first hb fresh other trap calm, hw]
  · rw [most, kept]
    exact limit e

end

/-! ### The statement -/

/-- Settles O40. A word is `TAt.issued`, or begins the body; an ended operation is `completeOp_ends`; a first failure goes back to the
step's boundary (`restarts`). -/
theorem tileProgramsRun : Obligations.TileProgramsRun := by
  unfold Obligations.TileProgramsRun
  refine ⟨fun s t c ht hc idle => ⟨fun w m body ready sound noStore load reg => ?issues,
      fun w rs ra off a body ready sound slot ha mine => longWordIssue_stores ht hc idle body ready sound slot ha mine,
      fun w body waits => longWordIssue_waits ht hc idle body waits,
      fun w d head quiet awake => ⟨fun noWait free => longWordIssue_begins ht hc head quiet awake noWait free, fun a b n sync released hd => ?released⟩⟩,
    fun s t c ht hc body => ?units⟩
  case issues =>
    obtain ⟨u, poison, next, tile, mem, work⟩ := longWordIssue_issues ht hc idle body ready sound noStore load reg
    exact ⟨u, _, next, rfl, by rw [tile]; rfl, by rw [tile], by rw [tile], by rw [tile], by rw [tile], by rw [tile], by rw [tile], by rw [tile], by rw [tile],
      by rw [tile], by rw [tile]; exact enqueue_wordIssued .., mem, work⟩
  case released =>
    subst hd
    exact ⟨fun unit_ => longWordIssue_released_unit ht hc head quiet awake sync released unit_, fun unit_ sound noMem =>
      longWordIssue_released_scalar ht hc head quiet awake idle sync released unit_ sound noMem⟩
  case units =>
    have hb : bodyCtx s t = some c := by
      unfold bodyCtx
      rw [if_pos body, hc]
    refine ⟨fun ev n idle hev => eventWait_takes ht hb idle hev, fun un m y z e ended posted => ?_, fun i f un m fresh failed => ?_⟩
    · refine ⟨_, exec_unitOpComplete ht hb, ?_, fun k other => getTile_modTile_ne _ _ other, rfl⟩
      rw [getTile_modTile, completeOp_ends (x := getTile s t) ended (posted.trans (by cases e <;> rfl))]
      rfl
    · obtain ⟨rfl, home, rfl⟩ | ⟨rfl, calm, rfl⟩ | ⟨d, rfl, calm, rfl⟩ := failed
      · exact restarts (.refl s t) hb hc fresh (by decide) (fun _ => home) (fun no => absurd rfl no) (exec_tileTrap ht) (fun e => nomatch e)
      · exact restarts (atLimit_attempted s t) (bodyCtx_atLimit hb) hc fresh (by decide) (fun no => absurd no (by decide))
          (fun _ => recentDetect_atLimit.trans calm) (exec_stepTimeLimit ht body) (fun _ => by rw [atLimit_tile]; exact stepMax_limit _)
      · obtain ⟨some_, notSix, notSeven⟩ := detectedFailure_check d
        exact restarts (.refl s t) hb hc fresh ⟨notSix, notSeven⟩ (fun no => absurd no some_) (fun _ => calm) (exec_unitOpComplete_found ht hb fresh)
          (fun e => nomatch e)

end Sys2Proof.Machine

/-! The arrays (02 R23 to R37; 03 R63 to R66): the entries that a pass and an extra lateral slot leave in their bank, and the rows
MAIN_PASS, LATERAL_LOAD and EXTRA_LATERAL_SLOT. -/

namespace Sys2Proof.Machine

/-! ### Entries of a bank -/

/-- An entry as a bank holds it. -/
theorem tabGet?_putCell_same (k : Nat) (v : Option Nat) (cells : Tab W32) : tabGet? k (putCell k v cells) = v.map (BitVec.ofNat 32) := by
  cases v with
  | none => exact tabGet?_tabDel_same ..
  | some w => exact tabGet?_tabPut_same ..

theorem tabGet?_putCell_ne {k j : Nat} (other : j ≠ k) (v : Option Nat) (cells : Tab W32) : tabGet? j (putCell k v cells) = tabGet? j cells := by
  cases v with
  | none => exact tabGet?_tabDel_ne other cells
  | some w => exact tabGet?_tabPut_ne other ..

theorem cellKey_inj {i j n k : Nat} (hn : n < 1024) (hk : k < 1024) (e : cellKey i n = cellKey j k) : i = j ∧ n = k := by
  unfold cellKey at e
  omega

/-- The entries of row `i` in the first `N` columns, each from what it held. -/
def putRow (i N : Nat) (F : Nat → Option W32 → Option Nat) (cells : Tab W32) : Tab W32 :=
  (List.range N).foldl (fun t n => putCell (cellKey i n) (F n (tabGet? (cellKey i n) t)) t) cells

theorem tabGet?_putRow {i j n N : Nat} (F : Nat → Option W32 → Option Nat) (cells : Tab W32) (hN : N ≤ 1024) (hn : n < 1024) :
    tabGet? (cellKey j n) (putRow i N F cells) =
      if j = i ∧ n < N then (F n (tabGet? (cellKey j n) cells)).map (BitVec.ofNat 32) else tabGet? (cellKey j n) cells := by
  unfold putRow
  induction N with
  | zero => rw [if_neg (by omega)]; rfl
  | succ N ih =>
    rw [List.range_succ, List.foldl_append, List.foldl_cons, List.foldl_nil]
    have before := ih (by omega)
    by_cases here : j = i ∧ n = N
    · obtain ⟨rfl, rfl⟩ := here
      rw [tabGet?_putCell_same, before, if_neg (by omega), if_pos (by omega)]
    · rw [tabGet?_putCell_ne (fun e => here (cellKey_inj hn (by omega) e)), before]
      by_cases early : j = i ∧ n < N
      · rw [if_pos early, if_pos (by omega)]
      · rw [if_neg early, if_neg (by omega)]

/-- Rows put one after the other, at most one for each number: every entry is that of its own row. -/
theorem tabGet?_putRows {α : Type} (num width : α → Nat) (F : α → Nat → Option W32 → Option Nat) (l : List α) (distinct : (l.map num).Nodup)
    (narrow : ∀ e ∈ l, width e ≤ 1024) {j n : Nat} (hn : n < 1024) (cells : Tab W32) :
    (∀ e ∈ l, num e = j → tabGet? (cellKey j n) (l.foldl (fun t e => putRow (num e) (width e) (F e) t) cells) =
      if n < width e then (F e n (tabGet? (cellKey j n) cells)).map (BitVec.ofNat 32) else tabGet? (cellKey j n) cells) ∧
    ((∀ e ∈ l, num e ≠ j) → tabGet? (cellKey j n) (l.foldl (fun t e => putRow (num e) (width e) (F e) t) cells) = tabGet? (cellKey j n) cells) := by
  induction l generalizing cells with
  | nil => exact ⟨fun e mem => absurd mem List.not_mem_nil, fun _ => rfl⟩
  | cons a l ih =>
    rw [List.map_cons] at distinct
    obtain ⟨fresh, distinct⟩ := List.nodup_cons.mp distinct
    obtain ⟨own, others⟩ := ih distinct (fun e mem => narrow e (List.mem_cons_of_mem _ mem)) (putRow (num a) (width a) (F a) cells)
    have first := tabGet?_putRow (i := num a) (j := j) (F a) cells (narrow a List.mem_cons_self) hn
    refine ⟨fun e mem he => ?_, fun none_ => ?_⟩
    · rw [List.foldl_cons]
      obtain rfl | later := List.mem_cons.mp mem
      · rw [others (fun x hx same => fresh (List.mem_map.mpr ⟨x, hx, same.trans he.symm⟩)), first]
        by_cases inside : n < width e
        · rw [if_pos ⟨he.symm, inside⟩, if_pos inside]
        · rw [if_neg (fun h => inside h.2), if_neg inside]
      · have apart : ¬(j = num a ∧ n < width a) := fun h => fresh (List.mem_map.mpr ⟨e, later, he.trans h.1⟩)
        rw [own e later he, first, if_neg apart]
    · rw [List.foldl_cons, others fun e mem => none_ e (List.mem_cons_of_mem _ mem), first, if_neg fun h => none_ a List.mem_cons_self h.1.symm]

/-! ### The rows of a pass with their lateral work (02 R34 to R37) -/

/-- A row of a pass: its activations, its number, its group, the lateral block that the group took, and its place in the group. -/
abbrev PlanRow := List Nat × Nat × RowGroup × Option LatBlock × Nat

section
variable (s : State) (t : Nat) (c : Ctx) (p : PassOp)

/-- The rows of a pass that took the lateral blocks `lats`. -/
def passPlan (lats : List LatBlock) : List PlanRow :=
  ((((List.range p.rows).map (tileRow s t c p)).zipIdx.zip (rowPlan p lats)).map fun e => (e.1.1, e.1.2, e.2.1, e.2.2.1, e.2.2.2))

/-- The outlier values of a row. -/
def planOuts (e : PlanRow) : List Nat :=
  unpackBytes 16 (tileBytes s t c 4 (e.2.2.1.outAddr + 2 * e.2.2.1.outliers.length * e.2.2.2.2) (2 * e.2.2.1.outliers.length))

/-- The lateral work of a row in slot `slot`. -/
def planLat (slot : Nat) (e : PlanRow) : Option (RowGroup × LatBlock × List Fl) :=
  e.2.2.2.1.map fun b => (e.2.2.1, b, laneVals e.2.2.1 b (mergedRow p e.2.2.1 e.1 (planOuts s t c e)) (planOuts s t c e) slot)

end

/-- An entry of a row of a pass, from what it held. -/
def passEntry (p : PassOp) (fp32 : Bool) (w : List (List Nat)) (x : List Nat) (lat : Option (RowGroup × LatBlock × List Fl)) (n : Nat) (old : Option W32) :
    Option Nat :=
  if (match lat with
    | some (g, _, _) => decide (n < 512) && !groupOk g
    | none => false) then none
  else passCell p p.fresh fp32 lat.isSome old x (column w n) (match lat with
    | some (g, b, lv) => if n < 512 then some (latSum g b lv 0 n) else none
    | none => none)

/-- An entry of a row of an extra slot, from what it held. -/
def slotEntry (slot : Nat) (lat : Option (RowGroup × LatBlock × List Fl)) (n : Nat) (old : Option W32) : Option Nat :=
  match lat with
  | some (g, b, lv) => if groupOk g then old.map fun w => fadd w.toNat (latSum g b lv slot n) else none
  | none => none

theorem rowCells_eq (p : PassOp) (fp32 : Bool) (w : List (List Nat)) (i : Nat) (x : List Nat) (lat : Option (RowGroup × LatBlock × List Fl)) (cells : Tab W32) :
    rowCells p fp32 w i x lat cells = putRow i (modeN p.mode) (passEntry p fp32 w x lat) cells := by
  cases lat <;> rfl

theorem modeN_le (m : Mode) : modeN m ≤ 1024 := by cases m <;> decide

section
variable {s : State} {t : Nat} {c : Ctx} {p : PassOp} {x : TAcc}

/-- A row's outlier values lie in the tenant's memory. -/
def PlanMine (s : State) (t : Nat) (c : Ctx) (e : PlanRow) : Prop :=
  e.2.2.2.1.isSome = true → tileMine s t c 4 (e.2.2.1.outAddr + 2 * e.2.2.1.outliers.length * e.2.2.2.2) (2 * e.2.2.1.outliers.length)

theorem TReads.outlierVals (reads : TReads 4 s t c x) {e : PlanRow} (mine : PlanMine s t c e) (some_ : e.2.2.2.1.isSome = true) :
    (Machine.outlierVals e.2.2.1 e.2.2.2.2 x).1 = planOuts s t c e ∧ TReads 4 s t c (Machine.outlierVals e.2.2.1 e.2.2.2.2 x).2 := by
  obtain ⟨bytes, reads'⟩ := TReads.tRead reads (by decide) (mine some_)
  exact ⟨congrArg (unpackBytes 16) bytes, reads'⟩

theorem passRows_reads (fp32 : Bool) (w : List (List Nat)) (l : List PlanRow) (mine : ∀ e ∈ l, PlanMine s t c e) (reads : TReads 4 s t c x) (cells : Tab W32) :
    (passRows p fp32 w l (cells, x)).1 = l.foldl (fun k e => putRow e.2.1 (modeN p.mode) (passEntry p fp32 w e.1 (planLat s t c p 0 e)) k) cells ∧
    TReads 4 s t c (passRows p fp32 w l (cells, x)).2 := by
  induction l generalizing x cells with
  | nil => exact ⟨rfl, reads⟩
  | cons e l ih =>
    obtain ⟨row, i, g, b, j⟩ := e
    have rest := fun {x : TAcc} (reads : TReads 4 s t c x) => ih (fun e mem => mine e (List.mem_cons_of_mem _ mem)) reads
    cases b with
    | none =>
      unfold passRows
      dsimp only
      rw [rowCells_eq]
      exact rest reads _
    | some b =>
      obtain ⟨outs, reads'⟩ := reads.outlierVals (mine (row, i, g, some b, j) List.mem_cons_self) rfl
      unfold passRows
      dsimp only
      dsimp only at outs
      rw [rowCells_eq, outs]
      exact rest reads' _

theorem slotRows_reads (slot : Nat) (l : List PlanRow) (mine : ∀ e ∈ l, PlanMine s t c e) (reads : TReads 4 s t c x) (cells : Tab W32) :
    (slotRows p slot l (cells, x)).1 = l.foldl (fun k e =>
      putRow e.2.1 (if e.2.2.2.1.isSome then min 512 (modeN p.mode) else 0) (slotEntry slot (planLat s t c p slot e)) k) cells ∧
    TReads 4 s t c (slotRows p slot l (cells, x)).2 := by
  induction l generalizing x cells with
  | nil => exact ⟨rfl, reads⟩
  | cons e l ih =>
    obtain ⟨row, i, g, b, j⟩ := e
    have rest := fun {x : TAcc} (reads : TReads 4 s t c x) => ih (fun e mem => mine e (List.mem_cons_of_mem _ mem)) reads
    cases b with
    | none => exact rest reads _
    | some b =>
      obtain ⟨outs, reads'⟩ := reads.outlierVals (mine (row, i, g, some b, j) List.mem_cons_self) rfl
      unfold slotRows
      dsimp only
      dsimp only at outs
      rw [outs]
      exact rest reads' _

theorem actRows_reads (l : List Nat) (mine : ∀ i ∈ l, tileMine s t c 4 (p.acts + i * p.actStride) (elBytes p.actFmt (modeK p.mode)))
    (reads : TReads 4 s t c x) : (actRows p l x).1 = l.map (tileRow s t c p) ∧ TReads 4 s t c (actRows p l x).2 := by
  induction l generalizing x with
  | nil => exact ⟨rfl, reads⟩
  | cons i l ih =>
    obtain ⟨row, reads'⟩ := reads.tRead (by decide) (mine i List.mem_cons_self)
    obtain ⟨rows, reads''⟩ := ih (fun j mem => mine j (List.mem_cons_of_mem _ mem)) reads'
    exact ⟨congrArg₂ List.cons (congrArg (unpackBytes (actBits p)) row) rows, reads''⟩

/-! ### The plan, row by row -/

variable {lats : List LatBlock}

theorem passPlan_nums : (passPlan s t c p lats).map (·.2.1) = List.range (passPlan s t c p lats).length := by
  refine List.ext_getElem (by simp) fun i hi hi' => ?_
  simp [passPlan]

theorem mem_passPlan {e : PlanRow} (mem : e ∈ passPlan s t c p lats) : e.2.1 < p.rows ∧ ∃ r, (rowPlan p lats)[e.2.1]? = some r ∧
    e = (tileRow s t c p e.2.1, e.2.1, r.1, r.2.1, r.2.2) := by
  obtain ⟨i, hi, rfl⟩ := List.mem_iff_getElem.mp mem
  have inside : i < p.rows ∧ i < (rowPlan p lats).length := by simpa [passPlan] using hi
  refine ⟨by simpa [passPlan] using inside.1, (rowPlan p lats)[i], ?_, ?_⟩
  · simp [passPlan, inside.2]
  · simp [passPlan]

theorem passPlan_has {j : Nat} {r : RowGroup × Option LatBlock × Nat} (hj : j < p.rows) (at_ : (rowPlan p lats)[j]? = some r) :
    (tileRow s t c p j, j, r.1, r.2.1, r.2.2) ∈ passPlan s t c p lats := by
  obtain ⟨inside, rfl⟩ := List.getElem?_eq_some_iff.mp at_
  refine List.mem_iff_getElem.mpr ⟨j, by simpa [passPlan] using ⟨hj, inside⟩, by simp [passPlan]⟩

theorem planMine_of_passMine (mine : passMine s t c p lats) : ∀ e ∈ passPlan s t c p lats, PlanMine s t c e := by
  intro e mem some_
  obtain ⟨-, r, at_, same⟩ := mem_passPlan mem
  rw [same] at some_ ⊢
  exact mine.2 r (List.mem_of_getElem? at_) some_

end

/-! ### MAIN_PASS (02 R24 to R33; 15 R350) -/

/-- A context with bank `b` as given. -/
def withBank (b : Bool) (k : Bank) (c : Ctx) : Ctx := if b then { c with bankB := k } else { c with bankA := k }

theorem bankOf_withBank (b : Bool) (k : Bank) (c : Ctx) : bankOf (withBank b k c) b = k ∧ bankOf (withBank b k c) (!b) = bankOf c (!b) := by
  cases b <;> exact ⟨rfl, rfl⟩

theorem getTile_setBank (t : Nat) (b : Bool) (k : Bank) (u : State) :
    getTile (setBank t b k u) t = { getTile u t with ctx := (getTile u t).ctx.map (withBank b k) } := getTile_modTile ..

/-- What a pass leaves in its tile: its block swapped in, its trace and check group, its rows' entries. -/
def passBooks (t i : Nat) (p : PassOp) (x : Tile) (took : List LatBlock) (fp32 : Bool) (w : List Byte) (cells : Tab W32) (u : State) : State :=
  markMain i t (setBank t p.bankB ⟨fp32, false, cells⟩ (modTile t (fun y =>
    { y with active := w, shadow := y.active, lats := y.lats.drop (latsNeeded p),
             trace := some ⟨p, w, took, y.groupMain % 64, y.groupIn % 8, y.groupOut % 64, 0⟩,
             groupMain := y.groupMain + 1, groupIn := y.groupIn + b2n (decide (0 < latsNeeded p)), groupOut := y.groupOut + b2n (decide (0 < latsNeeded p)),
             issueAclk := y.issueAclk + BitVec.ofNat 64 p.rows, waitPause := y.waitPause + BitVec.ofNat 64 (pauseAclk u t),
             waitWeight := y.waitWeight + BitVec.ofNat 64 (weightWait x p),
             waitLateral := y.waitLateral + BitVec.ofNat 64 (lateralWaits (lastRows x) p.groups) }) u))

section
variable {s : State} {t : Nat} {c : Ctx} (ht : t < 32) (hb : bodyCtx s t = some c)
include ht hb

section
variable {i : Nat} {p : PassOp} {took : List LatBlock} {fp32 : Bool} (next : passAt (getTile s t).qMain 0 = some (i, p)) (free : bankWaits (getTile s t) = false)
  (landed : latsNeeded p ≤ (getTile s t).lats.length) (htook : took = (getTile s t).lats.take (latsNeeded p))
  (block : tileMine s t c 4 (passBlock p) (512 * modeK p.mode)) (mine : passMine s t c p took)
  (hfp : fp32 = (if p.fresh then !modeInt p.mode || decide (0 < latsNeeded p) else (bankOf c p.bankB).fp32))
include next free landed htook block mine hfp

/-- The entries of a pass's bank after it. -/
def passCells (s : State) (t : Nat) (c : Ctx) (p : PassOp) (took : List LatBlock) (fp32 : Bool) : Tab W32 :=
  (passPlan s t c p took).foldl (fun k e => putRow e.2.1 (modeN p.mode)
    (passEntry p fp32 (blockRows p.mode (tileBytes s t c 4 (passBlock p) (512 * modeK p.mode))) e.1 (planLat s t c p 0 e)) k)
    (if p.fresh then [] else (bankOf c p.bankB).cells)

theorem exec_mainPass : ∃ poison outs, exec (.mainPass t) s = .next (passBooks t i p (getTile s t) took fp32
    (tileBytes s t c 4 (passBlock p) (512 * modeK p.mode)) (passCells s t c p took fp32) (unitRan t c s.mem poison outs s)) := by
  have there : tileOk t = true := decide_eq_true ht
  obtain ⟨bytes, reads⟩ := (TReads.start 4 s t c).tRead (by decide) block
  obtain ⟨acts, reads⟩ := actRows_reads (List.range p.rows) (fun i mem => mine.1 i (List.mem_range.mp mem)) reads
  obtain ⟨cells, reads⟩ := passRows_reads (p := p) fp32 (blockRows p.mode (tileBytes s t c 4 (passBlock p) (512 * modeK p.mode))) (passPlan s t c p took)
    (planMine_of_passMine mine) reads (if p.fresh then [] else (bankOf c p.bankB).cells)
  obtain ⟨poison, outs, done⟩ := reads.at.finishT (passBooks t i p (getTile s t) took fp32
    (tileBytes s t c 4 (passBlock p) (512 * modeK p.mode)) (passCells s t c p took fp32))
  refine ⟨poison, outs, ?_⟩
  rw [← done]
  show execMainPass t s = _
  unfold execMainPass
  rw [onUnit_next there, hb, next]
  dsimp only
  rw [if_neg (by simp [free, landed]), ← htook, ← hfp, acts, bytes]
  unfold passCells
  rw [← cells]
  rfl

end

end

/-! ### The entry of a row and a column after a pass -/

section
variable {s : State} {t : Nat} {c : Ctx} {p : PassOp} {lats : List LatBlock} {j n : Nat} {r : RowGroup × Option LatBlock × Nat}

theorem tileLat_eq (slot : Nat) (at_ : (rowPlan p lats)[j]? = some r) : tileLat s t c p lats slot j n =
    (planLat s t c p slot (tileRow s t c p j, j, r.1, r.2.1, r.2.2)).bind fun e => if n < 512 then some (latSum e.1 e.2.1 e.2.2 slot n) else none := by
  obtain ⟨g, b, k⟩ := r
  unfold tileLat
  rw [at_]
  cases b <;> rfl

theorem passEntry_eq (fp32 : Bool) (w : List (List Nat)) (old : Option W32) (at_ : (rowPlan p lats)[j]? = some r) :
    (passEntry p fp32 w (tileRow s t c p j) (planLat s t c p 0 (tileRow s t c p j, j, r.1, r.2.1, r.2.2)) n old).map (BitVec.ofNat 32) =
      if r.2.1.isSome = true ∧ n < 512 ∧ groupOk r.1 = false then none
      else (passCell p p.fresh fp32 r.2.1.isSome old (tileRow s t c p j) (column w n) (tileLat s t c p lats 0 j n)).map (BitVec.ofNat 32) := by
  rw [tileLat_eq 0 at_]
  obtain ⟨g, b, k⟩ := r
  cases b with
  | none => simp [passEntry, planLat]
  | some b =>
    by_cases bad : n < 512 ∧ groupOk g = false
    · rw [if_pos ⟨rfl, bad⟩]
      simp [passEntry, planLat, bad]
    · rw [if_neg fun h => bad h.2]
      have fine : (decide (n < 512) && !groupOk g) = false := by
        rw [Bool.and_eq_false_iff, decide_eq_false_iff_not, Bool.not_eq_false']
        by_cases low : n < 512
        · exact .inr (by simpa using fun h => bad ⟨low, h⟩)
        · exact .inl low
      simp [passEntry, planLat, fine]

theorem tabGet?_passCells {took : List LatBlock} {fp32 : Bool} (hj : j < p.rows) (hn : n < modeN p.mode) (at_ : (rowPlan p took)[j]? = some r) :
    tabGet? (cellKey j n) (passCells s t c p took fp32) = if r.2.1.isSome = true ∧ n < 512 ∧ groupOk r.1 = false then none
      else (passCell p p.fresh fp32 r.2.1.isSome (if p.fresh then none else tabGet? (cellKey j n) (bankOf c p.bankB).cells) (tileRow s t c p j)
        (column (blockRows p.mode (tileBytes s t c 4 (passBlock p) (512 * modeK p.mode))) n) (tileLat s t c p took 0 j n)).map (BitVec.ofNat 32) := by
  have distinct : ((passPlan s t c p took).map (·.2.1)).Nodup := passPlan_nums ▸ List.nodup_range
  have entry := (tabGet?_putRows (fun e : PlanRow => e.2.1) (fun _ => modeN p.mode)
    (fun e => passEntry p fp32 (blockRows p.mode (tileBytes s t c 4 (passBlock p) (512 * modeK p.mode))) e.1 (planLat s t c p 0 e))
    (passPlan s t c p took) distinct (fun _ _ => modeN_le _) (hn.trans_le (modeN_le _)) (if p.fresh then [] else (bankOf c p.bankB).cells)).1
    _ (passPlan_has hj at_) rfl
  unfold passCells
  rw [entry, if_pos hn, passEntry_eq _ _ _ at_]
  have old : tabGet? (cellKey j n) (if p.fresh then [] else (bankOf c p.bankB).cells) =
      if p.fresh then none else tabGet? (cellKey j n) (bankOf c p.bankB).cells := by split <;> rfl
  rw [old]

end

/-! ### LATERAL_LOAD (02 R35) -/

/-- A lateral block lands in the shadow. -/
def lateralBooks (t : Nat) (b : LatBlock) (u : State) : State := doneLateral t (modTile t (fun y => { y with lats := y.lats ++ [b] }) u)

section
variable {s : State} {t : Nat} {c : Ctx} (ht : t < 32) (hb : bodyCtx s t = some c)
include ht hb

theorem lateralLoad_lands {addr rank : Nat} {outs : List Nat} {e : Option Nat} (front : frontOp (getTile s t).qLateral = some (.load addr rank outs e))
    (ma : tileMine s t c 4 addr (1024 * rank)) (mb : tileMine s t c 4 (addr + 1024 * rank) (1024 * rank))
    (mo : tileMine s t c 4 (addr + 2048 * rank) (1024 * outs.length)) :
    ∃ u, exec (.lateralLoad t) s = .next u ∧ (getTile u t).qLateral = markFront (getTile s t).qLateral ∧
      (getTile u t).lats = (getTile s t).lats ++ [⟨rank, outs, words16 (tileBytes s t c 4 addr (1024 * rank)),
        words16 (tileBytes s t c 4 (addr + 1024 * rank) (1024 * rank)), words16 (tileBytes s t c 4 (addr + 2048 * rank) (1024 * outs.length))⟩] ∧
      u.mem = s.mem ∧ TileWork s u t := by
  have there : tileOk t = true := decide_eq_true ht
  obtain ⟨a, reads⟩ := (TReads.start 4 s t c).tRead (by decide) ma
  obtain ⟨b, reads⟩ := reads.tRead (by decide) mb
  obtain ⟨o, reads⟩ := reads.tRead (by decide) mo
  obtain ⟨poison, met, done⟩ := reads.at.finishT (lateralBooks t ⟨rank, outs, words16 (tileBytes s t c 4 addr (1024 * rank)),
    words16 (tileBytes s t c 4 (addr + 1024 * rank) (1024 * rank)), words16 (tileBytes s t c 4 (addr + 2048 * rank) (1024 * outs.length))⟩)
  have next : exec (.lateralLoad t) s = .next (lateralBooks t ⟨rank, outs, words16 (tileBytes s t c 4 addr (1024 * rank)),
      words16 (tileBytes s t c 4 (addr + 1024 * rank) (1024 * rank)), words16 (tileBytes s t c 4 (addr + 2048 * rank) (1024 * outs.length))⟩
      (unitRan t c s.mem poison met s)) := by
    rw [← done]
    show execLateralLoad t s = _
    unfold execLateralLoad
    rw [onUnit_next there, hb, front]
    dsimp only
    rw [a, b, o]
    rfl
  refine ⟨_, next, ?_, ?_, unitRan_mem .., TileWork.modTile (unitRan_books _ _ _ (.refl s) (fun _ _ => rfl) _) _⟩
  · unfold lateralBooks doneLateral
    rw [getTile_modTile, getTile_modTile, unitRan_tile]
  · unfold lateralBooks doneLateral
    rw [getTile_modTile, getTile_modTile, unitRan_tile]

end

/-! ### EXTRA_LATERAL_SLOT (02 R34, R36) -/

section
variable {s : State} {t : Nat} {c : Ctx} (ht : t < 32) (hb : bodyCtx s t = some c) {slot : Nat} {e : Option Nat} {tr : PassTrace}

/-- The entries of the bank after an extra slot. -/
def slotCells (s : State) (t : Nat) (c : Ctx) (tr : PassTrace) (slot : Nat) : Tab W32 :=
  (passPlan s t c tr.op tr.lats).foldl (fun k e => putRow e.2.1 (if e.2.2.2.1.isSome then min 512 (modeN tr.op.mode) else 0)
    (slotEntry slot (planLat s t c tr.op slot e)) k) (bankOf c tr.op.bankB).cells

/-- What an extra slot leaves in its tile. -/
def slotBooks (t : Nat) (c : Ctx) (tr : PassTrace) (cells : Tab W32) (u : State) : State :=
  doneLateral t (setBank t tr.op.bankB { bankOf c tr.op.bankB with cells := cells }
    (modTile t (fun y => { y with waitLateral := y.waitLateral + BitVec.ofNat 64 tr.op.rows }) u))

include ht hb in
theorem exec_extraLateralSlot (front : frontOp (getTile s t).qLateral = some (.extra slot e)) (htr : (getTile s t).trace = some tr)
    (mine : passMine s t c tr.op tr.lats) : ∃ poison outs, exec (.extraLateralSlot t) s = .next
      (slotBooks t c tr (slotCells s t c tr slot) (unitRan t c s.mem poison outs s)) := by
  have there : tileOk t = true := decide_eq_true ht
  obtain ⟨acts, reads⟩ := actRows_reads (List.range tr.op.rows) (fun i mem => mine.1 i (List.mem_range.mp mem)) (TReads.start 4 s t c)
  obtain ⟨cells, reads⟩ := slotRows_reads (p := tr.op) slot (passPlan s t c tr.op tr.lats) (planMine_of_passMine mine) reads (bankOf c tr.op.bankB).cells
  obtain ⟨poison, outs, done⟩ := reads.at.finishT (slotBooks t c tr (slotCells s t c tr slot))
  refine ⟨poison, outs, ?_⟩
  rw [← done]
  show execExtraLateralSlot t s = _
  unfold execExtraLateralSlot
  rw [onUnit_next there, hb, front, htr]
  dsimp only
  rw [acts]
  unfold slotCells
  rw [← cells]
  rfl

theorem tabGet?_slotCells (i n : Nat) (hn : n < 1024) : tabGet? (cellKey i n) (slotCells s t c tr slot) =
    if i < tr.op.rows ∧ n < modeN tr.op.mode ∧ (tileLat s t c tr.op tr.lats slot i n).isSome = true then
      if (((rowPlan tr.op tr.lats)[i]?).map fun z => groupOk z.1) = some true then
        (tabGet? (cellKey i n) (bankOf c tr.op.bankB).cells).map fun w => BitVec.ofNat 32 (fadd w.toNat ((tileLat s t c tr.op tr.lats slot i n).getD 0))
      else none
    else tabGet? (cellKey i n) (bankOf c tr.op.bankB).cells := by
  have distinct : ((passPlan s t c tr.op tr.lats).map (·.2.1)).Nodup := passPlan_nums ▸ List.nodup_range
  obtain ⟨own, others⟩ := tabGet?_putRows (fun e : PlanRow => e.2.1) (fun e => if e.2.2.2.1.isSome then min 512 (modeN tr.op.mode) else 0)
    (fun e => slotEntry slot (planLat s t c tr.op slot e)) (passPlan s t c tr.op tr.lats) distinct
    (fun e _ => by split <;> omega) (j := i) hn (bankOf c tr.op.bankB).cells
  unfold slotCells
  by_cases planned : i < tr.op.rows ∧ ∃ r, (rowPlan tr.op tr.lats)[i]? = some r
  · obtain ⟨hi, r, at_⟩ := planned
    have lat := tileLat_eq (s := s) (t := t) (c := c) (n := n) slot at_
    rw [own _ (passPlan_has hi at_) rfl, lat, at_]
    obtain ⟨g, b, k⟩ := r
    cases b with
    | none => simp [planLat]
    | some b =>
      by_cases low : n < 512 ∧ n < modeN tr.op.mode
      · obtain ⟨low, inside⟩ := low
        cases good : groupOk g with
        | false => simp [planLat, slotEntry, hi, low, inside, good]
        | true =>
          simp [planLat, slotEntry, hi, low, inside, good]
          rfl
      · have out : ¬(n < min 512 (modeN tr.op.mode)) := by omega
        by_cases high : n < 512
        · have beyond : ¬ n < modeN tr.op.mode := fun h => low ⟨high, h⟩
          simp [planLat, beyond]
        · simp [planLat, high]
  · have absent : ∀ e ∈ passPlan s t c tr.op tr.lats, e.2.1 ≠ i := by
      rintro e mem rfl
      obtain ⟨hi, r, at_, -⟩ := mem_passPlan mem
      exact planned ⟨hi, r, at_⟩
    rw [others absent, if_neg]
    rintro ⟨hi, -, some_⟩
    cases at_ : (rowPlan tr.op tr.lats)[i]? with
    | none =>
      unfold tileLat at some_
      rw [at_] at some_
      nomatch some_
    | some r => exact planned ⟨hi, r, at_⟩

end

end Sys2Proof.Machine

/-! The store path (02 R45; 03 R61, R62; 06 R146): drains whose entries are all defined, the in-place transpose, and the statement
about the arrays. -/

namespace Sys2Proof.Machine

/-! ### The entries of a drain -/

section
variable {s : State} {t : Nat} {c : Ctx} {q : DrainOp} {x : TAcc}

theorem TReads.optVec (reads : TReads 4 s t c x) {addr : Option Nat} {n : Nat} (mine : ∀ a, addr = some a → tileMine s t c 4 a (4 * n)) :
    (Machine.optVec addr n x).1 = addr.map (fun a => tileVec s t c false a n) ∧ TReads 4 s t c (Machine.optVec addr n x).2 := by
  cases addr with
  | none => exact ⟨rfl, reads⟩
  | some a =>
    have mine' : tileMine s t c 4 a (n * vecB false) := Nat.mul_comm 4 n ▸ mine a rfl
    obtain ⟨vec, reads'⟩ := reads.rdVec mine'
    exact ⟨congrArg some vec, reads'⟩

/-- Where every entry is defined and no scale is wild, a drain takes no free value. -/
theorem drainEls_defined (scale : (q.outFmt.map narrow).getD false = true → (q.sOut.map fun (x : W32) => goodScale x.toNat).getD true = true)
    (cols : ∀ a n, q.colScale = some a → n < q.cols → goodScale ((tileVec s t c false a q.cols).getD n 0) = true)
    (cells : ∀ j n, j < q.rows → n < q.cols → (tabGet? (cellKey j n) (bankOf c q.bankB).cells).isSome = true)
    (l : List Nat) (inside : ∀ k ∈ l, k < q.rows * q.cols) :
    drainEls q (bankOf c q.bankB) (q.rowScale.map fun a => tileVec s t c false a q.rows) (q.colScale.map fun a => tileVec s t c false a q.cols)
      (q.bias.map fun a => tileVec s t c false a q.cols) l s = (l.map (drained s t c q), s) := by
  have tame : ((q.outFmt.map narrow).getD false && !((q.sOut.map fun (x : W32) => goodScale x.toNat).getD true)) = false := by
    cases fmt : (q.outFmt.map narrow).getD false with
    | false => rfl
    | true => rw [scale fmt]; rfl
  induction l with
  | nil => rfl
  | cons k l ih =>
    have rest := ih fun j mem => inside j (List.mem_cons_of_mem _ mem)
    have hk := inside k List.mem_cons_self
    have wide : 0 < q.cols := Nat.pos_of_ne_zero fun e => by simp [e] at hk
    have row : k / q.cols < q.rows := Nat.div_lt_of_lt_mul (by rwa [Nat.mul_comm])
    have col : k % q.cols < q.cols := Nat.mod_lt _ wide
    obtain ⟨w, cell⟩ := Option.isSome_iff_exists.mp (cells _ _ row col)
    have good (a : Nat) (scaled : q.colScale = some a) : goodScale ((tileVec s t c false a q.cols).getD (k % q.cols) 0) = true := cols a _ scaled col
    unfold drainEls
    dsimp only
    rw [cell, tame]
    cases scaled : q.colScale with
    | none =>
      rw [scaled] at rest
      dsimp only [Option.map_none] at rest ⊢
      simp only [Bool.or_false, Bool.false_eq_true, if_false]
      rw [rest]
      simp [drained, cell, scaled, Option.map_map, Function.comp_def]
    | some a =>
      rw [scaled] at rest
      dsimp only [Option.map_some] at rest ⊢
      simp only [good a scaled, Bool.not_true, Bool.or_false, Bool.false_eq_true, if_false]
      rw [rest]
      simp [drained, cell, scaled, Option.map_map, Function.comp_def]

end

/-! ### ACC_DRAIN (02 R45; 03 R61, R62) -/

/-- The memory of the output scales, where a drain writes them (03 R62). -/
def scalesPut (t : Nat) (q : DrainOp) (v : State) : Memories :=
  (match q.sOutVec with
    | some a => tilePut 4 t a (packVals 32 (List.replicate q.rows ((q.sOut.map (BitVec.toNat (w := 32))).getD one32))) v
    | none => v).mem

section
variable {s : State} {t : Nat} {c : Ctx}

/-- Windows that hold a tensor let the operation write it. -/
theorem TAt.mine {m : Memories} {x : TAcc} (at_ : TAt s t c m x) {d : Desc} (mine : tensorMine s t c d) : scratchMine x d = true := by
  obtain ⟨⟨rfl, -, tenant⟩, -, state, -, -⟩ := at_
  unfold scratchMine
  rw [state, tenant]
  rcases mine with empty | ⟨low, inside⟩
  · rw [empty, Bool.true_or]
  · have range : memMine { s with mem := m } (runTenant s c.run) 4 x.t (dLo d).toNat (dHi d + 1 - dLo d).toNat = true := inside
    rw [decide_eq_true low, range, Bool.and_self, Bool.or_true]

/-- The write of a drain's elements lands as it would by itself. -/
theorem drainWrite_at {q : DrainOp} {els : List (Conv × Fl)} {v : State} {x : TAcc} (dst : tensorMine s t c (ownScratch t q.dst))
    (hv : v = (wrTensor (ownScratch t q.dst) (fun n b => (((els.map (·.1.code)).getD (drainFrom q n) 0, false), b)) (Acc.start 1 s)).s)
    (at_ : TAt s t c s.mem x) : TAt s t c v.mem (drainWrite t q els x) := by
  have wrote := at_.wrTensor (d := ownScratch t q.dst) (f := fun n b => (((els.map (·.1.code)).getD (drainFrom q n) 0, false), b)) (Nat.le_succ 3) (fun _ _ => rfl)
  unfold drainWrite
  dsimp only
  rw [if_pos (at_.mine dst), hv]
  exact wrote

/-- A drain's tensor is written to memory alone. -/
theorem drain_memOnly {q : DrainOp} {els : List (Conv × Fl)} {v : State}
    (hv : v = (wrTensor (ownScratch t q.dst) (fun n b => (((els.map (·.1.code)).getD (drainFrom q n) 0, false), b)) (Acc.start 1 s)).s) :
    v = { s with mem := v.mem } := by
  obtain ⟨m, moved⟩ := (wrLines_wrote (d := ownScratch t q.dst) (f := fun n b => (((els.map (·.1.code)).getD (drainFrom q n) 0, false), b))
    (Nat.le_succ 3) (fun _ _ => rfl) (dLines (ownScratch t q.dst)) (a := Acc.start 1 s) ⟨rfl, rfl⟩).state
  have e : v = { s with mem := m } := hv.trans moved
  rw [e]

theorem drainGo_at {q : DrainOp} {els : List (Conv × Fl)} {v : State} (dst : tensorMine s t c (ownScratch t q.dst))
    (scales : ∀ a, q.sOutVec = some a → tileMine s t c 4 a (4 * q.rows))
    (vecs : ∀ a n, (q.rowScale = some a ∧ n = q.rows) ∨ (q.colScale = some a ∧ n = q.cols) ∨ (q.bias = some a ∧ n = q.cols) → tileMine s t c 4 a (4 * n))
    (sound : (q.outFmt.map narrow).getD false = true → (q.sOut.map fun (x : W32) => goodScale x.toNat).getD true = true)
    (cols : ∀ a n, q.colScale = some a → n < q.cols → goodScale ((tileVec s t c false a q.cols).getD n 0) = true)
    (cells : ∀ j n, j < q.rows → n < q.cols → (tabGet? (cellKey j n) (bankOf c q.bankB).cells).isSome = true)
    (hels : els = (List.range (q.rows * q.cols)).map (drained s t c q)) (inside : boundsFail q.bounds 0 (els.map fun e => (e.1.code, e.2)) = none)
    (hv : v = (wrTensor (ownScratch t q.dst) (fun n b => (((els.map (·.1.code)).getD (drainFrom q n) 0, false), b)) (Acc.start 1 s)).s) :
    (drainGo t q (bankOf c q.bankB) false (TAcc.start s t c)).2 = drainCounts q els ∧
    TAt s t c (scalesPut t q v) (drainGo t q (bankOf c q.bankB) false (TAcc.start s t c)).1 := by
  obtain ⟨rs, reads⟩ := (TReads.start 4 s t c).optVec (fun a e => vecs a q.rows (.inl ⟨e, rfl⟩))
  obtain ⟨cs, reads⟩ := reads.optVec (fun a e => vecs a q.cols (.inr (.inl ⟨e, rfl⟩)))
  obtain ⟨bs, reads⟩ := reads.optVec (fun a e => vecs a q.cols (.inr (.inr ⟨e, rfl⟩)))
  have entries := drainEls_defined (s := s) (t := t) sound cols cells (List.range (q.rows * q.cols)) (fun k mem => List.mem_range.mp mem)
  unfold drainGo
  dsimp only
  rw [rs, cs, bs, reads.acc.state, entries, ← hels]
  have same {x : TAcc} (e : x.a.s = s) : { x with a := { x.a with s := s } } = x := by
    subst e
    rfl
  rw [same reads.acc.state]
  have wrote := drainWrite_at dst hv reads.at
  have clean : boundsFail q.bounds 0 (els.map fun e => (e.1.code, e.2)) = none := inside
  refine ⟨rfl, ?_⟩
  simp only [Bool.false_eq_true, if_false]
  rw [clean]
  unfold scalesPut
  cases out : q.sOutVec with
  | none => exact wrote.noteFail_none
  | some a =>
    have length : (packVals 32 (List.replicate q.rows ((q.sOut.map (BitVec.toNat (w := 32))).getD one32))).length = 4 * q.rows := by
      rw [length_packVals (by decide), List.length_replicate]
      omega
    exact (wrote.put (drain_memOnly hv) (length ▸ scales a out)).1.noteFail_none

theorem setBank_work {u : State} (work : TileWork s u t) (b : Bool) (k : Bank) : TileWork s (setBank t b k u) t := TileWork.modTile work _

theorem markMain_work {u : State} (work : TileWork s u t) (i : Nat) : TileWork s (markMain i t u) t := TileWork.modTile work _

/-- What a drain leaves in its tile. -/
def drainBooks (t i : Nat) (q : DrainOp) (c : Ctx) (counts : List Nat) (u : State) : State :=
  markMain i t (pendCounts t counts (setBank t q.bankB ⟨(bankOf c q.bankB).fp32, true, []⟩ u))

theorem exec_drain (ht : t < 32) (hb : bodyCtx s t = some c) {i : Nat} {q : DrainOp} (next : storeAt (getTile s t).qMain 0 [] = some (i, .drain q)) :
    exec (.accDrain t false) s = .next (finishT (drainGo t q (bankOf c q.bankB) false (TAcc.start s t c)).1
      (drainBooks t i q c (drainGo t q (bankOf c q.bankB) false (TAcc.start s t c)).2)) := by
  have there : tileOk t = true := decide_eq_true ht
  show execAccDrain t false s = _
  unfold execAccDrain
  rw [onUnit_next there, hb, next]
  rfl

theorem drainBooks_tile {i : Nat} {q : DrainOp} {counts : List Nat} {m : Memories} {poison : Bool} {outs : List Nat} (hctx : (getTile s t).ctx = some c) :
    getTile (drainBooks t i q c counts (unitRan t c m poison outs s)) t =
      { getTile s t with poisoned := (getTile s t).poisoned || poison, qMain := markedAt i (getTile s t).qMain,
                         ctx := some (withBank q.bankB ⟨(bankOf c q.bankB).fp32, true, []⟩ c), qPend := addCounts (getTile s t).qPend counts } := by
  unfold drainBooks markMain pendCounts
  rw [getTile_modTile, getTile_modTile, getTile_setBank, unitRan_tile]
  dsimp only
  rw [hctx]
  rfl

theorem drainBooks_mem (t i : Nat) (q : DrainOp) (c : Ctx) (counts : List Nat) (u : State) : (drainBooks t i q c counts u).mem = u.mem := rfl

theorem drainBooks_work {i : Nat} {q : DrainOp} {counts : List Nat} {u : State} (work : TileWork s u t) : TileWork s (drainBooks t i q c counts u) t := by
  have pend : TileWork s (pendCounts t counts (setBank t q.bankB ⟨(bankOf c q.bankB).fp32, true, []⟩ u)) t := TileWork.modTile (setBank_work work ..) _
  exact markMain_work pend i

/-! ### The in-place transpose (06 R146) -/

section
variable {d : Desc} {f : SlotFn} {g : Nat → Nat × Bool} (zero : 3 ≤ d.space) (given : ∀ n b, f n b = (some (g n), b))
include given

/-- The values of a block whose elements are all given. -/
theorem slotVals_given (l : List (Option Nat)) (a : Acc) :
    slotVals d f l a = (l.map fun x => (((x.map g).getD (0, false)).1, ((x.map g).getD (0, false)).2, true), a) := by
  induction l generalizing a with
  | nil => rfl
  | cons x l ih =>
    cases x with
    | none =>
      unfold slotVals
      rw [ih]
      rfl
    | some n =>
      unfold slotVals
      rw [given]
      dsimp only
      rw [ih]
      rfl

include zero

theorem wrPiece_wrote (l : Line) {a : Acc} (plain : Plain a) : Wrote a (wrPiece d f l a) := by
  unfold wrPiece
  rw [slotVals_given given]
  dsimp only
  split
  · exact .refl plain
  · exact wrBlk_wrote zero plain ..

theorem wrPiece_state (l : Line) {a b : Acc} (pa : Plain a) (pb : Plain b) (e : a.s = b.s) : (wrPiece d f l a).s = (wrPiece d f l b).s := by
  unfold wrPiece
  rw [slotVals_given given, slotVals_given given]
  dsimp only
  split
  · exact e
  · exact wrBlk_state zero pa pb e ..

theorem wrPieces_wrote (l : List Line) {a : Acc} (plain : Plain a) : Wrote a (wrPieces d f l a) := by
  induction l generalizing a with
  | nil => exact .refl plain
  | cons x l ih =>
    have first := wrPiece_wrote zero given x plain
    exact first.trans (ih first.plain)

theorem wrPieces_state (l : List Line) {a b : Acc} (pa : Plain a) (pb : Plain b) (e : a.s = b.s) : (wrPieces d f l a).s = (wrPieces d f l b).s := by
  induction l generalizing a b with
  | nil => exact e
  | cons x l ih => exact ih (wrPiece_wrote zero given x pa).plain (wrPiece_wrote zero given x pb).plain (wrPiece_state zero given x pa pb e)

end

theorem transposeInPlace_at {d : Desc} : TAt s t c (transposeInPlace (ownScratch t d) (Acc.start 1 s)).2.s.mem
    { TAcc.start s t c with a := (transposeInPlace (ownScratch t d) (TAcc.start s t c).a).2 } := by
  have read := (Reading.start 4 t s).rdEls (by decide) (d := ownScratch t d) rfl rfl (dSize (ownScratch t d) 0 * dSize (ownScratch t d) 0) 0
  have wrote : Wrote _ (transposeInPlace (ownScratch t d) (Acc.start 1 s)).2 :=
    wrPieces_wrote (d := ownScratch t d) (Nat.le_succ 3) (fun _ _ => rfl) (dPieces (ownScratch t d)) read.plain
  obtain ⟨m, moved⟩ := wrote.state
  rw [read.state] at moved
  have only : (transposeInPlace (ownScratch t d) (Acc.start 1 s)).2.s = { s with mem := (transposeInPlace (ownScratch t d) (Acc.start 1 s)).2.s.mem } := by
    rw [moved]
  exact ⟨⟨rfl, rfl, rfl⟩, ⟨rfl, rfl⟩, only, wrote.outs.symm ▸ fun met => absurd (read.outs _ met) (by decide), wrote.plain⟩

theorem exec_transpose (ht : t < 32) (hb : bodyCtx s t = some c) {i : Nat} {d : Desc} {e : Option Nat}
    (next : storeAt (getTile s t).qMain 0 [] = some (i, .transpose d e)) (mine : tensorMine s t c (ownScratch t d)) :
    exec (.accDrain t false) s = .next (finishT
      { TAcc.start s t c with a := (transposeInPlace (ownScratch t d) (TAcc.start s t c).a).2 } (markMain i t)) := by
  have there : tileOk t = true := decide_eq_true ht
  show execAccDrain t false s = _
  unfold execAccDrain
  rw [onUnit_next there, hb, next]
  dsimp only
  rw [if_pos ((TReads.start 4 s t c).at.mine mine)]

end

/-! ### What a pass and an extra slot leave in their tile -/

section
variable {s : State} {t : Nat} {c : Ctx}

theorem unitRan_tileWork (m : Memories) (poison : Bool) (outs : List Nat) : TileWork s (unitRan t c m poison outs s) t :=
  ⟨unitRan_work _ _ _ (.refl s), fun _ other => unitRan_tile_ne _ _ _ other⟩

section
variable {i : Nat} {p : PassOp} {took : List LatBlock} {fp32 : Bool} {w : List Byte} {cells : Tab W32} {x : Tile} {u : State}

theorem passBooks_mem : (passBooks t i p x took fp32 w cells u).mem = u.mem := rfl

theorem passBooks_work (work : TileWork s u t) : TileWork s (passBooks t i p x took fp32 w cells u) t := by
  unfold passBooks
  exact markMain_work (setBank_work (TileWork.modTile work _) ..) i

/-- The block that a pass swaps in, its trace, its bank and its place in the queue. -/
theorem passBooks_tile (hctx : (getTile u t).ctx = some c) : (getTile (passBooks t i p x took fp32 w cells u) t).qMain = markedAt i (getTile u t).qMain ∧
    (getTile (passBooks t i p x took fp32 w cells u) t).ctx = some (withBank p.bankB ⟨fp32, false, cells⟩ c) ∧
    (getTile (passBooks t i p x took fp32 w cells u) t).trace =
      some ⟨p, w, took, (getTile u t).groupMain % 64, (getTile u t).groupIn % 8, (getTile u t).groupOut % 64, 0⟩ ∧
    (getTile (passBooks t i p x took fp32 w cells u) t).groupMain = (getTile u t).groupMain + 1 ∧
    (getTile (passBooks t i p x took fp32 w cells u) t).active = w := by
  unfold passBooks markMain
  rw [getTile_modTile, getTile_setBank, getTile_modTile]
  dsimp only
  rw [hctx]
  exact ⟨rfl, rfl, rfl, rfl, rfl⟩

end

section
variable {tr : PassTrace} {cells : Tab W32} {u : State}

theorem slotBooks_mem : (slotBooks t c tr cells u).mem = u.mem := rfl

theorem slotBooks_work (work : TileWork s u t) : TileWork s (slotBooks t c tr cells u) t := by
  unfold slotBooks
  exact TileWork.modTile (setBank_work (TileWork.modTile work _) ..) _

theorem slotBooks_tile (hctx : (getTile u t).ctx = some c) : (getTile (slotBooks t c tr cells u) t).qLateral = markFront (getTile u t).qLateral ∧
    (getTile (slotBooks t c tr cells u) t).ctx = some (withBank tr.op.bankB { bankOf c tr.op.bankB with cells := cells } c) := by
  unfold slotBooks doneLateral
  rw [getTile_modTile, getTile_setBank, getTile_modTile]
  dsimp only
  rw [hctx]
  exact ⟨rfl, rfl⟩

end

end

/-! ### The statement -/

/-- Settles O38. The entries of a pass, of an extra slot and of a drain are given each by its own rule (`tabGet?_passCells`,
`tabGet?_slotCells`, `drainEls_defined`); what the operations read and write is the tile's own memory. -/
theorem arrayRowsExecuteTheirOperation : Obligations.ArrayRowsExecuteTheirOperation := by
  intro s t c ht hb
  have hctx := ctx_of_bodyCtx hb
  refine ⟨?pass, ?load, ?extra, ?drain, ?transpose⟩
  case pass =>
    intro i p took fp32 next free landed htook block mine hfp
    obtain ⟨poison, outs, ran⟩ := exec_mainPass ht hb next free landed htook block mine hfp
    have tile := unitRan_tile (s := s) (t := t) (c := c) s.mem poison outs
    obtain ⟨main, ctx, trace, group, active⟩ := passBooks_tile (i := i) (p := p) (x := getTile s t) (took := took) (fp32 := fp32)
      (w := tileBytes s t c 4 (passBlock p) (512 * modeK p.mode)) (cells := passCells s t c p took fp32)
      ((congrArg Tile.ctx tile).trans hctx)
    rw [tile] at main trace group
    obtain ⟨own, other⟩ := bankOf_withBank p.bankB ⟨fp32, false, passCells s t c p took fp32⟩ c
    refine ⟨_, _, _, ran, main, ctx, trace, rfl, rfl, rfl, rfl, rfl, group, active, congrArg Bank.fp32 own, congrArg Bank.drained own, other, ?_,
      passBooks_mem.trans (unitRan_mem ..), passBooks_work (unitRan_tileWork ..)⟩
    intro j n e hj hn at_
    rw [own]
    exact tabGet?_passCells hj hn at_
  case load =>
    intro addr rank outs e front ma mb mo
    exact lateralLoad_lands ht hb front ma mb mo
  case extra =>
    intro slot e tr front htr mine
    obtain ⟨poison, outs, ran⟩ := exec_extraLateralSlot ht hb front htr mine
    have tile := unitRan_tile (s := s) (t := t) (c := c) s.mem poison outs
    obtain ⟨lateral, ctx⟩ := slotBooks_tile (tr := tr) (cells := slotCells s t c tr slot) ((congrArg Tile.ctx tile).trans hctx)
    rw [tile] at lateral
    obtain ⟨own, other⟩ := bankOf_withBank tr.op.bankB { bankOf c tr.op.bankB with cells := slotCells s t c tr slot } c
    refine ⟨_, _, ran, lateral, ctx, ?_, (congrArg Bank.fp32 own).trans rfl, (congrArg Bank.drained own).trans rfl, other, slotBooks_mem.trans (unitRan_mem ..),
      slotBooks_work (unitRan_tileWork ..)⟩
    intro i n hn
    rw [own]
    exact tabGet?_slotCells i n hn
  case drain =>
    intro i q els v next dst scales vecs sound cols cells hels inside hv
    obtain ⟨counts, at_⟩ := drainGo_at dst scales vecs sound cols cells hels inside hv
    obtain ⟨poison, outs, done⟩ := at_.finishT (drainBooks t i q c (drainCounts q els))
    have tile := drainBooks_tile (i := i) (q := q) (counts := drainCounts q els) (m := scalesPut t q v) (poison := poison) (outs := outs) hctx
    obtain ⟨own, other⟩ := bankOf_withBank q.bankB ⟨(bankOf c q.bankB).fp32, true, []⟩ c
    have mem : (drainBooks t i q c (drainCounts q els) (unitRan t c (scalesPut t q v) poison outs s)).mem = scalesPut t q v :=
      (drainBooks_mem ..).trans (unitRan_mem ..)
    refine ⟨_, _, (exec_drain ht hb next).trans (by rw [counts, done]), congrArg Tile.qMain tile, congrArg Tile.ctx tile, own, other, ?_,
      congrArg Tile.qPend tile, drainBooks_work (unitRan_tileWork ..)⟩
    rw [mem]
    unfold scalesPut
    cases q.sOutVec <;> rfl
  case transpose =>
    intro i d e next mine
    obtain ⟨poison, outs, done⟩ := (transposeInPlace_at (s := s) (t := t) (c := c) (d := d)).finishT (markMain i t)
    refine ⟨_, (exec_transpose ht hb next mine).trans (congrArg _ done), ?_, unitRan_mem .., unitRan_books _ _ _ (.refl s) (fun _ _ => rfl) _⟩
    unfold markMain
    rw [getTile_modTile, unitRan_tile]
    rfl

end Sys2Proof.Machine

/-! The last accepted sequence of the signed commands (18 R437): every command leaves it, but for a signed one that is accepted, which
raises it. One equation for each function of the model, in the order of its files: a function keeps the sequence since the
functions that it calls do. -/

namespace Sys2Proof.Machine

/-- The sequence of the last accepted signed command (MG_MGMT_SEQ). -/
def lastSeq (s : State) : W64 := s.henua.mgmtSeq

@[simp] theorem mgmtSeq_henua (s : State) : s.henua.mgmtSeq = lastSeq s := (rfl)

@[simp] theorem lastSeq_mk (pending : List Instr) (out : List Output) (devTime : W64) (clockOn : Bool) (cap : Cap) (fns : Tab Fn)
    (tenants : Tab Tenant) (seqs : Tab Nat) (cmds : List Cmd) (nextOrder : Nat) (halted : Bool) (rrTenant : Nat) (rrQueue : Tab Nat)
    (allocs : Tab Alloc) (granules : Tab Granule) (sharedPoison : Tab (List Nat)) (ctrs : Counters) (mem : Memories) (stks : Tab Stack)
    (held : List Held) (fops : Tab FurrowOp) (nextFop : Nat) (sluiceQ : Tab (List Nat)) (bundles : Tab Bundle) (runs : Tab Run) (tiles : Tab Tile)
    (adapters : Tab Adapter) (margin : W64) (far : Far) (edgesDown : List (Nat × Nat)) (edgeTries : List ((Nat × Nat) × Nat)) (dpt : Dpt)
    (hist : FaultHist) (test : SelfTest) (pm : PowerSt) (fuses : Fuses) (henua : Henua) (board : Board) (era : Nat) (freeCtr : Nat) :
    lastSeq ⟨pending, out, devTime, clockOn, cap, fns, tenants, seqs, cmds, nextOrder, halted, rrTenant, rrQueue, allocs, granules, sharedPoison,
      ctrs, mem, stks, held, fops, nextFop, sluiceQ, bundles, runs, tiles, adapters, margin, far, edgesDown, edgeTries, dpt, hist, test, pm,
      fuses, henua, board, era, freeCtr⟩ = henua.mgmtSeq := (rfl)

@[simp] theorem lastSeq_ite (c : Prop) [Decidable c] (s t : State) : lastSeq (if c then s else t) = if c then lastSeq s else lastSeq t :=
  apply_ite lastSeq c s t

/-- Where a meaning answers a next state, the last accepted sequence is as in `s`. -/
def SeqKept (s : State) (r : Res) : Prop := ∀ t, r = .next t → lastSeq t = lastSeq s

@[simp] theorem seqKept_next (s t : State) : SeqKept s (.next t) ↔ lastSeq t = lastSeq s :=
  ⟨fun h => h t rfl, fun h u e => by cases e; exact h⟩

@[simp] theorem seqKept_fault (s : State) (f : Fault) : SeqKept s (.fault f) := by
  intro t e
  cases e

/-! ### Machine/Ops.lean -/

@[simp] theorem onUnit_seq {s : State} (isThere : Bool) (t : State) (h : lastSeq t = lastSeq s) : SeqKept s (onUnit isThere t) := by
  unfold onUnit
  split
  · exact (seqKept_next s t).mpr h
  · exact seqKept_fault s _

@[simp] theorem forEach_seq {α : Type} (f : α → State → State) (l : List α) (s : State) (h : ∀ a u, lastSeq (f a u) = lastSeq u) :
    lastSeq (forEach f l s) = lastSeq s := by
  induction l generalizing s with
  | nil => rfl
  | cons a l ih => exact (ih _).trans (h a s)

@[simp] theorem whenS_seq (c : Bool) (g : State → State) (s : State) (h0 : ∀ (y0 : State), lastSeq (g y0) = lastSeq y0) :
    lastSeq (whenS c g s) = lastSeq s := by
  simp [whenS, *]

@[simp] theorem modFn_seq (f : Nat) (g : Fn → Fn) (s : State) : lastSeq (modFn f g s) = lastSeq s := by simp [modFn]

@[simp] theorem modTile_seq (t : Nat) (g : Tile → Tile) (s : State) : lastSeq (modTile t g s) = lastSeq s := by simp [modTile]

@[simp] theorem modStk_seq (k : Nat) (g : Stack → Stack) (s : State) : lastSeq (modStk k g s) = lastSeq s := by simp [modStk]

@[simp] theorem modPort_seq (p : Nat) (g : Port → Port) (s : State) : lastSeq (modPort p g s) = lastSeq s := by simp [modPort]

@[simp] theorem modTen_seq (t : Nat) (g : Tenant → Tenant) (s : State) : lastSeq (modTen t g s) = lastSeq s := by
  unfold modTen
  split <;> simp

@[simp] theorem modRun_seq (r : Nat) (g : Run → Run) (s : State) : lastSeq (modRun r g s) = lastSeq s := by
  unfold modRun
  split <;> simp

@[simp] theorem modFop_seq (i : Nat) (g : FurrowOp → FurrowOp) (s : State) : lastSeq (modFop i g s) = lastSeq s := by
  unfold modFop
  split <;> simp

@[simp] theorem modHenua_seq (g : Henua → Henua) (s : State) : lastSeq (modHenua g s) = (g s.henua).mgmtSeq := (rfl)

@[simp] theorem storeEvent_seq (e : HEvent) (h : Henua) : (storeEvent e h).mgmtSeq = h.mgmtSeq := by
  unfold storeEvent
  dsimp only
  (repeat' split) <;> rfl

@[simp] theorem modDpt_seq (g : Dpt → Dpt) (s : State) : lastSeq (modDpt g s) = lastSeq s := by simp [modDpt]

@[simp] theorem modPm_seq (g : PowerSt → PowerSt) (s : State) : lastSeq (modPm g s) = lastSeq s := by simp [modPm]

@[simp] theorem modBoard_seq (g : Board → Board) (s : State) : lastSeq (modBoard g s) = lastSeq s := by simp [modBoard]

@[simp] theorem modTest_seq (g : SelfTest → SelfTest) (s : State) : lastSeq (modTest g s) = lastSeq s := by simp [modTest]

@[simp] theorem emit_seq (o : Output) (s : State) : lastSeq (emit o s) = lastSeq s := by simp [emit]

@[simp] theorem freshByte_seq (s : State) : lastSeq (freshByte s).2 = lastSeq s := by simp [freshByte]

@[simp] theorem henuaEvent_seq (cls severity : Nat) (payload : List Nat) (s : State) : lastSeq (henuaEvent cls severity payload s) = lastSeq s := by
  simp [henuaEvent]

@[simp] theorem sendMsix_seq (f v : Nat) (s : State) : lastSeq (sendMsix f v s) = lastSeq s := by simp [sendMsix]

@[simp] theorem vecEvent_seq (f v : Nat) (s : State) : lastSeq (vecEvent f v s) = lastSeq s := by simp [vecEvent]

@[simp] theorem setCause_seq (f bit : Nat) (s : State) : lastSeq (setCause f bit s) = lastSeq s := by simp [setCause]

@[simp] theorem setCauseAll_seq (bit : Nat) (s : State) : lastSeq (setCauseAll bit s) = lastSeq s := by simp [setCauseAll]

@[simp] theorem cqEvent_seq (f : Nat) (s : State) : lastSeq (cqEvent f s) = lastSeq s := by simp [cqEvent]

@[simp] theorem capChange_seq (severity : Nat) (g : Cap → Cap) (s : State) : lastSeq (capChange severity g s) = lastSeq s := by simp [capChange]

@[simp] theorem recordFault_seq (kind check : Nat) (u : UnitRef) (tenant detail : Nat) (bundle : List Byte) (s : State) :
    lastSeq (recordFault kind check u tenant detail bundle s) = lastSeq s := by
  simp [recordFault]

@[simp] theorem modSum_seq (u : UnitRef) (g : UnitSum → UnitSum) (s : State) : lastSeq (modSum u g s) = lastSeq s := by simp [modSum]

@[simp] theorem retireCap_seq (check : Nat) (u : UnitRef) (tenant : Nat) (s : State) : lastSeq (retireCap check u tenant s) = lastSeq s := by
  simp [retireCap]

/-! ### Machine/Wake.lean -/

@[simp] theorem startWake_seq (code : Nat) (s : State) : lastSeq (startWake code s) = lastSeq s := by simp [startWake]

@[simp] theorem wakeSource_seq (code : Nat) (idleToo : Bool) (s : State) : lastSeq (wakeSource code idleToo s) = lastSeq s := by simp [wakeSource]

@[simp] theorem releaseHeldWake_seq (s : State) : lastSeq (releaseHeldWake s) = lastSeq s := by
  unfold releaseHeldWake
  split <;> simp

/-! ### Machine/Ctr.lean -/

@[simp] theorem modCmd_seq (h : Nat) (g : Cmd → Cmd) (s : State) : lastSeq (modCmd h g s) = lastSeq s := by simp [modCmd]

@[simp] theorem finishCmd_seq (h : Nat) (outs : List Nat) (value : Nat) (s : State) : lastSeq (finishCmd h outs value s) = lastSeq s := by
  simp [finishCmd]

@[simp] theorem noteOutcome_seq (h st : Nat) (s : State) : lastSeq (noteOutcome h st s) = lastSeq s := by simp [noteOutcome]

@[simp] theorem tellOwner_seq (r : Release) (s : State) : lastSeq (tellOwner r s) = lastSeq s := by
  unfold tellOwner
  split <;> simp

@[simp] theorem ctrUpdate_seq (c v : Nat) (ws : List Wait) (s : State) : lastSeq (ctrUpdate c v ws s) = lastSeq s := by simp [ctrUpdate]

@[simp] theorem signalPhys_seq (c n : Nat) (s : State) : lastSeq (signalPhys c n s) = lastSeq s := by
  unfold signalPhys
  (repeat' split) <;> simp

@[simp] theorem signalCtr_seq (tenant k n : Nat) (s : State) : lastSeq (signalCtr tenant k n s) = lastSeq s := by
  unfold signalCtr
  split <;> simp

@[simp] theorem arriveWait_seq (w : Wait) (s : State) : lastSeq (arriveWait w s) = lastSeq s := by simp [arriveWait]

@[simp] theorem withdrawAll_seq (p : Wait → Bool) (s : State) : lastSeq (withdrawAll p s) = lastSeq s := by simp [withdrawAll]

@[simp] theorem withdraw_seq (o : WaitOwner) (s : State) : lastSeq (withdraw o s) = lastSeq s := by simp [withdraw]

@[simp] theorem pokePhys_seq (c v : Nat) (s : State) : lastSeq (pokePhys c v s) = lastSeq s := by simp [pokePhys]

/-! ### Machine/Mem.lean -/

@[simp] theorem hostStore_seq (addr : Nat) (bs : List Byte) (s : State) : lastSeq (hostStore addr bs s) = lastSeq s := by simp [hostStore]

@[simp] theorem hostWrite_seq (fn addr : Nat) (bs : List Byte) (s : State) : lastSeq (hostWrite fn addr bs s) = lastSeq s := by simp [hostWrite]

@[simp] theorem hostFetch_seq (fn addr len : Nat) (s : State) : lastSeq (hostFetch fn addr len s) = lastSeq s := by simp [hostFetch]

@[simp] theorem openRow_seq (blk : Nat) (s : State) : lastSeq (openRow blk s) = lastSeq s := by simp [openRow]

@[simp] theorem countCe_seq (blk sym : Nat) (s : State) : lastSeq (countCe blk sym s) = lastSeq s := by simp [countCe]

@[simp] theorem countUe_seq (blk : Nat) (repaired : Bool) (s : State) : lastSeq (countUe blk repaired s) = lastSeq s := by simp [countUe]

@[simp] theorem countPoison_seq (blk : Nat) (s : State) : lastSeq (countPoison blk s) = lastSeq s := by simp [countPoison]

@[simp] theorem storeBlk_seq (blk : Nat) (data : List Byte) (poison : Bool) (source : Nat) (s : State) :
    lastSeq (storeBlk blk data poison source s) = lastSeq s := by
  simp [storeBlk]

@[simp] theorem mergeDrop_seq (blk : Nat) (s : State) : lastSeq (mergeDrop blk s) = lastSeq s := by simp [mergeDrop]

@[simp] theorem poisonSharedPage_seq (off : Nat) (s : State) : lastSeq (poisonSharedPage off s) = lastSeq s := by simp [poisonSharedPage]

@[simp] theorem foundUe_seq (blk : Nat) (data : List Byte) (s : State) : lastSeq (foundUe blk data s).2 = lastSeq s := by
  unfold foundUe
  simp
  (repeat' split) <;> simp

@[simp] theorem decodeBlk_seq (blk : Nat) (sB : State) : lastSeq (decodeBlk blk sB).2 = lastSeq sB := by
  unfold decodeBlk
  simp
  (repeat' split) <;> simp

@[simp] theorem modifyBlk_seq (blk : Nat) (data : List Byte) (mask : Nat) (poison : Bool) (source : Nat) (s : State) :
    lastSeq (modifyBlk blk data mask poison source s) = lastSeq s := by
  simp [modifyBlk]

@[simp] theorem flushEntry_seq (e : MergeEntry) (s : State) : lastSeq (flushEntry e s) = lastSeq s := by simp [flushEntry]

@[simp] theorem flushBlk_seq (blk : Nat) (s : State) : lastSeq (flushBlk blk s) = lastSeq s := by
  unfold flushBlk
  split <;> simp

@[simp] theorem cancelBacks_seq (blk : Nat) (s : State) : lastSeq (cancelBacks blk s) = lastSeq s := by simp [cancelBacks]

@[simp] theorem mergeWrite_seq (blk : Nat) (data : List Byte) (mask source : Nat) (sB : State) :
    lastSeq (mergeWrite blk data mask source sB) = lastSeq sB := by
  unfold mergeWrite
  simp
  (repeat' split) <;> simp

@[simp] theorem readStack_seq (blk : Nat) (s : State) : lastSeq (readStack blk s).2 = lastSeq s := by
  unfold readStack
  split <;> simp

@[simp] theorem writeStack_seq (blk : Nat) (data : List Byte) (mask : Nat) (poison : Bool) (source : Nat) (s : State) :
    lastSeq (writeStack blk data mask poison source s) = lastSeq s := by
  simp [writeStack]

@[simp] theorem furrowRead_seq (blk : Nat) (s : State) : lastSeq (furrowRead blk s).2 = lastSeq s := by simp [furrowRead]

@[simp] theorem setZ_seq (space : Nat) (m : Mem) (p : List Nat) (s : State) : lastSeq (setZ space m p s) = lastSeq s := by
  unfold setZ
  split <;> simp

@[simp] theorem readBlk_seq (source space inst off : Nat) (s : State) : lastSeq (readBlk source space inst off s).2 = lastSeq s := by
  unfold readBlk
  (repeat' split) <;> simp

@[simp] theorem farWrite_seq (off : Nat) (bs : List Byte) (p : List Nat) (s : State) : lastSeq (farWrite off bs p s) = lastSeq s := by
  simp [farWrite]

@[simp] theorem clearFar_seq (s : State) : lastSeq (clearFar s) = lastSeq s := by simp [clearFar]

@[simp] theorem clearTileMem_seq (pb ps pd : List Nat) (s : State) : lastSeq (clearTileMem pb ps pd s) = lastSeq s := by simp [clearTileMem]

@[simp] theorem hostBlk_seq (fn off : Nat) (data : List Byte) (mask : Nat) (poison : Bool) (s : State) :
    lastSeq (hostBlk fn off data mask poison s) = lastSeq s := by
  simp [hostBlk]

@[simp] theorem writeBlk_seq (fn space inst off : Nat) (data : List Byte) (mask : Nat) (poison : Bool) (source : Nat) (s : State) :
    lastSeq (writeBlk fn space inst off data mask poison source s) = lastSeq s := by
  unfold writeBlk
  (repeat' split) <;> simp

@[simp] theorem Acc.start_seq (source : Nat) (s : State) : lastSeq (Acc.start source s).s = lastSeq s := by simp [Acc.start]

@[simp] theorem Acc.on_seq (fn source : Nat) (s : State) : lastSeq (Acc.on fn source s).s = lastSeq s := by simp [Acc.on]

@[simp] theorem Acc.held_seq (t source : Nat) (s : State) : lastSeq (Acc.held t source s).s = lastSeq s := by simp [Acc.held]

@[simp] theorem freeBlock_seq (s : State) : lastSeq (freeBlock s).2 = lastSeq s := by simp [freeBlock]

@[simp] theorem readRaced_seq (source space inst off : Nat) (s : State) : lastSeq (readRaced source space inst off s).2 = lastSeq s := by
  unfold readRaced
  split <;> simp

@[simp] theorem addOut_seq (st : Nat) (c : Bool) (a : Acc) : lastSeq (addOut st c a).s = lastSeq a.s := by
  unfold addOut
  split <;> simp

@[simp] theorem rdBlk_seq (space inst off : Nat) (a : Acc) : lastSeq (rdBlk space inst off a).2.s = lastSeq a.s := by
  unfold rdBlk
  split <;> simp

@[simp] theorem putBlk_seq (space inst off : Nat) (data : List Byte) (mask : Nat) (poison : Bool) (a : Acc) :
    lastSeq (putBlk space inst off data mask poison a).s = lastSeq a.s := by
  simp [putBlk]

@[simp] theorem Acc.stop_seq (st : Nat) (a : Acc) : lastSeq (Acc.stop st a).s = lastSeq a.s := by simp [Acc.stop]

@[simp] theorem wrBlk_seq (space inst off : Nat) (data : List Byte) (mask : Nat) (poison : Bool) (a : Acc) :
    lastSeq (wrBlk space inst off data mask poison a).s = lastSeq a.s := by
  unfold wrBlk
  (repeat' split) <;> simp

@[simp] theorem rdBytesGo_seq (space inst fuel off len : Nat) (a : Acc) : lastSeq (rdBytesGo space inst fuel off len a).2.s = lastSeq a.s := by
  induction fuel generalizing off len a with
  | zero => rfl
  | succ n ih =>
    unfold rdBytesGo
    (repeat' split) <;> simp [ih]

@[simp] theorem rdBytes_seq (space inst off len : Nat) (a : Acc) : lastSeq (rdBytes space inst off len a).2.s = lastSeq a.s := by simp [rdBytes]

@[simp] theorem wrBytesGo_seq (space inst fuel off : Nat) (bs : List Byte) (p : Bool) (a : Acc) :
    lastSeq (wrBytesGo space inst fuel off bs p a).s = lastSeq a.s := by
  induction fuel generalizing off bs a with
  | zero => rfl
  | succ n ih =>
    unfold wrBytesGo
    (repeat' split) <;> simp [ih]

@[simp] theorem wrBytes_seq (space inst off : Nat) (bs : List Byte) (poison : Bool) (a : Acc) :
    lastSeq (wrBytes space inst off bs poison a).s = lastSeq a.s := by
  simp [wrBytes]

@[simp] theorem copyRunGo_seq (sp si dp di fuel src dst len : Nat) (a : Acc) :
    lastSeq (copyRunGo sp si dp di fuel src dst len a).s = lastSeq a.s := by
  induction fuel generalizing src dst len a with
  | zero => rfl
  | succ n ih =>
    unfold copyRunGo
    (repeat' split) <;> simp [ih]

@[simp] theorem copyRun_seq (sp si src dp di dst len : Nat) (a : Acc) : lastSeq (copyRun sp si src dp di dst len a).s = lastSeq a.s := by
  simp [copyRun]

/-! ### Machine/Operands.lean -/

@[simp] theorem rdEl_seq (d : Desc) (n : Nat) (a : Acc) : lastSeq (rdEl d n a).2.s = lastSeq a.s := by simp [rdEl]

@[simp] theorem rdEls_seq (d : Desc) (x0 x1 : Nat) (x2 : Acc) : lastSeq (rdEls d x0 x1 x2).2.s = lastSeq x2.s := by
  induction x0 generalizing x1 x2 with
  | zero => rfl
  | succ n ih => simp [rdEls, ih]

@[simp] theorem lineVals_seq (f : Nat → Acc → (Nat × Bool) × Acc) (l : List (Option Nat)) (a : Acc) (h : ∀ n b, lastSeq (f n b).2.s = lastSeq b.s) :
    lastSeq (lineVals f l a).2.s = lastSeq a.s := by
  induction l generalizing a with
  | nil => rfl
  | cons x l ih => cases x <;> simp [lineVals, ih, h]

@[simp] theorem slotVals_seq (d : Desc) (f : SlotFn) (l : List (Option Nat)) (a : Acc) (h : ∀ n b, lastSeq (f n b).2.s = lastSeq b.s) :
    lastSeq (slotVals d f l a).2.s = lastSeq a.s := by
  induction l generalizing a with
  | nil => rfl
  | cons x l ih =>
    cases x with
    | none => simp [slotVals, ih]
    | some n =>
      unfold slotVals
      dsimp only
      split
      · simp [ih, h]
      · rw [ih]
        split <;> simp [h]

@[simp] theorem wrPiece_seq (d : Desc) (f : SlotFn) (l : Line) (a : Acc) (h0 : ∀ (y0 : Nat) (y1 : Acc), lastSeq (f y0 y1).2.s = lastSeq y1.s) :
    lastSeq (wrPiece d f l a).s = lastSeq a.s := by
  unfold wrPiece
  dsimp only
  (repeat' split) <;> simp [*]

@[simp] theorem wrPieces_seq (d : Desc) (f : SlotFn) (x0 : List Line) (x1 : Acc)
    (h0 : ∀ (y0 : Nat) (y1 : Acc), lastSeq (f y0 y1).2.s = lastSeq y1.s) :
    lastSeq (wrPieces d f x0 x1).s = lastSeq x1.s := by
  fun_induction wrPieces d f x0 x1 <;> simp [*]

@[simp] theorem wrEl_seq (d : Desc) (n v : Nat) (poison : Bool) (a : Acc) : lastSeq (wrEl d n v poison a).s = lastSeq a.s := by simp [wrEl]

@[simp] theorem wrLineGo_seq (d : Desc) (per x0 x1 : Nat) (x2 : List (Nat × Bool)) (x3 : Acc) :
    lastSeq (wrLineGo d per x0 x1 x2 x3).s = lastSeq x3.s := by
  fun_induction wrLineGo d per x0 x1 x2 x3 <;> simp [*]

@[simp] theorem wrLines_seq (d : Desc) (f : Nat → Acc → (Nat × Bool) × Acc) (x0 : List Line) (x1 : Acc)
    (h0 : ∀ (y0 : Nat) (y1 : Acc), lastSeq (f y0 y1).2.s = lastSeq y1.s) :
    lastSeq (wrLines d f x0 x1).s = lastSeq x1.s := by
  induction x0 generalizing x1 with
  | nil => rfl
  | cons a l ih => simp [wrLines, ih, h0]

@[simp] theorem wrTensor_seq (d : Desc) (f : Nat → Acc → (Nat × Bool) × Acc) (a : Acc)
    (h0 : ∀ (y0 : Nat) (y1 : Acc), lastSeq (f y0 y1).2.s = lastSeq y1.s) :
    lastSeq (wrTensor d f a).s = lastSeq a.s := by
  simp [wrTensor, *]

@[simp] theorem freshVal_seq (x0 : Nat) (x1 : State) : lastSeq (freshVal x0 x1).2 = lastSeq x1 := by
  induction x0 generalizing x1 with
  | zero => rfl
  | succ n ih => simp [freshVal, ih]

@[simp] theorem scramble_seq (d : Desc) (s : State) : lastSeq (scramble d s) = lastSeq s := by simp [scramble]

/-! ### Machine/Sched.lean -/

@[simp] theorem setArea_seq (space inst lo hi : Nat) (cells : List (Nat × Byte)) (poison : List Nat) (s : State) :
    lastSeq (setArea space inst lo hi cells poison s) = lastSeq s := setZ_seq ..

@[simp] theorem tileAreaLoad_seq (t n : Nat) (cells : List (Nat × Byte)) (poison : List Nat) (s : State) :
    lastSeq (tileAreaLoad t n cells poison s) = lastSeq s := by
  simp [tileAreaLoad]

@[simp] theorem clearTile_seq (t : Nat) (s : State) : lastSeq (clearTile t s) = lastSeq s := by simp [clearTile]

@[simp] theorem countShared_seq (tenant : Nat) (s : State) : lastSeq (countShared tenant s) = lastSeq s := by simp [countShared]

@[simp] theorem countSwitch_seq (tenant since : Nat) (s : State) : lastSeq (countSwitch tenant since s) = lastSeq s := by simp [countSwitch]

@[simp] theorem pauseDone_seq (t : Nat) (s : State) : lastSeq (pauseDone t s) = lastSeq s := by
  refine forEach_seq _ _ _ fun h u => ?_
  (repeat' split) <;> simp

@[simp] theorem saveBasins_seq (r : Nat) (s : State) : lastSeq (saveBasins r s) = lastSeq s := by
  unfold saveBasins
  split <;> simp

@[simp] theorem checkPaused_seq (r : Nat) (s : State) : lastSeq (checkPaused r s) = lastSeq s := by
  unfold checkPaused
  split <;> simp

@[simp] theorem saveFrame_seq (t : Nat) (s : State) : lastSeq (saveFrame t s) = lastSeq s := by
  unfold saveFrame
  split <;> simp

@[simp] theorem pauseRun_seq (r : Nat) (s : State) : lastSeq (pauseRun r s) = lastSeq s := by
  unfold pauseRun
  split
  · rfl
  · split
    · rfl
    · refine (checkPaused_seq ..).trans ((withdrawAll_seq ..).trans ((forEach_seq _ _ _ fun t u => ?_).trans (modRun_seq ..)))
      (repeat' split) <;> simp

@[simp] theorem endRun_seq (r : Nat) (outs : List Nat) (s : State) : lastSeq (endRun r outs s) = lastSeq s := by
  unfold endRun
  split <;> simp

@[simp] theorem settleFop_seq (id : Nat) (s : State) : lastSeq (settleFop id s) = lastSeq s := by
  unfold settleFop
  (repeat' split) <;> simp

@[simp] theorem scrambleFop_seq (i : Nat) (s : State) : lastSeq (scrambleFop i s) = lastSeq s := by
  unfold scrambleFop
  split <;> simp

@[simp] theorem stopFops_seq (p : FurrowOp → Bool) (outcome : Nat) (s : State) : lastSeq (stopFops p outcome s) = lastSeq s := by simp [stopFops]

@[simp] theorem cancelRun_seq (r : Nat) (s : State) : lastSeq (cancelRun r s) = lastSeq s := by
  unfold cancelRun
  split
  · rfl
  · split
    · rfl
    · have cleared (l : List Nat) (u : State) : lastSeq (forEach (fun t u =>
          match (getTile u t).ctx with
          | some c => if c.run = r ∧ ((getTile u t).phase ≠ .body ∨ 0 < c.attempt ∨ 0 < c.moved) then clearTile t u else u
          | none => u) l u) = lastSeq u := forEach_seq _ _ _ fun t u => by
        (repeat' split) <;> simp
      dsimp only
      split
      · exact (cleared ..).trans (by simp)
      · exact (endRun_seq ..).trans ((cleared ..).trans (by simp))

@[simp] theorem registerHead_seq (t : Nat) (c : Ctx) (w : Nat × Bool × Nat) (s : State) : lastSeq (registerHead t c w s) = lastSeq s := by
  simp [registerHead]

@[simp] theorem loadCtx_seq (r i t : Nat) (s : State) : lastSeq (loadCtx r i t s) = lastSeq s := by
  unfold loadCtx
  (repeat' split) <;> simp

@[simp] theorem fillTiles_seq (s : State) : lastSeq (fillTiles s) = lastSeq s := by
  refine forEach_seq _ _ _ fun r u => forEach_seq _ _ _ fun t v => ?_
  (repeat' split) <;> simp

@[simp] theorem startRun_seq (r : Nat) (place basin : Tab Nat) (s : State) : lastSeq (startRun r place basin s) = lastSeq s := by
  unfold startRun
  (repeat' split) <;> simp

@[simp] theorem tryRun_seq (r : Nat) (a : State × List Nat) : lastSeq (tryRun r a).1 = lastSeq a.1 := by
  unfold tryRun
  simp
  (repeat' split) <;> simp

theorem foldl_seq {α β : Type} (g : β → State) (f : β → α → β) (l : List α) (b : β) (h : ∀ b a, lastSeq (g (f b a)) = lastSeq (g b)) :
    lastSeq (g (l.foldl f b)) = lastSeq (g b) := by
  induction l generalizing b with
  | nil => rfl
  | cons a l ih => exact (ih _).trans (h b a)

@[simp] theorem schedule_seq (s : State) : lastSeq (schedule s) = lastSeq s := by
  unfold schedule
  split
  · exact foldl_seq Prod.fst _ _ _ fun a r => tryRun_seq r a
  · rfl

@[simp] theorem scrambleDests_seq (c : Cmd) (s : State) : lastSeq (scrambleDests c s) = lastSeq s := by simp [scrambleDests]

@[simp] theorem dropPeerWork_seq (h : Nat) (s : State) : lastSeq (dropPeerWork h s) = lastSeq s := by simp [dropPeerWork]

@[simp] theorem cancelCmd_seq (h : Nat) (s : State) : lastSeq (cancelCmd h s) = lastSeq s := by
  unfold cancelCmd
  (repeat' split) <;> simp

/-! ### Machine/Retire.lean -/

@[simp] theorem failFops_seq (k : Nat) (s : State) : lastSeq (failFops k s) = lastSeq s := by simp [failFops]

@[simp] theorem failUnserved_seq (k : Nat) (s : State) : lastSeq (failUnserved k s) = lastSeq s := by simp [failUnserved]

@[simp] theorem checkNoFurrow_seq (k : Nat) (s : State) : lastSeq (checkNoFurrow k s) = lastSeq s := by simp [checkNoFurrow]

@[simp] theorem dropLost_seq (s : State) : lastSeq (dropLost s) = lastSeq s := by
  refine forEach_seq _ _ _ fun h u => ?_
  (repeat' split) <;> simp

@[simp] theorem claimTile_seq (r u : Nat) (s : State) : lastSeq (claimTile r u s) = lastSeq s := by
  unfold claimTile
  split <;> simp

@[simp] theorem moveLogical_seq (t u : Nat) (mk : Ctx → Ctx) (s : State) : lastSeq (moveLogical t u mk s) = lastSeq s := by
  unfold moveLogical
  split <;> simp

@[simp] theorem markSuspect_seq (u : UnitRef) (s : State) : lastSeq (markSuspect u s) = lastSeq s := by
  unfold markSuspect
  split <;> simp

@[simp] theorem abandonTest_seq (u : UnitRef) (s : State) : lastSeq (abandonTest u s) = lastSeq s := by
  unfold abandonTest
  split <;> simp

@[simp] theorem replaceRun_seq (r : Nat) (s : State) : lastSeq (replaceRun r s) = lastSeq s := by
  unfold replaceRun
  (repeat' split)
  · rfl
  · simp
  · refine (forEach_seq _ _ _ fun e u => ?_).trans (modRun_seq ..)
    split <;> simp
  · rfl

@[simp] theorem noteRecompute_seq (c : Ctx) (s : State) : lastSeq (noteRecompute c s) = lastSeq s := by simp [noteRecompute]

@[simp] theorem leaveLost_seq (t : Nat) (s : State) : lastSeq (leaveLost t s) = lastSeq s := by
  unfold leaveLost
  simp
  (repeat' split) <;> simp

@[simp] theorem loseTile_seq (t : Nat) (s : State) : lastSeq (loseTile t s) = lastSeq s := by simp [loseTile]

@[simp] theorem loseStack_seq (k : Nat) (s : State) : lastSeq (loseStack k s) = lastSeq s := by simp [loseStack]

@[simp] theorem loseFar_seq (s : State) : lastSeq (loseFar s) = lastSeq s := by simp [loseFar]

@[simp] theorem loseUnit_seq (u : UnitRef) (s : State) : lastSeq (loseUnit u s) = lastSeq s := by
  unfold loseUnit
  split <;> simp

@[simp] theorem retireUnit_seq (check : Nat) (u : UnitRef) (tenant : Nat) (s : State) : lastSeq (retireUnit check u tenant s) = lastSeq s := by
  simp [retireUnit]

@[simp] theorem faultEvent_seq (kind check : Nat) (u : UnitRef) (tenant detail : Nat) (bundle : List Byte) (s : State) :
    lastSeq (faultEvent kind check u tenant detail bundle s) = lastSeq s := by
  simp [faultEvent]

@[simp] theorem restartStep_seq (t : Nat) (f : Failure) (s : State) : lastSeq (restartStep t f s) = lastSeq s := by simp [restartStep]

@[simp] theorem moveStep_seq (t why : Nat) (f : Failure) (s : State) : lastSeq (moveStep t why f s) = lastSeq s := by
  unfold moveStep
  (repeat' split) <;> simp

@[simp] theorem failStep_seq (t : Nat) (f : Failure) (s : State) : lastSeq (failStep t f s) = lastSeq s := by
  unfold failStep
  split <;> simp

/-! ### Machine/Queues.lean -/

@[simp] theorem unstall_seq (t : Nat) (s : State) : lastSeq (unstall t s) = lastSeq s := by simp [unstall]

@[simp] theorem writeRecord_seq (t kind : Nat) (late recomputed : Bool) (status tag handle opcode sq check sqHead value : Nat) (s : State) :
    lastSeq (writeRecord t kind late recomputed status tag handle opcode sq check sqHead value s) = lastSeq s := by
  simp [writeRecord]

@[simp] theorem pushHeld_seq (h : Held) (s : State) : lastSeq (pushHeld h s) = lastSeq s := by simp [pushHeld]

@[simp] theorem setTail_seq (fn q tail : Nat) (s : State) : lastSeq (setTail fn q tail s) = lastSeq s := by simp [setTail]

@[simp] theorem execHgSqTailWrite_seq (fn q tail : Nat) (stores : List (Nat × List Byte)) (s : State) :
    SeqKept s (execHgSqTailWrite fn q tail stores s) := by
  simp [execHgSqTailWrite]

@[simp] theorem setCqHead_seq (fn q head : Nat) (s : State) : lastSeq (setCqHead fn q head s) = lastSeq s := by simp [setCqHead]

@[simp] theorem execHgCqHeadWrite_seq (fn q head : Nat) (s : State) : SeqKept s (execHgCqHeadWrite fn q head s) := by simp [execHgCqHeadWrite]

@[simp] theorem execHgCqCtrlWrite_seq (fn : Nat) (value : W32) (s : State) : SeqKept s (execHgCqCtrlWrite fn value s) := by simp [execHgCqCtrlWrite]

@[simp] theorem execHgSq0CtrlWrite_seq (fn : Nat) (value : W32) (s : State) : SeqKept s (execHgSq0CtrlWrite fn value s) := by
  simp [execHgSq0CtrlWrite]

@[simp] theorem modQueue_seq (t q : Nat) (g : SubQ → SubQ) (s : State) : lastSeq (modQueue t q g s) = lastSeq s := by simp [modQueue]

@[simp] theorem admitEffects_seq (c : Cmd) (s : State) : lastSeq (admitEffects c s) = lastSeq s := by
  unfold admitEffects
  simp
  (repeat' split) <;> simp

@[simp] theorem hostFetches_seq (t : Nat) (p : Packet) (s : State) : lastSeq (hostFetches t p s) = lastSeq s := by simp [hostFetches]

@[simp] theorem acceptPacket_seq (t q head : Nat) (p : Packet) (s : State) : lastSeq (acceptPacket t q head p s) = lastSeq s := by
  simp [acceptPacket]

@[simp] theorem refusePacket_seq (t q head : Nat) (p : Packet) (v : Nat × Nat) (s : State) : lastSeq (refusePacket t q head p v s) = lastSeq s := by
  simp [refusePacket]

@[simp] theorem haltAdmission_seq (t : Nat) (s : State) : lastSeq (haltAdmission t s) = lastSeq s := by simp [haltAdmission]

@[simp] theorem execPacketAdmission_seq (mismatches : Nat) (s : State) : SeqKept s (execPacketAdmission mismatches s) := by
  unfold execPacketAdmission
  simp
  (repeat' split) <;> simp

@[simp] theorem wakeForHeld_seq (s : State) : lastSeq (wakeForHeld s) = lastSeq s := by
  unfold wakeForHeld
  split <;> simp

@[simp] theorem joinSluice_seq (c : Cmd) (s : State) : lastSeq (joinSluice c s) = lastSeq s := by
  unfold joinSluice
  split <;> simp

@[simp] theorem execCommandStart_seq (s : State) : SeqKept s (execCommandStart s) := by
  unfold execCommandStart
  split <;> simp

@[simp] theorem runCmd_seq (h op : Nat) (f : Cmd → State → State) (s : State) (keeps : ∀ c, lastSeq (f c s) = lastSeq s) :
    SeqKept s (runCmd h op f s) := by
  unfold runCmd
  split
  · split
    · exact (seqKept_next ..).mpr (keeps _)
    · exact (seqKept_next ..).mpr rfl
  · exact (seqKept_next ..).mpr rfl

@[simp] theorem execCqStallTimeout_seq (tenant : Nat) (s : State) : SeqKept s (execCqStallTimeout tenant s) := by simp [execCqStallTimeout]

@[simp] theorem execIrqHoldoffExpiry_seq (fn vec : Nat) (s : State) : SeqKept s (execIrqHoldoffExpiry fn vec s) := by simp [execIrqHoldoffExpiry]

@[simp] theorem sendPending_seq (fn vec : Nat) (s : State) : lastSeq (sendPending fn vec s) = lastSeq s := by simp [sendPending]

@[simp] theorem execMsixUnmask_seq (fn vec : Nat) (s : State) : SeqKept s (execMsixUnmask fn vec s) := by simp [execMsixUnmask]

/-! ### Machine/Space.lean -/

@[simp] theorem unmapEmpty_seq (s : State) : lastSeq (unmapEmpty s) = lastSeq s := by simp [unmapEmpty]

@[simp] theorem freeAllocs_seq (p : Nat → Alloc → Bool) (s : State) : lastSeq (freeAllocs p s) = lastSeq s := by simp [freeAllocs]

/-! ### Machine/Gap.lean -/

@[simp] theorem upset_seq (blk : Nat) (f : BitVec 576) (s : State) : lastSeq (upset blk f s) = lastSeq s := by simp [upset]

@[simp] theorem violate_seq (fn off : Nat) (write : Bool) (s : State) : lastSeq (violate fn off write s) = lastSeq s := by simp [violate]

@[simp] theorem bar4Blks_seq (fn : Nat) (x0 : List Nat) (x1 : State) : lastSeq (bar4Blks fn x0 x1).2 = lastSeq x1 := by
  induction x0 generalizing x1 with
  | nil => rfl
  | cons a l ih =>
    unfold bar4Blks
    (repeat' split) <;> simp [ih]

@[simp] theorem repairShared_seq (fn off mask : Nat) (s : State) : lastSeq (repairShared fn off mask s) = lastSeq s := by
  unfold repairShared
  simp
  (repeat' split) <;> simp

@[simp] theorem bar4Blk_seq (fn start : Nat) (bytes : List (Option Byte)) (o : Nat) (s : State) :
    lastSeq (bar4Blk fn start bytes o s) = lastSeq s := by
  simp [bar4Blk]

@[simp] theorem serveAccess_seq (a : StackAccess) (s : State) : lastSeq (serveAccess a s) = lastSeq s := by
  unfold serveAccess
  split <;> simp

@[simp] theorem holdAccess_seq (a : StackAccess) (s : State) : lastSeq (holdAccess a s) = lastSeq s := by
  unfold holdAccess
  split <;> simp

@[simp] theorem arrive_seq (a : StackAccess) (s : State) : lastSeq (arrive a s) = lastSeq s := by simp [arrive]

@[simp] theorem offerHeld_seq (h : Held) (s : State) : lastSeq (offerHeld h s) = lastSeq s := by simp [offerHeld]

@[simp] theorem serveHeld_seq (s : State) : lastSeq (serveHeld s) = lastSeq s := by simp [serveHeld]

@[simp] theorem dropMover_seq (id : Nat) (s : State) : lastSeq (dropMover id s) = lastSeq s := by simp [dropMover]

@[simp] theorem viaGap_seq (id : Nat) (blks : List Nat) (f : State → State) (s : State) (h0 : ∀ (y0 : State), lastSeq (f y0) = lastSeq y0) :
    lastSeq (viaGap id blks f s) = lastSeq s := by
  simp [viaGap, *]

end Sys2Proof.Machine

/-! The last accepted sequence of the signed commands (18 R437), continued. -/

namespace Sys2Proof.Machine

/-! ### Machine/Gap.lean -/

@[simp] theorem payBank_seq (k d b : Nat) (s : State) : lastSeq (payBank k d b s) = lastSeq s := by simp [payBank]

@[simp] theorem payForced_seq (k d p : Nat) (s : State) : lastSeq (payForced k d p s) = lastSeq s := by simp [payForced]

@[simp] theorem refreshPair_seq (k d p : Nat) (s : State) : lastSeq (refreshPair k d p s) = lastSeq s := by simp [refreshPair]

@[simp] theorem serveGapGo_seq (k d p : Nat) (l : List Held) (rows : Tab Nat) (s : State) : lastSeq (serveGapGo k d p l rows s) = lastSeq s := by
  induction l generalizing rows s with
  | nil => rfl
  | cons a l ih => simp [serveGapGo, ih]

@[simp] theorem closeSlice_seq (k d p : Nat) (s : State) : lastSeq (closeSlice k d p s) = lastSeq s := by simp [closeSlice]

/-! ### Machine/Tenants.lean -/

@[simp] theorem zeroCounters_seq (base n : Nat) (s : State) : lastSeq (zeroCounters base n s) = lastSeq s := by simp [zeroCounters]

@[simp] theorem checkRings_seq (f : Nat) (s : State) : lastSeq (checkRings f s) = lastSeq s := by simp [checkRings]

@[simp] theorem addTenant_seq (t : Nat) (p : Profile) (base : Nat) (s : State) : lastSeq (addTenant t p base s) = lastSeq s := by simp [addTenant]

theorem mapRange_seq {mode stack : Nat} {context : Bool} {n g : Nat} {s t : State} (e : mapRange mode stack context n g s = some t) :
    lastSeq t = lastSeq s := by
  induction n generalizing g s with
  | zero =>
    cases e
    rfl
  | succ n ih =>
    unfold mapRange at e
    split at e
    · split at e
      · exact ih e
      · cases e
    · split at e
      · exact (ih e).trans (by simp)
      · cases e

theorem placeContext_seq {s : State} {len : Nat} {x : Nat × State} (e : placeContext s len = some x) : lastSeq x.2 = lastSeq s := by
  unfold placeContext at e
  split at e
  · cases e
  · obtain ⟨t, placed, rfl⟩ := Option.map_eq_some_iff.mp e
    exact mapRange_seq placed

theorem placeStack_seq {s : State} {mode stack len : Nat} {x : Nat × State} (e : placeStack s mode stack len = some x) : lastSeq x.2 = lastSeq s := by
  unfold placeStack at e
  dsimp only at e
  obtain ⟨a, -, found⟩ := List.exists_of_findSome?_eq_some e
  split at found
  · obtain ⟨t, placed, rfl⟩ := Option.map_eq_some_iff.mp found
    exact mapRange_seq placed
  · cases found

theorem placeAlloc_seq {s : State} {c : Cmd} {space inst len : Nat} {x : Nat × State} (e : placeAlloc s c space inst len = some x) :
    lastSeq x.2 = lastSeq s := by
  unfold placeAlloc at e
  dsimp only at e
  split at e
  · cases e
    rfl
  · obtain ⟨a, -, rfl⟩ := Option.map_eq_some_iff.mp e
    rfl
  · exact placeStack_seq e
  all_goals
    obtain ⟨a, -, rfl⟩ := Option.map_eq_some_iff.mp e
    rfl

@[simp] theorem execTenantCreate_seq (h : Nat) (s : State) : SeqKept s (execTenantCreate h s) := by
  refine runCmd_seq _ _ _ _ fun c => ?_
  dsimp only
  (repeat' split)
  · simp
  · simp
  · simp
  · simp
  · next placed => exact (finishCmd_seq ..).trans ((addTenant_seq ..).trans ((placeContext_seq placed).trans (hostFetch_seq ..)))

@[simp] theorem freeTenant_seq (t : Nat) (s : State) : lastSeq (freeTenant t s) = lastSeq s := by simp [freeTenant]

@[simp] theorem execTenantDestroy_seq (h : Nat) (s : State) : SeqKept s (execTenantDestroy h s) := by simp [execTenantDestroy]

@[simp] theorem execSqCreate_seq (h : Nat) (s : State) : SeqKept s (execSqCreate h s) := by simp [execSqCreate]

@[simp] theorem execSqDestroy_seq (h : Nat) (s : State) : SeqKept s (execSqDestroy h s) := by simp [execSqDestroy]

@[simp] theorem execGroupDeadline_seq (h : Nat) (s : State) : SeqKept s (execGroupDeadline h s) := by simp [execGroupDeadline]

@[simp] theorem execCmdCancel_seq (h : Nat) (s : State) : SeqKept s (execCmdCancel h s) := by simp [execCmdCancel]

@[simp] theorem execTenantPause_seq (h : Nat) (s : State) : SeqKept s (execTenantPause h s) := by simp [execTenantPause]

@[simp] theorem execTenantResume_seq (h : Nat) (s : State) : SeqKept s (execTenantResume h s) := by simp [execTenantResume]

/-! ### Machine/MemCmds.lean -/

@[simp] theorem freeSlots_seq (d : Desc) (n : Nat) (a : Acc) : lastSeq (freeSlots d n a).2.s = lastSeq a.s := by simp [freeSlots]

@[simp] theorem execAlloc_seq (h : Nat) (s : State) : SeqKept s (execAlloc h s) := by
  refine runCmd_seq _ _ _ _ fun c => ?_
  dsimp only
  split
  · simp
  · split
    · simp
    · next placed => exact (finishCmd_seq ..).trans (placeAlloc_seq placed)

@[simp] theorem emptySlots_seq (ds : List (Nat × Nat)) (s : State) : lastSeq (emptySlots ds s) = lastSeq s := by simp [emptySlots]

@[simp] theorem dropDescs_seq (ds : List (Nat × Nat)) (s : State) : lastSeq (dropDescs ds s) = lastSeq s := by simp [dropDescs]

@[simp] theorem execFree_seq (h : Nat) (s : State) : SeqKept s (execFree h s) := by simp [execFree]

@[simp] theorem bornDesc_seq (c : Cmd) (s : State) : lastSeq (bornDesc c s) = lastSeq s := by
  unfold bornDesc
  split <;> simp

@[simp] theorem execDescCreate_seq (h : Nat) (s : State) : SeqKept s (execDescCreate h s) := by simp [execDescCreate]

@[simp] theorem execDescDestroy_seq (h : Nat) (s : State) : SeqKept s (execDescDestroy h s) := by simp [execDescDestroy]

@[simp] theorem poisonBlock_seq (space inst off tenant : Nat) (s : State) : lastSeq (poisonBlock space inst off tenant s) = lastSeq s := by
  simp [poisonBlock]

@[simp] theorem sluiceMove_seq (e tenant : Nat) (src dst : Desc) (from_ : Nat → Nat) (f : SlotFn) (ps : List Line) (crc : CrcOutcome) (a : Acc)
    (h0 : ∀ (y0 : Nat) (y1 : Acc), lastSeq (f y0 y1).2.s = lastSeq y1.s) :
    lastSeq (sluiceMove e tenant src dst from_ f ps crc a).2.s = lastSeq a.s := by
  unfold sluiceMove
  (repeat' split) <;> simp [*]

@[simp] theorem scrambleTouched_seq (h : Nat) (a : Acc) : lastSeq (scrambleTouched h a) = lastSeq a.s := by
  unfold scrambleTouched
  split <;> simp

@[simp] theorem finishAcc_seq (h value : Nat) (a : Acc) : lastSeq (finishAcc h value a) = lastSeq a.s := by simp [finishAcc]

@[simp] theorem freeEnd_seq (ends : List Nat) (a : Acc) : lastSeq (freeEnd ends a).s = lastSeq a.s := by simp [freeEnd]

@[simp] theorem freeMeet_seq (d e : Desc) (s : State) : lastSeq (freeMeet d e s) = lastSeq s := by simp [freeMeet]

@[simp] theorem meetRivals_seq (c : Option Cmd) (fop : Option Nat) (atomic : Bool) (rivals ds : List Desc) (s : State) :
    lastSeq (meetRivals c fop atomic rivals ds s) = lastSeq s := by
  simp [meetRivals]

@[simp] theorem finishMove_seq (c : Cmd) (ds : List Desc) (value : Nat) (a : Acc) : lastSeq (finishMove c ds value a) = lastSeq a.s := by
  simp [finishMove]

@[simp] theorem transposeInPlace_seq (d : Desc) (a : Acc) : lastSeq (transposeInPlace d a).2.s = lastSeq a.s := by simp [transposeInPlace]

@[simp] theorem onSluice_seq (c : Cmd) (a b ix : Desc) (move : Nat → Acc → Nat × Acc) (s : State)
    (h0 : ∀ (y0 : Nat) (y1 : Acc), lastSeq (move y0 y1).2.s = lastSeq y1.s) :
    lastSeq (onSluice c a b ix move s) = lastSeq s := by
  unfold onSluice
  dsimp only
  (repeat' split) <;> simp [*]

@[simp] theorem execCopy_seq (h : Nat) (crc : CrcOutcome) (s : State) : SeqKept s (execCopy h crc s) := by
  unfold execCopy
  refine runCmd_seq _ _ _ _ fun c => ?_
  dsimp only
  (repeat' split) <;> simp

@[simp] theorem indexAt_seq (ix : Desc) (count i : Nat) (a : Acc) : lastSeq (indexAt ix count i a).2.s = lastSeq a.s := by simp [indexAt]

@[simp] theorem indexList_seq (ix : Desc) (count : Nat) (a : Acc) : lastSeq (indexList ix count a).2.s = lastSeq a.s := by simp [indexList]

@[simp] theorem execCopyIndexed_seq (h : Nat) (crc : CrcOutcome) (s : State) : SeqKept s (execCopyIndexed h crc s) := by
  refine runCmd_seq _ _ _ _ fun c => ?_
  dsimp only
  split
  · split <;> simp
  · refine onSluice_seq _ _ _ _ _ _ fun e x => ?_
    split
    · refine (freeEnd_seq ..).trans ((sluiceMove_seq _ _ _ _ _ _ _ _ _ fun n y => ?_).trans (indexList_seq ..))
      split <;> simp
    · refine (sluiceMove_seq _ _ _ _ _ _ _ _ _ fun n y => ?_).trans (indexList_seq ..)
      split <;> simp

/-! ### Machine/FurrowOps.lean -/

@[simp] theorem patternSlots_seq (p4 p5 : Nat) (d : Desc) (n : Nat) (a : Acc) : lastSeq (patternSlots p4 p5 d n a).2.s = lastSeq a.s := by
  simp [patternSlots]

@[simp] theorem rdList_seq (d : Desc) (x0 : List Nat) (x1 : Acc) : lastSeq (rdList d x0 x1).2.s = lastSeq x1.s := by
  induction x0 generalizing x1 with
  | nil => rfl
  | cons a l ih => simp [rdList, ih]

@[simp] theorem wrFirst_seq (d : Desc) (n : Nat) (f : Nat → Acc → PV × Acc) (a : Acc) (h : ∀ k b, lastSeq (f k b).2.s = lastSeq b.s) :
    lastSeq (wrFirst d n f a).s = lastSeq a.s := by
  refine wrPieces_seq _ _ _ _ fun k x => ?_
  split
  · exact h k x
  · rfl

@[simp] theorem wrRows_seq (bad : Bool) (d : Desc) (f : Nat → Acc → PV × Acc) (a : Acc)
    (h0 : ∀ (y0 : Nat) (y1 : Acc), lastSeq (f y0 y1).2.s = lastSeq y1.s) :
    lastSeq (wrRows bad d f a).s = lastSeq a.s := by
  unfold wrRows
  (repeat' split) <;> simp [*]

@[simp] theorem fopCopyGo_seq (p : FopParams) (a : Acc) : lastSeq (fopCopyGo p a).s = lastSeq a.s := by simp [fopCopyGo]

@[simp] theorem fopFillGo_seq (p : FopParams) (a : Acc) : lastSeq (fopFillGo p a).s = lastSeq a.s := by simp [fopFillGo]

@[simp] theorem fillPartGo_seq (p : FopParams) (a : Acc) : lastSeq (fillPartGo p a).s = lastSeq a.s := by simp [fillPartGo]

@[simp] theorem fopLogicGo_seq (p : FopParams) (a : Acc) : lastSeq (fopLogicGo p a).s = lastSeq a.s := by
  unfold fopLogicGo
  split <;> simp

@[simp] theorem fopDotGo_seq (p : FopParams) (a : Acc) : lastSeq (fopDotGo p a).s = lastSeq a.s := by simp [fopDotGo]

@[simp] theorem rowScaleOf_seq (p : FopParams) (row : Nat) (a : Acc) : lastSeq (rowScaleOf p row a).2.s = lastSeq a.s := by
  unfold rowScaleOf
  split <;> simp

@[simp] theorem fopAxpyGo_seq (p : FopParams) (a : Acc) : lastSeq (fopAxpyGo p a).s = lastSeq a.s := by simp [fopAxpyGo]

@[simp] theorem fopAxpyReduceGo_seq (p : FopParams) (a : Acc) : lastSeq (fopAxpyReduceGo p a).s = lastSeq a.s := by
  unfold fopAxpyReduceGo
  dsimp only
  split
  · rfl
  · refine (wrFirst_seq _ _ _ _ fun j b => rdList_seq ..).trans ?_
    exact foldl_seq (fun r : List PV × Acc => r.2.s) _ _ _ fun r i => rowScaleOf_seq ..

@[simp] theorem gatherGo_seq (p : FopParams) (outs : Nat) (bad : List Nat) (span : Nat → Acc → (List Nat × Bool) × Acc) (a : Acc)
    (h : ∀ n b, lastSeq (span n b).2.s = lastSeq b.s) : lastSeq (gatherGo p outs bad span a).s = lastSeq a.s := by
  refine wrFirst_seq _ _ _ _ fun n b => ?_
  split <;> simp [h]

@[simp] theorem fopGatherGo_seq (p : FopParams) (a : Acc) : lastSeq (fopGatherGo p a).s = lastSeq a.s := by simp [fopGatherGo]

@[simp] theorem fopSegmentGo_seq (p : FopParams) (a : Acc) : lastSeq (fopSegmentGo p a).s = lastSeq a.s := by
  unfold fopSegmentGo
  simp
  (repeat' split) <;> simp

@[simp] theorem atomicGo_seq (p : FopParams) (x0 x1 : Nat) (x2 : Nat × Acc) : lastSeq (atomicGo p x0 x1 x2).2.s = lastSeq x2.2.s := by
  induction x0 generalizing x1 x2 with
  | zero => rfl
  | succ n ih =>
    unfold atomicGo
    dsimp only
    (repeat' split) <;> simp [ih]

@[simp] theorem pageScoreGo_seq (p : FopParams) (x0 x1 : Nat) (x2 : Acc) : lastSeq (pageScoreGo p x0 x1 x2).s = lastSeq x2.s := by
  induction x0 generalizing x1 x2 with
  | zero => rfl
  | succ n ih => simp [pageScoreGo, ih]

@[simp] theorem fopGo_seq (p : FopParams) (a : Acc) : lastSeq (fopGo p a).2.s = lastSeq a.s := by
  unfold fopGo
  split <;> simp

/-! ### Machine/Furrow.lean -/

@[simp] theorem startFop_seq (o : FurrowOp) (s : State) : lastSeq (startFop o s) = lastSeq s := by simp [startFop]

@[simp] theorem undying_seq (t : Nat) (s : State) : lastSeq (undying t s) = lastSeq s := by simp [undying]

@[simp] theorem execFurrow_seq (h : Nat) (s : State) : SeqKept s (execFurrow h s) := by simp [execFurrow]

@[simp] theorem fillStack_seq (c : Cmd) (d : Desc) (s : State) : lastSeq (fillStack c d s) = lastSeq s := by simp [fillStack]

@[simp] theorem execFill_seq (h : Nat) (s : State) : SeqKept s (execFill h s) := by simp [execFill]

@[simp] theorem runFop_seq (id op : Nat) (s : State) : SeqKept s (runFop id op s) := by
  unfold runFop
  (repeat' split) <;> simp

@[simp] theorem execFopCopy_seq (id : Nat) (s : State) : SeqKept s (execFopCopy id s) := by simp [execFopCopy]

@[simp] theorem execFopFill_seq (id : Nat) (s : State) : SeqKept s (execFopFill id s) := by simp [execFopFill]

@[simp] theorem execFopLogic_seq (id : Nat) (s : State) : SeqKept s (execFopLogic id s) := by simp [execFopLogic]

@[simp] theorem execFopDot_seq (id : Nat) (s : State) : SeqKept s (execFopDot id s) := by simp [execFopDot]

@[simp] theorem execFopAxpy_seq (id : Nat) (s : State) : SeqKept s (execFopAxpy id s) := by simp [execFopAxpy]

@[simp] theorem execFopAxpyReduce_seq (id : Nat) (s : State) : SeqKept s (execFopAxpyReduce id s) := by simp [execFopAxpyReduce]

@[simp] theorem execFopGather_seq (id : Nat) (s : State) : SeqKept s (execFopGather id s) := by simp [execFopGather]

@[simp] theorem execFopSegment_seq (id : Nat) (s : State) : SeqKept s (execFopSegment id s) := by simp [execFopSegment]

@[simp] theorem execFopAtomic_seq (id : Nat) (s : State) : SeqKept s (execFopAtomic id s) := by simp [execFopAtomic]

@[simp] theorem execFopAtomicFetch_seq (id : Nat) (s : State) : SeqKept s (execFopAtomicFetch id s) := by simp [execFopAtomicFetch]

@[simp] theorem execFopPageScore_seq (id : Nat) (s : State) : SeqKept s (execFopPageScore id s) := by simp [execFopPageScore]

@[simp] theorem flushPair_seq (k d p : Nat) (s : State) : lastSeq (flushPair k d p s) = lastSeq s := by simp [flushPair]

@[simp] theorem loadUnit_seq (k w : Nat) (p : FopParams) (s : State) : lastSeq (loadUnit k w p s) = lastSeq s := by simp [loadUnit]

@[simp] theorem openSlice_seq (k d p id w : Nat) (o : FurrowOp) (s : State) : lastSeq (openSlice k d p id w o s) = lastSeq s := by simp [openSlice]

@[simp] theorem execFurrowSliceStart_seq (k d p id checkFails : Nat) (s : State) : SeqKept s (execFurrowSliceStart k d p id checkFails s) := by
  unfold execFurrowSliceStart
  split <;> simp

@[simp] theorem oweRefresh_seq (k d b : Nat) (s : State) : lastSeq (oweRefresh k d b s) = lastSeq s := by simp [oweRefresh]

@[simp] theorem execRefreshDue_seq (k d b : Nat) (s : State) : SeqKept s (execRefreshDue k d b s) := by
  unfold execRefreshDue
  split <;> simp

/-! ### Machine/UnitTests.lean -/

@[simp] theorem beginTest_seq (t : Nat) (s : State) : lastSeq (beginTest t s) = lastSeq s := by
  unfold beginTest
  (repeat' split) <;> simp

@[simp] theorem startTest_seq (u : UnitRef) (cmds : List Nat) (slot : Bool) (s : State) : lastSeq (startTest u cmds slot s) = lastSeq s := by
  unfold startTest
  split <;> simp

@[simp] theorem skipSlot_seq (s : State) : lastSeq (skipSlot s) = lastSeq s := by simp [skipSlot]

@[simp] theorem slotFor_seq (u : UnitRef) (usable : Bool) (s : State) : lastSeq (slotFor u usable s) = lastSeq s := by simp [slotFor]

@[simp] theorem execTileTestSlot_seq (s : State) : SeqKept s (execTileTestSlot s) := by simp [execTileTestSlot]

@[simp] theorem execStackTestSlot_seq (s : State) : SeqKept s (execStackTestSlot s) := by simp [execStackTestSlot]

@[simp] theorem execSuspectTestDue_seq (u : UnitRef) (s : State) : SeqKept s (execSuspectTestDue u s) := by
  unfold execSuspectTestDue
  split <;> simp

@[simp] theorem execSelftest_seq (h : Nat) (s : State) : SeqKept s (execSelftest h s) := by simp [execSelftest]

@[simp] theorem resumeUnit_seq (u : UnitRef) (s : State) : lastSeq (resumeUnit u s) = lastSeq s := by
  unfold resumeUnit
  split <;> simp

@[simp] theorem normalUnit_seq (u : UnitRef) (s : State) : lastSeq (normalUnit u s) = lastSeq s := by
  unfold normalUnit
  split <;> simp

@[simp] theorem passUnit_seq (u : UnitRef) (s : State) : lastSeq (passUnit u s) = lastSeq s := by simp [passUnit]

@[simp] theorem settleUnit_seq (u : UnitRef) (first again : Bool) (s : State) : lastSeq (settleUnit u first again s) = lastSeq s := by
  simp [settleUnit]

@[simp] theorem countTest_seq (u : UnitRef) (first again : Bool) (s : State) : lastSeq (countTest u first again s) = lastSeq s := by
  simp [countTest]

@[simp] theorem settleTest_seq (u : UnitRef) (first repeats : List Nat) (s : State) : lastSeq (settleTest u first repeats s) = lastSeq s := by
  unfold settleTest
  split <;> simp

@[simp] theorem execSelftestComplete_seq (u : UnitRef) (first repeats : List Nat) (s : State) :
    SeqKept s (execSelftestComplete u first repeats s) := by
  unfold execSelftestComplete
  (repeat' split) <;> simp

/-! ### Machine/Bundles.lean -/

@[simp] theorem execBundleLoad_seq (h : Nat) (s : State) : SeqKept s (execBundleLoad h s) := by simp [execBundleLoad]

@[simp] theorem execBundleUnload_seq (h : Nat) (s : State) : SeqKept s (execBundleUnload h s) := by simp [execBundleUnload]

@[simp] theorem execBundleRun_seq (h : Nat) (s : State) : SeqKept s (execBundleRun h s) := by
  unfold execBundleRun
  refine runCmd_seq _ _ _ _ fun c => ?_
  (repeat' split) <;> simp

@[simp] theorem execTileFrameSaveComplete_seq (t : Nat) (s : State) : SeqKept s (execTileFrameSaveComplete t s) := by
  unfold execTileFrameSaveComplete
  split <;> simp

@[simp] theorem loadBasins_seq (r : Nat) (bs : Tab Nat) (s : State) : lastSeq (loadBasins r bs s) = lastSeq s := by
  unfold loadBasins
  split
  · rfl
  · refine (modRun_seq ..).trans (forEach_seq _ _ _ fun e u => ?_)
    split <;> simp

@[simp] theorem execRunResume_seq (run : Nat) (badHeader : Bool) (badBlocks : List Nat) (s : State) :
    SeqKept s (execRunResume run badHeader badBlocks s) := by
  unfold execRunResume
  (repeat' split) <;> simp

/-! ### Machine/Serving.lean -/

@[simp] theorem readDir_seq (t : Nat) (dd : Desc) (a : Acc) : lastSeq (readDir t dd a).2.s = lastSeq a.s := by
  unfold readDir
  simp
  (repeat' split) <;> simp

@[simp] theorem asFurrow_seq (off len : Nat) (f : Acc → Acc) (a : Acc) (h0 : ∀ (y0 : Acc), lastSeq (f y0).s = lastSeq y0.s) :
    lastSeq (asFurrow off len f a).s = lastSeq a.s := by
  unfold asFurrow
  (repeat' split) <;> simp [*]

@[simp] theorem rdWord_seq (d : Desc) (off : Nat) (a : Acc) : lastSeq (rdWord d off a).2.s = lastSeq a.s := by simp [rdWord]

@[simp] theorem wrWord_seq (d : Desc) (off v : Nat) (poison : Bool) (a : Acc) : lastSeq (wrWord d off v poison a).s = lastSeq a.s := by
  simp [wrWord]

@[simp] theorem getCount_seq (d : PageDir) (p : Nat) (a : Acc) : lastSeq (getCount d p a).2.s = lastSeq a.s := by simp [getCount]

@[simp] theorem putCount_seq (d : PageDir) (p n : Nat) (poison : Bool) (a : Acc) : lastSeq (putCount d p n poison a).s = lastSeq a.s := by
  simp [putCount]

@[simp] theorem getScore_seq (d : PageDir) (p : Nat) (a : Acc) : lastSeq (getScore d p a).2.s = lastSeq a.s := by simp [getScore]

@[simp] theorem putScore_seq (d : PageDir) (p v : Nat) (poison : Bool) (a : Acc) : lastSeq (putScore d p v poison a).s = lastSeq a.s := by
  simp [putScore]

@[simp] theorem popStack_seq (d : Desc) (a : Acc) : lastSeq (popStack d a).2.s = lastSeq a.s := by
  unfold popStack
  simp
  (repeat' split) <;> simp

@[simp] theorem pushStack_seq (d : Desc) (v : Nat) (a : Acc) : lastSeq (pushStack d v a).s = lastSeq a.s := by
  unfold pushStack
  simp
  (repeat' split) <;> simp

@[simp] theorem releaseRef_seq (d : PageDir) (p : Nat) (a : Acc) : lastSeq (releaseRef d p a).2.s = lastSeq a.s := by
  unfold releaseRef
  simp
  (repeat' split) <;> simp

@[simp] theorem headgateCopy_seq (src : Desc) (so : Nat) (dst : Desc) (do_ len : Nat) (a : Acc) :
    lastSeq (headgateCopy src so dst do_ len a).s = lastSeq a.s := by
  unfold headgateCopy
  split <;> simp

@[simp] theorem pagesGo_seq (f : Nat → Nat → Nat × Acc → Bool × (Nat × Acc)) (l : Desc) (x0 x1 : Nat) (x2 : Nat × Acc)
    (h0 : ∀ (y0 y1 : Nat) (y2 : Nat × Acc), lastSeq (f y0 y1 y2).2.2.s = lastSeq y2.2.s) :
    lastSeq (pagesGo f l x0 x1 x2).2.s = lastSeq x2.2.s := by
  induction x0 generalizing x1 x2 with
  | zero => rfl
  | succ n ih =>
    unfold pagesGo
    dsimp only
    (repeat' split) <;> simp [ih, h0]

@[simp] theorem shareOne_seq (d : PageDir) (_i e : Nat) (r : Nat × Acc) : lastSeq (shareOne d _i e r).2.2.s = lastSeq r.2.s := by
  unfold shareOne
  simp
  (repeat' split) <;> simp

@[simp] theorem releaseOne_seq (d : PageDir) (l : Desc) (i e : Nat) (r : Nat × Acc) : lastSeq (releaseOne d l i e r).2.2.s = lastSeq r.2.s := by
  unfold releaseOne
  (repeat' split) <;> simp

@[simp] theorem takePage_seq (d : PageDir) (from_ : Desc) (score : PV) (r : Nat × Acc) (go : Nat → Acc → Acc)
    (h1 : ∀ (y0 : Nat) (y1 : Acc), lastSeq (go y0 y1).s = lastSeq y1.s) :
    lastSeq (takePage d from_ score r go).2.2.s = lastSeq r.2.s := by
  unfold takePage
  dsimp only
  (repeat' split) <;> simp [*]

@[simp] theorem cowOne_seq (d : PageDir) (l from_ : Desc) (i e : Nat) (r : Nat × Acc) : lastSeq (cowOne d l from_ i e r).2.2.s = lastSeq r.2.s := by
  unfold cowOne
  simp
  (repeat' split) <;> simp

@[simp] theorem serve_seq (c : Cmd) (f : State → State) (s : State) (h0 : ∀ (y0 : State), lastSeq (f y0) = lastSeq y0) :
    lastSeq (serve c f s) = lastSeq s := by
  simp [serve, *]

@[simp] theorem pageCmd_seq (c : Cmd) (f : PageDir → Desc → Nat → Nat → Nat × Acc → Bool × (Nat × Acc)) (s : State)
    (h : ∀ d l i e r, lastSeq (f d l i e r).2.2.s = lastSeq r.2.s) : lastSeq (pageCmd c f s) = lastSeq s := by
  refine serve_seq _ _ _ fun u => ?_
  dsimp only
  split <;> simp [h]

@[simp] theorem execPageShare_seq (h : Nat) (s : State) : SeqKept s (execPageShare h s) := by simp [execPageShare]

@[simp] theorem execPageRelease_seq (h : Nat) (s : State) : SeqKept s (execPageRelease h s) := by simp [execPageRelease]

@[simp] theorem execPageCow_seq (h : Nat) (s : State) : SeqKept s (execPageCow h s) := by simp [execPageCow]

@[simp] theorem entryAt_seq (r : SeqRow) (k l : Nat) (a : Acc) : lastSeq (entryAt r k l a).2.s = lastSeq a.s := by simp [entryAt]

@[simp] theorem setEntry_seq (r : SeqRow) (k l v : Nat) (a : Acc) : lastSeq (setEntry r k l v a).s = lastSeq a.s := by simp [setEntry]

@[simp] theorem readRow_seq (t : Nat) (seq : Desc) (i : Nat) (a : Acc) : lastSeq (readRow t seq i a).2.s = lastSeq a.s := by
  unfold readRow
  simp
  (repeat' split) <;> simp

@[simp] theorem rowsGo_seq (t : Nat) (seq : Desc) (f : Nat → SeqRow → Nat × Acc → Nat × Acc) (x0 x1 : Nat) (x2 : Nat × Acc)
    (h0 : ∀ (y0 : Nat) (y1 : SeqRow) (y2 : Nat × Acc), lastSeq (f y0 y1 y2).2.s = lastSeq y2.2.s) :
    lastSeq (rowsGo t seq f x0 x1 x2).2.s = lastSeq x2.2.s := by
  induction x0 generalizing x1 x2 with
  | zero => rfl
  | succ n ih =>
    unfold rowsGo
    dsimp only
    (repeat' split) <;> simp [ih, h0]

@[simp] theorem reissueOn_seq (tenant t : Nat) (f : Failure) (s : State) : lastSeq (reissueOn tenant t f s) = lastSeq s := by simp [reissueOn]

@[simp] theorem substituteStep_seq (tenant t u : Nat) (why : Option Failure) (fails : List Failure) (s : State) :
    lastSeq (substituteStep tenant t u why fails s).2 = lastSeq s := by
  unfold substituteStep
  (repeat' split) <;> simp

@[simp] theorem headgateStep_seq (tenant t : Nat) (fails : List Failure) (s : State) : lastSeq (headgateStep tenant t fails s).2 = lastSeq s := by
  unfold headgateStep
  simp
  (repeat' split) <;> simp

@[simp] theorem rowStep_seq (tenant : Nat) (e : StepFails) (a : Acc) : lastSeq (rowStep tenant e a).s = lastSeq a.s := by
  unfold rowStep
  simp
  (repeat' split) <;> simp

@[simp] theorem rowSteps_seq (tenant : Nat) (steps : List StepFails) (i : Nat) (a : Acc) : lastSeq (rowSteps tenant steps i a).s = lastSeq a.s :=
  foldl_seq Acc.s _ _ _ fun b e => rowStep_seq tenant e b

@[simp] theorem visGo_seq (r : SeqRow) (l x0 x1 : Nat) (x2 : Acc) : lastSeq (visGo r l x0 x1 x2).2.s = lastSeq x2.s := by
  induction x0 generalizing x1 x2 with
  | zero => rfl
  | succ n ih =>
    unfold visGo
    dsimp only
    (repeat' split) <;> simp [ih]

@[simp] theorem visible_seq (r : SeqRow) (l : Nat) (a : Acc) : lastSeq (visible r l a).2.s = lastSeq a.s := by simp [visible]

@[simp] theorem kvRows_seq (d : PageDir) (h : Nat) (v : Bool) (x0 : List Vis) (x1 : Acc) : lastSeq (kvRows d h v x0 x1).2.s = lastSeq x1.s := by
  induction x0 generalizing x1 with
  | nil => rfl
  | cons a l ih => simp [kvRows, ih]

@[simp] theorem scorePages_seq (d : PageDir) (decay : Nat) (vis : List Vis) (ps : List (List Nat)) (poison : Bool) (x0 : List Nat) (x1 : Acc) :
    lastSeq (scorePages d decay vis ps poison x0 x1).s = lastSeq x1.s := by
  induction x0 generalizing x1 with
  | nil => rfl
  | cons a l ih =>
    unfold scorePages
    dsimp only
    (repeat' split) <;> simp [ih]

@[simp] theorem wrRow_seq (d : Desc) (i n : Nat) (f : Nat → PV) (a : Acc) : lastSeq (wrRow d i n f a).s = lastSeq a.s := by simp [wrRow]

@[simp] theorem attendHeads_seq (r : SeqRow) (vis : List Vis) (q : List PV) (x0 x1 : Nat) (x2 : Acc) :
    lastSeq (attendHeads r vis q x0 x1 x2).2.s = lastSeq x2.s := by
  induction x0 generalizing x1 x2 with
  | zero => rfl
  | succ n ih => simp [attendHeads, ih]

@[simp] theorem wrFreeRow_seq (od : Desc) (i n : Nat) (a : Acc) : lastSeq (wrFreeRow od i n a).s = lastSeq a.s := by simp [wrFreeRow]

@[simp] theorem attendRow_seq (tenant : Nat) (steps : List StepFails) (qd od : Desc) (layer i : Nat) (r : SeqRow) (x : Nat × Acc) :
    lastSeq (attendRow tenant steps qd od layer i r x).2.s = lastSeq x.2.s := by
  unfold attendRow
  simp
  (repeat' split) <;> simp

@[simp] theorem execAttend_seq (h : Nat) (steps : List StepFails) (s : State) : SeqKept s (execAttend h s steps) := by
  unfold execAttend
  refine runCmd_seq _ _ _ _ fun c => ?_
  simp

@[simp] theorem residents_seq (r : SeqRow) (l x0 x1 : Nat) (x2 : Acc) : lastSeq (residents r l x0 x1 x2).2.s = lastSeq x2.s := by
  induction x0 generalizing x1 x2 with
  | zero => rfl
  | succ n ih =>
    unfold residents
    dsimp only
    (repeat' split) <;> simp [ih]

@[simp] theorem lowest_seq (d : PageDir) (x0 : List (Nat × Nat)) (x1 : Acc) : lastSeq (lowest d x0 x1).2.s = lastSeq x1.s := by
  induction x0 generalizing x1 with
  | nil => rfl
  | cons a l ih =>
    unfold lowest
    dsimp only
    (repeat' split) <;> simp [ih]

@[simp] theorem popFar_seq (d : PageDir) (a : Acc) : lastSeq (popFar d a).2.s = lastSeq a.s := by
  unfold popFar
  simp
  (repeat' split) <;> simp

@[simp] theorem evictSlot_seq (r : SeqRow) (drop : Bool) (k l p : Nat) (a : Acc) : lastSeq (evictSlot r drop k l p a).s = lastSeq a.s := by
  unfold evictSlot
  simp
  (repeat' split) <;> simp

@[simp] theorem evictLayer_seq (r : SeqRow) (budget : Nat) (drop : Bool) (l x0 : Nat) (x1 : Nat × Acc) :
    lastSeq (evictLayer r budget drop l x0 x1).2.s = lastSeq x1.2.s := by
  induction x0 generalizing x1 with
  | zero => rfl
  | succ n ih =>
    unfold evictLayer
    dsimp only
    (repeat' split) <;> simp [ih]

@[simp] theorem evictRow_seq (seq : Desc) (budget : Nat) (drop : Bool) (i : Nat) (r : SeqRow) (x : Nat × Acc) :
    lastSeq (evictRow seq budget drop i r x).2.s = lastSeq x.2.s := by
  have layers := foldl_seq (fun z : Nat × Acc => z.2.s) (fun z l => evictLayer r budget drop l (slotsIn r) z) (List.range (layersIn r)) (0, x.2)
    fun z l => evictLayer_seq ..
  unfold evictRow
  dsimp only
  split
  · exact layers
  · exact (wrBytes_seq ..).trans layers

@[simp] theorem execEvict_seq (h : Nat) (s : State) : SeqKept s (execEvict h s) := by
  unfold execEvict
  refine runCmd_seq _ _ _ _ fun c => ?_
  simp

@[simp] theorem copyPos_seq (r : SeqRow) (src dst : Nat) (a : Acc) : lastSeq (copyPos r src dst a).s = lastSeq a.s := by
  unfold copyPos
  dsimp only
  split
  · rfl
  · refine foldl_seq Acc.s _ _ _ fun a l => ?_
    split
    · refine (foldl_seq Acc.s _ _ _ fun a h => foldl_seq Acc.s _ _ _ fun a v => ?_).trans ?_ <;> simp
    · simp

@[simp] theorem copyPath_seq (r : SeqRow) (L : Nat) (x0 : List Nat) (x1 : Nat) (x2 : Acc) : lastSeq (copyPath r L x0 x1 x2).s = lastSeq x2.s := by
  induction x0 generalizing x1 x2 with
  | nil => rfl
  | cons a l ih =>
    unfold copyPath
    (repeat' split) <;> simp [ih]

@[simp] theorem releaseTail_seq (r : SeqRow) (lo hi : Nat) (x : Nat × Acc) : lastSeq (releaseTail r lo hi x).2.s = lastSeq x.2.s := by
  refine foldl_seq (fun z : Nat × Acc => z.2.s) _ _ _ fun x l => foldl_seq (fun z : Nat × Acc => z.2.s) _ _ _ fun x k => ?_
  split
  · rfl
  · dsimp only
    split <;> simp

@[simp] theorem verifyRow_seq (tenant : Nat) (steps : List StepFails) (seq cand dec : Desc) (n : Nat) (sampling tree : Bool) (i : Nat) (r : SeqRow)
    (x : Nat × Acc) :
    lastSeq (verifyRow tenant steps seq cand dec n sampling tree i r x).2.s = lastSeq x.2.s := by
  unfold verifyRow
  simp
  (repeat' split) <;> simp

@[simp] theorem execVerify_seq (h : Nat) (steps : List StepFails) (s : State) : SeqKept s (execVerify h s steps) := by
  unfold execVerify
  refine runCmd_seq _ _ _ _ fun c => ?_
  simp

@[simp] theorem execAdapterLoad_seq (h : Nat) (s : State) : SeqKept s (execAdapterLoad h s) := by
  refine runCmd_seq _ _ _ _ fun c => serve_seq _ _ _ fun u => ?_
  refine (finishAcc_seq ..).trans ((lastSeq_mk ..).trans (wrPieces_seq _ _ _ _ fun e a => ?_))
  split <;> simp

@[simp] theorem execAdapterEvict_seq (h : Nat) (s : State) : SeqKept s (execAdapterEvict h s) := by simp [execAdapterEvict]

/-! ### Machine/Complete.lean -/

@[simp] theorem applySignal_seq (c : Cmd) (status : Nat) (s : State) : lastSeq (applySignal c status s) = lastSeq s := by simp [applySignal]

@[simp] theorem completeWith_seq (c : Cmd) (late : Bool) (outs : List Nat) (s : State) : lastSeq (completeWith c late outs s) = lastSeq s := by
  simp [completeWith]

@[simp] theorem answerHenua_seq (c : Cmd) (outs : List Nat) (s : State) : lastSeq (answerHenua c outs s) = lastSeq s := by simp [answerHenua]

@[simp] theorem completed_seq (c : Cmd) (s : State) : lastSeq (completed c s) = lastSeq s := by
  unfold completed
  simp
  (repeat' split) <;> simp

@[simp] theorem undone_seq (c : Cmd) (s : State) : lastSeq (undone c s) = lastSeq s := by
  unfold undone
  simp
  (repeat' split) <;> simp

@[simp] theorem execCommandCompletion_seq (h : Nat) (s : State) : SeqKept s (execCommandCompletion h s) := by
  unfold execCommandCompletion
  (repeat' split) <;> simp

/-! ### Machine/CtrCmds.lean -/

@[simp] theorem readCtr_seq (c : Nat) (s : State) : lastSeq (readCtr c s).2 = lastSeq s := by
  unfold readCtr
  split <;> simp

@[simp] theorem execCtrSignal_seq (h : Nat) (s : State) : SeqKept s (execCtrSignal h s) := by simp [execCtrSignal]

@[simp] theorem brodatWait_seq (take : Bool) (c : Cmd) (s : State) : lastSeq (brodatWait take c s) = lastSeq s := by
  unfold brodatWait
  split <;> simp

@[simp] theorem execCtrWaitGe_seq (h : Nat) (s : State) : SeqKept s (execCtrWaitGe h s) := by simp [execCtrWaitGe]

@[simp] theorem execCtrWaitTake_seq (h : Nat) (s : State) : SeqKept s (execCtrWaitTake h s) := by simp [execCtrWaitTake]

@[simp] theorem execCtrRead_seq (h : Nat) (s : State) : SeqKept s (execCtrRead h s) := by
  unfold execCtrRead
  refine runCmd_seq _ _ _ _ fun c => ?_
  (repeat' split) <;> simp

@[simp] theorem execCounterPeek_seq (h : Nat) (s : State) : SeqKept s (execCounterPeek h s) := by
  unfold execCounterPeek
  refine runCmd_seq _ _ _ _ fun c => ?_
  (repeat' split) <;> simp

@[simp] theorem handSet_seq (issuer t k c v : Nat) (s : State) : lastSeq (handSet issuer t k c v s).2 = lastSeq s := by simp [handSet]

@[simp] theorem execCounterPoke_seq (h : Nat) (s : State) : SeqKept s (execCounterPoke h s) := by
  unfold execCounterPoke
  refine runCmd_seq _ _ _ _ fun c => ?_
  dsimp only
  (repeat' split) <;> simp

@[simp] theorem breakCtr_seq (t k c : Nat) (s : State) : lastSeq (breakCtr t k c s) = lastSeq s := by
  refine (henuaEvent_seq ..).trans ((recordFault_seq ..).trans ((forEach_seq _ _ _ fun w u => ?_).trans (lastSeq_mk ..)))
  (repeat' split) <;> simp

@[simp] theorem execCounterSignal_seq (tenant ctr amount : Nat) (uncorrectable : Bool) (s : State) :
    SeqKept s (execCounterSignal tenant ctr amount uncorrectable s) := by
  unfold execCounterSignal
  split <;> simp

/-! ### Machine/Peer.lean -/

@[simp] theorem modPeer_seq (m : Nat) (g : Peer → Peer) (s : State) : lastSeq (modPeer m g s) = lastSeq s := by
  unfold modPeer
  split <;> simp

@[simp] theorem modPath_seq (m k : Nat) (g : PathSt → PathSt) (s : State) : lastSeq (modPath m k g s) = lastSeq s := by simp [modPath]

@[simp] theorem countTx_seq (m k n : Nat) (s : State) : lastSeq (countTx m k n s) = lastSeq s := by
  unfold countTx
  split <;> simp

@[simp] theorem wireOut_seq (m k ty : Nat) (addr : List Byte) (hd : DptHdr) (b : DptBody) (s : State) :
    lastSeq (wireOut m k ty addr hd b s) = lastSeq s := by
  simp [wireOut]

@[simp] theorem sendOn_seq (m k ty : Nat) (hd : DptHdr) (b : DptBody) (s : State) : lastSeq (sendOn m k ty hd b s) = lastSeq s := by
  unfold sendOn
  split <;> simp

@[simp] theorem sendCtl_seq (m : Nat) (c : DptCtl) (s : State) : lastSeq (sendCtl m c s) = lastSeq s := by simp [sendCtl]

@[simp] theorem sendAdvert_seq (m : Nat) (addr : List Byte) (a : Advert) (s : State) : lastSeq (sendAdvert m addr a s) = lastSeq s := by
  simp [sendAdvert]

@[simp] theorem noteSent_seq (m : Nat) (x : TxItem) (q : Nat) (s : State) : lastSeq (noteSent m x q s) = lastSeq s := by simp [noteSent]

@[simp] theorem pumpGo_seq (m x0 : Nat) (x1 : State) : lastSeq (pumpGo m x0 x1) = lastSeq x1 := by
  induction x0 generalizing x1 with
  | zero => rfl
  | succ n ih =>
    unfold pumpGo
    (repeat' split) <;> simp [ih]

@[simp] theorem pump_seq (m : Nat) (s : State) : lastSeq (pump m s) = lastSeq s := by simp [pump]

@[simp] theorem queueItems_seq (m : Nat) (l : List TxItem) (s : State) : lastSeq (queueItems m l s) = lastSeq s := by simp [queueItems]

@[simp] theorem grantPool_seq (m : Nat) (s : State) : lastSeq (grantPool m s).2 = lastSeq s := by simp [grantPool]

@[simp] theorem sendAck_seq (m k : Nat) (sB : State) : lastSeq (sendAck m k sB) = lastSeq sB := by
  unfold sendAck
  simp
  (repeat' split) <;> simp

@[simp] theorem recvPsn_seq (m k psn : Nat) (s : State) : lastSeq (recvPsn m k psn s) = lastSeq s := by
  unfold recvPsn
  simp
  (repeat' split) <;> simp

@[simp] theorem finishRemote_seq (r : Remote) (outs : List Nat) (s : State) : lastSeq (finishRemote r outs s) = lastSeq s := by simp [finishRemote]

@[simp] theorem kickGo_seq (x0 : List (Nat × Nat)) (x1 : List Remote) (x2 : State) : lastSeq (kickGo x0 x1 x2) = lastSeq x2 := by
  fun_induction kickGo x0 x1 x2 <;> simp [*]

@[simp] theorem kick_seq (s : State) : lastSeq (kick s) = lastSeq s := by simp [kick]

@[simp] theorem finishColl_seq (k : Coll) (outs : List Nat) (s : State) : lastSeq (finishColl k outs s) = lastSeq s := by simp [finishColl]

@[simp] theorem scrambleColl_seq (k : Coll) (s : State) : lastSeq (scrambleColl k s) = lastSeq s := by
  unfold scrambleColl
  split <;> simp

@[simp] theorem advanceEpoch_seq (g : Nat) (s : State) : lastSeq (advanceEpoch g s) = lastSeq s := by simp [advanceEpoch]

@[simp] theorem dropMember_seq (g m : Nat) (s : State) : lastSeq (dropMember g m s) = lastSeq s := by simp [dropMember]

@[simp] theorem scrambleInbound_seq (x : Inbound) (s : State) : lastSeq (scrambleInbound x s) = lastSeq s := by
  unfold scrambleInbound
  split
  · rfl
  · refine wrPieces_seq _ _ _ _ fun n a => ?_
    split <;> simp

@[simp] theorem removePeer_seq (m : Nat) (s : State) : lastSeq (removePeer m s) = lastSeq s := by simp [removePeer]

@[simp] theorem losePeer_seq (m : Nat) (s : State) : lastSeq (losePeer m s) = lastSeq s := by
  unfold losePeer
  split <;> simp

@[simp] theorem heardFrom_seq (m inc : Nat) (s : State) : lastSeq (heardFrom m inc s).2 = lastSeq s := by
  unfold heardFrom
  (repeat' split) <;> simp

@[simp] theorem setNextQsn_seq (m q n : Nat) (s : State) : lastSeq (setNextQsn m q n s) = lastSeq s := by simp [setNextQsn]

@[simp] theorem bufferPkt_seq (hd : DptHdr) (payload : List Byte) (s : State) : lastSeq (bufferPkt hd payload s) = lastSeq s := by simp [bufferPkt]

@[simp] theorem landWrite_seq (b : Buffered) (s : State) : lastSeq (landWrite b s).2 = lastSeq s := by
  unfold landWrite
  split
  · rfl
  · split
    · rfl
    · dsimp only
      split
      · rfl
      · refine wrPieces_seq _ _ _ _ fun n a => ?_
        split <;> rfl

@[simp] theorem landSignal_seq (hd : DptHdr) (s : State) : lastSeq (landSignal hd s).2 = lastSeq s := by
  unfold landSignal
  (repeat' split) <;> simp

@[simp] theorem noteLanded_seq (b : Buffered) (s : State) : lastSeq (noteLanded b s) = lastSeq s := by simp [noteLanded]

@[simp] theorem releasePkt_seq (b : Buffered) (s : State) : lastSeq (releasePkt b s) = lastSeq s := by
  unfold releasePkt
  simp
  (repeat' split) <;> simp

@[simp] theorem execDptWriteReceived_seq (hd : DptHdr) (payload : List Byte) (s : State) : SeqKept s (execDptWriteReceived hd payload s) := by
  simp [execDptWriteReceived]

@[simp] theorem execReorderRelease_seq (src queue : Nat) (s : State) : SeqKept s (execReorderRelease src queue s) := by
  unfold execReorderRelease
  split <;> simp

@[simp] theorem execDptSignalReceived_seq (hd : DptHdr) (s : State) : SeqKept s (execDptSignalReceived hd s) := by simp [execDptSignalReceived]

@[simp] theorem resend_seq (m k : Nat) (o : OutPkt) (s : State) : lastSeq (resend m k o s) = lastSeq s := by
  unfold resend
  split <;> simp

@[simp] theorem ackReceived_seq (hd : DptHdr) (a : DptAck) (s : State) : SeqKept s (ackReceived hd a s) := by
  unfold ackReceived
  simp
  (repeat' split) <;> simp

@[simp] theorem execAckTimer_seq (peer path : Nat) (s : State) : SeqKept s (execAckTimer peer path s) := by
  unfold execAckTimer
  split <;> simp

@[simp] theorem execRetransmitTimeout_seq (peer path psn : Nat) (s : State) : SeqKept s (execRetransmitTimeout peer path psn s) := by
  unfold execRetransmitTimeout
  split <;> simp

@[simp] theorem execPathProbe_seq (peer path : Nat) (s : State) : SeqKept s (execPathProbe peer path s) := by
  unfold execPathProbe
  split <;> simp

@[simp] theorem execKeepaliveTimer_seq (peer : Nat) (s : State) : SeqKept s (execKeepaliveTimer peer s) := by
  unfold execKeepaliveTimer
  split <;> simp

end Sys2Proof.Machine

/-! The last accepted sequence of the signed commands (18 R437), continued. -/

namespace Sys2Proof.Machine

/-! ### Machine/Peer.lean -/

@[simp] theorem execPeerTimeout_seq (peer : Nat) (s : State) : SeqKept s (execPeerTimeout peer s) := by simp [execPeerTimeout]

@[simp] theorem prunePeers_seq (s : State) : lastSeq (prunePeers s) = lastSeq s := by simp [prunePeers]

@[simp] theorem removeGroup_seq (g : Nat) (s : State) : lastSeq (removeGroup g s) = lastSeq s := by simp [removeGroup]

@[simp] theorem completeJoin_seq (g : Nat) (s : State) : lastSeq (completeJoin g s) = lastSeq s := by
  unfold completeJoin
  (repeat' split) <;> simp

@[simp] theorem execGroupJoin_seq (h : Nat) (s : State) : SeqKept s (execGroupJoin h s) := by
  unfold execGroupJoin
  refine runCmd_seq _ _ _ _ fun c => ?_
  simp

@[simp] theorem execJoinTimeout_seq (h : Nat) (s : State) : SeqKept s (execJoinTimeout h s) := by
  unfold execJoinTimeout
  split <;> simp

@[simp] theorem execGroupLeave_seq (h : Nat) (s : State) : SeqKept s (execGroupLeave h s) := by
  unfold execGroupLeave
  refine runCmd_seq _ _ _ _ fun c => ?_
  dsimp only
  (repeat' split) <;> simp

@[simp] theorem recvAdvert_seq (m : Nat) (a : Advert) (s : State) : lastSeq (recvAdvert m a s) = lastSeq s := by
  unfold recvAdvert
  simp
  (repeat' split) <;> simp

@[simp] theorem execRemoteCopy_seq (h : Nat) (s : State) : SeqKept s (execRemoteCopy h s) := by simp [execRemoteCopy]

@[simp] theorem sendCopy_seq (r : Remote) (s : State) : lastSeq (sendCopy r s) = lastSeq s := by
  unfold sendCopy
  split <;> simp

@[simp] theorem noteInbound_seq (m q t d : Nat) (s : State) : lastSeq (noteInbound m q t d s) = lastSeq s := by simp [noteInbound]

@[simp] theorem settleColl_seq (h : Nat) (s : State) : lastSeq (settleColl h s) = lastSeq s := by
  unfold settleColl
  (repeat' split) <;> simp

@[simp] theorem modColl_seq (h : Nat) (f : Coll → Coll) (s : State) : lastSeq (modColl h f s) = lastSeq s := by simp [modColl]

@[simp] theorem startColl_seq (h : Nat) (s : State) : lastSeq (startColl h s) = lastSeq s := by
  unfold startColl
  (repeat' split) <;> simp

@[simp] theorem matchHello_seq (h m kind red fmt count : Nat) (s : State) : lastSeq (matchHello h m kind red fmt count s) = lastSeq s := by
  unfold matchHello
  (repeat' split) <;> simp

@[simp] theorem execCollective_seq (h : Nat) (s : State) : SeqKept s (execCollective h s) := by
  refine runCmd_seq _ _ _ _ fun c => ?_
  dsimp only
  (repeat' split)
  · simp
  · simp
  · simp
  · rfl
  · refine (forEach_seq _ _ _ fun e u => ?_).trans (by simp)
    split <;> simp

@[simp] theorem recvHello_seq (m : Nat) (c : DptCtl) (s : State) : lastSeq (recvHello m c s) = lastSeq s := by
  unfold recvHello
  (repeat' split) <;> simp

@[simp] theorem execDptCollectiveDataReceived_seq (hd : DptHdr) (payload : List Byte) (s : State) :
    SeqKept s (execDptCollectiveDataReceived hd payload s) := by
  unfold execDptCollectiveDataReceived
  simp
  (repeat' split) <;> simp

@[simp] theorem controlReceived_seq (hd : DptHdr) (m : DptCtl) (s : State) : SeqKept s (controlReceived hd m s) := by
  unfold controlReceived
  simp
  (repeat' split) <;> simp

@[simp] theorem execDptAckReceived_seq (src incarnation : Nat) (p : DptShort × DptAck) (s : State) :
    SeqKept s (execDptAckReceived src incarnation p s) := by
  simp [execDptAckReceived]

@[simp] theorem execDptControlReceived_seq (src incarnation : Nat) (p : DptShort × DptCtl) (s : State) :
    SeqKept s (execDptControlReceived src incarnation p s) := by
  simp [execDptControlReceived]

/-! ### Machine/Frames.lean -/

@[simp] theorem stopMargins_seq (port : Nat) (down : Nat → Bool) (s : State) : lastSeq (stopMargins port down s) = lastSeq s := by
  simp [stopMargins]

@[simp] theorem execPortConfig_seq (h : Nat) (s : State) : SeqKept s (execPortConfig h s) := by simp [execPortConfig]

@[simp] theorem pumpAll_seq (s : State) : lastSeq (pumpAll s) = lastSeq s := by simp [pumpAll]

@[simp] theorem execEthLinkUp_seq (port logical : Nat) (s : State) : SeqKept s (execEthLinkUp port logical s) := by simp [execEthLinkUp]

@[simp] theorem execEthLinkDown_seq (port logical : Nat) (s : State) : SeqKept s (execEthLinkDown port logical s) := by simp [execEthLinkDown]

@[simp] theorem ringReceive_seq (port logical fraction : Nat) (bytes : List Byte) (s : State) :
    lastSeq (ringReceive port logical fraction bytes s) = lastSeq s := by
  simp [ringReceive]

@[simp] theorem execFrameReceived_seq (port logical length fraction fecCorr fecUncorr : Nat) (k : FrameKind) (s : State) :
    SeqKept s (execFrameReceived port logical length fraction fecCorr fecUncorr k s) := by
  unfold execFrameReceived
  (repeat' split) <;> simp

@[simp] theorem ringSend_seq (fraction i : Nat) (s : State) : lastSeq (ringSend fraction i s) = lastSeq s := by simp [ringSend]

@[simp] theorem sendRing_seq (fraction tail x0 : Nat) (x1 : State) : lastSeq (sendRing fraction tail x0 x1) = lastSeq x1 := by
  fun_induction sendRing fraction tail x0 x1 <;> simp [*]

@[simp] theorem execHgPtpTxTailWrite_seq (fn tail fraction : Nat) (s : State) : SeqKept s (execHgPtpTxTailWrite fn tail fraction s) := by
  simp [execHgPtpTxTailWrite]

@[simp] theorem execHgPtpRxHeadWrite_seq (fn head : Nat) (s : State) : SeqKept s (execHgPtpRxHeadWrite fn head s) := by simp [execHgPtpRxHeadWrite]

/-! ### Machine/Diag.lean -/

@[simp] theorem execNop_seq (h : Nat) (s : State) : SeqKept s (execNop h s) := by simp [execNop]

@[simp] theorem execFlipMask_seq (h : Nat) (s : State) : SeqKept s (execFlipMask h s) := by simp [execFlipMask]

@[simp] theorem execFaultHistory_seq (h : Nat) (s : State) : SeqKept s (execFaultHistory h s) := by simp [execFaultHistory]

@[simp] theorem execAttest_seq (h : Nat) (s : State) : SeqKept s (execAttest h s) := by simp [execAttest]

@[simp] theorem unmeasured_seq (lane use replaces : Nat) (s : State) : lastSeq (unmeasured lane use replaces s).2 = lastSeq s := by
  simp [unmeasured]

@[simp] theorem groupEntries_seq (x : Stack) (group : Nat) (ms : List LaneMargin) (swept x0 : List Nat) (x1 : State) :
    lastSeq (groupEntries x group ms swept x0 x1).2 = lastSeq x1 := by
  induction x0 generalizing x x1 with
  | nil => rfl
  | cons a l ih =>
    unfold groupEntries
    dsimp only
    (repeat' split) <;> simp [ih]

@[simp] theorem marginGroup_seq (k group : Nat) (ms : List LaneMargin) (s : State) : lastSeq (marginGroup k group ms s).2 = lastSeq s := by
  simp [marginGroup]

@[simp] theorem marginLane_seq (kind link lane : Nat) (ms : List LaneMargin) (s : State) :
    lastSeq (marginLane kind link lane ms s).2 = lastSeq s := by
  unfold marginLane
  split <;> simp

@[simp] theorem execMargin_seq (h : Nat) (lanes : List LaneMargin) (s : State) : SeqKept s (execMargin h lanes s) := by
  unfold execMargin
  refine runCmd_seq _ _ _ _ fun c => ?_
  dsimp only
  (repeat' split) <;> simp

@[simp] theorem holdWake_seq (c : Bool) (s : State) : lastSeq (holdWake c s) = lastSeq s := by simp [holdWake]

@[simp] theorem enterIdle_seq (s : State) : lastSeq (enterIdle s) = lastSeq s := by simp [enterIdle]

@[simp] theorem flushAll_seq (s : State) : lastSeq (flushAll s) = lastSeq s := by simp [flushAll]

@[simp] theorem enterHold_seq (s : State) : lastSeq (enterHold s) = lastSeq s := by simp [enterHold]

@[simp] theorem beginEntry_seq (target : Power) (s : State) : lastSeq (beginEntry target s) = lastSeq s := by simp [beginEntry]

@[simp] theorem execPowerState_seq (h : Nat) (s : State) : SeqKept s (execPowerState h s) := by
  unfold execPowerState
  refine runCmd_seq _ _ _ _ fun c => ?_
  dsimp only
  (repeat' split) <;> simp

/-! ### Machine/TileData.lean -/

@[simp] theorem TAcc.start_seq (s : State) (t : Nat) (c : Ctx) : lastSeq (TAcc.start s t c).a.s = lastSeq s := by simp [TAcc.start]

@[simp] theorem tRead_seq (space off len : Nat) (x : TAcc) : lastSeq (tRead space off len x).2.a.s = lastSeq x.a.s := by
  unfold tRead
  split <;> simp

@[simp] theorem tWrite_seq (space off : Nat) (bs : List Byte) (poison : Bool) (x : TAcc) :
    lastSeq (tWrite space off bs poison x).a.s = lastSeq x.a.s := by
  unfold tWrite
  split <;> simp

@[simp] theorem noteFail_seq (f : Option Failure) (x : TAcc) : lastSeq (noteFail f x).a.s = lastSeq x.a.s := by simp [noteFail]

@[simp] theorem noteRun_seq (r : Nat) (outs : List Nat) (s : State) : lastSeq (noteRun r outs s) = lastSeq s := by simp [noteRun]

@[simp] theorem finishT_seq (x : TAcc) (k : State → State) (h1 : ∀ (y0 : State), lastSeq (k y0) = lastSeq y0) :
    lastSeq (finishT x k) = lastSeq x.a.s := by
  unfold finishT
  (repeat' split) <;> simp [*]

@[simp] theorem rdVec_seq (bf16 : Bool) (off n : Nat) (x : TAcc) : lastSeq (rdVec bf16 off n x).2.a.s = lastSeq x.a.s := by simp [rdVec]

@[simp] theorem wrVec_seq (bf16 : Bool) (b : Bounds) (off : Nat) (vs : List Nat) (x : TAcc) :
    lastSeq (wrVec bf16 b off vs x).a.s = lastSeq x.a.s := by
  simp [wrVec]

@[simp] theorem doneChannel_seq (t : Nat) (s : State) : lastSeq (doneChannel t s) = lastSeq s := by simp [doneChannel]

@[simp] theorem doneLateral_seq (t : Nat) (s : State) : lastSeq (doneLateral t s) = lastSeq s := by simp [doneLateral]

@[simp] theorem actRow_seq (p : PassOp) (i : Nat) (x : TAcc) : lastSeq (actRow p i x).2.a.s = lastSeq x.a.s := by simp [actRow]

@[simp] theorem actRows_seq (p : PassOp) (x0 : List Nat) (x1 : TAcc) : lastSeq (actRows p x0 x1).2.a.s = lastSeq x1.a.s := by
  induction x0 generalizing x1 with
  | nil => rfl
  | cons a l ih => simp [actRows, ih]

@[simp] theorem outlierVals_seq (g : RowGroup) (j : Nat) (x : TAcc) : lastSeq (outlierVals g j x).2.a.s = lastSeq x.a.s := by simp [outlierVals]

@[simp] theorem setBank_seq (t : Nat) (b : Bool) (k : Bank) (s : State) : lastSeq (setBank t b k s) = lastSeq s := by simp [setBank]

@[simp] theorem passRows_seq (p : PassOp) (fp32 : Bool) (w : List (List Nat)) (x0 : List (List Nat × Nat × RowGroup × Option LatBlock × Nat))
    (x1 : Tab W32 × TAcc) :
    lastSeq (passRows p fp32 w x0 x1).2.a.s = lastSeq x1.2.a.s := by
  induction x0 generalizing x1 with
  | nil => rfl
  | cons a l ih =>
    unfold passRows
    (repeat' split) <;> simp [ih]

@[simp] theorem markMain_seq (i t : Nat) (s : State) : lastSeq (markMain i t s) = lastSeq s := by simp [markMain]

@[simp] theorem execMainPass_seq (t : Nat) (s : State) : SeqKept s (execMainPass t s) := by
  unfold execMainPass
  split <;> simp

@[simp] theorem execLateralLoad_seq (t : Nat) (s : State) : SeqKept s (execLateralLoad t s) := by
  unfold execLateralLoad
  split <;> simp

@[simp] theorem slotRows_seq (p : PassOp) (slot : Nat) (x0 : List (List Nat × Nat × RowGroup × Option LatBlock × Nat)) (x1 : Tab W32 × TAcc) :
    lastSeq (slotRows p slot x0 x1).2.a.s = lastSeq x1.2.a.s := by
  induction x0 generalizing x1 with
  | nil => rfl
  | cons a l ih =>
    unfold slotRows
    (repeat' split) <;> simp [ih]

@[simp] theorem execExtraLateralSlot_seq (t : Nat) (s : State) : SeqKept s (execExtraLateralSlot t s) := by
  unfold execExtraLateralSlot
  split <;> simp

@[simp] theorem execChecksumVerdict_seq (t row : Nat) (errors : List (Nat × Int)) (s : State) : SeqKept s (execChecksumVerdict t row errors s) := by
  unfold execChecksumVerdict
  (repeat' split) <;> simp

@[simp] theorem pendCounts_seq (t : Nat) (l : List Nat) (s : State) : lastSeq (pendCounts t l s) = lastSeq s := by simp [pendCounts]

@[simp] theorem drainEls_seq (d : DrainOp) (b : Bank) (rs cs bs : Option (List Nat)) (x0 : List Nat) (x1 : State) :
    lastSeq (drainEls d b rs cs bs x0 x1).2 = lastSeq x1 := by
  induction x0 generalizing x1 with
  | nil => rfl
  | cons a l ih =>
    unfold drainEls
    dsimp only
    (repeat' split) <;> simp [ih]

@[simp] theorem optVec_seq (addr : Option Nat) (n : Nat) (x : TAcc) : lastSeq (optVec addr n x).2.a.s = lastSeq x.a.s := by
  unfold optVec
  split <;> simp

@[simp] theorem drainWrite_seq (t : Nat) (d : DrainOp) (els : List (Conv × Fl)) (x : TAcc) : lastSeq (drainWrite t d els x).a.s = lastSeq x.a.s := by
  unfold drainWrite
  simp
  (repeat' split) <;> simp

@[simp] theorem drainGo_seq (t : Nat) (d : DrainOp) (b : Bank) (residueError : Bool) (x : TAcc) :
    lastSeq (drainGo t d b residueError x).1.a.s = lastSeq x.a.s := by
  unfold drainGo
  split <;> simp

@[simp] theorem execAccDrain_seq (t : Nat) (residueError : Bool) (s : State) : SeqKept s (execAccDrain t residueError s) := by
  unfold execAccDrain
  simp
  (repeat' split) <;> simp

@[simp] theorem execChannelOp_seq (t : Nat) (s : State) : SeqKept s (execChannelOp t s) := by
  unfold execChannelOp
  (repeat' split) <;> simp

@[simp] theorem execChannelReduction_seq (t : Nat) (s : State) : SeqKept s (execChannelReduction t s) := by
  unfold execChannelReduction
  split <;> simp

@[simp] theorem execSoftmax_seq (t : Nat) (s : State) : SeqKept s (execSoftmax t s) := by
  unfold execSoftmax
  split <;> simp

@[simp] theorem execNormalisation_seq (t : Nat) (s : State) : SeqKept s (execNormalisation t s) := by
  unfold execNormalisation
  split <;> simp

@[simp] theorem observeBytes_seq (o : Observe) (k : Nat) (z : Stats) (x : TAcc) : lastSeq (observeBytes o k z x).2.a.s = lastSeq x.a.s := by
  unfold observeBytes
  (repeat' split) <;> simp

@[simp] theorem quantRows_seq (q : QuantOp) (x0 : List Nat) (x1 : TAcc) : lastSeq (quantRows q x0 x1).2.a.s = lastSeq x1.a.s := by
  induction x0 generalizing x1 with
  | nil => rfl
  | cons a l ih => simp [quantRows, ih]

@[simp] theorem freeBytes_seq (x0 : Nat) (x1 : State) : lastSeq (freeBytes x0 x1).2 = lastSeq x1 := by
  induction x0 generalizing x1 with
  | zero => rfl
  | succ n ih => simp [freeBytes, ih]

@[simp] theorem quantGo_seq (q : QuantOp) (x : TAcc) : lastSeq (quantGo q x).2.a.s = lastSeq x.a.s := by
  unfold quantGo
  simp
  (repeat' split) <;> simp

@[simp] theorem quantCols_seq (q : WQuantOp) (rows : List (List Nat)) (l : List Nat) (s : State) : lastSeq (quantCols q rows l s).2 = lastSeq s := by
  induction l generalizing s with
  | nil => rfl
  | cons a l ih =>
    unfold quantCols
    (repeat' split) <;> simp [ih]

@[simp] theorem wquantGo_seq (q : WQuantOp) (x : TAcc) : lastSeq (wquantGo q x).2.a.s = lastSeq x.a.s := by simp [wquantGo]

@[simp] theorem execQuantise_seq (t : Nat) (s : State) : SeqKept s (execQuantise t s) := by
  unfold execQuantise
  split <;> simp

@[simp] theorem wrPvGo_seq (space x0 x1 : Nat) (x2 : List (Byte × Bool)) (x3 : TAcc) : lastSeq (wrPvGo space x0 x1 x2 x3).a.s = lastSeq x3.a.s := by
  fun_induction wrPvGo space x0 x1 x2 x3 <;> simp [*]

@[simp] theorem wrPv_seq (space off : Nat) (l : List (Byte × Bool)) (x : TAcc) : lastSeq (wrPv space off l x).a.s = lastSeq x.a.s := by
  unfold wrPv
  split <;> simp

@[simp] theorem rdLines_seq (d : Desc) (x0 : List Line) (x1 : Acc) : lastSeq (rdLines d x0 x1).2.s = lastSeq x1.s := by
  induction x0 generalizing x1 with
  | nil => rfl
  | cons a l ih => simp [rdLines, ih]

@[simp] theorem loadBytes_seq (d : Desc) (a : Acc) : lastSeq (loadBytes d a).2.s = lastSeq a.s := by
  unfold loadBytes
  split <;> simp

@[simp] theorem rdPv_seq (space fmt off n : Nat) (x : TAcc) : lastSeq (rdPv space fmt off n x).2.a.s = lastSeq x.a.s := by
  unfold rdPv
  split <;> simp

@[simp] theorem doneLoad_seq (t : Nat) (s : State) : lastSeq (doneLoad t s) = lastSeq s := by simp [doneLoad]

@[simp] theorem execLoadTransfer_seq (t : Nat) (parityAt : Option Nat) (s : State) : SeqKept s (execLoadTransfer t parityAt s) := by
  unfold execLoadTransfer
  refine onUnit_seq _ _ ?_
  (repeat' split) <;> simp

@[simp] theorem execCodeOverlayTransfer_seq (t : Nat) (s : State) : SeqKept s (execCodeOverlayTransfer t s) := by
  unfold execCodeOverlayTransfer
  simp
  (repeat' split) <;> simp

@[simp] theorem queueOut_seq (t : Nat) (e : Effect) (s : State) : lastSeq (queueOut t e s) = lastSeq s := by simp [queueOut]

@[simp] theorem wrList_seq (d : Desc) (l : List PV) (all : Bool) (a : Acc) : lastSeq (wrList d l all a).s = lastSeq a.s := by simp [wrList]

@[simp] theorem execStoreTransfer_seq (t : Nat) (s : State) : SeqKept s (execStoreTransfer t s) := by
  unfold execStoreTransfer
  (repeat' split) <;> simp

/-! ### Machine/TileProg.lean -/

@[simp] theorem readV_seq (t v : Nat) (s : State) : lastSeq (readV t v s).2 = lastSeq s := by
  unfold readV
  split <;> simp

@[simp] theorem setCtx_seq (t : Nat) (c : Ctx) (s : State) : lastSeq (setCtx t c s) = lastSeq s := by simp [setCtx]

@[simp] theorem runScalar_seq (t : Nat) (c : Ctx) (o : ScalarOp) (s : State) : lastSeq (runScalar t c o s).a.s = lastSeq s := by
  unfold runScalar
  (repeat' split) <;> simp

@[simp] theorem execEventWait_seq (t ev n : Nat) (s : State) : SeqKept s (execEventWait t ev n s) := by simp [execEventWait]

@[simp] theorem issueWord_seq (t : Nat) (c : Ctx) (w : LongWord) (parityAt : Option Nat) (s : State) :
    lastSeq (issueWord t c w parityAt s) = lastSeq s := by
  unfold issueWord
  simp
  (repeat' split) <;> simp

@[simp] theorem beginBody_seq (t : Nat) (c : Ctx) (s : State) : lastSeq (beginBody t c s) = lastSeq s := by simp [beginBody]

@[simp] theorem nextShared_seq (t : Nat) (c : Ctx) (s : State) : lastSeq (nextShared t c s) = lastSeq s := by
  unfold nextShared
  split <;> simp

@[simp] theorem headWait_seq (t : Nat) (take : Bool) (slot amount : Nat) (s : State) : lastSeq (headWait t take slot amount s) = lastSeq s := by
  unfold headWait
  simp
  (repeat' split) <;> simp

@[simp] theorem issueHead_seq (t : Nat) (c : Ctx) (w : LongWord) (parityAt : Option Nat) (s : State) :
    lastSeq (issueHead t c w parityAt s) = lastSeq s := by
  simp [issueHead]

@[simp] theorem execLongWordIssue_seq (t : Nat) (w : LongWord) (parityAt : Option Nat) (s : State) :
    SeqKept s (execLongWordIssue t w parityAt s) := by
  unfold execLongWordIssue
  simp
  (repeat' split) <;> simp

@[simp] theorem execStepHeadWait_seq (t : Nat) (take : Bool) (slot amount : Nat) (s : State) : SeqKept s (execStepHeadWait t take slot amount s) := by
  simp [execStepHeadWait]

@[simp] theorem storedParity_seq (t off tenant : Nat) (s : State) : lastSeq (storedParity t off tenant s) = lastSeq s := by simp [storedParity]

@[simp] theorem execUnitOpComplete_seq (t : Nat) (u : TileUnit) (conflicts : Nat) (found : Option Detection) (s : State) :
    SeqKept s (execUnitOpComplete t u s conflicts found) := by
  unfold execUnitOpComplete
  split <;> simp

@[simp] theorem stepExpired_seq (t : Nat) (s : State) : lastSeq (stepExpired t s) = lastSeq s := by simp [stepExpired]

@[simp] theorem execStepTimeLimit_seq (t : Nat) (s : State) : SeqKept s (execStepTimeLimit t s) := by simp [execStepTimeLimit]

@[simp] theorem execTileTrap_seq (t : Nat) (s : State) : SeqKept s (execTileTrap t s) := by simp [execTileTrap]

@[simp] theorem release_seq (t : Nat) (c : Ctx) (bad : Bool) (e : Effect) (s : State) : lastSeq (release t c bad e s).2 = lastSeq s := by
  unfold release
  simp
  (repeat' split) <;> simp

@[simp] theorem releaseAll_seq (t : Nat) (c : Ctx) (bad : Bool) (x0 : List Effect) (x1 : State) :
    lastSeq (releaseAll t c bad x0 x1) = lastSeq x1 := by
  induction x0 generalizing x1 with
  | nil => rfl
  | cons a l ih => simp [releaseAll, ih]

@[simp] theorem landStats_seq (t : Nat) (s : State) : lastSeq (landStats t s) = lastSeq s := by
  refine (modTile_seq ..).trans ((foldl_seq Acc.s _ _ _ fun a e => ?_).trans ?_) <;> simp

@[simp] theorem stepHistory_seq (t : Nat) (c : Ctx) (poisoned : Bool) (s : State) : lastSeq (stepHistory t c poisoned s) = lastSeq s := by
  simp [stepHistory]

@[simp] theorem finishLogical_seq (t : Nat) (c : Ctx) (s : State) : lastSeq (finishLogical t c s) = lastSeq s := by
  unfold finishLogical
  simp
  (repeat' split) <;> simp

@[simp] theorem atBoundary_seq (t : Nat) (c : Ctx) (s : State) : lastSeq (atBoundary t c s) = lastSeq s := by
  unfold atBoundary
  (repeat' split) <;> simp

@[simp] theorem stopCancelled_seq (t : Nat) (c : Ctx) (s : State) : lastSeq (stopCancelled t c s) = lastSeq s := by simp [stopCancelled]

@[simp] theorem execCommit_seq (t : Nat) (s : State) (conflicts : Nat) : SeqKept s (execCommit t s conflicts) := by
  refine onUnit_seq _ _ ?_
  split
  · rfl
  · split
    · rfl
    · split
      · simp
      · refine viaGap_seq _ _ _ _ fun u => ?_
        dsimp only
        (repeat' split) <;> simp

/-! ### Machine/StackRows.lean -/

@[simp] theorem execMergeWindowExpiry_seq (k blk : Nat) (s : State) : SeqKept s (execMergeWindowExpiry k blk s) := by simp [execMergeWindowExpiry]

@[simp] theorem execCorrectionWriteBack_seq (k blk : Nat) (s : State) : SeqKept s (execCorrectionWriteBack k blk s) := by
  simp [execCorrectionWriteBack]

@[simp] theorem execUePoisonRewrite_seq (k blk : Nat) (s : State) : SeqKept s (execUePoisonRewrite k blk s) := by simp [execUePoisonRewrite]

@[simp] theorem execCeBucketLeak_seq (k : Nat) (s : State) : SeqKept s (execCeBucketLeak k s) := by simp [execCeBucketLeak]

@[simp] theorem execPatrolRowVisit_seq (k : Nat) (s : State) : SeqKept s (execPatrolRowVisit k s) := by
  unfold execPatrolRowVisit
  split <;> simp

@[simp] theorem execStackRead_seq (k off : Nat) (flips : BitVec 576) (s : State) : SeqKept s (execStackRead k off flips s) := by
  simp [execStackRead]

@[simp] theorem execStackWrite_seq (k off : Nat) (data : List Byte) (mask : W64) (source : Nat) (s : State) :
    SeqKept s (execStackWrite k off data mask source s) := by
  simp [execStackWrite]

@[simp] theorem execBar4Read_seq (fn off len : Nat) (s : State) : SeqKept s (execBar4Read fn off len s) := by simp [execBar4Read]

@[simp] theorem execBar4Write_seq (fn off : Nat) (bytes : List (Option Byte)) (s : State) : SeqKept s (execBar4Write fn off bytes s) := by
  simp [execBar4Write]

@[simp] theorem execSliceEnd_seq (k d p : Nat) (s : State) : SeqKept s (execSliceEnd k d p s) := by
  unfold execSliceEnd
  split <;> simp

/-! ### Machine/Links.lean -/

@[simp] theorem execLinkFrameRetry_seq (k : Nat) (ok : Bool) (s : State) : SeqKept s (execLinkFrameRetry k ok s) := by simp [execLinkFrameRetry]

@[simp] theorem setEdgeTry_seq (k : Nat × Nat) (n : Nat) (s : State) : lastSeq (setEdgeTry k n s) = lastSeq s := by simp [setEdgeTry]

@[simp] theorem execFlitCrcRetry_seq (a b : Nat) (ok : Bool) (s : State) : SeqKept s (execFlitCrcRetry a b ok s) := by simp [execFlitCrcRetry]

@[simp] theorem loseTransfer_seq (h : Nat) (s : State) : lastSeq (loseTransfer h s) = lastSeq s := by
  unfold loseTransfer
  split <;> simp

@[simp] theorem loseEdge_seq (a b : Nat) (inFlight : List Nat) (s : State) : lastSeq (loseEdge a b inFlight s) = lastSeq s := by simp [loseEdge]

@[simp] theorem execRetrainingComplete_seq (u : UnitRef) (ok : Bool) (inFlight : List Nat) (s : State) :
    SeqKept s (execRetrainingComplete u ok s inFlight) := by
  unfold execRetrainingComplete
  split <;> simp

@[simp] theorem execFarLinkDown_seq (link errors : Nat) (s : State) : SeqKept s (execFarLinkDown s link errors) := by simp [execFarLinkDown]

/-! ### Machine/Thermal.lean -/

@[simp] theorem showTherm_seq (s : State) : lastSeq (showTherm s) = lastSeq s := by simp [showTherm]

@[simp] theorem thermalEvent_seq (payload : List Nat) (s : State) : lastSeq (thermalEvent payload s) = lastSeq s := by simp [thermalEvent]

@[simp] theorem updateBlock_seq (b : Nat) (s : State) : lastSeq (updateBlock b s) = lastSeq s := by simp [updateBlock]

@[simp] theorem stopCmd_seq (h : Nat) (s : State) : lastSeq (stopCmd h s) = lastSeq s := by
  unfold stopCmd
  (repeat' split) <;> simp

@[simp] theorem beginStop_seq (s : State) : lastSeq (beginStop s) = lastSeq s := by simp [beginStop]

@[simp] theorem finishStop_seq (s : State) : lastSeq (finishStop s) = lastSeq s := by simp [finishStop]

@[simp] theorem stopStep_seq (s : State) : lastSeq (stopStep s) = lastSeq s := by
  unfold stopStep
  dsimp only
  (repeat' split) <;> simp

@[simp] theorem sensorStep_seq (readings : List (Nat × Int)) (s : State) : lastSeq (sensorStep readings s) = lastSeq s := by simp [sensorStep]

@[simp] theorem execSensorUpdate_seq (readings : List (Nat × Int)) (s : State) : SeqKept s (execSensorUpdate readings s) := by
  simp [execSensorUpdate]

@[simp] theorem execPowerLimiterTick_seq (mean : Nat) (s : State) : SeqKept s (execPowerLimiterTick mean s) := by simp [execPowerLimiterTick]

@[simp] theorem execFaultRecordFlush_seq (s : State) : SeqKept s (execFaultRecordFlush s) := by simp [execFaultRecordFlush]

@[simp] theorem execOperatingTimeTick_seq (s : State) : SeqKept s (execOperatingTimeTick s) := by simp [execOperatingTimeTick]

/-! ### Machine/Boot.lean -/

@[simp] theorem showFault_seq (s : State) : lastSeq (showFault s) = lastSeq s := by simp [showFault]

@[simp] theorem packageReset_seq (s : State) : lastSeq (packageReset s) = lastSeq s := (rfl)

@[simp] theorem powerReset_seq (s : State) : lastSeq (powerReset s) = lastSeq s := by simp [powerReset]

@[simp] theorem resetIfUp_seq (s : State) : lastSeq (resetIfUp s) = lastSeq s := by simp [resetIfUp]

@[simp] theorem railsDown_seq (s : State) : lastSeq (railsDown s) = lastSeq s := by simp [railsDown]

@[simp] theorem startResidency_seq (s : State) : lastSeq (startResidency s) = lastSeq s := by simp [startResidency]

@[simp] theorem execInputPowerApplied_seq (slotId : Nat) (isoCompat : Bool) (s : State) : SeqKept s (execInputPowerApplied slotId isoCompat s) := by
  simp [execInputPowerApplied]

@[simp] theorem execInputWarningBand_seq (s : State) : SeqKept s (execInputWarningBand s) := by simp [execInputWarningBand]

@[simp] theorem execInputCut_seq (s : State) : SeqKept s (execInputCut s) := by simp [execInputCut]

@[simp] theorem execInputPowerLoss_seq (s : State) : SeqKept s (execInputPowerLoss s) := by simp [execInputPowerLoss]

@[simp] theorem restart_seq (s : State) : lastSeq (restart s) = lastSeq s := by simp [restart]

@[simp] theorem execInputRecovery_seq (s : State) : SeqKept s (execInputRecovery s) := by simp [execInputRecovery]

@[simp] theorem execPwrEnHigh_seq (s : State) : SeqKept s (execPwrEnHigh s) := by simp [execPwrEnHigh]

@[simp] theorem execPwrEnLow_seq (s : State) : SeqKept s (execPwrEnLow s) := by simp [execPwrEnLow]

@[simp] theorem execPerstNAssert_seq (s : State) : SeqKept s (execPerstNAssert s) := by simp [execPerstNAssert]

@[simp] theorem execPerstNRelease_seq (s : State) : SeqKept s (execPerstNRelease s) := by simp [execPerstNRelease]

@[simp] theorem busReset_seq (s : State) : lastSeq (busReset s) = lastSeq s := by simp [busReset]

@[simp] theorem execHotReset_seq (s : State) : SeqKept s (execHotReset s) := by simp [execHotReset]

@[simp] theorem execPcieLinkDown_seq (s : State) : SeqKept s (execPcieLinkDown s) := by simp [execPcieLinkDown]

@[simp] theorem execPcieLinkTrained_seq (flit : Bool) (width rate : Nat) (s : State) : SeqKept s (execPcieLinkTrained flit width rate s) := by
  simp [execPcieLinkTrained]

@[simp] theorem execConfigRetryEnd_seq (s : State) : SeqKept s (execConfigRetryEnd s) := by simp [execConfigRetryEnd]

@[simp] theorem execWakeNAssert_seq (s : State) : SeqKept s (execWakeNAssert s) := by simp [execWakeNAssert]

@[simp] theorem execHenuaBootComplete_seq (s : State) : SeqKept s (execHenuaBootComplete s) := by simp [execHenuaBootComplete]

@[simp] theorem execRailSequencing_seq (s : State) : SeqKept s (execRailSequencing s) := by simp [execRailSequencing]

@[simp] theorem execRootPllLock_seq (s : State) : SeqKept s (execRootPllLock s) := by simp [execRootPllLock]

@[simp] theorem bootOutcome_seq (first repeats : List Nat) (mk : Nat → UnitRef) (n : Nat) (s : State) :
    lastSeq (bootOutcome first repeats mk n s) = lastSeq s := by
  simp [bootOutcome]

@[simp] theorem execBootSelftestEnd_seq (first repeats : BootFails) (s : State) : SeqKept s (execBootSelftestEnd first repeats s) := by
  simp [execBootSelftestEnd]

@[simp] theorem startPush_seq (source : Nat) (h : Henua) : (startPush source h).mgmtSeq = h.mgmtSeq := (rfl)

@[simp] theorem execFirmwarePushGo_seq (s : State) : SeqKept s (execFirmwarePushGo s) := by
  unfold execFirmwarePushGo
  rw [seqKept_next]
  split
  · rw [modHenua_seq]
    (repeat' split) <;> simp
  · rfl

@[simp] theorem trainLink_seq (failing : List (Nat × List Nat)) (k : Nat) (s : State) : lastSeq (trainLink failing k s) = lastSeq s := by
  simp [trainLink]

@[simp] theorem execStackLinkTrainingEnd_seq (failing : List (Nat × List Nat)) (s : State) : SeqKept s (execStackLinkTrainingEnd failing s) := by
  refine onUnit_seq _ _ ?_
  split
  · refine (modHenua_seq ..).trans ?_
    split <;> simp
  · rfl

@[simp] theorem pushEvent_seq (severity reason : Nat) (im : Image) (s : State) : lastSeq (pushEvent severity reason im s) = lastSeq s := by
  simp [pushEvent]

@[simp] theorem pushFetch_seq (addr len : Nat) (b : List Byte) (bad : Bool) (s : State) : lastSeq (pushFetch addr len b bad s) = lastSeq s := by
  unfold pushFetch
  (repeat' split) <;> simp

@[simp] theorem execFirmwareVerification_seq (headerError payloadError : Bool) (s : State) :
    SeqKept s (execFirmwareVerification headerError payloadError s) := by
  unfold execFirmwareVerification
  simp
  (repeat' split) <;> simp

@[simp] theorem execInventoryComplete_seq (expanders : List Nat) (s : State) : SeqKept s (execInventoryComplete expanders s) := by
  unfold execInventoryComplete
  rw [seqKept_next]
  split
  · refine (setCauseAll_seq ..).trans ((henuaEvent_seq ..).trans ((forEach_seq _ _ _ checkNoFurrow_seq).trans ?_))
    split
    · next placed => exact (addTenant_seq ..).trans ((placeContext_seq placed).trans (by simp))
    · simp
  · rfl

@[simp] theorem resetFn_seq (f : Nat) (s : State) : lastSeq (resetFn f s) = lastSeq s := by simp [resetFn]

@[simp] theorem resetPfOnly_seq (s : State) : lastSeq (resetPfOnly s) = lastSeq s := by simp [resetPfOnly]

@[simp] theorem execFunctionLevelReset_seq (fn : Nat) (s : State) : SeqKept s (execFunctionLevelReset fn s) := by simp [execFunctionLevelReset]

@[simp] theorem wakeMemories_seq (s : State) : lastSeq (wakeMemories s) = lastSeq s := by simp [wakeMemories]

@[simp] theorem lossEvents_seq (s : State) : lastSeq (lossEvents s) = lastSeq s := by simp [lossEvents]

@[simp] theorem enterRun_seq (s : State) : lastSeq (enterRun s) = lastSeq s := by simp [enterRun]

@[simp] theorem execWakeComplete_seq (failedStacks : List Nat) (retrained : List (Nat × List Nat)) (s : State) :
    SeqKept s (execWakeComplete failedStacks s retrained) := by
  simp [execWakeComplete]

/-! ### Machine/Regs.lean -/

@[simp] theorem clearRc_seq (f off : Nat) (s : State) : lastSeq (clearRc f off s) = lastSeq s := by
  unfold clearRc
  (repeat' split) <;> simp

@[simp] theorem read32_seq (f off : Nat) (s : State) : lastSeq (read32 f off s).2 = lastSeq s := by
  unfold read32
  simp
  (repeat' split) <;> simp

@[simp] theorem read64_seq (f off : Nat) (s : State) : lastSeq (read64 f off s).2 = lastSeq s := by
  unfold read64
  split <;> simp

@[simp] theorem badAccess_seq (f : Nat) (s : State) : lastSeq (badAccess f s) = lastSeq s := by simp [badAccess]

@[simp] theorem barRead_seq (f off size : Nat) (s : State) : lastSeq (barRead f off size s) = lastSeq s := by
  unfold barRead
  (repeat' split) <;> simp

@[simp] theorem pageRead_seq (f off size : Nat) (s : State) : lastSeq (pageRead f off size s) = lastSeq s := by simp [pageRead]

@[simp] theorem configRead_seq (f : Nat) (r : CfgReg) (s : State) : lastSeq (configRead f r s) = lastSeq s := by simp [configRead]

@[simp] theorem execHgDevTimeRead_seq (fn : Nat) (a : Access) (s : State) : SeqKept s (execHgDevTimeRead fn a s) := by
  unfold execHgDevTimeRead
  split <;> simp

@[simp] theorem execRcRegisterRead_seq (fn : Nat) (place : RegPlace) (size : Nat) (s : State) : SeqKept s (execRcRegisterRead fn place size s) := by
  unfold execRcRegisterRead
  split <;> simp

@[simp] theorem writeW1c_seq (f off v : Nat) (s : State) : lastSeq (writeW1c f off v s) = lastSeq s := by
  unfold writeW1c
  split <;> simp

@[simp] theorem viaRow_seq {s : State} {r : Res} (h : SeqKept s r) : lastSeq (viaRow r s) = lastSeq s := by
  cases r with
  | next t => exact h t rfl
  | fault f => rfl
  | refused x => rfl

@[simp] theorem setBudget_seq (k v : Nat) (s : State) : lastSeq (setBudget k v s) = lastSeq s := by simp [setBudget]

@[simp] theorem setPatrol_seq (k v : Nat) (s : State) : lastSeq (setPatrol k v s) = lastSeq s := by simp [setPatrol]

@[simp] theorem writeMsix_seq (f off v : Nat) (s : State) : lastSeq (writeMsix f off v s) = lastSeq s := by simp [writeMsix]

@[simp] theorem writeOwn_seq (f off v : Nat) (s : State) : lastSeq (writeOwn f off v s) = lastSeq s := by
  unfold writeOwn
  (repeat' split) <;> simp

@[simp] theorem writePf_seq (off v : Nat) (s : State) : lastSeq (writePf off v s) = lastSeq s := by
  unfold writePf
  (repeat' split) <;> simp

@[simp] theorem write32_seq (f off v : Nat) (s : State) : lastSeq (write32 f off v s) = lastSeq s := by simp [write32]

@[simp] theorem bar2Write_seq (f off v : Nat) (s : State) : lastSeq (bar2Write f off v s) = lastSeq s := by
  unfold bar2Write
  split <;> simp

@[simp] theorem sizedWrite_seq (w : Nat → Nat → State → State) (f off size v : Nat) (s : State)
    (h0 : ∀ (y0 y1 : Nat) (y2 : State), lastSeq (w y0 y1 y2) = lastSeq y2) :
    lastSeq (sizedWrite w f off size v s) = lastSeq s := by
  simp [sizedWrite, *]

@[simp] theorem bar0Write_seq (f off size v : Nat) (s : State) : lastSeq (bar0Write f off size v s) = lastSeq s := by simp [bar0Write]

@[simp] theorem writeMsixControl_seq (f v : Nat) (s : State) : lastSeq (writeMsixControl f v s) = lastSeq s := by simp [writeMsixControl]

@[simp] theorem writeBar4Size_seq (f v : Nat) (s : State) : lastSeq (writeBar4Size f v s) = lastSeq s := by simp [writeBar4Size]

@[simp] theorem writePowerState_seq (f v : Nat) (s : State) : lastSeq (writePowerState f v s) = lastSeq s := by simp [writePowerState]

@[simp] theorem configWrite_seq (f : Nat) (r : CfgReg) (v : Nat) (s : State) : lastSeq (configWrite f r v s) = lastSeq s := by
  unfold configWrite
  (repeat' split) <;> simp

@[simp] theorem execW1cRegisterWrite_seq (fn off : Nat) (value : W32) (s : State) : SeqKept s (execW1cRegisterWrite fn off value s) := by
  simp [execW1cRegisterWrite]

@[simp] theorem execRegisterWrite_seq (t : RegTarget) (size : Nat) (value : W64) (s : State) : SeqKept s (execRegisterWrite t size value s) := by
  unfold execRegisterWrite
  split <;> simp

@[simp] theorem execScFurrowBudgetWrite_seq (fn stack : Nat) (value : W32) (s : State) : SeqKept s (execScFurrowBudgetWrite fn stack value s) := by
  simp [execScFurrowBudgetWrite]

@[simp] theorem execScPatrolCtrlWrite_seq (fn stack : Nat) (value : W32) (s : State) : SeqKept s (execScPatrolCtrlWrite fn stack value s) := by
  simp [execScPatrolCtrlWrite]

@[simp] theorem setPowerLimit_seq (v : Nat) (s : State) : lastSeq (setPowerLimit v s) = lastSeq s := by simp [setPowerLimit]

@[simp] theorem execPmPowerLimitWrite_seq (value : W32) (s : State) : SeqKept s (execPmPowerLimitWrite value s) := by simp [execPmPowerLimitWrite]

/-! ### Machine/Mgmt.lean -/

@[simp] theorem clearMgmt_seq (off : Nat) (s : State) : lastSeq (clearMgmt off s) = lastSeq s := by
  unfold clearMgmt
  split <;> simp

@[simp] theorem readMgmt_seq (x0 x1 : Nat) (x2 : State) : lastSeq (readMgmt x0 x1 x2).2 = lastSeq x2 := by
  induction x0 generalizing x1 x2 with
  | zero => rfl
  | succ n ih => simp [readMgmt, ih]

@[simp] theorem answer_seq (code status : Nat) (data : List Byte) (s : State) : lastSeq (answer code status data s) = lastSeq s := by simp [answer]

@[simp] theorem onHenua_seq (f : State → State) (s : State) (h0 : ∀ (y0 : State), lastSeq (f y0) = lastSeq y0) : SeqKept s (onHenua f s) := by
  simp [onHenua, *]

@[simp] theorem refuseSigned_seq (code : Nat) (s : State) : lastSeq (refuseSigned code s) = lastSeq s := by simp [refuseSigned]

/-- Where a meaning answers a next state, the last accepted sequence has not fallen. -/
def SeqRises (s : State) (r : Res) : Prop := ∀ t, r = .next t → (lastSeq s).toNat ≤ (lastSeq t).toNat

theorem SeqKept.rises {s : State} {r : Res} (h : SeqKept s r) : SeqRises s r := fun t e => Nat.le_of_eq (congrArg BitVec.toNat (h t e)).symm

/-- An accepted signature stands over a greater sequence (18 R437). -/
theorem lastSeq_le_acceptSeq {s : State} {p : MgmtPath} {a : Option MgmtAuth} {code : Nat} {params : List Nat} (good : signedOk s p a code params = true) :
    (lastSeq s).toNat ≤ (lastSeq (acceptSeq p a s)).toNat := by
  unfold signedOk at good
  split at good
  · exact Nat.le_refl _
  · next x =>
    rw [Bool.and_eq_true, Bool.and_eq_true, decide_eq_true_eq, mgmtSeq_henua] at good
    obtain ⟨⟨⟨above, fits⟩, -⟩, -⟩ := good
    show (lastSeq s).toNat ≤ (BitVec.ofNat 64 x.seq).toNat
    rw [BitVec.toNat_ofNat, Nat.mod_eq_of_lt fits]
    exact above.le
  · cases good

theorem signedCmd_rises (code : Nat) (p : MgmtPath) (a : Option MgmtAuth) (params : List Nat) (paramsOk needsValid : Bool) (f : State → State) (s : State)
    (h : ∀ u, lastSeq (f u) = lastSeq u) : SeqRises s (signedCmd code p a params paramsOk needsValid f s) := by
  intro t e
  unfold signedCmd onHenua at e
  cases e
  dsimp only
  split
  · split
    · simp
    · split
      · simp
      · next good =>
        rw [Bool.not_eq_true, Bool.not_eq_false'] at good
        split
        · simp
        · rw [h]
          exact lastSeq_le_acceptSeq good
  · exact Nat.le_refl _

@[simp] theorem execGetStatus_seq (_p : MgmtPath) (s : State) : SeqKept s (execGetStatus _p s) := by simp [execGetStatus]

@[simp] theorem execReadReg_seq (_p : MgmtPath) (off count : Nat) (s : State) : SeqKept s (execReadReg _p off count s) := by simp [execReadReg]

@[simp] theorem writeMgmt_seq (off v : Nat) (s : State) : lastSeq (writeMgmt off v s) = lastSeq s := by simp [writeMgmt]

theorem execWriteReg_rises (p : MgmtPath) (a : Option MgmtAuth) (off : Nat) (value : W32) (s : State) : SeqRises s (execWriteReg p a off value s) :=
  signedCmd_rises _ _ _ _ _ _ _ _ fun u => by simp

@[simp] theorem execEventRead_seq (_p : MgmtPath) (first max : Nat) (s : State) : SeqKept s (execEventRead _p first max s) := by
  simp [execEventRead]

@[simp] theorem execFaultHistoryRead_seq (_p : MgmtPath) (off len : Nat) (s : State) : SeqKept s (execFaultHistoryRead _p off len s) := by
  simp [execFaultHistoryRead]

@[simp] theorem execIdentityGet_seq (_p : MgmtPath) (s : State) : SeqKept s (execIdentityGet _p s) := by simp [execIdentityGet]

@[simp] theorem execHenuaAttest_seq (_p : MgmtPath) (nonce : List Byte) (tenant : Nat) (s : State) :
    SeqKept s (execHenuaAttest _p nonce tenant s) := by
  simp [execHenuaAttest]

@[simp] theorem execHenuaCounterPeek_seq (p : MgmtPath) (tenant ctr : Nat) (s : State) : SeqKept s (execHenuaCounterPeek p tenant ctr s) := by
  refine onHenua_seq _ _ fun u => ?_
  (repeat' split) <;> simp

@[simp] theorem forgetUnit_seq (x : UnitSum) (s : State) : lastSeq (forgetUnit x s) = lastSeq s := by
  unfold forgetUnit
  split <;> simp

theorem execFaultClear_rises (p : MgmtPath) (a : Option MgmtAuth) (cls unit : Nat) (s : State) : SeqRises s (execFaultClear p a cls unit s) := by
  unfold execFaultClear
  dsimp only
  refine signedCmd_rises _ _ _ _ _ _ _ _ fun u => ?_
  simp

theorem execHenuaPowerState_rises (p : MgmtPath) (a : Option MgmtAuth) (st : Nat) (s : State) : SeqRises s (execHenuaPowerState p a st s) :=
  signedCmd_rises _ _ _ _ _ _ _ _ fun u => by simp

theorem execHenuaCounterPoke_rises (p : MgmtPath) (a : Option MgmtAuth) (tenant ctr value : Nat) (s : State) :
    SeqRises s (execHenuaCounterPoke p a tenant ctr value s) := by
  refine signedCmd_rises _ _ _ _ _ _ _ _ fun u => ?_
  (repeat' split) <;> simp

@[simp] theorem putKey_seq (k : Nat) (g : KeySlot → KeySlot) (s : State) : lastSeq (putKey k g s) = lastSeq s := by simp [putKey]

@[simp] theorem execOwnerKeyProgram_seq (p : MgmtPath) (slot : Nat) (hash : List Byte) (s : State) :
    SeqKept s (execOwnerKeyProgram p slot hash s) := by
  simp [execOwnerKeyProgram]

theorem execKeyRevoke_rises (p : MgmtPath) (a : Option MgmtAuth) (slot : Nat) (s : State) : SeqRises s (execKeyRevoke p a slot s) := by
  refine signedCmd_rises _ _ _ _ _ _ _ _ fun u => ?_
  (repeat' split) <;> simp

theorem execRollbackCommit_rises (p : MgmtPath) (a : Option MgmtAuth) (s : State) : SeqRises s (execRollbackCommit p a s) := by
  refine signedCmd_rises _ _ _ _ _ _ _ _ fun u => ?_
  simp

theorem execMgmtNetConfig_rises (p : MgmtPath) (a : Option MgmtAuth) (record : List Byte) (s : State) : SeqRises s (execMgmtNetConfig p a record s) :=
  signedCmd_rises _ _ _ _ _ _ _ _ fun u => by simp

@[simp] theorem execPldmFirmwareUpdate_seq (p : MgmtPath) (image : List Byte) (s : State) : SeqKept s (execPldmFirmwareUpdate p image s) := by
  refine onHenua_seq _ _ fun u => ?_
  dsimp only
  (repeat' split) <;> simp

end Sys2Proof.Machine

/-! The signed commands (18 R437, R438): what one without a good signature leaves, and that no step lowers the last accepted sequence. -/

namespace Sys2Proof.Machine

/-! ### The sequence over a step -/

@[simp] theorem tick_seq (s : State) : lastSeq (tick s) = lastSeq s := by
  unfold tick
  dsimp only
  split <;> simp

@[simp] theorem seqKept_refused (s : State) (r : Refusal) : SeqKept s (.refused r) := by
  intro t e
  cases e

/-- No command lowers the last accepted sequence. -/
theorem exec_rises (i : Instr) (s : State) : SeqRises s (exec i s) := by
  cases i with
  | writeReg p a off value => exact execWriteReg_rises p a off value s
  | faultClear p a cls unit => exact execFaultClear_rises p a cls unit s
  | henuaPowerState p a st => exact execHenuaPowerState_rises p a st s
  | henuaCounterPoke p a tenant ctr value => exact execHenuaCounterPoke_rises p a tenant ctr value s
  | keyRevoke p a slot => exact execKeyRevoke_rises p a slot s
  | rollbackCommit p a => exact execRollbackCommit_rises p a s
  | mgmtNetConfig p a record => exact execMgmtNetConfig_rises p a record s
  | _ => exact SeqKept.rises (by simp [exec])

theorem step_rises {s t : State} (ran : step s = .next t) : (lastSeq s).toNat ≤ (lastSeq t).toNat := by
  unfold step at ran
  split at ran
  · cases ran
    rw [tick_seq]
  · exact exec_rises _ s.popped t ran

/-! ### A signed command without its signature -/

section
variable {s : State} {a : Option MgmtAuth} {code : Nat} {ps : List Nat} {ok nv : Bool} {f : State → State}

theorem signedCmd_bad (running : s.henua.up = true) (bad : ok = false) (p : MgmtPath) :
    signedCmd code p a ps ok nv f s = .next { s with out := s.out ++ [.mgmt code stBadDescriptor []] } := by
  subst bad
  unfold signedCmd onHenua
  rw [if_pos running]
  rfl

theorem signedCmd_unsigned (running : s.henua.up = true) (sound : ok = true) {p : MgmtPath} (unsigned : signedOk s p a code ps = false) :
    signedCmd code p a ps ok nv f s = .next (refuseSigned code s) := by
  subst sound
  unfold signedCmd onHenua
  rw [if_pos running]
  dsimp only
  rw [unsigned]
  rfl

/-- Over Ethernet a signature is good only where the three things of R437 hold. -/
theorem signedOk_ethernet_false (bad : ∀ x, a = some x → ¬(s.henua.mgmtSeq.toNat < x.seq ∧ x.seq < 2 ^ 64 ∧ ownerKey s x.pubKey = true ∧
    Config.mldsaVerify x.pubKey (signedBytes code x.seq ps) x.sig = true)) : signedOk s .ethernet a code ps = false := by
  cases a with
  | none => rfl
  | some x =>
    refine Bool.eq_false_iff.mpr fun good => bad x rfl ?_
    unfold signedOk at good
    rw [Bool.and_eq_true, Bool.and_eq_true, decide_eq_true_eq] at good
    obtain ⟨⟨⟨above, fits⟩, key⟩, signed⟩ := good
    exact ⟨above, fits, key, signed⟩

/-- A refusal is answered and changes nothing but the event store. -/
theorem refuseSigned_shape (code : Nat) (s : State) : ∃ events seq lost refused out, Output.mgmt code stWindow [] ∈ out ∧ refuseSigned code s =
    { s with out := out, henua := { s.henua with events := events, evtSeq := seq, evtLost := lost, refusedAt := refused } } := by
  unfold refuseSigned answer
  dsimp only
  split
  · exact ⟨_, _, _, _, _, List.mem_append_right _ List.mem_cons_self, rfl⟩
  · obtain ⟨events, seq, lost, out, shape⟩ := henuaEvent_shape (cls := 0x0B) (severity := 1) (payload := [code])
      (s := modHenua (fun h => { h with refusedAt := some s.henua.operating.toNat }) s)
    rw [shape]
    exact ⟨_, _, _, _, _, List.mem_append_right _ List.mem_cons_self, rfl⟩

/-- The commands of the table are the signed ones. -/
theorem exec_signedRow {cls unit st tenant ctr value slot off : Nat} {w : W32} {record : List Byte} {i : Instr}
    (row : (code, ps, ok, i) ∈ signedRow .ethernet a cls unit st tenant ctr value slot off w record) (s : State) :
    ∃ nv f, exec i s = signedCmd code .ethernet a ps ok nv f s := by
  simp only [signedRow, List.mem_cons, Prod.mk.injEq, List.not_mem_nil, or_false] at row
  rcases row with ⟨rfl, rfl, rfl, rfl⟩ | ⟨rfl, rfl, rfl, rfl⟩ | ⟨rfl, rfl, rfl, rfl⟩ | ⟨rfl, rfl, rfl, rfl⟩ | ⟨rfl, rfl, rfl, rfl⟩ |
    ⟨rfl, rfl, rfl, rfl⟩ | ⟨rfl, rfl, rfl, rfl⟩
  · exact ⟨_, _, execWriteReg.eq_def .ethernet a off w s⟩
  · exact ⟨_, _, execFaultClear.eq_def .ethernet a cls unit s⟩
  · exact ⟨_, _, execHenuaPowerState.eq_def .ethernet a st s⟩
  · exact ⟨_, _, execHenuaCounterPoke.eq_def .ethernet a tenant ctr value s⟩
  · exact ⟨_, _, execKeyRevoke.eq_def .ethernet a slot s⟩
  · exact ⟨_, _, execRollbackCommit.eq_def .ethernet a s⟩
  · exact ⟨_, _, execMgmtNetConfig.eq_def .ethernet a record s⟩

end

/-- Settles O58. A row of the table is `signedCmd` of its parameters (`exec_signedRow`), which answers bad ones and refuses what
`signedOk` does not hold of; no function of the model but `acceptSeq` touches the sequence, and it raises it. -/
theorem signedCommandsNeedTheirSignature : Obligations.SignedCommandsNeedTheirSignature := by
  refine ⟨fun s a cls unit st tenant ctr value slot off code w record ps ok i running row => ?_, fun s t ran => step_rises ran⟩
  obtain ⟨nv, f, meaning⟩ := exec_signedRow row s
  refine ⟨fun bad => meaning.trans (signedCmd_bad running bad _), fun sound unsigned => ?_⟩
  obtain ⟨events, seq, lost, refused, out, told, shape⟩ := refuseSigned_shape code s
  refine ⟨_, meaning.trans (signedCmd_unsigned running sound (signedOk_ethernet_false unsigned)), ?_, ?_⟩
  · rw [shape]
    exact told
  · rw [shape]

end Sys2Proof.Machine
